-- ==== Sys2Proof/Word.lean ====
section
/-! DEFINITION. The machine words (spec/00_scope.md R5, R6, R11) and the sparse table that every numbered collection of
components uses: a list of (key, value) pairs with rising keys, where an unlisted key holds a default component. -/

namespace Sys2Proof

abbrev Byte := BitVec 8
abbrev Half := BitVec 16
abbrev W32 := BitVec 32
abbrev Word := BitVec 64
/-- A vector register: 64 byte lanes, byte lane i at bits [8i+7:8i] (spec/06_vector.md R140). -/
abbrev VWord := BitVec 512

/-- Components by number; the keys rise. -/
abbrev Table (α : Type) := List (Nat × α)

/-- The component with number `k`, or the default `d`. -/
def Table.get {α : Type} (d : α) : Table α → Nat → α
  | [], _ => d
  | (k', v) :: t, k => if k' = k then v else Table.get d t k

/-- The table with component `k` replaced by `v`. -/
def Table.set {α : Type} : Table α → Nat → α → Table α
  | [], k, v => [(k, v)]
  | (k', v') :: t, k, v =>
    if k' = k then (k, v) :: t
    else if k < k' then (k, v) :: (k', v') :: t
    else (k', v') :: Table.set t k v

/-- The table without component `k`. -/
def Table.del {α : Type} (t : Table α) (k : Nat) : Table α := t.filter (fun e => e.1 ≠ k)

theorem Table.get_set_same {α : Type} (d : α) (t : Table α) (k : Nat) (v : α) :
    Table.get d (Table.set t k v) k = v := by
  induction t with
  | nil => simp [Table.set, Table.get]
  | cons e t ih =>
    obtain ⟨k', v'⟩ := e
    simp only [Table.set]
    split
    · simp [Table.get]
    · split
      · simp [Table.get]
      · simp [Table.get, *]

theorem Table.get_set_other {α : Type} (d : α) (t : Table α) {k j : Nat} (v : α) (h : j ≠ k) :
    Table.get d (Table.set t k v) j = Table.get d t j := by
  have h' : ¬ k = j := fun e => h e.symm
  induction t with
  | nil => simp [Table.set, Table.get, h']
  | cons e t ih =>
    obtain ⟨k', v'⟩ := e
    simp only [Table.set]
    split
    · subst_vars; simp [Table.get, h']
    · split
      · simp [Table.get, h']
      · simp only [Table.get, ih]

theorem Table.get_del_same {α : Type} (d : α) (t : Table α) (k : Nat) :
    Table.get d (Table.del t k) k = d := by
  induction t with
  | nil => simp [Table.del, Table.get]
  | cons e t ih =>
    obtain ⟨k', v'⟩ := e
    by_cases hk : k' = k
    · simpa [Table.del, hk] using ih
    · simpa [Table.del, hk, Table.get] using ih

theorem Table.get_del_other {α : Type} (d : α) (t : Table α) {k j : Nat} (h : j ≠ k) :
    Table.get d (Table.del t k) j = Table.get d t j := by
  induction t with
  | nil => simp [Table.del, Table.get]
  | cons e t ih =>
    obtain ⟨k', v'⟩ := e
    by_cases hk : k' = k
    · have hj : ¬ k' = j := fun e => h (e.symm.trans hk)
      have hj' : ¬ k = j := fun e => h e.symm
      simpa [Table.del, hk, Table.get, hj, hj'] using ih
    · simp only [Table.del, ne_eq, hk, not_false_eq_true, decide_true, List.filter_cons_of_pos, Table.get] at ih ⊢
      split
      · rfl
      · exact ih

/-- 1 for true, 0 for false. -/
def bit (b : Bool) : Nat := if b then 1 else 0

end Sys2Proof
end

