-- ==== Sys2Proof/Link.lean ====
section
/-! DEFINITION. What reaches a module from outside: the TDISP requests of a host (spec/21_host.md R471) and the messages of
other modules over the torus links (spec/11_supersteps.md R276-R298, spec/14_timetables.md R349, spec/15_amplitudes.md R395,
spec/19_survival.md R453-R460). -/

namespace Sys2Proof

/-- Requests that move a TDISP state. -/
inductive TdispRequest where
  | lock
  | start
  | stop
  deriving DecidableEq, Repr

/-- A message between modules, authenticated by R482. -/
inductive LinkMsg where
  /-- A staged write with its StageKey (R276). -/
  | write (ctx addr smod gcore seqno : Nat) (data : List Byte)
  /-- A staged RAMO: function, operand, compare value, and the register that receives the result (R290). -/
  | ramo (ctx addr smod gcore seqno f : Nat) (x cmp : Word) (core slot d : Nat)
  /-- A cross-module SEND (spec/04_threads.md R96). -/
  | send (ctx addr smod gcore seqno : Nat) (place : Word) (cls : Nat) (payload : List Word) (sender : BitVec 32)
  /-- A GET or GET.B to be served here, and the answer to one of this module's (R289). -/
  | getRequest (ctx addr len smod id : Nat)
  | getReply (id : Nat) (ok : Bool) (data : List Byte)
  /-- The result of a RAMO of this module, known at the commit. -/
  | ramoResult (ctx core slot d : Nat) (value : Word)
  /-- Abort votes of another module (R281). -/
  | vote (ctx : Nat) (mask : BitVec 8)
  /-- Every participant of another module of the job has arrived, with the vote words (R272), its QCFG and the values of its
  QPROBs and QNORMs (R397), whether its sweeps have agreed (R294), and the change of the
  armed table recorded there in the superstep with its order key (spec/14_timetables.md R362). -/
  | arrived (ctx module : Nat) (votes : List Word) (quiet : Bool) (qcfg : Word) (values : List Nat) (swept : Bool)
      (arm : Option (Nat × Option (Nat × Bool × Bool)))
  /-- The root's decision (R272), with the result word of a commit, the sums of R397 whether the commit secures
  (spec/19_survival.md R454), whether a pre-emption and a halt take effect at it (R298), and the change of the armed table that
  stands for the whole job (spec/14_timetables.md R362). -/
  | decision (ctx : Nat) (commit : Bool) (result : Word) (mask : BitVec 8) (sums : List Nat) (secures stops halts : Bool)
      (arm : Option (Nat × Option (Nat × Bool × Bool)))
  /-- A module's commit or rollback is complete (R296, R297), and whether any of its records is valid (R295). -/
  | complete (ctx module : Nat) (live : Bool)
  /-- The root's release (R278). -/
  | release (ctx : Nat)
  /-- A timed beat for port 4 of a link router: the job it belongs to, the sending module and the table cycle that consumes it,
  and the key id under which it is encrypted (spec/14_timetables.md R349, R350, R359). -/
  | beat (ctx smod core cycle : Nat) (kid : Option Nat) (data : BitVec 256)
  /-- One cycle of slip of a wave that crosses to this link router (R367): its job and table, the module and router that raised it,
  and its number there. -/
  | slip (ctx id core smod origin n : Nat)
  /-- The partner has accepted a page of the moving half of a module-bit swap, and a page of such a half (R395). -/
  | swapAccepted (ctx index : Nat)
  | swapHalf (ctx index : Nat) (data : List Byte)
  /-- The feed id of a module asked to be the buddy, and whether its region meets R452 (spec/19_survival.md R457). -/
  | feed (ctx module feed : Nat) (ok : Bool)
  /-- Another module reports its seal written, and the root's close of the secure with the new cost (R454);
  `ok` is false where a secure is abandoned (R455). -/
  | sealed (ctx module : Nat) (ok : Bool)
  | secured (ctx cost : Nat) (ok : Bool)
  /-- A request for the feed id and region of this module (R457), and a request to this module as buddy for the image of a superstep
  number in the region of two sides of `nf` × 256 frames from `first` on (R460), with the side and the frames as they come back. -/
  | feedRequest (ctx smod first nf : Nat)
  | fillRequest (ctx smod first nf number : Nat)
  | imageFrame (ctx side index : Nat) (data : List Byte)
  /-- The spare that the host has named on a module other than the root; the root's start of a fill with the image of a number; and
  what the spare takes up for it: the failed module whose image and record, with its securing word, it receives, the
  surviving modules, their securing words, JOBID, the data-parallel members alive, SVRATE and the failures (R460). -/
  | spare (ctx module : Nat)
  | fill (ctx spare number : Nat)
  | spareFill (ctx number failed : Nat) (record : List Word) (modules : List Nat) (words : List (Nat × Word)) (jobid : Word)
      (live c m fails : Nat)
  /-- A module's securing word, with the buddy that holds the image its svsec names (R460). -/
  | secWord (ctx module : Nat) (w : Word)
  /-- svctl.now was written on a module other than the root (R454), and the root's SVRATE and failure count (R456). -/
  | secureNow (ctx : Nat)
  | svrate (ctx c m fails : Nat)
  /-- Another module has placed its part of a launch, with its own securing word (spec/19_survival.md R451), or has
  refused it (spec/17_launch.md R425). -/
  | placed (ctx module : Nat) (w : Word)
  | withdrawn (ctx : Nat)
  /-- A request for a pre-emption (0) or a halt (1), a kill (2), a retry (3), a debug run (4), an end with
  state 4 (5), the end of a fill that has no image (6), mar = 0 or 1 (7, 8), bh = 0 or 1 (9, 10), or the first step of a halted
  superstep (11) (R283, R298, R299, spec/18_traps.md R445, spec/19_survival.md R460, spec/20_accounting.md R469, R470). -/
  | request (ctx kind : Nat)
  /-- A debug step of a thread of another module, by its identity word, for the module that asks; and what it reports
  (spec/20_accounting.md R470). -/
  | debugStep (ctx : Nat) (id : BitVec 32) (asker : Nat)
  | stepReport (ctx : Nat) (code : BitVec 4)
  /-- Whether a module's part of the job is still, and then whether a thread is Parked there (spec/18_traps.md R450). -/
  | still (ctx module : Nat) (parked : Option Bool)
  /-- The root stops the launch: 4 killed, 6 stopped (R283, R301). -/
  | stop (ctx state : Nat)
  /-- A physical copy of another module writes frames here (spec/13_copy.md R347). -/
  | frameWrite (addr : Nat) (data : List Byte)
  deriving DecidableEq, Repr

/-- A message as a link carries it, with the module that sent it (spec/19_survival.md R458; PRESUMED, log entry 70). -/
structure Flit where
  smod : BitVec 12
  msg : LinkMsg
  deriving DecidableEq, Repr

end Sys2Proof
end

