-- ==== Sys2Proof/Syntax.lean ====
section
/-! DEFINITION. The instructions and events of a W24 module: one constructor for each row of the opcode table: the
encoded rows with operands in the table's order, the encoded rows without, then the events.  The encoded rows carry the fields of their layout (spec/02_encoding.md R34, R39, R41, R43); an
immediate is the FORMED 64-bit value of R36, whichever prefixes formed it.  The event rows carry what names the
agent that moves. -/

namespace Sys2Proof

/-- One row of the opcode table. -/
inductive Instr where
  /-- ADD (R129): Writes the sum of g[a] and g[b] modulo 2^64 to g[d]. -/
  | add (d a b : BitVec 5)
  /-- SUB (R129): Writes g[a] minus g[b] modulo 2^64 to g[d]. -/
  | sub (d a b : BitVec 5)
  /-- AND (R129): Writes the bitwise AND of g[a] and g[b] to g[d]. -/
  | and (d a b : BitVec 5)
  /-- OR (R129): Writes the bitwise OR of g[a] and g[b] to g[d]. -/
  | or (d a b : BitVec 5)
  /-- XOR (R129): Writes the bitwise XOR of g[a] and g[b] to g[d]. -/
  | xor (d a b : BitVec 5)
  /-- SLL (R129): Shifts g[a] left by g[b][5:0]. -/
  | sll (d a b : BitVec 5)
  /-- SRL (R129): Shifts g[a] right logically by g[b][5:0]. -/
  | srl (d a b : BitVec 5)
  /-- SRA (R129): Shifts g[a] right arithmetically by g[b][5:0]. -/
  | sra (d a b : BitVec 5)
  /-- SLT (R129): Writes 1 if g[a] is less than g[b] signed, else 0. -/
  | slt (d a b : BitVec 5)
  /-- SLTU (R129): Writes 1 if g[a] is less than g[b] unsigned, else 0. -/
  | sltu (d a b : BitVec 5)
  /-- ANDN (R129): Writes g[a] AND NOT g[b]. -/
  | andn (d a b : BitVec 5)
  /-- ORN (R129): Writes g[a] OR NOT g[b]. -/
  | orn (d a b : BitVec 5)
  /-- ADDI (R130): Adds the formed signed immediate to g[a]. -/
  | addi (d a : BitVec 5) (imm : BitVec 64)
  /-- SLTI (R130): Writes 1 if g[a] is less than the immediate, signed. -/
  | slti (d a : BitVec 5) (imm : BitVec 64)
  /-- SLTIU (R130): Writes 1 if g[a] is less than the sign-extended immediate, unsigned. -/
  | sltiu (d a : BitVec 5) (imm : BitVec 64)
  /-- ANDI (R130): ANDs g[a] with the immediate. -/
  | andi (d a : BitVec 5) (imm : BitVec 64)
  /-- ORI (R130): ORs g[a] with the immediate. -/
  | ori (d a : BitVec 5) (imm : BitVec 64)
  /-- XORI (R130): XORs g[a] with the immediate. -/
  | xori (d a : BitVec 5) (imm : BitVec 64)
  /-- SLLI (R130): Shifts g[a] left by an immediate amount 0-63. -/
  | slli (d a : BitVec 5) (sh : BitVec 6)
  /-- SRLI (R130): Shifts g[a] right logically by an immediate amount. -/
  | srli (d a : BitVec 5) (sh : BitVec 6)
  /-- SRAI (R130): Shifts g[a] right arithmetically by an immediate amount. -/
  | srai (d a : BitVec 5) (sh : BitVec 6)
  /-- LIH (R131): Writes imm times 2^11 to g[d]. -/
  | lih (d : BitVec 5) (imm : BitVec 64)
  /-- PCH (R131): Writes the PC plus imm times 2^11 to g[d]. -/
  | pch (d : BitVec 5) (imm : BitVec 64)
  /-- MUL (R132): Writes the low 64 bits of the product. -/
  | mul (d a b : BitVec 5)
  /-- MULH (R132): Writes the high 64 bits of the signed product. -/
  | mulh (d a b : BitVec 5)
  /-- MULHU (R132): Writes the high 64 bits of the unsigned product. -/
  | mulhu (d a b : BitVec 5)
  /-- MULHSU (R132): Writes the high 64 bits of the signed-by-unsigned product. -/
  | mulhsu (d a b : BitVec 5)
  /-- DIV (R132): Signed division truncated toward zero, using the core divider. -/
  | div (d a b : BitVec 5)
  /-- DIVU (R132): Unsigned division, using the core divider. -/
  | divu (d a b : BitVec 5)
  /-- REM (R132): Signed remainder with the sign of the dividend. -/
  | rem (d a b : BitVec 5)
  /-- REMU (R132): Unsigned remainder. -/
  | remu (d a b : BitVec 5)
  /-- CLZ (R133): Counts leading zero bits of g[a]. -/
  | clz (d a : BitVec 5)
  /-- CTZ (R133): Counts trailing zero bits of g[a]. -/
  | ctz (d a : BitVec 5)
  /-- POPC (R133): Counts the one bits of g[a]. -/
  | popc (d a : BitVec 5)
  /-- BREV (R133): Reverses the bit order of g[a]. -/
  | brev (d a : BitVec 5)
  /-- BEXT (R133): Gathers the bits of g[a] selected by g[b] into the low bits. -/
  | bext (d a b : BitVec 5)
  /-- BDEP (R133): Scatters the low bits of g[a] to the positions selected by g[b]. -/
  | bdep (d a b : BitVec 5)
  /-- MIN (R133): Writes the signed minimum. -/
  | min (d a b : BitVec 5)
  /-- MAX (R133): Writes the signed maximum. -/
  | max (d a b : BitVec 5)
  /-- MINU (R133): Writes the unsigned minimum. -/
  | minu (d a b : BitVec 5)
  /-- MAXU (R133): Writes the unsigned maximum. -/
  | maxu (d a b : BitVec 5)
  /-- SEL (R133): Writes g[a] if g[d] is nonzero, else g[b]. -/
  | sel (d a b : BitVec 5)
  /-- BEQ (R134): Branches by a halfword offset when g[a] equals g[b]. -/
  | beq (a b : BitVec 5) (off : BitVec 64)
  /-- BNE (R134): Branches when g[a] differs from g[b]. -/
  | bne (a b : BitVec 5) (off : BitVec 64)
  /-- BLT (R134): Branches when g[a] is less than g[b], signed. -/
  | blt (a b : BitVec 5) (off : BitVec 64)
  /-- BGE (R134): Branches when g[a] is at least g[b], signed. -/
  | bge (a b : BitVec 5) (off : BitVec 64)
  /-- BLTU (R134): Branches when g[a] is less than g[b], unsigned. -/
  | bltu (a b : BitVec 5) (off : BitVec 64)
  /-- BGEU (R134): Branches when g[a] is at least g[b], unsigned. -/
  | bgeu (a b : BitVec 5) (off : BitVec 64)
  /-- JAL (R135): Writes the next PC to g1 and jumps by a halfword offset. -/
  | jal (off : BitVec 64)
  /-- JALR (R136): Jumps to g[a] plus imm and writes the next PC to g[d]; an odd target raises MISALIGN. -/
  | jalr (d a : BitVec 5) (imm : BitVec 64)
  /-- LB (R175): Loads a sign-extended byte. -/
  | lb (d a : BitVec 5) (imm : BitVec 64)
  /-- LH (R175): Loads a sign-extended halfword. -/
  | lh (d a : BitVec 5) (imm : BitVec 64)
  /-- LW (R175): Loads a sign-extended word. -/
  | lw (d a : BitVec 5) (imm : BitVec 64)
  /-- LD (R175): Loads a doubleword. -/
  | ld (d a : BitVec 5) (imm : BitVec 64)
  /-- LBU (R175): Loads a zero-extended byte. -/
  | lbu (d a : BitVec 5) (imm : BitVec 64)
  /-- LHU (R175): Loads a zero-extended halfword. -/
  | lhu (d a : BitVec 5) (imm : BitVec 64)
  /-- LWU (R175): Loads a zero-extended word. -/
  | lwu (d a : BitVec 5) (imm : BitVec 64)
  /-- SB (R175): Appends a byte store to the store buffer after its checks and pre-images. -/
  | sb (a b : BitVec 5) (off : BitVec 64)
  /-- SH (R175): Appends a halfword store to the store buffer. -/
  | sh (a b : BitVec 5) (off : BitVec 64)
  /-- SW (R175): Appends a word store to the store buffer. -/
  | sw (a b : BitVec 5) (off : BitVec 64)
  /-- SD (R175): Appends a doubleword store to the store buffer. -/
  | sd (a b : BitVec 5) (off : BitVec 64)
  /-- AMOADD (R199): Atomically adds g[b] to the die-memory doubleword at g[a] and returns the old value. -/
  | amoadd (d a b : BitVec 5)
  /-- AMOAND (R199): Atomic AND. -/
  | amoand (d a b : BitVec 5)
  /-- AMOOR (R199): Atomic OR. -/
  | amoor (d a b : BitVec 5)
  /-- AMOXOR (R199): Atomic XOR. -/
  | amoxor (d a b : BitVec 5)
  /-- AMOMIN (R199): Atomic signed minimum. -/
  | amomin (d a b : BitVec 5)
  /-- AMOMAX (R199): Atomic signed maximum. -/
  | amomax (d a b : BitVec 5)
  /-- AMOMINU (R199): Atomic unsigned minimum. -/
  | amominu (d a b : BitVec 5)
  /-- AMOMAXU (R199): Atomic unsigned maximum. -/
  | amomaxu (d a b : BitVec 5)
  /-- AMOSWAP (R199): Atomic swap. -/
  | amoswap (d a b : BitVec 5)
  /-- AMOCAS (R199): Atomic compare-and-swap against g[d]. -/
  | amocas (d a b : BitVec 5)
  /-- FENCE_SC (R214): Drains the store buffer and, for wider scopes, waits for capture or link acceptance of far operations. -/
  | fenceSc (s : BitVec 2)
  /-- BADD_W128 (R202): Adds a 128-bit register pair to a 128-bit die-memory word and returns the carry-out. -/
  | baddW128 (d a b : BitVec 5)
  /-- BVADD_F (R203): Adds local-store FP32 elements into a die-memory target at the bank. -/
  | bvaddF (n a b : BitVec 5)
  /-- BVADD_BH (R203): Adds BF16 elements into a die-memory target at the bank. -/
  | bvaddBh (n a b : BitVec 5)
  /-- BVMAX_F (R203): Element-wise FP32 maximum at the bank. -/
  | bvmaxF (n a b : BitVec 5)
  /-- BVMAX_BH (R203): Element-wise BF16 maximum at the bank. -/
  | bvmaxBh (n a b : BitVec 5)
  /-- BRED_F (R203): Folds FP32 source elements into one FP32 target word. -/
  | bredF (n a b : BitVec 5)
  /-- BRED_BH (R203): Folds BF16 source elements into one FP32 target word. -/
  | bredBh (n a b : BitVec 5)
  /-- GET (R289): Reads 8 bytes of the committed image at a target, empting g[d] until filled. -/
  | get (d a b : BitVec 5)
  /-- GET_B (R289): Copies committed bytes from a target into local store and fills a status word. -/
  | getB (d a b : BitVec 5)
  /-- PUT (R289): Stages an 8-byte write of g[d] to the target. -/
  | put (d a b : BitVec 5)
  /-- PUT_B (R289): Captures local-store bytes and stages a block write to the target. -/
  | putB (d a b : BitVec 5)
  /-- RAMO_ADD (R290): Stages a remote atomic add whose result fills at release. -/
  | ramoAdd (d a b : BitVec 5)
  /-- RAMO_AND (R290): Stages a remote atomic AND. -/
  | ramoAnd (d a b : BitVec 5)
  /-- RAMO_OR (R290): Stages a remote atomic OR. -/
  | ramoOr (d a b : BitVec 5)
  /-- RAMO_XOR (R290): Stages a remote atomic XOR. -/
  | ramoXor (d a b : BitVec 5)
  /-- RAMO_MIN (R290): Stages a remote atomic signed minimum. -/
  | ramoMin (d a b : BitVec 5)
  /-- RAMO_MAX (R290): Stages a remote atomic signed maximum. -/
  | ramoMax (d a b : BitVec 5)
  /-- RAMO_MINU (R290): Stages a remote atomic unsigned minimum. -/
  | ramoMinu (d a b : BitVec 5)
  /-- RAMO_MAXU (R290): Stages a remote atomic unsigned maximum. -/
  | ramoMaxu (d a b : BitVec 5)
  /-- RAMO_SWAP (R290): Stages a remote atomic swap. -/
  | ramoSwap (d a b : BitVec 5)
  /-- RAMO_CAS (R290): Stages a remote compare-and-swap with the new value from g[d+1]. -/
  | ramoCas (d a b : BitVec 5)
  /-- SPAWN (R95): Starts or queues a child thread with a copy of n registers and writes a result word. -/
  | spawn (d a b : BitVec 5) (n : BitVec 6)
  /-- SEND (R96): Delivers an active message of class c with n payload registers, at once on the die or staged across dies. -/
  | send (a b n : BitVec 5) (c : BitVec 6)
  /-- SLEEP (R110): Parks the thread for a cycle count taken from g[a]. -/
  | sleep (a : BitVec 5)
  /-- PROBE (R89): Writes the full bit of g[a] to g[d] without parking. -/
  | probe (d a : BitVec 5)
  /-- PROBE_V (R89): Writes the full bit of v[a] to g[d]. -/
  | probeV (d a : BitVec 5)
  /-- EMPTY (R89): Marks g[a] empty. -/
  | empty (a : BitVec 5)
  /-- EMPTY_V (R89): Marks v[a] empty. -/
  | emptyV (a : BitVec 5)
  /-- QPUSH (R91): Appends g[a] to q0 or q1, parking while full. -/
  | qpush (d a : BitVec 5)
  /-- QPOP (R91): Pops the oldest entry of q2 or q3 into g[d], parking while empty. -/
  | qpop (d a : BitVec 5)
  /-- QLEN (R91): Writes the entry count of a queue to g[d]. -/
  | qlen (d a : BitVec 5)
  /-- LCW (R147): Writes a loop count register, affecting a running or queued loop of that level. -/
  | lcw (d a : BitVec 5)
  /-- LCR (R145): Reads a loop count into g[d]. -/
  | lcr (d a : BitVec 5)
  /-- LBW (R145): Latches or clears the pending loop bounds of a level. -/
  | lbw (d a : BitVec 5)
  /-- SYNC (R269): Checks the vote word and keep mask, waits for drains and arrives at the shutter with a continuation record. -/
  | sync (d a b : BitVec 5)
  /-- SYNC_Q (R293): Arrives like SYNC but frees the slot while its record is held, making the shutter quiescent. -/
  | syncQ (d a b : BitVec 5)
  /-- PFL (R245): Stages the pages of a list into slices as pending lines. -/
  | pfl (a : BitVec 5)
  /-- WBL (R246): Requests write-back and optional eviction of listed pages after the next commit. -/
  | wbl (a : BitVec 5)
  /-- SSNO (R266): Writes the superstep number to g[d]. -/
  | ssno (d : BitVec 5)
  /-- MCFG (R313): Queues a configuration change or clear of an accumulator slot. -/
  | mcfg (a : BitVec 5)
  /-- MJOB (R318): Reads a job descriptor and posts a matrix job to the core queue and dependence graph. -/
  | mjob (d a b : BitVec 5)
  /-- MDRAIN (R327): Checks and prepares a destination and posts a drain of an accumulator slot. -/
  | mdrain (d a b : BitVec 5)
  /-- MSTAT (R315): Waits for the thread's earlier matrix operations and writes the slot status word. -/
  | mstat (d : BitVec 5)
  /-- XCOPY (R337): Posts a linear byte copy. -/
  | xcopy (d a b : BitVec 5)
  /-- XCOPY_T (R337): Posts a copy between two 4-D tensor views. -/
  | xcopyT (d a b : BitVec 5)
  /-- XPLANE (R337): Posts a conversion of an element array into a plane image. -/
  | xplane (d a b : BitVec 5)
  /-- XUNPLANE (R337): Posts a conversion of a plane image into an element array. -/
  | xunplane (d a b : BitVec 5)
  /-- XFILL (R337): Posts a fill with a repeated 8-byte pattern. -/
  | xfill (d a b : BitVec 5)
  /-- XGATHER (R337): Posts an indexed gather of elements. -/
  | xgather (d a b : BitVec 5)
  /-- XCOPY_NEXT (R340): Posts a linear copy staged for the next superstep. -/
  | xcopyNext (a b : BitVec 5)
  /-- XCOPY_T_NEXT (R340): Posts a tensor-view copy staged for the next superstep. -/
  | xcopyTNext (a b : BitVec 5)
  /-- XPLANE_NEXT (R340): Posts a plane conversion staged for the next superstep. -/
  | xplaneNext (a b : BitVec 5)
  /-- XUNPLANE_NEXT (R340): Posts an unplane conversion staged for the next superstep. -/
  | xunplaneNext (a b : BitVec 5)
  /-- XFILL_NEXT (R340): Posts a fill staged for the next superstep. -/
  | xfillNext (a b : BitVec 5)
  /-- XGATHER_NEXT (R340): Posts a gather staged for the next superstep. -/
  | xgatherNext (a b : BitVec 5)
  /-- TTLOAD (R357): Checks and loads a timetable image into the routers, marking entries fresh. -/
  | ttload (d a : BitVec 5)
  /-- TTLOAD_K (R373): Loads a timetable image keeping error-feedback residuals. -/
  | ttloadK (d a : BitVec 5)
  /-- TTGO_ARM (R362): Records a pending arm of a timetable for the job. -/
  | ttgoArm (a : BitVec 5)
  /-- TTGO_DISARM (R362): Records a pending disarm of the armed table. -/
  | ttgoDisarm (a : BitVec 5)
  /-- TTGO_POST (R363): Opens the core's gate for the armed table and empties the completion register. -/
  | ttgoPost (a : BitVec 5)
  /-- TTGO_FREE (R362): Frees a loaded timetable at the next commit. -/
  | ttgoFree (a : BitVec 5)
  /-- QGATE (R392): Queues a controlled gate pass on the amplitude state. -/
  | qgate (d a b : BitVec 5)
  /-- QGATE_AUTO (R393): Queues a gate pass preceded by swaps of outer targets to local bits. -/
  | qgateAuto (d a b : BitVec 5)
  /-- QSWAP (R394): Queues a pass exchanging a local bit with an outer bit. -/
  | qswap (d a : BitVec 5)
  /-- QPROB (R396): Queues a probability sum over amplitudes with a qubit set. -/
  | qprob (d a : BitVec 5)
  /-- QNORM (R396): Queues the squared-norm sum of the state. -/
  | qnorm (d : BitVec 5)
  /-- QSAMP (R398): Draws a PRNG value and queues a sample of a basis state. -/
  | qsamp (d a : BitVec 5)
  /-- QGATE_D (R392): QGATE on a complex FP64 state. -/
  | qgateD (d a b : BitVec 5)
  /-- QGATE_AUTO_D (R393): QGATE.AUTO on a complex FP64 state. -/
  | qgateAutoD (d a b : BitVec 5)
  /-- QSWAP_D (R394): QSWAP on a complex FP64 state. -/
  | qswapD (d a : BitVec 5)
  /-- QPROB_D (R396): QPROB on a complex FP64 state. -/
  | qprobD (d a : BitVec 5)
  /-- QNORM_D (R396): QNORM on a complex FP64 state. -/
  | qnormD (d : BitVec 5)
  /-- QSAMP_D (R398): QSAMP on a complex FP64 state. -/
  | qsampD (d a : BitVec 5)
  /-- HOFFER (R405): Sets the core's offer mask of leasable granules. -/
  | hoffer (a : BitVec 5)
  /-- HSTAT (R406): Writes the harvest status word for the caller's side. -/
  | hstat (d : BitVec 5)
  /-- LEAVE (R480): Asks the power governor to add units to the context's reservation. -/
  | leave (d a : BitVec 5)
  /-- LEAVE_REL (R480): Lowers the context's leave reservation. -/
  | leaveRel (a : BitVec 5)
  /-- SYSR (R438): Reads a system register into g[d] after privilege checks. -/
  | sysr (d : BitVec 5) (n : BitVec 11)
  /-- SYSW (R438): Writes a system register field by field; the row for registers without behaviour of their own. -/
  | sysw (n : BitVec 11) (a : BitVec 5)
  /-- SFENCE_V_PAGE (R262): Shoots down translations of one page on every slice. -/
  | sfenceVPage (a : BitVec 5)
  /-- SFENCE_V_CONTEXT (R262): Shoots down translations of one context. -/
  | sfenceVContext (a : BitVec 5)
  /-- SFENCE_V_ALL (R262): Shoots down translations of every context. -/
  | sfenceVAll (a : BitVec 5)
  /-- SFENCE_V_PUBLISH (R255): Publishes a page, filling every waiting ticket with the notice word. -/
  | sfenceVPublish (a : BitVec 5)
  /-- INJECT (R443): Damages check bits of one stored doubleword when armed. -/
  | inject (a : BitVec 5)
  /-- REPORT (R466): Writes and signs a counter report area for a context. -/
  | report (a : BitVec 5)
  /-- VADD (R151): Element-wise integer add. -/
  | vadd (t : BitVec 4) (m : BitVec 3) (d a b : BitVec 5)
  /-- VSUB (R151): Element-wise integer subtract. -/
  | vsub (t : BitVec 4) (m : BitVec 3) (d a b : BitVec 5)
  /-- VMUL (R151): Element-wise integer multiply, low half. -/
  | vmul (t : BitVec 4) (m : BitVec 3) (d a b : BitVec 5)
  /-- VMULH (R151): Element-wise integer multiply, high half. -/
  | vmulh (t : BitVec 4) (m : BitVec 3) (d a b : BitVec 5)
  /-- VAND (R151): Element-wise AND. -/
  | vand (t : BitVec 4) (m : BitVec 3) (d a b : BitVec 5)
  /-- VOR (R151): Element-wise OR. -/
  | vor (t : BitVec 4) (m : BitVec 3) (d a b : BitVec 5)
  /-- VXOR (R151): Element-wise XOR. -/
  | vxor (t : BitVec 4) (m : BitVec 3) (d a b : BitVec 5)
  /-- VANDN (R151): Element-wise AND-NOT. -/
  | vandn (t : BitVec 4) (m : BitVec 3) (d a b : BitVec 5)
  /-- VSLL (R151): Element-wise left shift. -/
  | vsll (t : BitVec 4) (m : BitVec 3) (d a b : BitVec 5)
  /-- VSRL (R151): Element-wise logical right shift. -/
  | vsrl (t : BitVec 4) (m : BitVec 3) (d a b : BitVec 5)
  /-- VSRA (R151): Element-wise arithmetic right shift. -/
  | vsra (t : BitVec 4) (m : BitVec 3) (d a b : BitVec 5)
  /-- VMIN (R151): Element-wise integer minimum. -/
  | vmin (t : BitVec 4) (m : BitVec 3) (d a b : BitVec 5)
  /-- VMAX (R151): Element-wise integer maximum. -/
  | vmax (t : BitVec 4) (m : BitVec 3) (d a b : BitVec 5)
  /-- VADDS (R151): Element-wise saturating add. -/
  | vadds (t : BitVec 4) (m : BitVec 3) (d a b : BitVec 5)
  /-- VSUBS (R151): Element-wise saturating subtract. -/
  | vsubs (t : BitVec 4) (m : BitVec 3) (d a b : BitVec 5)
  /-- VFADD (R152): Element-wise floating add under the captured mode. -/
  | vfadd (t : BitVec 4) (m : BitVec 3) (d a b : BitVec 5)
  /-- VFSUB (R152): Element-wise floating subtract. -/
  | vfsub (t : BitVec 4) (m : BitVec 3) (d a b : BitVec 5)
  /-- VFMUL (R152): Element-wise floating multiply. -/
  | vfmul (t : BitVec 4) (m : BitVec 3) (d a b : BitVec 5)
  /-- VFDIV (R152): Element-wise floating divide on the vector divider. -/
  | vfdiv (t : BitVec 4) (m : BitVec 3) (d a b : BitVec 5)
  /-- VFMIN (R152): Element-wise floating minimum. -/
  | vfmin (t : BitVec 4) (m : BitVec 3) (d a b : BitVec 5)
  /-- VFMAX (R152): Element-wise floating maximum. -/
  | vfmax (t : BitVec 4) (m : BitVec 3) (d a b : BitVec 5)
  /-- VRCPS (R152): Reciprocal refinement step 2 - a*b. -/
  | vrcps (t : BitVec 4) (m : BitVec 3) (d a b : BitVec 5)
  /-- VRSQRTS (R152): Reciprocal square root refinement step. -/
  | vrsqrts (t : BitVec 4) (m : BitVec 3) (d a b : BitVec 5)
  /-- VFMA (R152): Fused multiply-add. -/
  | vfma (t : BitVec 4) (m : BitVec 3) (d a b : BitVec 5)
  /-- VFMS (R152): Fused multiply-subtract. -/
  | vfms (t : BitVec 4) (m : BitVec 3) (d a b : BitVec 5)
  /-- VFNMA (R152): Negated fused multiply-add. -/
  | vfnma (t : BitVec 4) (m : BitVec 3) (d a b : BitVec 5)
  /-- VFNMS (R152): Negated fused multiply-subtract. -/
  | vfnms (t : BitVec 4) (m : BitVec 3) (d a b : BitVec 5)
  /-- VCEQ (R155): Sets mask bits where elements are equal. -/
  | vceq (t : BitVec 4) (m : BitVec 3) (d a b : BitVec 5)
  /-- VCNE (R155): Sets mask bits where elements differ. -/
  | vcne (t : BitVec 4) (m : BitVec 3) (d a b : BitVec 5)
  /-- VCLT (R155): Sets mask bits where va is less than vb. -/
  | vclt (t : BitVec 4) (m : BitVec 3) (d a b : BitVec 5)
  /-- VCLE (R155): Sets mask bits where va is at most vb. -/
  | vcle (t : BitVec 4) (m : BitVec 3) (d a b : BitVec 5)
  /-- VCVT (R154): Converts elements to a target type, optionally with stochastic rounding. -/
  | vcvt (t : BitVec 4) (m : BitVec 3) (d a : BitVec 5) (g : BitVec 4) (s : BitVec 1)
  /-- VRCP (R153): Approximate reciprocal to k bits. -/
  | vrcp (t : BitVec 4) (m : BitVec 3) (d a : BitVec 5)
  /-- VRSQRT (R153): Approximate reciprocal square root. -/
  | vrsqrt (t : BitVec 4) (m : BitVec 3) (d a : BitVec 5)
  /-- VSQRT (R153): Square root under the captured mode. -/
  | vsqrt (t : BitVec 4) (m : BitVec 3) (d a : BitVec 5)
  /-- VABS (R153): Absolute value of elements. -/
  | vabs (t : BitVec 4) (m : BitVec 3) (d a : BitVec 5)
  /-- VNEG (R153): Negation of elements. -/
  | vneg (t : BitVec 4) (m : BitVec 3) (d a : BitVec 5)
  /-- VMOV (R153): Copies active elements. -/
  | vmov (t : BitVec 4) (m : BitVec 3) (d a : BitVec 5)
  /-- VREDSUM (R157): Sum reduction into element 0. -/
  | vredsum (t : BitVec 4) (m : BitVec 3) (d a : BitVec 5)
  /-- VREDMIN (R157): Minimum reduction into element 0. -/
  | vredmin (t : BitVec 4) (m : BitVec 3) (d a : BitVec 5)
  /-- VREDMAX (R157): Maximum reduction into element 0. -/
  | vredmax (t : BitVec 4) (m : BitVec 3) (d a : BitVec 5)
  /-- VREDAND (R157): AND reduction into element 0. -/
  | vredand (t : BitVec 4) (m : BitVec 3) (d a : BitVec 5)
  /-- VREDOR (R157): OR reduction into element 0. -/
  | vredor (t : BitVec 4) (m : BitVec 3) (d a : BitVec 5)
  /-- VREDXOR (R157): XOR reduction into element 0. -/
  | vredxor (t : BitVec 4) (m : BitVec 3) (d a : BitVec 5)
  /-- VPERM (R158): Permutes elements by indices in vb. -/
  | vperm (t : BitVec 4) (m : BitVec 3) (d a b : BitVec 5)
  /-- VSLIDE (R158): Slides elements by a captured signed amount. -/
  | vslide (t : BitVec 4) (m : BitVec 3) (d a b : BitVec 5)
  /-- VBCAST (R158): Broadcasts a captured scalar to every element. -/
  | vbcast (t : BitVec 4) (m : BitVec 3) (d a : BitVec 5)
  /-- VMERGE (R158): Merges va and vb under the mask. -/
  | vmerge (t : BitVec 4) (m : BitVec 3) (d a b : BitVec 5)
  /-- VLD (R159): Loads contiguous elements from a captured base. -/
  | vld (t : BitVec 4) (m : BitVec 3) (d a : BitVec 5)
  /-- VLDS (R159): Loads strided elements. -/
  | vlds (t : BitVec 4) (m : BitVec 3) (d a b : BitVec 5)
  /-- VLDQ (R159): Loads contiguous elements from an address popped from q0 or q1. -/
  | vldq (t : BitVec 4) (m : BitVec 3) (d a : BitVec 5)
  /-- VGATHER (R159): Loads elements at base plus per-element offsets. -/
  | vgather (t : BitVec 4) (m : BitVec 3) (d a b : BitVec 5)
  /-- VST (R160): Stores contiguous active elements. -/
  | vst (t : BitVec 4) (m : BitVec 3) (d a : BitVec 5)
  /-- VSTS (R160): Stores strided active elements. -/
  | vsts (t : BitVec 4) (m : BitVec 3) (d a b : BitVec 5)
  /-- VSTQ (R161): Pushes the eight words of a vector register into an empty q2 or q3. -/
  | vstq (t : BitVec 4) (d a : BitVec 5)
  /-- VSCATTER (R160): Stores active elements at base plus per-element offsets. -/
  | vscatter (t : BitVec 4) (m : BitVec 3) (d a b : BitVec 5)
  /-- VMAND (R156): ANDs two mask registers. -/
  | vmand (d a b : BitVec 5)
  /-- VMOR (R156): ORs two mask registers. -/
  | vmor (d a b : BitVec 5)
  /-- VMXOR (R156): XORs two mask registers. -/
  | vmxor (d a b : BitVec 5)
  /-- VMNOT (R156): Inverts a mask register. -/
  | vmnot (d a : BitVec 5)
  /-- VMPOPC (R156): Pushes the population count of a mask into q2 or q3. -/
  | vmpopc (d a : BitVec 5)
  /-- VMFIRST (R156): Pushes the index of the lowest set mask bit into q2 or q3. -/
  | vmfirst (d a : BitVec 5)
  /-- VMAP (R163): Pushes the next chunk address of a descriptor view and advances the walk position. -/
  | vmap (d a b : BitVec 5)
  /-- VMAP_R (R163): Pushes the chunk address at a given walk position. -/
  | vmapR (d a b : BitVec 5)
  /-- VLOOP (R146): Marks the next n queued entries as a loop body repeated by the loop count. -/
  | vloop (d n : BitVec 5)
  /-- TDLD (R162): Loads a 32-byte tensor descriptor image. -/
  | tdld (d a : BitVec 5)
  /-- TDST (R162): Stores a tensor descriptor image. -/
  | tdst (d a : BitVec 5)
  /-- TDSET (R162): Sets one word of a descriptor from g[a]. -/
  | tdset (d a b : BitVec 5)
  /-- VQPUSH (R161): Pushes element 0 of va into q2 or q3. -/
  | vqpush (t : BitVec 4) (d a : BitVec 5)
  /-- VQPOP (R161): Pops an entry of q0 or q1 into every active element. -/
  | vqpop (t : BitVec 4) (m : BitVec 3) (d a : BitVec 5)
  /-- C_MOV (R39): Compact register move. -/
  | cMov (d s : BitVec 5)
  /-- C_ADD (R39): Compact add. -/
  | cAdd (d s : BitVec 5)
  /-- C_SUB (R39): Compact subtract. -/
  | cSub (d s : BitVec 5)
  /-- C_AND (R39): Compact AND. -/
  | cAnd (d s : BitVec 5)
  /-- C_ADDI (R39): Compact add of a 6-bit signed immediate. -/
  | cAddi (d : BitVec 5) (k : BitVec 6)
  /-- C_LDI (R39): Compact load of a 6-bit signed immediate. -/
  | cLdi (d : BitVec 5) (k : BitVec 6)
  /-- C_SLLI (R39): Compact left shift by 0-63. -/
  | cSlli (d : BitVec 5) (k : BitVec 6)
  /-- C_LD_REG (R39): Compact doubleword load at 0(gs). -/
  | cLdReg (d s : BitVec 5)
  /-- C_LD_G2 (R39): Compact doubleword load at k(g2). -/
  | cLdG2 (d k : BitVec 5)
  /-- C_ST_REG (R39): Compact doubleword store at 0(gs). -/
  | cStReg (d s : BitVec 5)
  /-- C_ST_G2 (R39): Compact doubleword store at k(g2). -/
  | cStG2 (d k : BitVec 5)
  /-- C_BEQZ (R39): Compact branch if zero. -/
  | cBeqz (d : BitVec 5) (off : BitVec 6)
  /-- C_BNEZ (R39): Compact branch if nonzero. -/
  | cBnez (d : BitVec 5) (off : BitVec 6)
  /-- C_J (R39): Compact unconditional branch. -/
  | cJ (off : BitVec 11)
  /-- C_SYNC (R39): Compact SYNC keeping the registers named by gd. -/
  | cSync (d : BitVec 5)
  /-- C_SEND (R39): Compact SEND without payload. -/
  | cSend (d c : BitVec 5)
  /-- EXIT (R108): Stops issue and drains sequencer, store buffer and outstanding operations before Zeroing. -/
  | exit
  /-- YIELD (R109): Moves the slot to the end of both issue orders. -/
  | yield
  /-- ABORT (R280): Casts an abort vote and ends the thread's part in the superstep. -/
  | abort
  /-- ERET (R437): Returns from a trap level, reinstating any held sequencer image. -/
  | eret
  /-- WFI (R441): Parks until a register fills, a queue entry arrives, a trap or a die event is pending. -/
  | wfi
  /-- BRK (R441): Raises BRK, or under dbgctl.bh requests a halt. -/
  | brk
  /-- TRAP (R441): Raises ECALL. -/
  | trap
  /-- IFLUSH (R442): Drains stores and removes the context's instruction-cache lines on the core. -/
  | iflush
  /-- C_EXIT (R39): Compact EXIT. -/
  | cExit
  /-- C_NOP (R39): Compact no-operation. -/
  | cNop
  /-- STORE_BUFFER_DRAIN (R211): The oldest store-buffer entry is performed at its near target or captured for staging. -/
  | storeBufferDrain (core slot : Nat)
  /-- ICACHE_FILL (R124): A missed instruction line returns from its slice and fills a way. -/
  | icacheFill (core slot : Nat)
  /-- SLEEP_EXPIRY (R110): A SLEEP count runs out and the thread becomes ready. -/
  | sleepExpiry (core slot : Nat)
  /-- ARRIVE (R272): After its drains a thread writes its record and contributes its vote to the shutter tree. -/
  | arrive (core slot : Nat)
  /-- ZEROING (R111): After the EXIT drains end the slot controller starts clearing the slot. -/
  | zeroing (core slot : Nat)
  /-- ZEROING_DONE (R111): Register and carve-out clearing end and the slot becomes Idle. -/
  | zeroingDone (core slot : Nat)
  /-- SPAWN_START (R100): A spawned child starts in its chosen slot at the target core. -/
  | spawnStart (op : Nat)
  /-- DELIVER (R96): An active message is delivered at the target die, starting, queuing or holding it. -/
  | deliver (op : Nat)
  /-- TASK_DEQUEUE (R102): An Idle slot takes the oldest admissible task from its cluster's queue. -/
  | taskDequeue (core slot : Nat)
  /-- STEAL_ROUND (R104): Every 256 cy an idle cluster tries its neighbours' queues for a stealable task. -/
  | stealRound (cluster : Nat)
  /-- LINE_FILL (R235): An absent or pending paged line arrives from a sibling slice or HBM. -/
  | lineFill (die ctx : Nat) (va : BitVec 64)
  /-- RECALL (R205): An engine writes a recalled owned line first and releases it to the waiting access. -/
  | recallLine (op : Nat)
  /-- MCFG_EFFECT (R313): A queued MCFG takes effect on its slot after older entries complete. -/
  | mcfgEffect (core : Nat)
  /-- TILE_PASS (R323): The engine grants and runs one tile pass of a ready job. -/
  | tilePass (cluster : Nat)
  /-- DRAIN_RUN (R327): A drain starts after its slot's older entries, compares twins and writes the converted slot. -/
  | drainRun (core : Nat)
  /-- COPY_RUN (R336): A ready copy checks its sources and moves its data. -/
  | copyRun (op : Nat)
  /-- NEXT_COPY_RUN (R340): A .next copy checks and runs in the superstep after its issue. -/
  | nextCopyRun (op : Nat)
  /-- LEAVE_GRANT (R478): The power governor grants the head request when its cost fits the budget. -/
  | leaveGrant (die : Nat)
  /-- THERMAL_EMERGENCY (R479): Thermal emergency sets or clears emg, stopping or resuming grants. -/
  | thermalEmergency (die : Nat) (on : Bool)
  /-- GET_FILL (R289): GET data or GET.B status arrive and fill the destination register. -/
  | getFill (op : Nat)
  /-- LENDING_RESUME (R411): After 32 cycles with no owner Ready the core lends again. -/
  | lendingResume (core : Nat)
  /-- AMPLITUDE_PASS (R390): An amplitude queue entry starts with leave and runs its passes to completion. -/
  | amplitudePass (die : Nat)
  /-- SWAP_HALF_ARRIVAL (R395): A moving half of a module-bit swap arrives from the partner and is written. -/
  | swapHalfArrival (die : Nat) (index : Nat) (data : List (BitVec 8))
  /-- PARTNER_TIMEOUT (R395): A module-bit swap whose partner accepts nothing for 50 us completes with status 3 and votes abort. -/
  | partnerTimeout (die : Nat)
  /-- TABLE_START (R364): Every router of the job starts table cycle 0 at the table start. -/
  | tableStart (ctx : Nat)
  /-- GROUP_FIRE (R365): A router executes the group at its table clock, or holds and raises slip. -/
  | groupFire (core : Nat)
  /-- BEAT_ARRIVAL (R368): A timed beat arrives at a router and is consumed or enters the skid buffer. -/
  | beatArrival (core dir : Nat)
  /-- DEBT_ARRIVAL (R367): Slip from another router of the wave arrives and adds to this router's debt. -/
  | debtArrival (core : Nat)
  /-- TABLE_STOP (R360): A removed tenant key stops the table at its next group and votes abort. -/
  | tableStop (core : Nat)
  /-- SHUTTER_DECISION (R272): The root decides commit or abort once all arrive or an abort vote reaches it. -/
  | shutterDecision (ctx : Nat)
  /-- RELEASE (R278): Every slot with a valid record restarts from it. -/
  | release (ctx : Nat)
  /-- QUIESCENCE_SWEEP (R294): Every 64 cy a die's counting tree sums sent and received counts. -/
  | quiescenceSweep (ctx : Nat)
  /-- MAXSS_EXPIRY (R300): With a pre-emption pending, a superstep exceeding maxss is aborted with cause 6. -/
  | maxssExpiry (ctx : Nat)
  /-- PREEMPTION_STOP (R301): After .next work completes the root reports the job stopped and the image is stored. -/
  | preemptionStop (ctx : Nat)
  /-- SECURE_SEALED (R454): When every seal is written the root toggles the side and releases. -/
  | secureSealed (ctx : Nat)
  /-- MODULE_FAILED (R458): Link silence of 50 us marks a module failed and votes abort with cause 3. -/
  | moduleFailed (module : Nat)
  /-- SPARE_FILL (R460): A named spare and the survivors are loaded from buddies and the job resumes. -/
  | spareFill (ctx : Nat)
  /-- TIME_CARRY (R465): The shutter tree carries TIME from the lowest enrolled module to every module. -/
  | timeCarry (time : BitVec 64)
  /-- HANG (R450): A job stuck for 10,000 cy sets devt.hang and posts a job event. -/
  | hang (ctx : Nat)
  /-- JOB_EVENT_ENTRY (R448): The die-control core takes its oldest job event at an M-mode WFI. -/
  | jobEventEntry (die : Nat)
  /-- DISPATCH_STEP (R424): The dispatcher acts on gates and chooses, refuses, places or waits on a launch. -/
  | dispatchStep (die : Nat)
  /-- LOCAL_STORE_WIPE (R187): A core's local store and shadow pool are zeroed after its holding launch ends. -/
  | localStoreWipe (core : Nat)
  /-- WICKET_ADMISSION (R404): The wicket seats the first waiting harvest launch that fits whole. -/
  | wicketAdmission (die : Nat)
  /-- GRANULE_RECLAIM (R412): An owner access reclaims a leased granule, backing its lines and zeroing it. -/
  | granuleReclaim (core granule : Nat)
  /-- DIE_MEMORY_RECLAIM (R208): Firmware writes back, frees and wipes a context's allotment on a die. -/
  | dieMemoryReclaim (die ctx : Nat)
  /-- FRAME_WIPE (R242): The wipe engine zeroes a frame whose wipe bit is set and marks it free. -/
  | frameWipe (frame : Nat)
  /-- DIE_RETIREMENT (R25): Firmware retires a die after an uncorrectable failure of the die. -/
  | dieRetirement (die : Nat)
  /-- SSCTL_VOTE (R284): Writing vote casts an abort vote for the die with cause bit 7. -/
  | ssctlVote (die ctx : Nat)
  /-- SSCTL_KILL (R283): Writing kill ends an escalated launch at the restored image. -/
  | ssctlKill (ctx : Nat)
  /-- SSCTL_RETRY (R283): Writing retry releases an escalated replay and clears the streak. -/
  | ssctlRetry (ctx : Nat)
  /-- SSCTL_PRE (R299): Writing pre, or the host PREEMPT doorbell, requests a pre-emption or stops an escalated job. -/
  | ssctlPre (ctx : Nat)
  /-- UPST_RET (R254): Writing ret resumes the fibre whose state the slot's frame holds. -/
  | upstRet (core slot : Nat) (value : BitVec 64)
  /-- VTRAP_HELD_CLEAR (R166): Writing held as 0 discards the held sequencer image. -/
  | vtrapHeldClear (core slot : Nat)
  /-- QCFG_WRITE (R381): An accepted QCFG write creates or ends a state, optionally filling leaf A with basis state 0. -/
  | qcfgWrite (die ctx : Nat) (value : BitVec 64)
  /-- SVCTL_NOW (R454): Writing now makes the next commit secure. -/
  | svctlNow (ctx : Nat)
  /-- SVCTL_BW (R457): Writing bw takes a new buddy and re-evaluates its feed status. -/
  | svctlBw (ctx : Nat) (value : BitVec 64)
  /-- DBGCTL_HALT (R469): Requests a halt at the next decision, via DBGCTL or DBGREQ. -/
  | dbgctlHalt (ctx : Nat)
  /-- DBGCTL_RUN (R469): Clears hlt and releases a halted job. -/
  | dbgctlRun (ctx : Nat)
  /-- DBGCTL_STEP (R470): Steps the selected thread by one instruction in marionette mode. -/
  | dbgctlStep (ctx : Nat)
  /-- HOST_READ (R219): A host PCIe read returns the committed image, waiting for a commit in progress. -/
  | hostRead (fn ctx : Nat) (va : BitVec 64) (size : Nat)
  /-- HOST_WRITE (R219): A host PCIe write lands at once or at the context's next commit. -/
  | hostWrite (fn ctx : Nat) (va : BitVec 64) (data : List (BitVec 8))
  /-- LQTAIL (R422): A host doorbell write sets a launch queue tail, making records visible at once. -/
  | lqtail (die queue : Nat) (tail : BitVec 64)
  /-- REPREQ (R473): Raises a die's report request so firmware executes REPORT on the area. -/
  | repreq (die : Nat) (value : BitVec 64)
  /-- DBGSELW (R473): A host write of DBGSEL of a context through the management function. -/
  | dbgselw (ctx : Nat) (value : BitVec 64)
  /-- SPAREREQ (R473): A host write naming the spare module in svctl.spare. -/
  | sparereq (ctx : Nat) (value : BitVec 64)
  /-- MGERR_CLEAR (R473): A write of 0 clears the dropped-write count. -/
  | mgerrClear
  /-- LCREQ_PROVISIONED (R477): Moves the module to PROVISIONED, wiping all state and generating identity keys. -/
  | lcreqProvisioned
  /-- LCREQ_DEPLOYED (R477): Moves the module to DEPLOYED with an enrolment number, wiping all state. -/
  | lcreqDeployed (module : BitVec 12)
  /-- LCREQ_DECOMMISSIONED (R477): Moves the module to DECOMMISSIONED, wiping state and destroying identity keys. -/
  | lcreqDecommissioned
  /-- FUNCTION_LEVEL_RESET (R474): Resets a die: votes abort, stops everything, wipes and ends bound contexts. -/
  | functionLevelReset (die : Nat)
  /-- MODULE_RESET (R477): A module reset wipes register files, local stores, die memory and HBM. -/
  | moduleReset
  /-- LINK_FLIT_RECEIVE (R482): A flit arrives on a port group and is authenticated, or discarded with retraining. -/
  | linkFlitReceive (group : Nat) (authentic : Bool) (flit : Flit)
  /-- PORT_LOSS (R482): A port stops carrying data and its group continues on the rest. -/
  | portLoss (group : Nat)
  /-- DIE_HEALTHY_AGAIN (R207): A die that becomes healthy again takes its replica copies from the sequencer die before its first load of a replicated page. -/
  | dieHealthyAgain (die : Nat)
  /-- TDISP_REQUEST (R471): A host TDISP request moves a die function among CONFIG_UNLOCKED, CONFIG_LOCKED and RUN. -/
  | tdispRequest (die : Nat) (request : TdispRequest)
  /-- IDE_KEY_MANAGEMENT (R476): IDE keys of a die function's stream are installed by the IDE key management protocol. -/
  | ideKeyManagement (die : Nat) (key : BitVec 256)
  /-- ROUTER_KEY_STORE_LOAD (R359): Die-control firmware loads or removes a tenant key id in a router's key store. -/
  | routerKeyStoreLoad (core : Nat) (id : BitVec 16) (key : BitVec 256) (load : Bool)
  /-- CONTEXT_CREATION (R418): Firmware creates a context at the request of system software, and the dispatcher assigns it the lowest free id and zeroes its counters. -/
  | contextCreation (die : Nat) (tenant fn : Nat)
  /-- CONTEXT_END (R127): A context ends, its instruction-cache lines are invalidated, and its allotments and frames are released for wiping. -/
  | contextEnd (ctx : Nat)
  /-- SLICE_POWER_GATING (R263): A slice is power-gated after flushing its translation unit, or leaves the power-gated state. -/
  | slicePowerGating (die slice : Nat) (gate : Bool)
  /-- PORT_RETRAIN (R482): A port group's ports finish retraining after a tag failure and carry flits again. -/
  | portRetrain (group : Nat)
  deriving DecidableEq, Repr

end Sys2Proof
end

