-- ==== Sys2Proof/Config.lean ====
section
/-! DEFINITION. What a module fixes (spec/01_wafer.md R14-R24), who moves at a step (the model's own agenda) and the free
values the spec leaves open. -/

namespace Sys2Proof

/-- Dies of a module (R14). -/
def numDies : Nat := 24
/-- Cores with a gcore (R14): numbers 0 to 6143. -/
def numGcores : Nat := 6144
/-- Core numbers of this model: gcores, then die-control core of die d at 6144 + d (R21). -/
def numCores : Nat := 6168
def numClusters : Nat := 768
def slotsPerCore : Nat := 10
def slicesPerDie : Nat := 256
/-- Context ids are 1 to 65,535 (spec/10_pages.md R233). -/
def numContexts : Nat := 65536
/-- Bytes of a core's local store (R14). -/
def localBytes : Nat := 0xC000
/-- Populated bytes of a die's memory (spec/08_die_memory.md R189). -/
def dieBytes : Nat := 0x8000000
/-- Base of the local-store windows (spec/07_local_store.md R171). -/
def localWindow : Nat := 0xFF00000000000000
/-- Base of the die-memory windows (R189). -/
def dieWindow : Nat := 0xFF10000000000000

/-- What die-control firmware may do to the tables it keeps (spec/01_wafer.md R25, R30, spec/08_die_memory.md R192,
spec/10_pages.md R239-R241, spec/17_launch.md R418): a turn of its own, since the spec gives the effect and no
instruction of its own for it (log entry 61). -/
inductive Firmware where
  /-- One write of an update of the capability list of a die (R30). -/
  | capWrite (die : Nat)
  /-- A request for an allotment of `size` blocks on a die for a context (R192). -/
  | allot (die ctx size : Nat)
  /-- A frame of a stack is allotted to a kind, a context and a page number (R239). -/
  | allotFrame (stack frame kind ctx vpn : Nat)
  /-- A frame is freed: its wipe becomes due (R240, R241). -/
  | freeFrame (stack frame : Nat)
  /-- A context receives its page table (R418). -/
  | pageTable (ctx : Nat) (root : Word)
  /-- A die fails while it is the sequencer die of jobs (R26). -/
  | dieFailure (die : Nat)
  deriving DecidableEq, Repr, Inhabited

/-- A stored word whose check bits an upset flips (spec/18_traps.md R444). -/
inductive UpsetAt where
  /-- A doubleword of local store, die memory or a present paged line. -/
  | memory (die ctx loc : Nat)
  /-- A doubleword of HBM by its frame address. -/
  | hbm (addr : Nat)
  /-- A word of a thread's register files, by its number: n for gn, and as `vWords`, `maskWords`, `tdWords` and `loopWord` number
  the others. -/
  | register (core slot n : Nat)
  | queue (core slot : Nat)
  | sequencer (core slot : Nat)
  | poolEntry (core writer line : Nat)
  | undoLine (die line : Nat)
  /-- The undo line of a paged line. -/
  | pagedUndo (die ctx va : Nat)
  | translation (die ctx vpn : Nat)
  | icache (core ctx line : Nat)
  | tableStore (core id : Nat)
  | accumulator (core slot : Nat)
  deriving DecidableEq, Repr, Inhabited

/-- One turn of the machine: which agent moves.  The order of turns is an input of the module (log entry 5). -/
inductive Turn where
  /-- The scalar issue slot of a core passes one instruction of a slot (spec/05_issue.md R115).  `stalled` holds the slots
  of the core that are not ready in this cycle for a reason of time alone: a fetch, a result in flight or a busy unit
  (R116; log entry 41). -/
  | issue (core slot : Nat) (stalled : BitVec 10)
  /-- The vector issue slot of a core passes one entry of a slot's sequencer, with the slots stalled likewise. -/
  | vissue (core slot : Nat) (stalled : BitVec 10)
  /-- An event row of the opcode table. -/
  | event (i : Instr)
  /-- Die-control firmware acts. -/
  | firmware (a : Firmware)
  /-- An upset flips one stored bit, or two where `unc`. -/
  | upset (at_ : UpsetAt) (unc : Bool)
  /-- The slices of a die try again to write the page requests they hold (spec/10_pages.md R252). -/
  | pageRing (die : Nat)
  /-- `n` cycles and `t` nanoseconds pass with no other step. -/
  | elapse (n t : Nat)
  deriving DecidableEq, Repr, Inhabited

/-- Which agent moves when the agenda is empty: free (log entry 5). -/
opaque freeTurn : Nat → Turn

/-- The n-th value the spec leaves open: free (log entry 12). -/
opaque freeWord : Nat → Word

/-- The power-feed id that the board strap gives the module (spec/19_survival.md R457): free. -/
opaque boardFeed : BitVec 8

/-- The RSA-3072 die identity keys, by number: modulus, public exponent and private exponent; and the modulus and private exponent of
the manufacturing key (spec/21_host.md R475).  They are free, since keys are generated in the dies (log entry 12).  Number 0
stands for a die without a key. -/
opaque identityModulus : Nat → Nat
opaque identityPublic : Nat → Nat
opaque identityPrivate : Nat → Nat
opaque makerModulus : Nat
opaque makerPrivate : Nat

/-- The port group on which the untimed messages of one module to another leave, and the module that a group of a module leads to: the
spec gives the torus neither routes nor cables, so that both are free (log entry 16). -/
opaque torusGroup : Nat → Nat → Nat
opaque torusNeighbour : Nat → Nat → Nat

/-- Torus link hops from one module to another (spec/14_timetables.md R364): free (log entry 16). -/
opaque torusHops : Nat → Nat → Nat

/-- What a router reads of an encrypted beat whose key is not that of its own table: sender's key id, receiver's key id and the beat
in plain; none stands for no encryption.  Free (log entry 50). -/
opaque cipherBeat : Option Nat → Option Nat → BitVec 256 → BitVec 256

end Sys2Proof
end

