-- ==== Sys2Proof/WellFormed.lean ====
section
/-! DEFINITION. Which terms of Instr are instructions the encodings of spec/02_encoding.md admit (R35, R39, R41, R43,
R44), and which events name agents a module has (spec/01_wafer.md R14-R21).  Every 64-bit immediate is admitted: EXT
and EXT.H reach all of them (R36). -/

namespace Sys2Proof

/-- Type class I of R43: codes 0-7. -/
def typeI (t : BitVec 4) : Bool := decide (t.toNat ≤ 7)
/-- Type class F of R43: codes 8-11. -/
def typeF (t : BitVec 4) : Bool := decide (8 ≤ t.toNat) && decide (t.toNat ≤ 11)
/-- Type class A of R43: codes 0-13. -/
def typeA (t : BitVec 4) : Bool := decide (t.toNat ≤ 13)
/-- Element types of VSTQ (spec/06_vector.md R150): the 64-bit ones. -/
def typeQ (t : BitVec 4) : Bool := decide (t = 3) || decide (t = 7) || decide (t = 11)
/-- A mask destination (R44): m1-m7. -/
def maskDest (d : BitVec 5) : Bool := decide (1 ≤ d.toNat) && decide (d.toNat ≤ 7)
/-- A queue that the vector unit writes (R44): q2 or q3. -/
def queueOut (d : BitVec 5) : Bool := decide (2 ≤ d.toNat) && decide (d.toNat ≤ 3)
/-- Where `.sr` may stand (R44): target .e4, .e5 or .bh and a source that is no integer. -/
def srAllowed (t g : BitVec 4) (s : BitVec 1) : Bool :=
  decide (s = 0) || ((decide (g = 12) || decide (g = 13) || decide (g = 9)) && decide (8 ≤ t.toNat))

/-- An instruction whose fields the opcode map admits, or an event of an agent that exists. -/
def Instr.wellFormed (i : Instr) : Bool :=
  match i with
  | .add _ _ _ => true
  | .sub _ _ _ => true
  | .and _ _ _ => true
  | .or _ _ _ => true
  | .xor _ _ _ => true
  | .sll _ _ _ => true
  | .srl _ _ _ => true
  | .sra _ _ _ => true
  | .slt _ _ _ => true
  | .sltu _ _ _ => true
  | .andn _ _ _ => true
  | .orn _ _ _ => true
  | .addi _ _ _ => true
  | .slti _ _ _ => true
  | .sltiu _ _ _ => true
  | .andi _ _ _ => true
  | .ori _ _ _ => true
  | .xori _ _ _ => true
  | .slli _ _ _ => true
  | .srli _ _ _ => true
  | .srai _ _ _ => true
  | .lih _ _ => true
  | .pch _ _ => true
  | .mul _ _ _ => true
  | .mulh _ _ _ => true
  | .mulhu _ _ _ => true
  | .mulhsu _ _ _ => true
  | .div _ _ _ => true
  | .divu _ _ _ => true
  | .rem _ _ _ => true
  | .remu _ _ _ => true
  | .clz _ _ => true
  | .ctz _ _ => true
  | .popc _ _ => true
  | .brev _ _ => true
  | .bext _ _ _ => true
  | .bdep _ _ _ => true
  | .min _ _ _ => true
  | .max _ _ _ => true
  | .minu _ _ _ => true
  | .maxu _ _ _ => true
  | .sel _ _ _ => true
  | .beq _ _ _ => true
  | .bne _ _ _ => true
  | .blt _ _ _ => true
  | .bge _ _ _ => true
  | .bltu _ _ _ => true
  | .bgeu _ _ _ => true
  | .jal _ => true
  | .jalr _ _ _ => true
  | .lb _ _ _ => true
  | .lh _ _ _ => true
  | .lw _ _ _ => true
  | .ld _ _ _ => true
  | .lbu _ _ _ => true
  | .lhu _ _ _ => true
  | .lwu _ _ _ => true
  | .sb _ _ _ => true
  | .sh _ _ _ => true
  | .sw _ _ _ => true
  | .sd _ _ _ => true
  | .amoadd _ _ _ => true
  | .amoand _ _ _ => true
  | .amoor _ _ _ => true
  | .amoxor _ _ _ => true
  | .amomin _ _ _ => true
  | .amomax _ _ _ => true
  | .amominu _ _ _ => true
  | .amomaxu _ _ _ => true
  | .amoswap _ _ _ => true
  | .amocas _ _ _ => true
  | .fenceSc s => decide (s ≠ 3)
  | .baddW128 _ _ b => decide (1 ≤ b.toNat) && decide (b.toNat ≤ 30)
  | .bvaddF n _ _ => decide (1 ≤ n.toNat) && decide (n.toNat ≤ 16)
  | .bvaddBh n _ _ => decide (1 ≤ n.toNat) && decide (n.toNat ≤ 16)
  | .bvmaxF n _ _ => decide (1 ≤ n.toNat) && decide (n.toNat ≤ 16)
  | .bvmaxBh n _ _ => decide (1 ≤ n.toNat) && decide (n.toNat ≤ 16)
  | .bredF n _ _ => decide (1 ≤ n.toNat) && decide (n.toNat ≤ 16)
  | .bredBh n _ _ => decide (1 ≤ n.toNat) && decide (n.toNat ≤ 16)
  | .get _ _ _ => true
  | .getB _ _ _ => true
  | .put _ _ _ => true
  | .putB _ _ _ => true
  | .ramoAdd _ _ _ => true
  | .ramoAnd _ _ _ => true
  | .ramoOr _ _ _ => true
  | .ramoXor _ _ _ => true
  | .ramoMin _ _ _ => true
  | .ramoMax _ _ _ => true
  | .ramoMinu _ _ _ => true
  | .ramoMaxu _ _ _ => true
  | .ramoSwap _ _ _ => true
  | .ramoCas d _ _ => decide (d.toNat ≤ 30)
  | .spawn d _ _ n => decide (1 ≤ n.toNat) && decide (n.toNat ≤ 32) && decide (d.toNat + n.toNat ≤ 32)
  | .send _ b n _ => decide (n.toNat ≤ 8) && decide (b.toNat + n.toNat ≤ 32) && (decide (n ≠ 0) || decide (b = 0))
  | .sleep _ => true
  | .probe _ _ => true
  | .probeV _ _ => true
  | .empty _ => true
  | .emptyV _ => true
  | .qpush d _ => decide (d.toNat ≤ 1)
  | .qpop _ a => decide (2 ≤ a.toNat) && decide (a.toNat ≤ 3)
  | .qlen _ a => decide (a.toNat ≤ 3)
  | .lcw d _ => decide (d.toNat ≤ 1)
  | .lcr _ a => decide (a.toNat ≤ 1)
  | .lbw d _ => decide (d.toNat ≤ 1)
  | .sync _ _ _ => true
  | .syncQ _ _ _ => true
  | .pfl _ => true
  | .wbl _ => true
  | .ssno _ => true
  | .mcfg _ => true
  | .mjob _ _ _ => true
  | .mdrain _ _ _ => true
  | .mstat _ => true
  | .xcopy _ _ _ => true
  | .xcopyT _ _ _ => true
  | .xplane _ _ _ => true
  | .xunplane _ _ _ => true
  | .xfill _ _ _ => true
  | .xgather _ _ _ => true
  | .xcopyNext _ _ => true
  | .xcopyTNext _ _ => true
  | .xplaneNext _ _ => true
  | .xunplaneNext _ _ => true
  | .xfillNext _ _ => true
  | .xgatherNext _ _ => true
  | .ttload _ _ => true
  | .ttloadK _ _ => true
  | .ttgoArm _ => true
  | .ttgoDisarm _ => true
  | .ttgoPost _ => true
  | .ttgoFree _ => true
  | .qgate _ _ b => decide (1 ≤ b.toNat) && decide (b.toNat ≤ 30)
  | .qgateAuto _ _ b => decide (1 ≤ b.toNat) && decide (b.toNat ≤ 30)
  | .qswap _ _ => true
  | .qprob _ _ => true
  | .qnorm _ => true
  | .qsamp _ _ => true
  | .qgateD _ _ b => decide (1 ≤ b.toNat) && decide (b.toNat ≤ 30)
  | .qgateAutoD _ _ b => decide (1 ≤ b.toNat) && decide (b.toNat ≤ 30)
  | .qswapD _ _ => true
  | .qprobD _ _ => true
  | .qnormD _ => true
  | .qsampD _ _ => true
  | .hoffer _ => true
  | .hstat _ => true
  | .leave _ _ => true
  | .leaveRel _ => true
  | .sysr _ _ => true
  | .sysw _ _ => true
  | .sfenceVPage _ => true
  | .sfenceVContext _ => true
  | .sfenceVAll _ => true
  | .sfenceVPublish _ => true
  | .inject _ => true
  | .report _ => true
  | .vadd t _ _ _ _ => typeI t
  | .vsub t _ _ _ _ => typeI t
  | .vmul t _ _ _ _ => typeI t
  | .vmulh t _ _ _ _ => typeI t
  | .vand t _ _ _ _ => typeI t
  | .vor t _ _ _ _ => typeI t
  | .vxor t _ _ _ _ => typeI t
  | .vandn t _ _ _ _ => typeI t
  | .vsll t _ _ _ _ => typeI t
  | .vsrl t _ _ _ _ => typeI t
  | .vsra t _ _ _ _ => typeI t
  | .vmin t _ _ _ _ => typeI t
  | .vmax t _ _ _ _ => typeI t
  | .vadds t _ _ _ _ => typeI t
  | .vsubs t _ _ _ _ => typeI t
  | .vfadd t _ _ _ _ => typeF t
  | .vfsub t _ _ _ _ => typeF t
  | .vfmul t _ _ _ _ => typeF t
  | .vfdiv t _ _ _ _ => typeF t
  | .vfmin t _ _ _ _ => typeF t
  | .vfmax t _ _ _ _ => typeF t
  | .vrcps t _ _ _ _ => typeF t
  | .vrsqrts t _ _ _ _ => typeF t
  | .vfma t _ _ _ _ => typeF t
  | .vfms t _ _ _ _ => typeF t
  | .vfnma t _ _ _ _ => typeF t
  | .vfnms t _ _ _ _ => typeF t
  | .vceq t _ d _ _ => decide (t.toNat ≤ 11) && maskDest d
  | .vcne t _ d _ _ => decide (t.toNat ≤ 11) && maskDest d
  | .vclt t _ d _ _ => decide (t.toNat ≤ 11) && maskDest d
  | .vcle t _ d _ _ => decide (t.toNat ≤ 11) && maskDest d
  | .vcvt t _ _ _ g s => decide (t.toNat ≤ 11) && decide (g.toNat ≤ 13) && decide (g ≠ t) && srAllowed t g s
  | .vrcp t _ _ _ => typeF t
  | .vrsqrt t _ _ _ => typeF t
  | .vsqrt t _ _ _ => typeF t
  | .vabs t _ _ _ => decide (t.toNat ≤ 11)
  | .vneg t _ _ _ => decide (t.toNat ≤ 11)
  | .vmov t _ _ _ => typeA t
  | .vredsum t _ _ _ => decide (t.toNat ≤ 11)
  | .vredmin t _ _ _ => decide (t.toNat ≤ 11)
  | .vredmax t _ _ _ => decide (t.toNat ≤ 11)
  | .vredand t _ _ _ => typeI t
  | .vredor t _ _ _ => typeI t
  | .vredxor t _ _ _ => typeI t
  | .vperm t _ _ _ _ => typeA t
  | .vslide t _ _ _ _ => typeA t
  | .vbcast t _ _ _ => typeA t
  | .vmerge t _ _ _ _ => typeA t
  | .vld t _ _ _ => typeA t
  | .vlds t _ _ _ _ => typeA t
  | .vldq t _ _ a => typeA t && decide (a.toNat ≤ 1)
  | .vgather t _ _ _ _ => typeA t
  | .vst t _ _ _ => typeA t
  | .vsts t _ _ _ _ => typeA t
  | .vstq t _ a => typeQ t && queueOut a
  | .vscatter t _ _ _ _ => typeA t
  | .vmand d a b => maskDest d && decide (a.toNat ≤ 7) && decide (b.toNat ≤ 7)
  | .vmor d a b => maskDest d && decide (a.toNat ≤ 7) && decide (b.toNat ≤ 7)
  | .vmxor d a b => maskDest d && decide (a.toNat ≤ 7) && decide (b.toNat ≤ 7)
  | .vmnot d a => maskDest d && decide (a.toNat ≤ 7)
  | .vmpopc d a => queueOut d && decide (a.toNat ≤ 7)
  | .vmfirst d a => queueOut d && decide (a.toNat ≤ 7)
  | .vmap d a _ => decide (d.toNat ≤ 1) && decide (a.toNat ≤ 7)
  | .vmapR d a _ => decide (d.toNat ≤ 1) && decide (a.toNat ≤ 7)
  | .vloop d n => decide (d.toNat ≤ 1) && decide (n.toNat ≤ 15)
  | .tdld d _ => decide (d.toNat ≤ 7)
  | .tdst d _ => decide (d.toNat ≤ 7)
  | .tdset d _ _ => decide (d.toNat ≤ 7)
  | .vqpush t d _ => typeA t && queueOut d
  | .vqpop t _ _ a => typeA t && decide (a.toNat ≤ 1)
  | .cMov d _ => decide (d ≠ 0)
  | .cAdd d _ => decide (d ≠ 0)
  | .cSub d _ => decide (d ≠ 0)
  | .cAnd d _ => decide (d ≠ 0)
  | .cAddi d _ => decide (d ≠ 0)
  | .cLdi d _ => decide (d ≠ 0)
  | .cSlli d _ => decide (d ≠ 0)
  | .cLdReg d _ => decide (d ≠ 0)
  | .cLdG2 d _ => decide (d ≠ 0)
  | .cStReg _ _ => true
  | .cStG2 _ _ => true
  | .cBeqz _ _ => true
  | .cBnez _ _ => true
  | .cJ _ => true
  | .cSync _ => true
  | .cSend _ _ => true
  | .exit => true
  | .yield => true
  | .abort => true
  | .eret => true
  | .wfi => true
  | .brk => true
  | .trap => true
  | .iflush => true
  | .cExit => true
  | .cNop => true
  | .storeBufferDrain core slot => decide (core < numCores) && decide (slot < slotsPerCore)
  | .icacheFill core slot => decide (core < numCores) && decide (slot < slotsPerCore)
  | .sleepExpiry core slot => decide (core < numCores) && decide (slot < slotsPerCore)
  | .arrive core slot => decide (core < numCores) && decide (slot < slotsPerCore)
  | .zeroing core slot => decide (core < numCores) && decide (slot < slotsPerCore)
  | .zeroingDone core slot => decide (core < numCores) && decide (slot < slotsPerCore)
  | .spawnStart _ => true
  | .deliver _ => true
  | .taskDequeue core slot => decide (core < numCores) && decide (slot < slotsPerCore)
  | .stealRound cluster => decide (cluster < numClusters)
  | .lineFill die ctx _ => decide (die < numDies) && decide (ctx < numContexts)
  | .recallLine _ => true
  | .mcfgEffect core => decide (core < numCores)
  | .tilePass cluster => decide (cluster < numClusters)
  | .drainRun core => decide (core < numCores)
  | .copyRun _ => true
  | .nextCopyRun _ => true
  | .leaveGrant die => decide (die < numDies)
  | .thermalEmergency die _ => decide (die < numDies)
  | .getFill _ => true
  | .lendingResume core => decide (core < numCores)
  | .amplitudePass die => decide (die < numDies)
  | .swapHalfArrival die _ _ => decide (die < numDies)
  | .partnerTimeout die => decide (die < numDies)
  | .tableStart ctx => decide (ctx < numContexts)
  | .groupFire core => decide (core < numCores)
  | .beatArrival core dir => decide (core < numCores) && decide (dir < 5)
  | .debtArrival core => decide (core < numCores)
  | .tableStop core => decide (core < numCores)
  | .shutterDecision ctx => decide (ctx < numContexts)
  | .release ctx => decide (ctx < numContexts)
  | .quiescenceSweep ctx => decide (ctx < numContexts)
  | .maxssExpiry ctx => decide (ctx < numContexts)
  | .preemptionStop ctx => decide (ctx < numContexts)
  | .secureSealed ctx => decide (ctx < numContexts)
  | .moduleFailed _ => true
  | .spareFill ctx => decide (ctx < numContexts)
  | .timeCarry _ => true
  | .hang ctx => decide (ctx < numContexts)
  | .jobEventEntry die => decide (die < numDies)
  | .dispatchStep die => decide (die < numDies)
  | .localStoreWipe core => decide (core < numCores)
  | .wicketAdmission die => decide (die < numDies)
  | .granuleReclaim core granule => decide (core < numCores) && decide (granule < 12)
  | .dieMemoryReclaim die ctx => decide (die < numDies) && decide (ctx < numContexts)
  | .frameWipe _ => true
  | .dieRetirement die => decide (die < numDies)
  | .ssctlVote die ctx => decide (die < numDies) && decide (ctx < numContexts)
  | .ssctlKill ctx => decide (ctx < numContexts)
  | .ssctlRetry ctx => decide (ctx < numContexts)
  | .ssctlPre ctx => decide (ctx < numContexts)
  | .upstRet core slot _ => decide (core < numCores) && decide (slot < slotsPerCore)
  | .vtrapHeldClear core slot => decide (core < numCores) && decide (slot < slotsPerCore)
  | .qcfgWrite die ctx _ => decide (die < numDies) && decide (ctx < numContexts)
  | .svctlNow ctx => decide (ctx < numContexts)
  | .svctlBw ctx _ => decide (ctx < numContexts)
  | .dbgctlHalt ctx => decide (ctx < numContexts)
  | .dbgctlRun ctx => decide (ctx < numContexts)
  | .dbgctlStep ctx => decide (ctx < numContexts)
  | .hostRead fn ctx _ _ => decide (fn ≤ numDies) && decide (ctx < numContexts)
  | .hostWrite fn ctx _ _ => decide (fn ≤ numDies) && decide (ctx < numContexts)
  | .lqtail die queue _ => decide (die < numDies) && decide (queue < 16)
  | .repreq die _ => decide (die < numDies)
  | .dbgselw ctx _ => decide (ctx < numContexts)
  | .sparereq ctx _ => decide (ctx < numContexts)
  | .mgerrClear => true
  | .lcreqProvisioned => true
  | .lcreqDeployed _ => true
  | .lcreqDecommissioned => true
  | .functionLevelReset die => decide (die < numDies)
  | .moduleReset => true
  | .linkFlitReceive group _ _ => decide (group < 6)
  | .portLoss group => decide (group < 6)
  | .dieHealthyAgain die => decide (die < numDies)
  | .tdispRequest die _ => decide (die < numDies)
  | .ideKeyManagement die _ => decide (die < numDies)
  | .routerKeyStoreLoad core _ _ _ => decide (core < numCores)
  | .contextCreation die _ fn => decide (die < numDies) && decide (fn ≤ numDies)
  | .contextEnd ctx => decide (ctx < numContexts)
  | .slicePowerGating die slice _ => decide (die < numDies) && decide (slice < slicesPerDie)
  | .portRetrain group => decide (group < 6)

end Sys2Proof
end

