-- ==== Sys2Proof/Decode.lean ====
section
/-! DEFINITION. Decoding (spec/02_encoding.md R32-R44) of a list of halfwords, total, every refusal by name, and the
encoder written from the same tables.  A refusal other than `truncated` is the trap ILLEGAL of R35. -/

namespace Sys2Proof

/-- Why a list of halfwords is no instruction.  `truncated` asks for one more halfword; every other name is ILLEGAL. -/
inductive DecodeError where
  /-- The halfwords end before the length R32 gives. -/
  | truncated
  /-- A reserved major (R40). -/
  | reservedMajor
  /-- A function, cond, fn3, vf or sub-function value the map leaves out (R35, R41, R43). -/
  | reservedFunction
  /-- A field the instruction does not use is nonzero (R35). -/
  | unusedField
  /-- An operand field or element type outside its limits (R41-R44). -/
  | fieldLimit
  /-- A prefix before a compact instruction (R37). -/
  | prefixBeforeCompact
  /-- A prefix before a layout that takes none, or before the shift row (R37). -/
  | prefixNotAllowed
  /-- An EXT.H not directly preceded by an EXT, or an EXT after an EXT (R37). -/
  | prefixOrder
  /-- Prefix bits above the immediate are nonzero (R36). -/
  | prefixRange
  deriving DecidableEq, Repr

/-- The prefixes before an instruction word (R36, R37): x is [31:3] of the prefix word. -/
inductive Prefixes where
  | none
  | ext (x : BitVec 29)
  | extH (e h : BitVec 29)
  deriving DecidableEq, Repr

/-- The halfword pair of a 32-bit word: the lower address holds [15:0] (R5). -/
def joinHalves (h0 h1 : Half) : W32 := h1 ++ h0

/-- The halfwords of a 32-bit word, lower address first. -/
def halvesOf (w : W32) : List Half := [w.extractLsb' 0 16, w.extractLsb' 16 16]

/-- Forms the immediate of R36 from a native field of width `w` (at most 24). -/
def formImm (w : Nat) (native : Nat) (p : Prefixes) : Except DecodeError Word :=
  match p with
  | .none => .ok ((BitVec.ofNat w native).signExtend 64)
  | .ext x =>
    if x.toNat < 2 ^ (32 - w) then .ok ((BitVec.ofNat 32 (x.toNat * 2 ^ w + native)).signExtend 64)
    else .error .prefixRange
  | .extH e h =>
    if e.toNat < 2 ^ (35 - w) then .ok (BitVec.ofNat 64 ((e.toNat * 2 ^ 29 + h.toNat) * 2 ^ w + native))
    else .error .prefixRange

/-- An instruction the limits of R41-R44 admit; otherwise ILLEGAL. -/
def admitInstr (i : Instr) : Except DecodeError Instr :=
  if i.wellFormed then .ok i else .error .fieldLimit

/-- R35: a field the instruction does not use must be zero. -/
def unusedZero (zero : Bool) (i : Instr) : Except DecodeError Instr :=
  if zero then admitInstr i else .error .unusedField

/-- Major 0x00, ALU register (R41). -/
def decodeAlu (f : BitVec 9) (b a d : BitVec 5) : Except DecodeError Instr :=
  match f.toNat with
  | 0x000 => admitInstr (.add d a b)
  | 0x001 => admitInstr (.sub d a b)
  | 0x002 => admitInstr (.and d a b)
  | 0x003 => admitInstr (.or d a b)
  | 0x004 => admitInstr (.xor d a b)
  | 0x005 => admitInstr (.sll d a b)
  | 0x006 => admitInstr (.srl d a b)
  | 0x007 => admitInstr (.sra d a b)
  | 0x008 => admitInstr (.slt d a b)
  | 0x009 => admitInstr (.sltu d a b)
  | 0x00A => admitInstr (.andn d a b)
  | 0x00B => admitInstr (.orn d a b)
  | _ => .error .reservedFunction

/-- Major 0x03, multiply and divide (R41). -/
def decodeMulDiv (f : BitVec 9) (b a d : BitVec 5) : Except DecodeError Instr :=
  match f.toNat with
  | 0x000 => admitInstr (.mul d a b)
  | 0x001 => admitInstr (.mulh d a b)
  | 0x002 => admitInstr (.mulhu d a b)
  | 0x003 => admitInstr (.mulhsu d a b)
  | 0x004 => admitInstr (.div d a b)
  | 0x005 => admitInstr (.divu d a b)
  | 0x006 => admitInstr (.rem d a b)
  | 0x007 => admitInstr (.remu d a b)
  | _ => .error .reservedFunction

/-- Major 0x04, bit manipulation (R41). -/
def decodeBitOps (f : BitVec 9) (b a d : BitVec 5) : Except DecodeError Instr :=
  match f.toNat with
  | 0x000 => unusedZero (decide (b = 0)) (.clz d a)
  | 0x001 => unusedZero (decide (b = 0)) (.ctz d a)
  | 0x002 => unusedZero (decide (b = 0)) (.popc d a)
  | 0x003 => unusedZero (decide (b = 0)) (.brev d a)
  | 0x004 => admitInstr (.bext d a b)
  | 0x005 => admitInstr (.bdep d a b)
  | 0x006 => admitInstr (.min d a b)
  | 0x007 => admitInstr (.max d a b)
  | 0x008 => admitInstr (.minu d a b)
  | 0x009 => admitInstr (.maxu d a b)
  | 0x00A => admitInstr (.sel d a b)
  | _ => .error .reservedFunction

/-- Major 0x0A, die-memory atomics (R41). -/
def decodeAtomic (f : BitVec 9) (b a d : BitVec 5) : Except DecodeError Instr :=
  match f.toNat with
  | 0x000 => admitInstr (.amoadd d a b)
  | 0x001 => admitInstr (.amoand d a b)
  | 0x002 => admitInstr (.amoor d a b)
  | 0x003 => admitInstr (.amoxor d a b)
  | 0x004 => admitInstr (.amomin d a b)
  | 0x005 => admitInstr (.amomax d a b)
  | 0x006 => admitInstr (.amominu d a b)
  | 0x007 => admitInstr (.amomaxu d a b)
  | 0x008 => admitInstr (.amoswap d a b)
  | 0x009 => admitInstr (.amocas d a b)
  | _ => .error .reservedFunction

/-- Major 0x0B, fence (R41). -/
def decodeFence (f : BitVec 9) (b a d : BitVec 5) : Except DecodeError Instr :=
  if f.extractLsb' 2 7 ≠ 0 then .error .reservedFunction
  else unusedZero (decide (b = 0) && decide (a = 0) && decide (d = 0)) (.fenceSc (f.extractLsb' 0 2))

/-- Major 0x0C, bank ALU (R41). -/
def decodeBank (f : BitVec 9) (b a d : BitVec 5) : Except DecodeError Instr :=
  match f.toNat with
  | 0x000 => admitInstr (.baddW128 d a b)
  | 0x001 => admitInstr (.bvaddF d a b)
  | 0x002 => admitInstr (.bvaddBh d a b)
  | 0x003 => admitInstr (.bvmaxF d a b)
  | 0x004 => admitInstr (.bvmaxBh d a b)
  | 0x005 => admitInstr (.bredF d a b)
  | 0x006 => admitInstr (.bredBh d a b)
  | _ => .error .reservedFunction

/-- Major 0x0D, remote (R41). -/
def decodeRemote (f : BitVec 9) (b a d : BitVec 5) : Except DecodeError Instr :=
  match f.toNat with
  | 0x000 => admitInstr (.get d a b)
  | 0x001 => admitInstr (.getB d a b)
  | 0x010 => admitInstr (.put d a b)
  | 0x011 => admitInstr (.putB d a b)
  | 0x020 => admitInstr (.ramoAdd d a b)
  | 0x021 => admitInstr (.ramoAnd d a b)
  | 0x022 => admitInstr (.ramoOr d a b)
  | 0x023 => admitInstr (.ramoXor d a b)
  | 0x024 => admitInstr (.ramoMin d a b)
  | 0x025 => admitInstr (.ramoMax d a b)
  | 0x026 => admitInstr (.ramoMinu d a b)
  | 0x027 => admitInstr (.ramoMaxu d a b)
  | 0x028 => admitInstr (.ramoSwap d a b)
  | 0x029 => admitInstr (.ramoCas d a b)
  | _ => .error .reservedFunction

/-- Major 0x0E, thread (R41). -/
def decodeThread (f : BitVec 9) (b a d : BitVec 5) : Except DecodeError Instr :=
  if f.toNat < 0x001 then .error .reservedFunction
  else if f.toNat ≤ 0x020 then admitInstr (.spawn d a b (f.extractLsb' 0 6))
  else if f.toNat < 0x040 then .error .reservedFunction
  else if f.toNat < 0x080 then admitInstr (.send a b d (f.extractLsb' 0 6))
  else match f.toNat with
  | 0x082 => unusedZero (decide (b = 0) && decide (d = 0)) (.sleep a)
  | 0x083 => unusedZero (decide (b = 0)) (.probe d a)
  | 0x084 => unusedZero (decide (b = 0)) (.probeV d a)
  | 0x085 => unusedZero (decide (b = 0) && decide (d = 0)) (.empty a)
  | 0x086 => unusedZero (decide (b = 0) && decide (d = 0)) (.emptyV a)
  | 0x080 => unusedZero (decide (b = 0) && decide (a = 0) && decide (d = 0)) .exit
  | 0x081 => unusedZero (decide (b = 0) && decide (a = 0) && decide (d = 0)) .yield
  | _ => .error .reservedFunction

/-- Major 0x0F, queues and loop registers (R41). -/
def decodeQueue (f : BitVec 9) (b a d : BitVec 5) : Except DecodeError Instr :=
  match f.toNat with
  | 0x000 => unusedZero (decide (b = 0)) (.qpush d a)
  | 0x001 => unusedZero (decide (b = 0)) (.qpop d a)
  | 0x002 => unusedZero (decide (b = 0)) (.qlen d a)
  | 0x004 => unusedZero (decide (b = 0)) (.lcw d a)
  | 0x005 => unusedZero (decide (b = 0)) (.lcr d a)
  | 0x006 => unusedZero (decide (b = 0)) (.lbw d a)
  | _ => .error .reservedFunction

/-- Major 0x10, superstep (R41). -/
def decodeSuperstep (f : BitVec 9) (b a d : BitVec 5) : Except DecodeError Instr :=
  match f.toNat with
  | 0x000 => admitInstr (.sync d a b)
  | 0x001 => admitInstr (.syncQ d a b)
  | 0x003 => unusedZero (decide (b = 0) && decide (d = 0)) (.pfl a)
  | 0x004 => unusedZero (decide (b = 0) && decide (d = 0)) (.wbl a)
  | 0x005 => unusedZero (decide (b = 0) && decide (a = 0)) (.ssno d)
  | 0x002 => unusedZero (decide (b = 0) && decide (a = 0) && decide (d = 0)) .abort
  | _ => .error .reservedFunction

/-- Major 0x11, matrix (R41). -/
def decodeMatrix (f : BitVec 9) (b a d : BitVec 5) : Except DecodeError Instr :=
  match f.toNat with
  | 0x000 => unusedZero (decide (b = 0) && decide (d = 0)) (.mcfg a)
  | 0x001 => admitInstr (.mjob d a b)
  | 0x002 => admitInstr (.mdrain d a b)
  | 0x003 => unusedZero (decide (b = 0) && decide (a = 0)) (.mstat d)
  | _ => .error .reservedFunction

/-- Major 0x12, copy (R41). -/
def decodeCopy (f : BitVec 9) (b a d : BitVec 5) : Except DecodeError Instr :=
  match f.toNat with
  | 0x000 => admitInstr (.xcopy d a b)
  | 0x001 => admitInstr (.xcopyT d a b)
  | 0x002 => admitInstr (.xplane d a b)
  | 0x003 => admitInstr (.xunplane d a b)
  | 0x004 => admitInstr (.xfill d a b)
  | 0x005 => admitInstr (.xgather d a b)
  | 0x100 => unusedZero (decide (d = 0)) (.xcopyNext a b)
  | 0x101 => unusedZero (decide (d = 0)) (.xcopyTNext a b)
  | 0x102 => unusedZero (decide (d = 0)) (.xplaneNext a b)
  | 0x103 => unusedZero (decide (d = 0)) (.xunplaneNext a b)
  | 0x104 => unusedZero (decide (d = 0)) (.xfillNext a b)
  | 0x105 => unusedZero (decide (d = 0)) (.xgatherNext a b)
  | _ => .error .reservedFunction

/-- Major 0x13, timetable (R41). -/
def decodeTimetable (f : BitVec 9) (b a d : BitVec 5) : Except DecodeError Instr :=
  match f.toNat with
  | 0x000 => unusedZero (decide (b = 0)) (.ttload d a)
  | 0x001 => unusedZero (decide (b = 0)) (.ttloadK d a)
  | 0x002 => unusedZero (decide (b = 0) && decide (d = 0)) (.ttgoArm a)
  | _ => .error .reservedFunction

/-- Major 0x14, amplitude (R41). -/
def decodeAmplitude (f : BitVec 9) (b a d : BitVec 5) : Except DecodeError Instr :=
  match f.toNat with
  | 0x000 => admitInstr (.qgate d a b)
  | 0x001 => admitInstr (.qgateAuto d a b)
  | 0x002 => unusedZero (decide (b = 0)) (.qswap d a)
  | 0x003 => unusedZero (decide (b = 0)) (.qprob d a)
  | 0x004 => unusedZero (decide (b = 0) && decide (a = 0)) (.qnorm d)
  | 0x005 => unusedZero (decide (b = 0)) (.qsamp d a)
  | 0x100 => admitInstr (.qgateD d a b)
  | 0x101 => admitInstr (.qgateAutoD d a b)
  | 0x102 => unusedZero (decide (b = 0)) (.qswapD d a)
  | 0x103 => unusedZero (decide (b = 0)) (.qprobD d a)
  | 0x104 => unusedZero (decide (b = 0) && decide (a = 0)) (.qnormD d)
  | 0x105 => unusedZero (decide (b = 0)) (.qsampD d a)
  | _ => .error .reservedFunction

/-- Major 0x15, harvest (R41). -/
def decodeHarvest (f : BitVec 9) (b a d : BitVec 5) : Except DecodeError Instr :=
  match f.toNat with
  | 0x000 => unusedZero (decide (b = 0) && decide (d = 0)) (.hoffer a)
  | 0x001 => unusedZero (decide (b = 0) && decide (a = 0)) (.hstat d)
  | _ => .error .reservedFunction

/-- Major 0x16, power leave (R41). -/
def decodeLeave (f : BitVec 9) (b a d : BitVec 5) : Except DecodeError Instr :=
  match f.toNat with
  | 0x000 => unusedZero (decide (b = 0)) (.leave d a)
  | 0x001 => unusedZero (decide (b = 0) && decide (d = 0)) (.leaveRel a)
  | _ => .error .reservedFunction

/-- Major 0x17, system (R41). -/
def decodeSystem (f : BitVec 9) (b a d : BitVec 5) : Except DecodeError Instr :=
  if f.toNat < 0x040 then unusedZero (decide (a = 0)) (.sysr d (f.extractLsb' 0 6 ++ b))
  else if f.toNat < 0x080 then
    unusedZero (decide (b = 0)) (.sysw (f.extractLsb' 0 6 ++ d) a)
  else match f.toNat with
  | 0x084 => unusedZero (decide (b = 0) && decide (d = 0)) (.sfenceVPage a)
  | 0x086 => unusedZero (decide (b = 0) && decide (d = 0)) (.inject a)
  | 0x087 => unusedZero (decide (b = 0) && decide (d = 0)) (.report a)
  | 0x080 => unusedZero (decide (b = 0) && decide (a = 0) && decide (d = 0)) .eret
  | 0x081 => unusedZero (decide (b = 0) && decide (a = 0) && decide (d = 0)) .wfi
  | 0x082 => unusedZero (decide (b = 0) && decide (a = 0) && decide (d = 0)) .brk
  | 0x083 => unusedZero (decide (b = 0) && decide (a = 0) && decide (d = 0)) .trap
  | 0x085 => unusedZero (decide (b = 0) && decide (a = 0) && decide (d = 0)) .iflush
  | _ => .error .reservedFunction

/-- R-layout majors by number. -/
def decodeR (maj : Nat) (f : BitVec 9) (b a d : BitVec 5) : Except DecodeError Instr :=
  match maj with
  | 0x00 => decodeAlu f b a d
  | 0x03 => decodeMulDiv f b a d
  | 0x04 => decodeBitOps f b a d
  | 0x0A => decodeAtomic f b a d
  | 0x0B => decodeFence f b a d
  | 0x0C => decodeBank f b a d
  | 0x0D => decodeRemote f b a d
  | 0x0E => decodeThread f b a d
  | 0x0F => decodeQueue f b a d
  | 0x10 => decodeSuperstep f b a d
  | 0x11 => decodeMatrix f b a d
  | 0x12 => decodeCopy f b a d
  | 0x13 => decodeTimetable f b a d
  | 0x14 => decodeAmplitude f b a d
  | 0x15 => decodeHarvest f b a d
  | 0x16 => decodeLeave f b a d
  | 0x17 => decodeSystem f b a d
  | _ => .error .reservedMajor

/-- Majors 0x20-0x2F, the vector map (R43, R44). -/
def decodeV (maj : Nat) (vf : BitVec 2) (t : BitVec 4) (m : BitVec 3) (b a d : BitVec 5) : Except DecodeError Instr :=
  match maj, vf.toNat with
  | 0x20, 0 => admitInstr (.vadd t m d a b)
  | 0x20, 1 => admitInstr (.vsub t m d a b)
  | 0x20, 2 => admitInstr (.vmul t m d a b)
  | 0x20, 3 => admitInstr (.vmulh t m d a b)
  | 0x21, 0 => admitInstr (.vand t m d a b)
  | 0x21, 1 => admitInstr (.vor t m d a b)
  | 0x21, 2 => admitInstr (.vxor t m d a b)
  | 0x21, 3 => admitInstr (.vandn t m d a b)
  | 0x22, 0 => admitInstr (.vsll t m d a b)
  | 0x22, 1 => admitInstr (.vsrl t m d a b)
  | 0x22, 2 => admitInstr (.vsra t m d a b)
  | 0x23, 0 => admitInstr (.vmin t m d a b)
  | 0x23, 1 => admitInstr (.vmax t m d a b)
  | 0x23, 2 => admitInstr (.vadds t m d a b)
  | 0x23, 3 => admitInstr (.vsubs t m d a b)
  | 0x24, 0 => admitInstr (.vfadd t m d a b)
  | 0x24, 1 => admitInstr (.vfsub t m d a b)
  | 0x24, 2 => admitInstr (.vfmul t m d a b)
  | 0x24, 3 => admitInstr (.vfdiv t m d a b)
  | 0x25, 0 => admitInstr (.vfmin t m d a b)
  | 0x25, 1 => admitInstr (.vfmax t m d a b)
  | 0x25, 2 => admitInstr (.vrcps t m d a b)
  | 0x25, 3 => admitInstr (.vrsqrts t m d a b)
  | 0x26, 0 => admitInstr (.vfma t m d a b)
  | 0x26, 1 => admitInstr (.vfms t m d a b)
  | 0x26, 2 => admitInstr (.vfnma t m d a b)
  | 0x26, 3 => admitInstr (.vfnms t m d a b)
  | 0x27, 0 => admitInstr (.vceq t m d a b)
  | 0x27, 1 => admitInstr (.vcne t m d a b)
  | 0x27, 2 => admitInstr (.vclt t m d a b)
  | 0x27, 3 => admitInstr (.vcle t m d a b)
  | 0x28, 0 => admitInstr (.vcvt t m d a (b.extractLsb' 0 4) (b.extractLsb' 4 1))
  | 0x28, 1 => match b.toNat with
    | 0 => admitInstr (.vrcp t m d a)
    | 1 => admitInstr (.vrsqrt t m d a)
    | 2 => admitInstr (.vsqrt t m d a)
    | 3 => admitInstr (.vabs t m d a)
    | 4 => admitInstr (.vneg t m d a)
    | 5 => admitInstr (.vmov t m d a)
    | _ => .error .reservedFunction
  | 0x28, 2 => match b.toNat with
    | 0 => admitInstr (.vredsum t m d a)
    | 1 => admitInstr (.vredmin t m d a)
    | 2 => admitInstr (.vredmax t m d a)
    | 3 => admitInstr (.vredand t m d a)
    | 4 => admitInstr (.vredor t m d a)
    | 5 => admitInstr (.vredxor t m d a)
    | _ => .error .reservedFunction
  | 0x29, 0 => admitInstr (.vperm t m d a b)
  | 0x29, 1 => admitInstr (.vslide t m d a b)
  | 0x29, 2 => unusedZero (decide (b = 0)) (.vbcast t m d a)
  | 0x29, 3 => admitInstr (.vmerge t m d a b)
  | 0x2A, 0 => unusedZero (decide (b = 0)) (.vld t m d a)
  | 0x2A, 1 => admitInstr (.vlds t m d a b)
  | 0x2A, 2 => unusedZero (decide (b = 0)) (.vldq t m d a)
  | 0x2A, 3 => admitInstr (.vgather t m d a b)
  | 0x2B, 0 => unusedZero (decide (b = 0)) (.vst t m d a)
  | 0x2B, 1 => admitInstr (.vsts t m d a b)
  | 0x2B, 2 => unusedZero (decide (m = 0) && decide (b = 0)) (.vstq t d a)
  | 0x2B, 3 => admitInstr (.vscatter t m d a b)
  | 0x2C, 0 => unusedZero (decide (t = 0) && decide (m = 0)) (.vmand d a b)
  | 0x2C, 1 => unusedZero (decide (t = 0) && decide (m = 0)) (.vmor d a b)
  | 0x2C, 2 => unusedZero (decide (t = 0) && decide (m = 0)) (.vmxor d a b)
  | 0x2C, 3 => match b.toNat with
    | 0 => unusedZero (decide (t = 0) && decide (m = 0)) (.vmnot d a)
    | 1 => unusedZero (decide (t = 0) && decide (m = 0)) (.vmpopc d a)
    | 2 => unusedZero (decide (t = 0) && decide (m = 0)) (.vmfirst d a)
    | _ => .error .reservedFunction
  | 0x2D, 0 => unusedZero (decide (t = 0) && decide (m = 0)) (.vmap d a b)
  | 0x2D, 1 => unusedZero (decide (t = 0) && decide (m = 0)) (.vmapR d a b)
  | 0x2E, 0 => unusedZero (decide (t = 0) && decide (m = 0) && decide (b = 0)) (.vloop d a)
  | 0x2E, 1 => unusedZero (decide (t = 0) && decide (m = 0) && decide (b = 0)) (.tdld d a)
  | 0x2E, 2 => unusedZero (decide (t = 0) && decide (m = 0) && decide (b = 0)) (.tdst d a)
  | 0x2E, 3 => unusedZero (decide (t = 0) && decide (m = 0)) (.tdset d a b)
  | 0x2F, 0 => unusedZero (decide (m = 0) && decide (b = 0)) (.vqpush t d a)
  | 0x2F, 1 => unusedZero (decide (b = 0)) (.vqpop t m d a)
  | _, _ => .error .reservedFunction

/-- Major 0x01: the shift row takes no prefix (R37, R41). -/
def decodeShift (imm11 : BitVec 11) (a d : BitVec 5) (p : Prefixes) : Except DecodeError Instr :=
  if p ≠ .none then .error .prefixNotAllowed
  else if imm11.extractLsb' 8 3 ≠ 0 then .error .unusedField
  else match (imm11.extractLsb' 6 2).toNat with
    | 0 => .ok (.slli d a (imm11.extractLsb' 0 6))
    | 1 => .ok (.srli d a (imm11.extractLsb' 0 6))
    | 2 => .ok (.srai d a (imm11.extractLsb' 0 6))
    | _ => .error .reservedFunction

/-- Major 0x01, ALU immediate (R41). -/
def decodeAluImm (imm11 : BitVec 11) (fn3 : BitVec 3) (a d : BitVec 5) (p : Prefixes) : Except DecodeError Instr :=
  match fn3.toNat with
  | 0 => (formImm 11 imm11.toNat p).map (.addi d a)
  | 1 => (formImm 11 imm11.toNat p).map (.slti d a)
  | 2 => (formImm 11 imm11.toNat p).map (.sltiu d a)
  | 3 => (formImm 11 imm11.toNat p).map (.andi d a)
  | 4 => (formImm 11 imm11.toNat p).map (.ori d a)
  | 5 => (formImm 11 imm11.toNat p).map (.xori d a)
  | 6 => decodeShift imm11 a d p
  | _ => .error .reservedFunction

/-- Major 0x08, load (R41). -/
def decodeLoad (imm11 : BitVec 11) (fn3 : BitVec 3) (a d : BitVec 5) (p : Prefixes) : Except DecodeError Instr :=
  match fn3.toNat with
  | 0 => (formImm 11 imm11.toNat p).map (.lb d a)
  | 1 => (formImm 11 imm11.toNat p).map (.lh d a)
  | 2 => (formImm 11 imm11.toNat p).map (.lw d a)
  | 3 => (formImm 11 imm11.toNat p).map (.ld d a)
  | 4 => (formImm 11 imm11.toNat p).map (.lbu d a)
  | 5 => (formImm 11 imm11.toNat p).map (.lhu d a)
  | 6 => (formImm 11 imm11.toNat p).map (.lwu d a)
  | _ => .error .reservedFunction

/-- Major 0x09, store (R41). -/
def decodeStore (off11 : BitVec 11) (fn3 : BitVec 3) (b a : BitVec 5) (p : Prefixes) : Except DecodeError Instr :=
  match fn3.toNat with
  | 0 => (formImm 11 off11.toNat p).map (.sb a b)
  | 1 => (formImm 11 off11.toNat p).map (.sh a b)
  | 2 => (formImm 11 off11.toNat p).map (.sw a b)
  | 3 => (formImm 11 off11.toNat p).map (.sd a b)
  | _ => .error .reservedFunction

/-- Major 0x05, conditional branch (R41). -/
def decodeBranch (off11 : BitVec 11) (cond : BitVec 3) (b a : BitVec 5) (p : Prefixes) : Except DecodeError Instr :=
  match cond.toNat with
  | 0 => (formImm 11 off11.toNat p).map (.beq a b)
  | 1 => (formImm 11 off11.toNat p).map (.bne a b)
  | 2 => (formImm 11 off11.toNat p).map (.blt a b)
  | 3 => (formImm 11 off11.toNat p).map (.bge a b)
  | 4 => (formImm 11 off11.toNat p).map (.bltu a b)
  | 5 => (formImm 11 off11.toNat p).map (.bgeu a b)
  | _ => .error .reservedFunction

/-- Major 0x02, upper immediate: imm19[0] is the function bit (R34, R41). -/
def decodeUpper (imm18 : BitVec 18) (fn : BitVec 1) (d : BitVec 5) (p : Prefixes) : Except DecodeError Instr :=
  if fn = 0 then (formImm 18 imm18.toNat p).map (.lih d) else (formImm 18 imm18.toNat p).map (.pch d)

/-- A 32-bit instruction word with the prefixes before it: the major selects the layout (R34, R40). -/
def decodeWord (p : Prefixes) (w : W32) : Except DecodeError Instr :=
  let d := w.extractLsb' 8 5
  let a := w.extractLsb' 13 5
  let b := w.extractLsb' 18 5
  match (w.extractLsb' 2 6).toNat with
  | 0x01 => decodeAluImm (w.extractLsb' 21 11) (w.extractLsb' 18 3) a d p
  | 0x02 => decodeUpper (w.extractLsb' 14 18) (w.extractLsb' 13 1) d p
  | 0x05 => decodeBranch (w.extractLsb' 26 6 ++ d) (w.extractLsb' 23 3) b a p
  | 0x06 => (formImm 24 (w.extractLsb' 8 24).toNat p).map .jal
  | 0x07 => (formImm 14 (w.extractLsb' 18 14).toNat p).map (.jalr d a)
  | 0x08 => decodeLoad (w.extractLsb' 21 11) (w.extractLsb' 18 3) a d p
  | 0x09 => decodeStore (w.extractLsb' 26 6 ++ d) (w.extractLsb' 23 3) b a p
  | maj =>
    if p ≠ .none then .error .prefixNotAllowed
    else if maj < 0x20 then decodeR maj (w.extractLsb' 23 9) b a d
    else if maj < 0x30 then decodeV maj (w.extractLsb' 30 2) (w.extractLsb' 26 4) (w.extractLsb' 23 3) b a d
    else .error .reservedMajor

/-- A compact halfword (R39, Table 2.3). -/
def decodeCompact (h : Half) : Except DecodeError Instr :=
  let d := h.extractLsb' 5 5
  let s := h.extractLsb' 10 5
  let v := h.extractLsb' 15 1
  match (h.extractLsb' 1 4).toNat with
  | 0 => unusedZero (decide (v = 0)) (.cMov d s)
  | 1 => unusedZero (decide (v = 0)) (.cAdd d s)
  | 2 => unusedZero (decide (v = 0)) (.cSub d s)
  | 3 => unusedZero (decide (v = 0)) (.cAnd d s)
  | 4 => admitInstr (.cAddi d (v ++ s))
  | 5 => admitInstr (.cLdi d (v ++ s))
  | 6 => admitInstr (.cSlli d (v ++ s))
  | 7 => if v = 0 then admitInstr (.cLdReg d s) else admitInstr (.cLdG2 d s)
  | 8 => if v = 0 then admitInstr (.cStReg d s) else admitInstr (.cStG2 d s)
  | 9 => admitInstr (.cBeqz d (v ++ s))
  | 10 => admitInstr (.cBnez d (v ++ s))
  | 11 => admitInstr (.cJ (v ++ s ++ d))
  | 12 => unusedZero (decide (v = 0) && decide (s = 0)) (.cSync d)
  | 13 => unusedZero (decide (v = 0)) (.cSend d s)
  | 14 => unusedZero (decide (v = 0) && decide (s = 0) && decide (d = 0)) .cExit
  | _ => unusedZero (decide (v = 0) && decide (s = 0) && decide (d = 0)) .cNop

/-- The word after EXT and EXT.H. -/
def decodeAfterExtH (e h : BitVec 29) (hs : List Half) : Except DecodeError (Instr × Nat) :=
  match hs with
  | [] => .error .truncated
  | h0 :: t =>
    if h0.getLsbD 0 = false then .error .prefixBeforeCompact
    else match t with
      | [] => .error .truncated
      | h1 :: _ =>
        if h0.getLsbD 1 = true then .error .prefixOrder
        else (decodeWord (.extH e h) (joinHalves h0 h1)).map (·, 6)

/-- What follows an EXT: an instruction word, or an EXT.H and then one (R37). -/
def decodeAfterExt (x : BitVec 29) (hs : List Half) : Except DecodeError (Instr × Nat) :=
  match hs with
  | [] => .error .truncated
  | h0 :: t =>
    if h0.getLsbD 0 = false then .error .prefixBeforeCompact
    else match t with
      | [] => .error .truncated
      | h1 :: t =>
        if h0.getLsbD 1 = false then (decodeWord (.ext x) (joinHalves h0 h1)).map (·, 4)
        else if h0.getLsbD 2 = false then .error .prefixOrder
        else decodeAfterExtH x ((joinHalves h0 h1).extractLsb' 3 29) t

/-- Decodes the first instruction of a list of halfwords, with its length in halfwords (R32, R36-R38). -/
def decode (hs : List Half) : Except DecodeError (Instr × Nat) :=
  match hs with
  | [] => .error .truncated
  | h0 :: t =>
    if h0.getLsbD 0 = false then (decodeCompact h0).map (·, 1)
    else match t with
      | [] => .error .truncated
      | h1 :: t =>
        if h0.getLsbD 1 = false then (decodeWord .none (joinHalves h0 h1)).map (·, 2)
        else if h0.getLsbD 2 = true then .error .prefixOrder
        else decodeAfterExt ((joinHalves h0 h1).extractLsb' 3 29) t

/-- The longest instruction in halfwords: EXT, EXT.H and a word. -/
def maxHalves : Nat := 6

/-- The halfwords of a table row's bits, low halfword first, zeros above up to the longest instruction. -/
def tableHalves (w : Nat) : List Half :=
  (List.range maxHalves).map (fun k => BitVec.ofNat 16 (w >>> (16 * k)))

/-- The instruction the decoder reads from the bits `w` of a table row of `nbits` bits. -/
def decodeTableWord (nbits w : Nat) : Option Instr :=
  match decode (tableHalves (w % 2 ^ nbits)) with
  | .ok (i, _) => some i
  | .error _ => none

/-! ## The encoder -/

/-- R layout (Table 2.2). -/
def wordR (maj : BitVec 6) (f : BitVec 9) (b a d : BitVec 5) : W32 := f ++ b ++ a ++ d ++ maj ++ 1#2
/-- IF layout. -/
def wordIF (maj : BitVec 6) (fn3 : BitVec 3) (imm : BitVec 11) (a d : BitVec 5) : W32 := imm ++ fn3 ++ a ++ d ++ maj ++ 1#2
/-- I layout. -/
def wordI (maj : BitVec 6) (imm : BitVec 14) (a d : BitVec 5) : W32 := imm ++ a ++ d ++ maj ++ 1#2
/-- U layout with its function bit. -/
def wordU (maj : BitVec 6) (fn : BitVec 1) (imm : BitVec 18) (d : BitVec 5) : W32 := imm ++ fn ++ d ++ maj ++ 1#2
/-- B and S layouts. -/
def wordBS (maj : BitVec 6) (fn3 : BitVec 3) (off : BitVec 11) (b a : BitVec 5) : W32 :=
  off.extractLsb' 5 6 ++ fn3 ++ b ++ a ++ off.extractLsb' 0 5 ++ maj ++ 1#2
/-- J layout. -/
def wordJ (maj : BitVec 6) (off : BitVec 24) : W32 := off ++ maj ++ 1#2
/-- V layout. -/
def wordV (maj : BitVec 6) (vf : BitVec 2) (t : BitVec 4) (m : BitVec 3) (b a d : BitVec 5) : W32 :=
  vf ++ t ++ m ++ b ++ a ++ d ++ maj ++ 1#2
/-- P layout: EXT (h = 0) or EXT.H (h = 1). -/
def wordP (h : BitVec 1) (x : BitVec 29) : W32 := x ++ h ++ 3#2
/-- A compact halfword (R39). -/
def halfC (op : BitVec 4) (v : BitVec 1) (s d : BitVec 5) : Half := v ++ s ++ d ++ op ++ 0#1

/-- The halfwords of an instruction with an immediate of native width `w`: no prefix where the value fits, EXT where it
fits 32 signed bits, EXT and EXT.H otherwise (R36, R47).  `word` takes the native field. -/
def encodeImm (w : Nat) (imm : Word) (word : BitVec w → W32) : List Half :=
  let native := imm.extractLsb' 0 w
  if native.signExtend 64 = imm then halvesOf (word native)
  else if (imm.extractLsb' 0 32).signExtend 64 = imm then
    halvesOf (wordP 0 ((imm.extractLsb' w (32 - w)).setWidth 29)) ++ halvesOf (word native)
  else
    halvesOf (wordP 0 ((imm.extractLsb' (29 + w) (35 - w)).setWidth 29))
      ++ halvesOf (wordP 1 (imm.extractLsb' w 29)) ++ halvesOf (word native)

/-- The halfwords of an instruction; an event has none. -/
def encode (i : Instr) : List Half :=
  match i with
  | .add d a b => halvesOf (wordR 0x00 0x000 b a d)
  | .sub d a b => halvesOf (wordR 0x00 0x001 b a d)
  | .and d a b => halvesOf (wordR 0x00 0x002 b a d)
  | .or d a b => halvesOf (wordR 0x00 0x003 b a d)
  | .xor d a b => halvesOf (wordR 0x00 0x004 b a d)
  | .sll d a b => halvesOf (wordR 0x00 0x005 b a d)
  | .srl d a b => halvesOf (wordR 0x00 0x006 b a d)
  | .sra d a b => halvesOf (wordR 0x00 0x007 b a d)
  | .slt d a b => halvesOf (wordR 0x00 0x008 b a d)
  | .sltu d a b => halvesOf (wordR 0x00 0x009 b a d)
  | .andn d a b => halvesOf (wordR 0x00 0x00A b a d)
  | .orn d a b => halvesOf (wordR 0x00 0x00B b a d)
  | .addi d a imm => encodeImm 11 imm (fun n => wordIF 0x01 0 n a d)
  | .slti d a imm => encodeImm 11 imm (fun n => wordIF 0x01 1 n a d)
  | .sltiu d a imm => encodeImm 11 imm (fun n => wordIF 0x01 2 n a d)
  | .andi d a imm => encodeImm 11 imm (fun n => wordIF 0x01 3 n a d)
  | .ori d a imm => encodeImm 11 imm (fun n => wordIF 0x01 4 n a d)
  | .xori d a imm => encodeImm 11 imm (fun n => wordIF 0x01 5 n a d)
  | .slli d a sh => halvesOf (wordIF 0x01 6 (0#3 ++ 0#2 ++ sh) a d)
  | .srli d a sh => halvesOf (wordIF 0x01 6 (0#3 ++ 1#2 ++ sh) a d)
  | .srai d a sh => halvesOf (wordIF 0x01 6 (0#3 ++ 2#2 ++ sh) a d)
  | .lih d imm => encodeImm 18 imm (fun n => wordU 0x02 0 n d)
  | .pch d imm => encodeImm 18 imm (fun n => wordU 0x02 1 n d)
  | .mul d a b => halvesOf (wordR 0x03 0x000 b a d)
  | .mulh d a b => halvesOf (wordR 0x03 0x001 b a d)
  | .mulhu d a b => halvesOf (wordR 0x03 0x002 b a d)
  | .mulhsu d a b => halvesOf (wordR 0x03 0x003 b a d)
  | .div d a b => halvesOf (wordR 0x03 0x004 b a d)
  | .divu d a b => halvesOf (wordR 0x03 0x005 b a d)
  | .rem d a b => halvesOf (wordR 0x03 0x006 b a d)
  | .remu d a b => halvesOf (wordR 0x03 0x007 b a d)
  | .clz d a => halvesOf (wordR 0x04 0x000 0 a d)
  | .ctz d a => halvesOf (wordR 0x04 0x001 0 a d)
  | .popc d a => halvesOf (wordR 0x04 0x002 0 a d)
  | .brev d a => halvesOf (wordR 0x04 0x003 0 a d)
  | .bext d a b => halvesOf (wordR 0x04 0x004 b a d)
  | .bdep d a b => halvesOf (wordR 0x04 0x005 b a d)
  | .min d a b => halvesOf (wordR 0x04 0x006 b a d)
  | .max d a b => halvesOf (wordR 0x04 0x007 b a d)
  | .minu d a b => halvesOf (wordR 0x04 0x008 b a d)
  | .maxu d a b => halvesOf (wordR 0x04 0x009 b a d)
  | .sel d a b => halvesOf (wordR 0x04 0x00A b a d)
  | .beq a b off => encodeImm 11 off (fun n => wordBS 0x05 0 n b a)
  | .bne a b off => encodeImm 11 off (fun n => wordBS 0x05 1 n b a)
  | .blt a b off => encodeImm 11 off (fun n => wordBS 0x05 2 n b a)
  | .bge a b off => encodeImm 11 off (fun n => wordBS 0x05 3 n b a)
  | .bltu a b off => encodeImm 11 off (fun n => wordBS 0x05 4 n b a)
  | .bgeu a b off => encodeImm 11 off (fun n => wordBS 0x05 5 n b a)
  | .jal off => encodeImm 24 off (wordJ 0x06)
  | .jalr d a imm => encodeImm 14 imm (fun n => wordI 0x07 n a d)
  | .lb d a imm => encodeImm 11 imm (fun n => wordIF 0x08 0 n a d)
  | .lh d a imm => encodeImm 11 imm (fun n => wordIF 0x08 1 n a d)
  | .lw d a imm => encodeImm 11 imm (fun n => wordIF 0x08 2 n a d)
  | .ld d a imm => encodeImm 11 imm (fun n => wordIF 0x08 3 n a d)
  | .lbu d a imm => encodeImm 11 imm (fun n => wordIF 0x08 4 n a d)
  | .lhu d a imm => encodeImm 11 imm (fun n => wordIF 0x08 5 n a d)
  | .lwu d a imm => encodeImm 11 imm (fun n => wordIF 0x08 6 n a d)
  | .sb a b off => encodeImm 11 off (fun n => wordBS 0x09 0 n b a)
  | .sh a b off => encodeImm 11 off (fun n => wordBS 0x09 1 n b a)
  | .sw a b off => encodeImm 11 off (fun n => wordBS 0x09 2 n b a)
  | .sd a b off => encodeImm 11 off (fun n => wordBS 0x09 3 n b a)
  | .amoadd d a b => halvesOf (wordR 0x0A 0x000 b a d)
  | .amoand d a b => halvesOf (wordR 0x0A 0x001 b a d)
  | .amoor d a b => halvesOf (wordR 0x0A 0x002 b a d)
  | .amoxor d a b => halvesOf (wordR 0x0A 0x003 b a d)
  | .amomin d a b => halvesOf (wordR 0x0A 0x004 b a d)
  | .amomax d a b => halvesOf (wordR 0x0A 0x005 b a d)
  | .amominu d a b => halvesOf (wordR 0x0A 0x006 b a d)
  | .amomaxu d a b => halvesOf (wordR 0x0A 0x007 b a d)
  | .amoswap d a b => halvesOf (wordR 0x0A 0x008 b a d)
  | .amocas d a b => halvesOf (wordR 0x0A 0x009 b a d)
  | .fenceSc s => halvesOf (wordR 0x0B (0#7 ++ s) 0 0 0)
  | .baddW128 d a b => halvesOf (wordR 0x0C 0x000 b a d)
  | .bvaddF n a b => halvesOf (wordR 0x0C 0x001 b a n)
  | .bvaddBh n a b => halvesOf (wordR 0x0C 0x002 b a n)
  | .bvmaxF n a b => halvesOf (wordR 0x0C 0x003 b a n)
  | .bvmaxBh n a b => halvesOf (wordR 0x0C 0x004 b a n)
  | .bredF n a b => halvesOf (wordR 0x0C 0x005 b a n)
  | .bredBh n a b => halvesOf (wordR 0x0C 0x006 b a n)
  | .get d a b => halvesOf (wordR 0x0D 0x000 b a d)
  | .getB d a b => halvesOf (wordR 0x0D 0x001 b a d)
  | .put d a b => halvesOf (wordR 0x0D 0x010 b a d)
  | .putB d a b => halvesOf (wordR 0x0D 0x011 b a d)
  | .ramoAdd d a b => halvesOf (wordR 0x0D 0x020 b a d)
  | .ramoAnd d a b => halvesOf (wordR 0x0D 0x021 b a d)
  | .ramoOr d a b => halvesOf (wordR 0x0D 0x022 b a d)
  | .ramoXor d a b => halvesOf (wordR 0x0D 0x023 b a d)
  | .ramoMin d a b => halvesOf (wordR 0x0D 0x024 b a d)
  | .ramoMax d a b => halvesOf (wordR 0x0D 0x025 b a d)
  | .ramoMinu d a b => halvesOf (wordR 0x0D 0x026 b a d)
  | .ramoMaxu d a b => halvesOf (wordR 0x0D 0x027 b a d)
  | .ramoSwap d a b => halvesOf (wordR 0x0D 0x028 b a d)
  | .ramoCas d a b => halvesOf (wordR 0x0D 0x029 b a d)
  | .spawn d a b n => halvesOf (wordR 0x0E (0#3 ++ n) b a d)
  | .send a b n c => halvesOf (wordR 0x0E (1#3 ++ c) b a n)
  | .sleep a => halvesOf (wordR 0x0E 0x082 0 a 0)
  | .probe d a => halvesOf (wordR 0x0E 0x083 0 a d)
  | .probeV d a => halvesOf (wordR 0x0E 0x084 0 a d)
  | .empty a => halvesOf (wordR 0x0E 0x085 0 a 0)
  | .emptyV a => halvesOf (wordR 0x0E 0x086 0 a 0)
  | .qpush d a => halvesOf (wordR 0x0F 0x000 0 a d)
  | .qpop d a => halvesOf (wordR 0x0F 0x001 0 a d)
  | .qlen d a => halvesOf (wordR 0x0F 0x002 0 a d)
  | .lcw d a => halvesOf (wordR 0x0F 0x004 0 a d)
  | .lcr d a => halvesOf (wordR 0x0F 0x005 0 a d)
  | .lbw d a => halvesOf (wordR 0x0F 0x006 0 a d)
  | .sync d a b => halvesOf (wordR 0x10 0x000 b a d)
  | .syncQ d a b => halvesOf (wordR 0x10 0x001 b a d)
  | .pfl a => halvesOf (wordR 0x10 0x003 0 a 0)
  | .wbl a => halvesOf (wordR 0x10 0x004 0 a 0)
  | .ssno d => halvesOf (wordR 0x10 0x005 0 0 d)
  | .mcfg a => halvesOf (wordR 0x11 0x000 0 a 0)
  | .mjob d a b => halvesOf (wordR 0x11 0x001 b a d)
  | .mdrain d a b => halvesOf (wordR 0x11 0x002 b a d)
  | .mstat d => halvesOf (wordR 0x11 0x003 0 0 d)
  | .xcopy d a b => halvesOf (wordR 0x12 0x000 b a d)
  | .xcopyT d a b => halvesOf (wordR 0x12 0x001 b a d)
  | .xplane d a b => halvesOf (wordR 0x12 0x002 b a d)
  | .xunplane d a b => halvesOf (wordR 0x12 0x003 b a d)
  | .xfill d a b => halvesOf (wordR 0x12 0x004 b a d)
  | .xgather d a b => halvesOf (wordR 0x12 0x005 b a d)
  | .xcopyNext a b => halvesOf (wordR 0x12 0x100 b a 0)
  | .xcopyTNext a b => halvesOf (wordR 0x12 0x101 b a 0)
  | .xplaneNext a b => halvesOf (wordR 0x12 0x102 b a 0)
  | .xunplaneNext a b => halvesOf (wordR 0x12 0x103 b a 0)
  | .xfillNext a b => halvesOf (wordR 0x12 0x104 b a 0)
  | .xgatherNext a b => halvesOf (wordR 0x12 0x105 b a 0)
  | .ttload d a => halvesOf (wordR 0x13 0x000 0 a d)
  | .ttloadK d a => halvesOf (wordR 0x13 0x001 0 a d)
  | .ttgoArm a => halvesOf (wordR 0x13 0x002 0 a 0)
  | .ttgoDisarm a => halvesOf (wordR 0x13 0x002 0 a 0)
  | .ttgoPost a => halvesOf (wordR 0x13 0x002 0 a 0)
  | .ttgoFree a => halvesOf (wordR 0x13 0x002 0 a 0)
  | .qgate d a b => halvesOf (wordR 0x14 0x000 b a d)
  | .qgateAuto d a b => halvesOf (wordR 0x14 0x001 b a d)
  | .qswap d a => halvesOf (wordR 0x14 0x002 0 a d)
  | .qprob d a => halvesOf (wordR 0x14 0x003 0 a d)
  | .qnorm d => halvesOf (wordR 0x14 0x004 0 0 d)
  | .qsamp d a => halvesOf (wordR 0x14 0x005 0 a d)
  | .qgateD d a b => halvesOf (wordR 0x14 0x100 b a d)
  | .qgateAutoD d a b => halvesOf (wordR 0x14 0x101 b a d)
  | .qswapD d a => halvesOf (wordR 0x14 0x102 0 a d)
  | .qprobD d a => halvesOf (wordR 0x14 0x103 0 a d)
  | .qnormD d => halvesOf (wordR 0x14 0x104 0 0 d)
  | .qsampD d a => halvesOf (wordR 0x14 0x105 0 a d)
  | .hoffer a => halvesOf (wordR 0x15 0x000 0 a 0)
  | .hstat d => halvesOf (wordR 0x15 0x001 0 0 d)
  | .leave d a => halvesOf (wordR 0x16 0x000 0 a d)
  | .leaveRel a => halvesOf (wordR 0x16 0x001 0 a 0)
  | .sysr d n => halvesOf (wordR 0x17 (0#3 ++ n.extractLsb' 5 6) (n.extractLsb' 0 5) 0 d)
  | .sysw n a => halvesOf (wordR 0x17 (1#3 ++ n.extractLsb' 5 6) 0 a (n.extractLsb' 0 5))
  | .sfenceVPage a => halvesOf (wordR 0x17 0x084 0 a 0)
  | .sfenceVContext a => halvesOf (wordR 0x17 0x084 0 a 0)
  | .sfenceVAll a => halvesOf (wordR 0x17 0x084 0 a 0)
  | .sfenceVPublish a => halvesOf (wordR 0x17 0x084 0 a 0)
  | .inject a => halvesOf (wordR 0x17 0x086 0 a 0)
  | .report a => halvesOf (wordR 0x17 0x087 0 a 0)
  | .vadd t m d a b => halvesOf (wordV 0x20 0 t m b a d)
  | .vsub t m d a b => halvesOf (wordV 0x20 1 t m b a d)
  | .vmul t m d a b => halvesOf (wordV 0x20 2 t m b a d)
  | .vmulh t m d a b => halvesOf (wordV 0x20 3 t m b a d)
  | .vand t m d a b => halvesOf (wordV 0x21 0 t m b a d)
  | .vor t m d a b => halvesOf (wordV 0x21 1 t m b a d)
  | .vxor t m d a b => halvesOf (wordV 0x21 2 t m b a d)
  | .vandn t m d a b => halvesOf (wordV 0x21 3 t m b a d)
  | .vsll t m d a b => halvesOf (wordV 0x22 0 t m b a d)
  | .vsrl t m d a b => halvesOf (wordV 0x22 1 t m b a d)
  | .vsra t m d a b => halvesOf (wordV 0x22 2 t m b a d)
  | .vmin t m d a b => halvesOf (wordV 0x23 0 t m b a d)
  | .vmax t m d a b => halvesOf (wordV 0x23 1 t m b a d)
  | .vadds t m d a b => halvesOf (wordV 0x23 2 t m b a d)
  | .vsubs t m d a b => halvesOf (wordV 0x23 3 t m b a d)
  | .vfadd t m d a b => halvesOf (wordV 0x24 0 t m b a d)
  | .vfsub t m d a b => halvesOf (wordV 0x24 1 t m b a d)
  | .vfmul t m d a b => halvesOf (wordV 0x24 2 t m b a d)
  | .vfdiv t m d a b => halvesOf (wordV 0x24 3 t m b a d)
  | .vfmin t m d a b => halvesOf (wordV 0x25 0 t m b a d)
  | .vfmax t m d a b => halvesOf (wordV 0x25 1 t m b a d)
  | .vrcps t m d a b => halvesOf (wordV 0x25 2 t m b a d)
  | .vrsqrts t m d a b => halvesOf (wordV 0x25 3 t m b a d)
  | .vfma t m d a b => halvesOf (wordV 0x26 0 t m b a d)
  | .vfms t m d a b => halvesOf (wordV 0x26 1 t m b a d)
  | .vfnma t m d a b => halvesOf (wordV 0x26 2 t m b a d)
  | .vfnms t m d a b => halvesOf (wordV 0x26 3 t m b a d)
  | .vceq t m d a b => halvesOf (wordV 0x27 0 t m b a d)
  | .vcne t m d a b => halvesOf (wordV 0x27 1 t m b a d)
  | .vclt t m d a b => halvesOf (wordV 0x27 2 t m b a d)
  | .vcle t m d a b => halvesOf (wordV 0x27 3 t m b a d)
  | .vcvt t m d a g s => halvesOf (wordV 0x28 0 t m (s ++ g) a d)
  | .vrcp t m d a => halvesOf (wordV 0x28 1 t m 0 a d)
  | .vrsqrt t m d a => halvesOf (wordV 0x28 1 t m 1 a d)
  | .vsqrt t m d a => halvesOf (wordV 0x28 1 t m 2 a d)
  | .vabs t m d a => halvesOf (wordV 0x28 1 t m 3 a d)
  | .vneg t m d a => halvesOf (wordV 0x28 1 t m 4 a d)
  | .vmov t m d a => halvesOf (wordV 0x28 1 t m 5 a d)
  | .vredsum t m d a => halvesOf (wordV 0x28 2 t m 0 a d)
  | .vredmin t m d a => halvesOf (wordV 0x28 2 t m 1 a d)
  | .vredmax t m d a => halvesOf (wordV 0x28 2 t m 2 a d)
  | .vredand t m d a => halvesOf (wordV 0x28 2 t m 3 a d)
  | .vredor t m d a => halvesOf (wordV 0x28 2 t m 4 a d)
  | .vredxor t m d a => halvesOf (wordV 0x28 2 t m 5 a d)
  | .vperm t m d a b => halvesOf (wordV 0x29 0 t m b a d)
  | .vslide t m d a b => halvesOf (wordV 0x29 1 t m b a d)
  | .vbcast t m d a => halvesOf (wordV 0x29 2 t m 0 a d)
  | .vmerge t m d a b => halvesOf (wordV 0x29 3 t m b a d)
  | .vld t m d a => halvesOf (wordV 0x2A 0 t m 0 a d)
  | .vlds t m d a b => halvesOf (wordV 0x2A 1 t m b a d)
  | .vldq t m d a => halvesOf (wordV 0x2A 2 t m 0 a d)
  | .vgather t m d a b => halvesOf (wordV 0x2A 3 t m b a d)
  | .vst t m d a => halvesOf (wordV 0x2B 0 t m 0 a d)
  | .vsts t m d a b => halvesOf (wordV 0x2B 1 t m b a d)
  | .vstq t d a => halvesOf (wordV 0x2B 2 t 0 0 a d)
  | .vscatter t m d a b => halvesOf (wordV 0x2B 3 t m b a d)
  | .vmand d a b => halvesOf (wordV 0x2C 0 0 0 b a d)
  | .vmor d a b => halvesOf (wordV 0x2C 1 0 0 b a d)
  | .vmxor d a b => halvesOf (wordV 0x2C 2 0 0 b a d)
  | .vmnot d a => halvesOf (wordV 0x2C 3 0 0 0 a d)
  | .vmpopc d a => halvesOf (wordV 0x2C 3 0 0 1 a d)
  | .vmfirst d a => halvesOf (wordV 0x2C 3 0 0 2 a d)
  | .vmap d a b => halvesOf (wordV 0x2D 0 0 0 b a d)
  | .vmapR d a b => halvesOf (wordV 0x2D 1 0 0 b a d)
  | .vloop d n => halvesOf (wordV 0x2E 0 0 0 0 n d)
  | .tdld d a => halvesOf (wordV 0x2E 1 0 0 0 a d)
  | .tdst d a => halvesOf (wordV 0x2E 2 0 0 0 a d)
  | .tdset d a b => halvesOf (wordV 0x2E 3 0 0 b a d)
  | .vqpush t d a => halvesOf (wordV 0x2F 0 t 0 0 a d)
  | .vqpop t m d a => halvesOf (wordV 0x2F 1 t m 0 a d)
  | .cMov d s => [halfC 0 0 s d]
  | .cAdd d s => [halfC 1 0 s d]
  | .cSub d s => [halfC 2 0 s d]
  | .cAnd d s => [halfC 3 0 s d]
  | .cAddi d k => [halfC 4 (k.extractLsb' 5 1) (k.extractLsb' 0 5) d]
  | .cLdi d k => [halfC 5 (k.extractLsb' 5 1) (k.extractLsb' 0 5) d]
  | .cSlli d k => [halfC 6 (k.extractLsb' 5 1) (k.extractLsb' 0 5) d]
  | .cLdReg d s => [halfC 7 0 s d]
  | .cLdG2 d k => [halfC 7 1 k d]
  | .cStReg d s => [halfC 8 0 s d]
  | .cStG2 d k => [halfC 8 1 k d]
  | .cBeqz d off => [halfC 9 (off.extractLsb' 5 1) (off.extractLsb' 0 5) d]
  | .cBnez d off => [halfC 10 (off.extractLsb' 5 1) (off.extractLsb' 0 5) d]
  | .cJ off => [halfC 11 (off.extractLsb' 10 1) (off.extractLsb' 5 5) (off.extractLsb' 0 5)]
  | .cSync d => [halfC 12 0 0 d]
  | .cSend d c => [halfC 13 0 c d]
  | .exit => halvesOf (wordR 0x0E 0x080 0 0 0)
  | .yield => halvesOf (wordR 0x0E 0x081 0 0 0)
  | .abort => halvesOf (wordR 0x10 0x002 0 0 0)
  | .eret => halvesOf (wordR 0x17 0x080 0 0 0)
  | .wfi => halvesOf (wordR 0x17 0x081 0 0 0)
  | .brk => halvesOf (wordR 0x17 0x082 0 0 0)
  | .trap => halvesOf (wordR 0x17 0x083 0 0 0)
  | .iflush => halvesOf (wordR 0x17 0x085 0 0 0)
  | .cExit => [halfC 14 0 0 0]
  | .cNop => [halfC 15 0 0 0]
  | .storeBufferDrain _ _ => []
  | .icacheFill _ _ => []
  | .sleepExpiry _ _ => []
  | .arrive _ _ => []
  | .zeroing _ _ => []
  | .zeroingDone _ _ => []
  | .spawnStart _ => []
  | .deliver _ => []
  | .taskDequeue _ _ => []
  | .stealRound _ => []
  | .lineFill _ _ _ => []
  | .recallLine _ => []
  | .mcfgEffect _ => []
  | .tilePass _ => []
  | .drainRun _ => []
  | .copyRun _ => []
  | .nextCopyRun _ => []
  | .leaveGrant _ => []
  | .thermalEmergency _ _ => []
  | .getFill _ => []
  | .lendingResume _ => []
  | .amplitudePass _ => []
  | .swapHalfArrival _ _ _ => []
  | .partnerTimeout _ => []
  | .tableStart _ => []
  | .groupFire _ => []
  | .beatArrival _ _ => []
  | .debtArrival _ => []
  | .tableStop _ => []
  | .shutterDecision _ => []
  | .release _ => []
  | .quiescenceSweep _ => []
  | .maxssExpiry _ => []
  | .preemptionStop _ => []
  | .secureSealed _ => []
  | .moduleFailed _ => []
  | .spareFill _ => []
  | .timeCarry _ => []
  | .hang _ => []
  | .jobEventEntry _ => []
  | .dispatchStep _ => []
  | .localStoreWipe _ => []
  | .wicketAdmission _ => []
  | .granuleReclaim _ _ => []
  | .dieMemoryReclaim _ _ => []
  | .frameWipe _ => []
  | .dieRetirement _ => []
  | .ssctlVote _ _ => []
  | .ssctlKill _ => []
  | .ssctlRetry _ => []
  | .ssctlPre _ => []
  | .upstRet _ _ _ => []
  | .vtrapHeldClear _ _ => []
  | .qcfgWrite _ _ _ => []
  | .svctlNow _ => []
  | .svctlBw _ _ => []
  | .dbgctlHalt _ => []
  | .dbgctlRun _ => []
  | .dbgctlStep _ => []
  | .hostRead _ _ _ _ => []
  | .hostWrite _ _ _ _ => []
  | .lqtail _ _ _ => []
  | .repreq _ _ => []
  | .dbgselw _ _ => []
  | .sparereq _ _ => []
  | .mgerrClear => []
  | .lcreqProvisioned => []
  | .lcreqDeployed _ => []
  | .lcreqDecommissioned => []
  | .functionLevelReset _ => []
  | .moduleReset => []
  | .linkFlitReceive _ _ _ => []
  | .portLoss _ => []
  | .dieHealthyAgain _ => []
  | .tdispRequest _ _ => []
  | .ideKeyManagement _ _ => []
  | .routerKeyStoreLoad _ _ _ _ => []
  | .contextCreation _ _ _ => []
  | .contextEnd _ => []
  | .slicePowerGating _ _ _ => []
  | .portRetrain _ => []

end Sys2Proof
end

