-- ==== Sys2Proof/Machine/State.lean ====
section
/-! DEFINITION. The state of one W24 module as plain data, the reasons a step stops, and the state after reset.  Every
numbered collection of components is a sparse table whose unlisted components hold their reset value. -/

namespace Sys2Proof.Machine

open Sys2Proof

/-- Modes of a thread (spec/18_traps.md R430). -/
inductive Mode where
  | u
  | s
  | m
  deriving DecidableEq, Repr

/-- Slot states (spec/04_threads.md R83, Table 4.1), with the stopped state of spec/18_traps.md R434 and that of a stepped thread. -/
inductive SlotState where
  | unheld
  | idle
  | ready
  | parked
  | arrived
  | zeroing
  | stopped
  /-- Stopped between the steps of a halted job (spec/20_accounting.md R470). -/
  | halted
  deriving DecidableEq, Repr

/-- What a slot waits for, as the wait table names it (spec/18_traps.md R449). -/
inductive Wait where
  | none
  /-- Registers: bit n for gn, bit 32 + n for vn. -/
  | regs (mask : BitVec 64)
  | queue (q : Nat)
  | sleep
  | ticket (n : Nat)
  | exitDrain
  | arrivalDrain
  | wfi
  deriving DecidableEq, Repr

/-- A captured `g` operand of a vector entry (spec/06_vector.md R142): its value, or the register awaited. -/
inductive Capture where
  | none
  | val (w : Word)
  | wait (r : BitVec 5)
  deriving DecidableEq, Repr

/-- Integer element operations (R151, Table 6.4). -/
inductive VIntOp where
  | add | sub | mul | mulh | and | or | xor | andn | sll | srl | sra | min | max | adds | subs
  deriving DecidableEq, Repr

/-- Two-operand and FMA floating-point element operations (R152, Table 6.5). -/
inductive VFpOp where
  | add | sub | mul | div | min | max | rcps | rsqrts | fma | fms | fnma | fnms
  deriving DecidableEq, Repr

/-- Element comparisons (R155). -/
inductive VCmpOp where
  | eq | ne | lt | le
  deriving DecidableEq, Repr

/-- Special functions (R153). -/
inductive VSpecOp where
  | rcp | rsqrt | sqrt | abs | neg | mov
  deriving DecidableEq, Repr

/-- Reductions (R157). -/
inductive VRedOp where
  | sum | min | max | and | or | xor
  deriving DecidableEq, Repr

/-- Address forms of the vector memory instructions (R159). -/
inductive VMemOp where
  | unit
  | strided
  | queued
  | indexed
  deriving DecidableEq, Repr

/-- The operation of a sequencer entry (majors 0x20-0x2F, R151-R161). -/
inductive VOp where
  | int (op : VIntOp)
  | fp (op : VFpOp)
  | cmp (op : VCmpOp)
  | cvt (target : BitVec 4) (sr : Bool)
  | spec (op : VSpecOp)
  | red (op : VRedOp)
  | perm
  | slide
  | bcast
  | merge
  | load (form : VMemOp)
  | store (form : VMemOp)
  | storeQueue
  | mand
  | mor
  | mxor
  | mnot
  | mpopc
  | mfirst
  | qpush
  | qpop
  deriving DecidableEq, Repr

/-- A sequencer entry (R142): the queued instruction with what it captured. -/
structure VEntry where
  op : VOp
  t : BitVec 4
  m : BitVec 3
  d : BitVec 5
  a : BitVec 5
  b : BitVec 5
  ca : Capture
  cb : Capture
  /-- fctl.rm at queuing (spec/03_numbers.md R73). -/
  rm : BitVec 2
  pc : Word
  /-- The queue entry a faulted execution had popped (R165). -/
  popped : Option Word
  deriving DecidableEq, Repr

/-- A VLOOP marker with what it latched at queuing (R146). -/
structure VLoop where
  level : Nat
  n : Nat
  b : Nat
  e : Nat
  count : BitVec 32
  deriving DecidableEq, Repr

inductive VItem where
  | entry (e : VEntry)
  | loop (l : VLoop)
  deriving DecidableEq, Repr

/-- Where a run of a loop stands (R146). -/
inductive LoopPhase where
  | prologue
  | repeating
  | epilogue
  deriving DecidableEq, Repr

/-- A running loop: where its marker stands among the items, its phase, and whether its running iteration has executed an
entry. -/
structure Frame where
  marker : Nat
  phase : LoopPhase
  ran : Bool := false
  deriving DecidableEq, Repr

/-- The sequencer (R142-R148): items not yet retired, oldest first; the item to execute next; the running loops, innermost
first.  It stands at an entry to execute or at its end: markers and tests take no turn (`Thread.settle`). -/
structure Seq where
  items : List VItem
  pos : Nat
  frames : List Frame
  deriving DecidableEq, Repr

def Seq.empty : Seq := { items := [], pos := 0, frames := [] }

/-- A loop register (R145): its count and its pending bounds. -/
structure LoopReg where
  count : BitVec 32
  pending : Option (Nat × Nat)
  deriving DecidableEq, Repr

def LoopReg.zero : LoopReg := { count := 0, pending := none }

/-- A held sequencer image (R165). -/
structure Image where
  seq : Seq
  lc : Vector LoopReg 2
  deriving DecidableEq, Repr

/-- A tensor descriptor register (spec/02_encoding.md Table 2.10) with its walk position (spec/06_vector.md R162). -/
structure Desc where
  img : BitVec 256
  pos : Word
  deriving DecidableEq, Repr

/-- A store-buffer entry (spec/09_ordering.md R211): the bytes reached, by location for a near entry and by target address
for a far entry. -/
structure SbEntry where
  far : Bool
  ea : Word
  cells : List (Nat × Byte)
  deriving DecidableEq, Repr

/-- A SYNC or SYNC.Q that waits for its drains (spec/11_supersteps.md R269). -/
structure Arrival where
  d : BitVec 5
  keep : BitVec 32
  vote : Word
  quiet : Bool
  pc : Word
  npc : Word
  deriving DecidableEq, Repr

/-- One level of trap state (spec/18_traps.md R431): S or M. -/
structure TrapRegs where
  st : Bool
  pm : Mode
  epc : Word
  cause : Word
  tval : Word
  scr : Word
  deriving DecidableEq, Repr

def TrapRegs.zero : TrapRegs := { st := false, pm := .u, epc := 0, cause := 0, tval := 0, scr := 0 }

/-- What the check bits of a stored word say when it is read (spec/18_traps.md R444). -/
inductive Ecc where
  | sound
  | correctable
  | uncorrectable
  deriving DecidableEq, Repr

/-- A thread slot with the thread in it (spec/04_threads.md R84 and the slot-held registers of the other chapters). -/
structure Thread where
  st : SlotState
  wait : Wait
  ctx : Nat
  pc : Word
  mode : Mode
  g : Vector Word 32
  /-- Bit n: gn is full (R86). -/
  gFull : BitVec 32
  /-- Bit n: a RAMO result of the superstep goes to gn; the result is unfilled while gn is empty (spec/11_supersteps.md R290). -/
  ramo : BitVec 32
  v : Vector VWord 32
  vFull : BitVec 32
  m : Vector Word 8
  q : Vector (List Word) 4
  lc : Vector LoopReg 2
  td : Vector Desc 8
  seq : Seq
  /-- The vector stream is stopped at a faulted entry in a handler (spec/06_vector.md R166). -/
  vhalt : Bool
  image : Option Image
  sb : List SbEntry
  /-- Far operations numbered so far in the superstep (spec/11_supersteps.md R276). -/
  farSeq : Nat
  /-- fctl.rm (spec/03_numbers.md Table 3.4). -/
  rm : BitVec 2
  fflags : BitVec 5
  prng : BitVec 32
  spovf : Word
  xfrom : Word
  /-- How the thread reached its PC: the PC it came from, and whether by a taken branch (spec/05_issue.md R137). -/
  came : Word
  cameBr : Bool
  upBusy : Bool
  vepc : Word
  vtElem : BitVec 6
  vtLvl : BitVec 2
  vtEntry : BitVec 4
  strap : TrapRegs
  mtrap : TrapRegs
  arr : Option Arrival
  /-- VERSION_FULL traps of held writes still to be taken, oldest first, by the address each reports (spec/18_traps.md R436). -/
  pendVF : List Word
  /-- REDUNDANT_MISMATCH traps still to be taken, oldest first, by the completion word each reports (spec/12_matrix.md R330). -/
  pendRM : List Word
  /-- Cycle at which a SLEEP ends (spec/04_threads.md R110). -/
  sleepEnd : Nat
  /-- Next PC of a parked SLEEP or WFI. -/
  parkNpc : Word
  /-- TIME at which the thread started, when TQRUN counts it (R106). -/
  startNs : Option Nat
  /-- The same at the last decision of the job. -/
  startC : Option Nat
  /-- The same of the thread whose record the slot holds. -/
  startH : Option Nat
  /-- The slot's continuation record is held under spec/11_supersteps.md R293. -/
  heldRec : Bool
  /-- Outstanding page tickets: register and page number (spec/10_pages.md R248). -/
  tickets : List (Nat × Nat)
  /-- Line the next instruction's access waits for, so that its recall is counted once (spec/08_die_memory.md R205). -/
  stall : Option Nat
  /-- The same for the head of the store buffer. -/
  sbStall : Option Nat
  /-- The thread has resumed or started since the last release (spec/20_accounting.md R470). -/
  began : Bool
  /-- Damaged words of the register files by number (n for gn; `vWords`, `maskWords`, `tdWords` and `loopWord` number the others),
  true where uncorrectable; the check bits of the queues and of the sequencer (spec/18_traps.md R444). -/
  regEcc : Table Bool := []
  qEcc : Ecc := .sound
  seqEcc : Ecc := .sound
  deriving DecidableEq, Repr

/-- All ones of 64 bits: m0 and full sets. -/
def ones64 : Word := BitVec.allOnes 64

/-- A slot that nothing holds, with the register state of R84 (log entry 1 for its PC, its mode and the PRNG of a slot in which
no thread has started: DESIGN CHOICE 0x9E3779B9, the seed with an identity word of 0). -/
def Thread.reset : Thread :=
  { st := .unheld, wait := .none, ctx := 0, pc := 0, mode := .u,
    g := Vector.replicate 32 0, gFull := BitVec.allOnes 32, ramo := 0,
    v := Vector.replicate 32 0, vFull := BitVec.allOnes 32,
    m := (Vector.replicate 8 0).set 0 ones64, q := Vector.replicate 4 [],
    lc := Vector.replicate 2 LoopReg.zero, td := Vector.replicate 8 { img := 0, pos := 0 },
    seq := Seq.empty, vhalt := false, image := none, sb := [], farSeq := 0,
    rm := 0, fflags := 0, prng := 0x9E3779B9, spovf := 0, xfrom := 0, came := 0, cameBr := false,
    upBusy := false, vepc := 0, vtElem := 0, vtLvl := 0, vtEntry := 0,
    strap := TrapRegs.zero, mtrap := TrapRegs.zero, arr := none, pendVF := [], pendRM := [],
    sleepEnd := 0, parkNpc := 0, startNs := none, startC := none, startH := none, heldRec := false, tickets := [], stall := none, sbStall := none, began := false }

/-- Where a request for power leave stands (spec/21_host.md R478, R480). -/
inductive Leave where
  | none
  | asked
  | granted
  /-- Drawn from the context's reservation. -/
  | reserved
  deriving DecidableEq, Repr

/-- An accumulator slot (spec/12_matrix.md R309, R313): elements and twins by 64 × row + column, zero where not listed. -/
structure Acc where
  rows : Nat
  cols : Nat
  int : Bool
  elems : Table Nat
  twins : Table Nat
  sat : Bool
  clr : Bool
  /-- Id of the last job that updated the slot (R330). -/
  lastId : Nat
  /-- Rows, columns and type at the previous release (R314). -/
  prevRows : Nat
  prevCols : Nat
  prevInt : Bool
  ecc : Ecc := .sound
  deriving DecidableEq, Repr

def Acc.reset : Acc :=
  { rows := 128, cols := 64, int := false, elems := [], twins := [], sat := false, clr := false, lastId := 0,
    prevRows := 128, prevCols := 64, prevInt := false }

/-- A loaded table of a router (spec/14_timetables.md R351, R358): its entries (spec/02_encoding.md Table 2.12) with
their fresh marks (R371). -/
structure TTable where
  id : Nat
  enc : Bool
  kid : Nat
  entries : List (Word × Bool)
  /-- Loaded in the running superstep (R357). -/
  fresh : Bool
  ecc : Ecc := .sound
  deriving DecidableEq, Repr

/-- A post on a run (R363). -/
structure Post where
  slot : Nat
  reg : BitVec 5
  hv : Bool
  hoff : Nat
  deriving DecidableEq, Repr

/-- A group that runs (R352): its offset, the number its lines are owned under, and the wire bytes formed so far of a
compressed stream (R371). -/
structure RunGroup where
  off : Nat
  op : Nat
  wire : List Byte
  deriving DecidableEq, Repr

/-- A router's run of the armed table (R364-R376). -/
structure Run where
  id : Nat
  /-- The table start has come (R364). -/
  started : Bool
  groups : List RunGroup
  clock : Nat
  debt : Nat
  /-- Debt on its way to this router, by the cycle of its run at which each unit arrives (R367). -/
  debtDue : List Nat
  slip : Nat
  posted : Bool
  posts : List Post
  flags : BitVec 5
  hist : Table Nat
  ended : Bool
  stopped : Bool
  leave : Leave
  /-- Slips of routers of other modules that have been counted and relayed: module, router and number (R367). -/
  slips : List (Nat × Nat × Nat) := []
  /-- Cycle of the table start (R364). -/
  startCy : Nat := 0
  /-- Cycles of the run so far: those in which the table clock moved and those in which it held (R365, R368). -/
  cyc : Nat := 0
  /-- A damaged word has stopped the run until the rollback (spec/18_traps.md R445). -/
  frozen : Bool := false
  deriving DecidableEq, Repr

/-- A beat on its way to a router, or in its skid buffer until its run ends (R349, R368), with the table cycle that consumes
it. -/
structure Beat where
  core : Nat
  dir : Nat
  cycle : Nat
  data : BitVec 256
  arrived : Bool
  /-- The key id under which its table is encrypted (R359). -/
  kid : Option Nat := none
  deriving DecidableEq, Repr

/-- What an operation of the matrix or copy engine is. -/
inductive EngKind where
  /-- MCFG with its configuration word. -/
  | mcfg (cfg : Word)
  /-- A matrix job with the eight doublewords of its descriptor (spec/12_matrix.md Table 12.5). -/
  | job (desc : List Word)
  /-- A drain: destination, drain word, and the rows and columns its destination was checked for. -/
  | drain (dst dw : Word) (rows cols : Nat)
  /-- A copy of form `f` (spec/13_copy.md Table 13.1) with its descriptor. -/
  | copy (f : Nat) (desc : List Word) (phys : Bool)
  deriving DecidableEq, Repr

/-- Where a `.next` copy stands (R340). -/
inductive NextPhase where
  | plain
  /-- Issued in the running superstep. -/
  | staged
  /-- Its superstep has come. -/
  | due
  deriving DecidableEq, Repr

/-- An operation of a matrix or copy engine, from issue to completion (spec/12_matrix.md R312-R331, spec/13_copy.md
R332-R348).  A core's job queue and a cluster's dependence graph are the operations with their `queued` and `node` marks. -/
structure EngOp where
  op : Nat
  ctx : Nat
  core : Nat
  slot : Nat
  mode : Mode
  d : BitVec 5
  id : Nat
  /-- Holds a node of the dependence graph (R341). -/
  node : Bool
  /-- Predecessors not yet completed (R342). -/
  preds : List Nat
  /-- Id of a predecessor that failed. -/
  failed : Option Nat
  kind : EngKind
  nxt : NextPhase
  leave : Leave
  /-- Cycle of the request for leave (R478). -/
  asked : Nat
  /-- The job has begun: its operand lines are checked and its slot preloaded. -/
  begun : Bool
  /-- Tile passes done (R321). -/
  passes : Nat
  flags : BitVec 5
  sat : Bool
  /-- What is still to write once the sources are read: whether staged, location or target address, and bytes of one line. -/
  writes : Option (List (Bool × Nat × List Byte))
  /-- Bytes staged or written in all. -/
  total : Nat
  /-- Issue sequence of its staged lines (spec/11_supersteps.md R276). -/
  seqno : Nat
  /-- A write is held for want of a pre-image or a line (spec/07_local_store.md R182, spec/08_die_memory.md R198). -/
  held : Bool
  /-- The line a read waits for, so that its recall is counted once (spec/08_die_memory.md R205). -/
  stall : Option Nat
  /-- Stopped by an uncorrectable word (spec/18_traps.md R445). -/
  dead : Bool
  /-- The destination parts prepared at issue (R327, R336): whether staged, location or target address, and bytes. -/
  targets : List (Bool × Nat × Nat) := []
  deriving DecidableEq, Repr

/-- A request that waits for leave (spec/21_host.md R478). -/
inductive LeaveFor where
  | op (n : Nat)
  | amplitude (ctx : Nat)
  | table (core : Nat)
  | leave (core slot : Nat) (d : BitVec 5)
  deriving DecidableEq, Repr

structure LeaveReq where
  what : LeaveFor
  ctx : Nat
  prio : Nat
  cost : Nat
  since : Nat
  deriving DecidableEq, Repr

/-- A shadow-pool entry (spec/07_local_store.md R181): the line's offset, its writer (0 for the holding launch, 8 or 9 for a
sash bank) and its pre-image. -/
structure PoolEntry where
  line : Nat
  writer : Nat
  data : BitVec 512
  ecc : Ecc := .sound
  deriving DecidableEq, Repr

/-- A line of the instruction cache (spec/05_issue.md R123): set va[11:6], tag, whether a harvester's, and the bytes. -/
structure ICLine where
  ctx : Nat
  line : Nat
  harvester : Bool
  data : BitVec 512
  ecc : Ecc := .sound
  deriving DecidableEq, Repr

/-- The lease of a sash bank (spec/16_harvest.md R404-R407): physical granules in ascending order, those gone, and those an
abort of the owner gave back to the harvester's image (R413). -/
structure Lease where
  granules : List Nat
  gone : List Nat
  restored : List Nat
  /-- Granules reclaimed in the owner's running superstep (R408). -/
  fresh : List Nat
  hback : Word
  deriving DecidableEq, Repr

/-- The version overflow registers of a writer (spec/07_local_store.md R181, R183). -/
structure Overflow where
  vovf : Word
  vovend : Word
  /-- VOVF at placement and at each shutter: where the entries of this superstep begin. -/
  base : Word
  deriving DecidableEq, Repr

/-- A core, or a die-control core (spec/01_wafer.md R21). -/
structure Core where
  sOrder : List Nat
  vOrder : List Nat
  /-- Context of the holding launch (spec/07_local_store.md R168). -/
  hold : Option Nat
  /-- Slot set given by the placement (spec/04_threads.md R82). -/
  slotSet : BitVec 10
  /-- The local-store layout of the holding launch (R169): spill per slot in bytes and leasable granules. -/
  spill : Nat
  lease : Nat
  /-- The wipe of R187 is due. -/
  wipe : Bool
  pool : List PoolEntry
  /-- VOVF and VOVEND of writers 0, 8 and 9, in that order. -/
  ovf : Vector Overflow 3
  icache : List ICLine
  offer : BitVec 12
  leases : Vector Lease 2
  /-- The core stands Recalled (spec/16_harvest.md R409). -/
  recalled : Bool
  /-- Cycles since an owner slot was last Ready (R411). -/
  idleCy : Nat
  mrerr : Word
  xnerr : Word
  acc : Vector Acc 2
  /-- The router's loaded tables (spec/14_timetables.md R351). -/
  tables : List TTable
  /-- The router's key store: ids and AES-256 keys (R359, spec/21_host.md R476). -/
  keys : List (Nat × BitVec 256)
  run : Option Run
  /-- Cycle of the last wake event that HREVOKE counted (spec/16_harvest.md R409, R411). -/
  wakeCy : Option Nat := none
  /-- Granules that a sash bank has left and that were reclaimed in the owner's running superstep (false), or that an abort of the
  owner gave back to the harvester's image (true), so that they read zero or are reclaimed again (R408, R413). -/
  residue : List (Nat × Bool) := []
  /-- Context of the launch that has left the core while its wipe is due (spec/07_local_store.md R187). -/
  left : Option Nat := none
  deriving DecidableEq, Repr

def Overflow.zero : Overflow := { vovf := 0, vovend := 0, base := 0 }
def Lease.none : Lease := { granules := [], gone := [], restored := [], fresh := [], hback := 0 }

def Core.reset : Core :=
  { sOrder := List.range 10, vOrder := List.range 10, hold := none, slotSet := 0, spill := 0, lease := 0, wipe := false,
    pool := [], ovf := Vector.replicate 3 Overflow.zero, icache := [], offer := 0,
    leases := Vector.replicate 2 Lease.none, recalled := false, idleCy := 0, mrerr := 0, xnerr := 0,
    acc := Vector.replicate 2 Acc.reset, tables := [], keys := [], run := none }

/-- What an engine or router operation waits to write to a line (spec/07_local_store.md R185, spec/08_die_memory.md R204):
the line by its address, and the operation. -/
structure OwnedLine where
  die : Nat
  ctx : Nat
  line : Nat
  op : Nat
  /-- A `.next` operation owns it (spec/13_copy.md R340). -/
  nxt : Bool
  /-- Number of the last operation issued when the line was taken (spec/13_copy.md R338). -/
  since : Nat := 0
  deriving DecidableEq, Repr

/-- A message or task on its way, held or queued in a slot controller (spec/04_threads.md R95-R103). -/
structure Message where
  ctx : Nat
  place : Word
  cls : Nat
  payload : List Word
  sender : BitVec 32
  /-- Sent in the running superstep (R103). -/
  fresh : Bool
  deriving DecidableEq, Repr

/-- A cluster's controllers (spec/04_threads.md R102, R104). -/
structure Cluster where
  held : List Message
  /-- Those held at the last commit of their context, restored by an abort (R103). -/
  heldC : List Message
  /-- TIME at which the running steal round began, per context. -/
  stealing : Table Nat
  /-- The matrix arbiter (spec/12_matrix.md R323). -/
  cur : Nat
  credit : Nat
  /-- The job whose pass runs next, chosen when the pass before it began (R323). -/
  granted : Option Nat := none
  /-- The core index last granted by the copy engine (spec/13_copy.md R346). -/
  copyLast : Nat := 8
  /-- The line of a task queue that the cluster's controller waits for, so that its recall is counted once (spec/08_die_memory.md R205). -/
  qStall : Option Nat := none
  deriving DecidableEq, Repr

def Cluster.reset : Cluster := { held := [], heldC := [], stealing := [], cur := 7, credit := 0 }

/-- States of a line of the line cache (spec/08_die_memory.md R191); a line not listed is Free. -/
inductive LineState where
  | clean
  | committedDirty
  | dirty
  | pending
  | replica
  deriving DecidableEq, Repr

/-- A paged line held by slice S(va) of a die (spec/08_die_memory.md R191, R196). -/
structure CLine where
  die : Nat
  ctx : Nat
  va : Nat
  /-- Frame address of the line (R227). -/
  phys : Nat
  st : LineState
  data : BitVec 512
  /-- Bytes written in the running superstep, for the merge of spec/10_pages.md R236. -/
  written : BitVec 64
  /-- The undo line of a line that was committed-dirty. -/
  undo : Option (BitVec 512)
  /-- Order of last use. -/
  stamp : Nat
  undoEcc : Ecc := .sound
  deriving DecidableEq, Repr

/-- An undo line of a window line (spec/08_die_memory.md R196). -/
structure Undo where
  ctx : Nat
  line : Nat
  data : BitVec 512
  ecc : Ecc := .sound
  deriving DecidableEq, Repr

/-- A translation a slice holds (spec/10_pages.md R233), most recently used first. -/
structure TlbEntry where
  slice : Nat
  ctx : Nat
  vpn : Nat
  lo : Word
  hi : Word
  ecc : Ecc := .sound
  deriving DecidableEq, Repr

/-- A page request held for ring room or for an undo line (spec/10_pages.md R252). -/
structure PageRequest where
  ctx : Nat
  core : Nat
  slot : Nat
  fa : Word
  cause : Word
  /-- Its thread has been told that the ring finds no undo line. -/
  told : Bool := false
  deriving DecidableEq, Repr

/-- A job event waiting for the die-control core (spec/18_traps.md R448): context, superstep number, cause code. -/
structure JobEvent where
  ctx : Nat
  ssno : Nat
  code : Nat
  deriving DecidableEq, Repr

/-- TDISP states of a die function (spec/21_host.md R471). -/
inductive Tdisp where
  | unlocked
  | locked
  | run
  | error
  deriving DecidableEq, Repr

/-- An ended launch whose wipes are due before its `done` word is decremented (spec/17_launch.md R426). -/
structure Ended where
  ctx : Nat
  cores : List Nat
  done : Word
  /-- Status state to write after the wipes, 2 or none. -/
  status : Option (Nat × Nat × Word)
  deriving DecidableEq, Repr

/-- A die (spec/01_wafer.md R15-R31). -/
structure Die where
  healthy : Bool
  skipRow : BitVec 5
  capRedmat : Bool
  capAmp64 : Bool
  capWirecmp : Bool
  capHarvest : Bool
  cblk : Nat
  undos : List Undo
  tlb : List TlbEntry
  prqHeld : List PageRequest
  pclist : Nat
  injArm : Bool
  injKind : BitVec 2
  injCount : BitVec 16
  eccUnc : BitVec 16
  eccRef : BitVec 16
  eccCor : BitVec 32
  devt : BitVec 5
  jevt : Word
  events : List JobEvent
  mtvec : Word
  lqbase : Word
  gated : List Nat
  /-- PWRGOV and the requests that wait (spec/21_host.md R478). -/
  budget : Nat
  used : Nat
  emg : Bool
  leaveq : List LeaveReq
  /-- Records seen, by queue and absolute index, in order of visibility (spec/17_launch.md R422, R424). -/
  seen : List (Nat × Nat)
  /-- LQTAIL as last written, by queue (spec/21_host.md Table 21.5). -/
  lqtail : Table Word
  ended : List Ended
  repreq : Word
  tdisp : Tdisp
  ideKey : Option (BitVec 256)
  /-- The number of the die identity key, once one is generated (R475). -/
  identity : Option Nat
  /-- Where firmware's update of the capability list stands: writes made, 0 between updates; and the list's bytes, where they are not
  those delivered, after the last complete update (spec/01_wafer.md R30, R31). -/
  capStep : Nat := 0
  capLast : List Host.Cell := []
  /-- An event that the dispatcher may act on has come since its last step (spec/17_launch.md R424). -/
  dispatch : Bool := false
  deriving DecidableEq, Repr

def Die.reset : Die :=
  { healthy := true, skipRow := 16, capRedmat := true, capAmp64 := true, capWirecmp := true, capHarvest := true,
    cblk := 4096, undos := [], tlb := [], prqHeld := [], pclist := 0, injArm := false, injKind := 0, injCount := 0,
    eccUnc := 0, eccRef := 0, eccCor := 0, devt := 0, jevt := 0, events := [], mtvec := 0, lqbase := 0, gated := [],
    budget := 1440, used := 0, emg := false, leaveq := [], seen := [], lqtail := [], ended := [],
    repreq := 0, tdisp := .unlocked, ideKey := none, identity := none }

/-- A counter set (spec/20_accounting.md R461-R466). -/
structure CounterSet where
  comm : Table Nat
  disc : Table Nat
  satc : Word
  satd : Word
  seqno : Nat
  ssFrom : Nat
  ssTo : Nat
  jobid : Word
  charged : Bool
  deriving DecidableEq, Repr

def CounterSet.zero : CounterSet :=
  { comm := [], disc := [], satc := 0, satd := 0, seqno := 0, ssFrom := 0, ssTo := 0, jobid := 0, charged := false }

/-- What a context holds on one die. -/
structure DieCtx where
  /-- DMAL: first block and blocks allotted (spec/08_die_memory.md R192). -/
  dmBase : Nat
  dmSize : Nat
  tqbase : Word
  prqbase : Word
  trbase : Word
  trDrop : BitVec 32
  trLg : Nat
  trEn : BitVec 10
  /-- The leave reservation: its units, those drawn, and those granted in the running superstep (spec/21_host.md R480). -/
  resv : Nat
  resvUsed : Nat
  resvFresh : Nat
  /-- The last request for an allotment found no free range: status DMFULL (spec/08_die_memory.md R192). -/
  dmFull : Bool := false
  deriving DecidableEq, Repr

def DieCtx.zero : DieCtx :=
  { dmBase := 0, dmSize := 0, tqbase := 0, prqbase := 0, trbase := 0, trDrop := 0, trLg := 6, trEn := 0,
    resv := 0, resvUsed := 0, resvFresh := 0 }

/-- Where a launch stands between its decisions (spec/11_supersteps.md R272-R301). -/
inductive Phase where
  /-- Threads run; the next decision is open. -/
  | running
  /-- Decided and committed or rolled back; release is due. -/
  | decided
  /-- Release withheld for an escalation (R283). -/
  | escalated
  /-- Release withheld by a debug halt (spec/20_accounting.md R469). -/
  | halted
  /-- Release withheld for a pre-emption that waits for `.next` operations (R301). -/
  | stopping
  /-- Release withheld until the securing seals are written (spec/19_survival.md R454). -/
  | securing
  /-- Placed here; other modules have still to place their part (spec/17_launch.md R425). -/
  | placing
  /-- Release withheld for a spare and its fill (spec/19_survival.md R460). -/
  | filling
  deriving DecidableEq, Repr

/-- A thread of a placement: where it stands and its rank (spec/17_launch.md R420). -/
structure Placed where
  core : Nat
  slot : Nat
  rank : Nat
  deriving DecidableEq, Repr

/-- A host write that waits for a commit (spec/09_ordering.md R219). -/
structure HostWrite where
  va : Word
  data : List Byte
  deriving DecidableEq, Repr

/-- The armed table of a job (spec/14_timetables.md R362). -/
structure Armed where
  id : Nat
  rep : Bool
  gate : Bool
  deriving DecidableEq, Repr

/-- A running launch (spec/11_supersteps.md, spec/17_launch.md). -/
structure Job where
  /-- The launch record's 32 doublewords (Table 17.1). -/
  record : List Word
  /-- Where the record stands: die whose dispatcher placed it, ring context and address. -/
  die : Nat
  rctx : Nat
  recVa : Nat
  placed : List Placed
  /-- Thread groups not yet placed (spec/17_launch.md R424). -/
  left : List (List Placed)
  /-- Order of placement among the launches of the module. -/
  order : Nat
  phase : Phase
  ssno : Nat
  votes : List Word
  quiet : Bool
  /-- Cause bits of the abort votes that have reached the root (R281). -/
  abortMask : BitVec 8
  /-- The last decision aborted. -/
  aborted : Bool
  result : Word
  streak : Nat
  pend : Bool
  /-- The launch ends with state 4 after its rollback (spec/21_host.md R474, spec/18_traps.md R445). -/
  doomed : Bool
  wbl : List (Nat × Nat × Bool)
  hostWrites : List HostWrite
  /-- TIME at the last release. -/
  relTime : Nat
  /-- A membership entry is due before the next release, with its kind (spec/20_accounting.md R467). -/
  member : Option Nat
  /-- Dies that have received slots of the launch since its last entries. -/
  memberDies : List Nat := []
  haltReq : Bool
  stepped : Bool
  stuckCy : Nat
  hangPosted : Bool
  /-- Sweeps of R294 that agreed in succession, with the totals of the last. -/
  sweeps : Nat
  sweepSent : Nat
  sent : Nat
  received : Nat
  /-- Modules of the job, and those whose participants have all arrived (R272, R296). -/
  modules : List Nat
  arrived : List Nat
  /-- Other modules whose sweeps have agreed (R294); this module has reported its arrival to the root. -/
  swept : List Nat
  reported : Bool
  /-- QCFG and amplitude values of the modules that have arrived (spec/15_amplitudes.md R397). -/
  ampSums : List (Word × List Nat)
  /-- Modules that have reported the commit or rollback complete. -/
  complete : List Nat
  /-- A record is valid, or a thread is to start, on some module that has reported. -/
  live : Bool
  /-- The commit secures (R454), and the modules that have reported their seal written. -/
  secures : Bool
  seals : List Nat
  /-- RAMO results of the last commit, by thread and register, until release (R290). -/
  ramoRes : List (Nat × BitVec 5 × Word)
  /-- Results that have come before this module's own commit: of staged operations dropped for a failed module, and those that
  other modules have sent. -/
  ramoNext : List (Nat × BitVec 5 × Word) := []
  /-- Threads that a cross-die SEND of the last commit starts at release: thread, PC and registers (spec/04_threads.md R99). -/
  born : List (Nat × Word × List (BitVec 5 × Word))
  /-- The sequencer die that orders the job's replicated-page updates in this superstep (spec/01_wafer.md R26). -/
  seqDie : Nat := 0
  /-- The launch ends or stops with this state once its banks can be left (spec/16_harvest.md R416). -/
  closing : Option Nat := none
  /-- Changes of the armed table recorded on other modules in the superstep, with their order keys (spec/14_timetables.md R362). -/
  arms : List (Nat × Option Armed) := []
  /-- Cycle of the last release. -/
  relCy : Nat := 0
  /-- The spare that a fill brings into the job, until the release that follows (spec/19_survival.md R460). -/
  spare : Option Nat := none
  /-- At the root: other modules whose part of the job is still, and whether a thread is Parked there; and what this module has told
  the root (spec/18_traps.md R450). -/
  still : List (Nat × Bool) := []
  toldStill : Option Bool := none
  deriving DecidableEq, Repr

/-- What an amplitude queue entry does (spec/15_amplitudes.md R392-R398). -/
inductive AmpKind where
  /-- Unitary block (its 4^k complex entries as patterns), logical targets and controls, control values, and whether outer
  targets are swapped first (QGATE.AUTO). -/
  | gate (k : Nat) (u : List Nat) (targets controls : List Nat) (cv : Nat) (auto : Bool)
  /-- Exchange of a local bit `l` and an outer bit `o` under logical qubits `u` and `w`; the partner module of a module bit. -/
  | swap (l o u w : Nat) (partner : Option Nat)
  /-- The sum of QPROB, over amplitudes whose logical qubit `q` is 1, or of QNORM. -/
  | sum (q : Option Nat)
  /-- The draw and the mask. -/
  | sample (r : BitVec 32) (mask : Word)
  deriving DecidableEq, Repr

/-- An entry of the amplitude queue (R390). -/
structure AmpEntry where
  core : Nat
  slot : Nat
  d : BitVec 5
  kind : AmpKind
  /-- Reads the front leaf and writes every position of the back leaf (R385). -/
  first : Bool
  /-- Leave on each die of the stack set, once asked for. -/
  leave : List (Nat × Leave)
  /-- TIME at which a module-bit pass had written its kept half; it waits for its partner (R395). -/
  sent : Option Nat
  /-- Pages of the moving half that the partner has accepted. -/
  accepted : List Nat
  deriving DecidableEq, Repr

/-- A result of QPROB or QNORM to be summed over the modules at the commit (R397): the thread and register it fills, this
module's value, and whether the thread's record is held, so that another thread's exit spares it. -/
structure AmpSum where
  t : Nat
  d : BitVec 5
  value : Nat
  kept : Bool
  deriving DecidableEq, Repr

/-- The amplitude state of a context (R380-R387). -/
structure Amp where
  qcfg : Word
  qleaf : Word
  qmtab : Word
  /-- QMAP0-QMAP7: the working map and the front map, physical bit by logical qubit. -/
  work : List Nat
  front : List Nat
  stamps : Table Nat
  stampsC : Table Nat
  pass : Nat
  passC : Nat
  queue : List AmpEntry
  /-- A writing pass has been queued in the superstep. -/
  queued : Bool
  /-- A writing pass has run in the superstep. -/
  ran : Bool
  /-- The pair of a module-bit swap issued in the superstep, and its partner module as the module table gave it at issue. -/
  transit : Option (Nat × Nat)
  peer : Option Nat := none
  /-- Incoming halves of a module-bit swap still to be written (R395). -/
  awaited : Nat
  /-- Results summed over the modules at the commit (R397). -/
  sums : List AmpSum
  deriving DecidableEq, Repr

def Amp.zero : Amp :=
  { qcfg := 0, qleaf := 0, qmtab := 0, work := List.range 64, front := List.range 64, stamps := [], stampsC := [],
    pass := 0, passC := 0, queue := [], queued := false, ran := false, transit := none, awaited := 0,
    sums := [] }

/-- The securing registers of a context (spec/19_survival.md Tables 19.2-19.5) and the clocks of R454 and R456. -/
structure Sv where
  live : Nat
  bst : Nat
  bfeed : Nat
  fails : Nat
  err : Bool
  recv : Bool
  busy : Bool
  valid : Bool
  side : Nat
  ssno : Nat
  m : Nat
  c : Nat
  usecorr : Bool
  now : Bool
  spare : Nat
  /-- The buddy in force, and the field of SVCTL that a write of bw takes it from (R457). -/
  buddy : Nat
  nb : Nat
  /-- Generation of the last image written (R453). -/
  gen : Nat
  /-- TIME of the first release, of the last secure's start and of the last failure. -/
  firstRel : Option Nat
  lastSecure : Option Nat
  lastFail : Option Nat
  /-- TIME of the commit decision whose secure is running. -/
  began : Nat
  /-- Frames of the image that a fill brings, by image frame (R460). -/
  inbox : Table (List Byte)
  /-- The frames have been asked for. -/
  filling : Bool
  /-- The module that holds the image svsec names, and that which has been asked for its feed id (R457, R460). -/
  home : Nat := 0
  asked : Nat := 0
  /-- The superstep number of the image that a fill brings (R460). -/
  fillNo : Option Nat := none
  deriving DecidableEq, Repr

def Sv.reset : Sv :=
  { live := 0, bst := 0, bfeed := 0, fails := 0, err := false, recv := false, busy := false, valid := false, side := 0,
    ssno := 0, m := 3600000, c := 0, usecorr := false, now := false, spare := 0xFFF, buddy := 0, nb := 0, gen := 0,
    firstRel := none, lastSecure := none, lastFail := none, began := 0, inbox := [], filling := false }

/-- A pending change of the armed table: what it becomes, whether recorded in the running superstep, and the order key
(module, gcore, slot) of R362. -/
structure PendArm where
  next : Option Armed
  fresh : Bool
  key : Nat
  /-- The change that stood before the running superstep, restored by an abort. -/
  prior : Option (Option Armed)
  deriving DecidableEq, Repr

/-- A context (spec/17_launch.md R418 and the per-context registers of spec/18_traps.md Table 18.5). -/
structure Ctx where
  live : Bool
  tenant : Nat
  fn : Nat
  ptroot : Word
  upcfg : Word
  fibent : Word
  tvec : Word
  classbase : Word
  /-- The class-table snapshot in force: CLASSBASE's valid and the 64 entries (spec/04_threads.md R97). -/
  classes : List (Word × Nat)
  ttctl : Word
  ssres : Word
  /-- ssctl.cause: the cause mask of the last abort (spec/11_supersteps.md Table 11.7). -/
  lastCause : BitVec 8
  dies : Table DieCtx
  sets : Table CounterSet
  run : Table Nat
  jobid : Word
  serial : Nat
  mbCount : Nat
  mbFrame : Word
  /-- The membership frames have been allotted (spec/20_accounting.md R467). -/
  mbGiven : Bool := false
  dbgSt : BitVec 4
  dbgHlt : Bool
  dbgBh : Bool
  dbgMar : Bool
  dbgsel : BitVec 32
  dbgbrk : Word
  /-- The thread that may issue one instruction, and the last stepped thread with what its step will report (R470). -/
  dbgStep : Option Nat
  dbgNew : Option (Nat × BitVec 4)
  /-- A halt request that waits for the resume of a pre-empted launch (R469). -/
  dbgPend : Bool
  amp : Amp
  sv : Sv
  armed : Option Armed
  pendArm : Option PendArm
  /-- Ids whose free is pending (R362). -/
  pendFree : List Nat
  /-- Die function through which its creation was requested (spec/21_host.md R472). -/
  bound : Option Nat
  /-- Modules that have placed their part of a launch over several modules; the withdrawals received from other modules, less
  those that this module's own refusals still await (R425). -/
  placedBy : List Nat
  withdrawals : Int
  job : Option Job
  /-- Securing words of the launch's modules, as each told with its placement (spec/19_survival.md R451, R460). -/
  secWords : Table Word := []
  /-- The module that has asked for the step of a thread here (spec/20_accounting.md R470). -/
  dbgAsk : Option Nat := none
  /-- The capability list of each die as a far reader of the job sees it, by the bytes that are not those delivered
  (spec/01_wafer.md R31). -/
  capView : Table (List Host.Cell) := []
  deriving DecidableEq, Repr

def Ctx.reset : Ctx :=
  { live := false, tenant := 0, fn := 0, ptroot := 0, upcfg := 0, fibent := 0, tvec := 0, classbase := 0, classes := [],
    ttctl := 0, ssres := 0, lastCause := 0, dies := [], sets := [], run := [], jobid := 0, serial := 0, mbCount := 0, mbFrame := 0,
    dbgSt := 0, dbgHlt := false, dbgBh := false, dbgMar := false, dbgsel := 0, dbgbrk := 0, dbgStep := none,
    dbgNew := none, dbgPend := false, amp := Amp.zero, sv := Sv.reset,
    armed := none, pendArm := none, pendFree := [], bound := none, placedBy := [], withdrawals := 0, job := none }

/-- What a staged operation does at its target (spec/11_supersteps.md R276, R289, R290). -/
inductive StagedAct where
  | write (data : List Byte)
  /-- Bytes of one line with gaps between them, each by its distance from the first. -/
  | cells (data : List (Nat × Byte))
  /-- RAMO: function, operand, compare value, and the register of (core, slot) that receives the result. -/
  | ramo (f : Nat) (x cmp : Word) (core slot d : Nat)
  | send (msg : Message)
  deriving DecidableEq, Repr

/-- A staged operation with the fields of its StageKey (R276). -/
structure StagedOp where
  ctx : Nat
  tmod : Nat
  addr : Nat
  smod : Nat
  gcore : Nat
  /-- {slot, n}. -/
  seqno : Nat
  /-- The address without the own-store and spill forms: window or paged. -/
  loc : Nat
  act : StagedAct
  /-- The thread that issued it has arrived at SYNC.Q: a later thread's exit in the slot spares its register
  (spec/11_supersteps.md R290, R293). -/
  kept : Bool := false
  deriving DecidableEq, Repr

/-- A GET or GET.B not yet filled (spec/11_supersteps.md R289). -/
structure GetOp where
  id : Nat
  ctx : Nat
  core : Nat
  slot : Nat
  d : Nat
  tmod : Nat
  addr : Nat
  /-- Bytes to read: 8 of a GET, the length of a GET.B with the parts of its destination: location and length. -/
  len : Nat
  dest : Option (List (Nat × Nat))
  /-- What another module answered: whether its check passed, and the bytes. -/
  reply : Option (Bool × List Byte)
  /-- The GET.B's write is held for want of a pre-image. -/
  held : Bool
  /-- Stopped by an uncorrectable word (spec/18_traps.md R445). -/
  dead : Bool := false
  deriving DecidableEq, Repr

/-- A SPAWN whose thread has not yet started (spec/04_threads.md R99, R100). -/
structure SpawnOp where
  id : Nat
  ctx : Nat
  core : Nat
  slot : Nat
  pc : Word
  d : Nat
  image : List Word
  /-- The issuing thread, whose arrival waits. -/
  byCore : Nat
  bySlot : Nat
  deriving DecidableEq, Repr

/-- A same-die message on its way (R99). -/
structure SendOp where
  id : Nat
  msg : Message
  byCore : Nat
  bySlot : Nat
  deriving DecidableEq, Repr

/-- A stored doubleword whose check bits are damaged (spec/18_traps.md R443): its location and whether uncorrectable. -/
structure EccMark where
  die : Nat
  ctx : Nat
  loc : Nat
  unc : Bool
  /-- The doubleword is one of HBM, by its frame address. -/
  hbm : Bool := false
  deriving DecidableEq, Repr

/-- Life-cycle states (spec/21_host.md R477). -/
inductive LifeCycle where
  | manufacture
  | provisioned
  | deployed
  | decommissioned
  deriving DecidableEq, Repr

/-- A port group (R481, R482): ports that carry data, whether it retrains, its link key and flit counters. -/
structure PortGroup where
  ports : Nat
  retraining : Bool
  key : BitVec 256
  /-- A key that firmware has installed, which takes effect at the next shutter release (R482). -/
  nextKey : Option (BitVec 256) := none
  sent : Nat
  received : Nat
  deriving DecidableEq, Repr

/-- A group that has lost all of its ports, or that has sent as many flits as one key allows, is a failed link: it carries nothing
(R482). -/
def PortGroup.down (p : PortGroup) : Bool := decide (p.ports = 0) || decide (2 ^ 88 ≤ p.sent + 1)

def PortGroup.reset : PortGroup := { ports := 8, retraining := false, key := 0, sent := 0, received := 0 }

/-- The state of one module.  `agenda`, `turns`, `cur`, `npc`, `iw`, `opCount`, `useCount`, `free` and `hostReply` are the model's own (log entry 5);
every other field is the spec's. -/
structure State where
  /-- HBM by frame address, local stores and die memory by window address (spec/10_pages.md R227, R171, R189). -/
  mem : List Host.Cell
  ecc : List EccMark
  threads : Table Thread
  cores : Table Core
  clusters : Table Cluster
  dies : Table Die
  ctxs : Table Ctx
  lines : List CLine
  owned : List OwnedLine
  staged : List StagedOp
  gets : List GetOp
  starts : List SpawnOp
  sends : List SendOp
  engine : List EngOp
  beats : List Beat
  /-- Life cycle, dropped host writes, port groups and failed modules (spec/21_host.md, spec/19_survival.md R458). -/
  life : LifeCycle
  mgerr : BitVec 32
  ports : Table PortGroup
  failedModules : List Nat
  /-- Messages this module has handed to its link ports: target module and message. -/
  linkOut : List (Nat × LinkMsg)
  /-- TIME in ns (spec/20_accounting.md R465) and the cycle count (spec/00_scope.md R2). -/
  time : Nat
  cy : Nat
  /-- Nanoseconds by which TIME is behind, or ahead of, the last TIME carried here (R465). -/
  timeBehind : Nat
  timeAhead : Nat
  modnum : Nat
  agenda : List Turn
  turns : Nat
  cur : Nat
  npc : Word
  iw : Word
  opCount : Nat
  useCount : Nat
  /-- Free values taken so far. -/
  free : Nat
  hostReply : List Byte
  /-- Cycle at which a message of another module last came over a link, by module (spec/19_survival.md R458). -/
  heard : Table Nat := []
  /-- Nanoseconds that the wipe of a module reset or a life-cycle change still takes (spec/21_host.md R477). -/
  wipeNs : Nat := 0
  deriving DecidableEq, Repr

/-- Why a step stops with a fault. -/
inductive Fault where
  /-- Raised by `step` for a turn that names a core, slot or other agent no module has (R14, R23): safe. -/
  | absentAgent
  deriving DecidableEq, Repr

/-- Why a step is refused. -/
inductive Refusal where
  /-- Raised by `exec` for an instruction without a meaning yet: safe. -/
  | notModelled (mnemonic : String)
  deriving DecidableEq, Repr

/-- The die-control core of a die after a die reset: M mode, slot 0 running (spec/18_traps.md R430; log entry 2 for its PC).  Its
PRNG is that of `Thread.reset`, since no start of R64 seeds it (DESIGN CHOICE, log entry 1). -/
def Thread.control : Thread := { Thread.reset with st := .ready, mode := .m }

/-- Threads are keyed by 16 × core + slot. -/
def tid (core slot : Nat) : Nat := 16 * core + slot

/-- The module right after reset (spec/21_host.md R477, spec/00_scope.md R9). -/
def State.reset : State :=
  { mem := [], ecc := [],
    threads := (List.range numDies).map (fun d => (tid (numGcores + d) 0, Thread.control)),
    cores := [], clusters := [], dies := [], ctxs := [], lines := [], owned := [], staged := [], gets := [], starts := [],
    sends := [], engine := [], beats := [], life := .manufacture, mgerr := 0, ports := [], failedModules := [], linkOut := [],
    time := 0, cy := 0, timeBehind := 0, timeAhead := 0, modnum := 0xFFF, agenda := [], turns := 0, cur := tid numGcores 0, npc := 0, iw := 0,
    opCount := 0, useCount := 0, free := 0, hostReply := [] }

end Sys2Proof.Machine
end

