-- ==== Sys2Proof/Machine/Bits.lean ====
section
/-! DEFINITION. Bit fields, byte order and extension (spec/00_scope.md R5, R6, R11). -/

namespace Sys2Proof.Machine

open Sys2Proof

/-- Bits [lo+n-1:lo] of a number. -/
def fld (x lo n : Nat) : Nat := (x >>> lo) % 2 ^ n

/-- Bits [lo+n-1:lo] of a 64-bit word. -/
def wfld (w : Word) (lo n : Nat) : Nat := fld w.toNat lo n

/-- A number as a 64-bit word. -/
def word (x : Nat) : Word := BitVec.ofNat 64 x

/-- 1 or 0 as a word. -/
def wordOfBool (b : Bool) : Word := if b then 1 else 0

/-- The `n` bytes of a number, little-endian (R5). -/
def bytesOf : Nat → Nat → List Byte
  | 0, _ => []
  | n + 1, x => BitVec.ofNat 8 x :: bytesOf n (x / 256)

/-- The number of a little-endian byte list. -/
def ofBytes : List Byte → Nat
  | [] => 0
  | b :: t => b.toNat + 256 * ofBytes t

/-- A word from a little-endian byte list. -/
def wordOfBytes (bs : List Byte) : Word := BitVec.ofNat 64 (ofBytes bs)

/-- Byte `i` of a 64-byte line or vector register. -/
def byteAt (v : BitVec 512) (i : Nat) : Byte := BitVec.ofNat 8 (v.toNat >>> (8 * i))

/-- A 64-byte value with byte `i` replaced. -/
def setByteAt (v : BitVec 512) (i : Nat) (b : Byte) : BitVec 512 :=
  (v &&& ~~~(BitVec.ofNat 512 (255 <<< (8 * i)))) ||| BitVec.ofNat 512 (b.toNat <<< (8 * i))

/-- The 64 bytes of a list as one value, byte 0 least significant. -/
def lineOfBytes (bs : List Byte) : BitVec 512 := BitVec.ofNat 512 (ofBytes bs)

/-- The 64 bytes of a line. -/
def bytesOfLine (v : BitVec 512) : List Byte := bytesOf 64 v.toNat

/-- Two's-complement value of the low `n` bits. -/
def sextInt (n : Nat) (x : Nat) : Int :=
  let y := x % 2 ^ n
  if n = 0 then 0 else if y < 2 ^ (n - 1) then (y : Int) else (y : Int) - (2 ^ n : Nat)

/-- The low `n` bits of an integer as a number (R11). -/
def natOfInt (n : Nat) (x : Int) : Nat := (x % ((2 ^ n : Nat) : Int)).toNat

/-- Clamps an integer (Sat of spec/03_numbers.md). -/
def satInt (x lo hi : Int) : Int := if x < lo then lo else if hi < x then hi else x

/-- Number of 1 bits among the low `n`. -/
def popcount : Nat → Nat → Nat
  | 0, _ => 0
  | n + 1, x => x % 2 + popcount n (x / 2)

/-- Indices below `n` whose bit is 1, ascending. -/
def bitsSet (n x : Nat) : List Nat := (List.range n).filter (fun i => x.testBit i)

/-- Rounds down to a multiple of 64: the address of the line. -/
def lineOf (a : Nat) : Nat := a / 64 * 64

/-- The lines that a range of `n` bytes touches, ascending. -/
def linesOf (a n : Nat) : List Nat :=
  if n = 0 then [] else (List.range ((a + n - 1) / 64 - a / 64 + 1)).map (fun i => lineOf a + 64 * i)

/-- Each element once, first occurrences kept. -/
def dedup : List Nat → List Nat
  | [] => []
  | a :: t => a :: (dedup t).filter (fun x => x ≠ a)

/-- Inserts by a key, after equal keys: a stable insertion sort. -/
def insertBy {α : Type} (le : α → α → Bool) (x : α) : List α → List α
  | [] => [x]
  | y :: t => if le y x then y :: insertBy le x t else x :: y :: t

def sortBy {α : Type} (le : α → α → Bool) (l : List α) : List α :=
  l.foldl (fun acc x => insertBy le x acc) []

/-! ## Numbers of the words of a thread's registers (spec/18_traps.md R435, R444)

gn is word n.  Table 18.4 numbers vn 32 + n; the numbers of its eight words follow by 256, and masks, descriptors and loop registers
come after the last v. -/

/-- The eight words of vn. -/
def vWords (r : BitVec 5) : List Nat := (List.range 8).map (fun w => 32 + r.toNat + 256 * w)
/-- The word of a mask register; m0 has none. -/
def maskWords (r : BitVec 3) : List Nat := if r = 0 then [] else [64 + r.toNat]
/-- The four words of a tensor descriptor register. -/
def tdWords (r : BitVec 3) : List Nat := (List.range 4).map (fun w => 72 + r.toNat + 256 * w)
/-- The word of a loop register. -/
def loopWord (d : Nat) : Nat := 80 + d

end Sys2Proof.Machine
end

