-- ==== Sys2Proof/Machine/Memory.lean ====
section
/-! DEFINITION. Physical memory as canonical byte cells, the numbering of units, the accessors of the state's tables, and
the line cache of the slices with translation, fill, write-back and pre-images (spec/01_wafer.md R22-R24,
spec/07_local_store.md R180-R184, spec/08_die_memory.md R189-R198, spec/10_pages.md R225-R237). -/

namespace Sys2Proof.Machine

open Sys2Proof

/-! ## Accessors -/

def State.thread (s : State) (t : Nat) : Thread := Table.get Thread.reset s.threads t
def State.setThread (s : State) (t : Nat) (x : Thread) : State := { s with threads := s.threads.set t x }
def State.modThread (s : State) (t : Nat) (f : Thread → Thread) : State := s.setThread t (f (s.thread t))
def State.core (s : State) (c : Nat) : Core := Table.get Core.reset s.cores c
def State.setCore (s : State) (c : Nat) (x : Core) : State := { s with cores := s.cores.set c x }
def State.modCore (s : State) (c : Nat) (f : Core → Core) : State := s.setCore c (f (s.core c))
def State.cluster (s : State) (c : Nat) : Cluster := Table.get Cluster.reset s.clusters c
def State.modCluster (s : State) (c : Nat) (f : Cluster → Cluster) : State :=
  { s with clusters := s.clusters.set c (f (s.cluster c)) }
def State.die (s : State) (d : Nat) : Die := Table.get Die.reset s.dies d
def State.setDie (s : State) (d : Nat) (x : Die) : State := { s with dies := s.dies.set d x }
def State.modDie (s : State) (d : Nat) (f : Die → Die) : State := s.setDie d (f (s.die d))
def State.ctx (s : State) (c : Nat) : Ctx := Table.get Ctx.reset s.ctxs c
def State.setCtx (s : State) (c : Nat) (x : Ctx) : State := { s with ctxs := s.ctxs.set c x }
def State.modCtx (s : State) (c : Nat) (f : Ctx → Ctx) : State := s.setCtx c (f (s.ctx c))
def State.dctx (s : State) (d c : Nat) : DieCtx := Table.get DieCtx.zero (s.ctx c).dies d
def State.modDctx (s : State) (d c : Nat) (f : DieCtx → DieCtx) : State :=
  s.modCtx c (fun x => { x with dies := x.dies.set d (f (Table.get DieCtx.zero x.dies d)) })
def State.job (s : State) (c : Nat) : Option Job := (s.ctx c).job
def State.modJob (s : State) (c : Nat) (f : Job → Job) : State :=
  s.modCtx c (fun x => { x with job := x.job.map f })

/-! ## Numbering (R23, Table 1.4) -/

/-- The core a thread key belongs to, and its slot. -/
def coreOf (t : Nat) : Nat := t / 16
def slotOf (t : Nat) : Nat := t % 16

/-- The die of a core number; die-control core of die d is 6144 + d. -/
def dieOf (core : Nat) : Nat := if core < numGcores then core / 256 else core - numGcores

/-- Whether a core number is a die-control core (R21). -/
def isControl (core : Nat) : Bool := decide (numGcores ≤ core)

/-- Cluster within the die of a core number within the die. -/
def clOf (core : Nat) : Nat := (core / 64) * 8 + (core % 16) / 2
/-- Core index within its cluster of a core number within the die. -/
def idxOf (core : Nat) : Nat := ((core / 16) % 4) * 2 + core % 2
/-- Global cluster of a gcore. -/
def clusterOf (gcore : Nat) : Nat := gcore / 256 * 32 + clOf (gcore % 256)
/-- Core number within the die of core index `i` of cluster `cl`. -/
def coreAt (cl i : Nat) : Nat := (4 * (cl / 8) + i / 2) * 16 + 2 * (cl % 8) + i % 2
/-- gcore of core index `i` of a global cluster. -/
def gcoreAt (cluster i : Nat) : Nat := cluster / 32 * 256 + coreAt (cluster % 32) i

/-- The thread identity word of R24.  A die-control core has no gcore: its field holds 6144 + die (DESIGN CHOICE, log entry 60). -/
def identity (s : State) (core slot : Nat) : BitVec 32 := BitVec.ofNat 32 (s.modnum * 2 ^ 17 + core * 16 + slot)

/-- The sequencer die: the lowest-numbered healthy die (R26). -/
def sequencerDie (s : State) : Nat := ((List.range numDies).find? (fun d => (s.die d).healthy)).getD 0

def healthyDies (s : State) : List Nat := (List.range numDies).filter (fun d => (s.die d).healthy)

/-! ## Physical memory -/

/-- Window address of local-store offset `o` of core `g` (R171). -/
def localAddr (g o : Nat) : Nat := localWindow + g * 0x10000 + o
/-- Window address of offset `o` of die `d`'s memory (R189). -/
def dieAddr (d o : Nat) : Nat := dieWindow + d * 0x10000000 + o

/-- The capability entries of a die as delivered: id and payload (R28, R29; log entry 3 for their places and presence, and for
the generation 0 of the delivered list, DESIGN CHOICE). -/
def capEntry (d e : Nat) : Nat × Nat :=
  match e with
  | 0 => (0x0001, 0xFFF * 2 ^ 17 + d)
  | 1 => (0x0010, 16)
  | 2 => (0x0011, (2 ^ 24 - 1) * 2 ^ 40 + 24)
  | 3 => (0x0020, 0)
  | 4 => (0x0021, 0)
  | 5 => (0x0022, 0)
  | _ => (0x0023, 2)

/-- Byte `o` of the delivered capability list of die `d`; every entry has version 1 (DESIGN CHOICE, log entry 3). -/
def capByte (d o : Nat) : Byte :=
  if o < 112 then
    let e := o / 16
    let next := if e = 6 then 0 else 16 * (e + 1)
    let w0 := (capEntry d e).1 + 1 * 2 ^ 16 + next * 2 ^ 32
    let x := if o % 16 < 8 then w0 else (capEntry d e).2
    BitVec.ofNat 8 (x >>> (8 * (o % 8)))
  else 0

/-- Byte `o` (0-15) of the inverted-table entry of frame index `i` after reset (spec/10_pages.md R239). -/
def invByte (i o : Nat) : Byte :=
  if o = 7 then (if i ≤ 732164 then 0x00 else if i ≤ 732420 then 0x60 else 0x70)
  else if o = 8 then 0xFF
  else if o = 9 then 0xFF
  else if o = 10 then 0x0F
  else 0

/-- First byte of the inverted table within a stack (Table 10.1). -/
def invBase : Nat := 732165 * 65536

/-- What a byte nothing has written reads as after a module reset (R239, R28; zero elsewhere, R187, R208, R477; log entry 7). -/
def resetByte (a : Nat) : Byte :=
  if a < 2 ^ 40 then
    let o := a % 2 ^ 36
    if invBase ≤ o then (if o < invBase + 786432 * 16 then invByte ((o - invBase) / 16) (o % 16) else 0) else 0
  else if dieWindow ≤ a then capByte ((a - dieWindow) / 0x10000000) ((a - dieWindow) % 0x10000000)
  else 0

/-- One byte of physical memory. -/
def Memory.read (m : List Host.Cell) (a : Nat) : Byte := Table.get (resetByte a) m a

/-- Physical memory with one byte written; a byte at its reset value is not listed. -/
def Memory.write (m : List Host.Cell) (a : Nat) (b : Byte) : List Host.Cell :=
  if b = resetByte a then Table.del m a else Table.set m a b

/-- Consecutive bytes. -/
def Memory.readN (m : List Host.Cell) (a : Nat) : Nat → List Byte
  | 0 => []
  | n + 1 => Memory.read m a :: Memory.readN m (a + 1) n

def Memory.writeN (m : List Host.Cell) (a : Nat) : List Byte → List Host.Cell
  | [] => m
  | b :: t => Memory.writeN (Memory.write m a b) (a + 1) t

/-- Cells written one by one. -/
def Memory.writeCells (m : List Host.Cell) (cells : List (Nat × Byte)) : List Host.Cell :=
  cells.foldl (fun m c => Memory.write m c.1 c.2) m

/-- The canonical form: rising addresses, no byte at its reset value. -/
def Memory.wf : List Host.Cell → Bool
  | [] => true
  | [c] => decide (c.2 ≠ resetByte c.1)
  | c :: c' :: t => decide (c.2 ≠ resetByte c.1) && decide (c.1 < c'.1) && Memory.wf (c' :: t)

def State.read (s : State) (a : Nat) : Byte := Memory.read s.mem a
def State.readN (s : State) (a n : Nat) : List Byte := Memory.readN s.mem a n
def State.readWord (s : State) (a : Nat) : Word := wordOfBytes (s.readN a 8)
def State.readLine (s : State) (a : Nat) : BitVec 512 := lineOfBytes (s.readN a 64)
def State.writeN (s : State) (a : Nat) (bs : List Byte) : State := { s with mem := Memory.writeN s.mem a bs }
def State.writeWord (s : State) (a : Nat) (w : Word) : State := s.writeN a (bytesOf 8 w.toNat)
def State.writeLine (s : State) (a : Nat) (v : BitVec 512) : State := s.writeN a (bytesOfLine v)

/-! ## Counters and votes (spec/20_accounting.md R462, R463) -/

/-- Adds to a running count, saturating. -/
def State.count (s : State) (ctx idx n : Nat) : State :=
  s.modCtx ctx (fun x => { x with run := x.run.set idx (min (Table.get 0 x.run idx + n) (2 ^ 64 - 1)) })

/-- Casts an abort vote with a bit of the cause mask (spec/11_supersteps.md R281). -/
def State.vote (s : State) (ctx bit : Nat) : State :=
  s.modJob ctx (fun j => { j with abortMask := j.abortMask ||| BitVec.ofNat 8 (2 ^ bit) })

/-- A flit for a target word of `linkOut` leaves on a port group, whose counter grows; a failed link carries nothing
(spec/21_host.md R482; log entry 16). -/
def State.flit (s : State) (i target : Nat) (msg : LinkMsg) : State :=
  let p := Table.get PortGroup.reset s.ports i
  if p.down then s
  else { s with linkOut := s.linkOut ++ [(target, msg)], ports := s.ports.set i { p with sent := p.sent + 1 } }

/-- A message to another module; one to a failed module is discarded (spec/19_survival.md R458). -/
def State.send (s : State) (m : Nat) (msg : LinkMsg) : State :=
  if s.failedModules.contains m then s else s.flit (torusGroup s.modnum m % 6) m msg

/-- A message to each of several modules. -/
def State.sendAll (s : State) (ms : List Nat) (msg : LinkMsg) : State := ms.foldl (fun s m => s.send m msg) s

/-- Sets a bit of DEVT (spec/18_traps.md R447). -/
def State.dieEvent (s : State) (die bit : Nat) : State :=
  s.modDie die (fun d => { d with devt := d.devt ||| BitVec.ofNat 5 (2 ^ bit) })

/-- An event on which a waiting dispatcher takes its step again reaches the dies that meet a test (spec/17_launch.md R424). -/
def dispatchEvent (s : State) (p : Nat → Bool) : State :=
  { s with dies := s.dies.map (fun e => (e.1, if p e.1 then { e.2 with dispatch := true } else e.2)) }

/-- A byte of a die's window, in memory and in the undo line. -/
def landDie (s : State) (die a : Nat) (b : Byte) : State :=
  (s.modDie die (fun d => { d with undos := d.undos.map (fun u =>
    if u.line = lineOf a then { u with data := setByteAt u.data (a % 64) b } else u) })).writeN a [b]

/-- A whole line of a die's window, in memory and in the undo line. -/
def landDieLine (s : State) (die a : Nat) (v : BitVec 512) : State :=
  (s.modDie die (fun d => { d with undos := d.undos.map (fun u => if u.line = a then { u with data := v } else u) })).writeLine a v

/-- Bytes at consecutive addresses, landed one by one. -/
def landEach (land : State → Nat → Byte → State) : State → Nat → List Byte → State
  | s, _, [] => s
  | s, a, b :: t => landEach land (land s a b) (a + 1) t

/-- A doubleword of a die's window that the die itself writes unversioned. -/
def landDieWord (s : State) (die a : Nat) (w : Word) : State :=
  landEach (fun s a b => landDie s die a b) s a (bytesOf 8 w.toNat)

/-- Appends a trace record on a die while its type is enabled: its writes are unversioned, so that no abort undoes
them (R468). -/
def State.trace (s : State) (die ctx type : Nat) (who : BitVec 32) (payload : Word) : State :=
  let x := s.dctx die ctx
  if x.trEn.getLsbD (type - 1) then
    let base := x.trbase.toNat
    let tail := (s.readWord base).toNat
    let head := (s.readWord (base + 8)).toNat
    if (tail + 2 ^ 64 - head) % 2 ^ 64 = 2 ^ x.trLg then
      s.modDctx die ctx (fun y =>
        { y with trDrop := if y.trDrop = BitVec.allOnes 32 then y.trDrop else y.trDrop + 1 })
    else
      let ss := match s.job ctx with
        | some j => j.ssno
        | none => 0
      let at_ := base + 64 + 32 * (tail % 2 ^ x.trLg)
      let s := landDieWord s die at_ (word s.time)
      let s := landDieWord s die (at_ + 8) (word (type * 2 ^ 56 + ss))
      let s := landDieWord s die (at_ + 16) (word (ctx * 2 ^ 32 + who.toNat))
      let s := landDieWord s die (at_ + 24) payload
      landDieWord s die base (word (tail + 1))
  else s

/-! ## Damaged words (R444, R445) -/

/-- The damage on the doubleword of a location. -/
def eccAt (s : State) (die ctx loc : Nat) : Option EccMark :=
  s.ecc.find? (fun m => !m.hbm && decide (m.loc = loc / 8 * 8) && (decide (2 ^ 48 ≤ loc) || decide (m.die = die ∧ m.ctx = ctx)))

def dropEcc (s : State) (m : EccMark) : State := { s with ecc := s.ecc.filter (fun x => x ≠ m) }

/-- The check bits of the doubleword at a location flip; damage on damage leaves an uncorrectable word (log entry 37). -/
def hurtWord (s : State) (die ctx loc : Nat) (unc : Bool) : State :=
  let old := eccAt s die ctx loc
  let s := old.elim s (dropEcc s)
  { s with ecc := s.ecc ++ [{ die := die, ctx := ctx, loc := loc / 8 * 8, unc := unc || old.isSome }] }

def bump16 (x : BitVec 16) : BitVec 16 := if x = BitVec.allOnes 16 then x else x + 1
def bump32 (x : BitVec 32) : BitVec 32 := if x = BitVec.allOnes 32 then x else x + 1

def State.countCor (s : State) (die : Nat) : State := s.modDie die (fun d => { d with eccCor := bump32 d.eccCor })
def State.countUnc (s : State) (die : Nat) : State := s.modDie die (fun d => { d with eccUnc := bump16 d.eccUnc })
def State.countRef (s : State) (die : Nat) : State := s.modDie die (fun d => { d with eccRef := bump16 d.eccRef })

/-- The context whose allotment on a die holds the byte at a window offset (spec/08_die_memory.md R192). -/
def allottedTo (s : State) (die o : Nat) : Option Nat :=
  (s.ctxs.find? (fun c =>
    let x := Table.get DieCtx.zero c.2.dies die
    decide (x.dmBase * 16384 ≤ o ∧ o < (x.dmBase + x.dmSize) * 16384))).map (·.1)

/-- The context whose state a word is: that of a paged address, the launch that holds a local store, the allotment of a window
address. -/
def wordOwner (s : State) (ctx loc : Nat) : Nat :=
  if loc < 2 ^ 48 then ctx
  else if loc < dieWindow then (((s.core ((loc - localWindow) / 0x10000)).hold).getD ctx)
  else (allottedTo s ((loc - dieWindow) / 0x10000000) ((loc - dieWindow) % 0x10000000)).getD 0

/-- An uncorrectable word: the job of its context is voted to abort, any other word sets devt.ecc. -/
def eccVote (s : State) (die ctx : Nat) : State :=
  if (s.job ctx).isSome then s.vote ctx 1 else s.dieEvent die 2

/-! ## Slices and translation -/

/-- The slice hash of a page number (spec/02_encoding.md R45). -/
def pageHash (vpn : Nat) : Nat := vpn * 0x9E3779B1 % 2 ^ 32

/-- S(va). -/
def sliceOf (va : Nat) : Nat := pageHash (fld va 16 32) / 2 ^ 24

/-- Slice of a window offset (R189). -/
def sliceOfOffset (o : Nat) : Nat := fld o 6 8

/-- A page-table entry's two words (spec/10_pages.md Table 10.3). -/
structure Pte where
  lo : Word
  hi : Word
  deriving DecidableEq, Repr

def Pte.valid (e : Pte) : Bool := e.lo.getLsbD 63
def Pte.rep (e : Pte) : Bool := e.lo.getLsbD 44
def Pte.lg (e : Pte) : Bool := e.lo.getLsbD 43
def Pte.x (e : Pte) : Bool := e.lo.getLsbD 42
def Pte.w (e : Pte) : Bool := e.lo.getLsbD 41
def Pte.r (e : Pte) : Bool := e.lo.getLsbD 40
def Pte.vpn (e : Pte) : Nat := wfld e.lo 0 32
def Pte.stack (e : Pte) : Nat := wfld e.hi 20 4

/-- The frame a page maps to (R231). -/
def Pte.frame (e : Pte) (vpn : Nat) : Nat :=
  if e.lg then wfld e.hi 5 15 * 32 + vpn % 32 else wfld e.hi 0 20

/-- The frame address of a byte of the page (R227). -/
def Pte.phys (e : Pte) (va : Nat) : Nat :=
  e.stack * 2 ^ 36 + e.frame (fld va 16 32) * 2 ^ 16 + va % 2 ^ 16

/-- The entry at a byte of a stack. -/
def readPte (s : State) (a : Nat) : Pte := { lo := s.readWord a, hi := s.readWord (a + 8) }

/-- The first match among bucket entries at `a`, four to a bucket. -/
def bucketScan (s : State) (a vpn : Nat) : Nat → Option (Nat × Pte)
  | 0 => none
  | n + 1 =>
    let e := readPte s a
    if e.valid && decide (e.vpn = vpn) then some (a, e) else bucketScan s (a + 16) vpn n

/-- Buckets probed from `i` on. -/
def probeScan (s : State) (base b n vpn : Nat) : Nat → Nat → Option (Nat × Pte)
  | 0, _ => none
  | k + 1, i =>
    match bucketScan s (base + ((b + i) % 2 ^ n) * 64) vpn 4 with
    | some e => some e
    | none => probeScan s base b n vpn k (i + 1)

/-- `Lookup` of R229 with the address of the entry found. -/
def lookupAt (s : State) (ctx va : Nat) : Option (Nat × Pte) :=
  let pt := (s.ctx ctx).ptroot
  if pt.getLsbD 63 = false then none
  else
    let n := wfld pt 40 4
    let vpn := fld va 16 32
    let h := pageHash vpn
    let base := wfld pt 36 4 * 2 ^ 36 + wfld pt 16 20 * 2 ^ 16 + h / 2 ^ 24 * 2 ^ (n + 6)
    probeScan s base (fld h (24 - n) n) n vpn 8 0

def lookup (s : State) (ctx va : Nat) : Option Pte := (lookupAt s ctx va).map (·.2)

/-- The translation a slice of a die uses: its unit's entry, otherwise `Lookup` (R233, R234). -/
def translate (s : State) (die ctx va : Nat) : Option Pte :=
  let vpn := fld va 16 32
  match (s.die die).tlb.find? (fun e => decide (e.ctx = ctx ∧ e.vpn = vpn ∧ e.ecc ≠ .uncorrectable)) with
  | some e => some { lo := e.lo, hi := e.hi }
  | none => lookup s ctx va

/-- Keeps the first `n` entries of a slice and drops its others. -/
def capSlice (slice : Nat) : Nat → List TlbEntry → List TlbEntry
  | _, [] => []
  | n, e :: t =>
    if e.slice = slice then
      match n with
      | 0 => capSlice slice 0 t
      | n + 1 => e :: capSlice slice n t
    else e :: capSlice slice n t

/-- What reading the entry of a page finds in its check bits: a correctable error is counted, an uncorrectable entry is
discarded and looked up again (R444, R445). -/
def tlbEcc (s : State) (die ctx vpn : Nat) : State :=
  match (s.die die).tlb.find? (fun e => decide (e.ctx = ctx ∧ e.vpn = vpn)) with
  | none => s
  | some e => match e.ecc with
    | .sound => s
    | .correctable => s.countCor die
    | .uncorrectable => (s.countUnc die).countRef die

/-- Records the use of a translation at its home slice: most recent first, 512 entries a slice (R233). -/
def touchTlb (s : State) (die ctx va : Nat) (e : Pte) : State :=
  let vpn := fld va 16 32
  let s := tlbEcc s die ctx vpn
  let slice := sliceOf va
  let new : TlbEntry := { slice := slice, ctx := ctx, vpn := vpn, lo := e.lo, hi := e.hi }
  s.modDie die (fun d =>
    { d with tlb := capSlice slice 512 (new :: d.tlb.filter (fun x => !decide (x.ctx = ctx ∧ x.vpn = vpn))) })

/-! ## The line cache (R191) -/

def State.line (s : State) (die ctx va : Nat) : Option CLine :=
  s.lines.find? (fun l => decide (l.die = die ∧ l.ctx = ctx ∧ l.va = va))

def State.setLine (s : State) (l : CLine) : State :=
  { s with lines := s.lines.map (fun x => if x.die = l.die ∧ x.ctx = l.ctx ∧ x.va = l.va then l else x) }

/-- Whether a mark damages a doubleword of a cached line. -/
def CLine.hurtBy (l : CLine) (m : EccMark) : Bool :=
  !m.hbm && decide (m.loc < 2 ^ 48 ∧ m.die = l.die ∧ m.ctx = l.ctx ∧ lineOf m.loc = l.va)

/-- Frees the lines that meet a test, with the damage they carry. -/
def State.dropLines (s : State) (p : CLine → Bool) : State :=
  let gone := s.lines.filter p
  { s with lines := s.lines.filter (fun l => !p l),
           ecc := s.ecc.filter (fun m => !gone.any (fun l => l.hurtBy m)) }

def State.dropLine (s : State) (die ctx va : Nat) : State :=
  s.dropLines (fun x => decide (x.die = die ∧ x.ctx = ctx ∧ x.va = va))

/-- Lines a staged operation occupies in slice c of its die: one for each 32 B, at least one (spec/11_supersteps.md R291). -/
def StagedOp.lines (o : StagedOp) : Nat :=
  match o.act with
  | .write bs => max 1 ((bs.length + 31) / 32)
  | .cells bs => max 1 ((bs.length + 31) / 32)
  | .ramo .. => 1
  | .send m => max 1 ((8 * m.payload.length + 31) / 32)

/-- The page number of a valid replicated entry at a byte of HBM that a live context's page table holds (R206). -/
def replicatedAt (s : State) (a : Nat) : List (Nat × Nat) :=
  let e := readPte s a
  if e.valid && e.rep then
    (s.ctxs.filter (fun c => c.2.live && decide ((lookupAt s c.1 (e.vpn * 65536)).map (·.1) = some a))).map (fun c => (c.1, e.vpn))
  else []

/-- The replicated pages of the module, by context and page number: the entries are found at their byte 5, which holds the
mark. -/
def replicatedPages (s : State) : List (Nat × Nat) :=
  (s.mem.filter (fun c => decide (c.1 < 2 ^ 40 ∧ c.1 % 16 = 5) && c.2.getLsbD 4)).flatMap (fun c => replicatedAt s (c.1 - 5))

/-- Lines in use at a slice: cached lines, undo lines, staged lines, and the full copy of every replicated page homed there
(R206). -/
def sliceUse (s : State) (die slice : Nat) : Nat :=
  (s.lines.filter (fun l => decide (l.die = die ∧ sliceOf l.va = slice ∧ l.st ≠ .replica))).foldl
      (fun n l => n + 1 + bit l.undo.isSome) 0
    + 1024 * ((replicatedPages s).filter (fun p => decide (sliceOf (p.2 * 65536) = slice))).length
    + ((s.die die).undos.filter (fun u => decide (sliceOfOffset (u.line % 0x10000000) = slice))).length
    + (s.staged.filter (fun o => decide (o.gcore = die * 256 + slice ∧ o.smod = s.modnum))).foldl
        (fun n o => n + o.lines) 0

/-- What an engine's or a slice's read of a whole line finds in its check bits: correctable errors are corrected and counted,
an uncorrectable one is counted and voted on (R444, R445). -/
def lineEcc (s : State) (l : CLine) : State × Bool :=
  (s.ecc.filter l.hurtBy).foldl (fun acc m =>
    if m.unc then (eccVote (acc.1.countUnc l.die) l.die l.ctx, true)
    else ((dropEcc acc.1 m).countCor l.die, acc.2)) (s, false)

/-- Writes a line back to its frame (spec/10_pages.md R237); it becomes clean.  An uncorrectable word of it stays damaged in its
frame, while the others are the line's (DESIGN CHOICE, log entry 62). -/
def writeBack (s : State) (l : CLine) : State :=
  let s := (lineEcc s l).1
  let hurt := s.ecc.filter l.hurtBy
  let s := { s with ecc := s.ecc.filter (fun m => !l.hurtBy m && !(m.hbm && decide (l.phys ≤ m.loc ∧ m.loc < l.phys + 64))) ++
                      hurt.map (fun (m : EccMark) => { m with loc := l.phys + m.loc % 64, hbm := true }) }
  (s.writeLine l.phys l.data).setLine { l with st := .clean }

/-- The least recently used line of a slice in a given state, without an undo line, but for one that the caller keeps. -/
def lruLine (s : State) (die slice : Nat) (keep : Option (Nat × Nat)) (st : LineState) : Option CLine :=
  (s.lines.filter (fun l => decide (l.die = die ∧ sliceOf l.va = slice ∧ l.st = st ∧ keep ≠ some (l.ctx, l.va)))).foldl
    (fun best l => match best with
      | none => some l
      | some b => if l.stamp < b.stamp then some l else some b) none

/-- Takes a line of a slice for reuse by R191, the one the caller keeps left out; none when no line can be taken. -/
def evict (s : State) (die slice : Nat) (keep : Option (Nat × Nat)) : Option State :=
  match lruLine s die slice keep .clean with
  | some l => some (s.dropLine l.die l.ctx l.va)
  | none => match lruLine s die slice keep .committedDirty with
    | some l => some ((writeBack s l).dropLine l.die l.ctx l.va)
    | none => none

/-- Takes lines of a slice for reuse, at most the given number, until `n` more fit. -/
def evictFor (die slice n : Nat) (keep : Option (Nat × Nat)) : Nat → State → Option State
  | 0, s => if sliceUse s die slice + n ≤ (s.die die).cblk then some s else none
  | k + 1, s =>
    if sliceUse s die slice + n ≤ (s.die die).cblk then some s
    else match evict s die slice keep with
      | some s => evictFor die slice n keep k s
      | none => none

/-- Makes `n` lines available at a slice by R191, the line that the caller keeps left out; none when they cannot be taken.  Lines
beyond the slice's capacity, where a page has become replicated (R206), are taken with them. -/
def roomKeeping (s : State) (die slice n : Nat) (keep : Option (Nat × Nat)) : Option State :=
  evictFor die slice n keep (sliceUse s die slice + n - (s.die die).cblk) s

/-- Makes one line available at a slice, writing back and freeing by R191; none when no line can be taken. -/
def takeLine (s : State) (die slice : Nat) (keep : Option (Nat × Nat)) : Option State := roomKeeping s die slice 1 keep

/-- Makes `n` lines available, counting them as used one after another by the caller's additions. -/
def roomFor (s : State) (die slice n : Nat) : Option State := roomKeeping s die slice n none

/-- The committed image of a cached line: its undo copy if it has one (R235). -/
def CLine.committed (l : CLine) : BitVec 512 := l.undo.getD l.data

/-- The line of a healthy die that holds a page's line committed-dirty (R235). -/
def dirtyHolder (s : State) (ctx va : Nat) : Option CLine :=
  s.lines.find? (fun l => decide (l.ctx = ctx ∧ l.va = va) && (decide (l.st = .committedDirty) || l.undo.isSome) &&
    (s.die l.die).healthy)

/-- What an absent line fills with: a sibling's committed-dirty line's committed image, otherwise HBM (R235). -/
def fillData (s : State) (ctx va phys : Nat) : BitVec 512 :=
  match dirtyHolder s ctx va with
  | some l => l.committed
  | none => s.readLine phys

/-- HBM reads of a fill that the stack reports uncorrectable: each counts as an uncorrectable read of the line it fills, which
is filled again (R444, R445).  The line of a replica, state of its job, takes the damaged word, and the die votes abort. -/
def fillEcc (s : State) (die ctx va phys : Nat) (rep : Bool) : State :=
  if (dirtyHolder s ctx va).isSome then s
  else
    (s.ecc.filter (fun m => m.hbm && decide (phys ≤ m.loc ∧ m.loc < phys + 64))).foldl (fun s m =>
      let s := dropEcc s m
      if rep then
        eccVote { s.countUnc die with ecc := s.ecc ++ [{ m with die := die, ctx := ctx, loc := va + m.loc % 64, hbm := false }] } die ctx
      else (s.countUnc die).countRef die) s

/-- `Pre` of a cached line (spec/11_supersteps.md R275): for a clean line made dirty, and for a pending
one, what it would fill with. -/
def preLine (s : State) (l : CLine) : BitVec 512 :=
  if (decide (l.st = .dirty) && l.undo.isNone) || decide (l.st = .pending) then fillData s l.ctx l.va l.phys else l.committed

/-- Marks a line as the most recently used. -/
def touchLine (s : State) (l : CLine) : State :=
  { s.setLine { l with stamp := s.useCount + 1 } with useCount := s.useCount + 1 }

/-- What ensuring a paged line answers. -/
inductive LineAnswer where
  | present (s : State) (l : CLine)
  /-- The line is pending: the access waits (R191). -/
  | pending
  /-- No line can be taken (R198). -/
  | full

/-- The line at `va` (line-aligned) present at its slice, filled if absent (R235).  `e` is its translation. -/
def needLine (s : State) (die ctx va : Nat) (e : Pte) : LineAnswer :=
  match s.line die ctx va with
  | some l =>
    if l.st = .pending then .pending
    else .present (touchTlb (touchLine s l) die ctx va e) { l with stamp := s.useCount + 1 }
  | none =>
    match (if e.rep then some s else takeLine s die (sliceOf va) none) with
    | none => .full
    | some s =>
      let s := fillEcc s die ctx va (e.phys va) e.rep
      let l : CLine :=
        { die := die, ctx := ctx, va := va, phys := e.phys va,
          st := if e.rep then .replica else .clean, data := fillData s ctx va (e.phys va), written := 0,
          undo := none, stamp := s.useCount + 1 }
      .present (touchTlb { s with lines := s.lines ++ [l], useCount := s.useCount + 1 } die ctx va e) l

/-! ## Pre-images -/

/-- The read of a local-store or die-memory line whose pre-image is copied: correctable words are corrected and counted,
uncorrectable ones counted and voted on; they are named (R444, R445). -/
def copyEcc (s : State) (die ctx line : Nat) : State × List EccMark :=
  (s.ecc.filter (fun m => !m.hbm && decide (line ≤ m.loc ∧ m.loc < line + 64))).foldl (fun acc m =>
    if m.unc then (eccVote (acc.1.countUnc die) die ctx, acc.2 ++ [m])
    else ((dropEcc acc.1 m).countCor die, acc.2)) (s, [])

/-- Check bits of a copy that holds the given uncorrectable words (log entry 62). -/
def copyMark (ms : List EccMark) : Ecc := if ms.isEmpty then .sound else .uncorrectable

/-- Writer number of a slot: the holding launch or a sash bank (R181). -/
def writerOf (slot : Nat) : Nat := if slot < 8 then 0 else slot

/-- Index of a writer in the overflow registers. -/
def writerIdx (w : Nat) : Fin 3 := if w = 8 then 1 else if w = 9 then 2 else 0

/-- Whether bytes [o, o+n) of a die's window lie in the allottable blocks of the context's own allotment (R192). -/
def inAllotment (s : State) (die ctx o n : Nat) : Bool :=
  let x := s.dctx die ctx
  decide (x.dmBase * 16384 ≤ o) && decide (o + n ≤ (x.dmBase + x.dmSize) * 16384)

/-- Overflow entries of a writer's running superstep, oldest first (R181, R183). -/
def overflowEntries (s : State) (core w : Nat) : List (Nat × BitVec 512) :=
  let o := (s.core core).ovf.get (writerIdx w)
  let n := (o.vovf.toNat - o.base.toNat) / 128
  ((List.range n).map (fun i => o.base.toNat + 128 * i)).map
    (fun a => (wfld (s.readWord (a + 64)) 0 16, s.readLine a))

/-- The pre-image of a local-store line taken by a writer, if any (R178, R181). -/
def preLocal (s : State) (core w line : Nat) : Option (BitVec 512) :=
  match (s.core core).pool.find? (fun p => decide (p.line = line ∧ p.writer = w)) with
  | some p => some p.data
  | none => ((overflowEntries s core w).find? (fun p => decide (p.1 = line))).map (·.2)

/-- Takes the pre-image of a local-store line for a writer (R180, R181); none is VERSION_FULL (R182, R183). -/
def takePreLocal (s : State) (core w ctx line : Nat) : Option State :=
  if (preLocal s core w line).isSome then some s
  else
    let c := s.core core
    let used := (c.pool.filter (fun p => decide (p.writer = w))).length
    let data := s.readLine (localAddr core line)
    let r := copyEcc s (dieOf core) ctx (localAddr core line)
    if decide (c.pool.length < 256) && (decide (w = 0) || decide (used < 64)) then
      some (r.1.setCore core { c with pool := c.pool ++ [{ line := line, writer := w, data := data, ecc := copyMark r.2 }] })
    else
      let o := c.ovf.get (writerIdx w)
      let a := o.vovf.toNat
      let die := dieOf core
      if decide (a < o.vovend.toNat) && decide (dieAddr die 0 ≤ a)
          && inAllotment s die ctx (a - dieAddr die 0) 128 then
        let s := { r.1 with ecc := r.1.ecc ++ r.2.map (fun (m : EccMark) => { m with die := die, loc := a + m.loc % 64 }) }
        let s := s.writeN a (bytesOf 64 data.toNat ++ bytesOf 8 (line + w * 65536) ++ bytesOf 56 0)
        let s := s.modCore core (fun c => { c with ovf := c.ovf.set (writerIdx w) { o with vovf := o.vovf + 128 } })
        some (s.count ctx 43 1)
      else none

/-- The undo image of a window line, if taken (R196). -/
def undoOf (s : State) (die line : Nat) : Option (BitVec 512) :=
  ((s.die die).undos.find? (fun u => decide (u.line = line))).map (·.data)

/-- The context whose superstep versions a window line: that of the allotment it lies in, while its launch runs (R196). -/
def versionCtx (s : State) (die line : Nat) : Option Nat :=
  match allottedTo s die (line % 0x10000000) with
  | some c => if (s.job c).isSome then some c else none
  | none => none

/-- Takes the undo line of a window line (R196) and adds `n` to DMUNDO; none is VERSION_FULL (R198).  A line of no running launch
needs none. -/
def takeUndo (s : State) (die line n : Nat) : Option State :=
  match versionCtx s die line with
  | none => some s
  | some ctx =>
    if (undoOf s die line).isSome then some s
    else match takeLine s die (sliceOfOffset (line % 0x10000000)) none with
      | none => none
      | some s =>
        let r := copyEcc s die ctx line
        let u : Undo := { ctx := ctx, line := line, data := s.readLine line, ecc := copyMark r.2 }
        some ((r.1.modDie die (fun d => { d with undos := d.undos ++ [u] })).count ctx 44 n)

/-- Takes the undo line of a window line that an agent of the context writes. -/
def takePreDie (s : State) (die line : Nat) : Option State := takeUndo s die line 1

/-- Makes a present paged line writable: dirty, with an undo line if it was committed-dirty (R196). -/
def takePrePaged (s : State) (l : CLine) : Option State :=
  match l.st with
  | .clean => some (s.setLine { l with st := .dirty })
  | .committedDirty =>
    match takeLine s l.die (sliceOf l.va) (some (l.ctx, l.va)) with
    | none => none
    | some s =>
      let r := lineEcc s l
      some ((r.1.setLine { l with st := .dirty, undo := some l.data, undoEcc := if r.2 then .uncorrectable else .sound }).count
        l.ctx 44 1)
  | _ => some s

/-- Byte `o` of local store as the last commit of a writer left it (R178, R275): for a line it wrote in this superstep, its
pre-image. -/
def committedOf (s : State) (core w o : Nat) : Byte :=
  match preLocal s core w (lineOf o) with
  | some v => byteAt v (o % 64)
  | none => s.read (localAddr core o)

/-- Byte `o` of local store as the last commit of the holding launch left it; zero while the wipe of R187 is due. -/
def committedLocal (s : State) (core o : Nat) : Byte :=
  if (s.core core).wipe then 0 else committedOf s core 0 o

/-- Byte at a die-window address as the last commit left it (R195). -/
def committedDie (s : State) (die a : Nat) : Byte :=
  match undoOf s die (lineOf a) with
  | some v => byteAt v (a % 64)
  | none => s.read a

/-! ## Bytes that become part of the committed image (R185, R216, R340)

A `.next` operation and a host write change the committed image of a line while a pre-image of it may already stand: that
pre-image is changed with it. -/

/-- The address of the overflow entry that holds a writer's pre-image of a line. -/
def overflowEntryAt (s : State) (core w line : Nat) : Option Nat :=
  let o := (s.core core).ovf.get (writerIdx w)
  ((List.range ((o.vovf.toNat - o.base.toNat) / 128)).map (fun i => o.base.toNat + 128 * i)).find?
    (fun a => decide (wfld (s.readWord (a + 64)) 0 16 = line))

/-- A byte of local store, in memory and in the holding launch's pre-image. -/
def landLocal (s : State) (core o : Nat) (b : Byte) : State :=
  let line := lineOf o
  let s := s.modCore core (fun c => { c with pool := c.pool.map (fun p =>
    if p.line = line ∧ p.writer = 0 then { p with data := setByteAt p.data (o % 64) b } else p) })
  let s := match overflowEntryAt s core 0 line with
    | some a => s.writeN (a + o % 64) [b]
    | none => s
  s.writeN (localAddr core o) [b]

/-- A byte of a paged line: in every copy that has not written it in the running superstep, in every undo line, and in its
frame unless a die holds the line committed-dirty. -/
def landPaged (s : State) (ctx va phys : Nat) (b : Byte) : State :=
  let k := va % 64
  let held := (dirtyHolder s ctx (lineOf va)).isSome
  let s := { s with lines := s.lines.map (fun l =>
    if l.ctx = ctx ∧ l.va = lineOf va then
      { l with data := if l.st = .dirty && l.written.getLsbD k then l.data else setByteAt l.data k b
               undo := l.undo.map (fun u => setByteAt u k b) }
    else l) }
  if held then s else s.writeN phys [b]

end Sys2Proof.Machine
end

