-- ==== Sys2Proof/Machine/Sequencer.lean ====
section
/-! DEFINITION. The order in which a sequencer executes its entries: loop markers and bodies, the tests between iterations, what
has still to execute, and what LCW and the end of the stream make of a loop (spec/06_vector.md R142-R148). -/

namespace Sys2Proof.Machine

open Sys2Proof

/-- Entries among a list of items. -/
def entryCount (l : List VItem) : Nat :=
  (l.filter (fun i => match i with
    | .entry _ => true
    | .loop _ => false)).length

/-- Entries of the body of the marker at index `m` that stand before index `p`. -/
def Seq.bodyIdx (q : Seq) (m p : Nat) : Nat := entryCount ((q.items.take p).drop (m + 1))

/-- The loop whose marker stands at index `m`. -/
def Seq.loopAt (q : Seq) (m : Nat) : Option VLoop :=
  match q.items[m]? with
  | some (.loop l) => some l
  | _ => none

/-- Index right after the `k`-th entry of a list that starts at index `i`. -/
def afterEntries (k : Nat) : List VItem → Nat → Nat
  | [], i => i
  | x :: t, i =>
    if k = 0 then i
    else match x with
      | .entry _ => afterEntries (k - 1) t (i + 1)
      | .loop _ => afterEntries k t (i + 1)

/-- Index right after body entry `k - 1` of the marker at `m`: where entry `k` and markers queued before it begin. -/
def Seq.boundary (q : Seq) (m k : Nat) : Nat := afterEntries k (q.items.drop (m + 1)) (m + 1)

/-- Drops what has executed outside every loop (R146: a body stays until its loop ends). -/
def Seq.retire (q : Seq) : Seq := if q.frames.isEmpty then { q with items := q.items.drop q.pos, pos := 0 } else q

def setCount (lc : Vector LoopReg 2) (level : Nat) (c : BitVec 32) : Vector LoopReg 2 :=
  if level = 0 then lc.set 0 { lc[0] with count := c } else lc.set 1 { lc[1] with count := c }

def getCount (lc : Vector LoopReg 2) (level : Nat) : BitVec 32 := if level = 0 then lc[0].count else lc[1].count

/-- Reaches a marker: lc[d] := L.count, and its run begins (R146); none where the sequencer stands at an entry or at its end. -/
def Seq.enter (q : Seq) (lc : Vector LoopReg 2) : Option (Seq × Vector LoopReg 2) :=
  match q.items[q.pos]? with
  | some (.loop l) =>
    some ({ q with pos := q.pos + 1, frames := { marker := q.pos, phase := .prologue } :: q.frames },
      setCount lc l.level l.count)
  | _ => none

/-- One test or marker of R146; none where the sequencer stands at an entry to execute, or at its end.  Iterations that would
execute no entry, each being skipped by a nested loop of count 0, end the loop at once; so does a body that closed without an
entry (R148). -/
def Seq.move (q : Seq) (lc : Vector LoopReg 2) : Option (Seq × Vector LoopReg 2) :=
  match q.frames with
  | [] => q.enter lc
  | f :: outer =>
    match q.loopAt f.marker with
    | none => none
    | some l =>
      let k := q.bodyIdx f.marker q.pos
      let c := getCount lc l.level
      if l.n = 0 then some ({ q with frames := outer }, setCount lc l.level 0)
      else match f.phase with
      | .prologue =>
        if l.b ≤ k then
          (if c = 0 then some ({ q with frames := { f with phase := .epilogue } :: outer }, lc)
           else some ({ q with pos := q.boundary f.marker l.b, frames := { f with phase := .repeating, ran := false } :: outer }, lc))
        else q.enter lc
      | .repeating =>
        if l.e + 1 ≤ k then
          if decide (c.toNat ≤ 1) || !f.ran then
            some ({ q with frames := { f with phase := .epilogue } :: outer }, setCount lc l.level 0)
          else some ({ q with pos := q.boundary f.marker l.b, frames := { f with ran := false } :: outer }, setCount lc l.level (c - 1))
        else q.enter lc
      | .epilogue =>
        if l.n ≤ k then some ({ q with frames := outer }, lc)
        else if k ≤ l.e then (if q.pos < q.items.length then some ({ q with pos := q.pos + 1 }, lc) else none)
        else q.enter lc

/-- Moves to the next entry to execute: the tests and markers of R146 take no turn.  The fuel bounds the moves. -/
def settle : Nat → Seq × Vector LoopReg 2 → Seq × Vector LoopReg 2
  | 0, x => x
  | n + 1, x =>
    match x.1.retire.move x.2 with
    | some y => settle n y
    | none => (x.1.retire, x.2)

/-- A sequencer settled with its loop counts.  Between two entries each loop ends at most the iteration that runs and one that
executes nothing, so that no item is passed more than a few times. -/
def settled (q : Seq) (lc : Vector LoopReg 2) : Seq × Vector LoopReg 2 := settle (32 * (q.items.length + 4)) (q, lc)

/-- Settles the sequencer of a thread, as everything that changes it does. -/
def Thread.settle (th : Thread) : Thread :=
  let r := settled th.seq th.lc
  { th with seq := r.1, lc := r.2 }

/-- Queues an item; the stream moves up to the next entry it can execute. -/
def Thread.enqueue (th : Thread) (x : VItem) : Thread :=
  Thread.settle { th with seq := { th.seq with items := th.seq.items ++ [x] } }

/-- The entry at the head has executed: every loop that runs has executed an entry in its iteration. -/
def Seq.pass (q : Seq) : Seq := { q with pos := q.pos + 1, frames := q.frames.map (fun f => { f with ran := true }) }

/-! ## What has still to execute -/

/-- Whether the running loop of a frame comes back to the item at index `i`: it repeats, another iteration is to come, and the
item stands in the part that repeats. -/
def Seq.comesBack (q : Seq) (lc : Vector LoopReg 2) (i : Nat) (f : Frame) : Bool :=
  match q.loopAt f.marker with
  | none => false
  | some l =>
    decide (f.phase = .repeating) && decide (1 < (getCount lc l.level).toNat) &&
      decide (q.boundary f.marker l.b ≤ i) && decide (i < q.boundary f.marker (l.e + 1))

/-- Whether the entries that a running loop repeats have all been queued: iterations that wait for a later entry come after it in
program order. -/
def Seq.whole (q : Seq) (f : Frame) : Bool :=
  match q.loopAt f.marker with
  | none => false
  | some l => decide (l.e < q.bodyIdx f.marker q.items.length)

/-- Whether an entry queued and not yet executed meets a test: one ahead of the stream, or one that a running loop comes back to. -/
def Seq.awaits (q : Seq) (lc : Vector LoopReg 2) (p : VEntry → Bool) : Bool :=
  (List.range q.items.length).any (fun i => match q.items[i]? with
    | some (.entry e) => p e && (decide (q.pos ≤ i) || q.frames.any (fun f => q.whole f && q.comesBack lc i f))
    | _ => false)

/-! ## Open bodies and LCW (R147, R148) -/

/-- Markers of a level whose body still lacks entries: index and loop. -/
def Seq.openLoop (q : Seq) (level : Nat) : Option (Nat × VLoop) :=
  (List.range q.items.length).findSome? (fun i =>
    match q.loopAt i with
    | some l => if l.level = level ∧ q.bodyIdx i q.items.length < l.n then some (i, l) else none
    | none => none)

/-- Closes open bodies with the entries they have (R148). -/
def Seq.close (q : Seq) : Seq :=
  { q with items := (List.range q.items.length).filterMap (fun i =>
      match q.items[i]? with
      | some (VItem.loop l) =>
        let n := min l.n (q.bodyIdx i q.items.length)
        if n = 0 then some (VItem.loop { l with n := 0 })
        else
          let e := min l.e (n - 1)
          some (VItem.loop { l with n := n, e := e, b := min l.b e })
      | some x => some x
      | none => none) }

/-- The stream ends: open bodies close, and the stream moves up to the next entry. -/
def Thread.closeSeq (th : Thread) : Thread := Thread.settle { th with seq := th.seq.close }

/-- Where the loop of a level that LCW reaches stands (R147): the oldest unfinished one, and whether it is running.  A loop whose
marker has been passed is unfinished while a running loop comes back to it. -/
def Seq.unfinished (q : Seq) (lc : Vector LoopReg 2) (level : Nat) : Option (Nat × Bool) :=
  (List.range q.items.length).findSome? (fun i =>
    match q.loopAt i with
    | none => none
    | some l =>
      if l.level ≠ level then none
      else if q.frames.any (fun f => f.marker = i) then some (i, true)
      else if q.pos ≤ i || q.frames.any (q.comesBack lc i) then some (i, false)
      else none)

/-- LCW of R147 on a sequencer and its loop counts. -/
def lcwSeq (q : Seq) (lc : Vector LoopReg 2) (level : Nat) (c : BitVec 32) : Seq × Vector LoopReg 2 :=
  let q := match q.unfinished lc level with
    | some (i, false) =>
      (match q.loopAt i with
       | some l => { q with items := q.items.set i (.loop { l with count := c }) }
       | none => q)
    | _ => q
  (q, setCount lc level c)

end Sys2Proof.Machine
end

