-- ==== Sys2Proof/Machine/Ops.lean ====
section
/-! DEFINITION. The shared operations of a thread: registers with their full bits, issue, waiting, taking an exception and
its return, the resolution and checks of an address, loads, the store buffer and staging (spec/04_threads.md R85-R89,
spec/18_traps.md R430-R437, spec/07_local_store.md R171-R186, spec/08_die_memory.md R189-R206, spec/09_ordering.md
R210-R217, spec/10_pages.md R248-R253, spec/16_harvest.md R407-R413). -/

namespace Sys2Proof.Machine

open Sys2Proof

/-! ## The running thread -/

/-- The thread whose instruction executes. -/
def State.th (s : State) : Thread := s.thread s.cur
def State.modTh (s : State) (f : Thread → Thread) : State := s.modThread s.cur f
def State.curCore (s : State) : Nat := coreOf s.cur
def State.curSlot (s : State) : Nat := slotOf s.cur
def State.curDie (s : State) : Nat := dieOf (coreOf s.cur)

/-- The context a thread's per-context registers and addresses belong to; on a die-control core, JEVT.ctx (R438). -/
def State.ctxOf (s : State) (t : Nat) : Nat :=
  if isControl (coreOf t) then wfld (s.die (dieOf (coreOf t))).jevt 48 16 else (s.thread t).ctx

def State.curCtx (s : State) : Nat := s.ctxOf s.cur

/-! ## Registers (R85-R88) -/

/-- g[r]; g0 reads zero. -/
def Thread.rg (th : Thread) (r : BitVec 5) : Word := if r = 0 then 0 else th.g[r.toNat]'r.isLt

/-- Whether g[r] is full; g0 always is. -/
def Thread.fullG (th : Thread) (r : BitVec 5) : Bool := decide (r = 0) || th.gFull.getLsbD r.toNat

/-- Writes g[r] and sets it full; a write to g0 is discarded. -/
def Thread.wg (th : Thread) (r : BitVec 5) (v : Word) : Thread :=
  if r = 0 then th
  else { th with g := th.g.set r.toNat v r.isLt, gFull := th.gFull ||| BitVec.ofNat 32 (2 ^ r.toNat),
                 regEcc := th.regEcc.del r.toNat }

/-- Empties g[r]; g0 stays full. -/
def Thread.emptyG (th : Thread) (r : BitVec 5) : Thread :=
  if r = 0 then th else { th with gFull := th.gFull &&& ~~~(BitVec.ofNat 32 (2 ^ r.toNat)) }

def Thread.rv (th : Thread) (r : BitVec 5) : VWord := th.v[r.toNat]'r.isLt
def Thread.fullV (th : Thread) (r : BitVec 5) : Bool := th.vFull.getLsbD r.toNat
/-- Writes v[r] and sets it full; the check bits of the words that are written whole are made anew. -/
def Thread.wv (th : Thread) (r : BitVec 5) (x : VWord) (whole : Nat → Bool) : Thread :=
  { th with v := th.v.set r.toNat x r.isLt, vFull := th.vFull ||| BitVec.ofNat 32 (2 ^ r.toNat),
            regEcc := th.regEcc.filter (fun e => !(decide (e.1 % 256 = 32 + r.toNat) && whole (e.1 / 256))) }
def Thread.emptyV (th : Thread) (r : BitVec 5) : Thread :=
  { th with vFull := th.vFull &&& ~~~(BitVec.ofNat 32 (2 ^ r.toNat)) }

/-- m[r]; m0 reads all ones. -/
def Thread.rm_ (th : Thread) (r : BitVec 3) : Word := if r = 0 then ones64 else th.m[r.toNat]'r.isLt
def Thread.wm (th : Thread) (r : BitVec 3) (x : Word) : Thread :=
  if r = 0 then th else { th with m := th.m.set r.toNat x r.isLt, regEcc := th.regEcc.del (64 + r.toNat) }

/-- A queue register's entries, oldest first. -/
def Thread.queue (th : Thread) (r : BitVec 2) : List Word := th.q[r.toNat]'r.isLt
/-- Whether an asynchronous trap waits for the thread's next issue (spec/18_traps.md R436). -/
def Thread.trapsPend (th : Thread) : Bool := !th.pendVF.isEmpty || !th.pendRM.isEmpty
def Thread.setQueue (th : Thread) (r : BitVec 2) (l : List Word) : Thread := { th with q := th.q.set r.toNat l r.isLt }

/-- g[d] of the running thread written. -/
def State.wg (s : State) (d : BitVec 5) (v : Word) : State := s.modTh (·.wg d v)

/-! ## Wake events (spec/16_harvest.md R409, R411) -/

/-- Whether a sash bank of the core holds a thread. -/
def bankSeated (s : State) (core : Nat) : Bool :=
  decide ((s.thread (tid core 8)).st ≠ .unheld) || decide ((s.thread (tid core 9)).st ≠ .unheld)

/-- Whether the thread's launch is halted by a debugger and the thread is not the one that steps
(spec/20_accounting.md R470). -/
def betweenSteps (s : State) (t : Nat) : Bool :=
  !isControl (coreOf t) && (match s.job (s.thread t).ctx with
    | some j => decide (j.phase = .halted) && decide ((s.ctx (s.thread t).ctx).dbgStep ≠ some t)
    | none => false)

/-- A slot enters the Ready state from another: for an owner slot this is a wake event of its core, one for all the slots that
become Ready in a cycle.  Between the steps of a halted launch the slot stays stopped. -/
def State.ready (s : State) (t : Nat) : State :=
  let th := s.thread t
  if th.st = .ready then s
  else if betweenSteps s t then s.setThread t { th with st := .halted, wait := .none }
  else
    let s := s.setThread t { th with st := .ready, wait := .none }
    if slotOf t < 8 && !isControl (coreOf t) then
      let c := s.core (coreOf t)
      let s := s.setCore (coreOf t) { c with recalled := true, idleCy := 0, wakeCy := some s.cy }
      if bankSeated s (coreOf t) && decide (c.wakeCy ≠ some s.cy) then
        let s := match c.hold with
          | some x => s.count x 35 1
          | none => s
        s.trace (dieOf (coreOf t)) th.ctx 9 (identity s (coreOf t) (slotOf t)) (word (identity s (coreOf t) (slotOf t)).toNat)
      else s
    else s

/-- Whether every register of a mask (bit n for gn, bit 32 + n for vn) is full. -/
def Thread.maskFull (th : Thread) (mask : BitVec 64) : Bool :=
  decide (mask &&& ~~~(th.vFull ++ th.gFull) = 0)

/-- Wakes a parked scalar stream whose wait is over (R86, R90, R441). -/
def State.wake (s : State) (t : Nat) : State :=
  let th := s.thread t
  if th.st = .parked then
    match th.wait with
    | .regs mask => if th.maskFull mask then s.ready t else s
    | .queue q =>
      let n := (th.queue (BitVec.ofNat 2 q)).length
      if (if q < 2 then decide (n < 8) else decide (0 < n)) then s.ready t else s
    | _ => s
  else s

/-- A WFI of a thread slot ends when an empty register fills or an entry arrives in q2 or q3 (R441). -/
def State.wakeWfi (s : State) (t : Nat) : State :=
  let th := s.thread t
  if th.st = .parked && decide (th.wait = .wfi) then
    (s.modThread t (fun th => { th with came := th.pc, cameBr := false, pc := th.parkNpc })).ready t
  else s

/-- A captured operand that waits for a register takes its value (spec/06_vector.md R142). -/
def Capture.fill (r : BitVec 5) (v : Word) : Capture → Capture
  | .wait r' => if r' = r then .val v else .wait r'
  | c => c

def VItem.fill (r : BitVec 5) (v : Word) : VItem → VItem
  | .entry e => .entry { e with ca := e.ca.fill r v, cb := e.cb.fill r v }
  | .loop l => .loop l

def Seq.fill (q : Seq) (r : BitVec 5) (v : Word) : Seq := { q with items := q.items.map (VItem.fill r v) }

/-- g[r] written and full: every captured operand that waits for it takes the value (R142). -/
def Thread.put (th : Thread) (r : BitVec 5) (v : Word) : Thread :=
  let th := th.wg r v
  { th with seq := th.seq.fill r v, image := th.image.map (fun i => { i with seq := i.seq.fill r v }) }

/-- An operation's completion fills g[r] of a thread (R87, R88): captured operands take it, a parked stream wakes. -/
def State.fillG (s : State) (t : Nat) (r : BitVec 5) (v : Word) : State :=
  if r = 0 then s
  else
    let empty := !(s.thread t).fullG r
    let s := s.modThread t (fun th => th.put r v)
    if empty then (s.wake t).wakeWfi t else s

/-- The running thread's instruction writes g[d]: captured operands that wait for it take it (R142). -/
def State.putG (s : State) (d : BitVec 5) (v : Word) : State :=
  if d = 0 then s
  else s.modTh (fun th => th.put d v)

/-! ## Issue (R117, R119) -/

def rotate (l : List Nat) (x : Nat) : List Nat := l.filter (fun y => y ≠ x) ++ (if l.contains x then [x] else [])

/-- One issue of the running thread's stream: the slot moves to the end of its order and SLOTCY counts. -/
def State.issued (s : State) : State :=
  let core := s.curCore
  let slot := s.curSlot
  let s := s.modCore core (fun c => { c with sOrder := rotate c.sOrder slot })
  let s := s.count s.curCtx 32 1
  if 8 ≤ slot then
    match (s.core core).hold with
    | some x => s.count x 34 1
    | none => s
  else s

/-- The instruction completes and the PC becomes the next PC. -/
def State.advance (s : State) : State :=
  let s := s.issued
  s.modTh (fun th => { th with came := th.pc, cameBr := false, pc := s.npc, stall := none })

/-- The instruction completes and the PC becomes a branch target (R137). -/
def State.jump (s : State) (target : Word) : State :=
  let s := s.issued
  s.modTh (fun th => { th with came := th.pc, cameBr := true, pc := target, stall := none })

/-- The scalar stream parks; its PC stays (R86). -/
def State.park (s : State) (w : Wait) : State := s.modTh (fun th => { th with st := .parked, wait := w })

/-! ## Taking an exception (R432-R434) and returning (R437) -/

/-- The slot stops: a trap to M while mst = 1 (R434). -/
def stopSlot (s : State) (t : Nat) : State :=
  let s := s.modThread t (fun th => { th with st := .stopped, wait := .none })
  (s.dieEvent (dieOf (coreOf t)) 1).vote (s.ctxOf t) 7

/-- A cause word (Table 18.3). -/
def causeWord (code : Nat) (vec wr async dbl : Bool) : Word :=
  word (code + 256 * bit vec + 512 * bit wr + 1024 * bit async + 2048 * bit dbl)

/-- Bit 0 of a PC register is zero (Table 18.2). -/
def evenPc (w : Word) : Word := w &&& ~~~1#64

/-- Takes a trap on a thread: the level by R432, the entry by R433; a trap to M while mst = 1 stops the slot (R434).
`held` is vtrap.held before this trap. -/
def enterTrap (s : State) (t code : Nat) (tval epc : Word) (vec wr async held : Bool) : State :=
  let th := s.thread t
  let r123 := (decide (code = 15) && decide (th.mode ≠ .u)) || (decide (th.mode = .m) && decide (code ≠ 5)) || (vec && held)
  let toM := r123 || th.strap.st
  let die := dieOf (coreOf t)
  if toM then
    if th.mtrap.st then stopSlot s t
    else
      let s := s.ready t
      let s := s.modThread t (fun th =>
        { th with
          mtrap := { th.mtrap with st := true, pm := th.mode, epc := evenPc epc, tval := tval,
                                   cause := causeWord code vec wr async (!r123) }
          mode := .m, pc := (s.die die).mtvec, came := 0, cameBr := false, stall := none })
      s.trace die (s.ctxOf t) 4 (identity s (coreOf t) (slotOf t)) (word (code * 2 ^ 56 + wfld epc 0 48))
  else
    let s := s.ready t
    let s := s.modThread t (fun th =>
      { th with
        strap := { th.strap with st := true, pm := th.mode, epc := evenPc epc, tval := tval,
                                 cause := causeWord code vec wr async false }
        mode := .s, pc := (s.ctx (s.ctxOf t)).tvec, came := 0, cameBr := false, stall := none })
    s.trace die (s.ctxOf t) 4 (identity s (coreOf t) (slotOf t)) (word (code * 2 ^ 56 + wfld epc 0 48))

/-- Whether vector entries queued before the running instruction have not executed (R73). -/
def Thread.vectorQueued (th : Thread) : Bool := decide (th.seq.pos < th.seq.items.length)

/-- The same for a trap of the running instruction (R167), PROBE.V and EMPTY.V: entries stopped under R166 in an M-mode handler do
not count (DESIGN CHOICE, log entry 69). -/
def Thread.vectorBusy (th : Thread) : Bool := !th.vhalt && th.vectorQueued

/-- A precise trap of the running instruction: it waits until every vector entry queued before it has executed (R167),
counts as an issue (R119) and reports the instruction's PC. -/
def State.raise (s : State) (code : Nat) (tval : Word) (wr : Bool) : State :=
  if s.th.vectorBusy then s
  else enterTrap s.issued s.cur code tval s.th.pc false wr false s.th.image.isSome

/-- A trap of the running instruction whose EPC is the next PC (ECALL, Table 18.4). -/
def State.raiseNext (s : State) (code : Nat) : State :=
  if s.th.vectorBusy then s
  else enterTrap s.issued s.cur code 0 s.npc false false false s.th.image.isSome

/-- ERET (R437): restores mode and PC from the level of the current mode.  From S with an image held the sequencer must be
empty, and the image is reinstated; from M a stream stopped under R166 restarts. -/
def exceptionReturn (s : State) : State :=
  let th := s.th
  if th.mode = .m then
    let s := s.issued
    s.modTh (fun th =>
      { th with mode := th.mtrap.pm, pc := th.mtrap.epc, mtrap := { th.mtrap with st := false },
                vhalt := false, came := 0, cameBr := false, stall := none })
  else if th.image.isSome && th.vectorQueued then s
  else
    let s := s.issued
    s.modTh (fun th =>
      let th := { th with mode := th.strap.pm, pc := th.strap.epc, strap := { th.strap with st := false },
                          came := 0, cameBr := false, stall := none }
      match th.image with
      | some i => { th with seq := i.seq, lc := i.lc, image := none, vhalt := false }
      | none => th)

/-! ## Reading operands -/

/-- The bits of a list of g registers. -/
def gMask (rs : List (BitVec 5)) : BitVec 64 :=
  rs.foldl (fun m r => if r = 0 then m else m ||| BitVec.ofNat 64 (2 ^ r.toNat)) 0

/-- The damage of word `n` of a thread's registers: whether it is uncorrectable. -/
def Thread.hurt (th : Thread) (n : Nat) : Option Bool := (th.regEcc.find? (fun x => x.1 = n)).map (·.2)

/-- A thread with the damaged words among `ns` corrected. -/
def Thread.mend (th : Thread) (ns : List Nat) : Thread := { th with regEcc := th.regEcc.filter (fun x => !ns.contains x.1) }

/-- The damaged ones of the register words `ns` of a thread are corrected and counted (R444). -/
def mendRegs (s : State) (t : Nat) (ns : List Nat) : State :=
  ((s.thread t).regEcc.filter (fun x => ns.contains x.1)).foldl (fun s _ => s.countCor (dieOf (coreOf t)))
    (s.modThread t (·.mend ns))

/-- An uncorrectable word of a thread's own state: counted, and voted on for its job (R445). -/
def threadUnc (s : State) (t : Nat) : State := eccVote (s.countUnc (dieOf (coreOf t))) (dieOf (coreOf t)) (s.ctxOf t)

/-- The fault address of ECC_UNCORRECTABLE for a register word (R435): of gn or vn; of another register the spec states none, and
it is free (log entry 62). -/
def regFault (s : State) (n : Nat) : Word := if n % 256 < 64 then word (2 ^ 64 - 256 + n % 256) else freeWord s.free

/-- A free value has been taken. -/
def State.tookFree (s : State) : State := { s with free := s.free + 1 }

/-- Reads the check bits of register words `ns` of the running thread: one found uncorrectable traps (R435, R445), the
others are corrected. -/
def State.readRegs (s : State) (ns : List Nat) (k : State → State) : State :=
  if ns.all (fun n => s.th.hurt n = none) then k s
  else match ns.find? (fun n => s.th.hurt n = some true) with
    | some n => if s.th.vectorBusy then s else ((threadUnc s s.cur).raise 10 (regFault s n) false).tookFree
    | none => k (mendRegs s s.cur ns)

/-- Reads a queue's words: a damaged one is corrected, or traps (R444, R445); the spec states no fault address for it, which is
free (log entry 62). -/
def State.readQueues (s : State) (k : State → State) : State :=
  match s.th.qEcc with
  | .sound => k s
  | .correctable => k ((s.modTh (fun th => { th with qEcc := .sound })).countCor s.curDie)
  | .uncorrectable =>
    if s.th.vectorBusy then s
    else ((threadUnc s s.cur).raise 10 (freeWord s.free) false).tookFree

/-- Runs `k` once every register the instruction reads is full: an unfilled RAMO result traps (R290), any other empty
register parks the stream (R86, R436). -/
def State.withG (s : State) (rs : List (BitVec 5)) (k : State → State) : State :=
  match rs.find? (fun r => !s.th.fullG r && s.th.ramo.getLsbD r.toNat) with
  | some r => s.raise 8 (word r.toNat) false
  | none =>
    if rs.all (fun r => s.th.fullG r) then s.readRegs (rs.map BitVec.toNat) k
    else s.park (.regs (gMask (rs.filter (fun r => !s.th.fullG r))))

/-! ## Resolving an address (R171, R189, R225, R113) -/

/-- What an address reaches. -/
inductive Place where
  /-- Offset of the issuing core's local store. -/
  | own (off : Nat)
  /-- Offset of another core's local store. -/
  | farLocal (g off : Nat)
  /-- Window address in the issuing die's memory. -/
  | die (a : Nat)
  /-- Window address in another die's memory. -/
  | farDie (d a : Nat)
  | paged (va : Nat) (e : Pte)
  deriving DecidableEq, Repr

/-- The form of an address before any permission. -/
inductive Form where
  | own (off : Nat) (spill : Bool)
  | local (g off : Nat)
  | window (d o : Nat)
  | paged (va : Nat)
  | bad
  deriving DecidableEq, Repr

/-- Owner slots of a core's slot set, ascending. -/
def ownerSlots (c : Core) : List Nat := (bitsSet 8 c.slotSet.toNat)

/-- The address forms other than the spill window. -/
def plainForm (ea : Nat) : Form :=
  if ea < 2 ^ 48 then .paged ea
  else if 2 ^ 64 - 2 ^ 16 ≤ ea then (if ea % 65536 < localBytes then .own (ea % 65536) false else .bad)
  else if localWindow ≤ ea ∧ ea < dieWindow then
    let w := ea - localWindow
    if w / 65536 < numGcores ∧ w % 65536 < localBytes then .local (w / 65536) (w % 65536) else .bad
  else if dieWindow ≤ ea ∧ ea < dieWindow + 0x10000000000000 then
    let w := ea - dieWindow
    if w / 0x10000000 < numDies ∧ w % 0x10000000 < dieBytes then .window (w / 0x10000000) (w % 0x10000000) else .bad
  else .bad

/-- Carve-out size of a slot: a sash bank has none (R170). -/
def carveSize (s : State) (core slot : Nat) : Nat := if slot < 8 then (s.core core).spill else 0

/-- Whether an address of a slot lies in the overflow part of the spill window (R113). -/
def overflows (s : State) (core slot : Nat) (ea : Nat) : Bool :=
  decide (2 ^ 64 - 2 ^ 16 + localBytes + carveSize s core slot ≤ ea)

/-- Where an overflow access goes. -/
def overflowAddr (s : State) (core slot : Nat) (ea : Nat) : Nat :=
  ((s.thread (tid core slot)).spovf.toNat + (ea % 65536 - localBytes - carveSize s core slot)) % 2 ^ 64

/-- The address that faults of an access report: an overflow access follows its resolved address (R113). -/
def State.reach (s : State) (t : Nat) (ea : Word) : Word :=
  if overflows s (coreOf t) (slotOf t) ea.toNat then word (overflowAddr s (coreOf t) (slotOf t) ea.toNat) else ea

/-- Form of an address for a slot, the spill window resolved by R113 and R170; with SPOVF = 0 every overflow access is denied
(R114). -/
def addrForm (s : State) (core slot : Nat) (ea : Nat) : Form :=
  if overflows s core slot ea then
    (if (s.thread (tid core slot)).spovf = 0 then .bad else plainForm (overflowAddr s core slot ea))
  else if 2 ^ 64 - 2 ^ 16 + localBytes ≤ ea then
    let i := ((ownerSlots (s.core core)).filter (fun x => x < slot)).length
    .own (0xB800 - (i + 1) * carveSize s core slot + (ea % 65536 - localBytes)) true
  else plainForm ea

/-- How an access uses its target (R232, Table 8.4). -/
inductive Use where
  | read
  | write
  | rmw
  deriving DecidableEq, Repr

/-- What the checks of an access answer. -/
inductive Verdict where
  | ok (p : Place)
  /-- ACCESS at the address. -/
  | denied
  | pageFault
  deriving DecidableEq, Repr

/-- Bytes of the spill carve-outs of a core: S of R169. -/
def spillBytes (c : Core) : Nat := c.spill * (ownerSlots c).length

/-- Table 7.3 for the holding launch. -/
def localAllowed (c : Core) (mode : Mode) (off : Nat) (spill : Bool) : Bool :=
  if off < 0xB800 - spillBytes c then true
  else if off < 0xB800 then spill || decide (mode ≠ .u)
  else decide (mode ≠ .u)

/-- Table 8.4 for the window of die `d`, offset `o`. -/
def windowAllowed (s : State) (die d ctx o : Nat) (mode : Mode) (use : Use) : Bool :=
  let mine := inAllotment s d ctx o 1
  if o < 4096 then (match use with
    | .read => true
    | .write => decide (mode = .m)
    | .rmw => false)
  else if o < 16384 then decide (mode = .m) && decide (use ≠ .rmw)
  else if (8192 - (s.die d).cblk) * 16384 ≤ o then false
  else if mine then decide (use ≠ .rmw) || decide (d = die)
  else decide (mode = .m) && decide (use ≠ .rmw)

/-- Index of a sash bank's lease. -/
def bankIdx (slot : Nat) : Fin 2 := if slot = 9 then 1 else 0

/-- The checks of R172, R173, R193, R206, R232 and R407 on an access of a thread of (core, slot).  While the wipe of an ended launch's
local store is due, a read of its context reaches the store and finds zero (R187). -/
def checkAccess (s : State) (core slot : Nat) (mode : Mode) (ctx : Nat) (use : Use) (ea : Nat) : Verdict :=
  let die := dieOf core
  match addrForm s core slot ea with
  | .bad => .denied
  | .own off spill =>
    if isControl core then .denied
    else if use = .rmw then .denied
    else if slot < 8 then
      (if (s.core core).hold = some ctx && localAllowed (s.core core) mode off spill then .ok (.own off) else .denied)
    else
      let l := (s.core core).leases.get (bankIdx slot)
      match l.granules[off / 4096]? with
      | none => .denied
      | some g =>
        if l.gone.contains (off / 4096) then
          let a := (l.hback.toNat + off) % 2 ^ 64
          if decide (dieAddr die 0 ≤ a) && inAllotment s die ctx (a - dieAddr die 0) 1 then .ok (.die a) else .denied
        else .ok (.own (g * 4096 + off % 4096))
  | .local g off =>
    if use = .rmw || !(s.die (dieOf g)).healthy || decide (8 ≤ slot) then .denied
    else if (s.core g).hold = some ctx && localAllowed (s.core g) mode off false then
      (if g = core then .ok (.own off) else .ok (.farLocal g off))
    else if (s.core g).wipe && decide (use = .read ∧ (s.core g).left = some ctx) then .ok (.farLocal g off)
    else .denied
  | .window d o =>
    if (s.die d).healthy && windowAllowed s die d ctx o mode use then
      (if d = die then .ok (.die (dieAddr d o)) else .ok (.farDie d (dieAddr d o)))
    else .denied
  | .paged va =>
    match translate s die ctx va with
    | none => .pageFault
    | some e =>
      if 732164 < e.frame (fld va 16 32) then .denied
      else if (match use with
        | .read => e.r
        | .write => e.w
        | .rmw => e.r && e.w && !e.rep) then .ok (.paged va e)
      else .denied

/-- The location key of the first byte of a target: a window address, or a paged address. -/
def Place.loc (core : Nat) : Place → Nat
  | .own off => localAddr core off
  | .die a => a
  | .paged va _ => va
  | .farLocal g off => localAddr g off
  | .farDie _ a => a

/-- The fault address of VERSION_FULL: the line's address in local store (R182), the accessed address elsewhere (R198). -/
def Place.fullAt (p : Place) (ea : Word) : Word :=
  match p with
  | .own _ => ea &&& ~~~63#64
  | _ => ea

/-- The window or paged address that an address of a thread reaches. -/
def reached (s : State) (core slot ctx a : Nat) : Nat :=
  match checkAccess s core slot .m ctx .write a with
  | .ok p => p.loc core
  | _ => a

/-- Whether a target is near (Table 9.2). -/
def Place.near : Place → Bool
  | .own _ => true
  | .die _ => true
  | .paged _ e => !e.rep
  | _ => false

/-! ## Lines that engines own or that are pending (R185, R204, R205) -/

/-- Whether an engine or router operation has still to write the line at a location key; a paged line that waits for a `.next`
operation, whose data belong to the committed image, waits on every die (R340). -/
def lineBusy (s : State) (die ctx loc : Nat) : Bool :=
  s.owned.any (fun o => decide (o.line = lineOf loc) &&
    (decide (2 ^ 48 ≤ loc) || (decide (o.ctx = ctx) && (decide (o.die = die) || o.nxt))))

/-- Whether the line waits for a `.next` operation (R340). -/
def lineBusyNext (s : State) (ctx loc : Nat) : Bool :=
  s.owned.any (fun o => decide (o.line = lineOf loc) && (decide (2 ^ 48 ≤ loc) || decide (o.ctx = ctx)) && o.nxt)

/-! ## Reclaiming a leased granule (R408, R412, R413) -/

/-- The lease that holds physical granule `gr` of a core: bank, lease index, and whether only step 3 is due (R413). -/
def leaseOf (s : State) (core gr : Nat) : Option (Nat × Nat × Bool) :=
  let look (b : Nat) : Option (Nat × Nat × Bool) :=
    let l := (s.core core).leases.get (bankIdx b)
    match l.granules.findIdx? (fun g => g = gr) with
    | none => none
    | some j =>
      if l.restored.contains j then some (b, j, true)
      else if l.gone.contains j then none else some (b, j, false)
  match look 8 with
  | some x => some x
  | none => look 9

/-- Frees every pre-image of a line that a sash bank holds, in the pool and in its overflow region, where the freed entry
names no line (R412). -/
def freePre (s : State) (core b off : Nat) : State :=
  let s := s.modCore core (fun c => { c with pool := c.pool.filter (fun p => !decide (p.line = off ∧ p.writer = b)) })
  match overflowEntryAt s core b off with
  | some a => s.writeWord (a + 64) (word (b * 65536 + 65535))
  | none => s

/-- Step 2 of R412 for one line: its backing line, and a pre-image that the harvester has of it, take Pre unversioned, and then the line the current content as a versioned write of
the harvester; one that leaves its bank at its own decision needs no version of it (R416). -/
def backLine (s : State) (core b j off : Nat) (versioned : Bool) : Option State :=
  let back := ((s.core core).leases.get (bankIdx b)).hback.toNat + j * 4096 + off % 4096
  let cur := s.readLine (localAddr core off)
  if versioned then
    (takePreDie (landDieLine s (dieOf core) back ((preLocal s core b off).getD cur)) (dieOf core) back).map
      (fun s => s.writeLine back cur)
  else some (s.writeLine back cur)

/-- Step 3 for one line: zeroed as a versioned write of the owner, if a launch holds the core. -/
def zeroOwned (s : State) (core off : Nat) : Option State :=
  (match (s.core core).hold with
    | none => some s
    | some o => takePreLocal s core 0 o off).map (fun (s : State) => s.writeLine (localAddr core off) 0)

/-- Steps 2 and 3 for one line; a repeated reclaim skips step 2 (R413). -/
def reclaimLine (s : State) (core b j off : Nat) (again versioned : Bool) : Option State :=
  (if again then some s else backLine s core b j off versioned).bind (fun s => zeroOwned (freePre s core b off) core off)

/-- One act for each line of a granule, in ascending order. -/
def granuleLines (act : State → Nat → Option State) (gr : Nat) (s : State) : Option State :=
  (List.range 64).foldl (fun acc i => acc.bind (fun s => act s (gr * 4096 + 64 * i))) (some s)

/-- HRECLAIM of the holding launch counts a reclaim. -/
def countReclaim (s : State) (core : Nat) : State :=
  match (s.core core).hold with
  | some o => s.count o 36 1
  | none => s

/-- Whether an engine or router operation has still to write a line of a granule.  Those of the holding launch itself wait for the
reclaim, as each of its accesses does (R408), and so do not hold it up (DEDUCED, log entry 72). -/
def granulePending (s : State) (core gr : Nat) : Bool :=
  let lo := localAddr core (gr * 4096)
  s.owned.any (fun o => decide (lo ≤ o.line ∧ o.line < lo + 4096 ∧ (s.core core).hold ≠ some o.ctx))

/-- A bank has left a granule that an abort of the owner gave back: it is zeroed again (R413). -/
def reclaimResidue (s : State) (core gr : Nat) : Option State :=
  if !(s.core core).residue.contains (gr, true) then some s
  else if granulePending s core gr then none
  else (granuleLines (fun s off => zeroOwned s core off) gr s).map (fun s =>
    countReclaim (s.modCore core (fun c => { c with residue := c.residue.map (fun r => if r.1 = gr then (gr, false) else r) })) core)

/-- Reclaims a physical granule of a core; none while step 1 of R412 must wait or no pre-image finds room. -/
def reclaim (s : State) (core gr : Nat) : Option State :=
  match leaseOf s core gr with
  | none => reclaimResidue s core gr
  | some (b, j, again) =>
    let lo := localAddr core (gr * 4096)
    if granulePending s core gr then none
    else if (s.thread (tid core b)).sb.any (fun e => e.cells.any (fun x => decide (lo ≤ x.1 ∧ x.1 < lo + 4096))) then none
    else (granuleLines (fun s off => reclaimLine s core b j off again true) gr s).map (fun s =>
      countReclaim (s.modCore core (fun c =>
        let l := c.leases.get (bankIdx b)
        { c with leases := c.leases.set (bankIdx b)
                   { l with gone := if l.gone.contains j then l.gone else l.gone ++ [j]
                            restored := l.restored.filter (fun x => x ≠ j)
                            fresh := l.fresh ++ [j] } })) core)

/-- The owner's access to a location of its local store reclaims the granule first (R408); a harvester's does not. -/
def reclaimFor (s : State) (core slot : Nat) (p : Place) : Option State :=
  match p with
  | .own off => if slot < 8 then reclaim s core (off / 4096) else some s
  | _ => some s

/-- Whether a far read of a local store finds a granule that is leased or was reclaimed this superstep: it reads zero (R408). -/
def leasedRead (s : State) (g off : Nat) : Bool :=
  let look (b : Nat) : Bool :=
    let l := (s.core g).leases.get (bankIdx b)
    match l.granules.findIdx? (fun x => x = off / 4096) with
    | none => false
    | some j => !l.gone.contains j || l.restored.contains j || l.fresh.contains j
  look 8 || look 9 || (s.core g).residue.any (fun r => r.1 = off / 4096)

/-! ## Reading damaged words (R444, R445) -/

/-- What reading words finds: nothing, or an uncorrectable word at an address (R445). -/
inductive EccAnswer where
  | clean (s : State)
  | uncorrectable (s : State) (loc : Nat)

/-- Reads one doubleword's check bits: a correctable error is corrected and counted (R444), a clean paged line is
discarded (R445), any other uncorrectable word is counted and the die votes abort. -/
def readEcc (s : State) (die ctx loc : Nat) : EccAnswer :=
  match eccAt s die ctx loc with
  | none => .clean s
  | some m =>
    if m.unc = false then
      .clean ((dropEcc s m).countCor die)
    else
      let s1 := s.countUnc die
      let voted := eccVote s1 die (wordOwner s ctx loc)
      match (if loc < 2 ^ 48 then s.line die ctx (lineOf loc) else none) with
      | some l =>
        if l.st = .clean then
          .clean (((dropEcc s1 m).countRef die).dropLine die ctx (lineOf loc))
        else .uncorrectable voted (loc / 8 * 8)
      | none => .uncorrectable voted (loc / 8 * 8)

/-- Reads the check bits of every doubleword that [loc, loc + n) touches. -/
def readEccs (s : State) (die ctx loc n : Nat) : EccAnswer :=
  ((List.range ((loc + n - 1) / 8 - loc / 8 + 1)).map (fun i => loc / 8 * 8 + 8 * i)).foldl (fun acc a =>
    match acc with
    | .clean s => readEcc s die ctx a
    | x => x) (.clean s)

/-! ## Loads -/

/-- What reading bytes answers. -/
inductive ReadAnswer where
  | bytes (s : State) (bs : List Byte)
  /-- The access waits: a pending or owned line, or store-buffer entries that hold some of the bytes. -/
  | wait (s : State)
  | full
  | damaged (s : State) (loc : Nat)

/-- The youngest near entry's byte at a location (R211). -/
def forwarded (sb : List SbEntry) (loc : Nat) : Option Byte :=
  (sb.reverse.filterMap (fun e =>
    if e.far then none else (e.cells.reverse.find? (fun c => c.1 = loc)).map (·.2))).head?

/-- A recall is counted once for each access that waits (R205). -/
def noteRecall (s : State) (t loc : Nat) : State :=
  if (s.thread t).stall = some (lineOf loc) then s
  else (s.modThread t (fun th => { th with stall := some (lineOf loc) })).count (s.ctxOf t) 45 1

/-- Vector registers an operation reads. -/
def VOp.reads (e : VEntry) : List (BitVec 5) :=
  match e.op with
  | .int _ => [e.a, e.b]
  | .fp op =>
    (match op with
     | .fma => [e.a, e.b, e.d]
     | .fms => [e.a, e.b, e.d]
     | .fnma => [e.a, e.b, e.d]
     | .fnms => [e.a, e.b, e.d]
     | _ => [e.a, e.b])
  | .cmp _ => [e.a, e.b]
  | .cvt .. => [e.a]
  | .spec _ => [e.a]
  | .red _ => [e.a]
  | .perm => [e.a, e.b]
  | .slide => [e.a]
  | .bcast => []
  | .merge => [e.a, e.b]
  | .load form => (match form with
    | .indexed => [e.b]
    | _ => [])
  | .store form => (match form with
    | .indexed => [e.b, e.d]
    | _ => [e.d])
  | .storeQueue => [e.d]
  | .qpush => [e.a]
  | _ => []

/-- The queue named by a 5-bit field. -/
def qIdx (r : BitVec 5) : BitVec 2 := r.setWidth 2

/-- Queues whose words an entry reads. -/
def VOp.popsQueue : VOp → Bool
  | .load .queued => true
  | .qpop => true
  | _ => false

/-- What the vector stream of a thread waits for at the entry to execute next, as the wait table names it: an empty vector register, a
queue without an entry to pop or without room for what the entry pushes, or a captured operand (log entry 15). -/
def VEntry.parked (th : Thread) (e : VEntry) : Nat × Nat :=
  let full (q : BitVec 2) (n : Nat) : Bool := decide (8 < (th.queue q).length + n)
  match (VOp.reads e).find? (fun r => !th.fullV r), e.ca, e.cb with
  | some r, _, _ => (1, 32 + r.toNat)
  | none, .wait _, _ => (7, 0)
  | none, _, .wait _ => (7, 0)
  | none, _, _ =>
    if e.op.popsQueue && e.popped.isNone && (th.queue (qIdx e.a)).isEmpty then (2, (qIdx e.a).toNat)
    else match e.op with
      | .storeQueue => if full (qIdx e.a) 8 then (2, (qIdx e.a).toNat) else (0, 0)
      | .mpopc | .mfirst | .qpush => if full (qIdx e.d) 1 then (2, (qIdx e.d).toNat) else (0, 0)
      | _ => (0, 0)

/-- The wait-table entry of a slot (spec/18_traps.md R449): what its scalar stream waits for, and in a Ready slot what its vector
stream waits for (log entry 15). -/
def waitEntry (s : State) (core slot : Nat) : Nat :=
  let th := s.thread (tid core slot)
  let kind : Nat × Nat := match th.st with
    | .arrived => (10, 0)
    | .stopped => (9, 0)
    | .ready => (match th.seq.items[th.seq.pos]? with
       | some (.entry e) => if th.vhalt then (0, 0) else e.parked th
       | _ => (0, 0))
    | .parked =>
      (match th.wait with
       | .regs mask =>
         let n := ((bitsSet 64 (mask &&& ~~~(th.vFull ++ th.gFull)).toNat).head?).getD 0
         if th.tickets.any (fun k => k.1 = n) then (4, n) else (1, n)
       | .queue q => (2, q)
       | .sleep => (3, 0)
       | .ticket n => (4, n)
       | .exitDrain => (5, 0)
       | .arrivalDrain => (match th.tickets with
         | k :: _ => (4, k.1)
         | [] => (6, 0))
       | .wfi => (8, 0)
       | .none => (0, 0))
    | _ => (0, 0)
  kind.1 * 2 ^ 28 + kind.2 * 2 ^ 22 + th.ctx

/-- A byte of a die's window: the wait tables of block 0 show the slots (R449), other bytes are memory. -/
def windowByte (s : State) (a : Nat) : Byte :=
  let o := (a - dieWindow) % 0x10000000
  if 0x1800 ≤ o ∧ o < 0x1800 + 32 * 320 then
    let e := (o - 0x1800) / 4
    let core := gcoreAt ((a - dieWindow) / 0x10000000 * 32 + e / 80) (e % 80 / 10)
    BitVec.ofNat 8 (waitEntry s core (e % 10) >>> (8 * (o % 4)))
  else s.read a

/-- A byte of another die's window as a far reader of a context's job sees it: the wait tables as they stand (R449), the
capability list as the job's last commit found it (spec/01_wafer.md R31), and otherwise the committed image (R195). -/
def farWindowByte (s : State) (ctx d a : Nat) : Byte :=
  let o := (a - dieWindow) % 0x10000000
  if 0x1800 ≤ o ∧ o < 0x1800 + 32 * 320 then windowByte s a
  else if o < 4096 ∧ (s.job ctx).isSome then Memory.read (Table.get [] (s.ctx ctx).capView d) a
  else committedDie s d a

/-- Bytes of a paged line, filled if it is absent. -/
def readPaged (s : State) (die ctx va : Nat) (e : Pte) (n : Nat) : ReadAnswer :=
  match needLine s die ctx (lineOf va) e with
  | .present s l => .bytes s ((List.range n).map (fun i => byteAt l.data (va % 64 + i)))
  | .pending => .wait s
  | .full => .full

/-- The check bits of the words in which a far agent reads the committed image at a location: those of the pre-image where the line
has one, and of the line as it stands otherwise (R195, R444). -/
def imageEccs (s : State) (die ctx : Nat) (p : Place) (n : Nat) (core : Nat) : EccAnswer :=
  match p with
  | .farLocal g off => if (s.core g).wipe || leasedRead s g off || (preLocal s g 0 (lineOf off)).isSome then .clean s else readEccs s die ctx (localAddr g off) n
  | .farDie d a => if (undoOf s d (lineOf a)).isSome then .clean s else readEccs s die ctx a n
  | _ => readEccs s die ctx (p.loc core) n

/-- Reads memory at its place, the line being free: the doublewords' check bits first. -/
def readPlace (s : State) (die ctx core : Nat) (p : Place) (n : Nat) : ReadAnswer :=
  match p with
  | .paged va e =>
    (match readPaged s die ctx va e n with
     | .bytes s bs => (match readEccs s die ctx va n with
       | .uncorrectable s l => .damaged s l
       | .clean s => if (s.line die ctx (lineOf va)).isSome then .bytes s bs else readPaged s die ctx va e n)
     | x => x)
  | _ => match imageEccs s die ctx p n core with
    | .uncorrectable s l => .damaged s l
    | .clean s =>
      .bytes s (match p with
        | .own off => s.readN (localAddr core off) n
        | .die a => (List.range n).map (fun i => windowByte s (a + i))
        | .farLocal g off => if leasedRead s g off then bytesOf n 0 else (List.range n).map (fun i => committedLocal s g (off + i))
        | .farDie d a => (List.range n).map (fun i => farWindowByte s ctx d (a + i))
        | .paged .. => [])

/-- `Pre` of bytes within one line at a place, as an agent of a slot reads them (spec/11_supersteps.md R275). -/
def preBytes (s : State) (die ctx core slot : Nat) (p : Place) (n : Nat) : List Byte :=
  (List.range n).map (fun i =>
    match p with
    | .own off => committedOf s core (writerOf slot) (off + i)
    | .farLocal g off => if leasedRead s g off then 0 else committedLocal s g (off + i)
    | .die a => committedDie s die (a + i)
    | .farDie d a => farWindowByte s ctx d (a + i)
    | .paged va e =>
      byteAt (match s.line die ctx (lineOf va) with
        | some l => preLine s l
        | none => fillData s ctx (lineOf va) (e.phys (lineOf va))) (va % 64 + i))

/-- A thread's load of `n` bytes within one line at a checked place (R178, R185, R195, R205, R211). -/
def loadPlace (s : State) (t : Nat) (p : Place) (n : Nat) : ReadAnswer :=
  let core := coreOf t
  let die := dieOf core
  let ctx := s.ctxOf t
  let loc := p.loc core
  match p with
  | .farLocal .. => if lineBusyNext s ctx loc then .wait s else readPlace s die ctx core p n
  | .farDie .. => if lineBusyNext s ctx loc then .wait s else readPlace s die ctx core p n
  | _ =>
    let fw := (List.range n).map (fun i => forwarded (s.thread t).sb (loc + i))
    if p.near && fw.all Option.isSome then
      .bytes (match p with
        | .paged va e => touchTlb s die ctx va e
        | _ => s) (fw.map (fun b => b.getD 0))
    else if p.near && fw.any Option.isSome then .wait s
    else if lineBusy s die ctx loc then
      (match p with
        | .own _ => .wait s
        | _ => .wait (noteRecall s t loc))
    else match reclaimFor s core (slotOf t) p with
      | none => .wait s
      | some s => readPlace s die ctx core p n

/-! ## Pre-images of a near write (R180, R196) -/

/-- Takes the pre-image that a write of the line at a place needs; `wait` while the line is pending. -/
inductive PreAnswer where
  | taken (s : State)
  | wait
  | full

def takePre (s : State) (t : Nat) (p : Place) : PreAnswer :=
  let core := coreOf t
  let ctx := s.ctxOf t
  match p with
  | .own off =>
    match reclaimFor s core (slotOf t) p with
    | none => .wait
    | some s =>
      match takePreLocal s core (writerOf (slotOf t)) ctx (lineOf off) with
      | none => .full
      | some s => .taken s
  | .die a =>
    match takePreDie s (dieOf core) (lineOf a) with
    | none => .full
    | some s => .taken s
  | .paged va e =>
    match needLine s (dieOf core) ctx (lineOf va) e with
    | .pending => .wait
    | .full => .full
    | .present s _ =>
      match s.line (dieOf core) ctx (lineOf va) with
      | none => .full
      | some l => match takePrePaged s l with
        | none => .full
        | some s => .taken s
  | _ => .taken s

/-! ## Staging (R217, R276, R291) -/

/-- A denied access has used the translation of its page (R233). -/
def State.deniedUse (s : State) (t : Nat) (ea : Word) : State :=
  let die := dieOf (coreOf t)
  match addrForm s (coreOf t) (slotOf t) ea.toNat with
  | .paged va => (match translate s die (s.ctxOf t) va with
    | some e => touchTlb s die (s.ctxOf t) va e
    | none => s)
  | _ => s

/-- ACCESS of the running instruction at an address whose access is denied. -/
def State.deny (s : State) (ea : Word) (wr : Bool) : State := (s.deniedUse s.cur ea).raise 4 (s.reach s.cur ea) wr

/-- Lines that far operations of given sizes occupy (R291). -/
def stageLines (sizes : List Nat) : Nat := (sizes.map (fun n => max 1 ((n + 31) / 32))).foldl (· + ·) 0

/-- Whether far operations of the given sizes can be captured after those that wait in the store buffer: their lines in slice c
of the issuing die (R291) and free issue sequence numbers (R276). -/
def stageRooms (s : State) (t : Nat) (sizes : List Nat) : Option State :=
  let core := coreOf t
  let far (k : Nat) : List Nat := ((s.thread (tid core k)).sb.filter (·.far)).map (fun e => e.cells.length)
  let waiting := (List.range slotsPerCore).flatMap far
  if 2 ^ 28 < (s.thread t).farSeq + (far (slotOf t)).length + sizes.length then none
  else roomFor s (dieOf core) (core % 256) (stageLines (waiting ++ sizes))

/-- The same for one operation with `n` data bytes. -/
def stageRoom (s : State) (t n : Nat) : Option State := stageRooms s t [n]

/-- What a far operation that reaches the given cells of one line writes: their bytes, or the cells where gaps lie between
them, by the lowest location. -/
def cellsAct (cells : List (Nat × Byte)) : Nat × StagedAct :=
  let base := cells.foldl (fun b c => min b c.1) (cells.headD (0, 0)).1
  if cells.map (·.1) = (List.range cells.length).map (fun i => base + i) then (base, .write (cells.map (·.2)))
  else (base, .cells (cells.map (fun c => (c.1 - base, c.2))))

/-- Captures a far operation at address `addr`, which reaches `loc`, and numbers it. -/
def stage (s : State) (t tmod addr loc : Nat) (act : StagedAct) : State :=
  let th := s.thread t
  let o : StagedOp :=
    { ctx := s.ctxOf t, tmod := tmod, addr := addr, smod := s.modnum, gcore := coreOf t,
      seqno := slotOf t * 2 ^ 28 + th.farSeq, loc := loc, act := act }
  { s with staged := s.staged ++ [o] }.setThread t { th with farSeq := th.farSeq + 1 }

/-! ## The store buffer (R211) -/

/-- Writes one byte at a near location: local store and die memory in `mem`, a paged byte in its line. -/
def pokeByte (s : State) (die ctx : Nat) (c : Nat × Byte) : State :=
  if 2 ^ 48 ≤ c.1 then { s with mem := Memory.write s.mem c.1 c.2 }
  else match s.line die ctx (lineOf c.1) with
    | none => s
    | some l =>
      s.setLine { l with data := setByteAt l.data (c.1 % 64) c.2
                         written := l.written ||| BitVec.ofNat 64 (2 ^ (c.1 % 64)) }

def pokeCells (s : State) (die ctx : Nat) (cells : List (Nat × Byte)) : State :=
  cells.foldl (fun s c => pokeByte s die ctx c) s

/-- Bytes of a list of cells that lie in one doubleword. -/
def cellsIn (cells : List (Nat × Byte)) (dw : Nat) : List (Nat × Byte) := cells.filter (fun c => c.1 / 8 * 8 = dw)

/-- A near store acts on damaged doublewords: all 8 bytes written remove the damage, a narrower store reads the word first
and, finding it uncorrectable, does not land (R443, R445). -/
def storeEcc (s : State) (die ctx : Nat) (cells : List (Nat × Byte)) : State × List (Nat × Byte) :=
  (dedup (cells.map (fun c => c.1 / 8 * 8))).foldl (fun acc dw =>
    match eccAt acc.1 die ctx dw with
    | none => acc
    | some m =>
      if (dedup ((cellsIn cells dw).map (·.1))).length = 8 then (dropEcc acc.1 m, acc.2)
      else match readEcc acc.1 die ctx dw with
        | .clean s => (s, acc.2)
        | .uncorrectable s _ => (s, acc.2.filter (fun c => c.1 / 8 * 8 ≠ dw))) (s, cells)

/-- What a near local-store entry needs again as it drains, where the seating of a lease took its pre-image away since the
store issued: the owner reclaims the granule, and the line's pre-image is taken (R180, R408). -/
def retakePre (s : State) (t : Nat) (cells : List (Nat × Byte)) : Option State :=
  let core := coreOf t
  (dedup (cells.map (fun c => lineOf c.1))).foldl (fun acc l => acc.bind (fun s =>
    if localWindow ≤ l ∧ l < dieWindow then
      let off := l - localAddr core 0
      if (preLocal s core (writerOf (slotOf t)) off).isSome then some s
      else (reclaimFor s core (slotOf t) (.own off)).bind (fun s => takePreLocal s core (writerOf (slotOf t)) (s.ctxOf t) off)
    else some s)) (some s)

/-- Performs the oldest entry of a thread's store buffer, or answers none while its line is pending or owned (R186, R205).
A far entry is captured for staging. -/
def drainOne (s : State) (t : Nat) : Option State :=
  let th := s.thread t
  let core := coreOf t
  let die := dieOf core
  let ctx := s.ctxOf t
  match th.sb with
  | [] => none
  | e :: rest =>
    if e.far then
      (roomFor s die (core % 256) (stageLines [e.cells.length])).map (fun s =>
        let s := s.setThread t { th with sb := rest, sbStall := none }
        stage s t s.modnum e.ea.toNat (cellsAct e.cells).1 (cellsAct e.cells).2)
    else if e.cells.any (fun c => lineBusy s die ctx c.1) then none
    else if e.cells.any (fun c => decide (c.1 < 2 ^ 48) && (s.line die ctx (lineOf c.1)).isNone) then none
    else match retakePre s t e.cells with
      | none => none
      | some s =>
        let s := s.modThread t (fun th => { th with sb := rest, sbStall := none })
        let (s, cells) := storeEcc s die ctx e.cells
        some (pokeCells s die ctx cells)

/-- The head of a store buffer waits for a recalled line: counted once (R205). -/
def noteSbRecall (s : State) (t : Nat) : State :=
  let th := s.thread t
  match th.sb with
  | [] => s
  | e :: _ =>
    match e.cells.find? (fun c => lineBusy s (dieOf (coreOf t)) (s.ctxOf t) c.1) with
    | none => s
    | some c =>
      if th.sbStall = some (lineOf c.1) || decide (localWindow ≤ c.1 ∧ c.1 < dieWindow) then s
      else (s.setThread t { th with sbStall := some (lineOf c.1) }).count (s.ctxOf t) 45 1

/-- Drains as many entries as can drain, at most `n`. -/
def drainAll (t : Nat) : Nat → State → State
  | 0, s => s
  | n + 1, s =>
    match drainOne s t with
    | none => noteSbRecall s t
    | some s => drainAll t n s

/-- `DrainStoreBuffer()`: continues once the running thread's buffer is empty, and otherwise waits. -/
def State.withDrain (s : State) (k : State → State) : State :=
  let s := drainAll s.cur s.th.sb.length s
  if s.th.sb.isEmpty then k s else s

/-! ## Vector order (R144) -/

def VOp.isMem : VOp → Bool
  | .load _ => true
  | .store _ => true
  | _ => false

/-- Whether a vector memory entry queued before has not executed; those stopped under R166 do not count (DESIGN CHOICE, log
entry 69). -/
def Thread.vectorMem (th : Thread) : Bool := !th.vhalt && th.seq.awaits th.lc (fun e => e.op.isMem)

/-- Continues once every vector memory entry queued before has executed (R144). -/
def State.withVector (s : State) (k : State → State) : State := if s.th.vectorMem then s else k s

/-- Whether an operation draws from the PRNG (spec/03_numbers.md R72). -/
def VOp.draws : VOp → Bool
  | .cvt _ sr => sr
  | _ => false

/-- Whether a vector entry that draws from the PRNG, queued before, has not executed (spec/03_numbers.md R72). -/
def Thread.vectorDraws (th : Thread) : Bool := th.seq.awaits th.lc (fun e => e.op.draws)

/-- Continues once every drawing vector entry queued before has executed. -/
def State.withDraws (s : State) (k : State → State) : State := if s.th.vectorDraws then s else k s

/-! ## Page faults (R248, R252, R253) -/

/-- Tickets whose page is homed at a slice, over the threads of a die (R250). -/
def waitersAt (s : State) (die slice : Nat) : Nat :=
  (s.threads.filter (fun x => decide (dieOf (coreOf x.1) = die))).foldl
    (fun n x => n + (x.2.tickets.filter (fun k => decide (sliceOf (k.2 * 65536) = slice))).length) 0

/-- What writing a page request into its ring answers. -/
inductive RingAnswer where
  | written (s : State)
  /-- The ring has no room. -/
  | ringFull
  /-- A line of the ring finds no undo line. -/
  | versionFull (line : Nat)

/-- The address of a context's page-request ring on a die.  A PRQBASE whose valid bit is 0 names none (Table 10.13), and neither
does one whose ring leaves the context's allotment on the die (DESIGN CHOICE, log entry 71). -/
def prqRing (s : State) (die ctx : Nat) : Option Nat :=
  let b := (s.dctx die ctx).prqbase
  let base := wfld b 12 52 * 4096
  if b.getLsbD 0 && decide (dieAddr die 0 ≤ base) && inAllotment s die ctx (base - dieAddr die 0) 4096 then some base else none

/-- Writes one request into the ring at `base`.  The undo lines it takes are restored by an abort, and do not count in DMUNDO
(DEDUCED from spec/23_programs_machine.md R489, log entry 71). -/
def putRequest (s : State) (die base : Nat) (r : PageRequest) : RingAnswer :=
  let w := s.readWord base
  let tail := wfld w 0 7
  let head := wfld w 8 7
  if (tail + 1) % 127 = head then .ringFull
  else
    let a := base + 32 + 32 * tail
    match takeUndo s die (lineOf a) 0 with
    | none => .versionFull (lineOf a)
    | some s => match takeUndo s die (lineOf base) 0 with
      | none => .versionFull (lineOf base)
      | some s =>
        let s := s.writeWord a (word (identity s r.core r.slot).toNat)
        let s := s.writeWord (a + 8) r.fa
        let s := s.writeWord (a + 16) r.cause
        let s := s.writeWord (a + 24) (word r.ctx)
        let s := s.writeWord base (word (w.toNat - tail + (tail + 1) % 127))
        .written (s.dieEvent die 0)

/-- The thread whose request finds no undo line takes VERSION_FULL at the ring's line before its next instruction, once for
the request, which is held. -/
def ringVersionFull (s : State) (die : Nat) (r : PageRequest) (line : Nat) : State :=
  if r.told then s
  else
    (s.modDie die (fun d => { d with prqHeld := d.prqHeld.map (fun x => if x = r then { x with told := true } else x) })).modThread
      (tid r.core r.slot) (fun th => { th with pendVF := th.pendVF ++ [word line] })

/-- Appends a page request, or holds it behind those already held (R252). -/
def pageRequest (s : State) (die : Nat) (r : PageRequest) : State :=
  match prqRing s die r.ctx with
  | none => s
  | some base =>
    let hold := s.modDie die (fun d => { d with prqHeld := d.prqHeld ++ [r] })
    if (s.die die).prqHeld.any (fun x => x.ctx = r.ctx) then hold
    else match putRequest s die base r with
      | .written s => s
      | .ringFull => hold
      | .versionFull l => ringVersionFull hold die r l

/-- One held request of a die takes its place in the ring, those of a context in order (R252): `seen` names the contexts whose
first held request still waits.  One whose context has no ring any more is dropped (Table 10.13). -/
def retryRequests (s : State) (die : Nat) (seen : List Nat) : List PageRequest → State
  | [] => s
  | r :: rest =>
    if seen.contains r.ctx then retryRequests s die seen rest
    else
      let out (s : State) : State := s.modDie die (fun d => { d with prqHeld := d.prqHeld.erase r })
      match (prqRing s die r.ctx).map (fun base => putRequest s die base r) with
      | none => retryRequests (out s) die seen rest
      | some (.written s) => out s
      | some .ringFull => retryRequests s die (r.ctx :: seen) rest
      | some (.versionFull l) => retryRequests (ringVersionFull s die r l) die (r.ctx :: seen) rest

/-- What `Upcall` answers. -/
inductive UpcallAnswer where
  | entered (s : State)
  /-- The frame's line is pending or the store buffer is full: the fault waits. -/
  | waits
  /-- R253 sends the fault to S mode. -/
  | refused

/-- `Upcall` of R248, where R253 does not send the fault to S mode.  The frame store takes its place in the thread's store
buffer. -/
def upcall (s : State) (t : Nat) (fa pc resume : Word) (vec wr : Bool) : UpcallAnswer :=
  let th := s.thread t
  let core := coreOf t
  let slot := slotOf t
  let die := dieOf core
  let ctx := s.ctxOf t
  let cfg := (s.ctx ctx).upcfg
  let tn := wfld cfg 32 3
  let tb := wfld cfg 27 5
  let f := wfld cfg 6 10 * 64 + 64 * slot
  let us := [wfld cfg 40 5, wfld cfg 45 5, wfld cfg 50 5, wfld cfg 55 5]
  let slice := sliceOf fa.toNat
  if th.mode ≠ .u || decide (tn = 0) || th.upBusy || decide (localBytes < f + 64) then .refused
  else match ((List.range tn).map (fun i => tb + i)).find? (fun r => !th.tickets.any (fun k => k.1 = r)) with
    | none => .refused
    | some r =>
      if 64 ≤ waitersAt s die slice then .refused
      else match checkAccess s core slot .u ctx .write (2 ^ 64 - 65536 + f) with
        | .ok (.own off) =>
          if 16 ≤ th.sb.length then .waits
          else match takePre s t (.own off) with
          | .taken s =>
            let cause := word (5 + 256 * bit vec + 512 * bit wr + r * 2 ^ 16)
            let frame := [pc, cause, fa] ++ us.map (fun u => th.rg (BitVec.ofNat 5 u)) ++ [resume]
            let bytes := frame.flatMap (fun w => bytesOf 8 w.toNat)
            let at_ := word (2 ^ 64 - 65536 + f)
            let store : SbEntry :=
              { far := false, ea := at_, cells := (List.range 64).map (fun i => (localAddr core off + i, bytes.getD i 0)) }
            let s := s.ready t
            let s := s.modThread t (fun th =>
              let th := th.emptyG (BitVec.ofNat 5 r)
              let th := th.put (BitVec.ofNat 5 (us.getD 0 0)) at_
              { th with sb := th.sb ++ [store], tickets := th.tickets ++ [(r, fld fa.toNat 16 32)], upBusy := true,
                        pc := (s.ctx ctx).fibent, came := 0, cameBr := false, stall := none })
            let s := s.trace die ctx 5 (identity s core slot) fa
            .entered (pageRequest s die { ctx := ctx, core := core, slot := slot, fa := fa, cause := cause })
          | .wait => .waits
          | .full => .refused
        | _ => .refused

/-- A page fault of the running scalar instruction at `fa` (R248, R253, R167). -/
def State.pageFault (s : State) (fa : Word) (wr : Bool) : State :=
  if s.th.vectorBusy then s
  else match upcall s.issued s.cur fa s.th.pc s.th.pc false wr with
    | .entered s => s
    | .waits => drainAll s.cur s.th.sb.length s
    | .refused => s.raise 5 fa wr

end Sys2Proof.Machine
end

