-- ==== Sys2Proof/Machine/Operands.lean ====
section
/-! DEFINITION. The operand forms of scalar instructions: register results, transfers, and accesses to memory with their
checks in the order of spec/07_local_store.md R173 and spec/08_die_memory.md R193. -/

namespace Sys2Proof.Machine

open Sys2Proof

abbrev Result := Host.Outcome State Fault Refusal

/-- `op gd, ga, gb`: reads both, writes g[d], goes on (spec/05_issue.md R128). -/
def binary (f : Word → Word → Word) (d a b : BitVec 5) (s : State) : State :=
  s.withG [a, b] (fun s => (s.putG d (f (s.th.rg a) (s.th.rg b))).advance)

/-- `op gd, ga`. -/
def unary (f : Word → Word) (d a : BitVec 5) (s : State) : State :=
  s.withG [a] (fun s => (s.putG d (f (s.th.rg a))).advance)

/-- A conditional branch (R134): the offset counts halfwords. -/
def branch (taken : Word → Word → Bool) (a b : BitVec 5) (off : Word) (s : State) : State :=
  s.withG [a, b] (fun s => if taken (s.th.rg a) (s.th.rg b) then s.jump (s.th.pc + 2 * off) else s.advance)

/-- A scalar load at `ea` (R175): alignment, the checks of R173, then the bytes; `k` goes on with them. -/
def loadThen (ea : Word) (z : Nat) (s : State) (k : List Byte → State → State) : State :=
  if ea.toNat % z ≠ 0 then s.raise 3 ea false
  else match checkAccess s s.curCore s.curSlot s.th.mode s.curCtx .read ea.toNat with
    | .denied => s.deny ea false
    | .pageFault => s.pageFault (s.reach s.cur ea) false
    | .ok p =>
      match loadPlace s s.cur p z with
      | .bytes s bs => k bs s
      | .wait s => s
      | .full => s.raise 7 (p.fullAt (s.reach s.cur ea)) false
      | .damaged s' l => if s.th.vectorBusy then s else s'.raise 10 (word l) false

/-- A near or far store's entry (R175, R211): the cells reached. -/
def storeCells (core : Nat) (p : Place) (bs : List Byte) : List (Nat × Byte) :=
  (List.range bs.length).map (fun i => (p.loc core + i, bs.getD i 0))

/-- Appends a store to the running thread's store buffer. -/
def pushStore (p : Place) (ea : Word) (bs : List Byte) (s : State) : State :=
  s.modTh (fun th => { th with sb := th.sb ++ [{ far := !p.near, ea := s.reach s.cur ea, cells := storeCells s.curCore p bs }] })

/-- Obtains what a store at a checked place needs: the pre-image (R180, R196) or room to be staged (R291). -/
def storeRoom (p : Place) (n : Nat) (s : State) : PreAnswer :=
  if p.near then takePre s s.cur p
  else match stageRoom s s.cur n with
    | some s => .taken s
    | none => .full

/-- A scalar store at `ea` (R175); the stream is not ready while the store buffer is full (R211). -/
def storeThen (ea : Word) (bs : List Byte) (s : State) (k : State → State) : State :=
  if ea.toNat % bs.length ≠ 0 then s.raise 3 ea true
  else match checkAccess s s.curCore s.curSlot s.th.mode s.curCtx .write ea.toNat with
    | .denied => s.deny ea true
    | .pageFault => s.pageFault (s.reach s.cur ea) true
    | .ok p =>
      if 16 ≤ s.th.sb.length then s
      else match storeRoom p bs.length s with
        | .wait => s
        | .full => s.raise 7 (p.fullAt (s.reach s.cur ea)) true
        | .taken s => k (pushStore p ea bs s)

/-- `op gd, imm(ga)`: a scalar load of `z` bytes (R174). -/
def load (z : Nat) (signed : Bool) (d a : BitVec 5) (imm : Word) (s : State) : State :=
  s.withG [a] (fun s => s.withVector (fun s =>
    loadThen (s.th.rg a + imm) z s (fun bs s =>
      let x := ofBytes bs
      (s.putG d (if signed then (BitVec.ofNat (8 * z) x).signExtend 64 else word x)).advance)))

/-- `op gb, imm(ga)`: a scalar store of `z` bytes (R174). -/
def store (z : Nat) (a b : BitVec 5) (imm : Word) (s : State) : State :=
  s.withG [a, b] (fun s => s.withVector (fun s =>
    storeThen (s.th.rg a + imm) (bytesOf z (s.th.rg b).toNat) s (fun s => s.advance)))

end Sys2Proof.Machine
end

