-- ==== Sys2Proof/Machine/Flags.lean ====
section
/-! DEFINITION. Number formats, rounding and the flags of FFLAGS (spec/03_numbers.md R55-R81).  A finite value is held
exactly, and every result is rounded once by `roundFin`. -/

namespace Sys2Proof.Machine

open Sys2Proof

/-- The floating-point formats of Table 3.1. -/
inductive Fmt where
  | d | f | fp19 | h | bh | e4 | e5 | e2m3 | e3m2 | e2m1
  deriving DecidableEq, Repr

/-- Significand precision p. -/
def Fmt.p : Fmt → Nat
  | .d => 53 | .f => 24 | .fp19 => 11 | .h => 11 | .bh => 8 | .e4 => 4 | .e5 => 3 | .e2m3 => 4 | .e3m2 => 3 | .e2m1 => 2

/-- Width of the exponent field. -/
def Fmt.eb : Fmt → Nat
  | .d => 11 | .f => 8 | .fp19 => 8 | .h => 5 | .bh => 8 | .e4 => 4 | .e5 => 5 | .e2m3 => 2 | .e3m2 => 3 | .e2m1 => 2

def Fmt.bias : Fmt → Int
  | .d => 1023 | .f => 127 | .fp19 => 127 | .h => 15 | .bh => 127 | .e4 => 7 | .e5 => 15 | .e2m3 => 1 | .e3m2 => 3
  | .e2m1 => 1

def Fmt.emax : Fmt → Int
  | .d => 1023 | .f => 127 | .fp19 => 127 | .h => 15 | .bh => 127 | .e4 => 8 | .e5 => 15 | .e2m3 => 2 | .e3m2 => 4
  | .e2m1 => 2

def Fmt.emin (t : Fmt) : Int := 1 - t.bias
/-- Fraction width m. -/
def Fmt.m (t : Fmt) : Nat := t.p - 1
/-- Low bits of the word that hold nothing (FP19, R56). -/
def Fmt.pad : Fmt → Nat
  | .fp19 => 13
  | _ => 0
/-- Formats with infinities (Table 3.2). -/
def Fmt.hasInf : Fmt → Bool
  | .d | .f | .fp19 | .h | .bh | .e5 => true
  | _ => false
/-- Formats with NaN patterns. -/
def Fmt.hasNan : Fmt → Bool
  | .e2m3 | .e3m2 | .e2m1 => false
  | _ => true
/-- Significand of the largest finite value: all ones but in .e4, whose top pattern is NaN. -/
def Fmt.maxSig (t : Fmt) : Nat := if t = .e4 then 2 ^ t.p - 2 else 2 ^ t.p - 1

/-- A value: zero, finite (-1)^s × m × 2^e with m > 0, infinity, or a NaN with its fraction as a `w`-bit field. -/
inductive FVal where
  | zero (s : Bool)
  | fin (s : Bool) (m : Nat) (e : Int)
  | inf (s : Bool)
  | nan (s : Bool) (signalling : Bool) (frac w : Nat)
  deriving DecidableEq, Repr

/-- `Value` of R57 with the special patterns of Table 3.2. -/
def Fmt.decode (t : Fmt) (x : Nat) : FVal :=
  let x := x >>> t.pad
  let f := fld x 0 t.m
  let e := fld x t.m t.eb
  let s := x.testBit (t.m + t.eb)
  if t = .e4 ∧ e = 15 ∧ f = 7 then .nan s false f t.m
  else if t.hasInf ∧ e = 2 ^ t.eb - 1 then
    (if f = 0 then .inf s else .nan s (!f.testBit (t.m - 1)) f t.m)
  else if e = 0 then (if f = 0 then .zero s else .fin s f (t.emin - t.m))
  else .fin s (2 ^ t.m + f) ((e : Int) - t.bias - t.m)

/-- A pattern from its fields. -/
def Fmt.pack (t : Fmt) (s : Bool) (e f : Nat) : Nat := (bit s * 2 ^ (t.m + t.eb) + e * 2 ^ t.m + f) <<< t.pad

abbrev FFlags := BitVec 5
def flIx : FFlags := 1
def flUf : FFlags := 2
def flOf : FFlags := 4
def flDz : FFlags := 8
def flIv : FFlags := 16

/-- A result pattern with the flags its operation sets. -/
abbrev FRes := Nat × FFlags

/-- Rounding modes: fctl.rm and SR with its draw (R65). -/
inductive RMode where
  | rne | rdn | rup | rtz
  | sr (r : Nat)
  deriving DecidableEq, Repr

/-- fctl.rm (Table 3.4). -/
def RMode.ofRm (x : BitVec 2) : RMode :=
  match x.toNat with
  | 0 => .rne
  | 1 => .rdn
  | 2 => .rup
  | _ => .rtz

def Fmt.maxPat (t : Fmt) (s : Bool) : Nat := t.pack s (t.emax + t.bias).toNat (t.maxSig - 2 ^ t.m)
def Fmt.infPat (t : Fmt) (s : Bool) : Nat := t.pack s (2 ^ t.eb - 1) 0
def Fmt.zeroPat (t : Fmt) (s : Bool) : Nat := t.pack s 0 0

/-- An infinite result (R67): ±Inf, or the largest finite value with iv. -/
def Fmt.putInf (t : Fmt) (s : Bool) : FRes := if t.hasInf then (t.infPat s, 0) else (t.maxPat s, flIv)

/-- The default NaN (Table 3.2); a format without NaN gives +0 and iv (R67). -/
def Fmt.defNan (t : Fmt) (s : Bool) : FRes :=
  if t = .e4 then (t.pack s 15 7, 0)
  else if t.hasNan then (t.pack s (2 ^ t.eb - 1) (2 ^ (t.m - 1)), 0)
  else (0, flIv)

/-- A NaN operand carried to the destination, quieted (R67). -/
def Fmt.putNan (t : Fmt) (s : Bool) (frac w : Nat) : FRes :=
  if t = .e4 then (t.pack s 15 7, 0)
  else if t.hasNan then
    let f := if w ≤ t.m then frac <<< (t.m - w) else frac >>> (w - t.m)
    (t.pack s (2 ^ t.eb - 1) (f ||| 2 ^ (t.m - 1)), 0)
  else (0, flIv)

/-- The pattern of a finite m × 2^e that the format holds exactly. -/
def Fmt.packFin (t : Fmt) (s : Bool) (m : Nat) (e : Int) : Nat :=
  if m = 0 then t.zeroPat s
  else
    let top := (m.log2 : Int) + e
    if top < t.emin then t.pack s 0 (m <<< (e - (t.emin - t.m)).toNat)
    else
      let sh := e - (top - t.m)
      let sig := if 0 ≤ sh then m <<< sh.toNat else m >>> (-sh).toNat
      t.pack s (top + t.bias).toNat (sig - 2 ^ t.m)

/-- Overflow (R66, Table 3.7). -/
def Fmt.overflow (t : Fmt) (s : Bool) (mode : RMode) : FRes :=
  let toInf := t.hasInf && (match mode with
    | .rne => true
    | .rtz => false
    | .rdn => s
    | .rup => !s
    | .sr _ => true)
  (if toInf then t.infPat s else t.maxPat s, flOf ||| flIx)

/-- Floor(Log2(num ÷ den × 2^e)) for positive num and den. -/
def floorLog2 (num den : Nat) (e : Int) : Int :=
  let k : Int := (num.log2 : Int) - den.log2
  let below := if 0 ≤ k then decide (num < den <<< k.toNat) else decide (num <<< (-k).toNat < den)
  (if below then k - 1 else k) + e

/-- `RoundFin` (R65) of (-1)^s × num ÷ den × 2^e, with `k` significant bits. -/
def roundFin (t : Fmt) (mode : RMode) (k : Nat) (s : Bool) (num den : Nat) (e : Int) : FRes :=
  let top := floorLog2 num den e
  let qe := max (top - k + 1) (t.emin - t.p + 1)
  let n := if qe ≤ e then num <<< (e - qe).toNat else num
  let d := if qe ≤ e then den else den <<< (qe - e).toNat
  let lo := n / d
  let rem := n % d
  let up := match mode with
    | .rne => decide (d < 2 * rem) || (decide (2 * rem = d) && decide (lo % 2 = 1))
    | .rdn => s && decide (rem ≠ 0)
    | .rup => !s && decide (rem ≠ 0)
    | .rtz => false
    | .sr r => decide (2 ^ 32 ≤ rem * 2 ^ 32 / d + r)
  let lo := if up then lo + 1 else lo
  let ix := decide (rem ≠ 0) || up
  -- y > MaxFin, compared at the exponent of MaxFin's last bit
  let me := t.emax - t.m
  let tooBig := if me ≤ qe then decide (t.maxSig < lo <<< (qe - me).toNat) else decide (t.maxSig <<< (me - qe).toNat < lo)
  if tooBig then t.overflow s mode
  else
    let tiny := decide (lo = 0) || decide ((lo.log2 : Int) + qe < t.emin)
    (t.packFin s lo qe, (if ix then flIx else 0) ||| (if ix && tiny then flUf else 0))

/-- The sign of an exact zero sum (R67): kept when both are zeros of one sign, else + except under RDN, also for two zeros of
opposite sign, on which R67 is silent (DESIGN CHOICE, log entry 63). -/
def zeroSign (mode : RMode) (sa sb zeros : Bool) : Bool :=
  if zeros && sa == sb then sa else decide (mode = .rdn)

/-- A finite value as an integer times 2^e. -/
def signedSig (s : Bool) (m : Nat) : Int := if s then -(m : Int) else m

/-- x × 2^ex + y × 2^ey as an integer and its exponent. -/
def alignAdd (x : Int) (ex : Int) (y : Int) (ey : Int) : Int × Int :=
  if ex ≤ ey then (x + y * 2 ^ (ey - ex).toNat, ex) else (x * 2 ^ (ex - ey).toNat + y, ey)

/-- Rounds an integer × 2^e that is not zero. -/
def roundInt (t : Fmt) (mode : RMode) (k : Nat) (x : Int) (e : Int) : FRes :=
  roundFin t mode k (decide (x < 0)) x.natAbs 1 e

def FVal.isNan : FVal → Bool
  | .nan .. => true
  | _ => false
def FVal.isSig : FVal → Bool
  | .nan _ sg _ _ => sg
  | _ => false
def FVal.sign : FVal → Bool
  | .zero s => s
  | .fin s _ _ => s
  | .inf s => s
  | .nan s _ _ _ => s
/-- The negation of R80's -u[j].im; the sign of a NaN, on which the spec is silent, stays (DESIGN CHOICE, log entry 63). -/
def FVal.neg : FVal → FVal
  | .zero s => .zero (!s)
  | .fin s m e => .fin (!s) m e
  | .inf s => .inf (!s)
  | .nan s g f w => .nan s g f w
def FVal.isInf : FVal → Bool
  | .inf _ => true
  | _ => false
def FVal.isZero : FVal → Bool
  | .zero _ => true
  | _ => false

/-- The first NaN of the operands, quieted into the format; iv for a signalling operand or an invalid case met (R67). -/
def nanResult (t : Fmt) (xs : List FVal) (invalid : Bool) : Option FRes :=
  match xs.find? FVal.isNan with
  | some (.nan s _ f w) =>
    let r := t.putNan s f w
    some (r.1, r.2 ||| (if invalid || xs.any FVal.isSig then flIv else 0))
  | _ => none

/-- The default NaN with iv. -/
def Fmt.invalid (t : Fmt) : FRes := ((t.defNan false).1, flIv)

/-- Round(a + b) (R67). -/
def fadd (t : Fmt) (mode : RMode) (a b : FVal) : FRes :=
  match nanResult t [a, b] false with
  | some r => r
  | none =>
    match a, b with
    | .inf s, .inf s' => if s = s' then t.putInf s else t.invalid
    | .inf s, _ => t.putInf s
    | _, .inf s => t.putInf s
    | .zero s, .zero s' => (t.zeroPat (zeroSign mode s s' true), 0)
    | .zero _, .fin s m e => roundFin t mode t.p s m 1 e
    | .fin s m e, .zero _ => roundFin t mode t.p s m 1 e
    | .fin s m e, .fin s' m' e' =>
      let x := alignAdd (signedSig s m) e (signedSig s' m') e'
      if x.1 = 0 then (t.zeroPat (zeroSign mode s s' false), 0) else roundInt t mode t.p x.1 x.2
    | _, _ => t.invalid

/-- Round(a × b).  An exact zero product has the XOR of the operand signs (DESIGN CHOICE, log entry 63). -/
def fmul (t : Fmt) (mode : RMode) (a b : FVal) : FRes :=
  match nanResult t [a, b] false with
  | some r => r
  | none =>
    let s := a.sign != b.sign
    match a, b with
    | .inf _, .zero _ => t.invalid
    | .zero _, .inf _ => t.invalid
    | .inf _, _ => t.putInf s
    | _, .inf _ => t.putInf s
    | .fin _ m e, .fin _ m' e' => roundFin t mode t.p s (m * m') 1 (e + e')
    | _, _ => (t.zeroPat s, 0)

/-- Round(a ÷ b) (spec/06_vector.md R152). -/
def fdiv (t : Fmt) (mode : RMode) (a b : FVal) : FRes :=
  match nanResult t [a, b] false with
  | some r => r
  | none =>
    let s := a.sign != b.sign
    match a, b with
    | .zero _, .zero _ => t.invalid
    | .inf _, .inf _ => t.invalid
    | .inf _, _ => t.putInf s
    | _, .inf _ => (t.zeroPat s, 0)
    | .fin .., .zero _ => let r := t.putInf s; (r.1, r.2 ||| flDz)
    | .zero _, _ => (t.zeroPat s, 0)
    | .fin _ m e, .fin _ m' e' => roundFin t mode t.p s m m' (e - e')
    | _, _ => t.invalid

/-- `Fma(a, b, c)` (R68): one rounding of the exact a × b + c; an exact zero product has the XOR of the operand signs (DESIGN
CHOICE, log entry 63). -/
def fma (t : Fmt) (mode : RMode) (a b c : FVal) : FRes :=
  let s := a.sign != b.sign
  let zi := (a.isZero && b.isInf) || (a.isInf && b.isZero)
  let pinf := a.isInf || b.isInf
  let clash := pinf && !zi && !a.isNan && !b.isNan && decide (c = .inf (!s))
  match nanResult t [a, b, c] zi with
  | some r => r
  | none =>
    if zi || clash then t.invalid
    else if pinf then t.putInf s
    else match a, b, c with
      | _, _, .inf sc => t.putInf sc
      | .fin _ m e, .fin _ m' e', .zero _ => roundFin t mode t.p s (m * m') 1 (e + e')
      | .fin _ m e, .fin _ m' e', .fin sc mc ec =>
        let x := alignAdd (signedSig s (m * m')) (e + e') (signedSig sc mc) ec
        if x.1 = 0 then (t.zeroPat (zeroSign mode s sc false), 0) else roundInt t mode t.p x.1 x.2
      | _, _, .fin sc mc ec => roundFin t mode t.p sc mc 1 ec
      | _, _, .zero sc => (t.zeroPat (zeroSign mode s sc true), 0)
      | _, _, _ => t.invalid

/-- The exact a × b as an integer × 2^e, for operands that are finite or zero. -/
def exactMul (a b : FVal) : Int × Int :=
  match a, b with
  | .fin s m e, .fin s' m' e' => (signedSig (s != s') (m * m'), e + e')
  | _, _ => (0, 0)

/-- (n − a × b) × 2^-h rounded once: VRCPS with n = 2, h = 0 and VRSQRTS with n = 3, h = 1 (spec/06_vector.md Table 6.5).
The pairs (±0, ±Inf) give `n ÷ 2^h` with no flag. -/
def fstep (t : Fmt) (mode : RMode) (n : Nat) (h : Int) (a b : FVal) : FRes :=
  match nanResult t [a, b] false with
  | some r => r
  | none =>
    if (a.isZero && b.isInf) || (a.isInf && b.isZero) then roundFin t .rne t.p false n 1 (-h)
    else if a.isInf || b.isInf then t.putInf (a.sign == b.sign)
    else
      let ab := exactMul a b
      let x := alignAdd n 0 (-ab.1) ab.2
      if x.1 = 0 then (t.zeroPat (zeroSign mode false true false), 0) else roundInt t mode t.p x.1 (x.2 - h)

/-- Floor of the square root, deciding `i` bits from the top down. -/
def isqrt (n : Nat) : Nat → Nat → Nat
  | 0, r => r
  | i + 1, r => let c := r + 2 ^ i; if c * c ≤ n then isqrt n i c else isqrt n i r

/-- √(num ÷ den × 2^e) with 64 bits and more and a last bit that tells whether it is inexact, and its exponent. -/
def sqrtSticky (num den : Nat) (e : Int) : Nat × Int :=
  -- make the exponent even and scale the quotient to at least 2^140
  let sh : Nat := 140 + den.log2
  let e' := e - sh
  let (sh, e') := if e' % 2 = 0 then (sh, e') else (sh + 1, e' - 1)
  let n := num <<< sh
  let y := n / den
  let r := isqrt y (y.log2 / 2 + 1) 0
  let exact := decide (n % den = 0) && decide (r * r = y)
  (2 * r + bit (!exact), e' / 2 - 1)

/-- Round(√x) (R67). -/
def fsqrt (t : Fmt) (mode : RMode) (a : FVal) : FRes :=
  match nanResult t [a] false with
  | some r => r
  | none =>
    match a with
    | .zero s => (t.zeroPat s, 0)
    | .inf false => t.putInf false
    | .fin false m e => let r := sqrtSticky m 1 e; roundFin t mode t.p false r.1 1 r.2
    | _ => t.invalid

/-- Significant bits of VRCP and VRSQRT (spec/06_vector.md R153). -/
def Fmt.recipBits : Fmt → Nat
  | .f => 12 | .d => 14 | .h => 11 | .bh => 8 | .fp19 => 11 | .e4 => 4 | .e5 => 3 | .e2m3 => 4 | .e3m2 => 3 | .e2m1 => 2

/-- VRCP: 1 ÷ x under RNE with k significant bits (R153). -/
def frcp (t : Fmt) (a : FVal) : FRes :=
  match nanResult t [a] false with
  | some r => r
  | none =>
    match a with
    | .zero s => let r := t.putInf s; (r.1, r.2 ||| flDz)
    | .inf s => (t.zeroPat s, 0)
    | .fin s m e => roundFin t .rne t.recipBits s 1 m (-e)
    | _ => t.invalid

/-- VRSQRT: 1 ÷ √x under RNE with k significant bits (R153). -/
def frsqrt (t : Fmt) (a : FVal) : FRes :=
  match nanResult t [a] false with
  | some r => r
  | none =>
    match a with
    | .zero s => let r := t.putInf s; (r.1, r.2 ||| flDz)
    | .inf false => (t.zeroPat false, 0)
    | .fin false m e => let r := sqrtSticky 1 m (-e); roundFin t .rne t.recipBits false r.1 1 r.2
    | _ => t.invalid

/-- Order of two values that are not NaN, with −0 below +0: less. -/
def flt0 (a b : FVal) : Bool :=
  let key : FVal → Int × Int := fun v =>
    match v with
    | .zero s => (0, if s then -1 else 0)
    | .fin .. => (0, 0)
    | .inf _ => (0, 0)
    | .nan .. => (0, 0)
  match a, b with
  | .inf s, .inf s' => s && !s'
  | .inf s, _ => s
  | _, .inf s => !s
  | .zero _, .zero _ => decide ((key a).2 < (key b).2)
  | _, _ =>
    let x := match a with
      | .fin s m e => (signedSig s m, e)
      | _ => ((0 : Int), (0 : Int))
    let y := match b with
      | .fin s m e => (signedSig s m, e)
      | _ => ((0 : Int), (0 : Int))
    decide ((alignAdd x.1 x.2 (-y.1) y.2).1 < 0)

/-- Numeric order with −0 equal to +0. -/
def fltNum (a b : FVal) : Bool := flt0 a b && !(a.isZero && b.isZero)

/-- Lesser or greater of two patterns (R152): a when they are equal; a NaN gives the R67 result. -/
def fminmax (t : Fmt) (isMax : Bool) (x y : Nat) : FRes :=
  let a := t.decode x
  let b := t.decode y
  match nanResult t [a, b] false with
  | some r => r
  | none => (if (if isMax then flt0 a b else flt0 b a) then y else x, 0)

/-! ## Conversions (R69) -/

/-- Float to float. -/
def convFF (src dst : Fmt) (mode : RMode) (k : Nat) (x : Nat) : FRes :=
  match src.decode x with
  | .nan s g f w => let r := dst.putNan s f w; (r.1, r.2 ||| (if g then flIv else 0))
  | .inf s => dst.putInf s
  | .zero s => (dst.zeroPat s, 0)
  | .fin s m e => roundFin dst mode k s m 1 e

/-- Float to an integer in [lo, hi]. -/
def convFI (src : Fmt) (mode : RMode) (lo hi : Int) (x : Nat) : Int × FFlags :=
  match src.decode x with
  | .nan .. => (0, flIv)
  | .inf s => (if s then lo else hi, flIv)
  | .zero _ => (0, 0)
  | .fin s m e =>
    let n := if 0 ≤ e then m <<< e.toNat else m >>> (-e).toNat
    let rem := if 0 ≤ e then 0 else m % 2 ^ (-e).toNat
    let d := if 0 ≤ e then 1 else 2 ^ (-e).toNat
    let up := match mode with
      | .rne => decide (d < 2 * rem) || (decide (2 * rem = d) && decide (n % 2 = 1))
      | .rdn => s && decide (rem ≠ 0)
      | .rup => !s && decide (rem ≠ 0)
      | _ => false
    let v := signedSig s (if up then n + 1 else n)
    if v < lo then (lo, flIv) else if hi < v then (hi, flIv) else (v, if rem ≠ 0 then flIx else 0)

/-- Integer to float. -/
def convIF (dst : Fmt) (mode : RMode) (v : Int) : FRes :=
  if v = 0 then (dst.zeroPat false, 0) else roundInt dst mode dst.p v 0

/-! ## Router, amplitude and pairwise arithmetic (R79-R81) -/

/-- FP32 or BF16 add with every NaN result the default NaN. -/
def routerAdd (t : Fmt) (x y : Nat) : Nat :=
  let a := t.decode x
  let b := t.decode y
  if a.isNan || b.isNan then (t.defNan false).1 else (fadd t .rne a b).1

/-- The greater of two values, −0 below +0; NaN gives the default NaN. -/
def routerMax (t : Fmt) (x y : Nat) : Nat :=
  let a := t.decode x
  let b := t.decode y
  if a.isNan || b.isNan then (t.defNan false).1 else if flt0 a b then y else x

/-- `RouterOp` (R79). -/
def routerOp (op x y : Nat) : Nat :=
  match op with
  | 0 => routerAdd .f x y
  | 1 => routerAdd .bh x y
  | 2 => natOfInt 32 (satInt (sextInt 32 x + sextInt 32 y) (-2 ^ 31) (2 ^ 31 - 1))
  | _ => routerMax .f x y

/-- One level of `PairSum` (R81). -/
def pairLevel (t : Fmt) : List Nat → List Nat
  | x :: y :: l => (fadd t .rne (t.decode x) (t.decode y)).1 :: pairLevel t l
  | l => l

/-- `PairSum` over 2^n values, with the flags of its additions. -/
def pairSum (t : Fmt) : Nat → List Nat → Nat
  | 0, l => l.headD 0
  | n + 1, l => pairSum t n (pairLevel t l)

def pairFlags (t : Fmt) : List Nat → FFlags
  | x :: y :: l => (fadd t .rne (t.decode x) (t.decode y)).2 ||| pairFlags t l
  | _ => 0

def pairSumFlags (t : Fmt) : Nat → List Nat → FFlags
  | 0, _ => 0
  | n + 1, l => pairFlags t l ||| pairSumFlags t n (pairLevel t l)

/-- `PrngNext()` (R70): the new state. -/
def prngNext (x : BitVec 32) : BitVec 32 :=
  let x := x ^^^ (x <<< 13)
  let x := x ^^^ (x >>> 17)
  x ^^^ (x <<< 5)

end Sys2Proof.Machine
end

