-- ==== Sys2Proof/Machine/VectorAlu.lean ====
section
/-! DEFINITION. What the vector unit computes on the elements of registers and masks (spec/06_vector.md R140, R141,
R151-R158). -/

namespace Sys2Proof.Machine

open Sys2Proof

/-- Bytes of an element of a type code (spec/02_encoding.md Table 2.6). -/
def elemBytes (t : BitVec 4) : Nat :=
  match t.toNat with
  | 0 | 4 | 12 | 13 => 1
  | 1 | 5 | 8 | 9 => 2
  | 2 | 6 | 10 => 4
  | _ => 8

def isFloat (t : BitVec 4) : Bool := decide (8 ≤ t.toNat)
def isSigned (t : BitVec 4) : Bool := decide (t.toNat ≤ 3)

/-- The floating-point format of a type code 8-13. -/
def fmtOf (t : BitVec 4) : Fmt :=
  match t.toNat with
  | 8 => .h
  | 9 => .bh
  | 10 => .f
  | 11 => .d
  | 12 => .e4
  | _ => .e5

/-- Element `i` of `w` bytes. -/
def elem (v : VWord) (w i : Nat) : Nat := fld v.toNat (8 * w * i) (8 * w)

/-- A register with element `i` replaced. -/
def setElem (v : VWord) (w i x : Nat) : VWord :=
  (v &&& ~~~(BitVec.ofNat 512 ((2 ^ (8 * w) - 1) <<< (8 * w * i)))) |||
    BitVec.ofNat 512 ((x % 2 ^ (8 * w)) <<< (8 * w * i))

/-- Whether element `i` is active under a mask (R141). -/
def active (m : Word) (w i : Nat) : Bool := m.getLsbD (i * w)

/-- Active element indices, ascending. -/
def actives (m : Word) (w : Nat) : List Nat := (List.range (64 / w)).filter (fun i => active m w i)

/-- Writes `f i` to each active element and gathers flags. -/
def mapActive (m : Word) (w : Nat) (old : VWord) (f : Nat → FRes) : VWord × FFlags :=
  (actives m w).foldl (fun acc i => let r := f i; (setElem acc.1 w i r.1, acc.2 ||| r.2)) (old, 0)

/-- An element as the integer its type reads it as (R151). -/
def elemInt (t : BitVec 4) (x : Nat) : Int := if isSigned t then sextInt (8 * elemBytes t) x else x

/-- Least and greatest value of an integer type. -/
def typeMin (t : BitVec 4) : Int := if isSigned t then -2 ^ (8 * elemBytes t - 1) else 0
def typeMax (t : BitVec 4) : Int :=
  if isSigned t then 2 ^ (8 * elemBytes t - 1) - 1 else 2 ^ (8 * elemBytes t) - 1

/-- Table 6.4 on two elements. -/
def intElem (op : VIntOp) (t : BitVec 4) (x y : Nat) : Nat :=
  let w := 8 * elemBytes t
  let a := elemInt t x
  let b := elemInt t y
  match op with
  | .add => natOfInt w (a + b)
  | .sub => natOfInt w (a - b)
  | .mul => natOfInt w (a * b)
  | .mulh => natOfInt w (a * b / 2 ^ w)
  | .and => x &&& y
  | .or => x ||| y
  | .xor => x ^^^ y
  | .andn => x &&& (2 ^ w - 1 - y)
  | .sll => (x <<< (y % w)) % 2 ^ w
  | .srl => x >>> (y % w)
  | .sra => natOfInt w (sextInt w x / 2 ^ (y % w))
  | .min => if a < b then x else y
  | .max => if b < a then x else y
  | .adds => natOfInt w (satInt (a + b) (typeMin t) (typeMax t))
  | .subs => natOfInt w (satInt (a - b) (typeMin t) (typeMax t))

/-- Table 6.5 on elements a, b and the old destination c. -/
def fpElem (op : VFpOp) (t : Fmt) (mode : RMode) (x y z : Nat) : FRes :=
  let a := t.decode x
  let b := t.decode y
  let c := t.decode z
  match op with
  | .add => fadd t mode a b
  | .sub => fadd t mode a b.neg
  | .mul => fmul t mode a b
  | .div => fdiv t mode a b
  | .min => fminmax t false x y
  | .max => fminmax t true x y
  | .rcps => fstep t mode 2 0 a b
  | .rsqrts => fstep t mode 3 1 a b
  | .fma => fma t mode a b c
  | .fms => fma t mode a b c.neg
  | .fnma => fma t mode a.neg b c
  | .fnms => fma t mode a.neg b c.neg

/-- Whether a comparison holds, and its flags (R155). -/
def cmpElem (op : VCmpOp) (t : BitVec 4) (x y : Nat) : Bool × FFlags :=
  if isFloat t then
    let a := (fmtOf t).decode x
    let b := (fmtOf t).decode y
    let nan := a.isNan || b.isNan
    let sig := a.isSig || b.isSig
    let eq := !nan && !fltNum a b && !fltNum b a
    match op with
    | .eq => (eq, if sig then flIv else 0)
    | .ne => (!eq, if sig then flIv else 0)
    | .lt => (!nan && fltNum a b, if nan then flIv else 0)
    | .le => (!nan && (fltNum a b || eq), if nan then flIv else 0)
  else
    let a := elemInt t x
    let b := elemInt t y
    match op with
    | .eq => (decide (a = b), 0)
    | .ne => (decide (a ≠ b), 0)
    | .lt => (decide (a < b), 0)
    | .le => (decide (a ≤ b), 0)

/-- Sets or clears `w` mask bits from bit `i × w`. -/
def setMaskBits (m : Word) (w i : Nat) (b : Bool) : Word :=
  let field : Word := word ((2 ^ w - 1) <<< (i * w))
  if b then m ||| field else m &&& ~~~field

/-- R153 on one element. -/
def specElem (op : VSpecOp) (t : BitVec 4) (mode : RMode) (x : Nat) : FRes :=
  let w := 8 * elemBytes t
  match op with
  | .rcp => frcp (fmtOf t) ((fmtOf t).decode x)
  | .rsqrt => frsqrt (fmtOf t) ((fmtOf t).decode x)
  | .sqrt => fsqrt (fmtOf t) mode ((fmtOf t).decode x)
  | .abs => (if isFloat t then x % 2 ^ (w - 1) else natOfInt w (elemInt t x).natAbs, 0)
  | .neg => (if isFloat t then x ^^^ 2 ^ (w - 1) else natOfInt w (-elemInt t x), 0)
  | .mov => (x, 0)

/-- R69 on one element, of a source type into a target type. -/
def cvtElem (src dst : BitVec 4) (mode : RMode) (x : Nat) : FRes :=
  let wd := 8 * elemBytes dst
  if isFloat src then
    if isFloat dst then convFF (fmtOf src) (fmtOf dst) mode (fmtOf dst).p x
    else let r := convFI (fmtOf src) mode (typeMin dst) (typeMax dst) x; (natOfInt wd r.1, r.2)
  else if isFloat dst then convIF (fmtOf dst) mode (elemInt src x)
  else (natOfInt wd (satInt (elemInt src x) (typeMin dst) (typeMax dst)), 0)

/-- VCVT (R154): the new destination, the flags and the PRNG state after its draws. -/
def cvtReg (src dst : BitVec 4) (sr : Bool) (rm : BitVec 2) (m : Word) (va old : VWord) (prng : BitVec 32) :
    VWord × FFlags × BitVec 32 :=
  let ws := elemBytes src
  let wd := elemBytes dst
  let n := 64 / max ws wd
  ((List.range n).filter (fun i => active m wd i)).foldl (fun acc i =>
    let prng := if sr then prngNext acc.2.2 else acc.2.2
    let mode := if sr then RMode.sr prng.toNat else RMode.ofRm rm
    let r := cvtElem src dst mode (elem va ws i)
    (setElem acc.1 wd i r.1, acc.2.1 ||| r.2, prng)) (old, 0, prng)

/-- Fold of a list of float patterns to the least or greatest, NaN by R157. -/
def redFloat (t : Fmt) (isMax : Bool) (l : List Nat) : FRes :=
  match nanResult t (l.map t.decode) false with
  | some r => r
  | none =>
    match l with
    | [] => (t.infPat isMax, 0)
    | x :: l => (l.foldl (fun acc y => (fminmax t isMax acc y).1) x, 0)

/-- R157: the value of element 0. -/
def redElem (op : VRedOp) (t : BitVec 4) (m : Word) (va : VWord) : FRes :=
  let w := elemBytes t
  let xs := (actives m w).map (fun i => elem va w i)
  if isFloat t then
    let f := fmtOf t
    match op with
    | .sum =>
      let all := (List.range (64 / w)).map (fun i => if active m w i then elem va w i else f.zeroPat true)
      let lg := (64 / w).log2
      (pairSum f lg all, pairSumFlags f lg all)
    | .min => redFloat f false xs
    | _ => redFloat f true xs
  else
    let w8 := 8 * w
    match op with
    | .sum => (xs.foldl (fun a x => (a + x) % 2 ^ w8) 0, 0)
    | .min => (natOfInt w8 (xs.foldl (fun a x => min a (elemInt t x)) (typeMax t)), 0)
    | .max => (natOfInt w8 (xs.foldl (fun a x => max a (elemInt t x)) (typeMin t)), 0)
    | .and => (xs.foldl (fun a x => a &&& x) (2 ^ w8 - 1), 0)
    | .or => (xs.foldl (fun a x => a ||| x) 0, 0)
    | .xor => (xs.foldl (fun a x => a ^^^ x) 0, 0)

/-- Counter index of a float type (spec/20_accounting.md Table 20.1). -/
def fmtCounter (t : BitVec 4) : Nat := 20 + (t.toNat - 8)

end Sys2Proof.Machine
end

