-- ==== Sys2Proof/Machine/VectorUnit.lean ====
section
/-! DEFINITION. The vector stream: which entry executes next, what one entry does, and its traps (spec/06_vector.md R142-R167). -/

namespace Sys2Proof.Machine

open Sys2Proof

/-! ## Traps of the vector stream (R164-R166) -/

/-- The PC of the next scalar instruction to issue (R165): a SLEEP or WFI that waits has issued. -/
def Thread.nextPc (th : Thread) : Word :=
  if th.st = .parked ∧ (th.wait = .sleep ∨ th.wait = .wfi) then th.parkNpc else th.pc

/-- A stream-precise trap of the head entry `e` at element `el`. -/
def vectorTrap (s : State) (t code : Nat) (fa : Word) (wr : Bool) (e : VEntry) (el : Nat) : State :=
  let th := s.thread t
  if th.image.isSome then
    enterTrap (s.modThread t (fun th => { th with vhalt := true })) t code fa th.nextPc true wr false true
  else
    let aside (s : State) : State := s.modThread t (fun th =>
      let k := match th.seq.frames with
        | f :: _ => th.seq.bodyIdx f.marker th.seq.pos
        | [] => 0
      { th with image := some { seq := th.seq, lc := th.lc }, seq := Seq.empty, vepc := evenPc e.pc,
                vtElem := BitVec.ofNat 6 el, vtLvl := BitVec.ofNat 2 th.seq.frames.length,
                vtEntry := BitVec.ofNat 4 k, arr := none })
    match (if code = 5 then upcall s t fa e.pc th.nextPc true wr else .refused) with
    | .entered s => aside s
    | .waits => drainAll t th.sb.length s
    | .refused =>
      let s' := enterTrap s t code fa th.nextPc true wr false false
      if (s'.thread t).st = .stopped then s' else aside s'

/-! ## Vector memory (R159, R160) -/

/-- The active elements of an access with their addresses, ascending. -/
def elemAddrs (form : VMemOp) (w : Nat) (m : Word) (base stride : Word) (vb : VWord) : List (Nat × Word) :=
  (actives m w).map (fun i =>
    (i, match form with
      | .unit => base + word (i * w)
      | .queued => base + word (i * w)
      | .strided => base + word i * stride
      | .indexed => base + BitVec.ofInt 64 (sextInt (8 * w) (elem vb w i))))

/-- The checks of R173 on one element: its place, or a cause code. -/
def elemCheck (s : State) (t : Nat) (use : Use) (w : Nat) (ea : Word) : Place ⊕ Nat :=
  if ea.toNat % w ≠ 0 then .inr 3
  else match checkAccess s (coreOf t) (slotOf t) (s.thread t).mode (s.ctxOf t) use ea.toNat with
    | .ok p => .inl p
    | .denied => .inr 4
    | .pageFault => .inr 5

/-- What the elements of a vector access come to. -/
inductive ElemsAnswer (α : Type) where
  | all (s : State) (x : α)
  | wait (s : State)
  /-- A trap: cause code, fault address, element. -/
  | trap (s : State) (code : Nat) (fa : Word) (el : Nat)

/-- Checks every element in order. -/
def elemsCheck (s : State) (t : Nat) (use : Use) (w : Nat) :
    List (Nat × Word) → List (Nat × Word × Place) → ElemsAnswer (List (Nat × Word × Place))
  | [], acc => .all s acc.reverse
  | (i, ea) :: rest, acc =>
    match elemCheck s t use w ea with
    | .inr c => .trap (if c = 4 then s.deniedUse t ea else s) c (if c = 3 then ea else s.reach t ea) i
    | .inl p => elemsCheck s t use w rest ((i, ea, p) :: acc)

/-- Loads every element. -/
def elemsLoad (t w : Nat) : List (Nat × Word × Place) → State → List (Nat × Nat) → ElemsAnswer (List (Nat × Nat))
  | [], s, acc => .all s acc.reverse
  | (i, ea, p) :: rest, s, acc =>
    match loadPlace s t p w with
    | .bytes s bs => elemsLoad t w rest s ((i, ofBytes bs) :: acc)
    | .wait s => .wait s
    | .full => .trap s 7 (p.fullAt (s.reach t ea)) i
    | .damaged s l => .trap s 10 (word l) i

/-- One element's store as an entry, at the address that its access reaches. -/
def elemEntry (s : State) (t w : Nat) (data : VWord) (x : Nat × Word × Place) : SbEntry :=
  { far := !x.2.2.near, ea := s.reach t x.2.1
    cells := (List.range w).map (fun i =>
      (x.2.2.loc (coreOf t) + i, byteAt data (x.1 * w + i))) }

/-- The line an entry reaches. -/
def SbEntry.line (x : SbEntry) : Option Nat := (x.cells.head?).map (fun c => lineOf c.1)

/-- Adds an element to the entry of its line; a scatter's element, and the first of a line, take an entry of their own (R211:
one entry for each 64 B line). -/
def joinEntry (scatter : Bool) : List SbEntry → SbEntry → List SbEntry
  | [], e => [e]
  | p :: rest, e =>
    if !scatter && p.far == e.far && p.line == e.line then
      { p with ea := if e.ea.toNat < p.ea.toNat then e.ea else p.ea, cells := p.cells ++ e.cells } :: rest
    else p :: joinEntry scatter rest e

/-- The entries of a vector store, in the order of their first elements. -/
def joinEntries (scatter : Bool) (l : List SbEntry) : List SbEntry := l.foldl (joinEntry scatter) []

/-- Obtains every pre-image, and room for the far entries, before any write (R160, R180); `es` are the entries of the elements
passed. -/
def elemsRoom (t w : Nat) (scatter : Bool) (data : VWord) :
    List (Nat × Word × Place) → List SbEntry → State → ElemsAnswer Unit
  | [], _, s => .all s ()
  | (i, ea, p) :: rest, es, s =>
    let es := joinEntry scatter es (elemEntry s t w data (i, ea, p))
    if p.near then
      match takePre s t p with
      | .taken s => elemsRoom t w scatter data rest es s
      | .wait => .wait s
      | .full => .trap s 7 (p.fullAt (s.reach t ea)) i
    else match stageRooms s t ((es.filter (·.far)).map (fun e => e.cells.length)) with
      | some s => elemsRoom t w scatter data rest es s
      | none => .trap s 7 (s.reach t ea) i

/-! ## One entry -/

/-- Value of a captured operand; an absent one is still awaited. -/
def Capture.get : Capture → Option Word
  | Capture.none => some 0
  | Capture.val w => some w
  | Capture.wait _ => Option.none

/-- What executing an entry comes to. -/
inductive EntryAnswer where
  | done (s : State)
  | wait (s : State)
  | trap (s : State) (code : Nat) (fa : Word) (wr : Bool) (el : Nat)

/-- The bytes that an entry writes of v[d] under a mask: the width of a lane, and the lanes. -/
def VEntry.lanes (e : VEntry) (m : Word) : Nat × List Nat :=
  let w := elemBytes e.t
  match e.op with
  | .cvt g _ => (elemBytes g, (List.range (64 / max w (elemBytes g))).filter (fun i => active m (elemBytes g) i))
  | .red _ => (w, [0])
  | .merge => (w, List.range (64 / w))
  | .int _ | .fp _ | .spec _ | .perm | .slide | .bcast | .load _ | .qpop => (w, actives m w)
  | _ => (w, [])

/-- Bytes of word `k` of v[d] that an entry writes. -/
def VEntry.wordBytes (e : VEntry) (m : Word) (k : Nat) : Nat :=
  ((List.range 8).filter (fun b => (e.lanes m).2.contains ((8 * k + b) / (e.lanes m).1))).length

/-- The register words an entry reads (R444): its vector registers, its mask, the mask registers it combines, those words of its
destination of which it writes a part, and the counts of the loops that run. -/
def VEntry.words (e : VEntry) (th : Thread) : List Nat :=
  let m := th.rm_ e.m
  let combined : List Nat := match e.op with
    | .mand | .mor | .mxor => maskWords (e.a.setWidth 3) ++ maskWords (e.b.setWidth 3)
    | .mnot | .mpopc | .mfirst => maskWords (e.a.setWidth 3)
    | .cmp _ => if (actives m (elemBytes e.t)).length = 64 / elemBytes e.t then [] else maskWords (e.d.setWidth 3)
    | _ => []
  (VOp.reads e).flatMap vWords ++ maskWords e.m ++ combined ++
    ((List.range 8).filter (fun k => decide (0 < e.wordBytes m k) && decide (e.wordBytes m k < 8))).map (fun k => 32 + e.d.toNat + 256 * k) ++
    th.seq.frames.filterMap (fun f => (th.seq.loopAt f.marker).map (fun l => loopWord l.level))

/-- Writes v[d] and raises flags. -/
def writeV (s : State) (t : Nat) (e : VEntry) (x : VWord) (fl : FFlags) : State :=
  let empty := !(s.thread t).fullV e.d
  let s := s.modThread t (fun th =>
    { th.wv e.d x (fun k => decide (e.wordBytes (th.rm_ e.m) k = 8)) with fflags := th.fflags ||| fl })
  if empty then s.wakeWfi t else s

/-- Pushes words into q2 or q3 and wakes a stream that waits for them (R90, R441). -/
def pushQ (s : State) (t : Nat) (q : BitVec 2) (ws : List Word) : State :=
  ((s.modThread t (fun th => th.setQueue q (th.queue q ++ ws))).wake t).wakeWfi t

/-- Pops q0 or q1 and wakes a stream that waits for room. -/
def popQ (s : State) (t : Nat) (q : BitVec 2) : State :=
  (s.modThread t (fun th => th.setQueue q (th.queue q).tail)).wake t

/-- Adds the operation counts of Table 20.1 for a float entry. -/
def countFloat (s : State) (t : Nat) (ty : BitVec 4) (n : Nat) : State :=
  if isFloat ty then s.count (s.ctxOf t) (fmtCounter ty) n else s

/-- Executes a load (R160) at base `A`. -/
def runLoad (s : State) (t : Nat) (e : VEntry) (form : VMemOp) (base stride : Word) : EntryAnswer :=
  let th := s.thread t
  let w := elemBytes e.t
  match elemsCheck s t .read w (elemAddrs form w (th.rm_ e.m) base stride (th.rv e.b)) [] with
  | .trap s c fa el => .trap s c fa false el
  | .wait s => .wait s
  | .all s l =>
    match elemsLoad t w l s [] with
    | .trap s c fa el => .trap s c fa false el
    | .wait s => .wait s
    | .all s vs => .done (writeV s t e (vs.foldl (fun v x => setElem v w x.1 x.2) (th.rv e.d)) 0)

/-- Executes a store (R160).  One that writes more lines than the store buffer has entries goes once the buffer is empty, and the
buffer then holds its entries (DESIGN CHOICE, log entry 41: R211 would let it never issue). -/
def runStore (s : State) (t : Nat) (e : VEntry) (form : VMemOp) (base stride : Word) : EntryAnswer :=
  let th := s.thread t
  let w := elemBytes e.t
  match elemsCheck s t .write w (elemAddrs form w (th.rm_ e.m) base stride (th.rv e.b)) [] with
  | .trap s c fa el => .trap s c fa true el
  | .wait s => .wait s
  | .all s l =>
    let es := joinEntries (decide (form = .indexed)) (l.map (elemEntry s t w (th.rv e.d)))
    if 16 < th.sb.length + min es.length 16 then .wait s
    else match elemsRoom t w (decide (form = .indexed)) (th.rv e.d) l [] s with
      | .trap s c fa el => .trap s c fa true el
      | .wait s => .wait s
      | .all s _ => .done (s.modThread t (fun th => { th with sb := th.sb ++ es }))

/-- Executes one entry whose captures are present (R151-R161). -/
def runEntry (s : State) (t : Nat) (e : VEntry) (ca cb : Word) : EntryAnswer :=
  let th := s.thread t
  let w := elemBytes e.t
  let m := th.rm_ e.m
  let va := th.rv e.a
  let vb := th.rv e.b
  let vd := th.rv e.d
  let mode := RMode.ofRm e.rm
  let n := (actives m w).length
  match e.op with
  | .int op =>
    .done (writeV s t e (mapActive m w vd (fun i => (intElem op e.t (elem va w i) (elem vb w i), 0))).1 0)
  | .fp op =>
    let r := mapActive m w vd (fun i => fpElem op (fmtOf e.t) mode (elem va w i) (elem vb w i) (elem vd w i))
    let k := (match op with
      | .fma => 2
      | .fms => 2
      | .fnma => 2
      | .fnms => 2
      | _ => 1)
    .done (countFloat (writeV s t e r.1 r.2) t e.t (k * n))
  | .cmp op =>
    let md : BitVec 3 := e.d.setWidth 3
    let r := (actives m w).foldl (fun acc i =>
      let x := cmpElem op e.t (elem va w i) (elem vb w i)
      (setMaskBits acc.1 w i x.1, acc.2 ||| x.2)) (th.rm_ md, (0 : FFlags))
    .done (countFloat (s.modThread t (fun th => { th.wm md r.1 with fflags := th.fflags ||| r.2 })) t e.t n)
  | .cvt g sr =>
    let r := cvtReg e.t g sr e.rm m va vd th.prng
    let wd := elemBytes g
    let k := ((List.range (64 / max w wd)).filter (fun i => active m wd i)).length
    let s := writeV s t e r.1 r.2.1
    let s := s.modThread t (fun th => { th with prng := r.2.2 })
    .done (countFloat s t (if isFloat g then g else e.t) k)
  | .spec op =>
    let r := mapActive m w vd (fun i => specElem op e.t mode (elem va w i))
    let s := writeV s t e r.1 r.2
    .done (match op with
      | .rcp => countFloat s t e.t n
      | .rsqrt => countFloat s t e.t n
      | .sqrt => countFloat s t e.t n
      | _ => s)
  | .red op =>
    let r := redElem op e.t m va
    .done (countFloat (writeV s t e (setElem vd w 0 r.1) r.2) t e.t (if op = .sum then 64 / w - 1 else n))
  | .perm =>
    .done (writeV s t e (mapActive m w vd (fun i => (elem va w (elem vb w i % (64 / w)), 0))).1 0)
  | .slide =>
    .done (writeV s t e (mapActive m w vd (fun i =>
      let j : Int := i + cb.toInt
      ((if 0 ≤ j ∧ j < (64 / w : Nat) then elem va w j.toNat else 0), 0))).1 0)
  | .bcast => .done (writeV s t e (mapActive m w vd (fun _ => (ca.toNat, 0))).1 0)
  | .merge =>
    .done (writeV s t e ((List.range (64 / w)).foldl (fun v i =>
      setElem v w i (if active m w i then elem va w i else elem vb w i)) vd) 0)
  | .load form =>
    (match form with
     | .queued =>
       let q := qIdx e.a
       (match e.popped, th.queue q with
        | some p, _ => runLoad s t e form p 0
        | none, [] => .wait s
        | none, p :: _ =>
          (match runLoad s t e form p 0 with
           | .done s => .done (popQ s t q)
           | x => x))
     | _ => runLoad s t e form ca cb)
  | .store form => runStore s t e form ca cb
  | .storeQueue =>
    let q := qIdx e.a
    if (th.queue q).isEmpty then .done (pushQ s t q ((List.range 8).map (fun i => word (elem vd 8 i)))) else .wait s
  | .mand => .done (s.modThread t (fun th => th.wm (e.d.setWidth 3) (th.rm_ (e.a.setWidth 3) &&& th.rm_ (e.b.setWidth 3))))
  | .mor => .done (s.modThread t (fun th => th.wm (e.d.setWidth 3) (th.rm_ (e.a.setWidth 3) ||| th.rm_ (e.b.setWidth 3))))
  | .mxor => .done (s.modThread t (fun th => th.wm (e.d.setWidth 3) (th.rm_ (e.a.setWidth 3) ^^^ th.rm_ (e.b.setWidth 3))))
  | .mnot => .done (s.modThread t (fun th => th.wm (e.d.setWidth 3) (~~~(th.rm_ (e.a.setWidth 3)))))
  | .mpopc =>
    let q := qIdx e.d
    if (th.queue q).length < 8 then .done (pushQ s t q [word (popcount 64 (th.rm_ (e.a.setWidth 3)).toNat)]) else .wait s
  | .mfirst =>
    let q := qIdx e.d
    if (th.queue q).length < 8 then
      .done (pushQ s t q [word (((bitsSet 64 (th.rm_ (e.a.setWidth 3)).toNat).head?).getD 64)])
    else .wait s
  | .qpush =>
    let q := qIdx e.d
    if (th.queue q).length < 8 then
      .done (pushQ s t q [if isSigned e.t then BitVec.ofInt 64 (sextInt (8 * w) (elem va w 0)) else word (elem va w 0)])
    else .wait s
  | .qpop =>
    let q := qIdx e.a
    (match th.queue q with
     | [] => .wait s
     | x :: _ => .done (popQ (writeV s t e (mapActive m w vd (fun _ => (x.toNat, 0))).1 0) t q))

/-- The queue entry that a faulted VLDQ has already popped leaves the queue and stays with the entry (R165). -/
def keepPopped (s : State) (t : Nat) (e : VEntry) : State :=
  match e.op with
  | .load .queued =>
    (match e.popped, (s.thread t).queue (qIdx e.a) with
     | none, p :: _ =>
       (popQ s t (qIdx e.a)).modThread t (fun th =>
         { th with seq := { th.seq with items := th.seq.items.set th.seq.pos (.entry { e with popped := some p }) } })
     | _, _ => s)
  | _ => s

/-- One issue of the vector stream: the slot moves to the end of its order and SLOTCY counts (R117, R119). -/
def vectorIssued (s : State) (t : Nat) : State :=
  let core := coreOf t
  let s := s.modCore core (fun c => { c with vOrder := rotate c.vOrder (slotOf t) })
  let s := s.count (s.ctxOf t) 32 1
  if 8 ≤ slotOf t then
    match (s.core core).hold with
    | some x => s.count x 34 1
    | none => s
  else s

/-- The head entry of a slot's vector stream with its captured values, where the thread runs or drains, the stream is not stopped
under R166, the registers it reads are full, and no latency or unit stalls it (R143). -/
def headEntry (s : State) (core slot : Nat) (stalled : BitVec 10) : Option (VEntry × Word × Word) :=
  let th := s.thread (tid core slot)
  if (decide (th.st = .ready) || decide (th.st = .parked) || decide (th.st = .halted)) && !th.vhalt && !stalled.getLsbD slot then
    match th.seq.items[th.seq.pos]? with
    | some (.entry e) =>
      (match e.ca.get, e.cb.get with
       | some ca, some cb => if (VOp.reads e).all (fun r => th.fullV r) then some (e, ca, cb) else none
       | _, _ => none)
    | _ => none
  else none

/-- Whether a vector stream is ready in a cycle (R143): its head entry executes or traps, rather than wait for a queue's entry or
space, for room in the store buffer, or for a line of memory. -/
def vectorReady (s : State) (core slot : Nat) (stalled : BitVec 10) : Bool :=
  match headEntry s core slot stalled with
  | none => false
  | some (e, ca, cb) => match runEntry s (tid core slot) e ca cb with
    | .wait _ => false
    | _ => true

/-- The slots ahead of a slot in an issue order, owners for an owner and banks for a sash bank. -/
def aheadOf (order : List Nat) (slot : Nat) : List Nat :=
  (order.takeWhile (fun x => x ≠ slot)).filter (fun x => decide (x < 8) == decide (slot < 8))

/-- Whether the vector stream of a slot uses the vector issue slot (R117): the first ready owner in the order, or, where no
owner is ready and the core lends (spec/16_harvest.md R409, R411), the first ready sash bank. -/
def mayVector (s : State) (core slot : Nat) (stalled : BitVec 10) : Bool :=
  vectorReady s core slot stalled &&
    (decide (slot < 8) || (!(s.core core).recalled && (List.range 8).all (fun k => !vectorReady s core k stalled))) &&
    (aheadOf (s.core core).vOrder slot).all (fun k => !vectorReady s core k stalled)

/-- Reads the check bits of the sequencer word of the head entry, of the registers it reads and of a queue it pops (R444): goes
on, or the entry traps with the fault address of R435, which is free for a word of another kind (log entry 62). -/
def entryEcc (s : State) (t : Nat) (e : VEntry) (k : State → State) : State :=
  let th := s.thread t
  let word_ (x : Ecc) (clear : Thread → Thread) (s : State) (k : State → State) : State :=
    match x with
    | .sound => k s
    | .correctable => k ((s.modThread t clear).countCor (dieOf (coreOf t)))
    | .uncorrectable =>
      (vectorTrap (threadUnc (s.modThread t clear) t) t 10 (freeWord s.free) false e 0).tookFree
  let regs := e.words th
  word_ th.seqEcc (fun th => { th with seqEcc := .sound }) s (fun s =>
    word_ (if e.op.popsQueue then th.qEcc else .sound) (fun th => { th with qEcc := .sound }) s (fun s =>
      if regs.all (fun n => th.hurt n = none) then k s
      else match regs.find? (fun n => th.hurt n = some true) with
        | some n => (vectorTrap (threadUnc s t) t 10 (regFault s n) false e 0).tookFree
        | none => k (mendRegs s t regs)))

/-- A turn of the vector issue slot for a slot: the head entry executes if the stream is ready and has its turn (R117, R143); what
a stream that is not ready waits for, it asks for. -/
def vectorTurn (core slot : Nat) (stalled : BitVec 10) (s : State) : State :=
  let t := tid core slot
  match headEntry s core slot stalled with
  | none => s
  | some (e, ca, cb) =>
    if mayVector s core slot stalled then
      entryEcc s t e (fun s =>
        match runEntry s t e ca cb with
        | .wait s => s
        | .trap s code fa wr el => vectorTrap (keepPopped s t e) t code fa wr e el
        | .done s =>
          vectorIssued (s.modThread t (fun th => Thread.settle
            { th with seq := { th.seq.pass with items := th.seq.items.set th.seq.pos (.entry { e with popped := none }) } })) t)
    else match runEntry s t e ca cb with
      | .wait s => s
      | _ => s

end Sys2Proof.Machine
end

