-- ==== Sys2Proof/Machine/Fetch.lean ====
section
/-! DEFINITION. Instruction fetch through the instruction cache, decoding, and what stands before a scalar issue
(spec/05_issue.md R123-R127, R137-R139, spec/02_encoding.md R32-R38, spec/18_traps.md R436). -/

namespace Sys2Proof.Machine

open Sys2Proof

/-- The set of a line of the instruction cache (R123). -/
def icSet (va : Nat) : Nat := fld va 6 6

/-- Installs a line by the replacement rules of R124; the list is in order of use, least recent first. -/
def icFill (ls : List ICLine) (new : ICLine) : List ICLine :=
  let same := ls.filter (fun l => decide (icSet l.line = icSet new.line))
  let harv := same.filter (fun l => l.harvester)
  if new.harvester then
    match harv with
    | h :: _ => ls.filter (fun l => l ≠ h) ++ [new]
    | [] => if same.length < 4 then ls ++ [new] else ls
  else if same.length < 4 then ls ++ [new]
  else match harv with
    | h :: _ => ls.filter (fun l => l ≠ h) ++ [new]
    | [] => match same with
      | o :: _ => ls.filter (fun l => l ≠ o) ++ [new]
      | [] => ls ++ [new]

/-- What fetching a halfword answers. -/
inductive HalfAnswer where
  | half (s : State) (h : Half)
  | wait (s : State)
  /-- A trap at this halfword's address: FETCHFAULT (R125), ACCESS for an entry that names no frame a page may have
  (spec/10_pages.md R232), or VERSION_FULL where the fill finds no line (spec/08_die_memory.md R198; log entry 64). -/
  | trap (code : Nat)
  /-- An uncorrectable word at a location (spec/18_traps.md R445). -/
  | damaged (s : State) (loc : Nat)

/-- The bytes of the line at `va` as the core's slice returns them to the instruction cache (R124). -/
def fetchLine (s : State) (core ctx va : Nat) : HalfAnswer ⊕ (State × BitVec 512) :=
  let die := dieOf core
  if 2 ^ 48 ≤ va then .inl (.trap 6)
  else match translate s die ctx va with
    | none => .inl (.trap 6)
    | some e =>
      if !e.x then .inl (.trap 6)
      else if 732164 < e.frame (fld va 16 32) then .inl (.trap 4)
      else match readEccs s die ctx (lineOf va) 64 with
        | .uncorrectable s loc => .inl (.damaged s loc)
        | .clean s =>
          match needLine s die ctx (lineOf va) e with
          | .pending => .inl (.wait s)
          | .full => .inl (.trap 7)
          | .present s l => .inr (s, l.data)

/-- What the check bits of a core's instruction-cache line make of it (R444, R445): corrected, or discarded. -/
def icacheEcc (s : State) (core : Nat) (l : ICLine) : State × Option ICLine :=
  match l.ecc with
  | .sound => (s, some l)
  | .correctable => (s.countCor (dieOf core), some { l with ecc := .sound })
  | .uncorrectable => ((s.countUnc (dieOf core)).countRef (dieOf core), none)

/-- Fills the instruction cache with the line of a halfword (R124). -/
def fetchMiss (s : State) (core slot ctx va : Nat) : HalfAnswer :=
  match fetchLine s core ctx va with
  | .inl a => a
  | .inr (s, data) =>
    let s := s.modCore core (fun c =>
      { c with icache := icFill c.icache { ctx := ctx, line := lineOf va, harvester := decide (8 ≤ slot), data := data } })
    .half s (BitVec.ofNat 16 (data.toNat >>> (8 * (va % 64))))

/-- One halfword at `va` for a slot: from the instruction cache, filling it when it misses. -/
def fetchHalf (s : State) (core slot ctx : Nat) (va : Nat) : HalfAnswer :=
  let c := s.core core
  match c.icache.find? (fun l => decide (l.ctx = ctx ∧ l.line = lineOf va)) with
  | some l =>
    let rest := c.icache.filter (fun x => x ≠ l)
    let s := s.setCore core { c with icache := rest ++ (icacheEcc s core l).2.toList }
    (match icacheEcc s core l with
     | (s', some l) => .half { s with dies := s'.dies } (BitVec.ofNat 16 (l.data.toNat >>> (8 * (va % 64))))
     | (s', none) => fetchMiss { s with dies := s'.dies } core slot ctx va)
  | none => fetchMiss s core slot ctx va

/-- What fetching an instruction answers. -/
inductive FetchAnswer where
  /-- An instruction of the given length in halfwords, with its first word. -/
  | instr (s : State) (i : Instr) (len : Nat) (iw : Word)
  | illegal (s : State) (iw : Word)
  | wait (s : State)
  | trap (s : State) (code va : Nat)
  | damaged (s : State) (loc : Nat)

/-- The first instruction word a trap reports: a compact halfword is zero-extended (Table 18.4). -/
def firstWord (hs : List Half) : Word :=
  match hs with
  | [] => 0
  | h0 :: t =>
    if h0.getLsbD 0 = false then h0.setWidth 64
    else match t with
      | [] => h0.setWidth 64
      | h1 :: _ => (joinHalves h0 h1).setWidth 64

/-- Fetches halfwords until they decode, at most `n` more; `hs` are those read (R32, R33). -/
def fetchFrom (core slot ctx pc : Nat) : Nat → List Half → State → FetchAnswer
  | 0, hs, s => .illegal s (firstWord hs)
  | n + 1, hs, s =>
    let va := (pc + 2 * hs.length) % 2 ^ 64
    match fetchHalf s core slot ctx va with
    | .wait s => .wait s
    | .trap code => .trap s code va
    | .damaged s loc => .damaged s loc
    | .half s h =>
      let hs := hs ++ [h]
      match decode hs with
      | .ok (i, len) => .instr s i len (firstWord hs)
      | .error .truncated => fetchFrom core slot ctx pc n hs s
      | .error _ => .illegal s (firstWord hs)

/-- The instruction at the PC of a thread. -/
def fetch (s : State) (t : Nat) : FetchAnswer :=
  fetchFrom (coreOf t) (slotOf t) (s.ctxOf t) (s.thread t).pc.toNat maxHalves [] s

/-- A trap of the fetch itself, before any instruction issues, so that no issue is counted (R119); FETCHFAULT sets XFROM by
Table 5.7 (R125, R137). -/
def fetchTrap (s : State) (t code va : Nat) : State :=
  let th := s.thread t
  if th.vectorBusy then s
  else
    let s := if code = 6 then s.modThread t (fun th => { th with xfrom := evenPc th.came ||| wordOfBool th.cameBr }) else s
    enterTrap s t code (word va) th.pc false false false th.image.isSome

/-- An asynchronous trap pending before a scalar issue (R436): VERSION_FULL of a held write, then REDUNDANT_MISMATCH; both
wait while st = 1 or the mode is M. -/
def pendingTrap (s : State) (t : Nat) : Option State :=
  let th := s.thread t
  if th.strap.st || decide (th.mode = .m) then none
  else match th.pendVF with
    | a :: rest =>
      some (enterTrap (s.modThread t (fun th => { th with pendVF := rest })) t 7 a th.pc false true true th.image.isSome)
    | [] => match th.pendRM with
      | w :: rest =>
        some (enterTrap (s.modThread t (fun th => { th with pendRM := rest })) t 9 w th.pc false true true th.image.isSome)
      | [] => none

/-- Whether a slot's scalar stream may look at its next instruction in a cycle: Ready, or parked with a trap pending (R436), and
not stalled. -/
def scalarAsks (s : State) (core slot : Nat) (stalled : BitVec 10) : Bool :=
  let th := s.thread (tid core slot)
  (decide (th.st = .ready) || (decide (th.st = .parked) && th.trapsPend))
    && !betweenSteps s (tid core slot) && !stalled.getLsbD slot

/-! ## The die-control core in WFI (R441, R448) -/

/-- Whether the die-control core may take a job event: M mode, mst = 0, and no job event being handled. -/
def takesEvent (s : State) (die : Nat) : Bool :=
  let th := s.thread (tid (numGcores + die) 0)
  decide (th.mode = .m) && !th.mtrap.st && !th.strap.st && !(s.die die).events.isEmpty

/-- Takes the oldest job event; `npc` is the next PC of the WFI (R448).  The entry goes to the trace of the event's context, as its
handler is that context's (R468; log entry 35). -/
def takeJobEvent (s : State) (die : Nat) (npc : Word) : State :=
  match (s.die die).events with
  | [] => s
  | e :: rest =>
    let t := tid (numGcores + die) 0
    let w := word (e.ctx * 2 ^ 48 + e.ssno)
    let s := s.modDie die (fun d => { d with events := rest, jevt := w })
    let s := (s.ready t).modThread t (fun th =>
      { th with strap := { th.strap with st := true, pm := .m, epc := evenPc npc, cause := word e.code, tval := w },
                mode := .s, pc := (s.ctx e.ctx).tvec, came := 0, cameBr := false, stall := none })
    s.trace die e.ctx 4 (identity s (coreOf t) 0) (word (e.code * 2 ^ 56 + wfld npc 0 48))

/-- Whether what WFI waits for on the die-control core holds. -/
def dieWakes (s : State) (die : Nat) : Bool := decide ((s.die die).devt ≠ 0) || !(s.die die).events.isEmpty

/-- A die-control core parked in a WFI goes on, or takes its oldest job event. -/
def wakeControl (s : State) (die : Nat) : State :=
  let t := tid (numGcores + die) 0
  let th := s.thread t
  if !decide (th.st = .parked ∧ th.wait = .wfi) || !dieWakes s die then s
  else if takesEvent s die then takeJobEvent s die th.parkNpc
  else (s.modThread t (fun th => { th with came := th.pc, cameBr := false, pc := th.parkNpc, stall := none })).ready t

/-- What comes of a scalar issue turn: a state without an instruction to execute, or an instruction to execute. -/
inductive Prepared where
  | done (s : State)
  | run (i : Instr) (s : State)

/-- What stands before a scalar issue of a slot: pending traps, fetch, decode; then the instruction executes with `cur`, `npc` and
`iw` set.  A slot that has nothing to issue lets the turn pass. -/
def prepareIssue (core slot : Nat) (stalled : BitVec 10) (s : State) : Prepared :=
  let t := tid core slot
  let s := if isControl core && decide (slot = 0) then wakeControl s (dieOf core) else s
  if !scalarAsks s core slot stalled then .done s
  else match pendingTrap s t with
    | some s => .done s
    | none =>
      if (s.thread t).st ≠ .ready then .done (s.wakeWfi t)
      else match fetch s t with
        | .wait s => .done s
        | .trap s code va => .done (fetchTrap s t code va)
        | .damaged s' loc => .done (if (s.thread t).vectorBusy then s else fetchTrap s' t 10 loc)
        | .illegal s iw => .done (State.raise { s with cur := t, iw := iw } 1 iw false)
        | .instr s i len iw =>
          .run i { s with cur := t, npc := (s.thread t).pc + word (2 * len), iw := iw }

end Sys2Proof.Machine
end

