-- ==== Sys2Proof/Machine/Boot.lean ====
section
/-! DEFINITION. How a program is loaded from outside the module, for `State.withFetchWord` (log entry 10): a context with one
executable page, its holding launch on gcore 0, and slot 0 Ready at the page's first byte. -/

namespace Sys2Proof.Machine

open Sys2Proof

/-- Virtual address of the loaded program, and the frames of its page table and page on stack 0. -/
def bootVa : Nat := 0x10000
def bootTableFrame : Nat := 0x100
def bootFrame : Nat := 0x200

/-- PTROOT of the loaded context: 16 buckets a shard at frame `bootTableFrame` of stack 0 (spec/10_pages.md R228). -/
def bootRoot : Word := word (2 ^ 63 + 4 * 2 ^ 40 + bootTableFrame * 2 ^ 16)

/-- Byte address of the first entry of the bucket that maps `bootVa` (R229). -/
def bootPteAddr : Nat :=
  let h := pageHash (fld bootVa 16 32)
  bootTableFrame * 2 ^ 16 + h / 2 ^ 24 * 2 ^ 10 + fld h 20 4 * 64

/-- The instruction with the low bits `w`, zeros above to the longest instruction, placed as the next one to issue. -/
def placeProgram (s : State) (w : Nat) : State :=
  let s := s.writeWord bootPteAddr (word (2 ^ 63 + 7 * 2 ^ 40 + fld bootVa 16 32))
  let s := s.writeWord (bootPteAddr + 8) (word bootFrame)
  let s := s.writeN (bootFrame * 2 ^ 16) (bytesOf (2 * maxHalves) w)
  let s := s.modCtx 1 (fun c => { c with live := true, ptroot := bootRoot })
  let s := s.modCore 0 (fun c => { c with hold := some 1, slotSet := 1, icache := [] })
  let s := s.modThread (tid 0 0) (fun th =>
    { th with st := .ready, wait := .none, ctx := 1, pc := word bootVa, mode := .u, pendVF := [], pendRM := [] })
  { s with agenda := .issue 0 0 0 :: s.agenda }

end Sys2Proof.Machine
end

