-- ==== Sys2Proof/Machine/Atomic.lean ====
section
/-! DEFINITION. Die-memory atomics, bank-ALU operations and FENCE.SC (spec/08_die_memory.md R199-R205,
spec/09_ordering.md R213, R214). -/

namespace Sys2Proof.Machine

open Sys2Proof

/-- Table 8.5: the new value of an operation on the old value `o` and operand `u`. -/
def amoValue (f : Nat) (o u : Word) : Word :=
  match f with
  | 0 => o + u
  | 1 => o &&& u
  | 2 => o ||| u
  | 3 => o ^^^ u
  | 4 => if u.slt o then u else o
  | 5 => if o.slt u then u else o
  | 6 => if u.ult o then u else o
  | 7 => if o.ult u then u else o
  | _ => u

/-- One indivisible step at the slice of a checked place: the bytes are read, `f` gives what is written (none writes
nothing and takes no pre-image), and `k` goes on with the old bytes. -/
def atSlice (p : Place) (ea : Word) (n : Nat) (f : List Byte → Option (List Byte)) (k : List Byte → State → State)
    (s : State) : State :=
  match loadPlace s s.cur p n with
  | .wait s => s
  | .full => s.raise 7 (s.reach s.cur ea) true
  | .damaged s' l => if s.th.vectorBusy then s else s'.raise 10 (word l) true
  | .bytes s bs =>
    match f bs with
    | none => k bs s
    | some new =>
      match takePre s s.cur p with
      | .wait => s
      | .full => s.raise 7 (s.reach s.cur ea) true
      | .taken s => k bs (pokeCells s s.curDie s.curCtx (storeCells s.curCore p new))

/-- The target of an atomic or bank-ALU operation: alignment, then the checks of R193, then the store buffer drains. -/
def rmwTarget (ea : Word) (z : Nat) (s : State) (k : Place → State → State) : State :=
  if ea.toNat % z ≠ 0 then s.raise 3 ea true
  else match checkAccess s s.curCore s.curSlot s.th.mode s.curCtx .rmw ea.toNat with
    | .denied => s.deny ea true
    | .pageFault => s.pageFault (s.reach s.cur ea) true
    | .ok p => s.withDrain (k p)

/-- `Amo` of R199 without the compare. -/
def amo (f : Nat) (d a b : BitVec 5) (s : State) : State :=
  s.withG [a, b] (fun s => s.withVector (fun s =>
    let u := s.th.rg b
    rmwTarget (s.th.rg a) 8 s (fun p s =>
      atSlice p (s.th.rg a) 8 (fun bs => some (bytesOf 8 (amoValue f (wordOfBytes bs) u).toNat))
        (fun bs s => (s.putG d (wordOfBytes bs)).advance) s)))

def execAmoadd (d a b : BitVec 5) (s : State) : Result := .next (amo 0 d a b s)
def execAmoand (d a b : BitVec 5) (s : State) : Result := .next (amo 1 d a b s)
def execAmoor (d a b : BitVec 5) (s : State) : Result := .next (amo 2 d a b s)
def execAmoxor (d a b : BitVec 5) (s : State) : Result := .next (amo 3 d a b s)
def execAmomin (d a b : BitVec 5) (s : State) : Result := .next (amo 4 d a b s)
def execAmomax (d a b : BitVec 5) (s : State) : Result := .next (amo 5 d a b s)
def execAmominu (d a b : BitVec 5) (s : State) : Result := .next (amo 6 d a b s)
def execAmomaxu (d a b : BitVec 5) (s : State) : Result := .next (amo 7 d a b s)
def execAmoswap (d a b : BitVec 5) (s : State) : Result := .next (amo 8 d a b s)

/-- AMOCAS writes g[b] only where the old value equals g[d] as read at issue. -/
def execAmocas (d a b : BitVec 5) (s : State) : Result :=
  .next (s.withG [d, a, b] (fun s => s.withVector (fun s =>
    let u := s.th.rg b
    let c := s.th.rg d
    rmwTarget (s.th.rg a) 8 s (fun p s =>
      atSlice p (s.th.rg a) 8 (fun bs => if wordOfBytes bs = c then some (bytesOf 8 u.toNat) else none)
        (fun bs s => (s.putG d (wordOfBytes bs)).advance) s))))

/-- BADD.W128 (R202): the pair is g[b] and g[b + 1]. -/
def execBaddW128 (d a b : BitVec 5) (s : State) : Result :=
  .next (s.withG [a, b, b + 1] (fun s => s.withVector (fun s =>
    let y := (s.th.rg (b + 1)).toNat * 2 ^ 64 + (s.th.rg b).toNat
    rmwTarget (s.th.rg a) 16 s (fun p s =>
      atSlice p (s.th.rg a) 16 (fun bs => some (bytesOf 16 (ofBytes bs + y)))
        (fun bs s => (s.putG d (wordOfBool (decide (2 ^ 128 ≤ ofBytes bs + y)))).advance) s))))

/-! ## Element operations (R203) -/

/-- Elements of `w` bytes of a byte list. -/
def elemsOf (w : Nat) (bs : List Byte) : List Nat :=
  (List.range (bs.length / w)).map (fun i => ofBytes ((bs.drop (w * i)).take w))

/-- A bank-ALU operation: element width, whether a fold into one word, and the operation on target bytes and source. -/
structure BankOp where
  w : Nat
  fold : Bool
  /-- ROP counter that it adds to (spec/20_accounting.md Table 20.1). -/
  rop : Nat
  f : Nat → Nat → Nat

def bankElems (o : BankOp) (t src : List Byte) : List Byte :=
  let s := elemsOf o.w src
  if o.fold then bytesOf 4 (s.foldl o.f (ofBytes t))
  else ((elemsOf o.w t).zip s).flatMap (fun x => bytesOf o.w (o.f x.1 x.2))

def oneLine (a : Word) (n : Nat) : Bool := decide (a.toNat % 4 = 0) && decide (a.toNat % 64 + n ≤ 64)

/-- Whether an address names the issuing core's own local store by the self alias or the own window. -/
def ownForm (s : State) (ea : Word) : Bool :=
  match addrForm s s.curCore s.curSlot ea.toNat with
  | .own _ spill => !spill && decide (ea.toNat % 65536 < localBytes)
  | .local g _ => decide (g = s.curCore)
  | _ => false

/-- The element operations (R203).  Where several checks fail, the alignment of the target comes first, then that of the source, the
source's form and permission, and the target's access (DESIGN CHOICE, log entry 72: the rule gives no order). -/
def bankOp (o : BankOp) (n a b : BitVec 5) (s : State) : State :=
  s.withG [a, b] (fun s => s.withVector (fun s =>
    let ta := s.th.rg a
    let sa := s.th.rg b
    let len := 4 * n.toNat
    if !oneLine ta len then s.raise 3 ta true
    else if !oneLine sa len then s.raise 3 sa false
    else if !ownForm s sa then s.raise 4 sa false
    else match checkAccess s s.curCore s.curSlot s.th.mode s.curCtx .read sa.toNat with
      | .denied => s.raise 4 (s.reach s.cur sa) false
      | .pageFault => s.raise 4 (s.reach s.cur sa) false
      | .ok src =>
        rmwTarget ta 4 s (fun p s =>
          match loadPlace s s.cur src len with
          | .wait s => s
          | .full => s.raise 7 sa false
          | .damaged s' l => if s.th.vectorBusy then s else s'.raise 10 (word l) false
          | .bytes s data =>
            atSlice p ta (if o.fold then 4 else len) (fun bs => some (bankElems o bs data))
              (fun _ s => (s.count s.curCtx o.rop (len / o.w)).advance) s)))

def execBvaddF (n a b : BitVec 5) (s : State) : Result :=
  .next (bankOp { w := 4, fold := false, rop := 28, f := routerOp 0 } n a b s)
def execBvaddBh (n a b : BitVec 5) (s : State) : Result :=
  .next (bankOp { w := 2, fold := false, rop := 29, f := routerOp 1 } n a b s)
def execBvmaxF (n a b : BitVec 5) (s : State) : Result :=
  .next (bankOp { w := 4, fold := false, rop := 31, f := routerOp 3 } n a b s)
def execBvmaxBh (n a b : BitVec 5) (s : State) : Result :=
  .next (bankOp { w := 2, fold := false, rop := 31, f := routerMax .bh } n a b s)
def execBredF (n a b : BitVec 5) (s : State) : Result :=
  .next (bankOp { w := 4, fold := true, rop := 28, f := routerOp 0 } n a b s)
def execBredBh (n a b : BitVec 5) (s : State) : Result :=
  .next (bankOp { w := 2, fold := true, rop := 28, f := fun t x => routerOp 0 t (x * 65536) } n a b s)

/-! ## FENCE.SC (R214) -/

/-- A far operation is numbered when it drains and is accepted at the link port as it is staged, so every scope waits for the
same: the vector memory entries and the store buffer. -/
def execFenceSc (_scope : BitVec 2) (s : State) : Result :=
  .next (s.withVector (fun s => s.withDrain (fun s => s.advance)))

end Sys2Proof.Machine
end

