-- ==== Sys2Proof/Machine/Engine.lean ====
section
/-! DEFINITION. What the engines share: checks of ranges, ownership of destination lines, held writes, power leave, the
dependence graph and completion (spec/07_local_store.md R182, R185, spec/08_die_memory.md R198, R204, R205,
spec/12_matrix.md R317-R322, spec/13_copy.md R336-R345, spec/21_host.md R478-R480). -/

namespace Sys2Proof.Machine

open Sys2Proof

/-! ## Ranges -/

/-- The parts of [a, a + n) by line: address and length. -/
def partsOf (a n : Nat) : List (Nat × Nat) :=
  (linesOf a n).map (fun l => (max a l, min (a + n) (l + 64) - max a l))

/-- Status 1 for a translation or permission failure of a paged address, 2 for an area failure (log entry 31). -/
def failStatus (ea : Nat) : Nat := if ea < 2 ^ 48 then 1 else 2

/-- Checks every part of a range as an access of a thread of (core, slot): the parts, at the addresses they reach, with their
places; or status and address of the first failure (R336). -/
def checkParts (s : State) (core slot : Nat) (mode : Mode) (ctx : Nat) (use : Use) :
    List (Nat × Nat) → List (Nat × Nat × Place) → (Nat × Nat) ⊕ List (Nat × Nat × Place)
  | [], acc => .inr acc.reverse
  | (a, n) :: rest, acc =>
    match checkAccess s core slot mode ctx use (a % 2 ^ 64) with
    | .ok p => checkParts s core slot mode ctx use rest (((s.reach (tid core slot) (word a)).toNat, n, p) :: acc)
    | _ => .inl (failStatus (a % 2 ^ 64), a % 2 ^ 64)

/-! ## Power leave (spec/21_host.md R478, R480) -/

/-- Priority class of a context's launch. -/
def prioOf (s : State) (ctx : Nat) : Nat :=
  match s.job ctx with
  | some j => wfld (j.record.getD 0 0) 6 2
  | none => 0

/-- Joins the governor queue of a die, by priority class and then arrival. -/
def askLeave (s : State) (die : Nat) (r : LeaveReq) : State :=
  s.modDie die (fun d => { d with leaveq := insertBy (fun a b => decide (a.prio ≤ b.prio)) r d.leaveq })

/-- Asks for `cost` units on a die: drawn from the reservation when its unused part covers them, otherwise queued. -/
def requestLeave (s : State) (die ctx cost : Nat) (what : LeaveFor) : State × Leave :=
  let x := s.dctx die ctx
  if x.resvUsed + cost ≤ x.resv then (s.modDctx die ctx (fun x => { x with resvUsed := x.resvUsed + cost }), .reserved)
  else (askLeave s die { what := what, ctx := ctx, prio := prioOf s ctx, cost := cost, since := s.cy }, .asked)

/-- Returns what an operation held, or leaves the queue. -/
def returnLeave (s : State) (die ctx cost : Nat) (l : Leave) (what : LeaveFor) : State :=
  match l with
  | .none => s
  | .asked => s.modDie die (fun d => { d with leaveq := d.leaveq.filter (fun r => !decide (r.what = what)) })
  | .granted => s.modDie die (fun d => { d with used := d.used - cost })
  | .reserved => s.modDctx die ctx (fun x => { x with resvUsed := x.resvUsed - cost })

/-! ## Operations -/

def State.modOp (s : State) (op : Nat) (f : EngOp → EngOp) : State :=
  { s with engine := s.engine.map (fun o => if o.op = op then f o else o) }

def State.engOp (s : State) (op : Nat) : Option EngOp := s.engine.find? (fun o => o.op = op)

/-- Entries of a core's job queue, oldest first (spec/12_matrix.md R312). -/
def EngOp.queued (o : EngOp) : Bool :=
  match o.kind with
  | .copy .. => false
  | _ => true

def EngOp.isCopy (o : EngOp) : Bool := !o.queued

/-- The accumulator slot an entry names. -/
def EngOp.accSlot (o : EngOp) : Nat :=
  match o.kind with
  | .mcfg c => wfld c 20 1
  | .job w => wfld (w.getD 6 0) 32 1
  | .drain _ w _ _ => wfld w 0 1
  | .copy .. => 2

/-- Whether every older entry of the core's queue that names the same slot has completed (R320). -/
def olderDone (s : State) (o : EngOp) : Bool :=
  !s.engine.any (fun x => x.queued && decide (x.core = o.core ∧ x.accSlot = o.accSlot ∧ x.op < o.op))

/-- Units an operation asks for (spec/21_host.md Table 21.3): a job, or a copy that writes 65,536 bytes or more. -/
def EngOp.cost (o : EngOp) : Nat :=
  match o.kind with
  | .job _ => 32
  | .copy .. => if 65536 ≤ o.total then 8 else 0
  | _ => 0

/-- Whether an operation's conditions other than leave hold (spec/12_matrix.md R320, spec/13_copy.md R342, R345). -/
def waitsOver (s : State) (o : EngOp) : Bool :=
  o.preds.isEmpty && o.failed.isNone && !o.dead && decide (o.nxt ≠ .staged) && (o.isCopy || olderDone s o)

/-- An operation whose conditions hold asks for the leave it needs. -/
def askFor (s : State) (o : EngOp) : State :=
  if decide (o.leave = .none) && decide (0 < o.cost) && waitsOver s o then
    let r := requestLeave s (dieOf o.core) o.ctx o.cost (.op o.op)
    r.1.modOp o.op (fun o => { o with leave := r.2, asked := s.cy })
  else s

/-- Every operation whose conditions now hold asks for leave. -/
def askAll (s : State) : State := s.engine.foldl askFor s

/-- Whether an operation may run: its waits are over and the leave it needs is held. -/
def mayRun (s : State) (o : EngOp) : Bool :=
  waitsOver s o && (decide (o.cost = 0) || decide (o.leave = .granted) || decide (o.leave = .reserved))

/-- The completion word of spec/12_matrix.md Table 12.6. -/
def completionWord (id status : Nat) (sat : Bool) (flags : BitVec 5) (detail : Nat) : Word :=
  word (id % 65536 * 2 ^ 48 + status * 2 ^ 44 + bit sat * 2 ^ 37 + flags.toNat * 2 ^ 32 + detail % 2 ^ 32)

/-- Releases every line of an operation. -/
def releaseLines (s : State) (op : Nat) : State := { s with owned := s.owned.filter (fun l => l.op ≠ op) }

/-- Records the failure of a `.next` copy (spec/13_copy.md R340, Table 13.3). -/
def noteNextFailure (s : State) (o : EngOp) (status detail : Nat) : State :=
  let s := if isControl o.core then s else s.count o.ctx 49 1
  s.modCore o.core (fun c =>
    if c.xnerr.getLsbD 32 then c
    else { c with xnerr := word (o.id * 2 ^ 48 + status * 2 ^ 44 + 2 ^ 32 + detail % 2 ^ 32) })

/-- Completes one operation: its register fills, its lines, node, queue place and leave free, and its successors' counts
fall (R322, R339, R342). -/
def completeOne (s : State) (o : EngOp) (status detail : Nat) : State :=
  let w := completionWord o.id status o.sat o.flags detail
  let s := { s with engine := (s.engine.filter (fun x => x.op ≠ o.op)).map (fun x =>
               if x.preds.contains o.op then
                 { x with preds := x.preds.filter (fun p => p ≠ o.op)
                          failed := if status = 0 then x.failed else (match x.failed with
                            | some f => some f
                            | none => some o.id) }
               else x) }
  let s := releaseLines s o.op
  let s := returnLeave s (dieOf o.core) o.ctx o.cost o.leave (.op o.op)
  let s := if o.d = 0 then s else s.fillG (tid o.core o.slot) o.d w
  let s := if o.isCopy && decide (status = 0) && !isControl o.core then s.count o.ctx 48 o.total else s
  let s := if decide (o.nxt ≠ .plain) && (decide (status = 1) || decide (status = 2)) then noteNextFailure s o status detail else s
  s.trace (dieOf o.core) o.ctx 7 (identity s o.core o.slot) w

/-- Completes an operation, and with status 4 every successor whose count reaches 0 while marked failed (R342). -/
def complete : Nat → State → EngOp → Nat → Nat → State
  | 0, s, o, status, detail => completeOne s o status detail
  | n + 1, s, o, status, detail =>
    let s := completeOne s o status detail
    let failed := s.engine.filterMap (fun x =>
      match x.failed with
      | some f => if x.preds.isEmpty then some (x, f) else none
      | none => none)
    failed.foldl (fun s x => match s.engOp x.1.op with
      | some o => complete n s o 4 x.2
      | none => s) s

def State.complete (s : State) (o : EngOp) (status detail : Nat) : State :=
  askAll (Machine.complete s.engine.length s o status detail)

/-! ## Writes -/

/-- A write is held: the issuing thread takes VERSION_FULL before its next instruction (R182, R198), once for each hold. -/
def holdWrite (s : State) (o : EngOp) (loc : Nat) : State :=
  if o.held then s
  else (s.modOp o.op (fun o => { o with held := true })).modThread (tid o.core o.slot)
    (fun th => { th with pendVF := th.pendVF ++ [word loc] })

/-- The core of a local-store location and its offset. -/
def localCore (loc : Nat) : Nat := (loc - localWindow) / 65536
def isLocalLoc (loc : Nat) : Bool := decide (localWindow ≤ loc ∧ loc < dieWindow)

/-- Takes the pre-image an engine or router operation of writer `w` needs for the line of a near location (R180, R196): of the
holding launch after the reclaim that the access causes (R408), of a sash bank in its own name.  `wait` while a reclaim or a
pending line must be waited for. -/
def enginePre (s : State) (die ctx loc w : Nat) : PreAnswer :=
  if isLocalLoc loc then
    let core := localCore loc
    let off := loc % 65536
    match (if w = 0 then reclaim s core (off / 4096) else some s) with
    | none => .wait
    | some s => (match takePreLocal s core w ctx (lineOf off) with
      | some s => .taken s
      | none => .full)
  else if 2 ^ 48 ≤ loc then
    match takePreDie s die (lineOf loc) with
    | some s => .taken s
    | none => .full
  else match translate s die ctx loc with
    | none => .wait
    | some e =>
      match needLine s die ctx (lineOf loc) e with
      | .present s _ => (match (s.line die ctx (lineOf loc)).bind (takePrePaged s) with
        | some s => .taken s
        | none => .full)
      | .pending => .wait
      | .full => .full

/-- Bytes written at a near location: whole doublewords remove damage (R443). -/
def pokeBytes (s : State) (die ctx loc : Nat) (bs : List Byte) : State :=
  let cells := (List.range bs.length).map (fun i => (loc + i, bs.getD i 0))
  let r := storeEcc s die ctx cells
  pokeCells r.1 die ctx r.2

/-- A line written by a `.next` operation: its data belong to the committed image and no pre-image is taken
(spec/13_copy.md R340); a pre-image that a later store has taken is changed with it. -/
def pokeCommitted (s : State) (die ctx loc : Nat) (bs : List Byte) : PreAnswer :=
  let s := (storeEcc s die ctx ((List.range bs.length).map (fun i => (loc + i, bs.getD i 0)))).1
  if isLocalLoc loc then
    match reclaim s (localCore loc) (loc % 65536 / 4096) with
    | none => .wait
    | some s => .taken (landEach (fun s o b => landLocal s (localCore loc) o b) s (loc % 65536) bs)
  else if 2 ^ 48 ≤ loc then .taken (landEach (fun s a b => landDie s die a b) s loc bs)
  else match translate s die ctx loc with
    | none => .wait
    | some e =>
      match needLine s die ctx (lineOf loc) e with
      | .pending => .wait
      | .full => .full
      | .present s _ => .taken (landEach (fun s a b => landPaged s ctx a (e.phys a) b) s loc bs)

/-- Captures the bytes of one destination line of an engine's far write as one staged operation under the operation's issue
sequence (R276, R338); full when no line of the cache can be taken (R291).  The bytes stand at their addresses. -/
def stageLine (s : State) (o : EngOp) (cells : List (Nat × Byte)) : PreAnswer :=
  match roomFor s (dieOf o.core) (o.core % 256) (max 1 ((cells.length + 31) / 32)) with
  | none => .full
  | some s =>
    let a := cellsAct cells
    let st : StagedOp :=
      { ctx := o.ctx, tmod := s.modnum, addr := a.1, smod := s.modnum, gcore := o.core,
        seqno := o.slot * 2 ^ 28 + o.seqno, loc := reached s o.core o.slot o.ctx a.1, act := a.2 }
    .taken { s with staged := s.staged ++ [st] }

/-- Whether another operation took the line before operation `op` did (R205, R338). -/
def ownedByOlder (s : State) (die ctx loc op : Nat) : Bool :=
  let here (l : OwnedLine) : Bool :=
    decide (l.line = lineOf loc) && (decide (2 ^ 48 ≤ loc) || (decide (l.ctx = ctx) && (decide (l.die = die) || l.nxt)))
  (s.owned.takeWhile (fun l => !(here l && decide (l.op = op)))).any (fun l => here l && decide (l.op ≠ op))

/-- Whether an operation other than `op` took the line before `op` issued: a line taken later is read as it stands (R338). -/
def ownedBefore (s : State) (die ctx loc op : Nat) : Bool :=
  s.owned.any (fun l => decide (l.line = lineOf loc ∧ l.op ≠ op ∧ l.since < op) &&
    (decide (2 ^ 48 ≤ loc) || (decide (l.ctx = ctx) && (decide (l.die = die) || l.nxt))))

/-- Releases one line of an operation once its last byte is written. -/
def releaseLine (s : State) (op loc : Nat) : State :=
  { s with owned := s.owned.filter (fun l => !decide (l.op = op ∧ l.line = lineOf loc)) }

/-- What an operation of the die-control core does to counters is undone: its copies add to none (spec/13_copy.md R348). -/
def keepCounts (o : EngOp) (s s' : State) : State :=
  if isControl o.core then { s' with ctxs := s'.ctxs.map (fun c => (c.1, { c.2 with run := (s.ctx c.1).run })) } else s'

/-- An access of an operation that meets an owned line is counted once (spec/08_die_memory.md R205), but not for the die-control
core. -/
def noteEngRecall (s : State) (op loc : Nat) : State :=
  match s.engOp op with
  | none => s
  | some o =>
    if isLocalLoc loc || decide (o.stall = some (lineOf loc)) || isControl o.core then s
    else (s.modOp op (fun o => { o with stall := some (lineOf loc) })).count o.ctx 45 1

/-- Writes one item to a near line. -/
def writeNear (s : State) (o : EngOp) (a : Nat) (bs : List Byte) : PreAnswer :=
  let die := dieOf o.core
  if ownedByOlder s die o.ctx a o.op then .wait
  else match (if o.nxt = .due then pokeCommitted s die o.ctx a bs
      else match enginePre s die o.ctx a (writerOf o.slot) with
        | .taken s => .taken (pokeBytes s die o.ctx a bs)
        | x => x) with
    | .taken s' => .taken (keepCounts o s s')
    | x => x

/-- Whether two items of a far write go to one destination line. -/
def sameFarLine (w x : Bool × Nat × List Byte) : Bool := w.1 && x.1 && decide (lineOf w.2.1 = lineOf x.2.1)

/-- Writes the items in order; stops at the first that waits or is held.  The far items of one line are staged together
(R338); a near line clears once no later item lies in it. -/
def writeEach (o : EngOp) : Nat → List (Bool × Nat × List Byte) → State → State × List (Bool × Nat × List Byte)
  | 0, l, s => (s, l)
  | _, [], s => (s, [])
  | n + 1, w :: rest, s =>
    let mates := rest.filter (sameFarLine w)
    let answer := if w.1 then
        stageLine s o ((w :: mates).flatMap (fun x => (List.range x.2.2.length).map (fun i => (x.2.1 + i, x.2.2.getD i 0))))
      else writeNear s o w.2.1 w.2.2
    match answer with
    | .wait => (if !w.1 && ownedByOlder s (dieOf o.core) o.ctx w.2.1 o.op then noteEngRecall s o.op w.2.1 else s, w :: rest)
    | .full => (holdWrite s o (if w.1 then w.2.1 else lineOf w.2.1), w :: rest)
    | .taken s =>
      let s := if !w.1 && !rest.any (fun x => !x.1 && decide (lineOf x.2.1 = lineOf w.2.1)) then releaseLine s o.op w.2.1 else s
      writeEach o n (rest.filter (fun x => !sameFarLine w x)) (s.modOp o.op (fun o => { o with held := false, stall := none }))

/-- Takes the pre-image of every die-memory and paged line that items write (R204); a held one names its line. -/
def itemsPre (o : EngOp) : List (Bool × Nat × List Byte) → State → PreAnswer × Nat
  | [], s => (.taken s, 0)
  | w :: rest, s =>
    if w.1 || isLocalLoc w.2.1 || decide (o.nxt = .due) then itemsPre o rest s
    else match enginePre s (dieOf o.core) o.ctx w.2.1 (writerOf o.slot) with
      | .taken s' => itemsPre o rest (keepCounts o s s')
      | x => (x, w.2.1)

/-- Writes some of the items an operation has left: before any byte, the pre-image of every line outside local store that it
writes is taken (R204). -/
def writeItems (o : EngOp) (all items : List (Bool × Nat × List Byte)) (s : State) : State × List (Bool × Nat × List Byte) :=
  match itemsPre o all s with
  | (.taken s, _) => writeEach o items.length items s
  | (.wait, _) => (s, items)
  | (.full, a) => (holdWrite s o (lineOf a), items)

/-- The lines a list of near parts touches become owned or pending, and the pre-images of die-memory and paged lines are
taken (R185, R204); none while one of them must wait. -/
def ownParts (s : State) (o : EngOp) (nxt : Bool) (parts : List (Nat × Nat × Place)) : Option State :=
  parts.foldl (fun acc x => acc.bind (fun s =>
    let p := x.2.2
    if !p.near then some s
    else
      let loc := p.loc o.core
      let l : OwnedLine :=
        { die := dieOf o.core, ctx := o.ctx, line := lineOf loc, op := o.op, nxt := nxt, since := s.opCount }
      let s := if s.owned.any (fun x => decide (x.op = l.op ∧ x.line = l.line)) then s else { s with owned := s.owned ++ [l] }
      if nxt || isLocalLoc loc then some s
      else match enginePre s (dieOf o.core) o.ctx loc (writerOf o.slot) with
        | .taken s' => some (keepCounts o s s')
        | .wait => none
        | .full => some (match s.engOp o.op with
          | some o => holdWrite s o (lineOf loc)
          | none => s))) (some s)

/-! ## Reads of an engine (R220, R338) -/

/-- Whether `Pre` of a line is a copy kept beside it, whose words are not those that damage of the line itself touches. -/
def preKept (s : State) (die ctx core slot : Nat) (p : Place) : Bool :=
  match p with
  | .own off => (preLocal s core (writerOf slot) (lineOf off)).isSome
  | .farLocal g off => leasedRead s g off || (preLocal s g 0 (lineOf off)).isSome
  | .die a => (undoOf s die (lineOf a)).isSome
  | .farDie d a => (undoOf s d (lineOf a)).isSome
  | .paged va _ => (match s.line die ctx (lineOf va) with
    | some l => l.undo.isSome || decide (l.st = .dirty)
    | none => false)

/-- `Pre` of bytes within one line, after its check bits (R275, spec/18_traps.md R445). -/
def readPre (s : State) (die ctx core slot : Nat) (p : Place) (n : Nat) : ReadAnswer :=
  match (if preKept s die ctx core slot p then .clean s else readEccs s die ctx (p.loc core) n) with
  | .uncorrectable s l => .damaged s l
  | .clean s => .bytes (match p with
      | .paged va e => touchTlb s die ctx va e
      | _ => s) (preBytes s die ctx core slot p n)

/-- Bytes of a checked part as an engine on behalf of a core reads them; `wait` tells whether a line must be waited for. -/
def engineRead (s : State) (o : EngOp) (x : Nat × Nat × Place) (wait : Nat → Bool) : ReadAnswer :=
  let die := dieOf o.core
  let p := x.2.2
  let loc := p.loc o.core
  if (if p.near then wait loc else lineBusyNext s o.ctx loc) then .wait (noteEngRecall s o.op loc)
  else match reclaimFor s o.core o.slot p with
    | none => .wait s
    | some s =>
      -- a `.next` copy reads Pre of every source (R340)
      if o.nxt = .due then readPre s die o.ctx o.core o.slot p x.2.1 else readPlace s die o.ctx o.core p x.2.1

/-- Reads every part in order. -/
def engineReads (o : EngOp) (wait : State → Nat → Bool) : List (Nat × Nat × Place) → State → List Byte → ReadAnswer
  | [], s, acc => .bytes s acc
  | x :: rest, s, acc =>
    match engineRead s o x (wait s) with
    | .bytes s bs => engineReads o wait rest s (acc ++ bs)
    | a => a

/-! ## The dependence graph (R341, R342) -/

/-- Cluster whose graph and engines serve a core; the die-control core's is cluster 0 of its die (R348). -/
def engineCluster (core : Nat) : Nat := if isControl core then dieOf core * 32 else clusterOf core

def liveNodes (s : State) (cluster : Nat) : Nat :=
  (s.engine.filter (fun o => o.node && decide (engineCluster o.core = cluster))).length

/-- Ids of the valid predecessor fields of an edge word (spec/12_matrix.md R317). -/
def edgePreds (ew : Word) : List Nat :=
  (if ew.getLsbD 48 then [wfld ew 16 16] else []) ++ (if ew.getLsbD 49 then [wfld ew 32 16] else [])

/-- Whether an operation takes a node (R341). -/
def takesNode (id : Nat) (preds : List Nat) : Bool := decide (id ≠ 0) || !preds.isEmpty

/-- The operations that predecessor ids match: the youngest live node of the context in the cluster; `.next` nodes and
missing ones are dropped (R342). -/
def matchPreds (s : State) (cluster ctx : Nat) (ids : List Nat) : List Nat :=
  ids.filterMap (fun i =>
    if i = 0 then none
    else match s.engine.reverse.find? (fun o =>
        o.node && decide (engineCluster o.core = cluster ∧ o.ctx = ctx ∧ o.id = i)) with
      | some o => if o.nxt = .plain then some o.op else none
      | none => none)

end Sys2Proof.Machine
end

