-- ==== Sys2Proof/Machine/Remote.lean ====
section
/-! DEFINITION. GET, PUT and RAMO, and the filling of a GET (spec/11_supersteps.md R286-R292). -/

namespace Sys2Proof.Machine

open Sys2Proof

/-- Whether a remote word is outside the limits of R287. -/
def badRemote (w : Word) (block : Bool) : Bool :=
  let len := wfld w 48 16
  decide (wfld w 12 36 ≠ 0) ||
    (if block then decide (len < 8) || decide (32768 < len) || decide (len % 8 ≠ 0) else decide (len ≠ 0))

/-- Target module of a remote word. -/
def remoteModule (s : State) (w : Word) : Nat := if wfld w 0 12 = 0xFFF then s.modnum else wfld w 0 12

/-- Whether an address has a local-store form (R175, R288). -/
def localForm (s : State) (ea : Word) : Bool :=
  match addrForm s s.curCore s.curSlot ea.toNat with
  | .own .. => true
  | .local .. => true
  | _ => decide (localWindow ≤ ea.toNat ∧ ea.toNat < dieWindow)

/-- Whether an address reaches the issuing core's own local store: by the self alias, the own window, or the spill window's
carve-out (R113, R171). -/
def ownStore (s : State) (a : Nat) : Bool :=
  match addrForm s s.curCore s.curSlot a with
  | .own .. => true
  | .local g _ => decide (g = s.curCore)
  | _ => false

/-- The parts of [a, a + n), a permitted range of the issuing core's own local store from a multiple of 8 (R288). -/
def ownPlaces (s : State) (use : Use) (a : Word) (n : Nat) : Option (List (Nat × Nat × Place)) :=
  if decide (a.toNat % 8 = 0) && (partsOf a.toNat n).all (fun p => ownStore s (p.1 % 2 ^ 64)) then
    (match checkParts s s.curCore s.curSlot s.th.mode s.curCtx use (partsOf a.toNat n) [] with
     | .inl _ => none
     | .inr parts => some parts)
  else none

def ownRange (s : State) (use : Use) (a : Word) (n : Nat) : Bool := (ownPlaces s use a n).isSome

/-- The checks of R287 and R288, then the store buffer drains; `k` goes on with the target module.  `loc` is the local range
of a block form and how it is used; `use` is how the target is checked. -/
def remote (t w : Word) (n : Nat) (block noLocal : Bool) (loc : Option (Use × Word)) (use : Use) (s : State)
    (k : Nat → State → State) : State :=
  let wr := decide (use = .write)
  if badRemote w block then s.raise 4 w wr
  else if t.toNat % 8 ≠ 0 then s.raise 3 t wr
  else
    match (match loc with
      | some (u, a) => if ownRange s u a n then none else some a
      | none => none) with
    | some a => s.raise 4 a wr
    | none =>
      if noLocal && localForm s t then s.raise 4 t wr
      else
        let m := remoteModule s w
        let rec check : List (Nat × Nat) → Option (Bool × Nat)
          | [] => none
          | (a, _) :: rest =>
            match checkAccess s s.curCore s.curSlot s.th.mode s.curCtx use (a % 2 ^ 64) with
            | .ok _ => check rest
            | .denied => some (false, (s.reach s.cur (word a)).toNat)
            | .pageFault => some (true, (s.reach s.cur (word a)).toNat)
        match (if m = s.modnum then check (partsOf t.toNat n) else none) with
        | some (true, a) => s.pageFault (word a) wr
        | some (false, a) => (s.deniedUse s.cur (word a)).raise 4 (word a) wr
        | none => s.withDrain (k m)

/-- Stages an operation of the running thread at the address its target reaches (R113, R276), or raises VERSION_FULL at its
target (R276, R291). -/
def stageOr (m : Nat) (t : Word) (n : Nat) (act : StagedAct) (s : State) (k : State → State) : State :=
  let t := if m = s.modnum then s.reach s.cur t else t
  match stageRoom s s.cur n with
  | none => s.raise 7 t true
  | some s =>
    let loc := if m = s.modnum then reached s s.curCore s.curSlot s.curCtx t.toNat else t.toNat
    k (stage s s.cur m t.toNat loc act)

/-- GET: g[d] is empty until it is filled with Pre of the 8 bytes. -/
def execGet (d a b : BitVec 5) (s : State) : Result :=
  .next (s.withG [a, b] (fun s => s.withVector (fun s =>
    let t := s.th.rg a
    remote t (s.th.rg b) 8 false false none .read s (fun m s =>
      let g : GetOp :=
        { id := s.opCount + 1, ctx := s.curCtx, core := s.curCore, slot := s.curSlot, d := d.toNat, tmod := m,
          addr := t.toNat, len := 8, dest := none, reply := none, held := false }
      let s := { s with gets := s.gets ++ [g], opCount := s.opCount + 1 }
      (s.modTh (fun th => th.emptyG d)).advance))))

/-- GET.B: the destination lines are pending until the data are written; g[d] is filled with the status. -/
def execGetB (d a b : BitVec 5) (s : State) : Result :=
  .next (s.withG [a, b, d] (fun s => s.withVector (fun s =>
    let t := s.th.rg a
    let w := s.th.rg b
    let dst := s.th.rg d
    let n := wfld w 48 16
    remote t w n true false (some (.write, dst)) .read s (fun m s =>
      let parts := ((ownPlaces s .write dst n).getD []).map (fun x => (x.2.2.loc s.curCore, x.2.1))
      let id := s.opCount + 1
      let g : GetOp :=
        { id := id, ctx := s.curCtx, core := s.curCore, slot := s.curSlot, d := d.toNat, tmod := m,
          addr := t.toNat, len := n, dest := some parts, reply := none, held := false }
      let lines := (dedup (parts.map (fun x => lineOf x.1))).map (fun l =>
        ({ die := s.curDie, ctx := s.curCtx, line := l, op := id, nxt := false, since := id } : OwnedLine))
      let s := { s with gets := s.gets ++ [g], opCount := id, owned := s.owned ++ lines }
      (s.modTh (fun th => th.emptyG d)).advance))))

/-- PUT: the value of g[d] is captured and staged. -/
def execPut (d a b : BitVec 5) (s : State) : Result :=
  .next (s.withG [a, b, d] (fun s => s.withVector (fun s =>
    let t := s.th.rg a
    let x := s.th.rg d
    remote t (s.th.rg b) 8 false false none .write s (fun m s =>
      stageOr m t 8 (.write (bytesOf 8 x.toNat)) s (fun s => s.advance)))))

/-- Bytes of the issuing core's own local store, part by part, waiting for pending lines. -/
def ownBytes (s : State) (a n : Nat) : ReadAnswer :=
  match checkParts s s.curCore s.curSlot s.th.mode s.curCtx .read (partsOf a n) [] with
  | .inl _ => .full
  | .inr parts =>
    parts.foldl (fun acc x =>
      match acc with
      | .bytes s bs => (match loadPlace s s.cur x.2.2 x.2.1 with
        | .bytes s b => .bytes s (bs ++ b)
        | y => y)
      | y => y) (.bytes s [])

/-- PUT.B: the source bytes are captured at issue. -/
def execPutB (d a b : BitVec 5) (s : State) : Result :=
  .next (s.withG [a, b, d] (fun s => s.withVector (fun s =>
    let t := s.th.rg a
    let w := s.th.rg b
    let src := s.th.rg d
    let n := wfld w 48 16
    remote t w n true false (some (.read, src)) .write s (fun m s =>
      match ownBytes s src.toNat n with
      | .wait s => s
      | .full => s.raise 7 src false
      | .damaged s' l => if s.th.vectorBusy then s else s'.raise 10 (word l) false
      | .bytes s bs => stageOr m t n (.write bs) s (fun s => s.advance)))))

/-- The destination of a RAMO holds an unfilled result until release (R290). -/
def markRamo (d : BitVec 5) (s : State) : State :=
  if d = 0 then s
  else s.modTh (fun th => { th.emptyG d with ramo := th.ramo ||| BitVec.ofNat 32 (2 ^ d.toNat) })

/-- RAMO of function `f` of Table 8.5: operand and compare value captured, the operation staged. -/
def ramo (f : Nat) (d a b : BitVec 5) (s : State) : State :=
  s.withG ([a, b, d] ++ (if f = 9 then [d + 1] else [])) (fun s => s.withVector (fun s =>
    let t := s.th.rg a
    let x := if f = 9 then s.th.rg (d + 1) else s.th.rg d
    let c := s.th.rg d
    remote t (s.th.rg b) 8 false true none .write s (fun m s =>
      stageOr m t 8 (.ramo f x c s.curCore s.curSlot d.toNat) s (fun s => (markRamo d s).advance))))

def execRamoAdd (d a b : BitVec 5) (s : State) : Result := .next (ramo 0 d a b s)
def execRamoAnd (d a b : BitVec 5) (s : State) : Result := .next (ramo 1 d a b s)
def execRamoOr (d a b : BitVec 5) (s : State) : Result := .next (ramo 2 d a b s)
def execRamoXor (d a b : BitVec 5) (s : State) : Result := .next (ramo 3 d a b s)
def execRamoMin (d a b : BitVec 5) (s : State) : Result := .next (ramo 4 d a b s)
def execRamoMax (d a b : BitVec 5) (s : State) : Result := .next (ramo 5 d a b s)
def execRamoMinu (d a b : BitVec 5) (s : State) : Result := .next (ramo 6 d a b s)
def execRamoMaxu (d a b : BitVec 5) (s : State) : Result := .next (ramo 7 d a b s)
def execRamoSwap (d a b : BitVec 5) (s : State) : Result := .next (ramo 8 d a b s)
def execRamoCas (d a b : BitVec 5) (s : State) : Result := .next (ramo 9 d a b s)

/-! ## GET_FILL (R289) -/

/-- What reading Pre of a range answers: the bytes (none where a check fails), or that a line waits for a `.next` operation or
a reclaim, or that a word is damaged. -/
inductive PreRange where
  | got (s : State) (r : Option (List Byte))
  | waits
  | damaged (s : State)

/-- Pre of a range of this module for a core.  A GET of the issuing core's own local store is an access of the holding launch
and reclaims a leased granule first (spec/16_harvest.md R408). -/
def preRange (core slot ctx : Nat) : List (Nat × Nat) → State → List Byte → PreRange
  | [], s, acc => .got s (some acc)
  | (a, n) :: rest, s, acc =>
    match checkAccess s core slot .m ctx .read (a % 2 ^ 64) with
    | .ok p =>
      if lineBusyNext s ctx (p.loc core) then .waits
      else match reclaimFor s core slot p with
        | none => .waits
        | some s =>
          match readPre s (dieOf core) ctx core slot p n with
          | .bytes s bs => preRange core slot ctx rest s (acc ++ bs)
          | .damaged s _ => .damaged s
          | _ => .waits
    | _ => .got s none

/-- A GET ends: its register fills and its lines clear. -/
def endGet (s : State) (g : GetOp) (w : Word) : State :=
  let s := releaseLines { s with gets := s.gets.filter (fun x => x.id ≠ g.id) } g.id
  s.fillG (tid g.core g.slot) (BitVec.ofNat 5 g.d) w

/-- Every pre-image of lines that writer `w` writes for an operation, before any byte is written (R180); a line that finds no
room is named. -/
def linesPre (die ctx w : Nat) : List Nat → State → PreAnswer × Nat
  | [], s => (.taken s, 0)
  | l :: rest, s =>
    match enginePre s die ctx l w with
    | .taken s => linesPre die ctx w rest s
    | x => (x, l)

/-- The bytes of a GET.B written part by part. -/
def getWrite (g : GetOp) : List (Nat × Nat) → List Byte → State → State
  | [], _, s => s
  | (loc, n) :: rest, bs, s => getWrite g rest (bs.drop n) (pokeBytes s (dieOf g.core) g.ctx loc (bs.take n))

/-- Marks a GET that an uncorrectable word has stopped: it is not filled before the rollback (spec/18_traps.md R445). -/
def stopGet (s : State) (g : GetOp) : State := { s with gets := s.gets.map (fun (x : GetOp) => if x.id = g.id then { x with dead := true } else x) }

/-- The data of a GET arrive. -/
def fillGet (s : State) (g : GetOp) : State :=
  let answer : PreRange :=
    if g.tmod = s.modnum then preRange g.core g.slot g.ctx (partsOf g.addr g.len) s []
    else if s.failedModules.contains g.tmod then .got s none
    else match g.reply with
      | some r => .got s (if r.1 then some r.2 else none)
      | none => .waits
  if g.dead then s
  else match answer with
  | .waits => s
  | .damaged s => stopGet s g
  | .got s r =>
    match g.dest with
    | none => endGet s g (match r with
      | some bs => wordOfBytes bs
      | none => 0)
    | some parts =>
      match r with
      | none => endGet s g 1
      | some bs =>
        let lines := dedup (parts.map (fun x => lineOf x.1))
        if lines.any (fun l => ownedByOlder s (dieOf g.core) g.ctx l g.id) then s
        else match linesPre (dieOf g.core) g.ctx (writerOf g.slot) lines s with
          | (.taken s, _) => endGet (getWrite g parts bs s) g 0
          | (.wait, _) => s
          | (.full, l) =>
            if g.held then s
            else
              let s := { s with gets := s.gets.map (fun (x : GetOp) => if x.id = g.id then { x with held := true } else x) }
              s.modThread (tid g.core g.slot) (fun th => { th with pendVF := th.pendVF ++ [word l] })

def execGetFill (op : Nat) (s : State) : Result :=
  .next (match s.gets.find? (fun g => g.id = op) with
    | none => s
    | some g => fillGet s g)

end Sys2Proof.Machine
end

