-- ==== Sys2Proof/Machine/Threads.lean ====
section
/-! DEFINITION. Threads: full bits, queue registers, SPAWN and SEND, task queues and stealing, EXIT, SLEEP and the clearing of
slots (spec/04_threads.md R82-R114). -/

namespace Sys2Proof.Machine

open Sys2Proof

/-! ## Full bits and queues (R89-R91) -/

def execProbe (d a : BitVec 5) (s : State) : Result := .next (s.putG d (wordOfBool (s.th.fullG a))).advance

/-- PROBE.V waits until every vector entry queued before it has executed (R144). -/
def execProbeV (d a : BitVec 5) (s : State) : Result :=
  .next (if s.th.vectorBusy then s else (s.putG d (wordOfBool (s.th.fullV a))).advance)

def execEmpty (a : BitVec 5) (s : State) : Result := .next (s.modTh (fun th => th.emptyG a)).advance

def execEmptyV (a : BitVec 5) (s : State) : Result :=
  .next (if s.th.vectorBusy then s else (s.modTh (fun th => th.emptyV a)).advance)

def execQpush (d a : BitVec 5) (s : State) : Result :=
  .next (s.withG [a] (fun s =>
    let q := qIdx d
    if 8 ≤ (s.th.queue q).length then s.park (.queue q.toNat)
    else (s.modTh (fun th => th.setQueue q (th.queue q ++ [th.rg a]))).advance))

def execQpop (d a : BitVec 5) (s : State) : Result :=
  .next (
    let q := qIdx a
    match s.th.queue q with
    | [] => s.park (.queue q.toNat)
    | x :: rest => s.readQueues (fun s => ((s.modTh (fun th => th.setQueue q rest)).putG d x).advance))

def execQlen (d a : BitVec 5) (s : State) : Result :=
  .next (s.putG d (word (s.th.queue (qIdx a)).length)).advance

/-! ## Starting a thread (R84, R94, R114) -/

/-- Doubleword `i` of a context's launch record (spec/17_launch.md Table 17.1). -/
def recDw (s : State) (ctx i : Nat) : Word :=
  match s.job ctx with
  | some j => j.record.getD i 0
  | none => 0

/-- Whether the running launch of a context is a harvest launch. -/
def isHarvest (s : State) (ctx : Nat) : Bool := (recDw s ctx 0).getLsbD 3

/-- SPOVF at a thread's start (R114). -/
def spovfAt (s : State) (ctx core slot : Nat) : Word :=
  let base := recDw s ctx 3
  if base = 0 then 0 else base + word ((core * 10 + slot) * 16384)

/-- The state a thread starts with in a slot (R84, R64), in U mode at `pc`; what the slot itself holds stays. -/
def freshThread (s : State) (core slot ctx : Nat) (pc : Word) : Thread :=
  let th := s.thread (tid core slot)
  { Thread.reset with
    st := .idle, ctx := ctx, pc := pc, prng := identity s core slot ^^^ 0x9E3779B9, spovf := spovfAt s ctx core slot
    heldRec := th.heldRec, startC := th.startC, startH := th.startH, began := true }

/-- Starts a thread with registers received (SPAWN_START, `Deliver`); TQRUN counts it from now (R106). -/
def startThread (s : State) (core slot ctx : Nat) (pc : Word) (regs : List (BitVec 5 × Word)) : State :=
  let th := { freshThread s core slot ctx pc with startNs := some s.time }
  let th := regs.foldl (fun th r => th.wg r.1 r.2) th
  let s := (s.setThread (tid core slot) th).ready (tid core slot)
  s.trace (dieOf core) ctx 1 (identity s core slot) pc

/-- Whether a slot can receive a thread of a context: Idle, and no thread is on its way to it. -/
def slotOpen (s : State) (ctx core slot : Nat) : Bool :=
  let th := s.thread (tid core slot)
  decide (th.st = .idle ∧ th.ctx = ctx) &&
    !s.starts.any (fun o => decide (o.core = core ∧ o.slot = slot)) &&
    !(match s.job ctx with
      | some j => (decide (j.phase = .decided) || (decide (j.phase = .halted) && !th.began)) && (th.heldRec || j.born.any (fun b => decide (b.1 = tid core slot)))
      | none => false)

/-- Whether threads of a context may start: its superstep runs and this module has not reported its arrival. -/
def mayStart (s : State) (ctx : Nat) : Bool :=
  match s.job ctx with
  | some j => (decide (j.phase = .running) || (decide (j.phase = .halted) && j.stepped)) && !j.reported
  | none => false

/-- The slots of a core in which threads of a context go: owner slots, or the sash banks of a harvest launch (R415). -/
def slotsFor (s : State) (ctx : Nat) : List Nat := if isHarvest s ctx then [8, 9] else List.range 8

/-- Whether a core holds a slot set of a context, on a retired die too (R93). -/
def holdsSlots (s : State) (ctx core : Nat) : Bool :=
  decide (core < numGcores) &&
    (List.range slotsPerCore).any (fun k =>
      let th := s.thread (tid core k)
      decide (th.st ≠ .unheld ∧ th.ctx = ctx))

/-- Cores in the order of `FindSlot` (R94). -/
def coreOrder (p : Nat) : List Nat :=
  let t := fld p 0 13
  let scope := fld p 14 2
  let cl := clusterOf t
  let i := idxOf (t % 256)
  [t] ++ (if 1 ≤ scope then (List.range 7).map (fun k => gcoreAt cl ((i + 1 + k) % 8)) else []) ++
    (if scope = 2 then
      (List.range 31).flatMap (fun k =>
        let c := cl / 32 * 32 + (cl % 32 + 1 + k) % 32
        (List.range 8).map (gcoreAt c))
     else [])

/-- `FindSlot` (R94, R415). -/
def findSlot (s : State) (ctx p : Nat) : Option (Nat × Nat) :=
  ((coreOrder p).flatMap (fun c => (slotsFor s ctx).map (fun k => (c, k)))).find? (fun x => slotOpen s ctx x.1 x.2)

/-- Whether a placement word fails (R93). -/
def badPlacement (s : State) (p : Word) (sameDie : Bool) : Bool :=
  let g := wfld p 0 13
  decide (wfld p 16 48 ≠ 0) || decide (wfld p 14 2 = 3) || decide (numGcores ≤ g) || !holdsSlots s s.curCtx g ||
    (sameDie && decide (dieOf g ≠ s.curDie))

/-! ## Task queues (R101, R102, R105) -/

/-- A task-queue descriptor in force: address of the descriptor, ring, capacity, head and count. -/
structure TaskQueue where
  at_ : Nat
  ring : Nat
  cap : Nat
  head : Nat
  count : Nat

/-- The address of the queue descriptor of a cluster for a context: none where TQBASE names none, or one outside the context's allotment
(log entry 13). -/
def queueAt (s : State) (ctx cluster : Nat) : Option Nat :=
  let die := cluster / 32
  let base := wfld (s.dctx die ctx).tqbase 9 55 * 512
  if base = 0 then none
  else if !(decide (dieAddr die 0 ≤ base) && inAllotment s die ctx (base - dieAddr die 0) 512) then none
  else some (base + 16 * (cluster % 32))

/-- The queue of a cluster for a context; none for capacity 0 (R101), and none for a ring outside the context's allotment (log
entry 13).  A capacity above 4,096 and a ring that is not 64 B aligned are used as they stand (DESIGN CHOICE, log entry 65). -/
def taskQueue (s : State) (ctx cluster : Nat) : Option TaskQueue :=
  let die := cluster / 32
  (queueAt s ctx cluster).bind (fun a =>
    let w1 := s.readWord (a + 8)
    let cap := wfld w1 0 13
    let ring := (s.readWord a).toNat
    if cap = 0 then none
    else if !(decide (dieAddr die 0 ≤ ring) && inAllotment s die ctx (ring - dieAddr die 0) (320 * cap)) then none
    else some { at_ := a, ring := ring, cap := cap, head := wfld w1 48 16, count := wfld w1 32 16 })

/-- Address of the `i`-th entry from the oldest. -/
def TaskQueue.slot (q : TaskQueue) (i : Nat) : Nat := q.ring + 320 * ((q.head + i) % q.cap)

/-- What the controllers read of a cluster's queue: its descriptor and entries, by address and length. -/
def queueRanges (s : State) (ctx cluster : Nat) : List (Nat × Nat) :=
  match queueAt s ctx cluster with
  | none => []
  | some a => (a, 16) :: (match taskQueue s ctx cluster with
    | some q => (List.range q.count).map (fun i => (q.slot i, 320))
    | none => [])

/-- The first line of a cluster's queue, or of the place of its next entry, that an operation has still to write: the controllers, which
act on the queue as a thread does, wait for it (spec/09_ordering.md R209, spec/08_die_memory.md R205). -/
def queueWait (s : State) (ctx cluster : Nat) : Option Nat :=
  let next := match taskQueue s ctx cluster with
    | some q => [(q.slot q.count, 320)]
    | none => []
  ((queueRanges s ctx cluster ++ next).flatMap (fun x => linesOf x.1 x.2)).find? (fun l => lineBusy s (cluster / 32) ctx l)

/-- Damaged doublewords of a cluster's queue. -/
def queueMarks (s : State) (ctx cluster : Nat) : List EccMark :=
  s.ecc.filter (fun m => !m.hbm && (queueRanges s ctx cluster).any (fun x => decide (x.1 ≤ m.loc ∧ m.loc < x.1 + x.2)))

/-- The controllers act on a cluster's queue: they wait for a line of it that an operation has still to write, counting the recall
once (R205), and read its check bits: an uncorrectable word stops them until the rollback (spec/18_traps.md R445). -/
def State.withQueue (s : State) (ctx cluster : Nat) (k : State → State) : State :=
  match queueWait s ctx cluster with
  | some l =>
    if (s.cluster cluster).qStall = some l then s
    else (s.modCluster cluster (fun c => { c with qStall := some l })).count ctx 45 1
  | none =>
    let r := (queueMarks s ctx cluster).foldl (fun acc m => match acc with
      | .clean s => readEcc s (cluster / 32) ctx m.loc
      | x => x) (EccAnswer.clean s)
    match r with
    | .clean s => k (if (s.cluster cluster).qStall.isNone then s else s.modCluster cluster (fun c => { c with qStall := none }))
    | .uncorrectable u _ => if (s.job ctx).any (fun j => j.abortMask.getLsbD 1) then s else u

/-- The same for several clusters. -/
def withQueues (ctx : Nat) : List Nat → (State → State) → State → State
  | [], k, s => k s
  | c :: cs, k, s => s.withQueue ctx c (withQueues ctx cs k)

/-- Takes the undo lines of a range of die memory; none where one finds no room. -/
def preDieRange (s : State) (die a n : Nat) : Option State :=
  (linesOf a n).foldl (fun acc l => acc.bind (fun s => takePreDie s die l)) (some s)

/-- Writes the head and count of a queue's descriptor. -/
def setQueueWord (s : State) (q : TaskQueue) (head count : Nat) : State :=
  s.writeN (q.at_ + 12) (bytesOf 2 count ++ bytesOf 2 head)

/-- What an enqueue answers. -/
inductive QueueAnswer where
  | queued (s : State)
  | full
  /-- A line of the queue finds no undo line (spec/08_die_memory.md R198). -/
  | noUndo (loc : Nat)

/-- Appends the 320 bytes of a task (R102), its stamp from TIME. -/
def enqueue (s : State) (ctx cluster : Nat) (words : List Nat) : QueueAnswer :=
  match taskQueue s ctx cluster with
  | none => .full
  | some q =>
    if q.cap ≤ q.count then .full
    else
      let die := cluster / 32
      let a := q.slot q.count
      match (preDieRange s die a 320).bind (fun s => preDieRange s die q.at_ 16) with
      | none => .noUndo a
      | some s =>
        let bytes := words.flatMap (bytesOf 8)
        .queued (setQueueWord (s.writeN a bytes) q q.head (q.count + 1))

/-- The 40 doublewords of a spawn task (Table 4.10): registers at their positions. -/
def spawnTask (s : State) (p pc : Word) (d n : Nat) (img : List Word) (sender : Nat) : List Nat :=
  [1 * 2 ^ 62 + d * 2 ^ 51 + n * 2 ^ 45 + wfld p 0 16, pc.toNat, sender, s.time] ++
    (List.range 32).map (fun r => if d ≤ r ∧ r < d + n then (img.getD (r - d) 0).toNat else 0) ++ List.replicate 4 0

/-- The 40 doublewords of a message task. -/
def messageTask (s : State) (m : Message) : List Nat :=
  [2 * 2 ^ 62 + m.cls * 2 ^ 56 + m.payload.length * 2 ^ 45 + wfld m.place 0 16, 0, m.sender.toNat, s.time] ++
    (List.range 36).map (fun i => (m.payload.getD i 0).toNat)

/-- A task read from a queue entry. -/
structure Task where
  spawn : Bool
  cls : Nat
  d : Nat
  n : Nat
  place : Nat
  pc : Word
  sender : Word
  stamp : Nat
  img : List Word

def readTask (s : State) (a : Nat) : Task :=
  let w := s.readWord a
  { spawn := decide (wfld w 62 2 = 1), cls := wfld w 56 6, d := wfld w 51 5, n := wfld w 45 6, place := wfld w 0 16,
    pc := s.readWord (a + 8), sender := s.readWord (a + 16), stamp := (s.readWord (a + 24)).toNat,
    img := (List.range 32).map (fun i => s.readWord (a + 32 + 8 * i)) }

/-- Whether a placement admits a core of its cluster (R102). -/
def admits (place core : Nat) : Bool :=
  if fld place 14 2 = 0 then decide (fld place 0 13 = core) else decide (clusterOf (fld place 0 13) = clusterOf core)

/-- Removes the `i`-th entry from the oldest: the older entries move up one place and the head passes one (log entry 13). -/
def removeTask (s : State) (cluster : Nat) (q : TaskQueue) : Nat → Option State
  | 0 => (preDieRange s (cluster / 32) q.at_ 16).map (fun s => setQueueWord s q ((q.head + 1) % q.cap) (q.count - 1))
  | i + 1 =>
    match preDieRange s (cluster / 32) (q.slot (i + 1)) 320 with
    | none => none
    | some s => removeTask (s.writeN (q.slot (i + 1)) (s.readN (q.slot i) 320)) cluster q i

/-- The oldest entry that meets a test, with its index. -/
def findTask (s : State) (q : TaskQueue) (p : Task → Bool) : Option (Nat × Task) :=
  ((List.range q.count).map (fun i => (i, readTask s (q.slot i)))).find? (fun x => p x.2)

/-! ## Messages (R96, R97, R102, R103) -/

/-- Class entry `c` in force: entry address and count; absent for 0. -/
def classEntry (s : State) (ctx c : Nat) : Word × Nat := (s.ctx ctx).classes.getD c (0, 0)

/-- g1 to g[count] from the payload, and g31 the sender (R96). -/
def payloadRegs (count : Nat) (payload : List Word) (sender : Word) : List (BitVec 5 × Word) :=
  (List.range count).map (fun k => (BitVec.ofNat 5 (k + 1), payload.getD k 0)) ++ [((31 : BitVec 5), sender)]

/-- Counts a SPAWN or SEND received in its superstep (spec/11_supersteps.md R294). -/
def noteReceived (s : State) (ctx : Nat) (fresh : Bool) : State :=
  if fresh then s.modJob ctx (fun j => { j with received := j.received + 1 }) else s

/-- Drops a message (R96). -/
def dropMessage (s : State) (m : Message) : State := noteReceived (s.count m.ctx 42 1) m.ctx m.fresh

/-- Whether a message's class is absent, or its entry address odd (R96). -/
def badClass (e : Word × Nat) : Bool := decide (e.1 = 0) || e.1.getLsbD 0

/-- `Deliver` at the target die (R96).  It looks for a slot first, also while an earlier message of the cluster is held: R102 would have
every later message wait behind that one (DESIGN CHOICE, log entry 13). -/
def deliver (s : State) (m : Message) : State :=
  let e := classEntry s m.ctx m.cls
  let cluster := clusterOf (wfld m.place 0 13)
  let hold := s.modCluster cluster (fun c => { c with held := c.held ++ [m] })
  if badClass e then dropMessage s m
  else match findSlot s m.ctx m.place.toNat with
    | some (c, k) =>
      noteReceived (startThread s c k m.ctx e.1 (payloadRegs e.2 m.payload (m.sender.setWidth 64))) m.ctx m.fresh
    | none =>
      if (s.cluster cluster).held.any (fun h => h.ctx = m.ctx) then hold
      else match enqueue s m.ctx cluster (messageTask s m) with
        | .queued s => noteReceived s m.ctx m.fresh
        | _ => hold

/-- The oldest held message of a context enters the cluster's queue while it has room (R102, R103). -/
def refillQueue (ctx cluster : Nat) : Nat → State → State
  | 0, s => s
  | n + 1, s =>
    match (s.cluster cluster).held.find? (fun h => h.ctx = ctx) with
    | none => s
    | some m =>
      match enqueue s ctx cluster (messageTask s m) with
      | .queued s =>
        let s := s.modCluster cluster (fun c => { c with held := c.held.erase m })
        refillQueue ctx cluster n (noteReceived s ctx m.fresh)
      | _ => s

/-- Starts a dequeued or stolen task in a slot (R102, R106). -/
def runTask (s : State) (ctx core slot : Nat) (t : Task) : State :=
  let s := s.count ctx 38 (s.time - t.stamp)
  let s := s.trace (dieOf core) ctx 6 (identity s core slot) (word (s.time - t.stamp))
  if t.spawn then
    startThread s core slot ctx t.pc
      ((List.range t.n).map (fun k => (BitVec.ofNat 5 (t.d + k), t.img.getD (t.d + k) 0)))
  else
    let e := classEntry s ctx t.cls
    if badClass e then s.count ctx 42 1
    else startThread s core slot ctx e.1 (payloadRegs e.2 (t.img.take t.n) t.sender)

/-- An Idle slot takes the oldest task that admits its core, or the oldest held message that admits it (R102, R103). -/
def execTaskDequeue (core slot : Nat) (s : State) : Result :=
  .next (
    let ctx := (s.thread (tid core slot)).ctx
    let cluster := clusterOf core
    if isControl core || !mayStart s ctx || !slotOpen s ctx core slot || !(slotsFor s ctx).contains slot then s
    else
      let direct (s : State) : State :=
        match (s.cluster cluster).held.find? (fun h => decide (h.ctx = ctx) && admits h.place.toNat core) with
        | none => s
        | some m =>
          let s := s.modCluster cluster (fun c => { c with held := c.held.erase m })
          let e := classEntry s ctx m.cls
          if badClass e then dropMessage s m
          else noteReceived (startThread s core slot ctx e.1 (payloadRegs e.2 m.payload (m.sender.setWidth 64))) ctx m.fresh
      s.withQueue ctx cluster (fun s =>
        match taskQueue s ctx cluster with
        | none => direct s
        | some q =>
          match findTask s q (fun t => admits t.place core) with
          | none => direct s
          | some (i, t) =>
            match removeTask s cluster q i with
            | none => s
            | some s => refillQueue ctx cluster (s.cluster cluster).held.length (runTask s ctx core slot t)))

/-! ## Stealing (R104) -/

/-- The neighbours of a cluster in the order of a round. -/
def neighbours (cluster : Nat) : List Nat :=
  let cl := cluster % 32
  let die := cluster / 32 * 32
  (if cl % 8 ≠ 0 then [die + cl - 1] else []) ++ (if cl % 8 ≠ 7 then [die + cl + 1] else []) ++
    (if 8 ≤ cl then [die + cl - 8] else []) ++ (if cl + 8 < 32 then [die + cl + 8] else [])

def stealable (s : State) (ctx cluster : Nat) : Option (TaskQueue × Nat × Task) :=
  (taskQueue s ctx cluster).bind (fun q => (findTask s q (fun t => t.place.testBit 13)).map (fun x => (q, x.1, x.2)))

/-- An Idle slot of the context in a cluster that no entry of the cluster's own queue admits. -/
def thief (s : State) (ctx cluster : Nat) : Option (Nat × Nat) :=
  ((List.range 8).flatMap (fun i => (slotsFor s ctx).map (fun k => (gcoreAt cluster i, k)))).find? (fun x =>
    slotOpen s ctx x.1 x.2 && (match taskQueue s ctx cluster with
      | none => true
      | some q => (findTask s q (fun t => admits t.place x.1)).isNone))

/-- The condition of R104. -/
def mayStealAt (s : State) (ctx cluster : Nat) : Bool :=
  mayStart s ctx && (thief s ctx cluster).isSome &&
    (List.range 32).any (fun c => (stealable s ctx (cluster / 32 * 32 + c)).isSome)

/-- The attempts of a round for an Idle slot: a neighbour that holds no stealable entry is a failure, counted. -/
def attempts (ctx core slot : Nat) : List Nat → State → State
  | [], s => s
  | n :: rest, s =>
    match stealable s ctx n with
    | some (q, i, t) =>
      (match removeTask s n q i with
       | none => s
       | some s => refillQueue ctx n (s.cluster n).held.length (runTask s ctx core slot t))
    | none => attempts ctx core slot rest (s.count ctx 41 1)

/-- Begins a round, or ends the one that runs (R104, R106; log entry 14).  A round whose Idle slot is gone, or whose context may
start no thread any more, ends without an attempt. -/
def stealTurn (s : State) (cluster ctx : Nat) : State :=
  let began := (s.cluster cluster).stealing.find? (fun e => e.1 = ctx)
  withQueues ctx (cluster :: neighbours cluster) (fun s => match began with
  | some (_, t0) =>
    let s := s.modCluster cluster (fun c => { c with stealing := c.stealing.del ctx })
    let done := match thief s ctx cluster with
      | some (c, k) => if mayStart s ctx then attempts ctx c k (neighbours cluster) s else s
      | none => s
    done.count ctx 40 (s.time - t0)
  | none =>
    if mayStealAt s ctx cluster then s.modCluster cluster (fun c => { c with stealing := c.stealing.set ctx s.time }) else s) s

def execStealRound (cluster : Nat) (s : State) : Result :=
  .next ((dedup ((List.range 8).flatMap (fun i => (List.range slotsPerCore).filterMap (fun k =>
      let th := s.thread (tid (gcoreAt cluster i) k)
      if th.st = .idle then some th.ctx else none)) ++ (s.cluster cluster).stealing.map (·.1))).foldl
    (fun s ctx => stealTurn s cluster ctx) s)

/-! ## SPAWN and SEND (R95, R96, R98, R99) -/

def regRange (r : BitVec 5) (n : Nat) : List (BitVec 5) := (List.range n).map (fun k => r + BitVec.ofNat 5 k)

/-- Counts a SPAWN or same-die SEND that will start a thread, be enqueued, dropped or held (spec/11_supersteps.md R294). -/
def noteSent (s : State) : State := s.modJob s.curCtx (fun j => { j with sent := j.sent + 1 })

def execSpawn (d a b : BitVec 5) (n : BitVec 6) (s : State) : Result :=
  .next (s.withG ([a, b] ++ regRange d n.toNat) (fun s => s.withVector (fun s =>
    let p := s.th.rg a
    let pc := s.th.rg b
    let img := (regRange d n.toNat).map s.th.rg
    if badPlacement s p true then s.raise 4 p false
    else if pc.getLsbD 0 then s.raise 3 pc false
    else s.withDrain (fun s =>
      match findSlot s s.curCtx p.toNat with
      | some (c, k) =>
        let o : SpawnOp :=
          { id := s.opCount + 1, ctx := s.curCtx, core := c, slot := k, pc := pc, d := d.toNat, image := img,
            byCore := s.curCore, bySlot := s.curSlot }
        let s := noteSent { s with starts := s.starts ++ [o], opCount := s.opCount + 1 }
        (s.putG d ((identity s c k).setWidth 64)).advance
      | none =>
        let cluster := clusterOf (wfld p 0 13)
        s.withQueue s.curCtx cluster (fun s =>
          match enqueue s s.curCtx cluster
              (spawnTask s p pc d.toNat n.toNat img (identity s s.curCore s.curSlot).toNat) with
          | .queued s => (noteReceived (noteSent (s.putG d 0x40000000)) s.curCtx true).advance
          | .full => (s.putG d 0x80000000).advance
          | .noUndo loc => s.raise 7 (word loc) true)))))

def send (a b : BitVec 5) (n c : Nat) (s : State) : State :=
  s.withG (a :: regRange b n) (fun s => s.withVector (fun s =>
    let p := s.th.rg a
    if badPlacement s p false then s.raise 4 p false
    else s.withDrain (fun s =>
      let g := wfld p 0 13
      let same := decide (dieOf g = s.curDie)
      let m : Message :=
        { ctx := s.curCtx, place := p, cls := c, payload := (regRange b n).map s.th.rg,
          sender := identity s s.curCore s.curSlot, fresh := same }
      if same then
        let o : SendOp := { id := s.opCount + 1, msg := m, byCore := s.curCore, bySlot := s.curSlot }
        (noteSent { s with sends := s.sends ++ [o], opCount := s.opCount + 1 }).advance
      else stageOr s.modnum (word (localAddr g 0)) (8 * n) (.send m) s (fun s => s.advance))))

def execSend (a b n : BitVec 5) (c : BitVec 6) (s : State) : Result := .next (send a b n.toNat c.toNat s)

/-- A SPAWN's thread starts (R100). -/
def execSpawnStart (op : Nat) (s : State) : Result :=
  .next (match s.starts.find? (fun o => o.id = op) with
    | none => s
    | some o =>
      let s := { s with starts := s.starts.filter (fun x => x.id ≠ op) }
      let regs := (List.range o.image.length).map (fun k => (BitVec.ofNat 5 (o.d + k), o.image.getD k 0))
      noteReceived (startThread s o.core o.slot o.ctx o.pc regs) o.ctx true)

/-- A same-die message arrives (R96, R100). -/
def execDeliver (op : Nat) (s : State) : Result :=
  .next (match s.sends.find? (fun o => o.id = op) with
    | none => s
    | some o =>
      let m := o.msg
      let go (s : State) : State := deliver { s with sends := s.sends.filter (fun x => x.id ≠ op) } m
      let cluster := clusterOf (wfld m.place 0 13)
      if badClass (classEntry s m.ctx m.cls) || (findSlot s m.ctx m.place.toNat).isSome ||
          (s.cluster cluster).held.any (fun h => h.ctx = m.ctx) then go s
      else s.withQueue m.ctx cluster go)

/-! ## Outstanding operations of a thread (R108, spec/11_supersteps.md R269) -/

/-- Whether an engine operation of the thread, a `.next` one apart, is not complete. -/
def engineBusy (s : State) (core slot : Nat) : Bool :=
  s.engine.any (fun o => decide (o.core = core ∧ o.slot = slot ∧ o.nxt = .plain)) ||
    (s.ctx (s.ctxOf (tid core slot))).amp.queue.any (fun o => decide (o.core = core ∧ o.slot = slot)) ||
    (match (s.core core).run with
     | some r => r.posts.any (fun p => decide (p.slot = slot ∧ p.reg ≠ 0))
     | none => false)

/-- Whether an operation names a register of the thread: engine operations, GETs, tickets and LEAVE. -/
def namesRegister (s : State) (core slot : Nat) : Bool :=
  engineBusy s core slot || s.gets.any (fun g => decide (g.core = core ∧ g.slot = slot)) ||
    !(s.thread (tid core slot)).tickets.isEmpty ||
    (s.die (dieOf core)).leaveq.any (fun r => match r.what with
      | .leave c k _ => decide (c = core ∧ k = slot)
      | _ => false)

/-- Whether the sequencer of a thread holds no entry that is still to execute. -/
def seqDone (th : Thread) : Bool := !th.vectorQueued

/-! ## The record place of a slot (spec/11_supersteps.md R269-R271, spec/16_harvest.md R414) -/

/-- Location of a slot's continuation record: the record area, or the harvester's backing area. -/
def recordLoc (s : State) (core slot : Nat) : Nat :=
  if slot < 8 then localAddr core (0xB800 + 256 * slot)
  else (((s.core core).leases.get (bankIdx slot)).hback.toNat + 0xC000) % 2 ^ 64

/-- The address a trap at the record reports. -/
def recordAddr (s : State) (core slot : Nat) : Word :=
  if slot < 8 then word (2 ^ 64 - 65536 + 0xB800 + 256 * slot) else word (recordLoc s core slot)

/-- Writes versioned bytes of a slot's record at an offset; none where a pre-image finds no room or must be waited for. -/
def writeRecord (s : State) (core slot off : Nat) (bs : List Byte) : PreAnswer :=
  let ctx := (s.thread (tid core slot)).ctx
  let loc := recordLoc s core slot + off
  match (linesPre (dieOf core) ctx (writerOf slot) (linesOf loc bs.length) s).1 with
  | .taken s => .taken (pokeBytes s (dieOf core) ctx loc bs)
  | x => x

/-! ## EXIT, YIELD and SLEEP (R107-R110) -/

/-- EXIT: the stream stops, open loop bodies close (R148), and the slot waits; TQRUN counts (R106). -/
def exit (s : State) : State :=
  let s := s.issued
  let s := match s.th.startNs with
    | some t0 => (s.count s.curCtx 39 (s.time - t0)).modTh (fun th => { th with startNs := none })
    | none => s
  (s.modTh Thread.closeSeq).park .exitDrain

def execExit (s : State) : Result := .next (exit s)

/-- YIELD moves the slot to the end of both orders (R109, R117). -/
def execYield (s : State) : Result :=
  .next (s.advance.modCore s.curCore (fun c => { c with vOrder := rotate c.vOrder s.curSlot }))

def execSleep (a : BitVec 5) (s : State) : Result :=
  .next (s.withG [a] (fun s =>
    let w := s.th.rg a
    let t := if wfld w 32 32 = 0 then wfld w 0 32 else 2 ^ 32 - 1
    if t = 0 then s.advance
    else (s.issued.modTh (fun th => { th with sleepEnd := s.cy + t, parkNpc := s.npc })).park .sleep))

/-- The count of a SLEEP runs out (R110). -/
def execSleepExpiry (core slot : Nat) (s : State) : Result :=
  .next (
    let t := tid core slot
    let th := s.thread t
    if decide (th.st = .parked ∧ th.wait = .sleep) && decide (th.sleepEnd ≤ s.cy) then
      (s.modThread t (fun th => { th with came := th.pc, cameBr := false, pc := th.parkNpc, stall := none })).ready t
    else s)

/-! ## The clearing of a slot (R108, R111) -/

/-- A staged RAMO of a thread that exits, and a sum of R397, give their results to no register (R108, spec/11_supersteps.md
R290); those of the thread whose record the slot holds are spared (R293). -/
def dropRamo (s : State) (core slot : Nat) : State :=
  { s with staged := s.staged.map (fun (o : StagedOp) =>
      match o.act with
      | .ramo f x c core' slot' _ =>
        if core' = core ∧ slot' = slot ∧ o.kept = false then { o with act := .ramo f x c core' slot' 0 } else o
      | _ => o) }.modCtx (s.thread (tid core slot)).ctx (fun c =>
    { c with amp := { c.amp with sums := c.amp.sums.map (fun (r : AmpSum) =>
        if r.t = tid core slot ∧ r.kept = false then { r with d := 0 } else r) } })

/-- The results on their way to a thread that arrives by SYNC.Q go to the thread of its record (R293). -/
def keepResults (s : State) (core slot : Nat) : State :=
  { s with staged := s.staged.map (fun (o : StagedOp) =>
      match o.act with
      | .ramo _ _ _ core' slot' _ => if core' = core ∧ slot' = slot then { o with kept := true } else o
      | _ => o) }.modCtx (s.thread (tid core slot)).ctx (fun c =>
    { c with amp := { c.amp with sums := c.amp.sums.map (fun (r : AmpSum) => if r.t = tid core slot then { r with kept := true } else r) } })

/-- Participants' part in the shutter: the vote of an arrival (spec/11_supersteps.md R272, R273). -/
def contribute (s : State) (ctx : Nat) (vote : Word) (quiet : Bool) : State :=
  s.modJob ctx (fun j => { j with votes := j.votes ++ [vote], quiet := j.quiet || quiet })

/-- The lines of a slot's spill carve-out (R113). -/
def carveLines (s : State) (core slot : Nat) : List Nat :=
  let i := ((ownerSlots (s.core core)).filter (fun x => x < slot)).length
  let size := carveSize s core slot
  (List.range (size / 64)).map (fun k => localAddr core (0xB800 - (i + 1) * size + 64 * k))

/-- Clears a slot's carve-out as versioned writes; without pre-images the core votes abort with bit 5 and the slot stays in
Zeroing (R111, spec/07_local_store.md R182).  Tells whether the carve-out is clear. -/
def clearCarve (s : State) (core slot : Nat) : State × Bool :=
  let ctx := (s.thread (tid core slot)).ctx
  let lines := carveLines s core slot
  match (linesPre (dieOf core) ctx (writerOf slot) lines s).1 with
  | .wait => (s, false)
  | .full => (s.vote ctx 5, false)
  | .taken s => (lines.foldl (fun s l => pokeBytes s (dieOf core) ctx l (bytesOf 64 0)) s, true)

/-- After the EXIT drains the record is marked invalid, except a held one, the slot enters Zeroing and its carve-out starts
to clear (R108, R111, spec/11_supersteps.md R271). -/
def execZeroing (core slot : Nat) (s : State) : Result :=
  .next (
    let t := tid core slot
    let th := s.thread t
    if !decide (th.st = .parked ∧ th.wait = .exitDrain) || !seqDone th || !th.sb.isEmpty || namesRegister s core slot then s
    else
      let go (s : State) : State :=
        let s := dropRamo s core slot
        let s := { s with free := s.free + 1 }
        let s := s.trace (dieOf core) th.ctx 2 (identity s core slot)
          (word (2 * 2 ^ 62 + wfld (freeWord s.free) 0 48))
        (clearCarve (s.modThread t (fun th => { th with st := .zeroing, wait := .none })) core slot).1
      if th.heldRec || isControl core then go s
      else match writeRecord s core slot 8 (bytesOf 8 0) with
        | .taken s => go s
        | .wait => s
        | .full => enterTrap s t 7 (recordAddr s core slot) th.pc false true false th.image.isSome)

/-- The clearing ends and the slot becomes Idle (R111). -/
def execZeroingDone (core slot : Nat) (s : State) : Result :=
  .next (
    let t := tid core slot
    let th := s.thread t
    if th.st ≠ .zeroing then s
    else
      let r := clearCarve s core slot
      if !r.2 then r.1
      else dispatchEvent (r.1.setThread t
        { Thread.reset with st := .idle, ctx := th.ctx, spovf := th.spovf, heldRec := th.heldRec, startC := th.startC
                            startH := th.startH, began := th.began }) (fun _ => true))

/-! ## What the memory system does for a slot on its own -/

def execStoreBufferDrain (core slot : Nat) (s : State) : Result :=
  .next (match drainOne s (tid core slot) with
    | some s => s
    | none => noteSbRecall s (tid core slot))

/-- A missed line of the instruction cache arrives (spec/05_issue.md R124). -/
def execIcacheFill (core slot : Nat) (s : State) : Result :=
  .next (
    let t := tid core slot
    if (s.thread t).st ≠ .ready then s
    else match fetch s t with
      | .instr s _ _ _ => s
      | .illegal s _ => s
      | .wait s => s
      | .trap _ _ _ => s
      | .damaged _ _ => s)

end Sys2Proof.Machine
end

