-- ==== Sys2Proof/Machine/Matrix.lean ====
section
/-! DEFINITION. The matrix engine: operands as planes, accumulator slots, jobs, drains and redundant mode
(spec/12_matrix.md R304-R331, spec/03_numbers.md R60, R77, R78). -/

namespace Sys2Proof.Machine

open Sys2Proof

/-! ## Formats and operands (R304-R307) -/

/-- The element format of a float code of Table 12.1. -/
def matFmt (code : Nat) : Fmt :=
  match code with
  | 9 => .e2m1 | 10 => .e2m3 | 11 => .e3m2 | 12 => .e4 | 13 => .e5 | 14 => .h | 15 => .bh | 16 => .fp19 | 17 => .f
  | 18 => .e4 | _ => .e2m1

def matInt (code : Nat) : Bool := decide (code ≤ 8)
def matMx (code : Nat) : Bool := decide (18 ≤ code)

/-- Stored width W. -/
def matW (code : Nat) : Nat :=
  if matInt code then [1, 1, 2, 2, 4, 4, 8, 8, 2].getD code 0 else (matFmt code).p + (matFmt code).eb

/-- Planes at full precision p. -/
def matP (code : Nat) : Nat := if code = 8 then 1 else if matInt code then matW code else (matFmt code).p

/-- Planes the engine reads of an operand with `p` planes used: always the first ones (R307). -/
def planesRead (code p : Nat) : Nat := if matInt code then matW code else (matFmt code).eb + p

/-- Value of an integer or ternary pattern (spec/03_numbers.md R61). -/
def matIntVal (code x : Nat) : Int :=
  match code with
  | 0 => if x = 0 then -1 else 1
  | 8 => if x % 2 = 0 then 0 else if x / 2 = 0 then 1 else -1
  | 2 => sextInt 2 x
  | 4 => sextInt 4 x
  | 6 => sextInt 8 x
  | _ => x

/-- `TruncVal` of a pattern whose unread fraction bits are zero. -/
def matFVal (code x : Nat) : FVal := (matFmt code).decode (x <<< (matFmt code).pad)

/-- An element's value under its block scale (spec/03_numbers.md R60). -/
def scaled (v : FVal) (x : Nat) : FVal :=
  if x = 255 then .nan false false 0 0
  else match v with
    | .fin s m e => .fin s m (e + x - 127)
    | v => v

/-- Address of chunk (g, s, j) (R305). -/
def chunkAt (base ks w g s j : Nat) : Nat := base + ((g * ks + s) * w + j) * 512

/-- The element pattern of row `r` (within its group) and position `i`, from the words of the planes read. -/
def planeBits (w : Nat) (planes : List (List Nat)) (r i : Nat) : Nat :=
  ((List.range planes.length).map (fun j =>
    if ((planes.getD j []).getD r 0).testBit i then 2 ^ (w - 1 - j) else 0)).foldl (· + ·) 0

/-! ## Slice sums (spec/03_numbers.md R77, R78) -/

/-- `SliceStep` on an FP32 element. -/
def sliceStep (c : Nat) (ab : List (FVal × FVal)) : FRes :=
  let infs := ab.filterMap (fun p => if p.1.isInf || p.2.isInf then some (p.1.sign != p.2.sign) else none)
  if ab.any (fun p => p.1.isNan || p.2.isNan || (p.1.isZero && p.2.isInf) || (p.1.isInf && p.2.isZero))
      || (infs.contains true && infs.contains false) then (0x7FC00000, flIv)
  else match infs with
    | s :: _ => fadd .f .rne (Fmt.f.decode c) (.inf s)
    | [] =>
      let ps := ab.filterMap (fun p =>
        let x := exactMul p.1 p.2
        if x.1 = 0 then none else some x)
      match ps with
      | [] => (c, 0)
      | p :: rest =>
        let top (x : Int × Int) : Int := floorLog2 x.1.natAbs 1 x.2
        let e := rest.foldl (fun m x => max m (top x)) (top p) - 63
        let sum := ps.foldl (fun (acc : Int) x =>
          let sh := x.2 - e
          let n := if 0 ≤ sh then x.1.natAbs <<< sh.toNat else x.1.natAbs >>> (-sh).toNat
          acc + signedSig (decide (x.1 < 0)) n) 0
        if sum = 0 then (c, 0) else fadd .f .rne (Fmt.f.decode c) (.fin (decide (sum < 0)) sum.natAbs e)

/-- The rule of R78 on an INT32 element: the new element, and whether it saturated. -/
def intStep (c : Nat) (ab : List (Int × Int)) : Nat × Bool :=
  let x := ab.foldl (fun acc p => acc + p.1 * p.2) (sextInt 32 c)
  let y := satInt x (-2 ^ 31) (2 ^ 31 - 1)
  (natOfInt 32 y, decide (x ≠ y))

/-! ## Accumulator slots (R309, R313, R314) -/

def State.accOf (s : State) (core i : Nat) : Acc := if i = 0 then (s.core core).acc[0] else (s.core core).acc[1]
def State.setAcc (s : State) (core i : Nat) (x : Acc) : State :=
  s.modCore core (fun c => { c with acc := if i = 0 then c.acc.set 0 x else c.acc.set 1 x })

/-- Every element and twin +0, sat 0. -/
def Acc.clear (x : Acc) : Acc := { x with elems := [], twins := [], sat := false, ecc := .sound }

/-- The element at row `r`, column `c`. -/
def Acc.elem (x : Acc) (r c : Nat) : Nat := Table.get 0 x.elems (64 * r + c)
def Acc.twin (x : Acc) (r c : Nat) : Nat := Table.get 0 x.twins (64 * r + c)

/-- The positions of a slot in row-major order. -/
def Acc.cells (x : Acc) : List (Nat × Nat) := (List.range x.rows).flatMap (fun r => (List.range x.cols).map (fun c => (r, c)))

/-- A table of elements from values in row-major order; zeros are not listed. -/
def accTable (l : List ((Nat × Nat) × Nat)) : Table Nat :=
  l.filterMap (fun x => if x.2 = 0 then none else some (64 * x.1.1 + x.1.2, x.2))

/-- MCFG's effect on a slot (R313). -/
def Acc.configure (x : Acc) (w : Word) : Acc :=
  let rows := wfld w 0 7 + 1
  let cols := wfld w 8 6 + 1
  let int := w.getLsbD 16
  if x.rows = rows ∧ x.cols = cols ∧ x.int = int ∧ w.getLsbD 17 = false then x
  else { x.clear with rows := rows, cols := cols, int := int, clr := true }

/-! ## Posting -/

/-- Whether the core's job queue has room (R312); the engines of a retired die accept no work (spec/01_wafer.md R25): the instruction
waits there, and what is queued stays queued (DESIGN CHOICE, log entry 27: R25 names no trap and no status). -/
def queueRoom (s : State) : Bool := (s.die s.curDie).healthy && decide ((s.engine.filter (fun o => o.queued && decide (o.core = s.curCore))).length < 16)

/-- Whether the cluster's graph has a free node, where one is needed (R341). -/
def nodeRoom (s : State) (need : Bool) : Bool := !need || decide (liveNodes s (engineCluster s.curCore) < 64)

/-- An operation of the running thread as it issues. -/
def newOp (s : State) (d : BitVec 5) (id : Nat) (node : Bool) (preds : List Nat) (kind : EngKind) : EngOp :=
  { op := s.opCount + 1, ctx := s.curCtx, core := s.curCore, slot := s.curSlot, mode := s.th.mode, d := d, id := id,
    node := node, preds := preds, failed := none, kind := kind, nxt := .plain, leave := .none, asked := 0, begun := false,
    passes := 0, flags := 0, sat := false, writes := none, total := 0, seqno := s.th.farSeq, held := false, stall := none,
    dead := false }

/-- Enters an operation and empties its register. -/
def enterPlain (s : State) (o : EngOp) : State :=
  { s with engine := s.engine ++ [o], opCount := o.op }.modTh (fun th => th.emptyG o.d)

/-- Enters an operation, which asks for the leave it needs. -/
def enterOp (s : State) (o : EngOp) : State := askAll (enterPlain s o)

/-- Instructions of a sash bank are refused by ACCESS at address 0 (R311). -/
def ownerOnly (s : State) (k : State → State) : State := if 8 ≤ s.curSlot then s.raise 4 0 false else k s

def execMcfg (a : BitVec 5) (s : State) : Result :=
  .next (s.withG [a] (fun s => ownerOnly s (fun s =>
    let w := s.th.rg a
    if wfld w 21 43 ≠ 0 || wfld w 18 2 ≠ 0 || wfld w 14 2 ≠ 0 || w.getLsbD 7 then s.raise 4 w false
    else s.withVector (fun s =>
      if !queueRoom s then s
      else s.withDrain (fun s => (enterOp s (newOp s 0 0 false [] (.mcfg w))).advance)))))

/-- Whether an address lies in the areas of R316. -/
def descArea (s : State) (a : Word) : Bool :=
  match plainForm a.toNat with
  | .own _ _ => true
  | .local g _ => decide (g = s.curCore)
  | .window d _ => decide (d = s.curDie)
  | .paged _ => true
  | .bad => false

/-- Reads `n` doublewords within one line at `a` as a scalar load of the thread; `k` goes on with them. -/
def readDesc (a : Word) (n : Nat) (s : State) (k : List Word → State → State) : State :=
  match checkAccess s s.curCore s.curSlot s.th.mode s.curCtx .read a.toNat with
  | .denied => s.deny a false
  | .pageFault => s.pageFault (s.reach s.cur a) false
  | .ok p =>
    match loadPlace s s.cur p (8 * n) with
    | .wait s => s
    | .full => s.raise 7 (p.fullAt (s.reach s.cur a)) false
    | .damaged s' l => if s.th.vectorBusy then s else s'.raise 10 (word l) false
    | .bytes s bs => k ((List.range n).map (fun i => wordOfBytes ((bs.drop (8 * i)).take 8))) s

/-- R319, with the slot's configuration as it stands. -/
def badJob (s : State) (w : List Word) : Bool :=
  let dw (i : Nat) : Word := w.getD i 0
  let c := dw 6
  let fa := wfld c 0 5
  let fb := wfld c 8 5
  let pa := wfld c 16 5
  let pb := wfld c 24 5
  let acc := s.accOf s.curCore (wfld c 32 1)
  let badP (f p : Nat) : Bool := decide (p < 1) || decide (matP f < p) || (matInt f && decide (p ≠ matP f))
  wfld c 5 3 ≠ 0 || wfld c 13 3 ≠ 0 || wfld c 21 3 ≠ 0 || wfld c 29 3 ≠ 0 || wfld c 34 14 ≠ 0 || dw 7 ≠ 0 || wfld (dw 5) 32 32 ≠ 0 ||
    19 < fa || 19 < fb || matInt fa != matInt fb || badP fa pa || badP fb pb || acc.int != matInt fa || wfld c 48 16 = 0 ||
    (matMx fa && decide (dw 2 = 0)) || (matMx fb && decide (dw 3 = 0)) || (!matMx fa && decide (dw 2 ≠ 0)) ||
    (!matMx fb && decide (dw 3 ≠ 0)) || wfld (dw 0) 0 9 ≠ 0 || wfld (dw 1) 0 9 ≠ 0 || wfld (dw 4) 0 3 ≠ 0 ||
    (decide (dw 4 ≠ 0) && (wfld (dw 5) 0 2 ≠ 0 || wfld (dw 5) 0 32 < 4 * acc.cols)) ||
    (c.getLsbD 33 && !(s.die s.curDie).capRedmat)

def execMjob (d a b : BitVec 5) (s : State) : Result :=
  .next (s.withG [a, b] (fun s => ownerOnly s (fun s => s.withVector (fun s =>
    let da := s.th.rg a
    let ew := s.th.rg b
    let need := takesNode (wfld ew 0 16) (edgePreds ew)
    if da.toNat % 64 ≠ 0 then s.raise 3 da false
    else if !descArea s da then s.raise 4 da false
    else if wfld ew 50 14 ≠ 0 then s.raise 4 ew false
    else if !queueRoom s || !nodeRoom s need then s
    else s.withDrain (fun s => readDesc da 8 s (fun w s =>
      if badJob s w then s.raise 4 da false
      else
        let preds := matchPreds s (engineCluster s.curCore) s.curCtx (edgePreds ew)
        (enterOp s (newOp s d (wfld ew 0 16) need preds (.job w))).advance))))))

/-- MSTAT (R315). -/
def execMstat (d : BitVec 5) (s : State) : Result :=
  .next (
    if 8 ≤ s.curSlot then (s.putG d 0).advance
    else if s.engine.any (fun o => o.queued && decide (o.core = s.curCore ∧ o.slot = s.curSlot)) then s
    else
      let cfg (x : Acc) : Nat := bit x.int * 2 ^ 14 + (x.cols - 1) * 2 ^ 8 + (x.rows - 1)
      let a0 := s.accOf s.curCore 0
      let a1 := s.accOf s.curCore 1
      let qn := (s.engine.filter (fun o => o.queued && decide (o.core = s.curCore))).length
      (s.putG d (word (qn * 2 ^ 48 + bit a1.sat * 2 ^ 41 + bit a0.sat * 2 ^ 40 + bit a1.clr * 2 ^ 33 + bit a0.clr * 2 ^ 32 +
        cfg a1 * 2 ^ 16 + cfg a0))).advance)

/-- A queued MCFG takes effect (R313). -/
def execMcfgEffect (core : Nat) (s : State) : Result :=
  .next (match s.engine.find? (fun o => decide (o.core = core) && (match o.kind with
      | .mcfg _ => olderDone s o
      | _ => false)) with
    | none => s
    | some o =>
      match o.kind with
      | .mcfg w =>
        let i := wfld w 20 1
        let s := s.setAcc core i ((s.accOf core i).configure w)
        askAll { s with engine := s.engine.filter (fun x => x.op ≠ o.op) }
      | _ => s)

/-! ## Running a job (R321-R325) -/

/-- Byte ranges read on behalf of an operation: a failure's status and address, or the bytes in order. -/
def readRanges (s : State) (o : EngOp) (wait : State → Nat → Bool) (ranges : List (Nat × Nat)) : (Nat × Nat) ⊕ ReadAnswer :=
  match checkParts s o.core o.slot o.mode o.ctx .read (ranges.flatMap (fun r => partsOf r.1 r.2)) [] with
  | .inl e => .inl e
  | .inr parts => .inr (engineReads o wait parts s [])

/-- Whether a job's read of a line waits: it is owned, and not by a younger drain of the job's slot (R328). -/
def jobWaits (o : EngOp) (s : State) (loc : Nat) : Bool :=
  s.owned.any (fun l => decide (l.line = lineOf loc) && (decide (2 ^ 48 ≤ loc) || (decide (l.ctx = o.ctx) && (decide (l.die = dieOf o.core) || l.nxt))) &&
    !(match s.engOp l.op with
      | some x => (match x.kind with
        | .drain .. => decide (x.core = o.core ∧ x.accSlot = o.accSlot ∧ o.op < x.op)
        | _ => false)
      | none => false))

/-- What one side of a job reads in a pass. -/
structure Side where
  code : Nat
  p : Nat
  base : Nat
  sbase : Nat
  rows : Nat
  k : Nat

def Side.groups (x : Side) : Nat := (x.rows + 63) / 64
def Side.slices (x : Side) : Nat := (x.k + 63) / 64
def Side.blocks (x : Side) : Nat := (x.k + 31) / 32
def Side.read (x : Side) : Nat := planesRead x.code x.p

/-- Every byte range of the image and the scales. -/
def Side.image (x : Side) : List (Nat × Nat) := [(x.base, x.groups * x.slices * matW x.code * 512)]
def Side.scales (x : Side) : List (Nat × Nat) := if matMx x.code then [(x.sbase, x.rows * x.blocks)] else []

/-- Chunks of slice `s`, group by group and plane by plane. -/
def Side.chunks (x : Side) (s : Nat) : List (Nat × Nat) :=
  (List.range x.groups).flatMap (fun g => (List.range x.read).map (fun j =>
    (chunkAt x.base x.slices (matW x.code) g s j, 512)))

/-- Scale bytes of slice `s`, row by row: one or two blocks. -/
def Side.scaleBlocks (x : Side) (s : Nat) : Nat := min 2 (x.blocks - 2 * s)
def Side.sliceScales (x : Side) (s : Nat) : List (Nat × Nat) :=
  if matMx x.code then (List.range x.rows).map (fun r => (x.sbase + r * x.blocks + 2 * s, x.scaleBlocks s)) else []

/-- Bytes of a slice. -/
def Side.bytes (x : Side) (s : Nat) : Nat :=
  x.groups * x.read * 512 + (if matMx x.code then x.rows * x.scaleBlocks s else 0)

/-- The patterns of row `r` in a slice of `n` positions. -/
def Side.row (x : Side) (data : List Byte) (r n : Nat) : List Nat :=
  let words := elemsWords data
  let planes := (List.range x.read).map (fun j => (words.drop ((r / 64 * x.read + j) * 64)).take 64)
  (List.range n).map (planeBits (matW x.code) planes (r % 64))
where
  elemsWords (data : List Byte) : List Nat := (List.range (data.length / 8)).map (fun i => ofBytes ((data.drop (8 * i)).take 8))

/-- The scale bytes of row `r` in a slice. -/
def Side.rowScales (x : Side) (s : Nat) (data : List Byte) (r : Nat) : List Nat :=
  (((data.drop (x.groups * x.read * 512)).drop (r * x.scaleBlocks s)).take (x.scaleBlocks s)).map (·.toNat)

/-- Float values of row `r`. -/
def Side.rowF (x : Side) (s : Nat) (data : List Byte) (r n : Nat) : List FVal :=
  let vs := (x.row data r n).map (matFVal x.code)
  if matMx x.code then
    let sc := x.rowScales s data r
    (List.range vs.length).map (fun i => scaled (vs.getD i (.zero false)) (sc.getD (i / 32) 0))
  else vs

/-- The two sides of a job on a slot. -/
def jobSides (w : List Word) (acc : Acc) : Side × Side :=
  let c := w.getD 6 0
  let k := wfld c 48 16
  ({ code := wfld c 0 5, p := wfld c 16 5, base := (w.getD 0 0).toNat, sbase := (w.getD 2 0).toNat, rows := acc.rows, k := k },
   { code := wfld c 8 5, p := wfld c 24 5, base := (w.getD 1 0).toNat, sbase := (w.getD 3 0).toNat, rows := acc.cols, k := k })

/-- Preload ranges of a job on a slot. -/
def preloadRanges (w : List Word) (acc : Acc) : List (Nat × Nat) :=
  if w.getD 4 0 = 0 then []
  else (List.range acc.rows).map (fun r => ((w.getD 4 0).toNat + r * wfld (w.getD 5 0) 0 32, 4 * acc.cols))

/-- What a turn of the engine on a job comes to. -/
inductive PassAnswer where
  | wait (s : State)
  | fail (s : State) (status detail : Nat)
  | ran (s : State)

/-- The operation stops at an uncorrectable word (spec/18_traps.md R445). -/
def killOp (s : State) (op : Nat) : State := s.modOp op (fun o => { o with dead := true })

/-- The start of a job: its class against the slot, the check of every line, and the preload. -/
def beginJob (s : State) (o : EngOp) (w : List Word) : PassAnswer :=
  let c := w.getD 6 0
  let i := wfld c 32 1
  let acc := s.accOf o.core i
  let sides := jobSides w acc
  if acc.int != matInt (wfld c 0 5) then
    .fail { s with free := s.free + 1 } 2 (wfld (freeWord s.free) 0 32)
  else
    let all := sides.1.image ++ sides.2.image ++ sides.1.scales ++ sides.2.scales ++ preloadRanges w acc
    match checkParts s o.core o.slot o.mode o.ctx .read (all.flatMap (fun r => partsOf r.1 r.2)) [] with
    | .inl e => .fail s e.1 e.2
    | .inr _ =>
      match readRanges s o (jobWaits o) (preloadRanges w acc) with
      | .inl e => .fail s e.1 e.2
      | .inr (.wait s) => .wait s
      | .inr .full => .wait s
      | .inr (.damaged s _) => .wait (killOp s o.op)
      | .inr (.bytes s bs) =>
        let s := if w.getD 4 0 = 0 then s
          else
            let vals := acc.cells.map (fun x => (x, ofBytes ((bs.drop (4 * (x.1 * acc.cols + x.2))).take 4)))
            s.setAcc o.core i { acc with elems := accTable vals, twins := accTable vals, ecc := .sound }
        .ran (s.modOp o.op (fun o => { o with begun := true }))

/-- Reads the check bits of an accumulator slot for an operation: a damaged word is corrected, or the die votes abort and the
operation stops (spec/18_traps.md R444, R445). -/
def accEcc (s : State) (o : EngOp) (i : Nat) (k : State → PassAnswer) : PassAnswer :=
  let acc := s.accOf o.core i
  match acc.ecc with
  | .sound => k s
  | .correctable => k ((s.setAcc o.core i { acc with ecc := .sound }).countCor (dieOf o.core))
  | .uncorrectable => .wait (killOp (eccVote (s.countUnc (dieOf o.core)) (dieOf o.core) o.ctx) o.op)

/-- One tile pass (R321, R325, R329). -/
def tilePass (s : State) (o : EngOp) (w : List Word) : PassAnswer :=
  let c := w.getD 6 0
  let i := wfld c 32 1
  let acc := s.accOf o.core i
  let (x, y) := jobSides w acc
  let k := o.passes
  let n := min 64 (x.k - 64 * k)
  let ranges := x.chunks k ++ x.sliceScales k ++ y.chunks k ++ y.sliceScales k
  match readRanges s o (jobWaits o) ranges with
  | .inl e => .fail s e.1 e.2
  | .inr (.wait s) => .wait s
  | .inr .full => .wait s
  | .inr (.damaged s _) => .wait (killOp s o.op)
  | .inr (.bytes s bs) => accEcc s o i (fun s =>
    let da := bs.take (x.bytes k)
    let db := bs.drop (x.bytes k)
    let red := c.getLsbD 33
    let s :=
      if matInt x.code then
        let ra := (List.range x.rows).map (fun r => (x.row da r n).map (matIntVal x.code))
        let rb := (List.range y.rows).map (fun r => (y.row db r n).map (matIntVal y.code))
        let step (at_ : Nat → Nat → Nat) := acc.cells.map (fun p =>
          (p, intStep (at_ p.1 p.2) ((ra.getD p.1 []).zip (rb.getD p.2 []))))
        let es := step acc.elem
        let ts := if red then step acc.twin else es
        let sat := es.any (fun e => e.2.2)
        let s := s.setAcc o.core i
          { acc with elems := accTable (es.map (fun e => (e.1, e.2.1))), twins := accTable (ts.map (fun e => (e.1, e.2.1)))
                     sat := acc.sat || sat, lastId := o.id }
        s.modOp o.op (fun o => { o with sat := o.sat || sat })
      else
        let ra := (List.range x.rows).map (fun r => x.rowF k da r n)
        let rb := (List.range y.rows).map (fun r => y.rowF k db r n)
        let step (at_ : Nat → Nat → Nat) := acc.cells.map (fun p =>
          (p, sliceStep (at_ p.1 p.2) ((ra.getD p.1 []).zip (rb.getD p.2 []))))
        let es := step acc.elem
        let ts := if red then step acc.twin else es
        let fl := es.foldl (fun f e => f ||| e.2.2) (0 : FFlags)
        let s := s.setAcc o.core i
          { acc with elems := accTable (es.map (fun e => (e.1, e.2.1))), twins := accTable (ts.map (fun e => (e.1, e.2.1)))
                     lastId := o.id }
        s.modOp o.op (fun o => { o with flags := o.flags ||| fl })
    let s := (s.count o.ctx x.code (acc.rows * acc.cols * n)).count o.ctx 33 (if red then 2 else 1)
    .ran (s.modOp o.op (fun o => { o with passes := o.passes + 1 })))

/-- Passes of a job: one for each slice of 64 positions. -/
def jobPasses (w : List Word) : Nat := (wfld (w.getD 6 0) 48 16 + 63) / 64

/-- The oldest ready job of a core's queue that has a pass left besides the one that operation `run` makes now. -/
def readyJob (s : State) (core : Nat) (run : Option Nat) : Option EngOp :=
  s.engine.find? (fun o => decide (o.core = core) && (match o.kind with
    | .job w => mayRun s o && !(decide (run = some o.op) && decide (jobPasses w ≤ o.passes + 1))
    | _ => false))

/-- Weight of a core (R323): mweight of its holding launch. -/
def coreWeight (s : State) (core : Nat) : Nat :=
  match (s.core core).hold with
  | some c => wfld (recDw s c 0) 12 4
  | none => 0

/-- `NextGrant` (R323) while operation `run` makes a pass: the job, and the arbiter after the grant. -/
def nextGrant (s : State) (cluster : Nat) (run : Option Nat) : Option (EngOp × Nat × Nat) :=
  let c := s.cluster cluster
  match (if 0 < c.credit then readyJob s (gcoreAt cluster c.cur) run else none) with
  | some o => some (o, c.cur, c.credit - 1)
  | none =>
    ((List.range 8).map (fun i => (c.cur + 1 + i) % 8)).findSome? (fun i =>
      (readyJob s (gcoreAt cluster i) run).map (fun o => (o, i, coreWeight s (gcoreAt cluster i) - 1)))

/-- The arbiter chooses a pass and holds the choice until it runs. -/
def choosePass (s : State) (cluster : Nat) (run : Option Nat) : State :=
  match nextGrant s cluster run with
  | some (o, cur, credit) => s.modCluster cluster (fun c => { c with cur := cur, credit := credit, granted := some o.op })
  | none => s.modCluster cluster (fun c => { c with granted := none })

/-- The granted job that still stands. -/
def grantedJob (s : State) (cluster : Nat) : Option EngOp :=
  ((s.cluster cluster).granted.bind s.engOp).bind (fun o => if mayRun s o then some o else none)

/-- A pass of a granted job that has begun: as it begins the next one is chosen; the job completes after its last. -/
def runPass (s : State) (cluster : Nat) (o : EngOp) (w : List Word) : State :=
  match tilePass (choosePass s cluster (some o.op)) o w with
  | .wait s' => if (s'.engOp o.op).any (·.dead) then s' else { s' with clusters := s.clusters }
  | .fail s st d => s.complete o st d
  | .ran s =>
    (match s.engOp o.op with
     | some o => if o.passes = jobPasses w then s.complete o 0 o.passes else s
     | none => s)

/-- The job of a granted pass runs its next pass (R321-R323); with no pass granted the arbiter chooses first.  The engine of a
retired die runs none (spec/01_wafer.md R25). -/
def execTilePass (cluster : Nat) (s : State) : Result :=
  .next (
    if !(s.die (cluster / 32)).healthy then s
    else
      let s := if (grantedJob s cluster).isSome then s else choosePass s cluster none
      match grantedJob s cluster with
      | none => s
      | some o =>
        match o.kind with
        | .job w =>
          if o.begun then runPass s cluster o w
          else (match beginJob s o w with
            | .wait s => s
            | .fail s st d => s.complete o st d
            | .ran s => (match s.engOp o.op with
              | some o => runPass s cluster o w
              | none => s))
        | _ => s)

/-! ## Draining (R326, R327, R330) -/

/-- Element size of a drain's target format. -/
def drainSize (dw : Word) : Nat := [4, 2, 2, 1, 1].getD (wfld dw 1 3) 1

/-- Destination ranges of a drain of `rows` × `cols` elements. -/
def drainRanges (dst dw : Word) (rows cols : Nat) : List (Nat × Nat) :=
  (List.range rows).map (fun r => (dst.toNat + r * wfld dw 16 16, cols * drainSize dw))

/-- A destination part prepared for writing: whether staged, its location or target address, and its bytes. -/
def partTarget (core : Nat) (x : Nat × Nat × Place) : Bool × Nat × Nat :=
  if x.2.2.near then (false, x.2.2.loc core, x.2.1) else (true, x.1, x.2.1)

/-- Cuts bytes along prepared parts. -/
def cutTargets : List (Bool × Nat × Nat) → List Byte → List (Bool × Nat × List Byte)
  | [], _ => []
  | x :: rest, bs => (x.1, x.2.1, bs.take x.2.2) :: cutTargets rest (bs.drop x.2.2)

/-- The first `n` bytes of prepared parts, and what follows them. -/
def takeTargets : Nat → List (Bool × Nat × Nat) → List (Bool × Nat × Nat) × List (Bool × Nat × Nat)
  | _, [] => ([], [])
  | n, x :: rest =>
    if n = 0 then ([], x :: rest)
    else if x.2.2 ≤ n then
      let r := takeTargets (n - x.2.2) rest
      (x :: r.1, r.2)
    else ([(x.1, x.2.1, n)], (x.1, x.2.1 + n, x.2.2 - n) :: rest)

def execMdrain (d a b : BitVec 5) (s : State) : Result :=
  .next (s.withG [a, b] (fun s => ownerOnly s (fun s => s.withVector (fun s =>
    let dst := s.th.rg a
    let dw := s.th.rg b
    let acc := s.accOf s.curCore (wfld dw 0 1)
    let id := wfld dw 48 16
    if wfld dw 32 16 ≠ 0 || wfld dw 8 8 ≠ 0 || 4 < wfld dw 1 3 then s.raise 4 dw true
    else if dst.toNat % 8 ≠ 0 || wfld dw 16 16 % 8 ≠ 0 || wfld dw 16 16 < acc.cols * drainSize dw then s.raise 3 dst true
    else if !queueRoom s || !nodeRoom s (decide (id ≠ 0)) then s
    else s.withDrain (fun s =>
      let o := newOp s d id (decide (id ≠ 0)) [] (.drain dst dw acc.rows acc.cols)
      let s0 := s
      match checkParts s s.curCore s.curSlot s.th.mode s.curCtx .write
          ((drainRanges dst dw acc.rows acc.cols).flatMap (fun r => partsOf r.1 r.2)) [] with
      | .inl e =>
        let s := enterOp s o
        s.advance.complete o e.1 e.2
      | .inr parts =>
        let far := parts.any (fun p => !p.2.2.near)
        if far && decide (2 ^ 28 ≤ s.th.farSeq) then s.raise 7 dst true
        else
          let s := enterOp s { o with targets := parts.map (partTarget s.curCore) }
          let s := if far then s.modTh (fun th => { th with farSeq := th.farSeq + 1 }) else s
          (match ownParts s o false parts with
           | some s => s.advance
           | none => s0))))))

/-- An element converted for a drain (R327, spec/03_numbers.md R69). -/
def drainConvert (int : Bool) (dw : Word) (x : Nat) : FRes :=
  let mode := RMode.ofRm (BitVec.ofNat 2 (wfld dw 4 2))
  let fmt : Fmt := match wfld dw 1 3 with
    | 0 => .f
    | 1 => .bh
    | 2 => .h
    | _ => .e4
  if wfld dw 1 3 = 4 then
    if int then (natOfInt 8 (satInt (sextInt 32 x) (-128) 127), 0)
    else let r := convFI .f mode (-128) 127 x; (natOfInt 8 r.1, r.2)
  else if int then convIF fmt mode (sextInt 32 x)
  else if wfld dw 1 3 = 0 then (x, 0)
  else convFF .f fmt mode fmt.p x

/-- A mismatch at a drain (R330). -/
def redundantMismatch (s : State) (o : EngOp) (dw : Word) (acc : Acc) (p : Nat × Nat) : State :=
  let slot := wfld dw 0 1
  let s := s.modCore o.core (fun c =>
    if c.mrerr.getLsbD 17 then c
    else { c with mrerr := word (acc.lastId * 2 ^ 48 + 2 ^ 17 + slot * 2 ^ 16 + p.1 * 2 ^ 8 + p.2) })
  let detail := p.1 * 2 ^ 8 + p.2
  let th := s.thread (tid o.core o.slot)
  let exiting := decide (th.st = .parked ∧ th.wait = .exitDrain)
  let s := if dw.getLsbD 6 && !exiting then
      s.modThread (tid o.core o.slot) (fun th => { th with pendRM := th.pendRM ++ [completionWord o.id 3 o.sat o.flags detail] })
    else s.vote o.ctx 4
  s.complete o 3 detail

/-- The destination of a drain whose slot now has another shape (R327): row by row, the bytes prepared at issue that are still
covered, and the ranges that were not. -/
def drainRows (dst : Nat) (stride old new : Nat) : Nat → Nat → List (Bool × Nat × Nat) → List (List (Bool × Nat × Nat) × (Nat × Nat))
  | 0, _, _ => []
  | n + 1, r, ts =>
    let row := takeTargets old ts
    let kept := (takeTargets new row.1).1
    let have_ := (kept.map (fun x => x.2.2)).foldl (· + ·) 0
    (kept, (dst + r * stride + have_, new - have_)) :: drainRows dst stride old new n (r + 1) row.2

/-- Checks the ranges that were not prepared at issue, row by row: the parts to own, and the whole destination. -/
def freshRows (s : State) (o : EngOp) : List (List (Bool × Nat × Nat) × (Nat × Nat)) →
    (Nat × Nat) ⊕ (List (Nat × Nat × Place) × List (Bool × Nat × Nat))
  | [] => .inr ([], [])
  | (kept, r) :: rest =>
    match checkParts s o.core o.slot o.mode o.ctx .write (partsOf r.1 r.2) [] with
    | .inl e => .inl e
    | .inr parts =>
      match freshRows s o rest with
      | .inl e => .inl e
      | .inr x => .inr (parts ++ x.1, kept ++ parts.map (partTarget o.core) ++ x.2)

/-- Releases the lines of an operation that its destination no longer covers. -/
def releaseUncovered (s : State) (op : Nat) (ts : List (Bool × Nat × Nat)) : State :=
  { s with owned := s.owned.filter (fun l =>
      !(decide (l.op = op) && !ts.any (fun x => !x.1 && decide (lineOf x.2.1 = l.line)))) }

/-- Prepares a drain that starts: its stride is tested again, and the bytes not prepared at issue are checked and prepared
(R327). -/
def startDrain (s : State) (o : EngOp) (dst dw : Word) (rows cols : Nat) : PassAnswer :=
  let acc := s.accOf o.core (wfld dw 0 1)
  if wfld dw 16 16 < acc.cols * drainSize dw then .fail s 2 dst.toNat
  else if rows = acc.rows ∧ cols = acc.cols then .ran s
  else
    match freshRows s o (drainRows dst.toNat (wfld dw 16 16) (cols * drainSize dw) (acc.cols * drainSize dw) acc.rows 0 o.targets) with
    | .inl e => .fail s e.1 e.2
    | .inr x =>
      match ownParts (releaseUncovered s o.op x.2) o false x.1 with
      | none => .wait s
      | some s => .ran (s.modOp o.op (fun o => { o with targets := x.2 }))

/-- What a drain will write: its slot's elements converted, along its prepared destination. -/
def fillDrain (s : State) (o : EngOp) (dw : Word) : State :=
  let acc := s.accOf o.core (wfld dw 0 1)
  let vals := acc.cells.map (fun p => drainConvert acc.int dw (acc.elem p.1 p.2))
  let bytes := vals.flatMap (fun v => bytesOf (drainSize dw) v.1)
  let fl := vals.foldl (fun f v => f ||| v.2) (0 : FFlags)
  s.modOp o.op (fun o =>
    { o with writes := some (cutTargets o.targets bytes), flags := fl, begun := true, total := bytes.length })

/-- Writes what an operation can write of its items; whether none is left. -/
def flush (s : State) (o : EngOp) : State × Bool :=
  let r := writeItems o (o.writes.getD []) (o.writes.getD []) s
  (r.1.modOp o.op (fun o => { o with writes := some r.2 }), r.2.isEmpty)

/-- A drain that has started writes on and completes after its last byte. -/
def finishDrain (s : State) (o : EngOp) (dw : Word) : State :=
  let r := flush s o
  if r.2 then
    let i := wfld dw 0 1
    let s := if dw.getLsbD 7 then r.1.setAcc o.core i (r.1.accOf o.core i).clear else r.1
    match s.engOp o.op with
    | some o => s.complete o 0 o.total
    | none => s
  else r.1

/-- Starts a drain whose slot's older entries have completed: its destination, then the comparator (R327, R330). -/
def openDrain (s : State) (o : EngOp) : PassAnswer :=
  match o.kind with
  | .drain dst dw rows cols =>
    (match startDrain s o dst dw rows cols with
     | .ran s => accEcc s o (wfld dw 0 1) (fun s =>
       let acc := s.accOf o.core (wfld dw 0 1)
       match acc.cells.find? (fun p => acc.elem p.1 p.2 ≠ acc.twin p.1 p.2) with
       | some p => .wait (redundantMismatch s o dw acc p)
       | none => .ran (fillDrain s o dw))
     | x => x)
  | _ => .wait s

/-- The oldest drain of a core that may run. -/
def execDrainRun (core : Nat) (s : State) : Result :=
  .next (if !(s.die (dieOf core)).healthy then s else match s.engine.find? (fun o => decide (o.core = core) && (match o.kind with
      | .drain .. => mayRun s o
      | _ => false)) with
    | none => s
    | some o =>
      match o.kind with
      | .drain _ dw _ _ =>
        if o.begun then finishDrain s o dw
        else (match openDrain s o with
          | .wait s => s
          | .fail s st d => s.complete o st d
          | .ran s => (match s.engOp o.op with
            | some o => finishDrain s o dw
            | none => s))
      | _ => s)

end Sys2Proof.Machine
end

