-- ==== Sys2Proof/Machine/Pages.lean ====
section
/-! DEFINITION. Staging lists, fills, SFENCE.V, page tickets and the page changes of the shutter pass (spec/10_pages.md
R235-R264). -/

namespace Sys2Proof.Machine

open Sys2Proof

/-! ## Staging lists (R243-R246) -/

/-- Reads `n` doublewords of a list from `a`, as scalar loads of the running thread confined to its own local store and its
die's window; `k` goes on with them. -/
def readList (k : List Word → State → State) : Nat → Nat → List Word → State → State
  | 0, _, acc, s => k acc s
  | n + 1, a, acc, s =>
    match checkAccess s s.curCore s.curSlot s.th.mode s.curCtx .read (a % 2 ^ 64) with
    | .ok p =>
      if !(match p with
        | .own _ => true
        | .die _ => true
        | _ => false) then s.raise 4 (s.reach s.cur (word a)) false
      else (match loadPlace s s.cur p 8 with
        | .bytes s bs => readList k n (a + 8) (acc ++ [wordOfBytes bs]) s
        | .wait s => s
        | .full => s.raise 7 (p.fullAt (s.reach s.cur (word a))) false
        | .damaged s' l => if s.th.vectorBusy then s else s'.raise 10 (word l) false)
    | _ => s.raise 4 (s.reach s.cur (word a)) false

/-- The header and entries of the list at g[a] (R244). -/
def withList (a : BitVec 5) (s : State) (k : List Word → State → State) : State :=
  s.withG [a] (fun s => s.withVector (fun s =>
    let la := s.th.rg a
    if la.toNat % 8 ≠ 0 then s.raise 3 la false
    else readList (fun h s =>
      let n := (h.headD 0).toNat
      if 64 < n then s.raise 4 la false else readList k n (la.toNat + 8) [] s) 1 la.toNat [] s))

/-- Whether an entry has a bit set that it must not (R244). -/
def badEntry (w : Word) (ev : Bool) : Bool :=
  decide (wfld w 48 16 ≠ 0) || decide (wfld w 1 15 ≠ 0) || (!ev && w.getLsbD 0)

/-- Lines of a page. -/
def pageLines (page : Nat) : List Nat := (List.range 1024).map (fun i => page * 65536 + 64 * i)

/-- Stages one page into its slice of a die as pending lines (R245). -/
def stagePage (s : State) (die ctx : Nat) (w : Word) : State :=
  let page := wfld w 16 32
  let va := page * 65536
  let skip := s.count ctx 46 1
  if badEntry w false then skip
  else match translate s die ctx va with
    | none => skip
    | some e =>
      if !e.r || decide (732164 < e.frame page) then skip
      else
        -- a die always holds the whole of a replicated page (R206)
        let missing := if e.rep then [] else (pageLines page).filter (fun l => (s.line die ctx l).isNone)
        match roomFor s die (sliceOf va) missing.length with
        | none => skip
        | some s =>
          let new := missing.map (fun l =>
            ({ die := die, ctx := ctx, va := l, phys := e.phys l, st := .pending, data := 0, written := 0, undo := none,
               stamp := s.useCount } : CLine))
          touchTlb { s with lines := s.lines ++ new } die ctx va e

/-- PFL. -/
def execPfl (a : BitVec 5) (s : State) : Result :=
  .next (withList a s (fun ws s => (ws.foldl (fun s w => stagePage s s.curDie s.curCtx w) s).advance))

/-- WBL: the pages join what the commit writes back (R246).  Whether an entry's page has a valid PTE is looked up as the instruction
executes (DESIGN CHOICE, log entry 18). -/
def execWbl (a : BitVec 5) (s : State) : Result :=
  .next (withList a s (fun ws s =>
    let die := s.curDie
    let ctx := s.curCtx
    (ws.foldl (fun s w =>
      let page := wfld w 16 32
      if badEntry w true then s.count ctx 46 1
      else match translate s die ctx (page * 65536) with
        | none => s.count ctx 46 1
        | some e =>
          touchTlb (s.modJob ctx (fun j => { j with wbl := j.wbl ++ [(die, page, w.getLsbD 0)] })) die ctx (page * 65536) e) s).advance))

/-- An absent or pending line arrives (R235). -/
def execLineFill (die ctx : Nat) (va : BitVec 64) (s : State) : Result :=
  .next (
    let l := lineOf va.toNat
    match s.line die ctx l with
    | some c =>
      if c.st = .pending then
        let rep := match translate s die ctx l with
          | some e => e.rep
          | none => false
        (fillEcc s die ctx l c.phys rep).setLine { c with st := if rep then .replica else .clean, data := fillData s ctx l c.phys }
      else s
    | none =>
      if 2 ^ 48 ≤ l then s
      else match translate s die ctx l with
        | none => s
        | some e =>
          if 732164 < e.frame (fld l 16 32) then s
          else match needLine s die ctx l e with
            | .present s _ => s
            | _ => s)

/-! ## Write-back and freeing of a page (R237, R246, R259) -/

def ofPage (ctx page : Nat) (l : CLine) : Bool := decide (l.ctx = ctx ∧ fld l.va 16 32 = page)

/-- Writes back the committed-dirty lines that meet a test. -/
def writeBackAll (s : State) (p : CLine → Bool) : State :=
  (s.lines.filter (fun l => p l && decide (l.st = .committedDirty))).foldl writeBack s

/-- What a WBL entry does once its commit has come: every die writes back its lines of the page (R246). -/
def applyWbl (s : State) (ctx : Nat) (w : Nat × Nat × Bool) : State :=
  let s := writeBackAll s (ofPage ctx w.2.1)
  if w.2.2 then s.dropLines (fun l => ofPage ctx w.2.1 l && decide (l.st = .clean)) else s

/-! ## Shoot-downs (R255, R261, R262) -/

/-- Removes the translations of every slice of every healthy die, and the instruction-cache lines of every core, that meet a
test on (context, page).  A shoot-down acts on every slice in the turn it is made, so that each slice acts on several in the order of
their turns, the order in which they arrive there (R264; log entry 72). -/
def shootDown (s : State) (ic : Bool) (p : Nat → Nat → Bool) : State :=
  let s := { s with dies := s.dies.map (fun e =>
    (e.1, if e.2.healthy then { e.2 with tlb := e.2.tlb.filter (fun x => !p x.ctx x.vpn) } else e.2)) }
  if ic then
    { s with cores := s.cores.map (fun e =>
        (e.1, { e.2 with icache := e.2.icache.filter (fun l => !p l.ctx (fld l.line 16 32)) })) }
  else s

/-- Fills the tickets of a page with the notice word (R255). -/
def notify (s : State) (ctx page : Nat) : State :=
  let w := word (page * 65536 + bit (lookup s ctx (page * 65536)).isNone)
  let waiters := s.threads.filter (fun e => decide (s.ctxOf e.1 = ctx) && (s.die (dieOf (coreOf e.1))).healthy)
  waiters.foldl (fun s e =>
    let mine := e.2.tickets.filter (fun k => k.2 = page)
    let s := s.modThread e.1 (fun th => { th with tickets := th.tickets.filter (fun k => k.2 ≠ page) })
    mine.foldl (fun s k => s.fillG e.1 (BitVec.ofNat 5 k.1) w) s) s

/-- SFENCE.V: the descriptor in g[a] says which kind. -/
def sfence (a : BitVec 5) (s : State) : State :=
  if s.th.mode = .u then s.raise 2 s.iw false
  else s.withG [a] (fun s =>
    let w := s.th.rg a
    let kind := wfld w 62 2
    let ctx := wfld w 32 16
    let page := wfld w 0 32
    if wfld w 48 13 ≠ 0 then s.raise 4 w false
    else
      let s := shootDown s (w.getLsbD 61) (fun c v =>
        match kind with
        | 1 => decide (c = ctx)
        | 2 => true
        | _ => decide (c = ctx ∧ v = page))
      (if kind = 3 then notify s ctx page else s).advance)

def execSfenceVPage (a : BitVec 5) (s : State) : Result := .next (sfence a s)
def execSfenceVContext (a : BitVec 5) (s : State) : Result := .next (sfence a s)
def execSfenceVAll (a : BitVec 5) (s : State) : Result := .next (sfence a s)
def execSfenceVPublish (a : BitVec 5) (s : State) : Result := .next (sfence a s)

/-! ## Inverted tables and wiping (R239, R242) -/

/-- Address of the inverted-table entry of a frame of a stack. -/
def invAt (stack frame : Nat) : Nat := stack * 2 ^ 36 + invBase + 16 * frame

/-- Kind and owner of a frame. -/
def frameKind (s : State) (stack frame : Nat) : Nat := wfld (s.readWord (invAt stack frame)) 60 4
def frameCtx (s : State) (stack frame : Nat) : Nat := wfld (s.readWord (invAt stack frame)) 0 16

/-- Writes kind, wipe bit and owner of a frame. -/
def setFrame (s : State) (stack frame kind : Nat) (wipe : Bool) (ctx : Nat) : State :=
  let w := (s.readWord (invAt stack frame)).toNat
  s.writeWord (invAt stack frame) (word (kind * 2 ^ 60 + bit wipe * 2 ^ 59 + fld w 16 43 * 2 ^ 16 + ctx))

/-- Page number of a frame of kind 1, and the frame after it in its chain; 0xF_FFFF ends a chain. -/
def frameVpn (s : State) (stack frame : Nat) : Nat := wfld (s.readWord (invAt stack frame + 8)) 32 32
def frameNext (s : State) (stack frame : Nat) : Nat := wfld (s.readWord (invAt stack frame + 8)) 0 20
def chainEnd : Nat := 0xFFFFF

def setNext (s : State) (stack frame next : Nat) : State :=
  s.writeN (invAt stack frame + 8) (bytesOf 4 next)

/-- The anchor index of a page of a context (R240). -/
def anchorIndex (ctx vpn : Nat) : Nat := (ctx * 2 ^ 32 + vpn) * 0x9E3779B97F4A7C15 % 2 ^ 64 / 2 ^ 44

/-- Address of an anchor entry of a stack: the anchor array follows the inverted table (Table 10.1). -/
def anchorAt (stack i : Nat) : Nat := stack * 2 ^ 36 + 732357 * 65536 + 4 * i

/-- The first frame of a chain, where its anchor is valid. -/
def anchorHead (s : State) (stack i : Nat) : Option Nat :=
  let x := ofBytes (s.readN (anchorAt stack i) 4)
  if x.testBit 31 then some (fld x 0 20) else none

def setAnchor (s : State) (stack i : Nat) (head : Option Nat) : State :=
  s.writeN (anchorAt stack i) (bytesOf 4 (match head with
    | some f => 2 ^ 31 + f
    | none => 0))

/-- Puts a frame of kind 1 at the head of the chain of its page (R240; log entry 66 for the place in the chain). -/
def linkFrame (s : State) (stack frame ctx vpn : Nat) : State :=
  let i := anchorIndex ctx vpn
  setAnchor (setNext s stack frame ((anchorHead s stack i).getD chainEnd)) stack i (some frame)

/-- The frame of a chain before `frame`, looked for from `at_` on. -/
def chainBefore (s : State) (stack frame : Nat) : Nat → Nat → Option Nat
  | 0, _ => none
  | n + 1, at_ =>
    let next := frameNext s stack at_
    if next = frame then some at_ else if next = chainEnd then none else chainBefore s stack frame n next

/-- Takes a frame of kind 1 out of its chain. -/
def unlinkFrame (s : State) (stack frame : Nat) : State :=
  let i := anchorIndex (frameCtx s stack frame) (frameVpn s stack frame)
  let next := frameNext s stack frame
  let s := match anchorHead s stack i with
    | none => s
    | some h =>
      if h = frame then setAnchor s stack i (if next = chainEnd then none else some next)
      else match chainBefore s stack frame 732165 h with
        | some p => setNext s stack p next
        | none => s
  setNext s stack frame chainEnd

/-- Gives a frame its kind, owner and page number, in or out of a chain as its kind asks. -/
def assignFrame (s : State) (stack frame kind ctx vpn : Nat) : State :=
  let s := if frameKind s stack frame = 1 then unlinkFrame s stack frame else s
  let s := setFrame s stack frame kind false ctx
  if kind = 1 then linkFrame (s.writeN (invAt stack frame + 12) (bytesOf 4 vpn)) stack frame ctx vpn else s

/-- The cells of memory without those of a range whose unlisted bytes read zero. -/
def zeroRange (s : State) (a n : Nat) : State := { s with mem := s.mem.filter (fun c => !decide (a ≤ c.1 ∧ c.1 < a + n)) }

/-- The wipe engine zeroes a frame whose wipe bit is set and frees it (R242). The argument is stack × 2^20 + frame. -/
def execFrameWipe (frame : Nat) (s : State) : Result :=
  .next (
    let stack := frame / 2 ^ 20
    let f := frame % 2 ^ 20
    if 16 ≤ stack || 732164 < f || !(s.readWord (invAt stack f)).getLsbD 59 then s
    else assignFrame (zeroRange s (stack * 2 ^ 36 + f * 65536) 65536) stack f 0 0 0)

/-! ## The shutter pass (R256-R259) -/

/-- Acts on one page whose entry stands at `at_` (steps 1 to 4 of R259). -/
def changePage (s : State) (ctx page at_ op newStack newFrame : Nat) (img : Word × Word) (lg : Bool) : State :=
  let old := readPte s at_
  let s := writeBackAll s (ofPage ctx page)
  let s := s.dropLines (ofPage ctx page)
  let s :=
    if op = 2 then
      let f := old.frame page
      let g := if lg then newFrame / 32 * 32 + page % 32 else newFrame
      let s := s.writeN (newStack * 2 ^ 36 + g * 65536) (s.readN (old.stack * 2 ^ 36 + f * 65536) 65536)
      let s := assignFrame s newStack g 1 ctx page
      setFrame s old.stack f (frameKind s old.stack f) true (frameCtx s old.stack f)
    else s
  let s :=
    if op = 1 then s.writeWord at_ (old.lo &&& ~~~(BitVec.ofNat 64 (2 ^ 63)))
    else
      let lo := if lg then word (img.1.toNat / 2 ^ 32 * 2 ^ 32 + page) else img.1
      (s.writeWord at_ lo).writeWord (at_ + 8) img.2
  shootDown s true (fun c v => decide (c = ctx ∧ v = page))

/-- Acts on one entry of a page-change list for a committing context. -/
def changeEntry (ctx a : Nat) (s : State) : State :=
  let w := s.readWord a
  let op := wfld w 62 2
  if op = 3 || w.getLsbD 61 || wfld w 32 16 ≠ ctx then s
  else
    let page := wfld w 0 32
    let nw := s.readWord (a + 8)
    let img := (s.readWord (a + 16), s.readWord (a + 24))
    let s := match lookupAt s ctx (page * 65536) with
      | none => s
      | some (at_, e) =>
        if e.lg then
          ((List.range 32).map (fun i => page / 32 * 32 + i)).foldl (fun s p =>
            match lookupAt s ctx (p * 65536) with
            | none => s
            | some (at_, _) => changePage s ctx p at_ op (wfld nw 20 4) (wfld nw 0 20) img true) s
        else changePage s ctx page at_ op (wfld nw 20 4) (wfld nw 0 20) img false
    s.writeWord a (word (w.toNat + 2 ^ 61))

/-- The shutter pass of a context. -/
def shutterPass (s : State) (ctx : Nat) : State :=
  (List.range numDies).foldl (fun s d =>
    (List.range (s.die d).pclist).foldl (fun s i => changeEntry ctx (dieAddr d (0x1000 + 32 * i)) s) s) s

end Sys2Proof.Machine
end

