-- ==== Sys2Proof/Machine/Vector.lean ====
section
/-! DEFINITION. The vector instructions in the scalar stream: queuing with captures, loop markers and loop registers,
tensor descriptors and VMAP (spec/06_vector.md R142-R163). -/

namespace Sys2Proof.Machine

open Sys2Proof

/-- What a scalar operand field captures at queuing (R142). -/
def captureG (th : Thread) (use : Bool) (r : BitVec 5) : Capture :=
  if !use then .none else if th.fullG r then .val (th.rg r) else .wait r

/-- Queues an entry; `ga` and `gb` tell which operand fields name g registers.  With the sequencer full the stream is not
ready; an unfilled RAMO result traps (R290; log entry 42), and so does a captured register whose word is uncorrectable (R445). -/
def queueEntry (op : VOp) (t : BitVec 4) (m : BitVec 3) (d a b : BitVec 5) (ga gb : Bool) (s : State) : State :=
  let th := s.th
  let rs := (if ga then [a] else []) ++ (if gb then [b] else [])
  match rs.find? (fun r => !th.fullG r && th.ramo.getLsbD r.toNat) with
  | some r => s.raise 8 (word r.toNat) false
  | none =>
    if 16 ≤ entryCount th.seq.items then s
    else s.readRegs ((rs.filter (fun r => th.fullG r)).map BitVec.toNat) (fun s =>
      let e : VEntry :=
        { op := op, t := t, m := m, d := d, a := a, b := b, ca := captureG s.th ga a, cb := captureG s.th gb b,
          rm := s.th.rm, pc := s.th.pc, popped := none }
      (s.modTh (·.enqueue (.entry e))).advance)

/-! ## Integer (R151) -/

def execVadd (t : BitVec 4) (m : BitVec 3) (d a b : BitVec 5) (s : State) : Result := .next (queueEntry (.int .add) t m d a b false false s)
def execVsub (t : BitVec 4) (m : BitVec 3) (d a b : BitVec 5) (s : State) : Result := .next (queueEntry (.int .sub) t m d a b false false s)
def execVmul (t : BitVec 4) (m : BitVec 3) (d a b : BitVec 5) (s : State) : Result := .next (queueEntry (.int .mul) t m d a b false false s)
def execVmulh (t : BitVec 4) (m : BitVec 3) (d a b : BitVec 5) (s : State) : Result := .next (queueEntry (.int .mulh) t m d a b false false s)
def execVand (t : BitVec 4) (m : BitVec 3) (d a b : BitVec 5) (s : State) : Result := .next (queueEntry (.int .and) t m d a b false false s)
def execVor (t : BitVec 4) (m : BitVec 3) (d a b : BitVec 5) (s : State) : Result := .next (queueEntry (.int .or) t m d a b false false s)
def execVxor (t : BitVec 4) (m : BitVec 3) (d a b : BitVec 5) (s : State) : Result := .next (queueEntry (.int .xor) t m d a b false false s)
def execVandn (t : BitVec 4) (m : BitVec 3) (d a b : BitVec 5) (s : State) : Result := .next (queueEntry (.int .andn) t m d a b false false s)
def execVsll (t : BitVec 4) (m : BitVec 3) (d a b : BitVec 5) (s : State) : Result := .next (queueEntry (.int .sll) t m d a b false false s)
def execVsrl (t : BitVec 4) (m : BitVec 3) (d a b : BitVec 5) (s : State) : Result := .next (queueEntry (.int .srl) t m d a b false false s)
def execVsra (t : BitVec 4) (m : BitVec 3) (d a b : BitVec 5) (s : State) : Result := .next (queueEntry (.int .sra) t m d a b false false s)
def execVmin (t : BitVec 4) (m : BitVec 3) (d a b : BitVec 5) (s : State) : Result := .next (queueEntry (.int .min) t m d a b false false s)
def execVmax (t : BitVec 4) (m : BitVec 3) (d a b : BitVec 5) (s : State) : Result := .next (queueEntry (.int .max) t m d a b false false s)
def execVadds (t : BitVec 4) (m : BitVec 3) (d a b : BitVec 5) (s : State) : Result := .next (queueEntry (.int .adds) t m d a b false false s)
def execVsubs (t : BitVec 4) (m : BitVec 3) (d a b : BitVec 5) (s : State) : Result := .next (queueEntry (.int .subs) t m d a b false false s)

/-! ## Floating point (R152) -/

def execVfadd (t : BitVec 4) (m : BitVec 3) (d a b : BitVec 5) (s : State) : Result := .next (queueEntry (.fp .add) t m d a b false false s)
def execVfsub (t : BitVec 4) (m : BitVec 3) (d a b : BitVec 5) (s : State) : Result := .next (queueEntry (.fp .sub) t m d a b false false s)
def execVfmul (t : BitVec 4) (m : BitVec 3) (d a b : BitVec 5) (s : State) : Result := .next (queueEntry (.fp .mul) t m d a b false false s)
def execVfdiv (t : BitVec 4) (m : BitVec 3) (d a b : BitVec 5) (s : State) : Result := .next (queueEntry (.fp .div) t m d a b false false s)
def execVfmin (t : BitVec 4) (m : BitVec 3) (d a b : BitVec 5) (s : State) : Result := .next (queueEntry (.fp .min) t m d a b false false s)
def execVfmax (t : BitVec 4) (m : BitVec 3) (d a b : BitVec 5) (s : State) : Result := .next (queueEntry (.fp .max) t m d a b false false s)
def execVrcps (t : BitVec 4) (m : BitVec 3) (d a b : BitVec 5) (s : State) : Result := .next (queueEntry (.fp .rcps) t m d a b false false s)
def execVrsqrts (t : BitVec 4) (m : BitVec 3) (d a b : BitVec 5) (s : State) : Result := .next (queueEntry (.fp .rsqrts) t m d a b false false s)
def execVfma (t : BitVec 4) (m : BitVec 3) (d a b : BitVec 5) (s : State) : Result := .next (queueEntry (.fp .fma) t m d a b false false s)
def execVfms (t : BitVec 4) (m : BitVec 3) (d a b : BitVec 5) (s : State) : Result := .next (queueEntry (.fp .fms) t m d a b false false s)
def execVfnma (t : BitVec 4) (m : BitVec 3) (d a b : BitVec 5) (s : State) : Result := .next (queueEntry (.fp .fnma) t m d a b false false s)
def execVfnms (t : BitVec 4) (m : BitVec 3) (d a b : BitVec 5) (s : State) : Result := .next (queueEntry (.fp .fnms) t m d a b false false s)

/-! ## Comparisons, conversion, special functions and reductions (R153-R157) -/

def execVceq (t : BitVec 4) (m : BitVec 3) (d a b : BitVec 5) (s : State) : Result := .next (queueEntry (.cmp .eq) t m d a b false false s)
def execVcne (t : BitVec 4) (m : BitVec 3) (d a b : BitVec 5) (s : State) : Result := .next (queueEntry (.cmp .ne) t m d a b false false s)
def execVclt (t : BitVec 4) (m : BitVec 3) (d a b : BitVec 5) (s : State) : Result := .next (queueEntry (.cmp .lt) t m d a b false false s)
def execVcle (t : BitVec 4) (m : BitVec 3) (d a b : BitVec 5) (s : State) : Result := .next (queueEntry (.cmp .le) t m d a b false false s)
def execVcvt (t : BitVec 4) (m : BitVec 3) (d a : BitVec 5) (g : BitVec 4) (sr : BitVec 1) (s : State) : Result :=
  .next (queueEntry (.cvt g (decide (sr = 1))) t m d a 0 false false s)
def execVrcp (t : BitVec 4) (m : BitVec 3) (d a : BitVec 5) (s : State) : Result := .next (queueEntry (.spec .rcp) t m d a 0 false false s)
def execVrsqrt (t : BitVec 4) (m : BitVec 3) (d a : BitVec 5) (s : State) : Result := .next (queueEntry (.spec .rsqrt) t m d a 0 false false s)
def execVsqrt (t : BitVec 4) (m : BitVec 3) (d a : BitVec 5) (s : State) : Result := .next (queueEntry (.spec .sqrt) t m d a 0 false false s)
def execVabs (t : BitVec 4) (m : BitVec 3) (d a : BitVec 5) (s : State) : Result := .next (queueEntry (.spec .abs) t m d a 0 false false s)
def execVneg (t : BitVec 4) (m : BitVec 3) (d a : BitVec 5) (s : State) : Result := .next (queueEntry (.spec .neg) t m d a 0 false false s)
def execVmov (t : BitVec 4) (m : BitVec 3) (d a : BitVec 5) (s : State) : Result := .next (queueEntry (.spec .mov) t m d a 0 false false s)
def execVredsum (t : BitVec 4) (m : BitVec 3) (d a : BitVec 5) (s : State) : Result := .next (queueEntry (.red .sum) t m d a 0 false false s)
def execVredmin (t : BitVec 4) (m : BitVec 3) (d a : BitVec 5) (s : State) : Result := .next (queueEntry (.red .min) t m d a 0 false false s)
def execVredmax (t : BitVec 4) (m : BitVec 3) (d a : BitVec 5) (s : State) : Result := .next (queueEntry (.red .max) t m d a 0 false false s)
def execVredand (t : BitVec 4) (m : BitVec 3) (d a : BitVec 5) (s : State) : Result := .next (queueEntry (.red .and) t m d a 0 false false s)
def execVredor (t : BitVec 4) (m : BitVec 3) (d a : BitVec 5) (s : State) : Result := .next (queueEntry (.red .or) t m d a 0 false false s)
def execVredxor (t : BitVec 4) (m : BitVec 3) (d a : BitVec 5) (s : State) : Result := .next (queueEntry (.red .xor) t m d a 0 false false s)

/-! ## Permutations (R158) -/

def execVperm (t : BitVec 4) (m : BitVec 3) (d a b : BitVec 5) (s : State) : Result := .next (queueEntry .perm t m d a b false false s)
def execVslide (t : BitVec 4) (m : BitVec 3) (d a b : BitVec 5) (s : State) : Result := .next (queueEntry .slide t m d a b false true s)
def execVbcast (t : BitVec 4) (m : BitVec 3) (d a : BitVec 5) (s : State) : Result := .next (queueEntry .bcast t m d a 0 true false s)
def execVmerge (t : BitVec 4) (m : BitVec 3) (d a b : BitVec 5) (s : State) : Result := .next (queueEntry .merge t m d a b false false s)

/-! ## Memory and queues (R159-R161) -/

def execVld (t : BitVec 4) (m : BitVec 3) (d a : BitVec 5) (s : State) : Result := .next (queueEntry (.load .unit) t m d a 0 true false s)
def execVlds (t : BitVec 4) (m : BitVec 3) (d a b : BitVec 5) (s : State) : Result := .next (queueEntry (.load .strided) t m d a b true true s)
def execVldq (t : BitVec 4) (m : BitVec 3) (d a : BitVec 5) (s : State) : Result := .next (queueEntry (.load .queued) t m d a 0 false false s)
def execVgather (t : BitVec 4) (m : BitVec 3) (d a b : BitVec 5) (s : State) : Result := .next (queueEntry (.load .indexed) t m d a b true false s)
def execVst (t : BitVec 4) (m : BitVec 3) (d a : BitVec 5) (s : State) : Result := .next (queueEntry (.store .unit) t m d a 0 true false s)
def execVsts (t : BitVec 4) (m : BitVec 3) (d a b : BitVec 5) (s : State) : Result := .next (queueEntry (.store .strided) t m d a b true true s)
def execVstq (t : BitVec 4) (d a : BitVec 5) (s : State) : Result := .next (queueEntry .storeQueue t 0 d a 0 false false s)
def execVscatter (t : BitVec 4) (m : BitVec 3) (d a b : BitVec 5) (s : State) : Result := .next (queueEntry (.store .indexed) t m d a b true false s)
def execVqpush (t : BitVec 4) (d a : BitVec 5) (s : State) : Result := .next (queueEntry .qpush t 0 d a 0 false false s)
def execVqpop (t : BitVec 4) (m : BitVec 3) (d a : BitVec 5) (s : State) : Result := .next (queueEntry .qpop t m d a 0 false false s)

/-! ## Masks (R156) -/

def execVmand (d a b : BitVec 5) (s : State) : Result := .next (queueEntry .mand 0 0 d a b false false s)
def execVmor (d a b : BitVec 5) (s : State) : Result := .next (queueEntry .mor 0 0 d a b false false s)
def execVmxor (d a b : BitVec 5) (s : State) : Result := .next (queueEntry .mxor 0 0 d a b false false s)
def execVmnot (d a : BitVec 5) (s : State) : Result := .next (queueEntry .mnot 0 0 d a 0 false false s)
def execVmpopc (d a : BitVec 5) (s : State) : Result := .next (queueEntry .mpopc 0 0 d a 0 false false s)
def execVmfirst (d a : BitVec 5) (s : State) : Result := .next (queueEntry .mfirst 0 0 d a 0 false false s)

/-! ## Loops (R145-R148) -/

/-- Whether a VLOOP of a level and length may be queued (R148, R166). -/
def vloopAllowed (th : Thread) (level n : Nat) : Bool :=
  th.image.isNone && (th.seq.openLoop level).isNone &&
    (match th.seq.openLoop (1 - level) with
     | none => true
     | some (i, l) =>
       let k := th.seq.bodyIdx i th.seq.items.length
       decide (k + n ≤ l.n) && !decide (k < l.b ∧ l.b < k + n) && !decide (k < l.e + 1 ∧ l.e + 1 < k + n))

/-- The marker with the bounds of R146. -/
def markLoop (r : LoopReg) (level n : Nat) : VLoop :=
  match r.pending with
  | some (b, e) =>
    if n - 1 < e then { level := level, n := n, b := min b (n - 1), e := n - 1, count := r.count }
    else { level := level, n := n, b := b, e := e, count := r.count }
  | none => { level := level, n := n, b := 0, e := n - 1, count := r.count }

def getLoop (lc : Vector LoopReg 2) (level : Nat) : LoopReg := if level = 0 then lc[0] else lc[1]
def setPending (lc : Vector LoopReg 2) (level : Nat) (p : Option (Nat × Nat)) : Vector LoopReg 2 :=
  if level = 0 then lc.set 0 { lc[0] with pending := p } else lc.set 1 { lc[1] with pending := p }

def execVloop (d n : BitVec 5) (s : State) : Result :=
  .next (
    let level := d.toNat
    let len := n.toNat + 1
    if !vloopAllowed s.th level len then s.raise 1 s.iw false
    else s.readRegs [loopWord level] (fun s => (s.modTh (fun th =>
      { th with lc := setPending th.lc level none }.enqueue (.loop (markLoop (getLoop th.lc level) level len)))).advance))

def execLcw (d a : BitVec 5) (s : State) : Result :=
  .next (s.withG [a] (fun s =>
    let w := s.th.rg a
    let c : BitVec 32 := if wfld w 32 32 = 0 then w.setWidth 32 else BitVec.allOnes 32
    (s.modTh (fun th =>
      match th.image with
      | some i =>
        let r := lcwSeq i.seq i.lc d.toNat c
        { th with image := some { seq := r.1, lc := r.2 }, regEcc := th.regEcc.del (loopWord d.toNat) }
      | none =>
        let r := lcwSeq th.seq th.lc d.toNat c
        { th with seq := r.1, lc := r.2, regEcc := th.regEcc.del (loopWord d.toNat) })).advance))

def execLcr (d a : BitVec 5) (s : State) : Result :=
  .next (s.readRegs [loopWord a.toNat] (fun s =>
    let lc := match s.th.image with
      | some i => i.lc
      | none => s.th.lc
    (s.putG d ((getCount lc a.toNat).setWidth 64)).advance))

/-- LBW writes the thread's own pending bounds.  While a sequencer image is held these are not the image's, which ERET or UPST.ret
puts in their place (DESIGN CHOICE, log entry 42: R166 speaks of LCR and LCW alone). -/
def execLbw (d a : BitVec 5) (s : State) : Result :=
  .next (s.withG [a] (fun s =>
    let b := wfld (s.th.rg a) 0 4
    let e := wfld (s.th.rg a) 4 4
    (s.modTh (fun th => { th with lc := setPending th.lc d.toNat (if b ≤ e then some (b, e) else none) })).advance))

/-! ## Tensor descriptors (R162, spec/02_encoding.md Table 2.10) -/

/-- Drops the reserved bits of word 3. -/
def descImage (x : Nat) : BitVec 256 := BitVec.ofNat 256 (x % 2 ^ 228)

/-- A descriptor register of the running thread. -/
def tdOf (th : Thread) (r : BitVec 5) : Desc := th.td[(r.setWidth 3 : BitVec 3).toNat]'(r.setWidth 3 : BitVec 3).isLt
def setTd (th : Thread) (r : BitVec 5) (x : Desc) : Thread :=
  { th with td := th.td.set (r.setWidth 3 : BitVec 3).toNat x (r.setWidth 3 : BitVec 3).isLt }
/-- A descriptor register written with new check bits in the words `ws`. -/
def writeTd (th : Thread) (r : BitVec 5) (x : Desc) (ws : List Nat) : Thread :=
  { setTd th r x with regEcc := th.regEcc.filter (fun e => !ws.contains e.1) }

def execTdld (d a : BitVec 5) (s : State) : Result :=
  .next (s.withG [a] (fun s => s.withVector (fun s =>
    loadThen (s.th.rg a) 32 s (fun bs s =>
      (s.modTh (fun th => writeTd th d { img := descImage (ofBytes bs), pos := 0 } (tdWords (d.setWidth 3)))).advance))))

def execTdst (d a : BitVec 5) (s : State) : Result :=
  .next (s.withG [a] (fun s => s.withVector (fun s => s.readRegs (tdWords (d.setWidth 3)) (fun s =>
    storeThen (s.th.rg a) (bytesOf 32 (tdOf s.th d).img.toNat) s (fun s => s.advance)))))

def execTdset (d a b : BitVec 5) (s : State) : Result :=
  .next (s.withG [a, b] (fun s =>
    let i := wfld (s.th.rg b) 0 2
    let x := (tdOf s.th d).img.toNat
    let y := x - fld x (64 * i) 64 * 2 ^ (64 * i) + (s.th.rg a).toNat * 2 ^ (64 * i)
    (s.modTh (fun th => writeTd th d { img := descImage y, pos := 0 } ((tdWords (d.setWidth 3)).drop i |>.take 1))).advance))

/-- The fields of a descriptor image. -/
def descWord (x : Desc) (i : Nat) : Nat := fld x.img.toNat (64 * i) 64
def descBase (x : Desc) : Word := word (descWord x 0)
def descExt (x : Desc) (i : Nat) : Nat := fld (descWord x 1) (16 * i) 16
/-- Stride of dimension 1, 2 or 3. -/
def descStride (x : Desc) (i : Nat) : Int :=
  sextInt 32 (if i = 1 then descWord x 2 else if i = 2 then descWord x 2 / 2 ^ 32 else descWord x 3)
def descType (x : Desc) : BitVec 4 := BitVec.ofNat 4 (fld (descWord x 3) 32 4)

/-- The walk of R163 from position `pos`: chunks in all, and the address of the chunk. -/
def chunkCount (x : Desc) : Nat := (descExt x 0 * elemBytes (descType x) + 63) / 64
def walkTotal (x : Desc) : Nat := chunkCount x * descExt x 1 * descExt x 2 * descExt x 3
def chunkAddr (x : Desc) (pos : Nat) : Word :=
  let c := chunkCount x
  let r := pos / c
  let i1 := r % descExt x 1
  let i2 := r / descExt x 1 % descExt x 2
  let i3 := r / (descExt x 1 * descExt x 2)
  descBase x + BitVec.ofInt 64 ((64 * (pos % c) : Nat) + i1 * descStride x 1 + i2 * descStride x 2 + i3 * descStride x 3)

/-- Pushes a chunk address and sets the walk position. -/
def vmapPush (q : BitVec 2) (td : BitVec 5) (x : Desc) (pos next : Nat) (s : State) : State :=
  if 8 ≤ (s.th.queue q).length then s.park (.queue q.toNat)
  else
    (s.modTh (fun th =>
      setTd (th.setQueue q (th.queue q ++ [chunkAddr x pos])) td { x with pos := word (next % walkTotal x) })).advance

/-- Whether the view of a descriptor is one R163 traps on. -/
def badView (x : Desc) : Bool := (List.range 4).any (fun i => decide (descExt x i = 0)) || decide (13 < (descType x).toNat)

def execVmap (d a b : BitVec 5) (s : State) : Result :=
  .next (s.withG [b] (fun s => s.readRegs (tdWords (a.setWidth 3)) (fun s =>
    let x := tdOf s.th a
    if badView x then s.raise 4 (descBase x) false
    else vmapPush (qIdx d) a x (x.pos.toNat % walkTotal x) (x.pos.toNat + (s.th.rg b).toNat) s)))

def execVmapR (d a b : BitVec 5) (s : State) : Result :=
  .next (s.withG [b] (fun s => s.readRegs (tdWords (a.setWidth 3)) (fun s =>
    let x := tdOf s.th a
    if badView x then s.raise 4 (descBase x) false
    else
      let pos := (s.th.rg b).toNat % walkTotal x
      vmapPush (qIdx d) a x pos (pos + 1) s)))

end Sys2Proof.Machine
end

