-- ==== Sys2Proof/Machine/Copy.lean ====
section
/-! DEFINITION. The copy engine: descriptors, posting, the moves, `.next` copies, physical mode and recalls
(spec/13_copy.md R332-R348, spec/08_die_memory.md R205). -/

namespace Sys2Proof.Machine

open Sys2Proof

/-! ## Descriptors (Table 13.2, R335) -/

/-- The two views of XCOPY.T: destination and source. -/
def viewOf (w : List Word) (i : Nat) : Desc :=
  { img := descImage (ofBytes (((w.drop (4 * i)).take 4).flatMap (fun x => bytesOf 8 x.toNat))), pos := 0 }

/-- What the two plane forms take from their descriptor. -/
structure PlaneDesc where
  code : Nat
  rows : Nat
  k : Nat
  stride : Nat

def planeDesc (w : List Word) : PlaneDesc :=
  { code := wfld (w.getD 3 0) 0 5, rows := wfld (w.getD 3 0) 8 16, k := wfld (w.getD 3 0) 48 16, stride := wfld (w.getD 2 0) 0 32 }

/-- Bits an element takes in its element array: T. -/
def PlaneDesc.t (p : PlaneDesc) : Nat := if p.code = 16 then 32 else if p.code = 8 then 1 else matW p.code
def PlaneDesc.rowBytes (p : PlaneDesc) : Nat := (p.k * p.t + 7) / 8
def PlaneDesc.slices (p : PlaneDesc) : Nat := (p.k + 63) / 64
def PlaneDesc.groups (p : PlaneDesc) : Nat := (p.rows + 63) / 64
def PlaneDesc.imageBytes (p : PlaneDesc) : Nat := p.groups * p.slices * matW p.code * 512

/-- Byte ranges of the element arrays whose bases are given, row by row. -/
def PlaneDesc.arrays (p : PlaneDesc) (bases : List Nat) : List (Nat × Nat) :=
  (List.range p.rows).flatMap (fun r => bases.map (fun b => (b + r * p.stride, p.rowBytes)))

/-- Bases of the element arrays: one, or sign and magnitude of ternary. -/
def planeBases (p : PlaneDesc) (base mag : Word) : List Nat :=
  if p.code = 8 then [base.toNat, mag.toNat] else [base.toNat]

/-- Bytes of an element of XGATHER. -/
def gatherSize (w : List Word) : Nat := 2 ^ wfld (w.getD 3 0) 32 3
def gatherCount (w : List Word) : Nat := wfld (w.getD 3 0) 0 32

/-- R335 for form `f`. -/
def badCopy (f : Nat) (phys : Bool) (w : List Word) : Bool :=
  let dw (i : Nat) : Word := w.getD i 0
  let zeros (from_ : Nat) : Bool := (w.drop from_).any (fun x => x ≠ 0)
  if phys && !(decide (f = 0) || decide (f = 4)) then true
  else match f with
    | 1 =>
      let a := viewOf w 0
      let b := viewOf w 1
      badView a || badView b || (List.range 4).any (fun i => decide (descExt a i ≠ descExt b i)) ||
        decide (elemBytes (descType a) ≠ elemBytes (descType b))
    | 5 =>
      zeros 4 || wfld (dw 3) 35 29 ≠ 0 || wfld (dw 3) 32 3 = 7 || gatherCount w = 0 || 65536 < gatherCount w ||
        (dw 0).toNat % gatherSize w ≠ 0 || (dw 1).toNat % gatherSize w ≠ 0 || (dw 2).toNat % 4 ≠ 0
    | 2 | 3 =>
      let p := planeDesc w
      zeros 5 || wfld (dw 2) 32 32 ≠ 0 || wfld (dw 3) 5 3 ≠ 0 || wfld (dw 3) 24 24 ≠ 0 || 19 < p.code ||
        (p.code ≠ 8 && dw 4 ≠ 0) || p.rows = 0 || p.k = 0 || p.stride < p.rowBytes ||
        (dw (if f = 2 then 0 else 1)).toNat % 512 ≠ 0
    | _ =>
      zeros 4 || (dw 2) = 0 || 2 ^ 32 < (dw 2).toNat || (if phys then wfld (dw 3) 12 52 ≠ 0 else dw 3 ≠ 0)

/-! ## Where a copy reads and writes (R337) -/

/-- Addresses of a view's elements, index 0 fastest. -/
def viewRuns (x : Desc) : List (Nat × Nat) :=
  (List.range (descExt x 3)).flatMap (fun (i3 : Nat) => (List.range (descExt x 2)).flatMap (fun (i2 : Nat) =>
    (List.range (descExt x 1)).flatMap (fun (i1 : Nat) => (List.range (descExt x 0)).map (fun (i0 : Nat) =>
      let e := elemBytes (descType x)
      ((descBase x + BitVec.ofInt 64 (((i0 * e : Nat) : Int) + i1 * descStride x 1 + i2 * descStride x 2 + i3 * descStride x 3)).toNat, e)))))

/-- Destination ranges in order of position. -/
def destRuns (f : Nat) (w : List Word) : List (Nat × Nat) :=
  let p := planeDesc w
  match f with
  | 1 => viewRuns (viewOf w 0)
  | 2 => [((w.getD 0 0).toNat, p.imageBytes)]
  | 3 => p.arrays (planeBases p (w.getD 0 0) (w.getD 4 0))
  | 5 => [((w.getD 0 0).toNat, gatherCount w * gatherSize w)]
  | _ => [((w.getD 0 0).toNat, (w.getD 2 0).toNat)]

/-- Source ranges in order of position, the elements of XGATHER apart. -/
def srcRuns (f : Nat) (w : List Word) : List (Nat × Nat) :=
  let p := planeDesc w
  match f with
  | 1 => viewRuns (viewOf w 1)
  | 2 => p.arrays (planeBases p (w.getD 1 0) (w.getD 4 0))
  | 3 => [((w.getD 1 0).toNat, p.imageBytes)]
  | 4 => []
  | 5 => [((w.getD 2 0).toNat, 4 * gatherCount w)]
  | _ => [((w.getD 1 0).toNat, (w.getD 2 0).toNat)]

/-- The bytes of ranges by address; of bytes that meet, the later stands. -/
def byteMap : List (Nat × Nat) → List Byte → Table Byte → Table Byte
  | [], _, t => t
  | (a, n) :: rest, bs, t =>
    byteMap rest (bs.drop n) ((List.range n).foldl (fun t i => t.set ((a + i) % 2 ^ 64) (bs.getD i 0)) t)

/-- Addresses in ascending order cut into runs within one line. -/
def lineRuns : List Nat → List (Nat × Nat)
  | [] => []
  | a :: rest =>
    match lineRuns rest with
    | (b, n) :: t => if b = a + 1 ∧ lineOf b = lineOf a then (a, n + 1) :: t else (a, 1) :: (b, n) :: t
    | [] => [(a, 1)]

/-- The parts a copy writes, each within one line: of a single range in order of position, otherwise by address. -/
def destParts (f : Nat) (w : List Word) : List (Nat × Nat) :=
  match destRuns f w with
  | [(a, n)] => partsOf a n
  | rs => lineRuns ((byteMap rs [] []).map (·.1))

/-- The bytes of the parts from the bytes of the ranges in order of position. -/
def destBytes (f : Nat) (w : List Word) (bs : List Byte) : List Byte :=
  match destRuns f w with
  | [_] => bs
  | rs => (byteMap rs bs []).map (·.2)

/-- Bytes a copy writes. -/
def copyTotal (f : Nat) (w : List Word) : Nat := (destParts f w).foldl (fun n x => n + x.2) 0

/-! ## The plane forms (R337, spec/12_matrix.md R305) -/

/-- Bit `i` of a byte string. -/
def bitOf (bs : List Byte) (i : Nat) : Bool := (bs.getD (i / 8) 0).getLsbD (i % 8)

/-- A number from its bits, bit 0 first. -/
def ofBits : List Bool → Nat
  | [] => 0
  | b :: t => bit b + 2 * ofBits t

/-- The plane image of element arrays read row by row. -/
def planeImage (p : PlaneDesc) (src : List Byte) : List Byte :=
  let rows := if p.code = 8 then 2 else 1
  let row (r a : Nat) : List Byte := (src.drop ((r * rows + a) * p.rowBytes)).take p.rowBytes
  (List.range p.groups).flatMap (fun g => (List.range p.slices).flatMap (fun sl =>
    (List.range (matW p.code)).flatMap (fun j => (List.range 64).flatMap (fun r =>
      let bs := if p.code = 8 then row (64 * g + r) j else row (64 * g + r) 0
      bytesOf 8 (ofBits ((List.range 64).map (fun i =>
        let k := 64 * sl + i
        decide (64 * g + r < p.rows ∧ k < p.k) &&
          (if p.code = 8 then bitOf bs k else bitOf bs (k * p.t + p.t - 1 - j)))))))))

/-- The element arrays of a plane image, row by row. -/
def unplaneBytes (p : PlaneDesc) (img : List Byte) : List Byte :=
  let plane (r k j : Nat) : Bool :=
    bitOf (img.drop (((r / 64 * p.slices + k / 64) * matW p.code + j) * 512 + 8 * (r % 64))) (k % 64)
  let pack (bits : Nat → Bool) : List Byte := bytesOf p.rowBytes (ofBits ((List.range (p.k * p.t)).map bits))
  (List.range p.rows).flatMap (fun r =>
    if p.code = 8 then pack (fun k => plane r k 0 && plane r k 1) ++ pack (fun k => plane r k 1)
    else pack (fun i =>
      let j := p.t - 1 - i % p.t
      decide (j < matW p.code) && plane r (i / p.t) j))

/-- The bytes of the destination ranges from those of the source. -/
def moved (f : Nat) (w : List Word) (src : List Byte) : List Byte :=
  match f with
  | 2 => planeImage (planeDesc w) src
  | 3 => unplaneBytes (planeDesc w) src
  | 4 => (List.range (w.getD 2 0).toNat).map (fun i => (bytesOf 8 (w.getD 1 0).toNat).getD (i % 8) 0)
  | _ => src

/-! ## Posting (R334, R340, R344, R348) -/

/-- Copies in flight of a core. -/
def inFlight (s : State) (core : Nat) : Nat := (s.engine.filter (fun o => o.isCopy && decide (o.core = core))).length

/-- Whether a core may post one more copy (R344); the engines of a retired die accept no work (spec/01_wafer.md R25): the instruction
waits there, and a copy already posted stays queued (DESIGN CHOICE, log entry 27: R25 names no trap and no status). -/
def copyRoom (s : State) : Bool := (s.die s.curDie).healthy && decide (inFlight s s.curCore < 128)

/-- An address a copy of the die-control core may name (R348). -/
def controlEndpoint (s : State) (a : Nat) : Bool :=
  match plainForm (a % 2 ^ 64) with
  | .window d _ => decide (d = s.curDie)
  | .paged _ => decide (s.curCtx ≠ 0)
  | _ => false

/-- The first endpoint of a die-control core's plain copy that R348 refuses. -/
def controlRefused (s : State) (f : Nat) (w : List Word) : Option Nat :=
  let ends : List Nat := (destRuns f w ++ srcRuns f w).map (·.1) ++ (if f = 5 then [(w.getD 1 0).toNat] else [])
  ends.find? (fun a => !controlEndpoint s a)

/-- Whether a descriptor address lies in the areas of R316 and R348. -/
def copyArea (s : State) (a : Word) : Bool :=
  descArea s a && !(isControl s.curCore && decide (2 ^ 64 - 2 ^ 16 ≤ a.toNat))

/-- Whether an address is a near destination of a `.next` copy: the issuing core's own local store, the issuing die's window, or a
paged address (R340). -/
def nearDst (s : State) (a : Nat) : Bool :=
  match addrForm s s.curCore s.curSlot (a % 2 ^ 64) with
  | .own .. => true
  | .local g _ => decide (g = s.curCore)
  | .window d _ => decide (d = s.curDie)
  | .paged _ => true
  | .bad => false

/-- Enters a copy whose descriptor is read. -/
def enterCopy (o : EngOp) (f : Nat) (w : List Word) (phys : Bool) (s : State) : State :=
  if phys || o.nxt ≠ .plain then (enterOp s o).advance
  else match checkParts s s.curCore s.curSlot s.th.mode s.curCtx .write (destParts f w) [] with
    | .inl e => (enterPlain s o).advance.complete o e.1 e.2
    | .inr parts =>
      let far := parts.any (fun p => !p.2.2.near)
      if far && decide (2 ^ 28 ≤ s.th.farSeq) then s.raise 7 (w.getD 0 0) true
      else
        let s0 := s
        let s := enterOp s { o with targets := parts.map (partTarget s.curCore) }
        let s := if far then s.modTh (fun th => { th with farSeq := th.farSeq + 1 }) else s
        (match ownParts s o false parts with
         | some s => s.advance
         | none => s0)

/-- `Xpost` for form `f`, plain or `.next`. -/
def xpost (f : Nat) (next : Bool) (d a b : BitVec 5) (s : State) : State :=
  s.withG [a, b] (fun s =>
    let da := s.th.rg a
    let ew := s.th.rg b
    let phys := ew.getLsbD 50
    let need := takesNode (wfld ew 0 16) (edgePreds ew)
    ownerOnly s (fun s =>
      if (phys || isControl s.curCore) && decide (s.th.mode ≠ .m) then s.raise 2 s.iw false
      else s.withVector (fun s =>
        if da.toNat % 64 ≠ 0 then s.raise 3 da false
        else if !copyArea s da then s.raise 4 da false
        else if wfld ew 51 13 ≠ 0 then s.raise 4 ew false
        else if !copyRoom s || !nodeRoom s need then s
        else s.withDrain (fun s => readDesc da 8 s (fun w s =>
          if badCopy f phys w then s.raise 4 da false
          else match ((if isControl s.curCore && !phys then controlRefused s f w else none).or
              (if next && (phys || (destRuns f w).any (fun (r : Nat × Nat) => !nearDst s r.1)) then some (w.getD 0 0).toNat
               else none)) with
            | some x => s.raise 4 (word x) true
            | none =>
              let preds := matchPreds s (engineCluster s.curCore) s.curCtx (edgePreds ew)
              let o := newOp s d (wfld ew 0 16) need preds (.copy f w phys)
              enterCopy { o with total := copyTotal f w, nxt := if next then .staged else .plain } f w phys s)))))

def execXcopy (d a b : BitVec 5) (s : State) : Result := .next (xpost 0 false d a b s)
def execXcopyT (d a b : BitVec 5) (s : State) : Result := .next (xpost 1 false d a b s)
def execXplane (d a b : BitVec 5) (s : State) : Result := .next (xpost 2 false d a b s)
def execXunplane (d a b : BitVec 5) (s : State) : Result := .next (xpost 3 false d a b s)
def execXfill (d a b : BitVec 5) (s : State) : Result := .next (xpost 4 false d a b s)
def execXgather (d a b : BitVec 5) (s : State) : Result := .next (xpost 5 false d a b s)
def execXcopyNext (a b : BitVec 5) (s : State) : Result := .next (xpost 0 true 0 a b s)
def execXcopyTNext (a b : BitVec 5) (s : State) : Result := .next (xpost 1 true 0 a b s)
def execXplaneNext (a b : BitVec 5) (s : State) : Result := .next (xpost 2 true 0 a b s)
def execXunplaneNext (a b : BitVec 5) (s : State) : Result := .next (xpost 3 true 0 a b s)
def execXfillNext (a b : BitVec 5) (s : State) : Result := .next (xpost 4 true 0 a b s)
def execXgatherNext (a b : BitVec 5) (s : State) : Result := .next (xpost 5 true 0 a b s)

/-! ## `.next` copies at the commit (R340) -/

/-- Location of a near address of a slot by its form. -/
def nearLoc (s : State) (core slot a : Nat) : Option Nat :=
  match addrForm s core slot (a % 2 ^ 64) with
  | .own off _ => some (localAddr core off)
  | .local g off => some (localAddr g off)
  | .window d o => some (dieAddr d o)
  | .paged va => some va
  | .bad => none

/-- The lines a `.next` copy makes pending at its commit. -/
def nextLines (s : State) (o : EngOp) : List OwnedLine :=
  match o.kind with
  | .copy f w phys =>
    if phys then []
    else (dedup ((destParts f w).filterMap (fun r => (nearLoc s o.core o.slot r.1).map lineOf))).map (fun l =>
      ({ die := dieOf o.core, ctx := o.ctx, line := l, op := o.op, nxt := true, since := o.op } : OwnedLine))
  | _ => []

/-- The staged `.next` copies of a context come due at its commit. -/
def nextDue (s : State) (ctx : Nat) : State :=
  let mine := s.engine.filter (fun o => decide (o.ctx = ctx ∧ o.nxt = .staged))
  { s with owned := s.owned ++ mine.flatMap (nextLines s),
           engine := s.engine.map (fun o => if o.ctx = ctx ∧ o.nxt = .staged then { o with nxt := .due } else o) }

/-! ## Running (R336-R340) -/

/-- Reads byte ranges for a copy after checking every part. -/
def copyRead (s : State) (o : EngOp) (rs : List (Nat × Nat)) : (Nat × Nat) ⊕ ReadAnswer :=
  readRanges s o (fun s loc => ownedBefore s (dieOf o.core) o.ctx loc o.op) rs

/-- The element ranges of XGATHER from its index list. -/
def gatherRuns (w : List Word) (list : List Byte) : List (Nat × Nat) :=
  (List.range (gatherCount w)).map (fun i =>
    (((w.getD 1 0).toNat + ofBytes ((list.drop (4 * i)).take 4) * gatherSize w) % 2 ^ 64, gatherSize w))

/-- The prepared destination of a copy that starts: as its issue left it, or, for a `.next` copy, as its check in the next
superstep gives it (R336, R340). -/
def copyTargets (s : State) (o : EngOp) (f : Nat) (w : List Word) : (Nat × Nat) ⊕ List (Bool × Nat × Nat) :=
  if o.nxt ≠ .due then .inr o.targets
  else match checkParts s o.core o.slot o.mode o.ctx .write (destParts f w) [] with
    | .inl e => .inl e
    | .inr parts => (match parts.find? (fun p => !p.2.2.near) with
      | some p => .inl (2, p.1)
      | none => .inr (parts.map (partTarget o.core)))

/-- Checks and reads every source byte, and prepares what the copy writes.  A source read of an absent paged line for which the
slice can take no line waits, and raises nothing (DESIGN CHOICE, log entry 72: R198 names writes and a thread's fill alone). -/
def startCopy (s : State) (o : EngOp) (f : Nat) (w : List Word) : PassAnswer :=
  match copyTargets s o f w with
  | .inl e => .fail s e.1 e.2
  | .inr targets =>
      let finish (s : State) (src : List Byte) : PassAnswer :=
        .ran (s.modOp o.op (fun o =>
          { o with writes := some (cutTargets targets (destBytes f w (moved f w src))), begun := true }))
      match copyRead s o (srcRuns f w) with
      | .inl e => .fail s e.1 e.2
      | .inr (.wait s) => .wait s
      | .inr .full => .wait s
      | .inr (.damaged s _) => .wait (killOp s o.op)
      | .inr (.bytes s bs) =>
        if f = 5 then (match copyRead s o (gatherRuns w bs) with
          | .inl e => .fail s e.1 e.2
          | .inr (.wait s) => .wait s
          | .inr .full => .wait s
          | .inr (.damaged s _) => .wait (killOp s o.op)
          | .inr (.bytes s bs) => finish s bs)
        else finish s bs

/-! ## Physical mode (R347) -/

/-- Whether a range of frame addresses lies in frames of kinds 1 to 5. -/
def framesOk (s : State) (a n : Nat) : Bool :=
  decide (a + n ≤ 2 ^ 40) &&
    (List.range ((a + n - 1) / 65536 - a / 65536 + 1)).all (fun i =>
      let fa := a + i * 65536
      let k := frameKind s (fld fa 36 4) (fld fa 16 20)
      decide (1 ≤ k ∧ k ≤ 5))

/-- The committed image of a window range, line by line, as an M-mode load reads it: a line pending for a `.next` operation is
waited for, and the check bits are read (R178, R195). -/
def physParts (o : EngOp) : List (Nat × Nat × Place) → State → List Byte → ReadAnswer
  | [], s, acc => .bytes s acc
  | x :: rest, s, acc =>
    if lineBusyNext s o.ctx (x.2.2.loc o.core) then .wait s
    else match readPre s (dieOf o.core) o.ctx o.core o.slot x.2.2 x.2.1 with
      | .bytes s bs => physParts o rest s (acc ++ bs)
      | a => a

/-- The source bytes of a physical copy, or none where an endpoint is refused. -/
def physRead (s : State) (o : EngOp) (src n : Nat) : Option ReadAnswer :=
  if src < 2 ^ 40 then (if framesOk s src n then some (.bytes s (s.readN src n)) else none)
  else
    let inDie (r : Nat × Nat) : Bool :=
      match plainForm (r.1 % 2 ^ 64) with
      | .window d off => decide (d = dieOf o.core ∧ 16384 ≤ off)
      | .local g _ => decide (dieOf g = dieOf o.core)
      | _ => false
    if !(partsOf src n).all inDie then none
    else match checkParts s o.core 0 .m o.ctx .read (partsOf src n) [] with
      | .inl _ => none
      | .inr parts => some (physParts o parts s [])

/-- The module a physical copy writes to. -/
def physModule (s : State) (w : List Word) : Nat :=
  let m := wfld (w.getD 3 0) 0 12
  if m = 0xFFF then s.modnum else m

/-- A physical copy starts: its endpoints are checked and its source is read. -/
def startPhysical (s : State) (o : EngOp) (f : Nat) (w : List Word) : PassAnswer :=
  let dst := (w.getD 0 0).toNat
  let n := (w.getD 2 0).toNat
  let ready (s : State) (bs : List Byte) : PassAnswer :=
    .ran (s.modOp o.op (fun o =>
      { o with begun := true, writes := some (cutTargets ((partsOf dst n).map (fun p => (false, p.1, p.2))) bs) }))
  if !(decide (dst < 2 ^ 40) && (decide (physModule s w ≠ s.modnum) || framesOk s dst n)) then .fail s 2 dst
  else if f = 4 then ready s (moved 4 w [])
  else match physRead s o (w.getD 1 0).toNat n with
    | none => .fail s 2 (w.getD 1 0).toNat
    | some (.wait s) => .wait s
    | some .full => .wait s
    | some (.damaged s _) => .wait (killOp s o.op)
    | some (.bytes s bs) => ready s bs

/-- One line of a physical copy lands, in HBM or on the linked module. -/
def physLine (s : State) (o : EngOp) (w : List Word) : State :=
  match o.writes.getD [] with
  | [] => s
  | x :: rest =>
    let m := physModule s w
    let s := if m = s.modnum then s.writeN x.2.1 x.2.2
      else s.send m (.frameWrite x.2.1 x.2.2)
    s.modOp o.op (fun o => { o with writes := some rest })

/-! ## Line transfers (R346) -/

/-- The items that are in the destination line of the first of those preferred. -/
def firstLine (preferred items : List (Bool × Nat × List Byte)) : List (Bool × Nat × List Byte) :=
  match preferred with
  | [] => []
  | w :: _ => items.filter (fun x => x.1 == w.1 && decide (lineOf x.2.1 = lineOf w.2.1))

/-- Whether an access of a thread, a store buffer or an engine of the die waits for a line (spec/08_die_memory.md R205). -/
def awaited (s : State) (die ctx line : Nat) : Bool :=
  s.threads.any (fun e => decide (dieOf (coreOf e.1) = die) && (decide (2 ^ 48 ≤ line) || decide (s.ctxOf e.1 = ctx)) &&
      (decide (e.2.stall = some line) || decide (e.2.sbStall = some line))) ||
    s.engine.any (fun o => decide (dieOf o.core = die) && (decide (2 ^ 48 ≤ line) || decide (o.ctx = ctx)) &&
      decide (o.stall = some line))

/-- Whether an item is in a line that an access waits for: the engine writes it before the others (spec/08_die_memory.md R205). -/
def recalled (s : State) (o : EngOp) (w : Bool × Nat × List Byte) : Bool := !w.1 && awaited s (dieOf o.core) o.ctx (lineOf w.2.1)

/-- One destination line of a copy that has started, an awaited one first; the items left. -/
def copyLine (s : State) (o : EngOp) : State :=
  let items := o.writes.getD []
  let now := firstLine (items.filter (recalled s o) ++ items) items
  let r := writeItems o items now s
  r.1.modOp o.op (fun o => { o with writes := some (r.2 ++ items.filter (fun x => !now.contains x)) })

/-- A copy with nothing left to write completes. -/
def endCopy (s : State) (op : Nat) : State :=
  match s.engOp op with
  | some o => if o.writes = some [] then s.complete o 0 o.total else s
  | none => s

/-- What one transfer of a copy that may run comes to: whether it made progress, and the state. -/
def copyStep (s : State) (o : EngOp) : Bool × State :=
  match o.kind with
  | .copy f w phys =>
    if o.writes.isSome then
      let s' := if phys then physLine s o w else copyLine s o
      (decide ((s'.engOp o.op).map (·.writes) ≠ some o.writes), endCopy s' o.op)
    else (match (if phys then startPhysical s o f w else startCopy s o f w) with
      | .wait s => (false, s)
      | .fail s st d => (true, s.complete o st d)
      | .ran s => (true, endCopy s o.op))
  | _ => (false, s)

/-- Index of a core in the round robin of its copy engine: the die-control core is index 8 (R346, R348). -/
def copyIndex (core : Nat) : Nat := if isControl core then 8 else idxOf (core % 256)

/-- The copies of an engine that may run, oldest first. -/
def copiesReady (s : State) (cluster : Nat) : List EngOp :=
  s.engine.filter (fun o => o.isCopy && decide (engineCluster o.core = cluster) && decide (o.nxt ≠ .staged) && mayRun s o &&
    (copyStep s o).1)

/-- The copy that the round robin serves: of the first index after the one last granted that has a transfer ready, the oldest. -/
def copyGrant (s : State) (cluster : Nat) : Option EngOp :=
  let ready := copiesReady s cluster
  ((List.range 9).map (fun i => ((s.cluster cluster).copyLast + 1 + i) % 9)).findSome? (fun i =>
    ready.find? (fun o => copyIndex o.core = i))

/-! ## The events -/

/-- One turn of a copy: what it waits for is noted; a transfer takes place only where the engine grants it. -/
def runCopy (s : State) (o : EngOp) : State :=
  let cluster := engineCluster o.core
  let r := copyStep s o
  if !(s.die (dieOf o.core)).healthy then s
  else if !r.1 then r.2
  else match copyGrant s cluster with
    | some x => if x.op = o.op then r.2.modCluster cluster (fun c => { c with copyLast := copyIndex o.core }) else s
    | none => s

def execCopyRun (op : Nat) (s : State) : Result :=
  .next (match s.engOp op with
    | none => s
    | some o => if o.isCopy && decide (o.nxt = .plain) && mayRun s o then runCopy s o else s)

def execNextCopyRun (op : Nat) (s : State) : Result :=
  .next (match s.engOp op with
    | none => s
    | some o => if o.isCopy && decide (o.nxt = .due) && mayRun s o then runCopy s o else s)

/-! ## Recalls (spec/08_die_memory.md R205) -/

/-- Writes the items of awaited lines before the others. -/
def writeRecalled (s : State) (o : EngOp) : State :=
  let items := o.writes.getD []
  let mine := recalled s o
  let r := writeItems o items (items.filter mine) s
  r.1.modOp o.op (fun o => { o with writes := some (r.2 ++ items.filter (fun w => !mine w)) })

/-- RECALL: the operation, started if it may run, writes the lines that accesses wait for. -/
def execRecall (op : Nat) (s : State) : Result :=
  .next (match s.engOp op with
    | none => s
    | some o =>
      if o.writes.isSome then writeRecalled s o
      else if !mayRun s o then s
      else
        let start : PassAnswer := match o.kind with
          | .copy f w false => startCopy s o f w
          | .drain .. => openDrain s o
          | _ => .wait s
        match start with
        | .wait s => s
        | .fail s st d => s.complete o st d
        | .ran s => (match s.engOp op with
          | some o => writeRecalled s o
          | none => s))

end Sys2Proof.Machine
end

