-- ==== Sys2Proof/Machine/Amplitude.lean ====
section
/-! DEFINITION. The amplitude engine: the state's layout, its map and stamps, QGATE, QSWAP, QPROB, QNORM and QSAMP, the queue
and its passes (spec/15_amplitudes.md R379-R402, spec/03_numbers.md R80, R81). -/

namespace Sys2Proof.Machine

open Sys2Proof

/-! ## Layout (R380-R383) -/

/-- The die a stack attaches to (spec/01_wafer.md Table 1.3). -/
def stackDie (k : Nat) : Nat := [0, 1, 2, 3, 4, 5, 6, 11, 12, 17, 18, 19, 20, 21, 22, 23].getD k 0

def Amp.valid (a : Amp) : Bool := a.qcfg.getLsbD 63
def Amp.dbl (a : Amp) : Bool := a.qcfg.getLsbD 62
def Amp.frontB (a : Amp) : Bool := a.qcfg.getLsbD 61
/-- L: local bits. -/
def Amp.lbits (a : Amp) : Nat := if a.dbl then 12 else 13
/-- Bytes of an amplitude. -/
def Amp.size (a : Amp) : Nat := if a.dbl then 16 else 8
def Amp.pg (a : Amp) : Nat := wfld a.qcfg 36 5
def Amp.sbits (a : Amp) : Nat := wfld a.qcfg 41 3
def Amp.mbits (a : Amp) : Nat := wfld a.qcfg 44 4
def Amp.sb (a : Amp) : Nat := wfld a.qcfg 32 4
def Amp.mi (a : Amp) : Nat := wfld a.qcfg 16 10
def Amp.own (a : Amp) : Nat := wfld a.qcfg 0 13
/-- Physical bits within the module. -/
def Amp.inner (a : Amp) : Nat := a.lbits + a.pg + a.sbits
/-- Qubits of the state. -/
def Amp.n (a : Amp) : Nat := a.inner + a.mbits
def Amp.fmt (a : Amp) : Fmt := if a.dbl then .d else .f
/-- Pages of a leaf on this module. -/
def Amp.pages (a : Amp) : Nat := 2 ^ (a.pg + a.sbits)
/-- The physical index on this module as an index of the whole state. -/
def Amp.full (a : Amp) (x : Nat) : Nat := a.mi * 2 ^ a.inner + x
def Amp.dies (a : Amp) : List Nat := dedup ((List.range (2 ^ a.sbits)).map (fun k => stackDie (a.sb + k)))
/-- Whether the engines of a state's dies accept work: those of a retired die do not (spec/01_wafer.md R25, log entry 27). -/
def Amp.accepts (a : Amp) (s : State) : Bool := a.dies.all (fun d => (s.die d).healthy)

/-- First frame of a leaf. -/
def Amp.frame (a : Amp) (leafB : Bool) : Nat := if leafB then wfld a.qleaf 32 20 else wfld a.qleaf 0 20

/-- Frame address of an amplitude (R382). -/
def Amp.addr (a : Amp) (leafB : Bool) (x : Nat) : Nat :=
  (a.sb + x / 2 ^ (a.lbits + a.pg)) * 2 ^ 36 + (a.frame leafB + x / 2 ^ a.lbits % 2 ^ a.pg) * 65536 +
    x % 2 ^ a.lbits * a.size

/-- An amplitude as patterns. -/
def readAmp (s : State) (a : Amp) (leafB : Bool) (x : Nat) : Nat × Nat :=
  let bs := s.readN (a.addr leafB x) a.size
  (ofBytes (bs.take (a.size / 2)), ofBytes (bs.drop (a.size / 2)))

/-- A leaf with the amplitudes that `f` gives written. -/
def writeLeaf (s : State) (a : Amp) (leafB : Bool) (f : Nat → Option (Nat × Nat)) : State :=
  (List.range (2 ^ a.inner)).foldl (fun s x => match f x with
    | some v => s.writeN (a.addr leafB x) (bytesOf (a.size / 2) v.1 ++ bytesOf (a.size / 2) v.2)
    | none => s) s

def State.modAmp (s : State) (ctx : Nat) (f : Amp → Amp) : State := s.modCtx ctx (fun c => { c with amp := f c.amp })

/-- p(q). -/
def Amp.bitOf (a : Amp) (q : Nat) : Nat := a.work.getD q 0

/-- Whether the working map over the state's qubits is a permutation. -/
def Amp.permuted (a : Amp) : Bool :=
  (a.work.take a.n).all (fun b => decide (b < a.n)) && decide ((dedup (a.work.take a.n)).length = a.n)

/-! ## Registers (R381, R383) -/

/-- Whether writes of the state's registers are accepted. -/
def Amp.idle (a : Amp) : Bool := a.queue.isEmpty && !a.ran

/-- Whether the frames of a leaf belong to the context as kind 3. -/
def leafOwned (s : State) (ctx stack first n : Nat) : Bool :=
  (List.range n).all (fun i => decide (frameKind s stack (first + i) = 3) && decide (frameCtx s stack (first + i) = ctx))

/-- The conditions on a QCFG write of valid = 1. -/
def qcfgOk (s : State) (ctx : Nat) (a : Amp) : Bool :=
  let pages := 2 ^ a.pg
  let fa := a.frame false
  let fb := a.frame true
  decide (a.mbits ≤ 10 ∧ a.sbits ≤ 4 ∧ a.pg ≤ 18 ∧ a.sb % 2 ^ a.sbits = 0 ∧ a.sb + 2 ^ a.sbits ≤ 16 ∧ a.mi < 2 ^ a.mbits) &&
    decide (a.own < numGcores) && (s.die (dieOf a.own)).healthy && a.dies.all (fun d => (s.die d).healthy) &&
    decide (fa + pages ≤ 732165 ∧ fb + pages ≤ 732165 ∧ (fa + pages ≤ fb ∨ fb + pages ≤ fa)) &&
    (List.range (2 ^ a.sbits)).all (fun k => leafOwned s ctx (a.sb + k) fa pages && leafOwned s ctx (a.sb + k) fb pages)

/-- Stored bits of QCFG, its front bit cleared. -/
def qcfgStored (value : Word) : Word :=
  word (wfld value 62 2 * 2 ^ 62 + wfld value 32 16 * 2 ^ 32 + wfld value 16 10 * 2 ^ 16 + wfld value 0 13)

/-- Leaf A becomes basis state 0. -/
def fillLeaf (s : State) (a : Amp) : State :=
  let s := (List.range (2 ^ a.sbits)).foldl (fun s k =>
    zeroRange s ((a.sb + k) * 2 ^ 36 + a.frame false * 65536) (2 ^ a.pg * 65536)) s
  if a.mi = 0 then s.writeN (a.addr false 0) (bytesOf (a.size / 2) (if a.dbl then 0x3FF0000000000000 else 0x3F800000)) else s

/-- A write of QCFG. -/
def writeQcfg (s : State) (ctx : Nat) (value : Word) : State :=
  let a := (s.ctx ctx).amp
  if !a.idle then s
  else if !value.getLsbD 63 then
    s.modAmp ctx (fun a => { a with qcfg := word ((qcfgStored value).toNat + bit a.frontB * 2 ^ 61) })
  else
    let b := { a with qcfg := qcfgStored value }
    if !qcfgOk s ctx b then s
    else
      let b := { b with work := List.range 64, front := List.range 64, stamps := [], stampsC := [], pass := 0, passC := 0 }
      let s := s.modAmp ctx (fun _ => b)
      if value.getLsbD 60 then fillLeaf s b else s

def writeQleaf (s : State) (ctx : Nat) (value : Word) : State :=
  s.modAmp ctx (fun a =>
    if a.idle && !a.valid then { a with qleaf := word (wfld value 32 20 * 2 ^ 32 + wfld value 0 20) } else a)

def writeQmtab (s : State) (ctx : Nat) (value : Word) : State :=
  s.modAmp ctx (fun a => if a.idle then { a with qmtab := evenPc value } else a)

/-- QMAPn as read. -/
def readQmap (a : Amp) (n : Nat) : Word :=
  word (((List.range 8).map (fun i => a.work.getD (8 * n + i) 0 * 2 ^ (8 * i))).foldl (· + ·) 0)

def writeQmap (s : State) (ctx n : Nat) (value : Word) : State :=
  let put (l : List Nat) : List Nat := l.mapIdx (fun k x => if k / 8 = n then wfld value (8 * (k % 8)) 6 else x)
  s.modAmp ctx (fun a => if a.idle then { a with work := put a.work, front := put a.front } else a)

/-- QCFG_WRITE on the state of a context. -/
def execQcfgWrite (die ctx : Nat) (value : Word) (s : State) : Result :=
  .next (if die < numDies ∧ ctx < numContexts then writeQcfg s ctx value else s)

/-! ## Issue (R388-R390) -/

/-- The checks of R388 and R389; `k` goes on with the state of the context. -/
def ampIssue (dbl : Bool) (s : State) (k : Amp → State → State) : State :=
  let a := (s.ctx s.curCtx).amp
  if 8 ≤ s.curSlot || s.curCore ≠ a.own || !a.valid then s.raise 4 0 false
  else if a.transit.isSome then s.raise 4 1 false
  else if !a.permuted then s.raise 4 2 false
  else if dbl != a.dbl then s.raise 4 3 false
  else k a s

/-- Whether a `.d` form is ILLEGAL on the issuing die. -/
def ampForm (dbl : Bool) (s : State) (k : State → State) : State :=
  if dbl && !(s.die s.curDie).capAmp64 then s.raise 1 s.iw false else k s

/-- The entry at the head of a queue asks every die of the stack set for leave once it is next to run. -/
def askAmp (s : State) (ctx : Nat) : State :=
  let a := (s.ctx ctx).amp
  match a.queue with
  | e :: _ =>
    if e.leave.isEmpty then
      let r := a.dies.foldl (fun (acc : State × List (Nat × Leave)) d =>
        let x := requestLeave acc.1 d ctx 160 (.amplitude ctx)
        (x.1, acc.2 ++ [(d, x.2)])) (s, [])
      r.1.modAmp ctx (fun a => { a with queue := match a.queue with
        | e :: t => { e with leave := r.2 } :: t
        | [] => [] })
    else s
  | [] => s

/-- Takes a queue entry and empties the destination. -/
def ampEnter (d : BitVec 5) (kind : AmpKind) (s : State) : State :=
  let ctx := s.curCtx
  let a := (s.ctx ctx).amp
  let e : AmpEntry :=
    { core := s.curCore, slot := s.curSlot, d := d, kind := kind, first := !a.queued, leave := [], sent := none, accepted := [] }
  let writes := match kind with
    | .gate .. => true
    | .swap .. => true
    | _ => false
  let s := s.modAmp ctx (fun a => { a with queue := a.queue ++ [e], queued := a.queued || writes })
  (askAmp (s.modTh (fun th => th.emptyG d)) ctx).advance

/-- Waits for the vector memory entries queued before (R144), for a queue entry and for engines that accept work (log entry 27),
and drains the store buffer. -/
def ampRoom (s : State) (k : State → State) : State :=
  s.withVector (fun s =>
    let a := (s.ctx s.curCtx).amp
    if 8 ≤ a.queue.length || !a.accepts s then s else s.withDrain k)

/-! ## Maps and stamps as the passes run (R384, R393, R394) -/

/-- A writing pass takes the next number and stamps local bits. -/
def Amp.stampPass (a : Amp) (bits : List Nat) : Amp :=
  { a with pass := a.pass + 1, stamps := bits.foldl (fun t b => t.set b (a.pass + 1)) a.stamps }

/-- Exchanges p(u) and p(w) in the working map. -/
def Amp.exchange (a : Amp) (u w : Nat) : Amp := { a with work := (a.work.set u (a.bitOf w)).set w (a.bitOf u) }

/-- The logical qubit that stands on a physical bit. -/
def Amp.qubitAt (a : Amp) (b : Nat) : Nat := ((List.range a.n).find? (fun q => a.bitOf q = b)).getD 0

/-- The local bit QGATE.AUTO chooses: the lowest stamp among those that no target stands on. -/
def Amp.chooseBit (a : Amp) (targets : List Nat) : Nat :=
  let busy := targets.map a.bitOf
  (((List.range a.lbits).filter (fun b => !busy.contains b)).foldl (fun best b => match best with
    | none => some b
    | some x => if Table.get 0 a.stamps b < Table.get 0 a.stamps x then some b else some x) none).getD 0

/-! ## QGATE (R391, R392) -/

/-- The fields of a gate pair for `k` targets. -/
def gateTargets (gw : Word) (k : Nat) : List Nat := (List.range k).map (fun i => wfld gw (6 * i) 6)
def gateControls (gw cw : Word) : List Nat := (List.range (min 8 (wfld gw 32 4))).map (fun i => wfld cw (6 * i) 6)

/-- R391. -/
def badGate (a : Amp) (gw cw : Word) (k : Nat) : Bool :=
  let nc := wfld gw 32 4
  let named := gateTargets gw k ++ gateControls gw cw
  wfld gw 36 28 ≠ 0 || wfld gw 30 2 ≠ 0 || wfld cw 56 8 ≠ 0 || 8 < nc || fld (wfld gw 0 30) (6 * k) 30 ≠ 0 ||
    fld (wfld cw 0 48) (6 * nc) 48 ≠ 0 || fld (wfld cw 48 8) nc 8 ≠ 0 || named.any (fun q => decide (a.n ≤ q)) ||
    decide ((dedup named).length ≠ named.length)

/-- `Qgate`. -/
def qgate (dbl auto : Bool) (d a b : BitVec 5) (s : State) : State :=
  ampForm dbl s (fun s => s.withG [a, b, b + 1] (fun s => ampIssue dbl s (fun x s => s.withVector (fun s =>
    let ua := s.th.rg a
    let gw := s.th.rg b
    let cw := s.th.rg (b + 1)
    if ua.toNat % 64 ≠ 0 then s.raise 3 ua false
    else loadThen ua 8 s (fun h0 s => loadThen (ua + 8) 8 s (fun h1 s =>
      let h := ofBytes h0
      let k := fld h 0 3
      let bytes := 16 + 4 ^ k * x.size
      if h / 16 ≠ 0 || ofBytes h1 ≠ 0 || k = 0 || 5 < k || h.testBit 3 != dbl then s.raise 4 ua false
      else if !ownRange s .read ua bytes then s.raise 4 ua false
      else if badGate x gw cw k then s.raise 4 gw false
      else if (gateTargets gw k).any (fun t => decide (x.lbits ≤ x.bitOf t) && (!auto || decide (x.inner ≤ x.bitOf t))) then
        s.raise 11 gw false
      else ampRoom s (fun s => match ownBytes s ua.toNat bytes with
        | .wait s => s
        | .full => s.raise 7 ua false
        | .damaged s' l => if s.th.vectorBusy then s else s'.raise 10 (word l) false
        | .bytes s bs =>
          ampEnter d (.gate k (elemsOf (x.size / 2) (bs.drop 16)) (gateTargets gw k) (gateControls gw cw) (wfld cw 48 8) auto)
            s)))))))

def execQgate (d a b : BitVec 5) (s : State) : Result := .next (qgate false false d a b s)
def execQgateAuto (d a b : BitVec 5) (s : State) : Result := .next (qgate false true d a b s)
def execQgateD (d a b : BitVec 5) (s : State) : Result := .next (qgate true false d a b s)
def execQgateAutoD (d a b : BitVec 5) (s : State) : Result := .next (qgate true true d a b s)

/-! ## QSWAP (R394, R395) -/

/-- Module number of a module index, from the module table in the owner die's window. -/
def moduleAt (s : State) (a : Amp) (j : Nat) : Option Nat :=
  let at_ := (a.qmtab.toNat + 2 * j) % 2 ^ 64
  match plainForm at_ with
  | .window d o => if d = dieOf a.own then some (ofBytes (s.readN (dieAddr d o) 2) % 4096) else none
  | _ => none

/-- The partner of a module bit. -/
def partnerOf (s : State) (a : Amp) (o : Nat) : Option Nat := moduleAt s a (a.mi ^^^ 2 ^ (o - a.inner))

def qswap (dbl : Bool) (d a : BitVec 5) (s : State) : State :=
  ampForm dbl s (fun s => s.withG [a] (fun s => ampIssue dbl s (fun x s =>
    let w := s.th.rg a
    let u := wfld w 0 6
    let v := wfld w 8 6
    let pu := x.bitOf u
    let pv := x.bitOf v
    if wfld w 14 50 ≠ 0 || wfld w 6 2 ≠ 0 || x.n ≤ u || x.n ≤ v || decide (pu < x.lbits) == decide (pv < x.lbits) then
      s.raise 4 w false
    else ampRoom s (fun s =>
      let l := min pu pv
      let o := max pu pv
      let far := decide (x.inner ≤ o)
      let partner := if far then partnerOf s x o else none
      let s := ampEnter d (.swap l o u v partner) s
      if far then s.modAmp s.curCtx (fun z => { z with transit := some (l, o), peer := partner }) else s))))

def execQswap (d a : BitVec 5) (s : State) : Result := .next (qswap false d a s)
def execQswapD (d a : BitVec 5) (s : State) : Result := .next (qswap true d a s)

/-! ## QPROB, QNORM and QSAMP (R396-R398) -/

/-- Enters a sum; with module bits its result waits for release (R397). -/
def ampSum (d : BitVec 5) (b : Option Nat) (x : Amp) (s : State) : State :=
  ampRoom s (fun s =>
    let s := ampEnter d (.sum b) s
    if x.mbits = 0 ∨ d = 0 then s
    else s.modTh (fun th => { th with ramo := th.ramo ||| BitVec.ofNat 32 (2 ^ d.toNat) }))

def qprob (dbl : Bool) (d a : BitVec 5) (s : State) : State :=
  ampForm dbl s (fun s => s.withG [a] (fun s => ampIssue dbl s (fun x s =>
    let w := s.th.rg a
    if wfld w 6 58 ≠ 0 || x.n ≤ wfld w 0 6 then s.raise 4 w false
    else ampSum d (some (wfld w 0 6)) x s)))

def qnorm (dbl : Bool) (d : BitVec 5) (s : State) : State :=
  ampForm dbl s (fun s => ampIssue dbl s (fun x s => ampSum d none x s))

def qsamp (dbl : Bool) (d a : BitVec 5) (s : State) : State :=
  ampForm dbl s (fun s => s.withG [a] (fun s => ampIssue dbl s (fun x s =>
    let w := s.th.rg a
    if x.mbits ≠ 0 then s.raise 4 w false
    else s.withDraws (fun s => ampRoom s (fun s =>
      let r := prngNext s.th.prng
      ampEnter d (.sample r w) (s.modTh (fun th => { th with prng := r })))))))

def execQprob (d a : BitVec 5) (s : State) : Result := .next (qprob false d a s)
def execQprobD (d a : BitVec 5) (s : State) : Result := .next (qprob true d a s)
def execQnorm (d : BitVec 5) (s : State) : Result := .next (qnorm false d s)
def execQnormD (d : BitVec 5) (s : State) : Result := .next (qnorm true d s)
def execQsamp (d a : BitVec 5) (s : State) : Result := .next (qsamp false d a s)
def execQsampD (d a : BitVec 5) (s : State) : Result := .next (qsamp true d a s)

/-! ## Passes (R385, R392, R394, R402, spec/03_numbers.md R80) -/

/-- The leaf a pass reads: the front leaf for the first writing pass, or while none has been queued. -/
def Amp.source (a : Amp) (front : Bool) : Bool := if front then a.frontB else !a.frontB

/-- R80 for one output: row of complex patterns and inputs. -/
def gateRow (t : Fmt) (u : List Nat) (ins : List (Nat × Nat)) : (Nat × Nat) × FFlags :=
  (List.range ins.length).foldl (fun acc j =>
    let ur := t.decode (u.getD (2 * j) 0)
    let ui := t.decode (u.getD (2 * j + 1) 0)
    let ar := t.decode (ins.getD j (0, 0)).1
    let ai := t.decode (ins.getD j (0, 0)).2
    let re := fma t .rne ur ar (t.decode acc.1.1)
    let re' := fma t .rne ui.neg ai (t.decode re.1)
    let im := fma t .rne ur ai (t.decode acc.1.2)
    let im' := fma t .rne ui ar (t.decode im.1)
    ((re'.1, im'.1), acc.2 ||| re.2 ||| re'.2 ||| im.2 ||| im'.2)) ((0, 0), 0)

/-- The number that the bits of `x` at given places form. -/
def gather (x : Nat) (bits : List Nat) : Nat :=
  ((List.range bits.length).map (fun i => if x.testBit (bits.getD i 0) then 2 ^ i else 0)).foldl (· + ·) 0

/-- `x` with the bits at given places replaced by those of `j`. -/
def scatter (x j : Nat) (bits : List Nat) : Nat :=
  (List.range bits.length).foldl (fun x i =>
    let b := bits.getD i 0
    x - (if x.testBit b then 2 ^ b else 0) + (if j.testBit i then 2 ^ b else 0)) x

/-- Whether the controls of a physical index match. -/
def controlsMatch (a : Amp) (cs : List Nat) (cv x : Nat) : Bool :=
  (List.range cs.length).all (fun i => (a.full x).testBit (cs.getD i 0) == cv.testBit i)

/-- The gate pass: the state, its flags, pages written and outputs computed. -/
def gatePass (s : State) (a : Amp) (first : Bool) (k : Nat) (u ts cs : List Nat) (cv : Nat) : State × FFlags × Nat × Nat :=
  let src := a.source first
  let row (x : Nat) : (Nat × Nat) × FFlags :=
    gateRow a.fmt (u.drop (2 * gather x ts * 2 ^ k)) ((List.range (2 ^ k)).map (fun j => readAmp s a src (scatter x j ts)))
  let xs := (List.range (2 ^ a.inner)).filter (controlsMatch a cs cv)
  let s' := writeLeaf s a (!a.frontB) (fun x =>
    if controlsMatch a cs cv x then some (row x).1 else if first then some (readAmp s a src x) else none)
  (s', xs.foldl (fun f x => f ||| (row x).2) 0,
   if first then a.pages else (dedup (xs.map (fun x => x / 2 ^ a.lbits))).length, xs.length)

/-- Exchanging two bits of an index. -/
def exchangeBits (x l o : Nat) : Nat := scatter x (bit (x.testBit o) + 2 * bit (x.testBit l)) [l, o]

/-- A gate pass whose target stands on a module bit when it runs: the amplitudes it would need lie on other modules, and the spec
states no result for the groups whose controls match, so that each is free (log entry 67). -/
def freePass (s : State) (a : Amp) (first : Bool) (cs : List Nat) (cv : Nat) : State :=
  let s' := writeLeaf s a (!a.frontB) (fun x =>
    if controlsMatch a cs cv x then
      some ((freeWord (s.free + 2 * x)).toNat % 2 ^ (4 * a.size), (freeWord (s.free + 2 * x + 1)).toNat % 2 ^ (4 * a.size))
    else if first then some (readAmp s a (a.source first) x) else none)
  { s' with free := s.free + 2 ^ (a.inner + 1) }

/-- A swap within the module. -/
def swapPass (s : State) (a : Amp) (first : Bool) (l o : Nat) : State :=
  writeLeaf s a (!a.frontB) (fun x => some (readAmp s a (a.source first) (exchangeBits x l o)))

/-- The swaps of QGATE.AUTO before its gate (R393): target by target, each outer one changes places with the local bit chosen for
it.  The state, the maps and stamps, whether the next pass is the first writing pass of the superstep, and the swaps made. -/
def autoPasses (targets : List Nat) : List Nat → Bool → Nat → State × Amp → State × Amp × Bool × Nat
  | [], first, n, x => (x.1, x.2, first, n)
  | t :: rest, first, n, x =>
    if x.2.bitOf t < x.2.lbits then autoPasses targets rest first n x
    else
      let l := x.2.chooseBit targets
      let s := swapPass x.1 x.2 first l (x.2.bitOf t)
      autoPasses targets rest false (n + 1) (s, (x.2.exchange t (x.2.qubitAt l)).stampPass [l])

/-- The tag of a page of a moving half (R395; log entry 17). -/
def swapTag (l o page : Nat) : Nat := (l * 64 + o) * 2 ^ 32 + page

/-- Positions of a page whose bit `l` has a value. -/
def halfPage (a : Amp) (page l : Nat) (v : Bool) : List Nat :=
  ((List.range (2 ^ a.lbits)).map (fun i => page * 2 ^ a.lbits + i)).filter (fun x => x.testBit l == v)

/-- The module's own part of a module-bit swap: the kept half is written and the moving half sent, page by page. -/
def moduleSwap (s : State) (ctx : Nat) (a : Amp) (first : Bool) (l o : Nat) (partner : Option Nat) : State :=
  let b := a.mi.testBit (o - a.inner)
  let src := a.source first
  let out (page : Nat) : List Byte := (halfPage a page l (!b)).flatMap (fun x =>
    let v := readAmp s a src x
    bytesOf (a.size / 2) v.1 ++ bytesOf (a.size / 2) v.2)
  let s' := writeLeaf s a (!a.frontB) (fun x => if x.testBit l == b then some (readAmp s a src x) else none)
  match partner with
  | none => s'
  | some m => (List.range a.pages).foldl (fun s p => s.send m (.swapHalf ctx (swapTag l o p) (out p))) s'

/-- w of R396 over a leaf, in physical-index order. -/
def weights (s : State) (a : Amp) (leafB : Bool) (b : Option Nat) : List Nat :=
  (List.range (2 ^ a.inner)).map (fun x =>
    if (match b with
        | some b => (a.full x).testBit b
        | none => true) then
      let v := readAmp s a leafB x
      let t := a.fmt
      let re := t.decode v.1
      let im := t.decode v.2
      (fma t .rne im im (t.decode (fmul t .rne re re).1)).1
    else 0)

/-- A finite pattern as a multiple of 2^-1074. -/
def fixed (t : Fmt) (x : Nat) : Nat :=
  match t.decode x with
  | .fin _ m e => m <<< (e + 1074).toNat
  | _ => 0

/-- The walk of R398 from a node of 2^n leaves, with u × 2^32. -/
def sampleWalk (t : Fmt) : Nat → List Nat → Nat → Nat
  | 0, _, _ => 0
  | n + 1, l, u =>
    let v := fixed t (pairSum t n (l.take (2 ^ n))) * 2 ^ 32
    if u < v then sampleWalk t n (l.take (2 ^ n)) u else 2 ^ n + sampleWalk t n (l.drop (2 ^ n)) (u - v)

/-- The result of QSAMP. -/
def sample (s : State) (a : Amp) (leafB : Bool) (r : BitVec 32) (mask : Word) (map : List Nat) : Word :=
  let w := weights s a leafB none
  let n := pairSum a.fmt a.inner w
  match a.fmt.decode n with
  | .fin _ _ _ =>
    let x := a.full (sampleWalk a.fmt a.inner w (r.toNat * fixed a.fmt n))
    word (gather x (map.take a.n)) &&& mask
  | _ => ones64

/-! ## The queue (R390, R399) -/

/-- The completion word of a pass (Table 15.8). -/
def ampWord (status asw : Nat) (flags : FFlags) (pages : Nat) : Word :=
  word (status * 2 ^ 44 + asw * 2 ^ 38 + flags.toNat * 2 ^ 32 + pages % 2 ^ 32)

/-- Returns what an entry holds on each die. -/
def returnAmp (s : State) (ctx : Nat) (e : AmpEntry) : State :=
  e.leave.foldl (fun s l => returnLeave s l.1 ctx 160 l.2 (.amplitude ctx)) s

/-- The head entry completes and fills its register. -/
def completeAmp (s : State) (ctx : Nat) (e : AmpEntry) (w : Option Word) : State :=
  let s := returnAmp (s.modAmp ctx (fun a => { a with queue := a.queue.drop 1 })) ctx e
  let s := match w with
    | some w => (s.fillG (tid e.core e.slot) e.d w).trace (dieOf e.core) ctx 7 (identity s e.core e.slot) w
    | none => s
  askAmp s ctx

/-- A gate entry runs: its swaps, then the gate pass over the map they leave (R392, R393). -/
def runGate (s : State) (ctx : Nat) (a : Amp) (e : AmpEntry) (k : Nat) (u targets controls : List Nat) (cv : Nat) (auto : Bool) :
    State :=
  let p := if auto then autoPasses targets targets e.first 0 (s, a) else (s, a, e.first, 0)
  let b := p.2.1
  let ts := targets.map b.bitOf
  let cs := controls.map b.bitOf
  let g := if ts.any (fun t => decide (b.inner ≤ t)) then (freePass p.1 b p.2.2.1 cs cv, 0, b.pages, 0)
    else gatePass p.1 b p.2.2.1 k u ts cs cv
  let c := b.stampPass ts
  let s := g.1.modAmp ctx (fun a => { a with ran := true, work := c.work, stamps := c.stamps, pass := c.pass })
  let s := s.count ctx (if a.dbl then 27 else 26) (g.2.2.2 * 2 ^ k)
  completeAmp s ctx e (some (ampWord 0 p.2.2.2 g.2.1 (p.2.2.2 * a.pages + g.2.2.1)))

/-- Runs the head entry once its leave is granted. -/
def runAmp (s : State) (ctx : Nat) (a : Amp) (e : AmpEntry) : State :=
  match e.kind with
  | .gate k u ts cs cv auto => runGate s ctx a e k u ts cs cv auto
  | .swap l o u w partner =>
    let done (s : State) : State := s.modAmp ctx (fun a => { (a.exchange u w).stampPass [l] with ran := true })
    if a.inner ≤ o then
      (done (moduleSwap s ctx a e.first l o partner)).modAmp ctx (fun a =>
        { a with awaited := a.pages, queue := match a.queue with
          | e :: t => { e with sent := some s.time } :: t
          | [] => [] })
    else completeAmp (done (swapPass s a e.first l o)) ctx e (some (ampWord 0 0 0 a.pages))
  | .sum q =>
    let v := pairSum a.fmt a.inner (weights s a (a.source e.first) (q.map a.bitOf))
    if a.mbits = 0 then completeAmp s ctx e (some (word v))
    else
      let s := completeAmp s ctx e none
      s.modAmp ctx (fun a => { a with sums := a.sums ++ [{ t := tid e.core e.slot, d := e.d, value := v, kept := false }] })
  | .sample r mask => completeAmp s ctx e (some (sample s a (a.source e.first) r mask a.work))

/-- Whether a head entry may run: every die of the stack set has granted it leave. -/
def ampMayRun (a : Amp) (e : AmpEntry) : Bool :=
  a.dies.all (fun d => e.leave.any (fun l => decide (l.1 = d ∧ (l.2 = .granted ∨ l.2 = .reserved)))) && e.sent.isNone

/-- Contexts whose owner core lies on a die, with the entries at the head of their queues. -/
def ampHeads (s : State) (die : Nat) : List (Nat × Amp × AmpEntry) :=
  s.ctxs.filterMap (fun c => match c.2.amp.queue with
    | e :: _ => if dieOf e.core = die then some (c.1, c.2.amp, e) else none
    | [] => none)

/-- AMPLITUDE_PASS on a die: the first state owned there whose head entry has its leave, on dies whose engines accept
work, runs it. -/
def execAmplitudePass (die : Nat) (s : State) : Result :=
  .next (match (ampHeads s die).find? (fun x => ampMayRun x.2.1 x.2.2 && x.2.1.accepts s) with
    | none => s
    | some (ctx, a, e) => runAmp s ctx a e)

/-- The partner has accepted a page of the moving half: the pass completes with the last, and until then its 50 us run anew
(R395). -/
def swapAccepted (s : State) (ctx index : Nat) : State :=
  let a := (s.ctx ctx).amp
  match a.queue with
  | e :: rest =>
    if e.sent.isNone || e.accepted.contains index then s
    else
      let e := { e with accepted := e.accepted ++ [index], sent := some s.time }
      if a.pages ≤ e.accepted.length then completeAmp s ctx e (some (ampWord 0 0 0 a.pages))
      else s.modAmp ctx (fun a => { a with queue := e :: rest })
  | [] => s

/-- The pair of which a page of a moving half may be accepted now: this module's own pass with it has read its pages (R395). -/
def swapOpen (a : Amp) (index : Nat) : Option (Nat × Nat) :=
  match a.transit with
  | none => none
  | some (l, o) =>
    if swapTag l o (index % 2 ^ 32) = index ∧ a.awaited ≠ 0 ∧ index % 2 ^ 32 < a.pages then some (l, o) else none

/-- A page of a moving half arrives; one that comes too early waits at its sender. -/
def swapHalf (s : State) (ctx index : Nat) (data : List Byte) : State :=
  let a := (s.ctx ctx).amp
  match swapOpen a index with
  | none => s
  | some (l, o) =>
    let xs := halfPage a (index % 2 ^ 32) l (!a.mi.testBit (o - a.inner))
    let s := (List.range xs.length).foldl (fun s i =>
      s.writeN (a.addr (!a.frontB) (xs.getD i 0)) ((List.range a.size).map (fun k => data.getD (a.size * i + k) 0))) s
    let s := s.modAmp ctx (fun a => { a with awaited := a.awaited - 1 })
    match a.peer with
    | some m => s.send m (.swapAccepted ctx index)
    | none => s

def execSwapHalfArrival (die index : Nat) (data : List Byte) (s : State) : Result :=
  .next (match s.ctxs.find? (fun c => decide (dieOf c.2.amp.own = die) && c.2.amp.transit.isSome) with
    | none => s
    | some c => swapHalf s c.1 index data)

/-- PARTNER_TIMEOUT: 50 us in which its partner accepts nothing after its kept half is written, a module-bit swap completes with
status 3 and the die votes abort. -/
def execPartnerTimeout (die : Nat) (s : State) : Result :=
  .next (match (ampHeads s die).find? (fun x => match x.2.2.sent with
      | some t => decide (t + 50000 ≤ s.time)
      | none => false) with
    | none => s
    | some (ctx, a, e) => (completeAmp s ctx e (some (ampWord 3 0 0 a.pages))).vote ctx 7)

/-! ## At a decision (R386, R397, R400) -/

/-- `Commit()`'s step for the state of a context. -/
def commitAmp (s : State) (ctx : Nat) : State :=
  s.modAmp ctx (fun a =>
    let a := if a.ran then
        { a with qcfg := a.qcfg ^^^ BitVec.ofNat 64 (2 ^ 61), front := a.work, stampsC := a.stamps, passC := a.pass }
      else a
    { a with queued := false, ran := false, transit := none, peer := none, sums := [] })

/-- What an abort undoes. -/
def abortAmp (s : State) (ctx : Nat) : State :=
  let s := (s.ctx ctx).amp.queue.foldl (fun s e => returnAmp s ctx e) s
  s.modAmp ctx (fun a =>
    { a with work := a.front, stamps := a.stampsC, pass := a.passC, queue := [], queued := false, ran := false,
             transit := none, peer := none, awaited := 0, sums := [] })

end Sys2Proof.Machine
end

