-- ==== Sys2Proof/Machine/Digest.lean ====
section
/-! DEFINITION. SHA-256, which the signed reports and membership entries use (spec/20_accounting.md R466, R467). -/

namespace Sys2Proof.Machine

open Sys2Proof

/-- Whether a number has no divisor from 2 up to itself. -/
def isPrime (n : Nat) : Bool := decide (1 < n) && (List.range n).all (fun k => decide (k < 2) || decide (n % k ≠ 0))

/-- The primes below 312: the first 64. -/
def primes64 : List Nat := (List.range 312).filter isPrime

/-- The largest r below 2^n, above the start, whose k-th power does not exceed x: one bit a turn. -/
def kthRoot (k x : Nat) : Nat → Nat → Nat
  | 0, r => r
  | n + 1, r => kthRoot k x n (if (r + 2 ^ n) ^ k ≤ x then r + 2 ^ n else r)

/-- The first 32 bits of the fraction of the k-th root of p. -/
def rootFraction (k p : Nat) : BitVec 32 := BitVec.ofNat 32 (kthRoot k (p * 2 ^ (32 * k)) 37 0)

/-- The round constants: from the cube roots of the first 64 primes. -/
def shaConstants : List (BitVec 32) := primes64.map (rootFraction 3)

/-- The initial hash value: from the square roots of the first 8 primes. -/
def shaStart : List (BitVec 32) := (primes64.take 8).map (rootFraction 2)

/-- A big-endian number of a byte list. -/
def ofBytesBig (bs : List Byte) : Nat := ofBytes bs.reverse
/-- The `n` bytes of a number, most significant first. -/
def bytesBig (n x : Nat) : List Byte := (bytesOf n x).reverse

/-- The exclusive or of a word rotated right by each of some distances. -/
def turns (x : BitVec 32) (ns : List Nat) : BitVec 32 := (ns.map x.rotateRight).foldl (· ^^^ ·) 0

/-- The word that follows 16 words of a message schedule, the newest of which stands first. -/
def nextWord (w : List (BitVec 32)) : BitVec 32 :=
  let at_ (k : Nat) : BitVec 32 := w.getD (k - 1) 0
  at_ 16 + at_ 7 + (turns (at_ 15) [7, 18] ^^^ at_ 15 >>> 3) + (turns (at_ 2) [17, 19] ^^^ at_ 2 >>> 10)

/-- The message schedule, newest word first. -/
def schedule : Nat → List (BitVec 32) → List (BitVec 32)
  | 0, w => w
  | n + 1, w => schedule n (nextWord w :: w)

/-- One round on the eight working variables, the first of which is named a. -/
def shaTurn (v : List (BitVec 32)) (x : BitVec 32) : List (BitVec 32) :=
  let var (k : Nat) : BitVec 32 := v.getD k 0
  let choose := var 6 ^^^ (var 4 &&& (var 5 ^^^ var 6))
  let most := (var 0 &&& (var 1 ||| var 2)) ||| (var 1 &&& var 2)
  let low := var 7 + turns (var 4) [6, 11, 25] + choose + x
  (low + turns (var 0) [2, 13, 22] + most) :: (v.take 3 ++ (var 3 + low) :: (v.drop 4).take 3)

/-- The hash value after one 64-byte block. -/
def shaBlock (h : List (BitVec 32)) (block : List Byte) : List (BitVec 32) :=
  let first := (List.range 16).map (fun i => BitVec.ofNat 32 (ofBytesBig ((block.drop (4 * i)).take 4)))
  let v := ((schedule 48 first.reverse).reverse.zip shaConstants).foldl (fun v x => shaTurn v (x.1 + x.2)) h
  List.zipWith (· + ·) h v

/-- The padded message. -/
def shaPad (m : List Byte) : List Byte :=
  m ++ [0x80] ++ List.replicate ((119 - m.length % 64) % 64) 0 ++ bytesBig 8 (8 * m.length)

/-- The hash value after the blocks of a padded message, at most `n`. -/
def shaBlocks : Nat → List Byte → List (BitVec 32) → List (BitVec 32)
  | 0, _, h => h
  | n + 1, p, h => if p.isEmpty then h else shaBlocks n (p.drop 64) (shaBlock h (p.take 64))

/-- The digest, 32 bytes in the standard's order. -/
def sha256 (m : List Byte) : List Byte :=
  (shaBlocks (shaPad m).length (shaPad m) shaStart).flatMap (fun x => bytesBig 4 x.toNat)

/-! ## Signatures (RFC 8017; spec/20_accounting.md R466, spec/21_host.md R475) -/

/-- b ^ e mod n over at most `k` bits of the exponent. -/
def powMod : Nat → Nat → Nat → Nat → Nat
  | 0, _, _, n => 1 % n
  | k + 1, b, e, n => if e % 2 = 1 then b * powMod k (b * b % n) (e / 2) n % n else powMod k (b * b % n) (e / 2) n

/-- The encoded message of a SHA-256 digest, 384 bytes. -/
def rsaEncoded (digest : List Byte) : List Byte :=
  [0x00, 0x01] ++ List.replicate 330 0xFF ++
    [0x00, 0x30, 0x31, 0x30, 0x0D, 0x06, 0x09, 0x60, 0x86, 0x48, 0x01, 0x65, 0x03, 0x04, 0x02, 0x01, 0x05, 0x00, 0x04, 0x20] ++ digest

/-- The RSASSA-PKCS1-v1_5 signature of a digest under a modulus and a private exponent, 384 bytes. -/
def rsaSign (n d : Nat) (digest : List Byte) : List Byte := bytesBig 384 (powMod 3072 (ofBytesBig (rsaEncoded digest)) d n)

/-- The signature of a die whose identity key has a number. -/
def dieSign (key : Nat) (digest : List Byte) : List Byte := rsaSign (identityModulus key) (identityPrivate key) digest

/-- What IDPUB shows of an identity key: its modulus and exponent, and the manufacturing signature over both, as the exponent's
doubleword stands (spec/21_host.md Table 21.5). -/
def identityBytes (key : Nat) : List Byte :=
  let pub := bytesBig 384 (identityModulus key) ++ bytesOf 8 (identityPublic key)
  pub ++ rsaSign makerModulus makerPrivate (sha256 pub)

end Sys2Proof.Machine
end

