-- ==== Sys2Proof/Machine/Superstep.lean ====
section
/-! DEFINITION. SYNC, SYNC.Q, ABORT, SSNO and the arrival of a thread (spec/11_supersteps.md R265-R272, R280, R293). -/

namespace Sys2Proof.Machine

open Sys2Proof

/-- SSNO (R266). -/
def execSsno (d : BitVec 5) (s : State) : Result :=
  .next (
    let n := match s.job s.curCtx with
      | some j => j.ssno
      | none => 0
    (s.putG d (word n)).advance)

/-- ABORT (R280): an abort vote, and the thread's part in the superstep ends.  Its cause bit is that of the mode, for a vote word with
ab = 1 too, which executes as ABORT (R269), though Table 11.6 lists that one under bit 0 (DESIGN CHOICE, log entry 72). -/
def abort (s : State) : State :=
  let bit := if s.th.mode = .u then 0 else 2
  let s := s.issued.vote s.curCtx bit
  s.modTh (fun th => { th with st := .arrived, wait := .none })

def execAbort (s : State) : Result := .next (abort s)

/-- A vote word outside Table 11.2 (R268). -/
def badVote (w : Word) : Bool := decide (wfld w 46 18 ≠ 0) || decide (7 < wfld w 32 4)

/-- SYNC and SYNC.Q up to their waits (R269). -/
def sync (d a b : BitVec 5) (quiet : Bool) (s : State) : State :=
  s.withG [a, b] (fun s =>
    let km := s.th.rg a
    let vw := s.th.rg b
    let keep := ((km.setWidth 32 : BitVec 32) ||| s.th.ramo) &&& ~~~(1#32) &&& ~~~(BitVec.ofNat 32 (2 ^ d.toNat))
    if badVote vw then s.raise 4 vw false
    else if 30 < popcount 32 keep.toNat then s.raise 4 km false
    else if s.th.heldRec then s.raise 4 (recordAddr s s.curCore s.curSlot) false
    else if vw.getLsbD 44 then abort s
    else
      let r : Arrival := { d := d, keep := keep, vote := vw, quiet := quiet, pc := s.th.pc, npc := s.npc }
      (s.issued.modTh (fun th => { th.closeSeq with arr := some r })).park .arrivalDrain)

def execSync (d a b : BitVec 5) (s : State) : Result := .next (sync d a b false s)
def execSyncQ (d a b : BitVec 5) (s : State) : Result := .next (sync d a b true s)

/-- The 256 bytes of a record (Table 11.3). -/
def recordBytes (th : Thread) (r : Arrival) : List Byte :=
  let w0 := wfld r.npc 0 48 + th.rm.toNat * 2 ^ 48 + th.fflags.toNat * 2 ^ 50 + r.d.toNat * 2 ^ 55 + bit r.quiet * 2 ^ 60
  let w1 := 1 + r.keep.toNat + th.prng.toNat * 2 ^ 32
  let regs := (bitsSet 32 r.keep.toNat).map (fun n => (th.rg (BitVec.ofNat 5 n)).toNat)
  let ws := [w0, w1] ++ regs
  (ws ++ List.replicate (32 - ws.length) 0).flatMap (bytesOf 8)

/-- Whether the core's run has ended and every post of it is served (spec/14_timetables.md R376). -/
def runOver (s : State) (core : Nat) : Bool :=
  match (s.core core).run with
  | none => true
  | some r => r.ended && r.posts.isEmpty

/-- Whether the waits of R269 are over.  A sash bank does not wait for the owner's router run (R303). -/
def mayArrive (s : State) (core slot : Nat) : Bool :=
  let th := s.thread (tid core slot)
  decide (th.st = .parked ∧ th.wait = .arrivalDrain) && seqDone th && th.sb.isEmpty && th.tickets.isEmpty &&
    !s.gets.any (fun g => decide (g.core = core ∧ g.slot = slot)) && !engineBusy s core slot &&
    (decide (8 ≤ slot) || runOver s core) &&
    !s.starts.any (fun o => decide (o.byCore = core ∧ o.bySlot = slot)) &&
    !s.sends.any (fun o => decide (o.byCore = core ∧ o.bySlot = slot))

/-- The kept registers of an arrival are read into its record: one found uncorrectable traps the SYNC (R445), the others are corrected
(R444). -/
def readKept (s : State) (t : Nat) (r : Arrival) (k : State → State) : State :=
  let ns := bitsSet 32 r.keep.toNat
  if ns.all (fun n => (s.thread t).hurt n = none) then k s
  else match ns.find? (fun n => (s.thread t).hurt n = some true) with
  | some n => enterTrap (threadUnc s t) t 10 (regFault s n) (s.thread t).pc false false false (s.thread t).image.isSome
  | none => k (mendRegs s t ns)

/-- `Arrive` (R272): after its drains a thread writes its record and contributes its vote; a SYNC.Q slot is cleared while its
record is held (R293). -/
def execArrive (core slot : Nat) (s : State) : Result :=
  .next (
    let t := tid core slot
    let th := s.thread t
    match th.arr with
    | none => s
    | some r =>
      if !mayArrive s core slot || isControl core then s
      else readKept s t r (fun s => match writeRecord s core slot 0 (recordBytes th r) with
        | .wait => s
        | .full => enterTrap s t 7 (recordAddr s core slot) th.pc false true false th.image.isSome
        | .taken s =>
          let s := s.modThread t (fun th =>
            let th := { th with arr := none, wait := .none, q := Vector.replicate 4 [] }
            if r.quiet then { th with st := .zeroing, heldRec := true, startH := th.startNs }
            else { th with st := .arrived })
          let s := if r.quiet then keepResults s core slot else s
          let s := contribute s th.ctx r.vote r.quiet
          s.trace (dieOf core) th.ctx 2 (identity s core slot) (word (bit r.quiet * 2 ^ 62 + wfld r.npc 0 48))))

end Sys2Proof.Machine
end

