-- ==== Sys2Proof/Machine/Release.lean ====
section
/-! DEFINITION. What a decision leaves to be done before and at release: committed reads, unversioned landings, continuation
records, membership entries, the holds on a release, and release itself (spec/11_supersteps.md R274-R283,
spec/17_launch.md R421-R426, spec/20_accounting.md R467-R469). -/

namespace Sys2Proof.Machine

open Sys2Proof

/-! ## Committed reads and unversioned landings -/

/-- The committed bytes of a part of one line at an address of a context, as an agent of a die reads them; none where the
address reaches nothing. -/
def committedPart (s : State) (die ctx a n : Nat) : Option (List Byte) :=
  if a < 2 ^ 48 then
    (translate s die ctx a).bind (fun e =>
      if 732164 < e.frame (fld a 16 32) then none else some (preBytes s die ctx 0 0 (.paged a e) n))
  else match plainForm a with
    | .local g o => some ((List.range n).map (fun i => if leasedRead s g (o + i) then 0 else committedLocal s g (o + i)))
    | .window d o => some ((List.range n).map (fun i => farWindowByte s 0 d (dieAddr d o + i)))
    | _ => none

def committedParts (s : State) (die ctx : Nat) : List (Nat × Nat) → Option (List Byte)
  | [] => some []
  | (a, n) :: rest =>
    (committedPart s die ctx a n).bind (fun bs => (committedParts s die ctx rest).map (fun t => bs ++ t))

/-- `n` committed bytes at an address. -/
def committedBytes (s : State) (die ctx a n : Nat) : Option (List Byte) := committedParts s die ctx (partsOf a n)

/-- What damaged doublewords on some dies let land of the bytes of a line (spec/18_traps.md R443, R445). -/
def landEcc (s : State) (ctx : Nat) (dies : List Nat) (cells : List (Nat × Byte)) : State × List (Nat × Byte) :=
  dies.foldl (fun acc d => storeEcc acc.1 d ctx acc.2) (s, cells)

/-- Bytes of one line, each at its address, the first at `a`, enter the committed image and every copy of the line, at once and
without a pre-image.  Only die-control firmware writes the first 4 KiB of a die's window (spec/01_wafer.md R27). -/
def landLine (s : State) (ctx a : Nat) (cells : List (Nat × Byte)) : State :=
  if a < 2 ^ 48 then
    match lookup s ctx a with
    | none => s
    | some e =>
      if 732164 < e.frame (fld a 16 32) then s
      else
        let dies := (s.lines.filter (fun l => decide (l.ctx = ctx ∧ l.va = lineOf a))).map (·.die)
        let r := landEcc s ctx dies cells
        r.2.foldl (fun s c => landPaged s ctx c.1 (e.phys c.1) c.2) r.1
  else match plainForm a with
    | .local g _ =>
      let r := landEcc s ctx [dieOf g] cells
      r.2.foldl (fun s c => landLocal s g (c.1 % 65536) c.2) r.1
    | .window d o =>
      if o < 4096 then s else
      let r := landEcc s ctx [d] cells
      r.2.foldl (fun s c => landDie s d c.1 c.2) r.1
    | _ => s

def landPart (s : State) (ctx a : Nat) (bs : List Byte) : State :=
  landLine s ctx a ((List.range bs.length).map (fun i => (a + i, bs.getD i 0)))

def landParts (ctx : Nat) : List (Nat × Nat) → List Byte → State → State
  | [], _, s => s
  | (a, n) :: rest, bs, s => landParts ctx rest (bs.drop n) (landPart s ctx a (bs.take n))

/-- Bytes of any length land at an address of a context. -/
def land (s : State) (ctx a : Nat) (bs : List Byte) : State := landParts ctx (partsOf a bs.length) bs s

def landWord (s : State) (ctx a : Nat) (w : Word) : State := land s ctx a (bytesOf 8 w.toNat)

/-- Bytes laid over what a running superstep has made of a paged line; for these bytes the line counts as not written. -/
def CLine.laid (l : CLine) (a : Nat) (bs : List Byte) : CLine :=
  (List.range bs.length).foldl (fun l i =>
    if lineOf (a + i) = l.va then
      { l with data := setByteAt l.data ((a + i) % 64) (bs.getD i 0), written := l.written &&& ~~~BitVec.ofNat 64 (2 ^ ((a + i) % 64)) }
    else l) l

/-- Bytes land so that threads see them at once, over bytes that the running superstep has written (spec/17_launch.md R423). -/
def landOver (s : State) (ctx a : Nat) (bs : List Byte) : State :=
  let r := land s ctx a bs
  if 2 ^ 48 ≤ a then r
  else { r with lines := r.lines.map (fun l => if l.ctx = ctx ∧ l.st = .dirty then l.laid a bs else l) }

/-! ## The slots and dies of a launch -/

/-- Slots of a context, in ascending core and slot. -/
def jobSlots (s : State) (ctx : Nat) : List (Nat × Nat) :=
  (s.threads.filter (fun e => decide (e.2.ctx = ctx ∧ e.2.st ≠ .unheld) && !isControl (coreOf e.1))).map
    (fun e => (coreOf e.1, slotOf e.1))

/-- Cores of a context's slots, ascending. -/
def jobCores (s : State) (ctx : Nat) : List Nat := dedup ((jobSlots s ctx).map (·.1))

/-- Dies of a context's slots, ascending. -/
def jobDies (s : State) (ctx : Nat) : List Nat := dedup ((jobCores s ctx).map dieOf)

/-- Writers of a context's local-store versions: core and writer number. -/
def jobWriters (s : State) (ctx : Nat) : List (Nat × Nat) :=
  if isHarvest s ctx then jobSlots s ctx else (jobCores s ctx).map (fun c => (c, 0))

/-- Modules of a job that have not failed, with the spare that a fill brings into it. -/
def Job.living (s : State) (j : Job) : List Nat := (j.modules ++ j.spare.toList).filter (fun m => !s.failedModules.contains m)

/-- The root module: the lowest-numbered of those living (spec/11_supersteps.md R296, spec/19_survival.md R458); a spare counts from
the release after its fill on. -/
def Job.root (s : State) (j : Job) : Nat :=
  let ms := j.modules.filter (fun m => !s.failedModules.contains m)
  ms.foldl min (if ms.isEmpty then s.modnum else 0xFFFF)

/-- Whether this module is the root. -/
def isRoot (s : State) (j : Job) : Bool := decide (j.root s = s.modnum)

/-- A message to every other living module of a job. -/
def tellModules (s : State) (j : Job) (m : LinkMsg) : State :=
  s.sendAll ((j.living s).filter (fun k => k ≠ s.modnum)) m

def tellRoot (s : State) (j : Job) (m : LinkMsg) : State :=
  if isRoot s j then s else s.send (j.root s) m

/-! ## Requests (R283, R298, R299, spec/20_accounting.md R469) -/

/-- A request reaches the launch's shutter: on another module than the root it goes to the root, which tells every module. -/
def request (s : State) (ctx kind : Nat) (k : Job → State → State) : State :=
  match s.job ctx with
  | none => s
  | some j => if isRoot s j then tellModules (k j s) j (.request ctx kind) else tellRoot s j (.request ctx kind)

/-- What a request for a pre-emption does on a module. -/
def preHere (ctx : Nat) (j : Job) (s : State) : State :=
  let s := s.modJob ctx (fun j => { j with pend := true })
  if j.phase = .escalated || (decide (j.phase = .halted) && !j.stepped) then
    (s.modJob ctx (fun j => { j with phase := .stopping })).modCtx ctx (fun c => { c with dbgHlt := false })
  else s

/-- A request for the pre-emption of a launch. -/
def requestPre (s : State) (ctx : Nat) : State := request s ctx 0 (preHere ctx)

/-! ## Continuation records -/

/-- The 32 doublewords of a slot's record as they stand. -/
def readRecord (s : State) (core slot : Nat) : List Word :=
  (List.range 32).map (fun i => s.readWord (recordLoc s core slot + 8 * i))

def recordValid (s : State) (core slot : Nat) : Bool := (s.readWord (recordLoc s core slot + 8)).getLsbD 0

/-- Placement writes a slot's record: the entry, g1 the rank, g2 the number of threads (spec/17_launch.md R421). -/
def placeRecord (s : State) (ctx core slot rank total : Nat) (entry : Word) : State :=
  let th := ((freshThread s core slot ctx 0).wg 1 (word rank)).wg 2 (word total)
  let r : Arrival := { d := 0, keep := 6, vote := 0, quiet := false, pc := entry, npc := entry }
  s.writeN (recordLoc s core slot) (recordBytes th r)

/-- A slot with a valid record starts its thread from it, any other stays Idle (R278); RAMO results and then the result word are
written. -/
def startFrom (s : State) (ctx core slot : Nat) : State :=
  let ws := readRecord s core slot
  let w0 := ws.headD 0
  let w1 := ws.getD 1 0
  let t := tid core slot
  if w1.getLsbD 0 = false then s.modThread t (fun th => if th.st = .arrived then { th with st := .idle } else th)
  else
    let old := s.thread t
    let th := freshThread s core slot ctx (word (wfld w0 0 48))
    let th := { th with rm := BitVec.ofNat 2 (wfld w0 48 2), fflags := BitVec.ofNat 5 (wfld w0 50 5),
                        prng := BitVec.ofNat 32 (wfld w1 32 32),
                        startNs := if old.heldRec then old.startH else old.startNs, startH := none, heldRec := false }
    let kept := (bitsSet 32 (wfld w1 0 32)).filter (fun n => n ≠ 0)
    let th := ((List.range kept.length).map (fun i => (kept.getD i 0, ws.getD (2 + i) 0))).foldl
      (fun (th : Thread) (r : Nat × Word) => th.wg (BitVec.ofNat 5 r.1) r.2) th
    let (ramos, res) : List (Nat × BitVec 5 × Word) × Word := match s.job ctx with
      | some j => (j.ramoRes.filter (fun r => r.1 = t), j.result)
      | none => ([], 0)
    let th := ramos.foldl (fun (th : Thread) r => th.wg r.2.1 r.2.2) th
    let th := th.wg (BitVec.ofNat 5 (wfld w0 55 5)) res
    let s := (s.setThread t th).ready t
    s.trace (dieOf core) ctx 1 (identity s core slot) (word (wfld w0 0 48))

/-- A slot's start at a release reads its record: a damaged word is corrected (R444), or votes to abort, and the slot does not start
(R445). -/
def startRecord (s : State) (ctx core slot : Nat) : State :=
  match readEccs s (dieOf core) ctx (recordLoc s core slot) (if recordValid s core slot then 256 else 16) with
  | .uncorrectable s _ => s
  | .clean s => startFrom s ctx core slot

/-! ## Membership entries (spec/20_accounting.md R467) -/

/-- The first of four consecutive free frames of a stack. -/
def fourFree (s : State) (stack : Nat) : Nat → Nat → Nat
  | 0, f => f
  | n + 1, f =>
    if (List.range 4).all (fun i => decide (frameKind s stack (f + i) = 0)) then f else fourFree s stack n (f + 1)

/-- The rim dies in the order of their stacks. -/
def rimDies : List Nat := [0, 1, 2, 3, 4, 5, 6, 11, 12, 17, 18, 19, 20, 21, 22, 23]

/-- The stack attached to a die, if it is a rim die. -/
def dieStack (d : Nat) : Option Nat := rimDies.findIdx? (fun x => x = d)

/-- The stack that receives the membership frames: that of the sequencer die, or, where it has none, the first of a healthy rim
die, since the stack of a retired one receives no new allotment (spec/01_wafer.md R25; log entry 23). -/
def memberStack (s : State) : Nat :=
  ((dieStack (sequencerDie s)).or (rimDies.findIdx? (fun d => (s.die d).healthy))).getD 0

/-- Firmware allots the four membership frames of a context with its first entry (log entry 23). -/
def membershipFrames (s : State) (ctx : Nat) : State :=
  if (s.ctx ctx).mbGiven then s
  else
    let k := memberStack s
    let f := fourFree s k 732161 0
    let s := (List.range 4).foldl (fun s i => assignFrame s k (f + i) 5 0 0) s
    s.modCtx ctx (fun c => { c with mbFrame := word (k * 2 ^ 36 + f * 2 ^ 16), mbGiven := true })

/-- One die's entry. -/
def membershipEntry (s : State) (ctx kind die : Nat) : State :=
  match s.job ctx with
  | none => s
  | some j =>
    let c := s.ctx ctx
    let cores := (jobCores s ctx).filter (fun g => decide (dieOf g = die))
    let slots := wfld (j.record.getD 0 0) 16 4
    let gen := wfld (s.readWord (dieAddr die 8)) 32 32
    let head := [c.jobid.toNat, kind * 2 ^ 60 + ctx * 2 ^ 32 + die * 2 ^ 16 + s.modnum, s.time, j.ssno,
                 slots * 2 ^ 16 + cores.length, gen].flatMap (bytesOf 8) ++ List.replicate 80 0
    let digest := sha256 head
    let bytes := head ++ digest ++ List.replicate 32 0 ++ dieSign ((s.die die).identity.getD 0) digest ++ List.replicate 448 0
    let a := wfld c.mbFrame 36 4 * 2 ^ 36 + wfld c.mbFrame 16 20 * 65536 + 1024 * c.mbCount
    if 256 ≤ c.mbCount then s else (s.writeN a bytes).modCtx ctx (fun c => { c with mbCount := c.mbCount + 1 })

/-- The entries that are due before a release. -/
def writeMembership (s : State) (ctx : Nat) : State :=
  match (s.job ctx).bind (·.member) with
  | none => s
  | some kind =>
    let new := ((s.job ctx).map (·.memberDies)).getD []
    let s := ((jobDies s ctx).filter (fun d => new.contains d)).foldl (fun s d => membershipEntry s ctx kind d) (membershipFrames s ctx)
    s.modJob ctx (fun j => { j with member := none, memberDies := [] })

/-! ## Holds on a release -/

/-- The die whose die-control core handles the job's events: the lowest-numbered with slots of the job (R283). -/
def eventDie (s : State) (ctx : Nat) : Nat := (jobDies s ctx).headD (sequencerDie s)

/-- Posts a job event: HANG or ESCALATE (spec/18_traps.md R448). -/
def postJobEvent (s : State) (ctx code bit : Nat) : State :=
  match s.job ctx with
  | none => s
  | some j =>
    let d := eventDie s ctx
    (s.dieEvent d bit).modDie d (fun x => { x with events := x.events ++ [{ ctx := ctx, ssno := j.ssno, code := code }] })

/-- The DBGCTL word of a context (spec/20_accounting.md Table 20.9). -/
def dbgctlWord (x : Ctx) : Word :=
  word (x.dbgSt.toNat * 2 ^ 60 + bit x.dbgHlt * 256 + bit x.dbgBh * 16 + bit x.dbgMar * 8)

/-- A debug halt: hlt reads 1 (R469). -/
def haltJob (s : State) (ctx : Nat) : State :=
  let s := s.modCtx ctx (fun x => { x with dbgHlt := true })
  let s := s.modJob ctx (fun j => { j with phase := .halted, haltReq := false, stepped := false })
  (jobDies s ctx).foldl (fun s d => s.trace d ctx 10 0 (dbgctlWord (s.ctx ctx))) s

/-- Whether a launch waits for a spare, or a fill of it has not yet been released (spec/19_survival.md R460). -/
def Job.fills (j : Job) (c : Ctx) : Bool := c.sv.recv || j.spare.isSome

/-- Where a launch stands after its decision is carried out: the first hold that applies withholds its release; marionette mode halts
through the root's decision.  An abort of cause
bit 6 alone does not count in the streak and escalates nothing (R283). -/
def nextHold (s : State) (ctx : Nat) : State :=
  match s.job ctx with
  | none => s
  | some j =>
    let x := s.ctx ctx
    let enter (p : Phase) : State := s.modJob ctx (fun j => { j with phase := p })
    if x.sv.recv then enter .filling
    else if j.aborted && decide (j.streak = 3 ∧ x.lastCause ≠ 0x40) then
      (if isRoot s j then postJobEvent (enter .escalated) ctx 16 4 else enter .escalated)
    else if j.secures then enter .securing
    else if j.pend then enter .stopping
    else if j.haltReq then haltJob s ctx
    else enter .decided

/-! ## Release (R278) -/

/-- The accumulator slots of a launch at a release (spec/12_matrix.md R314). -/
def releaseAcc (aborted : Bool) (x : Acc) : Acc :=
  let x := if aborted then { x with rows := x.prevRows, cols := x.prevCols, int := x.prevInt } else x
  { x.clear with clr := false, prevRows := x.rows, prevCols := x.cols, prevInt := x.int }

/-- The first step of a halted superstep: the accumulator slots are as at a release (spec/20_accounting.md R470). -/
def firstStep (s : State) (ctx : Nat) (j : Job) : State :=
  if j.stepped then s
  else
    let s := s.modJob ctx (fun j => { j with stepped := true })
    if isHarvest s ctx then s
    else (jobCores s ctx).foldl (fun s g => s.modCore g (fun c => { c with acc := c.acc.map (releaseAcc j.aborted) })) s

/-- Keys that firmware has installed on the port groups take effect; their counters start again (spec/21_host.md R482). -/
def switchKeys (s : State) : State :=
  { s with ports := s.ports.map (fun e => (e.1, match e.2.nextKey with
    | some k => { e.2 with key := k, nextKey := none, sent := 0, received := 0 }
    | none => e.2)) }

/-- Every slot with a valid record starts from it, and each cross-die SEND of the commit starts its thread.  Slots already
stepped in marionette mode go on (spec/20_accounting.md R470). -/
def releaseJob (s : State) (ctx : Nat) : State :=
  match s.job ctx with
  | none => s
  | some j =>
    let s := writeMembership (switchKeys s) ctx
    let first := !j.stepped
    let s := if first && !isHarvest s ctx then
        (jobCores s ctx).foldl (fun s g => s.modCore g (fun c => { c with acc := c.acc.map (releaseAcc j.aborted) })) s
      else s
    let s := s.modJob ctx (fun j =>
      { j with phase := .running, relTime := s.time, relCy := s.cy, hangPosted := false, stuckCy := 0, stepped := false,
               modules := if j.spare.isSome then j.living s else j.modules, spare := none })
    let s := s.modCtx ctx (fun c => { c with sv := { c.sv with firstRel := c.sv.firstRel.or (some s.time) } })
    let s := (jobSlots s ctx).foldl (fun s x =>
      let th := s.thread (tid x.1 x.2)
      if th.began then (if th.st = .halted then s.ready (tid x.1 x.2) else s)
      else startRecord s ctx x.1 x.2) s
    j.born.foldl (fun s b =>
      if decide ((s.thread b.1).st = .idle) && !(s.thread b.1).began then startThread s (coreOf b.1) (slotOf b.1) ctx b.2.1 b.2.2 else s) s

end Sys2Proof.Machine
end

