-- ==== Sys2Proof/Machine/Harvest.lean ====
section
/-! DEFINITION. Harvest contexts: HOFFER, HSTAT, recall and lending, and the reclaim of granules (spec/16_harvest.md
R403-R413). -/

namespace Sys2Proof.Machine

open Sys2Proof

/-- Whether an owner slot of a core is Ready. -/
def ownerReady (s : State) (core : Nat) : Bool :=
  (List.range 8).any (fun k => decide ((s.thread (tid core k)).st = .ready))

/-- Whether a launch of a record lends (R403). -/
def lendsRecord (w0 : Word) : Bool := decide (wfld w0 6 2 = 0) && (decide (wfld w0 4 2 = 1) || decide (wfld w0 4 2 = 2))

/-- Whether a core lends: its holding launch has priority class 0 and harvest class own or open. -/
def coreLends (s : State) (core : Nat) : Bool :=
  match (s.core core).hold with
  | none => false
  | some o => (s.job o).isSome && lendsRecord (recDw s o 0)

/-- The granules HOFFER may name: the L highest that end at or below the carve-outs (spec/07_local_store.md Table 7.1). -/
def leasable (c : Core) (n : Nat) : Bool :=
  let top := (0xB800 - spillBytes c) / 4096
  decide (n < top ∧ top ≤ n + c.lease)

/-- HOFFER: the core's offer mask. -/
def hoffer (a : BitVec 5) (s : State) : State :=
  s.withG [a] (fun s =>
    let w := s.th.rg a
    let c := s.core s.curCore
    if 8 ≤ s.curSlot || isControl s.curCore || !coreLends s s.curCore then s.raise 4 0 false
    else if wfld w 12 52 ≠ 0 || (bitsSet 12 w.toNat).any (fun n => !leasable c n) then s.raise 4 w false
    else (s.modCore s.curCore (fun c => { c with offer := BitVec.ofNat 12 w.toNat })).advance)

def execHoffer (a : BitVec 5) (s : State) : Result := .next (hoffer a s)

/-- Granules of a lease not reclaimed; those an abort of the owner gave back are still leased (R413). -/
def Lease.held (l : Lease) : List Nat :=
  ((List.range l.granules.length).filter (fun j => !l.gone.contains j || l.restored.contains j)).map (fun j => l.granules.getD j 0)

/-- Granules of a core that are leased and not reclaimed, those that a bank has left to the harvester's image among them. -/
def Core.held (c : Core) : List Nat := c.leases[0].held ++ c.leases[1].held ++ (c.residue.filter (·.2)).map (·.1)

def maskOf (l : List Nat) : Nat := (dedup l).foldl (fun m n => m + 2 ^ n) 0

/-- The word of Table 16.4. -/
def hstatWord (s : State) (core slot : Nat) : Word :=
  let c := s.core core
  if slot < 8 then
    let seated (b : Nat) : Nat := bit (decide ((s.thread (tid core b)).st ≠ .unheld))
    word (bit c.recalled * 2 ^ 43 + seated 9 * 2 ^ 42 + seated 8 * 2 ^ 41 +
      maskOf c.held * 2 ^ 16 + c.offer.toNat)
  else
    let l := c.leases.get (bankIdx slot)
    word (maskOf l.gone * 2 ^ 48 + l.granules.length * 2 ^ 44 + bit c.recalled * 2 ^ 43)

/-- HSTAT. -/
def execHstat (d : BitVec 5) (s : State) : Result := .next (s.putG d (hstatWord s s.curCore s.curSlot)).advance

/-- After 32 cycles in which no owner slot is Ready the core lends again (R411). -/
def execLendingResume (core : Nat) (s : State) : Result :=
  .next (
    if isControl core || ownerReady s core || decide ((s.core core).idleCy < 32) then s
    else s.modCore core (fun c => { c with recalled := false }))

/-- Whether an access of the owner waits in a store buffer for a granule (R408). -/
def ownerWaits (s : State) (core gr : Nat) : Bool :=
  let lo := localAddr core (gr * 4096)
  (List.range 8).any (fun k => (s.thread (tid core k)).sb.any (fun e =>
    e.cells.any (fun x => decide (lo ≤ x.1 ∧ x.1 < lo + 4096))))

/-- A granule that an access of the owner waits for is reclaimed (R408, R412); an access that reaches its granule itself
reclaims it in place. -/
def execGranuleReclaim (core granule : Nat) (s : State) : Result :=
  .next (if isControl core || decide (12 ≤ granule) || !ownerWaits s core granule then s
    else (reclaim s core granule).getD s)

end Sys2Proof.Machine
end

