-- ==== Sys2Proof/Machine/Timetable.lean ====
section
/-! DEFINITION. Routers: tables and their groups, TTLOAD, TTGO, the table clock, slip, reduction, compression and posts
(spec/14_timetables.md R349-R377, spec/03_numbers.md R79, spec/20_accounting.md Table 20.1). -/

namespace Sys2Proof.Machine

open Sys2Proof

/-! ## Geometry (spec/01_wafer.md R20, R23, spec/21_host.md Table 21.4) -/

def meshX (g : Nat) : Nat := g / 256 % 6 * 16 + g % 16
def meshY (g : Nat) : Nat := g / 256 / 6 * 16 + g % 256 / 16
def gcoreOfMesh (x y : Nat) : Nat := (y / 16 * 6 + x / 16) * 256 + y % 16 * 16 + x % 16

/-- The gcore on mesh port `dir` of a router. -/
def meshNeighbour (g dir : Nat) : Option Nat :=
  let x := meshX g
  let y := meshY g
  match dir with
  | 0 => if y = 0 then none else some (gcoreOfMesh x (y - 1))
  | 1 => if x = 95 then none else some (gcoreOfMesh (x + 1) y)
  | 2 => if y = 63 then none else some (gcoreOfMesh x (y + 1))
  | 3 => if x = 0 then none else some (gcoreOfMesh (x - 1) y)
  | _ => none

/-- Link routers in the order of Table 21.4. -/
def linkRouters : List Nat := [1664, 2959, 519, 5367, 2440, 3720]

/-- The port group of a link router. -/
def portGroupOf (g : Nat) : Option Nat := linkRouters.findIdx? (fun x => x = g)

/-- The port a beat arrives on, having left by `dir`. -/
def facing (dir : Nat) : Nat := (dir + 2) % 4

/-- The target word of `linkOut` for the torus neighbour on a port group (log entry 16). -/
def towardGroup (i : Nat) : Nat := 4096 + i

/-- A timed beat or a slip to the torus neighbour on a port group; what goes to a failed module is lost (R350). -/
def State.toGroup (s : State) (i : Nat) (msg : LinkMsg) : State :=
  if s.failedModules.contains (torusNeighbour s.modnum i) then s else s.flit i (towardGroup i) msg

/-! ## Entries and groups (spec/02_encoding.md Table 2.12, R352) -/

def entLen (w : Word) : Nat := wfld w 48 16
def entBuf (w : Word) : Nat := wfld w 32 16
def entCmp (w : Word) : Bool := w.getLsbD 30
def entOp (w : Word) : Nat := wfld w 27 3
def entDir (w : Word) : Nat := wfld w 24 3
def entAct (w : Word) : Nat := wfld w 20 4
def entOff (w : Word) : Nat := wfld w 0 20

/-- Shapes of Table 14.1. -/
inductive Shape where
  | send
  | receive
  | forward
  | reduce
  | deliver
  deriving DecidableEq, Repr

/-- A group: port and compression of its incoming stream, ports of its outgoing streams with the compression it applies. -/
structure Group where
  off : Nat
  shape : Shape
  rx : Option (Nat × Bool)
  tx : List Nat
  txCmp : Bool
  op : Nat
  buf : Nat
  len : Nat
  fresh : Bool
  deriving DecidableEq, Repr

/-- Wire beats of a stream (R353). -/
def beatsOf (len : Nat) (cmp : Bool) : Nat := if cmp then (17 * (len / 128) + 31) / 32 else len / 32

def Group.rxBeats (g : Group) : Nat := match g.rx with
  | some (_, c) => beatsOf g.len c
  | none => 0
def Group.txBeats (g : Group) : Nat :=
  match g.shape with
  | .send => beatsOf g.len g.txCmp
  | .reduce => beatsOf g.len g.txCmp
  | .forward => g.rxBeats
  | _ => 0
/-- Table cycles the group takes. -/
def Group.beats (g : Group) : Nat := max g.rxBeats g.txBeats

/-- The group that entries of one offset form, or none for no shape of Table 14.1 (R353). -/
def groupOf (off : Nat) (es : List (Word × Bool)) : Option Group :=
  let act (k : Nat) : List (Word × Bool) := es.filter (fun e => decide (entAct e.1 = k))
  let same (a b : Word) : Bool := decide (entBuf a = entBuf b ∧ entLen a = entLen b)
  let mk (shape : Shape) (e : Word × Bool) (rx : Option (Nat × Bool)) (tx : List Nat) (c : Bool) : Group :=
    { off := off, shape := shape, rx := rx, tx := tx, txCmp := c, op := entOp e.1, buf := entBuf e.1, len := entLen e.1
      fresh := e.2 }
  match act 1, act 0, act 2, act 3 with
  | [], [e], [], [] => if entOp e.1 = 0 then some (mk .send e none [entDir e.1] (entCmp e.1)) else none
  | [r], [], [], [] => if entOp r.1 = 0 then some (mk .receive r (some (entDir r.1, entCmp r.1)) [] false) else none
  | [r], [], [e], [] =>
    if entOp r.1 = 0 && same r.1 e.1 then
      some (mk .reduce e (some (entDir r.1, entCmp r.1)) [entDir e.1] (entCmp e.1))
    else none
  | [r], [], [], [e] =>
    if entOp r.1 = 0 && same r.1 e.1 && decide (entDir e.1 = 0) then
      some (mk .deliver e (some (entDir r.1, entCmp r.1)) [] (entCmp e.1))
    else none
  | [r], sends, [], [] =>
    if decide (sends.length ≤ 3) && entOp r.1 = 0 && sends.all (fun e => decide (entOp e.1 = 0) && same r.1 e.1) then
      some (mk .forward r (some (entDir r.1, entCmp r.1)) (sends.map (fun e => entDir e.1)) (sends.any (fun e => entCmp e.1)))
    else none
  | _, _, _, _ => none

/-- Offsets of a table in ascending order. -/
def offsetsOf (es : List (Word × Bool)) : List Nat := sortBy (fun a b => decide (a ≤ b)) (dedup (es.map (fun e => entOff e.1)))

/-- The groups of a table by offset; a table that is not well formed loads nothing, so `none` stands for no group. -/
def groupsOf (es : List (Word × Bool)) : List Group :=
  (offsetsOf es).filterMap (fun o => groupOf o (es.filter (fun e => decide (entOff e.1 = o))))

/-- End of the program area of a core (spec/07_local_store.md Table 7.1). -/
def areaEnd (c : Core) : Nat :=
  let top := 0xB800 - spillBytes c
  if c.lease = 0 then top else (top / 4096 - c.lease) * 4096

/-- What a group occupies over table cycles: a direction of a port, or the adder, with its beats. -/
def Group.uses (g : Group) : List (Nat × Nat) :=
  (match g.rx with
   | some (d, _) => [(d, g.rxBeats)]
   | none => []) ++ (dedup g.tx).map (fun d => (8 + d, g.txBeats)) ++
    (match g.shape with
     | .reduce => [(16, g.beats)]
     | .deliver => [(16, g.beats)]
     | _ => [])

/-- Local-store bytes a group moves in one cycle. -/
def Group.traffic (g : Group) : Nat := match g.shape with
  | .deliver => 64
  | _ => 32

def Group.runsAt (g : Group) (t : Nat) : Bool := decide (g.off ≤ t ∧ t < g.off + g.beats)

/-- Whether two groups overlap in a resource. -/
def groupsClash (a b : Group) : Bool :=
  a.uses.any (fun x => b.uses.any (fun y => decide (x.1 = y.1 ∧ a.off < b.off + y.2 ∧ b.off < a.off + x.2)))

def anyClash : List Group → Bool
  | [] => false
  | g :: rest => rest.any (groupsClash g) || anyClash rest

/-- Whether a port of a router may be named (R353). -/
def portOk (s : State) (ctx g dir : Nat) : Bool :=
  if dir = 4 then (portGroupOf g).isSome
  else match meshNeighbour g dir with
    | none => false
    | some n => (s.die (dieOf n)).healthy && decide ((s.core n).hold = none ∨ (s.core n).hold = some ctx)

/-- Compression only where R353 allows it. -/
def cmpOk (s : State) (g : Nat) (es : List (Word × Bool)) (x : Group) : Bool :=
  let cmps := es.filter (fun e => entCmp e.1)
  cmps.isEmpty || ((s.die (dieOf g)).capWirecmp && decide (x.op = 0) && cmps.all (fun e => decide (entAct e.1 ≠ 3)) &&
    decide (x.len % 128 = 0) && (match x.shape, x.rx with
      | .forward, some (_, c) => c || !x.txCmp
      | _, _ => true))

/-- Whether the group writes an error-feedback buffer (R373). -/
def Group.compresses (g : Group) : Bool := g.txCmp && (decide (g.shape = .send) || decide (g.shape = .reduce))

/-- R353 for the table of router `g`. -/
def tableOk (s : State) (ctx g : Nat) (es : List (Word × Bool)) : Bool :=
  let gs := groupsOf es
  es.all (fun e => decide (entOp e.1 ≤ 3 ∧ entDir e.1 ≤ 4 ∧ entAct e.1 ≤ 3 ∧ 1 ≤ entLen e.1 ∧ entLen e.1 ≤ 49152) &&
      !e.1.getLsbD 31 && decide (entLen e.1 % 32 = 0 ∧ entBuf e.1 % 32 = 0)) &&
    decide (gs.length = (offsetsOf es).length) && !anyClash gs &&
    gs.all (fun x =>
      decide (((gs.filter (fun y => y.runsAt x.off)).map Group.traffic).foldl (· + ·) 0 ≤ 64) &&
        decide (x.buf + x.len ≤ areaEnd (s.core g)) &&
        (!x.compresses || decide (x.buf + 2 * x.len ≤ areaEnd (s.core g))) &&
        cmpOk s g (es.filter (fun e => decide (entOff e.1 = x.off))) x &&
        (match x.rx with
         | some (d, _) => portOk s ctx g d
         | none => true) && x.tx.all (portOk s ctx g))

/-! ## TTLOAD (R355-R360) -/

/-- A table of an image: its header's doublewords, the gcore named there, the header's address, and its entries. -/
structure ImageTable where
  head : Word × Word
  gcore : Nat
  at_ : Nat
  entries : List Word
  deriving DecidableEq, Repr

/-- Reads `n` doublewords from `a` as scalar loads. -/
def loadWords (k : List Word → State → State) : Nat → Nat → List Word → State → State
  | 0, _, acc, s => k acc s
  | n + 1, a, acc, s =>
    loadThen (word a) 8 s (fun bs s => loadWords k n (a + 8) (acc ++ [wordOfBytes bs]) s)

/-- The id a table's header names. -/
def ImageTable.id (t : ImageTable) : Nat := wfld t.head.1 0 16

/-- Whether a table's header, after those `before`, is one R357 traps on. -/
def badHeader (s : State) (first : Nat) (before : List ImageTable) (t : ImageTable) : Bool :=
  let w0 := t.head.1
  let n := wfld w0 32 9
  wfld w0 41 23 ≠ 0 || wfld w0 29 3 ≠ 0 || t.head.2 ≠ 0 || n = 0 || 256 < n || decide (numGcores ≤ t.gcore) ||
    decide (t.id ≠ first) || before.any (fun x => decide (x.gcore = t.gcore)) || decide ((s.core t.gcore).hold ≠ some s.curCtx)

/-- The first table of an image whose header R357 traps on. -/
def firstBadHeader (s : State) (first : Nat) : List ImageTable → List ImageTable → Option ImageTable
  | _, [] => none
  | before, t :: rest => if badHeader s first before t then some t else firstBadHeader s first (before ++ [t]) rest

/-- Reads the whole image up to its zero header as scalar loads, before any header is checked; more than 6,144 tables hold a
header that traps. -/
def readImage (k : List ImageTable → State → State) : Nat → Nat → List ImageTable → State → State
  | 0, _, acc, s => k acc s
  | f + 1, a, acc, s =>
    loadWords (fun h s =>
      let w0 := h.getD 0 0
      let w1 := h.getD 1 0
      if w0 = 0 && w1 = 0 then k acc s
      else
        let n := wfld w0 32 9
        loadWords (fun es s =>
          readImage k f ((a + 16 + 8 * n + 15) / 16 * 16)
            (acc ++ [{ head := (w0, w1), gcore := wfld w0 16 13, at_ := a, entries := es }]) s) n (a + 16) [] s) 2 a [] s

/-- Whether the launch record's `tt` field names an id. -/
def namesTable (s : State) (id : Nat) : Bool :=
  decide (id ≠ 0) && ([recDw s s.curCtx 7, recDw s s.curCtx 8].flatMap (fun w =>
    (List.range 4).map (fun i => wfld w (16 * i) 16))).contains id

/-- Routers of an encrypted timetable that must hold the key (R360). -/
def needsKey (g : Nat) (es : List Word) : Bool :=
  es.any (fun e => decide (1 ≤ entAct e ∧ entAct e ≤ 3)) || ((portGroupOf g).isSome && es.any (fun e => decide (entDir e = 4)))

def holdsKey (s : State) (g kid : Nat) : Bool := (s.core g).keys.any (fun k => k.1 = kid)

/-- Status of a load, with the first failing table. -/
def loadStatus (s : State) (id : Nat) (ts : List ImageTable) : Nat × Nat :=
  match ts.find? (fun t => !tableOk s s.curCtx t.gcore (t.entries.map (fun e => (e, true)))) with
  | some t => (3, t.gcore)
  | none => match ts.find? (fun t => (s.core t.gcore).tables.any (fun x => x.id = id)) with
    | some t => (2, t.gcore)
    | none => match ts.find? (fun t =>
        let old := (s.core t.gcore).tables
        decide (8 ≤ old.length) || decide (256 < (old.map (fun x => x.entries.length)).foldl (· + ·) t.entries.length)) with
      | some t => (1, t.gcore)
      | none => (0, 0)

/-- `Ttload`. -/
def ttload (keep : Bool) (d a : BitVec 5) (s : State) : State :=
  s.withG [a] (fun s =>
    let ia := s.th.rg a
    if 8 ≤ s.curSlot then s.raise 4 0 false
    else s.withVector (fun s =>
      if ia.toNat % 16 ≠ 0 then s.raise 3 ia false
      else readImage (fun ts s =>
        let id := (ts.head?.map ImageTable.id).getD 0
        let ctl := (s.ctx s.curCtx).ttctl
        let enc := ctl.getLsbD 16
        let kid := wfld ctl 0 16
        match firstBadHeader s id [] ts with
        | some t => s.raise 4 (word t.at_) false
        | none =>
        if !namesTable s id then s.raise 4 ia false
        else match (if enc then ts.find? (fun t => needsKey t.gcore t.entries && !holdsKey s t.gcore kid) else none) with
          | some t => s.raise 12 (word t.at_) false
          | none =>
            let r := loadStatus s id ts
            let s := if r.1 = 0 then ts.foldl (fun s t =>
                s.modCore t.gcore (fun c => { c with tables := c.tables ++
                  [{ id := id, enc := enc, kid := kid, entries := t.entries.map (fun e => (e, !keep)), fresh := true }] })) s
              else s
            (s.putG d (word (r.1 * 2 ^ 60 + r.2 * 2 ^ 16 + (if r.1 = 0 then ts.length else 0)))).advance) 6145 ia.toNat [] s))

def execTtload (d a : BitVec 5) (s : State) : Result := .next (ttload false d a s)
def execTtloadK (d a : BitVec 5) (s : State) : Result := .next (ttload true d a s)

/-! ## Posts (R363, R374, R375) -/

/-- The completion word of a post (Table 14.6). -/
def postWord (id status : Nat) (flags : BitVec 5) (slip : Nat) : Word :=
  word (id * 2 ^ 48 + status * 2 ^ 44 + flags.toNat * 2 ^ 32 + slip % 2 ^ 32)

/-- The 68 counters. -/
def histBytes (h : Table Nat) : List Byte := (List.range 68).flatMap (fun i => bytesOf 4 (Table.get 0 h i))

/-- Whether a line of a core's local store waits for an operation other than the given ones. -/
def lineTaken (s : State) (line : Nat) (mine : List Nat) : Bool :=
  s.owned.any (fun o => decide (o.line = line) && !mine.contains o.op)

/-- Writes the histogram of a post; none while a line or a pre-image must be waited for. -/
def writeHist (s : State) (core ctx : Nat) (r : Run) (p : Post) : Option State :=
  if !p.hv then some s
  else
    let loc := localAddr core p.hoff
    let lines := linesOf loc 272
    if lines.any (fun l => lineTaken s l []) then none
    else match (linesPre (dieOf core) ctx 0 lines s).1 with
      | .taken s => some (pokeBytes s (dieOf core) ctx loc (histBytes r.hist))
      | _ => none

/-- Serves the posts of a run that has ended, oldest first. -/
def settlePosts (core : Nat) : Nat → State → State
  | 0, s => s
  | n + 1, s =>
    match (s.core core).run, (s.core core).hold with
    | some r, some ctx =>
      if !r.ended then s
      else (match r.posts with
        | [] => s
        | p :: rest =>
          match writeHist s core ctx r p with
          | none => s
          | some s =>
            let s := s.modCore core (fun c => { c with run := c.run.map (fun r => { r with posts := rest }) })
            settlePosts core n (s.fillG (tid core p.slot) p.reg (postWord r.id (if r.stopped then 3 else 0) r.flags r.slip)))
    | _, _ => s

def State.settle (s : State) (core : Nat) : State :=
  settlePosts core (match (s.core core).run with
    | some r => r.posts.length
    | none => 0) s

/-! ## TTGO (R361-R363) -/

/-- Whether a word has a bit set that its op does not use. -/
def badTtgo (w : Word) : Bool :=
  wfld w 54 6 ≠ 0 || wfld w 16 16 ≠ 0 || (wfld w 62 2 ≠ 0 && wfld w 60 2 ≠ 0) || (wfld w 62 2 ≠ 2 && wfld w 32 22 ≠ 0)

/-- Whether the pending change arms an id. -/
def pendingArm (c : Ctx) (id : Nat) : Bool :=
  match c.pendArm with
  | some p => (match p.next with
    | some a => decide (a.id = id)
    | none => false)
  | none => false

def isArmed (c : Ctx) (id : Nat) : Bool := match c.armed with
  | some a => decide (a.id = id)
  | none => false

/-- Records a change of the armed table; the highest (module, gcore, slot) of a superstep stands. -/
def recordArm (s : State) (next : Option Armed) : State :=
  let key := s.modnum * 2 ^ 17 + s.curCore * 16 + s.curSlot
  s.modCtx s.curCtx (fun c =>
    match c.pendArm with
    | some p =>
      if p.fresh then (if p.key ≤ key then { c with pendArm := some { p with next := next, key := key } } else c)
      else { c with pendArm := some { next := next, fresh := true, key := key, prior := some p.next } }
    | none => { c with pendArm := some { next := next, fresh := true, key := key, prior := none } })

/-- A post of the running thread. -/
def ttPost (w : Word) (s : State) : State :=
  let id := wfld w 0 16
  let reg := BitVec.ofNat 5 (wfld w 48 5)
  let core := s.curCore
  let s := s.modTh (fun th => th.emptyG reg)
  match (s.core core).run with
  | some r =>
    if r.id = id then
      let p : Post := { slot := s.curSlot, reg := reg, hv := w.getLsbD 53, hoff := wfld w 32 16 }
      let s := s.modCore core (fun c => { c with run := c.run.map (fun r => { r with posted := true, posts := r.posts ++ [p] }) })
      s.advance.settle core
    else s.advance.fillG s.cur reg (postWord id 1 0 0)
  | none => s.advance.fillG s.cur reg (postWord id 1 0 0)

/-- TTGO; g[a] says which op. -/
def ttgo (a : BitVec 5) (s : State) : State :=
  s.withG [a] (fun s =>
    let w := s.th.rg a
    let id := wfld w 0 16
    let x := s.ctx s.curCtx
    let hoff := wfld w 32 16
    if 8 ≤ s.curSlot then s.raise 4 0 false
    else if badTtgo w || !namesTable s id then s.raise 4 w false
    else match wfld w 62 2 with
      | 0 =>
        let held := (List.range numGcores).any (fun g =>
          decide ((s.core g).hold = some s.curCtx) && (s.core g).tables.any (fun t => t.id = id))
        if !held || x.pendFree.contains id then s.raise 4 w false
        else (recordArm s (some { id := id, rep := w.getLsbD 61, gate := w.getLsbD 60 })).advance
      | 1 => if isArmed x id || pendingArm x id then (recordArm s none).advance else s.raise 4 w false
      | 2 =>
        if hoff % 8 ≠ 0 then s.raise 3 (word (2 ^ 64 - 65536 + hoff)) false
        else if areaEnd (s.core s.curCore) < hoff + 272 then s.raise 4 (word (2 ^ 64 - 65536 + hoff)) false
        else ttPost w s
      | _ =>
        if isArmed x id || pendingArm x id then s.raise 4 w false
        else (s.modCtx s.curCtx (fun c => { c with pendFree := c.pendFree ++ [id] })).advance)

def execTtgoArm (a : BitVec 5) (s : State) : Result := .next (ttgo a s)
def execTtgoDisarm (a : BitVec 5) (s : State) : Result := .next (ttgo a s)
def execTtgoPost (a : BitVec 5) (s : State) : Result := .next (ttgo a s)
def execTtgoFree (a : BitVec 5) (s : State) : Result := .next (ttgo a s)

/-! ## Arming and stopping at a decision (R362, R364, R376) -/

def State.modRun (s : State) (core : Nat) (f : Run → Run) : State := s.modCore core (fun c => { c with run := c.run.map f })

/-- Cores of a context's launch. -/
def coresOf (s : State) (ctx : Nat) : List Nat := (s.cores.filter (fun e => decide (e.2.hold = some ctx))).map (·.1)

/-- A router's run before its table start. -/
def Run.fresh (id : Nat) (l : Leave) : Run :=
  { id := id, started := false, groups := [], clock := 0, debt := 0, debtDue := [], slip := 0, posted := false, posts := [],
    flags := 0, hist := [], ended := false, stopped := false, leave := l }

/-- Every router that holds the armed table prepares a run and asks for leave. -/
def armRuns (s : State) (ctx : Nat) : State :=
  match (s.ctx ctx).armed with
  | none => s
  | some a =>
    (coresOf s ctx).foldl (fun s g =>
      if (s.core g).tables.any (fun t => t.id = a.id) then
        let r := requestLeave s (dieOf g) ctx 1 (.table g)
        r.1.modCore g (fun c => { c with run := some (Run.fresh a.id r.2) })
      else s) s

/-- Returns the leave of a run whose last group has ended or that stops. -/
def endLeave (s : State) (core : Nat) : State :=
  match (s.core core).run, (s.core core).hold with
  | some r, some ctx => (returnLeave s (dieOf core) ctx 1 r.leave (.table core)).modRun core (fun r => { r with leave := .none })
  | _, _ => s

/-- The routers of a context discard their runs: lines, beats, debts and leave go.  Beats on their way to a router that has no run go
too. -/
def dropRuns (s : State) (ctx : Nat) : State :=
  let s := { s with beats := s.beats.filter (fun b => (s.core b.core).hold ≠ some ctx) }
  (coresOf s ctx).foldl (fun s g =>
    match (s.core g).run with
    | none => s
    | some r =>
      let s := endLeave s g
      let ops := r.groups.map (·.op)
      let s := { s with owned := s.owned.filter (fun (o : OwnedLine) => !ops.contains o.op) }
      s.modCore g (fun c => { c with run := none })) s

/-- Compressing entries that have run lose their fresh mark at the commit (R371, R373). -/
def clearFresh (s : State) (ctx : Nat) : State :=
  (coresOf s ctx).foldl (fun s g =>
    match (s.core g).run with
    | none => s
    | some r => s.modCore g (fun c => { c with tables := c.tables.map (fun t =>
        if t.id = r.id then
          { t with entries := t.entries.map (fun e =>
              (e.1, e.2 && !(entCmp e.1 && decide (entAct e.1 = 0 ∨ entAct e.1 = 2) && decide (entOff e.1 < r.clock)))) }
        else t) })) s

/-- The change of the armed table recorded on this module in the running superstep, with its order key. -/
def freshArm (c : Ctx) : Option (Nat × Option Armed) := c.pendArm.bind (fun p => if p.fresh then some (p.key, p.next) else none)

/-- The change that stands for the whole job: the one of the highest key. -/
def highestArm (l : List (Nat × Option Armed)) : Option (Nat × Option Armed) :=
  l.foldl (fun best x => match best with
    | none => some x
    | some b => if b.1 ≤ x.1 then some x else some b) none

/-- A change as messages between modules carry it. -/
def armMsg (x : Option (Nat × Option Armed)) : Option (Nat × Option (Nat × Bool × Bool)) :=
  x.map (fun y => (y.1, y.2.map (fun a => (a.id, a.rep, a.gate))))

def ofArmMsg (x : Option (Nat × Option (Nat × Bool × Bool))) : Option (Nat × Option Armed) :=
  x.map (fun y => (y.1, y.2.map (fun a => { id := a.1, rep := a.2.1, gate := a.2.2 })))

/-- The exchange pattern at a commit (R362, spec/11_supersteps.md R279): `x` tells whether the X vote passed, `arm` which change
of the superstep stands for the job. -/
def commitTables (s : State) (ctx : Nat) (x : Bool) (arm : Option (Nat × Option Armed)) : State :=
  let s := dropRuns (clearFresh s ctx) ctx
  let s := match arm with
    | none => s
    | some (key, next) => s.modCtx ctx (fun c => { c with pendArm := some { next := next, fresh := false, key := key, prior := none } })
  let c := s.ctx ctx
  let adopts := x && c.pendArm.isSome
  let armed := if adopts then c.pendArm.bind (·.next) else (match c.armed with
    | some a => if a.rep then some a else none
    | none => none)
  let frees := c.pendFree
  let s := s.modCtx ctx (fun c =>
    { c with armed := armed, pendFree := [],
             pendArm := if adopts then none else c.pendArm.map (fun p => { p with fresh := false, prior := none }) })
  let s := (coresOf s ctx).foldl (fun s g => s.modCore g (fun c =>
    { c with tables := (c.tables.filter (fun t => !frees.contains t.id)).map (fun t => { t with fresh := false }) })) s
  armRuns s ctx

/-- The same at an abort: the superstep's ops and loads go, and the replay runs the armed table afresh. -/
def abortTables (s : State) (ctx : Nat) : State :=
  let s := dropRuns s ctx
  let s := s.modCtx ctx (fun c =>
    { c with pendFree := [], pendArm := match c.pendArm with
        | some p => if p.fresh then p.prior.map (fun n => { next := n, fresh := false, key := 0, prior := none }) else some p
        | none => none })
  let s := (coresOf s ctx).foldl (fun s g => s.modCore g (fun c => { c with tables := c.tables.filter (fun t => !t.fresh) })) s
  armRuns s ctx

/-- Cycles from the release of this module to the table start: 172, and 330 for each torus link hop by which the farthest module of
the job is farther from the root than this one (R364; log entry 16). -/
def startDelay (s : State) (j : Job) : Nat :=
  let hops (m : Nat) : Nat := if m = j.root s then 0 else torusHops (j.root s) m
  172 + 330 * (((j.living s).map hops).foldl max 0 - hops s.modnum)

/-- TABLE_START: every run of the job that has not started starts. -/
def execTableStart (ctx : Nat) (s : State) : Result :=
  .next (match s.job ctx with
    | none => s
    | some j =>
      if j.phase = .running ∧ j.relCy + startDelay s j ≤ s.cy then
        (coresOf s ctx).foldl (fun s g => s.modRun g (fun r => if r.started then r else { r with started := true, startCy := s.cy })) s
      else s)

/-! ## The wave (R367) -/

/-- The table a router runs. -/
def runTable (s : State) (g : Nat) : Option TTable :=
  (s.core g).run.bind (fun r => (s.core g).tables.find? (fun t => t.id = r.id))

/-- Routers to which a running table sends. -/
def streamsTo (s : State) (g : Nat) : List Nat :=
  match runTable s g with
  | none => []
  | some t => t.entries.filterMap (fun e =>
      if entAct e.1 = 0 ∨ entAct e.1 = 2 then
        (meshNeighbour g (entDir e.1)).bind (fun n =>
        if (runTable s n).map (·.id) = some t.id ∧ (s.core n).hold = (s.core g).hold then some n else none)
      else none)

/-- Routers joined to one by a stream in either direction. -/
def joined (s : State) (g : Nat) : List Nat :=
  dedup (streamsTo s g ++ ((List.range 4).filterMap (meshNeighbour g)).filter (fun n => (streamsTo s n).contains g))

/-- The routers within some further hops of those seen, each with its hops along the streams; `d` is the last distance seen. -/
def waveFrom (s : State) : Nat → Nat → List (Nat × Nat) → List (Nat × Nat)
  | 0, _, seen => seen
  | n + 1, d, seen =>
    let near := dedup ((seen.filter (fun x => x.2 = d)).flatMap (fun x => joined s x.1))
    waveFrom s n (d + 1) (seen ++ (near.filter (fun x => !(seen.map (·.1)).contains x)).map (fun x => (x, d + 1)))

/-- The routers of a router's wave with their hops from it, itself among them. -/
def waveHops (s : State) (g : Nat) : List (Nat × Nat) := waveFrom s (s.cores.filter (fun e => e.2.run.isSome)).length 0 [(g, 0)]

def wave (s : State) (g : Nat) : List Nat := (waveHops s g).map (·.1)

/-- Whether a router may pass its next cycle: no other router of its wave whose table runs stands so far back that its slip might
still reach this one by then (R367, R368). -/
def inStep (s : State) (g : Nat) (r : Run) : Bool :=
  (waveHops s g).all (fun x => match (s.core x.1).run with
    | some y => decide (x.1 = g) || y.ended || decide (r.cyc < y.cyc + x.2)
    | none => true)

/-- One cycle of slip over the links that the routers of a wave use, under the number its own router gave it. -/
def relaySlip (s : State) (w : List Nat) (smod origin n : Nat) : State :=
  w.foldl (fun s x =>
    match portGroupOf x, runTable s x with
    | some i, some t =>
      if t.entries.any (fun e => decide (entDir e.1 = 4)) then
        s.toGroup i (.slip ((s.core x).hold.getD 0) t.id (linkRouters.getD (i ^^^ 1) 0) smod origin n)
      else s
    | _, _ => s) s

/-- One cycle of slip, raised or come over a link in cycle `n`, on its way to routers at some hops. -/
def oweSlip (s : State) (n : Nat) (w : List (Nat × Nat)) : State :=
  w.foldl (fun s x => s.modRun x.1 (fun r => { r with debtDue := r.debtDue ++ [n + x.2] })) s

/-- The cycle of its run that a router passes next. -/
def runCyc (s : State) (g : Nat) : Nat := match (s.core g).run with
  | some r => r.cyc
  | none => 0

/-- A router raises one cycle of slip: it goes to every other router of the wave, and over the links. -/
def raiseSlip (s : State) (g : Nat) : State :=
  let w := waveHops s g
  let n := match (s.core g).run with
    | some r => r.slip
    | none => 0
  relaySlip (oweSlip s (runCyc s g) (w.filter (fun x => x.1 ≠ g))) (w.map (·.1)) s.modnum g n

/-- A cycle of slip of another module comes over the link of a router that runs the same table of the same job: it is owed once by every
router of the wave there, and goes on over the wave's other links. -/
def slipArrived (s : State) (ctx id core smod origin n : Nat) : State :=
  let w := wave s core
  let known := w.any (fun x => match (s.core x).run with
    | some r => r.slips.contains (smod, origin, n)
    | none => false)
  if (s.core core).hold ≠ some ctx || (runTable s core).map (·.id) ≠ some id || known || decide (smod = s.modnum ∧ w.contains origin) then s
  else
    let s := s.modRun core (fun r => { r with slips := r.slips ++ [(smod, origin, n)] })
    relaySlip (oweSlip s (runCyc s core) (waveHops s core)) (w.filter (fun x => x ≠ core)) smod origin n

/-- Whether a unit of debt arrives by the cycle that a run passes next. -/
def Run.debtHere (r : Run) : Bool := r.debtDue.any (fun n => decide (n ≤ r.cyc))

/-- DEBT_ARRIVAL: a unit of debt that has come so far joins the router's debt. -/
def execDebtArrival (core : Nat) (s : State) : Result :=
  .next (s.modRun core (fun r => match r.debtDue.find? (fun n => decide (n ≤ r.cyc)) with
    | some n => { r with debtDue := r.debtDue.erase n, debt := r.debt + 1 }
    | none => r))

/-! ## Compression (R371, R372) -/

/-- An integer nearest to m ÷ 2^k, ties to even. -/
def nearestShift (m k : Nat) : Nat :=
  let q := m >>> k
  let r := m % 2 ^ k
  if 2 * r > 2 ^ k || (2 * r = 2 ^ k && q % 2 = 1) then q + 1 else q

/-- The significand and exponent of a finite FP32 pattern. -/
def finParts (x : Nat) : Bool × Nat × Int :=
  match Fmt.f.decode x with
  | .fin s m e => (s, m, e)
  | v => (v.sign, 0, 0)

/-- The scale byte of a block whose largest magnitude is `u`. -/
def blockScale (u : Nat) : Nat :=
  let p := finParts u
  if p.2.1 = 0 then 0
  else
    let l := Nat.log2 p.2.1
    let c : Int := l + p.2.2 - (if 4 * p.2.1 ≤ 7 * 2 ^ l then 2 else 1)
    (satInt (127 + c) 0 254).toNat

/-- q of an element under a scale. -/
def quantum (u x : Nat) : Int :=
  let p := finParts u
  let e := p.2.2 - ((x : Int) - 127)
  let n := if 0 ≤ e then p.2.1 <<< e.toNat else nearestShift p.2.1 (-e).toNat
  satInt (if p.1 then -(n : Int) else n) (-7) 7

/-- q × 2^(X − 127) as a value. -/
def scaledInt (q : Int) (x : Nat) : FVal := if q = 0 then .zero false else .fin (decide (q < 0)) q.natAbs ((x : Int) - 127)

/-- One block: the 17 wire bytes and the new residuals. -/
def compressBlock (xs es : List Nat) : List Byte × List Nat :=
  let us := (List.range 32).map (fun i => (fadd .f .rne (Fmt.f.decode (xs.getD i 0)) (Fmt.f.decode (es.getD i 0))).1)
  if us.any (fun u => (Fmt.f.decode u).isNan || (Fmt.f.decode u).isInf) then
    (255 :: List.replicate 16 0, List.replicate 32 0)
  else
    let top := us.foldl (fun m u => max m (u % 2 ^ 31)) 0
    let x := blockScale top
    let qs := us.map (fun u => quantum u x)
    let nib (i : Nat) : Nat := natOfInt 4 (qs.getD i 0)
    (BitVec.ofNat 8 x :: (List.range 16).map (fun i => BitVec.ofNat 8 (nib (2 * i) + 16 * nib (2 * i + 1))),
     (List.range 32).map (fun i =>
       (fadd .f .rne (Fmt.f.decode (us.getD i 0)) (scaledInt (-(qs.getD i 0)) x)).1))

/-- The 32 elements of a block's wire bytes. -/
def decodeBlock (w : List Byte) : List Nat :=
  let x := (w.headD 0).toNat
  (List.range 32).map (fun i =>
    if x = 255 then 0x7FC00000
    else
      let q := sextInt 4 ((w.getD (1 + i / 2) 0).toNat >>> (4 * (i % 2)))
      (fadd .f .rne (scaledInt q x) (.zero false)).1)

/-- Element bytes of a compressed stream. -/
def decodeWire (blocks : Nat) (w : List Byte) : List Byte :=
  (List.range blocks).flatMap (fun k => (decodeBlock ((w.drop (17 * k)).take 17)).flatMap (bytesOf 4))

/-! ## Executing a beat (R352, R370, R375) -/

/-- Element bytes of a RouterOp. -/
def ropBytes (op : Nat) : Nat := if op = 1 then 2 else 4

/-- Flags of a RouterOp (R370). -/
def ropFlags (op x y : Nat) : FFlags :=
  match op with
  | 0 => (fadd .f .rne (Fmt.f.decode x) (Fmt.f.decode y)).2
  | 1 => (fadd .bh .rne (Fmt.bh.decode x) (Fmt.bh.decode y)).2
  | 2 => 0
  | _ => if (Fmt.f.decode x).isSig || (Fmt.f.decode y).isSig then flIv else 0

/-- Applies RouterOp to incoming and buffered bytes: results, flags and their number. -/
def ropOver (op : Nat) (inc buf : List Byte) : List Nat × FFlags :=
  let w := ropBytes op
  let xs := elemsOf w inc
  let ys := elemsOf w buf
  let ix := List.range xs.length
  (ix.map (fun i => routerOp op (xs.getD i 0) (ys.getD i 0)),
   ix.foldl (fun f i => f ||| ropFlags op (xs.getD i 0) (ys.getD i 0)) 0)

/-- The histogram bin of a delivered value (R375). -/
def histBin (op x : Nat) : Nat :=
  let mb := if op = 1 then 7 else 23
  let e := fld x mb 8
  let f := x % 2 ^ mb
  if e = 255 then (if f = 0 then 66 else 67)
  else if e = 0 then (if f = 0 then 64 else 65)
  else (satInt ((e : Int) - 127) (-32) 31 + 32).toNat

def countHist (op : Nat) (h : Table Nat) (xs : List Nat) : Table Nat :=
  if op = 2 then h else xs.foldl (fun h x => h.set (histBin op x) (min (Table.get 0 h (histBin op x) + 1) (2 ^ 32 - 1))) h

/-- Bytes of a router's local store; none at an uncorrectable word, with the state that records it. -/
def routerRead (s : State) (core ctx off n : Nat) : State × Option (List Byte) :=
  match readEccs s (dieOf core) ctx (localAddr core off) n with
  | .clean s => (s, some (s.readN (localAddr core off) n))
  | .uncorrectable s _ => (s, none)

def routerWrite (s : State) (core ctx off : Nat) (bs : List Byte) : State := pokeBytes s (dieOf core) ctx (localAddr core off) bs

/-- The key id under which the table that a router runs is encrypted. -/
def tableKey (s : State) (core : Nat) : Option Nat := (runTable s core).bind (fun t => if t.enc then some t.kid else none)

/-- The beat a table cycle takes on a port, decrypted where the router's table has the key of the sender's; no beat reads as zeros
(R354, R359, log entry 50). -/
def beatAt (s : State) (core dir cycle : Nat) : List Byte :=
  match s.beats.find? (fun b => b.arrived && decide (b.core = core ∧ b.dir = dir ∧ b.cycle = cycle)) with
  | some b =>
    let kid := tableKey s core
    bytesOf 32 (if b.kid = kid then b.data else cipherBeat b.kid kid b.data).toNat
  | none => List.replicate 32 0

/-- A beat leaves a router at a table cycle. -/
def emit (s : State) (core dir t : Nat) (bs : List Byte) : State :=
  let data := BitVec.ofNat 256 (ofBytes bs)
  if dir = 4 then
    match portGroupOf core with
    | some i => s.toGroup i (.beat ((s.core core).hold.getD 0) s.modnum (linkRouters.getD (i ^^^ 1) 0) (t + 660) (tableKey s core) data)
    | none => s
  else match meshNeighbour core dir with
    | none => s
    | some n =>
      if (s.core n).hold = (s.core core).hold then
        { s with beats := s.beats ++ [{ core := n, dir := facing dir, cycle := t + 2, data := data, arrived := false, kid := tableKey s core }] }
      else s

def emitAll (s : State) (core t : Nat) (ports : List Nat) (bs : List Byte) : State :=
  (dedup ports).foldl (fun s d => emit s core d t bs) s

/-- The first `n` incoming wire bytes of a group. -/
def incoming (s : State) (core : Nat) (g : Group) (n : Nat) : List Byte :=
  match g.rx with
  | none => []
  | some (d, _) => ((List.range ((n + 31) / 32)).flatMap (fun i => beatAt s core d (g.off + i))).take n

/-- Incoming element bytes [lo, lo + n). -/
def incomingElems (s : State) (core : Nat) (g : Group) (lo n : Nat) : List Byte :=
  match g.rx with
  | some (_, true) =>
    let blocks := (lo + n + 127) / 128
    ((decodeWire blocks (incoming s core g (17 * blocks))).drop lo).take n
  | _ => (incoming s core g (lo + n)).drop lo

/-- RouterOp over [lo, lo + n) of a group's buffer, counted and flagged. -/
def combine (s : State) (core ctx : Nat) (g : Group) (lo n : Nat) : State × Option (List Nat) :=
  match routerRead s core ctx (g.buf + lo) n with
  | (s, none) => (s, none)
  | (s, some buf) =>
    let r := ropOver g.op (incomingElems s core g lo n) buf
    let s := s.count ctx (28 + g.op) r.1.length
    (s.modRun core (fun x => { x with flags := x.flags ||| r.2 }), some r.1)

/-- The outgoing elements of block `k` of a compressing group. -/
def blockElems (s : State) (core ctx : Nat) (g : Group) (k : Nat) : State × Option (List Nat) :=
  match g.shape with
  | .reduce => combine s core ctx g (128 * k) 128
  | _ => match routerRead s core ctx (g.buf + 128 * k) 128 with
    | (s, none) => (s, none)
    | (s, some bs) => (s, some (elemsOf 4 bs))

/-- Compresses blocks from `k` on until the wire bytes reach `want` or the blocks end. -/
def extendWire (core ctx : Nat) (g : Group) (want : Nat) : Nat → List Byte → State → State × Option (List Byte)
  | 0, w, s => (s, some w)
  | n + 1, w, s =>
    let k := w.length / 17
    if want ≤ w.length || g.len / 128 ≤ k then (s, some w)
    else match blockElems s core ctx g k with
      | (s, none) => (s, none)
      | (s, some xs) =>
        match (if g.fresh then (s, some (List.replicate 32 0)) else
          (match routerRead s core ctx (g.buf + g.len + 128 * k) 128 with
           | (s, none) => (s, none)
           | (s, some bs) => (s, some (elemsOf 4 bs)))) with
        | (s, none) => (s, none)
        | (s, some es) =>
          let r := compressBlock xs es
          extendWire core ctx g want n (w ++ r.1)
            (routerWrite s core ctx (g.buf + g.len + 128 * k) (r.2.flatMap (bytesOf 4)))

/-- A damaged word stops the router's run until the rollback (spec/18_traps.md R445). -/
def freezeRun (s : State) (core : Nat) : State := s.modRun core (fun r => { r with frozen := true })

/-- Beat `j` of a group at table cycle `t`; none where a damaged word is read. -/
def groupBeat (core ctx : Nat) (x : RunGroup) (g : Group) (j t : Nat) (s : State) : State × Bool :=
  let last := decide (j + 1 = g.beats)
  let rxCmp := match g.rx with
    | some (_, c) => c
    | none => false
  let keep (w : List Byte) (s : State) : State :=
    s.modRun core (fun r => { r with groups := r.groups.map (fun y => if y.op = x.op then { y with wire := w } else y) })
  match g.shape with
  | .receive =>
    (if rxCmp then (if last then routerWrite s core ctx g.buf (incomingElems s core g 0 g.len) else s)
     else routerWrite s core ctx (g.buf + 32 * j) (incomingElems s core g (32 * j) 32), true)
  | .forward =>
    let s := match g.rx with
      | some (d, _) => emitAll s core t g.tx (beatAt s core d t)
      | none => s
    (if rxCmp then (if last then routerWrite s core ctx g.buf (incomingElems s core g 0 g.len) else s)
     else routerWrite s core ctx (g.buf + 32 * j) (incomingElems s core g (32 * j) 32), true)
  | .deliver =>
    let put (lo n : Nat) : State × Bool :=
      match combine s core ctx g lo n with
      | (s, none) => (s, false)
      | (s, some xs) =>
        let s := s.modRun core (fun r => { r with hist := countHist g.op r.hist xs })
        (routerWrite s core ctx (g.buf + lo) (xs.flatMap (bytesOf (ropBytes g.op))), true)
    if rxCmp then (if last then put 0 g.len else (s, true)) else put (32 * j) 32
  | _ =>
    if g.txBeats ≤ j then (s, true)
    else if g.txCmp then
      (match extendWire core ctx g (32 * (j + 1)) (g.len / 128) x.wire s with
       | (s, none) => (s, false)
       | (s, some w) =>
         let out := (w.drop (32 * j)).take 32
         (keep w (emitAll s core t g.tx (out ++ List.replicate (32 - out.length) 0)), true))
    else if g.shape = .reduce then
      (match combine s core ctx g (32 * j) 32 with
       | (s, none) => (s, false)
       | (s, some xs) => (emitAll s core t g.tx (xs.flatMap (bytesOf (ropBytes g.op))), true))
    else
      (match routerRead s core ctx (g.buf + 32 * j) 32 with
       | (s, none) => (s, false)
       | (s, some bs) => (emitAll s core t g.tx bs, true))

/-! ## The table clock (R365-R369) -/

/-- Lines a group writes. -/
def Group.writeLines (core : Nat) (g : Group) : List Nat :=
  (match g.shape with
   | .send => []
   | .reduce => []
   | _ => linesOf (localAddr core g.buf) g.len) ++
    (if g.compresses then linesOf (localAddr core (g.buf + g.len)) g.len else [])

/-- Lines a group reads or writes. -/
def Group.lines (core : Nat) (g : Group) : List Nat := linesOf (localAddr core g.buf) g.len ++ g.writeLines core

/-- Whether a group reads local store. -/
def Group.reads (g : Group) : Bool := match g.shape with
  | .receive => false
  | .forward => false
  | _ => true

/-- Why a router holds. -/
inductive Hold where
  | leave
  | line
  | post
  | room
  deriving DecidableEq, Repr

/-- Whether the groups of the table clock are ready: the state with their pre-images, or why the router holds. -/
def readyGroups (s : State) (core ctx : Nat) (r : Run) (gs : List Group) : State ⊕ Hold :=
  let mine := r.groups.map (·.op)
  let gated := match (s.ctx ctx).armed with
    | some a => a.gate
    | none => false
  if gs.isEmpty then .inl s
  else if !(decide (r.leave = .granted) || decide (r.leave = .reserved)) then .inr .leave
  else if gs.any (fun g => (g.lines core).any (fun l => lineTaken s l mine)) then .inr .line
  else if gated && !r.posted && gs.any Group.reads then .inr .post
  else match (linesPre (dieOf core) ctx 0 (gs.flatMap (Group.writeLines core)) s).1 with
    | .taken s => .inl s
    | _ => .inr .room

/-- Whether no beat of a link port is to come for a table cycle: beats of a link come in order, so that one of a later cycle has
arrived, or the cycle lies further back than a skid buffer reaches (R350, R368; log entry 33). -/
def linkBeatMissed (s : State) (core cycle : Nat) : Bool :=
  s.beats.any (fun b => b.arrived && decide (b.core = core ∧ b.dir = 4 ∧ cycle < b.cycle)) ||
    (match (s.core core).run with
     | some r => decide (r.startCy + cycle + r.slip + r.debt + 1600 < s.cy)
     | none => true)

/-- Whether what a neighbour sends for a table cycle is known: the beat has arrived, or none is to come. -/
def beatKnown (s : State) (core dir cycle : Nat) : Bool :=
  s.beats.any (fun b => b.arrived && decide (b.core = core ∧ b.dir = dir ∧ b.cycle = cycle)) ||
    (if dir = 4 then linkBeatMissed s core cycle
     else !s.beats.any (fun b => decide (b.core = core ∧ b.dir = dir ∧ b.cycle = cycle)) &&
      (match (meshNeighbour core dir).bind (fun n => (s.core n).run) with
       | none => true
       | some r => r.ended || decide (cycle < r.clock + 2)))

/-- Incoming beats a group needs to execute beat `j`. -/
def Group.needs (g : Group) (j : Nat) : Nat :=
  match g.rx with
  | none => 0
  | some (_, rc) =>
    if g.shape = .reduce && (rc || g.txCmp) then
      let elems := min g.len (if g.txCmp then 128 * ((32 * (j + 1) + 16) / 17) else 32 * (j + 1))
      min g.rxBeats (if rc then (17 * ((elems + 127) / 128) + 31) / 32 else elems / 32)
    else min g.rxBeats (j + 1)

def beatsKnown (s : State) (core : Nat) (g : Group) (j : Nat) : Bool :=
  match g.rx with
  | none => true
  | some (d, _) => (List.range (g.needs j)).all (fun i => beatKnown s core d (g.off + i))

/-- The groups of the table a router runs. -/
def routerGroups (s : State) (core : Nat) : List Group := match runTable s core with
  | some t => groupsOf t.entries
  | none => []

/-- Whether the running table has lost its key at a router that must hold it (R360). -/
def keyLost (s : State) (core : Nat) : Bool :=
  match runTable s core with
  | some t => t.enc && needsKey core (t.entries.map (·.1)) && !holdsKey s core t.kid
  | none => false


/-- Starts groups: their lines are pending under a fresh operation number. -/
def openGroups (s : State) (core ctx : Nat) (gs : List Group) : State :=
  gs.foldl (fun s g =>
    let op := s.opCount + 1
    let new := (dedup (g.writeLines core)).map (fun l =>
      ({ die := dieOf core, ctx := ctx, line := l, op := op, nxt := false, since := s.opCount } : OwnedLine))
    let s := { s with opCount := op, owned := s.owned ++ new }
    s.modRun core (fun r => { r with groups := r.groups ++ [{ off := g.off, op := op, wire := [] }] })) s

/-- Executes the beat of one running group, and clears its lines as their last bytes are written. -/
def runBeat (core ctx t : Nat) (gs : List Group) (s : State × Bool) (x : RunGroup) : State × Bool :=
  if !s.2 then s
  else match gs.find? (fun g => g.off = x.off) with
    | none => s
    | some g =>
      let j := t - g.off
      match groupBeat core ctx x g j t s.1 with
      | (s, false) => (s, false)
      | (s, true) =>
        if j + 1 = g.beats then
          ((releaseLines s x.op).modRun core (fun r => { r with groups := r.groups.filter (fun (y : RunGroup) => y.op ≠ x.op) }), true)
        else if (match g.rx with
            | some (_, c) => c
            | none => true) || (g.buf + 32 * (j + 1)) % 64 ≠ 0 then (s, true)
        else (releaseLine s x.op (localAddr core (g.buf + 32 * j)), true)

/-- The run ends once no group is running or still to come (R374); of a stopped table none is to come (R360). -/
def endRun (s : State) (core : Nat) (gs : List Group) : State :=
  match (s.core core).run with
  | none => s
  | some r =>
    if r.groups.isEmpty && (r.stopped || gs.all (fun g => decide (g.off < r.clock))) then
      let s := endLeave s core
      let s := s.trace (dieOf core) ((s.core core).hold.getD 0) 8 (identity s core 0)
        (postWord r.id (if r.stopped then 3 else 0) r.flags r.slip)
      let s := { s with beats := s.beats.filter (fun b => b.core ≠ core) }
      (s.modRun core (fun r => { r with ended := true })).settle core
    else s

/-- The table stops at its next group: the core votes abort with bit 7, groups that run go on to their end, and its posts fill with
status 3 (R360). -/
def stopTable (s : State) (core ctx : Nat) : State :=
  endRun ((s.vote ctx 7).modRun core (fun r => { r with stopped := true })) core []

/-- What reading the running table's entries finds in their check bits: the state, and whether the run can go on
(spec/18_traps.md R444, R445). -/
def tableEcc (s : State) (core ctx : Nat) : State × Bool :=
  let mend (e : Ecc) (s : State) : State := match (s.core core).run with
    | none => s
    | some r => s.modCore core (fun c => { c with tables := c.tables.map (fun t => if t.id = r.id then { t with ecc := e } else t) })
  match (runTable s core).map TTable.ecc with
  | some .correctable => ((mend .sound s).countCor (dieOf core), true)
  | some .uncorrectable => ((s.countUnc (dieOf core)).vote ctx 1, false)
  | _ => (s, true)

/-- The groups that start at a table cycle: none of a stopped table. -/
def startingGroups (s : State) (core : Nat) (r : Run) : List Group :=
  if r.stopped then [] else (routerGroups s core).filter (fun g => g.off = r.clock)

/-- One cycle of a router (R365); it waits for the routers of its wave, and for debt on its way, as `inStep` and `Run.debtHere` say. -/
def routerCycle (s : State) (core ctx : Nat) (r : Run) : State :=
  if !r.started || r.frozen || r.debtHere || !inStep s core r then s
  else if r.ended then
    (s.modRun core (fun r => { r with debt := r.debt - 1, cyc := r.cyc + 1 })).settle core
  else if 0 < r.debt then s.modRun core (fun r => { r with debt := r.debt - 1, slip := r.slip + 1, cyc := r.cyc + 1 })
  else
    let t := r.clock
    let gs := routerGroups s core
    let starting := startingGroups s core r
    let e := if starting.isEmpty then (s, true) else tableEcc s core ctx
    let s := e.1
    if !e.2 then freezeRun s core
    else if !starting.isEmpty && keyLost s core then stopTable s core ctx
    else match readyGroups s core ctx r starting with
      | .inr _ => (raiseSlip (s.modRun core (fun r => { r with slip := r.slip + 1 })) core).modRun core (fun r => { r with cyc := r.cyc + 1 })
      | .inl s1 =>
        let running := starting ++ gs.filter (fun g => r.groups.any (fun x => x.off = g.off))
        if running.any (fun g => !beatsKnown s core g (t - g.off)) then s
        else
          let s := openGroups s1 core ctx starting
          let xs := match (s.core core).run with
            | some r => r.groups
            | none => []
          match xs.foldl (runBeat core ctx t gs) (s, true) with
          | (s, false) => freezeRun s core
          | (s, true) => endRun (s.modRun core (fun r => { r with clock := r.clock + 1, cyc := r.cyc + 1 })) core gs

def execGroupFire (core : Nat) (s : State) : Result :=
  .next (match (s.core core).run, (s.core core).hold with
    | some r, some ctx => routerCycle s core ctx r
    | _, _ => s)

/-- A beat arrives: it waits in the skid buffer for its table cycle, or is discarded where no receiving group takes it (R350,
R354, R368). -/
def execBeatArrival (core dir : Nat) (s : State) : Result :=
  .next (match s.beats.findIdx? (fun b => decide (b.core = core ∧ b.dir = dir) && !b.arrived) with
    | none => s
    | some i =>
      let b := s.beats[i]?
      let taken := match b, (s.core core).run with
        | some b, some r => !r.ended && (routerGroups s core).any (fun g => match g.rx with
          | some (d, _) => (!r.stopped || r.groups.any (fun x => x.off = g.off)) && decide (d = dir ∧ g.off ≤ b.cycle ∧ b.cycle < g.off + g.rxBeats)
          | none => false)
        | _, _ => false
      if taken then { s with beats := s.beats.mapIdx (fun k x => if k = i then { x with arrived := true } else x) }
      else { s with beats := s.beats.eraseIdx i })

/-- TABLE_STOP: a removed key stops the table at its next group, in the cycle that the router passes next. -/
def execTableStop (core : Nat) (s : State) : Result :=
  .next (match (s.core core).run, (s.core core).hold with
    | some r, some ctx =>
      if r.started && !r.ended && !r.frozen && !r.debtHere && inStep s core r && decide (r.debt = 0) && keyLost s core &&
          !(startingGroups s core r).isEmpty then stopTable s core ctx
      else s
    | _, _ => s)

/-- Whether a router holds for a post or for pre-image room, whatever its debt. -/
def awaitsThread (s : State) (core ctx : Nat) : Bool :=
  match (s.core core).run with
  | none => false
  | some r => r.started && !r.ended &&
      (match readyGroups s core ctx r (startingGroups s core r) with
       | .inr .post => true
       | .inr .room => true
       | _ => false)

/-- Whether a router executes a beat at its next cycle. -/
def runsBeat (s : State) (core ctx : Nat) (r : Run) : Bool :=
  let gs := routerGroups s core
  let starting := startingGroups s core r
  r.started && !r.ended && decide (r.debt = 0) && r.debtDue.isEmpty &&
    (match readyGroups s core ctx r starting with
     | .inl _ => (starting ++ gs.filter (fun g => r.groups.any (fun x => x.off = g.off))).all (fun g => beatsKnown s core g (r.clock - g.off))
     | .inr _ => false)

/-- Whether a router is pending work for the rule for HANG (R377).  In a wave that waits for a post or for room, the slip it
raises keeps every other router in debt, so there only a router that executes beats counts (log entry 39). -/
def routerPending (s : State) (core ctx : Nat) : Bool :=
  match (s.core core).run with
  | none => false
  | some r =>
    if !r.started then true
    else if (wave s core).any (fun x => awaitsThread s x ctx) then runsBeat s core ctx r
    else !r.ended || decide (0 < r.debt) || !r.debtDue.isEmpty

end Sys2Proof.Machine
end

