-- ==== Sys2Proof/Machine/Placement.lean ====
section
/-! DEFINITION. Launch records, the hierarchy, the fit of a launch, its placement, and stored images (spec/17_launch.md
R417-R421, R425, R428, R429, spec/16_harvest.md R403, R404). -/

namespace Sys2Proof.Machine

open Sys2Proof

/-! ## The launch record (R417, R420) -/

def recCtx (w : List Word) : Nat := wfld (w.headD 0) 32 16
def recPrio (w : List Word) : Nat := wfld (w.headD 0) 6 2
def recHarvest (w : List Word) : Bool := (w.headD 0).getLsbD 3
def recResume (w : List Word) : Bool := (w.headD 0).getLsbD 2
def recCoresident (w : List Word) : Bool := (w.headD 0).getLsbD 8
def recSlots (w : List Word) : Nat := wfld (w.headD 0) 16 4
def recLevels (w : List Word) : List Word := (w.drop 16).take (wfld (w.headD 0) 20 4)
def recSpill (w : List Word) : Nat := wfld (w.getD 2 0) 0 5 * 1024
def recLease (w : List Word) : Nat := wfld (w.getD 4 0) 0 4
def recDone (w : List Word) : Nat := (w.getD 13 0).toNat
def recImage (w : List Word) : Nat := (w.getD 15 0).toNat

def levDomain (l : Word) : Nat := wfld l 0 3
def levScope (l : Word) : Nat := wfld l 4 3
def levCount (l : Word) : Nat := wfld l 16 16
def levFirst (l : Word) : Nat := wfld l 32 16

/-- Whether the securing word is refused (spec/19_survival.md R451). -/
def badSecure (s : State) (w : Word) : Bool :=
  decide (wfld w 60 2 ≠ 0) ||
    (w.getLsbD 63 && (decide (wfld w 48 12 = s.modnum) || decide (wfld w 20 12 = 0)))

/-- R417: a reserved bit or a limit of Table 17.1. -/
def badRecord (s : State) (w : List Word) : Bool :=
  let w0 := w.headD 0
  let n := wfld w0 20 4
  decide (2 ≤ wfld w0 0 2) || decide (wfld w0 4 2 = 3) || decide (wfld w0 9 3 ≠ 0) || decide (wfld w0 24 8 ≠ 0) ||
    decide (wfld w0 48 16 ≠ 0) || decide (wfld w0 12 4 = 0) || decide (recSlots w = 0) ||
    decide ((if recHarvest w then 2 else 8) < recSlots w) || decide (n = 0 ∨ 8 < n) ||
    (w.getD 1 0).getLsbD 0 || decide (wfld (w.getD 2 0) 5 59 ≠ 0) || decide (16 < wfld (w.getD 2 0) 0 5) ||
    decide (wfld (w.getD 3 0) 0 14 ≠ 0) || decide (wfld (w.getD 4 0) 4 60 ≠ 0) || decide (12 < recLease w) ||
    decide (wfld (w.getD 5 0) 0 16 ≠ 0) || (!recHarvest w && decide (w.getD 5 0 ≠ 0)) ||
    decide (wfld (w.getD 6 0) 37 27 ≠ 0) || decide (16 < wfld (w.getD 6 0) 32 5) || decide (wfld (w.getD 6 0) 0 12 ≠ 0) ||
    decide (wfld (w.getD 10 0) 8 56 ≠ 0) || decide (3 < wfld (w.getD 10 0) 0 8) || badSecure s (w.getD 11 0) ||
    decide (wfld (w.getD 12 0) 32 32 ≠ 0) || decide (recImage w % 4096 ≠ 0) ||
    (recLevels w).any (fun l => decide (wfld l 48 16 ≠ 0) || decide (wfld l 7 9 ≠ 0) || l.getLsbD 3 ||
      decide (levCount l = 0) || decide (5 < levDomain l)) ||
    (w.drop (16 + n)).any (fun l => l ≠ 0)

/-- Domains rise strictly, a module level has count 1, scopes lie between parent and level (R420). -/
def badLevels : Nat → Bool → List Word → Bool
  | _, _, [] => false
  | pd, first, l :: rest =>
    (!first && decide (levDomain l ≤ pd)) || (decide (levDomain l = 1) && decide (levCount l ≠ 1)) ||
      decide (levScope l < pd) || decide (levDomain l < levScope l) || badLevels (levDomain l) false rest

/-- Domain of the parent of level 0 (R419). -/
def topDomain (w : List Word) : Nat := if levDomain ((recLevels w).headD 0) = 0 then 0 else 1

def badHierarchy (w : List Word) : Bool :=
  let ls := recLevels w
  let last := ls.getLastD 0
  badLevels (topDomain w) true ls || decide (levDomain last ≠ 5) || decide (recSlots w < levCount last)

/-- The product of all counts. -/
def recTotal (w : List Word) : Nat := (recLevels w).foldl (fun n l => n * levCount l) 1

/-! ## Units (R419) -/

/-- Units of a domain under a parent of this module: dies, clusters, gcores and 16 × gcore + slot. -/
def unitsUnder (dom pdom p : Nat) : List Nat :=
  let cores : List Nat := match pdom with
    | 2 => (List.range 256).map (fun c => p * 256 + c)
    | 3 => (List.range 8).map (gcoreAt p)
    | 4 => [p]
    | _ => List.range numGcores
  match dom with
  | 0 => [0]
  | 1 => [0]
  | 2 => List.range numDies
  | 3 => if pdom = 2 then (List.range 32).map (fun c => p * 32 + c) else List.range numClusters
  | 4 => cores
  | _ => cores.flatMap (fun c => (List.range 8).map (tid c))

/-- Units of a domain on one module, counted for the numbering over an installation. -/
def unitsPerModule (dom : Nat) : Nat := [1, 1, 24, 768, 6144, 49152].getD dom 1

/-- Unit number `n` under a parent: none where there is none, `some none` on another module. -/
def unitAt (s : State) (dom pdom p n : Nat) : Option (Option Nat) :=
  if pdom = 0 && decide (dom ≠ 0) then
    let k := unitsPerModule dom
    if 4095 ≤ n / k then none
    else if n / k = s.modnum then ((unitsUnder dom 1 0)[n % k]?).map some else some none
  else ((unitsUnder dom pdom p)[n]?).map some

/-- The unit of the scope's domain that holds a unit. -/
def containerOf (dom id scope : Nat) : Nat :=
  let core := if dom = 5 then coreOf id else id
  if dom ≤ scope then id
  else match scope with
    | 2 => (match dom with
      | 3 => id / 32
      | _ => core / 256)
    | 3 => clusterOf core
    | 4 => core
    | _ => 0

/-- Takes the first `n` units of a list whose subtree is placed, in order. -/
def takeUnits (sub : Nat → Nat → Option (List Placed)) (n : Nat) (us : List Nat) : Option (List Placed) :=
  let r := us.foldl (fun (acc : Nat × List Placed) u =>
    if acc.1 = n then acc
    else match sub acc.1 u with
      | some ps => (acc.1 + 1, acc.2 ++ ps)
      | none => acc) (0, [])
  if r.1 = n then some r.2 else none

/-- Every unit of a list placed; units on other modules place nothing here. -/
def allUnits (sub : Nat → Nat → Option (List Placed)) : Nat → List (Option (Option Nat)) → Option (List Placed)
  | _, [] => some []
  | _, none :: _ => none
  | i, some none :: rest => allUnits sub (i + 1) rest
  | i, some (some u) :: rest => (sub i u).bind (fun ps => (allUnits sub (i + 1) rest).map (fun t => ps ++ t))

/-- The placement of the levels under a unit with the rank so far: the units named, or the lowest-numbered that fit the
whole subtree within the scope (R425). -/
def walk (s : State) (ok : Nat → Nat → Bool) : List Word → Nat → Nat → Nat → Option (List Placed)
  | [], _, p, rank => some [{ core := coreOf p, slot := slotOf p, rank := rank }]
  | l :: rest, pdom, p, rank =>
    let dom := levDomain l
    let sub (i u : Nat) : Option (List Placed) :=
      if ok dom u then walk s ok rest dom u (rank * levCount l + i) else none
    if levFirst l ≠ 0xFFFF then
      let us := (List.range (levCount l)).map (fun i => unitAt s dom pdom p (levFirst l + i))
      let here := us.filterMap (fun u => u.bind id)
      if decide (1 < (dedup (here.map (fun u => containerOf dom u (levScope l)))).length) ||
          (decide (1 ≤ levScope l ∧ pdom = 0) && decide (here.length ≠ 0 ∧ here.length ≠ levCount l)) then none
      else allUnits sub 0 us
    else
      let us := unitsUnder dom (if pdom = 0 && decide (dom ≠ 0) then 1 else pdom) p
      (dedup (us.map (fun u => containerOf dom u (levScope l)))).findSome? (fun c =>
        takeUnits sub (levCount l) (us.filter (fun u => decide (containerOf dom u (levScope l) = c))))

/-- Modules a record's levels span (R425). -/
def recModules (s : State) (w : List Word) : List Nat :=
  match recLevels w with
  | l0 :: l1 :: _ =>
    if levDomain l0 = 0 && decide (levFirst l1 ≠ 0xFFFF) then
      dedup ((List.range (levCount l1)).map (fun i => (levFirst l1 + i) / unitsPerModule (levDomain l1)))
    else [s.modnum]
  | _ => [s.modnum]

/-! ## Fit (R424, spec/16_harvest.md R404, R416) -/

/-- The gcore or die a unit needs: its die. -/
def unitDie (dom u : Nat) : Nat := if dom = 2 then u else if dom = 3 then u / 32 else if dom = 5 then coreOf u / 256 else u / 256

/-- Whether the harvest launch of a record may be admitted by a core's holding launch (Table 16.1). -/
def admitsHarvest (s : State) (core : Nat) (w : List Word) : Bool :=
  match (s.core core).hold with
  | none => false
  | some o =>
    coreLends s core &&
      (if wfld (recDw s o 0) 4 2 = 1 then decide ((s.ctx o).tenant = (s.ctx (recCtx w)).tenant)
       else decide (wfld (w.headD 0) 4 2 = 2))

/-- Granules offered and leased to neither bank, ascending. -/
def freeGranules (c : Core) : List Nat :=
  (bitsSet 12 c.offer.toNat).filter (fun n => !c.leases[0].held.contains n && !c.leases[1].held.contains n)

/-- Whether a core can take an owner launch now. -/
def coreFree (s : State) (g : Nat) : Bool :=
  let c := s.core g
  (s.die (dieOf g)).healthy && c.hold.isNone && !c.wipe &&
    (List.range slotsPerCore).all (fun k => decide ((s.thread (tid g k)).st = .unheld))

/-- Whether a core can seat `k` banks of a harvest launch now. -/
def coreSeats (s : State) (w : List Word) (g k : Nat) : Bool :=
  admitsHarvest s g w && decide (recLease w * k ≤ (freeGranules (s.core g)).length)

/-- Whether a sash bank of a core is Idle and can be seated; with `both` bank 9 counts the granules of bank 8 as taken, while that
one is free. -/
def bankSeats (s : State) (w : List Word) (both : Bool) (u : Nat) : Bool :=
  let free (b : Nat) : Bool := decide ((s.thread (tid (coreOf u) b)).st = .unheld)
  free (8 + slotOf u) && coreSeats s w (coreOf u) (if both && decide (slotOf u = 1) && free 8 then 2 else 1)

/-- The test of a unit: on a healthy die, slots within the set, and, for a fit now, free; `blocked` dies take nothing. -/
def unitOk (s : State) (w : List Word) (now : Bool) (blocked : Nat → Bool) (both : Bool) (dom u : Nat) : Bool :=
  if dom < 2 then true
  else
    let d := unitDie dom u
    let k := slotOf u
    (s.die d).healthy && !(now && blocked d) &&
      (if recHarvest w then
        (if dom = 5 then decide (k < 2) && (!now || bankSeats s w both u)
         else if dom = 4 then !now || coreSeats s w u 1 else true)
       else
        (if dom = 5 then decide (k < recSlots w) && (!now || coreFree s (coreOf u)) else if dom = 4 then !now || coreFree s u else true))

/-- Slot units of a harvest launch are the banks 8 and 9. -/
def seatBanks (w : List Word) (ps : List Placed) : List Placed :=
  if recHarvest w then ps.map (fun p => { p with slot := p.slot + 8 }) else ps

/-- Whether the free granules of every core suffice for the banks that a harvest placement takes there (R404). -/
def granulesFit (s : State) (w : List Word) (ps : List Placed) : Bool :=
  (dedup (ps.map (·.core))).all (fun g => coreSeats s w g (ps.filter (fun p => decide (p.core = g))).length)

/-- The placement of a whole record: with all slots free, or as things stand.  Bank 9 beside bank 8 needs granules of its own. -/
def place (s : State) (w : List Word) (now : Bool) (blocked : Nat → Bool) : Option (List Placed) :=
  let go (both : Bool) : Option (List Placed) :=
    (walk s (unitOk s w now blocked both) (recLevels w) (topDomain w) 0 0).map (seatBanks w)
  (go false).bind (fun ps => if now && recHarvest w && !granulesFit s w ps then go true else some ps)

/-- The unit that suits a subtree best: the first of the least tier; with the tier, the unit and its placement. -/
def bestUnit (xs : List (Nat × Nat × List Placed)) : Option (Nat × Nat × List Placed) :=
  xs.foldl (fun best x => match best with
    | none => some x
    | some b => if x.1 < b.1 then some x else some b) none

/-- Units of a list for the subtrees `i` to `i + n - 1`, each time the one that suits best. -/
def pickUnits (tier : List Placed → Nat) (sub : Nat → Nat → Option (List Placed)) : Nat → Nat → List Nat → Option (List Placed)
  | 0, _, _ => some []
  | n + 1, i, us =>
    match bestUnit (us.filterMap (fun u => (sub i u).map (fun ps => (tier ps, u, ps)))) with
    | none => none
    | some (_, u, ps) => (pickUnits tier sub n (i + 1) (us.filter (fun v => v ≠ u))).map (fun t => ps ++ t)

/-- A placement that keeps the threads placed so far and gives each further subtree, where the record leaves the unit open, the
lowest-numbered unit on which all of it fits now, else one on which a group of it does, else one on which it fits with all
slots free (R424, R425; log entry 24). -/
def walkPart (s : State) (w : List Word) (placed : List Placed) (tier : List Placed → Nat) :
    List Word → Nat → Nat → Nat → Option (List Placed)
  | [], _, p, rank =>
    let x : Placed := { core := coreOf p, slot := slotOf p, rank := rank }
    let at_ (y : Placed) : Bool := decide (y.core = x.core ∧ y.slot = x.slot)
    (match placed.find? (fun y => y.rank = rank) with
     | some y => if at_ y then some [x] else none
     | none => if placed.any at_ || !unitOk s w false (fun _ => false) false 5 p then none else some [x])
  | l :: rest, pdom, p, rank =>
    let dom := levDomain l
    let sub (i u : Nat) : Option (List Placed) := walkPart s w placed tier rest dom u (rank * levCount l + i)
    if levFirst l ≠ 0xFFFF then
      let us := (List.range (levCount l)).map (fun i => unitAt s dom pdom p (levFirst l + i))
      let here := us.filterMap (fun u => u.bind id)
      if decide (1 < (dedup (here.map (fun u => containerOf dom u (levScope l)))).length) then none else allUnits sub 0 us
    else
      let us := unitsUnder dom (if pdom = 0 && decide (dom ≠ 0) then 1 else pdom) p
      let cs := dedup (us.map (fun u => containerOf dom u (levScope l)))
      (bestUnit (cs.filterMap (fun c =>
        (pickUnits tier sub (levCount l) 0 (us.filter (fun u => decide (containerOf dom u (levScope l) = c)))).map
          (fun ps => (tier ps, c, ps))))).map (fun x => x.2.2)

/-- Whether the layout of R169 does not fit (R170). -/
def layoutFails (w : List Word) : Bool :=
  let carve := recSpill w * recSlots w
  !recHarvest w && (decide (0xB800 < carve) || decide ((0xB800 - carve) / 4096 < recLease w))

/-- The thread groups of a placement: its threads by cluster. -/
def threadGroups (ps : List Placed) : List (List Placed) :=
  (dedup (ps.map (fun p => clusterOf p.core))).map (fun c => ps.filter (fun p => decide (clusterOf p.core = c)))

/-- The whole placement of a launch that is placed in parts: `fits` tells whether a group can be placed now. -/
def placePart (s : State) (w : List Word) (placed : List Placed) (fits : List Placed → Bool) : Option (List Placed) :=
  let tier (ps : List Placed) : Nat :=
    let gs := threadGroups (ps.filter (fun p => !placed.contains p))
    if gs.all fits then 0 else if gs.any fits || ps.any (fun p => placed.contains p) then 1 else 2
  walkPart s w placed tier (recLevels w) (topDomain w) 0 0

/-! ## Placing (R425) -/

/-- Overflow region of a writer of a core (Table 17.1, spec/07_local_store.md R181). -/
def overflowAt (s : State) (ctx g : Nat) : Overflow :=
  let w := recDw s ctx 6
  let v := wfld w 32 5 * 4096
  let a := dieAddr (dieOf g) ((s.dctx (dieOf g) ctx).dmBase * 16384) + wfld w 0 32 + g % 256 * v
  { vovf := word a, vovend := word (a + v), base := word a }

/-- Steps 1 to 3 for a core of an owner launch. -/
def placeCore (s : State) (ctx g : Nat) (w : List Word) : State :=
  if (s.core g).hold = some ctx then s
  else
    let s := s.modCore g (fun c =>
      { c with hold := some ctx, slotSet := BitVec.ofNat 10 (2 ^ recSlots w - 1), spill := recSpill w, lease := recLease w,
               pool := c.pool.filter (fun p => p.writer ≠ 0), ovf := c.ovf.set 0 (overflowAt s ctx g), offer := 0,
               acc := Vector.replicate 2 Acc.reset, tables := [], run := none })
    (List.range (recSlots w)).foldl (fun s k => s.setThread (tid g k) { Thread.reset with st := .idle, ctx := ctx }) s

/-- Drops the owner's pre-images of a granule's lines: a later abort of the owner brings nothing back into it. -/
def dropGranulePre (s : State) (g gr : Nat) : State :=
  let s := s.modCore g (fun c => { c with pool := c.pool.filter (fun p => !decide (p.writer = 0 ∧ p.line / 4096 = gr)) })
  let o := (s.core g).ovf[0]
  (List.range ((o.vovf.toNat - o.base.toNat) / 128)).foldl (fun s i =>
    let a := o.base.toNat + 128 * i
    if wfld (s.readWord (a + 64)) 0 16 / 4096 = gr then s.writeN (a + 64) (bytesOf 2 0xFFFF) else s) s

/-- A granule is zeroed before a bank gets it (spec/07_local_store.md R188). -/
def zeroGranule (s : State) (g gr : Nat) : State :=
  let lo := localAddr g (gr * 4096)
  let s := dropGranulePre (zeroRange s lo 4096) g gr
  { s with ecc := s.ecc.filter (fun m => !decide (lo ≤ m.loc ∧ m.loc < lo + 4096)) }

/-- A bank of a harvest launch is seated: its lease, backing area and overflow region (spec/16_harvest.md R404).  HBACK holds no
bit below 16 (Table 16.3).  What the other bank's lease marks of these granules ends: an abort of the owner no longer gives them
back to it. -/
def seatBank (s : State) (ctx g b : Nat) (w : List Word) : State :=
  let gs := (freeGranules (s.core g)).take (recLease w)
  let s := gs.foldl (fun s gr => zeroGranule s g gr) s
  let base := dieAddr (dieOf g) ((s.dctx (dieOf g) ctx).dmBase * 16384) + (w.getD 5 0).toNat + (2 * (g % 256) + b - 8) * 65536
  let s := s.modCore g (fun c =>
    { c with residue := c.residue.filter (fun r => !gs.contains r.1),
             leases := (c.leases.map (fun l =>
               let other (j : Nat) : Bool := !gs.contains (l.granules.getD j 0)
               { l with fresh := l.fresh.filter other, restored := l.restored.filter other })).set (bankIdx b)
               { granules := gs, gone := [], restored := [], fresh := [], hback := word (base / 65536 * 65536) },
             ovf := c.ovf.set (writerIdx b) (overflowAt s ctx g) })
  s.setThread (tid g b) { Thread.reset with st := .idle, ctx := ctx }

/-- The slots of a group are given and their records written; they start at the next release. -/
def placeGroup (s : State) (ctx : Nat) (w : List Word) (ps : List Placed) : State :=
  ps.foldl (fun s p =>
    let s := if recHarvest w then seatBank s ctx p.core p.slot w else placeCore s ctx p.core w
    let s := placeRecord s ctx p.core p.slot p.rank (recTotal w) (w.getD 1 0)
    s.modThread (tid p.core p.slot) (fun th => { th with st := .arrived, spovf := spovfAt s ctx p.core p.slot })) s

/-- The class table as the slot controllers take it (spec/04_threads.md R97, spec/02_encoding.md Table 2.11).  Of a table that cannot be
read every class is absent (DESIGN CHOICE, log entry 68). -/
def takeSnapshot (s : State) (ctx : Nat) : State :=
  let b := (s.ctx ctx).classbase
  let bytes := if b.getLsbD 0 then (committedBytes s (eventDie s ctx) ctx (wfld b 10 54 * 1024) 1024).getD [] else []
  let entry (i : Nat) : Word × Nat :=
    (wordOfBytes ((bytes.drop (16 * i)).take 8), wfld (wordOfBytes ((bytes.drop (16 * i + 8)).take 8)) 0 4)
  s.modCtx ctx (fun c => { c with classes := if bytes.isEmpty then [] else (List.range 64).map entry })

/-- A launch without a thread yet. -/
def Job.init (w : List Word) (die rctx recVa order : Nat) (modules : List Nat) : Job :=
  { record := w, die := die, rctx := rctx, recVa := recVa, placed := [], left := [], order := order, phase := .decided,
    ssno := 0, votes := [], quiet := false, abortMask := 0, aborted := false, result := 0, streak := 0, pend := false,
    doomed := false, wbl := [], hostWrites := [], relTime := 0, member := some 0, haltReq := false, stepped := false,
    stuckCy := 0, hangPosted := false, sweeps := 0, sweepSent := 0, sent := 0, received := 0, modules := modules,
    arrived := [], swept := [], reported := false, ampSums := [], complete := [], live := false, secures := false, seals := [],
    ramoRes := [], born := [] }

/-- Whether a module has told that it holds unique state: dp = 0 in its securing word (spec/19_survival.md R451). -/
def holdsUnique (s : State) (ctx m : Nat) : Bool := (s.ctx ctx).secWords.any (fun e => e.1 = m && !e.2.getLsbD 62)

/-- The securing registers at a placement (spec/19_survival.md R451, R457; log entry 24 for live and the own feed id). -/
def placeSecuring (s : State) (ctx : Nat) (j : Job) : State :=
  let w := j.record.getD 11 0
  let en := w.getLsbD 63
  let s := s.modCtx ctx (fun c => { c with secWords := c.secWords.set s.modnum w })
  let unique := (j.modules.filter (holdsUnique s ctx)).length
  let s := s.modCtx ctx (fun c =>
    { c with sv := { c.sv with live := j.modules.length - unique, bst := if en then 4 else 0, bfeed := 0, fails := 0, err := false,
                               recv := false, busy := false, valid := false, now := false, buddy := 0xFFF, home := 0xFFF, asked := wfld w 48 12,
                               firstRel := none, lastSecure := none, lastFail := none, inbox := [], filling := false, fillNo := none } })
  if en then
    s.send (wfld w 48 12) (.feedRequest ctx s.modnum (wfld w 0 20) (wfld w 20 12))
  else s

/-- The capability list of every die after its last complete update (spec/01_wafer.md R31). -/
def capImage (s : State) : Table (List Host.Cell) := (List.range numDies).map (fun d => (d, (s.die d).capLast))

/-- CLASSBASE as the record's field loads it: bits [9:1] read zero (spec/04_threads.md Table 4.7). -/
def classBits (w : Word) : Word := w &&& ~~~0x3FE#64

/-- The context takes up a launch: JOBID, its counter set, CLASSBASE, and nothing armed or pending.  R31 says what a far reader of a
capability list sees from its job's first commit on: until then it sees the last update complete at the placement (DESIGN CHOICE,
log entry 3). -/
def openLaunch (s : State) (ctx : Nat) (j : Job) : State :=
  let set := wfld (j.record.getD 10 0) 0 8
  let s := s.modCtx ctx (fun c =>
    let halts := c.dbgPend && recResume j.record
    let jobid := word (j.root s * 2 ^ 48 + ctx * 2 ^ 32 + (c.serial + 1) % 2 ^ 32)
    let cs := Table.get CounterSet.zero c.sets set
    { c with job := some { j with haltReq := halts, seqDie := sequencerDie s }, capView := capImage s, dbgPend := false, serial := c.serial + 1, jobid := jobid, classbase := classBits (j.record.getD 9 0),
             sets := c.sets.set set { cs with jobid := jobid, charged := true }, ssres := 0, lastCause := 0, run := [],
             armed := none, pendArm := none, pendFree := [], dbgHlt := false, dbgStep := none, dbgNew := none })
  placeSecuring s ctx j

/-- The status word of a record (Table 17.3), which takes no pre-image (R423). -/
def setStatus (s : State) (rctx recVa state code ssno : Nat) : State :=
  landOver s rctx (recVa + 0x70) (bytesOf 8 (state * 2 ^ 60 + code * 2 ^ 52 + ssno % 2 ^ 48))

/-- What follows the placement on every module, before the first release. -/
def placedHere (s : State) (ctx : Nat) : State :=
  armRuns (dropRuns ((takeSnapshot s ctx).modCtx ctx (fun c => { c with placedBy := [] })) ctx) ctx

/-- Modules of a job other than this one that have not yet placed their part. -/
def placingLeft (s : State) (ctx : Nat) (j : Job) : List Nat :=
  (j.living s).filter (fun m => m ≠ s.modnum && !(s.ctx ctx).placedBy.contains m)

/-- The first threads start once every module has placed its part: the root releases (R425).  The class-table snapshot is taken afresh,
at a resume too: an image holds none (DESIGN CHOICE, log entry 68); routers that hold a restored armed table prepare
their runs and ask for leave (spec/14_timetables.md R362, R364). -/
def startPlaced (s : State) (ctx : Nat) : State :=
  match s.job ctx with
  | none => s
  | some j =>
    if !(placingLeft s ctx j).isEmpty then s.modJob ctx (fun j => { j with phase := .placing })
    else
      let s := placedHere s ctx
      let s := s.modJob ctx (fun j => { j with phase := .decided })
      if isRoot s j then releaseJob (tellModules s j (.release ctx)) ctx else s

/-! ## Stored images (R428, R429) -/

/-- A pending or armed table as a doubleword of an image (log entry 25). -/
def armedWord : Option Armed → Word
  | none => 0
  | some a => word (2 ^ 63 + bit a.rep * 2 ^ 62 + bit a.gate * 2 ^ 61 + a.id)

def ofArmedWord (w : Word) : Option Armed :=
  if w.getLsbD 63 then some { id := wfld w 0 16, rep := w.getLsbD 62, gate := w.getLsbD 61 } else none

/-- A loaded table as doublewords: its header, then each entry with its fresh mark. -/
def tableWords (t : TTable) : List Word :=
  word (bit t.enc * 2 ^ 63 + t.kid * 2 ^ 32 + t.entries.length * 2 ^ 16 + t.id) ::
    t.entries.flatMap (fun e => [e.1, wordOfBool e.2])

def readTables : Nat → List Word → List TTable
  | 0, _ => []
  | n + 1, ws =>
    let h := ws.headD 0
    let k := wfld h 16 16
    { id := wfld h 0 16, enc := h.getLsbD 63, kid := wfld h 32 16, fresh := false,
      entries := (List.range k).map (fun i => (ws.getD (1 + 2 * i) 0, (ws.getD (2 + 2 * i) 0).getLsbD 0)) } ::
      readTables n (ws.drop (1 + 2 * k))

def bytesOfWords (ws : List Word) : List Byte := ws.flatMap (fun w => bytesOf 8 w.toNat)
def wordsOfBytes : Nat → List Byte → List Word
  | 0, _ => []
  | n + 1, bs => wordOfBytes (bs.take 8) :: wordsOfBytes n (bs.drop 8)

/-- The header of an image: Table 17.6 offsets 0 and 0x40, and at 0x20 the result word that the release withheld (log entry 25). -/
def imageHead (s : State) (ctx : Nat) (j : Job) (cores : List Nat) : List Word × List Word :=
  let c := s.ctx ctx
  let a := c.amp
  ([word j.ssno, c.ssres, word j.streak, word cores.length, j.result],
   [armedWord c.armed, (match c.pendArm with
      | none => 0
      | some _ => 1), (match c.pendArm with
      | none => 0
      | some p => armedWord p.next)] ++
     [a.qcfg, a.qleaf, a.qmtab] ++ (List.range 8).map (readQmap { a with work := a.front }) ++
     [word a.passC] ++ (List.range 13).map (fun i => word (Table.get 0 a.stampsC i)))

/-- The seated banks of a harvest launch on a core. -/
def banksOf (s : State) (ctx g : Nat) : List Nat :=
  [8, 9].filter (fun b => decide ((s.thread (tid g b)).st ≠ .unheld ∧ (s.thread (tid g b)).ctx = ctx))

/-- Where lease granule `j` of a bank stands: the granule, or its backing once it is reclaimed (spec/16_harvest.md R407). -/
def leaseAt (s : State) (g b j : Nat) : Nat :=
  let l := (s.core g).leases.get (bankIdx b)
  if l.gone.contains j then l.hback.toNat + j * 4096 else localAddr g (l.granules.getD j 0 * 4096)

def padTo (n : Nat) (bs : List Byte) : List Byte := bs.take n ++ List.replicate (n - bs.length) 0

/-- The results that registers of a core's threads receive at the release that a stop withholds (spec/11_supersteps.md R290, R301):
a count, then slot and register with the value, the last result of each. -/
def resultWords (s : State) (ctx g : Nat) : List Word :=
  let all : List (Nat × BitVec 5 × Word) := match s.job ctx with
    | some j => j.ramoRes
    | none => []
  let last := (all.filter (fun r => decide (coreOf r.1 = g))).foldl (fun (acc : List (Nat × BitVec 5 × Word)) r => acc.filter (fun x => !decide (x.1 = r.1 ∧ x.2.1 = r.2.1)) ++ [r]) []
  word last.length :: last.flatMap (fun r => [word (slotOf r.1 * 32 + r.2.1.toNat), r.2.2])

/-- The threads that cross-die SENDs of the last commit start on a core at that release: a count, then 40 doublewords for each:
slot, entry, number of registers, and registers with their values. -/
def bornWords (s : State) (ctx g : Nat) : List Word :=
  let all : List (Nat × Word × List (BitVec 5 × Word)) := match s.job ctx with
    | some j => j.born
    | none => []
  let bs := all.filter (fun b => decide (coreOf b.1 = g))
  word bs.length :: bs.flatMap (fun b =>
    let ws := [word (slotOf b.1), b.2.1, word b.2.2.length] ++ b.2.2.flatMap (fun r => [word r.1.toNat, r.2])
    ws.take 40 ++ List.replicate (40 - ws.length) 0)

/-- What an image holds of a core beside Table 17.6: the results and threads that its release is to deliver (log entry 25). -/
def withDue (s : State) (ctx g : Nat) (bs : List Byte) : List Byte :=
  padTo 0xF000 (padTo 0xE000 bs ++ bytesOfWords (resultWords s ctx g)) ++ bytesOfWords (bornWords s ctx g)

/-- The part of an image that one core fills: 48 KiB of local store, the old gcore, the slot set and the tables.  A
harvester's part holds its lease granules and, at +0xC100, its records (log entry 25). -/
def imageCore (s : State) (ctx g : Nat) : List Byte :=
  let c := s.core g
  withDue s ctx g <|
  if isHarvest s ctx then
    let banks := banksOf s ctx g
    let leases := banks.flatMap (fun b =>
      (List.range (c.leases.get (bankIdx b)).granules.length).flatMap (fun j => s.readN (leaseAt s g b j) 4096))
    padTo localBytes leases ++ padTo 256 (bytesOfWords [word g, word (maskOf banks)]) ++
      banks.flatMap (fun b => s.readN (recordLoc s g b) 256)
  else
    s.readN (localAddr g 0) localBytes ++
      bytesOfWords ([word g, c.slotSet.setWidth 64, word c.tables.length] ++ c.tables.flatMap tableWords)

/-- Writes the image of a stopped launch to its image area. -/
def storeImage (s : State) (ctx : Nat) (j : Job) : State :=
  let a := recImage j.record
  let cores := jobCores s ctx
  let h := imageHead s ctx j cores
  let s := land (land s ctx a (bytesOfWords h.1)) ctx (a + 0x40) (bytesOfWords h.2)
  ((List.range cores.length).map (fun i => (i, cores.getD i 0))).foldl
    (fun s x => land s ctx (a + 0x1000 + x.1 * 65536) (imageCore s ctx x.2)) s

/-- Bytes of an image area as committed, by offset. -/
def areaReader (s : State) (die ctx a : Nat) (o n : Nat) : Option (List Byte) := committedBytes s die ctx (a + o) n

/-- `n` doublewords of an image at an offset; zeros where it cannot be read. -/
def imageWords (rd : Nat → Nat → Option (List Byte)) (o n : Nat) : List Word :=
  match rd o (8 * n) with
  | some bs => wordsOfBytes n bs
  | none => List.replicate n 0

/-- Tables of image core `i`. -/
def imageTables (rd : Nat → Nat → Option (List Byte)) (i : Nat) : List TTable :=
  let at_ := 0x1000 + i * 65536 + 0xC000
  readTables ((imageWords rd (at_ + 16) 1).headD 0).toNat (imageWords rd (at_ + 24) 600)

/-- Whether an image fits a placement: as many cores, the same slot sets, and, if it holds a table, cores shifted by one
common mesh displacement. -/
def imageFits (rd : Nat → Nat → Option (List Byte)) (w : List Word) (ps : List Placed) : Bool :=
  let cores := sortBy (fun x y => decide (x ≤ y)) (dedup (ps.map (fun p => p.core)))
  let want (g : Nat) : Nat :=
    if recHarvest w then maskOf ((ps.filter (fun p => decide (p.core = g))).map (fun p => p.slot)) else 2 ^ recSlots w - 1
  let olds := (List.range cores.length).map (fun i => ((imageWords rd (0x1000 + i * 65536 + 0xC000) 2).headD 0).toNat)
  let sets := (List.range cores.length).map (fun i => (imageWords rd (0x1000 + i * 65536 + 0xC000) 2).getD 1 0)
  let tables := (List.range cores.length).any (fun i => !(imageTables rd i).isEmpty)
  let dx (i : Nat) : Int × Int :=
    ((meshX (cores.getD i 0) : Int) - meshX (olds.getD i 0), (meshY (cores.getD i 0) : Int) - meshY (olds.getD i 0))
  decide (((imageWords rd 24 1).headD 0).toNat = cores.length) &&
    (List.range cores.length).all (fun i => decide ((sets.getD i 0).toNat = want (cores.getD i 0))) &&
    (!tables || recHarvest w || (List.range cores.length).all (fun i => decide (dx i = dx 0)))

/-- The results and threads due at release that part `i` of an image holds for core `g`. -/
def imageDue (rd : Nat → Nat → Option (List Byte)) (i g : Nat) :
    List (Nat × BitVec 5 × Word) × List (Nat × Word × List (BitVec 5 × Word)) :=
  let at_ := 0x1000 + i * 65536
  let rs := imageWords rd (at_ + 0xE000) 512
  let bs := imageWords rd (at_ + 0xF000) 512
  ((List.range (min 248 (rs.headD 0).toNat)).map (fun k =>
     let x := (rs.getD (1 + 2 * k) 0).toNat
     (tid g (x / 32 % 16), BitVec.ofNat 5 x, rs.getD (2 + 2 * k) 0)),
   (List.range (min 8 (bs.headD 0).toNat)).map (fun k =>
     let w := (bs.drop (1 + 40 * k)).take 40
     (tid g ((w.headD 0).toNat % 16), w.getD 1 0,
       (List.range (min 18 (w.getD 2 0).toNat)).map (fun n => (BitVec.ofNat 5 (w.getD (3 + 2 * n) 0).toNat, w.getD (4 + 2 * n) 0)))))

/-- Loads part `i` of an image into core `g` of a launch. -/
def loadCore (rd : Nat → Nat → Option (List Byte)) (ctx i g : Nat) (s : State) : State :=
  let at_ := 0x1000 + i * 65536
  let bs := (rd at_ localBytes).getD (List.replicate localBytes 0)
  let due := imageDue rd i g
  let s := s.modJob ctx (fun j => { j with ramoRes := j.ramoRes ++ due.1, born := j.born ++ due.2 })
  if isHarvest s ctx then
    let js := (banksOf s ctx g).flatMap (fun b =>
      (List.range ((s.core g).leases.get (bankIdx b)).granules.length).map (fun j => (b, j)))
    let s := (List.range js.length).foldl (fun s k =>
      let x := js.getD k (8, 0)
      s.writeN (leaseAt s g x.1 x.2) ((bs.drop (4096 * k)).take 4096)) s
    let banks := banksOf s ctx g
    (List.range banks.length).foldl (fun s k =>
      s.writeN (recordLoc s g (banks.getD k 8))
        ((rd (at_ + 0xC100 + 256 * k) 256).getD (List.replicate 256 0))) s
  else
    let ts := imageTables rd i
    (s.writeN (localAddr g 0) bs).modCore g (fun c => { c with tables := ts })

/-- Loads the parts of an image that belong to some of the launch's cores, all of them in ascending order given. -/
def loadCores (s : State) (rd : Nat → Nat → Option (List Byte)) (ctx : Nat) (cores : List Nat) (now : Nat → Bool) : State :=
  (((List.range cores.length).map (fun i => (i, cores.getD i 0))).filter (fun y => now y.2)).foldl
    (fun s y => loadCore rd ctx y.1 y.2 s) s

/-- QCFG of a resumed image: `own` and `mi` for the new placement, `mi` as the module's rank where that is an index of the state
(spec/15_amplitudes.md R387, R429); a fill keeps the stored index. -/
def resumedQcfg (q : Word) (own rank : Nat) (fill : Bool) : Word :=
  let a : Amp := { Amp.zero with qcfg := q }
  let mi := if !fill && a.valid && decide (rank < 2 ^ a.mbits) then rank else a.mi
  word ((q.toNat / 2 ^ 26) * 2 ^ 26 + mi * 2 ^ 16 + own)

/-- Loads an image into the cores of a launch that are placed now; `kind` is that of its membership entries. -/
def loadImage (s : State) (rd : Nat → Nat → Option (List Byte)) (ctx kind : Nat) (cores : List Nat) (now : Nat → Bool) : State :=
  let h := imageWords rd 0 5
  let x := imageWords rd 0x40 28
  let olds := (List.range cores.length).map (fun i => ((imageWords rd (0x1000 + i * 65536 + 0xC000) 1).headD 0).toNat)
  let s := s.modJob ctx (fun j => { j with ramoRes := [], born := [] })
  let s := loadCores s rd ctx cores now
  let s := s.modJob ctx (fun j => { j with ssno := (h.headD 0).toNat % 2 ^ 48, streak := wfld (h.getD 2 0) 0 2, member := some kind,
                                           result := h.getD 4 0 })
  let own (g : Nat) : Nat := match olds.findIdx? (fun o => o = g) with
    | some i => cores.getD i g
    | none => g
  let rank := ((s.job ctx).bind (fun j => (sortBy (fun x y => decide (x ≤ y)) j.modules).findIdx? (fun m => m = s.modnum))).getD 0
  s.modCtx ctx (fun c =>
    let q := x.getD 3 0
    let b := { Amp.zero with qcfg := q }
    let map := (List.range 64).map (fun k => wfld (x.getD (6 + k / 8) 0) (8 * (k % 8)) 6)
    let st := (List.range 13).foldl (fun t i => Table.set t i (x.getD (15 + i) 0).toNat) []
    let amp :=
      { b with qcfg := resumedQcfg q (own b.own) rank (decide (kind = 2)), qleaf := x.getD 4 0, qmtab := x.getD 5 0,
               work := map, front := map, stamps := st, stampsC := st, pass := (x.getD 14 0).toNat, passC := (x.getD 14 0).toNat }
    { c with ssres := h.getD 1 0, armed := ofArmedWord (x.headD 0), amp := amp,
             pendArm := if x.getD 1 0 = 0 then none
               else some { next := ofArmedWord (x.getD 2 0), fresh := false, key := 0, prior := none } })

end Sys2Proof.Machine
end

