-- ==== Sys2Proof/Machine/Launch.lean ====
section
/-! DEFINITION. The end of a launch, launch queues, gates, the dispatcher and the wicket, and what die-control firmware does
for contexts and dies (spec/17_launch.md R418, R422-R428, spec/16_harvest.md R404, R416, spec/07_local_store.md R187,
spec/08_die_memory.md R208, spec/01_wafer.md R25, R26). -/

namespace Sys2Proof.Machine

open Sys2Proof

/-! ## The end of a launch -/

/-- A granule still leased to a bank that is left: its lines go to the backing area, or are there already, and the owner's version
of them is zero (R412, R416). -/
def leaveGranule (s : State) (g b j : Nat) : Option State :=
  let l := (s.core g).leases.get (bankIdx b)
  let gr := l.granules.getD j 0
  if l.gone.contains j && !l.restored.contains j then some s
  else if granulePending s g gr then none
  else (granuleLines (fun s off => reclaimLine s g b j off (l.gone.contains j) false) gr s).map (fun s =>
    countReclaim (s.modCore g (fun c => { c with residue := c.residue ++ [(gr, false)] })) g)

/-- The bank's granules that were reclaimed in the owner's running superstep read zero afar, and are reclaimed again after its
abort (R408, R413). -/
def leaveResidue (l : Lease) : List (Nat × Bool) :=
  (l.fresh.filter (fun j => !l.restored.contains j)).map (fun j => (l.granules.getD j 0, false))

/-- A bank of a harvest launch is left: every granule still leased is reclaimed (R416); none while one must wait. -/
def unseatBank (s : State) (g b : Nat) : Option State :=
  let l := (s.core g).leases.get (bankIdx b)
  ((List.range l.granules.length).foldl (fun acc j => acc.bind (fun s => leaveGranule s g b j)) (some s)).map (fun s =>
    let s := s.modCore g (fun c =>
      { c with residue := if c.hold.isSome then c.residue ++ leaveResidue l else [],
               leases := c.leases.set (bankIdx b) Lease.none, pool := c.pool.filter (fun p => p.writer ≠ b),
               ovf := c.ovf.set (writerIdx b) Overflow.zero })
    s.setThread (tid g b) Thread.reset)

/-- Every bank of a harvest launch is left, or none. -/
def unseatAll (s : State) (slots : List (Nat × Nat)) : Option State :=
  slots.foldl (fun acc x => acc.bind (fun s => unseatBank s x.1 x.2)) (some s)

/-- A holding launch leaves a core: its slots are taken back and the wipe is due (spec/07_local_store.md R187).  Harvest
launches it lends to are pre-empted. -/
def leaveCore (s : State) (g : Nat) : State :=
  let guests := dedup (([8, 9].filter (fun b => decide ((s.thread (tid g b)).st ≠ .unheld))).map (fun b => (s.thread (tid g b)).ctx))
  let s := guests.foldl requestPre s
  let s := (List.range 8).foldl (fun s k => s.setThread (tid g k) Thread.reset) s
  s.modCore g (fun c =>
    { c with hold := none, left := c.hold, slotSet := 0, spill := 0, lease := 0, wipe := true, pool := c.pool.filter (fun p => p.writer ≠ 0),
             ovf := c.ovf.set 0 Overflow.zero, offer := 0, tables := [], run := none, residue := [] })

/-- Adds to a counter of a bank directly, or merges a running count: saturation sets the companion bit (spec/20_accounting.md
R463). -/
def bankAdd (bank : Table Nat) (sat : Word) (i n : Nat) (full : Bool) : Table Nat × Word :=
  let x := Table.get 0 bank i + n
  (if n = 0 then bank else bank.set i (min x (2 ^ 64 - 1)),
   if 2 ^ 64 ≤ x || full then sat ||| BitVec.ofNat 64 (2 ^ i) else sat)

/-- The counter set a launch charges. -/
def chargedSet (s : State) (ctx : Nat) : Nat := wfld (recDw s ctx 10) 0 8

def State.modSet (s : State) (ctx : Nat) (f : CounterSet → CounterSet) : State :=
  let k := chargedSet s ctx
  s.modCtx ctx (fun c => { c with sets := c.sets.set k (f (Table.get CounterSet.zero c.sets k)) })

/-- Counts that arise during a decision go to the committed bank (R462). -/
def countCommitted (s : State) (ctx i n : Nat) : State :=
  s.modSet ctx (fun x =>
    let r := bankAdd x.comm x.satc i n false
    { x with comm := r.1, satc := r.2 })

/-- Everything of a launch that is under way goes: operations, lines, messages, requests for leave and reservations. -/
def dropWork (s : State) (ctx : Nat) : State :=
  let s := dropRuns s ctx
  let mine := s.engine.filter (fun o => o.ctx = ctx)
  let s := mine.foldl (fun s o => (returnLeave s (dieOf o.core) ctx o.cost o.leave (.op o.op))) s
  let s := (s.ctx ctx).amp.queue.foldl (fun s e => returnAmp s ctx e) s
  let ops := mine.map (fun o => o.op) ++ (s.gets.filter (fun g => g.ctx = ctx)).map (fun g => g.id)
  let s :=
    { s with engine := s.engine.filter (fun o => o.ctx ≠ ctx), gets := s.gets.filter (fun g => g.ctx ≠ ctx),
             starts := s.starts.filter (fun o => o.ctx ≠ ctx), sends := s.sends.filter (fun o => o.msg.ctx ≠ ctx),
             staged := s.staged.filter (fun o => o.ctx ≠ ctx),
             owned := s.owned.filter (fun l => !ops.contains l.op) }
  let s := s.modCtx ctx (fun c =>
    { c with amp := { c.amp with queue := [], queued := false, ran := false, transit := none, peer := none, awaited := 0, sums := [] } })
  (List.range numDies).foldl (fun s d =>
    let s := s.modDie d (fun x => { x with leaveq := x.leaveq.filter (fun r => r.ctx ≠ ctx), used := x.used - (s.dctx d ctx).resv })
    if s.dctx d ctx = DieCtx.zero then s
    else s.modDctx d ctx (fun x => { x with resv := 0, resvUsed := 0, resvFresh := 0 })) s

/-- Messages still held are dropped (spec/04_threads.md R103). -/
def dropHeld (s : State) (ctx : Nat) : State :=
  let n := s.clusters.foldl (fun n e => n + (e.2.held.filter (fun m => m.ctx = ctx)).length) 0
  let s := countCommitted s ctx 42 n
  { s with clusters := s.clusters.map (fun e =>
      (e.1, { e.2 with held := e.2.held.filter (fun m => m.ctx ≠ ctx), heldC := e.2.heldC.filter (fun m => m.ctx ≠ ctx),
                       stealing := e.2.stealing.del ctx })) }

/-- A doubleword of a line, at an offset, less 1. -/
def lessOne (v : BitVec 512) (o : Nat) : BitVec 512 :=
  let w := bytesOf 8 ((wordOfBytes ((List.range 8).map (fun i => byteAt v (o + i)))) - 1).toNat
  (List.range 8).foldl (fun v i => setByteAt v (o + i) (w.getD i 0)) v

/-- The `done` word of a launch falls by 1, unversioned (R426): in the committed image, and in what a running superstep has made
of it. -/
def decrementDone (s : State) (ctx : Nat) (a : Word) : State :=
  let n := a.toNat
  if n = 0 then s
  else match committedBytes s (sequencerDie s) ctx n 8 with
    | none => s
    | some bs =>
      let r := landWord s ctx n (wordOfBytes bs - 1)
      if n < 2 ^ 48 then
        { r with lines := r.lines.map (fun l =>
            if l.ctx = ctx ∧ l.va = lineOf n ∧ l.st = .dirty then
              match s.line l.die ctx l.va with
              | some old => if (old.written >>> (n % 64)) &&& 0xFF#64 = 0 then l else { l with data := lessOne old.data (n % 64) }
              | none => l
            else l) }
      else match plainForm n with
        | .local g o => r.writeWord (localAddr g o) (s.readWord (localAddr g o) - 1)
        | .window d o => if o < 4096 then r else r.writeWord (dieAddr d o) (s.readWord (dieAddr d o) - 1)
        | _ => r

/-- Undo lines of a context go. -/
def freeUndos (s : State) (ctx : Nat) : State :=
  { s with dies := s.dies.map (fun e => (e.1, { e.2 with undos := e.2.undos.filter (fun u => u.ctx ≠ ctx) })) }

/-- What follows the wipes of an ended or stopped launch: `done` falls, the status is written. -/
def finishEnded (s : State) (e : Ended) : State :=
  let s := decrementDone s e.ctx e.done
  match e.status with
  | some (c, a, w) => landOver s c (a + 0x70) (bytesOf 8 w.toNat)
  | none => s

/-- The cores and slots of a launch go back to the dispatcher.  `state` 2 or 4 ends the launch, 6 stops it (R426, R428), 3 withdraws
it with PEER (R425); a harvest launch waits until its banks can be left. -/
def closeLaunch (s : State) (ctx state : Nat) : State :=
  match s.job ctx with
  | none => s
  | some j =>
    let cores := jobCores s ctx
    let harvest := isHarvest s ctx
    match (if harvest then unseatAll s (jobSlots s ctx) else some s) with
    | none => s.modJob ctx (fun j => { j with phase := .stopping, closing := some state })
    | some s =>
    let s := j.hostWrites.foldl (fun s h => land s ctx h.va.toNat h.data) s
    let s := dropHeld (dropWork s ctx) ctx
    let s := freeUndos (if harvest then s else cores.foldl leaveCore s) ctx
    let s := if state = 4 then setStatus s j.rctx j.recVa 4 0 j.ssno else if state = 3 then setStatus s j.rctx j.recVa 3 6 0 else s
    let s := s.modCtx ctx (fun c =>
      { c with job := none, armed := none, pendArm := none, pendFree := [], run := [], dbgHlt := false, dbgStep := none,
               dbgNew := none, dbgPend := decide (state = 6) && j.haltReq, placedBy := [], secWords := [] })
    let s := if isRoot s j && decide (state ≠ 3) then tellModules s j (.stop ctx state) else s
    let e : Ended :=
      { ctx := ctx, cores := if harvest then [] else cores, done := if state = 6 ∨ state = 3 then 0 else j.record.getD 13 0,
        status := if state = 4 ∨ state = 3 then none else some (j.rctx, j.recVa, word (state * 2 ^ 60 + j.ssno % 2 ^ 48)) }
    dispatchEvent (if e.cores.isEmpty then finishEnded s e else s.modDie j.die (fun d => { d with ended := d.ended ++ [e] }))
      (fun _ => true)

/-- Launches of a die whose wipes are all done: `done` falls, and an end under R295 takes state 2, a stop state 6. -/
def settleEnded (s : State) (die : Nat) : State :=
  let wiped (e : Ended) : Bool := e.cores.all (fun g => !(s.core g).wipe)
  let ends := (s.die die).ended.filter wiped
  let s := s.modDie die (fun d => { d with ended := d.ended.filter (fun e => !wiped e) })
  ends.foldl finishEnded s

/-- Zeroes the local store, the shadow pool and the accumulators of a core. -/
def wipeCore (s : State) (g : Nat) : State :=
  let lo := localAddr g 0
  let s := zeroRange s lo localBytes
  let s := { s with ecc := s.ecc.filter (fun m => !decide (lo ≤ m.loc ∧ m.loc < lo + localBytes)) }
  s.modCore g (fun c => { c with pool := [], acc := Vector.replicate 2 Acc.reset, wipe := false, left := none })

/-- LOCAL_STORE_WIPE.  The wipe follows the last harvester of the core, whose granules go to its backing area first (log
entry 26). -/
def execLocalStoreWipe (core : Nat) (s : State) : Result :=
  .next (
    if !(s.core core).wipe || bankSeated s core then s
    else dispatchEvent ((List.range numDies).foldl settleEnded (wipeCore s core)) (fun _ => true))

/-! ## Launch queues (R422, R423) -/

/-- A queue as its descriptor stands in the committed image. -/
structure LQueue where
  q : Nat
  at_ : Nat
  ring : Nat
  rctx : Nat
  cap : Nat
  enabled : Bool
  head : Nat
  tail : Nat

def committedWord (s : State) (die a : Nat) : Word := wordOfBytes ((List.range 8).map (fun i => committedDie s die (a + i)))

/-- Queue `q` of a die by its descriptor, whether or not it may be read; none for a table outside the die's window. -/
def queueDescriptor (s : State) (die q : Nat) : Option LQueue :=
  let b := (s.die die).lqbase
  let a := wfld b 9 55 * 512 + 32 * q
  if !decide (dieAddr die 0 ≤ a ∧ a + 32 ≤ dieAddr die dieBytes) then none
  else
    let w1 := committedWord s die (a + 8)
    let head := wfld (committedWord s die (a + 16)) 0 32
    let tail := wfld (committedWord s die (a + 24)) 0 32
    let cap := 2 ^ wfld w1 32 4
    let n := (tail + 2 ^ 32 - head) % 2 ^ 32
    some { q := q, at_ := a, ring := (committedWord s die a).toNat, rctx := wfld w1 0 16, cap := cap,
           enabled := w1.getLsbD 63, head := head, tail := (head + min n cap) % 2 ^ 32 }

/-- Queue `q` of a die as the dispatcher reads it: none while lqbase.valid is 0. -/
def lqueue (s : State) (die q : Nat) : Option LQueue :=
  if (s.die die).lqbase.getLsbD 0 then queueDescriptor s die q else none

/-- Records between head and tail. -/
def LQueue.length (x : LQueue) : Nat := (x.tail + 2 ^ 32 - x.head) % 2 ^ 32

/-- Address of a record. -/
def LQueue.record (x : LQueue) (i : Nat) : Nat := x.ring + i % x.cap * 256

/-- Records that a committed tail covers join the records seen, in order of visibility, whether or not their queue is read
(R422). -/
def noteTails (s : State) (die : Nat) : State :=
  (List.range 16).foldl (fun s q =>
    match queueDescriptor s die q with
    | none => s
    | some x =>
        let new := ((List.range x.length).map (fun i => (q, (x.head + i) % 2 ^ 32))).filter (fun r => !(s.die die).seen.contains r)
        if new.isEmpty then s else s.modDie die (fun d => { d with seen := d.seen ++ new })) s

/-- The dispatcher's write of a head: no pre-image, never undone. -/
def setHead (s : State) (die : Nat) (x : LQueue) (n : Nat) : State :=
  let h := (x.head + n) % 2 ^ 32
  let s := s.modDie die (fun d => { d with seen := d.seen.filter (fun r =>
    !decide (r.1 = x.q ∧ (r.2 + 2 ^ 32 - x.head) % 2 ^ 32 < n)) })
  land s 0 (x.at_ + 16) (bytesOf 4 h)

/-- The 32 doublewords of a record as committed. -/
def recordAt (s : State) (die : Nat) (x : LQueue) (i : Nat) : Option (List Word) :=
  (committedBytes s die x.rctx (x.record i) 256).map (wordsOfBytes 32)

/-- The record at the head of a queue, once visible. -/
def headRecord (s : State) (die q : Nat) : Option (LQueue × List Word) :=
  (lqueue s die q).bind (fun x =>
    if x.enabled && decide (0 < x.length) && (s.die die).seen.contains (q, x.head) then
      (recordAt s die x x.head).map (fun w => (x, w))
    else none)

/-! ## Gates (R426) -/

/-- Whether a gate record breaks its layout. -/
def badSignalGate (die : Nat) (w : List Word) : Bool :=
  decide (w.headD 0 ≠ 1) || ((w.drop 4).take 10).any (fun x => x ≠ 0) || (w.drop 15).any (fun x => x ≠ 0) ||
    ((w.drop 1).take 3).any (fun a => decide (a ≠ 0) &&
      (decide (a.toNat % 8 ≠ 0) || !decide (dieAddr die 0 ≤ a.toNat ∧ a.toNat + 8 ≤ dieAddr die dieBytes)))

/-- Acts on gates at the head of one queue; tells whether a gate then holds it. -/
def actGates (die q : Nat) : Nat → State → State × Bool
  | 0, s => (s, false)
  | n + 1, s =>
    match headRecord s die q with
    | none => (s, false)
    | some (x, w) =>
      let status (s : State) (i state code : Nat) : State := setStatus s x.rctx (x.record i) state code 0
      if wfld (w.headD 0) 0 2 ≠ 1 then (s, false)
      else if badSignalGate die w then actGates die q n (setHead (status s x.head 3 1) die x 1)
      else
        let vs := (((w.drop 1).take 3).filter (fun a => a ≠ 0)).map (fun a => (committedWord s die a.toNat).toInt)
        if vs.any (fun v => v < 0) then
          let s := (List.range x.length).foldl (fun s i => status s ((x.head + i) % 2 ^ 32) 5 8) s
          (setHead s die x x.length, false)
        else if vs.all (fun v => v = 0) then actGates die q n (setHead (status s x.head 7 0) die x 1)
        else (s, true)

/-- Acts on every gate at a queue head; the queues that gates hold. -/
def allGates (s : State) (die : Nat) : State × List Nat :=
  (List.range 16).foldl (fun (acc : State × List Nat) q =>
    let r := actGates die q (acc.1.die die).seen.length acc.1
    (r.1, if r.2 then acc.2 ++ [q] else acc.2)) (s, [])

/-! ## DispatchStep (R424) -/

/-- Launch heads that may be chosen, with their place in the order of visibility. -/
def launchHeads (s : State) (die : Nat) (held : List Nat) : List (Nat × LQueue × List Word) :=
  (List.range 16).filterMap (fun q =>
    if held.contains q then none
    else match headRecord s die q with
      | none => none
      | some (x, w) =>
        if wfld (w.headD 0) 0 2 ≠ 1 && (s.job (recCtx w)).isNone then
          some (((s.die die).seen.findIdx? (fun r => r = (q, x.head))).getD 0, x, w)
        else none)

/-- The head of the lowest class number, by earliest visibility. -/
def firstHead (hs : List (Nat × LQueue × List Word)) : Option (LQueue × List Word) :=
  ((hs.foldl (fun (best : Option (Nat × LQueue × List Word)) h =>
    match best with
    | none => some h
    | some b => if recPrio h.2.2 * 2 ^ 40 + h.1 < recPrio b.2.2 * 2 ^ 40 + b.1 then some h else some b) none)).map (·.2)

/-- The oldest partially placed launch of the lowest class number on a die. -/
def partialLaunch (s : State) (die : Nat) : Option (Nat × Job) :=
  (s.ctxs.filterMap (fun e => match e.2.job with
    | some j => if j.die = die && !j.left.isEmpty then some (e.1, j) else none
    | none => none)).foldl (fun best x =>
      match best with
      | none => some x
      | some b => if recPrio x.2.record * 2 ^ 40 + x.2.order < recPrio b.2.record * 2 ^ 40 + b.2.order then some x else some b) none

/-- Whether a die's own dispatcher waits for a launch of at least the class of `prio`, which takes nothing there meanwhile. -/
def dieWaits (s : State) (prio home die : Nat) : Bool :=
  if die = home then false
  else match partialLaunch s die with
    | some (_, j) => decide (recPrio j.record ≤ prio)
    | none => match firstHead (launchHeads s die []) with
      | some (_, w) => decide (recPrio w ≤ prio) && (place s w true (fun _ => false)).isNone && !badRecord s w && !badHierarchy w
      | none => false

/-- The first checks of a head at an address: the code it is refused with (R417, R418, R420, R170). -/
def refusal (s : State) (at_ : Nat) (w : List Word) : Option Nat :=
  if badRecord s w || decide (at_ % 256 ≠ 0) then some 1
  else if !(s.ctx (recCtx w)).live || decide (recCtx w = 0) then some 7
  else if badHierarchy w then some 1
  else if (place s w false (fun _ => false)).isNone then some (if recCoresident w then 2 else 4)
  else if layoutFails w then some 3
  else none

/-- Whether launches may be placed in the module's life-cycle state, with its wipe complete (spec/21_host.md R477, Table 21.1). -/
def mayLaunch (s : State) : Bool := decide ((s.life = .manufacture ∨ s.life = .deployed) ∧ s.wipeNs = 0)

/-- This module withdraws a launch: every other module of it will, and is told. -/
def withdraw (s : State) (ctx : Nat) (modules : List Nat) : State :=
  let others := modules.filter (fun m => m ≠ s.modnum)
  let s := s.sendAll others (.withdrawn ctx)
  s.modCtx ctx (fun c => { c with withdrawals := c.withdrawals - others.length, placedBy := [] })

/-- A head is refused, and withdrawn on the other modules it names. -/
def refuseHead (s : State) (die : Nat) (x : LQueue) (w : List Word) (code : Nat) : State :=
  let s := setHead (setStatus s x.rctx (x.record x.head) 3 code 0) die x 1
  withdraw s (recCtx w) (recModules s w)

/-- The cores of a placement, ascending. -/
def placedCores (ps : List Placed) : List Nat := sortBy (fun a b => decide (a ≤ b)) (dedup (ps.map (·.core)))

/-- The dies of a placement. -/
def placedDies (ps : List Placed) : List Nat := dedup (ps.map (fun p => dieOf p.core))

/-- Places a launch whole or its first groups. -/
def placeLaunch (s : State) (die : Nat) (x : LQueue) (w : List Word) (now left : List Placed) : State :=
  let ctx := recCtx w
  let recVa := x.record x.head
  let j := { Job.init w die x.rctx recVa (s.opCount + 1) (recModules s w) with placed := now, left := threadGroups left,
                                                                                          memberDies := placedDies now }
  let s := openLaunch { s with opCount := s.opCount + 1 } ctx j
  let s := placeGroup s ctx w now
  let s := if recResume w then
      loadImage s (areaReader s die ctx (recImage w)) ctx 1 (placedCores (now ++ left)) (fun g => now.any (fun p => p.core = g))
    else s
  let s := setHead (setStatus s x.rctx recVa 1 0 0) die x 1
  startPlaced (tellModules s j (.placed ctx s.modnum (w.getD 11 0))) ctx

/-- The launch chosen among the heads is refused, placed, or waits. -/
def dispatchHead (s : State) (die : Nat) (x : LQueue) (w : List Word) : State :=
  let ctx := recCtx w
  let blocked (d : Nat) : Bool := dieWaits s (recPrio w) die d
  match refusal s (x.record x.head) w with
  | some code => refuseHead s die x w code
  | none =>
    if 0 < (s.ctx ctx).withdrawals then refuseHead s die x w 6
    else match place s w true blocked with
      | some ps =>
        if recResume w && !imageFits (areaReader s die ctx (recImage w)) w ps then refuseHead s die x w 5
        else if recResume w && decide (256 < (s.ctx ctx).mbCount + (placedDies ps).length) then
          refuseHead s die x w 4
        else placeLaunch s die x w ps []
      | none =>
        if recCoresident w || recHarvest w then s
        else
          let fits (g : List Placed) : Bool := g.all (fun p => coreFree s p.core && !blocked (dieOf p.core))
          let all := ((if recResume w then place s w false (fun _ => false) else placePart s w [] fits)).getD []
          let groups := threadGroups all
          let now := (groups.filter fits).flatten
          if now.isEmpty then s
          else if recResume w && !imageFits (areaReader s die ctx (recImage w)) w all then refuseHead s die x w 5
          else if recResume w && decide (256 < (s.ctx ctx).mbCount + (placedDies all).length) then refuseHead s die x w 4
          else placeLaunch s die x w now ((groups.filter (fun g => !fits g)).flatten)

/-- A partially placed launch places the groups that fit, on any units that have fallen free, but for a resumed one, whose image gives
each core its part; they join at its next release, before which the dies that receive them write membership entries
(spec/20_accounting.md R467). -/
def placeMore (s : State) (die ctx : Nat) (j : Job) : State :=
  let fits (g : List Placed) : Bool := g.all (fun p =>
    (s.die (dieOf p.core)).healthy && (coreFree s p.core || decide ((s.core p.core).hold = some ctx)) && !dieWaits s (recPrio j.record) die (dieOf p.core))
  let left := if recResume j.record then j.left
    else match placePart s j.record j.placed fits with
      | some ps => threadGroups (ps.filter (fun p => !j.placed.contains p))
      | none => j.left
  let now := (left.filter fits).flatten
  let s := placeGroup s ctx j.record now
  let s := if recResume j.record then
      loadCores s (areaReader s die ctx (recImage j.record)) ctx (placedCores (j.placed ++ j.left.flatten))
        (fun g => now.any (fun p => p.core = g))
    else s
  s.modJob ctx (fun j =>
    { j with placed := j.placed ++ now, left := left.filter (fun g => !fits g), memberDies := j.memberDies ++ placedDies now,
             member := if now.isEmpty then j.member else j.member.or (some (bit (recResume j.record))) })

/-- One `DispatchStep` of a die. -/
def dispatchStep (s : State) (die : Nat) : State :=
  let (s, held) := allGates s die
  match partialLaunch s die with
  | some (ctx, j) => placeMore s die ctx j
  | none => match firstHead (launchHeads s die held) with
    | some (x, w) => dispatchHead s die x w
    | none => s

/-- Threads placed of a die's launches. -/
def threadsPlaced (s : State) (die : Nat) : Nat :=
  s.ctxs.foldl (fun n e => match e.2.job with
    | some j => if j.die = die then n + j.placed.length else n
    | none => n) 0

/-- DISPATCH_STEP: the dispatcher repeats its step while one gets on, and then waits for an event (R424). -/
def execDispatchStep (die : Nat) (s : State) : Result :=
  .next (
    if !(s.die die).healthy || !mayLaunch s || decide (numDies ≤ die) || !(s.die die).dispatch then s
    else
      let s := noteTails s die
      let r := dispatchStep s die
      if (r.die die).seen = (s.die die).seen ∧ threadsPlaced r die = threadsPlaced s die then
        r.modDie die (fun d => { d with dispatch := false })
      else r)

/-- WICKET_ADMISSION: the first harvest launch in the wicket's order is seated if it can be seated whole, unless the
dispatcher waits for a launch of its class or above (R404, R424). -/
def execWicketAdmission (die : Nat) (s : State) : Result :=
  .next (
    if !(s.die die).healthy || !mayLaunch s || decide (numDies ≤ die) then s
    else
      let heads := launchHeads s die ((List.range 16).filter (fun q => (actGates die q (s.die die).seen.length s).2))
      match firstHead (heads.filter (fun h => recHarvest h.2.2)) with
      | none => s
      | some (x, w) =>
        let ahead := match partialLaunch s die, firstHead heads with
          | some (_, j), _ => decide (recPrio j.record ≤ recPrio w)
          | none, some (y, v) => decide (y.q ≠ x.q ∧ recPrio v ≤ recPrio w) && (place s v true (fun _ => false)).isNone
          | none, none => false
        if ahead then s else dispatchHead s die x w)

/-! ## Contexts and dies (R418, R127, R208, R25) -/

/-- The lowest id in 1-65,535 that no context holds. -/
def freeId (s : State) : Nat → Nat → Nat
  | 0, i => i
  | n + 1, i => if (s.ctx i).live then freeId s n (i + 1) else i

/-- An allotment that firmware may give: it lies in allottable blocks and meets no other (spec/08_die_memory.md R192). -/
def allotmentFree (s : State) (d base size : Nat) : Bool :=
  decide (1 ≤ base ∧ base + size ≤ 8192 - (s.die d).cblk) &&
    s.ctxs.all (fun e =>
      let x := Table.get DieCtx.zero e.2.dies d
      decide (x.dmSize = 0 ∨ base + size ≤ x.dmBase ∨ x.dmBase + x.dmSize ≤ base))

/-- A request for an allotment of `size` blocks on a die: a free contiguous range of that size, which of them being firmware's
choice, a free value; with none the status is DMFULL and nothing is allotted (spec/08_die_memory.md R192; log entry 12). -/
def allotOn (s : State) (d ctx size : Nat) : State :=
  if size = 0 || decide ((s.dctx d ctx).dmSize ≠ 0) then s
  else
    let bases := (List.range 8192).filter (fun b => allotmentFree s d b size)
    let pick := (freeWord s.free).toNat % bases.length
    let s := { s with free := s.free + 1 }
    match bases[pick]? with
    | none => s.modDctx d ctx (fun x => { x with dmFull := true })
    | some b => s.modDctx d ctx (fun x => { x with dmBase := b, dmSize := size, dmFull := false })

/-- The allotments of a new context: the sizes asked for are free values (log entry 12). -/
def allot (s : State) (ctx : Nat) : State :=
  (healthyDies s).foldl (fun s d => allotOn { s with free := s.free + 1 } d ctx (wfld (freeWord s.free) 0 13)) s

/-- CONTEXT_CREATION: the context is bound to the function through which its creation was requested (spec/21_host.md R472). -/
def execContextCreation (die tenant fn : Nat) (s : State) : Result :=
  .next (
    let id := freeId s (s.ctxs.length + 1) 1
    if decide (numDies ≤ die) || !(s.die die).healthy || decide (numContexts ≤ id) then s
    else allot (s.setCtx id { Ctx.reset with live := true, tenant := tenant, fn := fn, bound := some fn }) id)

/-- Firmware reclaims a context's die memory on a die: committed-dirty lines are written back, its lines freed, its blocks
zeroed, and DMAL reads zero. -/
def reclaimDie (s : State) (die ctx : Nat) : State :=
  let s := writeBackAll s (fun l => decide (l.die = die ∧ l.ctx = ctx))
  let s := s.dropLines (fun l => decide (l.die = die ∧ l.ctx = ctx))
  let x := s.dctx die ctx
  let lo := dieAddr die (x.dmBase * 16384)
  let s := if x.dmSize = 0 then s else zeroRange s lo (x.dmSize * 16384)
  let s := { s with ecc := s.ecc.filter (fun m => !decide (lo ≤ m.loc ∧ m.loc < lo + x.dmSize * 16384)) }
  let s := s.modDie die (fun d => { d with undos := d.undos.filter (fun u => u.ctx ≠ ctx) })
  s.modDctx die ctx (fun x => { x with dmBase := 0, dmSize := 0, dmFull := false })

/-- DIE_MEMORY_RECLAIM: while no launch of the context holds slots on the die. -/
def execDieMemoryReclaim (die ctx : Nat) (s : State) : Result :=
  .next (
    if decide (numDies ≤ die ∨ numContexts ≤ ctx) || !(s.ctx ctx).live || (jobDies s ctx).contains die then s
    else reclaimDie s die ctx)

/-- The frames of a context by the inverted tables, as stack and frame: an entry that names a context is a listed one. -/
def framesOf (s : State) (p : Nat → Bool) : List (Nat × Nat) :=
  let at_ := s.mem.filterMap (fun c =>
    let o := c.1 % 2 ^ 36
    if c.1 < 2 ^ 40 && decide (invBase ≤ o ∧ o < invBase + 732165 * 16) then some (c.1 / 2 ^ 36 * 2 ^ 20 + (o - invBase) / 16) else none)
  ((dedup at_).map (fun x => (x / 2 ^ 20, x % 2 ^ 20))).filter (fun x =>
    p (frameCtx s x.1 x.2) && decide (1 ≤ frameKind s x.1 x.2 ∧ frameKind s x.1 x.2 ≤ 4))

/-- Sets the wipe bit of every frame of a context and of its membership frames (spec/10_pages.md R242). -/
def releaseFrames (s : State) (ctx : Nat) : State :=
  let mb := (s.ctx ctx).mbFrame
  let own := framesOf s (fun c => decide (c = ctx)) ++
    (if !(s.ctx ctx).mbGiven then [] else (List.range 4).map (fun i => (wfld mb 36 4, wfld mb 16 20 + i)))
  own.foldl (fun s x => setFrame s x.1 x.2 (frameKind s x.1 x.2) true (frameCtx s x.1 x.2)) s

/-- A context ends: its lines leave every instruction cache, its lines and allotments go, its frames await the wipe engine (R127,
R208).  Translations leave a slice only as spec/10_pages.md R233 says, so by an SFENCE.V of the firmware. -/
def endContext (s : State) (ctx : Nat) : State :=
  let s := { s with cores := s.cores.map (fun e => (e.1, { e.2 with icache := e.2.icache.filter (fun l => l.ctx ≠ ctx) })) }
  let s := (List.range numDies).foldl (fun s d => reclaimDie s d ctx) s
  let s := releaseFrames s ctx
  s.setCtx ctx Ctx.reset

def execContextEnd (ctx : Nat) (s : State) : Result :=
  .next (if !(s.ctx ctx).live || (s.job ctx).isSome || (List.range numDies).any (fun d => (s.die d).ended.any (fun e => e.ctx = ctx)) then s
    else endContext s ctx)

/-- DIE_RETIREMENT: the dispatcher places nothing more on the die and its engines accept no work (R25); a job that runs keeps its
sequencer die until its next decision (R26; log entry 27). -/
def execDieRetirement (die : Nat) (s : State) : Result :=
  .next (
    if decide (numDies ≤ die) || !(s.die die).healthy then s
    else dispatchEvent (s.modDie die (fun d => { d with healthy := false })) (fun _ => true))

end Sys2Proof.Machine
end

