-- ==== Sys2Proof/Machine/Leave.lean ====
section
/-! DEFINITION. Power leave: LEAVE, LEAVE.REL, the governor's grants and thermal emergency (spec/21_host.md R478-R480). -/

namespace Sys2Proof.Machine

open Sys2Proof

/-- Units that the context's LEAVEs still ask for on a die. -/
def leaveWaiting (s : State) (die ctx : Nat) : Nat :=
  ((s.die die).leaveq.filter (fun r => decide (r.ctx = ctx) && (match r.what with
    | .leave .. => true
    | _ => false))).foldl (fun n r => n + r.cost) 0

/-- LEAVE. -/
def leave (d a : BitVec 5) (s : State) : State :=
  s.withG [a] (fun s =>
    let w := s.th.rg a
    let u := wfld w 0 16
    let x := s.dctx s.curDie s.curCtx
    if decide (wfld w 16 48 ≠ 0) || decide (720 < x.resv + leaveWaiting s s.curDie s.curCtx + u) then s.raise 4 w false
    else if u = 0 then (s.putG d (word x.resv)).advance
    else
      let s := askLeave s s.curDie
        { what := .leave s.curCore s.curSlot d, ctx := s.curCtx, prio := prioOf s s.curCtx, cost := u, since := s.cy }
      (s.modTh (fun th => th.emptyG d)).advance)

def execLeave (d a : BitVec 5) (s : State) : Result := .next (leave d a s)

/-- Lowers a reservation by `m` units, from the most recent grants first. -/
def lowerReservation (s : State) (die ctx m : Nat) : State :=
  let s := s.modDctx die ctx (fun x => { x with resv := x.resv - m, resvFresh := x.resvFresh - m })
  s.modDie die (fun d => { d with used := d.used - m })

/-- LEAVE.REL. -/
def execLeaveRel (a : BitVec 5) (s : State) : Result :=
  .next (s.withG [a] (fun s =>
    let x := s.dctx s.curDie s.curCtx
    let m := min (wfld (s.th.rg a) 0 16) (x.resv - x.resvUsed)
    (lowerReservation s s.curDie s.curCtx m).advance))

/-- A granted request takes effect at what asked for it. -/
def grantTo (s : State) (die : Nat) (r : LeaveReq) : State :=
  match r.what with
  | .op n => s.modOp n (fun o => { o with leave := .granted })
  | .amplitude ctx =>
    s.modAmp ctx (fun a => { a with queue := match a.queue with
      | e :: t => { e with leave := e.leave.map (fun l => if l.1 = die then (die, .granted) else l) } :: t
      | [] => [] })
  | .table core => s.modRun core (fun x => { x with leave := .granted })
  | .leave core slot d =>
    let s := s.modDctx die r.ctx (fun x => { x with resv := x.resv + r.cost, resvFresh := x.resvFresh + r.cost })
    s.fillG (tid core slot) d (word (s.dctx die r.ctx).resv)

/-- Whether a request's wait counts in its context's LEAVEW: that of a die-control core's copy counts nowhere
(spec/13_copy.md R348). -/
def leaveCounts (s : State) (r : LeaveReq) : Bool :=
  match r.what with
  | .op n => !s.engine.any (fun o => decide (o.op = n) && isControl o.core)
  | _ => true

/-- LEAVE_GRANT: the head request, when its cost fits the unused budget and no emergency stands. -/
def execLeaveGrant (die : Nat) (s : State) : Result :=
  .next (
    let d := s.die die
    match d.leaveq with
    | [] => s
    | r :: rest =>
      if d.emg || decide (d.budget < d.used + r.cost) then s
      else
        let s := s.modDie die (fun d => { d with leaveq := rest, used := d.used + r.cost })
        grantTo (if leaveCounts s r then s.count r.ctx 37 (s.cy - r.since) else s) die r)

/-- THERMAL_EMERGENCY sets or clears emg. -/
def execThermalEmergency (die : Nat) (on : Bool) (s : State) : Result :=
  .next (if die < numDies then s.modDie die (fun d => { d with emg := on }) else s)

end Sys2Proof.Machine
end

