-- ==== Sys2Proof/Machine/Shutter.lean ====
section
/-! DEFINITION. The shutter: arrival of a module, quiescence sweeps, the decision, `Commit()` and `Rollback()`, release, the
shutter control and pre-emption (spec/11_supersteps.md R272-R301, spec/10_pages.md R236, spec/07_local_store.md R184,
spec/08_die_memory.md R197, R207, spec/19_survival.md R454, R459). -/

namespace Sys2Proof.Machine

open Sys2Proof

/-! ## Votes (R273, Tables 11.4 and 11.5) -/

/-- A binary32 pattern that is a NaN. -/
def nan32 (x : Nat) : Bool := decide (fld x 23 8 = 255 ∧ fld x 0 23 ≠ 0)

/-- Order of binary32 patterns, −0 below +0. -/
def key32 (x : Nat) : Int := if x.testBit 31 then -((x % 2 ^ 31 : Nat) : Int) - 1 else ((x % 2 ^ 31 : Nat) : Int)

/-- The value of a list with the least key. -/
def leastBy (key : Nat → Int) : List Nat → Nat
  | [] => 0
  | x :: rest => rest.foldl (fun best y => if key y < key best then y else best) x

/-- A reduction of Table 11.4 over its operands. -/
def reduction (op : Nat) (vs : List Nat) : Nat :=
  match op with
  | 1 => natOfInt 32 (satInt (vs.foldl (fun n v => n + sextInt 32 v) 0) (-2 ^ 31) (2 ^ 31 - 1))
  | 2 => leastBy (fun v => sextInt 32 v) vs
  | 3 => leastBy (fun v => -sextInt 32 v) vs
  | 4 => vs.foldl Nat.land (2 ^ 32 - 1)
  | 5 => vs.foldl Nat.lor 0
  | 6 => if vs.any nan32 then 0x7FC00000 else leastBy key32 vs
  | _ => if vs.any nan32 then 0x7FC00000 else leastBy (fun v => -key32 v) vs

/-- Whether the X vote passed. -/
def xPassed (votes : List Word) : Bool := !votes.isEmpty && votes.all (fun v => v.getLsbD 45)

/-- The result word of a commit. -/
def resultWord (votes : List Word) (quiet : Bool) : Word :=
  let reds := votes.filter (fun v => wfld v 32 4 ≠ 0)
  let ops := dedup (reds.map (fun v => wfld v 32 4))
  let conflict := decide (1 < ops.length)
  let val := if conflict then 0 else match ops with
    | op :: _ => reduction op (reds.map (fun v => wfld v 0 32))
    | [] => 0
  let ors := (votes.map (fun v => wfld v 36 8)).foldl Nat.lor 0
  word (bit quiet * 2 ^ 43 + bit conflict * 2 ^ 41 + bit (xPassed votes) * 2 ^ 40 + ors * 2 ^ 32 + val)

/-! ## Arrival of a module (R269-R272) -/

/-- Whether a superstep of the launch runs, so that a decision is open. -/
def Job.open_ (j : Job) : Bool := decide (j.phase = .running) || (decide (j.phase = .halted) && j.stepped)

/-- Whether a slot has arrived or counts as arrived (R271). -/
def slotArrived (s : State) (j : Job) (core slot : Nat) : Bool :=
  let th := s.thread (tid core slot)
  let unstepped := decide (j.phase = .halted) && !th.began &&
    (recordValid s core slot || j.born.any (fun b => decide (b.1 = tid core slot)))
  match th.st with
  | .unheld => true
  | .arrived => !unstepped
  | .idle => !unstepped
  | .zeroing => !th.heldRec
  | _ => false

/-- Whether everything of the launch on this module that a commit waits for is over. -/
def localReady (s : State) (ctx : Nat) (j : Job) : Bool :=
  (jobSlots s ctx).all (fun x => slotArrived s j x.1 x.2) &&
    !s.engine.any (fun o => decide (o.ctx = ctx ∧ o.nxt ≠ .staged)) &&
    (isHarvest s ctx || (jobCores s ctx).all (runOver s)) &&
    (s.ctx ctx).amp.queue.isEmpty && decide ((s.ctx ctx).amp.awaited = 0) &&
    !s.gets.any (fun g => g.ctx = ctx) && !s.starts.any (fun o => o.ctx = ctx) && !s.sends.any (fun o => o.msg.ctx = ctx)

/-! ## Quiescence sweeps (R294) -/

/-- The condition of a sweep, apart from its totals. -/
def sweepHolds (s : State) (ctx : Nat) (j : Job) : Bool :=
  (jobDies s ctx).all (fun d => (List.range 32).all (fun c =>
    !(s.cluster (d * 32 + c)).held.any (fun m => m.ctx = ctx) && (match taskQueue s ctx (d * 32 + c) with
      | some q => decide (q.count = 0)
      | none => true))) && decide (j.sent = j.received)

/-- The first sweep after the last arrival is the one that two agreeing sweeps are compared with. -/
def sweep (s : State) (ctx : Nat) : State :=
  match s.job ctx with
  | none => s
  | some j =>
    if !j.open_ then s
    else
      let total := j.sent + j.received
      let n := if !localReady s ctx j || !sweepHolds s ctx j then 0
        else if 0 < j.sweeps ∧ j.sweepSent = total then min 3 (j.sweeps + 1) else 1
      let told := j.reported && decide (n = 3 ∧ j.sweeps < 3)
      let s := s.modJob ctx (fun j => { j with sweeps := n, sweepSent := total })
      if told then tellRoot s j (.arrived ctx s.modnum [] false 0 [] true none) else s

def execQuiescenceSweep (ctx : Nat) (s : State) : Result := .next (sweep s ctx)

/-! ## The merge of paged lines (R236) -/

/-- Copies of the dirty lines of a page address, by die. -/
def dirtyCopies (s : State) (ctx va : Nat) : List CLine :=
  sortBy (fun a b => decide (a.die ≤ b.die)) (s.lines.filter (fun l => decide (l.ctx = ctx ∧ l.va = va ∧ l.st = .dirty)))

/-- A copy's written bytes laid over a line. -/
def overlay (v : BitVec 512) (l : CLine) : BitVec 512 :=
  (List.range 64).foldl (fun v i => if l.written.getLsbD i then setByteAt v i (byteAt l.data i) else v) v

/-- Damage that the written doublewords of copies carry goes with them to the die where the merged line stands. -/
def moveDamage (s : State) (copies : List CLine) (die : Nat) : State :=
  let wrote (m : EccMark) (l : CLine) : Bool := l.hurtBy m && decide ((l.written >>> (m.loc % 64)) &&& 0xFF#64 ≠ 0)
  { s with ecc := s.ecc.map (fun m => if copies.any (wrote m) then { m with die := die } else m) }

/-- One written line: the bytes that each die has written are laid over the committed image in ascending die order, and the merged
value stands committed-dirty on the highest-numbered writing die (spec/09_ordering.md R218). -/
def mergeLine (s : State) (ctx va : Nat) : State :=
  let copies := dirtyCopies s ctx va
  match copies.head?, copies.getLast? with
  | some first, some last =>
    let data := copies.foldl overlay (preLine s first)
    let s := moveDamage s copies last.die
    let s := s.dropLines (fun l => decide (l.ctx = ctx ∧ l.va = va ∧ l.die ≠ last.die ∧ l.st ≠ .pending))
    s.setLine { last with data := data, st := .committedDirty, written := 0, undo := none, undoEcc := .sound }
  | _, _ => s

def mergeLines (s : State) (ctx : Nat) : State :=
  (dedup ((s.lines.filter (fun l => decide (l.ctx = ctx ∧ l.st = .dirty))).map (·.va))).foldl (fun s va => mergeLine s ctx va) s

/-! ## Pre-images at a decision (spec/07_local_store.md R184, spec/08_die_memory.md R197) -/

/-- A writer's entries are free; VOVF returns to its value at placement. -/
def freeWriter (s : State) (ctx : Nat) (x : Nat × Nat) : State :=
  let o := overflowAt s ctx x.1
  s.modCore x.1 (fun c =>
    { c with pool := c.pool.filter (fun p => p.writer ≠ x.2),
             ovf := c.ovf.set (writerIdx x.2) { c.ovf.get (writerIdx x.2) with vovf := o.vovf, base := o.base } })

/-- Leases of the cores of an owner launch. -/
def State.modLeases (s : State) (ctx : Nat) (f : Lease → Lease) : State :=
  { s with cores := s.cores.map (fun e => (e.1, if e.2.hold = some ctx then { e.2 with leases := e.2.leases.map f } else e.2)) }

/-- Granules that banks have left on the cores of an owner launch. -/
def State.modResidue (s : State) (ctx : Nat) (f : List (Nat × Bool) → List (Nat × Bool)) : State :=
  { s with cores := s.cores.map (fun e => (e.1, if e.2.hold = some ctx then { e.2 with residue := f e.2.residue } else e.2)) }

/-- Frees every pre-image of a launch. -/
def freeImages (s : State) (ctx : Nat) : State :=
  let s := freeUndos ((jobWriters s ctx).foldl (fun s x => freeWriter s ctx x) s) ctx
  (s.modLeases ctx (fun l => { l with fresh := [] })).modResidue ctx (fun r => r.filter (·.2))

/-- A line is written back from its pre-image; the damage of its words goes. -/
def restoreLine (s : State) (a : Nat) (v : BitVec 512) : State :=
  let s := s.writeLine a v
  { s with ecc := s.ecc.filter (fun m => lineOf m.loc ≠ a) }

/-- The launch ends with state 4 after its rollback: a pre-image was uncorrectable (spec/18_traps.md R445). -/
def doom (s : State) (ctx die : Nat) : State := (s.countUnc die).modJob ctx (fun j => { j with doomed := true })

/-- A pre-image that a rollback reads: with its line restored, corrected where it can be. -/
def restoreFrom (s : State) (ctx die : Nat) (e : Ecc) (restore : State → State) : State :=
  match e with
  | .sound => restore s
  | .correctable => restore (s.countCor die)
  | .uncorrectable => doom s ctx die

/-- What the check bits of an overflow entry say. -/
def entryEccAt (s : State) (a : Nat) : Ecc :=
  let ms := s.ecc.filter (fun m => !m.hbm && decide (a ≤ m.loc ∧ m.loc < a + 128))
  if ms.any (·.unc) then .uncorrectable else if ms.isEmpty then .sound else .correctable

/-- The pre-images of a writer go back to their lines. -/
def restoreWriter (s : State) (ctx : Nat) (x : Nat × Nat) : State :=
  let die := dieOf x.1
  let back (line : Nat) (v : BitVec 512) (s : State) : State := restoreLine s (localAddr x.1 line) v
  let pool := (s.core x.1).pool.filter (fun p => p.writer = x.2)
  let o := (s.core x.1).ovf.get (writerIdx x.2)
  let at_ := (List.range ((o.vovf.toNat - o.base.toNat) / 128)).map (fun i => o.base.toNat + 128 * i)
  let s1 := pool.foldl (fun s p => restoreFrom s ctx die p.ecc (back p.line p.data)) s
  let s2 := at_.foldl (fun r a =>
    let line := wfld (s.readWord (a + 64)) 0 16
    if line < localBytes then restoreFrom r ctx die (entryEccAt s a) (back line (s.readLine a)) else r) s1
  let s2 := { s2 with ecc := s2.ecc.filter (fun m => !decide (o.base.toNat ≤ m.loc ∧ m.loc < o.vovf.toNat)) }
  freeWriter s2 ctx x

/-- Undo lines go back over their lines; dirty lines are invalidated. -/
def restoreDies (s : State) (ctx : Nat) : State :=
  let undos := s.dies.flatMap (fun e => (e.2.undos.filter (fun u => u.ctx = ctx)).map (fun u => (e.1, u)))
  let s := undos.foldl (fun s u => restoreFrom s ctx u.1 u.2.ecc (fun s => restoreLine s u.2.line u.2.data)) s
  let s := freeUndos s ctx
  let mine (l : CLine) : Bool := decide (l.ctx = ctx ∧ l.st = .dirty)
  let back := s.lines.filter (fun l => mine l && l.undo.isSome)
  back.foldl (fun s l => restoreFrom s ctx l.die l.undoEcc (fun s =>
    { s with lines := s.lines ++
        [{ l with data := l.committed, st := .committedDirty, written := 0, undo := none, undoEcc := .sound }] })) (s.dropLines mine)

/-- What an owner's rollback does to its leases (spec/16_harvest.md R413). -/
def restoreLease (l : Lease) : Lease :=
  { l with restored := l.restored ++ l.fresh.filter (fun j => !l.restored.contains j), fresh := [] }

/-! ## Staged operations (R276, R277, R289, R290) -/

/-- The order of R276 for operations whose target is this module. -/
def StagedOp.key (o : StagedOp) : Nat := ((o.addr * 2 ^ 12 + o.smod) * 2 ^ 13 + o.gcore) * 2 ^ 32 + o.seqno

/-- Staged operations of a launch that this module applies, in order. -/
def stagedHere (s : State) (ctx : Nat) : List StagedOp :=
  sortBy (fun a b => decide (a.key ≤ b.key)) (s.staged.filter (fun o => decide (o.ctx = ctx ∧ o.tmod = s.modnum)))

/-- Bytes from its location on that a staged operation may write. -/
def StagedAct.span : StagedAct → Nat
  | .write bs => bs.length
  | .cells cs => cs.foldl (fun n c => max n (c.1 + 1)) 0
  | .ramo .. => 8
  | .send _ => 0

/-- Granules of this launch's cores that staged and host writes reach. -/
def granulesReached (s : State) (ctx : Nat) : List (Nat × Nat) :=
  let hit (a n : Nat) : List (Nat × Nat) := (partsOf a n).filterMap (fun p =>
    match plainForm p.1 with
    | .local g o => if (s.core g).hold = some ctx then some (g, o / 4096) else none
    | _ => none)
  let staged : List (Nat × Nat) := (stagedHere s ctx).flatMap (fun o => hit o.loc o.act.span)
  let host : List (Nat × Nat) := match s.job ctx with
    | some j => j.hostWrites.flatMap (fun (h : HostWrite) => hit h.va.toNat h.data.length)
    | none => []
  (staged ++ host).foldl (fun acc x => if acc.contains x then acc else acc ++ [x]) []

/-- Reclaims the leased granules that the commit will write (spec/16_harvest.md R408); none while one must wait. -/
def reclaimReached (s : State) (ctx : Nat) : Option State :=
  (granulesReached s ctx).foldl (fun acc x => acc.bind (fun s => reclaim s x.1 x.2)) (some s)

/-- The sequencer die of a job's running superstep (spec/01_wafer.md R26). -/
def jobSequencer (s : State) (ctx : Nat) : Nat := ((s.job ctx).map Job.seqDie).getD (sequencerDie s)

/-- Whether an operation of another module fails its check here (R288); it is checked as a U-mode access (log entry 32). -/
def remoteFails (s : State) (o : StagedOp) : Bool :=
  decide (o.smod ≠ s.modnum) && (partsOf o.addr (max 8 o.act.span)).any (fun p =>
    match checkAccess s (numGcores + jobSequencer s o.ctx) 0 .u o.ctx .write p.1 with
    | .ok _ => false
    | _ => true)

/-- A RAMO's result is recorded for release, here or on the module that issued it. -/
def ramoResult (s : State) (o : StagedOp) (core slot d : Nat) (old : Word) : State :=
  if d = 0 then s
  else if o.smod = s.modnum then
    s.modJob o.ctx (fun j => { j with ramoRes := j.ramoRes ++ [(tid core slot, BitVec.ofNat 5 d, old)] })
  else s.send o.smod (.ramoResult o.ctx core slot d old)

/-- Appends a message task in the committed image. -/
def enqueueCommitted (s : State) (m : Message) (cluster : Nat) : Option State :=
  match taskQueue s m.ctx cluster with
  | none => none
  | some q =>
    if q.cap ≤ q.count then none
    else
      let s := s.writeN (q.slot q.count) ((messageTask s m).flatMap (bytesOf 8))
      some (setQueueWord s q q.head (q.count + 1))

/-- `Deliver` at a commit: a thread it starts belongs to the next superstep (spec/04_threads.md R96, R99). -/
def deliverCommitted (s : State) (m : Message) : State :=
  let e := classEntry s m.ctx m.cls
  let cluster := clusterOf (wfld m.place 0 13)
  let hold := s.modCluster cluster (fun c => { c with held := c.held ++ [m] })
  if badClass e then s.count m.ctx 42 1
  else match findSlot s m.ctx m.place.toNat with
    | some (c, k) => s.modJob m.ctx (fun j =>
        { j with born := j.born ++ [(tid c k, e.1, payloadRegs e.2 m.payload (m.sender.setWidth 64))] })
    | none =>
      if (s.cluster cluster).held.any (fun h => h.ctx = m.ctx) then hold
      else (enqueueCommitted s m cluster).getD hold

/-- Applies one staged operation at its target. -/
def applyStaged (s : State) (o : StagedOp) : State :=
  let failed := remoteFails s o
  let drop := countCommitted s o.ctx 47 1
  match o.act with
  | .write bs => if failed then drop else land s o.ctx o.loc bs
  | .cells cs => if failed then drop else landLine s o.ctx o.loc (cs.map (fun c => (o.loc + c.1, c.2)))
  | .ramo f x cmp core slot d =>
    if failed then ramoResult drop o core slot d 0
    else
      let die := if lookup s o.ctx o.loc |>.any (·.rep) then jobSequencer s o.ctx else dieOf o.gcore
      match committedBytes s die o.ctx o.loc 8 with
      | none => ramoResult drop o core slot d 0
      | some bs =>
        let old := wordOfBytes bs
        let new := if f = 9 then (if old = cmp then x else old) else amoValue f old x
        ramoResult (landWord s o.ctx o.loc new) o core slot d old
  | .send m => deliverCommitted s m

/-! ## Counts at a decision (spec/20_accounting.md R462, R463) -/

/-- Merges the running counts of the module into a bank. -/
def mergeCounts (s : State) (ctx : Nat) (commit : Bool) : State :=
  let run := (s.ctx ctx).run
  let s := run.foldl (fun s e => s.modSet ctx (fun x =>
    let full := decide (e.2 = 2 ^ 64 - 1)
    if commit then
      let r := bankAdd x.comm x.satc e.1 e.2 full
      { x with comm := r.1, satc := r.2 }
    else
      let r := bankAdd x.disc x.satd e.1 e.2 full
      { x with disc := r.1, satd := r.2 })) s
  s.modCtx ctx (fun c => { c with run := [] })

/-! ## Securing (spec/19_survival.md R454) -/

/-- The interval between secures, in µs. -/
def secureInterval (j : Job) (v : Sv) : Nat :=
  max (wfld (j.record.getD 11 0) 32 16 * 1000000) (isqrt (2 * v.c * v.m * 1000) 40 0)

/-- Whether the commit secures: decided by the root. -/
def secureDue (s : State) (ctx : Nat) (j : Job) : Bool :=
  let v := (s.ctx ctx).sv
  (j.record.getD 11 0).getLsbD 63 &&
    (v.now || decide (secureInterval j v * 1000 ≤ s.time - (v.lastSecure.or v.firstRel).getD s.time))

/-- A secure begins at the commit: committed-dirty lines are written back first. -/
def beginSecure (s : State) (ctx : Nat) : State :=
  let s := writeBackAll s (fun l => l.ctx = ctx)
  s.modCtx ctx (fun c => { c with sv := { c.sv with busy := true, now := false, lastSecure := some s.time, began := s.time } })

/-! ## What follows a decision -/

/-- Whether a record of the launch is valid on this module, or a commit has started a thread (R295). -/
def jobAlive (s : State) (ctx : Nat) : Bool :=
  (match s.job ctx with
   | some j => !j.born.isEmpty || !j.left.isEmpty
   | none => false) || (jobSlots s ctx).any (fun x => recordValid s x.1 x.2)

/-- Whether `.next` operations of a launch are still due. -/
def nextLeft (s : State) (ctx : Nat) : Bool := s.engine.any (fun o => decide (o.ctx = ctx ∧ o.nxt = .due))

/-- Whether every other living module has reported its commit or rollback complete. -/
def allComplete (s : State) (j : Job) : Bool := (j.living s).all (fun m => decide (m = s.modnum) || j.complete.contains m)

/-- At the root, once every module is complete, a launch with no valid record ends after a commit (R295). -/
def endIfOver (s : State) (ctx : Nat) : State :=
  match s.job ctx with
  | none => s
  | some j =>
    if !isRoot s j || !allComplete s j || j.aborted || j.live || jobAlive s ctx || decide (j.phase = .running) then s
    else if nextLeft s ctx then s.modJob ctx (fun j => { j with phase := .stopping })
    else closeLaunch s ctx 2

/-- A module other than the root reports its part of a decision complete; a stop waits for `.next` operations (R301). -/
def reportComplete (s : State) (ctx : Nat) : State :=
  match s.job ctx with
  | none => s
  | some j =>
    if isRoot s j || decide (j.phase = .filling) || (decide (j.phase = .stopping) && nextLeft s ctx) then s
    else tellRoot s j (.complete ctx s.modnum (jobAlive s ctx))

/-- Slots and job at a decision: nothing of the superstep stays.  An abort vote raised after a decision to commit, or that has not
reached the root before it, stands: it is cast in the next superstep (R298). -/
def closeSuperstep (s : State) (ctx : Nat) : State :=
  (s.modCtx ctx (fun c => { c with dbgStep := none, dbgNew := none, dbgSt := match c.dbgNew with
    | some x => x.2
    | none => c.dbgSt })).modJob ctx (fun j =>
    { j with votes := [], quiet := false, sweeps := 0, sweepSent := 0, sent := 0, received := 0, arrived := [],
             swept := [], reported := false, ampSums := [], complete := [], live := false, seals := [], stuckCy := 0,
             arms := [], seqDie := sequencerDie s })

/-- Trace records of a decision, one for each die. -/
def traceDecision (s : State) (ctx : Nat) (ab : Bool) (mask : BitVec 8) : State :=
  (jobDies s ctx).foldl (fun s d => s.trace d ctx 3 0 (word (mask.toNat * 65536 + bit ab * 256 + d))) s

/-! ## Commit (R277) -/

/-- Held messages of a launch at a commit. -/
def commitHeld (s : State) (ctx : Nat) : State :=
  { s with clusters := s.clusters.map (fun e =>
      let held := e.2.held.map (fun m => if m.ctx = ctx then { m with fresh := false } else m)
      (e.1, { e.2 with held := held,
                       heldC := e.2.heldC.filter (fun m => m.ctx ≠ ctx) ++ held.filter (fun m => m.ctx = ctx) })) }

/-- Slots at a commit. -/
def commitSlots (s : State) (ctx : Nat) : State :=
  (jobSlots s ctx).foldl (fun s x => s.modThread (tid x.1 x.2) (fun th =>
    { th with startC := if th.heldRec then th.startH else th.startNs, began := false })) s

/-- Results of amplitude sums over the modules, as registers receive them at release (spec/15_amplitudes.md R397). -/
def sumResults (s : State) (ctx : Nat) (sums : List Nat) : List (Nat × BitVec 5 × Word) :=
  let own := (s.ctx ctx).amp.sums
  (own.mapIdx (fun i x => (x.t, x.d, word (sums.getD i x.value)))).filter (fun r => r.2.1 ≠ 0)

/-- Staged operations of this module for failed ones: they are dropped at the commit (R289, spec/19_survival.md R458). -/
def stagedLost (s : State) (ctx : Nat) : List StagedOp :=
  s.staged.filter (fun o => decide (o.ctx = ctx ∧ o.smod = s.modnum ∧ o.tmod ≠ s.modnum) && s.failedModules.contains o.tmod)

/-- The result of a RAMO that is dropped is 0 (R290). -/
def lostResult (o : StagedOp) : Option (Nat × BitVec 5 × Word) :=
  match o.act with
  | .ramo _ _ _ core slot d => if d = 0 then none else some (tid core slot, BitVec.ofNat 5 d, 0)
  | _ => none

/-- `Commit()` on this module under the root's result word and the change of the armed table that stands for the job. -/
def commitJob (s : State) (ctx : Nat) (result : Word) (sums : List Nat) (secures : Bool) (arm : Option (Nat × Option Armed)) :
    State :=
  match s.job ctx with
  | none => s
  | some j =>
    let s := traceDecision s ctx false 0
    let lost := stagedLost s ctx
    let s := s.modJob ctx (fun j =>
      { j with phase := .decided, ramoRes := lost.filterMap lostResult ++ j.ramoNext ++ sumResults s ctx sums, ramoNext := [], born := [] })
    let s := countCommitted (freeImages (mergeLines s ctx) ctx) ctx 47 lost.length
    let s := (stagedHere s ctx).foldl applyStaged s
    let s := { s with staged := s.staged.filter (fun o => o.ctx ≠ ctx) }
    let s := j.hostWrites.foldl (fun s h => land s ctx h.va.toNat h.data) s
    let s := s.modJob ctx (fun j => { j with hostWrites := [] })
    let s := mergeCounts (shutterPass s ctx) ctx true
    let s := countCommitted s ctx 50 1
    let s := s.modSet ctx (fun x => { x with ssTo := (j.ssno + 1) % 2 ^ 48 })
    let x := result.getLsbD 40
    let s := commitTables (if x then takeSnapshot s ctx else s) ctx x arm
    let s := s.modCtx ctx (fun c => { c with ssres := result, capView := capImage s })
    let s := s.modJob ctx (fun j => { j with ssno := (j.ssno + 1) % 2 ^ 48, result := result, streak := 0, aborted := false })
    let s := j.wbl.foldl (fun s w => applyWbl s ctx w) s
    let s := commitAmp (askAll (nextDue (s.modJob ctx (fun j => { j with wbl := [] })) ctx)) ctx
    let s := commitSlots (commitHeld s ctx) ctx
    let s := (List.range numDies).foldl (fun s d =>
      if s.dctx d ctx = DieCtx.zero then s else s.modDctx d ctx (fun x => { x with resvFresh := 0 })) s
    let s := if secures then beginSecure s ctx else s
    let s := dispatchEvent s (fun d => (jobDies s ctx).contains d || decide ((s.dctx d ctx).dmSize ≠ 0))
    (List.range numDies).foldl noteTails
      ((closeSuperstep s ctx).modJob ctx (fun j => { j with secures := secures }))

/-! ## Rollback (R282) -/

/-- Engine operations, GETs and messages of the superstep are discarded; `.next` operations already due continue. -/
def discardWork (s : State) (ctx : Nat) : State :=
  let mine := s.engine.filter (fun o => decide (o.ctx = ctx ∧ o.nxt ≠ .due))
  let s := mine.foldl (fun s o => returnLeave s (dieOf o.core) ctx o.cost o.leave (.op o.op)) s
  let gone := mine.map (·.op)
  let ops := gone ++ (s.gets.filter (fun g => g.ctx = ctx)).map (·.id)
  let s :=
    { s with engine := (s.engine.filter (fun o => !gone.contains o.op)).map (fun o =>
               { o with preds := o.preds.filter (fun p => !gone.contains p) }),
             gets := s.gets.filter (fun g => g.ctx ≠ ctx), starts := s.starts.filter (fun o => o.ctx ≠ ctx),
             sends := s.sends.filter (fun o => o.msg.ctx ≠ ctx), staged := s.staged.filter (fun o => o.ctx ≠ ctx),
             owned := s.owned.filter (fun l => !ops.contains l.op) }
  (List.range numDies).foldl (fun s d =>
    let s := s.modDie d (fun x =>
      { x with leaveq := x.leaveq.filter (fun r => !decide (r.ctx = ctx) || (match r.what with
                 | .leave .. => false
                 | _ => true)),
               prqHeld := x.prqHeld.filter (fun r => r.ctx ≠ ctx) })
    lowerReservation s d ctx (s.dctx d ctx).resvFresh) s

/-- Held messages of a launch at an abort (spec/04_threads.md R103). -/
def abortHeld (s : State) (ctx : Nat) : State :=
  { s with clusters := s.clusters.map (fun e =>
      (e.1, { e.2 with held := e.2.held.filter (fun m => m.ctx ≠ ctx) ++ e.2.heldC.filter (fun m => m.ctx = ctx),
                       stealing := e.2.stealing.del ctx })) }

/-- Slots at an abort: threads vanish, and a slot with a valid record waits for its release. -/
def abortSlots (s : State) (ctx : Nat) : State :=
  (jobSlots s ctx).foldl (fun s x =>
    let th := s.thread (tid x.1 x.2)
    s.setThread (tid x.1 x.2)
      { Thread.reset with st := if recordValid s x.1 x.2 then .arrived else .idle, ctx := ctx, spovf := th.spovf,
                          startNs := th.startC, startC := th.startC }) s

/-- The rollback after the loss of data-parallel members disarms the table and drops pending changes (spec/19_survival.md R459); that
after the loss of unique state leads to a fill (R460). -/
def disarm (s : State) (ctx : Nat) (j : Job) (mask : BitVec 8) : State :=
  if mask.getLsbD 3 && (j.record.getD 11 0).getLsbD 63 && !(s.ctx ctx).sv.recv then
    (dropRuns s ctx).modCtx ctx (fun c => { c with armed := none, pendArm := none })
  else s

/-- `Rollback()` on this module under the root's cause mask: the votes of the superstep end with it. -/
def rollbackJob (s : State) (ctx : Nat) (mask : BitVec 8) : State :=
  match s.job ctx with
  | none => s
  | some j =>
    let s := (traceDecision s ctx true mask).modJob ctx (fun j => { j with abortMask := 0 })
    let s := discardWork s ctx
    let s := (jobWriters s ctx).foldl (fun s x => restoreWriter s ctx x) s
    let s := ((restoreDies s ctx).modLeases ctx restoreLease).modResidue ctx (fun r => r.map (fun x => (x.1, true)))
    let s := abortSlots (abortHeld (abortAmp (abortTables (disarm s ctx j mask) ctx) ctx) ctx) ctx
    let s := countCommitted (mergeCounts s ctx false) ctx 51 1
    let streak := if mask = 0x40 then j.streak else min 3 (j.streak + 1)
    let result := (s.ctx ctx).ssres ||| word (2 ^ 42 + mask.toNat * 2 ^ 48 + streak * 2 ^ 56)
    let s := s.modCtx ctx (fun c => { c with lastCause := mask })
    (closeSuperstep (dispatchEvent s (fun _ => true)) ctx).modJob ctx (fun j =>
      { j with phase := .decided, wbl := [], streak := streak, result := result, aborted := true, secures := false, ramoNext := [] })

/-- Where a launch stands after its decision on this module: doomed, or held, or to be released. -/
def afterDecision (s : State) (ctx : Nat) : State :=
  match s.job ctx with
  | none => s
  | some j =>
    if j.doomed then (if isRoot s j then closeLaunch s ctx 4 else tellRoot s j (.request ctx 5))
    else endIfOver (reportComplete (nextHold s ctx) ctx) ctx

/-! ## The decision (R272) -/

/-- Staged operations for other modules leave with the report (R276).  They keep their lines until the decision (R291). -/
def sendStaged (s : State) (ctx : Nat) : State :=
  let far := s.staged.filter (fun o => decide (o.ctx = ctx ∧ o.smod = s.modnum ∧ o.tmod ≠ s.modnum))
  let msg (o : StagedOp) : LinkMsg := match o.act with
    | .write bs => .write ctx o.addr o.smod o.gcore o.seqno bs
    | .cells cs => .write ctx o.addr o.smod o.gcore o.seqno (cs.map (·.2))
    | .ramo f x cmp core slot d => .ramo ctx o.addr o.smod o.gcore o.seqno f x cmp core slot d
    | .send m => .send ctx o.addr o.smod o.gcore o.seqno m.place m.cls m.payload m.sender
  far.foldl (fun s o => s.send o.tmod (msg o)) s

/-- Whether an Idle slot could still take a task or held message, so that the module has not yet arrived. -/
def taskLeft (s : State) (ctx : Nat) : Bool :=
  (jobSlots s ctx).any (fun x => slotOpen s ctx x.1 x.2 && (
    (queueWait s ctx (clusterOf x.1)).isSome || (match taskQueue s ctx (clusterOf x.1) with
     | some q => (findTask s q (fun t => admits t.place x.1)).isSome
     | none => false) ||
    (s.cluster (clusterOf x.1)).held.any (fun m => decide (m.ctx = ctx) && admits m.place.toNat x.1)))

/-- A module other than the root passes its abort votes on, or reports that every participant has arrived. -/
def reportArrival (s : State) (ctx : Nat) (j : Job) : State :=
  if j.abortMask ≠ 0 then (tellRoot s j (.vote ctx j.abortMask)).modJob ctx (fun j => { j with abortMask := 0 })
  else if j.reported || !localReady s ctx j || taskLeft s ctx then s
  else
    let a := (s.ctx ctx).amp
    let s := tellRoot (sendStaged s ctx) j
      (.arrived ctx s.modnum j.votes j.quiet a.qcfg (a.sums.map (·.value)) (decide (j.sweeps = 3)) (armMsg (freshArm (s.ctx ctx))))
    s.modJob ctx (fun j => { j with reported := true })

/-- The values of R397 that the modules of the state have sent, by module index: those of a module outside it do not count. -/
def sumParts (s : State) (ctx : Nat) (j : Job) : List (Amp × List Nat) :=
  let a := (s.ctx ctx).amp
  ((j.ampSums ++ [(a.qcfg, a.sums.map (·.value))]).map (fun x => ({ Amp.zero with qcfg := x.1 }, x.2))).filter
    (fun x => x.1.valid && !x.2.isEmpty)

/-- The sums of R397, each over the 2^m module values in ascending module index.  The spec states no value for a module that has
none: it is free (DESIGN CHOICE, log entry 12). -/
def rootSums (s : State) (ctx : Nat) (j : Job) : State × List Nat :=
  let parts := sumParts s ctx j
  match parts.head? with
  | none => (s, [])
  | some x =>
    let n := parts.foldl (fun n p => max n p.2.length) 0
    let value (k i : Nat) : Option Nat := (parts.find? (fun p => p.1.mi = i)).bind (fun p => p.2[k]?)
    ({ s with free := s.free + n * 2 ^ x.1.mbits },
     (List.range n).map (fun k => pairSum x.1.fmt x.1.mbits ((List.range (2 ^ x.1.mbits)).map (fun i =>
       (value k i).getD ((freeWord (s.free + k * 2 ^ x.1.mbits + i)).toNat % 2 ^ (if x.1.dbl then 64 else 32))))))

/-- Whether the root may commit. -/
def mayCommit (s : State) (ctx : Nat) (j : Job) : Bool :=
  let others := (j.living s).filter (fun m => m ≠ s.modnum)
  localReady s ctx j && others.all (fun m => j.arrived.contains m) &&
    (!j.quiet || (decide (j.sweeps = 3) && others.all (fun m => j.swept.contains m)))

/-- The root's decision. -/
def decideRoot (s : State) (ctx : Nat) (j : Job) : State :=
  let halts := j.haltReq || (s.ctx ctx).dbgMar || decide (j.phase = .halted)
  let s := s.modJob ctx (fun j => { j with haltReq := halts })
  if j.abortMask ≠ 0 then
    let s := tellModules s j (.decision ctx false 0 j.abortMask [] false j.pend halts none)
    afterDecision (rollbackJob s ctx j.abortMask) ctx
  else if mayCommit s ctx j then
    match reclaimReached s ctx with
    | none => s
    | some s =>
      let result := resultWord j.votes j.quiet
      let (s, sums) := rootSums s ctx j
      let secures := secureDue s ctx j
      let arm := highestArm ((freshArm (s.ctx ctx)).toList ++ j.arms)
      let s := sendStaged s ctx
      let s := tellModules s j (.decision ctx true result 0 sums secures j.pend halts (armMsg arm))
      afterDecision (commitJob s ctx result sums secures arm) ctx
  else s

/-- SHUTTER_DECISION. -/
def execShutterDecision (ctx : Nat) (s : State) : Result :=
  .next (match s.job ctx with
    | none => s
    | some j => if !j.open_ then s else if isRoot s j then decideRoot s ctx j else reportArrival s ctx j)

/-- The root's decision as another module carries it out; that to commit waits while a granule it reaches cannot be reclaimed
(`msgWaits`, spec/16_harvest.md R408). -/
def takeDecision (s : State) (ctx : Nat) (commit : Bool) (result : Word) (mask : BitVec 8) (sums : List Nat)
    (secures stops halts : Bool) (arm : Option (Nat × Option Armed)) : State :=
  match s.job ctx with
  | none => s
  | some _ =>
    let s := s.modJob ctx (fun j => { j with pend := stops, haltReq := halts })
    if commit then
      match reclaimReached s ctx with
      | none => s
      | some s => afterDecision (commitJob s ctx result sums secures arm) ctx
    else afterDecision (rollbackJob s ctx mask) ctx

/-! ## Release (R278) -/

/-- RELEASE: every module complete and nothing withholding it, the root releases the job everywhere. -/
def releaseNow (s : State) (ctx : Nat) : State :=
  match s.job ctx with
  | none => s
  | some j =>
    if j.phase ≠ .decided || !isRoot s j || !allComplete s j then s
    else askAll (releaseJob (tellModules s j (.release ctx)) ctx)

def execRelease (ctx : Nat) (s : State) : Result := .next (releaseNow s ctx)

/-! ## Pre-emption and the shutter control (R283, R284, R299-R301) -/

/-- MAXSS_EXPIRY (R300). -/
def execMaxssExpiry (ctx : Nat) (s : State) : Result :=
  .next (match s.job ctx with
    | none => s
    | some j =>
      let maxss := wfld (j.record.getD 12 0) 0 32
      if isRoot s j && j.pend && decide (maxss ≠ 0 ∧ j.phase = .running ∧ maxss * 1000 < s.time - j.relTime) then s.vote ctx 6
      else s)

/-- PREEMPTION_STOP (R301): without `.next` operations left the launch is stopped and stored, or ends; after a die reset with state 4
(spec/21_host.md R474). -/
def execPreemptionStop (ctx : Nat) (s : State) : Result :=
  .next (match s.job ctx with
    | none => s
    | some j =>
      if j.phase ≠ .stopping then s
      else match j.closing with
      | some state => closeLaunch s ctx state
      | none =>
      if nextLeft s ctx then s
      else if j.doomed then
        (if isRoot s j then closeLaunch s ctx 4
         else if j.reported then s
         else (tellRoot s j (.request ctx 5)).modJob ctx (fun j => { j with reported := true }))
      else if !isRoot s j then (if j.reported then s else (reportComplete s ctx).modJob ctx (fun j => { j with reported := true }))
      else if !allComplete s j then s
      else if !j.aborted && !j.live && !jobAlive s ctx then closeLaunch s ctx 2
      else if recImage j.record ≠ 0 then closeLaunch (storeImage s ctx j) ctx 6
      else closeLaunch s ctx 4)

/-- The root's stop as another module carries it out: a stop with state 6 stores this module's part of the image (R301,
spec/17_launch.md R428); the end of a fill leaves the last fully secured number (spec/19_survival.md R460). -/
def stopHere (s : State) (ctx state : Nat) : State :=
  match s.job ctx with
  | none => s
  | some j =>
    let s := if j.fills (s.ctx ctx) then s.modJob ctx (fun j => { j with ssno := (s.ctx ctx).sv.ssno }) else s
    closeLaunch (if state = 6 then storeImage s ctx j else s) ctx state

/-- What a retry does on a module: the streak is 0 and the release goes on. -/
def retryHere (ctx : Nat) (j : Job) (s : State) : State :=
  if j.phase = .escalated then nextHold (s.modJob ctx (fun j => { j with streak := 0 })) ctx else s

/-- What a debug run does on a module (spec/20_accounting.md R469). -/
def runHere (ctx : Nat) (j : Job) (s : State) : State :=
  if j.phase ≠ .halted then s
  else
    let s := s.modCtx ctx (fun c => { c with dbgHlt := false, dbgStep := none })
    s.modJob ctx (fun j => { j with phase := .decided })

/-- A fill that cannot go on: the launch ends everywhere with state 4 at the last fully secured number; `lost` tells that a module's
image has no living, sealed copy (spec/19_survival.md R460). -/
def failFill (s : State) (ctx : Nat) (lost : Bool) : State :=
  match s.job ctx with
  | none => s
  | some j =>
    let v := (s.ctx ctx).sv
    let s := s.modCtx ctx (fun c =>
      { c with sv := { c.sv with valid := c.sv.valid && !lost, recv := false, filling := false, inbox := [], fillNo := none } })
    let s := s.modJob ctx (fun j => { j with ssno := v.ssno })
    closeLaunch (if isRoot s j then (if lost then tellModules s j (.request ctx 6) else s)
      else tellRoot s j (.request ctx (if lost then 6 else 5))) ctx 4

/-- What a request of each kind does on a module. -/
def requestHere (ctx kind : Nat) (j : Job) (s : State) : State :=
  match kind with
  | 0 => preHere ctx j s
  | 1 => s.modJob ctx (fun j => { j with haltReq := true })
  | 2 => if j.phase = .escalated && isRoot s j then closeLaunch s ctx 4 else s
  | 3 => retryHere ctx j s
  | 4 => runHere ctx j s
  | 5 => if !isRoot s j then s else if j.fills (s.ctx ctx) then failFill s ctx false else closeLaunch s ctx 4
  | 7 => s.modCtx ctx (fun c => { c with dbgMar := false })
  | 8 => s.modCtx ctx (fun c => { c with dbgMar := true })
  | 9 => s.modCtx ctx (fun c => { c with dbgBh := false })
  | 10 => s.modCtx ctx (fun c => { c with dbgBh := true })
  | 11 => if j.phase = .halted then firstStep s ctx j else s
  | _ => failFill s ctx true

/-- A request made on this module. -/
def makeRequest (s : State) (ctx kind : Nat) : State := request s ctx kind (requestHere ctx kind)

/-- A request that arrives from another module: the root acts and tells, the others act. -/
def takeRequest (s : State) (ctx kind : Nat) : State :=
  match s.job ctx with
  | none => s
  | some j => if isRoot s j then makeRequest s ctx kind else requestHere ctx kind j s

def execSsctlVote (die ctx : Nat) (s : State) : Result := .next (if die < numDies then s.vote ctx 7 else s)
def execSsctlKill (ctx : Nat) (s : State) : Result := .next (makeRequest s ctx 2)
def execSsctlRetry (ctx : Nat) (s : State) : Result := .next (makeRequest s ctx 3)
def execSsctlPre (ctx : Nat) (s : State) : Result := .next (makeRequest s ctx 0)

end Sys2Proof.Machine
end

