-- ==== Sys2Proof/Machine/Time.lean ====
section
/-! DEFINITION. The passing of cycles and nanoseconds, and the rule for HANG (spec/00_scope.md R2, spec/20_accounting.md
R465, spec/16_harvest.md R411, spec/18_traps.md R450). -/

namespace Sys2Proof.Machine

open Sys2Proof

/-- Whether a page request of a context on a die is unread or held (spec/10_pages.md R252). -/
def unreadRequests (s : State) (die ctx : Nat) : Bool :=
  (s.die die).prqHeld.any (fun r => r.ctx = ctx) ||
    (prqRing s die ctx).any (fun base => let w := s.readWord base; decide (wfld w 0 7 ≠ wfld w 8 7))

/-- Whether this module's part of a launch is still in this cycle, and then whether a thread is Parked (R450). -/
def partStill (s : State) (ctx : Nat) (j : Job) : Option Bool :=
  let slots := jobSlots s ctx
  let th (x : Nat × Nat) : Thread := s.thread (tid x.1 x.2)
  let still := decide (j.phase = .running) &&
    slots.all (fun x => decide ((th x).st ≠ .ready ∧ (th x).wait ≠ .sleep) && (th x).sb.isEmpty && !vectorReady s x.1 x.2 0) &&
    !s.engine.any (fun o => o.ctx = ctx) && (s.ctx ctx).amp.queue.isEmpty && decide ((s.ctx ctx).amp.awaited = 0) &&
    (isHarvest s ctx || (jobCores s ctx).all (fun g => !routerPending s g ctx)) &&
    !s.gets.any (fun g => g.ctx = ctx) && !s.starts.any (fun o => o.ctx = ctx) && !s.sends.any (fun o => o.msg.ctx = ctx) &&
    s.clusters.all (fun e => !e.2.held.any (fun m => m.ctx = ctx)) &&
    (jobDies s ctx).all (fun d => !unreadRequests s d ctx) &&
    !s.lines.any (fun l => decide (l.ctx = ctx ∧ l.st = .pending)) &&
    !s.dies.any (fun e => e.2.leaveq.any (fun r => r.ctx = ctx))
  if still then some (slots.any (fun x => (th x).st = .parked)) else none

/-- Whether a launch is stuck in this cycle, as its root sees it: every module's part is still, as the others have told, and at
least one thread is Parked (R450; log entry 33). -/
def stuck (s : State) (ctx : Nat) (j : Job) : Bool :=
  let others := (j.living s).filter (fun m => m ≠ s.modnum)
  isRoot s j && others.all (fun m => j.still.any (fun x => x.1 = m)) && (match partStill s ctx j with
    | none => false
    | some p => p || others.any (fun m => j.still.contains (m, true)))

/-- Another module tells whether its part of a launch is still. -/
def noteStill (s : State) (ctx module : Nat) (parked : Option Bool) : State :=
  s.modJob ctx (fun j => { j with still := j.still.filter (fun x => x.1 ≠ module) ++ (parked.map (fun p => (module, p))).toList })

/-- A module other than the root tells it of a change of its part of a launch. -/
def tellStill (s : State) (ctx : Nat) (j : Job) : State :=
  let p := partStill s ctx j
  if isRoot s j || decide (j.toldStill = p) then s
  else (tellRoot s j (.still ctx s.modnum p)).modJob ctx (fun j => { j with toldStill := p })

def tellStills (s : State) : State :=
  s.ctxs.foldl (fun s e => match e.2.job with
    | some j => tellStill s e.1 j
    | none => s) s

/-- `n` cycles and `t` ns pass: TIME advances by 1 each ns, by 2 while it is behind and by 0 while it is ahead, cores without a Ready owner count their idle cycles, and stuck
launches count theirs. -/
def elapse (n t : Nat) (s : State) : State :=
  { s with cy := s.cy + n, time := min (s.time + (t - min t s.timeAhead) + min t s.timeBehind) (2 ^ 64 - 1),
           wipeNs := s.wipeNs - t, timeBehind := s.timeBehind - t, timeAhead := s.timeAhead - t,
           cores := s.cores.map (fun e =>
             (e.1, { e.2 with idleCy := if ownerReady s e.1 then 0 else e.2.idleCy + n })),
           ctxs := s.ctxs.map (fun e => (e.1, { e.2 with job := e.2.job.map (fun j =>
             { j with stuckCy := if stuck s e.1 j then j.stuckCy + n else 0 }) })) }

/-- After another turn than a passing of time: a launch that is not stuck starts its cycles anew, so that those it counts are
consecutive (R450); other modules than the root tell it of their parts. -/
def noteStuck (s : State) : State :=
  let s := tellStills s
  if s.ctxs.all (fun e => e.2.job.all (fun j => j.stuckCy = 0)) then s
  else
    { s with ctxs := s.ctxs.map (fun e => (e.1, { e.2 with job := e.2.job.map (fun j =>
        if j.stuckCy = 0 || stuck s e.1 j then j else { j with stuckCy := 0 }) })) }

/-- TIME_CARRY: the TIME of the lowest-numbered enrolled module arrives (R465). -/
def execTimeCarry (time : BitVec 64) (s : State) : Result :=
  .next { s with timeBehind := time.toNat - s.time, timeAhead := s.time - time.toNat }

/-- HANG: a launch stuck for 10,000 cycles posts the job event, on its root module, once between two releases. -/
def execHang (ctx : Nat) (s : State) : Result :=
  .next (match s.job ctx with
    | none => s
    | some j =>
      if j.hangPosted || decide (j.stuckCy < 10000) || !stuck s ctx j then s
      else (postJobEvent s ctx 13 3).modJob ctx (fun j => { j with hangPosted := true }))

end Sys2Proof.Machine
end

