-- ==== Sys2Proof/Machine/Survival.lean ====
section
/-! DEFINITION. Securing images to a buddy, the failure of a module, and the fill of a spare (spec/19_survival.md
R451-R460). -/

namespace Sys2Proof.Machine

open Sys2Proof

def State.modSv (s : State) (ctx : Nat) (f : Sv → Sv) : State := s.modCtx ctx (fun c => { c with sv := f c.sv })

/-- The securing word of a launch. -/
def secureWord (j : Job) : Word := j.record.getD 11 0
def secureEn (j : Job) : Bool := (secureWord j).getLsbD 63

/-! ## The image (R453) -/

/-- Frames of 64 KiB that `n` bytes fill. -/
def framesFor (n : Nat) : Nat := (n + 65535) / 65536

/-- Bytes cut into frames, the last one padded with zeros. -/
def cutFrames (bs : List Byte) : List (List Byte) :=
  (List.range (framesFor bs.length)).map (fun i => padTo 65536 ((bs.drop (65536 * i)).take 65536))

/-- Frames of kinds 1 to 3 that a context owns, in ascending stack and frame. -/
def ownedFrames (s : State) (ctx : Nat) : List (Nat × Nat) :=
  sortBy (fun a b => decide (a.1 * 2 ^ 20 + a.2 ≤ b.1 * 2 ^ 20 + b.2))
    ((framesOf s (fun c => decide (c = ctx))).filter (fun x => decide (frameKind s x.1 x.2 ≤ 3)))

/-- The content of a stored image (spec/17_launch.md Table 17.6). -/
def storedContent (s : State) (ctx : Nat) (j : Job) : List Byte :=
  let cores := jobCores s ctx
  let h := imageHead s ctx j cores
  padTo 0x1000 (padTo 0x40 (bytesOfWords h.1) ++ bytesOfWords h.2) ++ cores.flatMap (fun g => padTo 65536 (imageCore s ctx g))

/-- Dies with an allotment of a context. -/
def allottedDies (s : State) (ctx : Nat) : List Nat := (List.range numDies).filter (fun d => decide ((s.dctx d ctx).dmSize ≠ 0))

/-- A context's allotments, in ascending die order, as committed. -/
def allotments (s : State) (ctx : Nat) : List Byte :=
  (allottedDies s ctx).flatMap (fun d =>
    let x := s.dctx d ctx
    (List.range (x.dmSize * 16384)).map (fun i => committedDie s d (dieAddr d (x.dmBase * 16384 + i))))

/-- The frames of an image: header, manifest, stored content, allotments and owned frames (log entry 34 for the header's
other fields). -/
def secureImage (s : State) (ctx : Nat) (j : Job) (gen : Nat) (corr : Bool) : List (List Byte) :=
  let own := ownedFrames s ctx
  let manifest := cutFrames (own.flatMap (fun x => bytesOf 4 (x.1 * 2 ^ 20 + x.2)))
  let stored := cutFrames (storedContent s ctx j)
  let dm := cutFrames (allotments s ctx)
  let head := bytesOfWords [word j.ssno, word gen, wordOfBool corr, word own.length, word manifest.length, word stored.length,
    word dm.length, word (0x5EA1000000000000 + gen % 2 ^ 32)]
  [padTo 65536 head] ++ manifest ++ stored ++ dm ++ own.map (fun x => s.readN (x.1 * 2 ^ 36 + x.2 * 65536) 65536)

/-- Frame address of image frame `i` of a side whose first frame is given (R452). -/
def sideFrame (first i : Nat) : Nat := i % 16 * 2 ^ 36 + (first + i / 16) * 65536

/-- First frame of side `side` of a launch's region. -/
def sideFirst (j : Job) (side : Nat) : Nat :=
  let w := secureWord j
  wfld w 0 20 + side * (wfld w 20 12 * 256)

/-! ## SECURE_SEALED (R454, R455) -/

/-- A securing word with another buddy. -/
def withBuddy (w : Word) (b : Nat) : Word := word (w.toNat - wfld w 48 12 * 2 ^ 48 + b % 4096 * 2 ^ 48)

/-- The other modules learn which buddy holds the image that svsec of this module names (R460). -/
def tellHome (s : State) (ctx : Nat) (j : Job) (b : Nat) : State :=
  let w := withBuddy (secureWord j) b
  if (s.ctx ctx).secWords.any (fun e => decide (e.1 = s.modnum ∧ e.2 = w)) then s
  else tellModules (s.modCtx ctx (fun c => { c with secWords := c.secWords.set s.modnum w })) j (.secWord ctx s.modnum w)

/-- A secure closes on a module: with `ok` the registers follow, and where the module has written its image the side toggles. -/
def closeSecure (s : State) (ctx cost : Nat) (ok : Bool) : State :=
  match s.job ctx with
  | none => s
  | some j =>
    let v := (s.ctx ctx).sv
    let wrote := ok && secureEn j && decide (v.bst = 1 ∨ v.bst = 3)
    let s := s.modSv ctx (fun v =>
      let v := { v with busy := false, c := if ok then cost else v.c }
      if wrote then { v with side := 1 - v.side, ssno := j.ssno, valid := v.valid || decide (v.bst = 1), home := v.buddy } else v)
    let s := if wrote then tellHome s ctx j v.buddy else s
    if j.phase = .securing then nextHold (s.modJob ctx (fun j => { j with secures := false, seals := [] })) ctx
    else s.modJob ctx (fun j => { j with secures := false, seals := [] })

/-- This module writes its image, header last, or passes; tells whether the secure may complete. -/
def writeSecure (s : State) (ctx : Nat) (j : Job) : State × Bool :=
  let v := (s.ctx ctx).sv
  if !secureEn j || decide (v.bst = 2 ∨ v.bst = 4) then (s, true)
  else
    let fs := secureImage s ctx j (v.gen + 1) (decide (v.bst = 3))
    if 16 * (wfld (secureWord j) 20 12 * 256) < fs.length then (s.modSv ctx (fun v => { v with err := true }), false)
    else
      let first := sideFirst j (1 - v.side)
      let put (s : State) (i : Nat) : State := s.send v.buddy (.frameWrite (sideFrame first i) (fs.getD i []))
      let s := put ((List.range (fs.length - 1)).foldl (fun s i => put s (i + 1)) s) 0
      (s.modSv ctx (fun v => { v with gen := v.gen + 1 }), true)

/-- A module's report of its seal reaches the root, which closes the secure once all have come. -/
def noteSeal (s : State) (ctx module : Nat) (ok : Bool) : State :=
  match s.job ctx with
  | none => s
  | some j =>
    if j.phase ≠ .securing || !isRoot s j then s
    else if !ok then closeSecure (tellModules s j (.secured ctx 0 false)) ctx 0 false
    else
      let s := s.modJob ctx (fun j => { j with seals := if j.seals.contains module then j.seals else j.seals ++ [module] })
      let seals := j.seals ++ [module]
      if !(j.living s).all (fun m => seals.contains m) then s
      else
        let cost := min ((s.time - (s.ctx ctx).sv.began) / 1000) (2 ^ 28 - 1)
        closeSecure (tellModules s j (.secured ctx cost true)) ctx cost true

/-- SECURE_SEALED: this module's image and seal are written. -/
def execSecureSealed (ctx : Nat) (s : State) : Result :=
  .next (match s.job ctx with
    | none => s
    | some j =>
      if j.phase ≠ .securing || j.seals.contains s.modnum then s
      else
        let (s, ok) := writeSecure s ctx j
        if isRoot s j then noteSeal s ctx s.modnum ok
        else (tellRoot s j (.sealed ctx s.modnum ok)).modJob ctx (fun j => { j with seals := [s.modnum] }))

/-! ## Buddies (R457) -/

/-- The answer of the module asked sets the buddy's feed id and status.  An assignment that is refused, SAME_FEED, leaves the buddy
before it in force. -/
def noteFeed (s : State) (ctx module feed : Nat) (ok : Bool) : State :=
  match s.job ctx with
  | none => s
  | some j =>
    if !secureEn j || decide ((s.ctx ctx).sv.asked ≠ module) then s
    else
      let own := boardFeed.toNat
      let bst := if !ok then 4 else if own = 0xFF ∨ feed = 0xFF then 3 else if own = feed then 2 else 1
      s.modSv ctx (fun v => { v with bfeed := feed, bst := bst, buddy := if bst = 2 then v.buddy else module })

/-- Whether this module's frames can be a region for another module: every frame of kind 4 (R452). -/
def regionOk (s : State) (first nf : Nat) : Bool :=
  decide (0 < nf) && (List.range 16).all (fun k => (List.range (2 * nf * 256)).all (fun i =>
    decide (first + i < 732165 ∧ frameKind s k (first + i) = 4)))

/-- The answer of this module as buddy. -/
def answerFeed (s : State) (ctx smod first nf : Nat) : State :=
  s.send smod (.feed ctx s.modnum boardFeed.toNat (regionOk s first nf))

/-- A new buddy is named; a launch that secures asks it for its feed. -/
def newBuddy (s : State) (ctx b : Nat) : State :=
  match s.job ctx with
  | none => s.modSv ctx (fun v => { v with asked := b, nb := b })
  | some j =>
    let s := s.modSv ctx (fun v => { v with asked := b, nb := b, bfeed := 0, bst := if secureEn j then 4 else 0 })
    if secureEn j then
      s.send b (.feedRequest ctx s.modnum (wfld (secureWord j) 0 20) (wfld (secureWord j) 20 12))
    else s

def execSvctlBw (ctx : Nat) (value : BitVec 64) (s : State) : Result := .next (newBuddy s ctx (wfld value 0 12))

/-- svctl.now asks the root for a secure (R454). -/
def secureNow (s : State) (ctx : Nat) : State :=
  match s.job ctx with
  | none => s.modSv ctx (fun v => { v with now := true })
  | some j => if isRoot s j then s.modSv ctx (fun v => { v with now := true }) else tellRoot s j (.secureNow ctx)

def execSvctlNow (ctx : Nat) (s : State) : Result := .next (secureNow s ctx)

/-! ## Losing a module (R456, R458-R460) -/

/-- The mean time between failures after another one (R456). -/
def nextM (v : Sv) (now : Nat) : Nat := (v.m - v.m / 8 + ((now - (v.lastFail.or v.firstRel).getD now) / 1000000) / 8) % 2 ^ 36

/-- SVRATE, the same on every module: a new value goes to the root, which hands it to the others with the failure count. -/
def shareRate (s : State) (ctx c m fails : Nat) : State :=
  let s := s.modSv ctx (fun v => { v with c := c, m := m, fails := fails })
  match s.job ctx with
  | none => s
  | some j => if isRoot s j then tellModules s j (.svrate ctx c m fails) else tellRoot s j (.svrate ctx c m fails)

/-- SVRATE and the failure count as another module sends them. -/
def takeRate (s : State) (ctx c m fails : Nat) : State :=
  match s.job ctx with
  | none => s
  | some j =>
    if isRoot s j then shareRate s ctx c m (max fails (s.ctx ctx).sv.fails)
    else s.modSv ctx (fun v => { v with c := c, m := m, fails := fails })

/-- The root counts the failure of a module of the job and updates the mean time between failures (R456). -/
def noteFailure (s : State) (ctx : Nat) (j : Job) : State :=
  let v := (s.ctx ctx).sv
  if !secureEn j then s
  else
    let s := if isRoot s j then shareRate s ctx v.c (nextM v s.time) (min (v.fails + 1) 65535) else s
    s.modSv ctx (fun v => { v with lastFail := some s.time })

/-- Whether a fill of a launch reads a module: it holds the image of a survivor or of the module whose unique state is lost. -/
def fillReads (s : State) (ctx : Nat) (j : Job) (module : Nat) : Bool :=
  (s.ctx ctx).secWords.any (fun e => decide (e.1 ∈ j.modules ∧ wfld e.2 48 12 = module) && e.2.getLsbD 63 &&
    (!s.failedModules.contains e.1 || !e.2.getLsbD 62))

/-- A failure of a module as one launch takes it: the vote, unless the abort of this failure has been decided already; what a secure
and a fill make of it; and, where the root has failed after a decision, the report of its completion to the new root. -/
def failJob (s : State) (ctx module : Nat) (j : Job) : State :=
  let v := (s.ctx ctx).sv
  let uses := (j.modules ++ j.spare.toList).contains module
  let s := (if uses then noteFailure s ctx j else s).modJob ctx (fun j => { j with still := [], toldStill := none })
  if j.fills (s.ctx ctx) && (uses || fillReads s ctx j module) then failFill s ctx (fillReads s ctx j module)
  else
    let s := if secureEn j && decide (v.buddy = module) then s.modSv ctx (fun v => { v with bst := 4 }) else s
    let abandon := decide (j.phase = .securing) && (uses || (decide (v.buddy = module) && decide (v.bst ≠ 2 ∧ v.bst ≠ 4)))
    let s := if abandon then
        (if uses || isRoot s j then closeSecure (tellModules s j (.secured ctx 0 false)) ctx 0 false
         else tellRoot s j (.sealed ctx s.modnum false))
      else s
    if !uses then s
    else
      let late := j.aborted && !j.open_ && (s.ctx ctx).lastCause.getLsbD 3
      let s := if late then s else s.vote ctx 3
      let s := if j.open_ || decide (j.phase = .placing) then s else reportComplete s ctx
      if !secureEn j then s
      else
        let dp := !holdsUnique s ctx module
        let s := s.modSv ctx (fun v =>
          { v with live := if dp then v.live - 1 else v.live, recv := v.recv || !dp })
        if late && !dp then s.modJob ctx (fun j => { j with phase := .filling }) else s

/-- MODULE_FAILED: its links have carried nothing for 50 us, in which the launches that use it vote. -/
def execModuleFailed (module : Nat) (s : State) : Result :=
  .next (
    if module = s.modnum || s.failedModules.contains module || decide (s.cy < Table.get 0 s.heard module + 165000) then s
    else
      let s := { s with failedModules := s.failedModules ++ [module] }
      let jobs := s.ctxs.filterMap (fun e => e.2.job.map (fun j => (e.1, j)))
      jobs.foldl (fun s x => failJob s x.1 module x.2) s)

/-! ## SPARE_FILL (R460) -/

/-- What stands in the header of a side whose first frame is given: its generation, where it holds a sealed image of the number. -/
def sealedSide (s : State) (first number : Nat) : Option Nat :=
  let n := wordsOfBytes 8 (s.readN (sideFrame first 0) 64)
  let gen := (n.getD 1 0).toNat
  if n.getD 7 0 = word (0x5EA1000000000000 + gen % 2 ^ 32) ∧ (n.headD 0).toNat = number then some gen else none

/-- Frames of an image as its buddy holds them, for a request: of the side that holds the image of the number, the later one
if both do; without a sealed one the fill ends (R460). -/
def answerFill (s : State) (ctx smod first nf number : Nat) : State :=
  let at_ (side : Nat) : Nat := first + side * (nf * 256)
  let side : Option Nat := match sealedSide s (at_ 0) number, sealedSide s (at_ 1) number with
    | none, none => none
    | some _, none => some 0
    | none, some _ => some 1
    | some a, some b => some (bit (decide (a < b)))
  match side with
  | none => s.send smod (.request ctx 6)
  | some side =>
    let n := wordsOfBytes 8 (s.readN (sideFrame (at_ side) 0) 64)
    let count := 1 + (n.getD 3 0).toNat + (n.getD 4 0).toNat + (n.getD 5 0).toNat + (n.getD 6 0).toNat
    let send (s : State) (i : Nat) : State := s.send smod (.imageFrame ctx side i (s.readN (sideFrame (at_ side) i) 65536))
    if 16 * (nf * 256) < count then s.send smod (.request ctx 6)
    else send ((List.range (count - 1)).foldl (fun s i => send s (i + 1)) s) 0

/-- Bytes [o, o + n) of consecutive frames. -/
def frameBytes (fs : Nat → List Byte) (o n : Nat) : List Byte :=
  ((List.range (framesFor (o % 65536 + n))).flatMap (fun i => fs (o / 65536 + i)) |>.drop (o % 65536)).take n

/-- The context's memory and cores take the image that the inbox holds. -/
def loadSecure (s : State) (ctx : Nat) : State :=
  let box := (s.ctx ctx).sv.inbox
  let frame (i : Nat) : List Byte := Table.get (List.replicate 65536 0) box i
  let h := wordsOfBytes 8 (frame 0)
  let nOwn := (h.getD 3 0).toNat
  let mf := (h.getD 4 0).toNat
  let st := (h.getD 5 0).toNat
  let dm := (h.getD 6 0).toNat
  let s := s.dropLines (fun l => l.ctx = ctx)
  let s := shootDown s true (fun c _ => decide (c = ctx))
  let s := (List.range nOwn).foldl (fun s i =>
    let e := ofBytes (frameBytes (fun k => frame (1 + k)) (4 * i) 4)
    s.writeN (fld e 20 4 * 2 ^ 36 + fld e 0 20 * 65536) (frame (1 + mf + st + dm + i))) s
  let s := ((allottedDies s ctx).foldl (fun (acc : State × Nat) d =>
    let x := s.dctx d ctx
    let n := x.dmSize * 16384
    (acc.1.writeN (dieAddr d (x.dmBase * 16384)) (frameBytes (fun k => frame (1 + mf + st + k)) acc.2 n), acc.2 + n)) (s, 0)).1
  let s := loadImage s (fun o n => some (frameBytes (fun k => frame (1 + mf + k)) o n)) ctx 2
    (sortBy (fun a b => decide (a ≤ b)) (jobCores s ctx)) (fun _ => true)
  let s := s.modJob ctx (fun j => { j with ssno := (h.headD 0).toNat % 2 ^ 48 })
  abortSlots s ctx

/-- Whether every frame of the image has come. -/
def inboxFull (v : Sv) : Bool :=
  match v.inbox.find? (fun e => e.1 = 0) with
  | none => false
  | some e =>
    let h := wordsOfBytes 8 e.2
    decide (1 + (h.getD 3 0).toNat + (h.getD 4 0).toNat + (h.getD 5 0).toNat + (h.getD 6 0).toNat ≤ v.inbox.length)

/-- Whether the image that has come is a correlated one, which a fill uses only with usecorr (R457). -/
def inboxCorr (v : Sv) : Bool :=
  decide ((wordsOfBytes 8 (Table.get (List.replicate 65536 0) v.inbox 0)).getD 2 0 ≠ 0)

/-- The host names a spare in SVCTL (R460). -/
def nameSpare (s : State) (ctx module : Nat) : State := s.modSv ctx (fun v => { v with spare := module })

/-- This module asks the buddy that a securing word names for the image of a number. -/
def askImage (s : State) (ctx : Nat) (w : Word) (number : Nat) : State :=
  (s.send (wfld w 48 12) (.fillRequest ctx s.modnum (wfld w 0 20) (wfld w 20 12) number)).modSv ctx (fun v =>
    { v with filling := true, inbox := [], fillNo := some number })

/-- A fill with the image of a number starts on a surviving module: it asks the buddy that holds its image, unless svsec.valid is 0
or that buddy has failed (R460). -/
def startFill (s : State) (ctx spare number : Nat) : State :=
  match s.job ctx with
  | none => s
  | some j =>
    let v := (s.ctx ctx).sv
    let s := (s.modJob ctx (fun j => { j with spare := some spare, phase := .filling })).modSv ctx (fun v => { v with spare := spare, recv := true })
    if !(v.valid || v.usecorr) then failFill s ctx false
    else if s.failedModules.contains v.home then failFill s ctx true
    else askImage s ctx (withBuddy (secureWord j) v.home) number

/-- The module whose unique state a fill restores, with its securing word. -/
def lostModule (s : State) (ctx : Nat) (j : Job) : Option (Nat × Word) :=
  (s.ctx ctx).secWords.find? (fun e => decide (e.1 ∈ j.modules) && s.failedModules.contains e.1 && !e.2.getLsbD 62)

/-- The root starts a fill, once the host has named a spare: it hands the spare the launch's record with the failed module's securing
word, and tells the others (R460). -/
def beginFill (s : State) (ctx : Nat) (j : Job) : State :=
  let c := s.ctx ctx
  let v := c.sv
  match lostModule s ctx j with
  | none => s
  | some (f, w) =>
    if v.spare = 0xFFF || (j.living s).contains v.spare || s.failedModules.contains v.spare then s
    else if !(v.valid || v.usecorr) then failFill s ctx false
    else
      let s := s.send v.spare
        (.spareFill ctx v.ssno f (j.record.set 11 w) (j.living s) c.secWords c.jobid v.live v.c v.m v.fails)
      startFill (tellModules s j (.fill ctx v.spare v.ssno)) ctx v.spare v.ssno

/-- This module takes up a launch as its spare: it places the failed module's part, and asks for its image (R460).  Where it has no
such context, or no room, the fill ends (DESIGN CHOICE, log entry 57). -/
def takeSpare (s : State) (ctx number failed : Nat) (record : List Word) (modules : List Nat) (words : List (Nat × Word)) (jobid : Word)
    (live c m fails : Nat) : State :=
  let refuse := s.send (modules.foldl min 0xFFFF) (.request ctx 5)
  if !(s.ctx ctx).live || (s.job ctx).isSome || !mayLaunch s then refuse
  else match place { s with modnum := failed } record true (fun _ => false) with
  | none => refuse
  | some ps =>
    let j := { Job.init record 0 0 0 (s.opCount + 1) modules with placed := ps, memberDies := placedDies ps, spare := some s.modnum,
                                                                    phase := .filling }
    let s := placeGroup (openLaunch { s with opCount := s.opCount + 1 } ctx j) ctx record ps
    let s := s.modCtx ctx (fun x =>
      { x with jobid := jobid, secWords := words.foldl (fun t e => Table.set t e.1 e.2) x.secWords,
               sv := { x.sv with live := live, c := c, m := m, fails := fails, recv := true, valid := true, ssno := number, spare := s.modnum } })
    askImage (s.modSet ctx (fun x => { x with jobid := jobid })) ctx (record.getD 11 0) number

/-- The image has come: this module's part of the launch is loaded, and it goes on to the release (R460). -/
def finishFill (s : State) (ctx : Nat) : State :=
  let s := loadSecure s ctx
  let s := s.modCtx ctx (fun c =>
    { c with secWords := match (s.job ctx).bind (fun j => (lostModule s ctx j).map (fun x => (j, x))) with
               | some (j, f, w) => (c.secWords.del f).set (j.spare.getD f) w
               | none => c.secWords,
             sv := { c.sv with recv := false, filling := false, inbox := [], fillNo := none } })
  let s := placedHere s ctx
  let s := s.modJob ctx (fun j =>
    { j with memberDies := jobDies s ctx, streak := 0, aborted := false, live := true })
  reportComplete (nextHold s ctx) ctx

/-- SPARE_FILL: on the root a fill starts once the host has named a spare, of which another module tells the root; each module loads
its image once all its frames have come. -/
def execSpareFill (ctx : Nat) (s : State) : Result :=
  .next (match s.job ctx with
    | none => s
    | some j =>
      let v := (s.ctx ctx).sv
      if j.phase ≠ .filling then s
      else if v.filling then
        if !inboxFull v then s
        else if (!v.usecorr && inboxCorr v) || decide (256 < (s.ctx ctx).mbCount + (jobDies s ctx).length) then failFill s ctx false
        else finishFill s ctx
      else if isRoot s j then beginFill s ctx j
      else if v.spare = 0xFFF || (j.living s).contains v.spare then s
      else tellRoot s j (.spare ctx v.spare))

end Sys2Proof.Machine
end

