-- ==== Sys2Proof/Machine/Debug.lean ====
section
/-! DEFINITION. Debug halts and steps (spec/20_accounting.md R469, R470). -/

namespace Sys2Proof.Machine

open Sys2Proof

/-! ## What a step reports -/

/-- Whether everything a stepped instruction started has drained. -/
def stepDrained (s : State) (t : Nat) (code : BitVec 4) : Bool :=
  let core := coreOf t
  let slot := slotOf t
  let th := s.thread t
  (if code = 4 then decide (th.st = .arrived) || th.heldRec
   else if code = 5 then decide (th.st = .idle ∨ th.st = .zeroing)
   else seqDone th) &&
    !engineBusy s core slot && !th.sb.any (·.far) &&
    !s.gets.any (fun g => decide (g.core = core ∧ g.slot = slot)) &&
    !s.starts.any (fun o => decide (o.byCore = core ∧ o.bySlot = slot)) &&
    !s.sends.any (fun o => decide (o.byCore = core ∧ o.bySlot = slot))

/-- DBGCTL.st: what the last step reports, once it has drained. -/
def shownStep (s : State) (ctx : Nat) : BitVec 4 :=
  let x := s.ctx ctx
  match x.dbgNew with
  | some (t, c) => if stepDrained s t c then c else x.dbgSt
  | none => x.dbgSt

/-- The DBGCTL register (Table 20.9). -/
def readDbgctl (s : State) (ctx : Nat) : Word := dbgctlWord { s.ctx ctx with dbgSt := shownStep s ctx }

/-- Whether a thread has just taken a trap or an upcall. -/
def trapTaken (a b : Thread) : Bool :=
  (b.strap.st && !a.strap.st) || (b.mtrap.st && !a.mtrap.st) || (b.upBusy && !a.upBusy) ||
    (decide (b.st = .stopped) && decide (a.st ≠ .stopped))

/-- What the turn from `a` to `b` made of the one instruction of a stepped thread; none while it has not issued. -/
def stepCode (s0 s1 : State) (t ctx : Nat) : Option (BitVec 4) :=
  let a := s0.thread t
  let b := s1.thread t
  let issued := decide (Table.get 0 (s0.ctx ctx).run 32 ≠ Table.get 0 (s1.ctx ctx).run 32) || decide (a.pc ≠ b.pc)
  if trapTaken a b then some 3
  else match b.st with
    | .parked => match b.wait with
      | .exitDrain => some 5
      | .arrivalDrain => some 4
      | _ => some 2
    | .arrived => some 4
    | _ => if issued then some 1 else none

/-- A step's instruction has issued: the thread stops again and the step is traced. -/
def endStep (s : State) (t ctx : Nat) (code : BitVec 4) : State :=
  let s := s.modThread t (fun th => if th.st = .ready then { th with st := .halted } else th)
  let s := s.modCtx ctx (fun c => { c with dbgStep := none, dbgNew := some (t, code) })
  s.trace (dieOf (coreOf t)) ctx 10 (identity s (coreOf t) (slotOf t)) (readDbgctl s ctx)

/-- What follows an issue turn of a slot: the end of a debug step. -/
def finishIssue (core slot : Nat) (s0 s1 : State) : State :=
  let t := tid core slot
  let ctx := (s0.thread t).ctx
  if (s0.ctx ctx).dbgStep = some t then
    match stepCode s0 s1 t ctx with
    | some code => endStep s1 t ctx code
    | none => s1
  else s1

/-- What follows a vector turn of a slot: a stepped vector instruction that traps is reported as trapped. -/
def finishVector (core slot : Nat) (s0 s1 : State) : State :=
  let t := tid core slot
  let ctx := (s0.thread t).ctx
  match (s0.ctx ctx).dbgNew with
  | some (t', _) =>
    if decide (t' = t) && trapTaken (s0.thread t) (s1.thread t) then
      s1.modCtx ctx (fun c => { c with dbgNew := some (t, 3) })
    else s1
  | none => s1

/-! ## Steps (R470) -/

/-- The thread of a job on this module that an identity word names. -/
def threadOf (s : State) (ctx w : Nat) : Option Nat :=
  let g := fld w 4 13
  let k := fld w 0 4
  let th := s.thread (tid g k)
  if fld w 17 12 = s.modnum % 4096 ∧ fld w 29 3 = 0 ∧ g < numGcores ∧ k < slotsPerCore ∧ th.st ≠ .unheld ∧ th.ctx = ctx then
    some (tid g k)
  else none

/-- The thread that DBGSEL names: a slot of the job on this module. -/
def selected (s : State) (ctx : Nat) : Option Nat := threadOf s ctx (s.ctx ctx).dbgsel.toNat

/-- The other living module of a job whose thread DBGSEL names. -/
def selectedModule (s : State) (ctx : Nat) (j : Job) : Option Nat :=
  let w := (s.ctx ctx).dbgsel.toNat
  if fld w 29 3 = 0 then ((j.living s).filter (fun m => m ≠ s.modnum)).find? (fun m => fld w 17 12 = m % 4096) else none

/-- A thread that has not resumed since the decision starts as at a release (R278). -/
def beginStepped (s : State) (ctx t : Nat) (j : Job) : State :=
  let th := s.thread t
  if th.began then s
  else match j.born.find? (fun b => decide (b.1 = t)) with
    | some b => if th.st = .idle then startThread s (coreOf t) (slotOf t) ctx b.2.1 b.2.2 else s
    | none => startRecord s ctx (coreOf t) (slotOf t)

/-- A step: the selected thread may issue one instruction.  A thread already parked is reported so. -/
def step1 (s : State) (ctx t : Nat) (j : Job) : State :=
  let s := s.modCtx ctx (fun c => { c with dbgSt := shownStep s ctx, dbgNew := none })
  let s := firstStep s ctx j
  let allowed := s.modCtx ctx (fun c => { c with dbgStep := some t })
  let s := beginStepped allowed ctx t j
  let s := if (s.thread t).st = .halted then s.ready t else s
  let th := s.thread t
  if th.st = .ready ∨ (th.st = .parked ∧ th.trapsPend) then s
  else
    s.modCtx ctx (fun c => { c with dbgStep := none, dbgSt := if th.st = .parked then 2 else 0 })

/-- A step of a thread here; the first of a superstep is one for the whole job. -/
def stepHere (s : State) (ctx t : Nat) (j : Job) : State :=
  step1 (if j.stepped then s else request s ctx 11 (fun _ s => s)) ctx t j

/-- DBGCTL.step: ignored while hlt = 0, and while an earlier step has still to issue; a thread of another module of the job is
stepped there (log entry 35). -/
def debugStep (s : State) (ctx : Nat) : State :=
  match s.job ctx with
  | none => s
  | some j =>
    if j.phase ≠ .halted || (s.ctx ctx).dbgStep.isSome then s
    else match selected s ctx with
      | some t => stepHere s ctx t j
      | none =>
        let s := s.modCtx ctx (fun c => { c with dbgSt := 0, dbgNew := none })
        match selectedModule s ctx j with
        | some m => s.send m (.debugStep ctx (s.ctx ctx).dbgsel s.modnum)
        | none => s

/-- Another module asks for the step of a thread here; one that this module cannot step reports 0. -/
def stepFor (s : State) (ctx : Nat) (id : BitVec 32) (asker : Nat) : State :=
  match s.job ctx with
  | none => s.send asker (.stepReport ctx 0)
  | some j =>
    if j.phase ≠ .halted || (s.ctx ctx).dbgStep.isSome then s
    else match threadOf s ctx id.toNat with
      | some t => (stepHere s ctx t j).modCtx ctx (fun c => { c with dbgAsk := some asker })
      | none => s.send asker (.stepReport ctx 0)

/-- What a step made for another module reports, once it has drained. -/
def noteSteps (s : State) : State :=
  s.ctxs.foldl (fun s e => match e.2.dbgAsk with
    | none => s
    | some m =>
      let c := s.ctx e.1
      if c.dbgStep.isSome || c.dbgNew.any (fun x => !stepDrained s x.1 x.2) then s
      else (s.send m (.stepReport e.1 (shownStep s e.1))).modCtx e.1 (fun c => { c with dbgAsk := none })) s

def execDbgctlHalt (ctx : Nat) (s : State) : Result := .next (makeRequest s ctx 1)
def execDbgctlRun (ctx : Nat) (s : State) : Result := .next (makeRequest s ctx 4)
def execDbgctlStep (ctx : Nat) (s : State) : Result := .next (debugStep s ctx)

/-- A write of DBGCTL: bh and mar, which hold for the whole job, then halt, run and step. -/
def writeDbgctl (s : State) (ctx : Nat) (w : Nat) : State :=
  let s := s.modCtx ctx (fun c => { c with dbgBh := w.testBit 4, dbgMar := w.testBit 3 })
  let s := makeRequest (makeRequest s ctx (9 + bit (w.testBit 4))) ctx (7 + bit (w.testBit 3))
  let s := if w.testBit 0 then makeRequest s ctx 1 else s
  let s := if w.testBit 1 then makeRequest s ctx 4 else s
  if w.testBit 2 then debugStep s ctx else s

end Sys2Proof.Machine
end

