-- ==== Sys2Proof/Machine/Alu.lean ====
section
/-! DEFINITION. Scalar arithmetic, multiply and divide, bit manipulation, branches, and scalar loads and stores
(spec/05_issue.md R128-R139, spec/07_local_store.md R174, R175). -/

namespace Sys2Proof.Machine

open Sys2Proof

/-- Shift amount: the low six bits (R129). -/
def shamt (w : Word) : Nat := wfld w 0 6

def sltW (a b : Word) : Word := wordOfBool (a.slt b)
def sltuW (a b : Word) : Word := wordOfBool (a.ult b)

/-! ## ALU register (R129, Table 5.3) -/

def execAdd (d a b : BitVec 5) (s : State) : Result := .next (binary (· + ·) d a b s)
def execSub (d a b : BitVec 5) (s : State) : Result := .next (binary (· - ·) d a b s)
def execAnd (d a b : BitVec 5) (s : State) : Result := .next (binary (· &&& ·) d a b s)
def execOr (d a b : BitVec 5) (s : State) : Result := .next (binary (· ||| ·) d a b s)
def execXor (d a b : BitVec 5) (s : State) : Result := .next (binary (· ^^^ ·) d a b s)
def execSll (d a b : BitVec 5) (s : State) : Result := .next (binary (fun x y => x <<< shamt y) d a b s)
def execSrl (d a b : BitVec 5) (s : State) : Result := .next (binary (fun x y => x >>> shamt y) d a b s)
def execSra (d a b : BitVec 5) (s : State) : Result := .next (binary (fun x y => x.sshiftRight (shamt y)) d a b s)
def execSlt (d a b : BitVec 5) (s : State) : Result := .next (binary sltW d a b s)
def execSltu (d a b : BitVec 5) (s : State) : Result := .next (binary sltuW d a b s)
def execAndn (d a b : BitVec 5) (s : State) : Result := .next (binary (fun x y => x &&& ~~~y) d a b s)
def execOrn (d a b : BitVec 5) (s : State) : Result := .next (binary (fun x y => x ||| ~~~y) d a b s)

/-! ## ALU immediate (R130, Table 5.4) -/

def execAddi (d a : BitVec 5) (imm : Word) (s : State) : Result := .next (unary (· + imm) d a s)
def execSlti (d a : BitVec 5) (imm : Word) (s : State) : Result := .next (unary (fun x => sltW x imm) d a s)
def execSltiu (d a : BitVec 5) (imm : Word) (s : State) : Result := .next (unary (fun x => sltuW x imm) d a s)
def execAndi (d a : BitVec 5) (imm : Word) (s : State) : Result := .next (unary (· &&& imm) d a s)
def execOri (d a : BitVec 5) (imm : Word) (s : State) : Result := .next (unary (· ||| imm) d a s)
def execXori (d a : BitVec 5) (imm : Word) (s : State) : Result := .next (unary (· ^^^ imm) d a s)
def execSlli (d a : BitVec 5) (sh : BitVec 6) (s : State) : Result := .next (unary (· <<< sh.toNat) d a s)
def execSrli (d a : BitVec 5) (sh : BitVec 6) (s : State) : Result := .next (unary (· >>> sh.toNat) d a s)
def execSrai (d a : BitVec 5) (sh : BitVec 6) (s : State) : Result :=
  .next (unary (fun x => x.sshiftRight sh.toNat) d a s)

/-! ## Upper immediates (R131) -/

def execLih (d : BitVec 5) (imm : Word) (s : State) : Result := .next (s.putG d (imm <<< 11)).advance
def execPch (d : BitVec 5) (imm : Word) (s : State) : Result := .next (s.putG d (s.th.pc + imm <<< 11)).advance

/-! ## Multiply and divide (R132) -/

/-- Bits [127:64] of an exact product. -/
def highWord (p : Int) : Word := BitVec.ofInt 64 (p / 2 ^ 64)

/-- Quotient and remainder of the signed divide, rounding toward zero. -/
def sdivrem (a b : Word) : Word × Word :=
  let x := a.toInt
  let y := b.toInt
  if y = 0 then (BitVec.ofInt 64 (-1), a)
  else if x = -2 ^ 63 ∧ y = -1 then (a, 0)
  else
    let m : Int := (x.natAbs / y.natAbs : Nat)
    let q := if decide (x < 0) = decide (y < 0) then m else -m
    (BitVec.ofInt 64 q, BitVec.ofInt 64 (x - q * y))

/-- Quotient and remainder of the unsigned divide. -/
def udivrem (a b : Word) : Word × Word :=
  if b = 0 then (BitVec.allOnes 64, a) else (word (a.toNat / b.toNat), word (a.toNat % b.toNat))

def execMul (d a b : BitVec 5) (s : State) : Result := .next (binary (· * ·) d a b s)
def execMulh (d a b : BitVec 5) (s : State) : Result :=
  .next (binary (fun x y => highWord (x.toInt * y.toInt)) d a b s)
def execMulhu (d a b : BitVec 5) (s : State) : Result :=
  .next (binary (fun x y => highWord ((x.toNat : Int) * (y.toNat : Int))) d a b s)
def execMulhsu (d a b : BitVec 5) (s : State) : Result :=
  .next (binary (fun x y => highWord (x.toInt * (y.toNat : Int))) d a b s)
def execDiv (d a b : BitVec 5) (s : State) : Result := .next (binary (fun x y => (sdivrem x y).1) d a b s)
def execDivu (d a b : BitVec 5) (s : State) : Result := .next (binary (fun x y => (udivrem x y).1) d a b s)
def execRem (d a b : BitVec 5) (s : State) : Result := .next (binary (fun x y => (sdivrem x y).2) d a b s)
def execRemu (d a b : BitVec 5) (s : State) : Result := .next (binary (fun x y => (udivrem x y).2) d a b s)

/-! ## Bit manipulation (R133) -/

/-- Zero bits above the highest 1 among bits [n-1:0]. -/
def clzFrom (x : Nat) : Nat → Nat
  | 0 => 0
  | n + 1 => if x.testBit n then 0 else 1 + clzFrom x n

/-- Zero bits below the lowest 1, looking at `n` bits. -/
def ctzFrom : Nat → Nat → Nat
  | _, 0 => 0
  | x, n + 1 => if x % 2 = 1 then 0 else 1 + ctzFrom (x / 2) n

/-- Bits in reverse order, `n` of them. -/
def brevFrom : Nat → Nat → Nat → Nat
  | _, acc, 0 => acc
  | x, acc, n + 1 => brevFrom (x / 2) (2 * acc + x % 2) n

/-- BEXT: gathers the bits of `x` where `m` has 1, from bit `i` up to 64; `j` is the next result bit. -/
def bextFrom (x m : Nat) : Nat → Nat → Nat → Nat
  | 0, _, _ => 0
  | n + 1, i, j =>
    if m.testBit i then bit (x.testBit i) * 2 ^ j + bextFrom x m n (i + 1) (j + 1) else bextFrom x m n (i + 1) j

/-- BDEP: scatters the low bits of `x` to where `m` has 1. -/
def bdepFrom (x m : Nat) : Nat → Nat → Nat → Nat
  | 0, _, _ => 0
  | n + 1, i, j =>
    if m.testBit i then bit (x.testBit j) * 2 ^ i + bdepFrom x m n (i + 1) (j + 1) else bdepFrom x m n (i + 1) j

def execClz (d a : BitVec 5) (s : State) : Result := .next (unary (fun x => word (clzFrom x.toNat 64)) d a s)
def execCtz (d a : BitVec 5) (s : State) : Result := .next (unary (fun x => word (ctzFrom x.toNat 64)) d a s)
def execPopc (d a : BitVec 5) (s : State) : Result := .next (unary (fun x => word (popcount 64 x.toNat)) d a s)
def execBrev (d a : BitVec 5) (s : State) : Result := .next (unary (fun x => word (brevFrom x.toNat 0 64)) d a s)
def execBext (d a b : BitVec 5) (s : State) : Result :=
  .next (binary (fun x y => word (bextFrom x.toNat y.toNat 64 0 0)) d a b s)
def execBdep (d a b : BitVec 5) (s : State) : Result :=
  .next (binary (fun x y => word (bdepFrom x.toNat y.toNat 64 0 0)) d a b s)
def execMin (d a b : BitVec 5) (s : State) : Result := .next (binary (fun x y => if x.slt y then x else y) d a b s)
def execMax (d a b : BitVec 5) (s : State) : Result := .next (binary (fun x y => if y.slt x then x else y) d a b s)
def execMinu (d a b : BitVec 5) (s : State) : Result := .next (binary (fun x y => if x.ult y then x else y) d a b s)
def execMaxu (d a b : BitVec 5) (s : State) : Result := .next (binary (fun x y => if y.ult x then x else y) d a b s)

/-- SEL reads g[d] as its condition. -/
def execSel (d a b : BitVec 5) (s : State) : Result :=
  .next (s.withG [d, a, b] (fun s =>
    (s.putG d (if s.th.rg d ≠ 0 then s.th.rg a else s.th.rg b)).advance))

/-! ## Branches and jumps (R134-R136) -/

def execBeq (a b : BitVec 5) (off : Word) (s : State) : Result := .next (branch (fun x y => decide (x = y)) a b off s)
def execBne (a b : BitVec 5) (off : Word) (s : State) : Result := .next (branch (fun x y => decide (x ≠ y)) a b off s)
def execBlt (a b : BitVec 5) (off : Word) (s : State) : Result := .next (branch (fun x y => x.slt y) a b off s)
def execBge (a b : BitVec 5) (off : Word) (s : State) : Result := .next (branch (fun x y => !x.slt y) a b off s)
def execBltu (a b : BitVec 5) (off : Word) (s : State) : Result := .next (branch (fun x y => x.ult y) a b off s)
def execBgeu (a b : BitVec 5) (off : Word) (s : State) : Result := .next (branch (fun x y => !x.ult y) a b off s)

def execJal (off : Word) (s : State) : Result := .next ((s.putG 1 s.npc).jump (s.th.pc + 2 * off))

def execJalr (d a : BitVec 5) (imm : Word) (s : State) : Result :=
  .next (s.withG [a] (fun s =>
    let t := s.th.rg a + imm
    if t.getLsbD 0 then s.raise 3 t false else (s.putG d s.npc).jump t))

/-! ## Scalar loads and stores (R174, Table 7.4) -/

def execLb (d a : BitVec 5) (imm : Word) (s : State) : Result := .next (load 1 true d a imm s)
def execLh (d a : BitVec 5) (imm : Word) (s : State) : Result := .next (load 2 true d a imm s)
def execLw (d a : BitVec 5) (imm : Word) (s : State) : Result := .next (load 4 true d a imm s)
def execLd (d a : BitVec 5) (imm : Word) (s : State) : Result := .next (load 8 false d a imm s)
def execLbu (d a : BitVec 5) (imm : Word) (s : State) : Result := .next (load 1 false d a imm s)
def execLhu (d a : BitVec 5) (imm : Word) (s : State) : Result := .next (load 2 false d a imm s)
def execLwu (d a : BitVec 5) (imm : Word) (s : State) : Result := .next (load 4 false d a imm s)
def execSb (a b : BitVec 5) (off : Word) (s : State) : Result := .next (store 1 a b off s)
def execSh (a b : BitVec 5) (off : Word) (s : State) : Result := .next (store 2 a b off s)
def execSw (a b : BitVec 5) (off : Word) (s : State) : Result := .next (store 4 a b off s)
def execSd (a b : BitVec 5) (off : Word) (s : State) : Result := .next (store 8 a b off s)

end Sys2Proof.Machine
end

