-- ==== Sys2Proof/Machine/Compact.lean ====
section
/-! DEFINITION. The compact forms: each executes as its expansion, with the next PC two bytes on (spec/02_encoding.md R39,
Table 2.3). -/

namespace Sys2Proof.Machine

open Sys2Proof

def execCMov (d sc : BitVec 5) (s : State) : Result := .next (binary (· + ·) d sc 0 s)
def execCAdd (d sc : BitVec 5) (s : State) : Result := .next (binary (· + ·) d d sc s)
def execCSub (d sc : BitVec 5) (s : State) : Result := .next (binary (· - ·) d d sc s)
def execCAnd (d sc : BitVec 5) (s : State) : Result := .next (binary (· &&& ·) d d sc s)
def execCAddi (d : BitVec 5) (k : BitVec 6) (s : State) : Result := .next (unary (· + k.signExtend 64) d d s)
def execCLdi (d : BitVec 5) (k : BitVec 6) (s : State) : Result := .next (unary (· + k.signExtend 64) d 0 s)
def execCSlli (d : BitVec 5) (k : BitVec 6) (s : State) : Result := .next (unary (· <<< k.toNat) d d s)
def execCLdReg (d sc : BitVec 5) (s : State) : Result := .next (load 8 false d sc 0 s)
def execCLdG2 (d k : BitVec 5) (s : State) : Result := .next (load 8 false d 2 (k.setWidth 64 * 8) s)
def execCStReg (d sc : BitVec 5) (s : State) : Result := .next (store 8 sc d 0 s)
def execCStG2 (d k : BitVec 5) (s : State) : Result := .next (store 8 2 d (k.setWidth 64 * 8) s)
def execCBeqz (d : BitVec 5) (off : BitVec 6) (s : State) : Result :=
  .next (branch (fun x y => decide (x = y)) d 0 (off.signExtend 64) s)
def execCBnez (d : BitVec 5) (off : BitVec 6) (s : State) : Result :=
  .next (branch (fun x y => decide (x ≠ y)) d 0 (off.signExtend 64) s)
def execCJ (off : BitVec 11) (s : State) : Result :=
  .next (branch (fun x y => decide (x = y)) 0 0 (off.signExtend 64) s)
def execCSync (d : BitVec 5) (s : State) : Result := .next (sync 0 d 0 false s)
def execCSend (d c : BitVec 5) (s : State) : Result := .next (send d 0 0 c.toNat s)
def execCExit (s : State) : Result := .next (exit s)
def execCNop (s : State) : Result := .next (unary (· + 0) 0 0 s)

end Sys2Proof.Machine
end

