-- ==== Sys2Proof/Machine/SysReg.lean ====
section
/-! DEFINITION. System registers: who may read and write each, what SYSR returns and what SYSW does (spec/18_traps.md R438,
R439, Table 18.5, spec/20_accounting.md Table 20.2, and the acceptance rules of each register's table). -/

namespace Sys2Proof.Machine

open Sys2Proof

/-! ## Access (Tables 18.5 and 20.2) -/

/-- Mode codes in order (R430). -/
def Mode.code : Mode → Nat
  | .u => 0
  | .s => 1
  | .m => 3

/-- The read and write modes of a register number; none where it is unassigned. -/
def sysModes (n : Nat) : Option (Mode × Option Mode) :=
  if n ≤ 0x002 then some (.u, some .u)
  else if n ≤ 0x004 then some (.u, none)
  else if n ≤ 0x008 then some (.u, some .s)
  else if n ≤ 0x00A then some (.u, some .u)
  else if n = 0x00B then some (.u, some .s)
  else if n ≤ 0x00D then some (.u, some .m)
  else if n ≤ 0x010 then some (.u, some .s)
  else if n ≤ 0x012 then some (.u, none)
  else if n = 0x013 then some (.u, some .s)
  else if n < 0x018 then none
  else if n ≤ 0x01F then some (.u, some .s)
  else if n < 0x040 then none
  else if n ≤ 0x04F then some (.s, some .s)
  else if n = 0x050 then some (.s, none)
  else if n ≤ 0x052 then some (.s, some .m)
  else if n = 0x053 then some (.s, some .s)
  else if n < 0x080 then none
  else if n ≤ 0x089 then some (.m, some .m)
  else if n = 0x08A then some (.s, some .m)
  else if n < 0x100 then none
  else if n ≤ 0x182 then some (.u, none)
  else if n ≤ 0x186 then some (.s, some .s)
  else if n = 0x187 then some (.s, none)
  else if n = 0x188 then some (.u, none)
  else none

/-! ## Reads -/

/-- STATUS or MSTATUS (Table 18.1). -/
def statusWord (st : Bool) (pm mode : Mode) : Word := word (bit st * 16 + pm.code * 4 + mode.code)

/-- SSCTL (spec/11_supersteps.md Table 11.7). -/
def readSsctl (s : State) (ctx : Nat) : Word :=
  match s.job ctx with
  | none => word ((s.ctx ctx).lastCause.toNat * 2 ^ 32)
  | some j =>
    word ((s.ctx ctx).lastCause.toNat * 2 ^ 32 + j.streak * 2 ^ 10 + bit (decide (j.phase = .escalated)) * 2 ^ 9 + bit j.pend * 2 ^ 8)

/-- DMAL (spec/08_die_memory.md Table 8.3). -/
def readDmal (x : DieCtx) : Word := word (x.dmSize * 2 ^ 32 + x.dmBase * 2 ^ 14)

/-- SVSTAT, SVSEC, SVRATE and SVCTL (spec/19_survival.md Tables 19.2-19.5). -/
def readSvstat (v : Sv) : Word :=
  word (v.live % 4096 * 2 ^ 52 + v.bst * 2 ^ 49 + boardFeed.toNat * 2 ^ 40 + v.bfeed * 2 ^ 32 + v.fails * 2 ^ 16 +
    bit v.err * 4 + bit v.recv * 2 + bit v.busy)
def readSvsec (v : Sv) : Word := word (bit v.valid * 2 ^ 63 + v.side * 2 ^ 48 + v.ssno)
def readSvrate (v : Sv) : Word := word (v.m * 2 ^ 28 + v.c)
def readSvctl (v : Sv) : Word := word (bit v.usecorr * 2 ^ 46 + v.spare * 2 ^ 32 + v.nb)

/-- VTRAP (spec/06_vector.md Table 6.8). -/
def readVtrap (th : Thread) : Word :=
  word (bit th.image.isSome * 2 ^ 23 + th.vtElem.toNat * 2 ^ 16 + th.vtLvl.toNat * 2 ^ 12 + th.vtEntry.toNat)

/-- Whether a context holds an allotment on a die (DMCFG.busy). -/
def dmBusy (s : State) (die : Nat) : Bool := s.ctxs.any (fun e => decide ((Table.get DieCtx.zero e.2.dies die).dmSize ≠ 0))

/-- The counter set that a thread reads: its launch's, or set 0 on a die-control core (R464). -/
def readSet (s : State) (t : Nat) : CounterSet :=
  let ctx := s.ctxOf t
  Table.get CounterSet.zero (s.ctx ctx).sets (if isControl (coreOf t) then 0 else chargedSet s ctx)

/-- MBREC (spec/20_accounting.md Table 20.6). -/
def readMbrec (c : Ctx) : Word := word (c.mbCount * 2 ^ 55 + c.mbFrame.toNat)

/-- TRCTL (Table 20.8). -/
def readTrctl (x : DieCtx) : Word := word (x.trDrop.toNat * 2 ^ 32 + x.trLg * 2 ^ 16 + x.trEn.toNat * 2)

/-- Registers held per slot. -/
def readSlotReg (s : State) (t n : Nat) : Word :=
  let th := s.thread t
  match n with
  | 0x000 => th.rm.setWidth 64
  | 0x001 => th.fflags.setWidth 64
  | 0x002 => th.prng.setWidth 64
  | 0x007 => th.spovf
  | 0x00A => wordOfBool th.upBusy
  | 0x040 => statusWord th.strap.st th.strap.pm th.mode
  | 0x041 => th.strap.epc
  | 0x042 => th.strap.cause
  | 0x043 => th.strap.tval
  | 0x045 => th.strap.scr
  | 0x046 => th.xfrom
  | 0x047 => th.vepc
  | 0x048 => readVtrap th
  | 0x049 => ((s.core (coreOf t)).ovf.get (writerIdx (writerOf (slotOf t)))).vovf
  | 0x04A => ((s.core (coreOf t)).ovf.get (writerIdx (writerOf (slotOf t)))).vovend
  | 0x04D => (s.core (coreOf t)).mrerr
  | 0x04E => (s.core (coreOf t)).xnerr
  | 0x04F => ((s.core (coreOf t)).leases.get (bankIdx (slotOf t))).hback
  | 0x080 => statusWord th.mtrap.st th.mtrap.pm th.mode
  | 0x081 => th.mtrap.epc
  | 0x082 => th.mtrap.cause
  | 0x083 => th.mtrap.tval
  | _ => th.mtrap.scr

/-- Registers held per context, and per context on a die. -/
def readCtxReg (s : State) (t n : Nat) : Word :=
  let ctx := s.ctxOf t
  let c := s.ctx ctx
  let x := s.dctx (dieOf (coreOf t)) ctx
  match n with
  | 0x004 => c.ssres
  | 0x005 => readSsctl s ctx
  | 0x006 => c.classbase
  | 0x008 => c.upcfg
  | 0x009 => c.fibent
  | 0x00B => c.ttctl
  | 0x00C => readDmal x
  | 0x00D => c.ptroot
  | 0x00E => c.amp.qcfg
  | 0x00F => c.amp.qleaf
  | 0x010 => c.amp.qmtab
  | 0x011 => readSvstat c.sv
  | 0x012 => readSvsec c.sv
  | 0x013 => readSvrate c.sv
  | 0x044 => c.tvec
  | 0x04B => x.tqbase
  | 0x04C => x.prqbase
  | 0x053 => readSvctl c.sv
  | 0x182 => readMbrec c
  | 0x183 => x.trbase
  | 0x184 => readTrctl x
  | 0x185 => readDbgctl s ctx
  | 0x186 => c.dbgsel.setWidth 64
  | 0x187 => c.dbgbrk
  | 0x188 => c.jobid
  | _ => readQmap c.amp (n - 0x018)

/-- Registers held per die. -/
def readDieReg (s : State) (die n : Nat) : Word :=
  let d := s.die die
  match n with
  | 0x050 => d.jevt
  | 0x051 => word (d.eccUnc.toNat * 2 ^ 48 + d.eccRef.toNat * 2 ^ 32 + d.eccCor.toNat)
  | 0x052 => d.lqbase
  | 0x084 => d.mtvec
  | 0x086 => word (bit (dmBusy s die) * 2 ^ 16 + d.cblk)
  | 0x087 => word d.pclist
  | 0x088 => word (d.injCount.toNat * 2 ^ 32 + d.injKind.toNat * 2 + bit d.injArm)
  | 0x089 => d.devt.setWidth 64
  | _ => word (d.budget * 2 ^ 32 + d.used * 2 ^ 16 + bit d.emg)

/-- Counters and their companion words. -/
def readCounter (x : CounterSet) (n : Nat) : Word :=
  if n < 0x140 then word (Table.get 0 x.comm (n - 0x100))
  else if n < 0x180 then word (Table.get 0 x.disc (n - 0x140))
  else if n = 0x180 then x.satc
  else x.satd

/-- Numbers of the registers held per slot, core or writer. -/
def slotReg (n : Nat) : Bool :=
  decide (n ≤ 0x002 ∨ n = 0x007 ∨ n = 0x00A ∨ (0x040 ≤ n ∧ n ≤ 0x043) ∨ (0x045 ≤ n ∧ n ≤ 0x04A) ∨ (0x04D ≤ n ∧ n ≤ 0x04F) ∨
    (0x080 ≤ n ∧ n ≤ 0x083) ∨ n = 0x085)

/-- Numbers of the registers held per die. -/
def dieReg (n : Nat) : Bool := decide ((0x050 ≤ n ∧ n ≤ 0x052) ∨ n = 0x084 ∨ (0x086 ≤ n ∧ n ≤ 0x08A))

/-- A register as SYSR returns it, with RZ and WO fields as 0. -/
def readSys (s : State) (t n : Nat) : Word :=
  if n = 0x003 then word s.time
  else if slotReg n then readSlotReg s t n
  else if dieReg n then readDieReg s (dieOf (coreOf t)) n
  else if 0x100 ≤ n ∧ n ≤ 0x181 then readCounter (readSet s t) n
  else readCtxReg s t n

/-! ## Writes -/

/-- A write of spm or mpm: code 2 leaves the field unchanged. -/
def writePm (old : Mode) (code : Nat) : Mode :=
  match code with
  | 0 => .u
  | 1 => .s
  | 3 => .m
  | _ => old

/-- The four words of a trap level. -/
def writeTrapReg (x : TrapRegs) (i : Nat) (v : Word) (causeMask : Word) : TrapRegs :=
  match i with
  | 0 => { x with st := v.getLsbD 4, pm := writePm x.pm (wfld v 2 2) }
  | 1 => { x with epc := evenPc v }
  | 2 => { x with cause := v &&& causeMask }
  | _ => { x with tval := v }

/-- Drops the low `k` bits of a base register. -/
def dropLow (v : Word) (k : Nat) : Word := word (v.toNat / 2 ^ k * 2 ^ k)

/-- Discards a held sequencer image (spec/06_vector.md R166).  lc0, lc1 and the pending bounds keep the values the thread has
(DESIGN CHOICE, log entry 42: R166 states none). -/
def discardImage (s : State) (t : Nat) : State := s.modThread t (fun th => { th with image := none })

def State.modOvf (s : State) (t : Nat) (f : Overflow → Overflow) : State :=
  s.modCore (coreOf t) (fun c =>
    let i := writerIdx (writerOf (slotOf t))
    { c with ovf := c.ovf.set i (f (c.ovf.get i)) })

/-- Registers held per slot, core or writer, UPST.ret apart. -/
def writeSlotReg (s : State) (t n : Nat) (v : Word) : State :=
  let th := s.thread t
  let put (x : Thread) : State := s.setThread t x
  match n with
  | 0x000 => put { th with rm := v.setWidth 2 }
  | 0x001 => put { th with fflags := v.setWidth 5 }
  | 0x002 => put { th with prng := if (v.setWidth 32 : BitVec 32) = 0 then 0x9E3779B9 else v.setWidth 32 }
  | 0x007 => put { th with spovf := dropLow v 14 }
  | 0x00A => put { th with upBusy := v.getLsbD 0 }
  | 0x045 => put { th with strap := { th.strap with scr := v } }
  | 0x046 => put { th with xfrom := v }
  | 0x047 => put { th with vepc := evenPc v }
  | 0x048 => if v.getLsbD 23 then s else discardImage s t
  | 0x049 => s.modOvf t (fun o => { o with vovf := dropLow v 7 })
  | 0x04A => s.modOvf t (fun o => { o with vovend := dropLow v 7 })
  | 0x04D => s.modCore (coreOf t) (fun c => { c with mrerr := c.mrerr &&& ~~~(v &&& 0x20000) })
  | 0x04E => s.modCore (coreOf t) (fun c => { c with xnerr := c.xnerr &&& ~~~(v &&& 0x100000000) })
  | 0x04F =>
    if slotOf t < 8 then s
    else s.modCore (coreOf t) (fun c =>
      let b := bankIdx (slotOf t)
      { c with leases := c.leases.set b { c.leases.get b with hback := dropLow v 16 } })
  | 0x085 => put { th with mtrap := { th.mtrap with scr := v } }
  | _ =>
    if n < 0x080 then put { th with strap := writeTrapReg th.strap (n - 0x040) v 0x7FF }
    else put { th with mtrap := writeTrapReg th.mtrap (n - 0x080) v 0xFFF }

/-- UPCFG's acceptance (spec/10_pages.md R249). -/
def upcfgOk (v : Word) : Bool :=
  let us := [wfld v 40 5, wfld v 45 5, wfld v 50 5, wfld v 55 5]
  let tn := wfld v 32 3
  let tb := wfld v 27 5
  us.all (fun u => u ≠ 0) && decide ((dedup us).length = 4 ∧ tn ≤ 4 ∧ tb + tn ≤ 32) &&
    us.all (fun u => !decide (tb ≤ u ∧ u < tb + tn))

/-- PTROOT's acceptance (R228). -/
def ptrootOk (v : Word) : Bool :=
  let n := wfld v 40 4
  decide (4 ≤ n ∧ n ≤ 14) && decide (wfld v 16 20 + (2 ^ (n + 14) - 1) / 65536 ≤ 732164)

/-- A write of SSCTL: vote, kill, pre and retry in that order (spec/11_supersteps.md R284). -/
def writeSsctl (s : State) (ctx : Nat) (v : Word) : State :=
  let esc (s : State) : Bool := match s.job ctx with
    | some j => decide (j.phase = .escalated)
    | none => false
  let s := if v.getLsbD 0 then s.vote ctx 7 else s
  if v.getLsbD 4 && esc s then makeRequest s ctx 2
  else if v.getLsbD 2 && esc s then makeRequest s ctx 0
  else
    let s := if v.getLsbD 2 then makeRequest s ctx 0 else s
    if v.getLsbD 3 && esc s then makeRequest s ctx 3 else s

/-- A write of SVCTL (spec/19_survival.md Table 19.5). -/
def writeSvctl (s : State) (ctx : Nat) (v : Word) : State :=
  let s := s.modSv ctx (fun x => { x with usecorr := v.getLsbD 46, spare := wfld v 32 12, nb := wfld v 0 12 })
  let s := if v.getLsbD 45 then secureNow s ctx else s
  if v.getLsbD 44 then newBuddy s ctx (wfld v 0 12) else s

/-- TRBASE keeps a base outside the context's allotment out (spec/20_accounting.md Table 20.7). -/
def writeTrbase (s : State) (die ctx : Nat) (v : Word) : State :=
  let a := (dropLow v 12).toNat
  if decide (dieAddr die 0 ≤ a) && inAllotment s die ctx (a - dieAddr die 0) 1 then
    s.modDctx die ctx (fun x => { x with trbase := word a })
  else s

/-- Registers held per context, and per context on a die. -/
def writeCtxReg (s : State) (t n : Nat) (v : Word) : State :=
  let ctx := s.ctxOf t
  let die := dieOf (coreOf t)
  match n with
  | 0x005 => writeSsctl s ctx v
  | 0x006 => s.modCtx ctx (fun c => { c with classbase := v &&& ~~~0x3FE#64 })
  | 0x008 => if upcfgOk v then s.modCtx ctx (fun c => { c with upcfg := v &&& 0x0FFFFF07F800FFC0 }) else s
  | 0x009 => s.modCtx ctx (fun c => { c with fibent := evenPc v })
  | 0x00B => s.modCtx ctx (fun c => { c with ttctl := v &&& 0x1FFFF })
  | 0x00C => s
  | 0x00D => if ptrootOk v then s.modCtx ctx (fun c => { c with ptroot := v &&& 0x80000FFFFFFF0000 }) else s
  | 0x00E => writeQcfg s ctx v
  | 0x00F => writeQleaf s ctx v
  | 0x010 => writeQmtab s ctx v
  | 0x013 => shareRate s ctx (wfld v 0 28) (wfld v 28 36) (s.ctx ctx).sv.fails
  | 0x044 => s.modCtx ctx (fun c => { c with tvec := evenPc v })
  | 0x04B => s.modDctx die ctx (fun x => { x with tqbase := dropLow v 9 })
  | 0x04C => s.modDctx die ctx (fun x => { x with prqbase := v &&& ~~~0xFFE#64 })
  | 0x053 => writeSvctl s ctx v
  | 0x183 => writeTrbase s die ctx v
  | 0x184 => s.modDctx die ctx (fun x =>
      let lg := wfld v 16 5
      { x with trLg := if 6 ≤ lg ∧ lg ≤ 16 then lg else x.trLg, trEn := BitVec.ofNat 10 (wfld v 1 10) })
  | 0x185 => writeDbgctl s ctx v.toNat
  | 0x186 => s.modCtx ctx (fun c => { c with dbgsel := v.setWidth 32 })
  | _ => writeQmap s ctx (n - 0x018) v

/-- Registers held per die. -/
def writeDieReg (s : State) (die n : Nat) (v : Word) : State :=
  match n with
  | 0x051 => s.modDie die (fun d =>
      { d with eccUnc := BitVec.ofNat 16 (wfld v 48 16), eccRef := BitVec.ofNat 16 (wfld v 32 16), eccCor := v.setWidth 32 })
  | 0x052 => noteTails (s.modDie die (fun d => { d with lqbase := v &&& ~~~0x1FE#64, dispatch := true })) die
  | 0x084 => s.modDie die (fun d => { d with mtvec := evenPc v })
  | 0x086 =>
    let c := wfld v 0 13
    if dmBusy s die || decide (c < 512 ∨ 8190 < c) then s else s.modDie die (fun d => { d with cblk := c })
  | 0x087 => s.modDie die (fun d => { d with pclist := if wfld v 0 7 ≤ 64 then wfld v 0 7 else d.pclist })
  | 0x088 => s.modDie die (fun d =>
      let k := wfld v 1 2
      { d with injArm := v.getLsbD 0, injKind := if k = 1 ∨ k = 2 then BitVec.ofNat 2 k else d.injKind })
  | 0x089 => s.modDie die (fun d => { d with devt := d.devt &&& ~~~(v.setWidth 5) })
  | _ => s.modDie die (fun d => { d with budget := if wfld v 32 16 < d.used then d.budget else wfld v 32 16 })

/-- A register written field by field (R8) under its own acceptance rule. -/
def writeSys (s : State) (t n : Nat) (v : Word) : State :=
  if slotReg n then writeSlotReg s t n v
  else if dieReg n then writeDieReg s (dieOf (coreOf t)) n v
  else writeCtxReg s t n v

/-! ## UPST.ret (spec/10_pages.md R254) -/

/-- What resuming a fibre answers. -/
inductive RetAnswer where
  | resumed (s : State)
  | wait (s : State)
  | denied (a : Word)
  | pageFault (a : Word)
  | damaged (s : State) (loc : Nat)

/-- Resumes the fibre whose state the slot's frame holds; a frame that cannot be read stops the write (log entry 36). -/
def resumeFibre (s : State) (t : Nat) : RetAnswer :=
  let th := s.thread t
  let cfg := (s.ctx (s.ctxOf t)).upcfg
  let ea := 2 ^ 64 - 65536 + wfld cfg 6 10 * 64 + 64 * slotOf t
  let us := [wfld cfg 40 5, wfld cfg 45 5, wfld cfg 50 5, wfld cfg 55 5]
  if !seqDone th then .wait s
  else match checkAccess s (coreOf t) (slotOf t) th.mode (s.ctxOf t) .read ea with
    | .denied => .denied (word ea)
    | .pageFault => .pageFault (word ea)
    | .ok p =>
      match loadPlace s t p 64 with
      | .wait s => .wait s
      | .full => .wait s
      | .damaged s l => .damaged s l
      | .bytes s bs =>
        let w (i : Nat) : Word := wordOfBytes ((bs.drop (8 * i)).take 8)
        let s := (List.range 4).foldl (fun s i => s.fillG t (BitVec.ofNat 5 (us.getD i 0)) (w (3 + i))) s
        .resumed (s.modThread t (fun th =>
          let th := { th with upBusy := false, pc := evenPc (w 7), came := 0, cameBr := false, stall := none }
          match th.image with
          | some i => { th with seq := i.seq, lc := i.lc, image := none, vhalt := false }
          | none => th))

/-- UPST_RET: a write of UPST with ret = 1 on a slot. -/
def execUpstRet (core slot : Nat) (value : BitVec 64) (s : State) : Result :=
  .next (
    let t := tid core slot
    if !value.getLsbD 2 || (s.thread t).st ≠ .ready || isControl core then s
    else match resumeFibre s t with
      | .resumed s => s
      | .wait s => s
      | _ => s)

/-! ## SYSR and SYSW -/

/-- The waits of spec/03_numbers.md R72 and R73. -/
def State.withFpWaits (n : Nat) (s : State) (k : State → State) : State :=
  if n = 0x002 then s.withDraws k
  else if n = 0x001 && s.th.vectorQueued then s
  else k s

def sysr (d : BitVec 5) (n : Nat) (s : State) : State :=
  match sysModes n with
  | none => s.raise 1 s.iw false
  | some (r, _) =>
    if s.th.mode.code < r.code then s.raise 2 s.iw false
    else s.withFpWaits n (fun s =>
      if n = 0x04F ∧ s.curSlot < 8 then ({ s with free := s.free + 1 }.putG d (freeWord (s.free + 1))).advance
      else (s.putG d (readSys s s.cur n)).advance)

def execSysr (d : BitVec 5) (n : BitVec 11) (s : State) : Result := .next (sysr d n.toNat s)

/-- A write of UPST by the running thread: `busy`, then `ret`. -/
def writeUpst (v : Word) (s : State) : State :=
  if !v.getLsbD 2 then writeSys s.advance s.cur 0x00A v
  else match resumeFibre s s.cur with
    | .resumed s1 => s1.issued
    | .wait s1 => s1
    | .denied a => s.raise 4 a false
    | .pageFault a => s.raise 5 a false
    | .damaged s1 l => s1.raise 10 (word l) false

def sysw (n : Nat) (a : BitVec 5) (s : State) : State :=
  match sysModes n with
  | some (_, some w) =>
    if s.th.mode.code < w.code then s.raise 2 s.iw false
    else s.withG [a] (fun s => s.withFpWaits n (fun s =>
      let v := s.th.rg a
      if n = 0x00A then writeUpst v s else writeSys s.advance s.cur n v))
  | _ => s.raise 1 s.iw false

def execSysw (n : BitVec 11) (a : BitVec 5) (s : State) : Result := .next (sysw n.toNat a s)

end Sys2Proof.Machine
end

