-- ==== Sys2Proof/Machine/Firmware.lean ====
section
/-! DEFINITION. What die-control firmware does by acts that the spec gives and no instruction of its own makes: updates of the
capability list, allotments, frames and page tables, and the failure of an old sequencer die (spec/01_wafer.md R26-R31,
spec/08_die_memory.md R192, spec/10_pages.md R239-R241, spec/17_launch.md R418; log entry 61). -/

namespace Sys2Proof.Machine

open Sys2Proof

/-! ## The capability list (R28-R31) -/

/-- Generation of a die's list as it stands. -/
def capGeneration (s : State) (d : Nat) : Nat := wfld (s.readWord (dieAddr d 8)) 32 32

/-- Payloads of CAP_HEAD with a generation, and of CAP_DIES (Table 1.7). -/
def capHead (s : State) (d gen : Nat) : Word := word (gen % 2 ^ 32 * 2 ^ 32 + s.modnum * 2 ^ 17 + d)
def capDies (s : State) : Word :=
  word ((healthyDies s).foldl (fun m k => m + 2 ^ k) 0 * 2 ^ 40 + sequencerDie s * 2 ^ 32 + (healthyDies s).length)

/-- One write of an update: the generation becomes odd, the entry of the dies is rewritten, the generation becomes even again,
one greater (R30). -/
def capWrite (s : State) (d : Nat) : State :=
  let x := s.die d
  let head := capHead s d (capGeneration s d + 1)
  match x.capStep with
  | 0 => (s.writeWord (dieAddr d 8) head).modDie d (fun x => { x with capStep := 1 })
  | 1 => (s.writeWord (dieAddr d 40) (capDies s)).modDie d (fun x => { x with capStep := 2 })
  | _ => (s.writeWord (dieAddr d 8) head).modDie d (fun x => { x with capStep := 0 })

/-- The bytes of a die's list that are not those delivered. -/
def capCells (s : State) (d : Nat) : List Host.Cell :=
  s.mem.filter (fun c => decide (dieAddr d 0 ≤ c.1 ∧ c.1 < dieAddr d 4096))

/-- An update of a die's list is complete while the generation is even, whether firmware made it by an act of its own or by the stores
of its M-mode threads: readers on other dies find the list as it then is from their job's next commit on (R30, R31). -/
def noteCap (s : State) (d : Nat) : State :=
  if (s.die d).capLast = capCells s d ∨ capGeneration s d % 2 = 1 then s
  else s.modDie d (fun x => { x with capLast := capCells s d })

/-- The complete updates of a turn are noted on every die. -/
def noteCaps (s : State) : State :=
  if s.mem.all (fun c => decide (c.1 < dieWindow ∨ 4096 ≤ (c.1 - dieWindow) % 0x10000000)) && s.dies.all (fun e => e.2.capLast.isEmpty) then s
  else (List.range numDies).foldl noteCap s

/-- The list of a die after its memory has been wiped: delivered anew, with the next even generation after `gen`, so that equal
generations still mean one list (log entry 3). -/
def capDeliver (s : State) (d gen : Nat) : State :=
  let head := capHead s d (gen + 2 - gen % 2)
  ((s.writeWord (dieAddr d 8) head).writeWord (dieAddr d 40) (capDies s)).modDie d (fun x => { x with capStep := 0 })

/-! ## Frames and page tables (R239-R241, R418) -/

/-- Whether a frame may be allotted: it is free, awaits no wipe, and its stack is not that of a retired die (R25). -/
def frameFree (s : State) (stack frame : Nat) : Bool :=
  decide (stack < 16 ∧ frame ≤ 732164 ∧ frameKind s stack frame = 0) && !(s.readWord (invAt stack frame)).getLsbD 59 &&
    (s.die (stackDie stack)).healthy

/-- Firmware allots a frame to one of the kinds 1-5; kinds 1 to 4 have an owning context (Table 10.6). -/
def allotFrame (s : State) (stack frame kind ctx vpn : Nat) : State :=
  if !frameFree s stack frame || decide (kind = 0 ∨ 5 < kind) || (decide (kind ≠ 5) && !(s.ctx ctx).live) then s
  else assignFrame s stack frame kind (if kind = 5 then 0 else ctx) (vpn % 2 ^ 32)

/-- Firmware frees a frame: it awaits the wipe engine (R240-R242). -/
def freeFrame (s : State) (stack frame : Nat) : State :=
  let kind := frameKind s stack frame
  if decide (16 ≤ stack ∨ 732164 < frame ∨ kind = 0 ∨ 5 < kind) then s
  else setFrame s stack frame kind true (frameCtx s stack frame)

/-- A context without a running launch receives its page table (R418), accepted as a write of PTROOT is (R228). -/
def givePageTable (s : State) (ctx : Nat) (root : Word) : State :=
  if !(s.ctx ctx).live || (s.job ctx).isSome || !ptrootOk root then s
  else s.modCtx ctx (fun c => { c with ptroot := root &&& 0x80000FFFFFFF0000 })

/-! ## The sequencer die (R26) -/

/-- A retired die fails: the jobs whose superstep it still orders vote abort. -/
def failDie (s : State) (d : Nat) : State :=
  if (s.die d).healthy then s
  else
    ((s.ctxs.filter (fun e => e.2.job.any (fun j => decide (j.seqDie = d) && j.open_))).map (·.1)).foldl (fun s c => s.vote c 7) s

/-- An act of die-control firmware; that of a retired die changes no list. -/
def firmwareTurn (a : Firmware) (s : State) : State :=
  match a with
  | .capWrite d => if decide (d < numDies) && (s.die d).healthy then capWrite s d else s
  | .allot d ctx size => if decide (d < numDies) && (s.die d).healthy && (s.ctx ctx).live then allotOn s d ctx size else s
  | .allotFrame k f kind ctx vpn => allotFrame s k f kind ctx vpn
  | .freeFrame k f => freeFrame s k f
  | .pageTable ctx root => givePageTable s ctx root
  | .dieFailure d => failDie s d

end Sys2Proof.Machine
end

