-- ==== Sys2Proof/Machine/System.lean ====
section
/-! DEFINITION. The system instructions: ERET, WFI, BRK, TRAP, IFLUSH, INJECT and REPORT, and the events of trap state
(spec/18_traps.md R437-R448, spec/20_accounting.md R466, R469). -/

namespace Sys2Proof.Machine

open Sys2Proof

/-- ERET: PRIV in U mode. -/
def execEret (s : State) : Result :=
  .next (if s.th.mode = .u then s.raise 2 s.iw false else exceptionReturn s)

/-- WFI on a thread slot: it goes on at once where a queue it waits for holds an entry or a trap is pending. -/
def waitThread (s : State) : State :=
  let th := s.th
  if !(th.queue 2).isEmpty || !(th.queue 3).isEmpty || th.trapsPend then s.advance
  else (s.issued.modTh (fun th => { th with parkNpc := s.npc })).park .wfi

/-- WFI on a die-control core: a job event is taken, a die event ends it, and otherwise the core parks. -/
def waitControl (s : State) : State :=
  if takesEvent s s.curDie then takeJobEvent s.issued s.curDie s.npc
  else if dieWakes s s.curDie then s.advance
  else (s.issued.modTh (fun th => { th with parkNpc := s.npc })).park .wfi

def execWfi (s : State) : Result :=
  .next (if s.th.mode = .u then s.raise 2 s.iw false
    else if isControl s.curCore then waitControl s else waitThread s)

/-- BRK: a trap, or under dbgctl.bh a halt request (spec/20_accounting.md R469). -/
def execBrk (s : State) : Result :=
  .next (
    if !isControl s.curCore && (s.ctx s.curCtx).dbgBh then
      makeRequest (s.advance.modCtx s.curCtx (fun c => { c with dbgbrk := s.th.pc })) s.curCtx 1
    else s.raise 14 0 false)

def execTrap (s : State) : Result := .next (s.raiseNext 15)

/-- IFLUSH (R442). -/
def execIflush (s : State) : Result :=
  .next (s.withVector (fun s => s.withDrain (fun s =>
    let ctx := s.curCtx
    s.advance.modCore s.curCore (fun c => { c with icache := c.icache.filter (fun l => l.ctx ≠ ctx) }))))

/-! ## INJECT (R443) -/

/-- What INJECT may damage: the location and how its pre-image is taken. -/
inductive Target where
  | near (p : Place)
  | line (l : CLine)
  | bad

/-- The place of an INJECT's address. -/
def injectTarget (s : State) (ea : Nat) : Target :=
  match addrForm s s.curCore s.curSlot ea with
  | .paged va =>
    (match s.line s.curDie s.curCtx (lineOf va) with
     | some l => if l.st = .pending then .bad else .line l
     | none => .bad)
  | _ =>
    match checkAccess s s.curCore s.curSlot .m s.curCtx .write ea with
    | .ok (.own off) => .near (.own off)
    | .ok (.die a) => if 16384 ≤ a - dieAddr s.curDie 0 then .near (.die a) else .bad
    | _ => .bad

/-- The pre-image that a write would take. -/
def injectPre (s : State) : Target → PreAnswer
  | .near p => takePre s s.cur p
  | .line l => (match takePrePaged s l with
    | some s => .taken s
    | none => .full)
  | .bad => .full

/-- Damages the check bits of the doubleword at a location. -/
def damage (s : State) (loc : Nat) : State :=
  (hurtWord s s.curDie s.curCtx loc (decide ((s.die s.curDie).injKind = 2))).modDie s.curDie (fun d =>
    { d with injArm := false, injCount := bump16 d.injCount })

/-- A line of a replicated page stands whole at every healthy die's slice (R206): one not used yet is present all the same. -/
def replicaPresent (s : State) (ea : Nat) : State :=
  match addrForm s s.curCore s.curSlot ea with
  | .paged va =>
    (match s.line s.curDie s.curCtx (lineOf va), translate s s.curDie s.curCtx va with
     | none, some e => if e.rep && decide (e.frame (fld va 16 32) ≤ 732164) then (match needLine s s.curDie s.curCtx (lineOf va) e with
       | .present s _ => s
       | _ => s) else s
     | _, _ => s)
  | _ => s

def inject (a : BitVec 5) (s : State) : State :=
  if s.th.mode ≠ .m then s.raise 2 s.iw false
  else s.withG [a] (fun s =>
    let ea := s.th.rg a
    let d := s.die s.curDie
    if ea.toNat % 8 ≠ 0 then s.raise 3 ea false
    else if !d.injArm || decide (d.injKind = 0) then s.advance
    else
      let s := replicaPresent s ea.toNat
      match injectTarget s ea.toNat with
      | .bad => s.raise 4 ea false
      | _ => s.withDrain (fun s =>
        let t := injectTarget s ea.toNat
        let loc := match t with
          | .near p => p.loc s.curCore
          | .line l => l.va + ea.toNat % 64
          | .bad => 0
        if lineBusy s s.curDie s.curCtx loc then (if isLocalLoc loc then s else noteRecall s s.cur loc)
        else match injectPre s t with
          | .wait => s
          | .full => s.raise 7 (match t with
            | .near p => p.fullAt ea
            | _ => ea) true
          | .taken s => (damage s loc).advance))

def execInject (a : BitVec 5) (s : State) : Result := .next (inject a s)

/-! ## REPORT (spec/20_accounting.md R466) -/

/-- Bytes 0x000-0x45F of a report (Table 20.5), for a set and the status it gives. -/
def reportHead (s : State) (die ctx set : Nat) (x : CounterSet) : List Byte :=
  let dies := jobDies s ctx
  let w : List Nat :=
    [bit (!x.charged) * 2 * 2 ^ 60 + 2 ^ 56 + set * 2 ^ 16 + ctx, x.jobid.toNat,
     (x.seqno + 1) % 2 ^ 32 * 2 ^ 32 + die * 2 ^ 16 + s.modnum, x.ssFrom, x.ssTo, s.time,
     dies.length * 2 ^ 32 + dies.foldl (fun m d => m + 2 ^ d) 0, 0]
  let bank (b : Table Nat) : List Nat := (List.range 64).map (fun i => Table.get 0 b i)
  (w ++ bank x.comm ++ bank x.disc ++ [x.satc.toNat, x.satd.toNat, 0, 0]).flatMap (bytesOf 8)

/-- Writes and signs the report of the request at `ea`. -/
def writeReport (s : State) (die ea ctx set : Nat) : State :=
  let s := s.modDie die (fun d => if d.repreq = word ea then { d with repreq := 0 } else d)
  if !(s.ctx ctx).live then land s 0 ea (bytesOf 8 (2 ^ 60))
  else
    let x := Table.get CounterSet.zero (s.ctx ctx).sets set
    let head := reportHead s die ctx set x
    let digest := sha256 head
    let bytes := head ++ digest ++ dieSign ((s.die die).identity.getD 0) digest ++ List.replicate 512 0
    (land s 0 ea bytes).modCtx ctx (fun c =>
      { c with sets := c.sets.set set { x with seqno := x.seqno + 1, ssFrom := x.ssTo } })

/-- Whether [ea, ea + 2048) lies in allottable blocks of a die's window. -/
def reportArea (s : State) (die ea : Nat) : Bool :=
  decide (dieAddr die 16384 ≤ ea ∧ ea + 2048 ≤ dieAddr die ((8192 - (s.die die).cblk) * 16384))

def report (a : BitVec 5) (s : State) : State :=
  if s.th.mode ≠ .m then s.raise 2 s.iw false
  else s.withG [a] (fun s =>
    let ea := s.th.rg a
    if ea.toNat % 2048 ≠ 0 then s.raise 3 ea false
    else if !reportArea s s.curDie ea.toNat then s.raise 4 ea false
    else s.withDrain (fun s => loadThen ea 8 s (fun bs s =>
      let rq := wordOfBytes bs
      if wfld rq 18 46 ≠ 0 then s.raise 4 ea false
      else writeReport s.advance s.curDie ea.toNat (wfld rq 0 16) (wfld rq 16 2))))

def execReport (a : BitVec 5) (s : State) : Result := .next (report a s)

/-! ## Events -/

/-- JOB_EVENT_ENTRY: a die-control core parked in a WFI in M mode takes its oldest job event. -/
def execJobEventEntry (die : Nat) (s : State) : Result :=
  .next (
    let th := s.thread (tid (numGcores + die) 0)
    if decide (die < numDies) && decide (th.st = .parked ∧ th.wait = .wfi) && takesEvent s die then
      takeJobEvent s die th.parkNpc
    else s)

/-- VTRAP_HELD_CLEAR: a write of held = 0 on a slot. -/
def execVtrapHeldClear (core slot : Nat) (s : State) : Result :=
  .next (if core < numCores ∧ slot < slotsPerCore then discardImage s (tid core slot) else s)

end Sys2Proof.Machine
end

