-- ==== Sys2Proof/Machine/Host.lean ====
section
/-! DEFINITION. What reaches the module from outside: host memory requests, the management function, function-level reset,
keys, the life cycle, and the messages of other modules on the port groups (spec/09_ordering.md R219, spec/21_host.md
R471-R482, spec/11_supersteps.md R272-R298). -/

namespace Sys2Proof.Machine

open Sys2Proof

/-! ## Host memory requests (R219, R472) -/

/-- Whether die function `d` serves host memory requests. -/
def served (s : State) (d : Nat) : Bool :=
  let x := s.die d
  decide (x.tdisp = .run) || (decide (x.tdisp = .unlocked) && !s.ctxs.any (fun e => decide (e.2.bound = some d)))

/-- Whether an address reaches memory of a context: its pages, the local stores its launch holds, its allotments (log entry
38); so no host write reaches a capability list (spec/01_wafer.md R27). -/
def contextMemory (s : State) (ctx a : Nat) : Bool :=
  match plainForm a with
  | .paged _ => true
  | .local g _ => decide ((s.core g).hold = some ctx)
  | .window d o => inAllotment s d ctx o 1
  | _ => false

/-- A host write to memory of a context: at once, or at the next commit of its running launch. -/
def hostLand (s : State) (ctx : Nat) (va : Word) (data : List Byte) : State :=
  if !(partsOf va.toNat data.length).all (fun p => contextMemory s ctx p.1) then s
  else match s.job ctx with
  | none => land s ctx va.toNat data
  | some _ => s.modJob ctx (fun j => { j with hostWrites := j.hostWrites ++ [{ va := va, data := data }] })

/-! ## The management function (R473) -/

/-- A dropped write is counted. -/
def dropHost (s : State) : State := { s with mgerr := bump32 s.mgerr }

/-- LQTAIL: the tail lands at once, and its records become visible. -/
def hostTail (s : State) (die q : Nat) (w : Word) : State :=
  match lqueue s die q with
  | none => dropHost s
  | some x =>
    if !x.enabled || decide (wfld w 32 32 ≠ 0) || !(s.die die).healthy then dropHost s
    else
      let s := land s 0 (x.at_ + 24) (bytesOf 8 w.toNat)
      noteTails (s.modDie die (fun d => { d with lqtail := d.lqtail.set q w, dispatch := true })) die

/-- PREEMPT. -/
def hostPreempt (s : State) (die : Nat) (w : Word) : State :=
  let ctx := wfld w 0 16
  if wfld w 16 47 ≠ 0 ∨ w.getLsbD 63 = false then dropHost s
  else if (s.job ctx).isNone || !(jobDies s ctx).contains die then dropHost s
  else makeRequest s ctx 0

/-- REPREQ: the request stands at the die-control core until its firmware executes REPORT on the area. -/
def hostReport (s : State) (die : Nat) (w : Word) : State :=
  let a := w.toNat
  if a % 2048 = 0 ∧ dieAddr die 0 ≤ a ∧ a + 2048 ≤ dieAddr die dieBytes then s.modDie die (fun d => { d with repreq := w })
  else dropHost s

/-- DBGREQ, DBGSELW and SPAREREQ name a context that is live here. -/
def hostDebug (s : State) (w : Word) : State :=
  let ctx := wfld w 32 16
  if wfld w 48 16 ≠ 0 ∨ wfld w 9 23 ≠ 0 then dropHost s
  else if !(s.ctx ctx).live then dropHost s
  else writeDbgctl s ctx (wfld w 0 9)

def hostSelect (s : State) (w : Word) : State :=
  let ctx := wfld w 48 16
  if wfld w 32 16 ≠ 0 then dropHost s
  else if !(s.ctx ctx).live then dropHost s
  else s.modCtx ctx (fun c => { c with dbgsel := w.setWidth 32 })

def hostSpare (s : State) (w : Word) : State :=
  let ctx := wfld w 32 16
  if wfld w 48 16 ≠ 0 ∨ wfld w 12 20 ≠ 0 then dropHost s
  else if !(s.ctx ctx).live then dropHost s
  else nameSpare s ctx (wfld w 0 12)

/-! ## Life cycle (R475, R477) -/

/-- A die after a die reset: what is built in, its retirement and its identity key stay. -/
def Die.afterReset (d : Die) : Die :=
  { Die.reset with healthy := d.healthy, skipRow := d.skipRow, capRedmat := d.capRedmat, capAmp64 := d.capAmp64,
                   capWirecmp := d.capWirecmp, capHarvest := d.capHarvest, identity := d.identity }

/-- Every register file, local store, die memory and HBM is wiped, and every capability list delivered anew; the port groups and
the model's own fields stay.  The wipe of HBM goes on for 14.5 ms (R477). -/
def wipeModule (s : State) (life : LifeCycle) (modnum : Nat) : State :=
  let w : State :=
    { State.reset with dies := (List.range numDies).map (fun d => (d, (s.die d).afterReset)), life := life, modnum := modnum,
                       ports := s.ports, linkOut := s.linkOut, cy := s.cy, agenda := s.agenda, turns := s.turns,
                       opCount := s.opCount, useCount := s.useCount, free := s.free, hostReply := s.hostReply,
                       heard := s.heard, wipeNs := 14500000 }
  (healthyDies w).foldl (fun w d => capDeliver w d (capGeneration s d)) w

/-- Each die generates its identity key. -/
def newIdentities (s : State) : State :=
  let s1 := (List.range numDies).foldl (fun s d => s.modDie d (fun x => { x with identity := some (s.free + 1 + d) })) s
  { s1 with free := s.free + numDies }

def dropIdentities (s : State) : State :=
  (List.range numDies).foldl (fun s d => s.modDie d (fun x => { x with identity := none })) s

/-- Firmware installs new link keys, which take effect at the next release (R482). -/
def newLinkKeys (s : State) : State :=
  (List.range 6).foldl (fun s i =>
    let key : BitVec 256 := freeWord (s.free + 1) ++ freeWord (s.free + 2) ++ freeWord (s.free + 3) ++ freeWord (s.free + 4)
    let p := Table.get PortGroup.reset s.ports i
    { s with ports := s.ports.set i { p with nextKey := some key }, free := s.free + 4 }) s

/-- The life-cycle changes that Table 21.1 allows. -/
def toProvisioned (s : State) : State :=
  if s.life = .manufacture ∨ s.life = .deployed then newIdentities (wipeModule s .provisioned 0xFFF) else dropHost s

def toDeployed (s : State) (m : Nat) : State :=
  if s.life = .provisioned ∧ m ≤ 4094 then newLinkKeys (wipeModule s .deployed m) else dropHost s

def toDecommissioned (s : State) : State :=
  if s.life = .provisioned ∨ s.life = .deployed then dropIdentities (wipeModule s .decommissioned 0xFFF) else dropHost s

/-- A write of LCREQ. -/
def hostLife (s : State) (w : Word) : State :=
  let r := wfld w 0 2
  if wfld w 2 14 ≠ 0 ∨ wfld w 28 36 ≠ 0 ∨ (r ≠ 2 ∧ wfld w 16 12 ≠ 0) then dropHost s
  else if r = 1 then toProvisioned s
  else if r = 2 then toDeployed s (wfld w 16 12)
  else if r = 3 then toDecommissioned s
  else dropHost s

def LifeCycle.code : LifeCycle → Nat
  | .manufacture => 0
  | .provisioned => 1
  | .deployed => 2
  | .decommissioned => 3

/-! ## BAR 0 (Table 21.5) -/

/-- A write of a whole doubleword of the management function; an offset the table does not list changes nothing. -/
def mgmtWrite (s : State) (off : Nat) (w : Word) : State :=
  let d := off / 0x800
  let r := off % 0x800
  if off = 0xC000 then hostLife s w
  else if off = 0xC010 then (if w = 0 then { s with mgerr := 0 } else s)
  else if d < numDies ∧ off % 8 = 0 then
    if r < 0x200 ∧ r % 0x20 ≠ 0 then s
    else if 0x228 ≤ r then s
    else if !(s.die d).healthy then dropHost s
    else if r < 0x200 then hostTail s d (r / 0x20) w
    else if r = 0x200 then hostPreempt s d w
    else if r = 0x208 then hostReport s d w
    else if r = 0x210 then hostDebug s w
    else if r = 0x218 then hostSelect s w
    else hostSpare s w
  else s

/-- IDPUB of a die: modulus, exponent and manufacturing signature, zero to the end. -/
def idpubByte (s : State) (d i : Nat) : Byte :=
  match (s.die d).identity with
  | some k => (identityBytes k).getD i 0
  | none => 0

/-- A read of a whole doubleword; none for an offset the table does not list. -/
def mgmtRead (s : State) (off : Nat) : Option (List Byte) :=
  let d := off / 0x800
  let r := off % 0x800
  if off = 0xC000 then some (bytesOf 8 (bit (decide (s.wipeNs ≠ 0)) * 256 + s.life.code * 16))
  else if off = 0xC008 then some (bytesOf 8 s.modnum)
  else if off = 0xC010 then some (bytesOf 8 s.mgerr.toNat)
  else if d < numDies ∧ off % 8 = 0 then
    if r < 0x200 then
      (if r % 0x20 = 0 then some (bytesOf 8 (Table.get (0 : Word) (s.die d).lqtail (r / 0x20)).toNat) else none)
    else if r < 0x228 then some (bytesOf 8 0)
    else if 0x400 ≤ r ∧ r < 0x7F8 + 8 then some ((List.range 8).map (fun i => idpubByte s d (r - 0x400 + i)))
    else none
  else none

/-! ## Host events -/

/-- HOST_READ through a function: `hostReply` takes the completion's data, nothing for Unsupported Request.  A read of a line that
waits for a `.next` operation waits with it (spec/07_local_store.md R185). -/
def execHostRead (fn ctx : Nat) (va : BitVec 64) (size : Nat) (s : State) : Result :=
  .next (
    if fn = numDies then { s with hostReply := if size = 8 then (mgmtRead s va.toNat).getD [] else [] }
    else if !served s fn then { s with hostReply := [] }
    else match preRange (numGcores + fn) 0 ctx (partsOf va.toNat size) s [] with
      | .got s bs => { s with hostReply := bs.getD [] }
      | .damaged s => { s with hostReply := [] }
      | .waits => s)

/-- HOST_WRITE through a function. -/
def execHostWrite (fn ctx : Nat) (va : BitVec 64) (data : List Byte) (s : State) : Result :=
  .next (
    if fn = numDies then (if data.length = 8 then mgmtWrite s va.toNat (wordOfBytes data) else s)
    else if served s fn then hostLand s ctx va data
    else s)

def execLqtail (die queue : Nat) (tail : BitVec 64) (s : State) : Result := .next (hostTail s die queue tail)
def execRepreq (die : Nat) (value : BitVec 64) (s : State) : Result :=
  .next (if (s.die die).healthy then hostReport s die value else dropHost s)
def execDbgselw (ctx : Nat) (value : BitVec 64) (s : State) : Result :=
  .next (hostSelect s (word (ctx * 2 ^ 48 + wfld value 0 48)))
def execSparereq (ctx : Nat) (value : BitVec 64) (s : State) : Result :=
  .next (hostSpare s (word (wfld value 48 16 * 2 ^ 48 + ctx * 2 ^ 32 + wfld value 0 32)))
def execMgerrClear (s : State) : Result := .next { s with mgerr := 0 }
def execLcreqProvisioned (s : State) : Result := .next (toProvisioned s)
def execLcreqDeployed (module : BitVec 12) (s : State) : Result := .next (toDeployed s module.toNat)
def execLcreqDecommissioned (s : State) : Result := .next (toDecommissioned s)
def execModuleReset (s : State) : Result := .next (wipeModule s s.life s.modnum)

/-! ## Function-level reset (R474) -/

/-- The amplitude queue of a launch goes; the leave of its head entry returns. -/
def dropAmp (s : State) (ctx : Nat) : State :=
  ((s.ctx ctx).amp.queue.foldl (fun s e => returnAmp s ctx e) s).modAmp ctx (fun a => { a with queue := [] })

/-- Every thread, engine and router of a die stops, and its register files, stores and memory are wiped.  Amplitude entries of a
launch that has slots there go; those of another launch whose state stands there lose the die's leave, so that no pass of
theirs runs any more (DEDUCED, log entry 38). -/
def resetDie (s : State) (d : Nat) : State :=
  let mine (core : Nat) : Bool := decide (core < numCores ∧ dieOf core = d)
  let groups := s.cores.flatMap (fun e => if mine e.1 then ((e.2.run.map (·.groups)).getD []).map (·.op) else [])
  let ops := (s.engine.filter (fun o => mine o.core)).map (·.op) ++ (s.gets.filter (fun g => mine g.core)).map (·.id) ++ groups
  let s := (s.ctxs.filter (fun e => (jobDies s e.1).contains d)).foldl (fun s e => dropAmp s e.1) s
  let gen := capGeneration s d
  let stopped (t : Nat) (th : Thread) : Thread :=
    if !mine (coreOf t) then th
    else if isControl (coreOf t) then (if slotOf t = 0 then Thread.control else Thread.reset)
    else if th.st = .unheld then Thread.reset
    else { Thread.reset with st := .stopped, ctx := th.ctx, spovf := th.spovf }
  let wiped (k : Nat) (c : Core) : Core :=
    if mine k then { Core.reset with hold := c.hold, slotSet := c.slotSet, spill := c.spill, lease := c.lease } else c
  let amp (a : Amp) : Amp := { a with queue := a.queue.map (fun e => { e with leave := e.leave.filter (fun l => l.1 ≠ d) }) }
  let s :=
    { s with threads := s.threads.map (fun e => (e.1, stopped e.1 e.2)),
             cores := s.cores.map (fun e => (e.1, wiped e.1 e.2)),
             clusters := s.clusters.filter (fun e => e.1 / 32 ≠ d),
             ctxs := s.ctxs.map (fun e => (e.1, { e.2 with dies := e.2.dies.del d, amp := amp e.2.amp })),
             engine := (s.engine.filter (fun o => !mine o.core)).map (fun o =>
               { o with preds := o.preds.filter (fun p => !ops.contains p) }),
             gets := s.gets.filter (fun g => !mine g.core), starts := s.starts.filter (fun o => !mine o.byCore),
             sends := s.sends.filter (fun o => !mine o.byCore), beats := s.beats.filter (fun b => !mine b.core),
             owned := s.owned.filter (fun l => !ops.contains l.op) }
  let s := zeroRange (zeroRange s (localAddr (256 * d) 0) (256 * 0x10000)) (dieAddr d 0) dieBytes
  let s := s.dropLines (fun l => l.die = d)
  let inside (a : Nat) : Bool :=
    decide ((localAddr (256 * d) 0 ≤ a ∧ a < localAddr (256 * d) 0 + 256 * 0x10000) ∨ (dieAddr d 0 ≤ a ∧ a < dieAddr d dieBytes))
  let s := { s with ecc := s.ecc.filter (fun m => !inside m.loc) }
  let s := s.modDie d (fun x => { x.afterReset with ended := x.ended })
  capDeliver s d gen

/-- A context bound to a reset function ends, its launch with state 4; a harvest launch whose banks cannot be left yet ends
first. -/
def endBound (s : State) (ctx : Nat) : State :=
  let s := match s.job ctx with
    | none => s
    | some j => closeLaunch (if isRoot s j then s else tellRoot s j (.request ctx 5)) ctx 4
  if (s.job ctx).isSome then s else endContext s ctx

/-- FUNCTION_LEVEL_RESET: the jobs on the die vote abort and end after their rollback; the contexts bound to the function end; and
ended launches whose last wipes the reset has done are settled (spec/17_launch.md R426). -/
def execFunctionLevelReset (die : Nat) (s : State) : Result :=
  .next (
    let jobs := (s.ctxs.filter (fun e => e.2.job.isSome && (jobDies s e.1).contains die)).map (·.1)
    let s := jobs.foldl (fun s x => (s.vote x 7).modJob x (fun j => { j with doomed := true })) s
    let bound := (s.ctxs.filter (fun e => decide (e.2.bound = some die))).map (·.1)
    let wipes := s.cores.any (fun e => decide (dieOf e.1 = die) && e.2.wipe)
    let s := (List.range numDies).foldl settleEnded (bound.foldl endBound (resetDie s die))
    if wipes then dispatchEvent s (fun _ => true) else s)

/-! ## Functions, keys and slices -/

/-- TDISP_REQUEST (R471; log entry 38 for the moves). -/
def execTdispRequest (die : Nat) (request : TdispRequest) (s : State) : Result :=
  .next (s.modDie die (fun d =>
    match request, d.tdisp with
    | .lock, .unlocked => { d with tdisp := .locked }
    | .start, .locked => { d with tdisp := .run }
    | .stop, _ => { d with tdisp := .unlocked }
    | _, _ => d))

def execIdeKeyManagement (die : Nat) (key : BitVec 256) (s : State) : Result :=
  .next (s.modDie die (fun d => { d with ideKey := some key }))

/-- ROUTER_KEY_STORE_LOAD: four key ids to a router (spec/14_timetables.md R359). -/
def execRouterKeyStoreLoad (core : Nat) (id : BitVec 16) (key : BitVec 256) (load : Bool) (s : State) : Result :=
  .next (s.modCore core (fun c =>
    let rest := c.keys.filter (fun k => k.1 ≠ id.toNat)
    if !load then { c with keys := rest }
    else if rest.length < 4 then { c with keys := rest ++ [(id.toNat, key)] }
    else c))

/-- SLICE_POWER_GATING: the translation unit is flushed before gating (spec/10_pages.md R263). -/
def execSlicePowerGating (die slice : Nat) (gate : Bool) (s : State) : Result :=
  .next (s.modDie die (fun d =>
    if gate then
      { d with tlb := d.tlb.filter (fun e => e.slice ≠ slice), gated := if d.gated.contains slice then d.gated else d.gated ++ [slice] }
    else { d with gated := d.gated.filter (fun x => x ≠ slice) }))

/-- DIE_HEALTHY_AGAIN: its lines of replicated pages are the sequencer die's copies (spec/08_die_memory.md R207). -/
def execDieHealthyAgain (die : Nat) (s : State) : Result :=
  .next (
    if (s.die die).healthy then s
    else
      let q := sequencerDie s
      let copies := s.lines.filter (fun l => decide (l.die = q ∧ l.st = .replica))
      let s := (s.dropLines (fun l => decide (l.die = die ∧ l.st = .replica))).modDie die (fun d => { d with healthy := true })
      { s with lines := s.lines ++ copies.map (fun l => { l with die := die }) })

/-! ## Port groups (R482) -/

def State.modPort (s : State) (i : Nat) (f : PortGroup → PortGroup) : State :=
  { s with ports := s.ports.set i (f (Table.get PortGroup.reset s.ports i)) }

def execPortLoss (group : Nat) (s : State) : Result := .next (s.modPort group (fun p => { p with ports := p.ports - 1 }))
def execPortRetrain (group : Nat) (s : State) : Result := .next (s.modPort group (fun p => { p with retraining := false }))

/-! ## Messages of other modules -/

/-- A staged operation of another module waits for the commit (spec/11_supersteps.md R276). -/
def addStaged (s : State) (ctx addr smod gcore seqno : Nat) (act : StagedAct) : State :=
  { s with staged := s.staged ++
      [{ ctx := ctx, tmod := s.modnum, addr := addr, smod := smod, gcore := gcore, seqno := seqno, loc := addr, act := act }] }

/-- Serves a GET of another module: it is checked as a U-mode load (spec/11_supersteps.md R288; log entry 32).  A damaged word
leaves it unanswered (spec/18_traps.md R445). -/
def serveGet (s : State) (ctx addr len smod id : Nat) : State :=
  let core := numGcores + jobSequencer s ctx
  let parts := partsOf addr len
  let ok := parts.all (fun p =>
    match checkAccess s core 0 .u ctx .read p.1 with
    | .ok _ => true
    | _ => false)
  match (if ok then preRange core 0 ctx parts s [] else .got s none) with
  | .got s (some bs) => s.send smod (.getReply id true bs)
  | .got s none => (countCommitted s ctx 47 1).send smod (.getReply id false [])
  | .damaged s => s
  | .waits => s

/-- An arrival of another module reaches the root (R272, R294, R397). -/
def noteArrival (s : State) (ctx module : Nat) (votes : List Word) (quiet : Bool) (qcfg : Word) (values : List Nat) (swept : Bool)
    (arm : Option (Nat × Option Armed)) : State :=
  s.modJob ctx (fun j =>
    let j := if swept && !j.swept.contains module then { j with swept := j.swept ++ [module] } else j
    if j.arrived.contains module then j
    else { j with arrived := j.arrived ++ [module], votes := j.votes ++ votes, quiet := j.quiet || quiet,
                  ampSums := j.ampSums ++ [(qcfg, values)], arms := j.arms ++ arm.toList })

/-- The root's release reaches this module. -/
def takeRelease (s : State) (ctx : Nat) : State :=
  match s.job ctx with
  | none => s
  | some j =>
    if isRoot s j then s
    else if j.phase = .decided then askAll (releaseJob s ctx)
    else if j.phase = .placing then askAll (releaseJob (placedHere s ctx) ctx)
    else s

/-- Another module withdraws a launch: one placed here and waiting for it is taken back with PEER (spec/17_launch.md R425). -/
def takeWithdrawal (s : State) (ctx : Nat) : State :=
  let s := s.modCtx ctx (fun c => { c with withdrawals := c.withdrawals + 1, placedBy := [] })
  match s.job ctx with
  | none => s
  | some j =>
    if j.phase ≠ .placing then s
    else
      let s := withdraw s ctx j.modules
      closeLaunch (s.modJob ctx (fun j => { j with modules := [s.modnum] })) ctx 3

/-- What an authenticated message does. -/
def deliverMsg (s : State) (msg : LinkMsg) : State :=
  match msg with
  | .write ctx addr smod gcore seqno data => addStaged s ctx addr smod gcore seqno (.write data)
  | .ramo ctx addr smod gcore seqno f x cmp core slot d => addStaged s ctx addr smod gcore seqno (.ramo f x cmp core slot d)
  | .send ctx addr smod gcore seqno place cls payload sender =>
    addStaged s ctx addr smod gcore seqno
      (.send { ctx := ctx, place := place, cls := cls, payload := payload, sender := sender, fresh := false })
  | .getRequest ctx addr len smod id => serveGet s ctx addr len smod id
  | .getReply id ok data =>
    { s with gets := s.gets.map (fun (g : GetOp) => if g.id = id then { g with reply := some (ok, data) } else g) }
  | .ramoResult ctx core slot d value =>
    s.modJob ctx (fun j =>
      let r := (tid core slot, BitVec.ofNat 5 d, value)
      if j.open_ then { j with ramoNext := j.ramoNext ++ [r] } else { j with ramoRes := j.ramoRes ++ [r] })
  | .vote ctx mask =>
    -- A vote that meets the root between an abort decision and release was cast in the superstep that has been aborted.
    s.modJob ctx (fun j =>
      if j.aborted && !j.open_ then j else { j with abortMask := j.abortMask ||| mask })
  | .arrived ctx module votes quiet qcfg values swept arm => noteArrival s ctx module votes quiet qcfg values swept (ofArmMsg arm)
  | .decision ctx commit result mask sums secures stops halts arm =>
    takeDecision s ctx commit result mask sums secures stops halts (ofArmMsg arm)
  | .complete ctx module live =>
    endIfOver (s.modJob ctx (fun j =>
      { j with complete := if j.complete.contains module then j.complete else j.complete ++ [module], live := j.live || live })) ctx
  | .release ctx => takeRelease s ctx
  | .beat ctx _ core cycle kid data =>
    if (s.core core).hold = some ctx then
      { s with beats := s.beats ++ [{ core := core, dir := 4, cycle := cycle, data := data, arrived := false, kid := kid }] }
    else s
  | .slip ctx id core smod origin n => slipArrived s ctx id core smod origin n
  | .swapAccepted ctx index => swapAccepted s ctx index
  | .swapHalf ctx index data => swapHalf s ctx index data
  | .feed ctx module feed ok => noteFeed s ctx module feed ok
  | .sealed ctx module ok => noteSeal s ctx module ok
  | .secured ctx cost ok => closeSecure s ctx cost ok
  | .feedRequest ctx smod first nf => answerFeed s ctx smod first nf
  | .fillRequest ctx smod first nf number => answerFill s ctx smod first nf number
  | .imageFrame ctx side index data => s.modSv ctx (fun v => if v.filling then { v with side := side, inbox := v.inbox.set index data } else v)
  | .spare ctx module => nameSpare s ctx module
  | .fill ctx spare number => startFill s ctx spare number
  | .spareFill ctx number failed record modules words jobid live c m fails =>
    takeSpare s ctx number failed record modules words jobid live c m fails
  | .secWord ctx module w => s.modCtx ctx (fun c => { c with secWords := c.secWords.set module w })
  | .placed ctx module w =>
    let s := s.modCtx ctx (fun c =>
      { c with placedBy := if c.placedBy.contains module then c.placedBy else c.placedBy ++ [module],
               secWords := c.secWords.set module w,
               sv := if w.getLsbD 62 || c.job.isNone then c.sv else { c.sv with live := c.sv.live - 1 } })
    (match s.job ctx with
     | some j => if j.phase = .placing then startPlaced s ctx else s
     | none => s)
  | .withdrawn ctx => takeWithdrawal s ctx
  | .request ctx kind => takeRequest s ctx kind
  | .debugStep ctx id asker => stepFor s ctx id asker
  | .stepReport ctx code => s.modCtx ctx (fun c => { c with dbgSt := code, dbgNew := none })
  | .still ctx module parked => noteStill s ctx module parked
  | .secureNow ctx => secureNow s ctx
  | .svrate ctx c m fails => takeRate s ctx c m fails
  | .stop ctx state => stopHere s ctx state
  | .frameWrite addr data => if framesOk s addr data.length then s.writeN addr data else s

/-- Whether a message must wait: a GET of a line that waits for a `.next` operation (spec/07_local_store.md R185), a page of a
moving half before this module's own pass with it (spec/15_amplitudes.md R395), a decision to commit while a leased granule that
it reaches cannot be reclaimed (spec/16_harvest.md R408). -/
def msgWaits (s : State) (msg : LinkMsg) : Bool :=
  match msg with
  | .getRequest ctx addr len _ _ => (linesOf addr len).any (fun l => lineBusyNext s ctx l)
  | .swapHalf ctx index _ => (swapOpen (s.ctx ctx).amp index).isNone
  | .decision ctx commit .. => commit && (reclaimReached s ctx).isNone
  | _ => false

/-- LINK_FLIT_RECEIVE: a flit that fails its tag is discarded and the group retrains; one of a module marked
failed is discarded (spec/19_survival.md R458). -/
def execLinkFlitReceive (group : Nat) (authentic : Bool) (flit : Flit) (s : State) : Result :=
  .next (
    let p := Table.get PortGroup.reset s.ports group
    if p.down || p.retraining || msgWaits s flit.msg then s
    else
      let s := s.modPort group (fun p => { p with received := p.received + 1, retraining := !authentic })
      if !authentic || s.failedModules.contains flit.smod.toNat then s
      else deliverMsg { s with heard := s.heard.set flit.smod.toNat s.cy } flit.msg)

end Sys2Proof.Machine
end

