-- ==== Sys2Proof/Machine/Dispatch.lean ====
section
/-! DEFINITION. One arm for each row of the opcode table: its meaning. -/

namespace Sys2Proof.Machine

open Sys2Proof

/-- What an instruction or an event does in a state. -/
def exec (i : Instr) (s : State) : Host.Outcome State Fault Refusal :=
  match i with
  | .add d a b => Sys2Proof.Machine.execAdd d a b s
  | .sub d a b => Sys2Proof.Machine.execSub d a b s
  | .and d a b => Sys2Proof.Machine.execAnd d a b s
  | .or d a b => Sys2Proof.Machine.execOr d a b s
  | .xor d a b => Sys2Proof.Machine.execXor d a b s
  | .sll d a b => Sys2Proof.Machine.execSll d a b s
  | .srl d a b => Sys2Proof.Machine.execSrl d a b s
  | .sra d a b => Sys2Proof.Machine.execSra d a b s
  | .slt d a b => Sys2Proof.Machine.execSlt d a b s
  | .sltu d a b => Sys2Proof.Machine.execSltu d a b s
  | .andn d a b => Sys2Proof.Machine.execAndn d a b s
  | .orn d a b => Sys2Proof.Machine.execOrn d a b s
  | .addi d a imm => Sys2Proof.Machine.execAddi d a imm s
  | .slti d a imm => Sys2Proof.Machine.execSlti d a imm s
  | .sltiu d a imm => Sys2Proof.Machine.execSltiu d a imm s
  | .andi d a imm => Sys2Proof.Machine.execAndi d a imm s
  | .ori d a imm => Sys2Proof.Machine.execOri d a imm s
  | .xori d a imm => Sys2Proof.Machine.execXori d a imm s
  | .slli d a sh => Sys2Proof.Machine.execSlli d a sh s
  | .srli d a sh => Sys2Proof.Machine.execSrli d a sh s
  | .srai d a sh => Sys2Proof.Machine.execSrai d a sh s
  | .lih d imm => Sys2Proof.Machine.execLih d imm s
  | .pch d imm => Sys2Proof.Machine.execPch d imm s
  | .mul d a b => Sys2Proof.Machine.execMul d a b s
  | .mulh d a b => Sys2Proof.Machine.execMulh d a b s
  | .mulhu d a b => Sys2Proof.Machine.execMulhu d a b s
  | .mulhsu d a b => Sys2Proof.Machine.execMulhsu d a b s
  | .div d a b => Sys2Proof.Machine.execDiv d a b s
  | .divu d a b => Sys2Proof.Machine.execDivu d a b s
  | .rem d a b => Sys2Proof.Machine.execRem d a b s
  | .remu d a b => Sys2Proof.Machine.execRemu d a b s
  | .clz d a => Sys2Proof.Machine.execClz d a s
  | .ctz d a => Sys2Proof.Machine.execCtz d a s
  | .popc d a => Sys2Proof.Machine.execPopc d a s
  | .brev d a => Sys2Proof.Machine.execBrev d a s
  | .bext d a b => Sys2Proof.Machine.execBext d a b s
  | .bdep d a b => Sys2Proof.Machine.execBdep d a b s
  | .min d a b => Sys2Proof.Machine.execMin d a b s
  | .max d a b => Sys2Proof.Machine.execMax d a b s
  | .minu d a b => Sys2Proof.Machine.execMinu d a b s
  | .maxu d a b => Sys2Proof.Machine.execMaxu d a b s
  | .sel d a b => Sys2Proof.Machine.execSel d a b s
  | .beq a b off => Sys2Proof.Machine.execBeq a b off s
  | .bne a b off => Sys2Proof.Machine.execBne a b off s
  | .blt a b off => Sys2Proof.Machine.execBlt a b off s
  | .bge a b off => Sys2Proof.Machine.execBge a b off s
  | .bltu a b off => Sys2Proof.Machine.execBltu a b off s
  | .bgeu a b off => Sys2Proof.Machine.execBgeu a b off s
  | .jal off => Sys2Proof.Machine.execJal off s
  | .jalr d a imm => Sys2Proof.Machine.execJalr d a imm s
  | .lb d a imm => Sys2Proof.Machine.execLb d a imm s
  | .lh d a imm => Sys2Proof.Machine.execLh d a imm s
  | .lw d a imm => Sys2Proof.Machine.execLw d a imm s
  | .ld d a imm => Sys2Proof.Machine.execLd d a imm s
  | .lbu d a imm => Sys2Proof.Machine.execLbu d a imm s
  | .lhu d a imm => Sys2Proof.Machine.execLhu d a imm s
  | .lwu d a imm => Sys2Proof.Machine.execLwu d a imm s
  | .sb a b off => Sys2Proof.Machine.execSb a b off s
  | .sh a b off => Sys2Proof.Machine.execSh a b off s
  | .sw a b off => Sys2Proof.Machine.execSw a b off s
  | .sd a b off => Sys2Proof.Machine.execSd a b off s
  | .amoadd d a b => Sys2Proof.Machine.execAmoadd d a b s
  | .amoand d a b => Sys2Proof.Machine.execAmoand d a b s
  | .amoor d a b => Sys2Proof.Machine.execAmoor d a b s
  | .amoxor d a b => Sys2Proof.Machine.execAmoxor d a b s
  | .amomin d a b => Sys2Proof.Machine.execAmomin d a b s
  | .amomax d a b => Sys2Proof.Machine.execAmomax d a b s
  | .amominu d a b => Sys2Proof.Machine.execAmominu d a b s
  | .amomaxu d a b => Sys2Proof.Machine.execAmomaxu d a b s
  | .amoswap d a b => Sys2Proof.Machine.execAmoswap d a b s
  | .amocas d a b => Sys2Proof.Machine.execAmocas d a b s
  | .fenceSc sc => Sys2Proof.Machine.execFenceSc sc s
  | .baddW128 d a b => Sys2Proof.Machine.execBaddW128 d a b s
  | .bvaddF n a b => Sys2Proof.Machine.execBvaddF n a b s
  | .bvaddBh n a b => Sys2Proof.Machine.execBvaddBh n a b s
  | .bvmaxF n a b => Sys2Proof.Machine.execBvmaxF n a b s
  | .bvmaxBh n a b => Sys2Proof.Machine.execBvmaxBh n a b s
  | .bredF n a b => Sys2Proof.Machine.execBredF n a b s
  | .bredBh n a b => Sys2Proof.Machine.execBredBh n a b s
  | .get d a b => Sys2Proof.Machine.execGet d a b s
  | .getB d a b => Sys2Proof.Machine.execGetB d a b s
  | .put d a b => Sys2Proof.Machine.execPut d a b s
  | .putB d a b => Sys2Proof.Machine.execPutB d a b s
  | .ramoAdd d a b => Sys2Proof.Machine.execRamoAdd d a b s
  | .ramoAnd d a b => Sys2Proof.Machine.execRamoAnd d a b s
  | .ramoOr d a b => Sys2Proof.Machine.execRamoOr d a b s
  | .ramoXor d a b => Sys2Proof.Machine.execRamoXor d a b s
  | .ramoMin d a b => Sys2Proof.Machine.execRamoMin d a b s
  | .ramoMax d a b => Sys2Proof.Machine.execRamoMax d a b s
  | .ramoMinu d a b => Sys2Proof.Machine.execRamoMinu d a b s
  | .ramoMaxu d a b => Sys2Proof.Machine.execRamoMaxu d a b s
  | .ramoSwap d a b => Sys2Proof.Machine.execRamoSwap d a b s
  | .ramoCas d a b => Sys2Proof.Machine.execRamoCas d a b s
  | .spawn d a b n => Sys2Proof.Machine.execSpawn d a b n s
  | .send a b n c => Sys2Proof.Machine.execSend a b n c s
  | .sleep a => Sys2Proof.Machine.execSleep a s
  | .probe d a => Sys2Proof.Machine.execProbe d a s
  | .probeV d a => Sys2Proof.Machine.execProbeV d a s
  | .empty a => Sys2Proof.Machine.execEmpty a s
  | .emptyV a => Sys2Proof.Machine.execEmptyV a s
  | .qpush d a => Sys2Proof.Machine.execQpush d a s
  | .qpop d a => Sys2Proof.Machine.execQpop d a s
  | .qlen d a => Sys2Proof.Machine.execQlen d a s
  | .lcw d a => Sys2Proof.Machine.execLcw d a s
  | .lcr d a => Sys2Proof.Machine.execLcr d a s
  | .lbw d a => Sys2Proof.Machine.execLbw d a s
  | .sync d a b => Sys2Proof.Machine.execSync d a b s
  | .syncQ d a b => Sys2Proof.Machine.execSyncQ d a b s
  | .pfl a => Sys2Proof.Machine.execPfl a s
  | .wbl a => Sys2Proof.Machine.execWbl a s
  | .ssno d => Sys2Proof.Machine.execSsno d s
  | .mcfg a => Sys2Proof.Machine.execMcfg a s
  | .mjob d a b => Sys2Proof.Machine.execMjob d a b s
  | .mdrain d a b => Sys2Proof.Machine.execMdrain d a b s
  | .mstat d => Sys2Proof.Machine.execMstat d s
  | .xcopy d a b => Sys2Proof.Machine.execXcopy d a b s
  | .xcopyT d a b => Sys2Proof.Machine.execXcopyT d a b s
  | .xplane d a b => Sys2Proof.Machine.execXplane d a b s
  | .xunplane d a b => Sys2Proof.Machine.execXunplane d a b s
  | .xfill d a b => Sys2Proof.Machine.execXfill d a b s
  | .xgather d a b => Sys2Proof.Machine.execXgather d a b s
  | .xcopyNext a b => Sys2Proof.Machine.execXcopyNext a b s
  | .xcopyTNext a b => Sys2Proof.Machine.execXcopyTNext a b s
  | .xplaneNext a b => Sys2Proof.Machine.execXplaneNext a b s
  | .xunplaneNext a b => Sys2Proof.Machine.execXunplaneNext a b s
  | .xfillNext a b => Sys2Proof.Machine.execXfillNext a b s
  | .xgatherNext a b => Sys2Proof.Machine.execXgatherNext a b s
  | .ttload d a => Sys2Proof.Machine.execTtload d a s
  | .ttloadK d a => Sys2Proof.Machine.execTtloadK d a s
  | .ttgoArm a => Sys2Proof.Machine.execTtgoArm a s
  | .ttgoDisarm a => Sys2Proof.Machine.execTtgoDisarm a s
  | .ttgoPost a => Sys2Proof.Machine.execTtgoPost a s
  | .ttgoFree a => Sys2Proof.Machine.execTtgoFree a s
  | .qgate d a b => Sys2Proof.Machine.execQgate d a b s
  | .qgateAuto d a b => Sys2Proof.Machine.execQgateAuto d a b s
  | .qswap d a => Sys2Proof.Machine.execQswap d a s
  | .qprob d a => Sys2Proof.Machine.execQprob d a s
  | .qnorm d => Sys2Proof.Machine.execQnorm d s
  | .qsamp d a => Sys2Proof.Machine.execQsamp d a s
  | .qgateD d a b => Sys2Proof.Machine.execQgateD d a b s
  | .qgateAutoD d a b => Sys2Proof.Machine.execQgateAutoD d a b s
  | .qswapD d a => Sys2Proof.Machine.execQswapD d a s
  | .qprobD d a => Sys2Proof.Machine.execQprobD d a s
  | .qnormD d => Sys2Proof.Machine.execQnormD d s
  | .qsampD d a => Sys2Proof.Machine.execQsampD d a s
  | .hoffer a => Sys2Proof.Machine.execHoffer a s
  | .hstat d => Sys2Proof.Machine.execHstat d s
  | .leave d a => Sys2Proof.Machine.execLeave d a s
  | .leaveRel a => Sys2Proof.Machine.execLeaveRel a s
  | .sysr d n => Sys2Proof.Machine.execSysr d n s
  | .sysw n a => Sys2Proof.Machine.execSysw n a s
  | .sfenceVPage a => Sys2Proof.Machine.execSfenceVPage a s
  | .sfenceVContext a => Sys2Proof.Machine.execSfenceVContext a s
  | .sfenceVAll a => Sys2Proof.Machine.execSfenceVAll a s
  | .sfenceVPublish a => Sys2Proof.Machine.execSfenceVPublish a s
  | .inject a => Sys2Proof.Machine.execInject a s
  | .report a => Sys2Proof.Machine.execReport a s
  | .vadd t m d a b => Sys2Proof.Machine.execVadd t m d a b s
  | .vsub t m d a b => Sys2Proof.Machine.execVsub t m d a b s
  | .vmul t m d a b => Sys2Proof.Machine.execVmul t m d a b s
  | .vmulh t m d a b => Sys2Proof.Machine.execVmulh t m d a b s
  | .vand t m d a b => Sys2Proof.Machine.execVand t m d a b s
  | .vor t m d a b => Sys2Proof.Machine.execVor t m d a b s
  | .vxor t m d a b => Sys2Proof.Machine.execVxor t m d a b s
  | .vandn t m d a b => Sys2Proof.Machine.execVandn t m d a b s
  | .vsll t m d a b => Sys2Proof.Machine.execVsll t m d a b s
  | .vsrl t m d a b => Sys2Proof.Machine.execVsrl t m d a b s
  | .vsra t m d a b => Sys2Proof.Machine.execVsra t m d a b s
  | .vmin t m d a b => Sys2Proof.Machine.execVmin t m d a b s
  | .vmax t m d a b => Sys2Proof.Machine.execVmax t m d a b s
  | .vadds t m d a b => Sys2Proof.Machine.execVadds t m d a b s
  | .vsubs t m d a b => Sys2Proof.Machine.execVsubs t m d a b s
  | .vfadd t m d a b => Sys2Proof.Machine.execVfadd t m d a b s
  | .vfsub t m d a b => Sys2Proof.Machine.execVfsub t m d a b s
  | .vfmul t m d a b => Sys2Proof.Machine.execVfmul t m d a b s
  | .vfdiv t m d a b => Sys2Proof.Machine.execVfdiv t m d a b s
  | .vfmin t m d a b => Sys2Proof.Machine.execVfmin t m d a b s
  | .vfmax t m d a b => Sys2Proof.Machine.execVfmax t m d a b s
  | .vrcps t m d a b => Sys2Proof.Machine.execVrcps t m d a b s
  | .vrsqrts t m d a b => Sys2Proof.Machine.execVrsqrts t m d a b s
  | .vfma t m d a b => Sys2Proof.Machine.execVfma t m d a b s
  | .vfms t m d a b => Sys2Proof.Machine.execVfms t m d a b s
  | .vfnma t m d a b => Sys2Proof.Machine.execVfnma t m d a b s
  | .vfnms t m d a b => Sys2Proof.Machine.execVfnms t m d a b s
  | .vceq t m d a b => Sys2Proof.Machine.execVceq t m d a b s
  | .vcne t m d a b => Sys2Proof.Machine.execVcne t m d a b s
  | .vclt t m d a b => Sys2Proof.Machine.execVclt t m d a b s
  | .vcle t m d a b => Sys2Proof.Machine.execVcle t m d a b s
  | .vcvt t m d a g sc => Sys2Proof.Machine.execVcvt t m d a g sc s
  | .vrcp t m d a => Sys2Proof.Machine.execVrcp t m d a s
  | .vrsqrt t m d a => Sys2Proof.Machine.execVrsqrt t m d a s
  | .vsqrt t m d a => Sys2Proof.Machine.execVsqrt t m d a s
  | .vabs t m d a => Sys2Proof.Machine.execVabs t m d a s
  | .vneg t m d a => Sys2Proof.Machine.execVneg t m d a s
  | .vmov t m d a => Sys2Proof.Machine.execVmov t m d a s
  | .vredsum t m d a => Sys2Proof.Machine.execVredsum t m d a s
  | .vredmin t m d a => Sys2Proof.Machine.execVredmin t m d a s
  | .vredmax t m d a => Sys2Proof.Machine.execVredmax t m d a s
  | .vredand t m d a => Sys2Proof.Machine.execVredand t m d a s
  | .vredor t m d a => Sys2Proof.Machine.execVredor t m d a s
  | .vredxor t m d a => Sys2Proof.Machine.execVredxor t m d a s
  | .vperm t m d a b => Sys2Proof.Machine.execVperm t m d a b s
  | .vslide t m d a b => Sys2Proof.Machine.execVslide t m d a b s
  | .vbcast t m d a => Sys2Proof.Machine.execVbcast t m d a s
  | .vmerge t m d a b => Sys2Proof.Machine.execVmerge t m d a b s
  | .vld t m d a => Sys2Proof.Machine.execVld t m d a s
  | .vlds t m d a b => Sys2Proof.Machine.execVlds t m d a b s
  | .vldq t m d a => Sys2Proof.Machine.execVldq t m d a s
  | .vgather t m d a b => Sys2Proof.Machine.execVgather t m d a b s
  | .vst t m d a => Sys2Proof.Machine.execVst t m d a s
  | .vsts t m d a b => Sys2Proof.Machine.execVsts t m d a b s
  | .vstq t d a => Sys2Proof.Machine.execVstq t d a s
  | .vscatter t m d a b => Sys2Proof.Machine.execVscatter t m d a b s
  | .vmand d a b => Sys2Proof.Machine.execVmand d a b s
  | .vmor d a b => Sys2Proof.Machine.execVmor d a b s
  | .vmxor d a b => Sys2Proof.Machine.execVmxor d a b s
  | .vmnot d a => Sys2Proof.Machine.execVmnot d a s
  | .vmpopc d a => Sys2Proof.Machine.execVmpopc d a s
  | .vmfirst d a => Sys2Proof.Machine.execVmfirst d a s
  | .vmap d a b => Sys2Proof.Machine.execVmap d a b s
  | .vmapR d a b => Sys2Proof.Machine.execVmapR d a b s
  | .vloop d n => Sys2Proof.Machine.execVloop d n s
  | .tdld d a => Sys2Proof.Machine.execTdld d a s
  | .tdst d a => Sys2Proof.Machine.execTdst d a s
  | .tdset d a b => Sys2Proof.Machine.execTdset d a b s
  | .vqpush t d a => Sys2Proof.Machine.execVqpush t d a s
  | .vqpop t m d a => Sys2Proof.Machine.execVqpop t m d a s
  | .cMov d sc => Sys2Proof.Machine.execCMov d sc s
  | .cAdd d sc => Sys2Proof.Machine.execCAdd d sc s
  | .cSub d sc => Sys2Proof.Machine.execCSub d sc s
  | .cAnd d sc => Sys2Proof.Machine.execCAnd d sc s
  | .cAddi d k => Sys2Proof.Machine.execCAddi d k s
  | .cLdi d k => Sys2Proof.Machine.execCLdi d k s
  | .cSlli d k => Sys2Proof.Machine.execCSlli d k s
  | .cLdReg d sc => Sys2Proof.Machine.execCLdReg d sc s
  | .cLdG2 d k => Sys2Proof.Machine.execCLdG2 d k s
  | .cStReg d sc => Sys2Proof.Machine.execCStReg d sc s
  | .cStG2 d k => Sys2Proof.Machine.execCStG2 d k s
  | .cBeqz d off => Sys2Proof.Machine.execCBeqz d off s
  | .cBnez d off => Sys2Proof.Machine.execCBnez d off s
  | .cJ off => Sys2Proof.Machine.execCJ off s
  | .cSync d => Sys2Proof.Machine.execCSync d s
  | .cSend d c => Sys2Proof.Machine.execCSend d c s
  | .exit => Sys2Proof.Machine.execExit s
  | .yield => Sys2Proof.Machine.execYield s
  | .abort => Sys2Proof.Machine.execAbort s
  | .eret => Sys2Proof.Machine.execEret s
  | .wfi => Sys2Proof.Machine.execWfi s
  | .brk => Sys2Proof.Machine.execBrk s
  | .trap => Sys2Proof.Machine.execTrap s
  | .iflush => Sys2Proof.Machine.execIflush s
  | .cExit => Sys2Proof.Machine.execCExit s
  | .cNop => Sys2Proof.Machine.execCNop s
  | .storeBufferDrain core slot => Sys2Proof.Machine.execStoreBufferDrain core slot s
  | .icacheFill core slot => Sys2Proof.Machine.execIcacheFill core slot s
  | .sleepExpiry core slot => Sys2Proof.Machine.execSleepExpiry core slot s
  | .arrive core slot => Sys2Proof.Machine.execArrive core slot s
  | .zeroing core slot => Sys2Proof.Machine.execZeroing core slot s
  | .zeroingDone core slot => Sys2Proof.Machine.execZeroingDone core slot s
  | .spawnStart op => Sys2Proof.Machine.execSpawnStart op s
  | .deliver op => Sys2Proof.Machine.execDeliver op s
  | .taskDequeue core slot => Sys2Proof.Machine.execTaskDequeue core slot s
  | .stealRound cluster => Sys2Proof.Machine.execStealRound cluster s
  | .lineFill die ctx va => Sys2Proof.Machine.execLineFill die ctx va s
  | .recallLine op => Sys2Proof.Machine.execRecall op s
  | .mcfgEffect core => Sys2Proof.Machine.execMcfgEffect core s
  | .tilePass cluster => Sys2Proof.Machine.execTilePass cluster s
  | .drainRun core => Sys2Proof.Machine.execDrainRun core s
  | .copyRun op => Sys2Proof.Machine.execCopyRun op s
  | .nextCopyRun op => Sys2Proof.Machine.execNextCopyRun op s
  | .leaveGrant die => Sys2Proof.Machine.execLeaveGrant die s
  | .thermalEmergency die on => Sys2Proof.Machine.execThermalEmergency die on s
  | .getFill op => Sys2Proof.Machine.execGetFill op s
  | .lendingResume core => Sys2Proof.Machine.execLendingResume core s
  | .amplitudePass die => Sys2Proof.Machine.execAmplitudePass die s
  | .swapHalfArrival die index data => Sys2Proof.Machine.execSwapHalfArrival die index data s
  | .partnerTimeout die => Sys2Proof.Machine.execPartnerTimeout die s
  | .tableStart ctx => Sys2Proof.Machine.execTableStart ctx s
  | .groupFire core => Sys2Proof.Machine.execGroupFire core s
  | .beatArrival core dir => Sys2Proof.Machine.execBeatArrival core dir s
  | .debtArrival core => Sys2Proof.Machine.execDebtArrival core s
  | .tableStop core => Sys2Proof.Machine.execTableStop core s
  | .shutterDecision ctx => Sys2Proof.Machine.execShutterDecision ctx s
  | .release ctx => Sys2Proof.Machine.execRelease ctx s
  | .quiescenceSweep ctx => Sys2Proof.Machine.execQuiescenceSweep ctx s
  | .maxssExpiry ctx => Sys2Proof.Machine.execMaxssExpiry ctx s
  | .preemptionStop ctx => Sys2Proof.Machine.execPreemptionStop ctx s
  | .secureSealed ctx => Sys2Proof.Machine.execSecureSealed ctx s
  | .moduleFailed module => Sys2Proof.Machine.execModuleFailed module s
  | .spareFill ctx => Sys2Proof.Machine.execSpareFill ctx s
  | .timeCarry time => Sys2Proof.Machine.execTimeCarry time s
  | .hang ctx => Sys2Proof.Machine.execHang ctx s
  | .jobEventEntry die => Sys2Proof.Machine.execJobEventEntry die s
  | .dispatchStep die => Sys2Proof.Machine.execDispatchStep die s
  | .localStoreWipe core => Sys2Proof.Machine.execLocalStoreWipe core s
  | .wicketAdmission die => Sys2Proof.Machine.execWicketAdmission die s
  | .granuleReclaim core granule => Sys2Proof.Machine.execGranuleReclaim core granule s
  | .dieMemoryReclaim die ctx => Sys2Proof.Machine.execDieMemoryReclaim die ctx s
  | .frameWipe frame => Sys2Proof.Machine.execFrameWipe frame s
  | .dieRetirement die => Sys2Proof.Machine.execDieRetirement die s
  | .ssctlVote die ctx => Sys2Proof.Machine.execSsctlVote die ctx s
  | .ssctlKill ctx => Sys2Proof.Machine.execSsctlKill ctx s
  | .ssctlRetry ctx => Sys2Proof.Machine.execSsctlRetry ctx s
  | .ssctlPre ctx => Sys2Proof.Machine.execSsctlPre ctx s
  | .upstRet core slot value => Sys2Proof.Machine.execUpstRet core slot value s
  | .vtrapHeldClear core slot => Sys2Proof.Machine.execVtrapHeldClear core slot s
  | .qcfgWrite die ctx value => Sys2Proof.Machine.execQcfgWrite die ctx value s
  | .svctlNow ctx => Sys2Proof.Machine.execSvctlNow ctx s
  | .svctlBw ctx value => Sys2Proof.Machine.execSvctlBw ctx value s
  | .dbgctlHalt ctx => Sys2Proof.Machine.execDbgctlHalt ctx s
  | .dbgctlRun ctx => Sys2Proof.Machine.execDbgctlRun ctx s
  | .dbgctlStep ctx => Sys2Proof.Machine.execDbgctlStep ctx s
  | .hostRead fn ctx va size => Sys2Proof.Machine.execHostRead fn ctx va size s
  | .hostWrite fn ctx va data => Sys2Proof.Machine.execHostWrite fn ctx va data s
  | .lqtail die queue tail => Sys2Proof.Machine.execLqtail die queue tail s
  | .repreq die value => Sys2Proof.Machine.execRepreq die value s
  | .dbgselw ctx value => Sys2Proof.Machine.execDbgselw ctx value s
  | .sparereq ctx value => Sys2Proof.Machine.execSparereq ctx value s
  | .mgerrClear => Sys2Proof.Machine.execMgerrClear s
  | .lcreqProvisioned => Sys2Proof.Machine.execLcreqProvisioned s
  | .lcreqDeployed module => Sys2Proof.Machine.execLcreqDeployed module s
  | .lcreqDecommissioned => Sys2Proof.Machine.execLcreqDecommissioned s
  | .functionLevelReset die => Sys2Proof.Machine.execFunctionLevelReset die s
  | .moduleReset => Sys2Proof.Machine.execModuleReset s
  | .linkFlitReceive group authentic flit => Sys2Proof.Machine.execLinkFlitReceive group authentic flit s
  | .portLoss group => Sys2Proof.Machine.execPortLoss group s
  | .dieHealthyAgain die => Sys2Proof.Machine.execDieHealthyAgain die s
  | .tdispRequest die request => Sys2Proof.Machine.execTdispRequest die request s
  | .ideKeyManagement die key => Sys2Proof.Machine.execIdeKeyManagement die key s
  | .routerKeyStoreLoad core id key load => Sys2Proof.Machine.execRouterKeyStoreLoad core id key load s
  | .contextCreation die tenant fn => Sys2Proof.Machine.execContextCreation die tenant fn s
  | .contextEnd ctx => Sys2Proof.Machine.execContextEnd ctx s
  | .slicePowerGating die slice gate => Sys2Proof.Machine.execSlicePowerGating die slice gate s
  | .portRetrain group => Sys2Proof.Machine.execPortRetrain group s

end Sys2Proof.Machine
end

