-- ==== Sys2Proof/Machine/Upset.lean ====
section
/-! DEFINITION. Upsets: stored bits that flip by themselves, in every SRAM that carries check bits and in HBM
(spec/18_traps.md R444; log entry 62).  What a read of a damaged word finds is where the word is read. -/

namespace Sys2Proof.Machine

open Sys2Proof

/-- Check bits of a word after one more flip, or two where `unc`. -/
def Ecc.worse (e : Ecc) (unc : Bool) : Ecc := if !unc && decide (e = .sound) then .correctable else .uncorrectable

/-- A doubleword of local store, die memory or a present paged line. -/
def upsetMemory (s : State) (die ctx loc : Nat) (unc : Bool) : State :=
  let near := decide (localAddr 0 0 ≤ loc ∧ loc < localAddr numGcores 0 ∨ dieAddr 0 0 ≤ loc ∧ loc < dieAddr numDies 0)
  if near || (decide (loc < 2 ^ 48) && (s.line die ctx (lineOf loc)).any (fun l => l.st ≠ .pending)) then hurtWord s die ctx loc unc
  else s

/-- Whether a word is one of a core or slot that the module has. -/
def upsetPresent (a : UpsetAt) : Bool :=
  match a with
  | .register core slot _ | .queue core slot | .sequencer core slot => decide (core < numCores ∧ slot < slotsPerCore)
  | .poolEntry core .. | .icache core .. | .tableStore core _ | .accumulator core _ => decide (core < numCores)
  | .undoLine die _ | .translation die .. => decide (die < numDies)
  | .memory .. | .hbm _ | .pagedUndo .. => true

/-- Whether a number names a word of a thread's registers: g1-g31, v, m1-m7, descriptors, loop registers. -/
def registerWord (n : Nat) : Bool :=
  let r := n % 256
  let w := n / 256
  if r < 32 then decide (r ≠ 0 ∧ w = 0)
  else if r < 64 then decide (w < 8)
  else if r < 72 then decide (r ≠ 64 ∧ w = 0)
  else if r < 80 then decide (w < 4)
  else decide (r < 82 ∧ w = 0)

/-- An upset of one stored word. -/
def upset (at_ : UpsetAt) (unc : Bool) (s : State) : State :=
  if !upsetPresent at_ then s else
  let hurt {α : Type} (l : List α) (p : α → Bool) (f : α → α) : List α := l.map (fun x => if p x then f x else x)
  match at_ with
  | .memory die ctx loc => upsetMemory s die ctx loc unc
  | .hbm a =>
    if unc && decide (a < 2 ^ 40) then
      { s with ecc := s.ecc.filter (fun m => !(m.hbm && decide (m.loc = a / 8 * 8))) ++
          [{ die := 0, ctx := 0, loc := a / 8 * 8, unc := true, hbm := true }] }
    else s
  | .register core slot n =>
    if !registerWord n then s
    else s.modThread (tid core slot) (fun th => { th with regEcc := th.regEcc.set n (unc || (th.hurt n).isSome) })
  | .queue core slot => s.modThread (tid core slot) (fun th => { th with qEcc := th.qEcc.worse unc })
  | .sequencer core slot => s.modThread (tid core slot) (fun th => { th with seqEcc := th.seqEcc.worse unc })
  | .poolEntry core w line =>
    s.modCore core (fun c =>
      { c with pool := hurt c.pool (fun p => decide (p.writer = w ∧ p.line = line)) (fun p => { p with ecc := p.ecc.worse unc }) })
  | .undoLine die line =>
    s.modDie die (fun d =>
      { d with undos := hurt d.undos (fun u => decide (u.line = line)) (fun u => { u with ecc := u.ecc.worse unc }) })
  | .pagedUndo die ctx va =>
    let mine (l : CLine) : Bool := decide (l.die = die ∧ l.ctx = ctx ∧ l.va = va) && l.undo.isSome
    { s with lines := hurt s.lines mine (fun l => { l with undoEcc := l.undoEcc.worse unc }) }
  | .translation die ctx vpn =>
    s.modDie die (fun d =>
      { d with tlb := hurt d.tlb (fun e => decide (e.ctx = ctx ∧ e.vpn = vpn)) (fun e => { e with ecc := e.ecc.worse unc }) })
  | .icache core ctx line =>
    s.modCore core (fun c =>
      { c with icache := hurt c.icache (fun l => decide (l.ctx = ctx ∧ l.line = line)) (fun l => { l with ecc := l.ecc.worse unc }) })
  | .tableStore core id =>
    s.modCore core (fun c =>
      { c with tables := hurt c.tables (fun t => decide (t.id = id)) (fun t => { t with ecc := t.ecc.worse unc }) })
  | .accumulator core i =>
    if h : i < 2 then s.modCore core (fun c => { c with acc := c.acc.set i { c.acc[i] with ecc := c.acc[i].ecc.worse unc } }) else s

end Sys2Proof.Machine
end

