-- ==== Sys2Proof/Machine/Turn.lean ====
section
/-! DEFINITION. The turns of the agents: which agent moves next, and what its turn does
(spec/95_what_each_step_holds.md; log entry 5). -/

namespace Sys2Proof.Machine

open Sys2Proof

/-- The next turn: the head of the agenda, or a free one. -/
def nextTurn (s : State) : Turn × State :=
  match s.agenda with
  | t :: rest => (t, { s with agenda := rest })
  | [] => (freeTurn s.turns, { s with turns := s.turns + 1 })

/-- What comes of a slot's next instruction: what stands before it, and the instruction. -/
def attempt (core slot : Nat) (stalled : BitVec 10) (s : State) : Host.Outcome State Fault Refusal :=
  match prepareIssue core slot stalled s with
  | .done s1 => .next s1
  | .run i s1 => exec i s1

/-- Whether a slot has issued in what came of its instruction: SLOTCY counts each issue (spec/05_issue.md R119).  A stream that
parks, or that waits for its fetch, its vector stream, its store buffer or a line of memory, has not. -/
def hasIssued (core slot : Nat) (s : State) : Host.Outcome State Fault Refusal → Bool
  | .next s1 =>
    let c := s.ctxOf (tid core slot)
    decide (Table.get 0 (s.ctx c).run 32 ≠ Table.get 0 (s1.ctx c).run 32)
  | _ => true

/-- Whether a slot's scalar stream is ready in a cycle (spec/05_issue.md R116). -/
def scalarReady (s : State) (core slot : Nat) (stalled : BitVec 10) : Bool :=
  scalarAsks s core slot stalled && hasIssued core slot s (attempt core slot stalled s)

/-- Whether another stream has the scalar issue slot before a slot that is ready (R117): a ready owner ahead of it in the order; for
a sash bank also any owner slot that is Ready, and the core while it does not lend (spec/16_harvest.md R409, R411). -/
def barred (s : State) (core slot : Nat) (stalled : BitVec 10) : Bool :=
  (decide (8 ≤ slot) && ((s.core core).recalled ||
    (List.range 8).any (fun k => decide ((s.thread (tid core k)).st = .ready) || scalarReady s core k stalled))) ||
  (aheadOf (s.core core).sOrder slot).any (fun k => scalarReady s core k stalled)

/-- A scalar issue turn: the instruction, if the slot has its turn, and the end of a debug step.  A stream that does not issue
takes no turn from another, and asks for what it waits for. -/
def issueTurn (core slot : Nat) (stalled : BitVec 10) (s : State) : Host.Outcome State Fault Refusal :=
  let r := attempt core slot stalled s
  if hasIssued core slot s r && barred s core slot stalled then .next s
  else match r with
    | .next s1 => .next (finishIssue core slot s s1)
    | r => r

/-- What a turn does, the passing of time apart. -/
def act (t : Turn) (s : State) : Host.Outcome State Fault Refusal :=
  match t with
  | .issue core slot stalled =>
    if core < numCores ∧ slot < slotsPerCore then issueTurn core slot stalled s else .fault .absentAgent
  | .vissue core slot stalled =>
    if core < numCores ∧ slot < slotsPerCore then .next (finishVector core slot s (vectorTurn core slot stalled s))
    else .fault .absentAgent
  | .event i => if i.wellFormed && (encode i).isEmpty then exec i s else .fault .absentAgent
  | .firmware a => .next (firmwareTurn a s)
  | .upset a unc => .next (upset a unc s)
  | .pageRing die => .next (if die < numDies then retryRequests s die [] (s.die die).prqHeld else s)
  | .elapse n t => .next (elapse n t s)

/-- The turn passes: complete updates of capability lists are noted (spec/01_wafer.md R31), and steps made for another module
report (spec/20_accounting.md R470), and launches that it freed from being stuck start their cycles anew (spec/18_traps.md R450). -/
def passTurn (t : Turn) (r : Host.Outcome State Fault Refusal) : Host.Outcome State Fault Refusal :=
  match t, r with
  | .elapse .., r => r
  | _, .next s => .next (noteStuck (noteSteps (noteCaps s)))
  | _, r => r

/-- What a turn does. -/
def takeTurn (t : Turn) (s : State) : Host.Outcome State Fault Refusal := passTurn t (act t s)

end Sys2Proof.Machine
end

