-- ==== Sys2Proof/Machine/Step.lean ====
section
/-! DEFINITION. One step of the module: the next turn of the agenda is taken, and the agent it names moves
(spec/95_what_each_step_holds.md; log entry 5). -/

namespace Sys2Proof.Machine

open Sys2Proof

/-- One step. -/
def step (s : State) : Host.Outcome State Fault Refusal := takeTurn (nextTurn s).1 (nextTurn s).2

/-- `s` with an instruction loaded from outside where the next step fetches it, and that step next (log entry 10). -/
def State.withFetchWord (s : State) (nbits w : Nat) : State := placeProgram s (w % 2 ^ nbits)

end Sys2Proof.Machine
end

