-- ==== Sys2Proof/Safety.lean ====
section
/-! DEFINITION. The terms claims are stated in: what an instruction that completes may change, and the invariant of a run. -/

namespace Sys2Proof.Machine

open Sys2Proof

/-- Every byte of physical memory, every cached line and every damage mark is as before. -/
def SameMemory (s t : State) : Prop := (∀ a, t.read a = s.read a) ∧ t.lines = s.lines ∧ t.ecc = s.ecc

/-- Beside the running thread an issue changes the order of the core's scalar issue slot (spec/05_issue.md R117) and running
counts (spec/20_accounting.md R463); nothing else. -/
def IssueOnly (s t : State) : Prop :=
  t = { s with threads := t.threads, cores := t.cores, ctxs := t.ctxs } ∧
  (∀ u, u ≠ s.cur → t.thread u = s.thread u) ∧
  (∀ c, t.core c = { s.core c with sOrder := (t.core c).sOrder }) ∧
  (∀ c, t.ctx c = { s.ctx c with run := (t.ctx c).run }) ∧
  SameMemory s t

/-- The running instruction completes with the thread `th`, its PC the next PC. -/
def Completed (s t : State) (th : Thread) : Prop :=
  IssueOnly s t ∧ t.th = { th with came := s.th.pc, cameBr := false, pc := s.npc, stall := none }

/-- The running instruction completes with the thread `th` by a taken branch (spec/05_issue.md R137). -/
def Jumped (s t : State) (th : Thread) (target : Word) : Prop :=
  IssueOnly s t ∧ t.th = { th with came := s.th.pc, cameBr := true, pc := target, stall := none }

/-- A thread with g[d] written: g[d] is full and holds the value with sound check bits, g0 reads zero, every other register is as
before, and captured operands that wait for g[d] take the value (spec/04_threads.md R85-R88, spec/06_vector.md R142). -/
def WritesG (th th' : Thread) (d : BitVec 5) (v : Word) : Prop :=
  th' = { th with g := th'.g, gFull := th'.gFull, seq := th'.seq, image := th'.image, regEcc := th'.regEcc } ∧
  (∀ n, th'.hurt n = if n = d.toNat ∧ d ≠ 0 then none else th.hurt n) ∧
  (∀ r, th'.rg r = if r = d ∧ r ≠ 0 then v else th.rg r) ∧
  (∀ r, th'.fullG r = (decide (r = d) || th.fullG r)) ∧
  th'.seq = (if d = 0 then th.seq else th.seq.fill d v) ∧
  th'.image = (if d = 0 then th.image else th.image.map (fun i => { i with seq := i.seq.fill d v }))

/-- The running instruction completes having written g[d] and nothing else. -/
def Yields (s t : State) (d : BitVec 5) (v : Word) : Prop := ∃ th, WritesG s.th th d v ∧ Completed s t th

/-- The instruction completes in `s`, having written g[d] := v and nothing else. -/
def Writes (i : Instr) (s : State) (d : BitVec 5) (v : Word) : Prop := ∃ t, exec i s = .next t ∧ Yields s t d v

/-- The instruction completes in `s` with the running thread `th` and changes nothing else. -/
def Leaves (i : Instr) (s : State) (th : Thread) : Prop := ∃ t, exec i s = .next t ∧ Completed s t th

/-- Every general register an instruction reads is full, and its stored word is sound (spec/18_traps.md R444). -/
def FullAll (s : State) (rs : List (BitVec 5)) : Prop :=
  (∀ r ∈ rs, s.th.fullG r = true) ∧ ∀ r ∈ rs, s.th.hurt r.toNat = none

/-- No vector memory entry waits and the store buffer is empty: an instruction that waits for either goes on at once. -/
def Drained (s : State) : Prop := s.th.vectorMem = false ∧ s.th.sb = []

/-- A precise trap of the running instruction is taken now and at level S (R432): its slot is Ready, no vector entry queued
before it has still to execute (spec/06_vector.md R167), strap is free, and the mode is not M. -/
def TakesS (s : State) : Prop :=
  s.th.st = .ready ∧ s.th.vectorBusy = false ∧ s.th.strap.st = false ∧ s.th.mode ≠ .m

/-- The S-level registers that a precise trap leaves (Table 18.2, Table 18.3): of what strap held only the scratch register
stays. -/
def trapRegs (th : Thread) (code : Nat) (tval epc : Word) (wr : Bool) : TrapRegs :=
  { st := true, pm := th.mode, epc := epc &&& ~~~1#64, cause := word (code + 512 * bit wr), tval := tval, scr := th.strap.scr }

/-- The running thread takes a precise trap at level S (spec/18_traps.md R432, R433): the level's registers are
written, the mode is S, the PC the vector of its context, and every other register of the thread is as before.  No other thread
changes, and memory only by a trace record, where the context traces traps (spec/20_accounting.md R468). -/
def Trapped (s t : State) (code : Nat) (tval epc : Word) (wr : Bool) : Prop :=
  t.th = { s.th with strap := trapRegs s.th code tval epc wr, mode := .s, pc := (s.ctx s.curCtx).tvec, came := 0,
                     cameBr := false, stall := none } ∧
  (∀ u, u ≠ s.cur → t.thread u = s.thread u) ∧
  t = { s with threads := t.threads, cores := t.cores, ctxs := t.ctxs, mem := t.mem, dies := t.dies } ∧
  (∀ d, t.die d = { s.die d with undos := (t.die d).undos }) ∧
  ((s.dctx s.curDie s.curCtx).trEn.getLsbD 3 = false → IssueOnly s t)

/-- The running instruction `i` takes a precise trap at level S at its own PC. -/
def Traps (i : Instr) (s : State) (code : Nat) (tval : Word) (wr : Bool) : Prop :=
  ∃ t, exec i s = .next t ∧ Trapped s t code tval s.th.pc wr

/-- The running instruction `i` takes ACCESS at an address whose access is denied, the translation of its page having been used
(spec/10_pages.md R233). -/
def TrapsDenied (i : Instr) (s : State) (ea : Word) (wr : Bool) : Prop :=
  ∃ t, exec i s = .next t ∧ Trapped (s.deniedUse s.cur ea) t 4 (s.reach s.cur ea) s.th.pc wr

/-- What every state of a run keeps: physical memory in canonical form. -/
def Canonical (s : State) : Prop := Memory.wf s.mem = true

end Sys2Proof.Machine
end

