-- ==== Sys2Proof/Certificates/Slice0/Obligations.lean ====
section
/-! DEFINITION. The statements for the provers, family by family. -/

open Sys2Proof Sys2Proof.Machine

/-! ## Encoding and the step (spec/02_encoding.md, spec/05_issue.md) -/

/-- The 32-bit word `w` decodes to `i`, in two halfwords. -/
def WordReads (w : Nat) (i : Instr) : Prop := (decode (halvesOf (BitVec.ofNat 32 w))).toOption = some (i, 2)

/-- The word of the R layout (Table 2.2) with the given major and function. -/
def wordOf (maj f : Nat) (b a d : BitVec 5) : Nat :=
  f * 2 ^ 23 + b.toNat * 2 ^ 18 + a.toNat * 2 ^ 13 + d.toNat * 2 ^ 8 + maj * 4 + 1

/-- The instructions of a word whose operand says at run time which of them it is: TTGO and SFENCE.V beyond the first kind. -/
def laterKind : Instr → Bool
  | .ttgoDisarm _ | .ttgoPost _ | .ttgoFree _ | .sfenceVContext _ | .sfenceVAll _ | .sfenceVPublish _ => true
  | _ => false

/-- Decoding and encoding agree (R32-R44): a well-formed instruction that has a word decodes from it, whatever follows, to itself
and its length; a later kind of TTGO or SFENCE.V to the first kind, of the same word.  What decodes is well formed, and without a
prefix it encodes to exactly the halfwords read.  That the shared words decode to the first kind is the model's choice (log entry 29). -/
def Obligations.DecodeReadsEncode : Prop :=
  (∀ (i : Instr) (rest : List Half), i.wellFormed = true → encode i ≠ [] →
    ∃ k, decode (encode i ++ rest) = .ok (k, (encode i).length) ∧ encode k = encode i ∧ (laterKind i = false → k = i)) ∧
  (∀ (hs : List Half) (i : Instr) (n : Nat), decode hs = .ok (i, n) → i.wellFormed = true ∧ (n ≤ 2 → encode i = hs.take n))

/-- Words of the spec's own examples, family by family, decode to what stands beside them. -/
def Obligations.DecodesSpecWords : Prop :=
  WordReads 0xFFA0C505 (.addi 5 6 (-3)) ∧ WordReads 0x00948301 (.sub 3 4 5) ∧ WordReads 0x091A4509 (.lih 5 0x2469) ∧
  WordReads 0x0225070D (.div 7 8 9) ∧ WordReads 0x0000201D (.jalr 0 1 0) ∧ WordReads 0x020CA721 (.ld 7 5 16) ∧
  WordReads 0x001CC529 (.amoadd 5 6 7) ∧ WordReads 0x4180E539 (.probe 5 7) ∧ WordReads 0x28914339 (.send 10 4 3 17) ∧
  WordReads 0x40000039 .exit ∧ WordReads 0x00804E3D (.qpop 14 2) ∧ WordReads 0x082D4735 (.put 7 10 11) ∧
  WordReads 0x00D68945 (.mjob 9 20 21) ∧ WordReads 0x00568949 (.xcopy 9 20 21) ∧ WordReads 0x0001884D (.ttload 8 12) ∧
  WordReads 0x005A8B51 (.qgate 11 20 22) ∧ WordReads 0x00008959 (.leave 9 4) ∧ WordReads 0x4000005D .eret ∧
  WordReads 0x280C4291 (.vfadd 10 0 2 2 3) ∧ WordReads 0xA80044A1 (.vredsum 10 0 4 2) ∧ WordReads 0x003400B5 (.vmap 0 0 13) ∧
  (decode [0x3453, 0x0012, 0x0505, 0xCF00]).toOption = some (.addi 5 0 0x12345678, 4) ∧
  (decode [0xFF56]).toOption = some (.cJ (-6), 1)

/-- Reserved majors (R40, R35): a word whose major Table 2.4 leaves to no group decodes to no instruction, whatever its other
fields and whatever prefixes stand before it. -/
def Obligations.ReservedMajorsRefused : Prop :=
  ∀ (w : W32) (p : Prefixes), (∀ k ∈ [0x18, 0x19, 0x1A, 0x1B, 0x1C, 0x1D, 0x1E, 0x1F, 0x30, 0x31, 0x32, 0x33, 0x34, 0x35, 0x36, 0x37, 0x38,
    0x39, 0x3A, 0x3B, 0x3C, 0x3D, 0x3E, 0x3F], w.extractLsb' 2 6 = BitVec.ofNat 6 k → decodeWord p w = .error .reservedMajor) ∧
    ∀ rest, w.getLsbD 0 = true → w.getLsbD 1 = false → decode (halvesOf w ++ rest) = (decodeWord .none w).map (·, 2)

/-- What follows every turn but a passing of time: complete capability lists are noted, steps made for another module report, and
launches that are not stuck start their stuck cycles anew. -/
def settledTurn (t : State) : State := noteStuck (noteSteps (noteCaps t))

/-- A step runs the decoded instruction (R32, R124): with an issue turn next on a Ready slot that no other stream bars (R117), and the
halfwords of a well-formed instruction at its PC in the core's instruction cache, the step is that instruction's execution, the next PC
and the instruction word set, and what follows an issue.  An instruction that would issue while another stream has the issue slot leaves
the state as it is.  What follows every turn changes the noted capability lists, messages, the stuck cycles and what has been told of a
launch, and nothing else (R31, R450, R470).  That turns come from an agenda is the model's choice (log entry 5). -/
def Obligations.StepRunsDecoded : Prop :=
  (∀ t : State, let u := settledTurn t
    u = { t with ctxs := u.ctxs, dies := u.dies, linkOut := u.linkOut, ports := u.ports } ∧
    (∀ d, u.die d = { t.die d with capLast := (u.die d).capLast }) ∧
    (∀ c, u.ctx c = { t.ctx c with job := (u.ctx c).job, dbgAsk := (u.ctx c).dbgAsk }) ∧
    ∀ c j, t.job c = some j → ∃ n p, u.job c = some { j with stuckCy := n, toldStill := p } ∧ (n = j.stuckCy ∨ n = 0)) ∧
  (∀ (t : State) (c : Nat) (j : Job), (tellStills t).job c = some j →
    (noteStuck t).job c = some { j with stuckCy := if stuck (tellStills t) c j then j.stuckCy else 0 }) ∧
  ∀ (s : State) (core slot : Nat) (stalled : BitVec 10) (rest : List Turn), s.agenda = .issue core slot stalled :: rest →
    core < numCores → slot < slotsPerCore →
    let x := tid core slot
    let th := s.thread x
    let s0 := { s with agenda := rest }
    let after (r : Host.Outcome State Fault Refusal) : Host.Outcome State Fault Refusal :=
      match r with
      | .next t => .next (settledTurn (finishIssue core slot s0 t))
      | r => r
    (∀ i s1, prepareIssue core slot stalled s0 = .run i s1 → step s =
      if hasIssued core slot s0 (exec i s1) && barred s0 core slot stalled then .next (settledTurn s0) else after (exec i s1)) ∧
    (∀ s1, prepareIssue core slot stalled s0 = .done s1 → step s =
      if hasIssued core slot s0 (.next s1) && barred s0 core slot stalled then .next (settledTurn s0) else after (.next s1)) ∧
    (∀ (i : Instr) (l : ICLine), isControl core = false → scalarAsks s core slot stalled = true → barred s0 core slot stalled = false →
      th.st = .ready → th.pendVF = [] → th.pendRM = [] → (s.core core).icache = [l] → l.ecc = .sound → l.ctx = th.ctx →
      l.line = lineOf th.pc.toNat → i.wellFormed = true → laterKind i = false → encode i ≠ [] →
      th.pc.toNat % 64 + 2 * (encode i).length ≤ 64 →
      (∀ k < (encode i).length, (encode i).getD k 0 = BitVec.ofNat 16 (l.data.toNat >>> (8 * ((th.pc.toNat + 2 * k) % 64)))) →
      let n := th.pc + word (2 * (encode i).length)
      ∃ s1, step s = after (exec i s1) ∧ (∀ c, s1.core c = s.core c) ∧
        s1 = { s0 with cores := s1.cores, cur := x, npc := n, iw := firstWord (encode i) })

/-! ## Reset and the invariant -/

/-- Values that the spec gives for reset (R9, R117, R239, R323, R477 and the register tables): the registers of a thread, the
issue orders, the arbiter, the die's registers, free frames, and memory zero outside the inverted tables and the capability
lists.  That the capability list of a die ends at offset 112, and what an unlisted byte reads as, is the model's choice (log
entries 3 and 7). -/
def Obligations.ResetValues : Prop :=
  let s := State.reset
  (∀ t, (s.thread t).rm = 0 ∧ (s.thread t).fflags = 0 ∧ (s.thread t).strap = TrapRegs.zero ∧ (s.thread t).mtrap = TrapRegs.zero ∧
    (s.thread t).upBusy = false ∧ (s.thread t).xfrom = 0 ∧ (s.thread t).vepc = 0 ∧ (s.thread t).image = none) ∧
  (∀ g, (s.core g).sOrder = List.range 10 ∧ (s.core g).vOrder = List.range 10 ∧ (s.core g).icache = [] ∧ (s.core g).offer = 0 ∧
    (s.core g).mrerr = 0 ∧ (s.core g).xnerr = 0 ∧ (s.core g).recalled = false) ∧
  (∀ c, (s.cluster c).cur = 7 ∧ (s.cluster c).credit = 0) ∧
  (∀ d, (s.die d).cblk = 4096 ∧ (s.die d).budget = 1440 ∧ (s.die d).used = 0 ∧ (s.die d).emg = false ∧ (s.die d).devt = 0 ∧
    (s.die d).injArm = false ∧ (s.die d).injCount = 0 ∧ (s.die d).mtvec = 0 ∧ (s.die d).lqbase = 0 ∧ (s.die d).pclist = 0) ∧
  (∀ c, (s.ctx c).ptroot = 0 ∧ (s.ctx c).tvec = 0 ∧ (s.ctx c).fibent = 0 ∧ (s.ctx c).amp.qcfg = 0 ∧ s.job c = none) ∧
  (∀ k f, k < 16 → f < 786432 → frameKind s k f = if f ≤ 732164 then 0 else if f ≤ 732420 then 6 else 7) ∧
  (∀ g o, g < numGcores → o < localBytes → s.read (localAddr g o) = 0) ∧
  (∀ d o, d < numDies → 112 ≤ o → o < dieBytes → s.read (dieAddr d o) = 0) ∧
  (∀ a, a < 2 ^ 40 → a % 2 ^ 36 < invBase → s.read a = 0)

/-- Physical memory is in canonical form after reset: rising addresses, no listed byte equal to what an unlisted one reads.  What an unlisted byte reads as is the model's choice (log entry 7). -/
def Obligations.ResetKeepsForm : Prop := Canonical State.reset

/-- Whatever turn is taken, a step from a state whose memory is in canonical form leaves it in canonical form.  What an unlisted byte reads as is the model's choice (log entry 7). -/
def Obligations.CanonicalMemoryKept : Prop := ∀ s t : State, Canonical s → step s = .next t → Canonical t

/-! ## What the spec's own words fix -/

/-- R85: `g0` reads as zero and is always full, a write to it is discarded and EMPTY of it changes nothing; an operation that names
it as destination empties no register and its result is discarded; `m0` reads as all ones and a write to it is discarded.  Every
other register reads as it was last written. -/
def Obligations.ZeroRegisterHolds : Prop :=
  (∀ th : Thread, th.rg 0 = 0 ∧ th.fullG 0 = true ∧ th.rm_ 0 = BitVec.allOnes 64 ∧ th.emptyG 0 = th ∧
    (∀ v, th.wg 0 v = th) ∧ ∀ x, th.wm 0 x = th) ∧
  (∀ s : State, Leaves (.empty 0) s s.th ∧ (∀ t v, s.fillG t 0 v = s) ∧ ∀ v, s.putG 0 v = s) ∧
  (∀ (th : Thread) (d r : BitVec 5) (v : Word) (m k : BitVec 3) (x : Word), d ≠ 0 →
    (th.wg d v).rg r = (if r = d then v else th.rg r) ∧ (th.wg d v).fullG r = (decide (r = d) || th.fullG r) ∧
    (th.emptyG d).rg r = th.rg r ∧ (th.emptyG d).fullG r = (th.fullG r && decide (r ≠ d)) ∧
    (m ≠ 0 → (th.wm m x).rm_ k = if k = m then x else th.rm_ k))

/-- R129: the twelve ALU register instructions, by their words and by what each writes; nothing else changes. -/
def Obligations.AluRegisterResults : Prop :=
  ∀ (s : State) (d a b : BitVec 5),
    let x := s.th.rg a
    let y := s.th.rg b
    let n := y.toNat % 64
    ∀ f i v, (f, i, v) ∈ [(0x000, Instr.add d a b, x + y), (0x001, .sub d a b, x - y), (0x002, .and d a b, x &&& y),
        (0x003, .or d a b, x ||| y), (0x004, .xor d a b, x ^^^ y), (0x005, .sll d a b, x <<< n), (0x006, .srl d a b, x >>> n),
        (0x007, .sra d a b, x.sshiftRight n), (0x008, .slt d a b, if x.toInt < y.toInt then 1 else 0),
        (0x009, .sltu d a b, if x.toNat < y.toNat then 1 else 0), (0x00A, .andn d a b, x &&& ~~~y), (0x00B, .orn d a b, x ||| ~~~y)] →
      WordReads (wordOf 0x00 f b a d) i ∧ (FullAll s [a, b] → Writes i s d v)

/-- R135 and R136: JAL and JALR by their words; the link register takes the next PC, the target of JALR is formed from g[a] as read
before the link is written, and an odd target takes MISALIGN with g[d] unchanged. -/
def Obligations.JumpsLink : Prop :=
  (∀ off : BitVec 24, WordReads (off.toNat * 2 ^ 8 + 0x19) (.jal (off.signExtend 64))) ∧
  (∀ (s : State) (off : Word),
    ∃ t th, exec (.jal off) s = .next t ∧ WritesG s.th th 1 s.npc ∧ Jumped s t th (s.th.pc + 2 * off)) ∧
  (∀ (d a : BitVec 5) (imm : BitVec 14),
    WordReads (imm.toNat * 2 ^ 18 + a.toNat * 2 ^ 13 + d.toNat * 2 ^ 8 + 0x1D) (.jalr d a (imm.signExtend 64))) ∧
  (∀ (s : State) (d a : BitVec 5) (imm : Word), FullAll s [a] →
    let p := s.th.rg a + imm
    (p.getLsbD 0 = false → ∃ t th, exec (.jalr d a imm) s = .next t ∧ WritesG s.th th d s.npc ∧ Jumped s t th p) ∧
    (p.getLsbD 0 = true → TakesS s → Traps (.jalr d a imm) s 3 p false))

/-- R280: ABORT casts an abort vote, bit 0 of the mask from U mode and bit 2 from S or M mode, and ends the thread's part in the
superstep at once, whatever has still to drain. -/
def Obligations.AbortEndsPart : Prop :=
  ∀ (s : State) (j : Job), s.job s.curCtx = some j → ∃ t, exec .abort s = .next t ∧
    t.th = { s.th with st := .arrived, wait := .none } ∧
    t.job s.curCtx = some { j with abortMask := j.abortMask ||| (if s.th.mode = .u then 1 else 4) } ∧
    (∀ u, u ≠ s.cur → t.thread u = s.thread u) ∧ SameMemory s t

/-- R437: ERET by its word, with no other field set.  In U mode it takes PRIV.  From S mode it takes PC and mode from EPC and
status.spm and clears st, and with a sequencer image held it first waits until the sequencer is empty and reinstates the image; from
M mode it takes them from MEPC and mpm and restarts a stopped vector stream.  Nothing else of the thread changes. -/
def Obligations.EretRestores : Prop :=
  WordReads 0x4000005D .eret ∧
  (∀ d a b : BitVec 5, (d ≠ 0 ∨ a ≠ 0 ∨ b ≠ 0) → ∃ e, decode (halvesOf (BitVec.ofNat 32 (wordOf 0x17 0x080 b a d))) = .error e) ∧
  ∀ s : State,
    let th := s.th
    let back := { th with mode := th.strap.pm, pc := th.strap.epc, strap := { th.strap with st := false }, came := 0,
                          cameBr := false, stall := none }
    (th.mode = .u → TakesS s → Traps .eret s 2 s.iw false) ∧
    (th.mode = .s → th.image = none → ∃ t, exec .eret s = .next t ∧ IssueOnly s t ∧ t.th = back) ∧
    (∀ i, th.mode = .s → th.image = some i →
      (th.seq.pos < th.seq.items.length → exec .eret s = .next s) ∧
      (th.seq.items.length ≤ th.seq.pos → ∃ t, exec .eret s = .next t ∧ IssueOnly s t ∧
        t.th = { back with seq := i.seq, lc := i.lc, image := none, vhalt := false })) ∧
    (th.mode = .m → ∃ t, exec .eret s = .next t ∧ IssueOnly s t ∧
      t.th = { th with mode := th.mtrap.pm, pc := th.mtrap.epc, mtrap := { th.mtrap with st := false }, vhalt := false, came := 0,
                       cameBr := false, stall := none })

/-! ## Scalar arithmetic and control flow (spec/05_issue.md) -/

/-- ALU immediate instructions and upper immediates (R130, R131).

Multiply and divide (R132): exact products, quotients that truncate toward zero, and the corners of Table 5.5. -/
def Obligations.ImmediateAndDivideResults : Prop :=
  ((∀ (s : State) (d a : BitVec 5) (imm : Word) (sh : BitVec 6), FullAll s [a] →
     let x := s.th.rg a
     Writes (.addi d a imm) s d (x + imm) ∧ Writes (.slti d a imm) s d (if x.toInt < imm.toInt then 1 else 0) ∧
     Writes (.sltiu d a imm) s d (if x.toNat < imm.toNat then 1 else 0) ∧ Writes (.andi d a imm) s d (x &&& imm) ∧
     Writes (.ori d a imm) s d (x ||| imm) ∧ Writes (.xori d a imm) s d (x ^^^ imm) ∧
     Writes (.slli d a sh) s d (x <<< sh.toNat) ∧ Writes (.srli d a sh) s d (x >>> sh.toNat) ∧
     Writes (.srai d a sh) s d (x.sshiftRight sh.toNat)) ∧
   (∀ (s : State) (d : BitVec 5) (imm : Word),
     Writes (.lih d imm) s d (imm * 2048) ∧ Writes (.pch d imm) s d (s.th.pc + imm * 2048))) ∧
  (∀ (s : State) (d a b : BitVec 5), FullAll s [a, b] →
     let x := s.th.rg a
     let y := s.th.rg b
     Writes (.mul d a b) s d (BitVec.ofNat 64 (x.toNat * y.toNat)) ∧
     Writes (.mulh d a b) s d (BitVec.ofInt 64 (x.toInt * y.toInt / 2 ^ 64)) ∧
     Writes (.mulhu d a b) s d (BitVec.ofNat 64 (x.toNat * y.toNat / 2 ^ 64)) ∧
     Writes (.mulhsu d a b) s d (BitVec.ofInt 64 (x.toInt * (y.toNat : Int) / 2 ^ 64)) ∧
     Writes (.div d a b) s d (if y = 0 then BitVec.allOnes 64 else BitVec.ofInt 64 (x.toInt.tdiv y.toInt)) ∧
     Writes (.rem d a b) s d (if y = 0 then x else BitVec.ofInt 64 (x.toInt.tmod y.toInt)) ∧
     Writes (.divu d a b) s d (if y = 0 then BitVec.allOnes 64 else BitVec.ofNat 64 (x.toNat / y.toNat)) ∧
     Writes (.remu d a b) s d (if y = 0 then x else BitVec.ofNat 64 (x.toNat % y.toNat)))

/-- Ones of a word below bit `i`. -/
def onesBelow (w : Word) (i : Nat) : Nat := (List.range i).countP (fun k => w.getLsbD k)

/-- Bit manipulation, minimum, maximum and select (R133), bit by bit.

The compact arithmetic forms execute as their expansions (R39, Table 2.3); the next PC of either is `State.npc`. -/
def Obligations.BitAndCompactResults : Prop :=
  ((∀ (s : State) (d a : BitVec 5), FullAll s [a] →
     let x := s.th.rg a
     (∃ n ≤ 64, Writes (.clz d a) s d (BitVec.ofNat 64 n) ∧ (∀ i, 64 - n ≤ i → x.getLsbD i = false) ∧
       (n < 64 → x.getLsbD (63 - n) = true)) ∧
     (∃ n ≤ 64, Writes (.ctz d a) s d (BitVec.ofNat 64 n) ∧ (∀ i < n, x.getLsbD i = false) ∧ (n < 64 → x.getLsbD n = true)) ∧
     Writes (.popc d a) s d (BitVec.ofNat 64 (onesBelow x 64)) ∧
     (∃ r : Word, Writes (.brev d a) s d r ∧ ∀ i < 64, r.getLsbD i = x.getLsbD (63 - i))) ∧
   (∀ (s : State) (d a b : BitVec 5), FullAll s [a, b] →
     let x := s.th.rg a
     let y := s.th.rg b
     (∃ r : Word, Writes (.bext d a b) s d r ∧ (∀ i < 64, y.getLsbD i = true → r.getLsbD (onesBelow y i) = x.getLsbD i) ∧
       ∀ j, onesBelow y 64 ≤ j → r.getLsbD j = false) ∧
     (∃ r : Word, Writes (.bdep d a b) s d r ∧ ∀ i < 64, r.getLsbD i = (y.getLsbD i && x.getLsbD (onesBelow y i))) ∧
     Writes (.min d a b) s d (if x.toInt < y.toInt then x else y) ∧ Writes (.max d a b) s d (if y.toInt < x.toInt then x else y) ∧
     Writes (.minu d a b) s d (if x.toNat < y.toNat then x else y) ∧
     Writes (.maxu d a b) s d (if y.toNat < x.toNat then x else y)) ∧
   (∀ (s : State) (d a b : BitVec 5), FullAll s [d, a, b] →
     Writes (.sel d a b) s d (if s.th.rg d ≠ 0 then s.th.rg a else s.th.rg b))) ∧
  ((∀ (s : State) (d sc : BitVec 5), FullAll s [d, sc] →
     Writes (.cMov d sc) s d (s.th.rg sc) ∧ Writes (.cAdd d sc) s d (s.th.rg d + s.th.rg sc) ∧
     Writes (.cSub d sc) s d (s.th.rg d - s.th.rg sc) ∧ Writes (.cAnd d sc) s d (s.th.rg d &&& s.th.rg sc)) ∧
   (∀ (s : State) (d : BitVec 5) (k : BitVec 6), FullAll s [d] →
     Writes (.cAddi d k) s d (s.th.rg d + k.signExtend 64) ∧ Writes (.cSlli d k) s d (s.th.rg d <<< k.toNat)) ∧
   (∀ (s : State) (d : BitVec 5) (k : BitVec 6), Writes (.cLdi d k) s d (k.signExtend 64)) ∧
   (∀ (s : State), Leaves .cNop s s.th))

/-- Conditional branches and the compact branches (R134, R39): taken to PC + 2 × off exactly when the condition holds, to the
next PC otherwise; no register, flag or byte of memory changes. -/
def Obligations.BranchOutcomes : Prop :=
  ∀ (s : State) (a b : BitVec 5) (off : Word) (k : BitVec 6) (j : BitVec 11), FullAll s [a, b] →
    let x := s.th.rg a
    let y := s.th.rg b
    ∀ p ∈ [(Instr.beq a b off, off, decide (x = y)), (.bne a b off, off, decide (x ≠ y)),
           (.blt a b off, off, decide (x.toInt < y.toInt)), (.bge a b off, off, decide (y.toInt ≤ x.toInt)),
           (.bltu a b off, off, decide (x.toNat < y.toNat)), (.bgeu a b off, off, decide (y.toNat ≤ x.toNat)),
           (.cBeqz a k, k.signExtend 64, decide (x = 0)), (.cBnez a k, k.signExtend 64, decide (x ≠ 0)),
           (.cJ j, j.signExtend 64, true)],
      ∃ t, exec p.1 s = .next t ∧ if p.2.2 then Jumped s t s.th (s.th.pc + 2 * p.2.1) else Completed s t s.th

/-! ## Full and empty registers (spec/04_threads.md R85-R91) -/

/-- The scalar instructions that read general registers before anything else, with the registers they read. -/
def gReaders (d a b : BitVec 5) (imm : Word) (sh c : BitVec 6) (k : BitVec 5) (j : BitVec 6) : List (Instr × List (BitVec 5)) :=
  [Instr.add d a b, .sub d a b, .and d a b, .or d a b, .xor d a b, .sll d a b, .srl d a b, .sra d a b, .slt d a b, .sltu d a b,
   .andn d a b, .orn d a b, .mul d a b, .mulh d a b, .mulhu d a b, .mulhsu d a b, .div d a b, .divu d a b, .rem d a b, .remu d a b,
   .bext d a b, .bdep d a b, .min d a b, .max d a b, .minu d a b, .maxu d a b, .beq a b imm, .bne a b imm, .blt a b imm, .bge a b imm,
   .bltu a b imm, .bgeu a b imm, .sb a b imm, .sh a b imm, .sw a b imm, .sd a b imm].map (·, [a, b]) ++
  [Instr.addi d a imm, .slti d a imm, .sltiu d a imm, .andi d a imm, .ori d a imm, .xori d a imm, .slli d a sh, .srli d a sh,
   .srai d a sh, .clz d a, .ctz d a, .popc d a, .brev d a, .jalr d a imm, .lb d a imm, .lh d a imm, .lw d a imm, .ld d a imm,
   .lbu d a imm, .lhu d a imm, .lwu d a imm].map (·, [a]) ++
  [Instr.amoadd d a b, .amoand d a b, .amoor d a b, .amoxor d a b, .amomin d a b, .amomax d a b, .amominu d a b, .amomaxu d a b,
   .amoswap d a b, .bvaddF d a b, .bvaddBh d a b, .bvmaxF d a b, .bvmaxBh d a b, .bredF d a b, .bredBh d a b, .get d a b,
   .sync d a b, .syncQ d a b, .mjob d a b, .mdrain d a b, .xcopy d a b, .xcopyT d a b, .xplane d a b, .xunplane d a b, .xfill d a b,
   .xgather d a b, .xcopyNext a b, .xcopyTNext a b, .xplaneNext a b, .xunplaneNext a b, .xfillNext a b, .xgatherNext a b,
   .tdset d a b].map (·, [a, b]) ++
  [Instr.getB d a b, .put d a b, .putB d a b, .ramoAdd d a b, .ramoAnd d a b, .ramoOr d a b, .ramoXor d a b, .ramoMin d a b, .ramoMax d a b,
   .ramoMinu d a b, .ramoMaxu d a b, .ramoSwap d a b].map (·, [a, b, d]) ++
  [Instr.sleep a, .qpush d a, .lcw d a, .lbw d a, .pfl a, .wbl a, .mcfg a, .ttload d a, .ttloadK d a, .ttgoArm a, .ttgoDisarm a,
   .ttgoPost a, .ttgoFree a, .hoffer a, .leave d a, .leaveRel a, .tdld d a, .tdst d a].map (·, [a]) ++
  [(.sel d a b, [d, a, b]), (.amocas d a b, [d, a, b]), (.baddW128 d a b, [a, b, b + 1]), (.ramoCas d a b, [a, b, d, d + 1]),
   (.spawn d a b c, [a, b] ++ regRange d c.toNat), (.send a b k c, a :: regRange b k.toNat), (.cMov d a, [a]), (.cAdd d a, [d, a]),
   (.cSub d a, [d, a]), (.cAnd d a, [d, a]), (.cAddi d j, [d]), (.cSlli d j, [d]), (.cLdReg d a, [a]), (.cLdG2 d k, [2]),
   (.cStReg d a, [a, d]), (.cStG2 d k, [2, d]), (.cBeqz d j, [d]), (.cBnez d j, [d]), (.cSync d, [d]), (.cSend d k, [d])]

/-- Those that first check whether they may run, where they may: SFENCE.V outside U mode, INJECT and REPORT in M mode, a write of a
system register, an amplitude instruction of a form the die has. -/
def gReadersChecked (s : State) (d a b : BitVec 5) (n : BitVec 11) : List (Instr × List (BitVec 5)) :=
  (if s.th.mode = .u then [] else [Instr.sfenceVPage a, .sfenceVContext a, .sfenceVAll a, .sfenceVPublish a].map (·, [a])) ++
  (if s.th.mode = .m then [Instr.inject a, .report a].map (·, [a]) else []) ++
  (match sysModes n.toNat with
   | some (_, some w) => if s.th.mode.code < w.code then [] else [(Instr.sysw n a, [a])]
   | _ => []) ++
  [(.qgate d a b, [a, b, b + 1]), (.qgateAuto d a b, [a, b, b + 1]), (.qswap d a, [a]), (.qprob d a, [a]), (.qsamp d a, [a])] ++
  (if (s.die s.curDie).capAmp64 then
    [(.qgateD d a b, [a, b, b + 1]), (.qgateAutoD d a b, [a, b, b + 1]), (.qswapD d a, [a]), (.qprobD d a, [a]), (.qsampD d a, [a])]
   else [])

/-- A scalar instruction whose source shows empty parks the scalar stream on exactly its empty sources (R86) and has no
effect, PC included; where the empty register holds an unfilled RAMO result, WAIT_ACROSS_SHUTTER with the register's number
(spec/11_supersteps.md R290) is taken instead. -/
def Obligations.EmptySourcesPark : Prop :=
  ∀ (s : State) (d a b : BitVec 5) (imm : Word) (sh c : BitVec 6) (k : BitVec 5) (j : BitVec 6) (n : BitVec 11),
    ∀ p ∈ gReaders d a b imm sh c k j ++ gReadersChecked s d a b n, (∃ r ∈ p.2, s.th.fullG r = false) →
    ((∀ r ∈ p.2, s.th.fullG r = true ∨ s.th.ramo.getLsbD r.toNat = false) →
      ∃ t mask, exec p.1 s = .next t ∧ t = { s with threads := t.threads } ∧ (∀ u, u ≠ s.cur → t.thread u = s.thread u) ∧
        t.th = { s.th with st := .parked, wait := .regs mask } ∧
        ∀ n < 64, mask.getLsbD n = true ↔ ∃ r ∈ p.2, r.toNat = n ∧ s.th.fullG r = false) ∧
    (∀ r ∈ p.2, s.th.fullG r = false → s.th.ramo.getLsbD r.toNat = true →
      (∀ q ∈ p.2, s.th.fullG q = false → q = r) → TakesS s → Traps p.1 s 8 (word r.toNat) false)

/-- PROBE and EMPTY (R89) never park: PROBE reads the full bit, EMPTY clears it and leaves the value; the forms on `v`
registers do the same once every vector entry queued before them has executed (spec/06_vector.md R144).

The scalar queue instructions (R91): a push into a queue of eight and a pop
of an empty one park. -/
def Obligations.FullBitsAndQueues : Prop :=
  (∀ (s : State) (d a : BitVec 5),
     Writes (.probe d a) s d (if s.th.fullG a then 1 else 0) ∧ Leaves (.empty a) s (s.th.emptyG a) ∧
     (s.th.vectorBusy = false →
       Writes (.probeV d a) s d (if s.th.fullV a then 1 else 0) ∧ Leaves (.emptyV a) s (s.th.emptyV a))) ∧
  (∀ (s : State) (d a : BitVec 5),
     (FullAll s [a] →
       ((s.th.queue (qIdx d)).length < 8 →
         Leaves (.qpush d a) s (s.th.setQueue (qIdx d) (s.th.queue (qIdx d) ++ [s.th.rg a]))) ∧
       (8 ≤ (s.th.queue (qIdx d)).length →
         exec (.qpush d a) s = .next (s.modTh (fun th => { th with st := .parked, wait := .queue (qIdx d).toNat })))) ∧
     (∀ x rest, s.th.queue (qIdx a) = x :: rest → s.th.qEcc = .sound →
       ∃ t th, exec (.qpop d a) s = .next t ∧ WritesG (s.th.setQueue (qIdx a) rest) th d x ∧ Completed s t th) ∧
     (s.th.queue (qIdx a) = [] →
       exec (.qpop d a) s = .next (s.modTh (fun th => { th with st := .parked, wait := .queue (qIdx a).toNat }))) ∧
     Writes (.qlen d a) s d (word (s.th.queue (qIdx a)).length))

/-! ## Loads, stores and the store buffer (spec/07_local_store.md R173-R175, spec/09_ordering.md R211) -/

/-- The scalar loads: instruction, base register, offset, bytes, and whether the value is sign-extended (Table 7.4, R39). -/
def loadForms (d a : BitVec 5) (imm : Word) (k : BitVec 5) : List (Instr × BitVec 5 × Word × Nat × Bool) :=
  [(.lb d a imm, a, imm, 1, true), (.lh d a imm, a, imm, 2, true), (.lw d a imm, a, imm, 4, true), (.ld d a imm, a, imm, 8, false),
   (.lbu d a imm, a, imm, 1, false), (.lhu d a imm, a, imm, 2, false), (.lwu d a imm, a, imm, 4, false),
   (.cLdReg d a, a, 0, 8, false), (.cLdG2 d k, 2, k.setWidth 64 * 8, 8, false)]

/-- The scalar stores: instruction, base register, offset, value register, bytes. -/
def storeForms (a b : BitVec 5) (imm : Word) (k : BitVec 5) : List (Instr × BitVec 5 × Word × BitVec 5 × Nat) :=
  [(.sb a b imm, a, imm, b, 1), (.sh a b imm, a, imm, b, 2), (.sw a b imm, a, imm, b, 4), (.sd a b imm, a, imm, b, 8),
   (.cStReg b a, a, 0, b, 8), (.cStG2 b k, 2, k.setWidth 64 * 8, b, 8)]

/-- No sash bank holds granule `gr` of a core, and none has left it leased (spec/16_harvest.md R408, R413): the holding launch
reaches it as it stands. -/
def Unleased (s : State) (core gr : Nat) : Prop := leaseOf s core gr = none ∧ (s.core core).residue.contains (gr, true) = false

/-- The value of a load from its bytes, byte 0 least significant (spec/00_scope.md R5). -/
def loadValue (bs : List Byte) (z : Nat) (signed : Bool) : Word :=
  if signed then (BitVec.ofNat (8 * z) (ofBytes bs)).signExtend 64 else BitVec.ofNat 64 (ofBytes bs)

/-- A scalar load (R174, R175) that passes the checks of R173 and whose place answers with its bytes writes their value, sign-
or zero-extended, to g[d].  A read of the core's own local store that no engine, lease or damaged word concerns finds the bytes
as memory holds them and changes nothing else in the machine. -/
def Obligations.LoadResults : Prop :=
  ∀ (s : State) (d a : BitVec 5) (imm : Word) (k : BitVec 5) (i : Instr) (r : BitVec 5) (off : Word) (z : Nat) (signed : Bool),
    (i, r, off, z, signed) ∈ loadForms d a imm k →
    let ea := s.th.rg r + off
    FullAll s [r] → s.th.vectorMem = false → ea.toNat % z = 0 →
    ∀ q, checkAccess s s.curCore s.curSlot s.th.mode s.curCtx .read ea.toNat = .ok q →
      (∀ s' bs, loadPlace s s.cur q z = .bytes s' bs →
        ∃ t, exec i s = .next t ∧ Yields s' t d (loadValue bs z signed)) ∧
      (∀ o, q = .own o → s.th.sb = [] → s.owned = [] → s.ecc = [] → Unleased s s.curCore (o / 4096) →
        Writes i s d (loadValue (s.readN (localAddr s.curCore o) z) z signed))

/-- A scalar store (R174, R175, R211) that passes the checks of R173, finds room in the store buffer and has its pre-image or
its room to be staged appends one entry to the store buffer: the low bytes of g[b] at the bytes of the address that the check
answers, under the address that the access reaches (R113).  Nothing else changes, memory included: it takes the bytes when the
entry drains.  `s'` is the state with the
pre-image taken: `s` itself where the line of the own local store was written before in the superstep. -/
def Obligations.StoreBuffered : Prop :=
  ∀ (s : State) (a b : BitVec 5) (imm : Word) (k : BitVec 5) (i : Instr) (r : BitVec 5) (off : Word) (v : BitVec 5) (z : Nat),
    (i, r, off, v, z) ∈ storeForms a b imm k →
    let ea := s.th.rg r + off
    FullAll s [r, v] → s.th.vectorMem = false → ea.toNat % z = 0 → s.th.sb.length < 16 →
    ∀ q s', checkAccess s s.curCore s.curSlot s.th.mode s.curCtx .write ea.toNat = .ok q → storeRoom q z s = .taken s' →
      (∃ t e, exec i s = .next t ∧ Completed s' t { s'.th with sb := s'.th.sb ++ [e] } ∧ e.far = !q.near ∧ e.ea = s'.reach s'.cur ea ∧
        e.cells.length = z ∧
        ∀ n < z, e.cells[n]? = some (q.loc s'.curCore + n, BitVec.ofNat 8 ((s.th.rg v).toNat / 256 ^ n))) ∧
      (∀ o, q = .own o → Unleased s s.curCore (o / 4096) →
        (preLocal s s.curCore (writerOf s.curSlot) (lineOf o)).isSome = true → s' = s)

/-- STORE_BUFFER_DRAIN (R211): the oldest near entry reaches memory.  Where its bytes lie in local store, in lines whose
pre-image stands, or in die memory, no engine owns their lines and none is damaged, exactly the bytes of the entry change, each to
the entry's value, and the entry leaves the buffer.

A load takes the bytes that the thread's own near stores still hold, the youngest first (R211); beside g[d] only the translation
unit notes the use of a page (spec/10_pages.md R233). -/
def Obligations.StoresDrainAndForward : Prop :=
  (∀ (s : State) (core slot : Nat) (e : SbEntry) (rest : List SbEntry), slot < slotsPerCore →
     (s.thread (tid core slot)).sb = e :: rest → e.far = false → s.owned = [] → s.ecc = [] →
     (∀ c ∈ e.cells, 2 ^ 48 ≤ c.1) → (e.cells.map (·.1)).Nodup →
     (∀ c ∈ e.cells, localWindow ≤ lineOf c.1 → lineOf c.1 < dieWindow →
       (preLocal s core (writerOf slot) (lineOf c.1 - localAddr core 0)).isSome = true) →
     ∃ t, exec (.storeBufferDrain core slot) s = .next t ∧
       t = { s with threads := t.threads, mem := t.mem } ∧
       (∀ u, t.thread u = if u = tid core slot then { s.thread u with sb := rest, sbStall := none } else s.thread u) ∧
       (∀ c ∈ e.cells, t.read c.1 = c.2) ∧ (∀ x, x ∉ e.cells.map (·.1) → t.read x = s.read x)) ∧
  (∀ (s : State) (d a : BitVec 5) (imm : Word) (q : Place) (e : SbEntry) (older : List SbEntry),
     let ea := s.th.rg a + imm
     FullAll s [a] → s.th.vectorMem = false → ea.toNat % 8 = 0 → q.near = true →
     checkAccess s s.curCore s.curSlot s.th.mode s.curCtx .read ea.toNat = .ok q →
     s.th.sb = older ++ [e] → e.far = false →
     (∀ i < 8, ∃ v, e.cells[i]? = some (q.loc s.curCore + i, v)) → e.cells.length = 8 →
     ∃ t u, exec (.ld d a imm) s = .next t ∧ u = { s with dies := u.dies } ∧
       ((∀ va p, q ≠ .paged va p) → u = s) ∧ Yields u t d (BitVec.ofNat 64 (ofBytes (e.cells.map (·.2)))))

/-- The checks of a scalar access, in the order of R173: alignment first with MISALIGN, then permission with ACCESS; a write
sets the cause's wr bit.  A denied access has used its page's translation (spec/10_pages.md R233), which changes the translation
unit and the counts of its check bits alone.  VERSION_FULL follows where no pre-image or line can be taken (R182, R198).  The address that VERSION_FULL reports is the model's reading (log entry 40).

Permissions of the core's own local store (R172, Table 7.3): in U mode a slot of the holding launch reaches the area below
the spill carve-outs and nothing from 0xB800 on. -/
def Obligations.AccessChecks : Prop :=
  (∀ (s : State) (d a b : BitVec 5) (imm : Word) (k : BitVec 5) (i : Instr) (r : BitVec 5) (off : Word) (z : Nat), TakesS s →
     s.th.vectorMem = false → FullAll s [r] →
     let ea := s.th.rg r + off
     (∀ signed, (i, r, off, z, signed) ∈ loadForms d a imm k →
       (ea.toNat % z ≠ 0 → Traps i s 3 ea false) ∧
       (ea.toNat % z = 0 → checkAccess s s.curCore s.curSlot s.th.mode s.curCtx .read ea.toNat = .denied →
         TrapsDenied i s ea false) ∧
       (ea.toNat % z = 0 → ∀ q, checkAccess s s.curCore s.curSlot s.th.mode s.curCtx .read ea.toNat = .ok q →
         loadPlace s s.cur q z = .full → Traps i s 7 (q.fullAt (s.reach s.cur ea)) false)) ∧
     (∀ v, (i, r, off, v, z) ∈ storeForms a b imm k → FullAll s [v] →
       (ea.toNat % z ≠ 0 → Traps i s 3 ea true) ∧
       (ea.toNat % z = 0 → checkAccess s s.curCore s.curSlot s.th.mode s.curCtx .write ea.toNat = .denied →
         TrapsDenied i s ea true) ∧
       (ea.toNat % z = 0 → ∀ q, checkAccess s s.curCore s.curSlot s.th.mode s.curCtx .write ea.toNat = .ok q →
         s.th.sb.length < 16 → storeRoom q z s = .full → Traps i s 7 (q.fullAt (s.reach s.cur ea)) true))) ∧
  (∀ (s : State) (t : Nat) (ea : Word), ∃ ds, s.deniedUse t ea = { s with dies := ds } ∧
     (∀ d, (s.deniedUse t ea).die d = { s.die d with tlb := ((s.deniedUse t ea).die d).tlb, eccCor := ((s.deniedUse t ea).die d).eccCor,
                                                     eccUnc := ((s.deniedUse t ea).die d).eccUnc, eccRef := ((s.deniedUse t ea).die d).eccRef }) ∧
     ((∀ va, addrForm s (coreOf t) (slotOf t) ea.toNat ≠ .paged va) → s.deniedUse t ea = s)) ∧
  (∀ (s : State) (core slot off : Nat) (u : Use) (ctx : Nat), core < numGcores → slot < 8 → u ≠ .rmw →
     let ea := 2 ^ 64 - 2 ^ 16 + off
     (off < 0xB800 - spillBytes (s.core core) →
       checkAccess s core slot .u ctx u ea = if (s.core core).hold = some ctx then .ok (.own off) else .denied) ∧
     (0xB800 ≤ off → off < localBytes →
       checkAccess s core slot .u ctx u ea = .denied ∧
       checkAccess s core slot .s ctx u ea = if (s.core core).hold = some ctx then .ok (.own off) else .denied))

/-! ## Die-memory atomics, bank-ALU operations and fences (spec/08_die_memory.md R199-R203, spec/09_ordering.md R213, R214) -/

/-- No engine has still to write a line and no word is damaged. -/
def Undisturbed (s : State) : Prop := s.owned = [] ∧ s.ecc = []

/-- An atomic at `ea` reaches the byte `w` of the issuing die's memory, in a line whose undo line is taken already (R196). -/
def AtomicAt (s : State) (ea : Word) (w : Nat) : Prop :=
  checkAccess s s.curCore s.curSlot s.th.mode s.curCtx .rmw ea.toNat = .ok (.die w) ∧
  (undoOf s s.curDie (lineOf w)).isSome = true

/-- `u` is `s` with exactly the bytes `bs` at `w` changed. -/
def Stored (s u : State) (w : Nat) (bs : List Byte) : Prop :=
  u = { s with mem := u.mem } ∧ u.readN w bs.length = bs ∧ ∀ x, x < w ∨ w + bs.length ≤ x → u.read x = s.read x

/-- The die-memory atomics with the new value of Table 8.5 on the old value `o` and operand `u`. -/
def atomicForms (d a b : BitVec 5) : List (Instr × (Word → Word → Word)) :=
  [(.amoadd d a b, fun o u => o + u), (.amoand d a b, fun o u => o &&& u), (.amoor d a b, fun o u => o ||| u),
   (.amoxor d a b, fun o u => o ^^^ u), (.amomin d a b, fun o u => if u.toInt < o.toInt then u else o),
   (.amomax d a b, fun o u => if o.toInt < u.toInt then u else o), (.amominu d a b, fun o u => if u.toNat < o.toNat then u else o),
   (.amomaxu d a b, fun o u => if o.toNat < u.toNat then u else o), (.amoswap d a b, fun _ u => u)]

/-- An atomic (R199, R200) reads 8 bytes, writes the new value in the same step, and gives the old value to g[d]; AMOCAS writes
only where the old value equals g[d] as read at issue.  Every other byte of memory and every other register is as before.

BADD.W128 (R202): the 16 bytes take the sum, g[d] the unsigned carry-out. -/
def Obligations.AtomicResultsAndCarry : Prop :=
  (∀ (s : State) (d a b : BitVec 5) (w : Nat), Drained s → Undisturbed s → (s.th.rg a).toNat % 8 = 0 → AtomicAt s (s.th.rg a) w →
     (FullAll s [a, b] → ∀ p ∈ atomicForms d a b, ∃ t u, exec p.1 s = .next t ∧
       Stored s u w (bytesOf 8 (p.2 (s.readWord w) (s.th.rg b)).toNat) ∧ Yields u t d (s.readWord w)) ∧
     (FullAll s [d, a, b] →
       (s.readWord w = s.th.rg d → ∃ t u, exec (.amocas d a b) s = .next t ∧ Stored s u w (bytesOf 8 (s.th.rg b).toNat) ∧
         Yields u t d (s.readWord w)) ∧
       (s.readWord w ≠ s.th.rg d → Writes (.amocas d a b) s d (s.readWord w)))) ∧
  (∀ (s : State) (d a b : BitVec 5) (w : Nat), Drained s → Undisturbed s → FullAll s [a, b, b + 1] →
     (s.th.rg a).toNat % 16 = 0 → AtomicAt s (s.th.rg a) w →
     let o := ofBytes (s.readN w 16)
     let y := (s.th.rg (b + 1)).toNat * 2 ^ 64 + (s.th.rg b).toNat
     ∃ t u, exec (.baddW128 d a b) s = .next t ∧ Stored s u w (bytesOf 16 (o + y)) ∧
       Yields u t d (if 2 ^ 128 ≤ o + y then 1 else 0))

/-- The element operations (R203, Table 8.6): element bytes, whether the source folds into one word, and the operation on
target and source (spec/03_numbers.md R79). -/
def bankForms (n a b : BitVec 5) : List (Instr × Nat × Bool × (Nat → Nat → Nat)) :=
  [(.bvaddF n a b, 4, false, routerAdd .f), (.bvaddBh n a b, 2, false, routerAdd .bh), (.bvmaxF n a b, 4, false, routerMax .f),
   (.bvmaxBh n a b, 2, false, routerMax .bh), (.bredF n a b, 4, true, routerAdd .f),
   (.bredBh n a b, 2, true, fun t x => routerAdd .f t (x * 65536))]

/-- A bank-ALU element operation (R203) reads 4n bytes of the core's own local store and rewrites its target: element by
element, or, for BRED, one word with the elements folded in ascending order.  No register changes.

FENCE.SC (R214) completes once the vector memory entries and the store buffer are empty, and waits without effect while a
vector memory entry queued before it has not executed; IFLUSH (spec/18_traps.md R442) then drops the lines of its context from
the core's instruction cache and nothing else. -/
def Obligations.BankResultsAndFences : Prop :=
  (∀ (s : State) (n a b : BitVec 5) (w off : Nat), Drained s → Undisturbed s → FullAll s [a, b] →
     let ta := s.th.rg a
     let sa := s.th.rg b
     let len := 4 * n.toNat
     oneLine ta len = true → oneLine sa len = true → ownForm s sa = true →
     checkAccess s s.curCore s.curSlot s.th.mode s.curCtx .read sa.toNat = .ok (.own off) →
     Unleased s s.curCore (off / 4096) → AtomicAt s ta w →
     ∀ p ∈ bankForms n a b,
       let es := elemsOf p.2.1 (s.readN (localAddr s.curCore off) len)
       let new := if p.2.2.1 then bytesOf 4 (es.foldl p.2.2.2 (ofBytes (s.readN w 4)))
         else (List.zipWith p.2.2.2 (elemsOf p.2.1 (s.readN w len)) es).flatMap (bytesOf p.2.1)
       ∃ t u, exec p.1 s = .next t ∧ Stored s u w new ∧ IssueOnly u t ∧
         t.th = { s.th with came := s.th.pc, cameBr := false, pc := s.npc, stall := none }) ∧
  (∀ (s : State) (sc : BitVec 2),
     (Drained s → Leaves (.fenceSc sc) s s.th ∧
       ∃ t u, exec .iflush s = .next t ∧ Completed s u s.th ∧
         t = { u with cores := t.cores } ∧ (∀ c, c ≠ s.curCore → t.core c = u.core c) ∧
         t.core s.curCore = { u.core s.curCore with icache := (s.core s.curCore).icache.filter (fun l => l.ctx ≠ s.curCtx) }) ∧
     (s.th.vectorMem = true → exec (.fenceSc sc) s = .next s ∧ exec .iflush s = .next s))

/-! ## Remote operations (spec/11_supersteps.md R286-R291) -/

/-- A remote target passes: the word is in its limits (R287), the address a multiple of 8, and on this module every part of the
target is permitted (R288). -/
def RemoteOk (s : State) (t w : Word) (n : Nat) (block : Bool) (use : Use) : Prop :=
  badRemote w block = false ∧ t.toNat % 8 = 0 ∧
  (remoteModule s w = s.modnum → ∀ p ∈ partsOf t.toNat n,
    ∃ q, checkAccess s s.curCore s.curSlot s.th.mode s.curCtx use (p.1 % 2 ^ 64) = .ok q)

/-- What a far operation staged at `t` in `s` adds: one staged operation and the thread's next sequence number (R276, R291);
nothing of memory changes before the shutter (spec/09_ordering.md R217). -/
def StagedIn (s u : State) (m : Nat) (addr : Word) (act : StagedAct) : Prop :=
  ∃ o, u = { s with staged := s.staged ++ [o], threads := u.threads } ∧ o.act = act ∧ o.tmod = m ∧ o.addr = addr.toNat ∧
    o.ctx = s.curCtx ∧ o.gcore = s.curCore ∧ o.seqno = s.curSlot * 2 ^ 28 + s.th.farSeq ∧
    u.th = { s.th with farSeq := s.th.farSeq + 1 } ∧ ∀ x, x ≠ s.cur → u.thread x = s.thread x

/-- GET and GET.B (R286, R289) issue: the operation is recorded, g[d] is emptied until it fills, and the lines that a GET.B will
write are pending (R185).

PUT, PUT.B and the RAMO operations capture their operands at issue and stage one operation at the address that their target
reaches (R113, R286, R290, R291); the
destination of a RAMO is empty and holds an unfilled result until release. -/
def Obligations.RemoteOperationsIssue : Prop :=
  (∀ (s : State) (d a b : BitVec 5), Drained s →
     let ta := s.th.rg a
     let w := s.th.rg b
     (FullAll s [a, b] → RemoteOk s ta w 8 false .read →
       ∃ t u, exec (.get d a b) s = .next t ∧ Completed u t (s.th.emptyG d) ∧
         u = { s with opCount := s.opCount + 1, gets := s.gets ++
           [{ id := s.opCount + 1, ctx := s.curCtx, core := s.curCore, slot := s.curSlot, d := d.toNat, tmod := remoteModule s w,
              addr := ta.toNat, len := 8, dest := none, reply := none, held := false }] }) ∧
     (FullAll s [a, b, d] → RemoteOk s ta w (wfld w 48 16) true .read → ∀ ps, ownPlaces s .write (s.th.rg d) (wfld w 48 16) = some ps →
       ∃ t u, exec (.getB d a b) s = .next t ∧ Completed u t (s.th.emptyG d) ∧
         u = { s with opCount := s.opCount + 1, owned := u.owned, gets := s.gets ++
           [{ id := s.opCount + 1, ctx := s.curCtx, core := s.curCore, slot := s.curSlot, d := d.toNat, tmod := remoteModule s w,
              addr := ta.toNat, len := wfld w 48 16, dest := some (ps.map (fun x => (x.2.2.loc s.curCore, x.2.1))), reply := none, held := false }] } ∧
         ∀ l, (∃ o ∈ u.owned, o.op = s.opCount + 1 ∧ o.line = l) ↔
           (∃ o ∈ s.owned, o.op = s.opCount + 1 ∧ o.line = l) ∨
           l ∈ ps.map (fun x => lineOf (x.2.2.loc s.curCore)))) ∧
  (∀ (s : State) (d a b : BitVec 5), Drained s →
     let ta := s.th.rg a
     let w := s.th.rg b
     let m := remoteModule s w
     let at_ (s : State) : Word := if m = s.modnum then s.reach s.cur ta else ta
     (FullAll s [a, b, d] → RemoteOk s ta w 8 false .write → ∀ s1, stageRoom s s.cur 8 = some s1 →
       ∃ t u, exec (.put d a b) s = .next t ∧ StagedIn s1 u m (at_ s) (.write (bytesOf 8 (s.th.rg d).toNat)) ∧ Completed u t u.th) ∧
     (FullAll s [a, b, d] → RemoteOk s ta w (wfld w 48 16) true .write → ownRange s .read (s.th.rg d) (wfld w 48 16) = true →
       ∀ s1 s2 bs, ownBytes s (s.th.rg d).toNat (wfld w 48 16) = .bytes s1 bs → stageRoom s1 s1.cur (wfld w 48 16) = some s2 →
         ∃ t u, exec (.putB d a b) s = .next t ∧ StagedIn s2 u m (at_ s1) (.write bs) ∧ Completed u t u.th) ∧
     (∀ p ∈ [(Instr.ramoAdd d a b, 0), (.ramoAnd d a b, 1), (.ramoOr d a b, 2), (.ramoXor d a b, 3), (.ramoMin d a b, 4),
             (.ramoMax d a b, 5), (.ramoMinu d a b, 6), (.ramoMaxu d a b, 7), (.ramoSwap d a b, 8), (.ramoCas d a b, 9)],
       FullAll s ([a, b, d] ++ if p.2 = 9 then [d + 1] else []) → RemoteOk s ta w 8 false .write → localForm s ta = false →
       ∀ s1, stageRoom s s.cur 8 = some s1 →
         ∃ t u, exec p.1 s = .next t ∧
           StagedIn s1 u m (at_ s) (.ramo p.2 (s.th.rg (if p.2 = 9 then d + 1 else d)) (s.th.rg d) s.curCore s.curSlot d.toNat) ∧
           Completed u t (if d = 0 then u.th else
             { u.th.emptyG d with ramo := u.th.ramo ||| BitVec.ofNat 32 (2 ^ d.toNat) })))

/-! ## Threads (spec/04_threads.md) -/

/-- The controllers may act on a cluster's queue at once: no operation has still to write a line of it, and no word of it is damaged. -/
def QueueFree (s : State) (ctx cluster : Nat) : Prop :=
  queueWait s ctx cluster = none ∧ queueMarks s ctx cluster = [] ∧ (s.cluster cluster).qStall = none

/-- SPAWN and SEND (R93-R99, R102), placement word and entry address in order, the store buffer drained: a started child is on its
way with the copied registers and its identity word in g[d]; where no slot is open it is enqueued in the cluster's task queue, with
0x4000_0000 in g[d], its 40 doublewords after the entries there; with no queue or a full one g[d] gets 0x8000_0000 and nothing is
created; a same-die SEND is on its way, a cross-die SEND is staged for the commit.  That a ring outside the allotment is no queue, and
that the controllers wait for lines that an operation has still to write, is the model's choice (log entry 13).

The checks of SPAWN and SEND (R93, R95): a failing placement word takes ACCESS at the word, an odd entry address MISALIGN
at the address. -/
def Obligations.SpawnsAndSends : Prop :=
  (∀ (s : State) (d a b : BitVec 5) (n : BitVec 6) (k : BitVec 5) (c : BitVec 6), Drained s →
     let p := s.th.rg a
     (FullAll s ([a, b] ++ regRange d n.toNat) → badPlacement s p true = false → (s.th.rg b).getLsbD 0 = false →
       (∀ g slot, findSlot s s.curCtx p.toNat = some (g, slot) →
         ∃ t, exec (.spawn d a b n) s = .next t ∧
           Yields (noteSent { s with opCount := s.opCount + 1, starts := s.starts ++
             [{ id := s.opCount + 1, ctx := s.curCtx, core := g, slot := slot, pc := s.th.rg b, d := d.toNat,
                image := (regRange d n.toNat).map s.th.rg, byCore := s.curCore, bySlot := s.curSlot }] })
             t d ((identity s g slot).setWidth 64)) ∧
       (findSlot s s.curCtx p.toNat = none → QueueFree s s.curCtx (clusterOf (wfld p 0 13)) →
         let cl := clusterOf (wfld p 0 13)
         let ws := spawnTask s p (s.th.rg b) d.toNat n.toNat ((regRange d n.toNat).map s.th.rg)
           (identity s s.curCore s.curSlot).toNat
         (taskQueue s s.curCtx cl = none → Writes (.spawn d a b n) s d 0x80000000) ∧
         (∀ q, taskQueue s s.curCtx cl = some q → q.cap ≤ q.count → Writes (.spawn d a b n) s d 0x80000000) ∧
         (∀ q u, taskQueue s s.curCtx cl = some q → enqueue s s.curCtx cl ws = .queued u →
           (∃ t, exec (.spawn d a b n) s = .next t ∧ Yields (noteReceived (noteSent u) s.curCtx true) t d 0x40000000) ∧
           q.count < q.cap ∧
           (q.at_ + 16 ≤ q.slot q.count ∨ q.slot q.count + 320 ≤ q.at_ →
             (∀ i < 40, u.readWord (q.slot q.count + 8 * i) = word (ws.getD i 0)) ∧
             u.readWord (q.at_ + 8) = word ((s.readWord (q.at_ + 8)).toNat + 2 ^ 32))))) ∧
     (∀ i r m cl, (i, r, m, cl) ∈ [(Instr.send a b k c, b, k.toNat, c.toNat), (.cSend a k, 0, 0, k.toNat)] →
       let msg (same : Bool) : Message :=
         { ctx := s.curCtx, place := p, cls := cl, payload := (regRange r m).map s.th.rg,
           sender := identity s s.curCore s.curSlot, fresh := same }
       FullAll s (a :: regRange r m) → badPlacement s p false = false →
       (dieOf (wfld p 0 13) = s.curDie → ∃ t u, exec i s = .next t ∧ Completed u t u.th ∧
         u = noteSent { s with opCount := s.opCount + 1, sends := s.sends ++
           [{ id := s.opCount + 1, msg := msg true, byCore := s.curCore, bySlot := s.curSlot }] }) ∧
       (dieOf (wfld p 0 13) ≠ s.curDie → ∀ s1, stageRoom s s.cur (8 * m) = some s1 → ∃ t u, exec i s = .next t ∧
         StagedIn s1 u s.modnum (word (localAddr (wfld p 0 13) 0)) (.send (msg false)) ∧ Completed u t u.th))) ∧
  (∀ (s : State) (d a b : BitVec 5) (n : BitVec 6) (k : BitVec 5) (c : BitVec 6), TakesS s → s.th.vectorMem = false →
     let p := s.th.rg a
     (FullAll s ([a, b] ++ regRange d n.toNat) →
       (badPlacement s p true = true → Traps (.spawn d a b n) s 4 p false) ∧
       (badPlacement s p true = false → (s.th.rg b).getLsbD 0 = true → Traps (.spawn d a b n) s 3 (s.th.rg b) false)) ∧
     (FullAll s (a :: regRange b k.toNat) → badPlacement s p false = true → Traps (.send a b k c) s 4 p false))

/-- A thread as it starts in a slot (R84, R64): entry address, U mode, the registers received, every other register zero and
full, `m0` all ones, queues and sequencer empty; no other slot changes. -/
def Started (s t : State) (ctx core slot : Nat) (pc : Word) (regs : BitVec 5 → Word) : Prop :=
  let th := t.thread (tid core slot)
  (th.st = .ready ∨ th.st = .halted) ∧ th.ctx = ctx ∧ th.pc = pc ∧ th.mode = .u ∧ (∀ r, th.rg r = if r = 0 then 0 else regs r) ∧
  (∀ r, th.fullG r = true) ∧ (∀ r, th.rv r = 0 ∧ th.fullV r = true) ∧ (∀ r, th.rm_ r = if r = 0 then BitVec.allOnes 64 else 0) ∧
  (∀ q, th.queue q = []) ∧ th.seq = Seq.empty ∧ th.rm = 0 ∧ th.fflags = 0 ∧ th.prng = identity s core slot ^^^ 0x9E3779B9 ∧
  ∀ u, u ≠ tid core slot → t.thread u = s.thread u

/-- Registers g[d] to g[d + n - 1] from a list, zero elsewhere. -/
def copied (d : Nat) (l : List Word) (r : BitVec 5) : Word :=
  if d ≤ r.toNat ∧ r.toNat < d + l.length then l.getD (r.toNat - d) 0 else 0

/-- What a message's routine finds (R96): payload in g1 to g[count], the sender in g31. -/
def received (count : Nat) (m : Message) (r : BitVec 5) : Word :=
  if r = 31 then m.sender.setWidth 64 else if 1 ≤ r.toNat ∧ r.toNat ≤ count then m.payload.getD (r.toNat - 1) 0 else 0

/-- SPAWN_START, DELIVER and TASK_DEQUEUE start threads with the state of R84 (R95, R96, R102): the child of a SPAWN with the
copied registers, a message's routine with its payload, a queued task as SPAWN or the message would have started it.  A message that
names an absent class or an odd entry is dropped and counted in TQDROP; one that finds no slot is enqueued where the queue has room
and no message of its context is held, and is held otherwise (R102, R103); an Idle slot that no queued task admits takes the oldest held
message that admits it.

STEAL_ROUND (R104): with one context to look for, a cluster that meets the condition begins a round, and the round it has
begun takes the oldest stealable task of the first neighbour that has one.  That a message looks for a slot before it is held and that
the controllers wait for lines of a queue is the model's choice (log entry 13), that a round takes two turns too (log entry 14). -/
def Obligations.ThreadsStartAndSteal : Prop :=
  ((∀ (s : State) (op : Nat) (o : SpawnOp), s.starts.find? (fun x => x.id = op) = some o → o.d + o.image.length ≤ 32 →
     ∃ t, exec (.spawnStart op) s = .next t ∧ Started s t o.ctx o.core o.slot o.pc (copied o.d o.image) ∧
       t.starts = s.starts.filter (fun x => x.id ≠ op)) ∧
   (∀ (s : State) (op : Nat) (o : SendOp), s.sends.find? (fun x => x.id = op) = some o →
     let e := classEntry s o.msg.ctx o.msg.cls
     (badClass e = false → e.2 ≤ 8 → ∀ c k, findSlot { s with sends := s.sends.filter (fun x => x.id ≠ op) } o.msg.ctx
         o.msg.place.toNat = some (c, k) →
       ∃ t, exec (.deliver op) s = .next t ∧ Started s t o.msg.ctx c k e.1 (received e.2 o.msg) ∧
         t.sends = s.sends.filter (fun x => x.id ≠ op)) ∧
     (badClass e = true → ∃ t, exec (.deliver op) s = .next t ∧ t.threads = s.threads ∧
       t.sends = s.sends.filter (fun x => x.id ≠ op) ∧
       Table.get 0 (t.ctx o.msg.ctx).run 42 = min (Table.get 0 (s.ctx o.msg.ctx).run 42 + 1) (2 ^ 64 - 1)) ∧
     let u := { s with sends := s.sends.filter (fun x => x.id ≠ op) }
     let cl := clusterOf (wfld o.msg.place 0 13)
     (badClass e = false → findSlot s o.msg.ctx o.msg.place.toNat = none →
       ((s.cluster cl).held.any (fun h => h.ctx = o.msg.ctx) = true →
         exec (.deliver op) s = .next (u.modCluster cl (fun c => { c with held := c.held ++ [o.msg] }))) ∧
       ((s.cluster cl).held.any (fun h => h.ctx = o.msg.ctx) = false → QueueFree s o.msg.ctx cl →
         (∀ v, enqueue u o.msg.ctx cl (messageTask u o.msg) = .queued v →
           exec (.deliver op) s = .next (noteReceived v o.msg.ctx o.msg.fresh)) ∧
         (∀ q, (taskQueue s o.msg.ctx cl = none ∨ taskQueue s o.msg.ctx cl = some q ∧ q.cap ≤ q.count) →
           exec (.deliver op) s = .next (u.modCluster cl (fun c => { c with held := c.held ++ [o.msg] })))))) ∧
   (∀ (s s' : State) (core slot i : Nat) (q : TaskQueue) (tk : Task),
     let ctx := (s.thread (tid core slot)).ctx
     isControl core = false → mayStart s ctx = true → slotOpen s ctx core slot = true → slot ∈ slotsFor s ctx →
     QueueFree s ctx (clusterOf core) →
     taskQueue s ctx (clusterOf core) = some q → findTask s q (fun t => admits t.place core) = some (i, tk) →
     removeTask s (clusterOf core) q i = some s' → (s'.cluster (clusterOf core)).held = [] →
     (tk.spawn = true → tk.d + tk.n ≤ 32 → ∃ t, exec (.taskDequeue core slot) s = .next t ∧
       Started s' t ctx core slot tk.pc (copied tk.d ((List.range tk.n).map (fun k => tk.img.getD (tk.d + k) 0)))) ∧
     (let e := classEntry s' ctx tk.cls
      tk.spawn = false → badClass e = false → e.2 ≤ 8 → ∃ t, exec (.taskDequeue core slot) s = .next t ∧
        Started s' t ctx core slot e.1 (fun r => if r = 31 then tk.sender
          else if 1 ≤ r.toNat ∧ r.toNat ≤ e.2 then (tk.img.take tk.n).getD (r.toNat - 1) 0 else 0))) ∧
   (∀ (s : State) (core slot : Nat) (m : Message),
     let ctx := (s.thread (tid core slot)).ctx
     let cl := clusterOf core
     isControl core = false → mayStart s ctx = true → slotOpen s ctx core slot = true → slot ∈ slotsFor s ctx → QueueFree s ctx cl →
     (∀ q, taskQueue s ctx cl = some q → findTask s q (fun t => admits t.place core) = none) →
     (s.cluster cl).held.find? (fun h => decide (h.ctx = ctx) && admits h.place.toNat core) = some m →
     let e := classEntry s ctx m.cls
     badClass e = false → e.2 ≤ 8 → ∃ t, exec (.taskDequeue core slot) s = .next t ∧
       Started s t ctx core slot e.1 (received e.2 m) ∧ (t.cluster cl).held = (s.cluster cl).held.erase m)) ∧
  (∀ (s : State) (cluster ctx : Nat),
     (∀ x, ctx = x ↔ (x ∈ (s.cluster cluster).stealing.map (·.1) ∨ ∃ i < 8, ∃ k < slotsPerCore,
       (s.thread (tid (gcoreAt cluster i) k)).st = .idle ∧ (s.thread (tid (gcoreAt cluster i) k)).ctx = x)) →
     (∀ c ∈ cluster :: neighbours cluster, QueueFree s ctx c) →
     ((s.cluster cluster).stealing.find? (fun e => e.1 = ctx) = none → mayStealAt s ctx cluster = true →
       exec (.stealRound cluster) s = .next (s.modCluster cluster (fun c => { c with stealing := c.stealing.set ctx s.time }))) ∧
     (∀ t0 n rest q i tk c k s', (s.cluster cluster).stealing.find? (fun e => e.1 = ctx) = some (ctx, t0) →
       neighbours cluster = n :: rest →
       let u := s.modCluster cluster (fun c => { c with stealing := c.stealing.del ctx })
       stealable u ctx n = some (q, i, tk) → thief u ctx cluster = some (c, k) → tk.spawn = true → tk.d + tk.n ≤ 32 →
       mayStart u ctx = true → removeTask u n q i = some s' → (s'.cluster n).held = [] →
       ∃ t, exec (.stealRound cluster) s = .next t ∧
         Started s' t ctx c k tk.pc (copied tk.d ((List.range tk.n).map (fun j => tk.img.getD (tk.d + j) 0)))))

/-- EXIT, YIELD and SLEEP (R107-R110): EXIT ends the scalar stream, its open loop bodies close (R148) and the slot waits for its
drains; YIELD moves its slot to the end of both issue orders and changes nothing else of the machine but the PC and the issue's
count; SLEEP of 0 is complete at once, any other parks the slot until the count runs out, when SLEEP_EXPIRY passes the next PC,
the slot is Ready (or stays stopped between the steps of a debugger) and an owner slot's core is recalled
(spec/16_harvest.md R409).

The clearing of a slot (R108, R111): once the drains of an EXIT are over its record is marked invalid, a held one apart, the RAMO
results on their way to it go to no register (spec/11_supersteps.md R290), the slot is Zeroing and its spill carve-out clears;
once the carve-out is clear the slot is Idle with every register as at a thread start, and until then it stays Zeroing.  The order
of the clearing and the payload of its trace record are the model's choice (log entry 40). -/
def Obligations.ThreadsLeaveAndClear : Prop :=
  ((∀ (s : State) (i : Instr), i = .exit ∨ i = .cExit → ∃ t, exec i s = .next t ∧ IssueOnly s t ∧
     t.th = { s.th.closeSeq with st := .parked, wait := .exitDrain, startNs := none }) ∧
   (∀ s : State, ∃ u t, exec .yield s = .next t ∧ Completed s u s.th ∧ t = { u with cores := t.cores } ∧
     ∀ c, t.core c = if c = s.curCore then
         { s.core c with sOrder := rotate (s.core c).sOrder s.curSlot, vOrder := rotate (s.core c).vOrder s.curSlot }
       else s.core c) ∧
   (∀ (s : State) (a : BitVec 5), FullAll s [a] →
     let w := s.th.rg a
     (w = 0 → Leaves (.sleep a) s s.th) ∧
     (w ≠ 0 → ∃ t, exec (.sleep a) s = .next t ∧ IssueOnly s t ∧
       t.th = { s.th with st := .parked, wait := .sleep, parkNpc := s.npc, sleepEnd := s.cy + min w.toNat (2 ^ 32 - 1) })) ∧
   (∀ (s : State) (core slot : Nat), slot < slotsPerCore →
     let x := tid core slot
     let th := s.thread x
     th.st = .parked → th.wait = .sleep →
     (s.cy < th.sleepEnd → exec (.sleepExpiry core slot) s = .next s) ∧
     (th.sleepEnd ≤ s.cy → ∃ t, exec (.sleepExpiry core slot) s = .next t ∧
       t.thread x = { th with st := if betweenSteps s x then .halted else .ready, wait := .none, came := th.pc, cameBr := false,
                              pc := th.parkNpc, stall := none } ∧
       (∀ u, u ≠ x → t.thread u = s.thread u) ∧ (∀ c, c ≠ core → t.core c = s.core c) ∧
       t.core core = (if slot < 8 ∧ isControl core = false ∧ betweenSteps s x = false then
         { s.core core with recalled := true, idleCy := 0, wakeCy := some s.cy } else s.core core) ∧
       t = { s with threads := t.threads, cores := t.cores, ctxs := t.ctxs, mem := t.mem, dies := t.dies } ∧
       (∀ d, t.die d = { s.die d with undos := (t.die d).undos }) ∧
       (bankSeated s core = false → t = { s with threads := t.threads, cores := t.cores })))) ∧
  ((∀ (s s' : State) (core slot : Nat), isControl core = false → slot < slotsPerCore →
     let x := tid core slot
     let th := s.thread x
     th.st = .parked → th.wait = .exitDrain → seqDone th = true → th.sb = [] → namesRegister s core slot = false →
     (th.heldRec = true ∧ s' = s ∨ th.heldRec = false ∧ writeRecord s core slot 8 (bytesOf 8 0) = .taken s') →
     (s.ecc = [] → th.heldRec = false → 2 ^ 48 ≤ recordLoc s core slot → s'.readN (recordLoc s core slot + 8) 8 = List.replicate 8 0) ∧
     ∃ u t, exec (.zeroing core slot) s = .next t ∧ t = (clearCarve u core slot).1 ∧
       u = { dropRamo s' core slot with threads := u.threads, ctxs := u.ctxs, mem := u.mem, dies := u.dies, free := s'.free + 1 } ∧
       (∀ d, u.die d = { s'.die d with undos := (u.die d).undos }) ∧
       (∀ y, u.thread y = if y = x then { s'.thread y with st := .zeroing, wait := .none } else s'.thread y) ∧
       ((s'.dctx (dieOf core) th.ctx).trEn.getLsbD 1 = false → u.mem = s'.mem ∧ u.dies = s'.dies ∧
         u.ctxs = (dropRamo s' core slot).ctxs) ∧
       (∀ o ∈ u.staged, ∀ f v c d, o.act = .ramo f v c core slot d → o.kept = false → d = 0) ∧
       (carveSize u core slot = 0 → t = u) ∧
       (s.ecc = [] → (clearCarve u core slot).2 = true → ∀ l ∈ carveLines u core slot, t.readLine l = 0)) ∧
   (∀ (s s' : State) (core slot : Nat) (clear : Bool), slot < slotsPerCore →
     let x := tid core slot
     let th := s.thread x
     th.st = .zeroing → clearCarve s core slot = (s', clear) → (carveSize s core slot = 0 → s' = s ∧ clear = true) ∧
     (clear = false → exec (.zeroingDone core slot) s = .next s') ∧
     (clear = true → ∃ t, exec (.zeroingDone core slot) s = .next t ∧ t = { s' with threads := t.threads, dies := t.dies } ∧
       (∀ y, y ≠ x → t.thread y = s'.thread y) ∧ (∀ d, t.die d = { s'.die d with dispatch := (t.die d).dispatch }) ∧
       let v := t.thread x
       v = { Thread.reset with st := .idle, ctx := th.ctx, spovf := th.spovf, heldRec := th.heldRec, startC := th.startC,
                               startH := th.startH, began := th.began } ∧
       (∀ r, v.rg r = 0 ∧ v.fullG r = true) ∧ (∀ r, v.rv r = 0 ∧ v.fullV r = true) ∧
       (∀ r, v.rm_ r = if r = 0 then BitVec.allOnes 64 else 0) ∧ (∀ q, v.queue q = []) ∧ v.seq = Seq.empty ∧ v.fflags = 0)))

/-! ## Supersteps (spec/11_supersteps.md R265-R293) -/

/-- SYNC and SYNC.Q in the order of R269: a vote word outside Table 11.2 and a keep mask of more than 30 registers take
ACCESS; otherwise the thread waits for its drains with the vote, the mask without g0 and g[d] and with every unfilled RAMO
register in it, and its next PC.  `c.sync gd` is `sync g0, gd, g0`.

SSNO (R266) reads the superstep number, in every mode, and reads no register.

ARRIVE (R271, R272): once the waits of R269 are over the thread's record holds its kept registers, its vote stands, the
slot is Arrived (or, for SYNC.Q, Zeroing with its record held, R293), and its queues are empty. -/
def Obligations.SyncsAndArrivals : Prop :=
  (∀ (s : State) (i : Instr) (d a b : BitVec 5) (quiet : Bool),
     (i, d, a, b, quiet) ∈ [(Instr.sync d a b, d, a, b, false), (.syncQ d a b, d, a, b, true), (.cSync a, 0, a, 0, false)] →
     FullAll s [a, b] →
     let vote := s.th.rg b
     let keep : BitVec 32 := ((s.th.rg a).setWidth 32 ||| s.th.ramo) &&& ~~~(1#32) &&& ~~~(BitVec.ofNat 32 (2 ^ d.toNat))
     (badVote vote = true → TakesS s → Traps i s 4 vote false) ∧
     (badVote vote = false → 30 < popcount 32 keep.toNat → TakesS s → Traps i s 4 (s.th.rg a) false) ∧
     (badVote vote = false → popcount 32 keep.toNat ≤ 30 → s.th.heldRec = false → vote.getLsbD 44 = false →
       ∃ t, exec i s = .next t ∧ IssueOnly s t ∧
         t.th = { s.th.closeSeq with st := .parked, wait := .arrivalDrain,
                                     arr := some { d := d, keep := keep, vote := vote, quiet := quiet, pc := s.th.pc, npc := s.npc } })) ∧
  (∀ (s : State) (d : BitVec 5) (j : Job), s.job s.curCtx = some j → Writes (.ssno d) s d (word j.ssno)) ∧
  (∀ (s : State) (core slot : Nat) (r : Arrival) (j : Job) (s' : State), isControl core = false →
    let t0 := tid core slot
    let th := s.thread t0
    th.arr = some r → mayArrive s core slot = true → th.regEcc = [] →
    writeRecord s core slot 0 (recordBytes th r) = .taken s' →
    s'.job th.ctx = some j → s'.thread t0 = th → (s'.dctx (dieOf core) th.ctx).trEn = 0 →
    ∃ t, exec (.arrive core slot) s = .next t ∧
      t.thread t0 = { th with st := if r.quiet then .zeroing else .arrived, wait := .none, arr := none,
                              q := Vector.replicate 4 [], heldRec := r.quiet || th.heldRec,
                              startH := if r.quiet then th.startNs else th.startH } ∧
      t.job th.ctx = some { j with votes := j.votes ++ [r.vote], quiet := j.quiet || r.quiet } ∧
      (∀ u, u ≠ t0 → t.thread u = s'.thread u) ∧ t.mem = s'.mem)

/-! ## The vector stream (spec/06_vector.md R140-R163) -/

/-- A vector instruction with the entry it queues: operation, type code, mask, destination, the two source fields, and whether
each names a g register, captured at queuing (R142). -/
abbrev VForm := Instr × VOp × BitVec 4 × BitVec 3 × BitVec 5 × BitVec 5 × Bool × Bool

/-- Integer operations (Table 6.4). -/
def vectorInts (t : BitVec 4) (m : BitVec 3) (d a b : BitVec 5) : List VForm :=
  [(.vadd t m d a b, .int .add, t, m, a, b, false, false), (.vsub t m d a b, .int .sub, t, m, a, b, false, false),
   (.vmul t m d a b, .int .mul, t, m, a, b, false, false), (.vmulh t m d a b, .int .mulh, t, m, a, b, false, false),
   (.vand t m d a b, .int .and, t, m, a, b, false, false), (.vor t m d a b, .int .or, t, m, a, b, false, false),
   (.vxor t m d a b, .int .xor, t, m, a, b, false, false), (.vandn t m d a b, .int .andn, t, m, a, b, false, false),
   (.vsll t m d a b, .int .sll, t, m, a, b, false, false), (.vsrl t m d a b, .int .srl, t, m, a, b, false, false),
   (.vsra t m d a b, .int .sra, t, m, a, b, false, false), (.vmin t m d a b, .int .min, t, m, a, b, false, false),
   (.vmax t m d a b, .int .max, t, m, a, b, false, false), (.vadds t m d a b, .int .adds, t, m, a, b, false, false),
   (.vsubs t m d a b, .int .subs, t, m, a, b, false, false)]

/-- Floating-point operations (Table 6.5). -/
def vectorFloats (t : BitVec 4) (m : BitVec 3) (d a b : BitVec 5) : List VForm :=
  [(.vfadd t m d a b, .fp .add, t, m, a, b, false, false), (.vfsub t m d a b, .fp .sub, t, m, a, b, false, false),
   (.vfmul t m d a b, .fp .mul, t, m, a, b, false, false), (.vfdiv t m d a b, .fp .div, t, m, a, b, false, false),
   (.vfmin t m d a b, .fp .min, t, m, a, b, false, false), (.vfmax t m d a b, .fp .max, t, m, a, b, false, false),
   (.vrcps t m d a b, .fp .rcps, t, m, a, b, false, false), (.vrsqrts t m d a b, .fp .rsqrts, t, m, a, b, false, false),
   (.vfma t m d a b, .fp .fma, t, m, a, b, false, false), (.vfms t m d a b, .fp .fms, t, m, a, b, false, false),
   (.vfnma t m d a b, .fp .fnma, t, m, a, b, false, false), (.vfnms t m d a b, .fp .fnms, t, m, a, b, false, false)]

/-- Comparisons, conversions and special functions (R153-R155). -/
def vectorCompares (t : BitVec 4) (m : BitVec 3) (d a b : BitVec 5) (g : BitVec 4) (sr : BitVec 1) : List VForm :=
  [(.vceq t m d a b, .cmp .eq, t, m, a, b, false, false), (.vcne t m d a b, .cmp .ne, t, m, a, b, false, false),
   (.vclt t m d a b, .cmp .lt, t, m, a, b, false, false), (.vcle t m d a b, .cmp .le, t, m, a, b, false, false),
   (.vcvt t m d a g sr, .cvt g (decide (sr = 1)), t, m, a, 0, false, false), (.vrcp t m d a, .spec .rcp, t, m, a, 0, false, false),
   (.vrsqrt t m d a, .spec .rsqrt, t, m, a, 0, false, false), (.vsqrt t m d a, .spec .sqrt, t, m, a, 0, false, false),
   (.vabs t m d a, .spec .abs, t, m, a, 0, false, false), (.vneg t m d a, .spec .neg, t, m, a, 0, false, false),
   (.vmov t m d a, .spec .mov, t, m, a, 0, false, false)]

/-- Reductions, permutations and merges (R157, R158). -/
def vectorMoves (t : BitVec 4) (m : BitVec 3) (d a b : BitVec 5) : List VForm :=
  [(.vredsum t m d a, .red .sum, t, m, a, 0, false, false), (.vredmin t m d a, .red .min, t, m, a, 0, false, false),
   (.vredmax t m d a, .red .max, t, m, a, 0, false, false), (.vredand t m d a, .red .and, t, m, a, 0, false, false),
   (.vredor t m d a, .red .or, t, m, a, 0, false, false), (.vredxor t m d a, .red .xor, t, m, a, 0, false, false),
   (.vperm t m d a b, .perm, t, m, a, b, false, false), (.vslide t m d a b, .slide, t, m, a, b, false, true),
   (.vbcast t m d a, .bcast, t, m, a, 0, true, false), (.vmerge t m d a b, .merge, t, m, a, b, false, false)]

/-- Loads, stores and queue moves (R159-R161). -/
def vectorMemory (t : BitVec 4) (m : BitVec 3) (d a b : BitVec 5) : List VForm :=
  [(.vld t m d a, .load .unit, t, m, a, 0, true, false), (.vlds t m d a b, .load .strided, t, m, a, b, true, true),
   (.vldq t m d a, .load .queued, t, m, a, 0, false, false), (.vgather t m d a b, .load .indexed, t, m, a, b, true, false),
   (.vst t m d a, .store .unit, t, m, a, 0, true, false), (.vsts t m d a b, .store .strided, t, m, a, b, true, true),
   (.vscatter t m d a b, .store .indexed, t, m, a, b, true, false), (.vstq t d a, .storeQueue, t, 0, a, 0, false, false),
   (.vqpush t d a, .qpush, t, 0, a, 0, false, false), (.vqpop t m d a, .qpop, t, m, a, 0, false, false)]

/-- Mask operations (R156). -/
def vectorMasks (d a b : BitVec 5) : List VForm :=
  [(.vmand d a b, .mand, 0, 0, a, b, false, false), (.vmor d a b, .mor, 0, 0, a, b, false, false),
   (.vmxor d a b, .mxor, 0, 0, a, b, false, false), (.vmnot d a, .mnot, 0, 0, a, 0, false, false),
   (.vmpopc d a, .mpopc, 0, 0, a, 0, false, false), (.vmfirst d a, .mfirst, 0, 0, a, 0, false, false)]

/-- Every vector instruction. -/
def vectorForms (t : BitVec 4) (m : BitVec 3) (d a b : BitVec 5) (g : BitVec 4) (sr : BitVec 1) : List VForm :=
  vectorInts t m d a b ++ vectorFloats t m d a b ++ vectorCompares t m d a b g sr ++ vectorMoves t m d a b ++
    vectorMemory t m d a b ++ vectorMasks d a b

/-- Queuing (R142): with room for an entry a vector instruction completes at once, whatever its vector registers hold; its
entry joins the end of the sequencer with the g operands captured, a value or the register that it waits for, the rounding
mode and the PC, and the stream moves up to the next entry that it can execute; nothing else of the thread changes.  With 16 entries
held the stream is not ready; a g operand that waits for a RAMO result traps as it is queued (R290; that it does so then is the model's
choice, log entry 42). -/
def Obligations.VectorEntriesQueue : Prop :=
  ∀ (s : State) (t : BitVec 4) (m : BitVec 3) (d a b : BitVec 5) (g : BitVec 4) (sr : BitVec 1) (i : Instr) (op : VOp)
    (t' : BitVec 4) (m' : BitVec 3) (a' b' : BitVec 5) (ga gb : Bool),
    (i, op, t', m', a', b', ga, gb) ∈ vectorForms t m d a b g sr →
    let due (use : Bool) (r : BitVec 5) : Prop := use = true ∧ s.th.fullG r = false ∧ s.th.ramo.getLsbD r.toNat = true
    let taken (use : Bool) (r : BitVec 5) : Capture :=
      if use then (if s.th.fullG r then .val (s.th.rg r) else .wait r) else .none
    (¬ due ga a' → ¬ due gb b' →
      (entryCount s.th.seq.items < 16 → s.th.regEcc = [] →
        let e : VEntry := { op := op, t := t', m := m', d := d, a := a', b := b', ca := taken ga a', cb := taken gb b', rm := s.th.rm,
                            pc := s.th.pc, popped := none }
        Leaves i s (Thread.settle { s.th with seq := { s.th.seq with items := s.th.seq.items ++ [.entry e] } }) ∧
        (s.th.seq.frames = [] → s.th.seq.pos = 0 → s.th.seq.items = [] →
          Leaves i s { s.th with seq := { s.th.seq with items := [.entry e] } })) ∧
      (16 ≤ entryCount s.th.seq.items → exec i s = .next s)) ∧
    (TakesS s → due ga a' → Traps i s 8 (word a'.toNat) false) ∧
    (TakesS s → ¬ due ga a' → due gb b' → Traps i s 8 (word b'.toNat) false)

/-- The integer operations of Table 6.4 on two elements of `w` bits, signed where `sg`. -/
def laneForms (w : Nat) (sg : Bool) : List (VIntOp × (Nat → Nat → Nat)) :=
  let signed (x : Nat) : Int := if x < 2 ^ (w - 1) then (x : Int) else (x : Int) - 2 ^ w
  let n (x : Nat) : Int := if sg then signed x else x
  let low (x : Int) : Nat := (x % 2 ^ w).toNat
  let sat (x : Int) : Int := max (if sg then -2 ^ (w - 1) else 0) (min (if sg then 2 ^ (w - 1) - 1 else 2 ^ w - 1) x)
  [(.add, fun x y => (x + y) % 2 ^ w), (.sub, fun x y => (x + (2 ^ w - y)) % 2 ^ w), (.and, fun x y => x &&& y),
   (.or, fun x y => x ||| y), (.xor, fun x y => x ^^^ y), (.andn, fun x y => x &&& (x ^^^ y)),
   (.sll, fun x y => x * 2 ^ (y % w) % 2 ^ w), (.srl, fun x y => x / 2 ^ (y % w)), (.sra, fun x y => low (signed x / 2 ^ (y % w))),
   (.min, fun x y => if n x < n y then x else y), (.max, fun x y => if n y < n x then x else y),
   (.mul, fun x y => x * y % 2 ^ w), (.mulh, fun x y => low (n x * n y / 2 ^ w)), (.adds, fun x y => low (sat (n x + n y))),
   (.subs, fun x y => low (sat (n x - n y)))]

/-- The head entry of a slot's vector stream, the only one, executes in its turn with the captured values `ca` and `cb`; nothing that it
reads is damaged. -/
def HeadRuns (s : State) (core slot : Nat) (stalled : BitVec 10) (e : VEntry) (ca cb : Word) : Prop :=
  let th := s.thread (tid core slot)
  core < numCores ∧ slot < slotsPerCore ∧ headEntry s core slot stalled = some (e, ca, cb) ∧ mayVector s core slot stalled = true ∧
  th.seq = { items := [.entry e], pos := 0, frames := [] } ∧ e.popped = none ∧ th.wait ≠ .wfi ∧ th.seqEcc = .sound ∧
  th.qEcc = .sound ∧ th.regEcc = []

/-- An entry has executed: the thread is `u`, its sequencer empty, and beside it only issue orders and counters moved. -/
def HeadDone (s t : State) (x : Nat) (u : Thread) : Prop :=
  t.thread x = { u with seq := Seq.empty } ∧ (∀ y, y ≠ x → t.thread y = s.thread y) ∧
  t = { s with threads := t.threads, cores := t.cores, ctxs := t.ctxs }

/-- v[d] alone has changed among the vector registers: it is full, and its elements of `w` bytes are `f`. -/
def Lanes (th u : Thread) (d : BitVec 5) (w : Nat) (f : Nat → Nat) : Prop :=
  (∀ r, u.fullV r = (decide (r = d) || th.fullV r)) ∧ (∀ r, r ≠ d → u.rv r = th.rv r) ∧ ∀ i < 64 / w, elem (u.rv d) w i = f i

/-- What the operations that act element by element give, with their flags: floating point (R152), special functions (R153) and
permutations (R158), from the elements of the sources and the old destination. -/
def laneResults (e : VEntry) (ca cb : Word) (a b d : Nat → Nat) : List (VOp × (Nat → FRes)) :=
  let w := elemBytes e.t
  let n := 64 / w
  let mode := RMode.ofRm e.rm
  [VFpOp.add, .sub, .mul, .div, .min, .max, .rcps, .rsqrts, .fma, .fms, .fnma, .fnms].map (fun op =>
    (VOp.fp op, fun i => fpElem op (fmtOf e.t) mode (a i) (b i) (d i))) ++
  [VSpecOp.rcp, .rsqrt, .sqrt, .abs, .neg, .mov].map (fun op => (VOp.spec op, fun i => specElem op e.t mode (a i))) ++
  [(.perm, fun i => (a (b i % n), 0)),
   (.slide, fun i => (if 0 ≤ (i : Int) + cb.toInt ∧ (i : Int) + cb.toInt < n then a ((i : Int) + cb.toInt).toNat else 0, 0)),
   (.bcast, fun _ => (ca.toNat, 0))]

/-- The flags of the active elements together. -/
def gathered (l : List Nat) (f : Nat → FRes) : FFlags := l.foldl (fun x i => x ||| (f i).2) 0

/-- The head entry of a slot's vector stream executes (R143).  Every element that the mask activates (R141) takes the operation's
value on the elements of v[a] and v[b], every other element of v[d] stays, and v[d] is full: each integer operation of Table 6.4 by its
definition there (R151); floating point, special functions and permutations (R152, R153, R158), with FFLAGS gathered over the active
elements.  VMERGE writes every element.  A comparison writes the mask bits of the active elements (R155); VCVT the active elements at
target width, with a PRNG draw each under `.sr` (R154); a reduction element 0 (R157).  The mask operations act on whole mask registers
(R156).  No other register, queue or byte of memory changes. -/
def Obligations.VectorLanes : Prop :=
  ∀ (s : State) (core slot : Nat) (stalled : BitVec 10) (e : VEntry) (ca cb : Word), HeadRuns s core slot stalled e ca cb →
    let x := tid core slot
    let th := s.thread x
    let w := elemBytes e.t
    let m := th.rm_ e.m
    let act (w i : Nat) : Bool := m.getLsbD (i * w)
    let on (w : Nat) : List Nat := (List.range (64 / w)).filter (act w)
    let a (i : Nat) : Nat := elem (th.rv e.a) w i
    let b (i : Nat) : Nat := elem (th.rv e.b) w i
    let d (i : Nat) : Nat := elem (th.rv e.d) w i
    let md : BitVec 3 := e.d.setWidth 3
    let ma := th.rm_ (e.a.setWidth 3)
    let mb := th.rm_ (e.b.setWidth 3)
    let t := vectorTurn core slot stalled s
    let vec (w : Nat) (f : Nat → Nat) (fl : FFlags) (p : BitVec 32) : Prop := ∃ u : Thread,
      u = { th with v := u.v, vFull := u.vFull, fflags := th.fflags ||| fl, prng := p } ∧ Lanes th u e.d w f ∧ HeadDone s t x u
    let mask (f : Nat → Bool) (fl : FFlags) : Prop := ∃ u : Thread, u = { th with m := u.m, fflags := th.fflags ||| fl } ∧
      HeadDone s t x u ∧ ∀ (r : BitVec 3) (j : Nat), j < 64 →
        (u.rm_ r).getLsbD j = if r = md ∧ r ≠ 0 then f j else (th.rm_ r).getLsbD j
    (∀ op f, e.t.toNat ≤ 7 → e.op = .int op → (op, f) ∈ laneForms (8 * w) (decide (e.t.toNat ≤ 3)) →
      vec w (fun i => if act w i then f (a i) (b i) else d i) 0 th.prng) ∧
    (∀ f, (e.op, f) ∈ laneResults e ca cb a b d →
      vec w (fun i => if act w i then (f i).1 % 2 ^ (8 * w) else d i) (gathered (on w) f) th.prng) ∧
    (e.op = .merge → vec w (fun i => if act w i then a i else b i) 0 th.prng) ∧
    (∀ op, e.op = .cmp op →
      mask (fun j => if act w (j / w) then (cmpElem op e.t (a (j / w)) (b (j / w))).1 else (th.rm_ md).getLsbD j)
        (gathered (on w) (fun i => (0, (cmpElem op e.t (a i) (b i)).2)))) ∧
    (∀ g sr, e.op = .cvt g sr →
      let wd := elemBytes g
      let n := 64 / max w wd
      let hit := (List.range n).filter (act wd)
      let draw (k : Nat) : BitVec 32 := Nat.repeat prngNext k th.prng
      let r (i : Nat) : FRes := cvtElem e.t g
        (if sr then .sr (draw ((hit.filter (fun k => decide (k < i))).length + 1)).toNat else RMode.ofRm e.rm) (a i)
      vec wd (fun i => if i < n ∧ act wd i = true then (r i).1 % 2 ^ (8 * wd) else elem (th.rv e.d) wd i) (gathered hit r)
        (if sr then draw hit.length else th.prng)) ∧
    (∀ op, e.op = .red op →
      let r := redElem op e.t m (th.rv e.a)
      vec w (fun i => if i = 0 then r.1 % 2 ^ (8 * w) else d i) r.2 th.prng) ∧
    (e.op = .mand → mask (fun j => ma.getLsbD j && mb.getLsbD j) 0) ∧ (e.op = .mor → mask (fun j => ma.getLsbD j || mb.getLsbD j) 0) ∧
    (e.op = .mxor → mask (fun j => ma.getLsbD j != mb.getLsbD j) 0) ∧ (e.op = .mnot → mask (fun j => !ma.getLsbD j) 0)

/-- The addresses of the elements of a vector access (R159). -/
def elemAddress (form : VMemOp) (w : Nat) (base stride : Word) (b : VWord) (i : Nat) : Word :=
  match form with
  | .unit | .queued => base + word (i * w)
  | .strided => base + word i * stride
  | .indexed => base + BitVec.ofInt 64 (sextInt (8 * w) (elem b w i))

/-- Vector loads, stores and queue moves (R159-R161), with every active element in the core's own local store and no line of it
leased, owned or damaged: a load fills the active elements of v[d] with the bytes at their addresses, and VLDQ pops its base; a store,
its pre-images taken, appends to the store buffer entries that hold exactly the bytes of the active elements; nothing of memory
changes.  The lowest element that is not aligned takes MISALIGN at its address with no effect of the others.  VQPUSH pushes element 0,
extended by its type, VMPOPC and VMFIRST their counts (R156), VSTQ eight words; VQPOP fills the active elements with the word it
pops. -/
def Obligations.VectorMemoryAndQueues : Prop :=
  ∀ (s : State) (core slot : Nat) (stalled : BitVec 10) (e : VEntry) (ca cb : Word), HeadRuns s core slot stalled e ca cb →
    let x := tid core slot
    let th := s.thread x
    let w := elemBytes e.t
    let act (i : Nat) : Bool := (th.rm_ e.m).getLsbD (i * w)
    let d (i : Nat) : Nat := elem (th.rv e.d) w i
    let t := vectorTurn core slot stalled s
    let access (use : Use) (A : Nat → Word) (off : Nat → Nat) : Prop := s.owned = [] ∧ s.ecc = [] ∧
      ∀ i < 64 / w, act i = true → (A i).toNat % w = 0 ∧ Unleased s core (off i / 4096) ∧
        checkAccess s core slot th.mode (s.ctxOf x) use (A i).toNat = .ok (.own (off i))
    let fills (q : Vector (List Word) 4) (f : Nat → Nat) : Prop := ∃ u : Thread,
      u = { th with v := u.v, vFull := u.vFull, q := q } ∧ Lanes th u e.d w (fun i => if act i then f i else d i) ∧ HeadDone s t x u
    let pushes (q : BitVec 2) (ws : List Word) : Prop := HeadDone s t x (th.setQueue q (th.queue q ++ ws))
    (∀ (form : VMemOp) (off : Nat → Nat), e.op = .load form → form ≠ .queued → th.sb = [] →
      access .read (elemAddress form w ca cb (th.rv e.b)) off →
      fills th.q (fun i => ofBytes (s.readN (localAddr core (off i)) w))) ∧
    (∀ (p : Word) (rest : List Word) (off : Nat → Nat), e.op = .load .queued → th.st = .ready → th.queue (qIdx e.a) = p :: rest → th.sb = [] →
      access .read (elemAddress .queued w p 0 0) off →
      fills (th.setQueue (qIdx e.a) rest).q (fun i => ofBytes (s.readN (localAddr core (off i)) w))) ∧
    (∀ (form : VMemOp) (off : Nat → Nat), e.op = .store form → access .write (elemAddress form w ca cb (th.rv e.b)) off →
      (∀ i < 64 / w, act i = true → (preLocal s core (writerOf slot) (lineOf (off i))).isSome = true) →
      ∃ es : List SbEntry, HeadDone s t x { th with sb := th.sb ++ es } ∧ (∀ y ∈ es, y.far = false) ∧
        ∀ c, (∃ y ∈ es, c ∈ y.cells) ↔ ∃ i < 64 / w, act i = true ∧ ∃ k < w,
          c = (localAddr core (off i) + k, byteAt (th.rv e.d) (i * w + k))) ∧
    (∀ (form : VMemOp) (i : Nat) (off : Nat → Nat), (e.op = .load form ∧ form ≠ .queued ∨ e.op = .store form) → i < 64 / w → act i = true →
      let A := elemAddress form w ca cb (th.rv e.b)
      let use : Use := if e.op = .load form then .read else .write
      (A i).toNat % w ≠ 0 →
      (∀ k < i, act k = true → (A k).toNat % w = 0 ∧ checkAccess s core slot th.mode (s.ctxOf x) use (A k).toNat = .ok (.own (off k))) →
      t = vectorTrap s x 3 (A i) (decide (e.op = .store form)) e i) ∧
    (th.st = .ready →
      (e.op = .qpush → (th.queue (qIdx e.d)).length < 8 → pushes (qIdx e.d)
        [let y := elem (th.rv e.a) w 0
         if e.t.toNat ≤ 3 ∧ 2 ^ (8 * w - 1) ≤ y then BitVec.ofInt 64 ((y : Int) - 2 ^ (8 * w)) else word y]) ∧
      (e.op = .storeQueue → th.queue (qIdx e.a) = [] → pushes (qIdx e.a) ((List.range 8).map (fun i => word (elem (th.rv e.d) 8 i)))) ∧
      (∀ y rest, e.op = .qpop → th.queue (qIdx e.a) = y :: rest →
        fills (th.setQueue (qIdx e.a) rest).q (fun _ => y.toNat % 2 ^ (8 * w))) ∧
      (e.op = .mpopc → (th.queue (qIdx e.d)).length < 8 →
        pushes (qIdx e.d) [word ((List.range 64).countP (fun j => (th.rm_ (e.a.setWidth 3)).getLsbD j))]) ∧
      (e.op = .mfirst → (th.queue (qIdx e.d)).length < 8 → ∃ n ≤ 64, pushes (qIdx e.d) [word n] ∧
        (∀ j < n, (th.rm_ (e.a.setWidth 3)).getLsbD j = false) ∧ (n < 64 → (th.rm_ (e.a.setWidth 3)).getLsbD n = true)))

/-- The loop instructions (R145-R148): VLOOP queues a marker with the bounds pending from LBW, or the whole body, and the
count of LCW, and takes the pending bounds, and an idle stream enters it at once; LCR reads the count; LBW makes a pair of bounds
pending, first not above last; LCW sets the count of a level no loop of which is queued. -/
def Obligations.VectorLoopRegisters : Prop :=
  ∀ (s : State) (d n a : BitVec 5), d.toNat < 2 → s.th.image = none → s.th.seq = Seq.empty → s.th.regEcc = [] →
    let reg := getLoop s.th.lc d.toNat
    let len := n.toNat + 1
    let span : Nat × Nat := match reg.pending with
      | none => (0, len - 1)
      | some (b, e) => if len - 1 < e then (min b (len - 1), len - 1) else (b, e)
    Leaves (.vloop d n) s (Thread.enqueue { s.th with lc := setPending s.th.lc d.toNat none }
      (.loop { level := d.toNat, n := len, b := span.1, e := span.2, count := reg.count })) ∧
    Writes (.lcr a d) s a (reg.count.setWidth 64) ∧
    (FullAll s [a] →
      let c := (s.th.rg a).toNat
      let bounds := if c % 16 ≤ c / 16 % 16 then some (c % 16, c / 16 % 16) else none
      Leaves (.lbw d a) s { s.th with lc := setPending s.th.lc d.toNat bounds } ∧
      Leaves (.lcw d a) s { s.th with lc := setCount s.th.lc d.toNat (BitVec.ofNat 32 (min c (2 ^ 32 - 1))) })

/-- A tensor descriptor's walk (R163): rows of ⌈e0 × element bytes / 64⌉ chunks, dimension 1 the next to advance, then 2 and 3;
the address of the chunk at a position, and the number of positions. -/
def Walks (x : Desc) (pos : Nat) (va : Word) (total : Nat) : Prop :=
  ∃ c i1 i2 i3 k : Nat, c = (descExt x 0 * elemBytes (descType x) + 63) / 64 ∧ k < c ∧ i1 < descExt x 1 ∧ i2 < descExt x 2 ∧
    i3 < descExt x 3 ∧ pos = k + c * (i1 + descExt x 1 * (i2 + descExt x 2 * i3)) ∧
    total = c * descExt x 1 * descExt x 2 * descExt x 3 ∧
    va = descBase x + BitVec.ofInt 64 (64 * (k : Int) + (i1 : Int) * descStride x 1 + (i2 : Int) * descStride x 2 +
      (i3 : Int) * descStride x 3)

/-- Tensor descriptors (R162, R163): TDLD loads 32 bytes, TDST stores them, TDSET replaces one word; reserved bits of word 3
are dropped and the position becomes 0.  VMAP pushes the address of the chunk at the position and adds g[b] to it modulo the
walk; VMAP.R pushes that of chunk g[b] and stands after it; both park while the queue is full, and a view with an extent of 0
or a type above 13 takes ACCESS at its base. -/
def Obligations.TensorDescriptors : Prop :=
  ∀ (s : State) (d a b : BitVec 5), s.th.regEcc = [] →
    (FullAll s [a, b] → ∃ x : BitVec 256, Leaves (.tdset d a b) s (setTd s.th d { img := x, pos := 0 }) ∧
      ∀ i < 4, fld x.toNat (64 * i) 64 = (if i = (s.th.rg b).toNat % 4 then (s.th.rg a).toNat else descWord (tdOf s.th d) i) %
        (if i = 3 then 2 ^ 36 else 2 ^ 64)) ∧
    (FullAll s [a] → Drained s → Undisturbed s → (s.th.rg a).toNat % 32 = 0 →
      (∀ off, checkAccess s s.curCore s.curSlot s.th.mode s.curCtx .read (s.th.rg a).toNat = .ok (.own off) →
        Unleased s s.curCore (off / 4096) → Leaves (.tdld d a) s (setTd s.th d
          { img := BitVec.ofNat 256 (ofBytes (s.readN (localAddr s.curCore off) 32) % 2 ^ 228), pos := 0 })) ∧
      (∀ q s', checkAccess s s.curCore s.curSlot s.th.mode s.curCtx .write (s.th.rg a).toNat = .ok q → storeRoom q 32 s = .taken s' →
        ∃ t e, exec (.tdst d a) s = .next t ∧ Completed s' t { s'.th with sb := s'.th.sb ++ [e] } ∧ e.far = !q.near ∧
          e.ea = s'.reach s'.cur (s.th.rg a) ∧ e.cells.length = 32 ∧
          ∀ n < 32, e.cells[n]? = some (q.loc s'.curCore + n, BitVec.ofNat 8 (fld (tdOf s.th d).img.toNat (8 * n) 8)))) ∧
    (FullAll s [b] →
      let x := tdOf s.th a
      let q := qIdx d
      let bad : Prop := (∃ i < 4, descExt x i = 0) ∨ 13 < (descType x).toNat
      (bad → TakesS s → Traps (.vmap d a b) s 4 (descBase x) false ∧ Traps (.vmapR d a b) s 4 (descBase x) false) ∧
      (¬ bad → ∀ total, (∃ p va, Walks x p va total) → (s.th.queue q).length < 8 →
        (∀ va, Walks x (x.pos.toNat % total) va total → Leaves (.vmap d a b) s
          (setTd (s.th.setQueue q (s.th.queue q ++ [va])) a { x with pos := word ((x.pos.toNat + (s.th.rg b).toNat) % total) })) ∧
        (∀ va, Walks x ((s.th.rg b).toNat % total) va total → Leaves (.vmapR d a b) s
          (setTd (s.th.setQueue q (s.th.queue q ++ [va])) a { x with pos := word (((s.th.rg b).toNat % total + 1) % total) }))) ∧
      (¬ bad → 8 ≤ (s.th.queue q).length → exec (.vmap d a b) s = .next (s.park (.queue q.toNat)) ∧
        exec (.vmapR d a b) s = .next (s.park (.queue q.toNat))))

/-! ## The matrix engine (spec/12_matrix.md) -/

/-- An engine operation has issued: it is the youngest of the engine, as `o` describes it, but for what its own requests gave it
(leave, a held write); the older ones keep their order; g[d] is empty until the operation completes, and the thread goes on. -/
def Entered (s t : State) (o : EngOp) : Prop :=
  (∃ o' ∈ t.engine, o' = { o with leave := o'.leave, asked := o'.asked, held := o'.held }) ∧
  t.engine.map (·.op) = s.engine.map (·.op) ++ [o.op] ∧ t.opCount = s.opCount + 1 ∧
  t.th = { s.th.emptyG o.d with came := s.th.pc, cameBr := false, pc := s.npc, stall := none, farSeq := t.th.farSeq,
                                pendVF := t.th.pendVF } ∧
  ∀ u, u ≠ s.cur → t.thread u = s.thread u

/-- A 64-byte descriptor at `a` reads as the words `w` and leaves the state `u` (R316). -/
def ReadsDesc (s : State) (a : Word) (w : List Word) (u : State) : Prop :=
  ∃ p bs, checkAccess s s.curCore s.curSlot s.th.mode s.curCtx .read a.toNat = .ok p ∧ loadPlace s s.cur p 64 = .bytes u bs ∧
    w = (List.range 8).map (fun i => wordOfBytes ((bs.drop (8 * i)).take 8))

/-- MCFG, MJOB, MDRAIN and MSTAT (R312-R318, R326, R327): with room in the core's queue, and a node where one is needed, each of
the first three enters one operation and changes nothing else of the thread but the emptied register; MDRAIN where its
destination passes its checks, with the parts it prepared; where a line of it must be waited for it waits without effect (R204).  MSTAT reads the configurations, flags and length of the queue of Table 12.4 once no older
operation of its thread is queued.  A sash bank takes ACCESS at 0 from the first three and reads 0 by MSTAT (R311). -/
def Obligations.MatrixCommandsIssue : Prop :=
  ∀ (s : State) (d a b : BitVec 5), Drained s → (∀ x ∈ s.engine, x.op ≠ s.opCount + 1) →
    (s.curSlot < 8 → queueRoom s = true →
      (FullAll s [a] → (s.th.rg a).toNat / 2 ^ 21 = 0 → wfld (s.th.rg a) 18 2 = 0 → wfld (s.th.rg a) 14 2 = 0 →
        (s.th.rg a).getLsbD 7 = false →
        ∃ t, exec (.mcfg a) s = .next t ∧ Entered s t (newOp s 0 0 false [] (.mcfg (s.th.rg a))) ∧ SameMemory s t) ∧
      (FullAll s [a, b] → (s.th.rg a).toNat % 64 = 0 → descArea s (s.th.rg a) = true → (s.th.rg b).toNat / 2 ^ 50 = 0 →
        let node := takesNode (wfld (s.th.rg b) 0 16) (edgePreds (s.th.rg b))
        nodeRoom s node = true → ∀ w u, ReadsDesc s (s.th.rg a) w u → badJob u w = false → u.th = s.th → u.cur = s.cur →
          u.npc = s.npc → u.engine = s.engine → u.opCount = s.opCount → (∀ x, u.thread x = s.thread x) →
          ∃ t, exec (.mjob d a b) s = .next t ∧ SameMemory u t ∧ Entered s t (newOp u d (wfld (s.th.rg b) 0 16) node
            (matchPreds u (engineCluster s.curCore) u.curCtx (edgePreds (s.th.rg b))) (.job w))) ∧
      (FullAll s [a, b] →
        let dst := s.th.rg a
        let w := s.th.rg b
        let acc := s.accOf s.curCore (wfld w 0 1)
        let node := decide (wfld w 48 16 ≠ 0)
        wfld w 32 16 = 0 → wfld w 8 8 = 0 → wfld w 1 3 ≤ 4 → dst.toNat % 8 = 0 → wfld w 16 16 % 8 = 0 →
        acc.cols * drainSize w ≤ wfld w 16 16 → nodeRoom s node = true →
        ∀ parts, checkParts s s.curCore s.curSlot s.th.mode s.curCtx .write
            ((drainRanges dst w acc.rows acc.cols).flatMap (fun r => partsOf r.1 r.2)) [] = .inr parts →
          (∀ p ∈ parts, p.2.2.near = true) →
          let o := newOp s d (wfld w 48 16) node [] (.drain dst w acc.rows acc.cols)
          let o' := { o with targets := parts.map (partTarget s.curCore) }
          ((ownParts (enterOp s o') o false parts).isSome = true → ∃ t, exec (.mdrain d a b) s = .next t ∧
            t.th.farSeq = s.th.farSeq ∧ Entered s t o') ∧
          (ownParts (enterOp s o') o false parts = none → exec (.mdrain d a b) s = .next s))) ∧
    (s.curSlot < 8 → (∀ o ∈ s.engine, o.queued = true → o.core = s.curCore → o.slot ≠ s.curSlot) →
      (∀ i, 1 ≤ (s.accOf s.curCore i).rows ∧ (s.accOf s.curCore i).rows ≤ 128 ∧ 1 ≤ (s.accOf s.curCore i).cols ∧
        (s.accOf s.curCore i).cols ≤ 64) →
      (s.engine.filter (fun o => o.queued && decide (o.core = s.curCore))).length ≤ 16 →
      ∃ v, Writes (.mstat d) s d v ∧
        wfld v 48 16 = (s.engine.filter (fun o => o.queued && decide (o.core = s.curCore))).length ∧
        ∀ i < 2, let x := s.accOf s.curCore i
          wfld v (16 * i) 7 + 1 = x.rows ∧ wfld v (16 * i + 8) 6 + 1 = x.cols ∧ wfld v (16 * i + 14) 1 = bit x.int ∧
          wfld v (32 + i) 1 = bit x.clr ∧ wfld v (40 + i) 1 = bit x.sat) ∧
    (8 ≤ s.curSlot → Writes (.mstat d) s d 0 ∧ (TakesS s → FullAll s [a, b] →
      Traps (.mcfg a) s 4 0 false ∧ Traps (.mjob d a b) s 4 0 false ∧ Traps (.mdrain d a b) s 4 0 false))

/-- The integer at position `i` of row `r` in the planes of one side of a slice (R305-R307): the words of the planes in order of
group, plane and row. -/
def slicePattern (x : Side) (data : List Byte) (r i : Nat) : Int :=
  matIntVal x.code (planeBits (matW x.code)
    ((List.range x.read).map (fun j => ((List.range 64).map (fun k =>
      ofBytes ((data.drop (((r / 64 * x.read + j) * 64 + k) * 8)).take 8))))) (r % 64) i)

/-- MCFG_EFFECT (R313): an entry with nothing older on its slot leaves the queue and configures the slot; an equal
configuration without the clear bit changes nothing, any other clears every element and twin and sets the clear flag.

TILE_PASS of an integer job that has begun and that the arbiter grants (R321, R323, R325, R329, spec/03_numbers.md R78): for every
element of the slot the product of row and column over the slice's positions is added and the sum saturates to 32 bits. -/
def Obligations.TileEngineRuns : Prop :=
  (∀ (s : State) (core : Nat) (o : EngOp) (w : Word), o ∈ s.engine → o.core = core → o.kind = .mcfg w →
     (∀ x ∈ s.engine, x.core = core → x.queued = true → x.op ≠ o.op → x.accSlot ≠ wfld w 20 1) →
     (∀ x ∈ s.engine, x.core = core → (∃ w', x.kind = .mcfg w') → x = o) →
     ∃ t, exec (.mcfgEffect core) s = .next t ∧ (∀ x ∈ t.engine, x.op ≠ o.op) ∧ t.threads = s.threads ∧ SameMemory s t ∧
       let i := wfld w 20 1
       let old := s.accOf core i
       let new := t.accOf core i
       new.rows = wfld w 0 7 + 1 ∧ new.cols = wfld w 8 6 + 1 ∧ new.int = w.getLsbD 16 ∧ t.accOf core (1 - i) = s.accOf core (1 - i) ∧
       if old.rows = wfld w 0 7 + 1 ∧ old.cols = wfld w 8 6 + 1 ∧ old.int = w.getLsbD 16 ∧ w.getLsbD 17 = false then new = old
       else new.sat = false ∧ new.clr = true ∧ ∀ r c, new.elem r c = 0 ∧ new.twin r c = 0) ∧
  (∀ (s u : State) (cluster : Nat) (o : EngOp) (w : List Word) (bs : List Byte), (s.die (cluster / 32)).healthy = true →
     let s0 := if (grantedJob s cluster).isSome then s else choosePass s cluster none
     grantedJob s0 cluster = some o → o.kind = .job w → o.begun = true →
     let i := wfld (w.getD 6 0) 32 1
     let acc := s.accOf o.core i
     let x := (jobSides w acc).1
     let y := (jobSides w acc).2
     let n := min 64 (x.k - 64 * o.passes)
     i < 2 → acc.cols ≤ 64 → matInt x.code = true → matInt y.code = true →
     readRanges (choosePass s0 cluster (some o.op)) o (jobWaits o) (x.chunks o.passes ++ x.sliceScales o.passes ++ y.chunks o.passes ++ y.sliceScales o.passes) =
       .inr (.bytes u bs) → bs.length = x.bytes o.passes + y.bytes o.passes → u.accOf o.core i = acc → acc.ecc = .sound →
     ∃ t, exec (.tilePass cluster) s = .next t ∧ ∀ r < acc.rows, ∀ c < acc.cols,
       let sum := (BitVec.ofNat 32 (acc.elem r c)).toInt + ((List.range n).map (fun k =>
         slicePattern x (bs.take (x.bytes o.passes)) r k * slicePattern y (bs.drop (x.bytes o.passes)) c k)).foldl (· + ·) 0
       (BitVec.ofNat 32 ((t.accOf o.core i).elem r c)).toInt = max (-2 ^ 31) (min (2 ^ 31 - 1) sum))

/-! ## The copy engine and the writes of engines (spec/13_copy.md) -/

/-- The copies: instruction, form of Table 13.2, and whether it is a `.next` copy. -/
def copyForms (d a b : BitVec 5) : List (Instr × BitVec 5 × Nat × Bool) :=
  [(.xcopy d a b, d, 0, false), (.xcopyT d a b, d, 1, false), (.xplane d a b, d, 2, false), (.xunplane d a b, d, 3, false),
   (.xfill d a b, d, 4, false), (.xgather d a b, d, 5, false), (.xcopyNext a b, 0, 0, true), (.xcopyTNext a b, 0, 1, true),
   (.xplaneNext a b, 0, 2, true), (.xunplaneNext a b, 0, 3, true), (.xfillNext a b, 0, 4, true), (.xgatherNext a b, 0, 5, true)]

/-- A copy issues (R334, R339-R344): its descriptor read and passed, with a place among the 128 in flight and a node where it
needs one, one operation enters and its register empties; a `.next` copy is staged for the commit, and one with a destination that is not near
takes ACCESS at dst (R340).  Stated for a copy of a tile core whose destination, where it is checked at issue, passes and is near; where
a line of it must be waited for the copy waits (R204).  A physical copy needs M mode. -/
def Obligations.CopiesIssue : Prop :=
  ∀ (s : State) (d a b : BitVec 5), Drained s → FullAll s [a, b] → s.curSlot < 8 → isControl s.curCore = false →
    (∀ x ∈ s.engine, x.op ≠ s.opCount + 1) →
    let da := s.th.rg a
    let ew := s.th.rg b
    let node := takesNode (wfld ew 0 16) (edgePreds ew)
    da.toNat % 64 = 0 → descArea s da = true → ew.toNat / 2 ^ 51 = 0 → copyRoom s = true → nodeRoom s node = true →
    (ew.getLsbD 50 = true → s.th.mode = .m) →
    ∀ w u, ReadsDesc s da w u → u.th = s.th → u.cur = s.cur → u.npc = s.npc → u.engine = s.engine → u.opCount = s.opCount →
      (∀ x, u.thread x = s.thread x) →
      ∀ i e f nxt, (i, e, f, nxt) ∈ copyForms d a b → badCopy f (ew.getLsbD 50) w = false →
        let near : Prop := ew.getLsbD 50 = false ∧ ∀ r ∈ destRuns f w, nearDst u r.1 = true
        let o : EngOp := { newOp u e (wfld ew 0 16) node (matchPreds u (engineCluster s.curCore) u.curCtx (edgePreds ew))
            (.copy f w (ew.getLsbD 50)) with total := copyTotal f w, nxt := if nxt then .staged else .plain }
        (nxt = true → ¬ near → TakesS u → ∃ t, exec i s = .next t ∧ Trapped u t 4 (w.getD 0 0) u.th.pc true) ∧
        (nxt = true ∧ near ∨ nxt = false ∧ ew.getLsbD 50 = true → ∃ t, exec i s = .next t ∧ t.th.farSeq = s.th.farSeq ∧ Entered s t o) ∧
        (nxt = false → ew.getLsbD 50 = false → ∀ parts,
          checkParts u u.curCore u.curSlot u.th.mode u.curCtx .write (destParts f w) [] = .inr parts → (∀ p ∈ parts, p.2.2.near = true) →
          let o' := { o with targets := parts.map (partTarget u.curCore) }
          ((ownParts (enterOp u o') o false parts).isSome = true → ∃ t, exec i s = .next t ∧ t.th.farSeq = s.th.farSeq ∧ Entered s t o') ∧
          (ownParts (enterOp u o') o false parts = none → exec i s = .next u))

/-- The items `ws` of operation `o` can all be written now and lie in local store: their bytes do not meet, no older operation
owns a line of theirs, and, but for a `.next` copy that is due, their pre-images are taken (R338, R340). -/
def MayWrite (s : State) (o : EngOp) (ws : List (Bool × Nat × List Byte)) : Prop :=
  s.ecc = [] ∧ o.slot < slotsPerCore ∧ (∀ c, (s.dctx (dieOf o.core) c).trEn = 0) ∧ (∀ x ∈ s.engine, x.op ≠ o.op → x.failed = none) ∧
  ws.Pairwise (fun x y => x.2.1 + x.2.2.length ≤ y.2.1 ∨ y.2.1 + y.2.2.length ≤ x.2.1) ∧
  ∀ w ∈ ws, w.1 = false ∧ isLocalLoc w.2.1 = true ∧ w.2.1 % 64 + w.2.2.length ≤ 64 ∧
    ownedByOlder s (dieOf o.core) o.ctx w.2.1 o.op = false ∧ Unleased s (localCore w.2.1) (w.2.1 % 65536 / 4096) ∧
    if o.nxt = .due then overflowEntryAt s (localCore w.2.1) 0 (lineOf (w.2.1 % 65536)) = none
    else (preLocal s (localCore w.2.1) (writerOf o.slot) (lineOf (w.2.1 % 65536))).isSome = true

/-- The items stand in memory, and every other byte is as before. -/
def Landed (s t : State) (ws : List (Bool × Nat × List Byte)) : Prop :=
  (∀ w ∈ ws, t.readN w.2.1 w.2.2.length = w.2.2) ∧
  ∀ x, (∀ w ∈ ws, x < w.2.1 ∨ w.2.1 + w.2.2.length ≤ x) → t.read x = s.read x

/-- The operation has completed: its entry is gone, and its register holds the completion word with status 0 and the bytes
written (Table 12.6). -/
def Finished (s t : State) (o : EngOp) (sat : Bool) (fl : BitVec 5) : Prop :=
  (∀ x ∈ t.engine, x.op ≠ o.op) ∧
  (o.d ≠ 0 → (t.thread (tid o.core o.slot)).rg o.d = completionWord o.id 0 sat fl o.total ∧
    (t.thread (tid o.core o.slot)).fullG o.d = true) ∧
  ∀ x, x ≠ tid o.core o.slot → t.thread x = s.thread x

/-- The bytes `bs` that a copy reads before it writes (R337), and the state after the reading: its source ranges, or, for XGATHER,
the elements that its index list names. -/
def Sources (s : State) (o : EngOp) (f : Nat) (w : List Word) (u : State) (bs : List Byte) : Prop :=
  f ≠ 5 ∧ copyRead s o (srcRuns f w) = .inr (.bytes u bs) ∨
  f = 5 ∧ ∃ v l, copyRead s o (srcRuns f w) = .inr (.bytes v l) ∧ copyRead v o (gatherRuns w l) = .inr (.bytes u bs)

/-- COPY_RUN and NEXT_COPY_RUN (R337-R340, R346): the oldest copy of the core whose turn the engine's round robin gives reads every
source byte before it writes any, and prepares what its destination takes: the bytes of the source, the pattern of XFILL, the
elements of XGATHER, or the rearranged planes.  Each further turn moves one line, one that an access waits for before the others
(R205): exactly the prepared bytes of the line land, and with the last of them the copy completes.  That a turn moves one line is the model's choice (log entry 9). -/
def Obligations.CopiesMove : Prop :=
  ∀ (s : State) (o : EngOp) (f : Nat) (w : List Word) (i : Instr) (ph : NextPhase),
    (i, ph) ∈ [(Instr.copyRun o.op, NextPhase.plain), (.nextCopyRun o.op, .due)] →
    s.engOp o.op = some o → o.kind = .copy f w false → o.nxt = ph → mayRun s o = true → (s.die (dieOf o.core)).healthy = true →
    (copyGrant s (engineCluster o.core)).map (·.op) = some o.op →
    (o.writes = none → ∀ ts u bs, copyTargets s o f w = .inr ts → Sources s o f w u bs → u.engOp o.op = some o →
      let ws := cutTargets ts (destBytes f w (moved f w bs))
      ws ≠ [] → ∃ t, exec i s = .next t ∧ SameMemory u t ∧ t.threads = u.threads ∧
        t.engOp o.op = some { o with writes := some ws, begun := true }) ∧
    (∀ items, o.writes = some items → items ≠ [] → MayWrite s o items →
      let now := firstLine (items.filter (recalled s o) ++ items) items
      let rest := items.filter (fun x => !now.contains x)
      ∃ t, exec i s = .next t ∧ Landed s t now ∧ (t.cluster (engineCluster o.core)).copyLast = copyIndex o.core ∧
        (rest ≠ [] → t.threads = s.threads ∧ t.engOp o.op = some { o with writes := some rest, held := false, stall := none }) ∧
        (rest = [] → Finished s t o o.sat o.flags))

/-- DRAIN_RUN and RECALL (R205, R326-R330): a drain that may run, whose elements agree with their twins, writes every element of
its slot converted to the drain's format, row by row, along the destination that its issue prepared, and clears the slot where its word says so.  RECALL writes the items that
an access waits for and leaves the operation to complete later. -/
def Obligations.DrainsAndRecalls : Prop :=
  (∀ (s : State) (o : EngOp) (dst w : Word),
    let acc := s.accOf o.core (wfld w 0 1)
    (s.die (dieOf o.core)).healthy = true → acc.ecc = .sound → s.engine.find? (fun x => decide (x.core = o.core) && (match x.kind with
      | .drain .. => mayRun s x
      | _ => false)) = some o → s.engOp o.op = some o →
    o.kind = .drain dst w acc.rows acc.cols → o.begun = false → o.nxt = .plain →
    (∀ r c, acc.elem r c = acc.twin r c) → acc.cols * drainSize w ≤ wfld w 16 16 →
    let vals := acc.cells.map (fun p => drainConvert acc.int w (acc.elem p.1 p.2))
    let ws := cutTargets o.targets (vals.flatMap (fun v => bytesOf (drainSize w) v.1))
    MayWrite s o ws → ∃ t, exec (.drainRun o.core) s = .next t ∧
      Landed s t ws ∧ Finished s t { o with total := (vals.map (fun _ => drainSize w)).foldl (· + ·) 0 } o.sat
        (vals.foldl (fun f v => f ||| v.2) (0 : FFlags)) ∧
      (∀ r c, (t.accOf o.core (wfld w 0 1)).elem r c = if w.getLsbD 7 then 0 else acc.elem r c)) ∧
  (∀ (s : State) (o : EngOp) (ws : List (Bool × Nat × List Byte)), s.engOp o.op = some o → o.writes = some ws → MayWrite s o ws →
    (∀ x ∈ ws, awaited s (dieOf o.core) o.ctx (lineOf x.2.1) = true) →
    ∃ t, exec (.recallLine o.op) s = .next t ∧ Landed s t ws ∧ t.threads = s.threads ∧
      ∃ o', t.engOp o.op = some o' ∧ o'.writes = some [])

/-! ## Pages, caches and gets (spec/08_die_memory.md, spec/10_pages.md, spec/11_supersteps.md R289) -/

/-- The doublewords `ws` stand from `a` in the core's own local store, readable by the running thread, with nothing in their
way. -/
def ReadsWords (s : State) (a : Nat) (ws : List Word) : Prop :=
  Drained s ∧ Undisturbed s ∧ a % 8 = 0 ∧ a + 8 * ws.length ≤ 2 ^ 64 ∧ ∀ i < ws.length, ∃ off,
    checkAccess s s.curCore s.curSlot s.th.mode s.curCtx .read (a + 8 * i) = .ok (.own off) ∧
    Unleased s s.curCore (off / 4096) ∧ s.readWord (localAddr s.curCore off) = ws.getD i 0

/-- PFL and WBL (R244-R246) on a list of one page.  PFL stages the page: where its slice has room, every line of it that is
absent becomes pending at its frame; of a replicated page every die holds the whole already (R206).  WBL puts the page among those that the commit writes back.  A page with no readable
translation is skipped and counted.  What a list with a skipped entry counts is the model's reading (log entry 18). -/
def Obligations.PageListsStage : Prop :=
  ∀ (s : State) (a : BitVec 5) (w : Word), FullAll s [a] → ReadsWords s (s.th.rg a).toNat [1, w] →
    let page := wfld w 16 32
    let die := s.curDie
    let ctx := s.curCtx
    let goes (t : State) : Prop := t.th = { s.th with came := s.th.pc, cameBr := false, pc := s.npc, stall := none } ∧
      ∀ u, u ≠ s.cur → t.thread u = s.thread u
    (∀ e, translate s die ctx (page * 65536) = some e → badEntry w false = false → e.r = true → e.frame page ≤ 732164 → e.rep = false →
      ∀ s1, roomFor s die (sliceOf (page * 65536)) ((pageLines page).filter (fun l => (s.line die ctx l).isNone)).length = some s1 →
        s1.threads = s.threads → s1.cur = s.cur → s1.npc = s.npc → (∀ l, s.line die ctx l = none → s1.line die ctx l = none) →
        ∃ t, exec (.pfl a) s = .next t ∧ goes t ∧ ∀ l ∈ pageLines page, s.line die ctx l = none →
          ∃ c, t.line die ctx l = some c ∧ c.st = .pending ∧ c.phys = e.phys l) ∧
    (∀ e, translate s die ctx (page * 65536) = some e → badEntry w false = false → e.rep = true →
      sliceUse s die (sliceOf (page * 65536)) ≤ (s.die die).cblk →
      ∃ t, exec (.pfl a) s = .next t ∧ goes t ∧ SameMemory s t) ∧
    (badEntry w false = true ∨ translate s die ctx (page * 65536) = none →
      ∃ t, exec (.pfl a) s = .next t ∧ goes t ∧ SameMemory s t) ∧
    (∀ e j, translate s die ctx (page * 65536) = some e → badEntry w true = false → s.job ctx = some j →
      ∃ t, exec (.wbl a) s = .next t ∧ goes t ∧ SameMemory s t ∧
        t.job ctx = some { j with wbl := j.wbl ++ [(die, page, w.getLsbD 0)] })

/-- ICACHE_FILL (spec/05_issue.md R124): for a Ready slot of a core whose cache holds nothing, the line of its PC arrives from
the slice with the bytes that the slice holds, where the instruction cannot reach into the next line; no thread changes.

LINE_FILL and GET_FILL (R235, R289).  A pending line fills with what its home holds, and no other line changes.  A GET of
8 bytes on this module fills its register with the committed image's doubleword, one to another module with what its reply
brings; a request that the target refuses, or that goes to a failed module, fills 0.  That a request refused in its target fills at once is the model's reading (log entry 44). -/
def Obligations.LinesArrive : Prop :=
  (∀ (s : State) (core slot : Nat) (data : BitVec 512) (s' : State),
     let th := s.thread (tid core slot)
     let ctx := s.ctxOf (tid core slot)
     slot < 16 → th.st = .ready → (s.core core).icache = [] → th.pc.toNat % 2 = 0 → th.pc.toNat % 64 ≤ 52 →
     fetchLine s core ctx th.pc.toNat = .inr (s', data) →
     ∃ t, exec (.icacheFill core slot) s = .next t ∧
       (t.core core).icache = [{ ctx := ctx, line := lineOf th.pc.toNat, harvester := decide (8 ≤ slot), data := data }] ∧
       t.threads = s'.threads) ∧
  ((∀ (s : State) (die ctx : Nat) (va : BitVec 64) (c : CLine),
     let l := lineOf va.toNat
     s.line die ctx l = some c → c.st = .pending → c.die = die → c.ctx = ctx → c.va = l →
     ∃ t d, exec (.lineFill die ctx va) s = .next t ∧ t.line die ctx l = some d ∧ d = { c with st := d.st, data := fillData s ctx l c.phys } ∧
       (d.st = .clean ∨ d.st = .replica) ∧ t = { s with lines := t.lines, ecc := t.ecc, dies := t.dies, ctxs := t.ctxs } ∧
       (s.ecc = [] → t = { s with lines := t.lines }) ∧
       ∀ die' ctx' l', (die', ctx', l') ≠ (die, ctx, l) → t.line die' ctx' l' = s.line die' ctx' l') ∧
   (∀ (s u : State) (g : GetOp) (v : Word), s.gets.find? (fun x => x.id = g.id) = some g → g.dead = false → g.dest = none →
     0 < g.d → g.d < 32 → g.slot < slotsPerCore → (∀ c, (u.dctx (dieOf g.core) c).trEn = 0) →
     (g.tmod = s.modnum ∧ preRange g.core g.slot g.ctx (partsOf g.addr g.len) s [] = .got u (some (bytesOf 8 v.toNat)) ∨
       g.tmod = s.modnum ∧ preRange g.core g.slot g.ctx (partsOf g.addr g.len) s [] = .got u none ∧ v = 0 ∨
       g.tmod ≠ s.modnum ∧ s.failedModules.contains g.tmod = true ∧ v = 0 ∧ u = s ∨
       g.tmod ≠ s.modnum ∧ s.failedModules.contains g.tmod = false ∧ u = s ∧
         ∃ ok bs, g.reply = some (ok, bs) ∧ v = if ok then wordOfBytes bs else 0) →
     ∃ t, exec (.getFill g.id) s = .next t ∧ (∀ x ∈ t.gets, x.id ≠ g.id) ∧
       (t.thread (tid g.core g.slot)).rg (BitVec.ofNat 5 g.d) = v ∧
       (t.thread (tid g.core g.slot)).fullG (BitVec.ofNat 5 g.d) = true ∧
       (∀ x, x ≠ tid g.core g.slot → t.thread x = u.thread x) ∧ SameMemory u t))

/-- The four kinds of SFENCE.V (R261, R262): the translations that the kind names leave every slice of every healthy die, and
where bit 61 asks for it the cached instructions too; each other translation stays.  In U mode they take PRIV; a reserved bit
takes ACCESS.  Their shared word is log entry 29. -/
def Obligations.TranslationsShotDown : Prop :=
  ∀ (s : State) (a : BitVec 5) (i : Instr), i ∈ [Instr.sfenceVPage a, .sfenceVContext a, .sfenceVAll a, .sfenceVPublish a] →
    FullAll s [a] →
    let w := s.th.rg a
    let named (ctx page : Nat) : Bool := match wfld w 62 2 with
      | 1 => decide (ctx = wfld w 32 16)
      | 2 => true
      | _ => decide (ctx = wfld w 32 16 ∧ page = wfld w 0 32)
    (s.th.mode = .u → TakesS s → Traps i s 2 s.iw false) ∧
    (s.th.mode ≠ .u → wfld w 48 13 ≠ 0 → TakesS s → Traps i s 4 w false) ∧
    (s.th.mode ≠ .u → wfld w 48 13 = 0 → wfld w 62 2 ≠ 3 → ∃ t, exec i s = .next t ∧ SameMemory s t ∧
      t.th = { s.th with came := s.th.pc, cameBr := false, pc := s.npc, stall := none } ∧
      (∀ d, (s.die d).healthy = true → (t.die d).tlb = (s.die d).tlb.filter (fun x => !named x.ctx x.vpn)) ∧
      (∀ c, (t.core c).icache = if w.getLsbD 61 then (s.core c).icache.filter (fun l => !named l.ctx (fld l.line 16 32))
        else (s.core c).icache)) ∧
    (s.th.mode ≠ .u → wfld w 48 13 = 0 → wfld w 62 2 = 3 → (∀ e ∈ s.threads, e.2.tickets = []) → ∃ t, exec i s = .next t ∧
      t.th = { s.th with came := s.th.pc, cameBr := false, pc := s.npc, stall := none } ∧
      (∀ d, (s.die d).healthy = true → (t.die d).tlb = (s.die d).tlb.filter (fun x => !named x.ctx x.vpn)))

/-! ## Timetables (spec/14_timetables.md) -/

/-- An image of tables with one id from `a` (R356): 16-byte headers with the entries behind each, the next at the next multiple
of 16, and a header of zeros. -/
def ImageStands (s : State) (id : Nat) : List ImageTable → Nat → Prop
  | [], a => ReadsWords s a [0, 0]
  | t :: rest, a => t.at_ = a ∧
      ReadsWords s a (word (t.entries.length * 2 ^ 32 + t.gcore * 2 ^ 16 + id) :: 0 :: t.entries) ∧
      ImageStands s id rest ((a + 16 + 8 * t.entries.length + 15) / 16 * 16)

/-- TTLOAD and TTLOAD.K (R357, R371): an image of tables for routers of the launch, none twice, whose id the launch names and
whose keys its routers hold, is checked whole; with no failing table every router takes its table, each entry fresh unless `.K`,
and g[d] the number of tables; otherwise nothing loads and g[d] holds the status and the first failing router. -/
def Obligations.TablesLoad : Prop :=
  ∀ (s : State) (d a : BitVec 5) (i : Instr) (keep : Bool) (id : Nat) (ts : List ImageTable),
    (i, keep) ∈ [(Instr.ttload d a, false), (.ttloadK d a, true)] → FullAll s [a] → s.curSlot < 8 → (s.th.rg a).toNat % 16 = 0 →
    ImageStands s id ts (s.th.rg a).toNat → ts ≠ [] → ts.length ≤ 6144 → id < 65536 → namesTable s id = true →
    (∀ t ∈ ts, 1 ≤ t.entries.length ∧ t.entries.length ≤ 256 ∧ t.gcore < numGcores ∧ (s.core t.gcore).hold = some s.curCtx) → (ts.map (·.gcore)).Nodup →
    let ctl := (s.ctx s.curCtx).ttctl
    (∀ t ∈ ts, ctl.getLsbD 16 = true → needsKey t.gcore t.entries = true → holdsKey s t.gcore (wfld ctl 0 16) = true) →
    let r := loadStatus s id ts
    (r.1 = 0 → ∃ u t, exec i s = .next t ∧ Yields u t d (word ts.length) ∧ u = { s with cores := u.cores } ∧
      ∀ g, u.core g = { s.core g with tables := (s.core g).tables ++ (ts.filter (fun t => t.gcore = g)).map (fun t =>
        { id := id, enc := ctl.getLsbD 16, kid := wfld ctl 0 16, entries := t.entries.map (fun e => (e, !keep)), fresh := true }) }) ∧
    (r.1 ≠ 0 → Writes i s d (word (r.1 * 2 ^ 60 + r.2 * 2 ^ 16)))

/-- TTGO (R361-R363), by the op of its word: arm and disarm record the superstep's change of the armed table, free the table to
go at the commit, and a post empties its register and is queued at the running table of its core, or fills with status 1 where
that table does not run.  The four orders share one word (log entry 29). -/
def Obligations.TableOrders : Prop :=
  ∀ (s : State) (a : BitVec 5) (i : Instr), i ∈ [Instr.ttgoArm a, .ttgoDisarm a, .ttgoPost a, .ttgoFree a] → FullAll s [a] →
    let w := s.th.rg a
    let id := wfld w 0 16
    let x := s.ctx s.curCtx
    let reg := BitVec.ofNat 5 (wfld w 48 5)
    let hoff := wfld w 32 16
    let inEffect : Bool := isArmed x id || pendingArm x id
    s.curSlot < 8 → badTtgo w = false → namesTable s id = true →
    (∀ next, (wfld w 62 2 = 0 ∧ next = some { id := id, rep := w.getLsbD 61, gate := w.getLsbD 60 } ∧ x.pendFree.contains id = false ∧
        (∃ g < numGcores, (s.core g).hold = some s.curCtx ∧ ∃ t ∈ (s.core g).tables, t.id = id)) ∨
        (wfld w 62 2 = 1 ∧ next = none ∧ inEffect = true) → (∀ p, x.pendArm = some p → p.fresh = false) →
      ∃ u t, exec i s = .next t ∧ Completed u t s.th ∧ u = { s with ctxs := u.ctxs } ∧
        (u.ctx s.curCtx).pendArm.map (fun p => (p.next, p.fresh)) = some (next, true) ∧
        u.ctx s.curCtx = { x with pendArm := (u.ctx s.curCtx).pendArm } ∧ ∀ c, c ≠ s.curCtx → u.ctx c = s.ctx c) ∧
    (wfld w 62 2 = 3 → inEffect = false → ∃ u t, exec i s = .next t ∧ Completed u t s.th ∧ u = { s with ctxs := u.ctxs } ∧
      u.ctx s.curCtx = { x with pendFree := x.pendFree ++ [id] } ∧ ∀ c, c ≠ s.curCtx → u.ctx c = s.ctx c) ∧
    (wfld w 62 2 = 2 → hoff % 8 = 0 → hoff + 272 ≤ areaEnd (s.core s.curCore) → reg ≠ 0 →
      (∀ r, (s.core s.curCore).run = some r → r.id = id → r.ended = false →
        ∃ u t, exec i s = .next t ∧ Completed u t (s.th.emptyG reg) ∧ u = { s with cores := u.cores } ∧
          (u.core s.curCore).run = some { r with posted := true, posts := r.posts ++
            [{ slot := s.curSlot, reg := reg, hv := w.getLsbD 53, hoff := hoff }] }) ∧
      (s.th.st = .ready → (∀ r, (s.core s.curCore).run = some r → r.id ≠ id) → ∃ t, exec i s = .next t ∧ t.th.pc = s.npc ∧
        t.th.rg reg = word (id * 2 ^ 48 + 2 ^ 44) ∧ t.th.fullG reg = true ∧ (∀ r, r ≠ reg → t.th.rg r = s.th.rg r) ∧ SameMemory s t)) ∧
    (TakesS s → (wfld w 62 2 = 2 → hoff % 8 ≠ 0 → Traps i s 3 (word (2 ^ 64 - 65536 + hoff)) false) ∧
      (wfld w 62 2 = 1 ∨ wfld w 62 2 = 3 → inEffect = decide (wfld w 62 2 = 3) → Traps i s 4 w false))

/-- TABLE_START, DEBT_ARRIVAL, TABLE_STOP and BEAT_ARRIVAL (R350, R354, R360, R364, R367): 172 cycles after the release, and later where
the job spans modules, the routers of a running job that have not started start; a unit of slip that has come so far joins a router's
debt; a table that has lost its key stops, with an abort vote of bit 7, once the groups that run have ended; a beat that a group is to
receive waits for its cycle, and any other is discarded.  The hops between modules are the model's choice (log entry 16), and that a
beat with no receiver is discarded its reading (log entry 50).

GROUP_FIRE (R352, R365-R370): a router in debt holds a cycle and its debt falls; at the offset of a group alone in its cycle,
ready and with its incoming beat known, a send passes 32 bytes of its buffer to its neighbour, a reduce-and-forward the RouterOp
of its incoming elements and its buffer's, for the cycle in which they arrive there; a receive writes its incoming 32 bytes.  A router
waits for the others of its wave and for slip that is due.  That a port beat is known when it is consumed, and a debt beside a wait, are
the model's readings (log entries 33, 39); what a beat reads as under another key is log entry 50's. -/
def Obligations.RoutersRun : Prop :=
  ((∀ (s : State) (ctx : Nat) (j : Job), s.job ctx = some j → j.phase = .running →
     (j.relCy + startDelay s j ≤ s.cy → ∃ t, exec (.tableStart ctx) s = .next t ∧ t = { s with cores := t.cores } ∧
       ∀ g, t.core g = if g ∈ coresOf s ctx then
           { s.core g with run := (s.core g).run.map (fun r => if r.started then r else { r with started := true, startCy := s.cy }) }
         else s.core g) ∧
     (s.cy < j.relCy + startDelay s j → exec (.tableStart ctx) s = .next s) ∧
     (j.living s = [s.modnum] → j.root s = s.modnum → startDelay s j = 172)) ∧
   (∀ (s : State) (core n : Nat) (r : Run), (s.core core).run = some r → r.debtDue.find? (fun n => decide (n ≤ r.cyc)) = some n →
     ∃ t, exec (.debtArrival core) s = .next t ∧ t = { s with cores := t.cores } ∧ (∀ g, g ≠ core → t.core g = s.core g) ∧
       t.core core = { s.core core with run := some { r with debtDue := r.debtDue.erase n, debt := r.debt + 1 } }) ∧
   (∀ (s : State) (core ctx : Nat) (r : Run) (j : Job), (s.core core).run = some r → (s.core core).hold = some ctx → s.job ctx = some j →
     r.started = true → r.ended = false → r.stopped = false → r.frozen = false → r.debtHere = false → inStep s core r = true →
     r.debt = 0 → r.posts = [] → keyLost s core = true → (s.dctx (dieOf core) ctx).trEn = 0 →
     (routerGroups s core).any (fun g => g.off = r.clock) = true →
     ∃ t r' j', exec (.tableStop core) s = .next t ∧ (t.core core).run = some r' ∧ r'.stopped = true ∧ r'.groups = r.groups ∧ r'.ended = r.groups.isEmpty ∧
       t.job ctx = some j' ∧ j'.abortMask = j.abortMask ||| 128 ∧ t.threads = s.threads ∧ SameMemory s t) ∧
   (∀ (s : State) (core dir : Nat) (b : Beat) (rest : List Beat), s.beats = b :: rest → b.core = core → b.dir = dir → b.arrived = false →
     (∀ r, (s.core core).run = some r → r.ended = false → (∃ g ∈ routerGroups s core, ∃ c, g.rx = some (dir, c) ∧
         (r.stopped = false ∨ ∃ x ∈ r.groups, x.off = g.off) ∧ g.off ≤ b.cycle ∧ b.cycle < g.off + g.rxBeats) →
       exec (.beatArrival core dir) s = .next { s with beats := { b with arrived := true } :: rest }) ∧
     ((s.core core).run = none → exec (.beatArrival core dir) s = .next { s with beats := rest }))) ∧
  (∀ (s : State) (core ctx : Nat) (r : Run), (s.core core).run = some r → (s.core core).hold = some ctx → r.started = true → r.ended = false →
     r.frozen = false →
     (r.debtHere = true ∨ inStep s core r = false → exec (.groupFire core) s = .next s) ∧
     (r.debtHere = false → inStep s core r = true →
     (0 < r.debt → ∃ t, exec (.groupFire core) s = .next t ∧ t = { s with cores := t.cores } ∧
       t.core core = { s.core core with run := some { r with debt := r.debt - 1, slip := r.slip + 1, cyc := r.cyc + 1 } } ∧
       ∀ g, g ≠ core → t.core g = s.core g) ∧
     (∀ g : Group, r.debt = 0 → r.groups = [] → r.stopped = false → (∀ t, runTable s core = some t → t.ecc = .sound) →
       routerGroups s core = [g] → g.off = r.clock → g.txCmp = false → 1 < g.beats →
       keyLost s core = false → readyGroups s core ctx r [g] = .inl s → beatsKnown s core g 0 = true → s.ecc = [] →
       (∀ dir n, g.tx = [dir] → dir < 4 → meshNeighbour core dir = some n → (s.core n).hold = some ctx →
         ((g.shape = .send ∧ g.rx = none) ∨ ∃ p, g.shape = .reduce ∧ g.rx = some (p, false)) → 0 < g.txBeats →
         let buf := s.readN (localAddr core g.buf) 32
         let out := if g.shape = .send then buf else
           (List.zipWith (routerOp g.op) (elemsOf (ropBytes g.op) (incoming s core g 32)) (elemsOf (ropBytes g.op) buf)).flatMap
             (bytesOf (ropBytes g.op))
         ∃ t r', exec (.groupFire core) s = .next t ∧ (t.core core).run = some r' ∧ r'.clock = r.clock + 1 ∧ r'.slip = r.slip ∧
           r'.cyc = r.cyc + 1 ∧
           t.beats = s.beats ++ [{ core := n, dir := facing dir, cycle := g.off + 2, data := BitVec.ofNat 256 (ofBytes out), arrived := false,
                                   kid := tableKey s core }] ∧
           t.threads = s.threads ∧ SameMemory s t) ∧
       (∀ p, g.shape = .receive → g.rx = some (p, false) → g.buf + 32 ≤ 65536 → ∃ t r', exec (.groupFire core) s = .next t ∧
         (t.core core).run = some r' ∧ r'.clock = r.clock + 1 ∧ r'.cyc = r.cyc + 1 ∧ t.threads = s.threads ∧
         t.readN (localAddr core g.buf) 32 = incoming s core g 32 ∧
         ∀ x, x < localAddr core g.buf ∨ localAddr core g.buf + 32 ≤ x → t.read x = s.read x))))

/-! ## Lending and power leave (spec/16_harvest.md R403-R413, spec/21_host.md R478-R480) -/

/-- The backing area of a bank and the overflow regions of a core lie in die memory, with nothing in the overflow regions, the
frames of cached lines lie in HBM, and the shadow pool has room for a granule (spec/07_local_store.md R181, spec/16_harvest.md
Table 16.3). -/
def ReclaimRoom (s : State) (core b : Nat) : Prop :=
  dieWindow ≤ ((s.core core).leases.get (bankIdx b)).hback.toNat ∧ s.lines = [] ∧ (s.core core).pool.length + 64 ≤ 256 ∧
  ∀ w ∈ [0, 8, 9], ((s.core core).ovf.get (writerIdx w)).vovf = ((s.core core).ovf.get (writerIdx w)).base

/-- HOFFER, HSTAT and the events of a lending core (R405, R406, R408, R411-R413).  An owner of a lending core offers leasable
granules, and its core's offer mask is all that changes; any other mask takes ACCESS, as does a thread whose core does not lend.
HSTAT returns the word of Table 16.4, bit by bit, for an owner and for a harvester.  After 32 cycles with no owner slot Ready the
core lends again, and not before.  A granule that an owner's store waits for is taken back: its bytes move to the bank's backing
area, the granule reads zero, the lease counts it gone, and every other byte stays; a granule that is not leased stays
as it is, and while the reclaim must wait nothing changes. -/
def Obligations.CoresLend : Prop :=
  (∀ (s : State) (a : BitVec 5), FullAll s [a] →
    let w := s.th.rg a
    let lends : Prop := s.curSlot < 8 ∧ isControl s.curCore = false ∧ coreLends s s.curCore = true
    let good : Prop := w.toNat < 2 ^ 12 ∧ ∀ n < 12, w.getLsbD n = true → leasable (s.core s.curCore) n = true
    (lends → good → ∃ u t, exec (.hoffer a) s = .next t ∧ Completed u t s.th ∧ u = { s with cores := u.cores } ∧
      ∀ c, u.core c = if c = s.curCore then { s.core c with offer := w.setWidth 12 } else s.core c) ∧
    (lends → ¬ good → TakesS s → Traps (.hoffer a) s 4 w false) ∧ (¬ lends → TakesS s → Traps (.hoffer a) s 4 0 false)) ∧
  (∀ (s : State) (d : BitVec 5),
    let c := s.core s.curCore
    let l := c.leases.get (bankIdx s.curSlot)
    let seated (b : Nat) : Bool := decide ((s.thread (tid s.curCore b)).st ≠ .unheld)
    (∀ g ∈ c.held, g < 12) → (∀ j ∈ l.gone, j < 12) → l.granules.length < 16 →
    ∃ v, Writes (.hstat d) s d v ∧ ∀ n < 64, v.getLsbD n = if s.curSlot < 8 then
        (decide (n < 12) && c.offer.getLsbD n || decide (16 ≤ n ∧ n - 16 ∈ c.held) || decide (n = 41) && seated 8 ||
          decide (n = 42) && seated 9 || decide (n = 43) && c.recalled)
      else (decide (n = 43) && c.recalled || decide (44 ≤ n ∧ n < 48) && l.granules.length.testBit (n - 44) ||
          decide (48 ≤ n ∧ n - 48 ∈ l.gone))) ∧
  (∀ (s : State) (core : Nat), isControl core = false →
    (ownerReady s core = false → 32 ≤ (s.core core).idleCy → ∃ t, exec (.lendingResume core) s = .next t ∧
      t = { s with cores := t.cores } ∧ ∀ c, t.core c = if c = core then { s.core c with recalled := false } else s.core c) ∧
    (ownerReady s core = true ∨ (s.core core).idleCy < 32 → exec (.lendingResume core) s = .next s)) ∧
  (∀ (s : State) (core granule : Nat), isControl core = false → granule < 12 → ownerWaits s core granule = true →
    (reclaim s core granule = none → exec (.granuleReclaim core granule) s = .next s) ∧
    (Unleased s core granule → exec (.granuleReclaim core granule) s = .next s) ∧
    (∀ b j s', leaseOf s core granule = some (b, j, false) → ReclaimRoom s core b → reclaim s core granule = some s' →
      ∃ t, exec (.granuleReclaim core granule) s = .next t ∧
        let l := (s.core core).leases.get (bankIdx b)
        let m := (t.core core).leases.get (bankIdx b)
        let lo := localAddr core (granule * 4096)
        let back := l.hback.toNat + j * 4096
        (∀ o < 4096, t.read (lo + o) = 0 ∧ t.read (back + o) = s.read (lo + o)) ∧
        (∀ a, (a < lo ∨ lo + 4096 ≤ a) → (a < back ∨ back + 4096 ≤ a) → t.read a = s.read a) ∧
        m = { l with gone := m.gone, restored := m.restored, fresh := l.fresh ++ [j] } ∧ j ∈ m.gone ∧ j ∉ m.restored ∧
        (∀ c, c ≠ core → t.core c = s.core c) ∧ t.threads = s.threads))

/-- LEAVE, LEAVE.REL and the governor's events (R478-R480): LEAVE of 0 reads the reservation, any other joins the governor's
queue with g[d] empty until the grant, more than 720 in all takes ACCESS; LEAVE.REL lowers the reservation by what is unused of
it; a grant takes the head request where the budget covers it and no emergency stands. -/
def Obligations.PowerLeave : Prop :=
  (∀ (s : State) (d a : BitVec 5), FullAll s [a] →
    let w := s.th.rg a
    let x := s.dctx s.curDie s.curCtx
    let asked := x.resv + leaveWaiting s s.curDie s.curCtx + w.toNat
    (w.toNat < 65536 → asked ≤ 720 → w = 0 → Writes (.leave d a) s d (word x.resv)) ∧
    (w.toNat < 65536 → asked ≤ 720 → w ≠ 0 → ∃ u t r, exec (.leave d a) s = .next t ∧ Completed u t (s.th.emptyG d) ∧
      u = { s with dies := u.dies } ∧ (u.die s.curDie).leaveq.Perm (r :: (s.die s.curDie).leaveq) ∧
      r.what = .leave s.curCore s.curSlot d ∧ r.ctx = s.curCtx ∧ r.cost = w.toNat) ∧
    (65536 ≤ w.toNat ∨ 720 < asked → TakesS s → Traps (.leave d a) s 4 w false) ∧
    (let m := min (wfld w 0 16) (x.resv - x.resvUsed)
     ∃ u t, exec (.leaveRel a) s = .next t ∧ Completed u t s.th ∧ u = { s with dies := u.dies, ctxs := u.ctxs } ∧
      u.dctx s.curDie s.curCtx = { x with resv := x.resv - m, resvFresh := x.resvFresh - m } ∧
      u.die s.curDie = { s.die s.curDie with used := (s.die s.curDie).used - m })) ∧
  (∀ (s : State) (die : Nat) (r : LeaveReq) (rest : List LeaveReq) (core slot : Nat) (d : BitVec 5),
    (s.die die).leaveq = r :: rest → (s.die die).emg = false → (s.die die).used + r.cost ≤ (s.die die).budget →
    r.what = .leave core slot d → slot < slotsPerCore → d ≠ 0 → (∀ c, (s.dctx (dieOf core) c).trEn = 0) → ∃ t, exec (.leaveGrant die) s = .next t ∧
      t.die die = { s.die die with leaveq := rest, used := (s.die die).used + r.cost } ∧
      (t.dctx die r.ctx).resv = (s.dctx die r.ctx).resv + r.cost ∧
      (t.thread (tid core slot)).rg d = word ((s.dctx die r.ctx).resv + r.cost) ∧ (t.thread (tid core slot)).fullG d = true ∧
      (∀ u, u ≠ tid core slot → t.thread u = s.thread u) ∧ SameMemory s t) ∧
  (∀ (s : State) (die : Nat) (on : Bool), die < numDies → ∃ t, exec (.thermalEmergency die on) s = .next t ∧
    t = { s with dies := t.dies } ∧ t.die die = { s.die die with emg := on } ∧ ∀ d, d ≠ die → t.die d = s.die d)

/-! ## The amplitude engine (spec/15_amplitudes.md) -/

/-- Whether an amplitude instruction, its `.d` form by `dbl`, passes the checks of R388 and R389, the queue has room, and the
engines accept work (spec/01_wafer.md R25; that it waits for them is log entry 27). -/
def AmpReady (s : State) (dbl : Bool) : Prop :=
  let a := (s.ctx s.curCtx).amp
  (dbl = true → (s.die s.curDie).capAmp64 = true) ∧ s.curSlot < 8 ∧ s.curCore = a.own ∧ a.valid = true ∧ a.transit = none ∧
  a.permuted = true ∧ dbl = a.dbl ∧ a.queue.length < 8 ∧ a.accepts s = true ∧ Drained s

/-- The pass joined the queue (R390): `kind` at its end, g[d] empty until it completes; maps and leaves are as before. -/
def AmpQueued (s t : State) (d : BitVec 5) (kind : AmpKind) : Prop :=
  let a := (s.ctx s.curCtx).amp
  let b := (t.ctx s.curCtx).amp
  b.queue.map (fun e => (e.core, e.slot, e.d, e.kind, e.first)) =
    a.queue.map (fun e => (e.core, e.slot, e.d, e.kind, e.first)) ++ [(s.curCore, s.curSlot, d, kind, !a.queued)] ∧
  b.work = a.work ∧ b.front = a.front ∧ b.qcfg = a.qcfg ∧ SameMemory s t ∧ (∀ u, u ≠ s.cur → t.thread u = s.thread u) ∧
  t.th = { s.th.emptyG d with came := s.th.pc, cameBr := false, pc := s.npc, stall := none, ramo := t.th.ramo, prng := t.th.prng }

/-- The twelve amplitude instructions (R388-R398): each passes its checks and joins the queue, and the maps stand until its pass
runs.  QGATE and QGATE.AUTO carry their matrix, targets, controls and control values; QSWAP the local and the outer bit that it
exchanges and, for a module bit, the partner that the module table names at issue; QPROB and QNORM a sum, whose result waits for
release where the state spans modules; QSAMP draws once. -/
def Obligations.AmplitudePassesQueue : Prop :=
  ∀ (s : State) (d a b : BitVec 5) (dbl : Bool), AmpReady s dbl →
    let x := (s.ctx s.curCtx).amp
    let w := s.th.rg a
    (∀ i auto, (i, auto) ∈ (if dbl then [(Instr.qgateD d a b, false), (.qgateAutoD d a b, true)]
        else [(.qgate d a b, false), (.qgateAuto d a b, true)]) → FullAll s [a, b, b + 1] →
      let gw := s.th.rg b
      let cw := s.th.rg (b + 1)
      ∀ k bs, 1 ≤ k → k ≤ 5 → ReadsWords s w.toNat [word (k + 8 * bit dbl), 0] → w.toNat % 64 = 0 →
        ownRange s .read w (16 + 4 ^ k * x.size) = true → ownBytes s w.toNat (16 + 4 ^ k * x.size) = .bytes s bs →
        badGate x gw cw k = false →
        (∀ t ∈ gateTargets gw k, x.bitOf t < if auto then x.inner else x.lbits) →
        ∃ t, exec i s = .next t ∧ AmpQueued s t d (.gate k (elemsOf (x.size / 2) (bs.drop 16)) (gateTargets gw k)
          (gateControls gw cw) (wfld cw 48 8) auto) ∧ t.th.prng = s.th.prng ∧ t.th.ramo = s.th.ramo) ∧
    (FullAll s [a] → wfld w 14 50 = 0 → wfld w 6 2 = 0 →
      let pu := x.bitOf (wfld w 0 6)
      let pv := x.bitOf (wfld w 8 6)
      wfld w 0 6 < x.n → wfld w 8 6 < x.n → (pu < x.lbits ↔ ¬ pv < x.lbits) →
      let far : Prop := x.inner ≤ max pu pv
      let partner := if far then partnerOf s x (max pu pv) else none
      ∃ t, exec (if dbl then .qswapD d a else .qswap d a) s = .next t ∧
        AmpQueued s t d (.swap (min pu pv) (max pu pv) (wfld w 0 6) (wfld w 8 6) partner) ∧
        (t.ctx s.curCtx).amp.transit = (if far then some (min pu pv, max pu pv) else none) ∧
        t.th.prng = s.th.prng ∧ t.th.ramo = s.th.ramo) ∧
    (FullAll s [a] → w.toNat < x.n → w.toNat < 64 → ∃ t, exec (if dbl then .qprobD d a else .qprob d a) s = .next t ∧
      AmpQueued s t d (.sum (some w.toNat)) ∧ t.th.prng = s.th.prng ∧
      t.th.ramo = if x.mbits = 0 ∨ d = 0 then s.th.ramo else s.th.ramo ||| BitVec.ofNat 32 (2 ^ d.toNat)) ∧
    (∃ t, exec (if dbl then .qnormD d else .qnorm d) s = .next t ∧ AmpQueued s t d (.sum none) ∧ t.th.prng = s.th.prng ∧
      t.th.ramo = if x.mbits = 0 ∨ d = 0 then s.th.ramo else s.th.ramo ||| BitVec.ofNat 32 (2 ^ d.toNat)) ∧
    (FullAll s [a] → x.mbits = 0 → s.th.vectorDraws = false → ∃ t, exec (if dbl then .qsampD d a else .qsamp d a) s = .next t ∧
      AmpQueued s t d (.sample (prngNext s.th.prng) w) ∧ t.th.prng = prngNext s.th.prng ∧ t.th.ramo = s.th.ramo)

/-- The leaf that a pass reads or writes lies in its frames, whose numbers fit. -/
def LeafFits (a : Amp) : Prop := a.frame (!a.frontB) + 2 ^ a.pg ≤ 2 ^ 20 ∧ a.sb + 2 ^ a.sbits ≤ 16

/-- AMPLITUDE_PASS (R80, R392, R394, R396, R398): the head entry that holds its leave runs, on dies whose engines accept work.  A gate writes to the back leaf the
matrix product of each output whose controls match, and on the first pass the front leaf's value elsewhere, over the bits on which
its targets and controls stand as it runs; a swap within the module exchanges the amplitudes of the two bits and the two qubits'
places in the map; a sum and a sample give their value to g[d].  The entry leaves the queue.

Module-bit swaps (R395): an arriving page of the partner's half is written to the back leaf at the positions whose local bit
differs, one half fewer is awaited, and the partner is told; 50,000 ns after its own half a swap without its partner completes with status 3 and the
launch takes an abort vote of bit 7.  The name of a half's page is the model's choice (log entry 17). -/
def Obligations.AmplitudesChange : Prop :=
  (∀ (s : State) (die ctx : Nat) (a : Amp) (e : AmpEntry), (ampHeads s die).find? (fun x => ampMayRun x.2.1 x.2.2 && x.2.1.accepts s) = some (ctx, a, e) →
     (s.ctx ctx).amp = a → LeafFits a → e.d ≠ 0 → e.slot < 16 → (∀ c, (s.dctx (dieOf e.core) c).trEn = 0) →
     let src := a.source e.first
     let half : Nat := 2 ^ (4 * a.size)
     ∃ t, exec (.amplitudePass die) s = .next t ∧
       (∀ k u targets controls cv auto, e.kind = .gate k u targets controls cv auto →
         (∀ q ∈ targets, a.bitOf q < if auto then a.lbits else a.inner) →
         let ts := targets.map a.bitOf
         let cs := controls.map a.bitOf
         (t.ctx ctx).amp.work = a.work ∧ ∀ x < 2 ^ a.inner, readAmp t a (!a.frontB) x =
         let r := (gateRow a.fmt (u.drop (2 * gather x ts * 2 ^ k)) ((List.range (2 ^ k)).map (fun j => readAmp s a src (scatter x j ts)))).1
         if controlsMatch a cs cv x then (r.1 % half, r.2 % half)
         else if e.first then readAmp s a a.frontB x else readAmp s a (!a.frontB) x) ∧
       (∀ l o u w p, e.kind = .swap l o u w p → o < a.inner →
         (t.ctx ctx).amp.work = (a.work.set u (a.bitOf w)).set w (a.bitOf u) ∧ ∀ x < 2 ^ a.inner,
         readAmp t a (!a.frontB) x = readAmp s a src (exchangeBits x l o)) ∧
       (∀ b, e.kind = .sum b → a.mbits = 0 →
         (t.thread (tid e.core e.slot)).rg e.d = word (pairSum a.fmt a.inner (weights s a src (b.map a.bitOf))) ∧ SameMemory s t) ∧
       (∀ r m, e.kind = .sample r m → (t.thread (tid e.core e.slot)).rg e.d = sample s a src r m a.work ∧ SameMemory s t) ∧
       ((∀ l o u w p, e.kind = .swap l o u w p → o < a.inner) → (∀ b, e.kind = .sum b → a.mbits = 0) →
         (t.thread (tid e.core e.slot)).fullG e.d = true ∧ (t.ctx ctx).amp.queue.length + 1 = a.queue.length)) ∧
  ((∀ (s : State) (die ctx l o page : Nat) (data : List Byte) (c : Ctx),
     s.ctxs.find? (fun c => decide (dieOf c.2.amp.own = die) && c.2.amp.transit.isSome) = some (ctx, c) →
     let a := (s.ctx ctx).amp
     a.transit = some (l, o) → a.awaited ≠ 0 → page < a.pages → page < 2 ^ 32 → LeafFits a →
     ∃ t, exec (.swapHalfArrival die (swapTag l o page) data) s = .next t ∧ (t.ctx ctx).amp = { a with awaited := a.awaited - 1 } ∧
       t.linkOut = (match a.peer with
         | some m => (s.send m (.swapAccepted ctx (swapTag l o page))).linkOut
         | none => s.linkOut) ∧
       let xs := halfPage a page l (!a.mi.testBit (o - a.inner))
       ∀ i < xs.length, t.readN (a.addr (!a.frontB) (xs.getD i 0)) a.size = (List.range a.size).map (fun k => data.getD (a.size * i + k) 0)) ∧
   (∀ (s : State) (die ctx t0 : Nat) (a : Amp) (e : AmpEntry) (j : Job),
     (ampHeads s die).find? (fun x => match x.2.2.sent with
       | some t => decide (t + 50000 ≤ s.time)
       | none => false) = some (ctx, a, e) →
     e.sent = some t0 → (s.ctx ctx).amp = a → s.job ctx = some j → e.d ≠ 0 →
     ∃ t j', exec (.partnerTimeout die) s = .next t ∧ (t.thread (tid e.core e.slot)).rg e.d = word (3 * 2 ^ 44 + a.pages % 2 ^ 32) ∧
       (t.thread (tid e.core e.slot)).fullG e.d = true ∧ t.job ctx = some j' ∧ j'.abortMask = j.abortMask ||| 128 ∧
       (t.ctx ctx).amp.queue.length + 1 = a.queue.length))

/-! ## System registers, traps and returns (spec/18_traps.md, spec/20_accounting.md) -/

/-- A system register with the mode that reads or writes it and what goes with it. -/
abbrev SysRow (α : Type) := BitVec 11 × Mode × α

/-- System registers of the running thread, its core and its die, with the mode that reads them and their value (Tables 18.1-18.5,
spec/06_vector.md Table 6.8, spec/18_traps.md R444, R447). -/
def sysValues (s : State) : List (SysRow Word) :=
  let th := s.th
  let die := s.die s.curDie
  let core := s.core s.curCore
  let ovf := core.ovf.get (writerIdx (writerOf s.curSlot))
  let status (x : TrapRegs) : Word := BitVec.ofNat 64 (bit x.st * 16 + x.pm.code * 4 + th.mode.code)
  ([(0x000, .u, th.rm.setWidth 64), (0x001, .u, th.fflags.setWidth 64), (0x002, .u, th.prng.setWidth 64), (0x003, .u, BitVec.ofNat 64 s.time),
   (0x007, .u, th.spovf), (0x00A, .u, if th.upBusy then 1 else 0), (0x040, .s, status th.strap), (0x041, .s, th.strap.epc),
   (0x042, .s, th.strap.cause), (0x043, .s, th.strap.tval), (0x045, .s, th.strap.scr), (0x046, .s, th.xfrom), (0x047, .s, th.vepc),
   (0x048, .s, word (bit th.image.isSome * 2 ^ 23 + th.vtElem.toNat * 2 ^ 16 + th.vtLvl.toNat * 2 ^ 12 + th.vtEntry.toNat)),
   (0x049, .s, ovf.vovf), (0x04A, .s, ovf.vovend), (0x04D, .s, core.mrerr), (0x04E, .s, core.xnerr), (0x050, .s, die.jevt),
   (0x051, .s, word (die.eccUnc.toNat * 2 ^ 48 + die.eccRef.toNat * 2 ^ 32 + die.eccCor.toNat)), (0x052, .s, die.lqbase),
   (0x080, .m, status th.mtrap), (0x081, .m, th.mtrap.epc), (0x082, .m, th.mtrap.cause), (0x083, .m, th.mtrap.tval), (0x084, .m, die.mtvec),
   (0x085, .m, th.mtrap.scr), (0x086, .m, word (bit (dmBusy s s.curDie) * 2 ^ 16 + die.cblk)), (0x087, .m, word die.pclist),
   (0x088, .m, word (die.injCount.toNat * 2 ^ 32 + die.injKind.toNat * 2 + bit die.injArm)), (0x089, .m, die.devt.setWidth 64),
   (0x08A, .s, word (die.budget * 2 ^ 32 + die.used * 2 ^ 16 + bit die.emg))] : List (SysRow Word)) ++
  if 8 ≤ s.curSlot then [(0x04F, .s, (core.leases.get (bankIdx s.curSlot)).hback)] else []

/-- The system registers of the running thread's context and counter set in the same way (spec/04_threads.md R99, spec/10_pages.md,
spec/15_amplitudes.md R381-R384, spec/19_survival.md Tables 19.2-19.5, Table 20.2). -/
def sysCtxValues (s : State) : List (SysRow Word) :=
  let c := s.ctx s.curCtx
  let x := s.dctx s.curDie s.curCtx
  let v := c.sv
  let set := readSet s s.cur
  let state : Nat := match s.job s.curCtx with
    | none => 0
    | some j => j.streak * 2 ^ 10 + bit (decide (j.phase = .escalated)) * 2 ^ 9 + bit j.pend * 2 ^ 8
  ([(0x004, .u, c.ssres), (0x005, .u, word (c.lastCause.toNat * 2 ^ 32 + state)), (0x006, .u, c.classbase), (0x008, .u, c.upcfg),
   (0x009, .u, c.fibent), (0x00B, .u, c.ttctl), (0x00C, .u, word (x.dmSize * 2 ^ 32 + x.dmBase * 2 ^ 14)), (0x00D, .u, c.ptroot),
   (0x00E, .u, c.amp.qcfg), (0x00F, .u, c.amp.qleaf), (0x010, .u, c.amp.qmtab),
   (0x011, .u, word (v.live % 4096 * 2 ^ 52 + v.bst * 2 ^ 49 + boardFeed.toNat * 2 ^ 40 + v.bfeed * 2 ^ 32 + v.fails * 2 ^ 16 +
     bit v.err * 4 + bit v.recv * 2 + bit v.busy)),
   (0x012, .u, word (bit v.valid * 2 ^ 63 + v.side * 2 ^ 48 + v.ssno)), (0x013, .u, word (v.m * 2 ^ 28 + v.c)),
   (0x053, .s, word (bit v.usecorr * 2 ^ 46 + v.spare * 2 ^ 32 + v.nb)), (0x044, .s, c.tvec), (0x04B, .s, x.tqbase), (0x04C, .s, x.prqbase),
   (0x180, .u, set.satc), (0x181, .u, set.satd), (0x182, .u, word (c.mbCount * 2 ^ 55 + c.mbFrame.toNat)), (0x183, .s, x.trbase),
   (0x184, .s, word (x.trDrop.toNat * 2 ^ 32 + x.trLg * 2 ^ 16 + x.trEn.toNat * 2)), (0x185, .s, readDbgctl s s.curCtx),
   (0x186, .s, c.dbgsel.setWidth 64), (0x187, .s, c.dbgbrk), (0x188, .u, c.jobid)] : List (SysRow Word)) ++
  ((List.range 64).flatMap (fun i => [(BitVec.ofNat 11 (0x100 + i), .u, word (Table.get 0 set.comm i)),
    (BitVec.ofNat 11 (0x140 + i), .u, word (Table.get 0 set.disc i))]) : List (SysRow Word)) ++
  (List.range 8).map (fun n => (BitVec.ofNat 11 (0x018 + n), .u,
    word (((List.range 8).map (fun i => c.amp.bitOf (8 * n + i) * 2 ^ (8 * i))).foldl (· + ·) 0)))

/-- Writable registers held by the running thread, with the mode that writes them and what a write of `v` leaves (Tables 18.1-18.3,
spec/03_numbers.md R64, R73, spec/04_threads.md R84, spec/06_vector.md Table 6.8, spec/10_pages.md R254; UPST.ret apart). -/
def sysThreadWrites (th : Thread) (v : Word) : List (SysRow Thread) :=
  let even := v &&& ~~~1#64
  let pm (old : Mode) : Mode := match wfld v 2 2 with
    | 0 => .u
    | 1 => .s
    | 3 => .m
    | _ => old
  ([(0x000, .u, { th with rm := v.setWidth 2 }), (0x001, .u, { th with fflags := v.setWidth 5 }),
   (0x002, .u, { th with prng := if v.toNat % 2 ^ 32 = 0 then 0x9E3779B9 else v.setWidth 32 }),
   (0x007, .s, { th with spovf := word (v.toNat / 2 ^ 14 * 2 ^ 14) }),
   (0x040, .s, { th with strap := { th.strap with st := v.getLsbD 4, pm := pm th.strap.pm } }),
   (0x041, .s, { th with strap := { th.strap with epc := even } }), (0x042, .s, { th with strap := { th.strap with cause := v &&& 0x7FF } }),
   (0x043, .s, { th with strap := { th.strap with tval := v } }), (0x045, .s, { th with strap := { th.strap with scr := v } }),
   (0x046, .s, { th with xfrom := v }), (0x047, .s, { th with vepc := even }),
   (0x048, .s, if v.getLsbD 23 then th else { th with image := none }),
   (0x080, .m, { th with mtrap := { th.mtrap with st := v.getLsbD 4, pm := pm th.mtrap.pm } }),
   (0x081, .m, { th with mtrap := { th.mtrap with epc := even } }), (0x082, .m, { th with mtrap := { th.mtrap with cause := v &&& 0xFFF } }),
   (0x083, .m, { th with mtrap := { th.mtrap with tval := v } }), (0x085, .m, { th with mtrap := { th.mtrap with scr := v } })] : List (SysRow Thread)) ++
  if v.getLsbD 2 then [] else [(0x00A, .u, { th with upBusy := v.getLsbD 0 })]

/-- Writable registers held elsewhere, with the mode that writes them and what a write of `v` does to a state: of the core, the context,
the context on the die, and the die, field by field, each under its own acceptance rule; SSCTL, SVCTL, SVRATE, DBGCTL and QCFG act as
their operations do. -/
def sysOtherWrites (s : State) (v : Word) : List (SysRow (State → State)) :=
  let even := v &&& ~~~1#64
  let low (k : Nat) : Word := word (v.toNat / 2 ^ k * 2 ^ k)
  let core (f : Core → Core) (u : State) : State := u.modCore s.curCore f
  let ctx (f : Ctx → Ctx) (u : State) : State := u.modCtx s.curCtx f
  let dctx (f : DieCtx → DieCtx) (u : State) : State := u.modDctx s.curDie s.curCtx f
  let die (f : Die → Die) (u : State) : State := u.modDie s.curDie f
  let w := writerIdx (writerOf s.curSlot)
  let trb := low 12
  ([(0x049, .s, core (fun c => { c with ovf := c.ovf.set w { c.ovf.get w with vovf := low 7 } })),
   (0x04A, .s, core (fun c => { c with ovf := c.ovf.set w { c.ovf.get w with vovend := low 7 } })),
   (0x04D, .s, core (fun c => { c with mrerr := c.mrerr &&& ~~~(v &&& 0x20000) })),
   (0x04E, .s, core (fun c => { c with xnerr := c.xnerr &&& ~~~(v &&& 0x100000000) })),
   (0x04F, .s, fun u => if s.curSlot < 8 then u else
     core (fun c => { c with leases := c.leases.set (bankIdx s.curSlot) { c.leases.get (bankIdx s.curSlot) with hback := low 16 } }) u),
   (0x006, .s, ctx (fun c => { c with classbase := v &&& ~~~0x3FE#64 })),
   (0x008, .s, fun u => if upcfgOk v then ctx (fun c => { c with upcfg := v &&& 0x0FFFFF07F800FFC0 }) u else u),
   (0x009, .u, ctx (fun c => { c with fibent := even })), (0x00B, .s, ctx (fun c => { c with ttctl := v &&& 0x1FFFF })), (0x00C, .m, id),
   (0x00D, .m, fun u => if ptrootOk v then ctx (fun c => { c with ptroot := v &&& 0x80000FFFFFFF0000 }) u else u),
   (0x00F, .s, ctx (fun c => { c with amp := if c.amp.queue = [] ∧ c.amp.ran = false ∧ c.amp.valid = false then
     { c.amp with qleaf := word (wfld v 32 20 * 2 ^ 32 + wfld v 0 20) } else c.amp })),
   (0x010, .s, ctx (fun c => { c with amp := if c.amp.queue = [] ∧ c.amp.ran = false then { c.amp with qmtab := even } else c.amp })),
   (0x044, .s, ctx (fun c => { c with tvec := even })), (0x186, .s, ctx (fun c => { c with dbgsel := v.setWidth 32 })),
   (0x04B, .s, dctx (fun x => { x with tqbase := low 9 })), (0x04C, .s, dctx (fun x => { x with prqbase := v &&& ~~~0xFFE#64 })),
   (0x183, .s, fun u => if dieAddr s.curDie 0 ≤ trb.toNat ∧ inAllotment s s.curDie s.curCtx (trb.toNat - dieAddr s.curDie 0) 1 = true then
     dctx (fun x => { x with trbase := trb }) u else u),
   (0x184, .s, dctx (fun x => { x with trLg := if 6 ≤ wfld v 16 5 ∧ wfld v 16 5 ≤ 16 then wfld v 16 5 else x.trLg,
                                       trEn := BitVec.ofNat 10 (wfld v 1 10) })),
   (0x051, .m, die (fun d => { d with eccUnc := BitVec.ofNat 16 (wfld v 48 16), eccRef := BitVec.ofNat 16 (wfld v 32 16),
                                      eccCor := v.setWidth 32 })),
   (0x052, .m, fun u => noteTails (die (fun d => { d with lqbase := v &&& ~~~0x1FE#64, dispatch := true }) u) s.curDie),
   (0x084, .m, die (fun d => { d with mtvec := even })),
   (0x086, .m, fun u => if dmBusy s s.curDie = true ∨ wfld v 0 13 < 512 ∨ 8190 < wfld v 0 13 then u else
     die (fun d => { d with cblk := wfld v 0 13 }) u),
   (0x087, .m, die (fun d => { d with pclist := if wfld v 0 7 ≤ 64 then wfld v 0 7 else d.pclist })),
   (0x088, .m, die (fun d => { d with injArm := v.getLsbD 0,
                                      injKind := if wfld v 1 2 = 1 ∨ wfld v 1 2 = 2 then BitVec.ofNat 2 (wfld v 1 2) else d.injKind })),
   (0x089, .m, die (fun d => { d with devt := d.devt &&& ~~~(v.setWidth 5) })),
   (0x08A, .m, die (fun d => { d with budget := if wfld v 32 16 < d.used then d.budget else wfld v 32 16 })),
   (0x005, .s, fun u => writeSsctl u s.curCtx v), (0x053, .s, fun u => writeSvctl u s.curCtx v),
   (0x013, .s, fun u => shareRate u s.curCtx (wfld v 0 28) (wfld v 28 36) (s.ctx s.curCtx).sv.fails),
   (0x185, .s, fun u => writeDbgctl u s.curCtx v.toNat), (0x00E, .s, fun u => writeQcfg u s.curCtx v)] : List (SysRow (State → State))) ++
  (List.range 8).map (fun n => (BitVec.ofNat 11 (0x018 + n), .s, fun u => writeQmap u s.curCtx n v))

/-- SYSR (R438, R439): each assigned register whose mode is met reads its value, field by field (HBACK of an owner slot, whose value
the spec does not state, some value); one above the mode takes PRIV and an unassigned number ILLEGAL, with the instruction word.  An
access to FFLAGS or PRNG waits for the vector entries that it depends on (spec/03_numbers.md R72, R73), those of a stopped stream
among them (log entry 69).

SYSW (R438, R439): a write in a mode that may make it changes the register field by field and nothing else; the registers of the
core, the context and the die change there.  That CAUSE keeps bits 10:0 is the model's reading (log entry 19).  A read-only or
unassigned number takes ILLEGAL, one above the mode PRIV. -/
def Obligations.SystemRegisterAccess : Prop :=
  (∀ (s : State) (d : BitVec 5) (n : BitVec 11),
     let wait := (n = 0x002 ∧ s.th.vectorDraws = true) ∨ (n = 0x001 ∧ s.th.vectorQueued = true)
     (∀ m v, (n, m, v) ∈ sysValues s ++ sysCtxValues s → m.code ≤ s.th.mode.code → ¬ wait → Writes (.sysr d n) s d v) ∧
     (∀ r w, sysModes n.toNat = some (r, w) →
       (r.code ≤ s.th.mode.code → ¬ wait → ∃ s' t v, exec (.sysr d n) s = .next t ∧ s' = { s with free := s'.free } ∧ Yields s' t d v) ∧
       (r.code ≤ s.th.mode.code → wait → exec (.sysr d n) s = .next s) ∧
       (s.th.mode.code < r.code → TakesS s → Traps (.sysr d n) s 2 s.iw false)) ∧
     (sysModes n.toNat = none → TakesS s → Traps (.sysr d n) s 1 s.iw false)) ∧
  (∀ (s : State) (n : BitVec 11) (a : BitVec 5),
     let v := s.th.rg a
     let wait := (n = 0x002 ∧ s.th.vectorDraws = true) ∨ (n = 0x001 ∧ s.th.vectorQueued = true)
     (∀ m th, (n, m, th) ∈ sysThreadWrites s.th v → m.code ≤ s.th.mode.code → FullAll s [a] → ¬ wait → Leaves (.sysw n a) s th) ∧
     (∀ m upd, (n, m, upd) ∈ sysOtherWrites s v → m.code ≤ s.th.mode.code → FullAll s [a] →
       ∃ u, Completed s u s.th ∧ exec (.sysw n a) s = .next (upd u)) ∧
     (∀ r m, sysModes n.toNat = some (r, some m) → m.code ≤ s.th.mode.code → FullAll s [a] → wait → exec (.sysw n a) s = .next s) ∧
     (∀ r m, sysModes n.toNat = some (r, some m) → s.th.mode.code < m.code → TakesS s → Traps (.sysw n a) s 2 s.iw false) ∧
     ((sysModes n.toNat = none ∨ ∃ r, sysModes n.toNat = some (r, none)) → TakesS s → Traps (.sysw n a) s 1 s.iw false))

/-- BRK, TRAP and WFI (R432-R434, R440, R441).  BRK traps at its own PC with code 14.  TRAP from U mode traps to S with the next
PC, and from S mode to M: the M registers are saved, the PC is the die's vector.  WFI in U mode takes PRIV; on a thread slot it parks
with its next PC while neither q2 nor q3 holds an entry and no trap is pending, and otherwise goes on.  That an entry already
queued counts as arrived is the model's reading (log entry 43). -/
def Obligations.TrapsAndWaits : Prop :=
  ∀ s : State,
    (TakesS s → isControl s.curCore = true ∨ (s.ctx s.curCtx).dbgBh = false → Traps .brk s 14 0 false) ∧
    (TakesS s → s.th.mode = .u → ∃ t, exec .trap s = .next t ∧ Trapped s t 15 0 s.npc false) ∧
    (TakesS s → s.th.mode = .s → s.th.mtrap.st = false → ∃ t, exec .trap s = .next t ∧
      t.th = { s.th with mode := .m, pc := (s.die s.curDie).mtvec, came := 0, cameBr := false, stall := none,
                         mtrap := { s.th.mtrap with st := true, pm := .s, epc := s.npc &&& ~~~1#64, tval := 0, cause := 15 } } ∧
      ∀ u, u ≠ s.cur → t.thread u = s.thread u) ∧
    (s.th.mode = .u → TakesS s → Traps .wfi s 2 s.iw false) ∧
    (s.th.mode ≠ .u → isControl s.curCore = false →
      let goes : Prop := s.th.queue 2 ≠ [] ∨ s.th.queue 3 ≠ [] ∨ s.th.pendVF ≠ [] ∨ s.th.pendRM ≠ []
      (goes → Leaves .wfi s s.th) ∧
      (¬ goes → ∃ t, exec .wfi s = .next t ∧ IssueOnly s t ∧ t.th = { s.th with st := .parked, wait := .wfi, parkNpc := s.npc }))

/-- JOB_EVENT_ENTRY and VTRAP_HELD_CLEAR (R441, R448, spec/06_vector.md R166): a die-control core parked in a WFI takes its oldest
job event, at the vector of the job's context with the WFI's next PC; a held sequencer image is dropped.

INJECT and REPORT (R443, R466): outside M mode both take PRIV.  INJECT with nothing armed only completes; armed on a
doubleword of the core's own local store it leaves that word damaged, as armed, and disarms.  REPORT writes to its area the
status, identity and counters of the set that the request there names, followed by their digest.  What a second INJECT leaves, when REPORT
serves a request, and that the entry of a job event is traced in the event's context are log entries 37, 11 and 35. -/
def Obligations.ControlCoreActs : Prop :=
  ((∀ (s : State) (die : Nat) (e : JobEvent) (rest : List JobEvent), die < numDies →
     let c := tid (numGcores + die) 0
     let th := s.thread c
     th.st = .parked → th.wait = .wfi → th.mode = .m → th.mtrap.st = false → th.strap.st = false → (s.die die).events = e :: rest →
     let w := word (e.ctx * 2 ^ 48 + e.ssno)
     ∃ t, exec (.jobEventEntry die) s = .next t ∧ (t.die die).events = rest ∧ (t.die die).jevt = w ∧
       (t.thread c).mode = .s ∧ (t.thread c).pc = (s.ctx e.ctx).tvec ∧ (t.thread c).g = th.g ∧
       (t.thread c).strap = { st := true, pm := .m, epc := th.parkNpc &&& ~~~1#64, cause := word e.code, tval := w, scr := th.strap.scr }) ∧
   (∀ (s : State) (core slot : Nat), core < numCores → slot < slotsPerCore → ∃ t, exec (.vtrapHeldClear core slot) s = .next t ∧
     t = { s with threads := t.threads } ∧ t.thread (tid core slot) = { s.thread (tid core slot) with image := none } ∧
     ∀ u, u ≠ tid core slot → t.thread u = s.thread u)) ∧
  (∀ (s : State) (a : BitVec 5),
     (s.th.mode ≠ .m → TakesS s → Traps (.inject a) s 2 s.iw false ∧ Traps (.report a) s 2 s.iw false) ∧
     (s.th.mode = .m → FullAll s [a] → (s.th.rg a).toNat % 8 = 0 →
       ((s.die s.curDie).injArm = false → Leaves (.inject a) s s.th) ∧
       (∀ off fl s', (s.die s.curDie).injArm = true → (s.die s.curDie).injKind ≠ 0 → s.th.sb = [] → s.ecc = [] →
         addrForm s s.curCore s.curSlot (s.th.rg a).toNat = .own off fl →
         checkAccess s s.curCore s.curSlot .m s.curCtx .write (s.th.rg a).toNat = .ok (.own off) →
         lineBusy s s.curDie s.curCtx (localAddr s.curCore off) = false → takePre s s.cur (.own off) = .taken s' → s'.ecc = [] →
         s'.cur = s.cur → s'.curCtx = s.curCtx → (s'.die s.curDie) = s.die s.curDie → s'.th = s.th → s'.npc = s.npc →
         ∃ t, exec (.inject a) s = .next t ∧ t.th.pc = s.npc ∧ (t.die s.curDie).injArm = false ∧
           t.ecc = [{ die := s.curDie, ctx := s.curCtx, loc := localAddr s.curCore off / 8 * 8, unc := decide ((s.die s.curDie).injKind = 2) }])) ∧
     (s.th.mode = .m → FullAll s [a] → Drained s → Undisturbed s →
       let ea := (s.th.rg a).toNat
       let rq := s.readWord ea
       let ctx := wfld rq 0 16
       ea % 2048 = 0 → reportArea s s.curDie ea = true → checkAccess s s.curCore s.curSlot .m s.curCtx .read ea = .ok (.die ea) → wfld rq 18 46 = 0 → (s.ctx ctx).live = true → s.curDie < numDies →
       ∃ t, exec (.report a) s = .next t ∧ t.th.pc = s.npc ∧
         let head := reportHead s s.curDie ctx (wfld rq 16 2) (Table.get CounterSet.zero (s.ctx ctx).sets (wfld rq 16 2))
         t.readN ea head.length = head ∧ t.readN (ea + head.length) 32 = sha256 head ∧
         ∀ x, x < ea ∨ ea + 2048 ≤ x → t.read x = s.read x))

/-! ## The shutter and what withholds a release (spec/11_supersteps.md) -/

/-- SHUTTER_DECISION and QUIESCENCE_SWEEP (R272-R277, R281-R283, R294).  Outside the root a module passes its abort votes on.
At the root a pending vote makes the decision an abort: the cause is recorded, the streak grows but for pre-emption alone, and
the votes go.  Otherwise, once every participant has arrived, it is a commit: the result word is the reduction of the votes and
the streak is 0.  A sweep that finds every cluster empty and sums equal counts one more agreement, and any other sweep none.  What a sweep adds up is the model's reading (log entry 46). -/
def Obligations.DecisionsTaken : Prop :=
  ∀ (s : State) (ctx : Nat) (j : Job), s.job ctx = some j →
    (j.open_ = false → exec (.shutterDecision ctx) s = .next s ∧ exec (.quiescenceSweep ctx) s = .next s) ∧
    (j.open_ = true → isRoot s j = false → j.abortMask ≠ 0 → ∃ t, exec (.shutterDecision ctx) s = .next t ∧
      t.job ctx = some { j with abortMask := 0 } ∧ t.linkOut = (s.send (j.root s) (.vote ctx j.abortMask)).linkOut ∧
      t.threads = s.threads ∧ t.mem = s.mem) ∧
    (j.open_ = true → isRoot s j = true → j.abortMask ≠ 0 → ∃ t, exec (.shutterDecision ctx) s = .next t ∧
      ∀ j', t.job ctx = some j' → j'.aborted = true ∧ (s.ecc = [] → j'.abortMask = 0) ∧ j'.votes = [] ∧ (t.ctx ctx).lastCause = j.abortMask ∧
        j'.streak = if j.abortMask = 0x40 then j.streak else min 3 (j.streak + 1)) ∧
    (j.open_ = true → isRoot s j = true → j.abortMask = 0 → mayCommit s ctx j = false →
      ∃ t, exec (.shutterDecision ctx) s = .next t ∧ t.threads = s.threads ∧ t.mem = s.mem ∧ ∃ h, t.job ctx = some { j with haltReq := h }) ∧
    (j.open_ = true → isRoot s j = true → j.abortMask = 0 → mayCommit s ctx j = true → granulesReached s ctx = [] →
      ∃ t, exec (.shutterDecision ctx) s = .next t ∧ ∀ j', t.job ctx = some j' →
        (t.ctx ctx).ssres = resultWord j.votes j.quiet ∧ j'.result = resultWord j.votes j.quiet ∧ j'.aborted = false ∧
        j'.streak = 0 ∧ j'.votes = []) ∧
    (j.open_ = true → ∃ t, exec (.quiescenceSweep ctx) s = .next t ∧ t.threads = s.threads ∧ t.mem = s.mem ∧
      t.job ctx = some { j with sweepSent := j.sent + j.received, sweeps := (
        if localReady s ctx j = true ∧ sweepHolds s ctx j = true then
          (if 0 < j.sweeps ∧ j.sweepSent = j.sent + j.received then min 3 (j.sweeps + 1) else 1)
        else 0) })

/-- The shutter's control of a launch and the debugger's (R284, R299-R301, spec/20_accounting.md R469, R470): a vote sets cause
bit 7 and an expired MAXSS bit 6; PRE, HALT and RUN mark the launch on its root; KILL of an escalated launch ends it and RETRY
clears the streak and goes on; a stop without an image ends the launch, a harvest launch apart, whose banks may have to be waited for; a step is taken only between a halt and its run, and lets
the selected thread alone go on; a thread of another module is stepped there.  What a step reports and when it is taken is the model's reading (log entries 35, 58). -/
def Obligations.ShutterControls : Prop :=
  ∀ (s : State) (ctx : Nat) (j : Job), s.job ctx = some j →
    (∀ die, die < numDies → ∃ t, exec (.ssctlVote die ctx) s = .next t ∧ t = { s with ctxs := t.ctxs } ∧
      t.job ctx = some { j with abortMask := j.abortMask ||| 128 }) ∧
    (let m := wfld (j.record.getD 12 0) 0 32
     let ends : Prop := isRoot s j = true ∧ j.pend = true ∧ m ≠ 0 ∧ j.phase = .running ∧ m * 1000 < s.time - j.relTime
     (ends → ∃ t, exec (.maxssExpiry ctx) s = .next t ∧ t.job ctx = some { j with abortMask := j.abortMask ||| 64 }) ∧
     (¬ ends → exec (.maxssExpiry ctx) s = .next s)) ∧
    (isRoot s j = true →
      (∃ t, exec (.ssctlPre ctx) s = .next t ∧ t.threads = s.threads ∧ t.job ctx = some { j with pend := true, phase := (
        if j.phase = .escalated ∨ (j.phase = .halted ∧ j.stepped = false) then .stopping else j.phase) }) ∧
      (∃ t, exec (.dbgctlHalt ctx) s = .next t ∧ t.threads = s.threads ∧ t.job ctx = some { j with haltReq := true }) ∧
      (j.phase = .halted → ∃ t, exec (.dbgctlRun ctx) s = .next t ∧ t.job ctx = some { j with phase := .decided } ∧
        (t.ctx ctx).dbgHlt = false ∧ (t.ctx ctx).dbgStep = none) ∧
      (isHarvest s ctx = false → ∃ t, exec (.ssctlKill ctx) s = .next t ∧ t.job ctx = if j.phase = .escalated then none else some j) ∧
      (j.phase = .escalated → ∃ t j', exec (.ssctlRetry ctx) s = .next t ∧ t.job ctx = some j' ∧ j'.streak = 0 ∧ j'.phase ≠ .escalated) ∧
      (j.phase = .stopping → j.closing = none → nextLeft s ctx = false → allComplete s j = true → recImage j.record = 0 →
        isHarvest s ctx = false → ∃ t, exec (.preemptionStop ctx) s = .next t ∧ t.job ctx = none)) ∧
    (j.phase ≠ .halted → exec (.dbgctlStep ctx) s = .next s) ∧
    (j.phase = .halted → (s.ctx ctx).dbgStep = none →
      (selected s ctx = none → selectedModule s ctx j = none →
        ∃ t, exec (.dbgctlStep ctx) s = .next t ∧ t = { s with ctxs := t.ctxs } ∧ (t.ctx ctx).dbgSt = 0) ∧
      (∀ m, selected s ctx = none → selectedModule s ctx j = some m → ∃ t, exec (.dbgctlStep ctx) s = .next t ∧ (t.ctx ctx).dbgSt = 0 ∧
        t.linkOut = (s.send m (.debugStep ctx (s.ctx ctx).dbgsel s.modnum)).linkOut ∧ t.threads = s.threads ∧ t.mem = s.mem) ∧
      (∀ x, selected s ctx = some x → j.stepped = true → (s.thread x).began = true → (s.thread x).st = .halted →
        ∃ t, exec (.dbgctlStep ctx) s = .next t ∧ (t.ctx ctx).dbgStep = some x ∧ (t.thread x).st = .ready ∧
          (t.thread x).pc = (s.thread x).pc ∧ ∀ u, u ≠ x → t.thread u = s.thread u))

/-! ## Securing and lost modules (spec/19_survival.md) -/

/-- SECURE_SEALED, MODULE_FAILED, SPARE_FILL and the writes of SVCTL (R452-R460).  With its image and seal written at the buddy a
module's side toggles, and its last secured number is the launch's; an image too large fails.  A write of now outside the root goes
to the root; a new buddy is asked for its feed, the old one in force until it answers.  A module heard of in the last 50 µs, 165,000
cycles, has not failed; a failed one adds abort bit 3 to the launches that use it.  Once a spare is named a fill of the last fully
secured number goes to the spare, to every survivor and to the buddy that holds the image here; without a valid image the launch ends.
The layout of the image is the model's choice (log entry 34); that silence counts from the last authentic flit of a module, and what
the messages of a fill carry, are its readings (log entry 57). -/
def Obligations.SecuresAndFailures : Prop :=
  ∀ (s : State) (ctx : Nat),
    let v := (s.ctx ctx).sv
    ((∀ j, s.job ctx = some j → isRoot s j = true) → ∃ t, exec (.svctlNow ctx) s = .next t ∧ t = { s with ctxs := t.ctxs } ∧
      t.ctx ctx = { s.ctx ctx with sv := { v with now := true } }) ∧
    (∀ j, s.job ctx = some j → isRoot s j = false → exec (.svctlNow ctx) s = .next (s.send (j.root s) (.secureNow ctx))) ∧
    (∀ w, s.job ctx = none → ∃ t, exec (.svctlBw ctx w) s = .next t ∧ t = { s with ctxs := t.ctxs } ∧
      t.ctx ctx = { s.ctx ctx with sv := { v with asked := wfld w 0 12, nb := wfld w 0 12 } }) ∧
    (∀ m, (m = s.modnum ∨ m ∈ s.failedModules ∨ s.cy < Table.get 0 s.heard m + 165000) → exec (.moduleFailed m) s = .next s) ∧
    (∀ j, s.job ctx = some j →
      let region (sw : Word) : Nat × Nat := (wfld sw 0 20, wfld sw 20 12)
      (∀ w, secureEn j = true → ∃ t, exec (.svctlBw ctx w) s = .next t ∧
        (t.ctx ctx).sv = { v with asked := wfld w 0 12, nb := wfld w 0 12, bfeed := 0, bst := 4 } ∧
        t.linkOut = (s.send (wfld w 0 12) (.feedRequest ctx s.modnum (region (secureWord j)).1 (region (secureWord j)).2)).linkOut) ∧
      (j.phase = .securing → j.seals = [] → isRoot s j = true → j.living s = [s.modnum] →
        let cost := min ((s.time - v.began) / 1000) (2 ^ 28 - 1)
        (secureEn j = false → ∃ t, exec (.secureSealed ctx) s = .next t ∧ (t.ctx ctx).sv = { v with busy := false, c := cost } ∧
          t.linkOut = s.linkOut) ∧
        (secureEn j = true → v.bst = 1 ∨ v.bst = 3 →
          let fs := secureImage s ctx j (v.gen + 1) (decide (v.bst = 3))
          let put (u : State) (i : Nat) : State := u.send v.buddy (.frameWrite (sideFrame (sideFirst j (1 - v.side)) i) (fs.getD i []))
          (fs.length ≤ 16 * (wfld (secureWord j) 20 12 * 256) → ∃ t, exec (.secureSealed ctx) s = .next t ∧
            (t.ctx ctx).sv = { v with busy := false, c := cost, gen := v.gen + 1, side := 1 - v.side, ssno := j.ssno,
                                      valid := v.valid || decide (v.bst = 1), home := v.buddy } ∧
            t.linkOut = (put ((List.range (fs.length - 1)).foldl (fun u i => put u (i + 1)) s) 0).linkOut) ∧
          (16 * (wfld (secureWord j) 20 12 * 256) < fs.length → ∃ t, exec (.secureSealed ctx) s = .next t ∧
            (t.ctx ctx).sv = { v with busy := false, err := true }))) ∧
      (∀ m, m ≠ s.modnum → m ∉ s.failedModules → Table.get 0 s.heard m + 165000 ≤ s.cy → m ∈ j.modules → secureEn j = false →
        v.recv = false → j.spare = none → j.open_ = true → s.ctxs = [(ctx, s.ctx ctx)] →
        ∃ t, exec (.moduleFailed m) s = .next t ∧ t.failedModules = s.failedModules ++ [m] ∧
          t.job ctx = some { j with abortMask := j.abortMask ||| 8, still := [], toldStill := none } ∧ t.threads = s.threads ∧ t.mem = s.mem) ∧
      (∀ f w, j.phase = .filling → isRoot s j = true → v.filling = false → lostModule s ctx j = some (f, w) →
        v.spare ≠ 0xFFF → v.spare ∉ j.living s → v.spare ∉ s.failedModules →
        (v.valid = false → v.usecorr = false → isHarvest s ctx = false → ∃ t, exec (.spareFill ctx) s = .next t ∧ t.job ctx = none) ∧
        (v.valid = true ∨ v.usecorr = true → v.home ∉ s.failedModules → v.home < 4096 → ∃ t, exec (.spareFill ctx) s = .next t ∧
          (t.ctx ctx).sv = { v with recv := true, filling := true, inbox := [], fillNo := some v.ssno } ∧
          t.job ctx = some { j with spare := some v.spare, phase := .filling } ∧
          let c := s.ctx ctx
          let u := s.send v.spare (.spareFill ctx v.ssno f (j.record.set 11 w) (j.living s) c.secWords c.jobid v.live v.c v.m v.fails)
          t.linkOut = ((tellModules u j (.fill ctx v.spare v.ssno)).send v.home
            (.fillRequest ctx s.modnum (region (secureWord j)).1 (region (secureWord j)).2 v.ssno)).linkOut)))

/-! ## Time, wipes and the lives of contexts and dies -/

/-- RELEASE (R278): once every module has carried out the decision, the root's release opens the next superstep, and every slot
of the launch with a valid continuation record becomes Ready at the record's PC.  That a thread replayed begins from its record is the model's reading (log entry 45).

TIME_CARRY and HANG (spec/20_accounting.md R465, spec/18_traps.md R450): the time of the lowest-numbered module leaves TIME in
place and sets how far it is behind or ahead; a launch stuck for 10,000 cycles posts one HANG event on its event die, once between
two releases.  What the count of a stuck launch takes in is the model's reading (log entry 48). -/
def Obligations.ReleasesAndTime : Prop :=
  (∀ (s : State) (ctx : Nat) (j : Job), s.job ctx = some j →
     ((j.phase ≠ .decided ∨ isRoot s j = false ∨ allComplete s j = false) → exec (.release ctx) s = .next s) ∧
     (j.phase = .decided → isRoot s j = true → allComplete s j = true → j.member = none → s.ecc = [] → (∀ d, (s.dctx d ctx).trEn = 0) →
       ∃ t, exec (.release ctx) s = .next t ∧
         t.job ctx = some { j with phase := .running, relTime := s.time, relCy := s.cy, hangPosted := false, stuckCy := 0, stepped := false,
                                   modules := if j.spare.isSome then j.living s else j.modules, spare := none } ∧
         ∀ core slot, (core, slot) ∈ jobSlots s ctx → (s.thread (tid core slot)).began = false → recordValid s core slot = true →
           (t.thread (tid core slot)).st = .ready ∧ (t.thread (tid core slot)).ctx = ctx ∧
           (t.thread (tid core slot)).pc = word (wfld (s.readWord (recordLoc s core slot)) 0 48))) ∧
  (∀ s : State,
     (∀ x : Word, ∃ t, exec (.timeCarry x) s = .next t ∧
       t = { s with timeBehind := x.toNat - s.time, timeAhead := s.time - x.toNat }) ∧
     (∀ ctx j, s.job ctx = some j →
       let posts : Prop := j.hangPosted = false ∧ 10000 ≤ j.stuckCy ∧ stuck s ctx j = true
       (¬ posts → exec (.hang ctx) s = .next s) ∧
       (posts → ∃ t, exec (.hang ctx) s = .next t ∧ t.job ctx = some { j with hangPosted := true } ∧
         (t.die (eventDie s ctx)).events = (s.die (eventDie s ctx)).events ++ [{ ctx := ctx, ssno := j.ssno, code := 13 }] ∧
         (t.die (eventDie s ctx)).devt = (s.die (eventDie s ctx)).devt ||| 8 ∧ t.threads = s.threads ∧ t.mem = s.mem)))

/-- Wipes, retirement and resets (spec/10_pages.md R242, spec/08_die_memory.md R208, spec/17_launch.md R418, R426,
spec/01_wafer.md R25, spec/21_host.md R474, R477).  A local-store wipe and a frame wipe leave zeros there and no other byte
changed, the chain of a wiped paged frame apart; a reclaimed context keeps nothing on the die; a new context is live with its
owner; an ended one is as after reset.  A retirement leaves a running superstep its sequencer die.  What a module reset spares (28), what firmware allots to a new context (12), the waits of a wipe (26), what follows a retirement (27) and the generations after a reset (3) are the model's choices, by log entry. -/
def Obligations.WipesAndResets : Prop :=
  ∀ s : State,
    (∀ g, g < numGcores → (s.core g).wipe = true → bankSeated s g = false → (∀ d, (s.die d).ended = []) →
      ∃ t, exec (.localStoreWipe g) s = .next t ∧ (t.core g).wipe = false ∧ (t.core g).pool = [] ∧
        ∀ a, t.read a = if localAddr g 0 ≤ a ∧ a < localAddr g localBytes then 0 else s.read a) ∧
    (∀ k f, k < 16 → f ≤ 732164 → (s.readWord (invAt k f)).getLsbD 59 = true →
      let i := anchorIndex (frameCtx s k f) (frameVpn s k f)
      ∃ t, exec (.frameWipe (k * 2 ^ 20 + f)) s = .next t ∧ frameKind t k f = 0 ∧ (t.readWord (invAt k f)).getLsbD 59 = false ∧
        (∀ a, (a < k * 2 ^ 36 + 732165 * 65536 ∨ k * 2 ^ 36 + 732421 * 65536 ≤ a) ∨
            (frameKind s k f ≠ 1 ∧ (a < invAt k f ∨ invAt k f + 8 ≤ a)) →
          t.read a = if k * 2 ^ 36 + f * 65536 ≤ a ∧ a < k * 2 ^ 36 + (f + 1) * 65536 then 0 else s.read a) ∧
        (frameKind s k f = 1 → anchorHead s k i = some f →
          anchorHead t k i = if frameNext s k f = chainEnd then none else some (frameNext s k f))) ∧
    (∀ die ctx, die < numDies → ctx < numContexts → (s.ctx ctx).live = true → die ∉ jobDies s ctx →
      let x := s.dctx die ctx
      1 ≤ x.dmBase → x.dmBase + x.dmSize ≤ 8192 →
      ∃ t, exec (.dieMemoryReclaim die ctx) s = .next t ∧ (t.dctx die ctx).dmSize = 0 ∧ (t.dctx die ctx).dmBase = 0 ∧
        (∀ l ∈ t.lines, ¬ (l.die = die ∧ l.ctx = ctx)) ∧
        ∀ a, dieAddr die (x.dmBase * 16384) ≤ a → a < dieAddr die ((x.dmBase + x.dmSize) * 16384) → t.read a = 0) ∧
    (∀ die tenant fn id, die < numDies → (s.die die).healthy = true → id = freeId s (s.ctxs.length + 1) 1 → id < numContexts →
      ∃ t, exec (.contextCreation die tenant fn) s = .next t ∧ (t.ctx id).live = true ∧ (t.ctx id).tenant = tenant ∧
        (t.ctx id).fn = fn ∧ (t.ctx id).bound = some fn ∧ ∀ x, x ≠ id → t.ctx x = s.ctx x) ∧
    (∀ ctx, (s.ctx ctx).live = true → s.job ctx = none → (∀ d, (s.die d).ended = []) →
      ∃ t, exec (.contextEnd ctx) s = .next t ∧ t.ctx ctx = Ctx.reset) ∧
    (∀ die, die < numDies → (s.die die).healthy = true → ∃ t, exec (.dieRetirement die) s = .next t ∧ t = { s with dies := t.dies } ∧
      (∀ d, (t.die d).healthy = (decide (d ≠ die) && (s.die d).healthy)) ∧
      ∀ ctx j, s.job ctx = some j → jobSequencer t ctx = j.seqDie) ∧
    (∀ die, (s.die die).healthy = false → ∃ t, exec (.dieHealthyAgain die) s = .next t ∧
      ∀ d, (t.die d).healthy = (decide (d = die) || (s.die d).healthy)) ∧
    (∀ die, die < numDies → (∀ e ∈ s.ctxs, e.2.bound ≠ some die ∧ e.2.amp.queue = []) → (∀ d, (s.die d).ended = []) →
      ∃ t, exec (.functionLevelReset die) s = .next t ∧
      t.die die = { (s.die die).afterReset with capLast := (t.die die).capLast, dispatch := (t.die die).dispatch } ∧
      (s.modnum < 4096 → capGeneration t die = (capGeneration s die + 2 - capGeneration s die % 2) % 2 ^ 32) ∧
      (∀ o ∈ t.engine, o ∈ s.engine.map (fun x => { x with preds := o.preds }) ∧ ¬ (o.core < numCores ∧ dieOf o.core = die)) ∧
      ∀ d, d ≠ die → t.die d = { s.die d with dispatch := (t.die d).dispatch }) ∧
    (∃ t, exec .moduleReset s = .next t ∧ t.threads = State.reset.threads ∧ t.cores = State.reset.cores ∧ t.lines = [] ∧
      t.ctxs = State.reset.ctxs ∧ t.life = s.life ∧ t.modnum = s.modnum ∧ t.ports = s.ports ∧
      t.wipeNs = 14500000 ∧ (∀ a, a < dieWindow → t.read a = resetByte a) ∧
      ∀ d, d < numDies → (s.die d).healthy = true → s.modnum < 4096 →
        capGeneration t d = (capGeneration s d + 2 - capGeneration s d % 2) % 2 ^ 32)

/-! ## Host, links and keys (spec/21_host.md) -/

/-- Host requests (R472, R473, spec/09_ordering.md R219): a served read answers with committed bytes and one that is not
with none; a served write to memory of a running launch's context waits for its commit, and one beyond it does nothing
(log entry 38).  Each register of the management function takes its
write, and a write that it drops is counted and does nothing else.  Table 21.1: each life-cycle request acts only in its states.  That a report request stands until REPORT is the model's choice (log entry 11). -/
def Obligations.HostRequestsServed : Prop :=
  ∀ s : State,
    let dropped : State := { s with mgerr := bump32 s.mgerr }
    (∃ t, exec .mgerrClear s = .next t ∧ t = { s with mgerr := 0 }) ∧
    (∀ fn ctx va n, fn < numDies →
      (∀ s' bs, served s fn = true → preRange (numGcores + fn) 0 ctx (partsOf va.toNat n) s [] = .got s' bs →
        exec (.hostRead fn ctx va n) s = .next { s' with hostReply := bs.getD [] }) ∧
      (served s fn = true → 0 < n → va.toNat % 64 + n ≤ 64 → s.ecc = [] → lineBusyNext s ctx va.toNat = false →
        checkAccess s (numGcores + fn) 0 .m ctx .read va.toNat = .ok (.die va.toNat) →
        exec (.hostRead fn ctx va n) s = .next { s with hostReply := (List.range n).map (fun i => committedDie s fn (va.toNat + i)) }) ∧
      (served s fn = false → ∃ t, exec (.hostRead fn ctx va n) s = .next t ∧ t = { s with hostReply := [] }) ∧
      ∀ bs, (served s fn = false → exec (.hostWrite fn ctx va bs) s = .next s) ∧
        ((partsOf va.toNat bs.length).all (fun p => contextMemory s ctx p.1) = false → exec (.hostWrite fn ctx va bs) s = .next s) ∧
        ∀ j, served s fn = true → (partsOf va.toNat bs.length).all (fun p => contextMemory s ctx p.1) = true → s.job ctx = some j →
          ∃ t, exec (.hostWrite fn ctx va bs) s = .next t ∧
            t = { s with ctxs := t.ctxs } ∧ t.job ctx = some { j with hostWrites := j.hostWrites ++ [{ va := va, data := bs }] }) ∧
    (∀ ctx, (∃ t, exec (.hostRead numDies ctx 0xC008 8) s = .next t ∧ t.hostReply = bytesOf 8 s.modnum) ∧
      ∃ t, exec (.hostRead numDies ctx 0xC000 8) s = .next t ∧ t.hostReply = bytesOf 8 (bit (decide (s.wipeNs ≠ 0)) * 256 + s.life.code * 16)) ∧
    (∀ die q w, (∀ x, lqueue s die q = some x → x.enabled = false ∨ wfld w 32 32 ≠ 0 ∨ (s.die die).healthy = false) →
      exec (.lqtail die q w) s = .next dropped) ∧
    (∀ die q w x, lqueue s die q = some x → x.enabled = true → wfld w 32 32 = 0 → (s.die die).healthy = true →
      ∃ t, exec (.lqtail die q w) s = .next t ∧ Table.get (0 : Word) (t.die die).lqtail q = w ∧ t.mgerr = s.mgerr) ∧
    (∀ die (w : Word), (s.die die).healthy = true →
      let fits : Prop := w.toNat % 2048 = 0 ∧ dieAddr die 0 ≤ w.toNat ∧ w.toNat + 2048 ≤ dieAddr die dieBytes
      (fits → ∃ t, exec (.repreq die w) s = .next t ∧ t = { s with dies := t.dies } ∧ t.die die = { s.die die with repreq := w }) ∧
      (¬ fits → exec (.repreq die w) s = .next dropped)) ∧
    (∀ ctx (w : Word), ctx < numContexts → (s.ctx ctx).live = true →
      (wfld w 32 16 = 0 → ∃ t, exec (.dbgselw ctx w) s = .next t ∧ t = { s with ctxs := t.ctxs } ∧
        t.ctx ctx = { s.ctx ctx with dbgsel := w.setWidth 32 }) ∧
      (wfld w 48 16 = 0 → wfld w 12 20 = 0 → ∃ t, exec (.sparereq ctx w) s = .next t ∧ t = { s with ctxs := t.ctxs } ∧
        t.ctx ctx = { s.ctx ctx with sv := { (s.ctx ctx).sv with spare := wfld w 0 12 } })) ∧
    (∀ m : BitVec 12,
      let p : Prop := s.life = .manufacture ∨ s.life = .deployed
      let q : Prop := s.life = .provisioned ∧ m ≠ 0xFFF
      let r : Prop := s.life = .provisioned ∨ s.life = .deployed
      (p → ∃ t, exec .lcreqProvisioned s = .next t ∧ t.life = .provisioned ∧ t.modnum = 0xFFF ∧ ∀ d < numDies, (t.die d).identity ≠ none) ∧
      (¬ p → exec .lcreqProvisioned s = .next dropped) ∧
      (q → ∃ t, exec (.lcreqDeployed m) s = .next t ∧ t.life = .deployed ∧ t.modnum = m.toNat) ∧
      (¬ q → exec (.lcreqDeployed m) s = .next dropped) ∧
      (r → ∃ t, exec .lcreqDecommissioned s = .next t ∧ t.life = .decommissioned ∧ ∀ d < numDies, (t.die d).identity = none) ∧
      (¬ r → exec .lcreqDecommissioned s = .next dropped))

/-- A port group as the state holds it. -/
def portOf (s : State) (i : Nat) : PortGroup := Table.get PortGroup.reset s.ports i

/-- Port groups, keys, functions and slices (R471, R482, spec/10_pages.md R263, spec/14_timetables.md R359): a flit whose tag
fails is only counted and sets its group to retrain; one received while the group retrains, has no port or has sent all that one key
allows does nothing, and the last two send nothing; a message to a module that has not failed leaves on its group and is counted; a vote or a
staged write that is authentic is taken, its module heard of, but from a failed module (spec/19_survival.md R458) discarded; losses, retrains, keys, lock moves and gated slices change their own fields alone.  The TDISP moves are presumed from PCIe (log entry 38); that a flit carries its module is the model's (70). -/
def Obligations.LinksAndKeys : Prop :=
  ∀ s : State,
    (∀ i, (∃ t, exec (.portLoss i) s = .next t ∧ t = { s with ports := t.ports } ∧
        portOf t i = { portOf s i with ports := (portOf s i).ports - 1 } ∧ ∀ k, k ≠ i → portOf t k = portOf s k) ∧
      (∃ t, exec (.portRetrain i) s = .next t ∧ t = { s with ports := t.ports } ∧
        portOf t i = { portOf s i with retraining := false } ∧ ∀ k, k ≠ i → portOf t k = portOf s k)) ∧
    (∀ i msg, (portOf s i).down = true ∨ (portOf s i).retraining = true → ∀ b m, exec (.linkFlitReceive i b ⟨m, msg⟩) s = .next s) ∧
    (∀ i m msg, (portOf s i).down = false → (portOf s i).retraining = false → msgWaits s msg = false →
      let p : PortGroup := { portOf s i with received := (portOf s i).received + 1 }
      (∃ t, exec (.linkFlitReceive i false ⟨m, msg⟩) s = .next t ∧ t = { s with ports := t.ports } ∧ portOf t i = { p with retraining := true }) ∧
      (m.toNat ∈ s.failedModules → ∃ t, exec (.linkFlitReceive i true ⟨m, msg⟩) s = .next t ∧ t = { s with ports := t.ports } ∧ portOf t i = p) ∧
      (m.toNat ∉ s.failedModules →
        (∀ ctx mask j, msg = .vote ctx mask → s.job ctx = some j → ∃ t, exec (.linkFlitReceive i true ⟨m, msg⟩) s = .next t ∧
          t = { s with ports := t.ports, ctxs := t.ctxs, heard := s.heard.set m.toNat s.cy } ∧ portOf t i = p ∧
          t.job ctx = some { j with abortMask := j.abortMask ||| mask }) ∧
        (∀ ctx addr smod g n bs, msg = .write ctx addr smod g n bs → ∃ t, exec (.linkFlitReceive i true ⟨m, msg⟩) s = .next t ∧ portOf t i = p ∧
          t = { s with ports := t.ports, heard := s.heard.set m.toNat s.cy, staged := s.staged ++
            [{ ctx := ctx, tmod := s.modnum, addr := addr, smod := smod, gcore := g, seqno := n, loc := addr, act := .write bs }] }))) ∧
    (∀ m msg, let i := torusGroup s.modnum m % 6
      (m ∈ s.failedModules ∨ (portOf s i).down = true → s.send m msg = s) ∧
      (m ∉ s.failedModules → (portOf s i).down = false → (s.send m msg).linkOut = s.linkOut ++ [(m, msg)] ∧
        portOf (s.send m msg) i = { portOf s i with sent := (portOf s i).sent + 1 } ∧ ∀ k, k ≠ i → portOf (s.send m msg) k = portOf s k)) ∧
    (∀ die r b, (r, (s.die die).tdisp, b) ∈ [(TdispRequest.lock, Tdisp.unlocked, Tdisp.locked), (.start, .locked, .run),
        (.stop, (s.die die).tdisp, .unlocked)] → ∃ t, exec (.tdispRequest die r) s = .next t ∧ t = { s with dies := t.dies } ∧
      t.die die = { s.die die with tdisp := b }) ∧
    (∀ die key, ∃ t, exec (.ideKeyManagement die key) s = .next t ∧ t = { s with dies := t.dies } ∧
      t.die die = { s.die die with ideKey := some key }) ∧
    (∀ g id key load, let rest := (s.core g).keys.filter (fun k => k.1 ≠ id.toNat)
      ∃ t, exec (.routerKeyStoreLoad g id key load) s = .next t ∧ t = { s with cores := t.cores } ∧
        (load = false → t.core g = { s.core g with keys := rest }) ∧
        (load = true → t.core g = if rest.length < 4 then { s.core g with keys := rest ++ [(id.toNat, key)] } else s.core g)) ∧
    (∀ die k, (∃ t, exec (.slicePowerGating die k true) s = .next t ∧ t = { s with dies := t.dies } ∧ k ∈ (t.die die).gated ∧
        ∀ e ∈ (t.die die).tlb, e.slice ≠ k) ∧
      (∃ t, exec (.slicePowerGating die k false) s = .next t ∧ t = { s with dies := t.dies } ∧ k ∉ (t.die die).gated ∧
        (t.die die).tlb = (s.die die).tlb))

/-! ## Upcall returns, amplitude states and dispatch -/

/-- UPST_RET and QCFG_WRITE (spec/10_pages.md R254, spec/15_amplitudes.md R381-R383): a write of UPST without ret does nothing
here; with ret, where the slot's frame is readable, the thread takes its four registers and its PC from it and is busy no more.  A
write of QCFG is refused while passes are queued or have run; with valid 0 it keeps the front leaf; an accepted one with init
leaves leaf A as basis state 0 and the map as the identity.  What QCFG with valid 0 keeps is the model's reading (log entry 51). -/
def Obligations.UpcallsAndStates : Prop :=
  (∀ (s : State) (core slot : Nat) (w : Word), w.getLsbD 2 = false → exec (.upstRet core slot w) s = .next s) ∧
  (∀ (s s' : State) (core slot : Nat) (w : Word) (p : Place) (bs : List Byte), w.getLsbD 2 = true → isControl core = false →
    slot < slotsPerCore →
    let x := tid core slot
    let th := s.thread x
    let cfg := (s.ctx th.ctx).upcfg
    let ea := 2 ^ 64 - 65536 + wfld cfg 6 10 * 64 + 64 * slot
    let us := [wfld cfg 40 5, wfld cfg 45 5, wfld cfg 50 5, wfld cfg 55 5]
    let dw (i : Nat) : Word := wordOfBytes ((bs.drop (8 * i)).take 8)
    th.st = .ready → seqDone th = true → upcfgOk cfg = true → checkAccess s core slot th.mode th.ctx .read ea = .ok p →
    loadPlace s x p 64 = .bytes s' bs → s'.thread x = th →
    ∃ t, exec (.upstRet core slot w) s = .next t ∧ (t.thread x).pc = dw 7 &&& ~~~1#64 ∧ (t.thread x).upBusy = false ∧
      (t.thread x).image = none ∧ (∀ i < 4, (t.thread x).rg (BitVec.ofNat 5 (us.getD i 0)) = dw (3 + i)) ∧
      ∀ r : BitVec 5, r.toNat ∉ us → (t.thread x).rg r = th.rg r) ∧
  (∀ (s : State) (die ctx : Nat) (w : Word), die < numDies → ctx < numContexts →
    let a := (s.ctx ctx).amp
    (a.queue ≠ [] ∨ a.ran = true → exec (.qcfgWrite die ctx w) s = .next s) ∧
    (a.queue = [] → a.ran = false →
      (w.getLsbD 63 = false → ∃ t, exec (.qcfgWrite die ctx w) s = .next t ∧ t = { s with ctxs := t.ctxs } ∧ (t.ctx ctx).amp.valid = false ∧
        (t.ctx ctx).amp.frontB = a.frontB ∧ (t.ctx ctx).amp.work = a.work) ∧
      (let b : Amp := { a with qcfg := qcfgStored w }
       w.getLsbD 63 = true → w.getLsbD 60 = true → qcfgOk s ctx b = true →
       ∃ t, exec (.qcfgWrite die ctx w) s = .next t ∧ (t.ctx ctx).amp.qcfg = qcfgStored w ∧ (∀ q < 64, (t.ctx ctx).amp.bitOf q = q) ∧
         ∀ x < 2 ^ b.inner, readAmp t b false x =
           (if x = 0 ∧ b.mi = 0 then (if b.dbl then 0x3FF0000000000000 else 0x3F800000) else 0, 0))))

/-- DISPATCH_STEP and WICKET_ADMISSION (spec/17_launch.md R417-R426, spec/16_harvest.md R404): on a die that is not healthy, or in
a life-cycle state without launches, nothing is placed, and without an event the dispatcher does nothing.  With no partial launch the first visible head of the lowest class is
chosen: one that fails a check is refused and takes no core; a coresident one that does not fit now waits; one that fits, on its
first placement, becomes the launch of its context.  The wicket seats a harvest launch that is first in the same way.  The gates that hold a queue's head and partial placement are read as log entry 54 says. -/
def Obligations.DispatchersAct : Prop :=
  ∀ (s : State) (die : Nat),
    ((s.die die).healthy = false ∨ numDies ≤ die ∨ mayLaunch s = false →
      exec (.dispatchStep die) s = .next s ∧ exec (.wicketAdmission die) s = .next s) ∧
    ((s.die die).dispatch = false → exec (.dispatchStep die) s = .next s) ∧
    (∀ s1 held x w, (s.die die).healthy = true → die < numDies → mayLaunch s = true → (s.die die).dispatch = true →
      allGates (noteTails s die) die = (s1, held) → partialLaunch s1 die = none → firstHead (launchHeads s1 die held) = some (x, w) →
      let refused := refusal s1 (x.record x.head) w
      (∀ code, refused = some code → ∃ t, exec (.dispatchStep die) s = .next t ∧ t.threads = s1.threads ∧
        (∀ c, (t.core c).hold = (s1.core c).hold) ∧ ∀ ctx, t.job ctx = s1.job ctx) ∧
      (refused = none → (s1.ctx (recCtx w)).withdrawals = 0 → place s1 w true (fun d => dieWaits s1 (recPrio w) die d) = none →
        recCoresident w = true → ∃ t, exec (.dispatchStep die) s = .next t ∧ t = { s1 with dies := t.dies } ∧
          t.die die = { s1.die die with dispatch := (t.die die).dispatch } ∧ ∀ d, d ≠ die → t.die d = s1.die d) ∧
      (∀ ps, refused = none → (s1.ctx (recCtx w)).withdrawals = 0 → recResume w = false →
        place s1 w true (fun d => dieWaits s1 (recPrio w) die d) = some ps →
        ∃ t j, exec (.dispatchStep die) s = .next t ∧ t.job (recCtx w) = some j ∧ j.record = w ∧ j.placed = ps ∧ j.ssno = 0 ∧ j.left = [])) ∧
    (die < numDies → (s.die die).healthy = true → mayLaunch s = true →
      ((∀ q, headRecord s die q = none) → exec (.wicketAdmission die) s = .next s) ∧
      (∀ x w ps, let heads := launchHeads s die ((List.range 16).filter (fun q => (actGates die q (s.die die).seen.length s).2))
        firstHead heads = some (x, w) → firstHead (heads.filter (fun h => recHarvest h.2.2)) = some (x, w) → partialLaunch s die = none →
        refusal s (x.record x.head) w = none → (s.ctx (recCtx w)).withdrawals = 0 → recResume w = false →
        place s w true (fun d => dieWaits s (recPrio w) die d) = some ps →
        ∃ t j, exec (.wicketAdmission die) s = .next t ∧ t.job (recCtx w) = some j ∧ j.record = w ∧ j.placed = ps ∧ j.ssno = 0))
end

