-- ==== Sys2Proof/Laws/State.lean ====
section
/-! SUPPORT. One lemma per field per update of State and Thread, and what reading one component gives after writing
another. -/

namespace Sys2Proof.Machine

open Sys2Proof

/-! ## State.setThread -/

@[simp] theorem State.setThread_mem (s : State) (t : Nat) (x : Thread) : (s.setThread t x).mem = s.mem := rfl
@[simp] theorem State.setThread_ecc (s : State) (t : Nat) (x : Thread) : (s.setThread t x).ecc = s.ecc := rfl
@[simp] theorem State.setThread_threads (s : State) (t : Nat) (x : Thread) : (s.setThread t x).threads = s.threads.set t x := rfl
@[simp] theorem State.setThread_cores (s : State) (t : Nat) (x : Thread) : (s.setThread t x).cores = s.cores := rfl
@[simp] theorem State.setThread_clusters (s : State) (t : Nat) (x : Thread) : (s.setThread t x).clusters = s.clusters := rfl
@[simp] theorem State.setThread_dies (s : State) (t : Nat) (x : Thread) : (s.setThread t x).dies = s.dies := rfl
@[simp] theorem State.setThread_ctxs (s : State) (t : Nat) (x : Thread) : (s.setThread t x).ctxs = s.ctxs := rfl
@[simp] theorem State.setThread_lines (s : State) (t : Nat) (x : Thread) : (s.setThread t x).lines = s.lines := rfl
@[simp] theorem State.setThread_owned (s : State) (t : Nat) (x : Thread) : (s.setThread t x).owned = s.owned := rfl
@[simp] theorem State.setThread_staged (s : State) (t : Nat) (x : Thread) : (s.setThread t x).staged = s.staged := rfl
@[simp] theorem State.setThread_gets (s : State) (t : Nat) (x : Thread) : (s.setThread t x).gets = s.gets := rfl
@[simp] theorem State.setThread_starts (s : State) (t : Nat) (x : Thread) : (s.setThread t x).starts = s.starts := rfl
@[simp] theorem State.setThread_sends (s : State) (t : Nat) (x : Thread) : (s.setThread t x).sends = s.sends := rfl
@[simp] theorem State.setThread_engine (s : State) (t : Nat) (x : Thread) : (s.setThread t x).engine = s.engine := rfl
@[simp] theorem State.setThread_beats (s : State) (t : Nat) (x : Thread) : (s.setThread t x).beats = s.beats := rfl
@[simp] theorem State.setThread_life (s : State) (t : Nat) (x : Thread) : (s.setThread t x).life = s.life := rfl
@[simp] theorem State.setThread_mgerr (s : State) (t : Nat) (x : Thread) : (s.setThread t x).mgerr = s.mgerr := rfl
@[simp] theorem State.setThread_ports (s : State) (t : Nat) (x : Thread) : (s.setThread t x).ports = s.ports := rfl
@[simp] theorem State.setThread_failedModules (s : State) (t : Nat) (x : Thread) : (s.setThread t x).failedModules = s.failedModules := rfl
@[simp] theorem State.setThread_linkOut (s : State) (t : Nat) (x : Thread) : (s.setThread t x).linkOut = s.linkOut := rfl
@[simp] theorem State.setThread_time (s : State) (t : Nat) (x : Thread) : (s.setThread t x).time = s.time := rfl
@[simp] theorem State.setThread_cy (s : State) (t : Nat) (x : Thread) : (s.setThread t x).cy = s.cy := rfl
@[simp] theorem State.setThread_timeBehind (s : State) (t : Nat) (x : Thread) : (s.setThread t x).timeBehind = s.timeBehind := rfl
@[simp] theorem State.setThread_timeAhead (s : State) (t : Nat) (x : Thread) : (s.setThread t x).timeAhead = s.timeAhead := rfl
@[simp] theorem State.setThread_modnum (s : State) (t : Nat) (x : Thread) : (s.setThread t x).modnum = s.modnum := rfl
@[simp] theorem State.setThread_agenda (s : State) (t : Nat) (x : Thread) : (s.setThread t x).agenda = s.agenda := rfl
@[simp] theorem State.setThread_turns (s : State) (t : Nat) (x : Thread) : (s.setThread t x).turns = s.turns := rfl
@[simp] theorem State.setThread_cur (s : State) (t : Nat) (x : Thread) : (s.setThread t x).cur = s.cur := rfl
@[simp] theorem State.setThread_npc (s : State) (t : Nat) (x : Thread) : (s.setThread t x).npc = s.npc := rfl
@[simp] theorem State.setThread_iw (s : State) (t : Nat) (x : Thread) : (s.setThread t x).iw = s.iw := rfl
@[simp] theorem State.setThread_opCount (s : State) (t : Nat) (x : Thread) : (s.setThread t x).opCount = s.opCount := rfl
@[simp] theorem State.setThread_useCount (s : State) (t : Nat) (x : Thread) : (s.setThread t x).useCount = s.useCount := rfl
@[simp] theorem State.setThread_free (s : State) (t : Nat) (x : Thread) : (s.setThread t x).free = s.free := rfl
@[simp] theorem State.setThread_hostReply (s : State) (t : Nat) (x : Thread) : (s.setThread t x).hostReply = s.hostReply := rfl
@[simp] theorem State.setThread_heard (s : State) (t : Nat) (x : Thread) : (s.setThread t x).heard = s.heard := rfl
@[simp] theorem State.setThread_wipeNs (s : State) (t : Nat) (x : Thread) : (s.setThread t x).wipeNs = s.wipeNs := rfl

/-! ## State.modThread -/

@[simp] theorem State.modThread_mem (s : State) (t : Nat) (f : Thread → Thread) : (s.modThread t f).mem = s.mem := rfl
@[simp] theorem State.modThread_ecc (s : State) (t : Nat) (f : Thread → Thread) : (s.modThread t f).ecc = s.ecc := rfl
@[simp] theorem State.modThread_threads (s : State) (t : Nat) (f : Thread → Thread) : (s.modThread t f).threads = s.threads.set t (f (s.thread t)) := rfl
@[simp] theorem State.modThread_cores (s : State) (t : Nat) (f : Thread → Thread) : (s.modThread t f).cores = s.cores := rfl
@[simp] theorem State.modThread_clusters (s : State) (t : Nat) (f : Thread → Thread) : (s.modThread t f).clusters = s.clusters := rfl
@[simp] theorem State.modThread_dies (s : State) (t : Nat) (f : Thread → Thread) : (s.modThread t f).dies = s.dies := rfl
@[simp] theorem State.modThread_ctxs (s : State) (t : Nat) (f : Thread → Thread) : (s.modThread t f).ctxs = s.ctxs := rfl
@[simp] theorem State.modThread_lines (s : State) (t : Nat) (f : Thread → Thread) : (s.modThread t f).lines = s.lines := rfl
@[simp] theorem State.modThread_owned (s : State) (t : Nat) (f : Thread → Thread) : (s.modThread t f).owned = s.owned := rfl
@[simp] theorem State.modThread_staged (s : State) (t : Nat) (f : Thread → Thread) : (s.modThread t f).staged = s.staged := rfl
@[simp] theorem State.modThread_gets (s : State) (t : Nat) (f : Thread → Thread) : (s.modThread t f).gets = s.gets := rfl
@[simp] theorem State.modThread_starts (s : State) (t : Nat) (f : Thread → Thread) : (s.modThread t f).starts = s.starts := rfl
@[simp] theorem State.modThread_sends (s : State) (t : Nat) (f : Thread → Thread) : (s.modThread t f).sends = s.sends := rfl
@[simp] theorem State.modThread_engine (s : State) (t : Nat) (f : Thread → Thread) : (s.modThread t f).engine = s.engine := rfl
@[simp] theorem State.modThread_beats (s : State) (t : Nat) (f : Thread → Thread) : (s.modThread t f).beats = s.beats := rfl
@[simp] theorem State.modThread_life (s : State) (t : Nat) (f : Thread → Thread) : (s.modThread t f).life = s.life := rfl
@[simp] theorem State.modThread_mgerr (s : State) (t : Nat) (f : Thread → Thread) : (s.modThread t f).mgerr = s.mgerr := rfl
@[simp] theorem State.modThread_ports (s : State) (t : Nat) (f : Thread → Thread) : (s.modThread t f).ports = s.ports := rfl
@[simp] theorem State.modThread_failedModules (s : State) (t : Nat) (f : Thread → Thread) : (s.modThread t f).failedModules = s.failedModules := rfl
@[simp] theorem State.modThread_linkOut (s : State) (t : Nat) (f : Thread → Thread) : (s.modThread t f).linkOut = s.linkOut := rfl
@[simp] theorem State.modThread_time (s : State) (t : Nat) (f : Thread → Thread) : (s.modThread t f).time = s.time := rfl
@[simp] theorem State.modThread_cy (s : State) (t : Nat) (f : Thread → Thread) : (s.modThread t f).cy = s.cy := rfl
@[simp] theorem State.modThread_timeBehind (s : State) (t : Nat) (f : Thread → Thread) : (s.modThread t f).timeBehind = s.timeBehind := rfl
@[simp] theorem State.modThread_timeAhead (s : State) (t : Nat) (f : Thread → Thread) : (s.modThread t f).timeAhead = s.timeAhead := rfl
@[simp] theorem State.modThread_modnum (s : State) (t : Nat) (f : Thread → Thread) : (s.modThread t f).modnum = s.modnum := rfl
@[simp] theorem State.modThread_agenda (s : State) (t : Nat) (f : Thread → Thread) : (s.modThread t f).agenda = s.agenda := rfl
@[simp] theorem State.modThread_turns (s : State) (t : Nat) (f : Thread → Thread) : (s.modThread t f).turns = s.turns := rfl
@[simp] theorem State.modThread_cur (s : State) (t : Nat) (f : Thread → Thread) : (s.modThread t f).cur = s.cur := rfl
@[simp] theorem State.modThread_npc (s : State) (t : Nat) (f : Thread → Thread) : (s.modThread t f).npc = s.npc := rfl
@[simp] theorem State.modThread_iw (s : State) (t : Nat) (f : Thread → Thread) : (s.modThread t f).iw = s.iw := rfl
@[simp] theorem State.modThread_opCount (s : State) (t : Nat) (f : Thread → Thread) : (s.modThread t f).opCount = s.opCount := rfl
@[simp] theorem State.modThread_useCount (s : State) (t : Nat) (f : Thread → Thread) : (s.modThread t f).useCount = s.useCount := rfl
@[simp] theorem State.modThread_free (s : State) (t : Nat) (f : Thread → Thread) : (s.modThread t f).free = s.free := rfl
@[simp] theorem State.modThread_hostReply (s : State) (t : Nat) (f : Thread → Thread) : (s.modThread t f).hostReply = s.hostReply := rfl
@[simp] theorem State.modThread_heard (s : State) (t : Nat) (f : Thread → Thread) : (s.modThread t f).heard = s.heard := rfl
@[simp] theorem State.modThread_wipeNs (s : State) (t : Nat) (f : Thread → Thread) : (s.modThread t f).wipeNs = s.wipeNs := rfl

/-! ## State.modTh -/

@[simp] theorem State.modTh_mem (s : State) (f : Thread → Thread) : (s.modTh f).mem = s.mem := rfl
@[simp] theorem State.modTh_ecc (s : State) (f : Thread → Thread) : (s.modTh f).ecc = s.ecc := rfl
@[simp] theorem State.modTh_threads (s : State) (f : Thread → Thread) : (s.modTh f).threads = s.threads.set s.cur (f s.th) := rfl
@[simp] theorem State.modTh_cores (s : State) (f : Thread → Thread) : (s.modTh f).cores = s.cores := rfl
@[simp] theorem State.modTh_clusters (s : State) (f : Thread → Thread) : (s.modTh f).clusters = s.clusters := rfl
@[simp] theorem State.modTh_dies (s : State) (f : Thread → Thread) : (s.modTh f).dies = s.dies := rfl
@[simp] theorem State.modTh_ctxs (s : State) (f : Thread → Thread) : (s.modTh f).ctxs = s.ctxs := rfl
@[simp] theorem State.modTh_lines (s : State) (f : Thread → Thread) : (s.modTh f).lines = s.lines := rfl
@[simp] theorem State.modTh_owned (s : State) (f : Thread → Thread) : (s.modTh f).owned = s.owned := rfl
@[simp] theorem State.modTh_staged (s : State) (f : Thread → Thread) : (s.modTh f).staged = s.staged := rfl
@[simp] theorem State.modTh_gets (s : State) (f : Thread → Thread) : (s.modTh f).gets = s.gets := rfl
@[simp] theorem State.modTh_starts (s : State) (f : Thread → Thread) : (s.modTh f).starts = s.starts := rfl
@[simp] theorem State.modTh_sends (s : State) (f : Thread → Thread) : (s.modTh f).sends = s.sends := rfl
@[simp] theorem State.modTh_engine (s : State) (f : Thread → Thread) : (s.modTh f).engine = s.engine := rfl
@[simp] theorem State.modTh_beats (s : State) (f : Thread → Thread) : (s.modTh f).beats = s.beats := rfl
@[simp] theorem State.modTh_life (s : State) (f : Thread → Thread) : (s.modTh f).life = s.life := rfl
@[simp] theorem State.modTh_mgerr (s : State) (f : Thread → Thread) : (s.modTh f).mgerr = s.mgerr := rfl
@[simp] theorem State.modTh_ports (s : State) (f : Thread → Thread) : (s.modTh f).ports = s.ports := rfl
@[simp] theorem State.modTh_failedModules (s : State) (f : Thread → Thread) : (s.modTh f).failedModules = s.failedModules := rfl
@[simp] theorem State.modTh_linkOut (s : State) (f : Thread → Thread) : (s.modTh f).linkOut = s.linkOut := rfl
@[simp] theorem State.modTh_time (s : State) (f : Thread → Thread) : (s.modTh f).time = s.time := rfl
@[simp] theorem State.modTh_cy (s : State) (f : Thread → Thread) : (s.modTh f).cy = s.cy := rfl
@[simp] theorem State.modTh_timeBehind (s : State) (f : Thread → Thread) : (s.modTh f).timeBehind = s.timeBehind := rfl
@[simp] theorem State.modTh_timeAhead (s : State) (f : Thread → Thread) : (s.modTh f).timeAhead = s.timeAhead := rfl
@[simp] theorem State.modTh_modnum (s : State) (f : Thread → Thread) : (s.modTh f).modnum = s.modnum := rfl
@[simp] theorem State.modTh_agenda (s : State) (f : Thread → Thread) : (s.modTh f).agenda = s.agenda := rfl
@[simp] theorem State.modTh_turns (s : State) (f : Thread → Thread) : (s.modTh f).turns = s.turns := rfl
@[simp] theorem State.modTh_cur (s : State) (f : Thread → Thread) : (s.modTh f).cur = s.cur := rfl
@[simp] theorem State.modTh_npc (s : State) (f : Thread → Thread) : (s.modTh f).npc = s.npc := rfl
@[simp] theorem State.modTh_iw (s : State) (f : Thread → Thread) : (s.modTh f).iw = s.iw := rfl
@[simp] theorem State.modTh_opCount (s : State) (f : Thread → Thread) : (s.modTh f).opCount = s.opCount := rfl
@[simp] theorem State.modTh_useCount (s : State) (f : Thread → Thread) : (s.modTh f).useCount = s.useCount := rfl
@[simp] theorem State.modTh_free (s : State) (f : Thread → Thread) : (s.modTh f).free = s.free := rfl
@[simp] theorem State.modTh_hostReply (s : State) (f : Thread → Thread) : (s.modTh f).hostReply = s.hostReply := rfl
@[simp] theorem State.modTh_heard (s : State) (f : Thread → Thread) : (s.modTh f).heard = s.heard := rfl
@[simp] theorem State.modTh_wipeNs (s : State) (f : Thread → Thread) : (s.modTh f).wipeNs = s.wipeNs := rfl

/-! ## State.setCore -/

@[simp] theorem State.setCore_mem (s : State) (c : Nat) (x : Core) : (s.setCore c x).mem = s.mem := rfl
@[simp] theorem State.setCore_ecc (s : State) (c : Nat) (x : Core) : (s.setCore c x).ecc = s.ecc := rfl
@[simp] theorem State.setCore_threads (s : State) (c : Nat) (x : Core) : (s.setCore c x).threads = s.threads := rfl
@[simp] theorem State.setCore_cores (s : State) (c : Nat) (x : Core) : (s.setCore c x).cores = s.cores.set c x := rfl
@[simp] theorem State.setCore_clusters (s : State) (c : Nat) (x : Core) : (s.setCore c x).clusters = s.clusters := rfl
@[simp] theorem State.setCore_dies (s : State) (c : Nat) (x : Core) : (s.setCore c x).dies = s.dies := rfl
@[simp] theorem State.setCore_ctxs (s : State) (c : Nat) (x : Core) : (s.setCore c x).ctxs = s.ctxs := rfl
@[simp] theorem State.setCore_lines (s : State) (c : Nat) (x : Core) : (s.setCore c x).lines = s.lines := rfl
@[simp] theorem State.setCore_owned (s : State) (c : Nat) (x : Core) : (s.setCore c x).owned = s.owned := rfl
@[simp] theorem State.setCore_staged (s : State) (c : Nat) (x : Core) : (s.setCore c x).staged = s.staged := rfl
@[simp] theorem State.setCore_gets (s : State) (c : Nat) (x : Core) : (s.setCore c x).gets = s.gets := rfl
@[simp] theorem State.setCore_starts (s : State) (c : Nat) (x : Core) : (s.setCore c x).starts = s.starts := rfl
@[simp] theorem State.setCore_sends (s : State) (c : Nat) (x : Core) : (s.setCore c x).sends = s.sends := rfl
@[simp] theorem State.setCore_engine (s : State) (c : Nat) (x : Core) : (s.setCore c x).engine = s.engine := rfl
@[simp] theorem State.setCore_beats (s : State) (c : Nat) (x : Core) : (s.setCore c x).beats = s.beats := rfl
@[simp] theorem State.setCore_life (s : State) (c : Nat) (x : Core) : (s.setCore c x).life = s.life := rfl
@[simp] theorem State.setCore_mgerr (s : State) (c : Nat) (x : Core) : (s.setCore c x).mgerr = s.mgerr := rfl
@[simp] theorem State.setCore_ports (s : State) (c : Nat) (x : Core) : (s.setCore c x).ports = s.ports := rfl
@[simp] theorem State.setCore_failedModules (s : State) (c : Nat) (x : Core) : (s.setCore c x).failedModules = s.failedModules := rfl
@[simp] theorem State.setCore_linkOut (s : State) (c : Nat) (x : Core) : (s.setCore c x).linkOut = s.linkOut := rfl
@[simp] theorem State.setCore_time (s : State) (c : Nat) (x : Core) : (s.setCore c x).time = s.time := rfl
@[simp] theorem State.setCore_cy (s : State) (c : Nat) (x : Core) : (s.setCore c x).cy = s.cy := rfl
@[simp] theorem State.setCore_timeBehind (s : State) (c : Nat) (x : Core) : (s.setCore c x).timeBehind = s.timeBehind := rfl
@[simp] theorem State.setCore_timeAhead (s : State) (c : Nat) (x : Core) : (s.setCore c x).timeAhead = s.timeAhead := rfl
@[simp] theorem State.setCore_modnum (s : State) (c : Nat) (x : Core) : (s.setCore c x).modnum = s.modnum := rfl
@[simp] theorem State.setCore_agenda (s : State) (c : Nat) (x : Core) : (s.setCore c x).agenda = s.agenda := rfl
@[simp] theorem State.setCore_turns (s : State) (c : Nat) (x : Core) : (s.setCore c x).turns = s.turns := rfl
@[simp] theorem State.setCore_cur (s : State) (c : Nat) (x : Core) : (s.setCore c x).cur = s.cur := rfl
@[simp] theorem State.setCore_npc (s : State) (c : Nat) (x : Core) : (s.setCore c x).npc = s.npc := rfl
@[simp] theorem State.setCore_iw (s : State) (c : Nat) (x : Core) : (s.setCore c x).iw = s.iw := rfl
@[simp] theorem State.setCore_opCount (s : State) (c : Nat) (x : Core) : (s.setCore c x).opCount = s.opCount := rfl
@[simp] theorem State.setCore_useCount (s : State) (c : Nat) (x : Core) : (s.setCore c x).useCount = s.useCount := rfl
@[simp] theorem State.setCore_free (s : State) (c : Nat) (x : Core) : (s.setCore c x).free = s.free := rfl
@[simp] theorem State.setCore_hostReply (s : State) (c : Nat) (x : Core) : (s.setCore c x).hostReply = s.hostReply := rfl
@[simp] theorem State.setCore_heard (s : State) (c : Nat) (x : Core) : (s.setCore c x).heard = s.heard := rfl
@[simp] theorem State.setCore_wipeNs (s : State) (c : Nat) (x : Core) : (s.setCore c x).wipeNs = s.wipeNs := rfl

/-! ## State.modCore -/

@[simp] theorem State.modCore_mem (s : State) (c : Nat) (f : Core → Core) : (s.modCore c f).mem = s.mem := rfl
@[simp] theorem State.modCore_ecc (s : State) (c : Nat) (f : Core → Core) : (s.modCore c f).ecc = s.ecc := rfl
@[simp] theorem State.modCore_threads (s : State) (c : Nat) (f : Core → Core) : (s.modCore c f).threads = s.threads := rfl
@[simp] theorem State.modCore_cores (s : State) (c : Nat) (f : Core → Core) : (s.modCore c f).cores = s.cores.set c (f (s.core c)) := rfl
@[simp] theorem State.modCore_clusters (s : State) (c : Nat) (f : Core → Core) : (s.modCore c f).clusters = s.clusters := rfl
@[simp] theorem State.modCore_dies (s : State) (c : Nat) (f : Core → Core) : (s.modCore c f).dies = s.dies := rfl
@[simp] theorem State.modCore_ctxs (s : State) (c : Nat) (f : Core → Core) : (s.modCore c f).ctxs = s.ctxs := rfl
@[simp] theorem State.modCore_lines (s : State) (c : Nat) (f : Core → Core) : (s.modCore c f).lines = s.lines := rfl
@[simp] theorem State.modCore_owned (s : State) (c : Nat) (f : Core → Core) : (s.modCore c f).owned = s.owned := rfl
@[simp] theorem State.modCore_staged (s : State) (c : Nat) (f : Core → Core) : (s.modCore c f).staged = s.staged := rfl
@[simp] theorem State.modCore_gets (s : State) (c : Nat) (f : Core → Core) : (s.modCore c f).gets = s.gets := rfl
@[simp] theorem State.modCore_starts (s : State) (c : Nat) (f : Core → Core) : (s.modCore c f).starts = s.starts := rfl
@[simp] theorem State.modCore_sends (s : State) (c : Nat) (f : Core → Core) : (s.modCore c f).sends = s.sends := rfl
@[simp] theorem State.modCore_engine (s : State) (c : Nat) (f : Core → Core) : (s.modCore c f).engine = s.engine := rfl
@[simp] theorem State.modCore_beats (s : State) (c : Nat) (f : Core → Core) : (s.modCore c f).beats = s.beats := rfl
@[simp] theorem State.modCore_life (s : State) (c : Nat) (f : Core → Core) : (s.modCore c f).life = s.life := rfl
@[simp] theorem State.modCore_mgerr (s : State) (c : Nat) (f : Core → Core) : (s.modCore c f).mgerr = s.mgerr := rfl
@[simp] theorem State.modCore_ports (s : State) (c : Nat) (f : Core → Core) : (s.modCore c f).ports = s.ports := rfl
@[simp] theorem State.modCore_failedModules (s : State) (c : Nat) (f : Core → Core) : (s.modCore c f).failedModules = s.failedModules := rfl
@[simp] theorem State.modCore_linkOut (s : State) (c : Nat) (f : Core → Core) : (s.modCore c f).linkOut = s.linkOut := rfl
@[simp] theorem State.modCore_time (s : State) (c : Nat) (f : Core → Core) : (s.modCore c f).time = s.time := rfl
@[simp] theorem State.modCore_cy (s : State) (c : Nat) (f : Core → Core) : (s.modCore c f).cy = s.cy := rfl
@[simp] theorem State.modCore_timeBehind (s : State) (c : Nat) (f : Core → Core) : (s.modCore c f).timeBehind = s.timeBehind := rfl
@[simp] theorem State.modCore_timeAhead (s : State) (c : Nat) (f : Core → Core) : (s.modCore c f).timeAhead = s.timeAhead := rfl
@[simp] theorem State.modCore_modnum (s : State) (c : Nat) (f : Core → Core) : (s.modCore c f).modnum = s.modnum := rfl
@[simp] theorem State.modCore_agenda (s : State) (c : Nat) (f : Core → Core) : (s.modCore c f).agenda = s.agenda := rfl
@[simp] theorem State.modCore_turns (s : State) (c : Nat) (f : Core → Core) : (s.modCore c f).turns = s.turns := rfl
@[simp] theorem State.modCore_cur (s : State) (c : Nat) (f : Core → Core) : (s.modCore c f).cur = s.cur := rfl
@[simp] theorem State.modCore_npc (s : State) (c : Nat) (f : Core → Core) : (s.modCore c f).npc = s.npc := rfl
@[simp] theorem State.modCore_iw (s : State) (c : Nat) (f : Core → Core) : (s.modCore c f).iw = s.iw := rfl
@[simp] theorem State.modCore_opCount (s : State) (c : Nat) (f : Core → Core) : (s.modCore c f).opCount = s.opCount := rfl
@[simp] theorem State.modCore_useCount (s : State) (c : Nat) (f : Core → Core) : (s.modCore c f).useCount = s.useCount := rfl
@[simp] theorem State.modCore_free (s : State) (c : Nat) (f : Core → Core) : (s.modCore c f).free = s.free := rfl
@[simp] theorem State.modCore_hostReply (s : State) (c : Nat) (f : Core → Core) : (s.modCore c f).hostReply = s.hostReply := rfl
@[simp] theorem State.modCore_heard (s : State) (c : Nat) (f : Core → Core) : (s.modCore c f).heard = s.heard := rfl
@[simp] theorem State.modCore_wipeNs (s : State) (c : Nat) (f : Core → Core) : (s.modCore c f).wipeNs = s.wipeNs := rfl

/-! ## State.modCluster -/

@[simp] theorem State.modCluster_mem (s : State) (c : Nat) (f : Cluster → Cluster) : (s.modCluster c f).mem = s.mem := rfl
@[simp] theorem State.modCluster_ecc (s : State) (c : Nat) (f : Cluster → Cluster) : (s.modCluster c f).ecc = s.ecc := rfl
@[simp] theorem State.modCluster_threads (s : State) (c : Nat) (f : Cluster → Cluster) : (s.modCluster c f).threads = s.threads := rfl
@[simp] theorem State.modCluster_cores (s : State) (c : Nat) (f : Cluster → Cluster) : (s.modCluster c f).cores = s.cores := rfl
@[simp] theorem State.modCluster_clusters (s : State) (c : Nat) (f : Cluster → Cluster) : (s.modCluster c f).clusters = s.clusters.set c (f (s.cluster c)) := rfl
@[simp] theorem State.modCluster_dies (s : State) (c : Nat) (f : Cluster → Cluster) : (s.modCluster c f).dies = s.dies := rfl
@[simp] theorem State.modCluster_ctxs (s : State) (c : Nat) (f : Cluster → Cluster) : (s.modCluster c f).ctxs = s.ctxs := rfl
@[simp] theorem State.modCluster_lines (s : State) (c : Nat) (f : Cluster → Cluster) : (s.modCluster c f).lines = s.lines := rfl
@[simp] theorem State.modCluster_owned (s : State) (c : Nat) (f : Cluster → Cluster) : (s.modCluster c f).owned = s.owned := rfl
@[simp] theorem State.modCluster_staged (s : State) (c : Nat) (f : Cluster → Cluster) : (s.modCluster c f).staged = s.staged := rfl
@[simp] theorem State.modCluster_gets (s : State) (c : Nat) (f : Cluster → Cluster) : (s.modCluster c f).gets = s.gets := rfl
@[simp] theorem State.modCluster_starts (s : State) (c : Nat) (f : Cluster → Cluster) : (s.modCluster c f).starts = s.starts := rfl
@[simp] theorem State.modCluster_sends (s : State) (c : Nat) (f : Cluster → Cluster) : (s.modCluster c f).sends = s.sends := rfl
@[simp] theorem State.modCluster_engine (s : State) (c : Nat) (f : Cluster → Cluster) : (s.modCluster c f).engine = s.engine := rfl
@[simp] theorem State.modCluster_beats (s : State) (c : Nat) (f : Cluster → Cluster) : (s.modCluster c f).beats = s.beats := rfl
@[simp] theorem State.modCluster_life (s : State) (c : Nat) (f : Cluster → Cluster) : (s.modCluster c f).life = s.life := rfl
@[simp] theorem State.modCluster_mgerr (s : State) (c : Nat) (f : Cluster → Cluster) : (s.modCluster c f).mgerr = s.mgerr := rfl
@[simp] theorem State.modCluster_ports (s : State) (c : Nat) (f : Cluster → Cluster) : (s.modCluster c f).ports = s.ports := rfl
@[simp] theorem State.modCluster_failedModules (s : State) (c : Nat) (f : Cluster → Cluster) : (s.modCluster c f).failedModules = s.failedModules := rfl
@[simp] theorem State.modCluster_linkOut (s : State) (c : Nat) (f : Cluster → Cluster) : (s.modCluster c f).linkOut = s.linkOut := rfl
@[simp] theorem State.modCluster_time (s : State) (c : Nat) (f : Cluster → Cluster) : (s.modCluster c f).time = s.time := rfl
@[simp] theorem State.modCluster_cy (s : State) (c : Nat) (f : Cluster → Cluster) : (s.modCluster c f).cy = s.cy := rfl
@[simp] theorem State.modCluster_timeBehind (s : State) (c : Nat) (f : Cluster → Cluster) : (s.modCluster c f).timeBehind = s.timeBehind := rfl
@[simp] theorem State.modCluster_timeAhead (s : State) (c : Nat) (f : Cluster → Cluster) : (s.modCluster c f).timeAhead = s.timeAhead := rfl
@[simp] theorem State.modCluster_modnum (s : State) (c : Nat) (f : Cluster → Cluster) : (s.modCluster c f).modnum = s.modnum := rfl
@[simp] theorem State.modCluster_agenda (s : State) (c : Nat) (f : Cluster → Cluster) : (s.modCluster c f).agenda = s.agenda := rfl
@[simp] theorem State.modCluster_turns (s : State) (c : Nat) (f : Cluster → Cluster) : (s.modCluster c f).turns = s.turns := rfl
@[simp] theorem State.modCluster_cur (s : State) (c : Nat) (f : Cluster → Cluster) : (s.modCluster c f).cur = s.cur := rfl
@[simp] theorem State.modCluster_npc (s : State) (c : Nat) (f : Cluster → Cluster) : (s.modCluster c f).npc = s.npc := rfl
@[simp] theorem State.modCluster_iw (s : State) (c : Nat) (f : Cluster → Cluster) : (s.modCluster c f).iw = s.iw := rfl
@[simp] theorem State.modCluster_opCount (s : State) (c : Nat) (f : Cluster → Cluster) : (s.modCluster c f).opCount = s.opCount := rfl
@[simp] theorem State.modCluster_useCount (s : State) (c : Nat) (f : Cluster → Cluster) : (s.modCluster c f).useCount = s.useCount := rfl
@[simp] theorem State.modCluster_free (s : State) (c : Nat) (f : Cluster → Cluster) : (s.modCluster c f).free = s.free := rfl
@[simp] theorem State.modCluster_hostReply (s : State) (c : Nat) (f : Cluster → Cluster) : (s.modCluster c f).hostReply = s.hostReply := rfl
@[simp] theorem State.modCluster_heard (s : State) (c : Nat) (f : Cluster → Cluster) : (s.modCluster c f).heard = s.heard := rfl
@[simp] theorem State.modCluster_wipeNs (s : State) (c : Nat) (f : Cluster → Cluster) : (s.modCluster c f).wipeNs = s.wipeNs := rfl

/-! ## State.setDie -/

@[simp] theorem State.setDie_mem (s : State) (d : Nat) (x : Die) : (s.setDie d x).mem = s.mem := rfl
@[simp] theorem State.setDie_ecc (s : State) (d : Nat) (x : Die) : (s.setDie d x).ecc = s.ecc := rfl
@[simp] theorem State.setDie_threads (s : State) (d : Nat) (x : Die) : (s.setDie d x).threads = s.threads := rfl
@[simp] theorem State.setDie_cores (s : State) (d : Nat) (x : Die) : (s.setDie d x).cores = s.cores := rfl
@[simp] theorem State.setDie_clusters (s : State) (d : Nat) (x : Die) : (s.setDie d x).clusters = s.clusters := rfl
@[simp] theorem State.setDie_dies (s : State) (d : Nat) (x : Die) : (s.setDie d x).dies = s.dies.set d x := rfl
@[simp] theorem State.setDie_ctxs (s : State) (d : Nat) (x : Die) : (s.setDie d x).ctxs = s.ctxs := rfl
@[simp] theorem State.setDie_lines (s : State) (d : Nat) (x : Die) : (s.setDie d x).lines = s.lines := rfl
@[simp] theorem State.setDie_owned (s : State) (d : Nat) (x : Die) : (s.setDie d x).owned = s.owned := rfl
@[simp] theorem State.setDie_staged (s : State) (d : Nat) (x : Die) : (s.setDie d x).staged = s.staged := rfl
@[simp] theorem State.setDie_gets (s : State) (d : Nat) (x : Die) : (s.setDie d x).gets = s.gets := rfl
@[simp] theorem State.setDie_starts (s : State) (d : Nat) (x : Die) : (s.setDie d x).starts = s.starts := rfl
@[simp] theorem State.setDie_sends (s : State) (d : Nat) (x : Die) : (s.setDie d x).sends = s.sends := rfl
@[simp] theorem State.setDie_engine (s : State) (d : Nat) (x : Die) : (s.setDie d x).engine = s.engine := rfl
@[simp] theorem State.setDie_beats (s : State) (d : Nat) (x : Die) : (s.setDie d x).beats = s.beats := rfl
@[simp] theorem State.setDie_life (s : State) (d : Nat) (x : Die) : (s.setDie d x).life = s.life := rfl
@[simp] theorem State.setDie_mgerr (s : State) (d : Nat) (x : Die) : (s.setDie d x).mgerr = s.mgerr := rfl
@[simp] theorem State.setDie_ports (s : State) (d : Nat) (x : Die) : (s.setDie d x).ports = s.ports := rfl
@[simp] theorem State.setDie_failedModules (s : State) (d : Nat) (x : Die) : (s.setDie d x).failedModules = s.failedModules := rfl
@[simp] theorem State.setDie_linkOut (s : State) (d : Nat) (x : Die) : (s.setDie d x).linkOut = s.linkOut := rfl
@[simp] theorem State.setDie_time (s : State) (d : Nat) (x : Die) : (s.setDie d x).time = s.time := rfl
@[simp] theorem State.setDie_cy (s : State) (d : Nat) (x : Die) : (s.setDie d x).cy = s.cy := rfl
@[simp] theorem State.setDie_timeBehind (s : State) (d : Nat) (x : Die) : (s.setDie d x).timeBehind = s.timeBehind := rfl
@[simp] theorem State.setDie_timeAhead (s : State) (d : Nat) (x : Die) : (s.setDie d x).timeAhead = s.timeAhead := rfl
@[simp] theorem State.setDie_modnum (s : State) (d : Nat) (x : Die) : (s.setDie d x).modnum = s.modnum := rfl
@[simp] theorem State.setDie_agenda (s : State) (d : Nat) (x : Die) : (s.setDie d x).agenda = s.agenda := rfl
@[simp] theorem State.setDie_turns (s : State) (d : Nat) (x : Die) : (s.setDie d x).turns = s.turns := rfl
@[simp] theorem State.setDie_cur (s : State) (d : Nat) (x : Die) : (s.setDie d x).cur = s.cur := rfl
@[simp] theorem State.setDie_npc (s : State) (d : Nat) (x : Die) : (s.setDie d x).npc = s.npc := rfl
@[simp] theorem State.setDie_iw (s : State) (d : Nat) (x : Die) : (s.setDie d x).iw = s.iw := rfl
@[simp] theorem State.setDie_opCount (s : State) (d : Nat) (x : Die) : (s.setDie d x).opCount = s.opCount := rfl
@[simp] theorem State.setDie_useCount (s : State) (d : Nat) (x : Die) : (s.setDie d x).useCount = s.useCount := rfl
@[simp] theorem State.setDie_free (s : State) (d : Nat) (x : Die) : (s.setDie d x).free = s.free := rfl
@[simp] theorem State.setDie_hostReply (s : State) (d : Nat) (x : Die) : (s.setDie d x).hostReply = s.hostReply := rfl
@[simp] theorem State.setDie_heard (s : State) (d : Nat) (x : Die) : (s.setDie d x).heard = s.heard := rfl
@[simp] theorem State.setDie_wipeNs (s : State) (d : Nat) (x : Die) : (s.setDie d x).wipeNs = s.wipeNs := rfl

/-! ## State.modDie -/

@[simp] theorem State.modDie_mem (s : State) (d : Nat) (f : Die → Die) : (s.modDie d f).mem = s.mem := rfl
@[simp] theorem State.modDie_ecc (s : State) (d : Nat) (f : Die → Die) : (s.modDie d f).ecc = s.ecc := rfl
@[simp] theorem State.modDie_threads (s : State) (d : Nat) (f : Die → Die) : (s.modDie d f).threads = s.threads := rfl
@[simp] theorem State.modDie_cores (s : State) (d : Nat) (f : Die → Die) : (s.modDie d f).cores = s.cores := rfl
@[simp] theorem State.modDie_clusters (s : State) (d : Nat) (f : Die → Die) : (s.modDie d f).clusters = s.clusters := rfl
@[simp] theorem State.modDie_dies (s : State) (d : Nat) (f : Die → Die) : (s.modDie d f).dies = s.dies.set d (f (s.die d)) := rfl
@[simp] theorem State.modDie_ctxs (s : State) (d : Nat) (f : Die → Die) : (s.modDie d f).ctxs = s.ctxs := rfl
@[simp] theorem State.modDie_lines (s : State) (d : Nat) (f : Die → Die) : (s.modDie d f).lines = s.lines := rfl
@[simp] theorem State.modDie_owned (s : State) (d : Nat) (f : Die → Die) : (s.modDie d f).owned = s.owned := rfl
@[simp] theorem State.modDie_staged (s : State) (d : Nat) (f : Die → Die) : (s.modDie d f).staged = s.staged := rfl
@[simp] theorem State.modDie_gets (s : State) (d : Nat) (f : Die → Die) : (s.modDie d f).gets = s.gets := rfl
@[simp] theorem State.modDie_starts (s : State) (d : Nat) (f : Die → Die) : (s.modDie d f).starts = s.starts := rfl
@[simp] theorem State.modDie_sends (s : State) (d : Nat) (f : Die → Die) : (s.modDie d f).sends = s.sends := rfl
@[simp] theorem State.modDie_engine (s : State) (d : Nat) (f : Die → Die) : (s.modDie d f).engine = s.engine := rfl
@[simp] theorem State.modDie_beats (s : State) (d : Nat) (f : Die → Die) : (s.modDie d f).beats = s.beats := rfl
@[simp] theorem State.modDie_life (s : State) (d : Nat) (f : Die → Die) : (s.modDie d f).life = s.life := rfl
@[simp] theorem State.modDie_mgerr (s : State) (d : Nat) (f : Die → Die) : (s.modDie d f).mgerr = s.mgerr := rfl
@[simp] theorem State.modDie_ports (s : State) (d : Nat) (f : Die → Die) : (s.modDie d f).ports = s.ports := rfl
@[simp] theorem State.modDie_failedModules (s : State) (d : Nat) (f : Die → Die) : (s.modDie d f).failedModules = s.failedModules := rfl
@[simp] theorem State.modDie_linkOut (s : State) (d : Nat) (f : Die → Die) : (s.modDie d f).linkOut = s.linkOut := rfl
@[simp] theorem State.modDie_time (s : State) (d : Nat) (f : Die → Die) : (s.modDie d f).time = s.time := rfl
@[simp] theorem State.modDie_cy (s : State) (d : Nat) (f : Die → Die) : (s.modDie d f).cy = s.cy := rfl
@[simp] theorem State.modDie_timeBehind (s : State) (d : Nat) (f : Die → Die) : (s.modDie d f).timeBehind = s.timeBehind := rfl
@[simp] theorem State.modDie_timeAhead (s : State) (d : Nat) (f : Die → Die) : (s.modDie d f).timeAhead = s.timeAhead := rfl
@[simp] theorem State.modDie_modnum (s : State) (d : Nat) (f : Die → Die) : (s.modDie d f).modnum = s.modnum := rfl
@[simp] theorem State.modDie_agenda (s : State) (d : Nat) (f : Die → Die) : (s.modDie d f).agenda = s.agenda := rfl
@[simp] theorem State.modDie_turns (s : State) (d : Nat) (f : Die → Die) : (s.modDie d f).turns = s.turns := rfl
@[simp] theorem State.modDie_cur (s : State) (d : Nat) (f : Die → Die) : (s.modDie d f).cur = s.cur := rfl
@[simp] theorem State.modDie_npc (s : State) (d : Nat) (f : Die → Die) : (s.modDie d f).npc = s.npc := rfl
@[simp] theorem State.modDie_iw (s : State) (d : Nat) (f : Die → Die) : (s.modDie d f).iw = s.iw := rfl
@[simp] theorem State.modDie_opCount (s : State) (d : Nat) (f : Die → Die) : (s.modDie d f).opCount = s.opCount := rfl
@[simp] theorem State.modDie_useCount (s : State) (d : Nat) (f : Die → Die) : (s.modDie d f).useCount = s.useCount := rfl
@[simp] theorem State.modDie_free (s : State) (d : Nat) (f : Die → Die) : (s.modDie d f).free = s.free := rfl
@[simp] theorem State.modDie_hostReply (s : State) (d : Nat) (f : Die → Die) : (s.modDie d f).hostReply = s.hostReply := rfl
@[simp] theorem State.modDie_heard (s : State) (d : Nat) (f : Die → Die) : (s.modDie d f).heard = s.heard := rfl
@[simp] theorem State.modDie_wipeNs (s : State) (d : Nat) (f : Die → Die) : (s.modDie d f).wipeNs = s.wipeNs := rfl

/-! ## State.setCtx -/

@[simp] theorem State.setCtx_mem (s : State) (c : Nat) (x : Ctx) : (s.setCtx c x).mem = s.mem := rfl
@[simp] theorem State.setCtx_ecc (s : State) (c : Nat) (x : Ctx) : (s.setCtx c x).ecc = s.ecc := rfl
@[simp] theorem State.setCtx_threads (s : State) (c : Nat) (x : Ctx) : (s.setCtx c x).threads = s.threads := rfl
@[simp] theorem State.setCtx_cores (s : State) (c : Nat) (x : Ctx) : (s.setCtx c x).cores = s.cores := rfl
@[simp] theorem State.setCtx_clusters (s : State) (c : Nat) (x : Ctx) : (s.setCtx c x).clusters = s.clusters := rfl
@[simp] theorem State.setCtx_dies (s : State) (c : Nat) (x : Ctx) : (s.setCtx c x).dies = s.dies := rfl
@[simp] theorem State.setCtx_ctxs (s : State) (c : Nat) (x : Ctx) : (s.setCtx c x).ctxs = s.ctxs.set c x := rfl
@[simp] theorem State.setCtx_lines (s : State) (c : Nat) (x : Ctx) : (s.setCtx c x).lines = s.lines := rfl
@[simp] theorem State.setCtx_owned (s : State) (c : Nat) (x : Ctx) : (s.setCtx c x).owned = s.owned := rfl
@[simp] theorem State.setCtx_staged (s : State) (c : Nat) (x : Ctx) : (s.setCtx c x).staged = s.staged := rfl
@[simp] theorem State.setCtx_gets (s : State) (c : Nat) (x : Ctx) : (s.setCtx c x).gets = s.gets := rfl
@[simp] theorem State.setCtx_starts (s : State) (c : Nat) (x : Ctx) : (s.setCtx c x).starts = s.starts := rfl
@[simp] theorem State.setCtx_sends (s : State) (c : Nat) (x : Ctx) : (s.setCtx c x).sends = s.sends := rfl
@[simp] theorem State.setCtx_engine (s : State) (c : Nat) (x : Ctx) : (s.setCtx c x).engine = s.engine := rfl
@[simp] theorem State.setCtx_beats (s : State) (c : Nat) (x : Ctx) : (s.setCtx c x).beats = s.beats := rfl
@[simp] theorem State.setCtx_life (s : State) (c : Nat) (x : Ctx) : (s.setCtx c x).life = s.life := rfl
@[simp] theorem State.setCtx_mgerr (s : State) (c : Nat) (x : Ctx) : (s.setCtx c x).mgerr = s.mgerr := rfl
@[simp] theorem State.setCtx_ports (s : State) (c : Nat) (x : Ctx) : (s.setCtx c x).ports = s.ports := rfl
@[simp] theorem State.setCtx_failedModules (s : State) (c : Nat) (x : Ctx) : (s.setCtx c x).failedModules = s.failedModules := rfl
@[simp] theorem State.setCtx_linkOut (s : State) (c : Nat) (x : Ctx) : (s.setCtx c x).linkOut = s.linkOut := rfl
@[simp] theorem State.setCtx_time (s : State) (c : Nat) (x : Ctx) : (s.setCtx c x).time = s.time := rfl
@[simp] theorem State.setCtx_cy (s : State) (c : Nat) (x : Ctx) : (s.setCtx c x).cy = s.cy := rfl
@[simp] theorem State.setCtx_timeBehind (s : State) (c : Nat) (x : Ctx) : (s.setCtx c x).timeBehind = s.timeBehind := rfl
@[simp] theorem State.setCtx_timeAhead (s : State) (c : Nat) (x : Ctx) : (s.setCtx c x).timeAhead = s.timeAhead := rfl
@[simp] theorem State.setCtx_modnum (s : State) (c : Nat) (x : Ctx) : (s.setCtx c x).modnum = s.modnum := rfl
@[simp] theorem State.setCtx_agenda (s : State) (c : Nat) (x : Ctx) : (s.setCtx c x).agenda = s.agenda := rfl
@[simp] theorem State.setCtx_turns (s : State) (c : Nat) (x : Ctx) : (s.setCtx c x).turns = s.turns := rfl
@[simp] theorem State.setCtx_cur (s : State) (c : Nat) (x : Ctx) : (s.setCtx c x).cur = s.cur := rfl
@[simp] theorem State.setCtx_npc (s : State) (c : Nat) (x : Ctx) : (s.setCtx c x).npc = s.npc := rfl
@[simp] theorem State.setCtx_iw (s : State) (c : Nat) (x : Ctx) : (s.setCtx c x).iw = s.iw := rfl
@[simp] theorem State.setCtx_opCount (s : State) (c : Nat) (x : Ctx) : (s.setCtx c x).opCount = s.opCount := rfl
@[simp] theorem State.setCtx_useCount (s : State) (c : Nat) (x : Ctx) : (s.setCtx c x).useCount = s.useCount := rfl
@[simp] theorem State.setCtx_free (s : State) (c : Nat) (x : Ctx) : (s.setCtx c x).free = s.free := rfl
@[simp] theorem State.setCtx_hostReply (s : State) (c : Nat) (x : Ctx) : (s.setCtx c x).hostReply = s.hostReply := rfl
@[simp] theorem State.setCtx_heard (s : State) (c : Nat) (x : Ctx) : (s.setCtx c x).heard = s.heard := rfl
@[simp] theorem State.setCtx_wipeNs (s : State) (c : Nat) (x : Ctx) : (s.setCtx c x).wipeNs = s.wipeNs := rfl

/-! ## State.modCtx -/

@[simp] theorem State.modCtx_mem (s : State) (c : Nat) (f : Ctx → Ctx) : (s.modCtx c f).mem = s.mem := rfl
@[simp] theorem State.modCtx_ecc (s : State) (c : Nat) (f : Ctx → Ctx) : (s.modCtx c f).ecc = s.ecc := rfl
@[simp] theorem State.modCtx_threads (s : State) (c : Nat) (f : Ctx → Ctx) : (s.modCtx c f).threads = s.threads := rfl
@[simp] theorem State.modCtx_cores (s : State) (c : Nat) (f : Ctx → Ctx) : (s.modCtx c f).cores = s.cores := rfl
@[simp] theorem State.modCtx_clusters (s : State) (c : Nat) (f : Ctx → Ctx) : (s.modCtx c f).clusters = s.clusters := rfl
@[simp] theorem State.modCtx_dies (s : State) (c : Nat) (f : Ctx → Ctx) : (s.modCtx c f).dies = s.dies := rfl
@[simp] theorem State.modCtx_ctxs (s : State) (c : Nat) (f : Ctx → Ctx) : (s.modCtx c f).ctxs = s.ctxs.set c (f (s.ctx c)) := rfl
@[simp] theorem State.modCtx_lines (s : State) (c : Nat) (f : Ctx → Ctx) : (s.modCtx c f).lines = s.lines := rfl
@[simp] theorem State.modCtx_owned (s : State) (c : Nat) (f : Ctx → Ctx) : (s.modCtx c f).owned = s.owned := rfl
@[simp] theorem State.modCtx_staged (s : State) (c : Nat) (f : Ctx → Ctx) : (s.modCtx c f).staged = s.staged := rfl
@[simp] theorem State.modCtx_gets (s : State) (c : Nat) (f : Ctx → Ctx) : (s.modCtx c f).gets = s.gets := rfl
@[simp] theorem State.modCtx_starts (s : State) (c : Nat) (f : Ctx → Ctx) : (s.modCtx c f).starts = s.starts := rfl
@[simp] theorem State.modCtx_sends (s : State) (c : Nat) (f : Ctx → Ctx) : (s.modCtx c f).sends = s.sends := rfl
@[simp] theorem State.modCtx_engine (s : State) (c : Nat) (f : Ctx → Ctx) : (s.modCtx c f).engine = s.engine := rfl
@[simp] theorem State.modCtx_beats (s : State) (c : Nat) (f : Ctx → Ctx) : (s.modCtx c f).beats = s.beats := rfl
@[simp] theorem State.modCtx_life (s : State) (c : Nat) (f : Ctx → Ctx) : (s.modCtx c f).life = s.life := rfl
@[simp] theorem State.modCtx_mgerr (s : State) (c : Nat) (f : Ctx → Ctx) : (s.modCtx c f).mgerr = s.mgerr := rfl
@[simp] theorem State.modCtx_ports (s : State) (c : Nat) (f : Ctx → Ctx) : (s.modCtx c f).ports = s.ports := rfl
@[simp] theorem State.modCtx_failedModules (s : State) (c : Nat) (f : Ctx → Ctx) : (s.modCtx c f).failedModules = s.failedModules := rfl
@[simp] theorem State.modCtx_linkOut (s : State) (c : Nat) (f : Ctx → Ctx) : (s.modCtx c f).linkOut = s.linkOut := rfl
@[simp] theorem State.modCtx_time (s : State) (c : Nat) (f : Ctx → Ctx) : (s.modCtx c f).time = s.time := rfl
@[simp] theorem State.modCtx_cy (s : State) (c : Nat) (f : Ctx → Ctx) : (s.modCtx c f).cy = s.cy := rfl
@[simp] theorem State.modCtx_timeBehind (s : State) (c : Nat) (f : Ctx → Ctx) : (s.modCtx c f).timeBehind = s.timeBehind := rfl
@[simp] theorem State.modCtx_timeAhead (s : State) (c : Nat) (f : Ctx → Ctx) : (s.modCtx c f).timeAhead = s.timeAhead := rfl
@[simp] theorem State.modCtx_modnum (s : State) (c : Nat) (f : Ctx → Ctx) : (s.modCtx c f).modnum = s.modnum := rfl
@[simp] theorem State.modCtx_agenda (s : State) (c : Nat) (f : Ctx → Ctx) : (s.modCtx c f).agenda = s.agenda := rfl
@[simp] theorem State.modCtx_turns (s : State) (c : Nat) (f : Ctx → Ctx) : (s.modCtx c f).turns = s.turns := rfl
@[simp] theorem State.modCtx_cur (s : State) (c : Nat) (f : Ctx → Ctx) : (s.modCtx c f).cur = s.cur := rfl
@[simp] theorem State.modCtx_npc (s : State) (c : Nat) (f : Ctx → Ctx) : (s.modCtx c f).npc = s.npc := rfl
@[simp] theorem State.modCtx_iw (s : State) (c : Nat) (f : Ctx → Ctx) : (s.modCtx c f).iw = s.iw := rfl
@[simp] theorem State.modCtx_opCount (s : State) (c : Nat) (f : Ctx → Ctx) : (s.modCtx c f).opCount = s.opCount := rfl
@[simp] theorem State.modCtx_useCount (s : State) (c : Nat) (f : Ctx → Ctx) : (s.modCtx c f).useCount = s.useCount := rfl
@[simp] theorem State.modCtx_free (s : State) (c : Nat) (f : Ctx → Ctx) : (s.modCtx c f).free = s.free := rfl
@[simp] theorem State.modCtx_hostReply (s : State) (c : Nat) (f : Ctx → Ctx) : (s.modCtx c f).hostReply = s.hostReply := rfl
@[simp] theorem State.modCtx_heard (s : State) (c : Nat) (f : Ctx → Ctx) : (s.modCtx c f).heard = s.heard := rfl
@[simp] theorem State.modCtx_wipeNs (s : State) (c : Nat) (f : Ctx → Ctx) : (s.modCtx c f).wipeNs = s.wipeNs := rfl

/-! ## State.modDctx -/

@[simp] theorem State.modDctx_mem (s : State) (d c : Nat) (f : DieCtx → DieCtx) : (s.modDctx d c f).mem = s.mem := rfl
@[simp] theorem State.modDctx_ecc (s : State) (d c : Nat) (f : DieCtx → DieCtx) : (s.modDctx d c f).ecc = s.ecc := rfl
@[simp] theorem State.modDctx_threads (s : State) (d c : Nat) (f : DieCtx → DieCtx) : (s.modDctx d c f).threads = s.threads := rfl
@[simp] theorem State.modDctx_cores (s : State) (d c : Nat) (f : DieCtx → DieCtx) : (s.modDctx d c f).cores = s.cores := rfl
@[simp] theorem State.modDctx_clusters (s : State) (d c : Nat) (f : DieCtx → DieCtx) : (s.modDctx d c f).clusters = s.clusters := rfl
@[simp] theorem State.modDctx_dies (s : State) (d c : Nat) (f : DieCtx → DieCtx) : (s.modDctx d c f).dies = s.dies := rfl
@[simp] theorem State.modDctx_lines (s : State) (d c : Nat) (f : DieCtx → DieCtx) : (s.modDctx d c f).lines = s.lines := rfl
@[simp] theorem State.modDctx_owned (s : State) (d c : Nat) (f : DieCtx → DieCtx) : (s.modDctx d c f).owned = s.owned := rfl
@[simp] theorem State.modDctx_staged (s : State) (d c : Nat) (f : DieCtx → DieCtx) : (s.modDctx d c f).staged = s.staged := rfl
@[simp] theorem State.modDctx_gets (s : State) (d c : Nat) (f : DieCtx → DieCtx) : (s.modDctx d c f).gets = s.gets := rfl
@[simp] theorem State.modDctx_starts (s : State) (d c : Nat) (f : DieCtx → DieCtx) : (s.modDctx d c f).starts = s.starts := rfl
@[simp] theorem State.modDctx_sends (s : State) (d c : Nat) (f : DieCtx → DieCtx) : (s.modDctx d c f).sends = s.sends := rfl
@[simp] theorem State.modDctx_engine (s : State) (d c : Nat) (f : DieCtx → DieCtx) : (s.modDctx d c f).engine = s.engine := rfl
@[simp] theorem State.modDctx_beats (s : State) (d c : Nat) (f : DieCtx → DieCtx) : (s.modDctx d c f).beats = s.beats := rfl
@[simp] theorem State.modDctx_life (s : State) (d c : Nat) (f : DieCtx → DieCtx) : (s.modDctx d c f).life = s.life := rfl
@[simp] theorem State.modDctx_mgerr (s : State) (d c : Nat) (f : DieCtx → DieCtx) : (s.modDctx d c f).mgerr = s.mgerr := rfl
@[simp] theorem State.modDctx_ports (s : State) (d c : Nat) (f : DieCtx → DieCtx) : (s.modDctx d c f).ports = s.ports := rfl
@[simp] theorem State.modDctx_failedModules (s : State) (d c : Nat) (f : DieCtx → DieCtx) : (s.modDctx d c f).failedModules = s.failedModules := rfl
@[simp] theorem State.modDctx_linkOut (s : State) (d c : Nat) (f : DieCtx → DieCtx) : (s.modDctx d c f).linkOut = s.linkOut := rfl
@[simp] theorem State.modDctx_time (s : State) (d c : Nat) (f : DieCtx → DieCtx) : (s.modDctx d c f).time = s.time := rfl
@[simp] theorem State.modDctx_cy (s : State) (d c : Nat) (f : DieCtx → DieCtx) : (s.modDctx d c f).cy = s.cy := rfl
@[simp] theorem State.modDctx_timeBehind (s : State) (d c : Nat) (f : DieCtx → DieCtx) : (s.modDctx d c f).timeBehind = s.timeBehind := rfl
@[simp] theorem State.modDctx_timeAhead (s : State) (d c : Nat) (f : DieCtx → DieCtx) : (s.modDctx d c f).timeAhead = s.timeAhead := rfl
@[simp] theorem State.modDctx_modnum (s : State) (d c : Nat) (f : DieCtx → DieCtx) : (s.modDctx d c f).modnum = s.modnum := rfl
@[simp] theorem State.modDctx_agenda (s : State) (d c : Nat) (f : DieCtx → DieCtx) : (s.modDctx d c f).agenda = s.agenda := rfl
@[simp] theorem State.modDctx_turns (s : State) (d c : Nat) (f : DieCtx → DieCtx) : (s.modDctx d c f).turns = s.turns := rfl
@[simp] theorem State.modDctx_cur (s : State) (d c : Nat) (f : DieCtx → DieCtx) : (s.modDctx d c f).cur = s.cur := rfl
@[simp] theorem State.modDctx_npc (s : State) (d c : Nat) (f : DieCtx → DieCtx) : (s.modDctx d c f).npc = s.npc := rfl
@[simp] theorem State.modDctx_iw (s : State) (d c : Nat) (f : DieCtx → DieCtx) : (s.modDctx d c f).iw = s.iw := rfl
@[simp] theorem State.modDctx_opCount (s : State) (d c : Nat) (f : DieCtx → DieCtx) : (s.modDctx d c f).opCount = s.opCount := rfl
@[simp] theorem State.modDctx_useCount (s : State) (d c : Nat) (f : DieCtx → DieCtx) : (s.modDctx d c f).useCount = s.useCount := rfl
@[simp] theorem State.modDctx_free (s : State) (d c : Nat) (f : DieCtx → DieCtx) : (s.modDctx d c f).free = s.free := rfl
@[simp] theorem State.modDctx_hostReply (s : State) (d c : Nat) (f : DieCtx → DieCtx) : (s.modDctx d c f).hostReply = s.hostReply := rfl
@[simp] theorem State.modDctx_heard (s : State) (d c : Nat) (f : DieCtx → DieCtx) : (s.modDctx d c f).heard = s.heard := rfl
@[simp] theorem State.modDctx_wipeNs (s : State) (d c : Nat) (f : DieCtx → DieCtx) : (s.modDctx d c f).wipeNs = s.wipeNs := rfl

/-! ## State.modJob -/

@[simp] theorem State.modJob_mem (s : State) (c : Nat) (f : Job → Job) : (s.modJob c f).mem = s.mem := rfl
@[simp] theorem State.modJob_ecc (s : State) (c : Nat) (f : Job → Job) : (s.modJob c f).ecc = s.ecc := rfl
@[simp] theorem State.modJob_threads (s : State) (c : Nat) (f : Job → Job) : (s.modJob c f).threads = s.threads := rfl
@[simp] theorem State.modJob_cores (s : State) (c : Nat) (f : Job → Job) : (s.modJob c f).cores = s.cores := rfl
@[simp] theorem State.modJob_clusters (s : State) (c : Nat) (f : Job → Job) : (s.modJob c f).clusters = s.clusters := rfl
@[simp] theorem State.modJob_dies (s : State) (c : Nat) (f : Job → Job) : (s.modJob c f).dies = s.dies := rfl
@[simp] theorem State.modJob_lines (s : State) (c : Nat) (f : Job → Job) : (s.modJob c f).lines = s.lines := rfl
@[simp] theorem State.modJob_owned (s : State) (c : Nat) (f : Job → Job) : (s.modJob c f).owned = s.owned := rfl
@[simp] theorem State.modJob_staged (s : State) (c : Nat) (f : Job → Job) : (s.modJob c f).staged = s.staged := rfl
@[simp] theorem State.modJob_gets (s : State) (c : Nat) (f : Job → Job) : (s.modJob c f).gets = s.gets := rfl
@[simp] theorem State.modJob_starts (s : State) (c : Nat) (f : Job → Job) : (s.modJob c f).starts = s.starts := rfl
@[simp] theorem State.modJob_sends (s : State) (c : Nat) (f : Job → Job) : (s.modJob c f).sends = s.sends := rfl
@[simp] theorem State.modJob_engine (s : State) (c : Nat) (f : Job → Job) : (s.modJob c f).engine = s.engine := rfl
@[simp] theorem State.modJob_beats (s : State) (c : Nat) (f : Job → Job) : (s.modJob c f).beats = s.beats := rfl
@[simp] theorem State.modJob_life (s : State) (c : Nat) (f : Job → Job) : (s.modJob c f).life = s.life := rfl
@[simp] theorem State.modJob_mgerr (s : State) (c : Nat) (f : Job → Job) : (s.modJob c f).mgerr = s.mgerr := rfl
@[simp] theorem State.modJob_ports (s : State) (c : Nat) (f : Job → Job) : (s.modJob c f).ports = s.ports := rfl
@[simp] theorem State.modJob_failedModules (s : State) (c : Nat) (f : Job → Job) : (s.modJob c f).failedModules = s.failedModules := rfl
@[simp] theorem State.modJob_linkOut (s : State) (c : Nat) (f : Job → Job) : (s.modJob c f).linkOut = s.linkOut := rfl
@[simp] theorem State.modJob_time (s : State) (c : Nat) (f : Job → Job) : (s.modJob c f).time = s.time := rfl
@[simp] theorem State.modJob_cy (s : State) (c : Nat) (f : Job → Job) : (s.modJob c f).cy = s.cy := rfl
@[simp] theorem State.modJob_timeBehind (s : State) (c : Nat) (f : Job → Job) : (s.modJob c f).timeBehind = s.timeBehind := rfl
@[simp] theorem State.modJob_timeAhead (s : State) (c : Nat) (f : Job → Job) : (s.modJob c f).timeAhead = s.timeAhead := rfl
@[simp] theorem State.modJob_modnum (s : State) (c : Nat) (f : Job → Job) : (s.modJob c f).modnum = s.modnum := rfl
@[simp] theorem State.modJob_agenda (s : State) (c : Nat) (f : Job → Job) : (s.modJob c f).agenda = s.agenda := rfl
@[simp] theorem State.modJob_turns (s : State) (c : Nat) (f : Job → Job) : (s.modJob c f).turns = s.turns := rfl
@[simp] theorem State.modJob_cur (s : State) (c : Nat) (f : Job → Job) : (s.modJob c f).cur = s.cur := rfl
@[simp] theorem State.modJob_npc (s : State) (c : Nat) (f : Job → Job) : (s.modJob c f).npc = s.npc := rfl
@[simp] theorem State.modJob_iw (s : State) (c : Nat) (f : Job → Job) : (s.modJob c f).iw = s.iw := rfl
@[simp] theorem State.modJob_opCount (s : State) (c : Nat) (f : Job → Job) : (s.modJob c f).opCount = s.opCount := rfl
@[simp] theorem State.modJob_useCount (s : State) (c : Nat) (f : Job → Job) : (s.modJob c f).useCount = s.useCount := rfl
@[simp] theorem State.modJob_free (s : State) (c : Nat) (f : Job → Job) : (s.modJob c f).free = s.free := rfl
@[simp] theorem State.modJob_hostReply (s : State) (c : Nat) (f : Job → Job) : (s.modJob c f).hostReply = s.hostReply := rfl
@[simp] theorem State.modJob_heard (s : State) (c : Nat) (f : Job → Job) : (s.modJob c f).heard = s.heard := rfl
@[simp] theorem State.modJob_wipeNs (s : State) (c : Nat) (f : Job → Job) : (s.modJob c f).wipeNs = s.wipeNs := rfl

/-! ## State.count -/

@[simp] theorem State.count_mem (s : State) (ctx idx n : Nat) : (s.count ctx idx n).mem = s.mem := rfl
@[simp] theorem State.count_ecc (s : State) (ctx idx n : Nat) : (s.count ctx idx n).ecc = s.ecc := rfl
@[simp] theorem State.count_threads (s : State) (ctx idx n : Nat) : (s.count ctx idx n).threads = s.threads := rfl
@[simp] theorem State.count_cores (s : State) (ctx idx n : Nat) : (s.count ctx idx n).cores = s.cores := rfl
@[simp] theorem State.count_clusters (s : State) (ctx idx n : Nat) : (s.count ctx idx n).clusters = s.clusters := rfl
@[simp] theorem State.count_dies (s : State) (ctx idx n : Nat) : (s.count ctx idx n).dies = s.dies := rfl
@[simp] theorem State.count_lines (s : State) (ctx idx n : Nat) : (s.count ctx idx n).lines = s.lines := rfl
@[simp] theorem State.count_owned (s : State) (ctx idx n : Nat) : (s.count ctx idx n).owned = s.owned := rfl
@[simp] theorem State.count_staged (s : State) (ctx idx n : Nat) : (s.count ctx idx n).staged = s.staged := rfl
@[simp] theorem State.count_gets (s : State) (ctx idx n : Nat) : (s.count ctx idx n).gets = s.gets := rfl
@[simp] theorem State.count_starts (s : State) (ctx idx n : Nat) : (s.count ctx idx n).starts = s.starts := rfl
@[simp] theorem State.count_sends (s : State) (ctx idx n : Nat) : (s.count ctx idx n).sends = s.sends := rfl
@[simp] theorem State.count_engine (s : State) (ctx idx n : Nat) : (s.count ctx idx n).engine = s.engine := rfl
@[simp] theorem State.count_beats (s : State) (ctx idx n : Nat) : (s.count ctx idx n).beats = s.beats := rfl
@[simp] theorem State.count_life (s : State) (ctx idx n : Nat) : (s.count ctx idx n).life = s.life := rfl
@[simp] theorem State.count_mgerr (s : State) (ctx idx n : Nat) : (s.count ctx idx n).mgerr = s.mgerr := rfl
@[simp] theorem State.count_ports (s : State) (ctx idx n : Nat) : (s.count ctx idx n).ports = s.ports := rfl
@[simp] theorem State.count_failedModules (s : State) (ctx idx n : Nat) : (s.count ctx idx n).failedModules = s.failedModules := rfl
@[simp] theorem State.count_linkOut (s : State) (ctx idx n : Nat) : (s.count ctx idx n).linkOut = s.linkOut := rfl
@[simp] theorem State.count_time (s : State) (ctx idx n : Nat) : (s.count ctx idx n).time = s.time := rfl
@[simp] theorem State.count_cy (s : State) (ctx idx n : Nat) : (s.count ctx idx n).cy = s.cy := rfl
@[simp] theorem State.count_timeBehind (s : State) (ctx idx n : Nat) : (s.count ctx idx n).timeBehind = s.timeBehind := rfl
@[simp] theorem State.count_timeAhead (s : State) (ctx idx n : Nat) : (s.count ctx idx n).timeAhead = s.timeAhead := rfl
@[simp] theorem State.count_modnum (s : State) (ctx idx n : Nat) : (s.count ctx idx n).modnum = s.modnum := rfl
@[simp] theorem State.count_agenda (s : State) (ctx idx n : Nat) : (s.count ctx idx n).agenda = s.agenda := rfl
@[simp] theorem State.count_turns (s : State) (ctx idx n : Nat) : (s.count ctx idx n).turns = s.turns := rfl
@[simp] theorem State.count_cur (s : State) (ctx idx n : Nat) : (s.count ctx idx n).cur = s.cur := rfl
@[simp] theorem State.count_npc (s : State) (ctx idx n : Nat) : (s.count ctx idx n).npc = s.npc := rfl
@[simp] theorem State.count_iw (s : State) (ctx idx n : Nat) : (s.count ctx idx n).iw = s.iw := rfl
@[simp] theorem State.count_opCount (s : State) (ctx idx n : Nat) : (s.count ctx idx n).opCount = s.opCount := rfl
@[simp] theorem State.count_useCount (s : State) (ctx idx n : Nat) : (s.count ctx idx n).useCount = s.useCount := rfl
@[simp] theorem State.count_free (s : State) (ctx idx n : Nat) : (s.count ctx idx n).free = s.free := rfl
@[simp] theorem State.count_hostReply (s : State) (ctx idx n : Nat) : (s.count ctx idx n).hostReply = s.hostReply := rfl
@[simp] theorem State.count_heard (s : State) (ctx idx n : Nat) : (s.count ctx idx n).heard = s.heard := rfl
@[simp] theorem State.count_wipeNs (s : State) (ctx idx n : Nat) : (s.count ctx idx n).wipeNs = s.wipeNs := rfl

/-! ## State.vote -/

@[simp] theorem State.vote_mem (s : State) (ctx b : Nat) : (s.vote ctx b).mem = s.mem := rfl
@[simp] theorem State.vote_ecc (s : State) (ctx b : Nat) : (s.vote ctx b).ecc = s.ecc := rfl
@[simp] theorem State.vote_threads (s : State) (ctx b : Nat) : (s.vote ctx b).threads = s.threads := rfl
@[simp] theorem State.vote_cores (s : State) (ctx b : Nat) : (s.vote ctx b).cores = s.cores := rfl
@[simp] theorem State.vote_clusters (s : State) (ctx b : Nat) : (s.vote ctx b).clusters = s.clusters := rfl
@[simp] theorem State.vote_dies (s : State) (ctx b : Nat) : (s.vote ctx b).dies = s.dies := rfl
@[simp] theorem State.vote_lines (s : State) (ctx b : Nat) : (s.vote ctx b).lines = s.lines := rfl
@[simp] theorem State.vote_owned (s : State) (ctx b : Nat) : (s.vote ctx b).owned = s.owned := rfl
@[simp] theorem State.vote_staged (s : State) (ctx b : Nat) : (s.vote ctx b).staged = s.staged := rfl
@[simp] theorem State.vote_gets (s : State) (ctx b : Nat) : (s.vote ctx b).gets = s.gets := rfl
@[simp] theorem State.vote_starts (s : State) (ctx b : Nat) : (s.vote ctx b).starts = s.starts := rfl
@[simp] theorem State.vote_sends (s : State) (ctx b : Nat) : (s.vote ctx b).sends = s.sends := rfl
@[simp] theorem State.vote_engine (s : State) (ctx b : Nat) : (s.vote ctx b).engine = s.engine := rfl
@[simp] theorem State.vote_beats (s : State) (ctx b : Nat) : (s.vote ctx b).beats = s.beats := rfl
@[simp] theorem State.vote_life (s : State) (ctx b : Nat) : (s.vote ctx b).life = s.life := rfl
@[simp] theorem State.vote_mgerr (s : State) (ctx b : Nat) : (s.vote ctx b).mgerr = s.mgerr := rfl
@[simp] theorem State.vote_ports (s : State) (ctx b : Nat) : (s.vote ctx b).ports = s.ports := rfl
@[simp] theorem State.vote_failedModules (s : State) (ctx b : Nat) : (s.vote ctx b).failedModules = s.failedModules := rfl
@[simp] theorem State.vote_linkOut (s : State) (ctx b : Nat) : (s.vote ctx b).linkOut = s.linkOut := rfl
@[simp] theorem State.vote_time (s : State) (ctx b : Nat) : (s.vote ctx b).time = s.time := rfl
@[simp] theorem State.vote_cy (s : State) (ctx b : Nat) : (s.vote ctx b).cy = s.cy := rfl
@[simp] theorem State.vote_timeBehind (s : State) (ctx b : Nat) : (s.vote ctx b).timeBehind = s.timeBehind := rfl
@[simp] theorem State.vote_timeAhead (s : State) (ctx b : Nat) : (s.vote ctx b).timeAhead = s.timeAhead := rfl
@[simp] theorem State.vote_modnum (s : State) (ctx b : Nat) : (s.vote ctx b).modnum = s.modnum := rfl
@[simp] theorem State.vote_agenda (s : State) (ctx b : Nat) : (s.vote ctx b).agenda = s.agenda := rfl
@[simp] theorem State.vote_turns (s : State) (ctx b : Nat) : (s.vote ctx b).turns = s.turns := rfl
@[simp] theorem State.vote_cur (s : State) (ctx b : Nat) : (s.vote ctx b).cur = s.cur := rfl
@[simp] theorem State.vote_npc (s : State) (ctx b : Nat) : (s.vote ctx b).npc = s.npc := rfl
@[simp] theorem State.vote_iw (s : State) (ctx b : Nat) : (s.vote ctx b).iw = s.iw := rfl
@[simp] theorem State.vote_opCount (s : State) (ctx b : Nat) : (s.vote ctx b).opCount = s.opCount := rfl
@[simp] theorem State.vote_useCount (s : State) (ctx b : Nat) : (s.vote ctx b).useCount = s.useCount := rfl
@[simp] theorem State.vote_free (s : State) (ctx b : Nat) : (s.vote ctx b).free = s.free := rfl
@[simp] theorem State.vote_hostReply (s : State) (ctx b : Nat) : (s.vote ctx b).hostReply = s.hostReply := rfl
@[simp] theorem State.vote_heard (s : State) (ctx b : Nat) : (s.vote ctx b).heard = s.heard := rfl
@[simp] theorem State.vote_wipeNs (s : State) (ctx b : Nat) : (s.vote ctx b).wipeNs = s.wipeNs := rfl

/-! ## State.dieEvent -/

@[simp] theorem State.dieEvent_mem (s : State) (die b : Nat) : (s.dieEvent die b).mem = s.mem := rfl
@[simp] theorem State.dieEvent_ecc (s : State) (die b : Nat) : (s.dieEvent die b).ecc = s.ecc := rfl
@[simp] theorem State.dieEvent_threads (s : State) (die b : Nat) : (s.dieEvent die b).threads = s.threads := rfl
@[simp] theorem State.dieEvent_cores (s : State) (die b : Nat) : (s.dieEvent die b).cores = s.cores := rfl
@[simp] theorem State.dieEvent_clusters (s : State) (die b : Nat) : (s.dieEvent die b).clusters = s.clusters := rfl
@[simp] theorem State.dieEvent_ctxs (s : State) (die b : Nat) : (s.dieEvent die b).ctxs = s.ctxs := rfl
@[simp] theorem State.dieEvent_lines (s : State) (die b : Nat) : (s.dieEvent die b).lines = s.lines := rfl
@[simp] theorem State.dieEvent_owned (s : State) (die b : Nat) : (s.dieEvent die b).owned = s.owned := rfl
@[simp] theorem State.dieEvent_staged (s : State) (die b : Nat) : (s.dieEvent die b).staged = s.staged := rfl
@[simp] theorem State.dieEvent_gets (s : State) (die b : Nat) : (s.dieEvent die b).gets = s.gets := rfl
@[simp] theorem State.dieEvent_starts (s : State) (die b : Nat) : (s.dieEvent die b).starts = s.starts := rfl
@[simp] theorem State.dieEvent_sends (s : State) (die b : Nat) : (s.dieEvent die b).sends = s.sends := rfl
@[simp] theorem State.dieEvent_engine (s : State) (die b : Nat) : (s.dieEvent die b).engine = s.engine := rfl
@[simp] theorem State.dieEvent_beats (s : State) (die b : Nat) : (s.dieEvent die b).beats = s.beats := rfl
@[simp] theorem State.dieEvent_life (s : State) (die b : Nat) : (s.dieEvent die b).life = s.life := rfl
@[simp] theorem State.dieEvent_mgerr (s : State) (die b : Nat) : (s.dieEvent die b).mgerr = s.mgerr := rfl
@[simp] theorem State.dieEvent_ports (s : State) (die b : Nat) : (s.dieEvent die b).ports = s.ports := rfl
@[simp] theorem State.dieEvent_failedModules (s : State) (die b : Nat) : (s.dieEvent die b).failedModules = s.failedModules := rfl
@[simp] theorem State.dieEvent_linkOut (s : State) (die b : Nat) : (s.dieEvent die b).linkOut = s.linkOut := rfl
@[simp] theorem State.dieEvent_time (s : State) (die b : Nat) : (s.dieEvent die b).time = s.time := rfl
@[simp] theorem State.dieEvent_cy (s : State) (die b : Nat) : (s.dieEvent die b).cy = s.cy := rfl
@[simp] theorem State.dieEvent_timeBehind (s : State) (die b : Nat) : (s.dieEvent die b).timeBehind = s.timeBehind := rfl
@[simp] theorem State.dieEvent_timeAhead (s : State) (die b : Nat) : (s.dieEvent die b).timeAhead = s.timeAhead := rfl
@[simp] theorem State.dieEvent_modnum (s : State) (die b : Nat) : (s.dieEvent die b).modnum = s.modnum := rfl
@[simp] theorem State.dieEvent_agenda (s : State) (die b : Nat) : (s.dieEvent die b).agenda = s.agenda := rfl
@[simp] theorem State.dieEvent_turns (s : State) (die b : Nat) : (s.dieEvent die b).turns = s.turns := rfl
@[simp] theorem State.dieEvent_cur (s : State) (die b : Nat) : (s.dieEvent die b).cur = s.cur := rfl
@[simp] theorem State.dieEvent_npc (s : State) (die b : Nat) : (s.dieEvent die b).npc = s.npc := rfl
@[simp] theorem State.dieEvent_iw (s : State) (die b : Nat) : (s.dieEvent die b).iw = s.iw := rfl
@[simp] theorem State.dieEvent_opCount (s : State) (die b : Nat) : (s.dieEvent die b).opCount = s.opCount := rfl
@[simp] theorem State.dieEvent_useCount (s : State) (die b : Nat) : (s.dieEvent die b).useCount = s.useCount := rfl
@[simp] theorem State.dieEvent_free (s : State) (die b : Nat) : (s.dieEvent die b).free = s.free := rfl
@[simp] theorem State.dieEvent_hostReply (s : State) (die b : Nat) : (s.dieEvent die b).hostReply = s.hostReply := rfl
@[simp] theorem State.dieEvent_heard (s : State) (die b : Nat) : (s.dieEvent die b).heard = s.heard := rfl
@[simp] theorem State.dieEvent_wipeNs (s : State) (die b : Nat) : (s.dieEvent die b).wipeNs = s.wipeNs := rfl

/-! ## State.writeN -/

@[simp] theorem State.writeN_mem (s : State) (a : Nat) (bs : List Byte) : (s.writeN a bs).mem = Memory.writeN s.mem a bs := rfl
@[simp] theorem State.writeN_ecc (s : State) (a : Nat) (bs : List Byte) : (s.writeN a bs).ecc = s.ecc := rfl
@[simp] theorem State.writeN_threads (s : State) (a : Nat) (bs : List Byte) : (s.writeN a bs).threads = s.threads := rfl
@[simp] theorem State.writeN_cores (s : State) (a : Nat) (bs : List Byte) : (s.writeN a bs).cores = s.cores := rfl
@[simp] theorem State.writeN_clusters (s : State) (a : Nat) (bs : List Byte) : (s.writeN a bs).clusters = s.clusters := rfl
@[simp] theorem State.writeN_dies (s : State) (a : Nat) (bs : List Byte) : (s.writeN a bs).dies = s.dies := rfl
@[simp] theorem State.writeN_ctxs (s : State) (a : Nat) (bs : List Byte) : (s.writeN a bs).ctxs = s.ctxs := rfl
@[simp] theorem State.writeN_lines (s : State) (a : Nat) (bs : List Byte) : (s.writeN a bs).lines = s.lines := rfl
@[simp] theorem State.writeN_owned (s : State) (a : Nat) (bs : List Byte) : (s.writeN a bs).owned = s.owned := rfl
@[simp] theorem State.writeN_staged (s : State) (a : Nat) (bs : List Byte) : (s.writeN a bs).staged = s.staged := rfl
@[simp] theorem State.writeN_gets (s : State) (a : Nat) (bs : List Byte) : (s.writeN a bs).gets = s.gets := rfl
@[simp] theorem State.writeN_starts (s : State) (a : Nat) (bs : List Byte) : (s.writeN a bs).starts = s.starts := rfl
@[simp] theorem State.writeN_sends (s : State) (a : Nat) (bs : List Byte) : (s.writeN a bs).sends = s.sends := rfl
@[simp] theorem State.writeN_engine (s : State) (a : Nat) (bs : List Byte) : (s.writeN a bs).engine = s.engine := rfl
@[simp] theorem State.writeN_beats (s : State) (a : Nat) (bs : List Byte) : (s.writeN a bs).beats = s.beats := rfl
@[simp] theorem State.writeN_life (s : State) (a : Nat) (bs : List Byte) : (s.writeN a bs).life = s.life := rfl
@[simp] theorem State.writeN_mgerr (s : State) (a : Nat) (bs : List Byte) : (s.writeN a bs).mgerr = s.mgerr := rfl
@[simp] theorem State.writeN_ports (s : State) (a : Nat) (bs : List Byte) : (s.writeN a bs).ports = s.ports := rfl
@[simp] theorem State.writeN_failedModules (s : State) (a : Nat) (bs : List Byte) : (s.writeN a bs).failedModules = s.failedModules := rfl
@[simp] theorem State.writeN_linkOut (s : State) (a : Nat) (bs : List Byte) : (s.writeN a bs).linkOut = s.linkOut := rfl
@[simp] theorem State.writeN_time (s : State) (a : Nat) (bs : List Byte) : (s.writeN a bs).time = s.time := rfl
@[simp] theorem State.writeN_cy (s : State) (a : Nat) (bs : List Byte) : (s.writeN a bs).cy = s.cy := rfl
@[simp] theorem State.writeN_timeBehind (s : State) (a : Nat) (bs : List Byte) : (s.writeN a bs).timeBehind = s.timeBehind := rfl
@[simp] theorem State.writeN_timeAhead (s : State) (a : Nat) (bs : List Byte) : (s.writeN a bs).timeAhead = s.timeAhead := rfl
@[simp] theorem State.writeN_modnum (s : State) (a : Nat) (bs : List Byte) : (s.writeN a bs).modnum = s.modnum := rfl
@[simp] theorem State.writeN_agenda (s : State) (a : Nat) (bs : List Byte) : (s.writeN a bs).agenda = s.agenda := rfl
@[simp] theorem State.writeN_turns (s : State) (a : Nat) (bs : List Byte) : (s.writeN a bs).turns = s.turns := rfl
@[simp] theorem State.writeN_cur (s : State) (a : Nat) (bs : List Byte) : (s.writeN a bs).cur = s.cur := rfl
@[simp] theorem State.writeN_npc (s : State) (a : Nat) (bs : List Byte) : (s.writeN a bs).npc = s.npc := rfl
@[simp] theorem State.writeN_iw (s : State) (a : Nat) (bs : List Byte) : (s.writeN a bs).iw = s.iw := rfl
@[simp] theorem State.writeN_opCount (s : State) (a : Nat) (bs : List Byte) : (s.writeN a bs).opCount = s.opCount := rfl
@[simp] theorem State.writeN_useCount (s : State) (a : Nat) (bs : List Byte) : (s.writeN a bs).useCount = s.useCount := rfl
@[simp] theorem State.writeN_free (s : State) (a : Nat) (bs : List Byte) : (s.writeN a bs).free = s.free := rfl
@[simp] theorem State.writeN_hostReply (s : State) (a : Nat) (bs : List Byte) : (s.writeN a bs).hostReply = s.hostReply := rfl
@[simp] theorem State.writeN_heard (s : State) (a : Nat) (bs : List Byte) : (s.writeN a bs).heard = s.heard := rfl
@[simp] theorem State.writeN_wipeNs (s : State) (a : Nat) (bs : List Byte) : (s.writeN a bs).wipeNs = s.wipeNs := rfl

/-! ## State.writeWord -/

@[simp] theorem State.writeWord_mem (s : State) (a : Nat) (w : Word) : (s.writeWord a w).mem = Memory.writeN s.mem a (bytesOf 8 w.toNat) := rfl
@[simp] theorem State.writeWord_ecc (s : State) (a : Nat) (w : Word) : (s.writeWord a w).ecc = s.ecc := rfl
@[simp] theorem State.writeWord_threads (s : State) (a : Nat) (w : Word) : (s.writeWord a w).threads = s.threads := rfl
@[simp] theorem State.writeWord_cores (s : State) (a : Nat) (w : Word) : (s.writeWord a w).cores = s.cores := rfl
@[simp] theorem State.writeWord_clusters (s : State) (a : Nat) (w : Word) : (s.writeWord a w).clusters = s.clusters := rfl
@[simp] theorem State.writeWord_dies (s : State) (a : Nat) (w : Word) : (s.writeWord a w).dies = s.dies := rfl
@[simp] theorem State.writeWord_ctxs (s : State) (a : Nat) (w : Word) : (s.writeWord a w).ctxs = s.ctxs := rfl
@[simp] theorem State.writeWord_lines (s : State) (a : Nat) (w : Word) : (s.writeWord a w).lines = s.lines := rfl
@[simp] theorem State.writeWord_owned (s : State) (a : Nat) (w : Word) : (s.writeWord a w).owned = s.owned := rfl
@[simp] theorem State.writeWord_staged (s : State) (a : Nat) (w : Word) : (s.writeWord a w).staged = s.staged := rfl
@[simp] theorem State.writeWord_gets (s : State) (a : Nat) (w : Word) : (s.writeWord a w).gets = s.gets := rfl
@[simp] theorem State.writeWord_starts (s : State) (a : Nat) (w : Word) : (s.writeWord a w).starts = s.starts := rfl
@[simp] theorem State.writeWord_sends (s : State) (a : Nat) (w : Word) : (s.writeWord a w).sends = s.sends := rfl
@[simp] theorem State.writeWord_engine (s : State) (a : Nat) (w : Word) : (s.writeWord a w).engine = s.engine := rfl
@[simp] theorem State.writeWord_beats (s : State) (a : Nat) (w : Word) : (s.writeWord a w).beats = s.beats := rfl
@[simp] theorem State.writeWord_life (s : State) (a : Nat) (w : Word) : (s.writeWord a w).life = s.life := rfl
@[simp] theorem State.writeWord_mgerr (s : State) (a : Nat) (w : Word) : (s.writeWord a w).mgerr = s.mgerr := rfl
@[simp] theorem State.writeWord_ports (s : State) (a : Nat) (w : Word) : (s.writeWord a w).ports = s.ports := rfl
@[simp] theorem State.writeWord_failedModules (s : State) (a : Nat) (w : Word) : (s.writeWord a w).failedModules = s.failedModules := rfl
@[simp] theorem State.writeWord_linkOut (s : State) (a : Nat) (w : Word) : (s.writeWord a w).linkOut = s.linkOut := rfl
@[simp] theorem State.writeWord_time (s : State) (a : Nat) (w : Word) : (s.writeWord a w).time = s.time := rfl
@[simp] theorem State.writeWord_cy (s : State) (a : Nat) (w : Word) : (s.writeWord a w).cy = s.cy := rfl
@[simp] theorem State.writeWord_timeBehind (s : State) (a : Nat) (w : Word) : (s.writeWord a w).timeBehind = s.timeBehind := rfl
@[simp] theorem State.writeWord_timeAhead (s : State) (a : Nat) (w : Word) : (s.writeWord a w).timeAhead = s.timeAhead := rfl
@[simp] theorem State.writeWord_modnum (s : State) (a : Nat) (w : Word) : (s.writeWord a w).modnum = s.modnum := rfl
@[simp] theorem State.writeWord_agenda (s : State) (a : Nat) (w : Word) : (s.writeWord a w).agenda = s.agenda := rfl
@[simp] theorem State.writeWord_turns (s : State) (a : Nat) (w : Word) : (s.writeWord a w).turns = s.turns := rfl
@[simp] theorem State.writeWord_cur (s : State) (a : Nat) (w : Word) : (s.writeWord a w).cur = s.cur := rfl
@[simp] theorem State.writeWord_npc (s : State) (a : Nat) (w : Word) : (s.writeWord a w).npc = s.npc := rfl
@[simp] theorem State.writeWord_iw (s : State) (a : Nat) (w : Word) : (s.writeWord a w).iw = s.iw := rfl
@[simp] theorem State.writeWord_opCount (s : State) (a : Nat) (w : Word) : (s.writeWord a w).opCount = s.opCount := rfl
@[simp] theorem State.writeWord_useCount (s : State) (a : Nat) (w : Word) : (s.writeWord a w).useCount = s.useCount := rfl
@[simp] theorem State.writeWord_free (s : State) (a : Nat) (w : Word) : (s.writeWord a w).free = s.free := rfl
@[simp] theorem State.writeWord_hostReply (s : State) (a : Nat) (w : Word) : (s.writeWord a w).hostReply = s.hostReply := rfl
@[simp] theorem State.writeWord_heard (s : State) (a : Nat) (w : Word) : (s.writeWord a w).heard = s.heard := rfl
@[simp] theorem State.writeWord_wipeNs (s : State) (a : Nat) (w : Word) : (s.writeWord a w).wipeNs = s.wipeNs := rfl

/-! ## State.writeLine -/

@[simp] theorem State.writeLine_mem (s : State) (a : Nat) (v : BitVec 512) : (s.writeLine a v).mem = Memory.writeN s.mem a (bytesOfLine v) := rfl
@[simp] theorem State.writeLine_ecc (s : State) (a : Nat) (v : BitVec 512) : (s.writeLine a v).ecc = s.ecc := rfl
@[simp] theorem State.writeLine_threads (s : State) (a : Nat) (v : BitVec 512) : (s.writeLine a v).threads = s.threads := rfl
@[simp] theorem State.writeLine_cores (s : State) (a : Nat) (v : BitVec 512) : (s.writeLine a v).cores = s.cores := rfl
@[simp] theorem State.writeLine_clusters (s : State) (a : Nat) (v : BitVec 512) : (s.writeLine a v).clusters = s.clusters := rfl
@[simp] theorem State.writeLine_dies (s : State) (a : Nat) (v : BitVec 512) : (s.writeLine a v).dies = s.dies := rfl
@[simp] theorem State.writeLine_ctxs (s : State) (a : Nat) (v : BitVec 512) : (s.writeLine a v).ctxs = s.ctxs := rfl
@[simp] theorem State.writeLine_lines (s : State) (a : Nat) (v : BitVec 512) : (s.writeLine a v).lines = s.lines := rfl
@[simp] theorem State.writeLine_owned (s : State) (a : Nat) (v : BitVec 512) : (s.writeLine a v).owned = s.owned := rfl
@[simp] theorem State.writeLine_staged (s : State) (a : Nat) (v : BitVec 512) : (s.writeLine a v).staged = s.staged := rfl
@[simp] theorem State.writeLine_gets (s : State) (a : Nat) (v : BitVec 512) : (s.writeLine a v).gets = s.gets := rfl
@[simp] theorem State.writeLine_starts (s : State) (a : Nat) (v : BitVec 512) : (s.writeLine a v).starts = s.starts := rfl
@[simp] theorem State.writeLine_sends (s : State) (a : Nat) (v : BitVec 512) : (s.writeLine a v).sends = s.sends := rfl
@[simp] theorem State.writeLine_engine (s : State) (a : Nat) (v : BitVec 512) : (s.writeLine a v).engine = s.engine := rfl
@[simp] theorem State.writeLine_beats (s : State) (a : Nat) (v : BitVec 512) : (s.writeLine a v).beats = s.beats := rfl
@[simp] theorem State.writeLine_life (s : State) (a : Nat) (v : BitVec 512) : (s.writeLine a v).life = s.life := rfl
@[simp] theorem State.writeLine_mgerr (s : State) (a : Nat) (v : BitVec 512) : (s.writeLine a v).mgerr = s.mgerr := rfl
@[simp] theorem State.writeLine_ports (s : State) (a : Nat) (v : BitVec 512) : (s.writeLine a v).ports = s.ports := rfl
@[simp] theorem State.writeLine_failedModules (s : State) (a : Nat) (v : BitVec 512) : (s.writeLine a v).failedModules = s.failedModules := rfl
@[simp] theorem State.writeLine_linkOut (s : State) (a : Nat) (v : BitVec 512) : (s.writeLine a v).linkOut = s.linkOut := rfl
@[simp] theorem State.writeLine_time (s : State) (a : Nat) (v : BitVec 512) : (s.writeLine a v).time = s.time := rfl
@[simp] theorem State.writeLine_cy (s : State) (a : Nat) (v : BitVec 512) : (s.writeLine a v).cy = s.cy := rfl
@[simp] theorem State.writeLine_timeBehind (s : State) (a : Nat) (v : BitVec 512) : (s.writeLine a v).timeBehind = s.timeBehind := rfl
@[simp] theorem State.writeLine_timeAhead (s : State) (a : Nat) (v : BitVec 512) : (s.writeLine a v).timeAhead = s.timeAhead := rfl
@[simp] theorem State.writeLine_modnum (s : State) (a : Nat) (v : BitVec 512) : (s.writeLine a v).modnum = s.modnum := rfl
@[simp] theorem State.writeLine_agenda (s : State) (a : Nat) (v : BitVec 512) : (s.writeLine a v).agenda = s.agenda := rfl
@[simp] theorem State.writeLine_turns (s : State) (a : Nat) (v : BitVec 512) : (s.writeLine a v).turns = s.turns := rfl
@[simp] theorem State.writeLine_cur (s : State) (a : Nat) (v : BitVec 512) : (s.writeLine a v).cur = s.cur := rfl
@[simp] theorem State.writeLine_npc (s : State) (a : Nat) (v : BitVec 512) : (s.writeLine a v).npc = s.npc := rfl
@[simp] theorem State.writeLine_iw (s : State) (a : Nat) (v : BitVec 512) : (s.writeLine a v).iw = s.iw := rfl
@[simp] theorem State.writeLine_opCount (s : State) (a : Nat) (v : BitVec 512) : (s.writeLine a v).opCount = s.opCount := rfl
@[simp] theorem State.writeLine_useCount (s : State) (a : Nat) (v : BitVec 512) : (s.writeLine a v).useCount = s.useCount := rfl
@[simp] theorem State.writeLine_free (s : State) (a : Nat) (v : BitVec 512) : (s.writeLine a v).free = s.free := rfl
@[simp] theorem State.writeLine_hostReply (s : State) (a : Nat) (v : BitVec 512) : (s.writeLine a v).hostReply = s.hostReply := rfl
@[simp] theorem State.writeLine_heard (s : State) (a : Nat) (v : BitVec 512) : (s.writeLine a v).heard = s.heard := rfl
@[simp] theorem State.writeLine_wipeNs (s : State) (a : Nat) (v : BitVec 512) : (s.writeLine a v).wipeNs = s.wipeNs := rfl

/-! ## State.setLine -/

@[simp] theorem State.setLine_mem (s : State) (l : CLine) : (s.setLine l).mem = s.mem := rfl
@[simp] theorem State.setLine_ecc (s : State) (l : CLine) : (s.setLine l).ecc = s.ecc := rfl
@[simp] theorem State.setLine_threads (s : State) (l : CLine) : (s.setLine l).threads = s.threads := rfl
@[simp] theorem State.setLine_cores (s : State) (l : CLine) : (s.setLine l).cores = s.cores := rfl
@[simp] theorem State.setLine_clusters (s : State) (l : CLine) : (s.setLine l).clusters = s.clusters := rfl
@[simp] theorem State.setLine_dies (s : State) (l : CLine) : (s.setLine l).dies = s.dies := rfl
@[simp] theorem State.setLine_ctxs (s : State) (l : CLine) : (s.setLine l).ctxs = s.ctxs := rfl
@[simp] theorem State.setLine_owned (s : State) (l : CLine) : (s.setLine l).owned = s.owned := rfl
@[simp] theorem State.setLine_staged (s : State) (l : CLine) : (s.setLine l).staged = s.staged := rfl
@[simp] theorem State.setLine_gets (s : State) (l : CLine) : (s.setLine l).gets = s.gets := rfl
@[simp] theorem State.setLine_starts (s : State) (l : CLine) : (s.setLine l).starts = s.starts := rfl
@[simp] theorem State.setLine_sends (s : State) (l : CLine) : (s.setLine l).sends = s.sends := rfl
@[simp] theorem State.setLine_engine (s : State) (l : CLine) : (s.setLine l).engine = s.engine := rfl
@[simp] theorem State.setLine_beats (s : State) (l : CLine) : (s.setLine l).beats = s.beats := rfl
@[simp] theorem State.setLine_life (s : State) (l : CLine) : (s.setLine l).life = s.life := rfl
@[simp] theorem State.setLine_mgerr (s : State) (l : CLine) : (s.setLine l).mgerr = s.mgerr := rfl
@[simp] theorem State.setLine_ports (s : State) (l : CLine) : (s.setLine l).ports = s.ports := rfl
@[simp] theorem State.setLine_failedModules (s : State) (l : CLine) : (s.setLine l).failedModules = s.failedModules := rfl
@[simp] theorem State.setLine_linkOut (s : State) (l : CLine) : (s.setLine l).linkOut = s.linkOut := rfl
@[simp] theorem State.setLine_time (s : State) (l : CLine) : (s.setLine l).time = s.time := rfl
@[simp] theorem State.setLine_cy (s : State) (l : CLine) : (s.setLine l).cy = s.cy := rfl
@[simp] theorem State.setLine_timeBehind (s : State) (l : CLine) : (s.setLine l).timeBehind = s.timeBehind := rfl
@[simp] theorem State.setLine_timeAhead (s : State) (l : CLine) : (s.setLine l).timeAhead = s.timeAhead := rfl
@[simp] theorem State.setLine_modnum (s : State) (l : CLine) : (s.setLine l).modnum = s.modnum := rfl
@[simp] theorem State.setLine_agenda (s : State) (l : CLine) : (s.setLine l).agenda = s.agenda := rfl
@[simp] theorem State.setLine_turns (s : State) (l : CLine) : (s.setLine l).turns = s.turns := rfl
@[simp] theorem State.setLine_cur (s : State) (l : CLine) : (s.setLine l).cur = s.cur := rfl
@[simp] theorem State.setLine_npc (s : State) (l : CLine) : (s.setLine l).npc = s.npc := rfl
@[simp] theorem State.setLine_iw (s : State) (l : CLine) : (s.setLine l).iw = s.iw := rfl
@[simp] theorem State.setLine_opCount (s : State) (l : CLine) : (s.setLine l).opCount = s.opCount := rfl
@[simp] theorem State.setLine_useCount (s : State) (l : CLine) : (s.setLine l).useCount = s.useCount := rfl
@[simp] theorem State.setLine_free (s : State) (l : CLine) : (s.setLine l).free = s.free := rfl
@[simp] theorem State.setLine_hostReply (s : State) (l : CLine) : (s.setLine l).hostReply = s.hostReply := rfl
@[simp] theorem State.setLine_heard (s : State) (l : CLine) : (s.setLine l).heard = s.heard := rfl
@[simp] theorem State.setLine_wipeNs (s : State) (l : CLine) : (s.setLine l).wipeNs = s.wipeNs := rfl

/-! ## Reading components after an update -/

@[simp] theorem State.setThread_read_core (s : State) (t : Nat) (x : Thread) (k : Nat) : (s.setThread t x).core k = s.core k := rfl
@[simp] theorem State.setThread_read_cluster (s : State) (t : Nat) (x : Thread) (k : Nat) : (s.setThread t x).cluster k = s.cluster k := rfl
@[simp] theorem State.setThread_read_die (s : State) (t : Nat) (x : Thread) (k : Nat) : (s.setThread t x).die k = s.die k := rfl
@[simp] theorem State.setThread_read_ctx (s : State) (t : Nat) (x : Thread) (k : Nat) : (s.setThread t x).ctx k = s.ctx k := rfl
@[simp] theorem State.modThread_read_core (s : State) (t : Nat) (f : Thread → Thread) (k : Nat) : (s.modThread t f).core k = s.core k := rfl
@[simp] theorem State.modThread_read_cluster (s : State) (t : Nat) (f : Thread → Thread) (k : Nat) : (s.modThread t f).cluster k = s.cluster k := rfl
@[simp] theorem State.modThread_read_die (s : State) (t : Nat) (f : Thread → Thread) (k : Nat) : (s.modThread t f).die k = s.die k := rfl
@[simp] theorem State.modThread_read_ctx (s : State) (t : Nat) (f : Thread → Thread) (k : Nat) : (s.modThread t f).ctx k = s.ctx k := rfl
@[simp] theorem State.modTh_read_core (s : State) (f : Thread → Thread) (k : Nat) : (s.modTh f).core k = s.core k := rfl
@[simp] theorem State.modTh_read_cluster (s : State) (f : Thread → Thread) (k : Nat) : (s.modTh f).cluster k = s.cluster k := rfl
@[simp] theorem State.modTh_read_die (s : State) (f : Thread → Thread) (k : Nat) : (s.modTh f).die k = s.die k := rfl
@[simp] theorem State.modTh_read_ctx (s : State) (f : Thread → Thread) (k : Nat) : (s.modTh f).ctx k = s.ctx k := rfl
@[simp] theorem State.setCore_read_thread (s : State) (c : Nat) (x : Core) (k : Nat) : (s.setCore c x).thread k = s.thread k := rfl
@[simp] theorem State.setCore_read_cluster (s : State) (c : Nat) (x : Core) (k : Nat) : (s.setCore c x).cluster k = s.cluster k := rfl
@[simp] theorem State.setCore_read_die (s : State) (c : Nat) (x : Core) (k : Nat) : (s.setCore c x).die k = s.die k := rfl
@[simp] theorem State.setCore_read_ctx (s : State) (c : Nat) (x : Core) (k : Nat) : (s.setCore c x).ctx k = s.ctx k := rfl
@[simp] theorem State.modCore_read_thread (s : State) (c : Nat) (f : Core → Core) (k : Nat) : (s.modCore c f).thread k = s.thread k := rfl
@[simp] theorem State.modCore_read_cluster (s : State) (c : Nat) (f : Core → Core) (k : Nat) : (s.modCore c f).cluster k = s.cluster k := rfl
@[simp] theorem State.modCore_read_die (s : State) (c : Nat) (f : Core → Core) (k : Nat) : (s.modCore c f).die k = s.die k := rfl
@[simp] theorem State.modCore_read_ctx (s : State) (c : Nat) (f : Core → Core) (k : Nat) : (s.modCore c f).ctx k = s.ctx k := rfl
@[simp] theorem State.modCluster_read_thread (s : State) (c : Nat) (f : Cluster → Cluster) (k : Nat) : (s.modCluster c f).thread k = s.thread k := rfl
@[simp] theorem State.modCluster_read_core (s : State) (c : Nat) (f : Cluster → Cluster) (k : Nat) : (s.modCluster c f).core k = s.core k := rfl
@[simp] theorem State.modCluster_read_die (s : State) (c : Nat) (f : Cluster → Cluster) (k : Nat) : (s.modCluster c f).die k = s.die k := rfl
@[simp] theorem State.modCluster_read_ctx (s : State) (c : Nat) (f : Cluster → Cluster) (k : Nat) : (s.modCluster c f).ctx k = s.ctx k := rfl
@[simp] theorem State.setDie_read_thread (s : State) (d : Nat) (x : Die) (k : Nat) : (s.setDie d x).thread k = s.thread k := rfl
@[simp] theorem State.setDie_read_core (s : State) (d : Nat) (x : Die) (k : Nat) : (s.setDie d x).core k = s.core k := rfl
@[simp] theorem State.setDie_read_cluster (s : State) (d : Nat) (x : Die) (k : Nat) : (s.setDie d x).cluster k = s.cluster k := rfl
@[simp] theorem State.setDie_read_ctx (s : State) (d : Nat) (x : Die) (k : Nat) : (s.setDie d x).ctx k = s.ctx k := rfl
@[simp] theorem State.modDie_read_thread (s : State) (d : Nat) (f : Die → Die) (k : Nat) : (s.modDie d f).thread k = s.thread k := rfl
@[simp] theorem State.modDie_read_core (s : State) (d : Nat) (f : Die → Die) (k : Nat) : (s.modDie d f).core k = s.core k := rfl
@[simp] theorem State.modDie_read_cluster (s : State) (d : Nat) (f : Die → Die) (k : Nat) : (s.modDie d f).cluster k = s.cluster k := rfl
@[simp] theorem State.modDie_read_ctx (s : State) (d : Nat) (f : Die → Die) (k : Nat) : (s.modDie d f).ctx k = s.ctx k := rfl
@[simp] theorem State.setCtx_read_thread (s : State) (c : Nat) (x : Ctx) (k : Nat) : (s.setCtx c x).thread k = s.thread k := rfl
@[simp] theorem State.setCtx_read_core (s : State) (c : Nat) (x : Ctx) (k : Nat) : (s.setCtx c x).core k = s.core k := rfl
@[simp] theorem State.setCtx_read_cluster (s : State) (c : Nat) (x : Ctx) (k : Nat) : (s.setCtx c x).cluster k = s.cluster k := rfl
@[simp] theorem State.setCtx_read_die (s : State) (c : Nat) (x : Ctx) (k : Nat) : (s.setCtx c x).die k = s.die k := rfl
@[simp] theorem State.modCtx_read_thread (s : State) (c : Nat) (f : Ctx → Ctx) (k : Nat) : (s.modCtx c f).thread k = s.thread k := rfl
@[simp] theorem State.modCtx_read_core (s : State) (c : Nat) (f : Ctx → Ctx) (k : Nat) : (s.modCtx c f).core k = s.core k := rfl
@[simp] theorem State.modCtx_read_cluster (s : State) (c : Nat) (f : Ctx → Ctx) (k : Nat) : (s.modCtx c f).cluster k = s.cluster k := rfl
@[simp] theorem State.modCtx_read_die (s : State) (c : Nat) (f : Ctx → Ctx) (k : Nat) : (s.modCtx c f).die k = s.die k := rfl
@[simp] theorem State.modDctx_read_thread (s : State) (d c : Nat) (f : DieCtx → DieCtx) (k : Nat) : (s.modDctx d c f).thread k = s.thread k := rfl
@[simp] theorem State.modDctx_read_core (s : State) (d c : Nat) (f : DieCtx → DieCtx) (k : Nat) : (s.modDctx d c f).core k = s.core k := rfl
@[simp] theorem State.modDctx_read_cluster (s : State) (d c : Nat) (f : DieCtx → DieCtx) (k : Nat) : (s.modDctx d c f).cluster k = s.cluster k := rfl
@[simp] theorem State.modDctx_read_die (s : State) (d c : Nat) (f : DieCtx → DieCtx) (k : Nat) : (s.modDctx d c f).die k = s.die k := rfl
@[simp] theorem State.modJob_read_thread (s : State) (c : Nat) (f : Job → Job) (k : Nat) : (s.modJob c f).thread k = s.thread k := rfl
@[simp] theorem State.modJob_read_core (s : State) (c : Nat) (f : Job → Job) (k : Nat) : (s.modJob c f).core k = s.core k := rfl
@[simp] theorem State.modJob_read_cluster (s : State) (c : Nat) (f : Job → Job) (k : Nat) : (s.modJob c f).cluster k = s.cluster k := rfl
@[simp] theorem State.modJob_read_die (s : State) (c : Nat) (f : Job → Job) (k : Nat) : (s.modJob c f).die k = s.die k := rfl
@[simp] theorem State.count_read_thread (s : State) (ctx idx n : Nat) (k : Nat) : (s.count ctx idx n).thread k = s.thread k := rfl
@[simp] theorem State.count_read_core (s : State) (ctx idx n : Nat) (k : Nat) : (s.count ctx idx n).core k = s.core k := rfl
@[simp] theorem State.count_read_cluster (s : State) (ctx idx n : Nat) (k : Nat) : (s.count ctx idx n).cluster k = s.cluster k := rfl
@[simp] theorem State.count_read_die (s : State) (ctx idx n : Nat) (k : Nat) : (s.count ctx idx n).die k = s.die k := rfl
@[simp] theorem State.vote_read_thread (s : State) (ctx b : Nat) (k : Nat) : (s.vote ctx b).thread k = s.thread k := rfl
@[simp] theorem State.vote_read_core (s : State) (ctx b : Nat) (k : Nat) : (s.vote ctx b).core k = s.core k := rfl
@[simp] theorem State.vote_read_cluster (s : State) (ctx b : Nat) (k : Nat) : (s.vote ctx b).cluster k = s.cluster k := rfl
@[simp] theorem State.vote_read_die (s : State) (ctx b : Nat) (k : Nat) : (s.vote ctx b).die k = s.die k := rfl
@[simp] theorem State.dieEvent_read_thread (s : State) (die b : Nat) (k : Nat) : (s.dieEvent die b).thread k = s.thread k := rfl
@[simp] theorem State.dieEvent_read_core (s : State) (die b : Nat) (k : Nat) : (s.dieEvent die b).core k = s.core k := rfl
@[simp] theorem State.dieEvent_read_cluster (s : State) (die b : Nat) (k : Nat) : (s.dieEvent die b).cluster k = s.cluster k := rfl
@[simp] theorem State.dieEvent_read_ctx (s : State) (die b : Nat) (k : Nat) : (s.dieEvent die b).ctx k = s.ctx k := rfl
@[simp] theorem State.writeN_read_thread (s : State) (a : Nat) (bs : List Byte) (k : Nat) : (s.writeN a bs).thread k = s.thread k := rfl
@[simp] theorem State.writeN_read_core (s : State) (a : Nat) (bs : List Byte) (k : Nat) : (s.writeN a bs).core k = s.core k := rfl
@[simp] theorem State.writeN_read_cluster (s : State) (a : Nat) (bs : List Byte) (k : Nat) : (s.writeN a bs).cluster k = s.cluster k := rfl
@[simp] theorem State.writeN_read_die (s : State) (a : Nat) (bs : List Byte) (k : Nat) : (s.writeN a bs).die k = s.die k := rfl
@[simp] theorem State.writeN_read_ctx (s : State) (a : Nat) (bs : List Byte) (k : Nat) : (s.writeN a bs).ctx k = s.ctx k := rfl
@[simp] theorem State.writeWord_read_thread (s : State) (a : Nat) (w : Word) (k : Nat) : (s.writeWord a w).thread k = s.thread k := rfl
@[simp] theorem State.writeWord_read_core (s : State) (a : Nat) (w : Word) (k : Nat) : (s.writeWord a w).core k = s.core k := rfl
@[simp] theorem State.writeWord_read_cluster (s : State) (a : Nat) (w : Word) (k : Nat) : (s.writeWord a w).cluster k = s.cluster k := rfl
@[simp] theorem State.writeWord_read_die (s : State) (a : Nat) (w : Word) (k : Nat) : (s.writeWord a w).die k = s.die k := rfl
@[simp] theorem State.writeWord_read_ctx (s : State) (a : Nat) (w : Word) (k : Nat) : (s.writeWord a w).ctx k = s.ctx k := rfl
@[simp] theorem State.writeLine_read_thread (s : State) (a : Nat) (v : BitVec 512) (k : Nat) : (s.writeLine a v).thread k = s.thread k := rfl
@[simp] theorem State.writeLine_read_core (s : State) (a : Nat) (v : BitVec 512) (k : Nat) : (s.writeLine a v).core k = s.core k := rfl
@[simp] theorem State.writeLine_read_cluster (s : State) (a : Nat) (v : BitVec 512) (k : Nat) : (s.writeLine a v).cluster k = s.cluster k := rfl
@[simp] theorem State.writeLine_read_die (s : State) (a : Nat) (v : BitVec 512) (k : Nat) : (s.writeLine a v).die k = s.die k := rfl
@[simp] theorem State.writeLine_read_ctx (s : State) (a : Nat) (v : BitVec 512) (k : Nat) : (s.writeLine a v).ctx k = s.ctx k := rfl
@[simp] theorem State.setLine_read_thread (s : State) (l : CLine) (k : Nat) : (s.setLine l).thread k = s.thread k := rfl
@[simp] theorem State.setLine_read_core (s : State) (l : CLine) (k : Nat) : (s.setLine l).core k = s.core k := rfl
@[simp] theorem State.setLine_read_cluster (s : State) (l : CLine) (k : Nat) : (s.setLine l).cluster k = s.cluster k := rfl
@[simp] theorem State.setLine_read_die (s : State) (l : CLine) (k : Nat) : (s.setLine l).die k = s.die k := rfl
@[simp] theorem State.setLine_read_ctx (s : State) (l : CLine) (k : Nat) : (s.setLine l).ctx k = s.ctx k := rfl

@[simp] theorem State.setThread_same (s : State) (k : Nat) (x : Thread) : (s.setThread k x).thread k = x :=
  Table.get_set_same _ _ _ _
theorem State.setThread_other (s : State) {k j : Nat} (x : Thread) (h : j ≠ k) : (s.setThread k x).thread j = s.thread j :=
  Table.get_set_other _ _ _ h
@[simp] theorem State.modThread_same (s : State) (k : Nat) (f : Thread → Thread) : (s.modThread k f).thread k = f (s.thread k) :=
  Table.get_set_same _ _ _ _
theorem State.modThread_other (s : State) {k j : Nat} (f : Thread → Thread) (h : j ≠ k) : (s.modThread k f).thread j = s.thread j :=
  Table.get_set_other _ _ _ h
@[simp] theorem State.setCore_same (s : State) (k : Nat) (x : Core) : (s.setCore k x).core k = x :=
  Table.get_set_same _ _ _ _
theorem State.setCore_other (s : State) {k j : Nat} (x : Core) (h : j ≠ k) : (s.setCore k x).core j = s.core j :=
  Table.get_set_other _ _ _ h
@[simp] theorem State.modCore_same (s : State) (k : Nat) (f : Core → Core) : (s.modCore k f).core k = f (s.core k) :=
  Table.get_set_same _ _ _ _
theorem State.modCore_other (s : State) {k j : Nat} (f : Core → Core) (h : j ≠ k) : (s.modCore k f).core j = s.core j :=
  Table.get_set_other _ _ _ h
@[simp] theorem State.setDie_same (s : State) (k : Nat) (x : Die) : (s.setDie k x).die k = x :=
  Table.get_set_same _ _ _ _
theorem State.setDie_other (s : State) {k j : Nat} (x : Die) (h : j ≠ k) : (s.setDie k x).die j = s.die j :=
  Table.get_set_other _ _ _ h
@[simp] theorem State.modDie_same (s : State) (k : Nat) (f : Die → Die) : (s.modDie k f).die k = f (s.die k) :=
  Table.get_set_same _ _ _ _
theorem State.modDie_other (s : State) {k j : Nat} (f : Die → Die) (h : j ≠ k) : (s.modDie k f).die j = s.die j :=
  Table.get_set_other _ _ _ h
@[simp] theorem State.setCtx_same (s : State) (k : Nat) (x : Ctx) : (s.setCtx k x).ctx k = x :=
  Table.get_set_same _ _ _ _
theorem State.setCtx_other (s : State) {k j : Nat} (x : Ctx) (h : j ≠ k) : (s.setCtx k x).ctx j = s.ctx j :=
  Table.get_set_other _ _ _ h
@[simp] theorem State.modCtx_same (s : State) (k : Nat) (f : Ctx → Ctx) : (s.modCtx k f).ctx k = f (s.ctx k) :=
  Table.get_set_same _ _ _ _
theorem State.modCtx_other (s : State) {k j : Nat} (f : Ctx → Ctx) (h : j ≠ k) : (s.modCtx k f).ctx j = s.ctx j :=
  Table.get_set_other _ _ _ h
@[simp] theorem State.modCluster_same (s : State) (k : Nat) (f : Cluster → Cluster) :
    (s.modCluster k f).cluster k = f (s.cluster k) := Table.get_set_same _ _ _ _
theorem State.modCluster_other (s : State) {k j : Nat} (f : Cluster → Cluster) (h : j ≠ k) :
    (s.modCluster k f).cluster j = s.cluster j := Table.get_set_other _ _ _ h
@[simp] theorem State.modTh_same (s : State) (f : Thread → Thread) : (s.modTh f).th = f s.th :=
  Table.get_set_same _ _ _ _
theorem State.modTh_other (s : State) {j : Nat} (f : Thread → Thread) (h : j ≠ s.cur) :
    (s.modTh f).thread j = s.thread j := Table.get_set_other _ _ _ h
@[simp] theorem State.modCtx_th (s : State) (c : Nat) (f : Ctx → Ctx) : (s.modCtx c f).th = s.th := rfl
@[simp] theorem State.modDctx_th (s : State) (d c : Nat) (f : DieCtx → DieCtx) : (s.modDctx d c f).th = s.th := rfl
@[simp] theorem State.modJob_th (s : State) (c : Nat) (f : Job → Job) : (s.modJob c f).th = s.th := rfl
@[simp] theorem State.count_th (s : State) (ctx idx n : Nat) : (s.count ctx idx n).th = s.th := rfl
@[simp] theorem State.vote_th (s : State) (ctx b : Nat) : (s.vote ctx b).th = s.th := rfl
@[simp] theorem State.setCtx_th (s : State) (c : Nat) (x : Ctx) : (s.setCtx c x).th = s.th := rfl
@[simp] theorem State.modCore_th (s : State) (c : Nat) (f : Core → Core) : (s.modCore c f).th = s.th := rfl
@[simp] theorem State.setCore_th (s : State) (c : Nat) (x : Core) : (s.setCore c x).th = s.th := rfl
@[simp] theorem State.modDie_th (s : State) (d : Nat) (f : Die → Die) : (s.modDie d f).th = s.th := rfl
@[simp] theorem State.setDie_th (s : State) (d : Nat) (x : Die) : (s.setDie d x).th = s.th := rfl
@[simp] theorem State.dieEvent_th (s : State) (die b : Nat) : (s.dieEvent die b).th = s.th := rfl
@[simp] theorem State.modCluster_th (s : State) (c : Nat) (f : Cluster → Cluster) : (s.modCluster c f).th = s.th := rfl
@[simp] theorem State.writeN_th (s : State) (a : Nat) (bs : List Byte) : (s.writeN a bs).th = s.th := rfl
@[simp] theorem State.writeWord_th (s : State) (a : Nat) (w : Word) : (s.writeWord a w).th = s.th := rfl
@[simp] theorem State.writeLine_th (s : State) (a : Nat) (v : BitVec 512) : (s.writeLine a v).th = s.th := rfl

/-! ## Registers of a thread -/

@[simp] theorem Thread.wg_st (th : Thread) (r : BitVec 5) (v : Word) : (th.wg r v).st = th.st := by unfold Thread.wg; split <;> rfl
@[simp] theorem Thread.wg_wait (th : Thread) (r : BitVec 5) (v : Word) : (th.wg r v).wait = th.wait := by unfold Thread.wg; split <;> rfl
@[simp] theorem Thread.wg_ctx (th : Thread) (r : BitVec 5) (v : Word) : (th.wg r v).ctx = th.ctx := by unfold Thread.wg; split <;> rfl
@[simp] theorem Thread.wg_pc (th : Thread) (r : BitVec 5) (v : Word) : (th.wg r v).pc = th.pc := by unfold Thread.wg; split <;> rfl
@[simp] theorem Thread.wg_mode (th : Thread) (r : BitVec 5) (v : Word) : (th.wg r v).mode = th.mode := by unfold Thread.wg; split <;> rfl
@[simp] theorem Thread.wg_ramo (th : Thread) (r : BitVec 5) (v : Word) : (th.wg r v).ramo = th.ramo := by unfold Thread.wg; split <;> rfl
@[simp] theorem Thread.wg_v (th : Thread) (r : BitVec 5) (v : Word) : (th.wg r v).v = th.v := by unfold Thread.wg; split <;> rfl
@[simp] theorem Thread.wg_vFull (th : Thread) (r : BitVec 5) (v : Word) : (th.wg r v).vFull = th.vFull := by unfold Thread.wg; split <;> rfl
@[simp] theorem Thread.wg_m (th : Thread) (r : BitVec 5) (v : Word) : (th.wg r v).m = th.m := by unfold Thread.wg; split <;> rfl
@[simp] theorem Thread.wg_q (th : Thread) (r : BitVec 5) (v : Word) : (th.wg r v).q = th.q := by unfold Thread.wg; split <;> rfl
@[simp] theorem Thread.wg_lc (th : Thread) (r : BitVec 5) (v : Word) : (th.wg r v).lc = th.lc := by unfold Thread.wg; split <;> rfl
@[simp] theorem Thread.wg_td (th : Thread) (r : BitVec 5) (v : Word) : (th.wg r v).td = th.td := by unfold Thread.wg; split <;> rfl
@[simp] theorem Thread.wg_seq (th : Thread) (r : BitVec 5) (v : Word) : (th.wg r v).seq = th.seq := by unfold Thread.wg; split <;> rfl
@[simp] theorem Thread.wg_vhalt (th : Thread) (r : BitVec 5) (v : Word) : (th.wg r v).vhalt = th.vhalt := by unfold Thread.wg; split <;> rfl
@[simp] theorem Thread.wg_image (th : Thread) (r : BitVec 5) (v : Word) : (th.wg r v).image = th.image := by unfold Thread.wg; split <;> rfl
@[simp] theorem Thread.wg_sb (th : Thread) (r : BitVec 5) (v : Word) : (th.wg r v).sb = th.sb := by unfold Thread.wg; split <;> rfl
@[simp] theorem Thread.wg_farSeq (th : Thread) (r : BitVec 5) (v : Word) : (th.wg r v).farSeq = th.farSeq := by unfold Thread.wg; split <;> rfl
@[simp] theorem Thread.wg_rm (th : Thread) (r : BitVec 5) (v : Word) : (th.wg r v).rm = th.rm := by unfold Thread.wg; split <;> rfl
@[simp] theorem Thread.wg_fflags (th : Thread) (r : BitVec 5) (v : Word) : (th.wg r v).fflags = th.fflags := by unfold Thread.wg; split <;> rfl
@[simp] theorem Thread.wg_prng (th : Thread) (r : BitVec 5) (v : Word) : (th.wg r v).prng = th.prng := by unfold Thread.wg; split <;> rfl
@[simp] theorem Thread.wg_spovf (th : Thread) (r : BitVec 5) (v : Word) : (th.wg r v).spovf = th.spovf := by unfold Thread.wg; split <;> rfl
@[simp] theorem Thread.wg_xfrom (th : Thread) (r : BitVec 5) (v : Word) : (th.wg r v).xfrom = th.xfrom := by unfold Thread.wg; split <;> rfl
@[simp] theorem Thread.wg_came (th : Thread) (r : BitVec 5) (v : Word) : (th.wg r v).came = th.came := by unfold Thread.wg; split <;> rfl
@[simp] theorem Thread.wg_cameBr (th : Thread) (r : BitVec 5) (v : Word) : (th.wg r v).cameBr = th.cameBr := by unfold Thread.wg; split <;> rfl
@[simp] theorem Thread.wg_upBusy (th : Thread) (r : BitVec 5) (v : Word) : (th.wg r v).upBusy = th.upBusy := by unfold Thread.wg; split <;> rfl
@[simp] theorem Thread.wg_vepc (th : Thread) (r : BitVec 5) (v : Word) : (th.wg r v).vepc = th.vepc := by unfold Thread.wg; split <;> rfl
@[simp] theorem Thread.wg_vtElem (th : Thread) (r : BitVec 5) (v : Word) : (th.wg r v).vtElem = th.vtElem := by unfold Thread.wg; split <;> rfl
@[simp] theorem Thread.wg_vtLvl (th : Thread) (r : BitVec 5) (v : Word) : (th.wg r v).vtLvl = th.vtLvl := by unfold Thread.wg; split <;> rfl
@[simp] theorem Thread.wg_vtEntry (th : Thread) (r : BitVec 5) (v : Word) : (th.wg r v).vtEntry = th.vtEntry := by unfold Thread.wg; split <;> rfl
@[simp] theorem Thread.wg_strap (th : Thread) (r : BitVec 5) (v : Word) : (th.wg r v).strap = th.strap := by unfold Thread.wg; split <;> rfl
@[simp] theorem Thread.wg_mtrap (th : Thread) (r : BitVec 5) (v : Word) : (th.wg r v).mtrap = th.mtrap := by unfold Thread.wg; split <;> rfl
@[simp] theorem Thread.wg_arr (th : Thread) (r : BitVec 5) (v : Word) : (th.wg r v).arr = th.arr := by unfold Thread.wg; split <;> rfl
@[simp] theorem Thread.wg_pendVF (th : Thread) (r : BitVec 5) (v : Word) : (th.wg r v).pendVF = th.pendVF := by unfold Thread.wg; split <;> rfl
@[simp] theorem Thread.wg_pendRM (th : Thread) (r : BitVec 5) (v : Word) : (th.wg r v).pendRM = th.pendRM := by unfold Thread.wg; split <;> rfl
@[simp] theorem Thread.wg_sleepEnd (th : Thread) (r : BitVec 5) (v : Word) : (th.wg r v).sleepEnd = th.sleepEnd := by unfold Thread.wg; split <;> rfl
@[simp] theorem Thread.wg_parkNpc (th : Thread) (r : BitVec 5) (v : Word) : (th.wg r v).parkNpc = th.parkNpc := by unfold Thread.wg; split <;> rfl
@[simp] theorem Thread.wg_startNs (th : Thread) (r : BitVec 5) (v : Word) : (th.wg r v).startNs = th.startNs := by unfold Thread.wg; split <;> rfl
@[simp] theorem Thread.wg_startC (th : Thread) (r : BitVec 5) (v : Word) : (th.wg r v).startC = th.startC := by unfold Thread.wg; split <;> rfl
@[simp] theorem Thread.wg_startH (th : Thread) (r : BitVec 5) (v : Word) : (th.wg r v).startH = th.startH := by unfold Thread.wg; split <;> rfl
@[simp] theorem Thread.wg_heldRec (th : Thread) (r : BitVec 5) (v : Word) : (th.wg r v).heldRec = th.heldRec := by unfold Thread.wg; split <;> rfl
@[simp] theorem Thread.wg_tickets (th : Thread) (r : BitVec 5) (v : Word) : (th.wg r v).tickets = th.tickets := by unfold Thread.wg; split <;> rfl
@[simp] theorem Thread.wg_stall (th : Thread) (r : BitVec 5) (v : Word) : (th.wg r v).stall = th.stall := by unfold Thread.wg; split <;> rfl
@[simp] theorem Thread.wg_sbStall (th : Thread) (r : BitVec 5) (v : Word) : (th.wg r v).sbStall = th.sbStall := by unfold Thread.wg; split <;> rfl
@[simp] theorem Thread.wg_began (th : Thread) (r : BitVec 5) (v : Word) : (th.wg r v).began = th.began := by unfold Thread.wg; split <;> rfl
@[simp] theorem Thread.wg_qEcc (th : Thread) (r : BitVec 5) (v : Word) : (th.wg r v).qEcc = th.qEcc := by unfold Thread.wg; split <;> rfl
@[simp] theorem Thread.wg_seqEcc (th : Thread) (r : BitVec 5) (v : Word) : (th.wg r v).seqEcc = th.seqEcc := by unfold Thread.wg; split <;> rfl

@[simp] theorem Thread.emptyG_st (th : Thread) (r : BitVec 5) : (th.emptyG r).st = th.st := by unfold Thread.emptyG; split <;> rfl
@[simp] theorem Thread.emptyG_wait (th : Thread) (r : BitVec 5) : (th.emptyG r).wait = th.wait := by unfold Thread.emptyG; split <;> rfl
@[simp] theorem Thread.emptyG_ctx (th : Thread) (r : BitVec 5) : (th.emptyG r).ctx = th.ctx := by unfold Thread.emptyG; split <;> rfl
@[simp] theorem Thread.emptyG_pc (th : Thread) (r : BitVec 5) : (th.emptyG r).pc = th.pc := by unfold Thread.emptyG; split <;> rfl
@[simp] theorem Thread.emptyG_mode (th : Thread) (r : BitVec 5) : (th.emptyG r).mode = th.mode := by unfold Thread.emptyG; split <;> rfl
@[simp] theorem Thread.emptyG_g (th : Thread) (r : BitVec 5) : (th.emptyG r).g = th.g := by unfold Thread.emptyG; split <;> rfl
@[simp] theorem Thread.emptyG_ramo (th : Thread) (r : BitVec 5) : (th.emptyG r).ramo = th.ramo := by unfold Thread.emptyG; split <;> rfl
@[simp] theorem Thread.emptyG_v (th : Thread) (r : BitVec 5) : (th.emptyG r).v = th.v := by unfold Thread.emptyG; split <;> rfl
@[simp] theorem Thread.emptyG_vFull (th : Thread) (r : BitVec 5) : (th.emptyG r).vFull = th.vFull := by unfold Thread.emptyG; split <;> rfl
@[simp] theorem Thread.emptyG_m (th : Thread) (r : BitVec 5) : (th.emptyG r).m = th.m := by unfold Thread.emptyG; split <;> rfl
@[simp] theorem Thread.emptyG_q (th : Thread) (r : BitVec 5) : (th.emptyG r).q = th.q := by unfold Thread.emptyG; split <;> rfl
@[simp] theorem Thread.emptyG_lc (th : Thread) (r : BitVec 5) : (th.emptyG r).lc = th.lc := by unfold Thread.emptyG; split <;> rfl
@[simp] theorem Thread.emptyG_td (th : Thread) (r : BitVec 5) : (th.emptyG r).td = th.td := by unfold Thread.emptyG; split <;> rfl
@[simp] theorem Thread.emptyG_seq (th : Thread) (r : BitVec 5) : (th.emptyG r).seq = th.seq := by unfold Thread.emptyG; split <;> rfl
@[simp] theorem Thread.emptyG_vhalt (th : Thread) (r : BitVec 5) : (th.emptyG r).vhalt = th.vhalt := by unfold Thread.emptyG; split <;> rfl
@[simp] theorem Thread.emptyG_image (th : Thread) (r : BitVec 5) : (th.emptyG r).image = th.image := by unfold Thread.emptyG; split <;> rfl
@[simp] theorem Thread.emptyG_sb (th : Thread) (r : BitVec 5) : (th.emptyG r).sb = th.sb := by unfold Thread.emptyG; split <;> rfl
@[simp] theorem Thread.emptyG_farSeq (th : Thread) (r : BitVec 5) : (th.emptyG r).farSeq = th.farSeq := by unfold Thread.emptyG; split <;> rfl
@[simp] theorem Thread.emptyG_rm (th : Thread) (r : BitVec 5) : (th.emptyG r).rm = th.rm := by unfold Thread.emptyG; split <;> rfl
@[simp] theorem Thread.emptyG_fflags (th : Thread) (r : BitVec 5) : (th.emptyG r).fflags = th.fflags := by unfold Thread.emptyG; split <;> rfl
@[simp] theorem Thread.emptyG_prng (th : Thread) (r : BitVec 5) : (th.emptyG r).prng = th.prng := by unfold Thread.emptyG; split <;> rfl
@[simp] theorem Thread.emptyG_spovf (th : Thread) (r : BitVec 5) : (th.emptyG r).spovf = th.spovf := by unfold Thread.emptyG; split <;> rfl
@[simp] theorem Thread.emptyG_xfrom (th : Thread) (r : BitVec 5) : (th.emptyG r).xfrom = th.xfrom := by unfold Thread.emptyG; split <;> rfl
@[simp] theorem Thread.emptyG_came (th : Thread) (r : BitVec 5) : (th.emptyG r).came = th.came := by unfold Thread.emptyG; split <;> rfl
@[simp] theorem Thread.emptyG_cameBr (th : Thread) (r : BitVec 5) : (th.emptyG r).cameBr = th.cameBr := by unfold Thread.emptyG; split <;> rfl
@[simp] theorem Thread.emptyG_upBusy (th : Thread) (r : BitVec 5) : (th.emptyG r).upBusy = th.upBusy := by unfold Thread.emptyG; split <;> rfl
@[simp] theorem Thread.emptyG_vepc (th : Thread) (r : BitVec 5) : (th.emptyG r).vepc = th.vepc := by unfold Thread.emptyG; split <;> rfl
@[simp] theorem Thread.emptyG_vtElem (th : Thread) (r : BitVec 5) : (th.emptyG r).vtElem = th.vtElem := by unfold Thread.emptyG; split <;> rfl
@[simp] theorem Thread.emptyG_vtLvl (th : Thread) (r : BitVec 5) : (th.emptyG r).vtLvl = th.vtLvl := by unfold Thread.emptyG; split <;> rfl
@[simp] theorem Thread.emptyG_vtEntry (th : Thread) (r : BitVec 5) : (th.emptyG r).vtEntry = th.vtEntry := by unfold Thread.emptyG; split <;> rfl
@[simp] theorem Thread.emptyG_strap (th : Thread) (r : BitVec 5) : (th.emptyG r).strap = th.strap := by unfold Thread.emptyG; split <;> rfl
@[simp] theorem Thread.emptyG_mtrap (th : Thread) (r : BitVec 5) : (th.emptyG r).mtrap = th.mtrap := by unfold Thread.emptyG; split <;> rfl
@[simp] theorem Thread.emptyG_arr (th : Thread) (r : BitVec 5) : (th.emptyG r).arr = th.arr := by unfold Thread.emptyG; split <;> rfl
@[simp] theorem Thread.emptyG_pendVF (th : Thread) (r : BitVec 5) : (th.emptyG r).pendVF = th.pendVF := by unfold Thread.emptyG; split <;> rfl
@[simp] theorem Thread.emptyG_pendRM (th : Thread) (r : BitVec 5) : (th.emptyG r).pendRM = th.pendRM := by unfold Thread.emptyG; split <;> rfl
@[simp] theorem Thread.emptyG_sleepEnd (th : Thread) (r : BitVec 5) : (th.emptyG r).sleepEnd = th.sleepEnd := by unfold Thread.emptyG; split <;> rfl
@[simp] theorem Thread.emptyG_parkNpc (th : Thread) (r : BitVec 5) : (th.emptyG r).parkNpc = th.parkNpc := by unfold Thread.emptyG; split <;> rfl
@[simp] theorem Thread.emptyG_startNs (th : Thread) (r : BitVec 5) : (th.emptyG r).startNs = th.startNs := by unfold Thread.emptyG; split <;> rfl
@[simp] theorem Thread.emptyG_startC (th : Thread) (r : BitVec 5) : (th.emptyG r).startC = th.startC := by unfold Thread.emptyG; split <;> rfl
@[simp] theorem Thread.emptyG_startH (th : Thread) (r : BitVec 5) : (th.emptyG r).startH = th.startH := by unfold Thread.emptyG; split <;> rfl
@[simp] theorem Thread.emptyG_heldRec (th : Thread) (r : BitVec 5) : (th.emptyG r).heldRec = th.heldRec := by unfold Thread.emptyG; split <;> rfl
@[simp] theorem Thread.emptyG_tickets (th : Thread) (r : BitVec 5) : (th.emptyG r).tickets = th.tickets := by unfold Thread.emptyG; split <;> rfl
@[simp] theorem Thread.emptyG_stall (th : Thread) (r : BitVec 5) : (th.emptyG r).stall = th.stall := by unfold Thread.emptyG; split <;> rfl
@[simp] theorem Thread.emptyG_sbStall (th : Thread) (r : BitVec 5) : (th.emptyG r).sbStall = th.sbStall := by unfold Thread.emptyG; split <;> rfl
@[simp] theorem Thread.emptyG_began (th : Thread) (r : BitVec 5) : (th.emptyG r).began = th.began := by unfold Thread.emptyG; split <;> rfl
@[simp] theorem Thread.emptyG_regEcc (th : Thread) (r : BitVec 5) : (th.emptyG r).regEcc = th.regEcc := by unfold Thread.emptyG; split <;> rfl
@[simp] theorem Thread.emptyG_qEcc (th : Thread) (r : BitVec 5) : (th.emptyG r).qEcc = th.qEcc := by unfold Thread.emptyG; split <;> rfl
@[simp] theorem Thread.emptyG_seqEcc (th : Thread) (r : BitVec 5) : (th.emptyG r).seqEcc = th.seqEcc := by unfold Thread.emptyG; split <;> rfl

@[simp] theorem Thread.wv_st (th : Thread) (r : BitVec 5) (x : VWord) (p : Nat → Bool) : (th.wv r x p).st = th.st := rfl
@[simp] theorem Thread.wv_wait (th : Thread) (r : BitVec 5) (x : VWord) (p : Nat → Bool) : (th.wv r x p).wait = th.wait := rfl
@[simp] theorem Thread.wv_ctx (th : Thread) (r : BitVec 5) (x : VWord) (p : Nat → Bool) : (th.wv r x p).ctx = th.ctx := rfl
@[simp] theorem Thread.wv_pc (th : Thread) (r : BitVec 5) (x : VWord) (p : Nat → Bool) : (th.wv r x p).pc = th.pc := rfl
@[simp] theorem Thread.wv_mode (th : Thread) (r : BitVec 5) (x : VWord) (p : Nat → Bool) : (th.wv r x p).mode = th.mode := rfl
@[simp] theorem Thread.wv_g (th : Thread) (r : BitVec 5) (x : VWord) (p : Nat → Bool) : (th.wv r x p).g = th.g := rfl
@[simp] theorem Thread.wv_gFull (th : Thread) (r : BitVec 5) (x : VWord) (p : Nat → Bool) : (th.wv r x p).gFull = th.gFull := rfl
@[simp] theorem Thread.wv_ramo (th : Thread) (r : BitVec 5) (x : VWord) (p : Nat → Bool) : (th.wv r x p).ramo = th.ramo := rfl
@[simp] theorem Thread.wv_m (th : Thread) (r : BitVec 5) (x : VWord) (p : Nat → Bool) : (th.wv r x p).m = th.m := rfl
@[simp] theorem Thread.wv_q (th : Thread) (r : BitVec 5) (x : VWord) (p : Nat → Bool) : (th.wv r x p).q = th.q := rfl
@[simp] theorem Thread.wv_lc (th : Thread) (r : BitVec 5) (x : VWord) (p : Nat → Bool) : (th.wv r x p).lc = th.lc := rfl
@[simp] theorem Thread.wv_td (th : Thread) (r : BitVec 5) (x : VWord) (p : Nat → Bool) : (th.wv r x p).td = th.td := rfl
@[simp] theorem Thread.wv_seq (th : Thread) (r : BitVec 5) (x : VWord) (p : Nat → Bool) : (th.wv r x p).seq = th.seq := rfl
@[simp] theorem Thread.wv_vhalt (th : Thread) (r : BitVec 5) (x : VWord) (p : Nat → Bool) : (th.wv r x p).vhalt = th.vhalt := rfl
@[simp] theorem Thread.wv_image (th : Thread) (r : BitVec 5) (x : VWord) (p : Nat → Bool) : (th.wv r x p).image = th.image := rfl
@[simp] theorem Thread.wv_sb (th : Thread) (r : BitVec 5) (x : VWord) (p : Nat → Bool) : (th.wv r x p).sb = th.sb := rfl
@[simp] theorem Thread.wv_farSeq (th : Thread) (r : BitVec 5) (x : VWord) (p : Nat → Bool) : (th.wv r x p).farSeq = th.farSeq := rfl
@[simp] theorem Thread.wv_rm (th : Thread) (r : BitVec 5) (x : VWord) (p : Nat → Bool) : (th.wv r x p).rm = th.rm := rfl
@[simp] theorem Thread.wv_fflags (th : Thread) (r : BitVec 5) (x : VWord) (p : Nat → Bool) : (th.wv r x p).fflags = th.fflags := rfl
@[simp] theorem Thread.wv_prng (th : Thread) (r : BitVec 5) (x : VWord) (p : Nat → Bool) : (th.wv r x p).prng = th.prng := rfl
@[simp] theorem Thread.wv_spovf (th : Thread) (r : BitVec 5) (x : VWord) (p : Nat → Bool) : (th.wv r x p).spovf = th.spovf := rfl
@[simp] theorem Thread.wv_xfrom (th : Thread) (r : BitVec 5) (x : VWord) (p : Nat → Bool) : (th.wv r x p).xfrom = th.xfrom := rfl
@[simp] theorem Thread.wv_came (th : Thread) (r : BitVec 5) (x : VWord) (p : Nat → Bool) : (th.wv r x p).came = th.came := rfl
@[simp] theorem Thread.wv_cameBr (th : Thread) (r : BitVec 5) (x : VWord) (p : Nat → Bool) : (th.wv r x p).cameBr = th.cameBr := rfl
@[simp] theorem Thread.wv_upBusy (th : Thread) (r : BitVec 5) (x : VWord) (p : Nat → Bool) : (th.wv r x p).upBusy = th.upBusy := rfl
@[simp] theorem Thread.wv_vepc (th : Thread) (r : BitVec 5) (x : VWord) (p : Nat → Bool) : (th.wv r x p).vepc = th.vepc := rfl
@[simp] theorem Thread.wv_vtElem (th : Thread) (r : BitVec 5) (x : VWord) (p : Nat → Bool) : (th.wv r x p).vtElem = th.vtElem := rfl
@[simp] theorem Thread.wv_vtLvl (th : Thread) (r : BitVec 5) (x : VWord) (p : Nat → Bool) : (th.wv r x p).vtLvl = th.vtLvl := rfl
@[simp] theorem Thread.wv_vtEntry (th : Thread) (r : BitVec 5) (x : VWord) (p : Nat → Bool) : (th.wv r x p).vtEntry = th.vtEntry := rfl
@[simp] theorem Thread.wv_strap (th : Thread) (r : BitVec 5) (x : VWord) (p : Nat → Bool) : (th.wv r x p).strap = th.strap := rfl
@[simp] theorem Thread.wv_mtrap (th : Thread) (r : BitVec 5) (x : VWord) (p : Nat → Bool) : (th.wv r x p).mtrap = th.mtrap := rfl
@[simp] theorem Thread.wv_arr (th : Thread) (r : BitVec 5) (x : VWord) (p : Nat → Bool) : (th.wv r x p).arr = th.arr := rfl
@[simp] theorem Thread.wv_pendVF (th : Thread) (r : BitVec 5) (x : VWord) (p : Nat → Bool) : (th.wv r x p).pendVF = th.pendVF := rfl
@[simp] theorem Thread.wv_pendRM (th : Thread) (r : BitVec 5) (x : VWord) (p : Nat → Bool) : (th.wv r x p).pendRM = th.pendRM := rfl
@[simp] theorem Thread.wv_sleepEnd (th : Thread) (r : BitVec 5) (x : VWord) (p : Nat → Bool) : (th.wv r x p).sleepEnd = th.sleepEnd := rfl
@[simp] theorem Thread.wv_parkNpc (th : Thread) (r : BitVec 5) (x : VWord) (p : Nat → Bool) : (th.wv r x p).parkNpc = th.parkNpc := rfl
@[simp] theorem Thread.wv_startNs (th : Thread) (r : BitVec 5) (x : VWord) (p : Nat → Bool) : (th.wv r x p).startNs = th.startNs := rfl
@[simp] theorem Thread.wv_startC (th : Thread) (r : BitVec 5) (x : VWord) (p : Nat → Bool) : (th.wv r x p).startC = th.startC := rfl
@[simp] theorem Thread.wv_startH (th : Thread) (r : BitVec 5) (x : VWord) (p : Nat → Bool) : (th.wv r x p).startH = th.startH := rfl
@[simp] theorem Thread.wv_heldRec (th : Thread) (r : BitVec 5) (x : VWord) (p : Nat → Bool) : (th.wv r x p).heldRec = th.heldRec := rfl
@[simp] theorem Thread.wv_tickets (th : Thread) (r : BitVec 5) (x : VWord) (p : Nat → Bool) : (th.wv r x p).tickets = th.tickets := rfl
@[simp] theorem Thread.wv_stall (th : Thread) (r : BitVec 5) (x : VWord) (p : Nat → Bool) : (th.wv r x p).stall = th.stall := rfl
@[simp] theorem Thread.wv_sbStall (th : Thread) (r : BitVec 5) (x : VWord) (p : Nat → Bool) : (th.wv r x p).sbStall = th.sbStall := rfl
@[simp] theorem Thread.wv_began (th : Thread) (r : BitVec 5) (x : VWord) (p : Nat → Bool) : (th.wv r x p).began = th.began := rfl
@[simp] theorem Thread.wv_qEcc (th : Thread) (r : BitVec 5) (x : VWord) (p : Nat → Bool) : (th.wv r x p).qEcc = th.qEcc := rfl
@[simp] theorem Thread.wv_seqEcc (th : Thread) (r : BitVec 5) (x : VWord) (p : Nat → Bool) : (th.wv r x p).seqEcc = th.seqEcc := rfl

@[simp] theorem Thread.emptyV_st (th : Thread) (r : BitVec 5) : (th.emptyV r).st = th.st := rfl
@[simp] theorem Thread.emptyV_wait (th : Thread) (r : BitVec 5) : (th.emptyV r).wait = th.wait := rfl
@[simp] theorem Thread.emptyV_ctx (th : Thread) (r : BitVec 5) : (th.emptyV r).ctx = th.ctx := rfl
@[simp] theorem Thread.emptyV_pc (th : Thread) (r : BitVec 5) : (th.emptyV r).pc = th.pc := rfl
@[simp] theorem Thread.emptyV_mode (th : Thread) (r : BitVec 5) : (th.emptyV r).mode = th.mode := rfl
@[simp] theorem Thread.emptyV_g (th : Thread) (r : BitVec 5) : (th.emptyV r).g = th.g := rfl
@[simp] theorem Thread.emptyV_gFull (th : Thread) (r : BitVec 5) : (th.emptyV r).gFull = th.gFull := rfl
@[simp] theorem Thread.emptyV_ramo (th : Thread) (r : BitVec 5) : (th.emptyV r).ramo = th.ramo := rfl
@[simp] theorem Thread.emptyV_v (th : Thread) (r : BitVec 5) : (th.emptyV r).v = th.v := rfl
@[simp] theorem Thread.emptyV_m (th : Thread) (r : BitVec 5) : (th.emptyV r).m = th.m := rfl
@[simp] theorem Thread.emptyV_q (th : Thread) (r : BitVec 5) : (th.emptyV r).q = th.q := rfl
@[simp] theorem Thread.emptyV_lc (th : Thread) (r : BitVec 5) : (th.emptyV r).lc = th.lc := rfl
@[simp] theorem Thread.emptyV_td (th : Thread) (r : BitVec 5) : (th.emptyV r).td = th.td := rfl
@[simp] theorem Thread.emptyV_seq (th : Thread) (r : BitVec 5) : (th.emptyV r).seq = th.seq := rfl
@[simp] theorem Thread.emptyV_vhalt (th : Thread) (r : BitVec 5) : (th.emptyV r).vhalt = th.vhalt := rfl
@[simp] theorem Thread.emptyV_image (th : Thread) (r : BitVec 5) : (th.emptyV r).image = th.image := rfl
@[simp] theorem Thread.emptyV_sb (th : Thread) (r : BitVec 5) : (th.emptyV r).sb = th.sb := rfl
@[simp] theorem Thread.emptyV_farSeq (th : Thread) (r : BitVec 5) : (th.emptyV r).farSeq = th.farSeq := rfl
@[simp] theorem Thread.emptyV_rm (th : Thread) (r : BitVec 5) : (th.emptyV r).rm = th.rm := rfl
@[simp] theorem Thread.emptyV_fflags (th : Thread) (r : BitVec 5) : (th.emptyV r).fflags = th.fflags := rfl
@[simp] theorem Thread.emptyV_prng (th : Thread) (r : BitVec 5) : (th.emptyV r).prng = th.prng := rfl
@[simp] theorem Thread.emptyV_spovf (th : Thread) (r : BitVec 5) : (th.emptyV r).spovf = th.spovf := rfl
@[simp] theorem Thread.emptyV_xfrom (th : Thread) (r : BitVec 5) : (th.emptyV r).xfrom = th.xfrom := rfl
@[simp] theorem Thread.emptyV_came (th : Thread) (r : BitVec 5) : (th.emptyV r).came = th.came := rfl
@[simp] theorem Thread.emptyV_cameBr (th : Thread) (r : BitVec 5) : (th.emptyV r).cameBr = th.cameBr := rfl
@[simp] theorem Thread.emptyV_upBusy (th : Thread) (r : BitVec 5) : (th.emptyV r).upBusy = th.upBusy := rfl
@[simp] theorem Thread.emptyV_vepc (th : Thread) (r : BitVec 5) : (th.emptyV r).vepc = th.vepc := rfl
@[simp] theorem Thread.emptyV_vtElem (th : Thread) (r : BitVec 5) : (th.emptyV r).vtElem = th.vtElem := rfl
@[simp] theorem Thread.emptyV_vtLvl (th : Thread) (r : BitVec 5) : (th.emptyV r).vtLvl = th.vtLvl := rfl
@[simp] theorem Thread.emptyV_vtEntry (th : Thread) (r : BitVec 5) : (th.emptyV r).vtEntry = th.vtEntry := rfl
@[simp] theorem Thread.emptyV_strap (th : Thread) (r : BitVec 5) : (th.emptyV r).strap = th.strap := rfl
@[simp] theorem Thread.emptyV_mtrap (th : Thread) (r : BitVec 5) : (th.emptyV r).mtrap = th.mtrap := rfl
@[simp] theorem Thread.emptyV_arr (th : Thread) (r : BitVec 5) : (th.emptyV r).arr = th.arr := rfl
@[simp] theorem Thread.emptyV_pendVF (th : Thread) (r : BitVec 5) : (th.emptyV r).pendVF = th.pendVF := rfl
@[simp] theorem Thread.emptyV_pendRM (th : Thread) (r : BitVec 5) : (th.emptyV r).pendRM = th.pendRM := rfl
@[simp] theorem Thread.emptyV_sleepEnd (th : Thread) (r : BitVec 5) : (th.emptyV r).sleepEnd = th.sleepEnd := rfl
@[simp] theorem Thread.emptyV_parkNpc (th : Thread) (r : BitVec 5) : (th.emptyV r).parkNpc = th.parkNpc := rfl
@[simp] theorem Thread.emptyV_startNs (th : Thread) (r : BitVec 5) : (th.emptyV r).startNs = th.startNs := rfl
@[simp] theorem Thread.emptyV_startC (th : Thread) (r : BitVec 5) : (th.emptyV r).startC = th.startC := rfl
@[simp] theorem Thread.emptyV_startH (th : Thread) (r : BitVec 5) : (th.emptyV r).startH = th.startH := rfl
@[simp] theorem Thread.emptyV_heldRec (th : Thread) (r : BitVec 5) : (th.emptyV r).heldRec = th.heldRec := rfl
@[simp] theorem Thread.emptyV_tickets (th : Thread) (r : BitVec 5) : (th.emptyV r).tickets = th.tickets := rfl
@[simp] theorem Thread.emptyV_stall (th : Thread) (r : BitVec 5) : (th.emptyV r).stall = th.stall := rfl
@[simp] theorem Thread.emptyV_sbStall (th : Thread) (r : BitVec 5) : (th.emptyV r).sbStall = th.sbStall := rfl
@[simp] theorem Thread.emptyV_began (th : Thread) (r : BitVec 5) : (th.emptyV r).began = th.began := rfl
@[simp] theorem Thread.emptyV_regEcc (th : Thread) (r : BitVec 5) : (th.emptyV r).regEcc = th.regEcc := rfl
@[simp] theorem Thread.emptyV_qEcc (th : Thread) (r : BitVec 5) : (th.emptyV r).qEcc = th.qEcc := rfl
@[simp] theorem Thread.emptyV_seqEcc (th : Thread) (r : BitVec 5) : (th.emptyV r).seqEcc = th.seqEcc := rfl

@[simp] theorem Thread.wm_st (th : Thread) (r : BitVec 3) (x : Word) : (th.wm r x).st = th.st := by unfold Thread.wm; split <;> rfl
@[simp] theorem Thread.wm_wait (th : Thread) (r : BitVec 3) (x : Word) : (th.wm r x).wait = th.wait := by unfold Thread.wm; split <;> rfl
@[simp] theorem Thread.wm_ctx (th : Thread) (r : BitVec 3) (x : Word) : (th.wm r x).ctx = th.ctx := by unfold Thread.wm; split <;> rfl
@[simp] theorem Thread.wm_pc (th : Thread) (r : BitVec 3) (x : Word) : (th.wm r x).pc = th.pc := by unfold Thread.wm; split <;> rfl
@[simp] theorem Thread.wm_mode (th : Thread) (r : BitVec 3) (x : Word) : (th.wm r x).mode = th.mode := by unfold Thread.wm; split <;> rfl
@[simp] theorem Thread.wm_g (th : Thread) (r : BitVec 3) (x : Word) : (th.wm r x).g = th.g := by unfold Thread.wm; split <;> rfl
@[simp] theorem Thread.wm_gFull (th : Thread) (r : BitVec 3) (x : Word) : (th.wm r x).gFull = th.gFull := by unfold Thread.wm; split <;> rfl
@[simp] theorem Thread.wm_ramo (th : Thread) (r : BitVec 3) (x : Word) : (th.wm r x).ramo = th.ramo := by unfold Thread.wm; split <;> rfl
@[simp] theorem Thread.wm_v (th : Thread) (r : BitVec 3) (x : Word) : (th.wm r x).v = th.v := by unfold Thread.wm; split <;> rfl
@[simp] theorem Thread.wm_vFull (th : Thread) (r : BitVec 3) (x : Word) : (th.wm r x).vFull = th.vFull := by unfold Thread.wm; split <;> rfl
@[simp] theorem Thread.wm_q (th : Thread) (r : BitVec 3) (x : Word) : (th.wm r x).q = th.q := by unfold Thread.wm; split <;> rfl
@[simp] theorem Thread.wm_lc (th : Thread) (r : BitVec 3) (x : Word) : (th.wm r x).lc = th.lc := by unfold Thread.wm; split <;> rfl
@[simp] theorem Thread.wm_td (th : Thread) (r : BitVec 3) (x : Word) : (th.wm r x).td = th.td := by unfold Thread.wm; split <;> rfl
@[simp] theorem Thread.wm_seq (th : Thread) (r : BitVec 3) (x : Word) : (th.wm r x).seq = th.seq := by unfold Thread.wm; split <;> rfl
@[simp] theorem Thread.wm_vhalt (th : Thread) (r : BitVec 3) (x : Word) : (th.wm r x).vhalt = th.vhalt := by unfold Thread.wm; split <;> rfl
@[simp] theorem Thread.wm_image (th : Thread) (r : BitVec 3) (x : Word) : (th.wm r x).image = th.image := by unfold Thread.wm; split <;> rfl
@[simp] theorem Thread.wm_sb (th : Thread) (r : BitVec 3) (x : Word) : (th.wm r x).sb = th.sb := by unfold Thread.wm; split <;> rfl
@[simp] theorem Thread.wm_farSeq (th : Thread) (r : BitVec 3) (x : Word) : (th.wm r x).farSeq = th.farSeq := by unfold Thread.wm; split <;> rfl
@[simp] theorem Thread.wm_rm (th : Thread) (r : BitVec 3) (x : Word) : (th.wm r x).rm = th.rm := by unfold Thread.wm; split <;> rfl
@[simp] theorem Thread.wm_fflags (th : Thread) (r : BitVec 3) (x : Word) : (th.wm r x).fflags = th.fflags := by unfold Thread.wm; split <;> rfl
@[simp] theorem Thread.wm_prng (th : Thread) (r : BitVec 3) (x : Word) : (th.wm r x).prng = th.prng := by unfold Thread.wm; split <;> rfl
@[simp] theorem Thread.wm_spovf (th : Thread) (r : BitVec 3) (x : Word) : (th.wm r x).spovf = th.spovf := by unfold Thread.wm; split <;> rfl
@[simp] theorem Thread.wm_xfrom (th : Thread) (r : BitVec 3) (x : Word) : (th.wm r x).xfrom = th.xfrom := by unfold Thread.wm; split <;> rfl
@[simp] theorem Thread.wm_came (th : Thread) (r : BitVec 3) (x : Word) : (th.wm r x).came = th.came := by unfold Thread.wm; split <;> rfl
@[simp] theorem Thread.wm_cameBr (th : Thread) (r : BitVec 3) (x : Word) : (th.wm r x).cameBr = th.cameBr := by unfold Thread.wm; split <;> rfl
@[simp] theorem Thread.wm_upBusy (th : Thread) (r : BitVec 3) (x : Word) : (th.wm r x).upBusy = th.upBusy := by unfold Thread.wm; split <;> rfl
@[simp] theorem Thread.wm_vepc (th : Thread) (r : BitVec 3) (x : Word) : (th.wm r x).vepc = th.vepc := by unfold Thread.wm; split <;> rfl
@[simp] theorem Thread.wm_vtElem (th : Thread) (r : BitVec 3) (x : Word) : (th.wm r x).vtElem = th.vtElem := by unfold Thread.wm; split <;> rfl
@[simp] theorem Thread.wm_vtLvl (th : Thread) (r : BitVec 3) (x : Word) : (th.wm r x).vtLvl = th.vtLvl := by unfold Thread.wm; split <;> rfl
@[simp] theorem Thread.wm_vtEntry (th : Thread) (r : BitVec 3) (x : Word) : (th.wm r x).vtEntry = th.vtEntry := by unfold Thread.wm; split <;> rfl
@[simp] theorem Thread.wm_strap (th : Thread) (r : BitVec 3) (x : Word) : (th.wm r x).strap = th.strap := by unfold Thread.wm; split <;> rfl
@[simp] theorem Thread.wm_mtrap (th : Thread) (r : BitVec 3) (x : Word) : (th.wm r x).mtrap = th.mtrap := by unfold Thread.wm; split <;> rfl
@[simp] theorem Thread.wm_arr (th : Thread) (r : BitVec 3) (x : Word) : (th.wm r x).arr = th.arr := by unfold Thread.wm; split <;> rfl
@[simp] theorem Thread.wm_pendVF (th : Thread) (r : BitVec 3) (x : Word) : (th.wm r x).pendVF = th.pendVF := by unfold Thread.wm; split <;> rfl
@[simp] theorem Thread.wm_pendRM (th : Thread) (r : BitVec 3) (x : Word) : (th.wm r x).pendRM = th.pendRM := by unfold Thread.wm; split <;> rfl
@[simp] theorem Thread.wm_sleepEnd (th : Thread) (r : BitVec 3) (x : Word) : (th.wm r x).sleepEnd = th.sleepEnd := by unfold Thread.wm; split <;> rfl
@[simp] theorem Thread.wm_parkNpc (th : Thread) (r : BitVec 3) (x : Word) : (th.wm r x).parkNpc = th.parkNpc := by unfold Thread.wm; split <;> rfl
@[simp] theorem Thread.wm_startNs (th : Thread) (r : BitVec 3) (x : Word) : (th.wm r x).startNs = th.startNs := by unfold Thread.wm; split <;> rfl
@[simp] theorem Thread.wm_startC (th : Thread) (r : BitVec 3) (x : Word) : (th.wm r x).startC = th.startC := by unfold Thread.wm; split <;> rfl
@[simp] theorem Thread.wm_startH (th : Thread) (r : BitVec 3) (x : Word) : (th.wm r x).startH = th.startH := by unfold Thread.wm; split <;> rfl
@[simp] theorem Thread.wm_heldRec (th : Thread) (r : BitVec 3) (x : Word) : (th.wm r x).heldRec = th.heldRec := by unfold Thread.wm; split <;> rfl
@[simp] theorem Thread.wm_tickets (th : Thread) (r : BitVec 3) (x : Word) : (th.wm r x).tickets = th.tickets := by unfold Thread.wm; split <;> rfl
@[simp] theorem Thread.wm_stall (th : Thread) (r : BitVec 3) (x : Word) : (th.wm r x).stall = th.stall := by unfold Thread.wm; split <;> rfl
@[simp] theorem Thread.wm_sbStall (th : Thread) (r : BitVec 3) (x : Word) : (th.wm r x).sbStall = th.sbStall := by unfold Thread.wm; split <;> rfl
@[simp] theorem Thread.wm_began (th : Thread) (r : BitVec 3) (x : Word) : (th.wm r x).began = th.began := by unfold Thread.wm; split <;> rfl
@[simp] theorem Thread.wm_qEcc (th : Thread) (r : BitVec 3) (x : Word) : (th.wm r x).qEcc = th.qEcc := by unfold Thread.wm; split <;> rfl
@[simp] theorem Thread.wm_seqEcc (th : Thread) (r : BitVec 3) (x : Word) : (th.wm r x).seqEcc = th.seqEcc := by unfold Thread.wm; split <;> rfl

@[simp] theorem Thread.setQueue_st (th : Thread) (r : BitVec 2) (l : List Word) : (th.setQueue r l).st = th.st := rfl
@[simp] theorem Thread.setQueue_wait (th : Thread) (r : BitVec 2) (l : List Word) : (th.setQueue r l).wait = th.wait := rfl
@[simp] theorem Thread.setQueue_ctx (th : Thread) (r : BitVec 2) (l : List Word) : (th.setQueue r l).ctx = th.ctx := rfl
@[simp] theorem Thread.setQueue_pc (th : Thread) (r : BitVec 2) (l : List Word) : (th.setQueue r l).pc = th.pc := rfl
@[simp] theorem Thread.setQueue_mode (th : Thread) (r : BitVec 2) (l : List Word) : (th.setQueue r l).mode = th.mode := rfl
@[simp] theorem Thread.setQueue_g (th : Thread) (r : BitVec 2) (l : List Word) : (th.setQueue r l).g = th.g := rfl
@[simp] theorem Thread.setQueue_gFull (th : Thread) (r : BitVec 2) (l : List Word) : (th.setQueue r l).gFull = th.gFull := rfl
@[simp] theorem Thread.setQueue_ramo (th : Thread) (r : BitVec 2) (l : List Word) : (th.setQueue r l).ramo = th.ramo := rfl
@[simp] theorem Thread.setQueue_v (th : Thread) (r : BitVec 2) (l : List Word) : (th.setQueue r l).v = th.v := rfl
@[simp] theorem Thread.setQueue_vFull (th : Thread) (r : BitVec 2) (l : List Word) : (th.setQueue r l).vFull = th.vFull := rfl
@[simp] theorem Thread.setQueue_m (th : Thread) (r : BitVec 2) (l : List Word) : (th.setQueue r l).m = th.m := rfl
@[simp] theorem Thread.setQueue_lc (th : Thread) (r : BitVec 2) (l : List Word) : (th.setQueue r l).lc = th.lc := rfl
@[simp] theorem Thread.setQueue_td (th : Thread) (r : BitVec 2) (l : List Word) : (th.setQueue r l).td = th.td := rfl
@[simp] theorem Thread.setQueue_seq (th : Thread) (r : BitVec 2) (l : List Word) : (th.setQueue r l).seq = th.seq := rfl
@[simp] theorem Thread.setQueue_vhalt (th : Thread) (r : BitVec 2) (l : List Word) : (th.setQueue r l).vhalt = th.vhalt := rfl
@[simp] theorem Thread.setQueue_image (th : Thread) (r : BitVec 2) (l : List Word) : (th.setQueue r l).image = th.image := rfl
@[simp] theorem Thread.setQueue_sb (th : Thread) (r : BitVec 2) (l : List Word) : (th.setQueue r l).sb = th.sb := rfl
@[simp] theorem Thread.setQueue_farSeq (th : Thread) (r : BitVec 2) (l : List Word) : (th.setQueue r l).farSeq = th.farSeq := rfl
@[simp] theorem Thread.setQueue_rm (th : Thread) (r : BitVec 2) (l : List Word) : (th.setQueue r l).rm = th.rm := rfl
@[simp] theorem Thread.setQueue_fflags (th : Thread) (r : BitVec 2) (l : List Word) : (th.setQueue r l).fflags = th.fflags := rfl
@[simp] theorem Thread.setQueue_prng (th : Thread) (r : BitVec 2) (l : List Word) : (th.setQueue r l).prng = th.prng := rfl
@[simp] theorem Thread.setQueue_spovf (th : Thread) (r : BitVec 2) (l : List Word) : (th.setQueue r l).spovf = th.spovf := rfl
@[simp] theorem Thread.setQueue_xfrom (th : Thread) (r : BitVec 2) (l : List Word) : (th.setQueue r l).xfrom = th.xfrom := rfl
@[simp] theorem Thread.setQueue_came (th : Thread) (r : BitVec 2) (l : List Word) : (th.setQueue r l).came = th.came := rfl
@[simp] theorem Thread.setQueue_cameBr (th : Thread) (r : BitVec 2) (l : List Word) : (th.setQueue r l).cameBr = th.cameBr := rfl
@[simp] theorem Thread.setQueue_upBusy (th : Thread) (r : BitVec 2) (l : List Word) : (th.setQueue r l).upBusy = th.upBusy := rfl
@[simp] theorem Thread.setQueue_vepc (th : Thread) (r : BitVec 2) (l : List Word) : (th.setQueue r l).vepc = th.vepc := rfl
@[simp] theorem Thread.setQueue_vtElem (th : Thread) (r : BitVec 2) (l : List Word) : (th.setQueue r l).vtElem = th.vtElem := rfl
@[simp] theorem Thread.setQueue_vtLvl (th : Thread) (r : BitVec 2) (l : List Word) : (th.setQueue r l).vtLvl = th.vtLvl := rfl
@[simp] theorem Thread.setQueue_vtEntry (th : Thread) (r : BitVec 2) (l : List Word) : (th.setQueue r l).vtEntry = th.vtEntry := rfl
@[simp] theorem Thread.setQueue_strap (th : Thread) (r : BitVec 2) (l : List Word) : (th.setQueue r l).strap = th.strap := rfl
@[simp] theorem Thread.setQueue_mtrap (th : Thread) (r : BitVec 2) (l : List Word) : (th.setQueue r l).mtrap = th.mtrap := rfl
@[simp] theorem Thread.setQueue_arr (th : Thread) (r : BitVec 2) (l : List Word) : (th.setQueue r l).arr = th.arr := rfl
@[simp] theorem Thread.setQueue_pendVF (th : Thread) (r : BitVec 2) (l : List Word) : (th.setQueue r l).pendVF = th.pendVF := rfl
@[simp] theorem Thread.setQueue_pendRM (th : Thread) (r : BitVec 2) (l : List Word) : (th.setQueue r l).pendRM = th.pendRM := rfl
@[simp] theorem Thread.setQueue_sleepEnd (th : Thread) (r : BitVec 2) (l : List Word) : (th.setQueue r l).sleepEnd = th.sleepEnd := rfl
@[simp] theorem Thread.setQueue_parkNpc (th : Thread) (r : BitVec 2) (l : List Word) : (th.setQueue r l).parkNpc = th.parkNpc := rfl
@[simp] theorem Thread.setQueue_startNs (th : Thread) (r : BitVec 2) (l : List Word) : (th.setQueue r l).startNs = th.startNs := rfl
@[simp] theorem Thread.setQueue_startC (th : Thread) (r : BitVec 2) (l : List Word) : (th.setQueue r l).startC = th.startC := rfl
@[simp] theorem Thread.setQueue_startH (th : Thread) (r : BitVec 2) (l : List Word) : (th.setQueue r l).startH = th.startH := rfl
@[simp] theorem Thread.setQueue_heldRec (th : Thread) (r : BitVec 2) (l : List Word) : (th.setQueue r l).heldRec = th.heldRec := rfl
@[simp] theorem Thread.setQueue_tickets (th : Thread) (r : BitVec 2) (l : List Word) : (th.setQueue r l).tickets = th.tickets := rfl
@[simp] theorem Thread.setQueue_stall (th : Thread) (r : BitVec 2) (l : List Word) : (th.setQueue r l).stall = th.stall := rfl
@[simp] theorem Thread.setQueue_sbStall (th : Thread) (r : BitVec 2) (l : List Word) : (th.setQueue r l).sbStall = th.sbStall := rfl
@[simp] theorem Thread.setQueue_began (th : Thread) (r : BitVec 2) (l : List Word) : (th.setQueue r l).began = th.began := rfl
@[simp] theorem Thread.setQueue_regEcc (th : Thread) (r : BitVec 2) (l : List Word) : (th.setQueue r l).regEcc = th.regEcc := rfl
@[simp] theorem Thread.setQueue_qEcc (th : Thread) (r : BitVec 2) (l : List Word) : (th.setQueue r l).qEcc = th.qEcc := rfl
@[simp] theorem Thread.setQueue_seqEcc (th : Thread) (r : BitVec 2) (l : List Word) : (th.setQueue r l).seqEcc = th.seqEcc := rfl

/-- A register written has sound check bits, and the others keep theirs (spec/18_traps.md R444). -/
theorem Thread.hurt_wg_same (th : Thread) {r : BitVec 5} (v : Word) (h : r ≠ 0) : (th.wg r v).hurt r.toNat = none := by
  have h' : ¬ r = 0#5 := h
  simp [Thread.hurt, Thread.wg, h', Table.del, List.find?_filter]
theorem Thread.hurt_wg_other (th : Thread) {r : BitVec 5} {n : Nat} (v : Word) (h : n ≠ r.toNat) : (th.wg r v).hurt n = th.hurt n := by
  unfold Thread.hurt Thread.wg
  split
  · rfl
  · simp only [Table.del, List.find?_filter]
    congr 1
    refine congrArg (fun p => List.find? p th.regEcc) (funext fun x => ?_)
    by_cases hx : x.1 = n
    · simp [hx, h]
    · simp [hx]
@[simp] theorem Thread.hurt_emptyG (th : Thread) (r : BitVec 5) (n : Nat) : (th.emptyG r).hurt n = th.hurt n := by
  unfold Thread.hurt; rw [Thread.emptyG_regEcc]
@[simp] theorem Thread.rg_zero (th : Thread) : th.rg 0 = 0 := rfl
@[simp] theorem Thread.fullG_zero (th : Thread) : th.fullG 0 = true := rfl
@[simp] theorem Thread.rm_zero (th : Thread) : th.rm_ 0 = ones64 := rfl
@[simp] theorem Thread.wg_zero (th : Thread) (v : Word) : th.wg 0 v = th := rfl
@[simp] theorem Thread.emptyG_zero (th : Thread) : th.emptyG 0 = th := rfl
@[simp] theorem Thread.wm_zero (th : Thread) (x : Word) : th.wm 0 x = th := rfl

theorem Thread.rg_wg_same (th : Thread) {r : BitVec 5} (v : Word) (h : r ≠ 0) : (th.wg r v).rg r = v := by
  have h' : ¬ r = 0#5 := h
  simp [Thread.rg, Thread.wg, h']

theorem Thread.rg_wg_other (th : Thread) {r q : BitVec 5} (v : Word) (h : q ≠ r) : (th.wg r v).rg q = th.rg q := by
  unfold Thread.rg Thread.wg
  split
  · rfl
  · split
    · rfl
    · have : r.toNat ≠ q.toNat := fun e => h (BitVec.eq_of_toNat_eq e.symm)
      simp [this]

/-- Bit `k` of the mask of one register. -/
theorem regBit (r k : BitVec 5) : (BitVec.ofNat 32 (2 ^ r.toNat)).getLsbD k.toNat = decide (r = k) := by
  have hr := r.isLt
  have hk := k.isLt
  rw [BitVec.getLsbD_ofNat, Nat.testBit_two_pow]
  by_cases h : r = k
  · subst h; simp; omega
  · have : r.toNat ≠ k.toNat := fun e => h (BitVec.eq_of_toNat_eq e)
    simp [this, h]

@[simp] theorem Thread.fullG_wg_same (th : Thread) (r : BitVec 5) (v : Word) : (th.wg r v).fullG r = true := by
  unfold Thread.wg
  split
  · simp only [Thread.fullG, *, decide_true, Bool.true_or]
  · simp only [Thread.fullG, BitVec.getLsbD_or, regBit, decide_true, Bool.or_true]

theorem Thread.fullG_wg_other (th : Thread) {r q : BitVec 5} (v : Word) (h : q ≠ r) :
    (th.wg r v).fullG q = th.fullG q := by
  unfold Thread.wg
  split
  · rfl
  · simp only [Thread.fullG, BitVec.getLsbD_or, regBit, Ne.symm h, decide_false, Bool.or_false]

theorem Thread.fullG_emptyG_same (th : Thread) {r : BitVec 5} (h : r ≠ 0) : (th.emptyG r).fullG r = false := by
  have hr := r.isLt
  unfold Thread.emptyG
  rw [if_neg h]
  simp only [Thread.fullG, BitVec.getLsbD_and, BitVec.getLsbD_not, regBit, h, decide_true, decide_false, Bool.not_true,
    Bool.and_false, Bool.or_false]

theorem Thread.fullG_emptyG_other (th : Thread) {r q : BitVec 5} (h : q ≠ r) : (th.emptyG r).fullG q = th.fullG q := by
  have hq := q.isLt
  unfold Thread.emptyG
  split
  · rfl
  · simp only [Thread.fullG, BitVec.getLsbD_and, BitVec.getLsbD_not, regBit, Ne.symm h, decide_false, Bool.not_false,
      Bool.and_true, hq, decide_true]

@[simp] theorem Thread.rg_emptyG (th : Thread) (r q : BitVec 5) : (th.emptyG r).rg q = th.rg q := by
  unfold Thread.emptyG
  split <;> rfl

theorem Thread.rm_wm_same (th : Thread) {r : BitVec 3} (x : Word) (h : r ≠ 0) : (th.wm r x).rm_ r = x := by
  have h' : ¬ r = 0#3 := h
  simp [Thread.rm_, Thread.wm, h']

theorem Thread.rv_wv_same (th : Thread) (r : BitVec 5) (x : VWord) (p : Nat → Bool) : (th.wv r x p).rv r = x := by
  simp [Thread.rv, Thread.wv]

theorem Thread.rv_wv_other (th : Thread) {r q : BitVec 5} (x : VWord) (p : Nat → Bool) (h : q ≠ r) : (th.wv r x p).rv q = th.rv q := by
  have : r.toNat ≠ q.toNat := fun e => h (BitVec.eq_of_toNat_eq e.symm)
  simp [Thread.rv, Thread.wv, this]

theorem Thread.queue_setQueue_same (th : Thread) (r : BitVec 2) (l : List Word) : (th.setQueue r l).queue r = l := by
  simp [Thread.queue, Thread.setQueue]

end Sys2Proof.Machine
end

