-- ==== Sys2Proof/Laws/Memory.lean ====
section
/-! SUPPORT. Physical memory: a byte written reads back, every other byte is unchanged, and every operation keeps the
canonical form. -/

namespace Sys2Proof.Machine

open Sys2Proof

@[simp] theorem Memory.read_write_same (m : List Host.Cell) (a : Nat) (b : Byte) :
    Memory.read (Memory.write m a b) a = b := by
  unfold Memory.read Memory.write
  split
  · next h => rw [Table.get_del_same, h]
  · exact Table.get_set_same _ _ _ _

theorem Memory.read_write_other (m : List Host.Cell) {a j : Nat} (b : Byte) (h : j ≠ a) :
    Memory.read (Memory.write m a b) j = Memory.read m j := by
  unfold Memory.read Memory.write
  split
  · exact Table.get_del_other _ _ h
  · exact Table.get_set_other _ _ _ h

theorem Memory.read_writeN_other (bs : List Byte) : ∀ (m : List Host.Cell) (a j : Nat),
    (j < a ∨ a + bs.length ≤ j) → Memory.read (Memory.writeN m a bs) j = Memory.read m j := by
  induction bs with
  | nil => intro m a j _; rfl
  | cons b t ih =>
    intro m a j h
    simp only [List.length_cons] at h
    show Memory.read (Memory.writeN (Memory.write m a b) (a + 1) t) j = _
    rw [ih _ _ _ (by omega), Memory.read_write_other _ _ (by omega)]

theorem Memory.read_writeN_in (bs : List Byte) : ∀ (m : List Host.Cell) (a i : Nat) (h : i < bs.length),
    Memory.read (Memory.writeN m a bs) (a + i) = bs[i] := by
  induction bs with
  | nil => intro m a i h; exact absurd h (Nat.not_lt_zero _)
  | cons b t ih =>
    intro m a i h
    show Memory.read (Memory.writeN (Memory.write m a b) (a + 1) t) (a + i) = _
    cases i with
    | zero => rw [Memory.read_writeN_other _ _ _ _ (by omega)]; exact Memory.read_write_same _ _ _
    | succ i =>
      have := ih (Memory.write m a b) (a + 1) i (by simpa using h)
      rw [show a + (i + 1) = a + 1 + i by omega, this]
      rfl

theorem Memory.readN_writeN (bs : List Byte) : ∀ (m : List Host.Cell) (a : Nat),
    Memory.readN (Memory.writeN m a bs) a bs.length = bs := by
  have gen : ∀ (n a : Nat) (m : List Host.Cell) (l : List Byte), l.length = n →
      (∀ i, (h : i < l.length) → Memory.read m (a + i) = l[i]) → Memory.readN m a n = l := by
    intro n
    induction n with
    | zero => intro a m l hl _; simp [Memory.readN, List.length_eq_zero_iff.mp hl]
    | succ n ih =>
      intro a m l hl hr
      match l, hl with
      | b :: t, hl =>
        have h0 : Memory.read m a = b := hr 0 (Nat.succ_pos _)
        have ht : Memory.readN m (a + 1) n = t := ih (a + 1) m t (by simpa using hl) (fun i h => by
          have := hr (i + 1) (by simpa using h)
          rw [show a + 1 + i = a + (i + 1) by omega]
          simpa using this)
        simp [Memory.readN, h0, ht]
  intro m a
  exact gen bs.length a _ bs rfl (fun i h => Memory.read_writeN_in bs m a i h)

theorem Memory.read_writeCells_other (cells : List (Nat × Byte)) : ∀ (m : List Host.Cell) (j : Nat),
    (∀ c ∈ cells, c.1 ≠ j) → Memory.read (Memory.writeCells m cells) j = Memory.read m j := by
  induction cells with
  | nil => intro m j _; rfl
  | cons c t ih =>
    intro m j h
    show Memory.read (Memory.writeCells (Memory.write m c.1 c.2) t) j = _
    rw [ih _ _ (fun d hd => h d (List.mem_cons_of_mem _ hd)),
      Memory.read_write_other _ _ (fun e => h c (List.mem_cons_self) e.symm)]

/-! ## The canonical form -/

/-- The canonical form as rising keys and values that differ from the reset bytes. -/
theorem Memory.wf_iff (m : List Host.Cell) : Memory.wf m = true ↔
    m.Pairwise (fun x y => x.1 < y.1) ∧ ∀ c ∈ m, c.2 ≠ resetByte c.1 := by
  induction m with
  | nil => simp [Memory.wf]
  | cons c t ih =>
    cases t with
    | nil => simp [Memory.wf]
    | cons c' t =>
      simp only [Memory.wf, Bool.and_eq_true, decide_eq_true_eq, ih]
      constructor
      · rintro ⟨⟨hc, hlt⟩, hp, hv⟩
        refine ⟨List.pairwise_cons.mpr ⟨?_, hp⟩, ?_⟩
        · intro d hd
          rcases List.mem_cons.mp hd with rfl | hd
          · exact hlt
          · exact Nat.lt_trans hlt ((List.pairwise_cons.mp hp).1 d hd)
        · intro d hd
          rcases List.mem_cons.mp hd with rfl | hd
          · exact hc
          · exact hv d hd
      · rintro ⟨hp, hv⟩
        obtain ⟨h1, h2⟩ := List.pairwise_cons.mp hp
        exact ⟨⟨hv c (by simp), h1 c' (by simp)⟩, h2, fun d hd => hv d (by simp [List.mem_cons.mp hd])⟩

theorem Table.mem_set {α : Type} (t : Table α) (k : Nat) (v : α) (c : Nat × α) (h : c ∈ Table.set t k v) :
    c = (k, v) ∨ c ∈ t := by
  induction t with
  | nil => exact .inl (by simpa [Table.set] using h)
  | cons e t ih =>
    obtain ⟨k', v'⟩ := e
    simp only [Table.set] at h
    split at h
    · rcases List.mem_cons.mp h with h | h
      · exact .inl h
      · exact .inr (List.mem_cons_of_mem _ h)
    · split at h
      · rcases List.mem_cons.mp h with h | h
        · exact .inl h
        · exact .inr h
      · rcases List.mem_cons.mp h with h | h
        · exact .inr (by simp [h])
        · rcases ih h with h | h
          · exact .inl h
          · exact .inr (List.mem_cons_of_mem _ h)

theorem Table.set_rising {α : Type} (t : Table α) (k : Nat) (v : α) (h : t.Pairwise (fun x y => x.1 < y.1)) :
    (Table.set t k v).Pairwise (fun x y => x.1 < y.1) := by
  induction t with
  | nil => simp [Table.set]
  | cons e t ih =>
    obtain ⟨k', v'⟩ := e
    obtain ⟨h1, h2⟩ := List.pairwise_cons.mp h
    simp only [Table.set]
    split
    · next e => subst e; exact List.pairwise_cons.mpr ⟨h1, h2⟩
    · split
      · next hlt =>
        refine List.pairwise_cons.mpr ⟨fun d hd => ?_, h⟩
        rcases List.mem_cons.mp hd with rfl | hd
        · exact hlt
        · exact Nat.lt_trans hlt (h1 d hd)
      · next hne hlt =>
        refine List.pairwise_cons.mpr ⟨fun d hd => ?_, ih h2⟩
        rcases Table.mem_set t k v d hd with rfl | hd
        · show k' < k
          have : k' ≠ k := hne
          omega
        · exact h1 d hd

theorem Memory.wf_write {m : List Host.Cell} (h : Memory.wf m = true) (a : Nat) (b : Byte) :
    Memory.wf (Memory.write m a b) = true := by
  rw [Memory.wf_iff] at h ⊢
  unfold Memory.write
  split
  · exact ⟨h.1.filter _, fun c hc => h.2 c (List.mem_of_mem_filter hc)⟩
  · next hb =>
    refine ⟨Table.set_rising _ _ _ h.1, fun c hc => ?_⟩
    rcases Table.mem_set _ _ _ _ hc with rfl | hc
    · exact hb
    · exact h.2 c hc

theorem Memory.wf_writeN (bs : List Byte) : ∀ {m : List Host.Cell}, Memory.wf m = true → ∀ a,
    Memory.wf (Memory.writeN m a bs) = true := by
  induction bs with
  | nil => intro m h _; exact h
  | cons b t ih => intro m h a; exact ih (Memory.wf_write h a b) (a + 1)

theorem Memory.wf_writeCells (cells : List (Nat × Byte)) : ∀ {m : List Host.Cell}, Memory.wf m = true →
    Memory.wf (Memory.writeCells m cells) = true := by
  induction cells with
  | nil => intro m h; exact h
  | cons c t ih => intro m h; exact ih (Memory.wf_write h c.1 c.2)

/-- Canonical memories that read alike at every address are equal. -/
theorem Memory.ext {m n : List Host.Cell} (hm : Memory.wf m = true) (hn : Memory.wf n = true)
    (h : ∀ a, Memory.read m a = Memory.read n a) : m = n := by
  rw [Memory.wf_iff] at hm hn
  have notIn : ∀ (l : List Host.Cell) (a : Nat), (∀ c ∈ l, a < c.1) → Memory.read l a = resetByte a := by
    intro l a hl
    induction l with
    | nil => rfl
    | cons c t ih =>
      have hc : ¬ c.1 = a := fun e => Nat.lt_irrefl a (e ▸ hl c (List.mem_cons_self))
      have := ih (fun d hd => hl d (List.mem_cons_of_mem _ hd))
      simpa [Memory.read, Table.get, hc] using this
  have head : ∀ (c : Host.Cell) (t : List Host.Cell), Memory.read (c :: t) c.1 = c.2 := by
    intro c t; simp [Memory.read, Table.get]
  induction m generalizing n with
  | nil =>
    cases n with
    | nil => rfl
    | cons d u => exact absurd ((head d u).symm.trans (h d.1).symm) (hn.2 d (List.mem_cons_self))
  | cons c t ih =>
    cases n with
    | nil => exact absurd ((head c t).symm.trans (h c.1)) (hm.2 c (List.mem_cons_self))
    | cons d u =>
      obtain ⟨hm1, hm2⟩ := List.pairwise_cons.mp hm.1
      obtain ⟨hn1, hn2⟩ := List.pairwise_cons.mp hn.1
      have hcd : c.1 = d.1 := by
        rcases Nat.lt_trichotomy c.1 d.1 with hlt | heq | hgt
        · have := notIn (d :: u) c.1 (fun x hx => by
            rcases List.mem_cons.mp hx with rfl | hx
            · exact hlt
            · exact Nat.lt_trans hlt (hn1 x hx))
          exact absurd ((head c t).symm.trans ((h c.1).trans this)) (hm.2 c (List.mem_cons_self))
        · exact heq
        · have := notIn (c :: t) d.1 (fun x hx => by
            rcases List.mem_cons.mp hx with rfl | hx
            · exact hgt
            · exact Nat.lt_trans hgt (hm1 x hx))
          exact absurd ((head d u).symm.trans ((h d.1).symm.trans this)) (hn.2 d (List.mem_cons_self))
      have hv : c.2 = d.2 := by rw [← head c t, ← head d u, hcd, h d.1]
      have heq : c = d := Prod.ext hcd hv
      subst heq
      congr 1
      refine ih ⟨hm2, fun x hx => hm.2 x (List.mem_cons_of_mem _ hx)⟩
        ⟨hn2, fun x hx => hn.2 x (List.mem_cons_of_mem _ hx)⟩ (fun a => ?_)
      by_cases ha : c.1 = a
      · subst ha; rw [notIn t c.1 hm1, notIn u c.1 hn1]
      · have := h a
        simpa [Memory.read, Table.get, ha] using this

/-! ## Through the state -/

@[simp] theorem State.read_writeN_out (s : State) (a j : Nat) (bs : List Byte) (h : j < a ∨ a + bs.length ≤ j) :
    (s.writeN a bs).read j = s.read j := Memory.read_writeN_other bs _ _ _ h

theorem State.read_writeN_in (s : State) (a i : Nat) (bs : List Byte) (h : i < bs.length) :
    (s.writeN a bs).read (a + i) = bs[i] := Memory.read_writeN_in bs _ _ _ h

theorem bytesOf_length (n x : Nat) : (bytesOf n x).length = n := by
  induction n generalizing x with
  | zero => rfl
  | succ n ih => simp [bytesOf, ih]

theorem ofBytes_bytesOf (n x : Nat) : ofBytes (bytesOf n x) = x % 256 ^ n := by
  induction n generalizing x with
  | zero => simp [bytesOf, ofBytes, Nat.mod_one]
  | succ n ih =>
    simp only [bytesOf, ofBytes, ih, BitVec.toNat_ofNat]
    rw [show 256 ^ (n + 1) = 256 * 256 ^ n by ring, Nat.mod_mul]

theorem State.readWord_writeWord (s : State) (a : Nat) (w : Word) : (s.writeWord a w).readWord a = w := by
  have h := Memory.readN_writeN (bytesOf 8 w.toNat) s.mem a
  rw [bytesOf_length] at h
  show BitVec.ofNat 64 (ofBytes (Memory.readN (Memory.writeN s.mem a (bytesOf 8 w.toNat)) a 8)) = w
  rw [h, ofBytes_bytesOf]
  apply BitVec.eq_of_toNat_eq
  have := w.isLt
  simp only [BitVec.toNat_ofNat]
  omega

/-- The state's memory is in canonical form. -/
def State.memOk (s : State) : Prop := Memory.wf s.mem = true

theorem State.memOk_writeN {s : State} (h : s.memOk) (a : Nat) (bs : List Byte) : (s.writeN a bs).memOk :=
  Memory.wf_writeN bs h a
theorem State.memOk_writeWord {s : State} (h : s.memOk) (a : Nat) (w : Word) : (s.writeWord a w).memOk :=
  Memory.wf_writeN _ h a
theorem State.memOk_writeLine {s : State} (h : s.memOk) (a : Nat) (v : BitVec 512) : (s.writeLine a v).memOk :=
  Memory.wf_writeN _ h a
/-- An update that keeps `mem` keeps the form. -/
theorem State.memOk_of_mem {s t : State} (h : s.memOk) (e : t.mem = s.mem) : t.memOk := by
  unfold State.memOk at *
  rw [e]; exact h

end Sys2Proof.Machine
end

