-- ==== Sys2Proof/Laws/Ops.lean ====
section
/-! SUPPORT. What each shared operation of a thread can do: issue, completion, register writes, operand waits, drains. -/

namespace Sys2Proof.Machine

open Sys2Proof

/-! ## Components under `count` -/

theorem State.count_ctx (s : State) (ctx idx n c : Nat) :
    (s.count ctx idx n).ctx c = { s.ctx c with run := ((s.count ctx idx n).ctx c).run } := by
  by_cases h : c = ctx
  · subst h; simp only [State.count, State.modCtx_same]
  · simp only [State.count, State.modCtx_other _ _ h]

theorem SameMemory.refl (s : State) : SameMemory s s := ⟨fun _ => rfl, rfl, rfl⟩

theorem SameMemory.of_fields {s t : State} (hm : t.mem = s.mem) (hl : t.lines = s.lines) (he : t.ecc = s.ecc) :
    SameMemory s t := ⟨fun a => by simp only [State.read, hm], hl, he⟩

theorem SameMemory.trans {s t u : State} (h : SameMemory s t) (h' : SameMemory t u) : SameMemory s u :=
  ⟨fun a => (h'.1 a).trans (h.1 a), h'.2.1.trans h.2.1, h'.2.2.trans h.2.2⟩

theorem IssueOnly.refl (s : State) : IssueOnly s s :=
  ⟨rfl, fun _ _ => rfl, fun _ => rfl, fun _ => rfl, SameMemory.refl s⟩

theorem IssueOnly.cur {s t : State} (h : IssueOnly s t) : t.cur = s.cur := by rw [h.1]

theorem IssueOnly.trans {s t u : State} (h : IssueOnly s t) (h' : IssueOnly t u) : IssueOnly s u := by
  obtain ⟨h1, h2, h3, h4, h5⟩ := h
  have hc : t.cur = s.cur := by rw [h1]
  obtain ⟨k1, k2, k3, k4, k5⟩ := h'
  refine ⟨?_, fun x hx => (k2 x (by rw [hc]; exact hx)).trans (h2 x hx), fun c => ?_, fun c => ?_, h5.trans k5⟩
  · rw [k1, h1]
  · rw [k3 c, h3 c]
  · rw [k4 c, h4 c]

/-- A count of one context. -/
theorem IssueOnly.count (s : State) (ctx idx n : Nat) : IssueOnly s (s.count ctx idx n) :=
  ⟨rfl, fun _ _ => rfl, fun _ => rfl, fun c => State.count_ctx s ctx idx n c, SameMemory.refl s⟩

/-- A change of a core's scalar order. -/
theorem IssueOnly.order (s : State) (core : Nat) (f : Core → List Nat) :
    IssueOnly s (s.modCore core (fun c => { c with sOrder := f c })) := by
  refine ⟨rfl, fun _ _ => rfl, fun c => ?_, fun _ => rfl, SameMemory.refl s⟩
  by_cases h : c = core
  · subst h; simp only [State.modCore_same]
  · simp only [State.modCore_other _ _ h]

/-- A change of the running thread. -/
theorem IssueOnly.thread (s : State) (f : Thread → Thread) : IssueOnly s (s.modTh f) :=
  ⟨rfl, fun _ h => State.modTh_other s f h, fun _ => rfl, fun _ => rfl, SameMemory.refl s⟩

/-! ## Issue and completion -/

/-- An issue changes the order of its core's scalar slot and running counts, and no thread. -/
theorem State.issued_only (s : State) : IssueOnly s s.issued ∧ s.issued.threads = s.threads := by
  have h1 := (IssueOnly.order s s.curCore (fun c => rotate c.sOrder s.curSlot)).trans (IssueOnly.count _ s.curCtx 32 1)
  unfold State.issued
  dsimp only
  split
  · split
    · exact ⟨h1.trans (IssueOnly.count _ _ 34 1), rfl⟩
    · exact ⟨h1, rfl⟩
  · exact ⟨h1, rfl⟩

@[simp] theorem State.issued_cur (s : State) : s.issued.cur = s.cur := s.issued_only.1.cur
@[simp] theorem State.issued_npc (s : State) : s.issued.npc = s.npc := by rw [s.issued_only.1.1]
@[simp] theorem State.issued_mem (s : State) : s.issued.mem = s.mem := by rw [s.issued_only.1.1]
@[simp] theorem State.issued_thread (s : State) (t : Nat) : s.issued.thread t = s.thread t := by
  simp only [State.thread, s.issued_only.2]
@[simp] theorem State.issued_th (s : State) : s.issued.th = s.th := by simp only [State.th, State.issued_cur, State.issued_thread]

/-- The running instruction completes. -/
theorem State.advance_completed (s : State) : Completed s s.advance s.th := by
  refine ⟨s.issued_only.1.trans (IssueOnly.thread _ _), ?_⟩
  have hc : s.advance.cur = s.issued.cur := rfl
  unfold State.advance
  simp only [State.modTh_same, State.issued_th, State.issued_npc]

/-- The running instruction completes by a taken branch. -/
theorem State.jump_jumped (s : State) (target : Word) : Jumped s (s.jump target) s.th target := by
  refine ⟨s.issued_only.1.trans (IssueOnly.thread _ _), ?_⟩
  unfold State.jump
  simp only [State.modTh_same, State.issued_th]

/-- Completion after a change of the running thread that keeps its PC. -/
theorem Completed.after {s : State} {f : Thread → Thread} {t : State} {th : Thread} (h : Completed (s.modTh f) t th)
    (hpc : (f s.th).pc = s.th.pc) : Completed s t th := by
  refine ⟨(IssueOnly.thread s f).trans h.1, ?_⟩
  rw [h.2, State.modTh_same, hpc]
  rfl

theorem Jumped.after {s : State} {f : Thread → Thread} {t : State} {th : Thread} {p : Word} (h : Jumped (s.modTh f) t th p)
    (hpc : (f s.th).pc = s.th.pc) : Jumped s t th p := by
  refine ⟨(IssueOnly.thread s f).trans h.1, ?_⟩
  rw [h.2, State.modTh_same, hpc]

/-- The running thread changed by `f`, then completion. -/
theorem State.modTh_completed (s : State) (f : Thread → Thread) (hpc : (f s.th).pc = s.th.pc) :
    Completed s (s.modTh f).advance (f s.th) := by
  have h := (s.modTh f).advance_completed
  rw [State.modTh_same] at h
  exact h.after hpc

/-! ## Register writes -/

/-- The thread that `putG` leaves. -/
def putThread (d : BitVec 5) (v : Word) (th : Thread) : Thread :=
  { th.wg d v with seq := (th.wg d v).seq.fill d v
                   image := (th.wg d v).image.map (fun i => { i with seq := i.seq.fill d v }) }

theorem State.putG_eq (s : State) (d : BitVec 5) (v : Word) :
    s.putG d v = if d = 0 then s else s.modTh (putThread d v) := rfl

theorem putThread_writes (th : Thread) {d : BitVec 5} (v : Word) (h : d ≠ 0) : WritesG th (putThread d v th) d v := by
  have hw : th.wg d v = { th with g := th.g.set d.toNat v d.isLt, gFull := th.gFull ||| BitVec.ofNat 32 (2 ^ d.toNat)
                                  regEcc := th.regEcc.del d.toNat } := by
    unfold Thread.wg; rw [if_neg h]
  refine ⟨?_, fun n => ?_, fun r => ?_, fun r => ?_, ?_, ?_⟩
  · simp only [putThread, hw]
  · show (th.wg d v).hurt n = _
    by_cases hn : n = d.toNat
    · rw [hn, Thread.hurt_wg_same _ _ h, if_pos ⟨rfl, h⟩]
    · rw [Thread.hurt_wg_other _ _ hn, if_neg (fun x => hn x.1)]
  · show (th.wg d v).rg r = _
    by_cases hr : r = d
    · subst hr; rw [Thread.rg_wg_same _ _ h, if_pos ⟨rfl, h⟩]
    · rw [Thread.rg_wg_other _ _ hr, if_neg (fun x => hr x.1)]
  · show (th.wg d v).fullG r = _
    by_cases hr : r = d
    · subst hr; simp
    · rw [Thread.fullG_wg_other _ _ hr]; simp [hr]
  · simp only [putThread, Thread.wg_seq, if_neg h]
  · simp only [putThread, Thread.wg_image, if_neg h]

theorem writesG_zero (th : Thread) (v : Word) : WritesG th th 0 v := by
  refine ⟨rfl, fun n => ?_, fun r => ?_, fun r => ?_, rfl, rfl⟩
  · rw [if_neg (fun x => x.2 rfl)]
  · rw [if_neg (fun x => x.2 x.1)]
  · by_cases hr : r = 0
    · subst hr; rfl
    · have h' : ¬ r = 0#5 := hr
      simp [h']

/-- `putG` then completion: the instruction yields its value. -/
theorem State.putG_yields (s : State) (d : BitVec 5) (v : Word) : Yields s (s.putG d v).advance d v := by
  rw [State.putG_eq]
  split
  · next h => subst h; exact ⟨s.th, writesG_zero _ _, s.advance_completed⟩
  · next h => exact ⟨putThread d v s.th, putThread_writes _ _ h, s.modTh_completed _ (by simp [putThread])⟩

/-- `putG` then a jump. -/
theorem State.putG_jumps (s : State) (d : BitVec 5) (v p : Word) :
    ∃ th, WritesG s.th th d v ∧ Jumped s ((s.putG d v).jump p) th p := by
  rw [State.putG_eq]
  split
  · next h => subst h; exact ⟨s.th, writesG_zero _ _, s.jump_jumped p⟩
  · next h =>
    refine ⟨putThread d v s.th, putThread_writes _ _ h, ?_⟩
    have := (s.modTh (putThread d v)).jump_jumped p
    rw [State.modTh_same] at this
    exact this.after (by simp [putThread])

@[simp] theorem State.putG_mem (s : State) (d : BitVec 5) (v : Word) : (s.putG d v).mem = s.mem := by
  rw [State.putG_eq]; split <;> rfl
@[simp] theorem State.advance_mem (s : State) : s.advance.mem = s.mem := s.issued_mem
@[simp] theorem State.jump_mem (s : State) (p : Word) : (s.jump p).mem = s.mem := s.issued_mem
@[simp] theorem State.park_mem (s : State) (w : Wait) : (s.park w).mem = s.mem := rfl

/-! ## Operands and drains -/

/-- With every register full the instruction goes on at once. -/
theorem State.withG_full {s : State} {rs : List (BitVec 5)} (h : FullAll s rs) (k : State → State) : s.withG rs k = k s := by
  have h1 : rs.find? (fun r => !s.th.fullG r && s.th.ramo.getLsbD r.toNat) = none := by
    rw [List.find?_eq_none]
    intro r hr
    simp [h.1 r hr]
  have h2 : rs.all (fun r => s.th.fullG r) = true := List.all_eq_true.mpr h.1
  have h3 : (rs.map BitVec.toNat).all (fun n => s.th.hurt n = none) = true := by
    simp only [List.all_map, List.all_eq_true, Function.comp, decide_eq_true_eq]; exact h.2
  simp only [State.withG, h1, h2, if_true, State.readRegs, h3]

/-- With an empty register that no RAMO result is due in, the stream parks on the empty ones and nothing else happens. -/
theorem State.withG_parks {s : State} {rs : List (BitVec 5)} (h : ∃ r ∈ rs, s.th.fullG r = false)
    (hr : ∀ r ∈ rs, s.th.fullG r = true ∨ s.th.ramo.getLsbD r.toNat = false) (k : State → State) :
    s.withG rs k = s.park (.regs (gMask (rs.filter (fun r => !s.th.fullG r)))) := by
  have h1 : rs.find? (fun r => !s.th.fullG r && s.th.ramo.getLsbD r.toNat) = none := by
    rw [List.find?_eq_none]
    intro r hm
    rcases hr r hm with h | h <;> simp [h]
  have h2 : ¬ rs.all (fun r => s.th.fullG r) = true := by
    obtain ⟨r, hm, hf⟩ := h
    intro e
    simp [List.all_eq_true.mp e r hm] at hf
  simp only [State.withG, h1, h2, if_false, Bool.false_eq_true]

theorem State.withVector_free {s : State} (h : s.th.vectorMem = false) (k : State → State) : s.withVector k = k s := by
  simp [State.withVector, h]

/-- A queue whose lines no operation has still to write, with sound words and no wait noted, is acted on at once. -/
theorem State.withQueue_free {s : State} {ctx cluster : Nat} (hw : queueWait s ctx cluster = none)
    (hm : queueMarks s ctx cluster = []) (hq : (s.cluster cluster).qStall = none) (k : State → State) :
    s.withQueue ctx cluster k = k s := by
  simp [State.withQueue, hw, hm, hq]

theorem State.withDrain_empty {s : State} (h : s.th.sb = []) (k : State → State) : s.withDrain k = k s := by
  simp [State.withDrain, h, drainAll]

/-! ## Trace records and traps -/

/-- Beside memory, the undo lines and the contexts' tables nothing changed. -/
def TraceOnly (s t : State) : Prop :=
  t = { s with mem := t.mem, ctxs := t.ctxs, dies := t.dies } ∧ ∀ d, t.die d = { s.die d with undos := (t.die d).undos }

theorem TraceOnly.refl (s : State) : TraceOnly s s := ⟨rfl, fun _ => rfl⟩
theorem TraceOnly.trans {s t u : State} (h : TraceOnly s t) (h' : TraceOnly t u) : TraceOnly s u :=
  ⟨by rw [h'.1, h.1], fun d => by rw [h'.2, h.2]⟩
theorem TraceOnly.writeN (s : State) (a : Nat) (bs : List Byte) : TraceOnly s (s.writeN a bs) := ⟨rfl, fun _ => rfl⟩
theorem TraceOnly.modDctx (s : State) (d c : Nat) (f) : TraceOnly s (s.modDctx d c f) := ⟨rfl, fun _ => rfl⟩
theorem TraceOnly.modUndos (s : State) (k : Nat) (f : Die → List Undo) :
    TraceOnly s (s.modDie k (fun d => { d with undos := f d })) := by
  refine ⟨rfl, fun d => ?_⟩
  by_cases h : d = k
  · subst h; simp [State.modDie]
  · simp [State.modDie, State.setDie_other _ _ h]
theorem TraceOnly.landEach {land : State → Nat → Byte → State} (h : ∀ s a b, TraceOnly s (land s a b)) (bs : List Byte) :
    ∀ s a, TraceOnly s (landEach land s a bs) := by
  induction bs with
  | nil => exact fun s _ => .refl s
  | cons b t ih => exact fun s a => (h s a b).trans (ih ..)
theorem TraceOnly.landDieWord (s : State) (die a : Nat) (w : Word) : TraceOnly s (landDieWord s die a w) :=
  .landEach (fun s _ _ => (TraceOnly.modUndos s die _).trans (.writeN ..)) ..

theorem State.trace_only (s : State) (die ctx type : Nat) (who) (p) : TraceOnly s (s.trace die ctx type who p) := by
  simp only [State.trace]
  generalize s.dctx die ctx = x
  split
  · split
    · exact .modDctx ..
    · exact .trans (.trans (.trans (.trans (.landDieWord ..) (.landDieWord ..)) (.landDieWord ..)) (.landDieWord ..)) (.landDieWord ..)
  · exact .refl s

theorem State.trace_off {s : State} {die ctx type : Nat} {who} {p} (h : (s.dctx die ctx).trEn.getLsbD (type - 1) = false) :
   s.trace die ctx type who p = s := by
  simp only [State.trace, h, Bool.false_eq_true, if_false]

@[simp] theorem State.issued_ctxOf (s : State) (t : Nat) : s.issued.ctxOf t = s.ctxOf t := by
  have := s.issued_only
  unfold State.ctxOf
  rw [State.issued_thread]
  have hd : s.issued.dies = s.dies := by rw [this.1.1]
  simp only [State.die, hd]

@[simp] theorem State.issued_dctx (s : State) (d c : Nat) : s.issued.dctx d c = s.dctx d c := by
  unfold State.dctx; rw [s.issued_only.1.2.2.2.1 c]

/-- A precise trap taken at level S (R432, R433). -/
theorem State.raise_traps {s : State} (h : TakesS s) (code : Nat) (tval : Word) (wr : Bool) (hc : code ≠ 15 ∨ s.th.mode = .u) :
   Trapped s (s.raise code tval wr) code tval s.th.pc wr := by
  obtain ⟨h1, h2, h3, h4⟩ := h
  have hth : s.issued.thread s.cur = s.th := by rw [State.issued_thread]; rfl
  have hr : s.issued.ready s.cur = s.issued := by
    unfold State.ready; rw [hth]; exact if_pos h1
  have hM : ((decide (code = 15) && decide (s.th.mode ≠ .u)) || (decide (s.th.mode = .m) && decide (code ≠ 5)) || (false && s.th.image.isSome) || s.th.strap.st) = false := by
    rcases hc with hc | hc
    · simp [hc, h4, h3]
    · simp [hc, h3]
  have hcx : ∀ c, (s.issued.ctx c).tvec = (s.ctx c).tvec := fun c => by rw [s.issued_only.1.2.2.2.1 c]
  have e : ∃ u who p, s.raise code tval wr = State.trace u (dieOf (coreOf s.cur)) (u.ctxOf s.cur) 4 who p ∧ u = 
     (s.issued.modThread s.cur (fun th => { th with
        strap := { th.strap with st := true, pm := th.mode, epc := evenPc s.th.pc, tval := tval, cause := causeWord code false wr false false },
        mode := .s, pc := (s.ctx s.curCtx).tvec, came := 0, cameBr := false, stall := none })) := by
    unfold State.raise
    rw [h2, if_neg (by decide)]
    unfold enterTrap
    simp only [hth]
    rw [if_neg (by rw [hM]; decide), hr]
    simp only [State.issued_ctxOf, hcx]
    exact ⟨_, _, _, rfl, rfl⟩
  obtain ⟨u, who, p, e, hu⟩ := e
  have hT := State.trace_only u (dieOf (coreOf s.cur)) (u.ctxOf s.cur) 4 who p
  rw [← e] at hT
  have hI : IssueOnly s u := by
    rw [hu, show s.issued.modThread s.cur = s.issued.modTh by unfold State.modTh; rw [State.issued_cur]]
    exact s.issued_only.1.trans (.thread _ _)
  have hthr : ∀ x, (s.raise code tval wr).thread x = u.thread x := fun x => by
    unfold State.thread; rw [hT.1]
  refine ⟨?_, fun x hx => ?_, ?_, fun d => ?_, fun ho => ?_⟩
  · have hcur : (s.raise code tval wr).cur = s.cur := by rw [hT.1]; exact hI.cur
    unfold State.th
    rw [hcur, hthr, hu]
    rw [State.modThread_same, hth]
    have : causeWord code false wr false false = word (code + 512 * bit wr) := by
      simp [causeWord, bit]
    rw [this]
    rfl
  · rw [hthr]; exact hI.2.1 x hx
  · have := hI.1
    rw [hT.1, this]
  · have : u.dies = s.dies := by rw [hI.1]
    rw [hT.2 d]; simp only [State.die, this]
  · have hx : u.ctxOf s.cur = s.curCtx := by
      rw [hu]
      unfold State.ctxOf
      rw [State.modThread_same, hth]
      have hd : (s.issued.modThread s.cur (fun th => { th with
        strap := { th.strap with st := true, pm := th.mode, epc := evenPc s.th.pc, tval := tval, cause := causeWord code false wr false false },
        mode := .s, pc := (s.ctx s.curCtx).tvec, came := 0, cameBr := false, stall := none })).dies = s.dies := by
          show s.issued.dies = s.dies
          rw [s.issued_only.1.1]
      simp only [State.die, hd]
      rfl
    rw [e, State.trace_off]
    · exact hI
    · rw [hx]
      have : u.dctx s.curDie s.curCtx = s.dctx s.curDie s.curCtx := by
        unfold State.dctx; rw [hI.2.2.2.1]
      exact (congrArg (fun x => x.trEn.getLsbD 3) this).trans ho

theorem traps_of {i : Instr} {s : State} {code : Nat} {tval : Word} {wr : Bool} (h : TakesS s)
    (e : exec i s = .next (s.raise code tval wr)) (hc : code ≠ 15 := by decide) : Traps i s code tval wr :=
  ⟨_, e, State.raise_traps h code tval wr (.inl hc)⟩

end Sys2Proof.Machine
end

