-- ==== Sys2Proof/Laws/Words.lean ====
section
/-! SUPPORT. The layouts of spec/02_encoding.md Table 2.2 read back: each field of an encoded word, and the form of an
instruction's halfwords. -/

namespace Sys2Proof

theorem joinHalves_halves (w : W32) : joinHalves (w.extractLsb' 0 16) (w.extractLsb' 16 16) = w := by
  unfold joinHalves
  apply BitVec.eq_of_getLsbD_eq
  intro i hi
  rw [BitVec.getLsbD_append]
  split
  · next h => rw [BitVec.getLsbD_extractLsb', Nat.zero_add]; simp [h]
  · next h =>
    rw [BitVec.getLsbD_extractLsb', show 16 + (i - 16) = i by omega]
    have : i - 16 < 16 := by omega
    simp [this]

/-- The low bits of a word are those of its first halfword. -/
theorem halves_bit (w : W32) {k : Nat} (h : k < 16) : (w.extractLsb' 0 16).getLsbD k = w.getLsbD k := by
  rw [BitVec.getLsbD_extractLsb', Nat.zero_add]
  simp [h]

/-! ## wordR -/

@[simp] theorem wordR_f (maj : BitVec 6) (f : BitVec 9) (b a d : BitVec 5) : (wordR maj f b a d).extractLsb' 23 9 = f := by
  unfold wordR
  apply BitVec.eq_of_getLsbD_eq
  intro i hi
  rw [BitVec.getLsbD_extractLsb']
  repeat (first | rw [BitVec.getLsbD_append, if_neg (by omega)] | rw [BitVec.getLsbD_append, if_pos (by omega)])
  simp only [hi, decide_true, Bool.true_and]
  exact congrArg _ (by omega)

@[simp] theorem wordR_b (maj : BitVec 6) (f : BitVec 9) (b a d : BitVec 5) : (wordR maj f b a d).extractLsb' 18 5 = b := by
  unfold wordR
  apply BitVec.eq_of_getLsbD_eq
  intro i hi
  rw [BitVec.getLsbD_extractLsb']
  repeat (first | rw [BitVec.getLsbD_append, if_neg (by omega)] | rw [BitVec.getLsbD_append, if_pos (by omega)])
  simp only [hi, decide_true, Bool.true_and]
  exact congrArg _ (by omega)

@[simp] theorem wordR_a (maj : BitVec 6) (f : BitVec 9) (b a d : BitVec 5) : (wordR maj f b a d).extractLsb' 13 5 = a := by
  unfold wordR
  apply BitVec.eq_of_getLsbD_eq
  intro i hi
  rw [BitVec.getLsbD_extractLsb']
  repeat (first | rw [BitVec.getLsbD_append, if_neg (by omega)] | rw [BitVec.getLsbD_append, if_pos (by omega)])
  simp only [hi, decide_true, Bool.true_and]
  exact congrArg _ (by omega)

@[simp] theorem wordR_d (maj : BitVec 6) (f : BitVec 9) (b a d : BitVec 5) : (wordR maj f b a d).extractLsb' 8 5 = d := by
  unfold wordR
  apply BitVec.eq_of_getLsbD_eq
  intro i hi
  rw [BitVec.getLsbD_extractLsb']
  repeat (first | rw [BitVec.getLsbD_append, if_neg (by omega)] | rw [BitVec.getLsbD_append, if_pos (by omega)])
  simp only [hi, decide_true, Bool.true_and]
  exact congrArg _ (by omega)

@[simp] theorem wordR_maj (maj : BitVec 6) (f : BitVec 9) (b a d : BitVec 5) : (wordR maj f b a d).extractLsb' 2 6 = maj := by
  unfold wordR
  apply BitVec.eq_of_getLsbD_eq
  intro i hi
  rw [BitVec.getLsbD_extractLsb']
  repeat (first | rw [BitVec.getLsbD_append, if_neg (by omega)] | rw [BitVec.getLsbD_append, if_pos (by omega)])
  simp only [hi, decide_true, Bool.true_and]
  exact congrArg _ (by omega)

theorem wordR_low (maj : BitVec 6) (f : BitVec 9) (b a d : BitVec 5) : (wordR maj f b a d).getLsbD 0 = true ∧ (wordR maj f b a d).getLsbD 1 = false := by
  unfold wordR
  exact ⟨by rw [BitVec.getLsbD_append, if_pos (by omega)]; rfl, by rw [BitVec.getLsbD_append, if_pos (by omega)]; rfl⟩

/-! ## wordIF -/

@[simp] theorem wordIF_imm (maj : BitVec 6) (fn3 : BitVec 3) (imm : BitVec 11) (a d : BitVec 5) : (wordIF maj fn3 imm a d).extractLsb' 21 11 = imm := by
  unfold wordIF
  apply BitVec.eq_of_getLsbD_eq
  intro i hi
  rw [BitVec.getLsbD_extractLsb']
  repeat (first | rw [BitVec.getLsbD_append, if_neg (by omega)] | rw [BitVec.getLsbD_append, if_pos (by omega)])
  simp only [hi, decide_true, Bool.true_and]
  exact congrArg _ (by omega)

@[simp] theorem wordIF_fn3 (maj : BitVec 6) (fn3 : BitVec 3) (imm : BitVec 11) (a d : BitVec 5) : (wordIF maj fn3 imm a d).extractLsb' 18 3 = fn3 := by
  unfold wordIF
  apply BitVec.eq_of_getLsbD_eq
  intro i hi
  rw [BitVec.getLsbD_extractLsb']
  repeat (first | rw [BitVec.getLsbD_append, if_neg (by omega)] | rw [BitVec.getLsbD_append, if_pos (by omega)])
  simp only [hi, decide_true, Bool.true_and]
  exact congrArg _ (by omega)

@[simp] theorem wordIF_a (maj : BitVec 6) (fn3 : BitVec 3) (imm : BitVec 11) (a d : BitVec 5) : (wordIF maj fn3 imm a d).extractLsb' 13 5 = a := by
  unfold wordIF
  apply BitVec.eq_of_getLsbD_eq
  intro i hi
  rw [BitVec.getLsbD_extractLsb']
  repeat (first | rw [BitVec.getLsbD_append, if_neg (by omega)] | rw [BitVec.getLsbD_append, if_pos (by omega)])
  simp only [hi, decide_true, Bool.true_and]
  exact congrArg _ (by omega)

@[simp] theorem wordIF_d (maj : BitVec 6) (fn3 : BitVec 3) (imm : BitVec 11) (a d : BitVec 5) : (wordIF maj fn3 imm a d).extractLsb' 8 5 = d := by
  unfold wordIF
  apply BitVec.eq_of_getLsbD_eq
  intro i hi
  rw [BitVec.getLsbD_extractLsb']
  repeat (first | rw [BitVec.getLsbD_append, if_neg (by omega)] | rw [BitVec.getLsbD_append, if_pos (by omega)])
  simp only [hi, decide_true, Bool.true_and]
  exact congrArg _ (by omega)

@[simp] theorem wordIF_maj (maj : BitVec 6) (fn3 : BitVec 3) (imm : BitVec 11) (a d : BitVec 5) : (wordIF maj fn3 imm a d).extractLsb' 2 6 = maj := by
  unfold wordIF
  apply BitVec.eq_of_getLsbD_eq
  intro i hi
  rw [BitVec.getLsbD_extractLsb']
  repeat (first | rw [BitVec.getLsbD_append, if_neg (by omega)] | rw [BitVec.getLsbD_append, if_pos (by omega)])
  simp only [hi, decide_true, Bool.true_and]
  exact congrArg _ (by omega)

theorem wordIF_low (maj : BitVec 6) (fn3 : BitVec 3) (imm : BitVec 11) (a d : BitVec 5) : (wordIF maj fn3 imm a d).getLsbD 0 = true ∧ (wordIF maj fn3 imm a d).getLsbD 1 = false := by
  unfold wordIF
  exact ⟨by rw [BitVec.getLsbD_append, if_pos (by omega)]; rfl, by rw [BitVec.getLsbD_append, if_pos (by omega)]; rfl⟩

/-! ## wordI -/

@[simp] theorem wordI_imm (maj : BitVec 6) (imm : BitVec 14) (a d : BitVec 5) : (wordI maj imm a d).extractLsb' 18 14 = imm := by
  unfold wordI
  apply BitVec.eq_of_getLsbD_eq
  intro i hi
  rw [BitVec.getLsbD_extractLsb']
  repeat (first | rw [BitVec.getLsbD_append, if_neg (by omega)] | rw [BitVec.getLsbD_append, if_pos (by omega)])
  simp only [hi, decide_true, Bool.true_and]
  exact congrArg _ (by omega)

@[simp] theorem wordI_a (maj : BitVec 6) (imm : BitVec 14) (a d : BitVec 5) : (wordI maj imm a d).extractLsb' 13 5 = a := by
  unfold wordI
  apply BitVec.eq_of_getLsbD_eq
  intro i hi
  rw [BitVec.getLsbD_extractLsb']
  repeat (first | rw [BitVec.getLsbD_append, if_neg (by omega)] | rw [BitVec.getLsbD_append, if_pos (by omega)])
  simp only [hi, decide_true, Bool.true_and]
  exact congrArg _ (by omega)

@[simp] theorem wordI_d (maj : BitVec 6) (imm : BitVec 14) (a d : BitVec 5) : (wordI maj imm a d).extractLsb' 8 5 = d := by
  unfold wordI
  apply BitVec.eq_of_getLsbD_eq
  intro i hi
  rw [BitVec.getLsbD_extractLsb']
  repeat (first | rw [BitVec.getLsbD_append, if_neg (by omega)] | rw [BitVec.getLsbD_append, if_pos (by omega)])
  simp only [hi, decide_true, Bool.true_and]
  exact congrArg _ (by omega)

@[simp] theorem wordI_maj (maj : BitVec 6) (imm : BitVec 14) (a d : BitVec 5) : (wordI maj imm a d).extractLsb' 2 6 = maj := by
  unfold wordI
  apply BitVec.eq_of_getLsbD_eq
  intro i hi
  rw [BitVec.getLsbD_extractLsb']
  repeat (first | rw [BitVec.getLsbD_append, if_neg (by omega)] | rw [BitVec.getLsbD_append, if_pos (by omega)])
  simp only [hi, decide_true, Bool.true_and]
  exact congrArg _ (by omega)

theorem wordI_low (maj : BitVec 6) (imm : BitVec 14) (a d : BitVec 5) : (wordI maj imm a d).getLsbD 0 = true ∧ (wordI maj imm a d).getLsbD 1 = false := by
  unfold wordI
  exact ⟨by rw [BitVec.getLsbD_append, if_pos (by omega)]; rfl, by rw [BitVec.getLsbD_append, if_pos (by omega)]; rfl⟩

/-! ## wordU -/

@[simp] theorem wordU_imm (maj : BitVec 6) (fn : BitVec 1) (imm : BitVec 18) (d : BitVec 5) : (wordU maj fn imm d).extractLsb' 14 18 = imm := by
  unfold wordU
  apply BitVec.eq_of_getLsbD_eq
  intro i hi
  rw [BitVec.getLsbD_extractLsb']
  repeat (first | rw [BitVec.getLsbD_append, if_neg (by omega)] | rw [BitVec.getLsbD_append, if_pos (by omega)])
  simp only [hi, decide_true, Bool.true_and]
  exact congrArg _ (by omega)

@[simp] theorem wordU_fn (maj : BitVec 6) (fn : BitVec 1) (imm : BitVec 18) (d : BitVec 5) : (wordU maj fn imm d).extractLsb' 13 1 = fn := by
  unfold wordU
  apply BitVec.eq_of_getLsbD_eq
  intro i hi
  rw [BitVec.getLsbD_extractLsb']
  repeat (first | rw [BitVec.getLsbD_append, if_neg (by omega)] | rw [BitVec.getLsbD_append, if_pos (by omega)])
  simp only [hi, decide_true, Bool.true_and]
  exact congrArg _ (by omega)

@[simp] theorem wordU_d (maj : BitVec 6) (fn : BitVec 1) (imm : BitVec 18) (d : BitVec 5) : (wordU maj fn imm d).extractLsb' 8 5 = d := by
  unfold wordU
  apply BitVec.eq_of_getLsbD_eq
  intro i hi
  rw [BitVec.getLsbD_extractLsb']
  repeat (first | rw [BitVec.getLsbD_append, if_neg (by omega)] | rw [BitVec.getLsbD_append, if_pos (by omega)])
  simp only [hi, decide_true, Bool.true_and]
  exact congrArg _ (by omega)

@[simp] theorem wordU_maj (maj : BitVec 6) (fn : BitVec 1) (imm : BitVec 18) (d : BitVec 5) : (wordU maj fn imm d).extractLsb' 2 6 = maj := by
  unfold wordU
  apply BitVec.eq_of_getLsbD_eq
  intro i hi
  rw [BitVec.getLsbD_extractLsb']
  repeat (first | rw [BitVec.getLsbD_append, if_neg (by omega)] | rw [BitVec.getLsbD_append, if_pos (by omega)])
  simp only [hi, decide_true, Bool.true_and]
  exact congrArg _ (by omega)

theorem wordU_low (maj : BitVec 6) (fn : BitVec 1) (imm : BitVec 18) (d : BitVec 5) : (wordU maj fn imm d).getLsbD 0 = true ∧ (wordU maj fn imm d).getLsbD 1 = false := by
  unfold wordU
  exact ⟨by rw [BitVec.getLsbD_append, if_pos (by omega)]; rfl, by rw [BitVec.getLsbD_append, if_pos (by omega)]; rfl⟩

/-! ## wordBS -/

@[simp] theorem wordBS_offHi (maj : BitVec 6) (fn3 : BitVec 3) (off : BitVec 11) (b a : BitVec 5) : (wordBS maj fn3 off b a).extractLsb' 26 6 = off.extractLsb' 5 6 := by
  unfold wordBS
  apply BitVec.eq_of_getLsbD_eq
  intro i hi
  rw [BitVec.getLsbD_extractLsb']
  repeat (first | rw [BitVec.getLsbD_append, if_neg (by omega)] | rw [BitVec.getLsbD_append, if_pos (by omega)])
  simp only [hi, decide_true, Bool.true_and]
  exact congrArg _ (by omega)

@[simp] theorem wordBS_fn3 (maj : BitVec 6) (fn3 : BitVec 3) (off : BitVec 11) (b a : BitVec 5) : (wordBS maj fn3 off b a).extractLsb' 23 3 = fn3 := by
  unfold wordBS
  apply BitVec.eq_of_getLsbD_eq
  intro i hi
  rw [BitVec.getLsbD_extractLsb']
  repeat (first | rw [BitVec.getLsbD_append, if_neg (by omega)] | rw [BitVec.getLsbD_append, if_pos (by omega)])
  simp only [hi, decide_true, Bool.true_and]
  exact congrArg _ (by omega)

@[simp] theorem wordBS_b (maj : BitVec 6) (fn3 : BitVec 3) (off : BitVec 11) (b a : BitVec 5) : (wordBS maj fn3 off b a).extractLsb' 18 5 = b := by
  unfold wordBS
  apply BitVec.eq_of_getLsbD_eq
  intro i hi
  rw [BitVec.getLsbD_extractLsb']
  repeat (first | rw [BitVec.getLsbD_append, if_neg (by omega)] | rw [BitVec.getLsbD_append, if_pos (by omega)])
  simp only [hi, decide_true, Bool.true_and]
  exact congrArg _ (by omega)

@[simp] theorem wordBS_a (maj : BitVec 6) (fn3 : BitVec 3) (off : BitVec 11) (b a : BitVec 5) : (wordBS maj fn3 off b a).extractLsb' 13 5 = a := by
  unfold wordBS
  apply BitVec.eq_of_getLsbD_eq
  intro i hi
  rw [BitVec.getLsbD_extractLsb']
  repeat (first | rw [BitVec.getLsbD_append, if_neg (by omega)] | rw [BitVec.getLsbD_append, if_pos (by omega)])
  simp only [hi, decide_true, Bool.true_and]
  exact congrArg _ (by omega)

@[simp] theorem wordBS_offLo (maj : BitVec 6) (fn3 : BitVec 3) (off : BitVec 11) (b a : BitVec 5) : (wordBS maj fn3 off b a).extractLsb' 8 5 = off.extractLsb' 0 5 := by
  unfold wordBS
  apply BitVec.eq_of_getLsbD_eq
  intro i hi
  rw [BitVec.getLsbD_extractLsb']
  repeat (first | rw [BitVec.getLsbD_append, if_neg (by omega)] | rw [BitVec.getLsbD_append, if_pos (by omega)])
  simp only [hi, decide_true, Bool.true_and]
  exact congrArg _ (by omega)

@[simp] theorem wordBS_maj (maj : BitVec 6) (fn3 : BitVec 3) (off : BitVec 11) (b a : BitVec 5) : (wordBS maj fn3 off b a).extractLsb' 2 6 = maj := by
  unfold wordBS
  apply BitVec.eq_of_getLsbD_eq
  intro i hi
  rw [BitVec.getLsbD_extractLsb']
  repeat (first | rw [BitVec.getLsbD_append, if_neg (by omega)] | rw [BitVec.getLsbD_append, if_pos (by omega)])
  simp only [hi, decide_true, Bool.true_and]
  exact congrArg _ (by omega)

theorem wordBS_low (maj : BitVec 6) (fn3 : BitVec 3) (off : BitVec 11) (b a : BitVec 5) : (wordBS maj fn3 off b a).getLsbD 0 = true ∧ (wordBS maj fn3 off b a).getLsbD 1 = false := by
  unfold wordBS
  exact ⟨by rw [BitVec.getLsbD_append, if_pos (by omega)]; rfl, by rw [BitVec.getLsbD_append, if_pos (by omega)]; rfl⟩

/-! ## wordJ -/

@[simp] theorem wordJ_off (maj : BitVec 6) (off : BitVec 24) : (wordJ maj off).extractLsb' 8 24 = off := by
  unfold wordJ
  apply BitVec.eq_of_getLsbD_eq
  intro i hi
  rw [BitVec.getLsbD_extractLsb']
  repeat (first | rw [BitVec.getLsbD_append, if_neg (by omega)] | rw [BitVec.getLsbD_append, if_pos (by omega)])
  simp only [hi, decide_true, Bool.true_and]
  exact congrArg _ (by omega)

@[simp] theorem wordJ_maj (maj : BitVec 6) (off : BitVec 24) : (wordJ maj off).extractLsb' 2 6 = maj := by
  unfold wordJ
  apply BitVec.eq_of_getLsbD_eq
  intro i hi
  rw [BitVec.getLsbD_extractLsb']
  repeat (first | rw [BitVec.getLsbD_append, if_neg (by omega)] | rw [BitVec.getLsbD_append, if_pos (by omega)])
  simp only [hi, decide_true, Bool.true_and]
  exact congrArg _ (by omega)

theorem wordJ_low (maj : BitVec 6) (off : BitVec 24) : (wordJ maj off).getLsbD 0 = true ∧ (wordJ maj off).getLsbD 1 = false := by
  unfold wordJ
  exact ⟨by rw [BitVec.getLsbD_append, if_pos (by omega)]; rfl, by rw [BitVec.getLsbD_append, if_pos (by omega)]; rfl⟩

/-! ## wordV -/

@[simp] theorem wordV_vf (maj : BitVec 6) (vf : BitVec 2) (t : BitVec 4) (m : BitVec 3) (b a d : BitVec 5) : (wordV maj vf t m b a d).extractLsb' 30 2 = vf := by
  unfold wordV
  apply BitVec.eq_of_getLsbD_eq
  intro i hi
  rw [BitVec.getLsbD_extractLsb']
  repeat (first | rw [BitVec.getLsbD_append, if_neg (by omega)] | rw [BitVec.getLsbD_append, if_pos (by omega)])
  simp only [hi, decide_true, Bool.true_and]
  exact congrArg _ (by omega)

@[simp] theorem wordV_t (maj : BitVec 6) (vf : BitVec 2) (t : BitVec 4) (m : BitVec 3) (b a d : BitVec 5) : (wordV maj vf t m b a d).extractLsb' 26 4 = t := by
  unfold wordV
  apply BitVec.eq_of_getLsbD_eq
  intro i hi
  rw [BitVec.getLsbD_extractLsb']
  repeat (first | rw [BitVec.getLsbD_append, if_neg (by omega)] | rw [BitVec.getLsbD_append, if_pos (by omega)])
  simp only [hi, decide_true, Bool.true_and]
  exact congrArg _ (by omega)

@[simp] theorem wordV_m (maj : BitVec 6) (vf : BitVec 2) (t : BitVec 4) (m : BitVec 3) (b a d : BitVec 5) : (wordV maj vf t m b a d).extractLsb' 23 3 = m := by
  unfold wordV
  apply BitVec.eq_of_getLsbD_eq
  intro i hi
  rw [BitVec.getLsbD_extractLsb']
  repeat (first | rw [BitVec.getLsbD_append, if_neg (by omega)] | rw [BitVec.getLsbD_append, if_pos (by omega)])
  simp only [hi, decide_true, Bool.true_and]
  exact congrArg _ (by omega)

@[simp] theorem wordV_b (maj : BitVec 6) (vf : BitVec 2) (t : BitVec 4) (m : BitVec 3) (b a d : BitVec 5) : (wordV maj vf t m b a d).extractLsb' 18 5 = b := by
  unfold wordV
  apply BitVec.eq_of_getLsbD_eq
  intro i hi
  rw [BitVec.getLsbD_extractLsb']
  repeat (first | rw [BitVec.getLsbD_append, if_neg (by omega)] | rw [BitVec.getLsbD_append, if_pos (by omega)])
  simp only [hi, decide_true, Bool.true_and]
  exact congrArg _ (by omega)

@[simp] theorem wordV_a (maj : BitVec 6) (vf : BitVec 2) (t : BitVec 4) (m : BitVec 3) (b a d : BitVec 5) : (wordV maj vf t m b a d).extractLsb' 13 5 = a := by
  unfold wordV
  apply BitVec.eq_of_getLsbD_eq
  intro i hi
  rw [BitVec.getLsbD_extractLsb']
  repeat (first | rw [BitVec.getLsbD_append, if_neg (by omega)] | rw [BitVec.getLsbD_append, if_pos (by omega)])
  simp only [hi, decide_true, Bool.true_and]
  exact congrArg _ (by omega)

@[simp] theorem wordV_d (maj : BitVec 6) (vf : BitVec 2) (t : BitVec 4) (m : BitVec 3) (b a d : BitVec 5) : (wordV maj vf t m b a d).extractLsb' 8 5 = d := by
  unfold wordV
  apply BitVec.eq_of_getLsbD_eq
  intro i hi
  rw [BitVec.getLsbD_extractLsb']
  repeat (first | rw [BitVec.getLsbD_append, if_neg (by omega)] | rw [BitVec.getLsbD_append, if_pos (by omega)])
  simp only [hi, decide_true, Bool.true_and]
  exact congrArg _ (by omega)

@[simp] theorem wordV_maj (maj : BitVec 6) (vf : BitVec 2) (t : BitVec 4) (m : BitVec 3) (b a d : BitVec 5) : (wordV maj vf t m b a d).extractLsb' 2 6 = maj := by
  unfold wordV
  apply BitVec.eq_of_getLsbD_eq
  intro i hi
  rw [BitVec.getLsbD_extractLsb']
  repeat (first | rw [BitVec.getLsbD_append, if_neg (by omega)] | rw [BitVec.getLsbD_append, if_pos (by omega)])
  simp only [hi, decide_true, Bool.true_and]
  exact congrArg _ (by omega)

theorem wordV_low (maj : BitVec 6) (vf : BitVec 2) (t : BitVec 4) (m : BitVec 3) (b a d : BitVec 5) : (wordV maj vf t m b a d).getLsbD 0 = true ∧ (wordV maj vf t m b a d).getLsbD 1 = false := by
  unfold wordV
  exact ⟨by rw [BitVec.getLsbD_append, if_pos (by omega)]; rfl, by rw [BitVec.getLsbD_append, if_pos (by omega)]; rfl⟩

/-! ## wordP -/

@[simp] theorem wordP_x (h : BitVec 1) (x : BitVec 29) : (wordP h x).extractLsb' 3 29 = x := by
  unfold wordP
  apply BitVec.eq_of_getLsbD_eq
  intro i hi
  rw [BitVec.getLsbD_extractLsb']
  repeat (first | rw [BitVec.getLsbD_append, if_neg (by omega)] | rw [BitVec.getLsbD_append, if_pos (by omega)])
  simp only [hi, decide_true, Bool.true_and]
  exact congrArg _ (by omega)

theorem wordP_low (h : BitVec 1) (x : BitVec 29) : (wordP h x).getLsbD 0 = true ∧ (wordP h x).getLsbD 1 = true := by
  unfold wordP
  exact ⟨by rw [BitVec.getLsbD_append, if_pos (by omega)]; rfl, by rw [BitVec.getLsbD_append, if_pos (by omega)]; rfl⟩

/-- The third bit of a prefix word tells EXT from EXT.H. -/
theorem wordP_bit2 (h : BitVec 1) (x : BitVec 29) : (wordP h x).getLsbD 2 = h.getLsbD 0 := by
  unfold wordP
  rw [BitVec.getLsbD_append, if_neg (by omega), BitVec.getLsbD_append, if_pos (by omega)]

/-- A word that is no prefix decodes by itself, whatever follows it. -/
theorem decode_word (w : W32) (rest : List Half) (h0 : w.getLsbD 0 = true) (h1 : w.getLsbD 1 = false) :
    decode (halvesOf w ++ rest) = (decodeWord .none w).map (·, 2) := by
  simp only [decode, halvesOf, List.cons_append, List.nil_append, halves_bit w (show 0 < 16 by omega),
    halves_bit w (show 1 < 16 by omega), h0, h1, joinHalves_halves, Bool.true_eq_false, if_false, if_true]

/-- One EXT before a word. -/
theorem decode_ext (x : BitVec 29) (w : W32) (rest : List Half) (h0 : w.getLsbD 0 = true) (h1 : w.getLsbD 1 = false) :
    decode (halvesOf (wordP 0 x) ++ halvesOf w ++ rest) = (decodeWord (.ext x) w).map (·, 4) := by
  have p0 := (wordP_low 0 x).1
  have p1 := (wordP_low 0 x).2
  have p2 : (wordP 0 x).getLsbD 2 = false := wordP_bit2 0 x
  simp only [decode, decodeAfterExt, halvesOf, List.cons_append, List.nil_append, halves_bit _ (show 0 < 16 by omega),
    halves_bit _ (show 1 < 16 by omega), halves_bit _ (show 2 < 16 by omega), h0, h1, p0, p1, p2, joinHalves_halves,
    wordP_x, Bool.true_eq_false, Bool.false_eq_true, if_false, if_true]

/-- EXT and EXT.H before a word. -/
theorem decode_extH (e x : BitVec 29) (w : W32) (rest : List Half) (h0 : w.getLsbD 0 = true) (h1 : w.getLsbD 1 = false) :
    decode (halvesOf (wordP 0 e) ++ halvesOf (wordP 1 x) ++ halvesOf w ++ rest) = (decodeWord (.extH e x) w).map (·, 6) := by
  have p0 := (wordP_low 0 e).1
  have p1 := (wordP_low 0 e).2
  have p2 : (wordP 0 e).getLsbD 2 = false := wordP_bit2 0 e
  have q0 := (wordP_low 1 x).1
  have q1 := (wordP_low 1 x).2
  have q2 : (wordP 1 x).getLsbD 2 = true := wordP_bit2 1 x
  simp only [decode, decodeAfterExt, decodeAfterExtH, halvesOf, List.cons_append, List.nil_append,
    halves_bit _ (show 0 < 16 by omega), halves_bit _ (show 1 < 16 by omega), halves_bit _ (show 2 < 16 by omega), h0, h1,
    p0, p1, p2, q0, q1, q2, joinHalves_halves, wordP_x, Bool.true_eq_false, Bool.false_eq_true, if_false, if_true]

/-! ## The form of an instruction's halfwords (R32, R37) -/

/-- The first halfwords give the length: one halfword with bit 0 clear, a word, or one or two prefixes and a word. -/
def formOk : List Half → Prop
  | [] => True
  | h :: t =>
    if h.getLsbD 0 = false then t = []
    else if h.getLsbD 1 = false then t.length = 1
    else h.getLsbD 2 = false ∧ (t.length = 3 ∨ t.length = 5)

theorem formOk_word {w : W32} (h : w.getLsbD 0 = true ∧ w.getLsbD 1 = false) : formOk (halvesOf w) := by
  simp only [formOk, halvesOf, halves_bit w (show 0 < 16 by omega), halves_bit w (show 1 < 16 by omega), h.1, h.2,
    Bool.true_eq_false, if_false, if_true, List.length_cons, List.length_nil]

theorem formOk_imm (w : Nat) (imm : Word) (word : BitVec w → W32)
    (h : ∀ n, (word n).getLsbD 0 = true ∧ (word n).getLsbD 1 = false) : formOk (encodeImm w imm word) := by
  unfold encodeImm
  simp only
  split
  · exact formOk_word (h _)
  · have p (x : BitVec 29) : (wordP 0 x).getLsbD 2 = false := wordP_bit2 0 x
    split <;>
      simp only [formOk, halvesOf, halves_bit _ (show 0 < 16 by omega), halves_bit _ (show 1 < 16 by omega),
        halves_bit _ (show 2 < 16 by omega), (wordP_low 0 _).1, (wordP_low 0 _).2, p, List.cons_append, List.nil_append,
        Bool.true_eq_false, if_false, List.length_cons, List.length_nil] <;> simp

theorem formOk_half (op : BitVec 4) (v : BitVec 1) (s d : BitVec 5) : formOk [halfC op v s d] := by
  have : (halfC op v s d).getLsbD 0 = false := by
    unfold halfC
    rw [BitVec.getLsbD_append, if_pos (by omega)]; rfl
  simp only [formOk, this, if_true]

end Sys2Proof
end

