-- ==== Sys2Proof/Laws/PerInstr.lean ====
section
/-! SUPPORT. The family Encoding, one lemma per constructor: the halfwords of an instruction have the form from which
spec/02_encoding.md R32 and R37 read its length; an event has none. -/

namespace Sys2Proof.Laws.Encoding

open Sys2Proof

/-- The halfwords of an instruction have the form of R32 and R37. -/
def Statement (i : Instr) : Prop := formOk (encode i)

theorem add (d a b : BitVec 5) : Statement (.add d a b) := formOk_word (wordR_low ..)
theorem sub (d a b : BitVec 5) : Statement (.sub d a b) := formOk_word (wordR_low ..)
theorem and (d a b : BitVec 5) : Statement (.and d a b) := formOk_word (wordR_low ..)
theorem or (d a b : BitVec 5) : Statement (.or d a b) := formOk_word (wordR_low ..)
theorem xor (d a b : BitVec 5) : Statement (.xor d a b) := formOk_word (wordR_low ..)
theorem sll (d a b : BitVec 5) : Statement (.sll d a b) := formOk_word (wordR_low ..)
theorem srl (d a b : BitVec 5) : Statement (.srl d a b) := formOk_word (wordR_low ..)
theorem sra (d a b : BitVec 5) : Statement (.sra d a b) := formOk_word (wordR_low ..)
theorem slt (d a b : BitVec 5) : Statement (.slt d a b) := formOk_word (wordR_low ..)
theorem sltu (d a b : BitVec 5) : Statement (.sltu d a b) := formOk_word (wordR_low ..)
theorem andn (d a b : BitVec 5) : Statement (.andn d a b) := formOk_word (wordR_low ..)
theorem orn (d a b : BitVec 5) : Statement (.orn d a b) := formOk_word (wordR_low ..)
theorem addi (d a : BitVec 5) (imm : BitVec 64) : Statement (.addi d a imm) := formOk_imm _ _ _ (fun _ => wordIF_low ..)
theorem slti (d a : BitVec 5) (imm : BitVec 64) : Statement (.slti d a imm) := formOk_imm _ _ _ (fun _ => wordIF_low ..)
theorem sltiu (d a : BitVec 5) (imm : BitVec 64) : Statement (.sltiu d a imm) := formOk_imm _ _ _ (fun _ => wordIF_low ..)
theorem andi (d a : BitVec 5) (imm : BitVec 64) : Statement (.andi d a imm) := formOk_imm _ _ _ (fun _ => wordIF_low ..)
theorem ori (d a : BitVec 5) (imm : BitVec 64) : Statement (.ori d a imm) := formOk_imm _ _ _ (fun _ => wordIF_low ..)
theorem xori (d a : BitVec 5) (imm : BitVec 64) : Statement (.xori d a imm) := formOk_imm _ _ _ (fun _ => wordIF_low ..)
theorem slli (d a : BitVec 5) (sh : BitVec 6) : Statement (.slli d a sh) := formOk_word (wordIF_low ..)
theorem srli (d a : BitVec 5) (sh : BitVec 6) : Statement (.srli d a sh) := formOk_word (wordIF_low ..)
theorem srai (d a : BitVec 5) (sh : BitVec 6) : Statement (.srai d a sh) := formOk_word (wordIF_low ..)
theorem lih (d : BitVec 5) (imm : BitVec 64) : Statement (.lih d imm) := formOk_imm _ _ _ (fun _ => wordU_low ..)
theorem pch (d : BitVec 5) (imm : BitVec 64) : Statement (.pch d imm) := formOk_imm _ _ _ (fun _ => wordU_low ..)
theorem mul (d a b : BitVec 5) : Statement (.mul d a b) := formOk_word (wordR_low ..)
theorem mulh (d a b : BitVec 5) : Statement (.mulh d a b) := formOk_word (wordR_low ..)
theorem mulhu (d a b : BitVec 5) : Statement (.mulhu d a b) := formOk_word (wordR_low ..)
theorem mulhsu (d a b : BitVec 5) : Statement (.mulhsu d a b) := formOk_word (wordR_low ..)
theorem div (d a b : BitVec 5) : Statement (.div d a b) := formOk_word (wordR_low ..)
theorem divu (d a b : BitVec 5) : Statement (.divu d a b) := formOk_word (wordR_low ..)
theorem rem (d a b : BitVec 5) : Statement (.rem d a b) := formOk_word (wordR_low ..)
theorem remu (d a b : BitVec 5) : Statement (.remu d a b) := formOk_word (wordR_low ..)
theorem clz (d a : BitVec 5) : Statement (.clz d a) := formOk_word (wordR_low ..)
theorem ctz (d a : BitVec 5) : Statement (.ctz d a) := formOk_word (wordR_low ..)
theorem popc (d a : BitVec 5) : Statement (.popc d a) := formOk_word (wordR_low ..)
theorem brev (d a : BitVec 5) : Statement (.brev d a) := formOk_word (wordR_low ..)
theorem bext (d a b : BitVec 5) : Statement (.bext d a b) := formOk_word (wordR_low ..)
theorem bdep (d a b : BitVec 5) : Statement (.bdep d a b) := formOk_word (wordR_low ..)
theorem min (d a b : BitVec 5) : Statement (.min d a b) := formOk_word (wordR_low ..)
theorem max (d a b : BitVec 5) : Statement (.max d a b) := formOk_word (wordR_low ..)
theorem minu (d a b : BitVec 5) : Statement (.minu d a b) := formOk_word (wordR_low ..)
theorem maxu (d a b : BitVec 5) : Statement (.maxu d a b) := formOk_word (wordR_low ..)
theorem sel (d a b : BitVec 5) : Statement (.sel d a b) := formOk_word (wordR_low ..)
theorem beq (a b : BitVec 5) (off : BitVec 64) : Statement (.beq a b off) := formOk_imm _ _ _ (fun _ => wordBS_low ..)
theorem bne (a b : BitVec 5) (off : BitVec 64) : Statement (.bne a b off) := formOk_imm _ _ _ (fun _ => wordBS_low ..)
theorem blt (a b : BitVec 5) (off : BitVec 64) : Statement (.blt a b off) := formOk_imm _ _ _ (fun _ => wordBS_low ..)
theorem bge (a b : BitVec 5) (off : BitVec 64) : Statement (.bge a b off) := formOk_imm _ _ _ (fun _ => wordBS_low ..)
theorem bltu (a b : BitVec 5) (off : BitVec 64) : Statement (.bltu a b off) := formOk_imm _ _ _ (fun _ => wordBS_low ..)
theorem bgeu (a b : BitVec 5) (off : BitVec 64) : Statement (.bgeu a b off) := formOk_imm _ _ _ (fun _ => wordBS_low ..)
theorem jal (off : BitVec 64) : Statement (.jal off) := formOk_imm _ _ _ (fun _ => wordJ_low ..)
theorem jalr (d a : BitVec 5) (imm : BitVec 64) : Statement (.jalr d a imm) := formOk_imm _ _ _ (fun _ => wordI_low ..)
theorem lb (d a : BitVec 5) (imm : BitVec 64) : Statement (.lb d a imm) := formOk_imm _ _ _ (fun _ => wordIF_low ..)
theorem lh (d a : BitVec 5) (imm : BitVec 64) : Statement (.lh d a imm) := formOk_imm _ _ _ (fun _ => wordIF_low ..)
theorem lw (d a : BitVec 5) (imm : BitVec 64) : Statement (.lw d a imm) := formOk_imm _ _ _ (fun _ => wordIF_low ..)
theorem ld (d a : BitVec 5) (imm : BitVec 64) : Statement (.ld d a imm) := formOk_imm _ _ _ (fun _ => wordIF_low ..)
theorem lbu (d a : BitVec 5) (imm : BitVec 64) : Statement (.lbu d a imm) := formOk_imm _ _ _ (fun _ => wordIF_low ..)
theorem lhu (d a : BitVec 5) (imm : BitVec 64) : Statement (.lhu d a imm) := formOk_imm _ _ _ (fun _ => wordIF_low ..)
theorem lwu (d a : BitVec 5) (imm : BitVec 64) : Statement (.lwu d a imm) := formOk_imm _ _ _ (fun _ => wordIF_low ..)
theorem sb (a b : BitVec 5) (off : BitVec 64) : Statement (.sb a b off) := formOk_imm _ _ _ (fun _ => wordBS_low ..)
theorem sh (a b : BitVec 5) (off : BitVec 64) : Statement (.sh a b off) := formOk_imm _ _ _ (fun _ => wordBS_low ..)
theorem sw (a b : BitVec 5) (off : BitVec 64) : Statement (.sw a b off) := formOk_imm _ _ _ (fun _ => wordBS_low ..)
theorem sd (a b : BitVec 5) (off : BitVec 64) : Statement (.sd a b off) := formOk_imm _ _ _ (fun _ => wordBS_low ..)
theorem amoadd (d a b : BitVec 5) : Statement (.amoadd d a b) := formOk_word (wordR_low ..)
theorem amoand (d a b : BitVec 5) : Statement (.amoand d a b) := formOk_word (wordR_low ..)
theorem amoor (d a b : BitVec 5) : Statement (.amoor d a b) := formOk_word (wordR_low ..)
theorem amoxor (d a b : BitVec 5) : Statement (.amoxor d a b) := formOk_word (wordR_low ..)
theorem amomin (d a b : BitVec 5) : Statement (.amomin d a b) := formOk_word (wordR_low ..)
theorem amomax (d a b : BitVec 5) : Statement (.amomax d a b) := formOk_word (wordR_low ..)
theorem amominu (d a b : BitVec 5) : Statement (.amominu d a b) := formOk_word (wordR_low ..)
theorem amomaxu (d a b : BitVec 5) : Statement (.amomaxu d a b) := formOk_word (wordR_low ..)
theorem amoswap (d a b : BitVec 5) : Statement (.amoswap d a b) := formOk_word (wordR_low ..)
theorem amocas (d a b : BitVec 5) : Statement (.amocas d a b) := formOk_word (wordR_low ..)
theorem fenceSc (s : BitVec 2) : Statement (.fenceSc s) := formOk_word (wordR_low ..)
theorem baddW128 (d a b : BitVec 5) : Statement (.baddW128 d a b) := formOk_word (wordR_low ..)
theorem bvaddF (n a b : BitVec 5) : Statement (.bvaddF n a b) := formOk_word (wordR_low ..)
theorem bvaddBh (n a b : BitVec 5) : Statement (.bvaddBh n a b) := formOk_word (wordR_low ..)
theorem bvmaxF (n a b : BitVec 5) : Statement (.bvmaxF n a b) := formOk_word (wordR_low ..)
theorem bvmaxBh (n a b : BitVec 5) : Statement (.bvmaxBh n a b) := formOk_word (wordR_low ..)
theorem bredF (n a b : BitVec 5) : Statement (.bredF n a b) := formOk_word (wordR_low ..)
theorem bredBh (n a b : BitVec 5) : Statement (.bredBh n a b) := formOk_word (wordR_low ..)
theorem get (d a b : BitVec 5) : Statement (.get d a b) := formOk_word (wordR_low ..)
theorem getB (d a b : BitVec 5) : Statement (.getB d a b) := formOk_word (wordR_low ..)
theorem put (d a b : BitVec 5) : Statement (.put d a b) := formOk_word (wordR_low ..)
theorem putB (d a b : BitVec 5) : Statement (.putB d a b) := formOk_word (wordR_low ..)
theorem ramoAdd (d a b : BitVec 5) : Statement (.ramoAdd d a b) := formOk_word (wordR_low ..)
theorem ramoAnd (d a b : BitVec 5) : Statement (.ramoAnd d a b) := formOk_word (wordR_low ..)
theorem ramoOr (d a b : BitVec 5) : Statement (.ramoOr d a b) := formOk_word (wordR_low ..)
theorem ramoXor (d a b : BitVec 5) : Statement (.ramoXor d a b) := formOk_word (wordR_low ..)
theorem ramoMin (d a b : BitVec 5) : Statement (.ramoMin d a b) := formOk_word (wordR_low ..)
theorem ramoMax (d a b : BitVec 5) : Statement (.ramoMax d a b) := formOk_word (wordR_low ..)
theorem ramoMinu (d a b : BitVec 5) : Statement (.ramoMinu d a b) := formOk_word (wordR_low ..)
theorem ramoMaxu (d a b : BitVec 5) : Statement (.ramoMaxu d a b) := formOk_word (wordR_low ..)
theorem ramoSwap (d a b : BitVec 5) : Statement (.ramoSwap d a b) := formOk_word (wordR_low ..)
theorem ramoCas (d a b : BitVec 5) : Statement (.ramoCas d a b) := formOk_word (wordR_low ..)
theorem spawn (d a b : BitVec 5) (n : BitVec 6) : Statement (.spawn d a b n) := formOk_word (wordR_low ..)
theorem send (a b n : BitVec 5) (c : BitVec 6) : Statement (.send a b n c) := formOk_word (wordR_low ..)
theorem sleep (a : BitVec 5) : Statement (.sleep a) := formOk_word (wordR_low ..)
theorem probe (d a : BitVec 5) : Statement (.probe d a) := formOk_word (wordR_low ..)
theorem probeV (d a : BitVec 5) : Statement (.probeV d a) := formOk_word (wordR_low ..)
theorem empty (a : BitVec 5) : Statement (.empty a) := formOk_word (wordR_low ..)
theorem emptyV (a : BitVec 5) : Statement (.emptyV a) := formOk_word (wordR_low ..)
theorem qpush (d a : BitVec 5) : Statement (.qpush d a) := formOk_word (wordR_low ..)
theorem qpop (d a : BitVec 5) : Statement (.qpop d a) := formOk_word (wordR_low ..)
theorem qlen (d a : BitVec 5) : Statement (.qlen d a) := formOk_word (wordR_low ..)
theorem lcw (d a : BitVec 5) : Statement (.lcw d a) := formOk_word (wordR_low ..)
theorem lcr (d a : BitVec 5) : Statement (.lcr d a) := formOk_word (wordR_low ..)
theorem lbw (d a : BitVec 5) : Statement (.lbw d a) := formOk_word (wordR_low ..)
theorem sync (d a b : BitVec 5) : Statement (.sync d a b) := formOk_word (wordR_low ..)
theorem syncQ (d a b : BitVec 5) : Statement (.syncQ d a b) := formOk_word (wordR_low ..)
theorem pfl (a : BitVec 5) : Statement (.pfl a) := formOk_word (wordR_low ..)
theorem wbl (a : BitVec 5) : Statement (.wbl a) := formOk_word (wordR_low ..)
theorem ssno (d : BitVec 5) : Statement (.ssno d) := formOk_word (wordR_low ..)
theorem mcfg (a : BitVec 5) : Statement (.mcfg a) := formOk_word (wordR_low ..)
theorem mjob (d a b : BitVec 5) : Statement (.mjob d a b) := formOk_word (wordR_low ..)
theorem mdrain (d a b : BitVec 5) : Statement (.mdrain d a b) := formOk_word (wordR_low ..)
theorem mstat (d : BitVec 5) : Statement (.mstat d) := formOk_word (wordR_low ..)
theorem xcopy (d a b : BitVec 5) : Statement (.xcopy d a b) := formOk_word (wordR_low ..)
theorem xcopyT (d a b : BitVec 5) : Statement (.xcopyT d a b) := formOk_word (wordR_low ..)
theorem xplane (d a b : BitVec 5) : Statement (.xplane d a b) := formOk_word (wordR_low ..)
theorem xunplane (d a b : BitVec 5) : Statement (.xunplane d a b) := formOk_word (wordR_low ..)
theorem xfill (d a b : BitVec 5) : Statement (.xfill d a b) := formOk_word (wordR_low ..)
theorem xgather (d a b : BitVec 5) : Statement (.xgather d a b) := formOk_word (wordR_low ..)
theorem xcopyNext (a b : BitVec 5) : Statement (.xcopyNext a b) := formOk_word (wordR_low ..)
theorem xcopyTNext (a b : BitVec 5) : Statement (.xcopyTNext a b) := formOk_word (wordR_low ..)
theorem xplaneNext (a b : BitVec 5) : Statement (.xplaneNext a b) := formOk_word (wordR_low ..)
theorem xunplaneNext (a b : BitVec 5) : Statement (.xunplaneNext a b) := formOk_word (wordR_low ..)
theorem xfillNext (a b : BitVec 5) : Statement (.xfillNext a b) := formOk_word (wordR_low ..)
theorem xgatherNext (a b : BitVec 5) : Statement (.xgatherNext a b) := formOk_word (wordR_low ..)
theorem ttload (d a : BitVec 5) : Statement (.ttload d a) := formOk_word (wordR_low ..)
theorem ttloadK (d a : BitVec 5) : Statement (.ttloadK d a) := formOk_word (wordR_low ..)
theorem ttgoArm (a : BitVec 5) : Statement (.ttgoArm a) := formOk_word (wordR_low ..)
theorem ttgoDisarm (a : BitVec 5) : Statement (.ttgoDisarm a) := formOk_word (wordR_low ..)
theorem ttgoPost (a : BitVec 5) : Statement (.ttgoPost a) := formOk_word (wordR_low ..)
theorem ttgoFree (a : BitVec 5) : Statement (.ttgoFree a) := formOk_word (wordR_low ..)
theorem qgate (d a b : BitVec 5) : Statement (.qgate d a b) := formOk_word (wordR_low ..)
theorem qgateAuto (d a b : BitVec 5) : Statement (.qgateAuto d a b) := formOk_word (wordR_low ..)
theorem qswap (d a : BitVec 5) : Statement (.qswap d a) := formOk_word (wordR_low ..)
theorem qprob (d a : BitVec 5) : Statement (.qprob d a) := formOk_word (wordR_low ..)
theorem qnorm (d : BitVec 5) : Statement (.qnorm d) := formOk_word (wordR_low ..)
theorem qsamp (d a : BitVec 5) : Statement (.qsamp d a) := formOk_word (wordR_low ..)
theorem qgateD (d a b : BitVec 5) : Statement (.qgateD d a b) := formOk_word (wordR_low ..)
theorem qgateAutoD (d a b : BitVec 5) : Statement (.qgateAutoD d a b) := formOk_word (wordR_low ..)
theorem qswapD (d a : BitVec 5) : Statement (.qswapD d a) := formOk_word (wordR_low ..)
theorem qprobD (d a : BitVec 5) : Statement (.qprobD d a) := formOk_word (wordR_low ..)
theorem qnormD (d : BitVec 5) : Statement (.qnormD d) := formOk_word (wordR_low ..)
theorem qsampD (d a : BitVec 5) : Statement (.qsampD d a) := formOk_word (wordR_low ..)
theorem hoffer (a : BitVec 5) : Statement (.hoffer a) := formOk_word (wordR_low ..)
theorem hstat (d : BitVec 5) : Statement (.hstat d) := formOk_word (wordR_low ..)
theorem leave (d a : BitVec 5) : Statement (.leave d a) := formOk_word (wordR_low ..)
theorem leaveRel (a : BitVec 5) : Statement (.leaveRel a) := formOk_word (wordR_low ..)
theorem sysr (d : BitVec 5) (n : BitVec 11) : Statement (.sysr d n) := formOk_word (wordR_low ..)
theorem sysw (n : BitVec 11) (a : BitVec 5) : Statement (.sysw n a) := formOk_word (wordR_low ..)
theorem sfenceVPage (a : BitVec 5) : Statement (.sfenceVPage a) := formOk_word (wordR_low ..)
theorem sfenceVContext (a : BitVec 5) : Statement (.sfenceVContext a) := formOk_word (wordR_low ..)
theorem sfenceVAll (a : BitVec 5) : Statement (.sfenceVAll a) := formOk_word (wordR_low ..)
theorem sfenceVPublish (a : BitVec 5) : Statement (.sfenceVPublish a) := formOk_word (wordR_low ..)
theorem inject (a : BitVec 5) : Statement (.inject a) := formOk_word (wordR_low ..)
theorem report (a : BitVec 5) : Statement (.report a) := formOk_word (wordR_low ..)
theorem vadd (t : BitVec 4) (m : BitVec 3) (d a b : BitVec 5) : Statement (.vadd t m d a b) := formOk_word (wordV_low ..)
theorem vsub (t : BitVec 4) (m : BitVec 3) (d a b : BitVec 5) : Statement (.vsub t m d a b) := formOk_word (wordV_low ..)
theorem vmul (t : BitVec 4) (m : BitVec 3) (d a b : BitVec 5) : Statement (.vmul t m d a b) := formOk_word (wordV_low ..)
theorem vmulh (t : BitVec 4) (m : BitVec 3) (d a b : BitVec 5) : Statement (.vmulh t m d a b) := formOk_word (wordV_low ..)
theorem vand (t : BitVec 4) (m : BitVec 3) (d a b : BitVec 5) : Statement (.vand t m d a b) := formOk_word (wordV_low ..)
theorem vor (t : BitVec 4) (m : BitVec 3) (d a b : BitVec 5) : Statement (.vor t m d a b) := formOk_word (wordV_low ..)
theorem vxor (t : BitVec 4) (m : BitVec 3) (d a b : BitVec 5) : Statement (.vxor t m d a b) := formOk_word (wordV_low ..)
theorem vandn (t : BitVec 4) (m : BitVec 3) (d a b : BitVec 5) : Statement (.vandn t m d a b) := formOk_word (wordV_low ..)
theorem vsll (t : BitVec 4) (m : BitVec 3) (d a b : BitVec 5) : Statement (.vsll t m d a b) := formOk_word (wordV_low ..)
theorem vsrl (t : BitVec 4) (m : BitVec 3) (d a b : BitVec 5) : Statement (.vsrl t m d a b) := formOk_word (wordV_low ..)
theorem vsra (t : BitVec 4) (m : BitVec 3) (d a b : BitVec 5) : Statement (.vsra t m d a b) := formOk_word (wordV_low ..)
theorem vmin (t : BitVec 4) (m : BitVec 3) (d a b : BitVec 5) : Statement (.vmin t m d a b) := formOk_word (wordV_low ..)
theorem vmax (t : BitVec 4) (m : BitVec 3) (d a b : BitVec 5) : Statement (.vmax t m d a b) := formOk_word (wordV_low ..)
theorem vadds (t : BitVec 4) (m : BitVec 3) (d a b : BitVec 5) : Statement (.vadds t m d a b) := formOk_word (wordV_low ..)
theorem vsubs (t : BitVec 4) (m : BitVec 3) (d a b : BitVec 5) : Statement (.vsubs t m d a b) := formOk_word (wordV_low ..)
theorem vfadd (t : BitVec 4) (m : BitVec 3) (d a b : BitVec 5) : Statement (.vfadd t m d a b) := formOk_word (wordV_low ..)
theorem vfsub (t : BitVec 4) (m : BitVec 3) (d a b : BitVec 5) : Statement (.vfsub t m d a b) := formOk_word (wordV_low ..)
theorem vfmul (t : BitVec 4) (m : BitVec 3) (d a b : BitVec 5) : Statement (.vfmul t m d a b) := formOk_word (wordV_low ..)
theorem vfdiv (t : BitVec 4) (m : BitVec 3) (d a b : BitVec 5) : Statement (.vfdiv t m d a b) := formOk_word (wordV_low ..)
theorem vfmin (t : BitVec 4) (m : BitVec 3) (d a b : BitVec 5) : Statement (.vfmin t m d a b) := formOk_word (wordV_low ..)
theorem vfmax (t : BitVec 4) (m : BitVec 3) (d a b : BitVec 5) : Statement (.vfmax t m d a b) := formOk_word (wordV_low ..)
theorem vrcps (t : BitVec 4) (m : BitVec 3) (d a b : BitVec 5) : Statement (.vrcps t m d a b) := formOk_word (wordV_low ..)
theorem vrsqrts (t : BitVec 4) (m : BitVec 3) (d a b : BitVec 5) : Statement (.vrsqrts t m d a b) := formOk_word (wordV_low ..)
theorem vfma (t : BitVec 4) (m : BitVec 3) (d a b : BitVec 5) : Statement (.vfma t m d a b) := formOk_word (wordV_low ..)
theorem vfms (t : BitVec 4) (m : BitVec 3) (d a b : BitVec 5) : Statement (.vfms t m d a b) := formOk_word (wordV_low ..)
theorem vfnma (t : BitVec 4) (m : BitVec 3) (d a b : BitVec 5) : Statement (.vfnma t m d a b) := formOk_word (wordV_low ..)
theorem vfnms (t : BitVec 4) (m : BitVec 3) (d a b : BitVec 5) : Statement (.vfnms t m d a b) := formOk_word (wordV_low ..)
theorem vceq (t : BitVec 4) (m : BitVec 3) (d a b : BitVec 5) : Statement (.vceq t m d a b) := formOk_word (wordV_low ..)
theorem vcne (t : BitVec 4) (m : BitVec 3) (d a b : BitVec 5) : Statement (.vcne t m d a b) := formOk_word (wordV_low ..)
theorem vclt (t : BitVec 4) (m : BitVec 3) (d a b : BitVec 5) : Statement (.vclt t m d a b) := formOk_word (wordV_low ..)
theorem vcle (t : BitVec 4) (m : BitVec 3) (d a b : BitVec 5) : Statement (.vcle t m d a b) := formOk_word (wordV_low ..)
theorem vcvt (t : BitVec 4) (m : BitVec 3) (d a : BitVec 5) (g : BitVec 4) (s : BitVec 1) : Statement (.vcvt t m d a g s) := formOk_word (wordV_low ..)
theorem vrcp (t : BitVec 4) (m : BitVec 3) (d a : BitVec 5) : Statement (.vrcp t m d a) := formOk_word (wordV_low ..)
theorem vrsqrt (t : BitVec 4) (m : BitVec 3) (d a : BitVec 5) : Statement (.vrsqrt t m d a) := formOk_word (wordV_low ..)
theorem vsqrt (t : BitVec 4) (m : BitVec 3) (d a : BitVec 5) : Statement (.vsqrt t m d a) := formOk_word (wordV_low ..)
theorem vabs (t : BitVec 4) (m : BitVec 3) (d a : BitVec 5) : Statement (.vabs t m d a) := formOk_word (wordV_low ..)
theorem vneg (t : BitVec 4) (m : BitVec 3) (d a : BitVec 5) : Statement (.vneg t m d a) := formOk_word (wordV_low ..)
theorem vmov (t : BitVec 4) (m : BitVec 3) (d a : BitVec 5) : Statement (.vmov t m d a) := formOk_word (wordV_low ..)
theorem vredsum (t : BitVec 4) (m : BitVec 3) (d a : BitVec 5) : Statement (.vredsum t m d a) := formOk_word (wordV_low ..)
theorem vredmin (t : BitVec 4) (m : BitVec 3) (d a : BitVec 5) : Statement (.vredmin t m d a) := formOk_word (wordV_low ..)
theorem vredmax (t : BitVec 4) (m : BitVec 3) (d a : BitVec 5) : Statement (.vredmax t m d a) := formOk_word (wordV_low ..)
theorem vredand (t : BitVec 4) (m : BitVec 3) (d a : BitVec 5) : Statement (.vredand t m d a) := formOk_word (wordV_low ..)
theorem vredor (t : BitVec 4) (m : BitVec 3) (d a : BitVec 5) : Statement (.vredor t m d a) := formOk_word (wordV_low ..)
theorem vredxor (t : BitVec 4) (m : BitVec 3) (d a : BitVec 5) : Statement (.vredxor t m d a) := formOk_word (wordV_low ..)
theorem vperm (t : BitVec 4) (m : BitVec 3) (d a b : BitVec 5) : Statement (.vperm t m d a b) := formOk_word (wordV_low ..)
theorem vslide (t : BitVec 4) (m : BitVec 3) (d a b : BitVec 5) : Statement (.vslide t m d a b) := formOk_word (wordV_low ..)
theorem vbcast (t : BitVec 4) (m : BitVec 3) (d a : BitVec 5) : Statement (.vbcast t m d a) := formOk_word (wordV_low ..)
theorem vmerge (t : BitVec 4) (m : BitVec 3) (d a b : BitVec 5) : Statement (.vmerge t m d a b) := formOk_word (wordV_low ..)
theorem vld (t : BitVec 4) (m : BitVec 3) (d a : BitVec 5) : Statement (.vld t m d a) := formOk_word (wordV_low ..)
theorem vlds (t : BitVec 4) (m : BitVec 3) (d a b : BitVec 5) : Statement (.vlds t m d a b) := formOk_word (wordV_low ..)
theorem vldq (t : BitVec 4) (m : BitVec 3) (d a : BitVec 5) : Statement (.vldq t m d a) := formOk_word (wordV_low ..)
theorem vgather (t : BitVec 4) (m : BitVec 3) (d a b : BitVec 5) : Statement (.vgather t m d a b) := formOk_word (wordV_low ..)
theorem vst (t : BitVec 4) (m : BitVec 3) (d a : BitVec 5) : Statement (.vst t m d a) := formOk_word (wordV_low ..)
theorem vsts (t : BitVec 4) (m : BitVec 3) (d a b : BitVec 5) : Statement (.vsts t m d a b) := formOk_word (wordV_low ..)
theorem vstq (t : BitVec 4) (d a : BitVec 5) : Statement (.vstq t d a) := formOk_word (wordV_low ..)
theorem vscatter (t : BitVec 4) (m : BitVec 3) (d a b : BitVec 5) : Statement (.vscatter t m d a b) := formOk_word (wordV_low ..)
theorem vmand (d a b : BitVec 5) : Statement (.vmand d a b) := formOk_word (wordV_low ..)
theorem vmor (d a b : BitVec 5) : Statement (.vmor d a b) := formOk_word (wordV_low ..)
theorem vmxor (d a b : BitVec 5) : Statement (.vmxor d a b) := formOk_word (wordV_low ..)
theorem vmnot (d a : BitVec 5) : Statement (.vmnot d a) := formOk_word (wordV_low ..)
theorem vmpopc (d a : BitVec 5) : Statement (.vmpopc d a) := formOk_word (wordV_low ..)
theorem vmfirst (d a : BitVec 5) : Statement (.vmfirst d a) := formOk_word (wordV_low ..)
theorem vmap (d a b : BitVec 5) : Statement (.vmap d a b) := formOk_word (wordV_low ..)
theorem vmapR (d a b : BitVec 5) : Statement (.vmapR d a b) := formOk_word (wordV_low ..)
theorem vloop (d n : BitVec 5) : Statement (.vloop d n) := formOk_word (wordV_low ..)
theorem tdld (d a : BitVec 5) : Statement (.tdld d a) := formOk_word (wordV_low ..)
theorem tdst (d a : BitVec 5) : Statement (.tdst d a) := formOk_word (wordV_low ..)
theorem tdset (d a b : BitVec 5) : Statement (.tdset d a b) := formOk_word (wordV_low ..)
theorem vqpush (t : BitVec 4) (d a : BitVec 5) : Statement (.vqpush t d a) := formOk_word (wordV_low ..)
theorem vqpop (t : BitVec 4) (m : BitVec 3) (d a : BitVec 5) : Statement (.vqpop t m d a) := formOk_word (wordV_low ..)
theorem cMov (d s : BitVec 5) : Statement (.cMov d s) := formOk_half ..
theorem cAdd (d s : BitVec 5) : Statement (.cAdd d s) := formOk_half ..
theorem cSub (d s : BitVec 5) : Statement (.cSub d s) := formOk_half ..
theorem cAnd (d s : BitVec 5) : Statement (.cAnd d s) := formOk_half ..
theorem cAddi (d : BitVec 5) (k : BitVec 6) : Statement (.cAddi d k) := formOk_half ..
theorem cLdi (d : BitVec 5) (k : BitVec 6) : Statement (.cLdi d k) := formOk_half ..
theorem cSlli (d : BitVec 5) (k : BitVec 6) : Statement (.cSlli d k) := formOk_half ..
theorem cLdReg (d s : BitVec 5) : Statement (.cLdReg d s) := formOk_half ..
theorem cLdG2 (d k : BitVec 5) : Statement (.cLdG2 d k) := formOk_half ..
theorem cStReg (d s : BitVec 5) : Statement (.cStReg d s) := formOk_half ..
theorem cStG2 (d k : BitVec 5) : Statement (.cStG2 d k) := formOk_half ..
theorem cBeqz (d : BitVec 5) (off : BitVec 6) : Statement (.cBeqz d off) := formOk_half ..
theorem cBnez (d : BitVec 5) (off : BitVec 6) : Statement (.cBnez d off) := formOk_half ..
theorem cJ (off : BitVec 11) : Statement (.cJ off) := formOk_half ..
theorem cSync (d : BitVec 5) : Statement (.cSync d) := formOk_half ..
theorem cSend (d c : BitVec 5) : Statement (.cSend d c) := formOk_half ..
theorem exit : Statement (.exit) := formOk_word (wordR_low ..)
theorem yield : Statement (.yield) := formOk_word (wordR_low ..)
theorem abort : Statement (.abort) := formOk_word (wordR_low ..)
theorem eret : Statement (.eret) := formOk_word (wordR_low ..)
theorem wfi : Statement (.wfi) := formOk_word (wordR_low ..)
theorem brk : Statement (.brk) := formOk_word (wordR_low ..)
theorem trap : Statement (.trap) := formOk_word (wordR_low ..)
theorem iflush : Statement (.iflush) := formOk_word (wordR_low ..)
theorem cExit : Statement (.cExit) := formOk_half ..
theorem cNop : Statement (.cNop) := formOk_half ..
theorem storeBufferDrain (core slot : Nat) : Statement (.storeBufferDrain core slot) := trivial
theorem icacheFill (core slot : Nat) : Statement (.icacheFill core slot) := trivial
theorem sleepExpiry (core slot : Nat) : Statement (.sleepExpiry core slot) := trivial
theorem arrive (core slot : Nat) : Statement (.arrive core slot) := trivial
theorem zeroing (core slot : Nat) : Statement (.zeroing core slot) := trivial
theorem zeroingDone (core slot : Nat) : Statement (.zeroingDone core slot) := trivial
theorem spawnStart (op : Nat) : Statement (.spawnStart op) := trivial
theorem deliver (op : Nat) : Statement (.deliver op) := trivial
theorem taskDequeue (core slot : Nat) : Statement (.taskDequeue core slot) := trivial
theorem stealRound (cluster : Nat) : Statement (.stealRound cluster) := trivial
theorem lineFill (die ctx : Nat) (va : BitVec 64) : Statement (.lineFill die ctx va) := trivial
theorem recallLine (op : Nat) : Statement (.recallLine op) := trivial
theorem mcfgEffect (core : Nat) : Statement (.mcfgEffect core) := trivial
theorem tilePass (cluster : Nat) : Statement (.tilePass cluster) := trivial
theorem drainRun (core : Nat) : Statement (.drainRun core) := trivial
theorem copyRun (op : Nat) : Statement (.copyRun op) := trivial
theorem nextCopyRun (op : Nat) : Statement (.nextCopyRun op) := trivial
theorem leaveGrant (die : Nat) : Statement (.leaveGrant die) := trivial
theorem thermalEmergency (die : Nat) (on : Bool) : Statement (.thermalEmergency die on) := trivial
theorem getFill (op : Nat) : Statement (.getFill op) := trivial
theorem lendingResume (core : Nat) : Statement (.lendingResume core) := trivial
theorem amplitudePass (die : Nat) : Statement (.amplitudePass die) := trivial
theorem swapHalfArrival (die : Nat) (index : Nat) (data : List (BitVec 8)) : Statement (.swapHalfArrival die index data) := trivial
theorem partnerTimeout (die : Nat) : Statement (.partnerTimeout die) := trivial
theorem tableStart (ctx : Nat) : Statement (.tableStart ctx) := trivial
theorem groupFire (core : Nat) : Statement (.groupFire core) := trivial
theorem beatArrival (core dir : Nat) : Statement (.beatArrival core dir) := trivial
theorem debtArrival (core : Nat) : Statement (.debtArrival core) := trivial
theorem tableStop (core : Nat) : Statement (.tableStop core) := trivial
theorem shutterDecision (ctx : Nat) : Statement (.shutterDecision ctx) := trivial
theorem release (ctx : Nat) : Statement (.release ctx) := trivial
theorem quiescenceSweep (ctx : Nat) : Statement (.quiescenceSweep ctx) := trivial
theorem maxssExpiry (ctx : Nat) : Statement (.maxssExpiry ctx) := trivial
theorem preemptionStop (ctx : Nat) : Statement (.preemptionStop ctx) := trivial
theorem secureSealed (ctx : Nat) : Statement (.secureSealed ctx) := trivial
theorem moduleFailed (module : Nat) : Statement (.moduleFailed module) := trivial
theorem spareFill (ctx : Nat) : Statement (.spareFill ctx) := trivial
theorem timeCarry (time : BitVec 64) : Statement (.timeCarry time) := trivial
theorem hang (ctx : Nat) : Statement (.hang ctx) := trivial
theorem jobEventEntry (die : Nat) : Statement (.jobEventEntry die) := trivial
theorem dispatchStep (die : Nat) : Statement (.dispatchStep die) := trivial
theorem localStoreWipe (core : Nat) : Statement (.localStoreWipe core) := trivial
theorem wicketAdmission (die : Nat) : Statement (.wicketAdmission die) := trivial
theorem granuleReclaim (core granule : Nat) : Statement (.granuleReclaim core granule) := trivial
theorem dieMemoryReclaim (die ctx : Nat) : Statement (.dieMemoryReclaim die ctx) := trivial
theorem frameWipe (frame : Nat) : Statement (.frameWipe frame) := trivial
theorem dieRetirement (die : Nat) : Statement (.dieRetirement die) := trivial
theorem ssctlVote (die ctx : Nat) : Statement (.ssctlVote die ctx) := trivial
theorem ssctlKill (ctx : Nat) : Statement (.ssctlKill ctx) := trivial
theorem ssctlRetry (ctx : Nat) : Statement (.ssctlRetry ctx) := trivial
theorem ssctlPre (ctx : Nat) : Statement (.ssctlPre ctx) := trivial
theorem upstRet (core slot : Nat) (value : BitVec 64) : Statement (.upstRet core slot value) := trivial
theorem vtrapHeldClear (core slot : Nat) : Statement (.vtrapHeldClear core slot) := trivial
theorem qcfgWrite (die ctx : Nat) (value : BitVec 64) : Statement (.qcfgWrite die ctx value) := trivial
theorem svctlNow (ctx : Nat) : Statement (.svctlNow ctx) := trivial
theorem svctlBw (ctx : Nat) (value : BitVec 64) : Statement (.svctlBw ctx value) := trivial
theorem dbgctlHalt (ctx : Nat) : Statement (.dbgctlHalt ctx) := trivial
theorem dbgctlRun (ctx : Nat) : Statement (.dbgctlRun ctx) := trivial
theorem dbgctlStep (ctx : Nat) : Statement (.dbgctlStep ctx) := trivial
theorem hostRead (fn ctx : Nat) (va : BitVec 64) (size : Nat) : Statement (.hostRead fn ctx va size) := trivial
theorem hostWrite (fn ctx : Nat) (va : BitVec 64) (data : List (BitVec 8)) : Statement (.hostWrite fn ctx va data) := trivial
theorem lqtail (die queue : Nat) (tail : BitVec 64) : Statement (.lqtail die queue tail) := trivial
theorem repreq (die : Nat) (value : BitVec 64) : Statement (.repreq die value) := trivial
theorem dbgselw (ctx : Nat) (value : BitVec 64) : Statement (.dbgselw ctx value) := trivial
theorem sparereq (ctx : Nat) (value : BitVec 64) : Statement (.sparereq ctx value) := trivial
theorem mgerrClear : Statement (.mgerrClear) := trivial
theorem lcreqProvisioned : Statement (.lcreqProvisioned) := trivial
theorem lcreqDeployed (module : BitVec 12) : Statement (.lcreqDeployed module) := trivial
theorem lcreqDecommissioned : Statement (.lcreqDecommissioned) := trivial
theorem functionLevelReset (die : Nat) : Statement (.functionLevelReset die) := trivial
theorem moduleReset : Statement (.moduleReset) := trivial
theorem linkFlitReceive (group : Nat) (authentic : Bool) (flit : Flit) :
    Statement (.linkFlitReceive group authentic flit) := trivial
theorem portLoss (group : Nat) : Statement (.portLoss group) := trivial
theorem dieHealthyAgain (die : Nat) : Statement (.dieHealthyAgain die) := trivial
theorem tdispRequest (die : Nat) (request : TdispRequest) : Statement (.tdispRequest die request) := trivial
theorem ideKeyManagement (die : Nat) (key : BitVec 256) : Statement (.ideKeyManagement die key) := trivial
theorem routerKeyStoreLoad (core : Nat) (id : BitVec 16) (key : BitVec 256) (load : Bool) : Statement (.routerKeyStoreLoad core id key load) := trivial
theorem contextCreation (die : Nat) (tenant fn : Nat) : Statement (.contextCreation die tenant fn) := trivial
theorem contextEnd (ctx : Nat) : Statement (.contextEnd ctx) := trivial
theorem slicePowerGating (die slice : Nat) (gate : Bool) : Statement (.slicePowerGating die slice gate) := trivial
theorem portRetrain (group : Nat) : Statement (.portRetrain group) := trivial

end Sys2Proof.Laws.Encoding
end

