-- ==== Sys2Proof/Tests/Slice0.lean ====
section
/-! SUPPORT. Tests of the model: words written out from the spec's encodings, ill-formed terms, and for every statement with
hypotheses a state that meets them, with what one step then does there. -/

namespace Sys2Proof.Tests

set_option Elab.async false

open Sys2Proof Sys2Proof.Machine

/-! ## Words of the spec's encodings (Tables 2.2-2.12) -/

/-- Majors 0x00-0x06: scalar arithmetic, branches and jumps, field by field. -/
theorem test_words_scalar :
    WordReads 0b00000000100101001000001100000001 (.sub 3 4 5) ∧ WordReads 0xFFA0C505 (.addi 5 6 (-3)) ∧
    WordReads 0xACE0A505 (.addi 5 5 (-665)) ∧ WordReads 0b00001001000110100100010100001001 (.lih 5 0x2469) ∧
    WordReads 0b00000010001001010000011100001101 (.div 7 8 9) ∧ WordReads 0x0000201D (.jalr 0 1 0) := by
  refine ⟨?_, ?_, ?_, ?_, ?_, ?_⟩ <;> (try unfold WordReads) <;> decide +kernel

/-- Majors 0x08-0x0E: memory, bank-ALU, remote and thread instructions. -/
theorem test_words_memory :
    WordReads 0x020CA721 (.ld 7 5 16) ∧ WordReads 0x001CC529 (.amoadd 5 6 7) ∧ WordReads 0x0000002D (.fenceSc 0) ∧
    WordReads 0x00AD5031 (.bvaddF 16 10 11) ∧ WordReads 0x082D4735 (.put 7 10 11) ∧ WordReads 0x102D4835 (.ramoAdd 8 10 11) ∧
    WordReads 0x28914339 (.send 10 4 3 17) ∧ WordReads 0x4102A039 (.sleep 21) ∧ WordReads 0x4180E539 (.probe 5 7) ∧
    WordReads 0x00804E3D (.qpop 14 2) ∧ WordReads 0x0201803D (.lcw 0 12) := by
  refine ⟨?_, ?_, ?_, ?_, ?_, ?_, ?_, ?_, ?_, ?_, ?_⟩ <;> (try unfold WordReads) <;> decide +kernel

/-- Majors 0x11-0x17: engines, timetables, amplitudes, leave and system instructions. -/
theorem test_words_engines :
    WordReads 0x00D68945 (.mjob 9 20 21) ∧ WordReads 0x015ECA45 (.mdrain 10 22 23) ∧ WordReads 0x00006045 (.mcfg 3) ∧
    WordReads 0x02568749 (.xfill 7 20 21) ∧ WordReads 0x01568649 (.xplane 6 20 21) ∧ WordReads 0x0001884D (.ttload 8 12) ∧
    WordReads 0x0101A04D (.ttgoArm 13) ∧ WordReads 0x005A8B51 (.qgate 11 20 22) ∧ WordReads 0x01830B51 (.qprob 11 24) ∧
    WordReads 0x00008959 (.leave 9 4) ∧ WordReads 0x4000005D .eret ∧ WordReads 0x4201205D (.sfenceVPage 9) ∧
    WordReads 0x2100A55D (.sysw 0x045 5) ∧ WordReads 0x4300A05D (.inject 5) := by
  refine ⟨?_, ?_, ?_, ?_, ?_, ?_, ?_, ?_, ?_, ?_, ?_, ?_, ?_, ?_⟩ <;> (try unfold WordReads) <;> decide +kernel

/-- Majors 0x20-0x2F: vector instructions. -/
theorem test_words_vector :
    WordReads 0x280C4291 (.vfadd 10 0 2 2 3) ∧ WordReads 0xA80044A1 (.vredsum 10 0 4 2) ∧ WordReads 0x1C2822A1 (.vcvt 7 0 2 1 10 0) ∧
    WordReads 0x684022A5 (.vslide 10 0 2 1 16) ∧ WordReads 0x9C0281A5 (.vbcast 7 0 1 20) ∧ WordReads 0xA80003A9 (.vldq 10 0 3 0) ∧
    WordReads 0x003400B5 (.vmap 0 0 13) ∧ WordReads 0x000020B9 (.vloop 0 1) ∧ WordReads 0xC000A0B9 (.tdset 0 5 0) ∧
    WordReads 0x280082BD (.vqpush 10 2 4) := by
  refine ⟨?_, ?_, ?_, ?_, ?_, ?_, ?_, ?_, ?_, ?_⟩ <;> (try unfold WordReads) <;> decide +kernel

/-- Compact forms (Table 2.3) and an immediate of two prefixes (R36). -/
theorem test_words_compact :
    (decode [0x0138]).toOption = some (.cSync 9, 1) ∧ (decode [0xFF56]).toOption = some (.cJ (-6), 1) ∧
    (decode [0x001C]).toOption = some (.cExit, 1) ∧ (decode [0x001E]).toOption = some (.cNop, 1) ∧
    (decode [0x3453, 0x0012, 0x0505, 0xCF00]).toOption = some (.addi 5 0 0x12345678, 4) := by
  refine ⟨?_, ?_, ?_, ?_, ?_⟩ <;> decide +kernel

/-! ## Ill-formed terms -/

/-- Scalar instructions with one operand outside its range (R35, R41, R44). -/
theorem test_illFormed_scalar : ∀ i ∈ ([
    .fenceSc 3, .baddW128 0 0 0, .baddW128 0 0 31, .bvaddF 0 0 0, .bvaddF 17 0 0, .bvaddBh 0 0 0, .bvaddBh 17 0 0, .bvmaxF 0 0 0,
    .bvmaxF 17 0 0, .bvmaxBh 0 0 0, .bvmaxBh 17 0 0, .bredF 0 0 0, .bredF 17 0 0, .bredBh 0 0 0, .bredBh 17 0 0, .ramoCas 31 0 0,
    .spawn 0 0 0 0, .spawn 0 0 0 33, .spawn 31 0 0 2, .send 0 0 9 0, .send 0 31 2 0, .send 0 1 0 0, .qpush 2 0, .qpop 0 1, .qpop 0 4, .qlen 0 4,
    .lcw 2 0, .lcr 0 2, .lbw 2 0, .qgate 0 0 0, .qgate 0 0 31, .qgateAuto 0 0 0, .qgateAuto 0 0 31, .qgateD 0 0 0, .qgateD 0 0 31,
    .qgateAutoD 0 0 0, .qgateAutoD 0 0 31] : List Instr), i.wellFormed = false := by decide

/-- Vector instructions with a type, mask or queue operand that the opcode map does not admit (R43, R44). -/
theorem test_illFormed_vectorA : ∀ i ∈ ([
    .vadd 8 0 0 0 0, .vsub 8 0 0 0 0, .vmul 8 0 0 0 0, .vmulh 8 0 0 0 0, .vand 8 0 0 0 0, .vor 8 0 0 0 0, .vxor 8 0 0 0 0,
    .vandn 8 0 0 0 0, .vsll 8 0 0 0 0, .vsrl 8 0 0 0 0, .vsra 8 0 0 0 0, .vmin 8 0 0 0 0, .vmax 8 0 0 0 0, .vadds 8 0 0 0 0,
    .vsubs 8 0 0 0 0, .vfadd 7 0 0 0 0, .vfsub 7 0 0 0 0, .vfmul 7 0 0 0 0, .vfdiv 7 0 0 0 0, .vfmin 7 0 0 0 0, .vfmax 7 0 0 0 0,
    .vrcps 7 0 0 0 0, .vrsqrts 7 0 0 0 0, .vfma 7 0 0 0 0, .vfms 7 0 0 0 0, .vfnma 7 0 0 0 0, .vfnms 7 0 0 0 0, .vceq 12 0 1 0 0,
    .vceq 0 0 8 0 0, .vcne 12 0 1 0 0, .vcne 0 0 8 0 0, .vclt 12 0 1 0 0, .vclt 0 0 8 0 0, .vcle 12 0 1 0 0, .vcle 0 0 8 0 0,
    .vcvt 12 0 0 0 9 0, .vcvt 8 0 0 0 14 0, .vcvt 8 0 0 0 8 0, .vcvt 0 0 0 0 9 1, .vrcp 7 0 0 0, .vrsqrt 7 0 0 0, .vsqrt 7 0 0 0,
    .vabs 12 0 0 0, .vneg 12 0 0 0, .vmov 14 0 0 0, .vredsum 12 0 0 0] : List Instr), i.wellFormed = false := by decide

/-- The same, for the rest of the vector majors (R43, R44). -/
theorem test_illFormed_vectorB : ∀ i ∈ ([
    .vredmin 12 0 0 0, .vredmax 12 0 0 0, .vredand 8 0 0 0, .vredor 8 0 0 0, .vredxor 8 0 0 0, .vperm 14 0 0 0 0, .vslide 14 0 0 0 0,
    .vbcast 14 0 0 0, .vmerge 14 0 0 0 0, .vld 14 0 0 0, .vlds 14 0 0 0 0, .vldq 14 0 0 0, .vldq 0 0 0 2, .vgather 14 0 0 0 0,
    .vst 14 0 0 0, .vsts 14 0 0 0 0, .vstq 2 0 2, .vstq 3 0 1, .vscatter 14 0 0 0 0, .vmand 8 0 0, .vmand 1 8 0, .vmand 1 0 8,
    .vmor 8 0 0, .vmor 1 8 0, .vmor 1 0 8, .vmxor 8 0 0, .vmxor 1 8 0, .vmxor 1 0 8, .vmnot 8 0, .vmnot 1 8, .vmpopc 1 0, .vmpopc 2 8,
    .vmfirst 1 0, .vmfirst 2 8, .vmap 2 0 0, .vmap 0 8 0, .vmapR 2 0 0, .vmapR 0 8 0, .vloop 2 0, .vloop 0 16, .tdld 8 0, .tdst 8 0,
    .tdset 8 0 0, .vqpush 14 2 0, .vqpush 0 1 0, .vqpop 14 0 0 0, .vqpop 0 0 0 2] : List Instr), i.wellFormed = false := by decide

/-- Compact forms that name g0 as destination (R39). -/
theorem test_illFormed_compact : ∀ i ∈ ([
    .cMov 0 0, .cAdd 0 0, .cSub 0 0, .cAnd 0 0, .cAddi 0 0, .cLdi 0 0, .cSlli 0 0, .cLdReg 0 0,
    .cLdG2 0 0] : List Instr), i.wellFormed = false := by decide

/-- Events of agents that no module has (R14-R21). -/
theorem test_illFormed_events : ∀ i ∈ ([
    .storeBufferDrain 6168 0, .storeBufferDrain 0 10, .icacheFill 6168 0, .icacheFill 0 10, .sleepExpiry 6168 0, .sleepExpiry 0 10,
    .arrive 6168 0, .arrive 0 10, .zeroing 6168 0, .zeroing 0 10, .zeroingDone 6168 0, .zeroingDone 0 10, .taskDequeue 6168 0,
    .taskDequeue 0 10, .stealRound 768, .lineFill 24 0 0, .lineFill 0 65536 0, .mcfgEffect 6168, .tilePass 768, .drainRun 6168,
    .leaveGrant 24, .thermalEmergency 24 true, .lendingResume 6168, .amplitudePass 24, .swapHalfArrival 24 0 [], .partnerTimeout 24,
    .tableStart 65536, .groupFire 6168, .beatArrival 6168 0, .beatArrival 0 5, .debtArrival 6168, .tableStop 6168,
    .shutterDecision 65536, .release 65536, .quiescenceSweep 65536, .maxssExpiry 65536, .preemptionStop 65536, .secureSealed 65536,
    .spareFill 65536, .hang 65536, .jobEventEntry 24, .dispatchStep 24, .localStoreWipe 6168, .wicketAdmission 24,
    .granuleReclaim 6168 0, .granuleReclaim 0 12, .dieMemoryReclaim 24 0, .dieMemoryReclaim 0 65536, .dieRetirement 24, .ssctlVote 24 0,
    .ssctlVote 0 65536, .ssctlKill 65536, .ssctlRetry 65536, .ssctlPre 65536, .upstRet 6168 0 0, .upstRet 0 10 0, .vtrapHeldClear 6168 0,
    .vtrapHeldClear 0 10, .qcfgWrite 24 0 0, .qcfgWrite 0 65536 0, .svctlNow 65536, .svctlBw 65536 0, .dbgctlHalt 65536,
    .dbgctlRun 65536, .dbgctlStep 65536, .hostRead 25 0 0 0, .hostRead 0 65536 0 0, .hostWrite 25 0 0 [], .hostWrite 0 65536 0 [],
    .lqtail 24 0 0, .lqtail 0 16 0, .repreq 24 0, .dbgselw 65536 0, .sparereq 65536 0, .functionLevelReset 24,
    .linkFlitReceive 6 true ⟨0, .vote 0 0⟩, .portLoss 6, .dieHealthyAgain 24, .tdispRequest 24 .lock, .ideKeyManagement 24 0,
    .routerKeyStoreLoad 6168 0 0 true, .contextCreation 24 0 0, .contextCreation 0 0 25, .contextEnd 65536, .slicePowerGating 24 0 true,
    .slicePowerGating 0 256 true, .portRetrain 6] : List Instr), i.wellFormed = false := by decide

/-! ## States to test on -/

/-- A launch of context 1 on this module alone. -/
def job1 : Job := { Job.init (List.replicate 32 0) 0 0 0 1 [0xFFF] with phase := .running, member := none }

def ctx1 : Ctx := { Ctx.reset with live := true, job := some job1 }

/-- Core 0 as the launch of context 1 holds it. -/
def core0 : Core := { Core.reset with hold := some 1, slotSet := 1 }

/-- A Ready thread of context 1 in U mode. -/
def th0 : Thread := { Thread.reset with st := .ready, ctx := 1, pc := 0x10000 }

/-- The machine with that launch, the thread `th` in slot 0 of core 0, running, and its next PC set. -/
def one (th : Thread) : State :=
  { State.reset with threads := [(0, th)], cores := [(0, core0)], ctxs := [(1, ctx1)], cur := 0, npc := 0x10004 }

/-- Registers g1, g2, ... hold the values listed. -/
def regs (vs : List Word) : Thread :=
  (List.range vs.length).foldl (fun th i => th.wg (BitVec.ofNat 5 (i + 1)) (vs.getD i 0)) th0

/-- The outcome is a next state that passes `p`. -/
def nextIs (r : Host.Outcome State Fault Refusal) (p : State → Bool) : Bool :=
  match r with
  | .next t => p t
  | _ => false

/-- The instruction completes with g3 holding the value, at the next PC. -/
def gives (s : State) (x : Instr × Word) : Bool :=
  nextIs (exec x.1 s) (fun t => decide (t.th.rg 3 = x.2) && decide (t.th.pc = s.npc))

/-- The instruction takes the trap to S mode, with its fault address. -/
def takes (s : State) (i : Instr) (code : Nat) (tval : Word) : Bool :=
  nextIs (exec i s) (fun t => decide (t.th.mode = .s) && decide (t.th.strap.cause = word code) && decide (t.th.strap.tval = tval) &&
    decide (t.th.pc = (s.ctx s.curCtx).tvec))

/-- Own local-store address of an offset. -/
def own (off : Nat) : Word := BitVec.ofNat 64 (2 ^ 64 - 65536 + off)

/-- Local store of core 0 from an offset holds the bytes. -/
def holding (s : State) (off : Nat) (bs : List Byte) : State := s.writeN (localAddr 0 off) bs

theorem bytes_of {a : ReadAnswer} {s : State} {b : List Byte}
    (h : (match a with | .bytes s' b' => decide (s' = s ∧ b' = b) | _ => false) = true) : a = .bytes s b := by
  cases a <;> simp_all

theorem taken_of {a : PreAnswer} {s : State} (h : (match a with | .taken s' => decide (s' = s) | _ => false) = true) :
    a = .taken s := by
  cases a <;> simp_all

/-- No context traces on die `d`. -/
theorem quiet_of {s : State} {d : Nat} (h : ∀ e ∈ s.ctxs, (Table.get DieCtx.zero e.2.dies d).trEn = 0) (c : Nat) : (s.dctx d c).trEn = 0 := by
  unfold State.dctx State.ctx
  revert h
  generalize s.ctxs = l
  intro h
  induction l with
  | nil => rfl
  | cons e l ih =>
    by_cases he : e.1 = c
    · rw [show Table.get Ctx.reset (e :: l) c = e.2 from if_pos he]
      exact h e (.head _)
    · rw [show Table.get Ctx.reset (e :: l) c = Table.get Ctx.reset l c from if_neg he]
      exact ih (fun x hx => h x (.tail _ hx))

theorem ok_of {α β : Type} {e : Except α β} {b : β} (h : e.toOption = some b) : e = .ok b := by
  cases e <;> simp_all [Except.toOption]

/-! ## Encoding, the step, reset -/

/-- Boundaries of DecodeReadsEncode: a prefixed immediate, a compact form, a later kind of a shared word. -/
theorem witness_decodeReadsEncode :
    (Instr.addi 5 0 0x7FFFFFFFFFFFFFFF).wellFormed = true ∧ encode (.addi 5 0 0x7FFFFFFFFFFFFFFF) ≠ [] ∧
    (Instr.ttgoFree 13).wellFormed = true ∧ encode (.ttgoFree 13) = encode (.ttgoArm 13) ∧
    decode [0xFF56] = .ok (.cJ (-6), 1) :=
  ⟨by decide +kernel, by decide +kernel, by decide +kernel, by decide +kernel, ok_of (by decide +kernel)⟩

/-- ReservedMajorsRefused: the first and the last reserved major. -/
theorem witness_reservedMajors :
    (0x61#32).extractLsb' 2 6 = BitVec.ofNat 6 0x18 ∧ (0xFFFFFFFD#32).extractLsb' 2 6 = BitVec.ofNat 6 0x3F ∧
    (0x61#32).getLsbD 0 = true ∧ (0x61#32).getLsbD 1 = false := by decide

/-- A turn that issues on slot 0, with `addi g5, g6, -3` at the last four bytes of the line of its PC. -/
def sIssue : State :=
  { one { th0 with pc := 0x1003C } with
    agenda := [.issue 0 0 0]
    cores := [(0, { core0 with icache := [{ ctx := 1, line := 0x10000, harvester := false, data := 0xFFA0C505#512 <<< 480 }] })] }

theorem witness_stepRunsDecoded :
    let i : Instr := .addi 5 6 (-3)
    sIssue.agenda = [.issue 0 0 0] ∧ isControl 0 = false ∧ scalarAsks sIssue 0 0 0 = true ∧
    barred { sIssue with agenda := [] } 0 0 0 = false ∧ (sIssue.thread 0).st = .ready ∧ (sIssue.thread 0).pendVF = [] ∧ (sIssue.thread 0).pendRM = [] ∧
    (sIssue.core 0).icache = [{ ctx := 1, line := lineOf 0x1003C, harvester := false, data := 0xFFA0C505#512 <<< 480 }] ∧
    i.wellFormed = true ∧ laterKind i = false ∧ encode i ≠ [] ∧ 0x1003C % 64 + 2 * (encode i).length ≤ 64 ∧
    (∀ k < (encode i).length, (encode i).getD k 0 = BitVec.ofNat 16 ((0xFFA0C505#512 <<< 480).toNat >>> (8 * ((0x1003C + 2 * k) % 64)))) ∧
    nextIs (step sIssue) (fun t => decide ((t.thread 0).rg 5 = -3) && decide ((t.thread 0).pc = 0x10040)) = true := by
  refine ⟨?_, ?_, ?_, ?_, ?_, ?_, ?_, ?_, ?_, ?_, ?_, ?_, ?_, ?_⟩ <;> decide +kernel

/-- StepRunsDecoded: a Ready slot behind another Ready one of its order does not issue. -/
theorem witness_stepBarred :
    let s := { sIssue with agenda := [.issue 0 1 0], threads := [(0, { th0 with pc := 0x1003C }), (1, { th0 with pc := 0x1003C })] }
    (match prepareIssue 0 1 0 { s with agenda := [] } with
      | .run i s1 => hasIssued 0 1 { s with agenda := [] } (exec i s1)
      | _ => false) = true ∧ barred { s with agenda := [] } 0 1 0 = true ∧ nextIs (step s) (fun t => decide (t.threads = s.threads)) = true := by
  refine ⟨?_, ?_, ?_⟩ <;> decide +kernel

/-- StepRunsDecoded: a job with a stuck thread keeps its stuck cycles, one with a Ready thread starts them anew. -/
theorem witness_stepSettles :
    let s (th : Thread) : State := { one th with ctxs := [(1, { ctx1 with job := some { job1 with stuckCy := 5 } })] }
    let p : Thread := { th0 with st := .parked, wait := .regs 2 }
    ((tellStills (s p)).job 1).map (·.stuckCy) = some 5 ∧ ((settledTurn (s p)).job 1).map (·.stuckCy) = some 5 ∧
    ((settledTurn (s th0)).job 1).map (·.stuckCy) = some 0 := by
  refine ⟨?_, ?_, ?_⟩ <;> decide +kernel

/-- StepRunsDecoded: a turn that prepares a state (the line of the PC is not cached), and one that runs an instruction. -/
theorem witness_stepPrepares :
    (match prepareIssue 0 0 0 { sIssue with cores := [(0, core0)] } with | .done _ => true | _ => false) = true ∧
    (match prepareIssue 0 0 0 sIssue with | .run i _ => decide (i = .addi 5 6 (-3)) | _ => false) = true := by
  refine ⟨?_, ?_⟩ <;> decide +kernel

/-- ResetValues: the last frames of the three kinds of R239, and the ends of local store and die memory. -/
theorem witness_resetValues :
    frameKind State.reset 15 732164 = 0 ∧ frameKind State.reset 15 732165 = 6 ∧ frameKind State.reset 0 732420 = 6 ∧
    frameKind State.reset 0 732421 = 7 ∧ State.reset.read (localAddr 6143 (localBytes - 1)) = 0 ∧
    State.reset.read (dieAddr 23 112) = 0 := by
  refine ⟨?_, ?_, ?_, ?_, ?_, ?_⟩ <;> decide +kernel

/-- CanonicalMemoryKept: a state with a listed byte, and its step. -/
theorem witness_canonical :
    let s := { State.reset with mem := [(localAddr 0 0, 5)], agenda := [.elapse 1 1] }
    Canonical s ∧ nextIs (step s) (fun t => Memory.wf t.mem) = true := by
  refine ⟨?_, ?_⟩ <;> (try unfold Canonical) <;> decide +kernel

/-! ## Scalar arithmetic and control flow -/

/-- AluRegisterResults and the rest of the register arithmetic, with full sources that wrap, change sign or overflow. -/
theorem witness_alu :
    let s := one (regs [0xFFFFFFFFFFFFFFFF, 0x8000000000000001])
    FullAll s [1, 2] ∧
    ∀ x ∈ ([(.add 3 1 2, 0x8000000000000000), (.sub 3 1 2, 0x7FFFFFFFFFFFFFFE), (.and 3 1 2, 0x8000000000000001), (.or 3 1 2, ones64),
      (.xor 3 1 2, 0x7FFFFFFFFFFFFFFE), (.sll 3 1 2, 0xFFFFFFFFFFFFFFFE), (.srl 3 1 2, 0x7FFFFFFFFFFFFFFF), (.sra 3 1 2, ones64),
      (.slt 3 1 2, 0), (.sltu 3 2 1, 1), (.andn 3 1 2, 0x7FFFFFFFFFFFFFFE), (.orn 3 2 1, 0x8000000000000001),
      (.mul 3 1 2, 0x7FFFFFFFFFFFFFFF), (.mulh 3 1 2, 0), (.mulhu 3 1 2, 0x8000000000000000),
      (.mulhsu 3 2 1, 0x8000000000000001), (.min 3 1 2, 0x8000000000000001), (.max 3 1 2, ones64), (.minu 3 1 2, 0x8000000000000001),
      (.maxu 3 1 2, ones64), (.bext 3 1 2, 3), (.bdep 3 1 2, 0x8000000000000001), (.clz 3 2, 0), (.ctz 3 2, 0),
      (.popc 3 2, 2), (.brev 3 2, 0x8000000000000001)] : List (Instr × Word)), gives s x = true := by
  refine ⟨by unfold FullAll; decide +kernel, ?_⟩; decide +kernel

/-- ImmediateAndDivideResults: the corners of Table 5.5, shifts by 63, and the immediates. -/
theorem witness_immediate :
    let s := one (regs [0x8000000000000000, ones64, 0, 7])
    FullAll s [1, 2, 3, 4] ∧
    ∀ x ∈ ([(.div 3 1 2, 0x8000000000000000), (.rem 3 1 2, 0), (.div 3 4 3, ones64), (.rem 3 4 3, 7), (.divu 3 4 3, ones64),
      (.remu 3 4 3, 7), (.divu 3 2 4, 0x2492492492492492), (.remu 3 2 4, 1), (.addi 3 4 (-8), ones64), (.slti 3 1 0, 1),
      (.sltiu 3 1 0, 0), (.andi 3 2 5, 5), (.ori 3 4 8, 15), (.xori 3 4 (-1), 0xFFFFFFFFFFFFFFF8), (.slli 3 4 63, 0x8000000000000000),
      (.srli 3 1 63, 1), (.srai 3 1 63, ones64), (.lih 3 0x2469, 0x1234800), (.pch 3 1, 0x10800)] : List (Instr × Word)), gives s x = true := by
  refine ⟨by unfold FullAll; decide +kernel, ?_⟩; decide +kernel

/-- BitAndCompactResults: zero sources of the counts, SEL, and the compact forms. -/
theorem witness_compact :
    let s := one (regs [0, 9, 4])
    FullAll s [3, 1, 2] ∧
    ∀ x ∈ ([(.clz 3 1, 64), (.ctz 3 1, 64), (.sel 3 1 2, 0), (.cMov 3 2, 9), (.cAdd 3 2, 13), (.cSub 3 2, -5), (.cAnd 3 2, 0),
      (.cAddi 3 (-4), 0), (.cSlli 3 62, 0), (.cLdi 3 (-1), ones64), (.cNop, 4)] : List (Instr × Word)), gives s x = true := by
  refine ⟨by unfold FullAll; decide +kernel, ?_⟩; decide +kernel

/-- BranchOutcomes and JumpsLink: taken and untaken, backwards, and the link. -/
theorem witness_branches :
    let s := one (regs [ones64, 1])
    FullAll s [1, 2] ∧
    (∀ x ∈ ([(.beq 1 2 8, 0x10004), (.bne 1 2 8, 0x10010), (.blt 1 2 8, 0x10010), (.bge 1 2 8, 0x10004), (.bltu 1 2 8, 0x10004),
      (.bgeu 1 2 (-8), 0xFFF0), (.cBeqz 1 4, 0x10004), (.cBnez 1 4, 0x10008), (.cJ (-1), 0xFFFE)] : List (Instr × Word)),
      nextIs (exec x.1 s) (fun t => decide (t.th.pc = x.2) && decide (t.th.g = s.th.g)) = true) ∧
    nextIs (exec (.jal (-2)) s) (fun t => decide (t.th.pc = 0xFFFC) && decide (t.th.rg 1 = 0x10004)) = true ∧
    nextIs (exec (.jalr 2 2 1) s) (fun t => decide (t.th.pc = 2) && decide (t.th.rg 2 = 0x10004)) = true ∧
    TakesS s ∧ (s.th.rg 2 + 2).getLsbD 0 = true ∧ takes s (.jalr 2 2 2) 3 3 = true := by
  refine ⟨by unfold FullAll; decide +kernel, ?_, ?_, ?_, by unfold TakesS; decide +kernel, ?_, ?_⟩ <;> decide +kernel

/-- AbortEndsPart: a launch runs; the vote has bit 0. -/
theorem witness_abort :
    (one th0).job (one th0).curCtx = some job1 ∧
    nextIs (exec .abort (one th0)) (fun t => decide (t.th.st = .arrived) && decide (t.job 1 = some { job1 with abortMask := 1 })) = true := by
  refine ⟨?_, ?_⟩ <;> decide +kernel

/-- EretRestores: each mode, and an image held with the sequencer empty and not. -/
theorem witness_eret :
    let x : TrapRegs := { TrapRegs.zero with st := true, epc := 0x20000 }
    let e : VItem := .loop { level := 0, n := 1, b := 0, e := 0, count := 1 }
    let img : Image := { seq := { items := [e], pos := 0, frames := [] }, lc := Vector.replicate 2 LoopReg.zero }
    let sS := one { th0 with mode := .s, strap := x }
    let sI := one { th0 with mode := .s, strap := x, image := some img }
    let sW := one { th0 with mode := .s, strap := x, image := some img, seq := { items := [e], pos := 0, frames := [] } }
    let sM := one { th0 with mode := .m, mtrap := x }
    takes (one th0) .eret 2 0 = true ∧ TakesS (one th0) ∧ sS.th.image = none ∧ sI.th.image = some img ∧
    nextIs (exec .eret sS) (fun t => decide (t.th.pc = 0x20000) && decide (t.th.mode = .u)) = true ∧
    nextIs (exec .eret sI) (fun t => decide (t.th.seq = img.seq) && decide (t.th.image = none)) = true ∧
    sW.th.seq.pos < sW.th.seq.items.length ∧ nextIs (exec .eret sW) (fun t => decide (t = sW)) = true ∧
    nextIs (exec .eret sM) (fun t => decide (t.th.pc = 0x20000) && !t.th.mtrap.st) = true := by
  refine ⟨?_, by unfold TakesS; decide +kernel, ?_, ?_, ?_, ?_, ?_, ?_, ?_⟩ <;> decide +kernel

/-! ## Full and empty registers -/

/-- EmptySourcesPark: every source empty, in U mode and in M mode, and one source that waits for a RAMO result. -/
theorem witness_emptySources :
    let e : Thread := ((((regs [0, 0, 0]).emptyG 1).emptyG 2).emptyG 3).emptyG 4
    let s := one e
    let m := one { e with mode := .m }
    let r (x : BitVec 5) : State := one { (regs [0, 0, 0]).emptyG x with ramo := BitVec.ofNat 32 (2 ^ x.toNat) }
    let bits (l : List (BitVec 5)) : BitVec 64 := l.foldl (fun w x => w ||| BitVec.ofNat 64 (2 ^ x.toNat)) 0
    ∀ p ∈ gReaders 3 1 2 0 6 1 1 0 ++ gReadersChecked s 3 1 2 0x001, (∀ x ∈ p.2, s.th.fullG x = false ∧ s.th.ramo.getLsbD x.toNat = false) ∧
      nextIs (exec p.1 s) (fun t => decide (t.th = { s.th with st := .parked, wait := .regs (bits p.2) })) = true ∧
      (∀ x ∈ p.2.take 1, (r x).th.ramo.getLsbD x.toNat = true ∧ takes (r x) p.1 8 (word x.toNat) = true) ∧
    ∀ p ∈ gReadersChecked m 3 1 2 0x080, nextIs (exec p.1 m) (fun t => decide (t.th = { m.th with st := .parked, wait := .regs (bits p.2) })) = true := by
  decide +kernel

/-- FullBitsAndQueues: a full register and an empty one, queues of 0, 1, 7 and 8 entries. -/
theorem witness_fullBits :
    let s := one ((regs [5]).emptyG 2)
    let q (n : Nat) : State := one ((regs [5]).setQueue 0 (List.replicate n 1))
    s.th.vectorBusy = false ∧ FullAll s [1] ∧
    (∀ x ∈ ([(.probe 3 1, 1), (.probe 3 2, 0), (.probeV 3 1, 1), (.qlen 3 0, 0)] : List (Instr × Word)), gives s x = true) ∧
    nextIs (exec (.empty 1) s) (fun t => decide (t.th.fullG 1 = false) && decide (t.th.rg 1 = 5)) = true ∧
    nextIs (exec (.emptyV 1) s) (fun t => decide (t.th.fullV 1 = false)) = true ∧
    nextIs (exec (.qpush 0 1) (q 7)) (fun t => decide ((t.th.queue 0).getLast? = some 5) && decide (t.th.pc = 0x10004)) = true ∧
    nextIs (exec (.qpush 0 1) (q 8)) (fun t => decide (t.th.wait = .queue 0) && decide (t.th.pc = 0x10000)) = true ∧
    nextIs (exec (.qpop 3 2) (one ((regs []).setQueue 2 [9]))) (fun t => decide (t.th.rg 3 = 9) && decide (t.th.queue 2 = [])) = true ∧
    nextIs (exec (.qpop 3 2) s) (fun t => decide (t.th.wait = .queue 2)) = true := by
  refine ⟨?_, by unfold FullAll; decide +kernel, ?_, ?_, ?_, ?_, ?_, ?_, ?_⟩ <;> decide +kernel

/-! ## Loads, stores, atomics -/

/-- The last eight bytes of the U-mode area hold 0x80 and seven times 0xFF; g1 and g2 stand before them. -/
def sMem : State := holding (one (regs [own 0xB7E8, own 0xB700, 0x1122334455667788])) 0xB7F8 [0x80, 0xFF, 0xFF, 0xFF, 0xFF, 0xFF, 0xFF, 0xFF]

/-- LoadResults: every form at the last address of the U-mode area. -/
theorem witness_loads :
    FullAll sMem [1, 2] ∧ sMem.th.vectorMem = false ∧ sMem.th.sb = [] ∧ sMem.owned = [] ∧ sMem.ecc = [] ∧
    (own 0xB7F8).toNat % 8 = 0 ∧ checkAccess sMem 0 0 .u 1 .read (own 0xB7F8).toNat = .ok (.own 0xB7F8) ∧
    loadPlace sMem 0 (.own 0xB7F8) 8 = .bytes sMem [0x80, 0xFF, 0xFF, 0xFF, 0xFF, 0xFF, 0xFF, 0xFF] ∧
    Unleased sMem 0 (0xB7F8 / 4096) ∧
    ∀ x ∈ ([(.lb 3 1 16, -128), (.lh 3 1 16, -128), (.lw 3 1 16, -128), (.ld 3 1 16, -128), (.lbu 3 1 16, 0x80), (.lhu 3 1 16, 0xFF80),
      (.lwu 3 1 16, 0xFFFFFF80), (.cLdReg 3 1, 0), (.cLdG2 3 31, -128)] : List (Instr × Word)), gives sMem x = true := by
  refine ⟨by unfold FullAll; decide +kernel, ?_, ?_, ?_, ?_, ?_, ?_, bytes_of ?_, by unfold Unleased; decide +kernel, ?_⟩ <;> decide +kernel

/-- A store buffer of fifteen entries and the line of the stores written before. -/
def sStore : State :=
  { one { regs [own 0xB7E8, own 0xB700, 0x1122334455667788] with sb := List.replicate 15 { far := true, ea := 0, cells := [] } } with
    cores := [(0, { core0 with pool := [{ line := 0xB7C0, writer := 0, data := 0 }] })] }

/-- StoreBuffered: every form with fifteen entries in the buffer. -/
theorem witness_stores :
    FullAll sStore [1, 2, 3] ∧ sStore.th.vectorMem = false ∧ sStore.th.sb.length < 16 ∧
    checkAccess sStore 0 0 .u 1 .write (own 0xB7F8).toNat = .ok (.own 0xB7F8) ∧ storeRoom (.own 0xB7F8) 8 sStore = .taken sStore ∧
    Unleased sStore 0 (0xB7F8 / 4096) ∧ (preLocal sStore 0 (writerOf 0) (lineOf 0xB7F8)).isSome = true ∧
    ∀ p ∈ ([(.sb 1 3 16, [0x88]), (.sh 1 3 16, [0x88, 0x77]), (.sw 1 3 16, [0x88, 0x77, 0x66, 0x55]),
      (.sd 1 3 16, [0x88, 0x77, 0x66, 0x55, 0x44, 0x33, 0x22, 0x11]),
      (.cStG2 3 31, [0x88, 0x77, 0x66, 0x55, 0x44, 0x33, 0x22, 0x11])] : List (Instr × List Byte)),
      nextIs (exec p.1 sStore) (fun t => decide (t.th.sb.length = 16) && decide (t.mem = sStore.mem) &&
        decide ((t.th.sb.getLast?.map (·.cells)) = some ((List.range p.2.length).map (fun n => (localAddr 0 (0xB7F8 + n), p.2.getD n 0))))) = true := by
  refine ⟨by unfold FullAll; decide +kernel, ?_, ?_, ?_, taken_of ?_, by unfold Unleased; decide +kernel, ?_, ?_⟩ <;> decide +kernel

/-- StoreBuffered: `c.st` at the base. -/
theorem test_cStReg : nextIs (exec (.cStReg 3 2) sMem) (fun t => decide (t.th.sb.map (·.ea) = [own 0xB700])) = true := by
  decide +kernel

/-- StoresDrainAndForward: one near entry of eight bytes, drained, and forwarded to a load of them. -/
theorem witness_storeBuffer :
    let e : SbEntry := { far := false, ea := own 0, cells := (List.range 8).map (fun n => (localAddr 0 n, BitVec.ofNat 8 (n + 1))) }
    let s := { one { regs [own 0] with sb := [e] } with cores := [(0, { core0 with pool := [{ line := 0, writer := 0, data := 0 }] })] }
    (∀ c ∈ e.cells, (preLocal s 0 (writerOf 0) (lineOf c.1 - localAddr 0 0)).isSome = true) ∧ (s.thread (tid 0 0)).sb = [e] ∧ e.far = false ∧ s.owned = [] ∧ s.ecc = [] ∧ (∀ c ∈ e.cells, 2 ^ 48 ≤ c.1) ∧ (e.cells.map (·.1)).Nodup ∧
    nextIs (exec (.storeBufferDrain 0 0) s) (fun t => decide (t.readN (localAddr 0 0) 9 = [1, 2, 3, 4, 5, 6, 7, 8, 0]) &&
      decide (t.th.sb = [])) = true ∧
    FullAll s [1] ∧ s.th.vectorMem = false ∧ checkAccess s 0 0 .u 1 .read (own 0).toNat = .ok (.own 0) ∧
    (Place.own 0).near = true ∧ e.cells.length = 8 ∧
    (∀ i < 8, e.cells[i]? = some ((Place.own 0).loc 0 + i, BitVec.ofNat 8 (i + 1))) ∧
    gives s (.ld 3 1 0, 0x0807060504030201) = true := by
  refine ⟨?_, ?_, ?_, ?_, ?_, ?_, ?_, ?_, by unfold FullAll; decide +kernel, ?_, ?_, ?_, ?_, ?_, ?_⟩ <;> decide +kernel

/-- AccessChecks: a misaligned address, one that U mode may not reach, and a store with 256 pre-images held and no overflow. -/
theorem witness_accessTraps :
    let s := one (regs [own 0x101, own 0xB800, own 0])
    let f := { s with cores := [(0, { core0 with pool := (List.range 256).map (fun n => ({ line := 64 * n + 64, writer := 0, data := 0 } : PoolEntry)) })] }
    TakesS s ∧ s.th.vectorMem = false ∧ FullAll s [1, 2, 3] ∧ (own 0x101).toNat % 8 ≠ 0 ∧ (own 0x101).toNat % 2 ≠ 0 ∧
    checkAccess s 0 0 .u 1 .read (own 0xB800).toNat = .denied ∧ checkAccess s 0 0 .u 1 .write (own 0xB800).toNat = .denied ∧
    takes s (.ld 3 1 0) 3 (own 0x101) = true ∧ takes s (.lh 3 1 0) 3 (own 0x101) = true ∧ takes s (.ld 3 2 0) 4 (own 0xB800) = true ∧
    takes s (.sd 1 3 0) 515 (own 0x101) = true ∧ takes s (.sb 2 3 0) 516 (own 0xB800) = true ∧
    checkAccess f 0 0 .u 1 .write (own 0).toNat = .ok (.own 0) ∧
    (match storeRoom (.own 0) 8 f with | .full => true | _ => false) = true ∧ takes f (.sd 3 1 0) 519 (own 0) = true := by
  refine ⟨by unfold TakesS; decide +kernel, ?_, by unfold FullAll; decide +kernel, ?_, ?_, ?_, ?_, ?_, ?_, ?_, ?_, ?_, ?_, ?_, ?_⟩ <;> decide +kernel

/-- AccessChecks: the ends of the local-store areas. -/
theorem witness_localAreas :
    let s := one th0
    (0xB7FF < 0xB800 - spillBytes (s.core 0)) ∧ checkAccess s 0 7 .u 1 .read (2 ^ 64 - 65536 + 0xB7FF) = .ok (.own 0xB7FF) ∧
    checkAccess s 0 0 .u 2 .read (2 ^ 64 - 65536) = .denied ∧ checkAccess s 0 0 .u 1 .write (2 ^ 64 - 65536 + 0xB800) = .denied ∧
    checkAccess s 0 0 .s 1 .write (2 ^ 64 - 65536 + 0xBFFF) = .ok (.own 0xBFFF) := by
  refine ⟨?_, ?_, ?_, ?_, ?_⟩ <;> decide +kernel

/-- A thread with die memory from block 1, its line at g1 written before; local store holds a line of 0x40000000 (2.0). -/
def sDie : State :=
  let s := { one (regs [BitVec.ofNat 64 (dieAddr 0 16384), own 0, 0x10]) with
    ctxs := [(1, { ctx1 with dies := [(0, { DieCtx.zero with dmBase := 1, dmSize := 1 })] })]
    dies := [(0, { Die.reset with undos := [{ ctx := 1, line := dieAddr 0 16384, data := 0 }] })] }
  (holding s 0 ((List.replicate 16 [0, 0, 0, 0x40]).flatten)).writeN (dieAddr 0 16384) ((List.replicate 16 [0, 0, 0x80, 0x3F]).flatten)

theorem sDie_at : AtomicAt sDie (BitVec.ofNat 64 (dieAddr 0 16384)) (dieAddr 0 16384) := by
  refine ⟨?_, ?_⟩ <;> decide +kernel

/-- AtomicResultsAndCarry: every function on 0x3F800000_3F800000 and 16, AMOCAS that writes and that does not, and a carry. -/
theorem witness_atomics :
    let c := sDie.modThread 0 (fun th => th.wg 4 0x3F8000003F800000)
    let w := { sDie.modThread 0 (fun th => (th.wg 5 ones64).wg 6 ones64) with mem := (sDie.writeN (dieAddr 0 16384) [0x01]).mem }
    Drained sDie ∧ Undisturbed sDie ∧ (sDie.th.rg 1).toNat % 16 = 0 ∧ AtomicAt sDie (sDie.th.rg 1) (dieAddr 0 16384) ∧
    FullAll sDie [4, 1, 3] ∧
    (∀ p ∈ atomicForms 4 1 3, nextIs (exec p.1 sDie) (fun t => decide (t.th.rg 4 = 0x3F8000003F800000) &&
      decide (t.readWord (dieAddr 0 16384) = p.2 0x3F8000003F800000 0x10)) = true) ∧
    c.readWord (dieAddr 0 16384) = c.th.rg 4 ∧ sDie.readWord (dieAddr 0 16384) ≠ sDie.th.rg 4 ∧
    nextIs (exec (.amocas 4 1 3) c) (fun t => decide (t.readWord (dieAddr 0 16384) = 0x10)) = true ∧
    nextIs (exec (.amocas 4 1 3) sDie) (fun t => decide (t.mem = sDie.mem) && decide (t.th.rg 4 = 0x3F8000003F800000)) = true ∧
    FullAll w [1, 5, 6] ∧
    nextIs (exec (.baddW128 4 1 5) w) (fun t => decide (t.th.rg 4 = 1) && decide (t.readN (dieAddr 0 16384) 4 = [0, 0, 0x80, 0x3F])) = true := by
  refine ⟨by unfold Drained; decide +kernel, by unfold Undisturbed; decide +kernel, ?_, sDie_at, by unfold FullAll; decide +kernel,
    ?_, ?_, ?_, ?_, ?_, by unfold FullAll; decide +kernel, ?_⟩ <;> decide +kernel

/-- A sequencer entry of v4 from v1 and v2 under m0. -/
def ventry (op : VOp) (t : BitVec 4) : VEntry :=
  { op := op, t := t, m := 0, d := 4, a := 1, b := 2, ca := .none, cb := .none, rm := 0, pc := 0x10000, popped := none }

/-- BankResultsAndFences: whole lines of sixteen words, a fence with nothing queued, and one behind a vector load. -/
theorem witness_bank :
    let v := one { th0 with seq := { Seq.empty with items := [.entry (ventry (.load .unit) 0)] } }
    Drained sDie ∧ Undisturbed sDie ∧ FullAll sDie [1, 2] ∧ oneLine (sDie.th.rg 1) 64 = true ∧ oneLine (sDie.th.rg 2) 64 = true ∧
    ownForm sDie (sDie.th.rg 2) = true ∧ checkAccess sDie 0 0 .u 1 .read (sDie.th.rg 2).toNat = .ok (.own 0) ∧
    Unleased sDie 0 0 ∧ AtomicAt sDie (sDie.th.rg 1) (dieAddr 0 16384) ∧
    (∀ x ∈ ([(.bvaddF 16 1 2, 0x4040000040400000), (.bvmaxF 16 1 2, 0x4000000040000000), (.bvaddBh 16 1 2, 0x4040000040400000),
      (.bvmaxBh 16 1 2, 0x4000000040000000), (.bredF 16 1 2, 0x3F80000042040000), (.bredBh 16 1 2, 0x3F80000042040000)] : List (Instr × Word)),
      nextIs (exec x.1 sDie) (fun t => decide (t.readWord (dieAddr 0 16384) = x.2) && decide (t.th.pc = 0x10004)) = true) ∧
    (∀ i ∈ [Instr.fenceSc 2, .iflush], nextIs (exec i sDie) (fun t => decide (t.th.pc = 0x10004)) = true) ∧
    v.th.vectorMem = true ∧ (∀ i ∈ [Instr.fenceSc 2, .iflush], nextIs (exec i v) (fun t => decide (t = v)) = true) := by
  refine ⟨by unfold Drained; decide +kernel, by unfold Undisturbed; decide +kernel, by unfold FullAll; decide +kernel,
    ?_, ?_, ?_, ?_, by unfold Unleased; decide +kernel, sDie_at, ?_, ?_, ?_, ?_⟩ <;> decide +kernel

/-! ## Remote operations -/

/-- g1 is in die memory, g2 the remote word of this module, g3 local store, g4 and g5 block words of 8 and 32,768 bytes. -/
def sRem : State :=
  sDie.modThread 0 (fun th => (((((th.wg 2 0xFFF).wg 3 (own 0)).wg 4 (word (8 * 2 ^ 48 + 0xFFF))).wg 5 (word (32768 * 2 ^ 48 + 5))).wg 6 9).wg 7 8)

/-- RemoteOperationsIssue: words and blocks at both ends of the lengths, targets here and on module 5. -/
theorem witness_remote :
    Drained sRem ∧ FullAll sRem [1, 2, 3, 4, 5, 6, 7] ∧ RemoteOk sRem (sRem.th.rg 1) (sRem.th.rg 2) 8 false .read ∧
    RemoteOk sRem (sRem.th.rg 1) (sRem.th.rg 2) 8 false .write ∧ RemoteOk sRem (sRem.th.rg 1) (sRem.th.rg 4) 8 true .write ∧
    RemoteOk sRem (sRem.th.rg 1) (sRem.th.rg 5) 32768 true .read ∧ (ownPlaces sRem .write (own 0) 32768).isSome = true ∧
    ownRange sRem .read (own 0) 8 = true ∧ ownBytes sRem (own 0).toNat 8 = .bytes sRem [0, 0, 0, 0x40, 0, 0, 0, 0x40] ∧
    stageRoom sRem 0 8 = some sRem ∧ localForm sRem (sRem.th.rg 1) = false := by
  refine ⟨by unfold Drained; decide +kernel, by unfold FullAll; decide +kernel, ?_, ?_, ?_, ?_, by decide +kernel, by decide +kernel,
    bytes_of (by decide +kernel), by decide +kernel, by decide +kernel⟩
  · exact ⟨by decide +kernel, by decide +kernel, fun _ p hp => ⟨.die (dieAddr 0 16384), by
      rw [show partsOf (sRem.th.rg 1).toNat 8 = [(dieAddr 0 16384, 8)] from by decide +kernel] at hp
      simp only [List.mem_singleton] at hp; subst hp; decide +kernel⟩⟩
  · exact ⟨by decide +kernel, by decide +kernel, fun _ p hp => ⟨.die (dieAddr 0 16384), by
      rw [show partsOf (sRem.th.rg 1).toNat 8 = [(dieAddr 0 16384, 8)] from by decide +kernel] at hp
      simp only [List.mem_singleton] at hp; subst hp; decide +kernel⟩⟩
  · exact ⟨by decide +kernel, by decide +kernel, fun _ p hp => ⟨.die (dieAddr 0 16384), by
      rw [show partsOf (sRem.th.rg 1).toNat 8 = [(dieAddr 0 16384, 8)] from by decide +kernel] at hp
      simp only [List.mem_singleton] at hp; subst hp; decide +kernel⟩⟩
  · exact ⟨by decide +kernel, by decide +kernel, fun h => absurd h (by decide +kernel)⟩

/-- What the remote operations record: a GET empties its register, a PUT stages its bytes, a RAMO its function and operand. -/
theorem test_remote :
    nextIs (exec (.get 6 1 2) sRem) (fun t => decide (t.gets.map (fun g => (g.d, g.tmod, g.len)) = [(6, 0xFFF, 8)]) && !t.th.fullG 6) = true ∧
    nextIs (exec (.getB 3 1 5) sRem) (fun t => decide (t.gets.map (fun g => (g.d, g.tmod, g.len)) = [(3, 5, 32768)]) &&
      decide (t.owned.length = 512)) = true ∧
    nextIs (exec (.put 6 1 2) sRem) (fun t => decide (t.staged.map (·.act) = [.write [9, 0, 0, 0, 0, 0, 0, 0]]) && decide (t.mem = sRem.mem)) = true ∧
    nextIs (exec (.putB 3 1 4) sRem) (fun t => decide (t.staged.map (·.act) = [.write [0, 0, 0, 0x40, 0, 0, 0, 0x40]])) = true ∧
    (∀ p ∈ ([(.ramoAdd 6 1 2, 0), (.ramoAnd 6 1 2, 1), (.ramoOr 6 1 2, 2), (.ramoXor 6 1 2, 3), (.ramoMin 6 1 2, 4), (.ramoMax 6 1 2, 5),
      (.ramoMinu 6 1 2, 6), (.ramoMaxu 6 1 2, 7), (.ramoSwap 6 1 2, 8)] : List (Instr × Nat)),
      nextIs (exec p.1 sRem) (fun t => decide (t.staged.map (·.act) = [.ramo p.2 9 9 0 0 6]) && t.th.ramo.getLsbD 6) = true) ∧
    nextIs (exec (.ramoCas 6 1 2) sRem) (fun t => decide (t.staged.map (·.act) = [.ramo 9 8 9 0 0 6])) = true := by
  refine ⟨?_, ?_, ?_, ?_, ?_, ?_⟩ <;> decide +kernel

/-! ## Threads -/

/-- g1 places on core 0 (scope 0), g2 an even entry, g3 on core 256 of the next die, g4 an odd entry, g5 a core that no launch of
the context holds. -/
def thSpawn : Thread := regs [0, 0x30000, 256, 0x30001, 1]

/-- Slot 1 of core 0 and slot 0 of core 256 are Idle slots of the context; class 0 is a routine of two registers. -/
def sSpawn : State :=
  { one thSpawn with
    threads := [(0, thSpawn), (1, { Thread.reset with st := .idle, ctx := 1 }), (tid 256 0, { Thread.reset with st := .idle, ctx := 1 })]
    ctxs := [(1, { ctx1 with classes := [(0x40000, 2)] })] }

/-- SpawnsAndSends: a slot open and none, registers up to g31, no payload and eight words, both dies, and the failing words. -/
theorem witness_spawns :
    let n := { sSpawn with threads := [(0, thSpawn)] }
    Drained sSpawn ∧ Drained n ∧ FullAll sSpawn ([1, 2] ++ regRange 31 1) ∧ FullAll sSpawn (3 :: regRange 24 8) ∧
    badPlacement sSpawn 0 true = false ∧ (sSpawn.th.rg 2).getLsbD 0 = false ∧ findSlot sSpawn 1 0 = some (0, 1) ∧
    findSlot n 1 0 = none ∧ (taskQueue n 1 0).isNone = true ∧ badPlacement sSpawn 256 false = false ∧ stageRoom sSpawn 0 64 = some sSpawn ∧
    dieOf (wfld 0 0 13) = sSpawn.curDie ∧ dieOf (wfld 256 0 13) ≠ sSpawn.curDie ∧
    nextIs (exec (.spawn 31 1 2 1) sSpawn) (fun t => decide (t.starts.map (fun o => (o.slot, o.pc, o.d, o.image)) = [(1, 0x30000, 31, [0])]) &&
      decide (t.th.rg 31 = (identity sSpawn 0 1).setWidth 64)) = true ∧
    nextIs (exec (.spawn 31 1 2 1) n) (fun t => decide (t.th.rg 31 = 0x80000000) && decide (t.starts = [])) = true ∧
    nextIs (exec (.send 1 2 0 0) sSpawn) (fun t => decide (t.sends.map (·.msg.payload) = [[]])) = true ∧
    nextIs (exec (.cSend 1 0) sSpawn) (fun t => decide (t.sends.map (·.msg.payload) = [[]])) = true ∧
    nextIs (exec (.send 3 24 8 0) sSpawn) (fun t => decide (t.staged.length = 1) && decide (t.sends = [])) = true ∧
    TakesS sSpawn ∧ sSpawn.th.vectorMem = false ∧ badPlacement sSpawn 1 true = true ∧ badPlacement sSpawn 1 false = true ∧
    takes sSpawn (.spawn 31 5 2 1) 4 1 = true ∧ takes sSpawn (.spawn 31 1 4 1) 3 0x30001 = true ∧ takes sSpawn (.send 5 1 0 0) 4 1 = true := by
  refine ⟨by unfold Drained; decide +kernel, by unfold Drained; decide +kernel, by unfold FullAll; decide +kernel,
    by unfold FullAll; decide +kernel, ?_, ?_, ?_, ?_, ?_, ?_, ?_, ?_, ?_, ?_, ?_, ?_, ?_, ?_, by unfold TakesS; decide +kernel,
    ?_, ?_, ?_, ?_, ?_, ?_⟩ <;> decide +kernel

/-- A spawn task of one register g31 and a task queue of capacity 1 in die memory from block 1, for cluster `c`. -/
def queued (c : Nat) : State :=
  let s := { sSpawn with ctxs := [(1, { ctx1 with classes := [(0x40000, 2)]
                                                  dies := [(0, { DieCtx.zero with dmBase := 1, dmSize := 1, tqbase := word (dieAddr 0 16384) })] })] }
  let s := s.writeN (dieAddr 0 16384 + 16 * c) (bytesOf 8 (dieAddr 0 16896) ++ bytesOf 8 (1 + 2 ^ 32))
  s.writeN (dieAddr 0 16896) ((spawnTask s 0x2000 0x30000 31 1 [7] 0).flatMap (bytesOf 8))

/-- Cluster 0 has a task queue of capacity 1 that holds `n` entries, and no slot is open. -/
def fullSlots (n : Nat) : State :=
  let s := { sSpawn with threads := [(0, thSpawn)]
                         ctxs := [(1, { ctx1 with classes := [(0x40000, 2)]
                                                  dies := [(0, { DieCtx.zero with dmBase := 1, dmSize := 1, tqbase := word (dieAddr 0 16384) })] })] }
  s.writeN (dieAddr 0 16384) (bytesOf 8 (dieAddr 0 16896) ++ bytesOf 8 (1 + n * 2 ^ 32))

/-- SpawnsAndSends: a SPAWN with no open slot, its cluster's queue with room and full. -/
theorem witness_spawnQueued :
    let s := fullSlots 0
    let f := fullSlots 1
    let ws := spawnTask s 0 0x30000 31 1 [0] (identity s 0 0).toNat
    Drained s ∧ FullAll s ([1, 2] ++ regRange 31 1) ∧ badPlacement s 0 true = false ∧ findSlot s 1 0 = none ∧ QueueFree s 1 0 ∧
    (match taskQueue s 1 0, enqueue s 1 0 ws with
      | some q, .queued u => decide (q.cap = 1 ∧ q.count = 0 ∧ q.at_ = dieAddr 0 16384 ∧ q.slot q.count = dieAddr 0 16896) &&
          (List.range 40).all (fun i => decide (u.readWord (q.slot q.count + 8 * i) = word (ws.getD i 0)))
      | _, _ => false) = true ∧
    nextIs (exec (.spawn 31 1 2 1) s) (fun t => decide (t.th.rg 31 = 0x40000000) && decide (t.th.pc = 0x10004) &&
      decide (t.readWord (dieAddr 0 16384 + 8) = 1 + 2 ^ 32)) = true ∧
    QueueFree f 1 0 ∧ (taskQueue f 1 0).any (fun q => decide (q.cap ≤ q.count)) = true ∧ findSlot f 1 0 = none ∧
    nextIs (exec (.spawn 31 1 2 1) f) (fun t => decide (t.th.rg 31 = 0x80000000) && decide (t.mem = f.mem)) = true := by
  refine ⟨by unfold Drained; decide +kernel, by unfold FullAll; decide +kernel, ?_, ?_, by unfold QueueFree; decide +kernel, ?_, ?_,
    by unfold QueueFree; decide +kernel, ?_, ?_, ?_⟩ <;> decide +kernel

/-- ThreadsStartAndSteal: a message that finds no slot, enqueued, held for want of room, and held behind another of its context. -/
theorem witness_messagesWait :
    let o : SendOp := { id := 1, msg := { ctx := 1, place := 0, cls := 0, payload := [5, 6], sender := 9, fresh := true }, byCore := 0, bySlot := 0 }
    let s (n : Nat) (held : List Message) : State := { fullSlots n with sends := [o], clusters := [(0, { Cluster.reset with held := held })] }
    badClass (classEntry (s 0 []) 1 0) = false ∧ findSlot (s 0 []) 1 0 = none ∧ QueueFree (s 0 []) 1 0 ∧ QueueFree (s 1 []) 1 0 ∧
    (match enqueue { s 0 [] with sends := [] } 1 0 (messageTask { s 0 [] with sends := [] } o.msg) with | .queued _ => true | _ => false) = true ∧
    nextIs (exec (.deliver 1) (s 0 [])) (fun t => decide (t.sends = []) && decide ((t.cluster 0).held = []) &&
      decide (t.readWord (dieAddr 0 16384 + 8) = 1 + 2 ^ 32)) = true ∧
    (taskQueue (s 1 []) 1 0).any (fun q => decide (q.cap ≤ q.count)) = true ∧
    nextIs (exec (.deliver 1) (s 1 [])) (fun t => decide ((t.cluster 0).held = [o.msg])) = true ∧
    nextIs (exec (.deliver 1) (s 0 [{ o.msg with cls := 1 }])) (fun t => decide ((t.cluster 0).held = [{ o.msg with cls := 1 }, o.msg])) = true := by
  refine ⟨?_, ?_, by unfold QueueFree; decide +kernel, by unfold QueueFree; decide +kernel, ?_, ?_, ?_, ?_, ?_⟩ <;> decide +kernel

/-- ThreadsStartAndSteal: an Idle slot takes a queued message task, and a held message where no task admits it. -/
theorem witness_messageTasks :
    let m : Message := { ctx := 1, place := 0, cls := 0, payload := [5, 6], sender := 9, fresh := true }
    let s := (queued 0).writeN (dieAddr 0 16896) ((messageTask (queued 0) m).flatMap (bytesOf 8))
    let h := { sSpawn with clusters := [(0, { Cluster.reset with held := [m] })] }
    QueueFree s 1 0 ∧
    (match taskQueue s 1 0 with
      | some q => (match findTask s q (fun t => admits t.place 0) with
        | some (i, tk) => !tk.spawn && decide (tk.cls = 0) && (removeTask s 0 q i).any (fun u => (u.cluster 0).held.isEmpty)
        | none => false)
      | none => false) = true ∧
    nextIs (exec (.taskDequeue 0 1) s) (fun t => decide ((t.thread 1).pc = 0x40000) && decide ((t.thread 1).rg 2 = 6) &&
      decide ((t.thread 1).rg 31 = 9)) = true ∧
    mayStart h 1 = true ∧ slotOpen h 1 0 1 = true ∧ 1 ∈ slotsFor h 1 ∧ QueueFree h 1 0 ∧ (taskQueue h 1 0).isNone = true ∧
    (h.cluster 0).held.find? (fun x => decide (x.ctx = 1) && admits x.place.toNat 0) = some m ∧
    nextIs (exec (.taskDequeue 0 1) h) (fun t => decide ((t.thread 1).pc = 0x40000) && decide ((t.thread 1).rg 1 = 5) &&
      decide ((t.cluster 0).held = [])) = true := by
  refine ⟨by unfold QueueFree; decide +kernel, ?_, ?_, ?_, ?_, ?_, by unfold QueueFree; decide +kernel, ?_, ?_, ?_⟩ <;> decide +kernel

/-- ThreadsStartAndSteal: a child with g31, a message of two words and of an absent class, a queued task, and both turns of a
steal round of cluster 0 from cluster 1. -/
theorem witness_threadsStart :
    let o : SpawnOp := { id := 1, ctx := 1, core := 0, slot := 1, pc := 0x30000, d := 31, image := [7], byCore := 0, bySlot := 0 }
    let m (c : Nat) : SendOp := { id := 1, msg := { ctx := 1, place := 0, cls := c, payload := [5, 6], sender := 9, fresh := true }, byCore := 0, bySlot := 0 }
    let a := { sSpawn with starts := [o] }
    let b := { sSpawn with sends := [m 0] }
    let c := { sSpawn with sends := [m 63] }
    a.starts.find? (fun x => x.id = 1) = some o ∧ o.d + o.image.length ≤ 32 ∧
    nextIs (exec (.spawnStart 1) a) (fun t => decide ((t.thread 1).st = .ready) && decide ((t.thread 1).rg 31 = 7) &&
      decide ((t.thread 1).pc = 0x30000) && decide (t.starts = [])) = true ∧
    b.sends.find? (fun x => x.id = 1) = some (m 0) ∧ badClass (classEntry b 1 0) = false ∧ (classEntry b 1 0).2 ≤ 8 ∧
    findSlot { b with sends := b.sends.filter (fun x => x.id ≠ 1) } 1 0 = some (0, 1) ∧
    nextIs (exec (.deliver 1) b) (fun t => decide ((t.thread 1).pc = 0x40000) && decide ((t.thread 1).rg 2 = 6) &&
      decide ((t.thread 1).rg 31 = 9) && decide ((t.thread 1).rg 3 = 0)) = true ∧
    badClass (classEntry c 1 63) = true ∧
    nextIs (exec (.deliver 1) c) (fun t => decide (t.threads = c.threads) && decide (Table.get 0 (t.ctx 1).run 42 = 1)) = true ∧
    mayStart (queued 0) 1 = true ∧ slotOpen (queued 0) 1 0 1 = true ∧ 1 ∈ slotsFor (queued 0) 1 ∧ QueueFree (queued 0) 1 0 ∧
    (match taskQueue (queued 0) 1 0 with
      | some q => (match findTask (queued 0) q (fun t => admits t.place 0) with
        | some (i, tk) => tk.spawn && decide (tk.d + tk.n ≤ 32) && (removeTask (queued 0) 0 q i).any (fun u => (u.cluster 0).held.isEmpty)
        | none => false)
      | none => false) = true ∧
    nextIs (exec (.taskDequeue 0 1) (queued 0)) (fun t => decide ((t.thread 1).st = .ready) && decide ((t.thread 1).rg 31 = 7)) = true := by
  refine ⟨?_, ?_, ?_, ?_, ?_, ?_, ?_, ?_, ?_, ?_, ?_, ?_, ?_, by unfold QueueFree; decide +kernel, ?_, ?_⟩ <;> decide +kernel

/-- The one context that a cluster's slots look for (STEAL_ROUND). -/
theorem onlyOne {s : State} {cluster ctx : Nat} (held : ∀ x ∈ (s.cluster cluster).stealing.map (·.1), x = ctx)
    (slots : ∀ i < 8, ∀ k < slotsPerCore, (s.thread (tid (gcoreAt cluster i) k)).st = .idle → (s.thread (tid (gcoreAt cluster i) k)).ctx = ctx)
    (one : ∃ i < 8, ∃ k < slotsPerCore, (s.thread (tid (gcoreAt cluster i) k)).st = .idle) :
    ∀ x, ctx = x ↔ (x ∈ (s.cluster cluster).stealing.map (·.1) ∨ ∃ i < 8, ∃ k < slotsPerCore,
      (s.thread (tid (gcoreAt cluster i) k)).st = .idle ∧ (s.thread (tid (gcoreAt cluster i) k)).ctx = x) := by
  intro x
  constructor
  · rintro rfl
    obtain ⟨i, hi, k, hk, h⟩ := one
    exact .inr ⟨i, hi, k, hk, h, slots i hi k hk h⟩
  · rintro (h | ⟨i, hi, k, hk, h, rfl⟩)
    · exact (held x h).symm
    · exact (slots i hi k hk h).symm

theorem witness_stealers :
    let u := { queued 1 with clusters := [(0, { Cluster.reset with stealing := [(1, 0)] })] }
    (∀ s ∈ [queued 1, u], ∀ x, 1 = x ↔ (x ∈ (s.cluster 0).stealing.map (·.1) ∨ ∃ i < 8, ∃ k < slotsPerCore,
      (s.thread (tid (gcoreAt 0 i) k)).st = .idle ∧ (s.thread (tid (gcoreAt 0 i) k)).ctx = x)) ∧ mayStart u 1 = true := by
  refine ⟨?_, by decide +kernel⟩
  intro s hs
  simp only [List.mem_cons, List.not_mem_nil, or_false] at hs
  rcases hs with rfl | rfl <;> exact onlyOne (by decide +kernel) (by decide +kernel) ⟨0, by decide, 1, by decide, by decide +kernel⟩

theorem witness_steal :
    let s := queued 1
    let u := { s with clusters := [(0, { Cluster.reset with stealing := [(1, 0)] })] }
    (∀ c ∈ 0 :: neighbours 0, QueueFree s 1 c ∧ QueueFree u 1 c) ∧
    (s.cluster 0).stealing.find? (fun e => e.1 = 1) = none ∧ mayStealAt s 1 0 = true ∧
    (s.thread (tid (gcoreAt 0 0) 1)).st = .idle ∧ (s.thread (tid (gcoreAt 0 0) 1)).ctx = 1 ∧
    nextIs (exec (.stealRound 0) s) (fun t => decide ((t.cluster 0).stealing = [(1, 0)])) = true ∧
    (u.cluster 0).stealing.find? (fun e => e.1 = 1) = some (1, 0) ∧ (neighbours 0).head? = some 1 ∧ thief u 1 0 = some (0, 1) ∧
    (match stealable u 1 1 with
      | some (q, i, tk) => tk.spawn && decide (tk.d + tk.n ≤ 32) && (removeTask u 1 q i).any (fun v => (v.cluster 1).held.isEmpty)
      | none => false) = true ∧
    nextIs (exec (.stealRound 0) u) (fun t => decide ((t.thread 1).pc = 0x30000) && decide ((t.thread 1).rg 31 = 7)) = true := by
  refine ⟨by unfold QueueFree; decide +kernel, ?_, ?_, ?_, ?_, ?_, ?_, ?_, ?_, ?_, ?_⟩ <;> decide +kernel

/-- ThreadsLeaveAndClear: SLEEP of 0 and of more than 32 bits, its end, and the clearing of a slot. -/
theorem witness_leaving :
    let s := one (regs [0, ones64])
    let p := one { th0 with st := .parked, wait := .sleep, parkNpc := 0x10004, sleepEnd := 0 }
    let x := one { th0 with st := .parked, wait := .exitDrain }
    let z := one { th0 with st := .zeroing, g := Vector.replicate 32 5 }
    let f := { z with cores := [(0, { core0 with spill := 64, pool := (List.range 256).map (fun n => ({ line := 64 * n, writer := 0, data := 0 } : PoolEntry)) })] }
    FullAll s [1, 2] ∧ (∀ i ∈ [Instr.exit, .cExit], nextIs (exec i s) (fun t => decide (t.th.wait = .exitDrain) && decide (t.th.pc = 0x10000)) = true) ∧
    nextIs (exec .yield s) (fun t => decide ((t.core 0).sOrder = [1, 2, 3, 4, 5, 6, 7, 8, 9, 0]) && decide (t.th.pc = 0x10004)) = true ∧
    nextIs (exec (.sleep 1) s) (fun t => decide (t.th.st = .ready) && decide (t.th.pc = 0x10004)) = true ∧
    nextIs (exec (.sleep 2) s) (fun t => decide (t.th.wait = .sleep) && decide (t.th.sleepEnd = 2 ^ 32 - 1)) = true ∧
    (p.thread 0).st = .parked ∧ (p.thread 0).wait = .sleep ∧ (p.thread 0).sleepEnd ≤ p.cy ∧
    nextIs (exec (.sleepExpiry 0 0) p) (fun t => decide ((t.thread 0).pc = 0x10004) && decide ((t.thread 0).st = .ready)) = true ∧
    (x.thread 0).wait = .exitDrain ∧ seqDone (x.thread 0) = true ∧ namesRegister x 0 0 = false ∧
    (match writeRecord x 0 0 8 (bytesOf 8 0) with | .taken _ => true | _ => false) = true ∧
    nextIs (exec (.zeroing 0 0) x) (fun t => decide ((t.thread 0).st = .zeroing)) = true ∧
    (x.thread 0).sb = [] ∧ (x.thread 0).heldRec = false ∧ x.ecc = [] ∧ 2 ^ 48 ≤ recordLoc x 0 0 ∧ carveSize x 0 0 = 0 ∧ carveSize f 0 0 = 64 ∧
    (clearCarve f 0 0).2 = false ∧ nextIs (exec (.zeroingDone 0 0) f) (fun t => decide ((t.thread 0).st = .zeroing)) = true ∧
    nextIs (exec (.sleepExpiry 0 0) { p with threads := [(0, { th0 with st := .parked, wait := .sleep, sleepEnd := 1 })] }) (fun t =>
      decide ((t.thread 0).st = .parked)) = true ∧
    (clearCarve z 0 0).2 = true ∧
    nextIs (exec (.zeroingDone 0 0) z) (fun t => decide ((t.thread 0).st = .idle) && decide ((t.thread 0).rg 31 = 0)) = true := by
  refine ⟨by unfold FullAll; decide +kernel, ?_, ?_, ?_, ?_, ?_, ?_, ?_, ?_, ?_, ?_, ?_, ?_, ?_, ?_, ?_, ?_, ?_, ?_, ?_, ?_, ?_, ?_, ?_, ?_⟩ <;> decide +kernel

/-! ## Supersteps -/

/-- SyncsAndArrivals: votes at and beyond the ends of Table 11.2, keep masks of 30 and 31 registers. -/
theorem witness_sync :
    let s := one (regs [0x7FFFFFFE, 0xFFFFFFFE, 7 * 2 ^ 32, 8 * 2 ^ 32, 0x80000000])
    TakesS s ∧ FullAll s [1, 2, 3, 4, 5] ∧ badVote (s.th.rg 3) = false ∧ badVote (s.th.rg 4) = true ∧ s.th.heldRec = false ∧
    (s.th.rg 3).getLsbD 44 = false ∧ popcount 32 0x7FFFFFFE = 30 ∧ popcount 32 0xFFFFFFFE = 31 ∧
    (∀ i ∈ [Instr.sync 0 1 3, .syncQ 0 1 3], nextIs (exec i s) (fun t => decide (t.th.wait = .arrivalDrain) &&
      decide ((t.th.arr.map (·.keep)) = some 0x7FFFFFFE) && decide ((t.th.arr.map (·.vote)) = some (7 * 2 ^ 32))) = true) ∧
    takes s (.sync 0 1 4) 4 (8 * 2 ^ 32) = true ∧ takes s (.syncQ 0 2 3) 4 0xFFFFFFFE = true ∧
    nextIs (exec (.cSync 5) s) (fun t => decide ((t.th.arr.map (·.keep)) = some 0x80000000)) = true ∧
    s.job s.curCtx = some job1 ∧ gives s (.ssno 3, 0) = true := by
  refine ⟨by unfold TakesS; decide +kernel, by unfold FullAll; decide +kernel, ?_, ?_, ?_, ?_, ?_, ?_, ?_, ?_, ?_, ?_, ?_, ?_⟩ <;> decide +kernel

/-- SyncsAndArrivals: a plain arrival and one of SYNC.Q. -/
theorem witness_arrive :
    let r : Arrival := { d := 0, keep := 2, vote := 5, quiet := false, pc := 0x10000, npc := 0x10004 }
    ∀ q ∈ [true, false],
      let s := one { regs [7] with st := .parked, wait := .arrivalDrain, arr := some { r with quiet := q } }
      (s.thread 0).arr = some { r with quiet := q } ∧ mayArrive s 0 0 = true ∧ (s.thread 0).regEcc = [] ∧
      (match writeRecord s 0 0 0 (recordBytes (s.thread 0) { r with quiet := q }) with
        | .taken u => decide (u.job 1 = some job1) && decide (u.thread 0 = s.thread 0) && decide ((u.dctx 0 1).trEn = 0)
        | _ => false) = true ∧
      nextIs (exec (.arrive 0 0) s) (fun t => decide ((t.thread 0).st = if q then .zeroing else .arrived) &&
        decide ((t.job 1).map (·.votes) = some [5]) && decide (t.readWord (localAddr 0 0xB810) = 7)) = true := by decide +kernel

/-! ## The vector stream -/

/-- VectorEntriesQueue: every form with fifteen entries held, with sixteen, and with a g operand that waits for a RAMO result. -/
theorem witness_vectorQueue :
    let full (n : Nat) : Seq := { Seq.empty with items := List.replicate n (.entry (ventry (.int .add) 0)) }
    let s := one { regs [5, 6] with seq := full 15 }
    let f := one { regs [5, 6] with seq := full 16 }
    let r := one { (regs [5, 6]).emptyG 1 with ramo := 2 }
    TakesS r ∧ ∀ x ∈ vectorForms 0 0 4 1 2 0 0,
      s.th.fullG x.2.2.2.2.1 = true ∧ s.th.fullG x.2.2.2.2.2.1 = true ∧ entryCount s.th.seq.items < 16 ∧
      nextIs (exec x.1 s) (fun t => decide (entryCount t.th.seq.items = 16) && decide (t.th.pc = 0x10004) &&
        decide (t.th.seq.items.getLast? = some (.entry { ventry x.2.1 x.2.2.1 with
          m := x.2.2.2.1, a := x.2.2.2.2.1, b := x.2.2.2.2.2.1
          ca := if x.2.2.2.2.2.2.1 then .val 5 else .none
          cb := if x.2.2.2.2.2.2.2 then .val 6 else .none }))) = true ∧
      16 ≤ entryCount f.th.seq.items ∧ nextIs (exec x.1 f) (fun t => decide (t = f)) = true ∧
      (x.2.2.2.2.2.2.1 = true → r.th.fullG x.2.2.2.2.1 = false ∧ takes r x.1 8 1 = true) := by
  refine ⟨by unfold TakesS; decide +kernel, ?_⟩; decide +kernel

/-- VectorEntriesQueue: a second g operand that waits for a RAMO result. -/
theorem witness_vectorQueue_second :
    let r := one { (regs [5, 6]).emptyG 2 with ramo := 4 }
    r.th.fullG 1 = true ∧ r.th.fullG 2 = false ∧ r.th.ramo.getLsbD 2 = true ∧
    takes r (.vslide 0 0 4 1 2) 8 2 = true ∧ takes r (.vlds 0 0 4 1 2) 8 2 = true := by
  refine ⟨?_, ?_, ?_, ?_, ?_⟩ <;> decide +kernel

/-- An entry of v4 from v1 and v2 under m1, with 5 and 1 captured. -/
def laneEntry (op : VOp) (t : BitVec 4) : VEntry := { ventry op t with m := 1, ca := .val 5, cb := .val 1 }

/-- A thread whose one entry is `op` of type `t`, every other byte active, with v1, v2 and v4 full. -/
def lanes (op : VOp) (t : BitVec 4) : State :=
  one { th0 with
    v := ((Vector.replicate 32 (0 : VWord)).set 1 (BitVec.ofNat 512 (0x0123456789ABCDEFFEDCBA9876543210 * 2 ^ 256 + 2 ^ 512 / 255))).set 2
      (BitVec.ofNat 512 (2 ^ 512 / 7 + 0x3C007BFF4000BC00 * 2 ^ 128))
    m := (Vector.replicate 8 0x5555555555555555).set 2 0x00FF00FF00FF00FF
    seq := { items := [.entry (laneEntry op t)], pos := 0, frames := [] } }

/-- VectorLanes: the head entry runs, one operation of every kind on the narrowest and the widest type of its table. -/
theorem witness_vectorLanes : ∀ x ∈ ([(.int .add, 0), (.int .subs, 7), (.fp .fma, 8), (.fp .rsqrts, 11), (.spec .rcp, 9), (.spec .neg, 3),
    (.perm, 0), (.slide, 13), (.bcast, 7), (.merge, 3), (.cmp .eq, 0), (.cmp .le, 11), (.cvt 9 true, 8), (.cvt 0 false, 11),
    (.red .sum, 11), (.red .xor, 3), (.mand, 0), (.mor, 0), (.mxor, 0), (.mnot, 0)] : List (VOp × BitVec 4)),
    HeadRuns (lanes x.1 x.2) 0 0 0 (laneEntry x.1 x.2) 5 1 ∧ ((vectorTurn 0 0 0 (lanes x.1 x.2)).thread 0).seq = Seq.empty := by
  unfold HeadRuns; decide +kernel

/-- VectorLanes: every integer operation on bytes, on unsigned and on signed words of 64 bits. -/
theorem test_vectorInts :
    ∀ t ∈ ([0, 3, 7] : List (BitVec 4)), ∀ x ∈ laneForms (8 * elemBytes t) (decide (t.toNat ≤ 3)),
      let s := lanes (.int x.1) t
      let u := (vectorTurn 0 0 0 s).thread 0
      ∀ i < 64 / elemBytes t, elem (u.rv 4) (elemBytes t) i =
        if ((s.thread 0).rm_ 1).getLsbD (i * elemBytes t) then x.2 (elem ((s.thread 0).rv 1) (elemBytes t) i) (elem ((s.thread 0).rv 2) (elemBytes t) i)
        else 0 := by decide +kernel

/-- Lanes of the other kinds on FP32, v1 all 1.5, v2 all 2.0, by hand: VFADD 3.5, VCLT true on the active bytes, VREDSUM 24.0, a
conversion to FP16, VMERGE, VSLIDE by 1 and VBCAST. -/
theorem test_vectorLanes :
    let v (x : Nat) : VWord := BitVec.ofNat 512 ((List.range 16).foldl (fun n i => n + x * 2 ^ (32 * i)) 0)
    let s (op : VOp) : State := { lanes op 10 with threads := [(0, { (lanes op 10).thread 0 with
      v := ((Vector.replicate 32 (0 : VWord)).set 1 (v 0x3FC00000)).set 2 (v 0x40000000), m := Vector.replicate 8 (BitVec.allOnes 64) })] }
    let r (op : VOp) : VWord := ((vectorTurn 0 0 0 (s op)).thread 0).rv 4
    r (.fp .add) = v 0x40600000 ∧ r (.fp .mul) = v 0x40400000 ∧ r (.fp .fma) = v 0x40400000 ∧ r (.spec .sqrt) ≠ 0 ∧
    elem (r (.red .sum)) 4 0 = 0x41C00000 ∧ r .merge = v 0x3FC00000 ∧ elem (r .slide) 4 14 = 0x3FC00000 ∧ elem (r .slide) 4 15 = 0 ∧
    r .bcast = v 5 ∧ elem (r (.cvt 8 false)) 2 0 = 0x3E00 ∧
    ((vectorTurn 0 0 0 (s (.cmp .lt))).thread 0).rm_ 4 = BitVec.allOnes 64 ∧ ((vectorTurn 0 0 0 (s .mnot)).thread 0).rm_ 4 = 0 := by
  refine ⟨?_, ?_, ?_, ?_, ?_, ?_, ?_, ?_, ?_, ?_, ?_, ?_⟩ <;> decide +kernel

/-- The same entry with a base and a stride captured, q1 holding the base and 7, 16 bytes of local store from 0x400
on not zero, and the pre-image of line 0x100 held. -/
def vmemEntry (op : VOp) (t : BitVec 4) (base stride : Word) : VEntry := { ventry op t with m := 1, ca := .val base, cb := .val stride }

def vmem (op : VOp) (t : BitVec 4) (base stride : Word) : State :=
  let s := { one { (lanes op t).thread 0 with
      seq := { items := [.entry (vmemEntry op t base stride)], pos := 0, frames := [] }
      q := (Vector.replicate 4 []).set 1 [base, 7] } with
    cores := [(0, { core0 with pool := [{ line := 0x100, writer := 0, data := 0 }] })] }
  holding s 0x400 ((List.range 16).map (fun i => BitVec.ofNat 8 (7 * i + 1)))

/-- VectorMemoryAndQueues: loads of each form on bytes and words, at both ends of their elements, and a misaligned one. -/
theorem witness_vectorLoads :
    let off (form : VMemOp) (t : BitVec 4) (b : Word) (i : Nat) : Nat :=
      (elemAddress form (elemBytes t) (own 0x400) b (if form = .indexed then ((vmem (.load form) t 0 0).thread 0).rv 2 else 0) i).toNat % 65536
    (∀ x ∈ ([(.unit, 0, 1), (.unit, 3, 1), (.strided, 1, 6), (.strided, 0, -3), (.indexed, 0, 0), (.queued, 0, 0)] : List (VMemOp × BitVec 4 × Word)),
      let s := vmem (.load x.1) x.2.1 (own 0x400) x.2.2
      HeadRuns s 0 0 0 (vmemEntry (.load x.1) x.2.1 (own 0x400) x.2.2) (own 0x400) x.2.2 ∧ (s.thread 0).sb = [] ∧ s.owned = [] ∧ s.ecc = [] ∧
      Unleased s 0 0 ∧
      ∀ i < 64 / elemBytes x.2.1, ((s.thread 0).rm_ 1).getLsbD (i * elemBytes x.2.1) = true →
        checkAccess s 0 0 .u 1 .read (2 ^ 64 - 65536 + off x.1 x.2.1 x.2.2 i) = .ok (.own (off x.1 x.2.1 x.2.2 i)) ∧
        off x.1 x.2.1 x.2.2 i % elemBytes x.2.1 = 0 ∧
        elem (((vectorTurn 0 0 0 s).thread 0).rv 4) (elemBytes x.2.1) i = ofBytes (s.readN (localAddr 0 (off x.1 x.2.1 x.2.2 i)) (elemBytes x.2.1))) ∧
    HeadRuns (vmem (.load .unit) 3 (own 0x404) 0) 0 0 0 (vmemEntry (.load .unit) 3 (own 0x404) 0) (own 0x404) 0 ∧ (own 0x404).toNat % 8 ≠ 0 ∧
    decide (((vectorTurn 0 0 0 (vmem (.load .unit) 3 (own 0x404) 0)).thread 0).strap.cause.toNat % 16 = 3 ∧
      ((vectorTurn 0 0 0 (vmem (.load .unit) 3 (own 0x404) 0)).thread 0).strap.tval = own 0x404) = true := by
  refine ⟨by unfold HeadRuns Unleased; decide +kernel, by unfold HeadRuns; decide +kernel, ?_, ?_⟩ <;> decide +kernel

/-- VectorMemoryAndQueues: a store of the bytes of one line, and one that is misaligned. -/
theorem witness_vectorStores :
    let s := vmem (.store .unit) 0 (own 0x100) 0
    HeadRuns s 0 0 0 (vmemEntry (.store .unit) 0 (own 0x100) 0) (own 0x100) 0 ∧ s.owned = [] ∧ s.ecc = [] ∧ Unleased s 0 0 ∧
    checkAccess s 0 0 .u 1 .write (own 0x100).toNat = .ok (.own 0x100) ∧ checkAccess s 0 0 .u 1 .write (own 0x13E).toNat = .ok (.own 0x13E) ∧
    (preLocal s 0 (writerOf 0) 0x100).isSome = true ∧
    (((vectorTurn 0 0 0 s).thread 0).sb.flatMap (·.cells)).map (·.1) = (List.range 32).map (fun i => localAddr 0 (0x100 + 2 * i)) ∧
    decide (((vectorTurn 0 0 0 (vmem (.store .unit) 1 (own 0x101) 0)).thread 0).strap.cause = 0x303) = true := by
  refine ⟨by unfold HeadRuns; decide +kernel, ?_, ?_, by unfold Unleased; decide +kernel, ?_, ?_, ?_, ?_, ?_⟩ <;> decide +kernel

/-- VectorMemoryAndQueues: the moves between vector registers, masks and queues: a negative byte, a mask of even bits, two entries. -/
theorem witness_vectorQueues :
    let s (op : VOp) (t : BitVec 4) (q : List Word) : State := { lanes op t with threads := [(0, { (lanes op t).thread 0 with
      v := ((lanes op t).thread 0).v.set 1 (BitVec.ofNat 512 0xFF), q := Vector.replicate 4 q })] }
    let u (op : VOp) (t : BitVec 4) (q : List Word) : Thread := (vectorTurn 0 0 0 (s op t q)).thread 0
    (∀ x ∈ ([.qpush, .mpopc, .mfirst] : List VOp), HeadRuns (s x 0 (List.replicate 7 3)) 0 0 0 (laneEntry x 0) 5 1 ∧
      (((s x 0 (List.replicate 7 3)).thread 0).queue (qIdx 4)).length < 8 ∧ ((s x 0 []).thread 0).st = .ready) ∧
    HeadRuns (s .storeQueue 0 []) 0 0 0 (laneEntry .storeQueue 0) 5 1 ∧ HeadRuns (s .qpop 1 [0x1FFFF, 4]) 0 0 0 (laneEntry .qpop 1) 5 1 ∧
    (u .qpush 0 []).queue (qIdx 4) = [ones64] ∧ (u .qpush 4 []).queue (qIdx 4) = [0xFF] ∧
    (u .mpopc 0 []).queue (qIdx 4) = [32] ∧ (u .mfirst 0 []).queue (qIdx 4) = [0] ∧
    ((u .storeQueue 0 []).queue (qIdx 1)).length = 8 ∧ (u .qpop 1 [0x1FFFF, 4]).queue (qIdx 1) = [4] ∧ elem ((u .qpop 1 [0x1FFFF, 4]).rv 4) 2 0 = 0xFFFF := by
  refine ⟨by unfold HeadRuns; decide +kernel, by unfold HeadRuns; decide +kernel, by unfold HeadRuns; decide +kernel, ?_, ?_, ?_, ?_, ?_, ?_, ?_⟩ <;> decide +kernel

/-- VectorLoopRegisters: both levels, a body of sixteen entries, bounds pending, and bounds in the wrong order. -/
theorem witness_loops :
    let s := one { regs [0x35, 0x53, ones64] with lc := Vector.replicate 2 { count := 7, pending := some (3, 15) } }
    FullAll s [1, 2, 3] ∧ s.th.image = none ∧ s.th.seq.items = [] ∧ s.th.seq.frames = [] ∧
    nextIs (exec (.vloop 1 15) s) (fun t => decide (t.th.seq.items = [.loop { level := 1, n := 16, b := 3, e := 15, count := 7 }]) &&
      decide ((getLoop t.th.lc 1).pending = none)) = true ∧
    nextIs (exec (.vloop 0 2) s) (fun t => decide (t.th.seq.items = [.loop { level := 0, n := 3, b := 2, e := 2, count := 7 }])) = true ∧
    gives s (.lcr 3 1, 7) = true ∧
    nextIs (exec (.lbw 0 2) s) (fun t => decide ((getLoop t.th.lc 0).pending = some (3, 5))) = true ∧
    nextIs (exec (.lbw 0 1) s) (fun t => decide ((getLoop t.th.lc 0).pending = none)) = true ∧
    nextIs (exec (.lcw 1 3) s) (fun t => decide ((getLoop t.th.lc 1).count = 0xFFFFFFFF)) = true := by
  refine ⟨by unfold FullAll; decide +kernel, ?_, ?_, ?_, ?_, ?_, ?_, ?_, ?_, ?_⟩ <;> decide +kernel

/-- A view at 0x1000 of 2 rows of 16 FP32 elements, 256 bytes apart, at position 1, in td0. -/
def view : Desc := { img := BitVec.ofNat 256 (10 * 2 ^ 224 + 256 * 2 ^ 128 + 0x0001000100020010 * 2 ^ 64 + 0x1000), pos := 1 }

/-- TensorDescriptors: a walk of two chunks, its last position and past it, views that fail, full queues, TDLD and TDST. -/
theorem witness_descriptors :
    let th := setTd (regs [0xFFF, 3, own 0x100]) 0 view
    let s := holding (one th) 0x100 (List.replicate 32 0xFF)
    let e := one (setTd (regs [0, 1]) 0 { img := 0, pos := 0 })
    let q := one (th.setQueue 0 (List.replicate 8 0))
    FullAll s [1, 2, 3] ∧ Drained s ∧ Undisturbed s ∧ (s.th.rg 3).toNat % 32 = 0 ∧
    checkAccess s 0 0 .u 1 .read (s.th.rg 3).toNat = .ok (.own 0x100) ∧ Unleased s 0 0 ∧
    (match storeRoom (.own 0x100) 32 s with | .taken _ => true | _ => false) = true ∧ Walks view 1 0x1100 2 ∧
    (s.th.queue 0).length < 8 ∧ 8 ≤ (q.th.queue 0).length ∧ descExt (tdOf e.th 0) 3 = 0 ∧ TakesS e ∧
    nextIs (exec (.tdset 0 1 2) s) (fun t => decide (descWord (tdOf t.th 0) 3 = 0xFFF) && decide ((tdOf t.th 0).pos = 0)) = true ∧
    nextIs (exec (.tdld 0 3) s) (fun t => decide ((tdOf t.th 0).img = BitVec.ofNat 256 (2 ^ 228 - 1))) = true ∧
    nextIs (exec (.tdst 0 3) s) (fun t => decide (t.th.sb.map (·.cells.length) = [32])) = true ∧
    nextIs (exec (.vmap 0 0 2) s) (fun t => decide (t.th.queue 0 = [0x1100]) && decide ((tdOf t.th 0).pos = 0)) = true ∧
    nextIs (exec (.vmapR 0 0 2) s) (fun t => decide (t.th.queue 0 = [0x1100]) && decide ((tdOf t.th 0).pos = 0)) = true ∧
    takes e (.vmap 0 0 2) 4 0 = true ∧ takes e (.vmapR 0 0 2) 4 0 = true ∧
    (∀ i ∈ [Instr.vmap 0 0 2, .vmapR 0 0 2], nextIs (exec i q) (fun t => decide (t.th.wait = .queue 0)) = true) := by
  refine ⟨by unfold FullAll; decide +kernel, by unfold Drained; decide +kernel, by unfold Undisturbed; decide +kernel, ?_, ?_,
    by unfold Unleased; decide +kernel, ?_, ⟨1, 1, 0, 0, 0, by decide +kernel⟩, ?_, ?_, ?_, by unfold TakesS; decide +kernel, ?_, ?_, ?_, ?_, ?_, ?_, ?_, ?_⟩ <;> decide +kernel

/-! ## Engines -/

/-- The doublewords of a job descriptor: images of ternary rows at own 0 and own 512, 64 positions, integer slot 0. -/
def jobDesc : List Word := [own 0, own 512, 0, 0, 0, 0, word (64 * 2 ^ 48 + 2 ^ 24 + 2 ^ 16), 0]

/-- The doublewords of XCOPY: 8 bytes from own 0x2000 to own 0x1000. -/
def copyDesc : List Word := [own 0x1000, own 0x2000, 8, 0, 0, 0, 0, 0]

def acc1 : Acc := { Acc.reset with rows := 1, cols := 1, int := true }

/-- Core 0 with a 1 × 1 integer slot and the lines of the drain's and the copy's destination written before. -/
def core1 : Core := { core0 with acc := Vector.replicate 2 acc1, pool := [{ line := 0x1000, writer := 0, data := 0 }] }

/-- g1 points at a descriptor in local store, g2 is 0, g3 a configuration, g4 and g5 a drain's destination and word. -/
def sEng (desc : List Word) : State :=
  holding { one (regs [own 0x3000, 0, 2 ^ 16, own 0x1000, 8 * 2 ^ 16]) with cores := [(0, core1)] } 0x3000
    (desc.flatMap (fun w => bytesOf 8 w.toNat))

/-- An operation of slot 0 of core 0 with completion register g9. -/
def engOp (k : EngKind) : EngOp := newOp (one th0) 9 0 false [] k

theorem sEng_reads (w : List Word) (h : w = jobDesc ∨ w = copyDesc) : ReadsDesc (sEng w) (own 0x3000) w (sEng w) := by
  rcases h with rfl | rfl
  · exact ⟨.own 0x3000, jobDesc.flatMap (fun w => bytesOf 8 w.toNat), by decide +kernel, bytes_of (by decide +kernel), by decide +kernel⟩
  · exact ⟨.own 0x3000, copyDesc.flatMap (fun w => bytesOf 8 w.toNat), by decide +kernel, bytes_of (by decide +kernel), by decide +kernel⟩

/-- MatrixCommandsIssue: a configuration, a job and a drain that pass, MSTAT, and a sash bank. -/
theorem witness_matrix :
    let s := sEng jobDesc
    let b := { s with threads := [(8, { regs [0, 0] with st := .ready })], cur := 8 }
    Drained s ∧ s.curSlot < 8 ∧ queueRoom s = true ∧ FullAll s [1, 2, 3, 4, 5] ∧ (s.th.rg 3).toNat / 2 ^ 21 = 0 ∧ wfld (s.th.rg 3) 14 2 = 0 ∧
    ReadsDesc s (own 0x3000) jobDesc s ∧ badJob s jobDesc = false ∧ nodeRoom s true = true ∧ descArea s (own 0x3000) = true ∧
    checkParts s 0 0 .u 1 .write ((drainRanges (own 0x1000) (s.th.rg 5) 1 1).flatMap (fun r => partsOf r.1 r.2)) [] =
      .inr [((own 0x1000).toNat, 4, .own 0x1000)] ∧ (Place.own 0x1000).near = true ∧
    (let o := newOp s 9 0 false [] (.drain (own 0x1000) (s.th.rg 5) 1 1)
     (ownParts (enterOp s { o with targets := [partTarget 0 ((own 0x1000).toNat, 4, .own 0x1000)] }) o false
       [((own 0x1000).toNat, 4, .own 0x1000)]).isSome = true) ∧ s.engine = [] ∧
    (∀ x ∈ ([(.mcfg 3, 0), (.mjob 9 1 2, 9), (.mdrain 9 4 5, 9)] : List (Instr × BitVec 5)),
      nextIs (exec x.1 s) (fun t => decide (t.engine.map (fun o => (o.op, o.d)) = [(1, x.2)]) && decide (t.th.pc = 0x10004) &&
        (decide (x.2 = 0) || !t.th.fullG x.2)) = true) ∧
    gives s (.mstat 3, word (2 ^ 30 + 2 ^ 14)) = true ∧ 8 ≤ b.curSlot ∧ TakesS b ∧ FullAll b [1, 2] ∧
    gives b (.mstat 3, 0) = true ∧ (∀ i ∈ [Instr.mcfg 1, .mjob 9 1 2, .mdrain 9 1 2], takes b i 4 0 = true) := by
  refine ⟨by unfold Drained; decide +kernel, ?_, ?_, by unfold FullAll; decide +kernel, ?_, ?_, sEng_reads _ (.inl rfl), ?_, ?_, ?_, ?_, ?_, ?_, ?_,
    ?_, ?_, ?_, by unfold TakesS; decide +kernel, by unfold FullAll; decide +kernel, ?_, ?_⟩ <;> decide +kernel

/-- MatrixCommandsIssue: every slot of a tile core has a size. -/
theorem witness_slots : ∀ i, 1 ≤ ((sEng jobDesc).accOf 0 i).rows ∧ ((sEng jobDesc).accOf 0 i).rows ≤ 128 ∧
    1 ≤ ((sEng jobDesc).accOf 0 i).cols ∧ ((sEng jobDesc).accOf 0 i).cols ≤ 64 := by
  intro i
  have h : (sEng jobDesc).accOf 0 i = acc1 := by unfold State.accOf; split <;> decide +kernel
  rw [h]; decide

/-- TileEngineRuns: a configuration that changes its slot and one that does not, and a pass over 64 positions of -1 times -1. -/
theorem witness_tile :
    let c (w : Word) : State := { sEng jobDesc with engine := [engOp (.mcfg w)] }
    let o := { engOp (.job jobDesc) with leave := .granted, begun := true }
    let s := { sEng jobDesc with engine := [o] }
    let x := (jobSides jobDesc acc1).1
    let y := (jobSides jobDesc acc1).2
    (∀ e ∈ (c 0x10000).engine, e.core = 0 → e.queued = true → e.op ≠ 1 → e.accSlot ≠ 0) ∧
    nextIs (exec (.mcfgEffect 0) (c 0x10000)) (fun t => decide (t.engine = []) && decide (t.accOf 0 0 = acc1)) = true ∧
    nextIs (exec (.mcfgEffect 0) (c 0x13F7F)) (fun t => decide ((t.accOf 0 0).rows = 128) && decide ((t.accOf 0 0).cols = 64) &&
      (t.accOf 0 0).clr && decide (t.accOf 0 1 = acc1)) = true ∧
    grantedJob s 0 = none ∧ grantedJob (choosePass s 0 none) 0 = some o ∧ acc1.ecc = .sound ∧ matInt x.code = true ∧ matInt y.code = true ∧ min 64 (x.k - 64 * o.passes) = 64 ∧
    (match readRanges (choosePass (choosePass s 0 none) 0 (some o.op)) o (jobWaits o) (x.chunks 0 ++ x.sliceScales 0 ++ y.chunks 0 ++ y.sliceScales 0) with
      | .inr (.bytes u bs) => decide (u.accOf 0 0 = acc1) && decide (bs.length = x.bytes 0 + y.bytes 0)
      | _ => false) = true ∧
    nextIs (exec (.tilePass 0) s) (fun t => decide ((t.accOf 0 0).elem 0 0 = 64)) = true := by
  refine ⟨?_, ?_, ?_, ?_, ?_, ?_, ?_, ?_, ?_, ?_, ?_⟩ <;> decide +kernel

/-- The copy to another core's local store. -/
def farDesc : List Word := copyDesc.set 0 (word (localAddr 256 0))

/-- CopiesIssue: a plain copy and a `.next` copy whose descriptor passes, and a `.next` copy to another core. -/
theorem witness_copies :
    let s := sEng copyDesc
    Drained s ∧ FullAll s [1, 2] ∧ isControl s.curCore = false ∧ copyRoom s = true ∧ nodeRoom s false = true ∧ descArea s (own 0x3000) = true ∧
    ReadsDesc s (own 0x3000) copyDesc s ∧ badCopy 0 false copyDesc = false ∧ (∀ r ∈ destRuns 0 copyDesc, descArea s (word r.1) = true) ∧
    checkParts s 0 0 .u 1 .write (destParts 0 copyDesc) [] = .inr [((own 0x1000).toNat, 8, .own 0x1000)] ∧
    (let o : EngOp := { newOp s 9 0 false (matchPreds s (engineCluster 0) 1 (edgePreds 0)) (.copy 0 copyDesc false) with total := 8 }
     (ownParts (enterOp s { o with targets := [partTarget 0 ((own 0x1000).toNat, 8, .own 0x1000)] }) o false
       [((own 0x1000).toNat, 8, .own 0x1000)]).isSome = true) ∧ s.engine = [] ∧ copyTotal 0 copyDesc = 8 ∧
    (∀ r ∈ destRuns 0 copyDesc, nearDst s r.1 = true) ∧ TakesS (sEng farDesc) ∧ badCopy 0 false farDesc = false ∧
    (∀ r ∈ destRuns 0 farDesc, nearDst (sEng farDesc) r.1 = false) ∧
    nextIs (exec (.xcopyNext 1 2) (sEng farDesc)) (fun t => decide (t.engine = []) && decide (t.th.strap.tval = farDesc.getD 0 0) &&
      decide (t.th.strap.cause = 0x204)) = true ∧
    nextIs (exec (.xcopy 9 1 2) s) (fun t => decide (t.engine.map (fun o => (o.d, o.total, o.nxt)) = [(9, 8, .plain)]) && !t.th.fullG 9) = true ∧
    nextIs (exec (.xcopyNext 1 2) s) (fun t => decide (t.engine.map (fun o => (o.d, o.total, o.nxt)) = [(0, 8, .staged)])) = true ∧
    nextIs (exec (.xfill 9 1 2) s) (fun t => decide (t.engine.map (fun o => (o.d, o.total, o.nxt)) = [(9, 8, .plain)])) = true ∧
    nextIs (exec (.xfillNext 1 2) s) (fun t => decide (t.engine.map (fun o => (o.d, o.total, o.nxt)) = [(0, 8, .staged)])) = true := by
  refine ⟨by unfold Drained; decide +kernel, by unfold FullAll; decide +kernel, ?_, ?_, ?_, ?_, sEng_reads _ (.inr rfl), ?_, ?_, ?_, ?_, ?_, ?_, ?_,
    by unfold TakesS; decide +kernel, ?_, ?_, ?_, ?_, ?_, ?_, ?_⟩ <;> decide +kernel

/-- CopiesIssue: the other forms, on descriptors of one element or one plane group. -/
theorem witness_copyForms :
    let t4 : List Word := [own 0x1000, 0x0001000100010001, 0, word (3 * 2 ^ 32), own 0x2000, 0x0001000100010001, 0, word (3 * 2 ^ 32)]
    let pl : List Word := [own 0x1000, own 0x2000, 8, word (64 * 2 ^ 48 + 2 ^ 8), 0, 0, 0, 0]
    let ga : List Word := [own 0x1000, own 0x2000, own 0x2800, word (3 * 2 ^ 32 + 1), 0, 0, 0, 0]
    badCopy 1 false t4 = false ∧ badCopy 2 false pl = false ∧ badCopy 3 false pl = false ∧ badCopy 5 false ga = false ∧
    (∀ x ∈ [(Instr.xcopyT 9 1 2, t4), (.xplane 9 1 2, pl), (.xunplane 9 1 2, pl), (.xgather 9 1 2, ga)],
      nextIs (exec x.1 (sEng x.2)) (fun t => decide (t.engine.map (fun o => (o.d, o.nxt)) = [(9, .plain)]) && decide (t.th.pc = 0x10004)) = true) ∧
    (∀ x ∈ [(Instr.xcopyTNext 1 2, t4), (.xplaneNext 1 2, pl), (.xunplaneNext 1 2, pl), (.xgatherNext 1 2, ga)],
      nextIs (exec x.1 (sEng x.2)) (fun t => decide (t.engine.map (fun o => (o.d, o.nxt)) = [(0, .staged)])) = true) := by
  refine ⟨?_, ?_, ?_, ?_, ?_, ?_⟩ <;> decide +kernel

/-- A copy of slot 0 of core 0 to own 0x1000 and 0x1040, form `f`, in phase `n`, with `ws` prepared. -/
def moving (f : Nat) (n : NextPhase) (w : List Word) (ws : Option (List (Bool × Nat × List Byte))) : EngOp :=
  { engOp (.copy f w false) with total := 8, nxt := n, targets := [(false, localAddr 0 0x1000, 8)], writes := ws, begun := ws.isSome }

/-- The engine holds that copy alone; the lines of its destination were written before, and its source holds 1 to 8. -/
def sMove (o : EngOp) : State :=
  { holding (holding (sEng copyDesc) 0x2000 [1, 2, 3, 4, 5, 6, 7, 8]) 0x2800 [8] with
    cores := [(0, { core1 with pool := [{ line := 0x1000, writer := 0, data := 0 }, { line := 0x1040, writer := 0, data := 0 }] })], engine := [o] }

/-- XGATHER of one doubleword whose index stands at own 0x2800. -/
def gatherDesc : List Word := [own 0x1000, own 0x2000, own 0x2800, word (3 * 2 ^ 32 + 1), 0, 0, 0, 0]

/-- CopiesMove: the first turn of a copy, a fill, a gather and a `.next` copy that is due. -/
theorem witness_moves :
    let tg := [(false, localAddr 0 0x1000, 8)]
    let s (f : Nat) (n : NextPhase) (w : List Word) : State := sMove (moving f n w none)
    (∀ x ∈ [(0, NextPhase.plain, copyDesc), (4, .plain, copyDesc), (0, .due, copyDesc), (5, .plain, gatherDesc)],
      let o := moving x.1 x.2.1 x.2.2 none
      let u := s x.1 x.2.1 x.2.2
      u.engOp 1 = some o ∧ mayRun u o = true ∧ (u.die 0).healthy = true ∧ (copyGrant u 0).map (·.op) = some 1 ∧
      copyTargets u o x.1 x.2.2 = .inr tg) ∧
    (∀ n ∈ [NextPhase.plain, .due], (match copyRead (s 0 n copyDesc) (moving 0 n copyDesc none) (srcRuns 0 copyDesc) with
      | .inr (.bytes u bs) => decide (u = s 0 n copyDesc) && decide (bs = [1, 2, 3, 4, 5, 6, 7, 8])
      | _ => false) = true) ∧
    (match copyRead (s 5 .plain gatherDesc) (moving 5 .plain gatherDesc none) (srcRuns 5 gatherDesc) with
      | .inr (.bytes v l) => (match copyRead v (moving 5 .plain gatherDesc none) (gatherRuns gatherDesc l) with
        | .inr (.bytes u bs) => decide (u.engOp 1 = some (moving 5 .plain gatherDesc none)) && decide (bs = List.replicate 8 0)
        | _ => false)
      | _ => false) = true ∧
    cutTargets tg (destBytes 0 copyDesc (moved 0 copyDesc [1, 2, 3, 4, 5, 6, 7, 8])) = [(false, localAddr 0 0x1000, [1, 2, 3, 4, 5, 6, 7, 8])] ∧
    (∀ x ∈ [(Instr.copyRun 1, NextPhase.plain), (.nextCopyRun 1, .due)], nextIs (exec x.1 (s 0 x.2 copyDesc)) (fun t =>
      decide (t.mem = (s 0 x.2 copyDesc).mem) && decide (t.engine.map (·.writes) = [some [(false, localAddr 0 0x1000, [1, 2, 3, 4, 5, 6, 7, 8])]])) = true) ∧
    nextIs (exec (.copyRun 1) (s 4 .plain copyDesc)) (fun t =>
      decide (t.engine.map (·.writes) = [some [(false, localAddr 0 0x1000, bytesOf 8 (own 0x2000).toNat)]])) = true ∧
    nextIs (exec (.copyRun 1) (s 5 .plain gatherDesc)) (fun t =>
      decide (t.engine.map (·.writes) = [some [(false, localAddr 0 0x1000, List.replicate 8 0)]])) = true := by
  refine ⟨?_, ?_, ?_, ?_, ?_, ?_, ?_⟩ <;> decide +kernel

/-- Two lines of four bytes, and the second alone. -/
def twoLines : List (Bool × Nat × List Byte) := [(false, localAddr 0 0x1000, [1, 2, 3, 4]), (false, localAddr 0 0x1040, [5, 6, 7, 8])]

theorem moving_mayWrite (n : NextPhase) (k : Nat) (h : n = .plain ∨ n = .due) (hk : k < 2) :
    MayWrite (sMove (moving 0 n copyDesc (some (twoLines.drop k)))) (moving 0 n copyDesc (some (twoLines.drop k))) (twoLines.drop k) := by
  have hk : k = 0 ∨ k = 1 := by omega
  rcases h with rfl | rfl <;> rcases hk with rfl | rfl <;>
    exact ⟨by decide +kernel, by decide +kernel, quiet_of (by decide +kernel), by decide +kernel, by decide +kernel, by unfold Unleased; decide +kernel⟩

/-- CopiesMove: the later turns, one line each, and the completion with the last. -/
theorem witness_movesOn :
    ∀ x ∈ [(Instr.copyRun 1, NextPhase.plain), (.nextCopyRun 1, .due)],
      (∀ k ∈ [0, 1], (copyGrant (sMove (moving 0 x.2 copyDesc (some (twoLines.drop k)))) 0).map (·.op) = some 1) ∧
      nextIs (exec x.1 (sMove (moving 0 x.2 copyDesc (some twoLines)))) (fun t => decide (t.readN (localAddr 0 0x1000) 5 = [1, 2, 3, 4, 0]) &&
        decide (t.readN (localAddr 0 0x1040) 1 = [0]) && decide (t.engine.map (·.writes) = [some (twoLines.drop 1)]) &&
        decide ((t.cluster 0).copyLast = 0)) = true ∧
      nextIs (exec x.1 (sMove (moving 0 x.2 copyDesc (some (twoLines.drop 1))))) (fun t =>
        decide (t.readN (localAddr 0 0x1040) 5 = [5, 6, 7, 8, 0]) && decide (t.engine = []) && decide (t.th.rg 9 = 8)) = true := by decide +kernel

/-- DrainsAndRecalls: a drain of one integer element as INT8 and cleared, and one item recalled. -/
theorem witness_drains :
    let dw : Word := word (8 * 2 ^ 16 + 2 ^ 7 + 4 * 2)
    let a : Acc := { acc1 with elems := [(0, 200)], twins := [(0, 200)] }
    let o := { engOp (.drain (own 0x1000) dw 1 1) with targets := [(false, localAddr 0 0x1000, 1)] }
    let s := { sEng jobDesc with cores := [(0, { core1 with acc := #v[a, a] })], engine := [o] }
    let r := { engOp (.copy 0 copyDesc false) with writes := some [(false, localAddr 0 0x1000, [7])], total := 1 }
    let u := { sEng jobDesc with threads := [(0, { th0 with stall := some (localAddr 0 0x1000) })], engine := [r] }
    (s.accOf 0 0).elem 0 0 = (s.accOf 0 0).twin 0 0 ∧ (s.accOf 0 0).ecc = .sound ∧ (s.die 0).healthy = true ∧
    a.cols * drainSize dw ≤ wfld dw 16 16 ∧ mayRun s o = true ∧ s.engOp 1 = some o ∧
    cutTargets o.targets (a.cells.flatMap (fun p => bytesOf (drainSize dw) (drainConvert a.int dw (a.elem p.1 p.2)).1)) =
      [(false, localAddr 0 0x1000, [127])] ∧
    MayWrite s o [(false, localAddr 0 0x1000, [127])] ∧ MayWrite u r [(false, localAddr 0 0x1000, [7])] ∧
    nextIs (exec (.drainRun 0) s) (fun t => decide (t.readN (localAddr 0 0x1000) 2 = [127, 0]) && decide ((t.accOf 0 0).elem 0 0 = 0) &&
      decide (t.engine = []) && decide (t.th.fullG 9 = true)) = true ∧
    u.engOp 1 = some r ∧ awaited u 0 1 (lineOf (localAddr 0 0x1000)) = true ∧
    nextIs (exec (.recallLine 1) u) (fun t => decide (t.readN (localAddr 0 0x1000) 1 = [7]) && decide (t.engine.map (·.writes) = [some []])) = true := by
  refine ⟨?_, ?_, ?_, ?_, ?_, ?_, ?_, ⟨?_, ?_, quiet_of ?_, ?_, ?_, by unfold Unleased; decide +kernel⟩,
    ⟨?_, ?_, quiet_of ?_, ?_, ?_, by unfold Unleased; decide +kernel⟩, ?_, ?_, ?_, ?_⟩ <;> decide +kernel

/-! ## Pages, caches and gets -/

/-- Pages 1 and 2 of context 1 on die 0 map to frames 1 and 2 of stack 0, readable, writable and executable; S mode; g1 points at
the list of page 2 in local store. -/
def sPage : State :=
  let e (ctx p : Nat) : TlbEntry := { slice := sliceOf (p * 65536), ctx := ctx, vpn := p, lo := word (2 ^ 63 + 7 * 2 ^ 40 + p), hi := word p }
  let l : CLine := { die := 0, ctx := 1, va := 0x10000, phys := 0x10000, st := .clean, data := 5, written := 0, undo := none, stamp := 0 }
  let s := { one { regs [own 0, own 0x10] with mode := .s } with
    dies := [(0, { Die.reset with tlb := [e 1 1, e 1 2, e 2 2] })]
    lines := [l, { l with va := 0x20000, phys := 0x20000, st := .pending, data := 0 }] }
  holding (s.writeN 0x20000 [9]) 0 (([1, 0x20000, 1, 1] : List Nat).flatMap (bytesOf 8))

/-- The same with page 2 replicated and none of its lines pending. -/
def sRep : State :=
  { sPage with
    dies := [(0, { Die.reset with tlb := [{ slice := sliceOf 0x20000, ctx := 1, vpn := 2, lo := word (2 ^ 63 + 2 ^ 44 + 7 * 2 ^ 40 + 2), hi := 2 }] })]
    lines := [] }

theorem sPage_reads (s : State) (off : Nat) (w : Word) (h : (s = sPage ∧ (off = 0 ∧ w = 0x20000 ∨ off = 16 ∧ w = 1)) ∨ s = sRep ∧ off = 0 ∧ w = 0x20000) :
    ReadsWords s (own off).toNat [1, w] := by
  rcases h with ⟨rfl, ⟨rfl, rfl⟩ | ⟨rfl, rfl⟩⟩ | ⟨rfl, rfl, rfl⟩ <;>
    refine ⟨by unfold Drained; decide +kernel, by unfold Undisturbed; decide +kernel, by decide +kernel, by decide +kernel, ?_⟩ <;>
    intro i hi
  · match i, hi with
    | 0, _ => exact ⟨0, by decide +kernel, by unfold Unleased; decide +kernel, by decide +kernel⟩
    | 1, _ => exact ⟨8, by decide +kernel, by unfold Unleased; decide +kernel, by decide +kernel⟩
  · match i, hi with
    | 0, _ => exact ⟨16, by decide +kernel, by unfold Unleased; decide +kernel, by decide +kernel⟩
    | 1, _ => exact ⟨24, by decide +kernel, by unfold Unleased; decide +kernel, by decide +kernel⟩
  · match i, hi with
    | 0, _ => exact ⟨0, by decide +kernel, by unfold Unleased; decide +kernel, by decide +kernel⟩
    | 1, _ => exact ⟨8, by decide +kernel, by unfold Unleased; decide +kernel, by decide +kernel⟩

/-- PageListsStage: a page with a translation and room for its lines, a replicated page, and an entry with a reserved bit. -/
theorem witness_pageLists :
    FullAll sPage [1, 2] ∧ FullAll sRep [1] ∧ (∃ e, translate sPage 0 1 0x20000 = some e ∧ e.r = true ∧ e.frame 2 ≤ 732164 ∧ e.rep = false) ∧
    badEntry 0x20000 false = false ∧ badEntry 0x20000 true = false ∧ badEntry 1 false = true ∧
    ((pageLines 2).filter (fun l => (sPage.line 0 1 l).isNone)).length = 1023 ∧ roomFor sPage 0 (sliceOf 0x20000) 1023 = some sPage ∧
    (∃ e, translate sRep 0 1 0x20000 = some e ∧ e.rep = true) ∧ sliceUse sRep 0 (sliceOf 0x20000) ≤ (sRep.die 0).cblk ∧
    sPage.job sPage.curCtx = some job1 ∧
    nextIs (exec (.wbl 1) sPage) (fun t => decide ((t.job 1).map (·.wbl) = some [(0, 2, false)]) && decide (t.th.pc = 0x10004)) = true ∧
    nextIs (exec (.pfl 1) sRep) (fun t => decide (t.lines = []) && decide (t.mem = sRep.mem) && decide (t.th.pc = 0x10004)) = true ∧
    nextIs (exec (.pfl 2) sPage) (fun t => decide (t.lines.length = 2) && decide (t.th.pc = 0x10004)) = true := by
  refine ⟨by unfold FullAll; decide +kernel, by unfold FullAll; decide +kernel, ⟨{ lo := word (2 ^ 63 + 7 * 2 ^ 40 + 2), hi := 2 }, by decide +kernel⟩,
    ?_, ?_, ?_, ?_, ?_, ⟨{ lo := word (2 ^ 63 + 2 ^ 44 + 7 * 2 ^ 40 + 2), hi := 2 }, by decide +kernel⟩, ?_, ?_, ?_, ?_, ?_⟩ <;> decide +kernel

/-- AccessChecks: a load whose line is absent where its slice has no line to give. -/
theorem witness_noLine :
    let s := { (sPage.modThread 0 (fun th => th.wg 1 0x10040)) with
      dies := [(0, { sPage.die 0 with cblk := 0 })], lines := [] }
    TakesS s ∧ s.th.vectorMem = false ∧ FullAll s [1] ∧ (match checkAccess s 0 0 .s 1 .read 0x10040 with
      | .ok q => (match loadPlace s 0 q 8 with
        | .full => decide (q.fullAt 0x10040 = 0x10040)
        | _ => false)
      | _ => false) = true ∧ nextIs (exec (.ld 3 1 0) s) (fun t => decide ((t.th.mtrap.cause, t.th.strap.cause) = (7, 0) ∨ (t.th.mtrap.cause, t.th.strap.cause) = (0, 7))) = true := by
  refine ⟨by unfold TakesS; decide +kernel, ?_, by unfold FullAll; decide +kernel, ?_, ?_⟩ <;> decide +kernel

/-- MatrixCommandsIssue and CopiesIssue: a destination whose line is still pending. -/
theorem witness_engineWaits :
    let s (d : List Word) : State := holding { sPage with threads := [(0, { regs [own 0x3000, 0, 2 ^ 16, 0x20000, 8 * 2 ^ 16] with mode := .s })],
                                                          cores := [(0, core1)] } 0x3000 (d.flatMap (fun w => bytesOf 8 w.toNat))
    let c : List Word := [0x20000, own 0x2000, 8, 0, 0, 0, 0, 0]
    let waits (s : State) (o : EngOp) (rs : List (Nat × Nat)) : Bool :=
      match checkParts s 0 0 .s 1 .write rs [] with
      | .inr parts => parts.all (fun p => p.2.2.near) &&
          decide (ownParts (enterOp s { o with targets := parts.map (partTarget 0) }) o false parts = none)
      | _ => false
    waits (s c) (newOp (s c) 9 0 false [] (.drain 0x20000 (8 * 2 ^ 16) 1 1)) [(0x20000, 4)] = true ∧
    waits (s c) { newOp (s c) 9 0 false [] (.copy 0 c false) with total := 8 } (destParts 0 c) = true ∧
    (∀ i ∈ [Instr.mdrain 9 4 5, .xcopy 9 1 2], nextIs (exec i (s c)) (fun t => decide (t = s c)) = true) := by
  refine ⟨?_, ?_, ?_⟩ <;> decide +kernel

/-- LinesArrive: an instruction line that the slice holds, a pending line, and GETs read, refused, of a failed module, and
answered by another. -/
theorem witness_lines :
    let g (a m : Nat) (r : Option (Bool × List Byte)) : GetOp :=
      { id := 1, ctx := 1, core := 0, slot := 0, d := 9, tmod := m, addr := a, len := 8, dest := none, reply := r, held := false }
    let s (a m : Nat) (r : Option (Bool × List Byte)) : State := { sPage with gets := [g a m r], failedModules := [7] }
    let h := s (own 8).toNat 0xFFF none
    let x := s 0x30000 0xFFF none
    (sPage.thread 0).st = .ready ∧ (sPage.core 0).icache = [] ∧ (sPage.thread 0).pc.toNat % 64 ≤ 52 ∧
    (match fetchLine sPage 0 1 0x10000 with | .inr _ => true | _ => false) = true ∧
    nextIs (exec (.icacheFill 0 0) sPage) (fun t => decide ((t.core 0).icache.map (fun l => (l.ctx, l.line, l.data)) = [(1, 0x10000, 5)])) = true ∧
    (sPage.line 0 1 0x20000).map (·.st) = some .pending ∧
    nextIs (exec (.lineFill 0 1 0x20000) sPage) (fun t => decide ((t.line 0 1 0x20000).map (fun l => (l.st, l.data)) = some (.clean, 9))) = true ∧
    h.gets.find? (fun x => x.id = 1) = some (g (own 8).toNat 0xFFF none) ∧ sPage.modnum = 0xFFF ∧
    (match preRange 0 0 1 (partsOf (own 8).toNat 8) h [] with
      | .got u (some bs) => decide (bs = bytesOf 8 0x20000) && decide ((u.dctx 0 1).trEn = 0)
      | _ => false) = true ∧
    (match preRange 0 0 1 (partsOf 0x30000 8) x [] with
      | .got u none => decide ((u.dctx 0 1).trEn = 0)
      | _ => false) = true ∧
    (∀ x ∈ [((own 8).toNat, 0xFFF, none, (0x20000 : Word)), (0x30000, 0xFFF, none, 0), ((own 8).toNat, 7, none, 0),
        (8, 5, some (true, bytesOf 8 6), 6), (8, 5, some (false, []), 0)],
      nextIs (exec (.getFill 1) (s x.1 x.2.1 x.2.2.1)) (fun t => decide (t.gets = []) && decide ((t.thread 0).rg 9 = x.2.2.2)) = true) := by
  refine ⟨?_, ?_, ?_, ?_, ?_, ?_, ?_, ?_, ?_, ?_, ?_, ?_⟩ <;> decide +kernel

/-- TranslationsShotDown: the four kinds on three translations, a reserved bit, and U mode. -/
theorem witness_sfence :
    let s (w : Word) : State := sPage.modThread 0 (fun th => th.wg 1 w)
    let is := [Instr.sfenceVPage 1, .sfenceVContext 1, .sfenceVAll 1, .sfenceVPublish 1]
    TakesS (one (regs [0])) ∧ TakesS (s (2 ^ 60)) ∧ FullAll (s 0) [1] ∧ wfld (2 ^ 60 : Word) 48 13 ≠ 0 ∧
    (∀ e ∈ (s 0).threads, e.2.tickets = []) ∧
    (∀ x ∈ [(2 ^ 32 + 2, [(1, 1), (2, 2)]), (2 ^ 62 + 2 ^ 32, [(2, 2)]), (2 ^ 63, []), (2 ^ 63 + 2 ^ 62 + 2 ^ 33 + 2, [(1, 1), (1, 2)])], ∀ i ∈ is,
      nextIs (exec i (s (word x.1))) (fun t => decide ((t.die 0).tlb.map (fun e => (e.ctx, e.vpn)) = x.2) && decide (t.th.pc = 0x10004)) = true) ∧
    (∀ i ∈ is, takes (s (2 ^ 60)) i 4 (2 ^ 60) = true ∧ takes (one (regs [0])) i 2 0 = true) := by
  refine ⟨by unfold TakesS; decide +kernel, by unfold TakesS; decide +kernel, by unfold FullAll; decide +kernel, ?_, ?_, ?_, ?_⟩ <;> decide +kernel

/-! ## Timetables -/

/-- The router east of core 0. -/
def east : Nat := (meshNeighbour 0 1).getD 0

/-- A send of 64 bytes to the east at offset 0 from local store 0. -/
def entSend : Word := word (64 * 2 ^ 48 + 2 ^ 24)
/-- A receive of 64 bytes from the east at offset 0 to local store 0, and an accumulating send to the west. -/
def entRecv : Word := word (64 * 2 ^ 48 + 2 ^ 24 + 2 ^ 20)

/-- A launch that names table 5, whose cores are core 0 and the one east of it; g1 points at an image of one table for core 0. -/
def sTab : State :=
  holding
    { one (regs [own 0x100]) with
      cores := [(0, core0), (east, core0)]
      ctxs := [(1, { ctx1 with job := some { job1 with record := (List.replicate 32 0).set 7 5 } })] }
    0x100 (([2 ^ 32 + 5, 0, entSend.toNat, 0, 0, 0] : List Nat).flatMap (bytesOf 8))

theorem sTab_reads (a : Nat) (ws : List Word)
    (h : (a = (own 0x100).toNat ∧ ws = [word (2 ^ 32 + 5), 0, entSend]) ∨ (a = (own 0x120).toNat ∧ ws = [0, 0])) : ReadsWords sTab a ws := by
  rcases h with ⟨rfl, rfl⟩ | ⟨rfl, rfl⟩
  · refine ⟨by unfold Drained; decide +kernel, by unfold Undisturbed; decide +kernel, by decide +kernel, by decide +kernel, ?_⟩
    intro i hi
    match i, hi with
    | 0, _ => exact ⟨0x100, by decide +kernel, by unfold Unleased; decide +kernel, by decide +kernel⟩
    | 1, _ => exact ⟨0x108, by decide +kernel, by unfold Unleased; decide +kernel, by decide +kernel⟩
    | 2, _ => exact ⟨0x110, by decide +kernel, by unfold Unleased; decide +kernel, by decide +kernel⟩
  · refine ⟨by unfold Drained; decide +kernel, by unfold Undisturbed; decide +kernel, by decide +kernel, by decide +kernel, ?_⟩
    intro i hi
    match i, hi with
    | 0, _ => exact ⟨0x120, by decide +kernel, by unfold Unleased; decide +kernel, by decide +kernel⟩
    | 1, _ => exact ⟨0x128, by decide +kernel, by unfold Unleased; decide +kernel, by decide +kernel⟩

/-- TablesLoad: an image that stands and loads, and one whose table the router holds already. -/
theorem witness_tables :
    let ts : List ImageTable := [{ head := (word (2 ^ 32 + 5), 0), gcore := 0, at_ := (own 0x100).toNat, entries := [entSend] }]
    let d := { sTab with cores := [(0, { core0 with tables := [{ id := 5, enc := false, kid := 0, entries := [], fresh := false }] }), (east, core0)] }
    FullAll sTab [1] ∧ ImageStands sTab 5 ts (own 0x100).toNat ∧ namesTable sTab 5 = true ∧ (sTab.core 0).hold = some sTab.curCtx ∧
    ((sTab.ctx 1).ttctl).getLsbD 16 = false ∧ loadStatus sTab 5 ts = (0, 0) ∧ loadStatus d 5 ts = (2, 0) ∧
    (∀ i ∈ [Instr.ttload 9 1, .ttloadK 9 1],
      nextIs (exec i sTab) (fun t => decide (t.th.rg 9 = 1) && decide ((t.core 0).tables.map (·.id) = [5])) = true ∧
      nextIs (exec i d) (fun t => decide (t.th.rg 9 = 2 * 2 ^ 60) && decide ((t.core 0).tables = (d.core 0).tables)) = true) := by
  refine ⟨by unfold FullAll; decide +kernel, ?_, ?_, ?_, ?_, ?_, ?_, ?_⟩
  · refine ⟨by decide +kernel, ?_, ?_⟩
    · exact sTab_reads _ _ (.inl ⟨by decide +kernel, by decide +kernel⟩)
    · exact sTab_reads _ _ (.inr ⟨by decide +kernel, by decide +kernel⟩)
  all_goals decide +kernel

/-- The launch of `sTab` with table 5 loaded on core 0 as `es`, its run `r`, and table 5 armed if `armed`. -/
def running (es : List Word) (r : Option Run) (armed : Bool) (w : Word) : State :=
  { sTab with
    threads := [(0, regs [w])]
    cores := [(0, { core0 with tables := [{ id := 5, enc := false, kid := 0, entries := es.map (fun e => (e, false)), fresh := false }], run := r }),
              (east, core0)]
    ctxs := [(1, { ctx1 with armed := if armed then some { id := 5, rep := false, gate := false } else none,
                             job := some { job1 with record := (List.replicate 32 0).set 7 5 } })] }

/-- A run of table 5 that has started. -/
def run5 : Run := { Run.fresh 5 .granted with started := true }

/-- TableOrders: the four orders, a post to a running and to an absent table, and the two traps. -/
theorem witness_orders :
    let is := [Instr.ttgoArm 1, .ttgoDisarm 1, .ttgoPost 1, .ttgoFree 1]
    let post : Word := word (2 ^ 63 + 9 * 2 ^ 48 + 8 * 2 ^ 32 + 5)
    namesTable (running [entSend] none true 5) 5 = true ∧ badTtgo (word (2 ^ 61 + 5)) = false ∧ badTtgo post = false ∧
    TakesS (running [entSend] none true (word (2 ^ 63 + 4 * 2 ^ 32 + 9 * 2 ^ 48 + 5))) ∧ FullAll (running [entSend] none true 5) [1] ∧
    (∀ i ∈ is,
      nextIs (exec i (running [entSend] none false (word (2 ^ 61 + 5)))) (fun t =>
        decide ((t.ctx 1).pendArm.map (·.next) = some (some { id := 5, rep := true, gate := false }))) = true ∧
      nextIs (exec i (running [entSend] none true (word (2 ^ 62 + 5)))) (fun t => decide ((t.ctx 1).pendArm.map (·.next) = some none)) = true ∧
      nextIs (exec i (running [entSend] none false (word (3 * 2 ^ 62 + 5)))) (fun t => decide ((t.ctx 1).pendFree = [5])) = true ∧
      nextIs (exec i (running [entSend] (some run5) true post)) (fun t => !t.th.fullG 9 &&
        decide ((t.core 0).run.map (fun r => r.posts.map (·.hoff)) = some [8])) = true ∧
      nextIs (exec i (running [entSend] none true post)) (fun t => decide (t.th.rg 9 = word (5 * 2 ^ 48 + 2 ^ 44))) = true ∧
      takes (running [entSend] none true (word (2 ^ 63 + 4 * 2 ^ 32 + 9 * 2 ^ 48 + 5))) i 3 (own 4) = true ∧
      takes (running [entSend] none true (word (3 * 2 ^ 62 + 5))) i 4 (word (3 * 2 ^ 62 + 5)) = true) := by
  refine ⟨?_, ?_, ?_, by unfold TakesS; decide +kernel, by unfold FullAll; decide +kernel, ?_⟩ <;> decide +kernel

/-- RoutersRun: the events of a router. -/
theorem witness_routerEvents :
    let s (r : Run) (es : List Word) : State := running es (some r) true 0
    let lost := { s run5 [entSend] with cores := [(0, { (s run5 [entSend]).core 0 with tables :=
      [{ id := 5, enc := true, kid := 3, entries := [(entRecv, false)], fresh := false }] }), (east, core0)] }
    let b : Beat := { core := 0, dir := 1, cycle := 1, data := 7, arrived := false }
    let w := { s { run5 with started := false } [entSend] with cy := 172 }
    (w.job 1).any (fun j => decide (j.phase = .running ∧ j.relCy = 0 ∧ startDelay w j = 172 ∧ j.living w = [w.modnum] ∧ j.root w = w.modnum)) = true ∧
    nextIs (exec (.tableStart 1) w) (fun t => decide ((t.core 0).run = some { run5 with startCy := 172 })) = true ∧
    nextIs (exec (.tableStart 1) { w with cy := 171 }) (fun t => decide ((t.core 0).run = (w.core 0).run)) = true ∧
    nextIs (exec (.debtArrival 0) (s { run5 with debtDue := [3, 0] } [entSend])) (fun t =>
      decide ((t.core 0).run.map (fun r => (r.debtDue, r.debt)) = some ([3], 1))) = true ∧
    nextIs (exec (.groupFire 0) (s { run5 with debtDue := [3, 0] } [entSend])) (fun t =>
      decide (t = s { run5 with debtDue := [3, 0] } [entSend])) = true ∧
    run5.debtHere = false ∧ inStep lost 0 run5 = true ∧ keyLost lost 0 = true ∧ (routerGroups lost 0).any (fun g => g.off = 0) = true ∧
    nextIs (exec (.tableStop 0) lost) (fun t => decide ((t.core 0).run.map (·.stopped) = some true) &&
      decide ((t.job 1).map (·.abortMask) = some 128)) = true ∧
    (routerGroups (s run5 [entRecv]) 0).any (fun g => decide (g.rx = some (1, false)) && decide (1 < g.off + g.rxBeats)) = true ∧
    nextIs (exec (.beatArrival 0 1) { s run5 [entRecv] with beats := [b] }) (fun t => decide (t.beats = [{ b with arrived := true }])) = true ∧
    nextIs (exec (.beatArrival 0 1) { running [entRecv] none true 0 with beats := [b] }) (fun t => decide (t.beats = [])) = true := by
  refine ⟨?_, ?_, ?_, ?_, ?_, ?_, ?_, ?_, ?_, ?_, ?_, ?_, ?_⟩ <;> decide +kernel

/-- RoutersRun: a cycle of debt, a send, a receive, and a reduce-and-forward whose beats are known. -/
theorem witness_groups :
    let s (es : List Word) (r : Run) (bs : List Beat) : State := { holding (running es (some r) true 0) 0 (List.replicate 64 3) with beats := bs }
    let b (k : Nat) : Beat := { core := 0, dir := 1, cycle := k, data := BitVec.ofNat 256 (2 ^ 256 / 255 * 2), arrived := true }
    let g := s [entRecv] run5 [b 0, b 1]
    let f := s [entSend] run5 []
    nextIs (exec (.groupFire 0) (s [entSend] { run5 with debt := 1 } [])) (fun t =>
      decide ((t.core 0).run.map (fun r => (r.debt, r.slip)) = some (0, 1))) = true ∧
    inStep f 0 run5 = true ∧ (routerGroups f 0).map (fun x => (x.off, x.shape, x.tx, x.txBeats, x.beats)) = [(0, .send, [1], 2, 2)] ∧
    (runTable f 0).all (fun t => decide (t.ecc = .sound)) = true ∧
    (match readyGroups f 0 1 run5 (routerGroups f 0) with | .inl u => decide (u = f) | _ => false) = true ∧ keyLost f 0 = false ∧
    meshNeighbour 0 1 = some east ∧ (f.core east).hold = some 1 ∧
    nextIs (exec (.groupFire 0) f) (fun t => decide (t.beats.map (fun x => (x.core, x.dir, x.cycle, x.data)) =
      [(east, 3, 2, BitVec.ofNat 256 (2 ^ 256 / 255 * 3))]) && decide ((t.core 0).run.map (·.clock) = some 1)) = true ∧
    (routerGroups g 0).map (fun x => (x.shape, x.rx, x.beats)) = [(.receive, some (1, false), 2)] ∧
    (routerGroups g 0).all (fun x => beatsKnown g 0 x 0) = true ∧
    nextIs (exec (.groupFire 0) g) (fun t => decide (t.readN (localAddr 0 0) 33 = List.replicate 32 2 ++ [3])) = true := by
  refine ⟨?_, ?_, ?_, ?_, ?_, ?_, ?_, ?_, ?_, ?_, ?_, ?_⟩ <;> decide +kernel

/-- RoutersRun: a reduce-and-forward of 2.0 and 2.0 from the east back to the east. -/
theorem witness_reduces :
    let w (x : Nat) : BitVec 256 := BitVec.ofNat 256 (2 ^ 256 / (2 ^ 32 - 1) * x)
    let s : State := { holding (running [entRecv, entSend + word (2 * 2 ^ 20)] (some run5) true 0) 0 ((List.replicate 16 [0, 0, 0, 0x40]).flatten) with
                       beats := [{ core := 0, dir := 1, cycle := 0, data := w 0x40000000, arrived := true }] }
    (routerGroups s 0).map (fun x => (x.off, x.shape, x.tx)) = [(0, .reduce, [1])] ∧
    (routerGroups s 0).map (fun x => (x.rx, x.op, x.txBeats)) = [(some (1, false), 0, 2)] ∧
    (routerGroups s 0).all (fun x => beatsKnown s 0 x 0) = true ∧
    nextIs (exec (.groupFire 0) s) (fun t => decide (t.beats.getLast?.map (fun x => (x.core, x.cycle, x.data)) = some (east, 2, w 0x40800000))) = true := by
  refine ⟨?_, ?_, ?_, ?_⟩ <;> decide +kernel

/-! ## Lending and power leave -/

/-- Core 0 of a lending launch that two granules of each core may be leased from. -/
def sLend : State :=
  { one (regs [0x600]) with
    cores := [(0, { core0 with lease := 2, idleCy := 32 })]
    ctxs := [(1, { ctx1 with job := some { job1 with record := (List.replicate 32 0).set 0 0x10 } })] }

/-- An owner's store waits for granule 10, which bank 8 leases where `leased`, with its backing area at the head of die memory. -/
def sWaits (leased : Bool) : State :=
  let l : Lease := { granules := if leased then [10] else [], gone := [], restored := [], fresh := [], hback := word (dieAddr 0 16384) }
  holding
    { sLend with threads := [(0, { th0 with sb := [{ far := false, ea := own 0xA000, cells := [(localAddr 0 0xA000, 1)] }] })],
                 cores := [(0, { core0 with lease := 2, idleCy := 32, leases := #v[l, l] })] } 0xA008 [9]

/-- CoresLend: an offer of the highest granules, both readings of HSTAT, an idle core, one that is not, and a granule an owner
waits for. -/
theorem witness_lending :
    let c := { sLend with cores := [(0, { core0 with lease := 2, idleCy := 32, recalled := true, offer := 0x200 })] }
    let b := { c with threads := [(9, { regs [] with st := .ready })], cur := 9 }
    let i := { c with threads := [] }
    FullAll sLend [1] ∧ coreLends sLend 0 = true ∧ (∀ n < 12, (0x600 : Word).getLsbD n = true → leasable (sLend.core 0) n = true) ∧
    leasable (sLend.core 0) 8 = false ∧ takes (sLend.modThread 0 (fun th => th.wg 1 0x100)) (.hoffer 1) 4 0x100 = true ∧
    takes (one (regs [0x600])) (.hoffer 1) 4 0 = true ∧
    nextIs (exec (.hoffer 1) sLend) (fun t => decide ((t.core 0).offer = 0x600) && decide (t.th.pc = 0x10004)) = true ∧
    gives c (.hstat 3, word (2 ^ 43 + 0x200)) = true ∧ gives sLend (.hstat 3, 0) = true ∧
    (sLend.core 0).held = [] ∧ ((sLend.core 0).leases.get (bankIdx 0)).gone = [] ∧ ((sLend.core 0).leases.get (bankIdx 0)).granules = [] ∧
    8 ≤ b.curSlot ∧ nextIs (exec (.hstat 3) b) (fun t => decide (wfld (t.th.rg 3) 43 1 = 1)) = true ∧
    ownerReady i 0 = false ∧ 32 ≤ (i.core 0).idleCy ∧ nextIs (exec (.lendingResume 0) i) (fun t => !(t.core 0).recalled) = true ∧
    ownerReady c 0 = true ∧ nextIs (exec (.lendingResume 0) c) (fun t => (t.core 0).recalled) = true := by
  refine ⟨by unfold FullAll; decide +kernel, ?_, ?_, ?_, ?_, ?_, ?_, ?_, ?_, ?_, ?_, ?_, ?_, ?_, ?_, ?_, ?_, ?_, ?_⟩ <;> decide +kernel

/-- The same after the first `n` lines of the leased granule are taken back. -/
def takenBack (n : Nat) : State :=
  { sWaits true with
    mem := if n = 0 then (sWaits true).mem else [(dieAddr 0 16384 + 8, 9)]
    dies := if n = 0 then [] else [(0, Die.reset)]
    cores := [(0, { (sWaits true).core 0 with
      pool := (List.range n).map (fun k => { line := 0xA000 + 64 * k, writer := 0, data := if k = 0 then 9 * 2 ^ 64 else 0 }) })] }

theorem takenBack_line : ∀ n < 64, reclaimLine (takenBack n) 0 8 0 (10 * 4096 + 64 * n) false true = some (takenBack (n + 1)) := by
  decide +kernel

theorem takenBack_lines (n : Nat) (h : n ≤ 64) :
    (List.range n).foldl (fun acc i => acc.bind (fun s => reclaimLine s 0 8 0 (10 * 4096 + 64 * i) false true)) (some (sWaits true)) =
      some (takenBack n) := by
  induction n with
  | zero => exact congrArg some (by decide +kernel)
  | succ n ih =>
    rw [List.range_succ, List.foldl_append, ih (by omega)]
    exact takenBack_line n (by omega)

/-- CoresLend: a leased granule can be taken back whole. -/
theorem witness_takenBack : (reclaim (sWaits true) 0 10).isSome = true := by
  unfold reclaim
  rw [show leaseOf (sWaits true) 0 10 = some (8, 0, false) by decide +kernel]
  simp only [show granulePending (sWaits true) 0 10 = false by decide +kernel, Bool.false_eq_true, if_false, granuleLines,
    takenBack_lines 64 (Nat.le_refl _)]
  rw [if_neg (by decide +kernel)]
  rfl

/-- CoresLend: a granule that is not leased, one that is, and one whose lines an engine has still to write. -/
theorem witness_reclaims :
    let p := { sWaits true with owned := [{ op := 1, line := localAddr 0 0xA000, nxt := false, ctx := 2, die := 0 }] }
    ownerWaits (sWaits false) 0 10 = true ∧ ownerWaits (sWaits true) 0 10 = true ∧ Unleased (sWaits false) 0 10 ∧
    nextIs (exec (.granuleReclaim 0 10) (sWaits false)) (fun t => decide (t = sWaits false)) = true ∧
    leaseOf (sWaits true) 0 10 = some (8, 0, false) ∧ ReclaimRoom (sWaits true) 0 8 ∧
    reclaim p 0 10 = none ∧ nextIs (exec (.granuleReclaim 0 10) p) (fun t => decide (t = p)) = true := by
  refine ⟨?_, ?_, by unfold Unleased; decide +kernel, ?_, ?_, by unfold ReclaimRoom; decide +kernel, ?_, ?_⟩ <;> decide +kernel

/-- PowerLeave: requests of 0, of the most that may stand, and of one more; a release; a grant; an emergency. -/
theorem witness_leave :
    let s := one (regs [0, 720, 721, 65536])
    let x := { s with ctxs := [(1, { ctx1 with dies := [(0, { DieCtx.zero with resv := 9, resvUsed := 2 })] })], dies := [(0, { Die.reset with used := 9 })] }
    let r : LeaveReq := { what := .leave 0 0 3, ctx := 1, prio := 0, cost := 720, since := 0 }
    let q := { s with dies := [(0, { Die.reset with leaveq := [r], used := 720 })] }
    FullAll s [1, 2, 3, 4] ∧ TakesS s ∧ leaveWaiting s 0 1 = 0 ∧ gives s (.leave 3 1, 0) = true ∧
    nextIs (exec (.leave 9 2) s) (fun t => decide ((t.die 0).leaveq.map (·.cost) = [720]) && !t.th.fullG 9) = true ∧
    takes s (.leave 9 3) 4 721 = true ∧ takes s (.leave 9 4) 4 65536 = true ∧
    nextIs (exec (.leaveRel 2) x) (fun t => decide ((t.dctx 0 1).resv = 2) && decide ((t.die 0).used = 2)) = true ∧
    (q.die 0).used + r.cost ≤ (q.die 0).budget ∧
    nextIs (exec (.leaveGrant 0) q) (fun t => decide ((t.die 0).used = 1440) && decide ((t.thread 0).rg 3 = 720)) = true ∧
    nextIs (exec (.thermalEmergency 23 true) s) (fun t => (t.die 23).emg && !(t.die 0).emg) = true := by
  refine ⟨by unfold FullAll; decide +kernel, by unfold TakesS; decide +kernel, ?_, ?_, ?_, ?_, ?_, ?_, ?_, ?_, ?_⟩ <;> decide +kernel

/-! ## The amplitude engine -/

/-- A state of one page (FP64) or two (FP32) a leaf, `m` module bits, owned by core 0. -/
def amp0 (dbl : Bool) (m : Nat) : Amp :=
  { Amp.zero with qcfg := word (2 ^ 63 + bit dbl * 2 ^ 62 + m * 2 ^ 44 + bit (!dbl) * 2 ^ 36), qleaf := word (16 * 2 ^ 32 + 1) }

/-- g1 points at a one-qubit block, g2 and g3 name target 0 and no control, g4 and g5 the highest qubit, g6 the pair (0, highest). -/
def sAmp (dbl : Bool) (m : Nat) : State :=
  let n := (amp0 dbl m).n - 1
  holding { one (regs [own 0, 0, 0, word n, word n, word (n * 256), 5]) with ctxs := [(1, { ctx1 with amp := amp0 dbl m })] } 0
    (bytesOf 8 (1 + 8 * bit dbl))

/-- An FP64 state of two pages a leaf. -/
def sDbl : State :=
  { sAmp true 0 with ctxs := [(1, { ctx1 with amp := { amp0 true 0 with qcfg := (amp0 true 0).qcfg + word (2 ^ 36) } })] }

/-- One entry at the end of the queue, for g9. -/
def queuedOne (s : State) (i : Instr) : Bool :=
  nextIs (exec i s) (fun t => decide ((t.ctx 1).amp.queue.map (fun e => (e.d, e.first)) = [(9, true)]) && !t.th.fullG 9 && decide (t.th.pc = 0x10004))

/-- AmplitudePassesQueue: both formats; a gate on a local qubit, one that QGATE.AUTO swaps, the last qubit, and module bits. -/
theorem witness_amplitudes :
    (∀ dbl ∈ [false, true],
      let s := sAmp dbl 0
      let x := (s.ctx s.curCtx).amp
      (s.die s.curDie).capAmp64 = true ∧ s.curSlot < 8 ∧ s.curCore = x.own ∧ x.valid = true ∧ x.transit = none ∧ x.permuted = true ∧
      dbl = x.dbl ∧ x.queue.length < 8 ∧ s.th.vectorMem = false ∧ s.th.sb = [] ∧ s.th.vectorDraws = false ∧
      s.readWord (localAddr 0 0) = word (1 + 8 * bit dbl) ∧ s.readWord (localAddr 0 8) = 0 ∧
      ownRange s .read (own 0) (16 + 4 * x.size) = true ∧ badGate x 0 0 1 = false ∧ x.bitOf 0 < x.lbits ∧
      (s.th.rg 4).toNat < x.n ∧ x.n ≤ (s.th.rg 4).toNat + 1 ∧
      queuedOne s (if dbl then .qgateD 9 1 2 else .qgate 9 1 2) = true ∧
      queuedOne s (if dbl then .qgateAutoD 9 1 2 else .qgateAuto 9 1 2) = true ∧
      queuedOne s (if dbl then .qprobD 9 4 else .qprob 9 4) = true ∧ queuedOne s (if dbl then .qnormD 9 else .qnorm 9) = true ∧
      queuedOne s (if dbl then .qsampD 9 7 else .qsamp 9 7) = true) ∧
    (let s := (sAmp false 0).modThread 0 (fun th => th.wg 2 13)
     let x := (s.ctx 1).amp
     x.lbits ≤ x.bitOf 13 ∧ x.bitOf 13 < x.inner ∧ (x.bitOf 0 < x.lbits ↔ ¬ x.bitOf 13 < x.lbits) ∧
     nextIs (exec (.qgateAuto 9 1 2) s) (fun t => decide ((t.ctx 1).amp.bitOf 13 = 13) &&
       decide ((t.ctx 1).amp.queue.map (·.kind) = [.gate 1 [0, 0, 0, 0, 0, 0, 0, 0] [13] [] 0 true])) = true ∧
     nextIs (exec (.qswap 9 6) s) (fun t => decide ((t.ctx 1).amp.bitOf 13 = 13) &&
       decide ((t.ctx 1).amp.queue.map (·.kind) = [.swap 0 13 0 13 none])) = true) ∧
    nextIs (exec (.qswapD 9 6) (sDbl.modThread 0 (fun th => th.wg 6 (word (12 * 256))))) (fun t =>
      decide ((t.ctx 1).amp.queue.map (·.kind) = [.swap 0 12 0 12 none])) = true ∧
    nextIs (exec (.qswap 9 6) (sAmp false 1)) (fun t => decide ((t.ctx 1).amp.transit = some (0, 14)) &&
      decide ((t.ctx 1).amp.queue.map (·.kind) = [.swap 0 14 0 14 (partnerOf (sAmp false 1) (amp0 false 1) 14)])) = true ∧
    nextIs (exec (.qnorm 9) (sAmp false 1)) (fun t => t.th.ramo.getLsbD 9) = true := by
  refine ⟨?_, ⟨?_, ?_, ?_, ?_, ?_⟩, ?_, ?_, ?_⟩ <;> decide +kernel

theorem witness_amplitudes_full :
    FullAll (sAmp false 0) [1, 2, 2 + 1, 4, 6, 7] ∧ FullAll (sAmp true 0) [1, 2, 2 + 1, 4, 6, 7] ∧
    (∃ bs, ownBytes (sAmp false 0) (own 0).toNat 48 = .bytes (sAmp false 0) bs) := by
  refine ⟨by unfold FullAll; decide +kernel, by unfold FullAll; decide +kernel, ⟨1 :: List.replicate 47 0, bytes_of (by decide +kernel)⟩⟩

/-- AmplitudesChange: entries of each kind that may run, a half awaited, and a partner that has not answered. -/
theorem witness_passes :
    let e (k : AmpKind) : AmpEntry := { core := 0, slot := 0, d := 9, kind := k, first := true, leave := [(0, .granted)], sent := none, accepted := [] }
    let s (m : Nat) (x : AmpEntry) : State := { sAmp false m with ctxs := [(1, { ctx1 with amp := { amp0 false m with queue := [x] } })] }
    let w := { amp0 false 1 with transit := some (0, 14), awaited := 2, peer := some 5 }
    let p := { s 1 { e (.swap 0 14 0 14 (some 5)) with sent := some 0 } with time := 50000 }
    (∀ k ∈ [AmpKind.gate 1 [] [0] [] 0 false, .swap 0 13 0 13 none, .sum none, .sample 1 5],
      (ampHeads (s 0 (e k)) 0).find? (fun x => ampMayRun x.2.1 x.2.2 && x.2.1.accepts (s 0 (e k))) = some (1, ((s 0 (e k)).ctx 1).amp, e k)) ∧
    (amp0 false 0).frame true + 2 ^ (amp0 false 0).pg ≤ 2 ^ 20 ∧ (amp0 false 0).sb + 2 ^ (amp0 false 0).sbits ≤ 16 ∧
    13 < (amp0 false 0).inner ∧ (amp0 false 0).mbits = 0 ∧ w.awaited ≠ 0 ∧ 1 < w.pages ∧
    (({ sAmp false 1 with ctxs := [(1, { ctx1 with amp := w })] } : State).ctxs.find? (fun c => decide (dieOf c.2.amp.own = 0) && c.2.amp.transit.isSome)).isSome = true ∧
    (ampHeads p 0).find? (fun x => match x.2.2.sent with | some t => decide (t + 50000 ≤ p.time) | none => false) =
      some (1, (p.ctx 1).amp, { e (.swap 0 14 0 14 (some 5)) with sent := some 0 }) ∧
    nextIs (exec (.partnerTimeout 0) p) (fun t => decide (t.th.rg 9 = word (3 * 2 ^ 44 + 2)) &&
      decide ((t.job 1).map (·.abortMask) = some 128)) = true := by
  refine ⟨?_, ?_, ?_, ?_, ?_, ?_, ?_, ?_, ?_, ?_⟩ <;> decide +kernel

/-! ## System registers, traps and control cores -/

/-- SystemRegisterAccess: reads and writes in the lowest mode and above it, waits, and refused numbers. -/
theorem witness_system :
    let m (x : Mode) : State := one { regs [0x7FF, 0] with mode := x, strap := { TrapRegs.zero with scr := 7 } }
    let e := ventry (.cvt 12 true) 8
    let v := one { th0 with seq := { Seq.empty with items := [.entry e] } }
    TakesS (m .u) ∧ FullAll (m .u) [1, 2] ∧ FullAll (m .s) [1] ∧ FullAll (m .m) [1] ∧ v.th.vectorBusy = true ∧ v.th.vectorDraws = true ∧
    gives (m .u) (.sysr 3 0x002, 0x9E3779B9) = true ∧ gives (m .s) (.sysr 3 0x045, 7) = true ∧ gives (m .u) (.sysr 3 0x188, 0) = true ∧
    (∀ n ∈ [(0x001 : BitVec 11), 0x002], nextIs (exec (.sysr 3 n) v) (fun t => decide (t = v)) = true) ∧
    takes (m .u) (.sysr 3 0x045) 2 0 = true ∧ takes (m .s) (.sysr 3 0x080) 2 0 = true ∧ sysModes 0x7FF = none ∧
    takes (m .u) (.sysr 3 0x7FF) 1 0 = true ∧
    nextIs (exec (.sysw 0x002 2) (m .u)) (fun t => decide (t.th.prng = 0x9E3779B9)) = true ∧
    nextIs (exec (.sysw 0x041 1) (m .s)) (fun t => decide (t.th.strap.epc = 0x7FE)) = true ∧
    nextIs (exec (.sysw 0x082 1) (m .m)) (fun t => decide (t.th.mtrap.cause = 0x7FF)) = true ∧
    nextIs (exec (.sysw 0x044 1) (m .s)) (fun t => decide ((t.ctx 1).tvec = 0x7FE)) = true ∧
    takes (m .u) (.sysw 0x041 1) 2 0 = true ∧ takes (m .u) (.sysw 0x003 1) 1 0 = true ∧ takes (m .u) (.sysw 0x7FF 1) 1 0 = true ∧
    v.th.vectorQueued = true ∧ FullAll v [1] ∧ (∀ n ∈ [(0x001 : BitVec 11), 0x002], nextIs (exec (.sysw n 1) v) (fun t => decide (t = v)) = true) ∧
    nextIs (exec (.sysw 0x00B 1) (m .s)) (fun t => decide ((t.ctx 1).ttctl = 0x7FF)) = true ∧
    nextIs (exec (.sysw 0x04B 1) (m .s)) (fun t => decide ((t.dctx 0 1).tqbase = 0x600)) = true ∧
    nextIs (exec (.sysw 0x08A 1) (m .m)) (fun t => decide ((t.die 0).budget = 0)) = true := by
  refine ⟨by unfold TakesS; decide +kernel, by unfold FullAll; decide +kernel, by unfold FullAll; decide +kernel,
    by unfold FullAll; decide +kernel, ?_, ?_, ?_, ?_, ?_, ?_, ?_, ?_, ?_, ?_, ?_, ?_, ?_, ?_, ?_, ?_, ?_, ?_,
    by unfold FullAll; decide +kernel, ?_, ?_, ?_, ?_⟩ <;> decide +kernel

/-- TrapsAndWaits: each mode, and WFI with and without a queue entry. -/
theorem witness_traps :
    let m (x : Mode) : State := one { th0 with mode := x }
    TakesS (m .u) ∧ TakesS (m .s) ∧ ((m .u).ctx 1).dbgBh = false ∧ (m .s).th.mtrap.st = false ∧ isControl (m .s).curCore = false ∧
    takes (m .u) .brk 14 0 = true ∧ takes (m .u) .trap 15 0 = true ∧ takes (m .u) .wfi 2 0 = true ∧
    nextIs (exec .trap (m .u)) (fun t => decide (t.th.strap.epc = 0x10004)) = true ∧
    nextIs (exec .trap (m .s)) (fun t => decide (t.th.mode = .m) && decide (t.th.mtrap.epc = 0x10004) && decide (t.th.mtrap.cause = 15)) = true ∧
    nextIs (exec .wfi (m .s)) (fun t => decide (t.th.wait = .wfi) && decide (t.th.parkNpc = 0x10004)) = true ∧
    nextIs (exec .wfi (one ({ th0 with mode := .m }.setQueue 3 [1]))) (fun t => decide (t.th.pc = 0x10004)) = true ∧
    nextIs (exec .wfi (one { th0 with mode := .m, pendRM := [1] })) (fun t => decide (t.th.pc = 0x10004)) = true := by
  refine ⟨by unfold TakesS; decide +kernel, by unfold TakesS; decide +kernel, ?_, ?_, ?_, ?_, ?_, ?_, ?_, ?_, ?_, ?_, ?_⟩ <;> decide +kernel

/-- ControlCoreActs: an event at the core of die 23, a held image, INJECT disarmed and armed, and REPORT's area. -/
theorem witness_control :
    let c := tid (numGcores + 23) 0
    let s := { one th0 with threads := [(c, { Thread.control with st := .parked, wait := .wfi, parkNpc := 0x104 })],
                            dies := [(23, { Die.reset with events := [{ ctx := 1, ssno := 5, code := 13 }] })] }
    let h := one { th0 with image := some { seq := Seq.empty, lc := Vector.replicate 2 LoopReg.zero } }
    let i (arm : Bool) : State := { one { regs [own 0x40] with mode := .m } with dies := [(0, { Die.reset with injArm := arm, injKind := 2 })] }
    let r := { one { regs [BitVec.ofNat 64 (dieAddr 0 16384)] with mode := .m } with mem := [(dieAddr 0 16384, 1)] }
    (s.thread c).wait = .wfi ∧ (s.thread c).mode = .m ∧ (s.thread c).strap.st = false ∧
    nextIs (exec (.jobEventEntry 23) s) (fun t => decide ((t.thread c).mode = .s) && decide ((t.thread c).strap.epc = 0x104) &&
      decide ((t.die 23).jevt = word (2 ^ 48 + 5)) && decide ((t.die 23).events = [])) = true ∧
    nextIs (exec (.vtrapHeldClear 0 0) h) (fun t => decide ((t.thread 0).image = none)) = true ∧
    FullAll (i true) [1] ∧ (i true).th.sb = [] ∧ (i true).ecc = [] ∧ checkAccess (i true) 0 0 .m 1 .write (own 0x40).toNat = .ok (.own 0x40) ∧
    lineBusy (i true) 0 1 (localAddr 0 0x40) = false ∧ (match takePre (i true) 0 (.own 0x40) with | .taken _ => true | _ => false) = true ∧
    nextIs (exec (.inject 1) (i false)) (fun t => decide (t.ecc = []) && decide (t.th.pc = 0x10004)) = true ∧
    nextIs (exec (.inject 1) (i true)) (fun t => decide (t.ecc = [{ die := 0, ctx := 1, loc := localAddr 0 0x40, unc := true }]) &&
      !(t.die 0).injArm) = true ∧
    TakesS (one (regs [0])) ∧ takes (one (regs [0])) (.inject 1) 2 0 = true ∧ takes (one (regs [0])) (.report 1) 2 0 = true ∧
    dieAddr 0 16384 % 2048 = 0 ∧ reportArea r 0 (dieAddr 0 16384) = true ∧ wfld (r.readWord (dieAddr 0 16384)) 18 46 = 0 ∧
    (r.ctx (wfld (r.readWord (dieAddr 0 16384)) 0 16)).live = true ∧ Drained r ∧ Undisturbed r ∧
    checkAccess r 0 0 .m 1 .read (dieAddr 0 16384) = .ok (.die (dieAddr 0 16384)) := by
  refine ⟨?_, ?_, ?_, ?_, ?_, by unfold FullAll; decide +kernel, ?_, ?_, ?_, ?_, ?_, ?_, ?_, by unfold TakesS; decide +kernel, ?_, ?_, ?_, ?_, ?_, ?_,
    by unfold Drained; decide +kernel, by unfold Undisturbed; decide +kernel, ?_⟩
    <;> decide +kernel

/-! ## The shutter, release and the debugger -/

/-- The launch of context 1 changed, with its one thread in slot 0 arrived. -/
def launch (f : Job → Job) : State :=
  { one { th0 with st := .arrived } with ctxs := [(1, { ctx1 with job := some (f job1) })] }

/-- DecisionsTaken: no decision open, votes off and on the root, pre-emption alone, a thread not arrived, a commit, a sweep. -/
theorem witness_decisions :
    let vote (m : BitVec 8) (ms : List Nat) : State := launch (fun j => { j with abortMask := m, streak := 2, modules := ms })
    let run : State := { launch id with threads := [(0, th0)] }
    let x : State := launch (fun j => { j with votes := [word (2 ^ 45 + 2 ^ 32 + 5), word (2 ^ 45 + 2 ^ 32 + 6)] })
    let q : State := launch (fun j => { j with sweeps := 1, sweepSent := 4, sent := 2, received := 2 })
    isRoot (vote 1 [5, 0xFFF]) (((vote 1 [5, 0xFFF]).job 1).getD job1) = false ∧ isRoot (launch id) job1 = true ∧ job1.open_ = true ∧
    ({ job1 with phase := .decided }).open_ = false ∧
    nextIs (exec (.shutterDecision 1) (launch (fun j => { j with phase := .decided }))) (fun t => decide ((t.job 1).map (·.phase) = some .decided)) = true ∧
    nextIs (exec (.shutterDecision 1) (vote 1 [5, 0xFFF])) (fun t => decide (t.linkOut = [(5, .vote 1 1)]) &&
      decide ((t.job 1).map (·.abortMask) = some 0)) = true ∧
    nextIs (exec (.shutterDecision 1) (vote 0x81 [0xFFF])) (fun t => decide ((t.job 1).map (·.streak) = some 3) && decide ((t.ctx 1).lastCause = 0x81)) = true ∧
    nextIs (exec (.shutterDecision 1) (vote 0x40 [0xFFF])) (fun t => decide ((t.job 1).map (·.streak) = some 2)) = true ∧
    mayCommit run 1 job1 = false ∧ mayCommit x 1 ((x.job 1).getD job1) = true ∧ granulesReached x 1 = [] ∧
    resultWord [word (2 ^ 45 + 2 ^ 32 + 5), word (2 ^ 45 + 2 ^ 32 + 6)] false = word (2 ^ 40 + 11) ∧
    localReady q 1 ((q.job 1).getD job1) = true ∧ sweepHolds q 1 ((q.job 1).getD job1) = true ∧
    nextIs (exec (.quiescenceSweep 1) q) (fun t => decide ((t.job 1).map (·.sweeps) = some 2)) = true := by
  refine ⟨?_, ?_, ?_, ?_, ?_, ?_, ?_, ?_, ?_, ?_, ?_, ?_, ?_, ?_, ?_⟩ <;> decide +kernel

/-- A launch that has decided, with the record of slot 0 valid at PC 0x20000. -/
def decided : State :=
  (launch (fun j => { j with phase := .decided })).writeN (localAddr 0 0xB800) (bytesOf 8 0x20000 ++ bytesOf 8 1)

/-- ReleasesAndTime: a release due, with a slot whose record is valid, and none due. -/
theorem witness_release :
    (let j := { job1 with phase := .decided }
     decided.job 1 = some j ∧ isRoot decided j = true ∧ allComplete decided j = true ∧ j.member = none ∧ decided.ecc = [] ∧
     (0, 0) ∈ jobSlots decided 1 ∧ (decided.thread (tid 0 0)).began = false ∧ recordValid decided 0 0 = true ∧
     nextIs (exec (.release 1) decided) (fun t => decide (t.th.st = .ready) && decide (t.th.pc = 0x20000)) = true) ∧
    (∀ d, (decided.dctx d 1).trEn = 0) ∧ nextIs (exec (.release 1) (launch id)) (fun t => decide (t = launch id)) = true := by
  refine ⟨⟨?_, ?_, ?_, ?_, ?_, ?_, ?_, ?_, ?_⟩, fun d => rfl, ?_⟩ <;> decide +kernel

/-- ShutterControls: every clause's launch. -/
theorem witness_controls :
    let m (n : Nat) : State := { launch (fun j => { j with pend := true, record := (List.replicate 32 0).set 12 1 }) with time := n }
    let p (x : Phase) : State := launch (fun j => { j with phase := x, pend := true, streak := 2 })
    let h : State := { p .halted with threads := [(0, { th0 with st := .halted, began := true })],
                                      ctxs := [(1, { ctx1 with dbgHlt := true, dbgsel := BitVec.ofNat 32 (0xFFF * 2 ^ 17),
                                                               job := some { job1 with phase := .halted, stepped := true } })] }
    let f : State := { p .halted with ctxs := [(1, { ctx1 with dbgsel := BitVec.ofNat 32 (5 * 2 ^ 17), job := some { job1 with phase := .halted, modules := [5, 0xFFF] } })] }
    nextIs (exec (.ssctlVote 0 1) (launch id)) (fun t => decide ((t.job 1).map (·.abortMask) = some 0x80)) = true ∧
    nextIs (exec (.maxssExpiry 1) (m 1001)) (fun t => decide ((t.job 1).map (·.abortMask) = some 0x40)) = true ∧
    nextIs (exec (.maxssExpiry 1) (m 1000)) (fun t => decide ((t.job 1).map (·.abortMask) = some 0)) = true ∧
    nextIs (exec (.ssctlPre 1) (p .escalated)) (fun t => decide ((t.job 1).map (·.phase) = some .stopping)) = true ∧
    nextIs (exec (.dbgctlHalt 1) (launch id)) (fun t => decide ((t.job 1).map (·.haltReq) = some true)) = true ∧
    nextIs (exec (.dbgctlRun 1) h) (fun t => decide ((t.job 1).map (·.phase) = some .decided) && !(t.ctx 1).dbgHlt) = true ∧
    nextIs (exec (.ssctlKill 1) (p .escalated)) (fun t => decide (t.job 1 = none)) = true ∧
    nextIs (exec (.ssctlKill 1) (launch id)) (fun t => decide ((t.job 1).isSome)) = true ∧
    nextIs (exec (.ssctlRetry 1) (p .escalated)) (fun t => decide ((t.job 1).map (·.streak) = some 0)) = true ∧
    isHarvest (p .stopping) 1 = false ∧ ((p .stopping).job 1).map (·.closing) = some none ∧ nextLeft (p .stopping) 1 = false ∧ allComplete (p .stopping) (((p .stopping).job 1).getD job1) = true ∧
    recImage job1.record = 0 ∧ nextIs (exec (.preemptionStop 1) (p .stopping)) (fun t => decide (t.job 1 = none)) = true ∧
    selected h 1 = some 0 ∧ selected (p .halted) 1 = none ∧ (h.thread 0).st = .halted ∧ (h.thread 0).began = true ∧
    nextIs (exec (.dbgctlStep 1) h) (fun t => decide (t.th.st = .ready) && decide ((t.ctx 1).dbgStep = some 0)) = true ∧
    selectedModule (p .halted) 1 (((p .halted).job 1).getD job1) = none ∧
    nextIs (exec (.dbgctlStep 1) (p .halted)) (fun t => decide ((t.ctx 1).dbgSt = 0)) = true ∧
    selected f 1 = none ∧ selectedModule f 1 ((f.job 1).getD job1) = some 5 ∧
    nextIs (exec (.dbgctlStep 1) f) (fun t => decide (t.linkOut = [(5, .debugStep 1 (BitVec.ofNat 32 (5 * 2 ^ 17)) 0xFFF)])) = true := by
  refine ⟨?_, ?_, ?_, ?_, ?_, ?_, ?_, ?_, ?_, ?_, ?_, ?_, ?_, ?_, ?_, ?_, ?_, ?_, ?_, ?_, ?_, ?_, ?_, ?_, ?_⟩ <;> decide +kernel

/-! ## Securing, time, wipes and lives -/

/-- A secure launch with no cores here, whose seal is due, with regions of `nf` × 256 frames at frame 5. -/
def secured (nf : Nat) : State :=
  { one th0 with
    threads := []
    ctxs := [(1, { ctx1 with sv := { Sv.reset with bst := 1, buddy := 7 },
                             job := some { job1 with phase := .securing, record := (List.replicate 32 0).set 11 (word (2 ^ 63 + nf * 2 ^ 20 + 5)) } })] }

/-- SecuresAndFailures: a seal that fits, one that does not, one of a launch that does not secure, buddies, a failure, fills. -/
theorem witness_secures :
    let j := ((secured 1).job 1).getD job1
    let plain : State := launch (fun j => { j with phase := .securing })
    let two : State := { launch (fun j => { j with modules := [5, 0xFFF] }) with cy := 165000 }
    let early : State := { two with cy := 164999 }
    let leaf : State := launch (fun j => { j with modules := [5, 0xFFF] })
    let fill (v : Sv) : State :=
      { launch id with modnum := 2, failedModules := [3],
                       ctxs := [(1, { ctx1 with sv := v, secWords := [(3, 0x500006)],
                                                job := some { job1 with phase := .filling, modules := [2, 3, 16] } })] }
    secureEn j = true ∧ j.seals = [] ∧ isRoot (secured 1) j = true ∧ j.living (secured 1) = [(secured 1).modnum] ∧
    (secureImage (secured 1) 1 j 1 false).length = 2 ∧ 2 ≤ 16 * (wfld (secureWord j) 20 12 * 256) ∧
    (secureImage (secured 0) 1 (((secured 0).job 1).getD job1) 1 false).length = 2 ∧
    16 * (wfld (secureWord (((secured 0).job 1).getD job1)) 20 12 * 256) < 2 ∧
    secureEn (((plain).job 1).getD job1) = false ∧
    nextIs (exec (.secureSealed 1) plain) (fun t => decide (t.linkOut = [])) = true ∧
    nextIs (exec (.svctlBw 1 3) (secured 1)) (fun t => decide ((t.ctx 1).sv.bst = 4) && decide (t.linkOut = [(3, .feedRequest 1 0xFFF 5 1)])) = true ∧
    nextIs (exec (.svctlBw 1 3) { one th0 with ctxs := [] }) (fun t => decide ((t.ctx 1).sv.asked = 3) && decide ((t.ctx 1).sv.buddy = Sv.reset.buddy)) = true ∧
    nextIs (exec (.svctlNow 1) (secured 1)) (fun t => (t.ctx 1).sv.now) = true ∧
    two.ctxs = [(1, two.ctx 1)] ∧ nextIs (exec (.moduleFailed 5) two) (fun t => decide ((t.job 1).map (·.abortMask) = some 8)) = true ∧
    nextIs (exec (.moduleFailed 0xFFF) two) (fun t => decide (t = two)) = true ∧
    nextIs (exec (.moduleFailed 5) early) (fun t => decide (t = early)) = true ∧ isHarvest (fill Sv.reset) 1 = false ∧
    isRoot leaf ((leaf.job 1).getD job1) = false ∧
    nextIs (exec (.svctlNow 1) leaf) (fun t => decide (t.linkOut = [(5, .secureNow 1)]) && !(t.ctx 1).sv.now) = true ∧
    lostModule (fill { Sv.reset with spare := 9 }) 1 (((fill Sv.reset).job 1).getD job1) = some (3, 0x500006) ∧
    nextIs (exec (.spareFill 1) (fill { Sv.reset with spare := 9 })) (fun t => decide (t.job 1 = none)) = true ∧
    (let f := fill { Sv.reset with home := 7, valid := true, spare := 9 }
     isRoot f ((f.job 1).getD job1) = true ∧ ((f.job 1).getD job1).living f = [2, 16] ∧ 9 ∉ f.failedModules ∧ 7 ∉ f.failedModules) := by
  refine ⟨?_, ?_, ?_, ?_, ?_, ?_, ?_, ?_, ?_, ?_, ?_, ?_, ?_, ?_, ?_, ?_, ?_, ?_, ?_, ?_, ?_, ?_, ?_⟩ <;> decide +kernel

/-- ReleasesAndTime: a thread parked for good, one cycle before and at 10,000. -/
theorem witness_hang :
    let s (n : Nat) : State :=
      { one { th0 with st := .parked, wait := .wfi } with ctxs := [(1, { ctx1 with job := some { job1 with stuckCy := n } })] }
    stuck (s 10000) 1 { job1 with stuckCy := 10000 } = true ∧
    nextIs (exec (.hang 1) (s 10000)) (fun t => decide ((t.die 0).events = [{ ctx := 1, ssno := 0, code := 13 }]) && decide ((t.die 0).devt = 8)) = true ∧
    nextIs (exec (.hang 1) (s 9999)) (fun t => decide ((t.die 0).events = [])) = true ∧
    nextIs (exec (.timeCarry 7) { s 0 with time := 9 }) (fun t => decide (t.time = 9) && decide (t.timeAhead = 2)) = true := by
  refine ⟨?_, ?_, ?_, ?_⟩ <;> decide +kernel

/-- WipesAndResets: the last core and frame, both ends of an allotment, ids, and dies healthy and retired. -/
theorem witness_wipes :
    let w := { State.reset with cores := [(6143, { Core.reset with wipe := true })], mem := [(localAddr 6143 (localBytes - 1), 1)] }
    let f := (setFrame State.reset 15 732164 3 true 1).writeN (15 * 2 ^ 36 + 732164 * 65536) [1]
    let n := setAnchor (setNext (setFrame State.reset 15 732164 1 true 1) 15 732164 5) 15 (anchorIndex 1 0) (some 732164)
    let m := { State.reset with ctxs := [(1, { Ctx.reset with live := true, dies := [(5, { DieCtx.zero with dmBase := 1, dmSize := 8191 })] })],
                                mem := [(dieAddr 5 16384, 1)] }
    let d := { launch id with dies := [(3, { Die.reset with healthy := false })] }
    (w.core 6143).wipe = true ∧ bankSeated w 6143 = false ∧
    nextIs (exec (.localStoreWipe 6143) w) (fun t => !(t.core 6143).wipe && decide (t.mem = [])) = true ∧
    (f.readWord (invAt 15 732164)).getLsbD 59 = true ∧
    nextIs (exec (.frameWipe (15 * 2 ^ 20 + 732164)) f) (fun t => decide (t.mem = [])) = true ∧
    (let i := anchorIndex (frameCtx n 15 732164) (frameVpn n 15 732164)
     (n.readWord (invAt 15 732164)).getLsbD 59 = true ∧ frameKind n 15 732164 = 1 ∧ anchorHead n 15 i = some 732164 ∧
     frameNext n 15 732164 = 5 ∧
     nextIs (exec (.frameWipe (15 * 2 ^ 20 + 732164)) n) (fun t => decide (anchorHead t 15 i = some 5) && decide (frameKind t 15 732164 = 0)) = true) ∧
    (m.ctx 1).live = true ∧ 5 ∉ jobDies m 1 ∧
    nextIs (exec (.dieMemoryReclaim 5 1) m) (fun t => decide ((t.dctx 5 1).dmSize = 0) && decide (t.read (dieAddr 5 16384) = 0)) = true ∧
    freeId m (m.ctxs.length + 1) 1 = 2 ∧ m.job 1 = none ∧
    nextIs (exec (.contextEnd 1) m) (fun t => !(t.ctx 1).live) = true ∧
    0 ∈ jobDies d 1 ∧ (d.die 0).healthy = true ∧
    nextIs (exec (.dieRetirement 0) d) (fun t => !(t.die 0).healthy && decide (jobSequencer t 1 = 0) && decide ((t.job 1).map (·.abortMask) = some 0)) = true ∧
    (d.die 3).healthy = false ∧ nextIs (exec (.dieHealthyAgain 3) d) (fun t => (t.die 3).healthy) = true ∧
    (∀ e ∈ d.ctxs, e.2.bound ≠ some 0 ∧ e.2.amp.queue = []) ∧
    nextIs (exec (.functionLevelReset 0) d) (fun t => decide (t.th.st = .stopped) && decide ((t.job 1).map (·.doomed) = some true) &&
      decide (capGeneration t 0 = (capGeneration d 0 + 2 - capGeneration d 0 % 2) % 2 ^ 32)) = true ∧
    d.modnum < 4096 ∧ nextIs (exec .moduleReset d) (fun t => !(t.die 3).healthy && decide (t.wipeNs = 14500000) && decide ((t.thread 0).st = .unheld)) = true := by
  refine ⟨?_, ?_, ?_, ?_, ?_, ⟨?_, ?_, ?_, ?_, ?_⟩, ?_, ?_, ?_, ?_, ?_, ?_, ?_, ?_, ?_, ?_, ?_, ?_, ?_, ?_, ?_⟩ <;> decide +kernel

theorem witness_wipes_free :
    (∀ d, (({ State.reset with cores := [(6143, { Core.reset with wipe := true })] } : State).die d).ended = []) ∧
    (∀ d, (State.reset.die d).ended = []) := ⟨fun _ => rfl, fun _ => rfl⟩

/-! ## Host, links, keys, upcalls and amplitude states -/

/-- HostRequestsServed: both answers of a function, each register with a write it takes and one it drops, each life-cycle state. -/
theorem witness_host :
    let s := launch id
    let off : State := { s with dies := [(0, { Die.reset with tdisp := .locked })] }
    let q : State := { s with dies := [(0, { Die.reset with lqbase := word (dieAddr 0 0x4000 + 1) })],
                              mem := [(dieAddr 0 0x400F, 0x80)] }
    let at_ (l : LifeCycle) : State := { State.reset with life := l, dies := [(0, { Die.reset with identity := some 5 })] }
    served s 0 = true ∧ s.job 1 = some job1 ∧ s.ecc = [] ∧ lineBusyNext s 1 (dieAddr 0 0) = false ∧
    checkAccess s numGcores 0 .m 1 .read (dieAddr 0 0) = .ok (.die (dieAddr 0 0)) ∧
    (match preRange numGcores 0 1 (partsOf (dieAddr 0 0) 8) s [] with
      | .got u (some bs) => decide (u = s) && decide (bs = s.readN (dieAddr 0 0) 8)
      | _ => false) = true ∧
    (partsOf 8 1).all (fun p => contextMemory s 1 p.1) = true ∧ (partsOf (dieAddr 0 0x4000) 1).all (fun p => contextMemory s 1 p.1) = false ∧
    nextIs (exec (.hostWrite 0 1 (word (dieAddr 0 0x4000)) [1]) s) (fun t => decide (t = s)) = true ∧
    nextIs (exec (.hostRead 0 1 (word (dieAddr 0 0)) 8) s) (fun t => decide (t.hostReply.headD 0 = 1)) = true ∧
    served off 0 = false ∧ nextIs (exec (.hostRead 0 1 0 8) off) (fun t => decide (t.hostReply = [])) = true ∧
    nextIs (exec (.hostWrite 0 1 8 [1]) s) (fun t => decide ((t.job 1).map (·.hostWrites) = some [{ va := 8, data := [1] }])) = true ∧
    nextIs (exec (.hostRead 24 0 0xC008 8) s) (fun t => decide (t.hostReply = bytesOf 8 0xFFF)) = true ∧
    nextIs (exec (.hostRead 24 0 0xC000 8) { at_ .deployed with wipeNs := 1 }) (fun t => decide (t.hostReply = bytesOf 8 (0x100 + 16 * LifeCycle.deployed.code))) = true ∧
    lqueue s 0 0 = none ∧ nextIs (exec (.lqtail 0 0 1) s) (fun t => decide (t.mgerr = 1)) = true ∧
    ((lqueue q 0 0).map (·.enabled)) = some true ∧
    nextIs (exec (.lqtail 0 0 1) q) (fun t => decide (t.mgerr = 0) && decide (Table.get (0 : Word) (t.die 0).lqtail 0 = 1)) = true ∧
    nextIs (exec (.repreq 0 (word (dieAddr 0 (dieBytes - 2048)))) s) (fun t => decide ((t.die 0).repreq = word (dieAddr 0 (dieBytes - 2048)))) = true ∧
    nextIs (exec (.repreq 0 (word (dieAddr 0 1024))) s) (fun t => decide (t.mgerr = 1)) = true ∧
    nextIs (exec (.dbgselw 1 7) s) (fun t => decide ((t.ctx 1).dbgsel = 7)) = true ∧
    nextIs (exec (.sparereq 1 9) s) (fun t => decide ((t.ctx 1).sv.spare = 9)) = true ∧
    nextIs (exec .mgerrClear { s with mgerr := 4 }) (fun t => decide (t.mgerr = 0)) = true ∧
    (∀ l ∈ [LifeCycle.manufacture, .deployed], nextIs (exec .lcreqProvisioned (at_ l)) (fun t => decide (t.life = .provisioned)) = true) ∧
    nextIs (exec .lcreqProvisioned (at_ .decommissioned)) (fun t => decide (t.mgerr = 1)) = true ∧
    nextIs (exec (.lcreqDeployed 0xFFE) (at_ .provisioned)) (fun t => decide (t.life = .deployed) && decide (t.modnum = 0xFFE)) = true ∧
    nextIs (exec (.lcreqDeployed 0xFFF) (at_ .provisioned)) (fun t => decide (t.mgerr = 1)) = true ∧
    nextIs (exec .lcreqDecommissioned (at_ .deployed)) (fun t => decide (t.life = .decommissioned) && (t.die 0).identity.isNone) = true ∧
    nextIs (exec .lcreqDecommissioned (at_ .manufacture)) (fun t => decide (t.mgerr = 1)) = true := by
  refine ⟨?_, ?_, ?_, ?_, ?_, ?_, ?_, ?_, ?_, ?_, ?_, ?_, ?_, ?_, ?_, ?_, ?_, ?_, ?_, ?_, ?_, ?_, ?_, ?_, ?_, ?_, ?_, ?_, ?_, ?_⟩ <;> decide +kernel

/-- LinksAndKeys: a live group, a retraining one and one with no port, and each kind of key, lock move and slice. -/
theorem witness_links :
    let s := launch id
    let p (x : PortGroup) : State := { s with ports := [(2, x)] }
    let d (x : Tdisp) : State := { s with dies := [(4, { Die.reset with tdisp := x, gated := [7], tlb := [] })] }
    let k : State := { s with cores := [(0, { core0 with keys := [(1, 0), (2, 0), (3, 0), (4, 0)] })] }
    (portOf s 2).down = false ∧ (portOf s 2).retraining = false ∧ msgWaits s (.vote 1 4) = false ∧ msgWaits s (.write 1 8 5 0 0 [1]) = false ∧
    nextIs (exec (.linkFlitReceive 2 true ⟨5, .vote 1 4⟩) s) (fun t => decide ((t.job 1).map (·.abortMask) = some 4) && decide ((portOf t 2).received = 1)) = true ∧
    nextIs (exec (.linkFlitReceive 2 true ⟨5, .vote 1 4⟩) { s with failedModules := [5] }) (fun t => decide ((t.job 1).map (·.abortMask) = some 0)) = true ∧
    nextIs (exec (.linkFlitReceive 2 false ⟨5, .vote 1 4⟩) s) (fun t => (portOf t 2).retraining && decide ((t.job 1).map (·.abortMask) = some 0)) = true ∧
    nextIs (exec (.linkFlitReceive 2 true ⟨5, .write 1 8 5 0 0 [1]⟩) s) (fun t => decide (t.staged.map (·.smod) = [5])) = true ∧
    (portOf (p { PortGroup.reset with retraining := true }) 2).retraining = true ∧ (portOf (p { PortGroup.reset with ports := 0 }) 2).down = true ∧ (portOf (p { PortGroup.reset with sent := 2 ^ 88 - 1 }) 2).down = true ∧ (portOf (p { PortGroup.reset with sent := 2 ^ 88 - 2 }) 2).down = false ∧
    (s.send 5 (.vote 1 4)).linkOut = [(5, .vote 1 4)] ∧ ({ s with failedModules := [5] } : State).send 5 (.vote 1 4) = { s with failedModules := [5] } ∧
    nextIs (exec (.portLoss 2) s) (fun t => decide ((portOf t 2).ports = 7)) = true ∧
    nextIs (exec (.portRetrain 2) (p { PortGroup.reset with retraining := true })) (fun t => !(portOf t 2).retraining) = true ∧
    nextIs (exec (.tdispRequest 4 .lock) (d .unlocked)) (fun t => decide ((t.die 4).tdisp = .locked)) = true ∧
    nextIs (exec (.tdispRequest 4 .start) (d .locked)) (fun t => decide ((t.die 4).tdisp = .run)) = true ∧
    nextIs (exec (.tdispRequest 4 .stop) (d .run)) (fun t => decide ((t.die 4).tdisp = .unlocked)) = true ∧
    nextIs (exec (.ideKeyManagement 4 9) s) (fun t => decide ((t.die 4).ideKey = some 9)) = true ∧
    nextIs (exec (.routerKeyStoreLoad 0 5 9 true) k) (fun t => decide ((t.core 0).keys.length = 4)) = true ∧
    nextIs (exec (.routerKeyStoreLoad 0 4 9 true) k) (fun t => decide ((t.core 0).keys.getLast? = some (4, 9))) = true ∧
    nextIs (exec (.routerKeyStoreLoad 0 4 0 false) k) (fun t => decide ((t.core 0).keys.length = 3)) = true ∧
    nextIs (exec (.slicePowerGating 4 255 true) (d .run)) (fun t => decide ((t.die 4).gated = [7, 255])) = true ∧
    nextIs (exec (.slicePowerGating 4 7 false) (d .run)) (fun t => decide ((t.die 4).gated = [])) = true := by
  refine ⟨?_, ?_, ?_, ?_, ?_, ?_, ?_, ?_, ?_, ?_, ?_, ?_, ?_, ?_, ?_, ?_, ?_, ?_, ?_, ?_, ?_, ?_, ?_, ?_, ?_⟩ <;> decide +kernel

/-- A thread with an upcall frame at offset 0x4000 of its local store and upcall registers g5 to g8. -/
def sUp : State :=
  holding { one { th0 with upBusy := true } with
            ctxs := [(1, { ctx1 with upcfg := word (8 * 2 ^ 55 + 7 * 2 ^ 50 + 6 * 2 ^ 45 + 5 * 2 ^ 40 + 0x100 * 2 ^ 6) })] } 0x4000
    (bytesOf 8 0 ++ bytesOf 8 0 ++ bytesOf 8 0 ++ bytesOf 8 11 ++ bytesOf 8 12 ++ bytesOf 8 13 ++ bytesOf 8 14 ++ bytesOf 8 0x20001)

/-- An amplitude state of context 1 may stand in frames 1 and 16 of stack 0. -/
def sFill : State :=
  setFrame (setFrame { launch id with ctxs := [(1, { ctx1 with amp := { Amp.zero with qleaf := word (16 * 2 ^ 32 + 1) } })] } 0 1 3 false 1) 0 16 3 false 1

/-- UpcallsAndStates: a frame that can be read, a write without ret, queued passes, valid 0, and an initial state. -/
theorem witness_upcalls :
    (let us := [wfld (sUp.ctx 1).upcfg 40 5, wfld (sUp.ctx 1).upcfg 45 5, wfld (sUp.ctx 1).upcfg 50 5, wfld (sUp.ctx 1).upcfg 55 5]
     us = [5, 6, 7, 8] ∧ sUp.th.st = .ready ∧ seqDone sUp.th = true ∧ upcfgOk (sUp.ctx 1).upcfg = true ∧
     2 ^ 64 - 65536 + wfld (sUp.ctx 1).upcfg 6 10 * 64 = (own 0x4000).toNat ∧
     nextIs (exec (.upstRet 0 0 4) sUp) (fun t => decide (t.th.pc = 0x20000) && decide (t.th.rg 5 = 11) && decide (t.th.rg 8 = 14) && !t.th.upBusy) = true ∧
     nextIs (exec (.upstRet 0 0 3) sUp) (fun t => decide (t.th.upBusy)) = true) ∧
    checkAccess sUp 0 0 .u 1 .read (own 0x4000).toNat = .ok (.own 0x4000) ∧
    loadPlace sUp 0 (.own 0x4000) 64 = .bytes sUp (sUp.readN (localAddr 0 0x4000) 64) := by
  refine ⟨?_, ?_, ?_⟩
  · refine ⟨?_, ?_, ?_, ?_, ?_, ?_, ?_⟩ <;> decide +kernel
  · decide +kernel
  · exact bytes_of (by decide +kernel)

theorem witness_states :
    (let a := (sFill.ctx 1).amp
     let w := word (2 ^ 63 + 2 ^ 60)
     a.queue = [] ∧ a.ran = false ∧ qcfgOk sFill 1 { a with qcfg := qcfgStored w } = true ∧
     nextIs (exec (.qcfgWrite 0 1 w) sFill) (fun t => decide ((t.ctx 1).amp.valid) && decide (readAmp t (t.ctx 1).amp false 0 = (0x3F800000, 0))) = true ∧
     nextIs (exec (.qcfgWrite 0 1 0) sFill) (fun t => !(t.ctx 1).amp.valid) = true) ∧
    ((sAmp false 0).modCtx 1 (fun c => { c with amp := { c.amp with ran := true } })).ctxs ≠ [] ∧
    nextIs (exec (.qcfgWrite 0 1 0) ((sAmp false 0).modCtx 1 (fun c => { c with amp := { c.amp with ran := true } }))) (fun t =>
      (t.ctx 1).amp.valid) = true := by
  refine ⟨⟨?_, ?_, ?_, ?_, ?_⟩, ?_, ?_⟩ <;> decide +kernel

/-! ## The dispatcher -/

/-- A record of one thread of context 1 on core 0; `f` is added to its first doubleword. -/
def record (f : Nat) : List Word :=
  ((((List.replicate 32 0).set 0 (word (2 ^ 32 + 2 * 2 ^ 20 + 2 ^ 16 + 2 ^ 12 + f))).set 16 (word (2 ^ 16 + 2 ^ 4 + 4))).set 17 (word (2 ^ 16 + 4 * 2 ^ 4 + 5)))

/-- Queue 0 of die 0 holds the record, seen; context 1 has no launch. -/
def sHead (cores : Table Core) (f : Nat) : State :=
  ({ State.reset with cores := cores, ctxs := [(1, { Ctx.reset with live := true })],
                      dies := [(0, { Die.reset with lqbase := word (dieAddr 0 0x4000 + 1), seen := [(0, 0)], dispatch := true })] } : State)
    |>.writeN (dieAddr 0 0x4000) (bytesOf 8 (dieAddr 0 0x8000) ++ bytesOf 8 (2 ^ 63 + 4 * 2 ^ 32) ++ bytesOf 8 0 ++ bytesOf 8 1)
    |>.writeN (dieAddr 0 0x8000) ((record f).flatMap (fun w => bytesOf 8 w.toNat))

/-- DispatchersAct: a head that is placed, one refused, a coresident one that must wait, and nothing on an unhealthy die. -/
theorem witness_dispatch :
    let busy : Table Core := [(0, { Core.reset with hold := some 2, slotSet := 1 })]
    (∀ x ∈ [(([] : Table Core), 0), ([], 0x100), (busy, 0x100), ([], 0x200)],
      let s := sHead x.1 x.2
      (s.die 0).healthy = true ∧ mayLaunch s = true ∧ allGates (noteTails s 0) 0 = (s, []) ∧ partialLaunch s 0 = none ∧
      (firstHead (launchHeads s 0 [])).map (fun h => (h.1.q, h.1.record h.1.head, h.2)) = some (0, dieAddr 0 0x8000, record x.2) ∧
      (s.die 0).dispatch = true ∧ (s.ctx 1).withdrawals = 0) ∧
    recCtx (record 0) = 1 ∧ recResume (record 0) = false ∧ recCoresident (record 0x100) = true ∧
    refusal (sHead [] 0) (dieAddr 0 0x8000) (record 0) = none ∧ refusal (sHead busy 0x100) (dieAddr 0 0x8000) (record 0x100) = none ∧
    refusal (sHead [] 0x200) (dieAddr 0 0x8000) (record 0x200) = some 1 ∧
    place (sHead [] 0) (record 0) true (fun d => dieWaits (sHead [] 0) (recPrio (record 0)) 0 d) = some [{ core := 0, slot := 0, rank := 0 }] ∧
    place (sHead busy 0x100) (record 0x100) true (fun d => dieWaits (sHead busy 0x100) (recPrio (record 0x100)) 0 d) = none ∧
    nextIs (exec (.dispatchStep 0) (sHead busy 0x100)) (fun t => decide (t = { sHead busy 0x100 with dies := t.dies }) &&
      decide (t.die 0 = { (sHead busy 0x100).die 0 with dispatch := (t.die 0).dispatch })) = true ∧
    nextIs (exec (.dispatchStep 0) { sHead [] 0 with dies := [(0, { (sHead [] 0).die 0 with dispatch := false })] }) (fun t => (t.job 1).isNone) = true ∧
    nextIs (exec (.dispatchStep 0) (sHead [] 0x200)) (fun t => (t.job 1).isNone && decide ((t.core 0).hold = none)) = true ∧
    nextIs (exec (.dispatchStep 0) { sHead [] 0 with life := .provisioned }) (fun t => (t.job 1).isNone) = true := by
  refine ⟨?_, ?_, ?_, ?_, ?_, ?_, ?_, ?_, ?_, ?_, ?_, ?_, ?_⟩ <;> decide +kernel

/-- Core 0 held by the lending launch of context 2, and a harvest record of context 1 at the head. -/
def sWicket : State :=
  { sHead [(0, { Core.reset with hold := some 2, slotSet := 1 })] 0x8 with
    ctxs := [(1, { Ctx.reset with live := true }), (2, { ctx1 with job := some { job1 with record := (List.replicate 32 0).set 0 0x10 } })] }

theorem witness_wicket :
    (∀ q, headRecord { sWicket with dies := [] } 0 q = none) ∧
    (firstHead (launchHeads sWicket 0 ((List.range 16).filter (fun q => (actGates 0 q (sWicket.die 0).seen.length sWicket).2)))).map (fun h => (h.1.record h.1.head, h.2)) =
      some (dieAddr 0 0x8000, record 8) ∧
    recHarvest (record 8) = true ∧ partialLaunch sWicket 0 = none ∧ refusal sWicket (dieAddr 0 0x8000) (record 8) = none ∧ (sWicket.ctx 1).withdrawals = 0 ∧
    recResume (record 8) = false ∧
    place sWicket (record 8) true (fun d => dieWaits sWicket (recPrio (record 8)) 0 d) = some [{ core := 0, slot := 8, rank := 0 }] := by
  refine ⟨fun q => rfl, ?_, ?_, ?_, ?_, ?_, ?_, ?_⟩ <;> decide +kernel

end Sys2Proof.Tests
end

/-! ## Every step keeps physical memory in canonical form

`State.memOk` (the canonical form of R5's memory) is kept by every operation that a turn is built from.  There is one lemma
per operation `f`, named `State.memOk.f` and read off `h : s.memOk` by `h.f`, in the order of the model's files; the lemma of
an operation cites those of the operations that it calls, so that `h.a.b` says that `b` after `a` keeps the form.  An
operation that touches no byte is a record update with the same `mem` (`h.upd`); bytes are written by `Memory.write` and
`Memory.writeN` alone.  Where an operation answers with something other than a state, the states that the answer carries
are meant: `memOk` of its type of answers, or one of the predicates below. -/

namespace Sys2Proof.Machine

open Sys2Proof

/-! ### States within other values -/

/-- An update of the record that leaves `mem` as it is. -/
theorem State.memOk.upd {s t : State} (h : s.memOk) (e : t.mem = s.mem := by rfl) : t.memOk := State.memOk_of_mem h e

theorem State.memOk.fst {α : Type} {p : State × α} {s x} (h : p.1.memOk) (e : p = (s, x)) : s.memOk := by
  subst e; exact h

/-- The state of an operation that can find no room. -/
def OptOk : Option State → Prop
  | some s => s.memOk
  | none => True

theorem OptOk.some {o : Option State} {s} (h : OptOk o) (e : o = some s) : s.memOk := by subst e; exact h

theorem OptOk.intro {s : State} (h : s.memOk) : OptOk (Option.some s) := h

theorem OptOk.bind {o : Option State} {f : State → Option State} (h : OptOk o)
    (hf : ∀ s, s.memOk → OptOk (f s)) : OptOk (o.bind f) := by
  cases o with
  | none => trivial
  | some s => exact hf s h

theorem OptOk.map {o : Option State} {f : State → State} (h : OptOk o) (hf : ∀ s, s.memOk → (f s).memOk) :
    OptOk (o.map f) := by
  cases o with
  | none => trivial
  | some s => exact hf s h

theorem OptOk.getD {o : Option State} {s : State} (h : OptOk o) (hs : s.memOk) : (o.getD s).memOk := by
  cases o with
  | none => exact hs
  | some s => exact h

/-- The next state of an execution, when it has one. -/
def OutcomeOk : Host.Outcome State Fault Refusal → Prop
  | .next s => s.memOk
  | _ => True

theorem OutcomeOk.next {o : Host.Outcome State Fault Refusal} {s} (h : OutcomeOk o) (e : o = .next s) :
    s.memOk := by
  subst e; exact h

/-- The state left by `readyGroups` when no group is held. -/
def GroupsOk : State ⊕ Hold → Prop
  | .inl s => s.memOk
  | .inr _ => True

theorem GroupsOk.inl {x : State ⊕ Hold} {s} (h : GroupsOk x) (e : x = .inl s) : s.memOk := by subst e; exact h

/-! ### Branches, folds and memory -/

theorem ite_keeps {α : Type} {P : α → Prop} {c : Prop} [Decidable c] {a b : α} (ha : P a) (hb : P b) :
    P (if c then a else b) := by
  split
  · exact ha
  · exact hb

theorem foldl_keeps {α β : Type} {P : β → Prop} {f : β → α → β} {l : List α} {b : β} (h : P b)
    (hf : ∀ b a, P b → P (f b a)) : P (l.foldl f b) := by
  induction l generalizing b with
  | nil => exact h
  | cons a l ih => exact ih (hf b a h)

theorem foldl_fst {α β : Type} {f : State × β → α → State × β} {l : List α} {b : State × β} (h : b.1.memOk)
    (hf : ∀ b a, b.1.memOk → (f b a).1.memOk) : (l.foldl f b).1.memOk :=
  foldl_keeps (P := fun p : State × β => p.1.memOk) h hf

theorem State.memOk.foldl {α : Type} {f : State → α → State} {l : List α} {s : State} (h : s.memOk)
    (hf : ∀ s a, s.memOk → (f s a).memOk) : (l.foldl f s).memOk := foldl_keeps h hf

theorem Memory.wf_filter {m : List Host.Cell} (h : Memory.wf m = true) (p : Host.Cell → Bool) :
    Memory.wf (m.filter p) = true := by
  rw [Memory.wf_iff] at h ⊢
  exact ⟨h.1.filter p, fun c hc => h.2 c (List.mem_of_mem_filter hc)⟩

/-! ### Answers that carry a state -/

def ElemsAnswer.memOk {α : Type} : ElemsAnswer α → Prop
  | .all s _ | .wait s | .trap s _ _ _ => s.memOk
theorem ElemsAnswer.memOk.all {α : Type} {a : ElemsAnswer α} {s x} (h : a.memOk) (e : a = .all s x) :
    s.memOk := by subst e; exact h
theorem ElemsAnswer.memOk.wait {α : Type} {a : ElemsAnswer α} {s} (h : a.memOk) (e : a = .wait s) :
    s.memOk := by subst e; exact h
theorem ElemsAnswer.memOk.trap {α : Type} {a : ElemsAnswer α} {s code fa el} (h : a.memOk)
    (e : a = .trap s code fa el) : s.memOk := by subst e; exact h

def EccAnswer.memOk : EccAnswer → Prop
  | .clean s | .uncorrectable s _ => s.memOk

theorem EccAnswer.memOk.clean {a : EccAnswer} {s} (h : a.memOk) (e : a = .clean s) :
    s.memOk := by subst e; exact h
theorem EccAnswer.memOk.uncorrectable {a : EccAnswer} {s} {loc} (h : a.memOk) (e : a = .uncorrectable s loc)
    : s.memOk := by subst e; exact h

def QueueAnswer.memOk : QueueAnswer → Prop
  | .queued s => s.memOk
  | _ => True

theorem QueueAnswer.memOk.queued {a : QueueAnswer} {s} (h : a.memOk) (e : a = .queued s) :
    s.memOk := by subst e; exact h

def HalfAnswer.memOk : HalfAnswer → Prop
  | .half s _ | .wait s | .damaged s _ => s.memOk
  | _ => True

theorem HalfAnswer.memOk.half {a : HalfAnswer} {s} {w} (h : a.memOk) (e : a = .half s w) :
    s.memOk := by subst e; exact h
theorem HalfAnswer.memOk.wait {a : HalfAnswer} {s} (h : a.memOk) (e : a = .wait s) :
    s.memOk := by subst e; exact h
theorem HalfAnswer.memOk.damaged {a : HalfAnswer} {s} {loc} (h : a.memOk) (e : a = .damaged s loc) :
    s.memOk := by subst e; exact h

def RingAnswer.memOk (a : RingAnswer) : Prop := ∀ s, a = .written s → s.memOk

theorem RingAnswer.memOk_written {s : State} (h : s.memOk) : (RingAnswer.written s).memOk := by
  intro u e; cases e; exact h
theorem RingAnswer.memOk.written {a : RingAnswer} {s} (h : a.memOk) (e : a = .written s) : s.memOk := h s e

def Prepared.memOk : Prepared → Prop
  | .done s | .run _ s => s.memOk

theorem Prepared.memOk.done {a : Prepared} {s} (h : a.memOk) (e : a = .done s) :
    s.memOk := by subst e; exact h
theorem Prepared.memOk.run {a : Prepared} {s} {i} (h : a.memOk) (e : a = .run i s) :
    s.memOk := by subst e; exact h

def ReadAnswer.memOk : ReadAnswer → Prop
  | .bytes s _ | .wait s | .damaged s _ => s.memOk
  | _ => True

theorem ReadAnswer.memOk.bytes {a : ReadAnswer} {s} {bs} (h : a.memOk) (e : a = .bytes s bs) :
    s.memOk := by subst e; exact h
theorem ReadAnswer.memOk.wait {a : ReadAnswer} {s} (h : a.memOk) (e : a = .wait s) :
    s.memOk := by subst e; exact h
theorem ReadAnswer.memOk.damaged {a : ReadAnswer} {s} {loc} (h : a.memOk) (e : a = .damaged s loc) :
    s.memOk := by subst e; exact h

def UpcallAnswer.memOk : UpcallAnswer → Prop
  | .entered s => s.memOk
  | _ => True

theorem UpcallAnswer.memOk.entered {a : UpcallAnswer} {s} (h : a.memOk) (e : a = .entered s) :
    s.memOk := by subst e; exact h

def PreAnswer.memOk : PreAnswer → Prop
  | .taken s => s.memOk
  | _ => True

theorem PreAnswer.memOk.taken {a : PreAnswer} {s} (h : a.memOk) (e : a = .taken s) :
    s.memOk := by subst e; exact h

def LineAnswer.memOk : LineAnswer → Prop
  | .present s _ => s.memOk
  | _ => True

theorem LineAnswer.memOk.present {a : LineAnswer} {s} {l} (h : a.memOk) (e : a = .present s l) :
    s.memOk := by subst e; exact h

def PassAnswer.memOk : PassAnswer → Prop
  | .wait s | .fail s _ _ | .ran s => s.memOk

theorem PassAnswer.memOk.wait {a : PassAnswer} {s} (h : a.memOk) (e : a = .wait s) :
    s.memOk := by subst e; exact h
theorem PassAnswer.memOk.fail {a : PassAnswer} {s} {st d} (h : a.memOk) (e : a = .fail s st d) :
    s.memOk := by subst e; exact h
theorem PassAnswer.memOk.ran {a : PassAnswer} {s} (h : a.memOk) (e : a = .ran s) :
    s.memOk := by subst e; exact h

def PreRange.memOk : PreRange → Prop
  | .got s _ | .damaged s => s.memOk
  | _ => True

theorem PreRange.memOk.got {a : PreRange} {s} {r} (h : a.memOk) (e : a = .got s r) :
    s.memOk := by subst e; exact h
theorem PreRange.memOk.damaged {a : PreRange} {s} (h : a.memOk) (e : a = .damaged s) :
    s.memOk := by subst e; exact h

def EntryAnswer.memOk : EntryAnswer → Prop
  | .done s | .wait s | .trap s _ _ _ _ => s.memOk

theorem EntryAnswer.memOk.done {a : EntryAnswer} {s} (h : a.memOk) (e : a = .done s) :
    s.memOk := by subst e; exact h
theorem EntryAnswer.memOk.wait {a : EntryAnswer} {s} (h : a.memOk) (e : a = .wait s) :
    s.memOk := by subst e; exact h
theorem EntryAnswer.memOk.trap {a : EntryAnswer} {s} {code fa wr el} (h : a.memOk) (e : a = .trap s code fa wr el)
    : s.memOk := by subst e; exact h

def RetAnswer.memOk : RetAnswer → Prop
  | .resumed s | .wait s | .damaged s _ => s.memOk
  | _ => True

theorem RetAnswer.memOk.resumed {a : RetAnswer} {s} (h : a.memOk) (e : a = .resumed s) :
    s.memOk := by subst e; exact h
theorem RetAnswer.memOk.wait {a : RetAnswer} {s} (h : a.memOk) (e : a = .wait s) :
    s.memOk := by subst e; exact h
theorem RetAnswer.memOk.damaged {a : RetAnswer} {s} {loc} (h : a.memOk) (e : a = .damaged s loc) :
    s.memOk := by subst e; exact h

def FetchAnswer.memOk : FetchAnswer → Prop
  | .instr s _ _ _ | .illegal s _ | .wait s | .trap s _ _ | .damaged s _ => s.memOk

theorem FetchAnswer.memOk.instr {a : FetchAnswer} {s} {i len iw} (h : a.memOk) (e : a = .instr s i len iw)
    : s.memOk := by subst e; exact h
theorem FetchAnswer.memOk.illegal {a : FetchAnswer} {s} {iw} (h : a.memOk) (e : a = .illegal s iw) :
    s.memOk := by subst e; exact h
theorem FetchAnswer.memOk.wait {a : FetchAnswer} {s} (h : a.memOk) (e : a = .wait s) :
    s.memOk := by subst e; exact h
theorem FetchAnswer.memOk.trap {a : FetchAnswer} {s} {code va} (h : a.memOk) (e : a = .trap s code va) :
    s.memOk := by subst e; exact h
theorem FetchAnswer.memOk.damaged {a : FetchAnswer} {s} {loc} (h : a.memOk) (e : a = .damaged s loc) :
    s.memOk := by subst e; exact h

/-- The answer of a line fetch: one that ends the fetch, or the state with the line. -/
def FetchOk : HalfAnswer ⊕ (State × BitVec 512) → Prop
  | .inl a => a.memOk
  | .inr p => p.1.memOk

theorem FetchOk.inl {x} {a : HalfAnswer} (h : FetchOk x) (e : x = .inl a) : a.memOk := by subst e; exact h

theorem FetchOk.inr {x} {s : State} {v} (h : FetchOk x) (e : x = .inr (s, v)) : s.memOk := by subst e; exact h

/-- The answer of a read of ranges, when it got as far as reading. -/
def ReadOk : (ℕ × ℕ) ⊕ ReadAnswer → Prop
  | .inl _ => True
  | .inr a => a.memOk

theorem ReadOk.inr {x} {a : ReadAnswer} (h : ReadOk x) (e : x = .inr a) : a.memOk := by subst e; exact h

/-- No byte is listed after reset. -/
theorem State.memOk_reset : State.reset.memOk := rfl

variable {s : State}

/- The lemmas are many and short.  Elaborated in parallel, they hold a thread with its stack each, more than the limit on
memory allows; so one after another. -/
set_option Elab.async false

/-! ### Operations of Machine/Memory -/

protected theorem State.memOk.setThread {t x} (h : s.memOk) : (s.setThread t x).memOk := h.upd

protected theorem State.memOk.modThread {t f} (h : s.memOk) : (s.modThread t f).memOk := h.upd

protected theorem State.memOk.setCore {c x} (h : s.memOk) : (s.setCore c x).memOk := h.upd

protected theorem State.memOk.modCore {c f} (h : s.memOk) : (s.modCore c f).memOk := h.upd

protected theorem State.memOk.modCluster {c f} (h : s.memOk) : (s.modCluster c f).memOk := h.upd

protected theorem State.memOk.modDie {d f} (h : s.memOk) : (s.modDie d f).memOk := h.upd

protected theorem State.memOk.setCtx {c x} (h : s.memOk) : (s.setCtx c x).memOk := h.upd

protected theorem State.memOk.modCtx {c f} (h : s.memOk) : (s.modCtx c f).memOk := h.upd

protected theorem State.memOk.modDctx {d c f} (h : s.memOk) : (s.modDctx d c f).memOk := h.upd

protected theorem State.memOk.modJob {c f} (h : s.memOk) : (s.modJob c f).memOk := h.upd

protected theorem State.memOk.writeN {a bs} (h : s.memOk) : (s.writeN a bs).memOk := Memory.wf_writeN bs h a

protected theorem State.memOk.writeWord {a w} (h : s.memOk) : (s.writeWord a w).memOk := h.writeN

protected theorem State.memOk.writeLine {a v} (h : s.memOk) : (s.writeLine a v).memOk := h.writeN

protected theorem State.memOk.count {ctx idx n} (h : s.memOk) : (s.count ctx idx n).memOk := h.upd

protected theorem State.memOk.vote {ctx bit} (h : s.memOk) : (s.vote ctx bit).memOk := h.upd

protected theorem State.memOk.flit {i target msg} (h : s.memOk) : (s.flit i target msg).memOk :=
  ite_keeps h h.upd

protected theorem State.memOk.send {m msg} (h : s.memOk) : (s.send m msg).memOk := ite_keeps h h.flit

protected theorem State.memOk.sendAll {ms msg} (h : s.memOk) : (s.sendAll ms msg).memOk :=
  h.foldl fun _ _ h1 => h1.send

protected theorem State.memOk.dieEvent {die bit} (h : s.memOk) : (s.dieEvent die bit).memOk := h.upd

protected theorem State.memOk.dispatchEvent {p} (h : s.memOk) : (dispatchEvent s p).memOk := h.upd

protected theorem State.memOk.landDie {die a b} (h : s.memOk) : (landDie s die a b).memOk := h.upd.writeN

protected theorem State.memOk.landDieLine {die a v} (h : s.memOk) : (landDieLine s die a v).memOk :=
  h.upd.writeLine

protected theorem State.memOk.landEach {land : State → Nat → Byte → State} {a bs}
    (hland : ∀ u a b, u.memOk → (land u a b).memOk) (h : s.memOk) : (landEach land s a bs).memOk := by
  induction bs generalizing s a with
  | nil => exact h
  | cons b bs ih => exact ih (hland s a b h)

protected theorem State.memOk.landDieWord {die a w} (h : s.memOk) : (landDieWord s die a w).memOk :=
  h.landEach fun _ _ _ h1 => h1.landDie

protected theorem State.memOk.trace {die ctx type who payload} (h : s.memOk) :
    (s.trace die ctx type who payload).memOk :=
  ite_keeps (ite_keeps h.upd h.landDieWord.landDieWord.landDieWord.landDieWord.landDieWord) h

protected theorem State.memOk.hurtWord {die ctx loc unc} (h : s.memOk) :
    (hurtWord s die ctx loc unc).memOk := by
  unfold hurtWord
  dsimp only
  cases eccAt s die ctx loc with
  | none => exact h.upd
  | some m => exact h.upd

protected theorem State.memOk.eccVote {die ctx} (h : s.memOk) : (eccVote s die ctx).memOk :=
  ite_keeps h.upd h.upd

protected theorem State.memOk.tlbEcc {die ctx vpn} (h : s.memOk) : (tlbEcc s die ctx vpn).memOk := by
  unfold tlbEcc
  split
  · exact h
  · split
    · exact h
    · exact h.upd
    · exact h.upd

protected theorem State.memOk.touchTlb {die ctx va e} (h : s.memOk) :
    (touchTlb s die ctx va e).memOk := h.tlbEcc.modDie

protected theorem State.memOk.setLine {l} (h : s.memOk) : (s.setLine l).memOk := h.upd

protected theorem State.memOk.dropLines {p} (h : s.memOk) : (s.dropLines p).memOk := h.upd

protected theorem State.memOk.dropLine {die ctx va} (h : s.memOk) : (s.dropLine die ctx va).memOk := h.upd

protected theorem State.memOk.lineEcc {l} (h : s.memOk) : (lineEcc s l).1.memOk := by
  unfold lineEcc
  refine foldl_fst h fun _ _ h1 => ?_
  split
  · exact h1.upd.eccVote
  · exact h1.upd

protected theorem State.memOk.writeBack {l} (h : s.memOk) : (writeBack s l).memOk :=
  h.lineEcc.upd.writeLine.setLine

protected theorem State.memOk.evict {die slice keep} (h : s.memOk) : OptOk (evict s die slice keep) := by
  unfold evict
  split
  · exact h.upd
  · split
    · exact h.writeBack.dropLine
    · exact trivial

protected theorem State.memOk.evictFor {die slice n keep k} (h : s.memOk) :
    OptOk (evictFor die slice n keep k s) := by
  induction k generalizing s with
  | zero =>
    unfold evictFor
    exact ite_keeps h trivial
  | succ k ih =>
    unfold evictFor
    refine ite_keeps h ?_
    split
    · exact ih (h.evict.some ‹_›)
    · exact trivial

protected theorem State.memOk.roomKeeping {die slice n keep} (h : s.memOk) :
    OptOk (roomKeeping s die slice n keep) := h.evictFor

protected theorem State.memOk.takeLine {die slice keep} (h : s.memOk) :
    OptOk (takeLine s die slice keep) := h.roomKeeping

protected theorem State.memOk.roomFor {die slice n} (h : s.memOk) : OptOk (roomFor s die slice n) :=
  h.roomKeeping

protected theorem State.memOk.fillEcc {die ctx va phys rep} (h : s.memOk) :
    (fillEcc s die ctx va phys rep).memOk :=
  ite_keeps h (h.foldl fun _ _ h1 => ite_keeps h1.upd.eccVote h1.upd)

protected theorem State.memOk.needLine {die ctx va e} (h : s.memOk) : (needLine s die ctx va e).memOk := by
  unfold needLine
  split
  · exact ite_keeps trivial h.upd.touchTlb
  · split
    · exact trivial
    · show State.memOk _
      exact State.memOk.touchTlb (State.memOk.upd
        (State.memOk.fillEcc ((ite_keeps (OptOk.intro h) h.takeLine).some ‹_›)))

protected theorem State.memOk.copyEcc {die ctx line} (h : s.memOk) : (copyEcc s die ctx line).1.memOk := by
  unfold copyEcc
  refine foldl_fst h fun _ _ h1 => ?_
  split
  · exact h1.upd.eccVote
  · exact h1.upd

protected theorem State.memOk.takePreLocal {core w ctx line} (h : s.memOk) :
    OptOk (takePreLocal s core w ctx line) :=
  ite_keeps h (ite_keeps h.copyEcc.setCore (ite_keeps h.copyEcc.upd.writeN.modCore.count trivial))

protected theorem State.memOk.takeUndo {die line n} (h : s.memOk) : OptOk (takeUndo s die line n) := by
  unfold takeUndo
  split
  · exact h
  · refine ite_keeps h ?_
    split
    · exact trivial
    · exact (((h.takeLine.some ‹_›).copyEcc).modDie).count

protected theorem State.memOk.takePreDie {die line} (h : s.memOk) : OptOk (takePreDie s die line) :=
  h.takeUndo

protected theorem State.memOk.takePrePaged {l} (h : s.memOk) : OptOk (takePrePaged s l) := by
  unfold takePrePaged
  split
  · exact h.upd
  · split
    · exact trivial
    · exact (((h.takeLine.some ‹_›).lineEcc).setLine).count
  · exact h

protected theorem State.memOk.landLocal {core o b} (h : s.memOk) : (landLocal s core o b).memOk := by
  unfold landLocal
  refine State.memOk.writeN ?_
  split
  · exact h.upd.writeN
  · exact h.upd

protected theorem State.memOk.landPaged {ctx va phys b} (h : s.memOk) :
    (landPaged s ctx va phys b).memOk := ite_keeps h.upd h.upd.writeN

/-! ### Operations of Machine/Ops -/

protected theorem State.memOk.modTh {f} (h : s.memOk) : (s.modTh f).memOk := h.upd

protected theorem State.memOk.ready {t} (h : s.memOk) : (s.ready t).memOk := by
  unfold State.ready
  refine ite_keeps h ?_
  refine ite_keeps h.upd ?_
  refine ite_keeps ?_ h.upd
  refine ite_keeps ?_ h.upd
  refine State.memOk.trace ?_
  split
  · exact h.upd
  · exact h.upd

protected theorem State.memOk.wake {t} (h : s.memOk) : (s.wake t).memOk := by
  unfold State.wake
  refine ite_keeps ?_ h
  split
  · exact ite_keeps h.ready h
  · exact ite_keeps h.ready h
  · exact h

protected theorem State.memOk.wakeWfi {t} (h : s.memOk) : (s.wakeWfi t).memOk := ite_keeps h.upd.ready h

protected theorem State.memOk.fillG {t r v} (h : s.memOk) : (s.fillG t r v).memOk :=
  ite_keeps h (ite_keeps h.upd.wake.wakeWfi h.upd)

protected theorem State.memOk.putG {d v} (h : s.memOk) : (s.putG d v).memOk := ite_keeps h h.upd

protected theorem State.memOk.issued (h : s.memOk) : (s.issued).memOk := by
  unfold State.issued
  refine ite_keeps ?_ h.upd
  split
  · exact h.upd
  · exact h.upd

protected theorem State.memOk.advance (h : s.memOk) : (s.advance).memOk := h.issued.modTh

protected theorem State.memOk.jump {target} (h : s.memOk) : (s.jump target).memOk := h.issued.modTh

protected theorem State.memOk.park {w} (h : s.memOk) : (s.park w).memOk := h.upd

protected theorem State.memOk.enterTrap {t code tval epc vec wr async held} (h : s.memOk) :
    (enterTrap s t code tval epc vec wr async held).memOk :=
  ite_keeps (ite_keeps h.upd h.ready.modThread.trace) h.ready.modThread.trace

protected theorem State.memOk.raise {code tval wr} (h : s.memOk) : (s.raise code tval wr).memOk :=
  ite_keeps h h.issued.enterTrap

protected theorem State.memOk.raiseNext {code} (h : s.memOk) : (s.raiseNext code).memOk :=
  ite_keeps h h.issued.enterTrap

protected theorem State.memOk.exceptionReturn (h : s.memOk) : (exceptionReturn s).memOk :=
  ite_keeps h.issued.modTh (ite_keeps h h.issued.modTh)

protected theorem State.memOk.mendRegs {t ns} (h : s.memOk) : (mendRegs s t ns).memOk :=
  h.upd.foldl fun _ _ h1 => h1.upd

protected theorem State.memOk.threadUnc {t} (h : s.memOk) : (threadUnc s t).memOk := h.upd.eccVote

protected theorem State.memOk.tookFree (h : s.memOk) : (s.tookFree).memOk := h.upd

protected theorem State.memOk.readRegs {ns} {k : State → State} (h : s.memOk)
    (hk : ∀ u, u.memOk → (k u).memOk) : (s.readRegs ns k).memOk := by
  unfold State.readRegs
  refine ite_keeps (hk _ h) ?_
  split
  · exact ite_keeps h h.threadUnc.raise.tookFree
  · exact hk _ h.mendRegs

protected theorem State.memOk.readQueues {k : State → State} (h : s.memOk) (hk : ∀ u, u.memOk → (k u).memOk) :
    (s.readQueues k).memOk := by
  unfold State.readQueues
  split
  · exact hk _ h
  · exact hk _ h.upd
  · exact ite_keeps h h.threadUnc.raise.tookFree

protected theorem State.memOk.withG {rs} {k : State → State} (h : s.memOk) (hk : ∀ u, u.memOk → (k u).memOk) :
    (s.withG rs k).memOk := by
  unfold State.withG
  split
  · exact h.raise
  · exact ite_keeps (h.readRegs hk) h.upd

protected theorem State.memOk.freePre {core b off} (h : s.memOk) : (freePre s core b off).memOk := by
  unfold freePre
  dsimp only
  split
  · exact h.upd.writeWord
  · exact h.upd

protected theorem State.memOk.backLine {core b j off versioned} (h : s.memOk) :
    OptOk (backLine s core b j off versioned) :=
  ite_keeps (h.landDieLine.takePreDie.map fun _ h1 => h1.writeLine) h.writeLine

protected theorem State.memOk.zeroOwned {core off} (h : s.memOk) : OptOk (zeroOwned s core off) := by
  unfold zeroOwned
  refine OptOk.map ?_ fun _ h1 => h1.writeLine
  split
  · exact h
  · exact h.takePreLocal

protected theorem State.memOk.reclaimLine {core b j off again versioned} (h : s.memOk) :
    OptOk (reclaimLine s core b j off again versioned) :=
  OptOk.bind (ite_keeps h h.backLine) fun _ h1 => h1.freePre.zeroOwned

protected theorem State.memOk.granuleLines {act : State → ℕ → Option State} {gr}
    (hact : ∀ u u1, u.memOk → OptOk (act u u1)) (h : s.memOk) :
    OptOk (granuleLines act gr s) := foldl_keeps h fun _ _ h1 => h1.bind fun _ h2 => hact _ _ h2

protected theorem State.memOk.countReclaim {core} (h : s.memOk) : (countReclaim s core).memOk := by
  unfold countReclaim
  split
  · exact h.upd
  · exact h

protected theorem State.memOk.reclaimResidue {core gr} (h : s.memOk) : OptOk (reclaimResidue s core gr) := by
  unfold reclaimResidue
  exact ite_keeps h (ite_keeps trivial
    (OptOk.map (h.granuleLines fun _ _ h1 => h1.zeroOwned) fun _ h1 => h1.upd.countReclaim))

protected theorem State.memOk.reclaim {core gr} (h : s.memOk) : OptOk (reclaim s core gr) := by
  unfold reclaim
  split
  · exact h.reclaimResidue
  · exact ite_keeps trivial (ite_keeps trivial
      (OptOk.map (h.granuleLines fun _ _ h1 => h1.reclaimLine) fun _ h1 => h1.upd.countReclaim))

protected theorem State.memOk.reclaimFor {core slot p} (h : s.memOk) : OptOk (reclaimFor s core slot p) := by
  unfold reclaimFor
  split
  · exact ite_keeps h.reclaim h
  · exact h

protected theorem State.memOk.readEcc {die ctx loc} (h : s.memOk) : (readEcc s die ctx loc).memOk := by
  unfold readEcc
  split
  · exact h
  · refine ite_keeps h.upd ?_
    split
    · exact ite_keeps h.upd h.upd.eccVote
    · exact h.upd.eccVote

protected theorem State.memOk.readEccs {die ctx loc n} (h : s.memOk) : (readEccs s die ctx loc n).memOk := by
  unfold readEccs
  refine foldl_keeps h fun _ _ h1 => ?_
  split
  · exact h1.readEcc
  · exact h1

protected theorem State.memOk.noteRecall {t loc} (h : s.memOk) : (noteRecall s t loc).memOk :=
  ite_keeps h h.upd

protected theorem State.memOk.readPaged {die ctx va e n} (h : s.memOk) :
    (readPaged s die ctx va e n).memOk := by
  unfold readPaged
  split
  · exact h.needLine.present ‹_›
  · exact h
  · exact trivial

protected theorem State.memOk.imageEccs {die ctx p n core} (h : s.memOk) :
    (imageEccs s die ctx p n core).memOk := by
  unfold imageEccs
  split
  · exact ite_keeps h h.readEccs
  · exact ite_keeps h h.readEccs
  · exact h.readEccs

protected theorem State.memOk.readPlace {die ctx core p n} (h : s.memOk) :
    (readPlace s die ctx core p n).memOk := by
  unfold readPlace
  split
  · split
    · split
      · exact ((h.readPaged.bytes ‹_›).readEccs).uncorrectable ‹_›
      · exact ite_keeps (((h.readPaged.bytes ‹_›).readEccs).clean ‹_›)
          ((((h.readPaged.bytes ‹_›).readEccs).clean ‹_›).readPaged)
    · exact h.readPaged
  · split
    · exact h.imageEccs.uncorrectable ‹_›
    · exact h.imageEccs.clean ‹_›

protected theorem State.memOk.loadPlace {t p n} (h : s.memOk) : (loadPlace s t p n).memOk := by
  unfold loadPlace
  split
  · exact ite_keeps h h.readPlace
  · exact ite_keeps h h.readPlace
  · refine ite_keeps ?_ ?_
    · show State.memOk _
      split
      · exact h.touchTlb
      · exact h
    · refine ite_keeps h ?_
      refine ite_keeps ?_ ?_
      · split
        · exact h
        · exact h.noteRecall
      · split
        · exact h
        · exact (h.reclaimFor.some ‹_›).readPlace

protected theorem State.memOk.takePre {t p} (h : s.memOk) : (takePre s t p).memOk := by
  unfold takePre
  split
  · dsimp only
    split
    · exact trivial
    · split
      · exact trivial
      · exact ((h.reclaimFor.some ‹_›).takePreLocal).some ‹_›
  · dsimp only
    split
    · exact trivial
    · exact h.takePreDie.some ‹_›
  · dsimp only
    split
    · exact trivial
    · exact trivial
    · split
      · exact trivial
      · split
        · exact trivial
        · exact ((h.needLine.present ‹_›).takePrePaged).some ‹_›
  · exact h

protected theorem State.memOk.deniedUse {t ea} (h : s.memOk) : (s.deniedUse t ea).memOk := by
  unfold State.deniedUse
  split
  · dsimp only
    split
    · exact h.touchTlb
    · exact h
  · exact h

protected theorem State.memOk.deny {ea wr} (h : s.memOk) : (s.deny ea wr).memOk := h.deniedUse.raise

protected theorem State.memOk.stageRooms {t sizes} (h : s.memOk) : OptOk (stageRooms s t sizes) :=
  ite_keeps trivial h.roomFor

protected theorem State.memOk.stageRoom {t n} (h : s.memOk) : OptOk (stageRoom s t n) := h.stageRooms

protected theorem State.memOk.stage {t tmod addr loc act} (h : s.memOk) :
    (stage s t tmod addr loc act).memOk := h.upd

protected theorem State.memOk.pokeByte {die ctx c} (h : s.memOk) : (pokeByte s die ctx c).memOk := by
  unfold pokeByte
  split
  · exact Memory.wf_write h c.1 c.2
  · split
    · exact h
    · exact h.upd

protected theorem State.memOk.pokeCells {die ctx cells} (h : s.memOk) :
    (pokeCells s die ctx cells).memOk := h.foldl fun _ _ h1 => h1.pokeByte

protected theorem State.memOk.storeEcc {die ctx cells} (h : s.memOk) :
    (storeEcc s die ctx cells).1.memOk := by
  unfold storeEcc
  refine foldl_fst h fun _ _ h1 => ?_
  split
  · exact h1
  · split
    · exact h1.upd
    · split
      · exact h1.readEcc.clean ‹_›
      · exact h1.readEcc.uncorrectable ‹_›

protected theorem State.memOk.retakePre {t cells} (h : s.memOk) : OptOk (retakePre s t cells) := by
  unfold retakePre
  refine foldl_keeps h fun _ _ h1 => ?_
  exact h1.bind fun _ h2 => ite_keeps (ite_keeps h2 (h2.reclaimFor.bind fun _ h3 => h3.takePreLocal)) h2

protected theorem State.memOk.drainOne {t} (h : s.memOk) : OptOk (drainOne s t) := by
  unfold drainOne
  dsimp only
  split
  · exact trivial
  · refine ite_keeps (h.roomFor.map fun _ h1 => h1.upd) ?_
    refine ite_keeps trivial ?_
    refine ite_keeps trivial ?_
    split
    · exact trivial
    · exact (((h.retakePre.some ‹_›).modThread).storeEcc).pokeCells

protected theorem State.memOk.noteSbRecall {t} (h : s.memOk) : (noteSbRecall s t).memOk := by
  unfold noteSbRecall
  dsimp only
  split
  · exact h
  · split
    · exact h
    · exact ite_keeps h h.upd

protected theorem State.memOk.drainAll {t n} (h : s.memOk) : (drainAll t n s).memOk := by
  induction n generalizing s with
  | zero =>
    unfold drainAll
    exact h
  | succ n ih =>
    unfold drainAll
    split
    · exact h.noteSbRecall
    · exact ih (h.drainOne.some ‹_›)

protected theorem State.memOk.withDrain {k : State → State} (h : s.memOk) (hk : ∀ u, u.memOk → (k u).memOk) :
    (s.withDrain k).memOk := ite_keeps (hk _ h.drainAll) h.drainAll

protected theorem State.memOk.withVector {k : State → State} (h : s.memOk) (hk : ∀ u, u.memOk → (k u).memOk) :
    (s.withVector k).memOk := ite_keeps h (hk _ h)

protected theorem State.memOk.withDraws {k : State → State} (h : s.memOk) (hk : ∀ u, u.memOk → (k u).memOk) :
    (s.withDraws k).memOk := ite_keeps h (hk _ h)

protected theorem State.memOk.putRequest {die base r} (h : s.memOk) : (putRequest s die base r).memOk := by
  unfold putRequest
  refine ite_keeps nofun ?_
  dsimp only
  split
  · exact nofun
  · have h1 := h.takeUndo.some ‹_›
    split
    · exact nofun
    · have h2 := h1.takeUndo.some ‹_›
      exact RingAnswer.memOk_written h2.writeWord.writeWord.writeWord.writeWord.writeWord.dieEvent

protected theorem State.memOk.ringVersionFull {die r line} (h : s.memOk) :
    (ringVersionFull s die r line).memOk := ite_keeps h h.upd

protected theorem State.memOk.pageRequest {die r} (h : s.memOk) : (pageRequest s die r).memOk := by
  unfold pageRequest
  split
  · exact h
  · refine ite_keeps h.modDie ?_
    split
    · exact h.putRequest.written ‹_›
    · exact h.modDie
    · exact h.modDie.ringVersionFull

protected theorem State.memOk.retryRequests {die seen l} (h : s.memOk) :
    (retryRequests s die seen l).memOk := by
  induction l generalizing s seen with
  | nil =>
    unfold retryRequests
    exact h
  | cons r l ih =>
    unfold retryRequests
    refine ite_keeps (ih h) ?_
    split
    · exact ih h.modDie
    · obtain ⟨base, _, e⟩ := Option.map_eq_some_iff.mp ‹_›
      exact (h.putRequest.written e).modDie
    · exact ih h
    · exact ih h.ringVersionFull

protected theorem State.memOk.upcall {t fa pc resume vec wr} (h : s.memOk) :
    (upcall s t fa pc resume vec wr).memOk := by
  unfold upcall
  refine ite_keeps trivial ?_
  split
  · exact trivial
  · refine ite_keeps trivial ?_
    split
    · refine ite_keeps trivial ?_
      split
      · exact ((((h.takePre.taken ‹_›).ready).modThread).trace).pageRequest
      · exact trivial
      · exact trivial
    · exact trivial

protected theorem State.memOk.pageFault {fa wr} (h : s.memOk) : (s.pageFault fa wr).memOk := by
  unfold State.pageFault
  refine ite_keeps h ?_
  split
  · exact h.issued.upcall.entered ‹_›
  · exact h.drainAll
  · exact h.raise

/-! ### Operations of Machine/Operands -/

protected theorem State.memOk.binary {f d a b} (h : s.memOk) : (binary f d a b s).memOk :=
  h.withG fun _ h1 => h1.putG.advance

protected theorem State.memOk.unary {f d a} (h : s.memOk) : (unary f d a s).memOk :=
  h.withG fun _ h1 => h1.putG.advance

protected theorem State.memOk.branch {taken a b off} (h : s.memOk) : (branch taken a b off s).memOk :=
  h.withG fun _ h1 => ite_keeps h1.jump h1.advance

protected theorem State.memOk.loadThen {ea z} {k : List Byte → State → State} (h : s.memOk)
    (hk : ∀ u u1, u1.memOk → (k u u1).memOk) : (loadThen ea z s k).memOk := by
  unfold loadThen
  refine ite_keeps h.raise ?_
  split
  · exact h.deny
  · exact h.pageFault
  · split
    · exact hk _ _ (h.loadPlace.bytes ‹_›)
    · exact h.loadPlace.wait ‹_›
    · exact h.raise
    · exact ite_keeps h ((h.loadPlace.damaged ‹_›).raise)

protected theorem State.memOk.pushStore {p ea bs} (h : s.memOk) : (pushStore p ea bs s).memOk := h.upd

protected theorem State.memOk.storeRoom {p n} (h : s.memOk) : (storeRoom p n s).memOk := by
  unfold storeRoom
  refine ite_keeps h.takePre ?_
  split
  · exact h.stageRoom.some ‹_›
  · exact trivial

protected theorem State.memOk.storeThen {ea bs} {k : State → State} (h : s.memOk)
    (hk : ∀ u, u.memOk → (k u).memOk) : (storeThen ea bs s k).memOk := by
  unfold storeThen
  refine ite_keeps h.raise ?_
  split
  · exact h.deny
  · exact h.pageFault
  · refine ite_keeps h ?_
    split
    · exact h
    · exact h.raise
    · exact hk _ ((h.storeRoom.taken ‹_›).pushStore)

protected theorem State.memOk.load {z signed d a imm} (h : s.memOk) : (load z signed d a imm s).memOk :=
  h.withG fun _ h1 => h1.withVector fun _ h2 => h2.loadThen fun _ _ h3 => h3.putG.advance

protected theorem State.memOk.store {z a b imm} (h : s.memOk) : (store z a b imm s).memOk :=
  h.withG fun _ h1 => h1.withVector fun _ h2 => h2.storeThen fun _ h3 => h3.advance

/-! ### Operations of Machine/VectorUnit -/

protected theorem State.memOk.vectorTrap {t code fa wr e el} (h : s.memOk) :
    (vectorTrap s t code fa wr e el).memOk := by
  unfold vectorTrap
  refine ite_keeps h.modThread.enterTrap ?_
  dsimp only
  generalize hx : (if code = 5 then _ else UpcallAnswer.refused) = x
  have ha : x.memOk := hx ▸ ite_keeps h.upcall trivial
  split
  · exact State.memOk.modThread ha
  · exact h.drainAll
  · exact ite_keeps h.enterTrap h.enterTrap.modThread

protected theorem State.memOk.elemsCheck {t use w l acc} (h : s.memOk) :
    (elemsCheck s t use w l acc).memOk := by
  induction l generalizing acc with
  | nil =>
    unfold elemsCheck
    exact h
  | cons x l ih =>
    unfold elemsCheck
    split
    · exact ite_keeps h.deniedUse h
    · exact ih

protected theorem State.memOk.elemsLoad {t w l} {acc} (h : s.memOk) : (elemsLoad t w l s acc).memOk := by
  induction l generalizing s acc with
  | nil =>
    unfold elemsLoad
    exact h
  | cons x l ih =>
    unfold elemsLoad
    split
    · exact ih (h.loadPlace.bytes ‹_›)
    · exact h.loadPlace.wait ‹_›
    · exact h
    · exact h.loadPlace.damaged ‹_›

protected theorem State.memOk.elemsRoom {t w scatter data l es} (h : s.memOk) :
    (elemsRoom t w scatter data l es s).memOk := by
  induction l generalizing es s with
  | nil =>
    unfold elemsRoom
    exact h
  | cons x l ih =>
    unfold elemsRoom
    refine ite_keeps ?_ ?_
    · split
      · exact ih (h.takePre.taken ‹_›)
      · exact h
      · exact h
    · split
      · exact ih (h.stageRooms.some ‹_›)
      · exact h

protected theorem State.memOk.writeV {t e x fl} (h : s.memOk) : (writeV s t e x fl).memOk :=
  ite_keeps h.upd.wakeWfi h.upd

protected theorem State.memOk.pushQ {t q ws} (h : s.memOk) : (pushQ s t q ws).memOk := h.upd.wake.wakeWfi

protected theorem State.memOk.popQ {t q} (h : s.memOk) : (popQ s t q).memOk := h.upd.wake

protected theorem State.memOk.countFloat {t ty n} (h : s.memOk) : (countFloat s t ty n).memOk :=
  ite_keeps h.upd h

protected theorem State.memOk.runLoad {t e form base stride} (h : s.memOk) :
    (runLoad s t e form base stride).memOk := by
  unfold runLoad
  dsimp only
  split
  · exact h.elemsCheck.trap ‹_›
  · exact h.elemsCheck.wait ‹_›
  · split
    · exact ((h.elemsCheck.all ‹_›).elemsLoad).trap ‹_›
    · exact ((h.elemsCheck.all ‹_›).elemsLoad).wait ‹_›
    · exact (((h.elemsCheck.all ‹_›).elemsLoad).all ‹_›).writeV

protected theorem State.memOk.runStore {t e form base stride} (h : s.memOk) :
    (runStore s t e form base stride).memOk := by
  unfold runStore
  dsimp only
  split
  · exact h.elemsCheck.trap ‹_›
  · exact h.elemsCheck.wait ‹_›
  · refine ite_keeps (h.elemsCheck.all ‹_›) ?_
    split
    · exact ((h.elemsCheck.all ‹_›).elemsRoom).trap ‹_›
    · exact ((h.elemsCheck.all ‹_›).elemsRoom).wait ‹_›
    · exact (((h.elemsCheck.all ‹_›).elemsRoom).all ‹_›).modThread

protected theorem State.memOk.runEntry {t e ca cb} (h : s.memOk) : (runEntry s t e ca cb).memOk := by
  unfold runEntry
  split
  · exact h.writeV
  · exact h.writeV.countFloat
  · exact h.upd.countFloat
  · exact h.writeV.modThread.countFloat
  · show State.memOk _
    split
    · exact h.writeV.countFloat
    · exact h.writeV.countFloat
    · exact h.writeV.countFloat
    · exact h.writeV
  · exact h.writeV.countFloat
  · exact h.writeV
  · exact h.writeV
  · exact h.writeV
  · exact h.writeV
  · split
    · dsimp only
      split
      · exact h.runLoad
      · exact h
      · split
        · exact (h.runLoad.done ‹_›).popQ
        · exact h.runLoad
    · exact h.runLoad
  · exact h.runStore
  · exact ite_keeps h.pushQ h
  · exact h.upd
  · exact h.upd
  · exact h.upd
  · exact h.upd
  · exact ite_keeps h.pushQ h
  · exact ite_keeps h.pushQ h
  · exact ite_keeps h.pushQ h
  · dsimp only
    split
    · exact h
    · exact h.writeV.popQ

protected theorem State.memOk.keepPopped {t e} (h : s.memOk) : (keepPopped s t e).memOk := by
  unfold keepPopped
  split
  · split
    · exact h.popQ.modThread
    · exact h
  · exact h

protected theorem State.memOk.vectorIssued {t} (h : s.memOk) : (vectorIssued s t).memOk := by
  unfold vectorIssued
  refine ite_keeps ?_ h.upd
  split
  · exact h.upd
  · exact h.upd

protected theorem State.memOk.entryEcc {t e} {k : State → State} (h : s.memOk)
    (hk : ∀ u, u.memOk → (k u).memOk) : (entryEcc s t e k).memOk := by
  unfold entryEcc
  dsimp only
  split
  · split
    · refine ite_keeps (hk _ h) ?_
      split
      · exact h.threadUnc.vectorTrap.tookFree
      · exact hk _ h.mendRegs
    · refine ite_keeps (hk _ h.upd) ?_
      split
      · exact h.upd.threadUnc.vectorTrap.tookFree
      · exact hk _ h.upd.mendRegs
    · exact h.upd.threadUnc.vectorTrap.tookFree
  · split
    · refine ite_keeps (hk _ h.upd) ?_
      split
      · exact h.upd.threadUnc.vectorTrap.tookFree
      · exact hk _ h.upd.mendRegs
    · refine ite_keeps (hk _ h.upd) ?_
      split
      · exact h.upd.threadUnc.vectorTrap.tookFree
      · exact hk _ h.upd.mendRegs
    · exact h.upd.threadUnc.vectorTrap.tookFree
  · exact h.upd.threadUnc.vectorTrap.tookFree

protected theorem State.memOk.vectorTurn {core slot stalled} (h : s.memOk) :
    (vectorTurn core slot stalled s).memOk := by
  unfold vectorTurn
  split
  · exact h
  · refine ite_keeps ?_ ?_
    · refine h.entryEcc fun _ h1 => ?_
      split
      · exact h1.runEntry.wait ‹_›
      · exact ((h1.runEntry.trap ‹_›).keepPopped).vectorTrap
      · exact ((h1.runEntry.done ‹_›).modThread).vectorIssued
    · split
      · exact h.runEntry.wait ‹_›
      · exact h

/-! ### Operations of Machine/Fetch -/

protected theorem State.memOk.fetchLine {core ctx va} (h : s.memOk) : FetchOk (fetchLine s core ctx va) := by
  unfold fetchLine
  split
  · exact trivial
  · dsimp only
    split
    · exact trivial
    · split
      · exact trivial
      · split
        · exact trivial
        · split
          · exact h.readEccs.uncorrectable ‹_›
          · split
            · exact h.readEccs.clean ‹_›
            · exact trivial
            · exact ((h.readEccs.clean ‹_›).needLine).present ‹_›

protected theorem State.memOk.fetchMiss {core slot ctx va} (h : s.memOk) :
    (fetchMiss s core slot ctx va).memOk := by
  unfold fetchMiss
  split
  · exact h.fetchLine.inl ‹_›
  · exact (h.fetchLine.inr ‹_›).modCore

protected theorem State.memOk.fetchHalf {core slot ctx va} (h : s.memOk) :
    (fetchHalf s core slot ctx va).memOk := by
  unfold fetchHalf
  dsimp only
  split
  · split
    · exact h.upd
    · exact h.upd.fetchMiss
  · exact h.fetchMiss

protected theorem State.memOk.fetchFrom {core slot ctx pc n hs} (h : s.memOk) :
    (fetchFrom core slot ctx pc n hs s).memOk := by
  induction n generalizing hs s with
  | zero =>
    unfold fetchFrom
    exact h
  | succ n ih =>
    unfold fetchFrom
    dsimp only
    split
    · exact h.fetchHalf.wait ‹_›
    · exact h
    · exact h.fetchHalf.damaged ‹_›
    · split
      · exact h.fetchHalf.half ‹_›
      · exact ih (h.fetchHalf.half ‹_›)
      · exact h.fetchHalf.half ‹_›

protected theorem State.memOk.fetch {t} (h : s.memOk) : (fetch s t).memOk := h.fetchFrom

protected theorem State.memOk.fetchTrap {t code va} (h : s.memOk) : (fetchTrap s t code va).memOk :=
  ite_keeps h (State.memOk.enterTrap (ite_keeps h.upd h))

protected theorem State.memOk.pendingTrap {t} (h : s.memOk) : OptOk (pendingTrap s t) := by
  unfold pendingTrap
  refine ite_keeps trivial ?_
  split
  · exact h.upd.enterTrap
  · split
    · exact h.upd.enterTrap
    · exact trivial

protected theorem State.memOk.takeJobEvent {die npc} (h : s.memOk) : (takeJobEvent s die npc).memOk := by
  unfold takeJobEvent
  split
  · exact h
  · exact h.upd.ready.modThread.trace

protected theorem State.memOk.wakeControl {die} (h : s.memOk) : (wakeControl s die).memOk :=
  ite_keeps h (ite_keeps h.takeJobEvent h.upd.ready)

protected theorem State.memOk.prepareIssue {core slot stalled} (h : s.memOk) :
    (prepareIssue core slot stalled s).memOk := by
  unfold prepareIssue
  extract_lets t s1
  have h1 : s1.memOk := ite_keeps h.wakeControl h
  refine ite_keeps h1 ?_
  split
  · exact h1.pendingTrap.some ‹_›
  · refine ite_keeps h1.wakeWfi ?_
    split
    · exact h1.fetch.wait ‹_›
    · exact State.memOk.fetchTrap (h1.fetch.trap ‹_›)
    · show State.memOk _
      exact ite_keeps h1 (State.memOk.fetchTrap (h1.fetch.damaged ‹_›))
    · exact State.memOk.raise (State.memOk.upd (h1.fetch.illegal ‹_›))
    · exact State.memOk.upd (h1.fetch.instr ‹_›)

/-! ### Operations of Machine/Atomic -/

protected theorem State.memOk.atSlice {p ea n f} {k : List Byte → State → State}
    (hk : ∀ u u1, u1.memOk → (k u u1).memOk) (h : s.memOk) : (atSlice p ea n f k s).memOk := by
  unfold atSlice
  split
  · exact h.loadPlace.wait ‹_›
  · exact h.raise
  · exact ite_keeps h ((h.loadPlace.damaged ‹_›).raise)
  · split
    · exact hk _ _ (h.loadPlace.bytes ‹_›)
    · split
      · exact h.loadPlace.bytes ‹_›
      · exact (h.loadPlace.bytes ‹_›).raise
      · exact hk _ _ ((((h.loadPlace.bytes ‹_›).takePre).taken ‹_›).pokeCells)

protected theorem State.memOk.rmwTarget {ea z} {k : Place → State → State} (h : s.memOk)
    (hk : ∀ u u1, u1.memOk → (k u u1).memOk) : (rmwTarget ea z s k).memOk := by
  unfold rmwTarget
  refine ite_keeps h.raise ?_
  split
  · exact h.deny
  · exact h.pageFault
  · exact h.withDrain fun _ h1 => hk _ _ h1

protected theorem State.memOk.amo {f d a b} (h : s.memOk) : (amo f d a b s).memOk :=
  h.withG fun _ h1 => h1.withVector fun _ h2 => h2.rmwTarget fun _ _ h3 => h3.atSlice fun _ _ h4 =>
    h4.putG.advance

protected theorem State.memOk.bankOp {o n a b} (h : s.memOk) : (bankOp o n a b s).memOk := by
  unfold bankOp
  refine h.withG fun _ h1 => ?_
  refine h1.withVector fun _ h2 => ?_
  refine ite_keeps h2.raise ?_
  refine ite_keeps h2.raise ?_
  refine ite_keeps h2.raise ?_
  split
  · exact h2.raise
  · exact h2.raise
  · refine h2.rmwTarget fun _ _ h3 => ?_
    split
    · exact h3.loadPlace.wait ‹_›
    · exact h3.raise
    · exact ite_keeps h3 ((h3.loadPlace.damaged ‹_›).raise)
    · exact (h3.loadPlace.bytes ‹_›).atSlice fun _ _ h4 => h4.upd.advance

/-! ### Operations of Machine/Engine -/

protected theorem State.memOk.requestLeave {die ctx cost what} (h : s.memOk) :
    (requestLeave s die ctx cost what).1.memOk := by
  unfold requestLeave
  dsimp only
  split
  · exact h.upd
  · exact h.upd

protected theorem State.memOk.returnLeave {die ctx cost l what} (h : s.memOk) :
    (returnLeave s die ctx cost l what).memOk := by
  unfold returnLeave
  split
  · exact h
  · exact h.upd
  · exact h.upd
  · exact h.upd

protected theorem State.memOk.modOp {op f} (h : s.memOk) : (s.modOp op f).memOk := h.upd

protected theorem State.memOk.askFor {o} (h : s.memOk) : (askFor s o).memOk :=
  ite_keeps h.requestLeave.modOp h

protected theorem State.memOk.askAll (h : s.memOk) : (askAll s).memOk := h.foldl fun _ _ h1 => h1.askFor

protected theorem State.memOk.releaseLines {op} (h : s.memOk) : (releaseLines s op).memOk := h.upd

protected theorem State.memOk.noteNextFailure {o status detail} (h : s.memOk) :
    (noteNextFailure s o status detail).memOk := State.memOk.modCore (ite_keeps h h.upd)

protected theorem State.memOk.completeOne {o status detail} (h : s.memOk) :
    (completeOne s o status detail).memOk := by
  unfold completeOne
  extract_lets w s1 s2 s3 s4 s5 s6
  have h3 : s3.memOk := State.memOk.returnLeave (s := s2) h.upd
  have h4 : s4.memOk := ite_keeps h3 h3.fillG
  have h5 : s5.memOk := ite_keeps h4.count h4
  have h6 : s6.memOk := ite_keeps h5.noteNextFailure h5
  exact h6.trace

protected theorem State.memOk.completeOp {n} {o status detail} (h : s.memOk) :
    (Machine.complete n s o status detail).memOk := by
  induction n generalizing s o status detail with
  | zero =>
    unfold Machine.complete
    exact h.completeOne
  | succ n ih =>
    unfold Machine.complete
    refine h.completeOne.foldl fun _ _ h1 => ?_
    split
    · exact ih h1
    · exact h1

protected theorem State.memOk.complete {o status detail} (h : s.memOk) :
    (s.complete o status detail).memOk := h.completeOp.askAll

protected theorem State.memOk.holdWrite {o loc} (h : s.memOk) : (holdWrite s o loc).memOk := ite_keeps h h.upd

protected theorem State.memOk.enginePre {die ctx loc w} (h : s.memOk) :
    (enginePre s die ctx loc w).memOk := by
  unfold enginePre
  refine ite_keeps ?_ (ite_keeps ?_ ?_)
  · dsimp only
    generalize hx : (if w = 0 then reclaim s (localCore loc) (loc % 65536 / 4096) else some s) = x
    have hs : OptOk x := hx ▸ ite_keeps h.reclaim (OptOk.intro h)
    cases x with
    | none => trivial
    | some u =>
      dsimp only
      split
      · exact State.memOk.takePreLocal (s := u) hs |>.some ‹_›
      · trivial
  · split
    · exact h.takePreDie.some ‹_›
    · trivial
  · split
    · trivial
    · split
      · have hs := h.needLine.present ‹_›
        split
        · obtain ⟨l, _, hl⟩ := Option.bind_eq_some_iff.mp ‹_›
          exact hs.takePrePaged.some hl
        · trivial
      · trivial
      · trivial

protected theorem State.memOk.pokeBytes {die ctx loc bs} (h : s.memOk) :
    (pokeBytes s die ctx loc bs).memOk := h.storeEcc.pokeCells

protected theorem State.memOk.pokeCommitted {die ctx loc bs} (h : s.memOk) :
    (pokeCommitted s die ctx loc bs).memOk := by
  unfold pokeCommitted
  refine ite_keeps ?_ ?_
  · split
    · exact trivial
    · exact (h.storeEcc.reclaim.some ‹_›).landEach fun _ _ _ h1 => h1.landLocal
  · refine ite_keeps (h.storeEcc.landEach fun _ _ _ h1 => h1.landDie) ?_
    split
    · exact trivial
    · split
      · exact trivial
      · exact trivial
      · exact (h.storeEcc.needLine.present ‹_›).landEach fun _ _ _ h1 => h1.landPaged

protected theorem State.memOk.stageLine {o cells} (h : s.memOk) : (stageLine s o cells).memOk := by
  unfold stageLine
  split
  · exact trivial
  · exact (h.roomFor.some ‹_›).upd

protected theorem State.memOk.releaseLine {op loc} (h : s.memOk) : (releaseLine s op loc).memOk := h.upd

protected theorem State.memOk.keepCounts {o} {s' : State} (h : s'.memOk) : (keepCounts o s s').memOk :=
  ite_keeps h.upd h

protected theorem State.memOk.noteEngRecall {op loc} (h : s.memOk) : (noteEngRecall s op loc).memOk := by
  unfold noteEngRecall
  split
  · exact h
  · exact ite_keeps h h.upd

protected theorem State.memOk.writeNear {o a bs} (h : s.memOk) : (writeNear s o a bs).memOk := by
  have hw : (if o.nxt = .due then pokeCommitted s (dieOf o.core) o.ctx a bs
      else match enginePre s (dieOf o.core) o.ctx a (writerOf o.slot) with
        | .taken s => .taken (pokeBytes s (dieOf o.core) o.ctx a bs)
        | x => x).memOk := by
    refine ite_keeps h.pokeCommitted ?_
    split
    · exact (h.enginePre.taken ‹_›).pokeBytes
    · exact h.enginePre
  unfold writeNear
  refine ite_keeps trivial ?_
  split
  · exact State.memOk.keepCounts (hw.taken ‹_›)
  · exact hw

protected theorem State.memOk.writeEach {o n l} (h : s.memOk) : (writeEach o n l s).1.memOk := by
  induction n generalizing l s with
  | zero =>
    unfold writeEach
    exact h
  | succ n ih =>
    cases l with
    | nil =>
      unfold writeEach
      exact h
    | cons w l =>
      unfold writeEach
      dsimp only
      generalize hx : (if w.1 then stageLine s o _ else writeNear s o w.2.1 w.2.2) = x
      have ha : x.memOk := hx ▸ ite_keeps h.stageLine h.writeNear
      cases x with
      | wait => exact ite_keeps h.noteEngRecall h
      | full => exact h.holdWrite
      | taken u => exact ih (State.memOk.modOp (ite_keeps (State.memOk.releaseLine ha) ha))

protected theorem State.memOk.itemsPre {o l} (h : s.memOk) : (itemsPre o l s).1.memOk := by
  induction l generalizing s with
  | nil =>
    unfold itemsPre
    exact h
  | cons x l ih =>
    unfold itemsPre
    split
    · exact ih h
    · split
      · exact ih ((h.enginePre.taken ‹_›).keepCounts)
      · exact h.enginePre

protected theorem State.memOk.writeItems {o all items} (h : s.memOk) :
    (writeItems o all items s).1.memOk := by
  unfold writeItems
  have hp := h.itemsPre (o := o) (l := all)
  split
  · next u _ e => rw [e] at hp; exact State.memOk.writeEach (s := u) hp
  · exact h
  · exact h.holdWrite

protected theorem State.memOk.ownParts {o nxt parts} (h : s.memOk) : OptOk (ownParts s o nxt parts) := by
  unfold ownParts
  refine foldl_keeps (OptOk.intro h) fun _ x ha => ha.bind fun u hu => ite_keeps hu ?_
  extract_lets loc l v
  have hv : v.memOk := ite_keeps hu hu.upd
  refine ite_keeps hv ?_
  split
  · exact (hv.enginePre.taken ‹_›).keepCounts
  · trivial
  · show State.memOk _
    split
    · exact hv.holdWrite
    · exact hv

protected theorem State.memOk.readPre {die ctx core slot p n} (h : s.memOk) :
    (readPre s die ctx core slot p n).memOk := by
  unfold readPre
  generalize hx : (if preKept s die ctx core slot p then EccAnswer.clean s else readEccs s die ctx
    (p.loc core) n) = x
  have ha : x.memOk := hx ▸ ite_keeps (a := EccAnswer.clean s) h h.readEccs
  cases x with
  | uncorrectable u l => exact ha
  | clean u =>
    show State.memOk _
    split
    · exact State.memOk.touchTlb ha
    · exact ha

protected theorem State.memOk.engineRead {o x wait} (h : s.memOk) : (engineRead s o x wait).memOk := by
  unfold engineRead
  refine ite_keeps h.noteEngRecall ?_
  split
  · exact h
  · exact ite_keeps ((h.reclaimFor.some ‹_›).readPre) ((h.reclaimFor.some ‹_›).readPlace)

protected theorem State.memOk.engineReads {o wait l} {acc} (h : s.memOk) :
    (engineReads o wait l s acc).memOk := by
  induction l generalizing s acc with
  | nil =>
    unfold engineReads
    exact h
  | cons x l ih =>
    unfold engineReads
    split
    · exact ih (h.engineRead.bytes ‹_›)
    · exact h.engineRead

/-! ### Operations of Machine/Remote -/

protected theorem State.memOk.remote {t w n block noLocal loc use} {k : ℕ → State → State} (h : s.memOk)
    (hk : ∀ u u1, u1.memOk → (k u u1).memOk) : (remote t w n block noLocal loc use s k).memOk := by
  unfold remote
  refine ite_keeps h.raise ?_
  refine ite_keeps h.raise ?_
  split
  · exact h.raise
  · refine ite_keeps h.raise ?_
    dsimp only
    split
    · exact h.pageFault
    · exact h.deniedUse.raise
    · exact h.withDrain fun _ h1 => hk _ _ h1

protected theorem State.memOk.stageOr {m t n act} {k : State → State} (h : s.memOk)
    (hk : ∀ u, u.memOk → (k u).memOk) : (stageOr m t n act s k).memOk := by
  unfold stageOr
  dsimp only
  split
  · exact h.raise
  · exact hk _ ((h.stageRoom.some ‹_›).stage)

protected theorem State.memOk.ownBytes {a n} (h : s.memOk) : (ownBytes s a n).memOk := by
  unfold ownBytes
  split
  · exact trivial
  · refine foldl_keeps h fun _ _ h1 => ?_
    split
    · split
      · exact h1.loadPlace.bytes ‹_›
      · exact h1.loadPlace
    · exact h1

protected theorem State.memOk.execPutB {d a b} (h : s.memOk) : OutcomeOk (execPutB d a b s) := by
  unfold execPutB
  show State.memOk _
  refine h.withG fun _ h1 => ?_
  refine h1.withVector fun _ h2 => ?_
  refine h2.remote fun _ _ h3 => ?_
  split
  · exact h3.ownBytes.wait ‹_›
  · exact h3.raise
  · exact ite_keeps h3 ((h3.ownBytes.damaged ‹_›).raise)
  · exact (h3.ownBytes.bytes ‹_›).stageOr fun _ h4 => h4.advance

protected theorem State.memOk.markRamo {d} (h : s.memOk) : (markRamo d s).memOk := ite_keeps h h.upd

protected theorem State.memOk.ramo {f d a b} (h : s.memOk) : (ramo f d a b s).memOk :=
  h.withG fun _ h1 => h1.withVector fun _ h2 => h2.remote fun _ _ h3 => h3.stageOr fun _ h4 =>
    h4.markRamo.advance

protected theorem State.memOk.preRange {core slot ctx l} {acc} (h : s.memOk) :
    (preRange core slot ctx l s acc).memOk := by
  induction l generalizing s acc with
  | nil =>
    unfold preRange
    exact h
  | cons x l ih =>
    unfold preRange
    split
    · refine ite_keeps trivial ?_
      split
      · exact trivial
      · split
        · exact ih (((h.reclaimFor.some ‹_›).readPre).bytes ‹_›)
        · exact ((h.reclaimFor.some ‹_›).readPre).damaged ‹_›
        · exact trivial
    · exact h

protected theorem State.memOk.endGet {g w} (h : s.memOk) : (endGet s g w).memOk := h.upd.fillG

protected theorem State.memOk.linesPre {die ctx w l} (h : s.memOk) : (linesPre die ctx w l s).1.memOk := by
  induction l generalizing s with
  | nil =>
    unfold linesPre
    exact h
  | cons x l ih =>
    unfold linesPre
    split
    · exact ih (h.enginePre.taken ‹_›)
    · exact h.enginePre

protected theorem State.memOk.getWrite {g l bs} (h : s.memOk) : (getWrite g l bs s).memOk := by
  induction l generalizing bs s with
  | nil =>
    unfold getWrite
    exact h
  | cons x l ih =>
    unfold getWrite
    exact ih h.pokeBytes

protected theorem State.memOk.stopGet {g} (h : s.memOk) : (stopGet s g).memOk := h.upd

protected theorem State.memOk.fillGet {g} (h : s.memOk) : (fillGet s g).memOk := by
  have ha : (if g.tmod = s.modnum then preRange g.core g.slot g.ctx (partsOf g.addr g.len) s []
      else if s.failedModules.contains g.tmod then .got s none
      else match g.reply with
        | some r => .got s (if r.1 then some r.2 else none)
        | none => .waits).memOk := by
    refine ite_keeps h.preRange (ite_keeps h ?_)
    split
    · exact h
    · trivial
  unfold fillGet
  refine ite_keeps h ?_
  split
  · exact h
  · exact (ha.damaged ‹_›).stopGet
  · have hs := ha.got ‹_›
    split
    · exact hs.endGet
    · split
      · exact hs.endGet
      · refine ite_keeps hs ?_
        split
        · next u _ e => exact ((PreAnswer.memOk.taken hs.linesPre (congrArg Prod.fst e)).getWrite).endGet
        · exact hs
        · exact ite_keeps hs hs.upd

protected theorem State.memOk.execGetFill {op} (h : s.memOk) : OutcomeOk (execGetFill op s) := by
  unfold execGetFill
  show State.memOk _
  split
  · exact h
  · exact h.fillGet

/-! ### Operations of Machine/Threads -/

protected theorem State.memOk.execQpop {d a} (h : s.memOk) : OutcomeOk (execQpop d a s) := by
  unfold execQpop
  show State.memOk _
  dsimp only
  split
  · exact h.upd
  · exact h.readQueues fun _ h1 => h1.upd.putG.advance

protected theorem State.memOk.startThread {core slot ctx pc regs} (h : s.memOk) :
    (startThread s core slot ctx pc regs).memOk := h.upd.ready.trace

protected theorem State.memOk.withQueue {ctx cluster} {k : State → State} (h : s.memOk)
    (hk : ∀ u, u.memOk → (k u).memOk) : (s.withQueue ctx cluster k).memOk := by
  unfold State.withQueue
  split
  · exact ite_keeps h h.upd
  · have hr (l : List EccMark) : (l.foldl (fun acc m => match acc with
        | .clean s => readEcc s (cluster / 32) ctx m.loc
        | x => x) (EccAnswer.clean s)).memOk :=
      foldl_keeps (P := EccAnswer.memOk) h fun acc m ha => by
        cases acc with
        | clean u => exact State.memOk.readEcc ha
        | uncorrectable u l => exact ha
    dsimp only
    split
    · exact hk _ (ite_keeps ((hr _).clean ‹_›) ((hr _).clean ‹_›).upd)
    · exact ite_keeps h ((hr _).uncorrectable ‹_›)

protected theorem State.memOk.withQueues {ctx l} {k : State → State} (hk : ∀ u, u.memOk → (k u).memOk)
    (h : s.memOk) : (withQueues ctx l k s).memOk := by
  induction l generalizing s with
  | nil =>
    unfold withQueues
    exact hk _ h
  | cons x l ih =>
    unfold withQueues
    exact h.withQueue fun _ h1 => ih h1

protected theorem State.memOk.preDieRange {die a n} (h : s.memOk) : OptOk (preDieRange s die a n) :=
  foldl_keeps h fun _ _ h1 => h1.bind fun _ h2 => h2.takePreDie

protected theorem State.memOk.setQueueWord {q head count} (h : s.memOk) :
    (setQueueWord s q head count).memOk := h.writeN

protected theorem State.memOk.enqueue {ctx cluster words} (h : s.memOk) :
    (enqueue s ctx cluster words).memOk := by
  unfold enqueue
  split
  · exact trivial
  · refine ite_keeps trivial ?_
    dsimp only
    split
    · exact trivial
    · exact State.memOk.setQueueWord
        (State.memOk.writeN ((h.preDieRange.bind fun _ h1 => h1.preDieRange).some ‹_›))

protected theorem State.memOk.removeTask {cluster q i} (h : s.memOk) : OptOk (removeTask s cluster q i) := by
  induction i generalizing s with
  | zero =>
    unfold removeTask
    exact h.preDieRange.map fun _ h1 => h1.setQueueWord
  | succ i ih =>
    unfold removeTask
    split
    · exact trivial
    · exact ih ((h.preDieRange.some ‹_›).writeN)

protected theorem State.memOk.noteReceived {ctx fresh} (h : s.memOk) :
    (noteReceived s ctx fresh).memOk := ite_keeps h.upd h

protected theorem State.memOk.dropMessage {m} (h : s.memOk) : (dropMessage s m).memOk := h.upd.noteReceived

protected theorem State.memOk.deliver {m} (h : s.memOk) : (deliver s m).memOk := by
  unfold deliver
  refine ite_keeps h.dropMessage ?_
  split
  · exact h.startThread.noteReceived
  · refine ite_keeps h.upd ?_
    split
    · exact (h.enqueue.queued ‹_›).noteReceived
    · exact h.upd

protected theorem State.memOk.refillQueue {ctx cluster n} (h : s.memOk) :
    (refillQueue ctx cluster n s).memOk := by
  induction n generalizing s with
  | zero =>
    unfold refillQueue
    exact h
  | succ n ih =>
    unfold refillQueue
    split
    · exact h
    · split
      · exact ih (((h.enqueue.queued ‹_›).modCluster).noteReceived)
      · exact h

protected theorem State.memOk.runTask {ctx core slot t} (h : s.memOk) : (runTask s ctx core slot t).memOk :=
  ite_keeps h.upd.trace.startThread (ite_keeps h.upd.trace.count h.upd.trace.startThread)

protected theorem State.memOk.execTaskDequeue {core slot} (h : s.memOk) :
    OutcomeOk (execTaskDequeue core slot s) := by
  unfold execTaskDequeue
  show State.memOk _
  refine ite_keeps h ?_
  refine h.withQueue fun _ h1 => ?_
  split
  · dsimp only
    split
    · exact h1
    · exact ite_keeps h1.upd.dropMessage h1.upd.startThread.noteReceived
  · split
    · dsimp only
      split
      · exact h1
      · exact ite_keeps h1.upd.dropMessage h1.upd.startThread.noteReceived
    · split
      · exact h1
      · exact ((h1.removeTask.some ‹_›).runTask).refillQueue

protected theorem State.memOk.attempts {ctx core slot l} (h : s.memOk) :
    (attempts ctx core slot l s).memOk := by
  induction l generalizing s with
  | nil =>
    unfold attempts
    exact h
  | cons x l ih =>
    unfold attempts
    split
    · split
      · exact h
      · exact ((h.removeTask.some ‹_›).runTask).refillQueue
    · exact ih h.upd

protected theorem State.memOk.stealTurn {cluster ctx} (h : s.memOk) : (stealTurn s cluster ctx).memOk := by
  unfold stealTurn
  refine h.withQueues fun _ h1 => ?_
  split
  · dsimp only
    split
    · exact State.memOk.count (ite_keeps h1.upd.attempts h1.upd)
    · exact h1.upd
  · exact ite_keeps h1.upd h1

protected theorem State.memOk.noteSent (h : s.memOk) : (noteSent s).memOk := h.upd

protected theorem State.memOk.execSpawn {d a b n} (h : s.memOk) : OutcomeOk (execSpawn d a b n s) := by
  unfold execSpawn
  show State.memOk _
  refine h.withG fun _ h1 => ?_
  refine h1.withVector fun _ h2 => ?_
  refine ite_keeps h2.raise ?_
  refine ite_keeps h2.raise ?_
  refine h2.withDrain fun _ h3 => ?_
  split
  · exact h3.upd.putG.advance
  · refine h3.withQueue fun _ h4 => ?_
    split
    · exact ((((h4.enqueue.queued ‹_›).putG).noteSent).noteReceived).advance
    · exact h4.putG.advance
    · exact h4.raise

protected theorem State.memOk.sendOp {a b n c} (h : s.memOk) : (Machine.send a b n c s).memOk := by
  unfold Machine.send
  exact h.withG fun _ h1 => h1.withVector fun _ h2 =>
    ite_keeps h2.raise (h2.withDrain fun _ h3 => ite_keeps h3.upd.advance (h3.stageOr fun _ h4 => h4.advance))

protected theorem State.memOk.execSpawnStart {op} (h : s.memOk) : OutcomeOk (execSpawnStart op s) := by
  unfold execSpawnStart
  show State.memOk _
  split
  · exact h
  · exact h.upd.startThread.noteReceived

protected theorem State.memOk.execDeliver {op} (h : s.memOk) : OutcomeOk (execDeliver op s) := by
  unfold execDeliver
  show State.memOk _
  split
  · exact h
  · exact ite_keeps h.upd.deliver (h.withQueue fun _ h1 => h1.upd.deliver)

protected theorem State.memOk.writeRecord {core slot off bs} (h : s.memOk) :
    (writeRecord s core slot off bs).memOk := by
  unfold writeRecord
  dsimp only
  split
  · exact (h.linesPre.taken ‹_›).pokeBytes
  · exact h.linesPre

protected theorem State.memOk.exit (h : s.memOk) : (exit s).memOk := by
  unfold exit
  dsimp only
  split
  · exact h.issued.count.modTh.modTh.park
  · exact h.issued.modTh.park

protected theorem State.memOk.keepResults {core slot} (h : s.memOk) : (keepResults s core slot).memOk := h.upd

protected theorem State.memOk.contribute {ctx vote quiet} (h : s.memOk) :
    (contribute s ctx vote quiet).memOk := h.upd

protected theorem State.memOk.clearCarve {core slot} (h : s.memOk) : (clearCarve s core slot).1.memOk := by
  unfold clearCarve
  dsimp only
  split
  · exact h
  · exact h.upd
  · exact (h.linesPre.taken ‹_›).foldl fun _ _ h1 => h1.pokeBytes

protected theorem State.memOk.execZeroing {core slot} (h : s.memOk) :
    OutcomeOk (execZeroing core slot s) := by
  unfold execZeroing
  show State.memOk _
  dsimp only
  refine ite_keeps h (ite_keeps h.upd.trace.modThread.clearCarve ?_)
  split
  · exact (h.writeRecord.taken ‹_›).upd.trace.modThread.clearCarve
  · exact h
  · exact h.enterTrap

protected theorem State.memOk.execStoreBufferDrain {core slot} (h : s.memOk) :
    OutcomeOk (execStoreBufferDrain core slot s) := by
  unfold execStoreBufferDrain
  show State.memOk _
  split
  · exact h.drainOne.some ‹_›
  · exact h.noteSbRecall

protected theorem State.memOk.execIcacheFill {core slot} (h : s.memOk) :
    OutcomeOk (execIcacheFill core slot s) := by
  unfold execIcacheFill
  show State.memOk _
  refine ite_keeps h ?_
  split
  · exact h.fetch.instr ‹_›
  · exact h.fetch.illegal ‹_›
  · exact h.fetch.wait ‹_›
  · exact h
  · exact h

/-! ### Operations of Machine/Matrix -/

protected theorem State.memOk.setAcc {core i x} (h : s.memOk) : (s.setAcc core i x).memOk := h.upd

protected theorem State.memOk.enterOp {o} (h : s.memOk) : (enterOp s o).memOk := h.upd.askAll

protected theorem State.memOk.ownerOnly {k : State → State} (h : s.memOk) (hk : ∀ u, u.memOk → (k u).memOk) :
    (ownerOnly s k).memOk := ite_keeps h.raise (hk _ h)

protected theorem State.memOk.execMcfg {a} (h : s.memOk) : OutcomeOk (execMcfg a s) := by
  unfold execMcfg
  show State.memOk _
  exact h.withG fun _ h1 => h1.ownerOnly fun _ h2 =>
    ite_keeps h2.raise (h2.withVector fun _ h3 => ite_keeps h3 (h3.withDrain fun _ h4 => h4.enterOp.advance))

protected theorem State.memOk.readDesc {a n} {k : List Word → State → State} (h : s.memOk)
    (hk : ∀ u u1, u1.memOk → (k u u1).memOk) : (readDesc a n s k).memOk := by
  unfold readDesc
  split
  · exact h.deny
  · exact h.pageFault
  · split
    · exact h.loadPlace.wait ‹_›
    · exact h.raise
    · exact ite_keeps h ((h.loadPlace.damaged ‹_›).raise)
    · exact hk _ _ (h.loadPlace.bytes ‹_›)

protected theorem State.memOk.execMjob {d a b} (h : s.memOk) : OutcomeOk (execMjob d a b s) := by
  unfold execMjob
  show State.memOk _
  exact h.withG fun _ h1 => h1.ownerOnly fun _ h2 => h2.withVector fun _ h3 =>
    ite_keeps h3.raise (ite_keeps h3.raise
    (ite_keeps h3.raise (ite_keeps h3
    (h3.withDrain fun _ h4 => h4.readDesc fun _ _ h5 => ite_keeps h5.raise h5.enterOp.advance))))

protected theorem State.memOk.execMcfgEffect {core} (h : s.memOk) : OutcomeOk (execMcfgEffect core s) := by
  unfold execMcfgEffect
  show State.memOk _
  split
  · exact h
  · split
    · exact h.upd.askAll
    · exact h

protected theorem State.memOk.readRanges {o wait ranges} (h : s.memOk) :
    ReadOk (readRanges s o wait ranges) := by
  unfold readRanges
  split
  · exact trivial
  · exact h.engineReads

protected theorem State.memOk.killOp {op} (h : s.memOk) : (killOp s op).memOk := h.upd

protected theorem State.memOk.beginJob {o w} (h : s.memOk) : (beginJob s o w).memOk := by
  unfold beginJob
  refine ite_keeps h.upd ?_
  dsimp only
  split
  · exact h
  · split
    · exact h
    · exact (h.readRanges.inr ‹_›).wait rfl
    · exact h
    · exact ((h.readRanges.inr ‹_›).damaged rfl).killOp
    · show State.memOk _
      split
      · exact ((h.readRanges.inr ‹_›).bytes rfl).modOp
      · exact (((h.readRanges.inr ‹_›).bytes rfl).setAcc).modOp

protected theorem State.memOk.accEcc {o i} {k : State → PassAnswer} (h : s.memOk)
    (hk : ∀ u, u.memOk → (k u).memOk) : (accEcc s o i k).memOk := by
  unfold accEcc
  dsimp only
  split
  · exact hk _ h
  · exact hk _ h.upd
  · exact h.upd.eccVote.killOp

protected theorem State.memOk.tilePass {o w} (h : s.memOk) : (tilePass s o w).memOk := by
  unfold tilePass
  dsimp only
  split
  · exact h
  · exact (h.readRanges.inr ‹_›).wait rfl
  · exact h
  · exact ((h.readRanges.inr ‹_›).damaged rfl).killOp
  · exact ((h.readRanges.inr ‹_›).bytes rfl).accEcc fun _ h1 =>
      State.memOk.modOp (State.memOk.count (State.memOk.count (ite_keeps h1.upd h1.upd)))

protected theorem State.memOk.choosePass {cluster run} (h : s.memOk) : (choosePass s cluster run).memOk := by
  unfold choosePass
  split
  · exact h.upd
  · exact h.upd

protected theorem State.memOk.runPass {cluster o w} (h : s.memOk) : (runPass s cluster o w).memOk := by
  unfold runPass
  split
  · exact ite_keeps (h.choosePass.tilePass.wait ‹_›) ((h.choosePass.tilePass.wait ‹_›).upd)
  · exact (h.choosePass.tilePass.fail ‹_›).complete
  · split
    · exact ite_keeps ((h.choosePass.tilePass.ran ‹_›).complete) (h.choosePass.tilePass.ran ‹_›)
    · exact h.choosePass.tilePass.ran ‹_›

protected theorem State.memOk.execTilePass {cluster} (h : s.memOk) : OutcomeOk (execTilePass cluster s) := by
  unfold execTilePass
  show State.memOk _
  refine ite_keeps h ?_
  split
  · dsimp only
    split
    · exact h
    · split
      · refine ite_keeps h.runPass ?_
        split
        · exact h.beginJob.wait ‹_›
        · exact (h.beginJob.fail ‹_›).complete
        · split
          · exact (h.beginJob.ran ‹_›).runPass
          · exact h.beginJob.ran ‹_›
      · exact h
  · dsimp only
    split
    · exact h.choosePass
    · split
      · refine ite_keeps h.choosePass.runPass ?_
        split
        · exact h.choosePass.beginJob.wait ‹_›
        · exact (h.choosePass.beginJob.fail ‹_›).complete
        · split
          · exact (h.choosePass.beginJob.ran ‹_›).runPass
          · exact h.choosePass.beginJob.ran ‹_›
      · exact h.choosePass

protected theorem State.memOk.execMdrain {d a b} (h : s.memOk) : OutcomeOk (execMdrain d a b s) := by
  unfold execMdrain
  show State.memOk _
  refine h.withG fun _ h1 => ?_
  refine h1.ownerOnly fun _ h2 => ?_
  refine h2.withVector fun _ h3 => ?_
  refine ite_keeps h3.raise ?_
  refine ite_keeps h3.raise ?_
  refine ite_keeps h3 ?_
  refine h3.withDrain fun _ h4 => ?_
  split
  · exact h4.enterOp.advance.complete
  · refine ite_keeps h4.raise ?_
    split
    · dsimp only
      split
      · exact (h4.enterOp.modTh.ownParts.some ‹_›).advance
      · exact h4
    · dsimp only
      split
      · exact (h4.enterOp.ownParts.some ‹_›).advance
      · exact h4

protected theorem State.memOk.redundantMismatch {o dw acc p} (h : s.memOk) :
    (redundantMismatch s o dw acc p).memOk := State.memOk.complete (ite_keeps h.upd h.upd)

protected theorem State.memOk.releaseUncovered {op ts} (h : s.memOk) :
    (releaseUncovered s op ts).memOk := h.upd

protected theorem State.memOk.startDrain {o dst dw rows cols} (h : s.memOk) :
    (startDrain s o dst dw rows cols).memOk := by
  unfold startDrain
  refine ite_keeps h (ite_keeps h ?_)
  split
  · exact h
  · split
    · exact h
    · exact (h.releaseUncovered.ownParts.some ‹_›).modOp

protected theorem State.memOk.flush {o} (h : s.memOk) : (flush s o).1.memOk := h.writeItems.modOp

protected theorem State.memOk.finishDrain {o dw} (h : s.memOk) : (finishDrain s o dw).memOk := by
  unfold finishDrain
  refine ite_keeps ?_ h.flush
  split
  · dsimp only
    split
    · exact h.flush.setAcc.complete
    · exact h.flush.setAcc
  · dsimp only
    split
    · exact h.flush.complete
    · exact h.flush

protected theorem State.memOk.openDrain {o} (h : s.memOk) : (openDrain s o).memOk := by
  unfold openDrain
  split
  · split
    · refine (h.startDrain.ran ‹_›).accEcc fun _ h1 => ?_
      dsimp only
      split
      · exact h1.redundantMismatch
      · exact h1.upd
    · exact h.startDrain
  · exact h

protected theorem State.memOk.execDrainRun {core} (h : s.memOk) : OutcomeOk (execDrainRun core s) := by
  unfold execDrainRun
  show State.memOk _
  refine ite_keeps h ?_
  split
  · exact h
  · split
    · refine ite_keeps h.finishDrain ?_
      split
      · exact h.openDrain.wait ‹_›
      · exact (h.openDrain.fail ‹_›).complete
      · split
        · exact (h.openDrain.ran ‹_›).finishDrain
        · exact h.openDrain.ran ‹_›
    · exact h

/-! ### Operations of Machine/Pages -/

protected theorem State.memOk.readList {k : List Word → State → State} {n a acc}
    (hk : ∀ u u1, u1.memOk → (k u u1).memOk) (h : s.memOk) : (readList k n a acc s).memOk := by
  induction n generalizing a acc s with
  | zero =>
    unfold readList
    exact hk _ _ h
  | succ n ih =>
    unfold readList
    split
    · refine ite_keeps h.raise ?_
      split
      · exact ih (h.loadPlace.bytes ‹_›)
      · exact h.loadPlace.wait ‹_›
      · exact h.raise
      · exact ite_keeps h ((h.loadPlace.damaged ‹_›).raise)
    · exact h.raise

protected theorem State.memOk.withList {a} {k : List Word → State → State} (h : s.memOk)
    (hk : ∀ u u1, u1.memOk → (k u u1).memOk) : (withList a s k).memOk := by
  unfold withList
  exact h.withG fun _ h1 => h1.withVector fun _ h2 =>
    ite_keeps h2.raise (h2.readList fun _ _ h3 => ite_keeps h3.raise (h3.readList hk))

protected theorem State.memOk.stagePage {die ctx w} (h : s.memOk) : (stagePage s die ctx w).memOk := by
  unfold stagePage
  refine ite_keeps h.upd ?_
  split
  · exact h.upd
  · refine ite_keeps h.upd ?_
    split
    · dsimp only
      split
      · exact h.upd
      · exact ((h.roomFor.some ‹_›).upd).touchTlb
    · dsimp only
      split
      · exact h.upd
      · exact ((h.roomFor.some ‹_›).upd).touchTlb

protected theorem State.memOk.execWbl {a} (h : s.memOk) : OutcomeOk (execWbl a s) := by
  unfold execWbl
  show State.memOk _
  refine h.withList fun _ _ h1 => ?_
  refine State.memOk.advance ?_
  refine h1.foldl fun _ _ h2 => ?_
  refine ite_keeps h2.upd ?_
  split
  · exact h2.upd
  · exact h2.upd.touchTlb

protected theorem State.memOk.execLineFill {die ctx va} (h : s.memOk) :
    OutcomeOk (execLineFill die ctx va s) := by
  unfold execLineFill
  show State.memOk _
  dsimp only
  split
  · exact ite_keeps h.fillEcc.setLine h
  · refine ite_keeps h ?_
    split
    · exact h
    · refine ite_keeps h ?_
      split
      · exact h.needLine.present ‹_›
      · exact h

protected theorem State.memOk.writeBackAll {p} (h : s.memOk) : (writeBackAll s p).memOk :=
  h.foldl fun _ _ h1 => h1.writeBack

protected theorem State.memOk.applyWbl {ctx w} (h : s.memOk) : (applyWbl s ctx w).memOk :=
  ite_keeps h.writeBackAll.dropLines h.writeBackAll

protected theorem State.memOk.shootDown {ic p} (h : s.memOk) : (shootDown s ic p).memOk :=
  ite_keeps h.upd h.upd

protected theorem State.memOk.notify {ctx page} (h : s.memOk) : (notify s ctx page).memOk :=
  h.foldl fun _ _ h1 => h1.upd.foldl fun _ _ h2 => h2.fillG

protected theorem State.memOk.sfence {a} (h : s.memOk) : (sfence a s).memOk := by
  unfold sfence
  exact ite_keeps h.raise (h.withG fun _ h1 =>
    ite_keeps h1.raise (State.memOk.advance (ite_keeps h1.shootDown.notify h1.shootDown)))

protected theorem State.memOk.setFrame {stack frame kind wipe ctx} (h : s.memOk) :
    (setFrame s stack frame kind wipe ctx).memOk := h.writeWord

protected theorem State.memOk.setNext {stack frame next} (h : s.memOk) :
    (setNext s stack frame next).memOk := h.writeN

protected theorem State.memOk.setAnchor {stack i head} (h : s.memOk) :
    (setAnchor s stack i head).memOk := h.writeN

protected theorem State.memOk.linkFrame {stack frame ctx vpn} (h : s.memOk) :
    (linkFrame s stack frame ctx vpn).memOk := h.setNext.setAnchor

protected theorem State.memOk.unlinkFrame {stack frame} (h : s.memOk) :
    (unlinkFrame s stack frame).memOk := by
  unfold unlinkFrame
  refine State.memOk.setNext ?_
  split
  · exact h
  · refine ite_keeps h.setAnchor ?_
    split
    · exact h.setNext
    · exact h

protected theorem State.memOk.assignFrame {stack frame kind ctx vpn} (h : s.memOk) :
    (assignFrame s stack frame kind ctx vpn).memOk := by
  unfold assignFrame
  exact ite_keeps (State.memOk.linkFrame
    (State.memOk.writeN (State.memOk.setFrame (ite_keeps h.unlinkFrame h))))
    (State.memOk.setFrame (ite_keeps h.unlinkFrame h))

protected theorem State.memOk.zeroRange {a n} (h : s.memOk) : (zeroRange s a n).memOk := Memory.wf_filter h _

protected theorem State.memOk.changePage {ctx page at_ op newStack newFrame img lg} (h : s.memOk) :
    (changePage s ctx page at_ op newStack newFrame img lg).memOk := by
  unfold changePage
  extract_lets _ s1 s2 _ _ s3 s4 s5 lo s6
  have h2 : s2.memOk := h.writeBackAll.dropLines
  have h5 : s5.memOk := ite_keeps h2.writeN.assignFrame.setFrame h2
  have h6 : s6.memOk := ite_keeps h5.writeWord h5.writeWord.writeWord
  exact h6.shootDown

protected theorem State.memOk.changeEntry {ctx a} (h : s.memOk) : (changeEntry ctx a s).memOk := by
  unfold changeEntry
  refine ite_keeps h ?_
  refine State.memOk.writeWord ?_
  split
  · exact h
  · refine ite_keeps ?_ h.changePage
    refine h.foldl fun _ _ h1 => ?_
    split
    · exact h1
    · exact h1.changePage

protected theorem State.memOk.shutterPass {ctx} (h : s.memOk) : (shutterPass s ctx).memOk :=
  h.foldl fun _ _ h1 => h1.foldl fun _ _ h2 => h2.changeEntry

/-! ### Operations of Machine/Vector -/

protected theorem State.memOk.queueEntry {op t m d a b ga gb} (h : s.memOk) :
    (queueEntry op t m d a b ga gb s).memOk := by
  unfold queueEntry
  split
  · split
    · dsimp only
      split
      · exact h.raise
      · exact ite_keeps h (h.readRegs fun _ h1 => h1.upd.advance)
    · dsimp only
      split
      · exact h.raise
      · exact ite_keeps h (h.readRegs fun _ h1 => h1.upd.advance)
  · split
    · dsimp only
      split
      · exact h.raise
      · exact ite_keeps h (h.readRegs fun _ h1 => h1.upd.advance)
    · exact ite_keeps h (h.readRegs fun _ h1 => h1.upd.advance)

protected theorem State.memOk.vmapPush {q td x pos next} (h : s.memOk) :
    (vmapPush q td x pos next s).memOk := ite_keeps h.upd h.upd.advance

/-! ### Operations of Machine/Copy -/

protected theorem State.memOk.enterCopy {o f w phys} (h : s.memOk) : (enterCopy o f w phys s).memOk := by
  unfold enterCopy
  refine ite_keeps h.enterOp.advance ?_
  split
  · exact h.upd.advance.complete
  · refine ite_keeps h.raise ?_
    split
    · dsimp only
      split
      · exact (h.enterOp.modTh.ownParts.some ‹_›).advance
      · exact h
    · dsimp only
      split
      · exact (h.enterOp.ownParts.some ‹_›).advance
      · exact h

protected theorem State.memOk.xpost {f next d a b} (h : s.memOk) : (xpost f next d a b s).memOk := by
  unfold xpost
  refine h.withG fun _ h1 => ?_
  refine h1.ownerOnly fun _ h2 => ?_
  refine ite_keeps h2.raise ?_
  refine h2.withVector fun _ h3 => ?_
  refine ite_keeps h3.raise ?_
  refine ite_keeps h3.raise ?_
  refine ite_keeps h3.raise ?_
  refine ite_keeps h3 ?_
  refine h3.withDrain fun _ h4 => ?_
  refine h4.readDesc fun _ _ h5 => ?_
  refine ite_keeps h5.raise ?_
  split
  · exact h5.raise
  · exact h5.enterCopy

protected theorem State.memOk.nextDue {ctx} (h : s.memOk) : (nextDue s ctx).memOk := h.upd

protected theorem State.memOk.copyRead {o rs} (h : s.memOk) : ReadOk (copyRead s o rs) := h.readRanges

protected theorem State.memOk.startCopy {o f w} (h : s.memOk) : (startCopy s o f w).memOk := by
  unfold startCopy
  split
  · exact h
  · split
    · exact h
    · exact (h.copyRead.inr ‹_›).wait rfl
    · exact h
    · exact ((h.copyRead.inr ‹_›).damaged rfl).killOp
    · refine ite_keeps ?_ (((h.copyRead.inr ‹_›).bytes rfl).modOp)
      split
      · exact (h.copyRead.inr ‹_›).bytes rfl
      · exact ((((h.copyRead.inr ‹_›).bytes rfl).copyRead).inr ‹_›).wait rfl
      · exact (h.copyRead.inr ‹_›).bytes rfl
      · exact (((((h.copyRead.inr ‹_›).bytes rfl).copyRead).inr ‹_›).damaged rfl).killOp
      · exact (((((h.copyRead.inr ‹_›).bytes rfl).copyRead).inr ‹_›).bytes rfl).modOp

protected theorem State.memOk.physParts {o l} {acc} (h : s.memOk) : (physParts o l s acc).memOk := by
  induction l generalizing s acc with
  | nil =>
    unfold physParts
    exact h
  | cons x l ih =>
    unfold physParts
    refine ite_keeps h ?_
    split
    · exact ih (h.readPre.bytes ‹_›)
    · exact h.readPre

protected theorem State.memOk.physRead {o src n a} (h : s.memOk) (e : physRead s o src n = some a) :
    a.memOk := by
  unfold physRead at e
  split at e
  · split at e
    · cases e; exact h
    · cases e
  · dsimp only at e
    split at e
    · cases e
    · split at e
      · cases e
      · cases e; exact h.physParts

protected theorem State.memOk.startPhysical {o f w} (h : s.memOk) : (startPhysical s o f w).memOk := by
  unfold startPhysical
  refine ite_keeps h (ite_keeps h.modOp ?_)
  split
  · exact h
  · exact (h.physRead ‹_›).wait rfl
  · exact h
  · exact ((h.physRead ‹_›).damaged rfl).killOp
  · exact ((h.physRead ‹_›).bytes rfl).modOp

protected theorem State.memOk.physLine {o w} (h : s.memOk) : (physLine s o w).memOk := by
  unfold physLine
  split
  · exact h
  · exact State.memOk.modOp (ite_keeps h.writeN h.send)

protected theorem State.memOk.copyLine {o} (h : s.memOk) : (copyLine s o).memOk := h.writeItems.modOp

protected theorem State.memOk.endCopy {op} (h : s.memOk) : (endCopy s op).memOk := by
  unfold endCopy
  split
  · exact ite_keeps h.complete h
  · exact h

protected theorem State.memOk.copyStep {o} (h : s.memOk) : (copyStep s o).2.memOk := by
  unfold copyStep
  split
  · split
    · exact State.memOk.endCopy (ite_keeps h.physLine h.copyLine)
    · split
      · exact (ite_keeps h.startPhysical h.startCopy).wait ‹_›
      · exact State.memOk.complete ((ite_keeps h.startPhysical h.startCopy).fail ‹_›)
      · exact State.memOk.endCopy ((ite_keeps h.startPhysical h.startCopy).ran ‹_›)
  · exact h

protected theorem State.memOk.runCopy {o} (h : s.memOk) : (runCopy s o).memOk := by
  unfold runCopy
  refine ite_keeps h ?_
  refine ite_keeps h.copyStep ?_
  split
  · exact ite_keeps h.copyStep.modCluster h
  · exact h

protected theorem State.memOk.execCopyRun {op} (h : s.memOk) : OutcomeOk (execCopyRun op s) := by
  unfold execCopyRun
  show State.memOk _
  split
  · exact h
  · exact ite_keeps h.runCopy h

protected theorem State.memOk.execNextCopyRun {op} (h : s.memOk) : OutcomeOk (execNextCopyRun op s) := by
  unfold execNextCopyRun
  show State.memOk _
  split
  · exact h
  · exact ite_keeps h.runCopy h

protected theorem State.memOk.writeRecalled {o} (h : s.memOk) : (writeRecalled s o).memOk :=
  h.writeItems.modOp

protected theorem State.memOk.execRecall {op} (h : s.memOk) : OutcomeOk (execRecall op s) := by
  unfold execRecall
  show State.memOk _
  split
  · exact h
  · refine ite_keeps h.writeRecalled ?_
    refine ite_keeps h ?_
    split
    · dsimp only
      split
      · exact h.startCopy.wait ‹_›
      · exact (h.startCopy.fail ‹_›).complete
      · split
        · exact (h.startCopy.ran ‹_›).writeRecalled
        · exact h.startCopy.ran ‹_›
    · dsimp only
      split
      · exact h.openDrain.wait ‹_›
      · exact (h.openDrain.fail ‹_›).complete
      · split
        · exact (h.openDrain.ran ‹_›).writeRecalled
        · exact h.openDrain.ran ‹_›
    · exact h

/-! ### Operations of Machine/Amplitude -/

protected theorem State.memOk.writeLeaf {a leafB f} (h : s.memOk) : (writeLeaf s a leafB f).memOk := by
  unfold writeLeaf
  refine h.foldl fun _ _ h1 => ?_
  split
  · exact h1.writeN
  · exact h1

protected theorem State.memOk.modAmp {ctx f} (h : s.memOk) : (s.modAmp ctx f).memOk := h.upd

protected theorem State.memOk.fillLeaf {a} (h : s.memOk) : (fillLeaf s a).memOk := by
  unfold fillLeaf
  exact ite_keeps (State.memOk.writeN (h.foldl fun _ _ h1 => h1.zeroRange))
    (h.foldl fun _ _ h1 => h1.zeroRange)

protected theorem State.memOk.writeQcfg {ctx value} (h : s.memOk) : (writeQcfg s ctx value).memOk :=
  ite_keeps h (ite_keeps h.upd (ite_keeps h (ite_keeps h.upd.fillLeaf h.upd)))

protected theorem State.memOk.ampIssue {dbl} {k : Amp → State → State} (h : s.memOk)
    (hk : ∀ u u1, u1.memOk → (k u u1).memOk) : (ampIssue dbl s k).memOk :=
  ite_keeps h.raise (ite_keeps h.raise (ite_keeps h.raise (ite_keeps h.raise (hk _ _ h))))

protected theorem State.memOk.ampForm {dbl} {k : State → State} (h : s.memOk)
    (hk : ∀ u, u.memOk → (k u).memOk) : (ampForm dbl s k).memOk := ite_keeps h.raise (hk _ h)

protected theorem State.memOk.askAmp {ctx} (h : s.memOk) : (askAmp s ctx).memOk := by
  unfold askAmp
  dsimp only
  split
  · exact ite_keeps (State.memOk.modAmp (foldl_fst h fun _ _ h1 => h1.requestLeave)) h
  · exact h

protected theorem State.memOk.ampEnter {d kind} (h : s.memOk) : (ampEnter d kind s).memOk :=
  h.upd.askAmp.advance

protected theorem State.memOk.ampRoom {k : State → State} (h : s.memOk) (hk : ∀ u, u.memOk → (k u).memOk) :
    (ampRoom s k).memOk := h.withVector fun _ h1 => ite_keeps h1 (h1.withDrain hk)

protected theorem State.memOk.qgate {dbl auto d a b} (h : s.memOk) : (qgate dbl auto d a b s).memOk := by
  unfold qgate
  refine h.ampForm fun _ h1 => ?_
  refine h1.withG fun _ h2 => ?_
  refine h2.ampIssue fun _ _ h3 => ?_
  refine h3.withVector fun _ h4 => ?_
  refine ite_keeps h4.raise ?_
  refine h4.loadThen fun _ _ h5 => ?_
  refine h5.loadThen fun _ _ h6 => ?_
  refine ite_keeps h6.raise ?_
  refine ite_keeps h6.raise ?_
  refine ite_keeps h6.raise ?_
  refine ite_keeps h6.raise ?_
  refine h6.ampRoom fun _ h7 => ?_
  split
  · exact h7.ownBytes.wait ‹_›
  · exact h7.raise
  · exact ite_keeps h7 ((h7.ownBytes.damaged ‹_›).raise)
  · exact (h7.ownBytes.bytes ‹_›).ampEnter

protected theorem State.memOk.qswap {dbl d a} (h : s.memOk) : (qswap dbl d a s).memOk := by
  unfold qswap
  exact h.ampForm fun _ h1 => h1.withG fun _ h2 => h2.ampIssue fun _ _ h3 =>
    ite_keeps h3.raise (h3.ampRoom fun _ h4 => ite_keeps h4.ampEnter.modAmp h4.ampEnter)

protected theorem State.memOk.ampSum {d b x} (h : s.memOk) : (ampSum d b x s).memOk :=
  h.ampRoom fun _ h1 => ite_keeps h1.ampEnter h1.ampEnter.modTh

protected theorem State.memOk.qprob {dbl d a} (h : s.memOk) : (qprob dbl d a s).memOk :=
  h.ampForm fun _ h1 => h1.withG fun _ h2 => h2.ampIssue fun _ _ h3 => ite_keeps h3.raise h3.ampSum

protected theorem State.memOk.qnorm {dbl d} (h : s.memOk) : (qnorm dbl d s).memOk :=
  h.ampForm fun _ h1 => h1.ampIssue fun _ _ h2 => h2.ampSum

protected theorem State.memOk.qsamp {dbl d a} (h : s.memOk) : (qsamp dbl d a s).memOk := by
  unfold qsamp
  exact h.ampForm fun _ h1 => h1.withG fun _ h2 => h2.ampIssue fun _ _ h3 =>
    ite_keeps h3.raise (h3.withDraws fun _ h4 => h4.ampRoom fun _ h5 => h5.upd.ampEnter)

protected theorem State.memOk.gatePass {a first k u ts cs cv} (h : s.memOk) :
    (gatePass s a first k u ts cs cv).1.memOk := h.writeLeaf

protected theorem State.memOk.freePass {a first cs cv} (h : s.memOk) :
    (freePass s a first cs cv).memOk := h.writeLeaf.upd

protected theorem State.memOk.swapPass {a first l o} (h : s.memOk) : (swapPass s a first l o).memOk :=
  h.writeLeaf

theorem memOk_autoPasses {targets l first n} {x : State × Amp} (h : x.1.memOk) :
    (autoPasses targets l first n x).1.memOk := by
  induction l generalizing first n x with
  | nil =>
    unfold autoPasses
    exact h
  | cons x l ih =>
    unfold autoPasses
    split
    · exact ih h
    · exact ih h.swapPass

protected theorem State.memOk.moduleSwap {ctx a first l o partner} (h : s.memOk) :
    (moduleSwap s ctx a first l o partner).memOk := by
  unfold moduleSwap
  split
  · exact h.writeLeaf
  · exact h.writeLeaf.foldl fun _ _ h1 => h1.send

protected theorem State.memOk.returnAmp {ctx e} (h : s.memOk) : (returnAmp s ctx e).memOk :=
  h.foldl fun _ _ h1 => h1.returnLeave

protected theorem State.memOk.completeAmp {ctx e w} (h : s.memOk) : (completeAmp s ctx e w).memOk := by
  unfold completeAmp
  refine State.memOk.askAmp ?_
  split
  · exact h.upd.returnAmp.fillG.trace
  · exact h.upd.returnAmp

protected theorem State.memOk.runGate {ctx a e k u targets controls cv auto} (h : s.memOk) :
    (runGate s ctx a e k u targets controls cv auto).memOk := by
  unfold runGate
  refine State.memOk.completeAmp ?_
  split
  · split
    · exact (((memOk_autoPasses h).freePass).modAmp).count
    · exact (((memOk_autoPasses h).gatePass).modAmp).count
  · split
    · exact h.freePass.modAmp.count
    · exact h.gatePass.modAmp.count

protected theorem State.memOk.runAmp {ctx a e} (h : s.memOk) : (runAmp s ctx a e).memOk := by
  unfold runAmp
  split
  · exact h.runGate
  · exact ite_keeps h.moduleSwap.modAmp.modAmp h.swapPass.modAmp.completeAmp
  · exact ite_keeps h.completeAmp h.completeAmp.modAmp
  · exact h.completeAmp

protected theorem State.memOk.execAmplitudePass {die} (h : s.memOk) :
    OutcomeOk (execAmplitudePass die s) := by
  unfold execAmplitudePass
  show State.memOk _
  split
  · exact h
  · exact h.runAmp

protected theorem State.memOk.swapAccepted {ctx index} (h : s.memOk) : (swapAccepted s ctx index).memOk := by
  unfold swapAccepted
  dsimp only
  split
  · exact ite_keeps h (ite_keeps h.completeAmp h.upd)
  · exact h

protected theorem State.memOk.swapHalf {ctx index data} (h : s.memOk) :
    (swapHalf s ctx index data).memOk := by
  unfold swapHalf
  dsimp only
  split
  · exact h
  · split
    · exact State.memOk.send (State.memOk.modAmp (h.foldl fun _ _ h1 => h1.writeN))
    · exact State.memOk.modAmp (h.foldl fun _ _ h1 => h1.writeN)

protected theorem State.memOk.execSwapHalfArrival {die index data} (h : s.memOk) :
    OutcomeOk (execSwapHalfArrival die index data s) := by
  unfold execSwapHalfArrival
  show State.memOk _
  split
  · exact h
  · exact h.swapHalf

protected theorem State.memOk.execPartnerTimeout {die} (h : s.memOk) :
    OutcomeOk (execPartnerTimeout die s) := by
  unfold execPartnerTimeout
  show State.memOk _
  split
  · exact h
  · exact h.completeAmp.vote

protected theorem State.memOk.commitAmp {ctx} (h : s.memOk) : (commitAmp s ctx).memOk := h.upd

protected theorem State.memOk.abortAmp {ctx} (h : s.memOk) : (abortAmp s ctx).memOk :=
  State.memOk.modAmp (h.foldl fun _ _ h1 => h1.returnAmp)

/-! ### Operations of Machine/Superstep -/

protected theorem State.memOk.abort (h : s.memOk) : (abort s).memOk := h.issued.vote.modTh

protected theorem State.memOk.sync {d a b quiet} (h : s.memOk) : (sync d a b quiet s).memOk := by
  unfold sync
  exact h.withG fun _ h1 => ite_keeps h1.raise
    (ite_keeps h1.raise (ite_keeps h1.raise (ite_keeps h1.abort h1.issued.modTh.park)))

protected theorem State.memOk.readKept {t r} {k : State → State} (h : s.memOk)
    (hk : ∀ u, u.memOk → (k u).memOk) : (readKept s t r k).memOk := by
  unfold readKept
  refine ite_keeps (hk _ h) ?_
  split
  · exact h.threadUnc.enterTrap
  · exact hk _ h.mendRegs

protected theorem State.memOk.execArrive {core slot} (h : s.memOk) : OutcomeOk (execArrive core slot s) := by
  unfold execArrive
  show State.memOk _
  dsimp only
  split
  · exact h
  · refine ite_keeps h ?_
    refine h.readKept fun _ h1 => ?_
    split
    · exact h1
    · exact h1.enterTrap
    · exact State.memOk.trace (State.memOk.contribute
        (ite_keeps (((h1.writeRecord.taken ‹_›).modThread).keepResults)
        ((h1.writeRecord.taken ‹_›).modThread)))

/-! ### Operations of Machine/Release -/

protected theorem State.memOk.landEcc {ctx dies cells} (h : s.memOk) :
    (landEcc s ctx dies cells).1.memOk := foldl_fst h fun _ _ h1 => h1.storeEcc

protected theorem State.memOk.landLine {ctx a cells} (h : s.memOk) : (landLine s ctx a cells).memOk := by
  unfold landLine
  refine ite_keeps ?_ ?_
  · split
    · exact h
    · exact ite_keeps h (h.landEcc.foldl fun _ _ h1 => h1.landPaged)
  · split
    · exact h.landEcc.foldl fun _ _ h1 => h1.landLocal
    · exact ite_keeps h (h.landEcc.foldl fun _ _ h1 => h1.landDie)
    · exact h

protected theorem State.memOk.landPart {ctx a bs} (h : s.memOk) : (landPart s ctx a bs).memOk := h.landLine

protected theorem State.memOk.landParts {ctx l bs} (h : s.memOk) : (landParts ctx l bs s).memOk := by
  induction l generalizing bs s with
  | nil =>
    unfold landParts
    exact h
  | cons x l ih =>
    unfold landParts
    exact ih h.landPart

protected theorem State.memOk.land {ctx a bs} (h : s.memOk) : (land s ctx a bs).memOk := h.landParts

protected theorem State.memOk.landWord {ctx a w} (h : s.memOk) : (landWord s ctx a w).memOk := h.land

protected theorem State.memOk.landOver {ctx a bs} (h : s.memOk) : (landOver s ctx a bs).memOk :=
  ite_keeps h.land h.land.upd

protected theorem State.memOk.tellModules {j m} (h : s.memOk) : (tellModules s j m).memOk := h.sendAll

protected theorem State.memOk.tellRoot {j m} (h : s.memOk) : (tellRoot s j m).memOk := ite_keeps h h.send

protected theorem State.memOk.request {ctx kind} {k : Job → State → State} (h : s.memOk)
    (hk : ∀ u u1, u1.memOk → (k u u1).memOk) : (request s ctx kind k).memOk := by
  unfold request
  split
  · exact h
  · exact ite_keeps ((hk _ _ h).tellModules) h.tellRoot

protected theorem State.memOk.preHere {ctx j} (h : s.memOk) : (preHere ctx j s).memOk := ite_keeps h.upd h.upd

protected theorem State.memOk.requestPre {ctx} (h : s.memOk) : (requestPre s ctx).memOk :=
  h.request fun _ _ h1 => h1.preHere

protected theorem State.memOk.placeRecord {ctx core slot rank total entry} (h : s.memOk) :
    (placeRecord s ctx core slot rank total entry).memOk := h.writeN

protected theorem State.memOk.startFrom {ctx core slot} (h : s.memOk) :
    (startFrom s ctx core slot).memOk := ite_keeps h.upd h.upd.ready.trace

protected theorem State.memOk.startRecord {ctx core slot} (h : s.memOk) :
    (startRecord s ctx core slot).memOk := by
  unfold startRecord
  split
  · exact h.readEccs.uncorrectable ‹_›
  · exact (h.readEccs.clean ‹_›).startFrom

protected theorem State.memOk.membershipFrames {ctx} (h : s.memOk) : (membershipFrames s ctx).memOk :=
  ite_keeps h (State.memOk.modCtx (h.foldl fun _ _ h1 => h1.assignFrame))

protected theorem State.memOk.membershipEntry {ctx kind die} (h : s.memOk) :
    (membershipEntry s ctx kind die).memOk := by
  unfold membershipEntry
  split
  · exact h
  · exact ite_keeps h h.writeN.modCtx

protected theorem State.memOk.writeMembership {ctx} (h : s.memOk) : (writeMembership s ctx).memOk := by
  unfold writeMembership
  split
  · exact h
  · exact State.memOk.modJob (h.membershipFrames.foldl fun _ _ h1 => h1.membershipEntry)

protected theorem State.memOk.postJobEvent {ctx code bit} (h : s.memOk) :
    (postJobEvent s ctx code bit).memOk := by
  unfold postJobEvent
  split
  · exact h
  · exact h.upd

protected theorem State.memOk.haltJob {ctx} (h : s.memOk) : (haltJob s ctx).memOk :=
  h.upd.foldl fun _ _ h1 => h1.trace

protected theorem State.memOk.nextHold {ctx} (h : s.memOk) : (nextHold s ctx).memOk := by
  unfold nextHold
  split
  · exact h
  · exact ite_keeps h.upd (ite_keeps (ite_keeps h.upd.postJobEvent h.upd)
      (ite_keeps h.upd (ite_keeps h.upd (ite_keeps h.haltJob h.upd))))

protected theorem State.memOk.firstStep {ctx j} (h : s.memOk) : (firstStep s ctx j).memOk :=
  ite_keeps h (ite_keeps h.upd (h.upd.foldl fun _ _ h1 => h1.upd))

protected theorem State.memOk.releaseJob {ctx} (h : s.memOk) : (releaseJob s ctx).memOk := by
  unfold releaseJob
  split
  · exact h
  · extract_lets s1 first s2 s3 s4 s5
    have h1 : s1.memOk := h.upd.writeMembership
    have h2 : s2.memOk := ite_keeps (h1.foldl fun _ _ h2 => h2.modCore) h1
    have h4 : s4.memOk := h2.modJob.modCtx
    have h5 : s5.memOk := h4.foldl fun _ _ h5 => ite_keeps (ite_keeps h5.ready h5) h5.startRecord
    exact h5.foldl fun _ _ h6 => ite_keeps h6.startThread h6

/-! ### Operations of Machine/Harvest -/

protected theorem State.memOk.hoffer {a} (h : s.memOk) : (hoffer a s).memOk :=
  h.withG fun _ h1 => ite_keeps h1.raise (ite_keeps h1.raise h1.upd.advance)

/-! ### Operations of Machine/Timetable -/

protected theorem State.memOk.toGroup {i msg} (h : s.memOk) : (s.toGroup i msg).memOk := ite_keeps h h.flit

protected theorem State.memOk.loadWords {k : List Word → State → State} {n a acc}
    (hk : ∀ u u1, u1.memOk → (k u u1).memOk) (h : s.memOk) : (loadWords k n a acc s).memOk := by
  induction n generalizing a acc s with
  | zero =>
    unfold loadWords
    exact hk _ _ h
  | succ n ih =>
    unfold loadWords
    exact h.loadThen fun _ _ h1 => ih h1

protected theorem State.memOk.readImage {k : List ImageTable → State → State} {f a acc}
    (hk : ∀ u u1, u1.memOk → (k u u1).memOk) (h : s.memOk) : (readImage k f a acc s).memOk := by
  induction f generalizing a acc s with
  | zero =>
    unfold readImage
    exact hk _ _ h
  | succ f ih =>
    unfold readImage
    exact h.loadWords fun _ _ h1 => ite_keeps (hk _ _ h1) (h1.loadWords fun _ _ h2 => ih h2)

protected theorem State.memOk.ttload {keep d a} (h : s.memOk) : (ttload keep d a s).memOk := by
  unfold ttload
  refine h.withG fun _ h1 => ?_
  refine ite_keeps h1.raise ?_
  refine h1.withVector fun _ h2 => ?_
  refine ite_keeps h2.raise ?_
  refine h2.readImage fun _ _ h3 => ?_
  dsimp only
  split
  · exact h3.raise
  · refine ite_keeps h3.raise ?_
    split
    · exact h3.raise
    · exact State.memOk.advance (State.memOk.putG (ite_keeps (h3.foldl fun _ _ h4 => h4.upd) h3))

protected theorem State.memOk.writeHist {core ctx r p} (h : s.memOk) : OptOk (writeHist s core ctx r p) := by
  unfold writeHist
  refine ite_keeps h ?_
  refine ite_keeps trivial ?_
  split
  · exact (h.linesPre.taken ‹_›).pokeBytes
  · exact trivial

protected theorem State.memOk.settlePosts {core n} (h : s.memOk) : (settlePosts core n s).memOk := by
  induction n generalizing s with
  | zero =>
    unfold settlePosts
    exact h
  | succ n ih =>
    unfold settlePosts
    split
    · refine ite_keeps h ?_
      split
      · exact h
      · split
        · exact h
        · exact ih (((h.writeHist.some ‹_›).modCore).fillG)
    · exact h

protected theorem State.memOk.settle {core} (h : s.memOk) : (s.settle core).memOk := h.settlePosts

protected theorem State.memOk.ttPost {w} (h : s.memOk) : (ttPost w s).memOk := by
  unfold ttPost
  dsimp only
  split
  · exact ite_keeps h.upd.advance.settle h.upd.advance.fillG
  · exact h.upd.advance.fillG

protected theorem State.memOk.ttgo {a} (h : s.memOk) : (ttgo a s).memOk := by
  unfold ttgo
  refine h.withG fun _ h1 => ?_
  refine ite_keeps h1.raise ?_
  refine ite_keeps h1.raise ?_
  split
  · exact ite_keeps h1.raise h1.upd.advance
  · exact ite_keeps h1.upd.advance h1.raise
  · exact ite_keeps h1.raise (ite_keeps h1.raise h1.ttPost)
  · exact ite_keeps h1.raise h1.upd.advance

protected theorem State.memOk.modRun {core f} (h : s.memOk) : (s.modRun core f).memOk := h.upd

protected theorem State.memOk.armRuns {ctx} (h : s.memOk) : (armRuns s ctx).memOk := by
  unfold armRuns
  split
  · exact h
  · exact h.foldl fun _ _ h1 => ite_keeps h1.requestLeave.modCore h1

protected theorem State.memOk.endLeave {core} (h : s.memOk) : (endLeave s core).memOk := by
  unfold endLeave
  split
  · exact h.returnLeave.modRun
  · exact h

protected theorem State.memOk.dropRuns {ctx} (h : s.memOk) : (dropRuns s ctx).memOk := by
  unfold dropRuns
  refine h.upd.foldl fun _ _ h1 => ?_
  split
  · exact h1
  · exact h1.endLeave.upd.modCore

protected theorem State.memOk.clearFresh {ctx} (h : s.memOk) : (clearFresh s ctx).memOk := by
  unfold clearFresh
  refine h.foldl fun _ _ h1 => ?_
  split
  · exact h1
  · exact h1.upd

protected theorem State.memOk.commitTables {ctx x arm} (h : s.memOk) : (commitTables s ctx x arm).memOk := by
  unfold commitTables
  refine State.memOk.armRuns ?_
  refine State.memOk.foldl ?_ fun _ _ h1 => ?_
  · split
    · exact h.clearFresh.dropRuns.modCtx
    · exact h.clearFresh.dropRuns.modCtx.modCtx
  · exact h1.upd

protected theorem State.memOk.abortTables {ctx} (h : s.memOk) : (abortTables s ctx).memOk :=
  State.memOk.armRuns (h.dropRuns.modCtx.foldl fun _ _ h1 => h1.upd)

protected theorem State.memOk.execTableStart {ctx} (h : s.memOk) : OutcomeOk (execTableStart ctx s) := by
  unfold execTableStart
  show State.memOk _
  split
  · exact h
  · exact ite_keeps (h.foldl fun _ _ h1 => h1.upd) h

protected theorem State.memOk.relaySlip {w smod origin n} (h : s.memOk) :
    (relaySlip s w smod origin n).memOk := by
  unfold relaySlip
  refine h.foldl fun _ _ h1 => ?_
  split
  · exact ite_keeps h1.toGroup h1
  · exact h1

protected theorem State.memOk.oweSlip {n w} (h : s.memOk) : (oweSlip s n w).memOk :=
  h.foldl fun _ _ h1 => h1.upd

protected theorem State.memOk.raiseSlip {g} (h : s.memOk) : (raiseSlip s g).memOk := h.oweSlip.relaySlip

protected theorem State.memOk.slipArrived {ctx id core smod origin n} (h : s.memOk) :
    (slipArrived s ctx id core smod origin n).memOk := ite_keeps h h.upd.oweSlip.relaySlip

protected theorem State.memOk.routerRead {core ctx off n} (h : s.memOk) :
    (routerRead s core ctx off n).1.memOk := by
  unfold routerRead
  split
  · exact h.readEccs.clean ‹_›
  · exact h.readEccs.uncorrectable ‹_›

protected theorem State.memOk.routerWrite {core ctx off bs} (h : s.memOk) :
    (routerWrite s core ctx off bs).memOk := h.pokeBytes

protected theorem State.memOk.emit {core dir t bs} (h : s.memOk) : (emit s core dir t bs).memOk := by
  unfold emit
  refine ite_keeps ?_ ?_
  · split
    · exact h.toGroup
    · exact h
  · split
    · exact h
    · exact ite_keeps h.upd h

protected theorem State.memOk.emitAll {core t ports bs} (h : s.memOk) :
    (emitAll s core t ports bs).memOk := h.foldl fun _ _ h1 => h1.emit

protected theorem State.memOk.combine {core ctx g lo n} (h : s.memOk) :
    (combine s core ctx g lo n).1.memOk := by
  unfold combine
  split
  · exact h.routerRead.fst ‹_›
  · exact ((h.routerRead.fst ‹_›).count).modRun

protected theorem State.memOk.blockElems {core ctx g k} (h : s.memOk) :
    (blockElems s core ctx g k).1.memOk := by
  unfold blockElems
  split
  · exact h.combine
  · split
    · exact h.routerRead.fst ‹_›
    · exact h.routerRead.fst ‹_›

protected theorem State.memOk.extendWire {core ctx g want n w} (h : s.memOk) :
    (extendWire core ctx g want n w s).1.memOk := by
  induction n generalizing w s with
  | zero =>
    unfold extendWire
    exact h
  | succ n ih =>
    unfold extendWire
    dsimp only
    split
    · exact h
    · split
      · exact h.blockElems.fst ‹_›
      · have hb := h.blockElems.fst ‹_›
        split
        · next e =>
          split at e
          · cases e
          · split at e
            · cases e; exact hb.routerRead.fst ‹_›
            · cases e
        · next e =>
          refine ih (State.memOk.routerWrite ?_)
          split at e
          · cases e; exact hb
          · split at e
            · cases e
            · cases e; exact hb.routerRead.fst ‹_›

protected theorem State.memOk.freezeRun {core} (h : s.memOk) : (freezeRun s core).memOk := h.upd

protected theorem State.memOk.groupBeat {core ctx x g j t} (h : s.memOk) :
    (groupBeat core ctx x g j t s).1.memOk := by
  unfold groupBeat
  dsimp only
  split
  · exact ite_keeps (ite_keeps h.routerWrite h) h.routerWrite
  · split
    · exact ite_keeps (ite_keeps h.emitAll.routerWrite h.emitAll) h.emitAll.routerWrite
    · exact ite_keeps (ite_keeps h.routerWrite h) h.routerWrite
  · split
    · split
      · split
        · split
          · exact h.combine.fst ‹_›
          · exact ((h.combine.fst ‹_›).modRun).routerWrite
        · exact h
      · split
        · exact h.combine.fst ‹_›
        · exact ((h.combine.fst ‹_›).modRun).routerWrite
    · split
      · split
        · split
          · exact h.combine.fst ‹_›
          · exact ((h.combine.fst ‹_›).modRun).routerWrite
        · exact h
      · split
        · exact h.combine.fst ‹_›
        · exact ((h.combine.fst ‹_›).modRun).routerWrite
  · split
    · exact h
    · split
      · split
        · exact h.extendWire.fst ‹_›
        · exact ((h.extendWire.fst ‹_›).emitAll).modRun
      · split
        · split
          · exact h.combine.fst ‹_›
          · exact (h.combine.fst ‹_›).emitAll
        · split
          · exact h.routerRead.fst ‹_›
          · exact (h.routerRead.fst ‹_›).emitAll

protected theorem State.memOk.readyGroups {core ctx r gs} (h : s.memOk) :
    GroupsOk (readyGroups s core ctx r gs) := by
  unfold readyGroups
  dsimp only
  split
  · exact h
  · split
    · exact trivial
    · split
      · exact trivial
      · split
        · split
          · exact trivial
          · split
            · exact h.linesPre.taken ‹_›
            · exact trivial
        · split
          · exact trivial
          · split
            · exact h.linesPre.taken ‹_›
            · exact trivial

protected theorem State.memOk.openGroups {core ctx gs} (h : s.memOk) :
    (openGroups s core ctx gs).memOk := h.foldl fun _ _ h1 => h1.upd

theorem memOk_runBeat {core ctx t gs} {s : State × Bool} {x} (h : s.1.memOk) :
    (runBeat core ctx t gs s x).1.memOk := by
  unfold runBeat
  split
  · exact h
  · split
    · exact h
    · dsimp only
      split
      · exact h.groupBeat.fst ‹_›
      · split
        · exact ((h.groupBeat.fst ‹_›).releaseLines).modRun
        · split
          · split
            · exact h.groupBeat.fst ‹_›
            · exact (h.groupBeat.fst ‹_›).releaseLine
          · split
            · exact h.groupBeat.fst ‹_›
            · exact (h.groupBeat.fst ‹_›).releaseLine

protected theorem State.memOk.endRun {core gs} (h : s.memOk) : (endRun s core gs).memOk := by
  unfold endRun
  split
  · exact h
  · exact ite_keeps h.endLeave.trace.upd.modRun.settle h

protected theorem State.memOk.stopTable {core ctx} (h : s.memOk) : (stopTable s core ctx).memOk :=
  h.upd.endRun

protected theorem State.memOk.tableEcc {core ctx} (h : s.memOk) : (tableEcc s core ctx).1.memOk := by
  unfold tableEcc
  split
  · dsimp only
    split
    · exact h.upd
    · exact h.upd
  · exact h.upd
  · exact h

protected theorem State.memOk.routerCycle {core ctx r} (h : s.memOk) : (routerCycle s core ctx r).memOk := by
  unfold routerCycle
  refine ite_keeps h (ite_keeps h.modRun.settle (ite_keeps h.modRun ?_))
  extract_lets t gs starting e s1 running
  have h1 : s1.memOk := ite_keeps (P := fun e : State × Bool => e.1.memOk) h h.tableEcc
  refine ite_keeps h1.freezeRun (ite_keeps h1.stopTable ?_)
  split
  · exact (State.memOk.raiseSlip h1.modRun).modRun
  · refine ite_keeps h1 ?_
    extract_lets s2 xs
    have h2 : s2.memOk := (h1.readyGroups.inl ‹_›).openGroups
    have h3 : (xs.foldl (runBeat core ctx t gs) (s2, true)).1.memOk :=
      foldl_fst h2 fun _ _ h3 => memOk_runBeat h3
    split
    · exact (h3.fst ‹_›).freezeRun
    · exact (h3.fst ‹_›).modRun.endRun

protected theorem State.memOk.execGroupFire {core} (h : s.memOk) : OutcomeOk (execGroupFire core s) := by
  unfold execGroupFire
  show State.memOk _
  split
  · exact h.routerCycle
  · exact h

protected theorem State.memOk.execBeatArrival {core dir} (h : s.memOk) :
    OutcomeOk (execBeatArrival core dir s) := by
  unfold execBeatArrival
  show State.memOk _
  split
  · exact h
  · exact ite_keeps h.upd h.upd

protected theorem State.memOk.execTableStop {core} (h : s.memOk) : OutcomeOk (execTableStop core s) := by
  unfold execTableStop
  show State.memOk _
  split
  · exact ite_keeps h.stopTable h
  · exact h

/-! ### Operations of Machine/Placement -/

protected theorem State.memOk.placeCore {ctx g w} (h : s.memOk) : (placeCore s ctx g w).memOk :=
  ite_keeps h (h.upd.foldl fun _ _ h1 => h1.upd)

protected theorem State.memOk.dropGranulePre {g gr} (h : s.memOk) : (dropGranulePre s g gr).memOk :=
  h.upd.foldl fun _ _ h1 => ite_keeps h1.writeN h1

protected theorem State.memOk.zeroGranule {g gr} (h : s.memOk) : (zeroGranule s g gr).memOk :=
  h.zeroRange.dropGranulePre.upd

protected theorem State.memOk.seatBank {ctx g b w} (h : s.memOk) : (seatBank s ctx g b w).memOk :=
  State.memOk.setThread (State.memOk.modCore (h.foldl fun _ _ h1 => h1.zeroGranule))

protected theorem State.memOk.placeGroup {ctx w ps} (h : s.memOk) : (placeGroup s ctx w ps).memOk := by
  unfold placeGroup
  refine h.foldl fun _ _ h1 => ?_
  exact State.memOk.modThread (State.memOk.placeRecord (ite_keeps h1.seatBank h1.placeCore))

protected theorem State.memOk.takeSnapshot {ctx} (h : s.memOk) : (takeSnapshot s ctx).memOk := h.upd

protected theorem State.memOk.placeSecuring {ctx j} (h : s.memOk) : (placeSecuring s ctx j).memOk :=
  ite_keeps h.upd.send h.upd

protected theorem State.memOk.openLaunch {ctx j} (h : s.memOk) : (openLaunch s ctx j).memOk :=
  h.upd.placeSecuring

protected theorem State.memOk.setStatus {rctx recVa state code ssno} (h : s.memOk) :
    (setStatus s rctx recVa state code ssno).memOk := h.landOver

protected theorem State.memOk.placedHere {ctx} (h : s.memOk) : (placedHere s ctx).memOk :=
  h.upd.dropRuns.armRuns

protected theorem State.memOk.startPlaced {ctx} (h : s.memOk) : (startPlaced s ctx).memOk := by
  unfold startPlaced
  split
  · exact h
  · exact ite_keeps h.upd (ite_keeps h.placedHere.modJob.tellModules.releaseJob h.placedHere.modJob)

protected theorem State.memOk.storeImage {ctx j} (h : s.memOk) : (storeImage s ctx j).memOk :=
  h.land.land.foldl fun _ _ h1 => h1.land

protected theorem State.memOk.loadCore {rd ctx i g} (h : s.memOk) : (loadCore rd ctx i g s).memOk := by
  unfold loadCore
  exact ite_keeps (State.memOk.foldl (h.upd.foldl fun _ _ h1 => h1.writeN) fun _ _ h1 =>
    h1.writeN) h.upd.writeN.modCore

protected theorem State.memOk.loadCores {rd ctx cores now} (h : s.memOk) :
    (loadCores s rd ctx cores now).memOk := h.foldl fun _ _ h1 => h1.loadCore

protected theorem State.memOk.loadImage {rd ctx kind cores now} (h : s.memOk) :
    (loadImage s rd ctx kind cores now).memOk := h.upd.loadCores.modJob.modCtx

/-! ### Operations of Machine/Launch -/

protected theorem State.memOk.leaveGranule {g b j} (h : s.memOk) : OptOk (leaveGranule s g b j) := by
  unfold leaveGranule
  exact ite_keeps h (ite_keeps trivial
    (OptOk.map (h.granuleLines fun _ _ h1 => h1.reclaimLine) fun _ h1 => h1.upd.countReclaim))

protected theorem State.memOk.unseatBank {g b} (h : s.memOk) : OptOk (unseatBank s g b) :=
  OptOk.map (foldl_keeps h fun _ _ h1 => h1.bind fun _ h2 => h2.leaveGranule) fun _ h1 => h1.upd

protected theorem State.memOk.unseatAll {slots} (h : s.memOk) : OptOk (unseatAll s slots) :=
  foldl_keeps h fun _ _ h1 => h1.bind fun _ h2 => h2.unseatBank

protected theorem State.memOk.leaveCore {g} (h : s.memOk) : (leaveCore s g).memOk :=
  State.memOk.modCore (State.memOk.foldl (h.foldl fun _ _ h1 => h1.requestPre) fun _ _ h1 => h1.upd)

protected theorem State.memOk.modSet {ctx f} (h : s.memOk) : (s.modSet ctx f).memOk := h.upd

protected theorem State.memOk.countCommitted {ctx i n} (h : s.memOk) :
    (countCommitted s ctx i n).memOk := h.upd

protected theorem State.memOk.dropWork {ctx} (h : s.memOk) : (dropWork s ctx).memOk := by
  unfold dropWork
  extract_lets s1 mine s2 s3 ops s4 s5
  have h2 : s2.memOk := h.dropRuns.foldl fun _ _ h2 => h2.returnLeave
  have h3 : s3.memOk := h2.foldl fun _ _ h3 => h3.returnAmp
  have h5 : s5.memOk := State.memOk.modCtx (s := s4) h3.upd
  exact h5.foldl fun _ _ h6 => ite_keeps h6.upd h6.modDie.modDctx

protected theorem State.memOk.dropHeld {ctx} (h : s.memOk) : (dropHeld s ctx).memOk := h.upd

protected theorem State.memOk.decrementDone {ctx a} (h : s.memOk) : (decrementDone s ctx a).memOk := by
  unfold decrementDone
  refine ite_keeps h ?_
  split
  · exact h
  · refine ite_keeps h.landWord.upd ?_
    split
    · exact h.landWord.writeWord
    · exact ite_keeps h.landWord h.landWord.writeWord
    · exact h.landWord

protected theorem State.memOk.freeUndos {ctx} (h : s.memOk) : (freeUndos s ctx).memOk := h.upd

protected theorem State.memOk.finishEnded {e} (h : s.memOk) : (finishEnded s e).memOk := by
  unfold finishEnded
  split
  · exact h.decrementDone.landOver
  · exact h.decrementDone

protected theorem State.memOk.closeLaunch {ctx state} (h : s.memOk) : (closeLaunch s ctx state).memOk := by
  unfold closeLaunch
  split
  · exact h
  · extract_lets cores harvest e
    have hu : OptOk (if harvest then unseatAll s (jobSlots s ctx) else some s) :=
      ite_keeps h.unseatAll (OptOk.intro h)
    split
    · exact h.modJob
    · extract_lets s1 s2 s3 s4 s5 s6
      have h1 : s1.memOk := (hu.some ‹_›).foldl fun _ _ h1 => h1.land
      have h2 : s2.memOk := h1.dropWork.dropHeld
      have h3 : s3.memOk := State.memOk.freeUndos (ite_keeps h2 (h2.foldl fun _ _ h3 => h3.leaveCore))
      have h4 : s4.memOk := ite_keeps h3.setStatus (ite_keeps h3.setStatus h3)
      have h6 : s6.memOk := ite_keeps h4.modCtx.tellModules h4.modCtx
      exact State.memOk.dispatchEvent (ite_keeps h6.finishEnded h6.modDie)

protected theorem State.memOk.settleEnded {die} (h : s.memOk) : (settleEnded s die).memOk :=
  h.upd.foldl fun _ _ h1 => h1.finishEnded

protected theorem State.memOk.wipeCore {g} (h : s.memOk) : (wipeCore s g).memOk := h.zeroRange.upd.modCore

protected theorem State.memOk.noteTails {die} (h : s.memOk) : (noteTails s die).memOk := by
  unfold noteTails
  refine h.foldl fun _ _ h1 => ?_
  split
  · exact h1
  · exact ite_keeps h1 h1.upd

protected theorem State.memOk.setHead {die x n} (h : s.memOk) : (setHead s die x n).memOk := h.upd.land

protected theorem State.memOk.actGates {die q n} (h : s.memOk) : (actGates die q n s).1.memOk := by
  induction n generalizing s with
  | zero =>
    unfold actGates
    exact h
  | succ n ih =>
    unfold actGates
    split
    · exact h
    · split
      · exact h
      · split
        · exact ih h.setStatus.setHead
        · dsimp only
          split
          · exact State.memOk.setHead (h.foldl fun _ _ h1 => h1.setStatus)
          · split
            · exact ih h.setStatus.setHead
            · exact h

protected theorem State.memOk.allGates {die} (h : s.memOk) : (allGates s die).1.memOk :=
  foldl_fst h fun _ _ h1 => h1.actGates

protected theorem State.memOk.withdraw {ctx modules} (h : s.memOk) : (withdraw s ctx modules).memOk :=
  h.sendAll.modCtx

protected theorem State.memOk.refuseHead {die x w code} (h : s.memOk) :
    (refuseHead s die x w code).memOk := h.setStatus.setHead.withdraw

protected theorem State.memOk.placeLaunch {die x w now left} (h : s.memOk) :
    (placeLaunch s die x w now left).memOk := by
  unfold placeLaunch
  extract_lets ctx recVa init j s1 s2 s3 s4
  have h2 : s2.memOk := h.upd.openLaunch.placeGroup
  have h3 : s3.memOk := ite_keeps h2.loadImage h2
  exact h3.setStatus.setHead.tellModules.startPlaced

protected theorem State.memOk.dispatchHead {die x w} (h : s.memOk) : (dispatchHead s die x w).memOk := by
  unfold dispatchHead
  split
  · exact h.refuseHead
  · refine ite_keeps h.refuseHead ?_
    split
    · exact ite_keeps h.refuseHead (ite_keeps h.refuseHead h.placeLaunch)
    · exact ite_keeps h (ite_keeps h (ite_keeps h.refuseHead (ite_keeps h.refuseHead h.placeLaunch)))

protected theorem State.memOk.placeMore {die ctx j} (h : s.memOk) : (placeMore s die ctx j).memOk :=
  State.memOk.modJob (ite_keeps h.placeGroup.loadCores h.placeGroup)

protected theorem State.memOk.dispatchStep {die} (h : s.memOk) : (dispatchStep s die).memOk := by
  unfold dispatchStep
  split
  · split
    · exact (h.allGates.fst ‹_›).placeMore
    · split
      · exact (h.allGates.fst ‹_›).dispatchHead
      · exact h.allGates.fst ‹_›

protected theorem State.memOk.execWicketAdmission {die} (h : s.memOk) :
    OutcomeOk (execWicketAdmission die s) := by
  unfold execWicketAdmission
  show State.memOk _
  refine ite_keeps h ?_
  dsimp only
  split
  · exact h
  · exact ite_keeps h h.dispatchHead

protected theorem State.memOk.allotOn {d ctx size} (h : s.memOk) : (allotOn s d ctx size).memOk := by
  unfold allotOn
  refine ite_keeps h ?_
  dsimp only
  split
  · exact h.upd
  · exact h.upd

protected theorem State.memOk.allot {ctx} (h : s.memOk) : (allot s ctx).memOk :=
  h.foldl fun _ _ h1 => h1.upd.allotOn

protected theorem State.memOk.reclaimDie {die ctx} (h : s.memOk) : (reclaimDie s die ctx).memOk := by
  unfold reclaimDie
  extract_lets s1 s2 x lo s3 s4
  have h2 : s2.memOk := h.writeBackAll.dropLines
  have h3 : s3.memOk := ite_keeps h2 h2.zeroRange
  have h4 : s4.memOk := h3.upd
  exact h4.modDie.modDctx

protected theorem State.memOk.releaseFrames {ctx} (h : s.memOk) : (releaseFrames s ctx).memOk :=
  h.foldl fun _ _ h1 => h1.setFrame

protected theorem State.memOk.endContext {ctx} (h : s.memOk) : (endContext s ctx).memOk :=
  State.memOk.setCtx (State.memOk.releaseFrames (h.upd.foldl fun _ _ h1 => h1.reclaimDie))

/-! ### Operations of Machine/Leave -/

protected theorem State.memOk.leave {d a} (h : s.memOk) : (leave d a s).memOk :=
  h.withG fun _ h1 => ite_keeps h1.raise (ite_keeps h1.putG.advance h1.upd.advance)

protected theorem State.memOk.grantTo {die r} (h : s.memOk) : (grantTo s die r).memOk := by
  unfold grantTo
  split
  · exact h.upd
  · exact h.upd
  · exact h.upd
  · exact h.upd.fillG

protected theorem State.memOk.execLeaveGrant {die} (h : s.memOk) : OutcomeOk (execLeaveGrant die s) := by
  unfold execLeaveGrant
  show State.memOk _
  dsimp only
  split
  · exact h
  · exact ite_keeps h (State.memOk.grantTo (ite_keeps h.upd h.upd))

/-! ### Operations of Machine/Shutter -/

protected theorem State.memOk.sweep {ctx} (h : s.memOk) : (sweep s ctx).memOk := by
  unfold sweep
  split
  · exact h
  · exact ite_keeps h (ite_keeps h.upd.tellRoot h.upd)

protected theorem State.memOk.mergeLine {ctx va} (h : s.memOk) : (mergeLine s ctx va).memOk := by
  unfold mergeLine
  dsimp only
  split
  · exact h.upd
  · exact h

protected theorem State.memOk.mergeLines {ctx} (h : s.memOk) : (mergeLines s ctx).memOk :=
  h.foldl fun _ _ h1 => h1.mergeLine

protected theorem State.memOk.freeWriter {ctx x} (h : s.memOk) : (freeWriter s ctx x).memOk := h.upd

protected theorem State.memOk.modLeases {ctx f} (h : s.memOk) : (s.modLeases ctx f).memOk := h.upd

protected theorem State.memOk.modResidue {ctx f} (h : s.memOk) : (s.modResidue ctx f).memOk := h.upd

protected theorem State.memOk.freeImages {ctx} (h : s.memOk) : (freeImages s ctx).memOk :=
  State.memOk.modResidue (State.memOk.modLeases (State.memOk.freeUndos (h.foldl fun _ _ h1 => h1.upd)))

protected theorem State.memOk.restoreLine {a v} (h : s.memOk) : (restoreLine s a v).memOk := by
  unfold restoreLine
  exact h.writeLine.upd

protected theorem State.memOk.restoreFrom {ctx die e} {restore : State → State} (h : s.memOk)
    (hrestore : ∀ u, u.memOk → (restore u).memOk) : (restoreFrom s ctx die e restore).memOk := by
  unfold restoreFrom
  split
  · exact hrestore _ h
  · exact hrestore _ h.upd
  · exact h.upd

protected theorem State.memOk.restoreWriter {ctx x} (h : s.memOk) : (restoreWriter s ctx x).memOk := by
  unfold restoreWriter
  extract_lets die back pool o at_ s1 s2 s3
  have h1 : s1.memOk := h.foldl fun _ _ h1 => h1.restoreFrom fun _ h2 => h2.restoreLine
  have h2 : s2.memOk := h1.foldl fun _ _ h1 => ite_keeps (h1.restoreFrom fun _ h2 => h2.restoreLine) h1
  have h3 : s3.memOk := h2.upd
  exact h3.freeWriter

protected theorem State.memOk.restoreDies {ctx} (h : s.memOk) : (restoreDies s ctx).memOk := by
  unfold restoreDies
  extract_lets undos s1 s2 mine back
  have h1 : s1.memOk := h.foldl fun _ _ h1 => h1.restoreFrom fun _ h2 => h2.restoreLine
  exact h1.freeUndos.dropLines.foldl fun _ _ h2 => h2.restoreFrom fun _ h3 => h3.upd

protected theorem State.memOk.reclaimReached {ctx} (h : s.memOk) : OptOk (reclaimReached s ctx) :=
  foldl_keeps h fun _ _ h1 => h1.bind fun _ h2 => h2.reclaim

protected theorem State.memOk.ramoResult {o core slot d old} (h : s.memOk) :
    (ramoResult s o core slot d old).memOk := ite_keeps h (ite_keeps h.upd h.send)

protected theorem State.memOk.enqueueCommitted {m cluster} (h : s.memOk) :
    OptOk (enqueueCommitted s m cluster) := by
  unfold enqueueCommitted
  split
  · exact trivial
  · exact ite_keeps trivial h.writeN.setQueueWord

protected theorem State.memOk.deliverCommitted {m} (h : s.memOk) : (deliverCommitted s m).memOk := by
  unfold deliverCommitted
  refine ite_keeps h.upd ?_
  split
  · exact h.upd
  · exact ite_keeps h.upd (h.enqueueCommitted.getD h.upd)

protected theorem State.memOk.applyStaged {o} (h : s.memOk) : (applyStaged s o).memOk := by
  unfold applyStaged
  split
  · exact ite_keeps h.upd h.land
  · exact ite_keeps h.upd h.landLine
  · refine ite_keeps h.upd.ramoResult ?_
    split
    · dsimp only
      split
      · exact h.upd.ramoResult
      · exact h.landWord.ramoResult
    · dsimp only
      split
      · exact h.upd.ramoResult
      · exact h.landWord.ramoResult
  · exact h.deliverCommitted

protected theorem State.memOk.mergeCounts {ctx commit} (h : s.memOk) :
    (mergeCounts s ctx commit).memOk := State.memOk.modCtx (h.foldl fun _ _ h1 => h1.upd)

protected theorem State.memOk.beginSecure {ctx} (h : s.memOk) : (beginSecure s ctx).memOk :=
  h.writeBackAll.modCtx

protected theorem State.memOk.endIfOver {ctx} (h : s.memOk) : (endIfOver s ctx).memOk := by
  unfold endIfOver
  split
  · exact h
  · exact ite_keeps h (ite_keeps h.upd h.closeLaunch)

protected theorem State.memOk.reportComplete {ctx} (h : s.memOk) : (reportComplete s ctx).memOk := by
  unfold reportComplete
  split
  · exact h
  · exact ite_keeps h h.tellRoot

protected theorem State.memOk.closeSuperstep {ctx} (h : s.memOk) : (closeSuperstep s ctx).memOk := h.upd

protected theorem State.memOk.traceDecision {ctx ab mask} (h : s.memOk) :
    (traceDecision s ctx ab mask).memOk := h.foldl fun _ _ h1 => h1.trace

protected theorem State.memOk.commitHeld {ctx} (h : s.memOk) : (commitHeld s ctx).memOk := h.upd

protected theorem State.memOk.commitSlots {ctx} (h : s.memOk) : (commitSlots s ctx).memOk :=
  h.foldl fun _ _ h1 => h1.upd

protected theorem State.memOk.commitJob {ctx result sums secures arm} (h : s.memOk) :
    (commitJob s ctx result sums secures arm).memOk := by
  unfold commitJob
  split
  · exact h
  · extract_lets s1 lost s2 s3 s4 s5 s6 s7 s8 s9 s10 x s11 s12 s13 s14 s15 s16 s17 s18 s19
    have h3 : s3.memOk := h.traceDecision.modJob.mergeLines.freeImages.countCommitted
    have h4 : s4.memOk := h3.foldl fun _ _ h4 => h4.applyStaged
    have h5 : s5.memOk := h4.upd
    have h6 : s6.memOk := h5.foldl fun _ _ h6 => h6.land
    have h10 : s10.memOk := h6.modJob.shutterPass.mergeCounts.countCommitted.modSet
    have h11 : s11.memOk := State.memOk.commitTables (ite_keeps h10.takeSnapshot h10)
    have h13 : s13.memOk := h11.modCtx.modJob
    have h14 : s14.memOk := h13.foldl fun _ _ h14 => h14.applyWbl
    have h16 : s16.memOk := h14.modJob.nextDue.askAll.commitAmp.commitHeld.commitSlots
    have h17 : s17.memOk := h16.foldl fun _ _ h17 => ite_keeps h17 h17.modDctx
    have h18 : s18.memOk := ite_keeps h17.beginSecure h17
    exact h18.dispatchEvent.closeSuperstep.modJob.foldl fun _ _ h19 => h19.noteTails

protected theorem State.memOk.discardWork {ctx} (h : s.memOk) : (discardWork s ctx).memOk :=
  State.memOk.foldl (State.memOk.upd (h.foldl fun _ _ h1 => h1.returnLeave)) fun _ _ h1 => h1.upd

protected theorem State.memOk.abortHeld {ctx} (h : s.memOk) : (abortHeld s ctx).memOk := h.upd

protected theorem State.memOk.abortSlots {ctx} (h : s.memOk) : (abortSlots s ctx).memOk :=
  h.foldl fun _ _ h1 => h1.upd

protected theorem State.memOk.disarm {ctx j mask} (h : s.memOk) : (disarm s ctx j mask).memOk :=
  ite_keeps h.dropRuns.modCtx h

protected theorem State.memOk.rollbackJob {ctx mask} (h : s.memOk) : (rollbackJob s ctx mask).memOk := by
  unfold rollbackJob
  split
  · exact h
  · extract_lets s1 s2 s3 s4 s5 s6 _ _ s7
    have h3 : s3.memOk := State.memOk.foldl h.traceDecision.modJob.discardWork fun _ _ h1 => h1.restoreWriter
    have h4 : s4.memOk := h3.restoreDies.modLeases.modResidue
    have h5 : s5.memOk := h4.disarm.abortTables.abortAmp.abortHeld.abortSlots
    have h7 : s7.memOk := h5.mergeCounts.countCommitted.modCtx
    exact h7.dispatchEvent.closeSuperstep.modJob

protected theorem State.memOk.afterDecision {ctx} (h : s.memOk) : (afterDecision s ctx).memOk := by
  unfold afterDecision
  split
  · exact h
  · exact ite_keeps (ite_keeps h.closeLaunch h.tellRoot) h.nextHold.reportComplete.endIfOver

protected theorem State.memOk.sendStaged {ctx} (h : s.memOk) : (sendStaged s ctx).memOk :=
  h.foldl fun _ _ h1 => h1.send

protected theorem State.memOk.reportArrival {ctx j} (h : s.memOk) : (reportArrival s ctx j).memOk :=
  ite_keeps h.tellRoot.modJob (ite_keeps h h.sendStaged.tellRoot.modJob)

protected theorem State.memOk.rootSums {ctx j} (h : s.memOk) : (rootSums s ctx j).1.memOk := by
  unfold rootSums
  dsimp only
  split
  · exact h
  · exact h.upd

protected theorem State.memOk.decideRoot {ctx j} (h : s.memOk) : (decideRoot s ctx j).memOk := by
  unfold decideRoot
  refine ite_keeps h.modJob.tellModules.rollbackJob.afterDecision (ite_keeps ?_ h.modJob)
  split
  · exact h.modJob
  · exact (h.modJob.reclaimReached.some ‹_›).rootSums.sendStaged.tellModules.commitJob.afterDecision

protected theorem State.memOk.execShutterDecision {ctx} (h : s.memOk) :
    OutcomeOk (execShutterDecision ctx s) := by
  unfold execShutterDecision
  show State.memOk _
  split
  · exact h
  · exact ite_keeps h (ite_keeps h.decideRoot h.reportArrival)

protected theorem State.memOk.takeDecision {ctx commit result mask sums secures stops halts arm}
    (h : s.memOk) : (takeDecision s ctx commit result mask sums secures stops halts arm).memOk := by
  unfold takeDecision
  split
  · exact h
  · refine ite_keeps ?_ h.modJob.rollbackJob.afterDecision
    split
    · exact h.modJob
    · exact (h.modJob.reclaimReached.some ‹_›).commitJob.afterDecision

protected theorem State.memOk.releaseNow {ctx} (h : s.memOk) : (releaseNow s ctx).memOk := by
  unfold releaseNow
  split
  · exact h
  · exact ite_keeps h h.tellModules.releaseJob.askAll

protected theorem State.memOk.execMaxssExpiry {ctx} (h : s.memOk) : OutcomeOk (execMaxssExpiry ctx s) := by
  unfold execMaxssExpiry
  show State.memOk _
  split
  · exact h
  · exact ite_keeps h.upd h

protected theorem State.memOk.execPreemptionStop {ctx} (h : s.memOk) :
    OutcomeOk (execPreemptionStop ctx s) := by
  unfold execPreemptionStop
  show State.memOk _
  split
  · exact h
  · refine ite_keeps h ?_
    split
    · exact h.closeLaunch
    · refine ite_keeps h (ite_keeps ?_ (ite_keeps (ite_keeps h h.reportComplete.modJob) ?_))
      · exact ite_keeps h.closeLaunch (ite_keeps h h.tellRoot.modJob)
      · exact ite_keeps h (ite_keeps h.closeLaunch (ite_keeps h.storeImage.closeLaunch h.closeLaunch))

protected theorem State.memOk.stopHere {ctx state} (h : s.memOk) : (stopHere s ctx state).memOk := by
  unfold stopHere
  split
  · exact h
  · exact State.memOk.closeLaunch (ite_keeps (State.memOk.storeImage (ite_keeps h.upd h)) (ite_keeps h.upd h))

protected theorem State.memOk.retryHere {ctx j} (h : s.memOk) : (retryHere ctx j s).memOk :=
  ite_keeps h.upd.nextHold h

protected theorem State.memOk.runHere {ctx j} (h : s.memOk) : (runHere ctx j s).memOk := ite_keeps h h.upd

protected theorem State.memOk.failFill {ctx lost} (h : s.memOk) : (failFill s ctx lost).memOk := by
  unfold failFill
  split
  · exact h
  · exact State.memOk.closeLaunch (ite_keeps (ite_keeps h.upd.tellModules h.upd) h.upd.tellRoot)

protected theorem State.memOk.requestHere {ctx kind j} (h : s.memOk) : (requestHere ctx kind j s).memOk := by
  unfold requestHere
  split
  · exact h.preHere
  · exact h.upd
  · exact ite_keeps h.closeLaunch h
  · exact h.retryHere
  · exact h.runHere
  · exact ite_keeps h (ite_keeps h.failFill h.closeLaunch)
  · exact h.upd
  · exact h.upd
  · exact h.upd
  · exact h.upd
  · exact ite_keeps h.firstStep h
  · exact h.failFill

protected theorem State.memOk.makeRequest {ctx kind} (h : s.memOk) : (makeRequest s ctx kind).memOk :=
  h.request fun _ _ h1 => h1.requestHere

protected theorem State.memOk.takeRequest {ctx kind} (h : s.memOk) : (takeRequest s ctx kind).memOk := by
  unfold takeRequest
  split
  · exact h
  · exact ite_keeps h.makeRequest h.requestHere

/-! ### Operations of Machine/Time -/

protected theorem State.memOk.tellStill {ctx j} (h : s.memOk) : (tellStill s ctx j).memOk :=
  ite_keeps h h.tellRoot.modJob

protected theorem State.memOk.tellStills (h : s.memOk) : (tellStills s).memOk := by
  unfold tellStills
  refine h.foldl fun _ _ h1 => ?_
  split
  · exact h1.tellStill
  · exact h1

protected theorem State.memOk.noteStuck (h : s.memOk) : (noteStuck s).memOk :=
  ite_keeps h.tellStills h.tellStills.upd

protected theorem State.memOk.execHang {ctx} (h : s.memOk) : OutcomeOk (execHang ctx s) := by
  unfold execHang
  show State.memOk _
  split
  · exact h
  · exact ite_keeps h h.postJobEvent.modJob

/-! ### Operations of Machine/Survival -/

protected theorem State.memOk.modSv {ctx f} (h : s.memOk) : (s.modSv ctx f).memOk := h.upd

protected theorem State.memOk.tellHome {ctx j b} (h : s.memOk) : (tellHome s ctx j b).memOk :=
  ite_keeps h h.upd.tellModules

protected theorem State.memOk.closeSecure {ctx cost ok} (h : s.memOk) :
    (closeSecure s ctx cost ok).memOk := by
  unfold closeSecure
  split
  · exact h
  · exact ite_keeps (State.memOk.nextHold (State.memOk.modJob (ite_keeps h.upd.tellHome h.upd)))
      (State.memOk.modJob (ite_keeps h.upd.tellHome h.upd))

protected theorem State.memOk.writeSecure {ctx j} (h : s.memOk) : (writeSecure s ctx j).1.memOk := by
  unfold writeSecure
  dsimp only
  split
  · exact h
  · split
    · exact h.upd
    · exact State.memOk.modSv (State.memOk.send (h.foldl fun _ _ h1 => h1.send))

protected theorem State.memOk.noteSeal {ctx module ok} (h : s.memOk) : (noteSeal s ctx module ok).memOk := by
  unfold noteSeal
  split
  · exact h
  · exact ite_keeps h (ite_keeps h.tellModules.closeSecure (ite_keeps h.upd h.upd.tellModules.closeSecure))

protected theorem State.memOk.execSecureSealed {ctx} (h : s.memOk) : OutcomeOk (execSecureSealed ctx s) := by
  unfold execSecureSealed
  show State.memOk _
  split
  · exact h
  · exact ite_keeps h (ite_keeps h.writeSecure.noteSeal h.writeSecure.tellRoot.modJob)

protected theorem State.memOk.noteFeed {ctx module feed ok} (h : s.memOk) :
    (noteFeed s ctx module feed ok).memOk := by
  unfold noteFeed
  split
  · exact h
  · exact ite_keeps h h.upd

protected theorem State.memOk.answerFeed {ctx smod first nf} (h : s.memOk) :
    (answerFeed s ctx smod first nf).memOk := h.send

protected theorem State.memOk.newBuddy {ctx b} (h : s.memOk) : (newBuddy s ctx b).memOk := by
  unfold newBuddy
  split
  · exact h.upd
  · exact ite_keeps h.upd.send h.upd

protected theorem State.memOk.secureNow {ctx} (h : s.memOk) : (secureNow s ctx).memOk := by
  unfold secureNow
  split
  · exact h.upd
  · exact ite_keeps h.upd h.tellRoot

protected theorem State.memOk.shareRate {ctx c m fails} (h : s.memOk) :
    (shareRate s ctx c m fails).memOk := by
  unfold shareRate
  dsimp only
  split
  · exact h.upd
  · exact ite_keeps h.upd.tellModules h.upd.tellRoot

protected theorem State.memOk.takeRate {ctx c m fails} (h : s.memOk) : (takeRate s ctx c m fails).memOk := by
  unfold takeRate
  split
  · exact h
  · exact ite_keeps h.shareRate h.upd

protected theorem State.memOk.noteFailure {ctx j} (h : s.memOk) : (noteFailure s ctx j).memOk :=
  ite_keeps h (State.memOk.modSv (ite_keeps h.shareRate h))

protected theorem State.memOk.failJob {ctx module j} (h : s.memOk) : (failJob s ctx module j).memOk := by
  unfold failJob
  extract_lets v uses s1 s2 abandon s3 late s4 s5 dp s6
  have h1 : s1.memOk := State.memOk.modJob (ite_keeps h.noteFailure h)
  have h2 : s2.memOk := ite_keeps h1.modSv h1
  have h3 : s3.memOk := ite_keeps (ite_keeps h2.tellModules.closeSecure h2.tellRoot) h2
  have h4 : s4.memOk := ite_keeps h3 h3.vote
  have h5 : s5.memOk := ite_keeps h4 h4.reportComplete
  have h6 : s6.memOk := h5.modSv
  exact ite_keeps h1.failFill (ite_keeps h3 (ite_keeps h5 (ite_keeps h6.modJob h6)))

protected theorem State.memOk.answerFill {ctx smod first nf number} (h : s.memOk) :
    (answerFill s ctx smod first nf number).memOk := by
  unfold answerFill
  dsimp only
  split
  · exact h.send
  · exact ite_keeps h.send (h.foldl fun _ _ h1 => h1.send).send

protected theorem State.memOk.loadSecure {ctx} (h : s.memOk) : (loadSecure s ctx).memOk := by
  unfold loadSecure
  extract_lets box frame w nOwn mf st dm s1 s2 s3 s4
  have h3 : s3.memOk := State.memOk.foldl (State.memOk.shootDown (s := s1) h.upd) fun _ _ h3 => h3.writeN
  have h4 : s4.memOk := foldl_fst h3 fun _ _ h4 => h4.writeN
  exact h4.loadImage.modJob.abortSlots

protected theorem State.memOk.askImage {ctx w number} (h : s.memOk) :
    (askImage s ctx w number).memOk := h.send.modSv

protected theorem State.memOk.startFill {ctx spare number} (h : s.memOk) :
    (startFill s ctx spare number).memOk := by
  unfold startFill
  split
  · exact h
  · exact ite_keeps h.upd.failFill (ite_keeps h.upd.failFill h.upd.askImage)

protected theorem State.memOk.beginFill {ctx j} (h : s.memOk) : (beginFill s ctx j).memOk := by
  unfold beginFill
  split
  · exact h
  · exact ite_keeps h (ite_keeps h.failFill h.send.tellModules.startFill)

protected theorem State.memOk.takeSpare {ctx number failed record modules words jobid live c m fails}
    (h : s.memOk) : (takeSpare s ctx number failed record modules words jobid live c m fails).memOk := by
  unfold takeSpare
  refine ite_keeps h.send ?_
  split
  · exact h.send
  · exact h.upd.openLaunch.placeGroup.modCtx.modSet.askImage

protected theorem State.memOk.finishFill {ctx} (h : s.memOk) : (finishFill s ctx).memOk := by
  unfold finishFill
  exact h.loadSecure.modCtx.placedHere.modJob.nextHold.reportComplete

protected theorem State.memOk.execSpareFill {ctx} (h : s.memOk) : OutcomeOk (execSpareFill ctx s) := by
  unfold execSpareFill
  show State.memOk _
  split
  · exact h
  · exact ite_keeps h (ite_keeps (ite_keeps h (ite_keeps h.failFill h.finishFill))
      (ite_keeps h.beginFill (ite_keeps h h.tellRoot)))

/-! ### Operations of Machine/Debug -/

protected theorem State.memOk.endStep {t ctx code} (h : s.memOk) : (endStep s t ctx code).memOk := h.upd.trace

protected theorem State.memOk.finishIssue {core slot} {s0 : State} {s1 : State} (h : s1.memOk) :
    (finishIssue core slot s0 s1).memOk := by
  unfold finishIssue
  refine ite_keeps ?_ h
  split
  · exact h.endStep
  · exact h

protected theorem State.memOk.finishVector {core slot} {s0 : State} {s1 : State} (h : s1.memOk) :
    (finishVector core slot s0 s1).memOk := by
  unfold finishVector
  dsimp only
  split
  · exact ite_keeps h.upd h
  · exact h

protected theorem State.memOk.beginStepped {ctx t j} (h : s.memOk) : (beginStepped s ctx t j).memOk := by
  unfold beginStepped
  refine ite_keeps h ?_
  split
  · exact ite_keeps h.startThread h
  · exact h.startRecord

protected theorem State.memOk.step1 {ctx t j} (h : s.memOk) : (step1 s ctx t j).memOk := by
  unfold step1
  extract_lets s1 s2 s3 s4 s5 th
  have h2 : s2.memOk := h.modCtx.firstStep
  have h4 : s4.memOk := h2.modCtx.beginStepped
  have h5 : s5.memOk := ite_keeps h4.ready h4
  exact ite_keeps h5 h5.modCtx

protected theorem State.memOk.stepHere {ctx t j} (h : s.memOk) : (stepHere s ctx t j).memOk :=
  State.memOk.step1 (ite_keeps h (h.request fun _ _ h1 => h1))

protected theorem State.memOk.debugStep {ctx} (h : s.memOk) : (debugStep s ctx).memOk := by
  unfold debugStep
  split
  · exact h
  · refine ite_keeps h ?_
    split
    · exact h.stepHere
    · dsimp only
      split
      · exact h.upd.send
      · exact h.upd

protected theorem State.memOk.stepFor {ctx id asker} (h : s.memOk) : (stepFor s ctx id asker).memOk := by
  unfold stepFor
  split
  · exact h.send
  · refine ite_keeps h ?_
    split
    · exact h.stepHere.modCtx
    · exact h.send

protected theorem State.memOk.noteSteps (h : s.memOk) : (noteSteps s).memOk := by
  unfold noteSteps
  refine h.foldl fun _ _ h1 => ?_
  split
  · exact h1
  · exact ite_keeps h1 h1.send.modCtx

protected theorem State.memOk.writeDbgctl {ctx w} (h : s.memOk) : (writeDbgctl s ctx w).memOk := by
  unfold writeDbgctl
  extract_lets s1 s2 s3 s4
  have h2 : s2.memOk := State.memOk.makeRequest (h.modCtx.makeRequest)
  have h3 : s3.memOk := ite_keeps h2.makeRequest h2
  have h4 : s4.memOk := ite_keeps h3.makeRequest h3
  exact ite_keeps h4.debugStep h4

/-! ### Operations of Machine/SysReg -/

protected theorem State.memOk.writeSlotReg {t n v} (h : s.memOk) : (writeSlotReg s t n v).memOk := by
  unfold writeSlotReg
  split
  · exact h.upd
  · exact h.upd
  · exact h.upd
  · exact h.upd
  · exact h.upd
  · exact h.upd
  · exact h.upd
  · exact h.upd
  · exact ite_keeps h h.upd
  · exact h.upd
  · exact h.upd
  · exact h.upd
  · exact h.upd
  · exact ite_keeps h h.upd
  · exact h.upd
  · exact ite_keeps h.upd h.upd

protected theorem State.memOk.writeSsctl {ctx v} (h : s.memOk) : (writeSsctl s ctx v).memOk := by
  unfold writeSsctl
  extract_lets esc s1 s2
  have h1 : s1.memOk := ite_keeps h.vote h
  have h2 : s2.memOk := ite_keeps h1.makeRequest h1
  exact ite_keeps h1.makeRequest (ite_keeps h1.makeRequest (ite_keeps h2.makeRequest h2))

protected theorem State.memOk.writeSvctl {ctx v} (h : s.memOk) : (writeSvctl s ctx v).memOk :=
  ite_keeps (State.memOk.newBuddy (ite_keeps h.upd.secureNow h.upd)) (ite_keeps h.upd.secureNow h.upd)

protected theorem State.memOk.writeTrbase {die ctx v} (h : s.memOk) :
    (writeTrbase s die ctx v).memOk := ite_keeps h.upd h

protected theorem State.memOk.writeCtxReg {t n v} (h : s.memOk) : (writeCtxReg s t n v).memOk := by
  unfold writeCtxReg
  split
  · exact h.writeSsctl
  · exact h.upd
  · exact ite_keeps h.upd h
  · exact h.upd
  · exact h.upd
  · exact h
  · exact ite_keeps h.upd h
  · exact h.writeQcfg
  · exact h.upd
  · exact h.upd
  · exact h.shareRate
  · exact h.upd
  · exact h.upd
  · exact h.upd
  · exact h.writeSvctl
  · exact h.writeTrbase
  · exact h.upd
  · exact h.writeDbgctl
  · exact h.upd
  · exact h.upd

protected theorem State.memOk.writeDieReg {die n v} (h : s.memOk) : (writeDieReg s die n v).memOk := by
  unfold writeDieReg
  split
  · exact h.upd
  · exact h.upd.noteTails
  · exact h.upd
  · exact ite_keeps h h.upd
  · exact h.upd
  · exact h.upd
  · exact h.upd
  · exact h.upd

protected theorem State.memOk.writeSys {t n v} (h : s.memOk) : (writeSys s t n v).memOk :=
  ite_keeps h.writeSlotReg (ite_keeps h.writeDieReg h.writeCtxReg)

protected theorem State.memOk.resumeFibre {t} (h : s.memOk) : (resumeFibre s t).memOk := by
  unfold resumeFibre
  refine ite_keeps h ?_
  split
  · exact trivial
  · exact trivial
  · split
    · exact h.loadPlace.wait ‹_›
    · exact h
    · exact h.loadPlace.damaged ‹_›
    · exact State.memOk.modThread ((h.loadPlace.bytes ‹_›).foldl fun _ _ h1 => h1.fillG)

protected theorem State.memOk.execUpstRet {core slot value} (h : s.memOk) :
    OutcomeOk (execUpstRet core slot value s) := by
  unfold execUpstRet
  show State.memOk _
  refine ite_keeps h ?_
  split
  · exact h.resumeFibre.resumed ‹_›
  · exact h.resumeFibre.wait ‹_›
  · exact h

protected theorem State.memOk.withFpWaits {n} {k : State → State} (h : s.memOk)
    (hk : ∀ u, u.memOk → (k u).memOk) :
    (State.withFpWaits n s k).memOk := ite_keeps (h.withDraws hk) (ite_keeps h (hk _ h))

protected theorem State.memOk.sysr {d n} (h : s.memOk) : (sysr d n s).memOk := by
  unfold sysr
  split
  · exact h.raise
  · exact ite_keeps h.raise (h.withFpWaits fun _ h1 => ite_keeps h1.upd.putG.advance h1.putG.advance)

protected theorem State.memOk.writeUpst {v} (h : s.memOk) : (writeUpst v s).memOk := by
  unfold writeUpst
  refine ite_keeps h.advance.writeSys ?_
  split
  · exact (h.resumeFibre.resumed ‹_›).issued
  · exact h.resumeFibre.wait ‹_›
  · exact h.raise
  · exact h.raise
  · exact (h.resumeFibre.damaged ‹_›).raise

protected theorem State.memOk.sysw {n a} (h : s.memOk) : (sysw n a s).memOk := by
  unfold sysw
  split
  · exact ite_keeps h.raise (h.withG fun _ h1 => h1.withFpWaits fun _ h2 =>
      ite_keeps h2.writeUpst h2.advance.writeSys)
  · exact h.raise

/-! ### Operations of Machine/Firmware -/

protected theorem State.memOk.capWrite {d} (h : s.memOk) : (capWrite s d).memOk := by
  unfold capWrite
  dsimp only
  split
  · exact h.writeWord.modDie
  · exact h.writeWord.modDie
  · exact h.writeWord.modDie

protected theorem State.memOk.noteCap {d} (h : s.memOk) : (noteCap s d).memOk := ite_keeps h h.upd

protected theorem State.memOk.noteCaps (h : s.memOk) : (noteCaps s).memOk :=
  ite_keeps h (h.foldl fun _ _ h1 => h1.noteCap)

protected theorem State.memOk.capDeliver {d gen} (h : s.memOk) : (capDeliver s d gen).memOk :=
  h.writeWord.writeWord.modDie

protected theorem State.memOk.allotFrame {stack frame kind ctx vpn} (h : s.memOk) :
    (allotFrame s stack frame kind ctx vpn).memOk := ite_keeps h h.assignFrame

protected theorem State.memOk.freeFrame {stack frame} (h : s.memOk) :
    (freeFrame s stack frame).memOk := ite_keeps h h.setFrame

protected theorem State.memOk.givePageTable {ctx root} (h : s.memOk) :
    (givePageTable s ctx root).memOk := ite_keeps h h.upd

protected theorem State.memOk.failDie {d} (h : s.memOk) : (failDie s d).memOk :=
  ite_keeps h (h.foldl fun _ _ h1 => h1.upd)

protected theorem State.memOk.firmwareTurn {a} (h : s.memOk) : (firmwareTurn a s).memOk := by
  unfold firmwareTurn
  split
  · exact ite_keeps h.capWrite h
  · exact ite_keeps h.allotOn h
  · exact h.allotFrame
  · exact h.freeFrame
  · exact h.givePageTable
  · exact h.failDie

/-! ### Operations of Machine/System -/

protected theorem State.memOk.waitThread (h : s.memOk) : (waitThread s).memOk :=
  ite_keeps h.advance h.issued.modTh.park

protected theorem State.memOk.waitControl (h : s.memOk) : (waitControl s).memOk :=
  ite_keeps h.issued.takeJobEvent (ite_keeps h.advance h.issued.modTh.park)

protected theorem State.memOk.injectPre {a1} (h : s.memOk) : (injectPre s a1).memOk := by
  unfold injectPre
  split
  · exact h.takePre
  · split
    · exact h.takePrePaged.some ‹_›
    · exact trivial
  · exact trivial

protected theorem State.memOk.damage {loc} (h : s.memOk) : (damage s loc).memOk := h.hurtWord.modDie

protected theorem State.memOk.replicaPresent {ea} (h : s.memOk) : (replicaPresent s ea).memOk := by
  unfold replicaPresent
  split
  · split
    · refine ite_keeps ?_ h
      split
      · exact h.needLine.present ‹_›
      · exact h
    · exact h
  · exact h

protected theorem State.memOk.inject {a} (h : s.memOk) : (inject a s).memOk := by
  unfold inject
  refine ite_keeps h.raise ?_
  refine h.withG fun _ h1 => ?_
  refine ite_keeps h1.raise ?_
  refine ite_keeps h1.advance ?_
  dsimp only
  split
  · exact h1.replicaPresent.raise
  · refine h1.replicaPresent.withDrain fun _ h2 => ?_
    refine ite_keeps (ite_keeps h2 h2.noteRecall) ?_
    split
    · exact h2
    · exact h2.raise
    · exact ((h2.injectPre.taken ‹_›).damage).advance

protected theorem State.memOk.writeReport {die ea ctx set} (h : s.memOk) :
    (writeReport s die ea ctx set).memOk := ite_keeps h.upd.land h.upd.land.modCtx

protected theorem State.memOk.report {a} (h : s.memOk) : (report a s).memOk := by
  unfold report
  exact ite_keeps h.raise (h.withG fun _ h1 =>
    ite_keeps h1.raise (ite_keeps h1.raise
    (h1.withDrain fun _ h2 => h2.loadThen fun _ _ h3 => ite_keeps h3.raise h3.advance.writeReport)))

/-! ### Operations of Machine/Host -/

protected theorem State.memOk.hostLand {ctx va data} (h : s.memOk) : (hostLand s ctx va data).memOk := by
  unfold hostLand
  refine ite_keeps h ?_
  split
  · exact h.land
  · exact h.upd

protected theorem State.memOk.hostTail {die q w} (h : s.memOk) : (hostTail s die q w).memOk := by
  unfold hostTail
  split
  · exact h.upd
  · exact ite_keeps h.upd h.land.modDie.noteTails

protected theorem State.memOk.hostPreempt {die w} (h : s.memOk) : (hostPreempt s die w).memOk :=
  ite_keeps h.upd (ite_keeps h.upd h.makeRequest)

protected theorem State.memOk.hostReport {die w} (h : s.memOk) : (hostReport s die w).memOk :=
  ite_keeps h.upd h.upd

protected theorem State.memOk.hostDebug {w} (h : s.memOk) : (hostDebug s w).memOk :=
  ite_keeps h.upd (ite_keeps h.upd h.writeDbgctl)

protected theorem State.memOk.hostSelect {w} (h : s.memOk) : (hostSelect s w).memOk :=
  ite_keeps h.upd (ite_keeps h.upd h.upd)

protected theorem State.memOk.hostSpare {w} (h : s.memOk) : (hostSpare s w).memOk :=
  ite_keeps h.upd (ite_keeps h.upd h.upd)

theorem memOk_wipeModule {life modnum} : (wipeModule s life modnum).memOk :=
  State.memOk_reset.upd.foldl fun _ _ h => h.capDeliver

protected theorem State.memOk.newIdentities (h : s.memOk) : (newIdentities s).memOk := by
  unfold newIdentities
  exact State.memOk.upd (h.foldl fun _ _ h1 => h1.modDie)

protected theorem State.memOk.dropIdentities (h : s.memOk) : (dropIdentities s).memOk :=
  h.foldl fun _ _ h1 => h1.upd

protected theorem State.memOk.newLinkKeys (h : s.memOk) : (newLinkKeys s).memOk :=
  h.foldl fun _ _ h1 => h1.upd

protected theorem State.memOk.toProvisioned (h : s.memOk) : (toProvisioned s).memOk :=
  ite_keeps memOk_wipeModule.newIdentities h.upd

protected theorem State.memOk.toDeployed {m} (h : s.memOk) : (toDeployed s m).memOk :=
  ite_keeps memOk_wipeModule.newLinkKeys h.upd

protected theorem State.memOk.toDecommissioned (h : s.memOk) : (toDecommissioned s).memOk :=
  ite_keeps memOk_wipeModule.dropIdentities h.upd

protected theorem State.memOk.hostLife {w} (h : s.memOk) : (hostLife s w).memOk := by
  unfold hostLife
  exact ite_keeps h.upd (ite_keeps h.toProvisioned
    (ite_keeps h.toDeployed (ite_keeps h.toDecommissioned h.upd)))

protected theorem State.memOk.mgmtWrite {off w} (h : s.memOk) : (mgmtWrite s off w).memOk := by
  unfold mgmtWrite
  extract_lets d r
  refine ite_keeps h.hostLife (ite_keeps (ite_keeps h.upd h) (ite_keeps ?_ h))
  refine ite_keeps h (ite_keeps h (ite_keeps h.upd (ite_keeps h.hostTail ?_)))
  exact ite_keeps h.hostPreempt (ite_keeps h.hostReport
    (ite_keeps h.hostDebug (ite_keeps h.hostSelect h.hostSpare)))

protected theorem State.memOk.execHostRead {fn ctx va size} (h : s.memOk) :
    OutcomeOk (execHostRead fn ctx va size s) := by
  unfold execHostRead
  show State.memOk _
  refine ite_keeps h.upd ?_
  refine ite_keeps h.upd ?_
  split
  · exact (h.preRange.got ‹_›).upd
  · exact (h.preRange.damaged ‹_›).upd
  · exact h

protected theorem State.memOk.dropAmp {ctx} (h : s.memOk) : (dropAmp s ctx).memOk :=
  State.memOk.modAmp (h.foldl fun _ _ h1 => h1.returnAmp)

protected theorem State.memOk.resetDie {d} (h : s.memOk) : (resetDie s d).memOk := by
  unfold resetDie
  extract_lets _ _ _ s1 _ _ _ _ _ _ s2 s3
  have h1 : s1.memOk := h.foldl fun _ _ h => h.dropAmp
  have h2 : s2.memOk := h1.upd
  have h3 : s3.memOk := h2.zeroRange.zeroRange
  exact h3.upd.modDie.capDeliver

protected theorem State.memOk.endBound {ctx} (h : s.memOk) : (endBound s ctx).memOk := by
  unfold endBound
  refine ite_keeps ?_ ?_
  · split
    · exact h
    · exact State.memOk.closeLaunch (ite_keeps h h.tellRoot)
  · refine State.memOk.endContext ?_
    split
    · exact h
    · exact State.memOk.closeLaunch (ite_keeps h h.tellRoot)

protected theorem State.memOk.execFunctionLevelReset {die} (h : s.memOk) :
    OutcomeOk (execFunctionLevelReset die s) := by
  unfold execFunctionLevelReset
  extract_lets jobs s1 bound wipes s2
  have h1 : s1.memOk := h.foldl fun _ _ h1 => h1.vote.modJob
  have h2 : s2.memOk := (h1.resetDie.foldl fun _ _ h1 => h1.endBound).foldl fun _ _ h1 => h1.settleEnded
  exact ite_keeps (P := State.memOk) h2.dispatchEvent h2

protected theorem State.memOk.serveGet {ctx addr len smod id} (h : s.memOk) :
    (serveGet s ctx addr len smod id).memOk := by
  unfold serveGet
  have ha (c : Bool) (core : Nat) :
      (if c then preRange core 0 ctx (partsOf addr len) s [] else .got s none).memOk := ite_keeps h.preRange h
  dsimp only
  split
  · exact ((ha _ _).got ‹_›).send
  · exact ((ha _ _).got ‹_›).countCommitted.send
  · exact (ha _ _).damaged ‹_›
  · exact h

protected theorem State.memOk.takeRelease {ctx} (h : s.memOk) : (takeRelease s ctx).memOk := by
  unfold takeRelease
  split
  · exact h
  · exact ite_keeps h (ite_keeps h.releaseJob.askAll (ite_keeps h.placedHere.releaseJob.askAll h))

protected theorem State.memOk.takeWithdrawal {ctx} (h : s.memOk) : (takeWithdrawal s ctx).memOk := by
  unfold takeWithdrawal
  dsimp only
  split
  · exact h.upd
  · exact ite_keeps h.upd h.upd.withdraw.modJob.closeLaunch

protected theorem State.memOk.deliverMsg {msg} (h : s.memOk) : (deliverMsg s msg).memOk := by
  unfold deliverMsg
  split
  · exact h.upd
  · exact h.upd
  · exact h.upd
  · exact h.serveGet
  · exact h.upd
  · exact h.upd
  · exact h.upd
  · exact h.upd
  · exact h.takeDecision
  · exact h.upd.endIfOver
  · exact h.takeRelease
  · exact ite_keeps h.upd h
  · exact h.slipArrived
  · exact h.swapAccepted
  · exact h.swapHalf
  · exact h.noteFeed
  · exact h.noteSeal
  · exact h.closeSecure
  · exact h.answerFeed
  · exact h.answerFill
  · exact h.upd
  · exact h.upd
  · exact h.startFill
  · exact h.takeSpare
  · exact h.upd
  · dsimp only
    split
    · exact ite_keeps h.upd.startPlaced h.upd
    · exact h.upd
  · exact h.takeWithdrawal
  · exact h.takeRequest
  · exact h.stepFor
  · exact h.upd
  · exact h.upd
  · exact h.secureNow
  · exact h.takeRate
  · exact h.stopHere
  · exact ite_keeps h.writeN h

/-! ### Operations of Machine/Dispatch -/

protected theorem State.memOk.exec {i} (h : s.memOk) : OutcomeOk (exec i s) := by
  cases i with
  | add | sub | and | or | xor | sll | srl | sra | slt | sltu | andn | orn | mul | mulh | mulhu | mulhsu
    | div | divu | rem | remu | bext | bdep | min | max | minu | maxu | cMov | cAdd | cSub | cAnd =>
      exact h.binary
  | addi | slti | sltiu | andi | ori | xori | slli | srli | srai | clz | ctz | popc | brev | cAddi | cLdi
    | cSlli | cNop => exact h.unary
  | lih | pch | probe | qlen | ssno | hstat => exact h.putG.advance
  | sel => exact h.withG fun _ h1 => h1.putG.advance
  | beq | bne | blt | bge | bltu | bgeu | cBeqz | cBnez | cJ => exact h.branch
  | jal => exact h.putG.jump
  | jalr => exact h.withG fun _ h1 => ite_keeps h1.raise h1.putG.jump
  | lb | lh | lw | ld | lbu | lhu | lwu | cLdReg | cLdG2 => exact h.load
  | sb | sh | sw | sd | cStReg | cStG2 => exact h.store
  | amoadd | amoand | amoor | amoxor | amomin | amomax | amominu | amomaxu | amoswap => exact h.amo
  | amocas | baddW128 =>
      exact h.withG fun _ h1 => h1.withVector fun _ h2 => h2.rmwTarget fun _ _ h3 => h3.atSlice fun _ _ h4 =>
        h4.putG.advance
  | fenceSc => exact h.withVector fun _ h1 => h1.withDrain fun _ h2 => h2.advance
  | bvaddF | bvaddBh | bvmaxF | bvmaxBh | bredF | bredBh => exact h.bankOp
  | get | getB => exact h.withG fun _ h1 => h1.withVector fun _ h2 => h2.remote fun _ _ h3 => h3.upd.advance
  | put =>
      exact h.withG fun _ h1 => h1.withVector fun _ h2 => h2.remote fun _ _ h3 => h3.stageOr fun _ h4 =>
        h4.advance
  | putB => exact h.execPutB
  | ramoAdd | ramoAnd | ramoOr | ramoXor | ramoMin | ramoMax | ramoMinu | ramoMaxu | ramoSwap | ramoCas =>
      exact h.ramo
  | spawn => exact h.execSpawn
  | send | cSend => exact h.sendOp
  | sleep => exact h.withG fun _ h1 => ite_keeps h1.advance h1.issued.modTh.park
  | probeV => exact ite_keeps h h.putG.advance
  | empty => exact h.upd.advance
  | emptyV => exact ite_keeps h h.upd.advance
  | qpush => exact h.withG fun _ h1 => ite_keeps h1.upd h1.upd.advance
  | qpop => exact h.execQpop
  | lcw | lbw | leaveRel | tdset => exact h.withG fun _ h1 => h1.upd.advance
  | lcr => exact h.readRegs fun _ h1 => h1.putG.advance
  | sync | syncQ | cSync => exact h.sync
  | pfl => exact h.withList fun _ _ h1 => State.memOk.advance (h1.foldl fun _ _ h2 => h2.stagePage)
  | wbl => exact h.execWbl
  | mcfg => exact h.execMcfg
  | mjob => exact h.execMjob
  | mdrain => exact h.execMdrain
  | mstat => exact ite_keeps h.putG.advance (ite_keeps h h.putG.advance)
  | xcopy | xcopyT | xplane | xunplane | xfill | xgather | xcopyNext | xcopyTNext | xplaneNext
    | xunplaneNext | xfillNext | xgatherNext => exact h.xpost
  | ttload | ttloadK => exact h.ttload
  | ttgoArm | ttgoDisarm | ttgoPost | ttgoFree => exact h.ttgo
  | qgate | qgateAuto | qgateD | qgateAutoD => exact h.qgate
  | qswap | qswapD => exact h.qswap
  | qprob | qprobD => exact h.qprob
  | qnorm | qnormD => exact h.qnorm
  | qsamp | qsampD => exact h.qsamp
  | hoffer => exact h.hoffer
  | leave => exact h.leave
  | sysr => exact h.sysr
  | sysw => exact h.sysw
  | sfenceVPage | sfenceVContext | sfenceVAll | sfenceVPublish => exact h.sfence
  | inject => exact h.inject
  | report => exact h.report
  | vadd | vsub | vmul | vmulh | vand | vor | vxor | vandn | vsll | vsrl | vsra | vmin | vmax | vadds
    | vsubs | vfadd | vfsub | vfmul | vfdiv | vfmin | vfmax | vrcps | vrsqrts | vfma | vfms | vfnma
    | vfnms | vceq | vcne | vclt | vcle | vcvt | vrcp | vrsqrt | vsqrt | vabs | vneg | vmov | vredsum
    | vredmin | vredmax | vredand | vredor | vredxor | vperm | vslide | vbcast | vmerge | vld | vlds
    | vldq | vgather | vst | vsts | vstq | vscatter | vmand | vmor | vmxor | vmnot | vmpopc | vmfirst
    | vqpush | vqpop => exact h.queueEntry
  | vmap | vmapR => exact h.withG fun _ h1 => h1.readRegs fun _ h2 => ite_keeps h2.raise h2.vmapPush
  | vloop => exact ite_keeps h.raise (h.readRegs fun _ h1 => h1.upd.advance)
  | tdld => exact h.withG fun _ h1 => h1.withVector fun _ h2 => h2.loadThen fun _ _ h3 => h3.upd.advance
  | tdst =>
      exact h.withG fun _ h1 => h1.withVector fun _ h2 => h2.readRegs fun _ h3 => h3.storeThen fun _ h4 =>
        h4.advance
  | exit | cExit => exact h.exit
  | yield => exact h.advance.modCore
  | abort => exact h.abort
  | eret => exact ite_keeps h.raise h.exceptionReturn
  | wfi => exact ite_keeps h.raise (ite_keeps h.waitControl h.waitThread)
  | brk => exact ite_keeps h.advance.modCtx.makeRequest h.raise
  | trap => exact h.raiseNext
  | iflush => exact h.withVector fun _ h1 => h1.withDrain fun _ h2 => h2.advance.modCore
  | storeBufferDrain => exact h.execStoreBufferDrain
  | icacheFill => exact h.execIcacheFill
  | sleepExpiry => exact ite_keeps h.upd.ready h
  | arrive => exact h.execArrive
  | zeroing => exact h.execZeroing
  | zeroingDone => exact ite_keeps h (ite_keeps h.clearCarve h.clearCarve.setThread.dispatchEvent)
  | spawnStart => exact h.execSpawnStart
  | deliver => exact h.execDeliver
  | taskDequeue => exact h.execTaskDequeue
  | stealRound => exact h.foldl fun _ _ h1 => h1.stealTurn
  | lineFill => exact h.execLineFill
  | recallLine => exact h.execRecall
  | mcfgEffect => exact h.execMcfgEffect
  | tilePass => exact h.execTilePass
  | drainRun => exact h.execDrainRun
  | copyRun => exact h.execCopyRun
  | nextCopyRun => exact h.execNextCopyRun
  | leaveGrant => exact h.execLeaveGrant
  | thermalEmergency | ssctlVote | vtrapHeldClear => exact ite_keeps h.upd h
  | getFill => exact h.execGetFill
  | lendingResume | dieRetirement | dieHealthyAgain => exact ite_keeps h h.upd
  | amplitudePass => exact h.execAmplitudePass
  | swapHalfArrival => exact h.execSwapHalfArrival
  | partnerTimeout => exact h.execPartnerTimeout
  | tableStart => exact h.execTableStart
  | groupFire => exact h.execGroupFire
  | beatArrival => exact h.execBeatArrival
  | debtArrival | timeCarry | mgerrClear | portLoss | tdispRequest | ideKeyManagement
    | routerKeyStoreLoad | slicePowerGating | portRetrain => exact h.upd
  | tableStop => exact h.execTableStop
  | shutterDecision => exact h.execShutterDecision
  | release => exact h.releaseNow
  | quiescenceSweep => exact h.sweep
  | maxssExpiry => exact h.execMaxssExpiry
  | preemptionStop => exact h.execPreemptionStop
  | secureSealed => exact h.execSecureSealed
  | moduleFailed => exact ite_keeps h (h.upd.foldl fun _ _ h1 => h1.failJob)
  | spareFill => exact h.execSpareFill
  | hang => exact h.execHang
  | jobEventEntry => exact ite_keeps h.takeJobEvent h
  | dispatchStep => exact ite_keeps h (ite_keeps h.noteTails.dispatchStep.modDie h.noteTails.dispatchStep)
  | localStoreWipe =>
      exact ite_keeps h (State.memOk.dispatchEvent (h.wipeCore.foldl fun _ _ h1 => h1.settleEnded))
  | wicketAdmission => exact h.execWicketAdmission
  | granuleReclaim => exact ite_keeps h (h.reclaim.getD h)
  | dieMemoryReclaim => exact ite_keeps h h.reclaimDie
  | frameWipe => exact ite_keeps h h.zeroRange.assignFrame
  | ssctlKill | ssctlRetry | ssctlPre | dbgctlHalt | dbgctlRun => exact h.makeRequest
  | upstRet => exact h.execUpstRet
  | qcfgWrite => exact ite_keeps h.writeQcfg h
  | svctlNow => exact h.secureNow
  | svctlBw => exact h.newBuddy
  | dbgctlStep => exact h.debugStep
  | hostRead => exact h.execHostRead
  | hostWrite => exact ite_keeps (ite_keeps h.mgmtWrite h) (ite_keeps h.hostLand h)
  | lqtail => exact h.hostTail
  | repreq => exact ite_keeps h.hostReport h.upd
  | dbgselw => exact h.hostSelect
  | sparereq => exact h.hostSpare
  | lcreqProvisioned => exact h.toProvisioned
  | lcreqDeployed => exact h.toDeployed
  | lcreqDecommissioned => exact h.toDecommissioned
  | functionLevelReset => exact h.execFunctionLevelReset
  | moduleReset => exact memOk_wipeModule
  | linkFlitReceive => exact ite_keeps h (ite_keeps h.upd h.upd.deliverMsg)
  | contextCreation => exact ite_keeps h h.upd.allot
  | contextEnd => exact ite_keeps h h.endContext

/-! ### Operations of Machine/Upset -/

protected theorem State.memOk.upsetMemory {die ctx loc unc} (h : s.memOk) :
    (upsetMemory s die ctx loc unc).memOk := ite_keeps h.hurtWord h

protected theorem State.memOk.upset {at_ unc} (h : s.memOk) : (upset at_ unc s).memOk := by
  unfold upset
  refine ite_keeps h ?_
  split
  · exact h.upsetMemory
  · exact ite_keeps h.upd h
  · exact ite_keeps h h.upd
  · exact h.upd
  · exact h.upd
  · exact h.upd
  · exact h.upd
  · exact h.upd
  · exact h.upd
  · exact h.upd
  · exact h.upd
  · split
    · exact h.upd
    · exact h

/-! ### Operations of Machine/Turn -/

protected theorem State.memOk.nextTurn (h : s.memOk) : (nextTurn s).2.memOk := by
  unfold nextTurn
  split
  · exact h.upd
  · exact h.upd

protected theorem State.memOk.attempt {core slot stalled} (h : s.memOk) :
    OutcomeOk (attempt core slot stalled s) := by
  unfold attempt
  split
  · exact h.prepareIssue.done ‹_›
  · exact (h.prepareIssue.run ‹_›).exec

protected theorem State.memOk.issueTurn {core slot stalled} (h : s.memOk) :
    OutcomeOk (issueTurn core slot stalled s) := by
  unfold issueTurn
  refine ite_keeps h ?_
  split
  · exact (h.attempt.next ‹_›).finishIssue
  · exact h.attempt

protected theorem State.memOk.act {t} (h : s.memOk) : OutcomeOk (act t s) := by
  unfold act
  split
  · exact ite_keeps h.issueTurn trivial
  · exact ite_keeps h.vectorTurn.finishVector trivial
  · exact ite_keeps h.exec trivial
  · exact h.firmwareTurn
  · exact h.upset
  · exact ite_keeps h.retryRequests h
  · exact h.upd

theorem memOk_passTurn {t} {r : Host.Outcome State Fault Refusal} (h : OutcomeOk r) :
    OutcomeOk (passTurn t r) := by
  unfold passTurn
  split
  · exact h
  · exact h.noteCaps.noteSteps.noteStuck
  · exact h

protected theorem State.memOk.takeTurn {t} (h : s.memOk) : OutcomeOk (takeTurn t s) := memOk_passTurn h.act

/-! ### Operations of Machine/Step -/

protected theorem State.memOk.step (h : s.memOk) : OutcomeOk (step s) := h.nextTurn.takeTurn

/-- Settles O7: what a turn does is built from operations that keep the form. -/
theorem canonicalMemoryKept : Obligations.CanonicalMemoryKept := by
  unfold Obligations.CanonicalMemoryKept
  intro s t h e
  exact (State.memOk.step (s := s) h).next e

end Sys2Proof.Machine

/-! ## What a module holds after reset -/

namespace Sys2Proof

/-- A component is the default or one of those listed. -/
theorem Table.get_eq_or_mem {α : Type} (d : α) (t : Table α) (k : Nat) :
    Table.get d t k = d ∨ ∃ e ∈ t, Table.get d t k = e.2 := by
  induction t with
  | nil => exact .inl rfl
  | cons e t ih =>
    rw [Table.get]
    split
    · exact .inr ⟨e, by simp, rfl⟩
    · exact ih.imp id (fun ⟨e', hm, he⟩ => ⟨e', by simp [hm], he⟩)

end Sys2Proof

namespace Sys2Proof.Machine

open Sys2Proof

/-- The slots 0 of the die-control cores alone start as control threads. -/
theorem State.reset_thread (t : Nat) :
    State.reset.thread t = Thread.reset ∨ State.reset.thread t = Thread.control := by
  refine (Table.get_eq_or_mem Thread.reset State.reset.threads t).imp id ?_
  rintro ⟨e, hm, he⟩
  obtain ⟨d, -, rfl⟩ := List.mem_map.1 hm
  exact he

/-- The registers that reset clears in every thread, control threads included. -/
theorem State.reset_thread_registers (t : Nat) :
    (State.reset.thread t).rm = 0 ∧ (State.reset.thread t).fflags = 0 ∧
    (State.reset.thread t).strap = TrapRegs.zero ∧ (State.reset.thread t).mtrap = TrapRegs.zero ∧
    (State.reset.thread t).upBusy = false ∧ (State.reset.thread t).xfrom = 0 ∧
    (State.reset.thread t).vepc = 0 ∧ (State.reset.thread t).image = none := by
  rcases State.reset_thread t with h | h <;> rw [h] <;> exact ⟨rfl, rfl, rfl, rfl, rfl, rfl, rfl, rfl⟩

theorem resetByte_hbm_below_invBase {a : Nat} (ha : a < 2 ^ 40) (h : a % 2 ^ 36 < invBase) : resetByte a = 0 := by
  rw [resetByte, if_pos ha]
  exact if_neg (Nat.not_le.2 h)

theorem resetByte_localAddr {g o : Nat} (hg : g < numGcores) (ho : o < localBytes) :
    resetByte (localAddr g o) = 0 := by
  simp only [numGcores, localBytes] at hg ho
  have hhbm : ¬ localAddr g o < 2 ^ 40 := by simp only [localAddr, localWindow]; omega
  have hdie : ¬ dieWindow ≤ localAddr g o := by simp only [localAddr, localWindow, dieWindow]; omega
  rw [resetByte, if_neg hhbm, if_neg hdie]

theorem resetByte_dieAddr {d o : Nat} (ho : o < dieBytes) : resetByte (dieAddr d o) = capByte d o := by
  simp only [dieBytes] at ho
  have hhbm : ¬ dieAddr d o < 2 ^ 40 := by simp only [dieAddr, dieWindow]; omega
  have hwin : dieWindow ≤ dieAddr d o := by simp only [dieAddr]; omega
  have hd : (dieAddr d o - dieWindow) / 0x10000000 = d := by simp only [dieAddr]; omega
  have ho' : (dieAddr d o - dieWindow) % 0x10000000 = o := by simp only [dieAddr]; omega
  rw [resetByte, if_neg hhbm, if_pos hwin, hd, ho']

theorem capByte_past_list {d o : Nat} (ho : 112 ≤ o) : capByte d o = 0 := if_neg (Nat.not_lt.2 ho)

/-- The entry of frame `f` in the inverted table of stack `k`. -/
theorem resetByte_invAt {k f j : Nat} (hk : k < 16) (hf : f < 786432) (hj : j < 16) :
    resetByte (invAt k f + j) = invByte f j := by
  have hhbm : invAt k f + j < 2 ^ 40 := by simp only [invAt, invBase]; omega
  have hoff : (invAt k f + j) % 2 ^ 36 = invBase + (16 * f + j) := by simp only [invAt, invBase]; omega
  have hin : invBase + (16 * f + j) < invBase + 786432 * 16 := by omega
  have hentry : (invBase + (16 * f + j) - invBase) / 16 = f := by omega
  have hbyte : (invBase + (16 * f + j)) % 16 = j := by simp only [invBase]; omega
  simp only [resetByte, if_pos hhbm, hoff, if_pos (Nat.le_add_right _ _), if_pos hin, hentry, hbyte]

theorem State.readN_eq_map (s : State) (a n : Nat) :
    s.readN a n = (List.range n).map (fun j => s.read (a + j)) := by
  induction n generalizing a with
  | zero => rfl
  | succ n ih =>
    have hcons : s.readN a (n + 1) = s.read a :: s.readN (a + 1) n := rfl
    rw [hcons, ih, List.range_succ_eq_map, List.map_cons, List.map_map]
    simp [Function.comp_def, Nat.add_assoc, Nat.add_comm 1]

theorem State.reset_readN_invAt {k f : Nat} (hk : k < 16) (hf : f < 786432) :
    State.reset.readN (invAt k f) 8 = (List.range 8).map (invByte f) := by
  rw [State.readN_eq_map]
  refine List.map_congr_left fun j hj => resetByte_invAt hk hf ?_
  exact (List.mem_range.1 hj).trans (by decide)

/-- Of the first eight bytes of an entry, only byte 7 can be nonzero. -/
theorem ofBytes_invByte (f : Nat) :
    ofBytes ((List.range 8).map (invByte f)) = (invByte f 7).toNat * 2 ^ 56 := by
  simp [List.range_succ, ofBytes, invByte]
  omega

theorem wfld_kind_of_byte (b : Byte) : wfld (BitVec.ofNat 64 (b.toNat * 2 ^ 56)) 60 4 = b.toNat / 16 := by
  have hb : b.toNat < 2 ^ 8 := b.isLt
  rw [wfld, fld, BitVec.toNat_ofNat, Nat.shiftRight_eq_div_pow]
  omega

theorem invByte_kind (f : Nat) :
    (invByte f 7).toNat / 16 = if f ≤ 732164 then 0 else if f ≤ 732420 then 6 else 7 := by
  rw [invByte, if_pos rfl]
  split
  · rfl
  · split <;> rfl

theorem State.reset_frameKind {k f : Nat} (hk : k < 16) (hf : f < 786432) :
    frameKind State.reset k f = if f ≤ 732164 then 0 else if f ≤ 732420 then 6 else 7 := by
  rw [frameKind, State.readWord, State.reset_readN_invAt hk hf, wordOfBytes, ofBytes_invByte, wfld_kind_of_byte,
    invByte_kind]

/-- Settles O5: the reset state lists the control threads and nothing else, so every other component is its default and
every byte reads as `resetByte`. -/
theorem resetValues : Obligations.ResetValues := by
  unfold Obligations.ResetValues
  refine ⟨State.reset_thread_registers, fun g => ?_, fun c => ⟨rfl, rfl⟩, fun d => ?_, fun c => ?_, ?_, ?_, ?_, ?_⟩
  · exact ⟨rfl, rfl, rfl, rfl, rfl, rfl, rfl⟩
  · exact ⟨rfl, rfl, rfl, rfl, rfl, rfl, rfl, rfl, rfl, rfl⟩
  · exact ⟨rfl, rfl, rfl, rfl, rfl⟩
  · exact fun k f hk hf => State.reset_frameKind hk hf
  · exact fun g o hg ho => resetByte_localAddr hg ho
  · exact fun d o _ hlist ho => (resetByte_dieAddr ho).trans (capByte_past_list hlist)
  · exact fun a ha h => resetByte_hbm_below_invBase ha h

end Sys2Proof.Machine

/-! ## Words and halfwords from their fields (spec/02_encoding.md R32, R34, R39) -/

namespace Sys2Proof

theorem eq_ofNat_of_toNat {n k : Nat} {x : BitVec n} (h : x.toNat = k) : x = BitVec.ofNat n k := by
  rw [← h, BitVec.ofNat_toNat, BitVec.setWidth_eq]

theorem extractLsb'_bit {n : Nat} (x : BitVec n) (k : Nat) : x.extractLsb' k 1 = BitVec.ofBool (x.getLsbD k) := by
  ext i hi
  obtain rfl : i = 0 := by omega
  simp

/-- Neighbouring fields, of which the lower begins at bit `s` and has `n` bits, are one field. -/
theorem joinFields {l s n m : Nat} (x : BitVec l) {t : Nat} (h : t = s + n) :
    x.extractLsb' t m ++ x.extractLsb' s n = x.extractLsb' s (m + n) :=
  BitVec.extractLsb'_append_extractLsb'_eq_extractLsb' h

/-- The whole of a vector from its upper and its lower part. -/
theorem joinWhole {n m : Nat} (x : BitVec (m + n)) : x.extractLsb' n m ++ x.extractLsb' 0 n = x := by
  rw [joinFields x (Nat.zero_add n).symm]
  exact BitVec.extractLsb'_eq_self

/-- The two lowest bits of a whole instruction (R32). -/
theorem lowField_of_bits {w : W32} (h0 : w.getLsbD 0 = true) (h1 : w.getLsbD 1 = false) : w.extractLsb' 0 2 = 1#2 := by
  have h : w.extractLsb' 1 1 ++ w.extractLsb' 0 1 = w.extractLsb' 0 2 := joinFields w rfl
  rw [← h, extractLsb'_bit, extractLsb'_bit, h0, h1]
  rfl

section Fields

variable {w : W32} (h : w.extractLsb' 0 2 = 1#2)
include h

theorem wordR_of_fields :
    wordR (w.extractLsb' 2 6) (w.extractLsb' 23 9) (w.extractLsb' 18 5) (w.extractLsb' 13 5) (w.extractLsb' 8 5) = w := by
  rw [wordR, ← h, joinFields w (show 23 = 18 + 5 from rfl), joinFields w (show 18 = 13 + 5 from rfl),
    joinFields w (show 13 = 8 + 5 from rfl), joinFields w (show 8 = 2 + 6 from rfl), joinFields w (show 2 = 0 + 2 from rfl)]
  exact BitVec.extractLsb'_eq_self

theorem wordIF_of_fields :
    wordIF (w.extractLsb' 2 6) (w.extractLsb' 18 3) (w.extractLsb' 21 11) (w.extractLsb' 13 5) (w.extractLsb' 8 5) = w := by
  rw [wordIF, ← h, joinFields w (show 21 = 18 + 3 from rfl), joinFields w (show 18 = 13 + 5 from rfl),
    joinFields w (show 13 = 8 + 5 from rfl), joinFields w (show 8 = 2 + 6 from rfl), joinFields w (show 2 = 0 + 2 from rfl)]
  exact BitVec.extractLsb'_eq_self

theorem wordI_of_fields :
    wordI (w.extractLsb' 2 6) (w.extractLsb' 18 14) (w.extractLsb' 13 5) (w.extractLsb' 8 5) = w := by
  rw [wordI, ← h, joinFields w (show 18 = 13 + 5 from rfl), joinFields w (show 13 = 8 + 5 from rfl),
    joinFields w (show 8 = 2 + 6 from rfl), joinFields w (show 2 = 0 + 2 from rfl)]
  exact BitVec.extractLsb'_eq_self

theorem wordU_of_fields :
    wordU (w.extractLsb' 2 6) (w.extractLsb' 13 1) (w.extractLsb' 14 18) (w.extractLsb' 8 5) = w := by
  rw [wordU, ← h, joinFields w (show 14 = 13 + 1 from rfl), joinFields w (show 13 = 8 + 5 from rfl),
    joinFields w (show 8 = 2 + 6 from rfl), joinFields w (show 2 = 0 + 2 from rfl)]
  exact BitVec.extractLsb'_eq_self

theorem wordBS_of_fields :
    wordBS (w.extractLsb' 2 6) (w.extractLsb' 23 3) (w.extractLsb' 26 6 ++ w.extractLsb' 8 5) (w.extractLsb' 18 5)
      (w.extractLsb' 13 5) = w := by
  rw [wordBS, BitVec.extractLsb'_append_eq_left, BitVec.extractLsb'_append_eq_right, ← h,
    joinFields w (show 26 = 23 + 3 from rfl), joinFields w (show 23 = 18 + 5 from rfl), joinFields w (show 18 = 13 + 5 from rfl),
    joinFields w (show 13 = 8 + 5 from rfl), joinFields w (show 8 = 2 + 6 from rfl), joinFields w (show 2 = 0 + 2 from rfl)]
  exact BitVec.extractLsb'_eq_self

theorem wordJ_of_fields : wordJ (w.extractLsb' 2 6) (w.extractLsb' 8 24) = w := by
  rw [wordJ, ← h, joinFields w (show 8 = 2 + 6 from rfl), joinFields w (show 2 = 0 + 2 from rfl)]
  exact BitVec.extractLsb'_eq_self

theorem wordV_of_fields :
    wordV (w.extractLsb' 2 6) (w.extractLsb' 30 2) (w.extractLsb' 26 4) (w.extractLsb' 23 3) (w.extractLsb' 18 5)
      (w.extractLsb' 13 5) (w.extractLsb' 8 5) = w := by
  rw [wordV, ← h, joinFields w (show 30 = 26 + 4 from rfl), joinFields w (show 26 = 23 + 3 from rfl),
    joinFields w (show 23 = 18 + 5 from rfl), joinFields w (show 18 = 13 + 5 from rfl), joinFields w (show 13 = 8 + 5 from rfl),
    joinFields w (show 8 = 2 + 6 from rfl), joinFields w (show 2 = 0 + 2 from rfl)]
  exact BitVec.extractLsb'_eq_self

end Fields

theorem halvesOf_joinHalves (h0 h1 : Half) : halvesOf (joinHalves h0 h1) = [h0, h1] := by
  rw [halvesOf, joinHalves, BitVec.extractLsb'_append_eq_right, BitVec.extractLsb'_append_eq_left]

theorem joinHalves_bit (h0 h1 : Half) {k : Nat} (hk : k < 16) : (joinHalves h0 h1).getLsbD k = h0.getLsbD k := by
  rw [joinHalves, BitVec.getLsbD_append, if_pos hk]

theorem halfC_of_fields {h : Half} (h0 : h.getLsbD 0 = false) :
    halfC (h.extractLsb' 1 4) (h.extractLsb' 15 1) (h.extractLsb' 10 5) (h.extractLsb' 5 5) = h := by
  have hlow : h.extractLsb' 0 1 = 0#1 := by rw [extractLsb'_bit, h0]; rfl
  rw [halfC, ← hlow, joinFields h (show 15 = 10 + 5 from rfl), joinFields h (show 10 = 5 + 5 from rfl),
    joinFields h (show 5 = 1 + 4 from rfl), joinFields h (show 1 = 0 + 1 from rfl)]
  exact BitVec.extractLsb'_eq_self

/-! ### halfC read back -/

section HalfC

variable (op : BitVec 4) (v : BitVec 1) (s d : BitVec 5)

@[simp] theorem halfC_low : (halfC op v s d).getLsbD 0 = false := by
  rw [halfC, BitVec.getLsbD_append, if_pos Nat.zero_lt_one]
  rfl

@[simp] theorem halfC_op : (halfC op v s d).extractLsb' 1 4 = op := by
  rw [halfC, BitVec.extractLsb'_append_eq_of_le (Nat.le_refl 1), BitVec.extractLsb'_append_eq_right]

@[simp] theorem halfC_d : (halfC op v s d).extractLsb' 5 5 = d := by
  rw [halfC, BitVec.extractLsb'_append_eq_of_le (by decide), BitVec.extractLsb'_append_eq_of_le (by decide),
    BitVec.extractLsb'_append_eq_right]

@[simp] theorem halfC_s : (halfC op v s d).extractLsb' 10 5 = s := by
  rw [halfC, BitVec.extractLsb'_append_eq_of_le (by decide), BitVec.extractLsb'_append_eq_of_le (by decide),
    BitVec.extractLsb'_append_eq_of_le (by decide), BitVec.extractLsb'_append_eq_right]

@[simp] theorem halfC_v : (halfC op v s d).extractLsb' 15 1 = v := by
  rw [halfC, BitVec.extractLsb'_append_eq_of_le (by decide), BitVec.extractLsb'_append_eq_of_le (by decide),
    BitVec.extractLsb'_append_eq_of_le (by decide), BitVec.extractLsb'_append_eq_of_le (by decide)]
  exact BitVec.extractLsb'_eq_self

end HalfC

/-! ## What is decoded is well formed and encodes to the halfwords read (R34-R44) -/

/-- The map admits `i`, and its halfwords are `hs`. -/
def EncodesTo (i : Instr) (hs : List Half) : Prop := i.wellFormed = true ∧ encode i = hs

theorem admitInstr_eq_ok {i j : Instr} : admitInstr j = .ok i ↔ j.wellFormed = true ∧ j = i := by
  unfold admitInstr
  split <;> simp_all

theorem unusedZero_eq_ok {z : Bool} {i j : Instr} :
    unusedZero z j = .ok i ↔ z = true ∧ j.wellFormed = true ∧ j = i := by
  unfold unusedZero
  split <;> simp_all [admitInstr_eq_ok]

theorem EncodesTo.of_admit {i j : Instr} {hs : List Half} (h : admitInstr j = .ok i) (he : encode j = hs) :
    EncodesTo i hs := by
  obtain ⟨hj, rfl⟩ := admitInstr_eq_ok.1 h
  exact ⟨hj, he⟩

theorem EncodesTo.of_unused {z : Bool} {i j : Instr} {hs : List Half} (h : unusedZero z j = .ok i)
    (he : z = true → encode j = hs) : EncodesTo i hs := by
  obtain ⟨hz, hj, rfl⟩ := unusedZero_eq_ok.1 h
  exact ⟨hj, he hz⟩

section R

variable {f : BitVec 9} {b a d : BitVec 5} {maj : BitVec 6} {i j : Instr} {k : Nat} {z : Bool}

/-- A row of the R map all of whose fields are used. -/
theorem EncodesTo.of_row (hf : f.toNat = k) (h : admitInstr j = .ok i)
    (he : encode j = halvesOf (wordR maj (BitVec.ofNat 9 k) b a d)) : EncodesTo i (halvesOf (wordR maj f b a d)) := by
  rw [eq_ofNat_of_toNat hf]
  exact .of_admit h he

/-- A row of the R map with unused fields, which are zero (R35). -/
theorem EncodesTo.of_zeroRow (hf : f.toNat = k) (h : unusedZero z j = .ok i)
    (he : z = true → encode j = halvesOf (wordR maj (BitVec.ofNat 9 k) b a d)) :
    EncodesTo i (halvesOf (wordR maj f b a d)) := by
  rw [eq_ofNat_of_toNat hf]
  exact .of_unused h he

theorem decodeAlu_encodesTo (h : decodeAlu f b a d = .ok i) : EncodesTo i (halvesOf (wordR 0x00 f b a d)) := by
  unfold decodeAlu at h
  split at h
  case h_13 => contradiction
  all_goals exact .of_row ‹_› h rfl

theorem decodeMulDiv_encodesTo (h : decodeMulDiv f b a d = .ok i) : EncodesTo i (halvesOf (wordR 0x03 f b a d)) := by
  unfold decodeMulDiv at h
  split at h
  case h_9 => contradiction
  all_goals exact .of_row ‹_› h rfl

theorem decodeBitOps_encodesTo (h : decodeBitOps f b a d = .ok i) : EncodesTo i (halvesOf (wordR 0x04 f b a d)) := by
  unfold decodeBitOps at h
  split at h
  case h_12 => contradiction
  case h_1 hf | h_2 hf | h_3 hf | h_4 hf =>
    exact .of_zeroRow hf h fun hz => by rw [of_decide_eq_true hz]; rfl
  all_goals exact .of_row ‹_› h rfl

theorem decodeAtomic_encodesTo (h : decodeAtomic f b a d = .ok i) : EncodesTo i (halvesOf (wordR 0x0A f b a d)) := by
  unfold decodeAtomic at h
  split at h
  case h_11 => contradiction
  all_goals exact .of_row ‹_› h rfl

theorem decodeFence_encodesTo (h : decodeFence f b a d = .ok i) : EncodesTo i (halvesOf (wordR 0x0B f b a d)) := by
  unfold decodeFence at h
  split at h
  case isTrue => contradiction
  case isFalse hf =>
    refine .of_unused h fun hz => ?_
    have hlow : 0#7 ++ f.extractLsb' 0 2 = f := by
      rw [show 0#7 = f.extractLsb' 2 7 from (not_not.1 hf).symm]
      exact joinWhole (n := 2) f
    simp only [Bool.and_eq_true, decide_eq_true_eq] at hz
    obtain ⟨⟨rfl, rfl⟩, rfl⟩ := hz
    rw [encode, hlow]

theorem decodeBank_encodesTo (h : decodeBank f b a d = .ok i) : EncodesTo i (halvesOf (wordR 0x0C f b a d)) := by
  unfold decodeBank at h
  split at h
  case h_8 => contradiction
  all_goals exact .of_row ‹_› h rfl

theorem decodeRemote_encodesTo (h : decodeRemote f b a d = .ok i) : EncodesTo i (halvesOf (wordR 0x0D f b a d)) := by
  unfold decodeRemote at h
  split at h
  case h_15 => contradiction
  all_goals exact .of_row ‹_› h rfl

/-- A function of which the upper three bits are known. -/
theorem function_of_high (hk : f.toNat / 64 = k) : BitVec.ofNat 3 k ++ f.extractLsb' 0 6 = f := by
  have hhigh : BitVec.ofNat 3 k = f.extractLsb' 6 3 := by
    rw [← hk, BitVec.extractLsb', Nat.shiftRight_eq_div_pow]
  rw [hhigh]
  exact joinWhole (n := 6) f

theorem decodeThread_encodesTo (h : decodeThread f b a d = .ok i) : EncodesTo i (halvesOf (wordR 0x0E f b a d)) := by
  unfold decodeThread at h
  split at h
  · contradiction
  split at h
  · refine .of_admit h ?_
    rw [encode, show (0#3 : BitVec 3) = BitVec.ofNat 3 0 from rfl, function_of_high (by omega)]
  split at h
  · contradiction
  split at h
  · refine .of_admit h ?_
    rw [encode, show (1#3 : BitVec 3) = BitVec.ofNat 3 1 from rfl, function_of_high (by omega)]
  split at h
  case h_8 => contradiction
  all_goals exact .of_zeroRow ‹_› h fun hz => by simp_all only [Bool.and_eq_true, decide_eq_true_eq]; rfl

theorem decodeQueue_encodesTo (h : decodeQueue f b a d = .ok i) : EncodesTo i (halvesOf (wordR 0x0F f b a d)) := by
  unfold decodeQueue at h
  split at h
  case h_7 => contradiction
  all_goals exact .of_zeroRow ‹_› h fun hz => by rw [of_decide_eq_true hz]; rfl

theorem decodeSuperstep_encodesTo (h : decodeSuperstep f b a d = .ok i) :
    EncodesTo i (halvesOf (wordR 0x10 f b a d)) := by
  unfold decodeSuperstep at h
  split at h
  case h_7 => contradiction
  case h_1 hf | h_2 hf => exact .of_row hf h rfl
  all_goals exact .of_zeroRow ‹_› h fun hz => by simp_all only [Bool.and_eq_true, decide_eq_true_eq]; rfl

theorem decodeMatrix_encodesTo (h : decodeMatrix f b a d = .ok i) : EncodesTo i (halvesOf (wordR 0x11 f b a d)) := by
  unfold decodeMatrix at h
  split at h
  case h_5 => contradiction
  case h_2 hf | h_3 hf => exact .of_row hf h rfl
  all_goals exact .of_zeroRow ‹_› h fun hz => by simp_all only [Bool.and_eq_true, decide_eq_true_eq]; rfl

theorem decodeCopy_encodesTo (h : decodeCopy f b a d = .ok i) : EncodesTo i (halvesOf (wordR 0x12 f b a d)) := by
  unfold decodeCopy at h
  split at h
  case h_13 => contradiction
  case h_1 hf | h_2 hf | h_3 hf | h_4 hf | h_5 hf | h_6 hf => exact .of_row hf h rfl
  all_goals exact .of_zeroRow ‹_› h fun hz => by rw [of_decide_eq_true hz]; rfl

theorem decodeTimetable_encodesTo (h : decodeTimetable f b a d = .ok i) :
    EncodesTo i (halvesOf (wordR 0x13 f b a d)) := by
  unfold decodeTimetable at h
  split at h
  case h_4 => contradiction
  all_goals exact .of_zeroRow ‹_› h fun hz => by simp_all only [Bool.and_eq_true, decide_eq_true_eq]; rfl

theorem decodeAmplitude_encodesTo (h : decodeAmplitude f b a d = .ok i) :
    EncodesTo i (halvesOf (wordR 0x14 f b a d)) := by
  unfold decodeAmplitude at h
  split at h
  case h_13 => contradiction
  case h_1 hf | h_2 hf | h_7 hf | h_8 hf => exact .of_row hf h rfl
  all_goals exact .of_zeroRow ‹_› h fun hz => by simp_all only [Bool.and_eq_true, decide_eq_true_eq]; rfl

theorem decodeHarvest_encodesTo (h : decodeHarvest f b a d = .ok i) : EncodesTo i (halvesOf (wordR 0x15 f b a d)) := by
  unfold decodeHarvest at h
  split at h
  case h_3 => contradiction
  all_goals exact .of_zeroRow ‹_› h fun hz => by simp_all only [Bool.and_eq_true, decide_eq_true_eq]; rfl

theorem decodeLeave_encodesTo (h : decodeLeave f b a d = .ok i) : EncodesTo i (halvesOf (wordR 0x16 f b a d)) := by
  unfold decodeLeave at h
  split at h
  case h_3 => contradiction
  all_goals exact .of_zeroRow ‹_› h fun hz => by simp_all only [Bool.and_eq_true, decide_eq_true_eq]; rfl

theorem decodeSystem_encodesTo (h : decodeSystem f b a d = .ok i) : EncodesTo i (halvesOf (wordR 0x17 f b a d)) := by
  unfold decodeSystem at h
  split at h
  · refine .of_unused h fun hz => ?_
    rw [encode, BitVec.extractLsb'_append_eq_left, BitVec.extractLsb'_append_eq_right,
      show (0#3 : BitVec 3) = BitVec.ofNat 3 0 from rfl, function_of_high (by omega), of_decide_eq_true hz]
  split at h
  · refine .of_unused h fun hz => ?_
    rw [encode, BitVec.extractLsb'_append_eq_left, BitVec.extractLsb'_append_eq_right,
      show (1#3 : BitVec 3) = BitVec.ofNat 3 1 from rfl, function_of_high (by omega), of_decide_eq_true hz]
  split at h
  case h_9 => contradiction
  all_goals exact .of_zeroRow ‹_› h fun hz => by simp_all only [Bool.and_eq_true, decide_eq_true_eq]; rfl

theorem decodeR_encodesTo {maj : BitVec 6} (h : decodeR maj.toNat f b a d = .ok i) :
    EncodesTo i (halvesOf (wordR maj f b a d)) := by
  unfold decodeR at h
  split at h <;> rename_i hmaj
  case h_18 => contradiction
  all_goals rw [eq_ofNat_of_toNat hmaj]
  · exact decodeAlu_encodesTo h
  · exact decodeMulDiv_encodesTo h
  · exact decodeBitOps_encodesTo h
  · exact decodeAtomic_encodesTo h
  · exact decodeFence_encodesTo h
  · exact decodeBank_encodesTo h
  · exact decodeRemote_encodesTo h
  · exact decodeThread_encodesTo h
  · exact decodeQueue_encodesTo h
  · exact decodeSuperstep_encodesTo h
  · exact decodeMatrix_encodesTo h
  · exact decodeCopy_encodesTo h
  · exact decodeTimetable_encodesTo h
  · exact decodeAmplitude_encodesTo h
  · exact decodeHarvest_encodesTo h
  · exact decodeLeave_encodesTo h
  · exact decodeSystem_encodesTo h

end R

section V

variable {vf : BitVec 2} {t : BitVec 4} {m : BitVec 3} {b a d : BitVec 5} {maj : BitVec 6} {i j : Instr} {k n : Nat} {z : Bool}

/-- A row of the vector map all of whose fields are used. -/
theorem EncodesTo.of_vectorRow (hm : maj.toNat = n) (hf : vf.toNat = k) (h : admitInstr j = .ok i)
    (he : encode j = halvesOf (wordV (BitVec.ofNat 6 n) (BitVec.ofNat 2 k) t m b a d)) :
    EncodesTo i (halvesOf (wordV maj vf t m b a d)) := by
  rw [eq_ofNat_of_toNat hm, eq_ofNat_of_toNat hf]
  exact .of_admit h he

/-- A row of the vector map with unused fields, which are zero (R35). -/
theorem EncodesTo.of_zeroVectorRow (hm : maj.toNat = n) (hf : vf.toNat = k) (h : unusedZero z j = .ok i)
    (he : z = true → encode j = halvesOf (wordV (BitVec.ofNat 6 n) (BitVec.ofNat 2 k) t m b a d)) :
    EncodesTo i (halvesOf (wordV maj vf t m b a d)) := by
  rw [eq_ofNat_of_toNat hm, eq_ofNat_of_toNat hf]
  exact .of_unused h he

theorem decodeV_encodesTo (h : decodeV maj.toNat vf t m b a d = .ok i) :
    EncodesTo i (halvesOf (wordV maj vf t m b a d)) := by
  unfold decodeV at h
  split at h
  case h_59 => contradiction
  case h_32 hm hf =>
    refine .of_vectorRow hm hf h ?_
    have hb : b.extractLsb' 4 1 ++ b.extractLsb' 0 4 = b := joinWhole (n := 4) b
    rw [encode, hb]
    rfl
  case h_33 hm hf | h_34 hm hf =>
    split at h
    case h_7 => contradiction
    all_goals
      rw [eq_ofNat_of_toNat ‹b.toNat = _›]
      exact .of_vectorRow hm hf h rfl
  case h_50 hm hf =>
    split at h
    case h_4 => contradiction
    all_goals
      rw [eq_ofNat_of_toNat ‹b.toNat = _›]
      exact .of_zeroVectorRow hm hf h fun hz => by simp_all only [Bool.and_eq_true, decide_eq_true_eq]; rfl
  case h_37 hm hf | h_39 hm hf | h_41 hm hf | h_43 hm hf | h_45 hm hf | h_47 hm hf | h_48 hm hf | h_49 hm hf | h_51 hm hf |
      h_52 hm hf | h_53 hm hf | h_54 hm hf | h_55 hm hf | h_56 hm hf | h_57 hm hf | h_58 hm hf =>
    exact .of_zeroVectorRow hm hf h fun hz => by simp_all only [Bool.and_eq_true, decide_eq_true_eq]; rfl
  all_goals exact .of_vectorRow ‹maj.toNat = _› ‹vf.toNat = _› h rfl

end V

/-! ### Immediates (R36) -/

/-- The map admits `i`, and where no EXT stands before the word `w`, its halfwords are those of `w`. -/
def EncodesBare (i : Instr) (p : Prefixes) (w : W32) : Prop := i.wellFormed = true ∧ (p = .none → encode i = halvesOf w)

section Immediate

variable {w : Nat} {n : BitVec w} {p : Prefixes} {i : Instr} {c : Word → Instr} {word : BitVec w → W32}

theorem extractLsb'_signExtend (h : w ≤ 64) : (n.signExtend 64).extractLsb' 0 w = n := by
  ext k hk
  have hk64 : k < 64 := by omega
  simp [BitVec.getElem_signExtend, hk, hk64]

/-- A native field that stands alone comes back from the value that it forms. -/
theorem encodeImm_signExtend (h : w ≤ 64) : encodeImm w (n.signExtend 64) word = halvesOf (word n) := by
  rw [encodeImm, extractLsb'_signExtend h, if_pos rfl]

/-- An instruction with a formed immediate, each of whose values the map admits. -/
theorem EncodesBare.of_formImm (hw : w ≤ 64) (h : (formImm w n.toNat p).map c = .ok i) (hc : ∀ v, (c v).wellFormed = true)
    (he : ∀ v, encode (c v) = encodeImm w v word) :
    EncodesBare i p (word n) := by
  cases hv : formImm w n.toNat p with
  | error e => rw [hv] at h; contradiction
  | ok v =>
    rw [hv] at h
    obtain rfl : c v = i := Except.ok.inj h
    refine ⟨hc v, fun hp => ?_⟩
    subst hp
    obtain rfl : (BitVec.ofNat w n.toNat).signExtend 64 = v := Except.ok.inj hv
    rw [he, BitVec.ofNat_toNat, BitVec.setWidth_eq, encodeImm_signExtend hw]

end Immediate

section ImmediateRows

variable {a b d : BitVec 5} {p : Prefixes} {i : Instr} {f : BitVec 3}

theorem decodeShift_encodesBare {n : BitVec 11} (h : decodeShift n a d p = .ok i) :
    EncodesBare i p (wordIF 0x01 6 n a d) := by
  unfold decodeShift at h
  split at h
  · contradiction
  split at h
  · contradiction
  next hzero =>
    have hn : ∀ k, (n.extractLsb' 6 2).toNat = k → 0#3 ++ BitVec.ofNat 2 k ++ n.extractLsb' 0 6 = n := by
      intro k hk
      rw [← eq_ofNat_of_toNat hk, show 0#3 = n.extractLsb' 8 3 from (not_not.1 hzero).symm,
        joinFields n (show 8 = 6 + 2 from rfl), joinFields n (show 6 = 0 + 6 from rfl)]
      exact BitVec.extractLsb'_eq_self
    split at h
    case h_4 => contradiction
    all_goals
      obtain rfl := Except.ok.inj h
      exact ⟨rfl, fun _ => congrArg (fun n => halvesOf (wordIF 0x01 6 n a d)) (hn _ ‹_›)⟩

theorem decodeAluImm_encodesBare {n : BitVec 11} (h : decodeAluImm n f a d p = .ok i) :
    EncodesBare i p (wordIF 0x01 f n a d) := by
  unfold decodeAluImm at h
  split at h <;> rename_i hf
  case h_8 => contradiction
  all_goals rw [eq_ofNat_of_toNat hf]
  case h_7 => exact decodeShift_encodesBare h
  all_goals exact .of_formImm (word := fun n => wordIF 0x01 _ n a d) (by decide) h (fun _ => rfl) (fun _ => rfl)

theorem decodeLoad_encodesBare {n : BitVec 11} (h : decodeLoad n f a d p = .ok i) :
    EncodesBare i p (wordIF 0x08 f n a d) := by
  unfold decodeLoad at h
  split at h <;> rename_i hf
  case h_8 => contradiction
  all_goals
    rw [eq_ofNat_of_toNat hf]
    exact .of_formImm (word := fun n => wordIF 0x08 _ n a d) (by decide) h (fun _ => rfl) (fun _ => rfl)

theorem decodeStore_encodesBare {n : BitVec 11} (h : decodeStore n f b a p = .ok i) :
    EncodesBare i p (wordBS 0x09 f n b a) := by
  unfold decodeStore at h
  split at h <;> rename_i hf
  case h_5 => contradiction
  all_goals
    rw [eq_ofNat_of_toNat hf]
    exact .of_formImm (word := fun n => wordBS 0x09 _ n b a) (by decide) h (fun _ => rfl) (fun _ => rfl)

theorem decodeBranch_encodesBare {n : BitVec 11} (h : decodeBranch n f b a p = .ok i) :
    EncodesBare i p (wordBS 0x05 f n b a) := by
  unfold decodeBranch at h
  split at h <;> rename_i hf
  case h_7 => contradiction
  all_goals
    rw [eq_ofNat_of_toNat hf]
    exact .of_formImm (word := fun n => wordBS 0x05 _ n b a) (by decide) h (fun _ => rfl) (fun _ => rfl)

theorem decodeUpper_encodesBare {n : BitVec 18} {fn : BitVec 1} (h : decodeUpper n fn d p = .ok i) :
    EncodesBare i p (wordU 0x02 fn n d) := by
  unfold decodeUpper at h
  split at h
  case isTrue hfn =>
    rw [hfn]
    exact .of_formImm (word := fun n => wordU 0x02 _ n d) (by decide) h (fun _ => rfl) (fun _ => rfl)
  case isFalse hfn =>
    rw [(BitVec.eq_zero_or_eq_one fn).resolve_left hfn]
    exact .of_formImm (word := fun n => wordU 0x02 _ n d) (by decide) h (fun _ => rfl) (fun _ => rfl)

end ImmediateRows

/-! ### Words (R34, R40) -/

section Word

variable {w : W32} {p : Prefixes}

/-- The majors whose layouts hold an immediate (R34, Table 2.4). -/
def immediateMajors : List Nat := [0x01, 0x02, 0x05, 0x06, 0x07, 0x08, 0x09]

/-- A word without an immediate takes no EXT, and its major chooses between the R map and the vector map. -/
theorem decodeWord_of_major (hm : (w.extractLsb' 2 6).toNat ∉ immediateMajors) :
    decodeWord p w =
      if p ≠ .none then .error .prefixNotAllowed
      else if (w.extractLsb' 2 6).toNat < 0x20 then
        decodeR (w.extractLsb' 2 6).toNat (w.extractLsb' 23 9) (w.extractLsb' 18 5) (w.extractLsb' 13 5) (w.extractLsb' 8 5)
      else if (w.extractLsb' 2 6).toNat < 0x30 then
        decodeV (w.extractLsb' 2 6).toNat (w.extractLsb' 30 2) (w.extractLsb' 26 4) (w.extractLsb' 23 3) (w.extractLsb' 18 5)
          (w.extractLsb' 13 5) (w.extractLsb' 8 5)
      else .error .reservedMajor := by
  unfold decodeWord
  dsimp only
  split
  case h_8 => rfl
  all_goals exact absurd (by rw [‹(w.extractLsb' 2 6).toNat = _›]; decide) hm

theorem decodeWord_encodesBare {i : Instr} (hlow : w.extractLsb' 0 2 = 1#2) (h : decodeWord p w = .ok i) :
    EncodesBare i p w := by
  by_cases hm : (w.extractLsb' 2 6).toNat ∈ immediateMajors
  · unfold decodeWord at h
    dsimp only at h
    split at h <;> rename_i hmaj
    case h_8 => exact absurd hm (by simp_all [immediateMajors])
    all_goals have hmaj := eq_ofNat_of_toNat hmaj
    · rw [← wordIF_of_fields hlow, hmaj]
      exact decodeAluImm_encodesBare h
    · rw [← wordU_of_fields hlow, hmaj]
      exact decodeUpper_encodesBare h
    · rw [← wordBS_of_fields hlow, hmaj]
      exact decodeBranch_encodesBare h
    · rw [← wordJ_of_fields hlow, hmaj]
      exact .of_formImm (word := wordJ 0x06) (by decide) h (fun _ => rfl) (fun _ => rfl)
    · rw [← wordI_of_fields hlow, hmaj]
      exact .of_formImm (word := fun n => wordI 0x07 n _ _) (by decide) h (fun _ => rfl) (fun _ => rfl)
    · rw [← wordIF_of_fields hlow, hmaj]
      exact decodeLoad_encodesBare h
    · rw [← wordBS_of_fields hlow, hmaj]
      exact decodeStore_encodesBare h
  · rw [decodeWord_of_major hm] at h
    split at h
    · contradiction
    split at h
    · obtain ⟨hi, he⟩ := decodeR_encodesTo h
      exact ⟨hi, fun _ => by rw [he, wordR_of_fields hlow]⟩
    split at h
    · obtain ⟨hi, he⟩ := decodeV_encodesTo h
      exact ⟨hi, fun _ => by rw [he, wordV_of_fields hlow]⟩
    · contradiction

end Word

/-! ### Compact halfwords (R39) -/

section Compact

variable {op : BitVec 4} {v : BitVec 1} {s d : BitVec 5} {i j : Instr} {k : Nat} {z : Bool}

/-- A compact row all of whose fields are used. -/
theorem EncodesTo.of_compactRow (hop : op.toNat = k) (h : admitInstr j = .ok i)
    (he : encode j = [halfC (BitVec.ofNat 4 k) v s d]) : EncodesTo i [halfC op v s d] := by
  rw [eq_ofNat_of_toNat hop]
  exact .of_admit h he

/-- A compact row with unused fields, which are zero (R35). -/
theorem EncodesTo.of_zeroCompactRow (hop : op.toNat = k) (h : unusedZero z j = .ok i)
    (he : z = true → encode j = [halfC (BitVec.ofNat 4 k) v s d]) : EncodesTo i [halfC op v s d] := by
  rw [eq_ofNat_of_toNat hop]
  exact .of_unused h he

/-- A compact row of two instructions, which bit 15 tells apart. -/
theorem EncodesTo.of_compactPair {j₀ j₁ : Instr} (hop : op.toNat = k)
    (h : (if v = 0 then admitInstr j₀ else admitInstr j₁) = .ok i) (h₀ : encode j₀ = [halfC (BitVec.ofNat 4 k) 0 s d])
    (h₁ : encode j₁ = [halfC (BitVec.ofNat 4 k) 1 s d]) : EncodesTo i [halfC op v s d] := by
  obtain rfl | rfl := BitVec.eq_zero_or_eq_one v
  · exact .of_compactRow hop h h₀
  · exact .of_compactRow hop h h₁

theorem decodeCompact_encodesTo {h : Half} (hlow : h.getLsbD 0 = false) (hi : decodeCompact h = .ok i) :
    EncodesTo i [h] := by
  rw [← halfC_of_fields hlow]
  unfold decodeCompact at hi
  dsimp only at hi
  generalize h.extractLsb' 1 4 = op, h.extractLsb' 15 1 = v, h.extractLsb' 10 5 = s, h.extractLsb' 5 5 = d at hi ⊢
  split at hi
  case h_5 hop | h_6 hop | h_7 hop | h_10 hop | h_11 hop =>
    exact .of_compactRow hop hi (by rw [encode, BitVec.extractLsb'_append_eq_left, BitVec.extractLsb'_append_eq_right]; rfl)
  case h_8 hop | h_9 hop => exact .of_compactPair hop hi rfl rfl
  case h_12 hop =>
    refine .of_compactRow hop hi ?_
    have hv : (v ++ s ++ d).extractLsb' 10 1 = v := by
      rw [BitVec.extractLsb'_append_eq_of_le (by decide)]
      exact BitVec.extractLsb'_append_eq_left
    have hs : (v ++ s ++ d).extractLsb' 5 5 = s := by
      rw [BitVec.extractLsb'_append_eq_of_le (by decide)]
      exact BitVec.extractLsb'_append_eq_right
    rw [encode, hv, hs, BitVec.extractLsb'_append_eq_right]
    rfl
  case h_16 =>
    have hop : op.toNat = 15 := by
      simp only [imp_false] at *
      omega
    exact .of_zeroCompactRow hop hi fun hz => by simp_all only [Bool.and_eq_true, decide_eq_true_eq]; rfl
  all_goals exact .of_zeroCompactRow ‹_› hi fun hz => by simp_all only [Bool.and_eq_true, decide_eq_true_eq]; rfl

end Compact

/-! ### The forms of an instruction (R32, R37) -/

theorem wordP_of_bits {w : W32} {h : BitVec 1} (h0 : w.getLsbD 0 = true) (h1 : w.getLsbD 1 = true)
    (h2 : BitVec.ofBool (w.getLsbD 2) = h) : wordP h (w.extractLsb' 3 29) = w := by
  have hlow : w.extractLsb' 0 2 = 3#2 := by
    have h : w.extractLsb' 1 1 ++ w.extractLsb' 0 1 = w.extractLsb' 0 2 := joinFields w rfl
    rw [← h, extractLsb'_bit, extractLsb'_bit, h0, h1]
    rfl
  rw [wordP, ← hlow, ← h2, ← extractLsb'_bit, joinFields w (show 3 = 2 + 1 from rfl), joinFields w (show 2 = 0 + 2 from rfl)]
  exact BitVec.extractLsb'_eq_self

/-- A word that is an instruction and no EXT or EXT.H (R32). -/
def WholeWord (w : W32) : Prop := w.getLsbD 0 = true ∧ w.getLsbD 1 = false

/-- The halfwords of one instruction, with what they decode to: a compact halfword, or a word after no EXT, after EXT, or after
EXT and EXT.H. -/
inductive InstrForm : List Half → Instr → Prop
  | compact {h : Half} {i : Instr} (hlow : h.getLsbD 0 = false) (hi : decodeCompact h = .ok i) : InstrForm [h] i
  | word {w : W32} {i : Instr} (hw : WholeWord w) (hi : decodeWord .none w = .ok i) : InstrForm (halvesOf w) i
  | ext {x : BitVec 29} {w : W32} {i : Instr} (hw : WholeWord w) (hi : decodeWord (.ext x) w = .ok i) :
      InstrForm (halvesOf (wordP 0 x) ++ halvesOf w) i
  | extH {e x : BitVec 29} {w : W32} {i : Instr} (hw : WholeWord w) (hi : decodeWord (.extH e x) w = .ok i) :
      InstrForm (halvesOf (wordP 0 e) ++ halvesOf (wordP 1 x) ++ halvesOf w) i

theorem map_length_eq_ok {r : Except DecodeError Instr} {i : Instr} {n m : Nat} :
    r.map (·, m) = .ok (i, n) ↔ r = .ok i ∧ n = m := by
  cases r <;> simp [Except.map, eq_comm]

theorem cons_cons_eq_halves (h0 h1 : Half) (hs : List Half) : h0 :: h1 :: hs = halvesOf (joinHalves h0 h1) ++ hs := by
  rw [halvesOf_joinHalves]
  rfl

section Halves

variable (w : W32) (e x : BitVec 29) (rest : List Half)

theorem decodeAfterExtH_halves :
    decodeAfterExtH e x (halvesOf w ++ rest) =
      if w.getLsbD 0 = false then .error .prefixBeforeCompact
      else if w.getLsbD 1 = true then .error .prefixOrder
      else (decodeWord (.extH e x) w).map (·, 6) := by
  simp only [decodeAfterExtH, halvesOf, List.cons_append, List.nil_append, halves_bit w (show 0 < 16 by decide),
    halves_bit w (show 1 < 16 by decide), joinHalves_halves]

theorem decodeAfterExt_halves :
    decodeAfterExt e (halvesOf w ++ rest) =
      if w.getLsbD 0 = false then .error .prefixBeforeCompact
      else if w.getLsbD 1 = false then (decodeWord (.ext e) w).map (·, 4)
      else if w.getLsbD 2 = false then .error .prefixOrder
      else decodeAfterExtH e (w.extractLsb' 3 29) rest := by
  simp only [decodeAfterExt, halvesOf, List.cons_append, List.nil_append, halves_bit w (show 0 < 16 by decide),
    halves_bit w (show 1 < 16 by decide), halves_bit w (show 2 < 16 by decide), joinHalves_halves]

theorem decode_halves (h0 : w.getLsbD 0 = true) :
    decode (halvesOf w ++ rest) =
      if w.getLsbD 1 = false then (decodeWord .none w).map (·, 2)
      else if w.getLsbD 2 = true then .error .prefixOrder
      else decodeAfterExt (w.extractLsb' 3 29) rest := by
  simp only [decode, halvesOf, List.cons_append, List.nil_append, halves_bit w (show 0 < 16 by decide),
    halves_bit w (show 1 < 16 by decide), halves_bit w (show 2 < 16 by decide), joinHalves_halves, h0, Bool.true_eq_false,
    if_false]

end Halves

/-- What follows EXT and EXT.H. -/
theorem decodeAfterExtH_form {e x : BitVec 29} {hs : List Half} {i : Instr} {n : Nat}
    (h : decodeAfterExtH e x hs = .ok (i, n)) :
    n = 6 ∧ ∃ w rest, hs = halvesOf w ++ rest ∧ WholeWord w ∧ decodeWord (.extH e x) w = .ok i := by
  match hs with
  | [] => contradiction
  | [h0] =>
    simp only [decodeAfterExtH] at h
    split at h <;> contradiction
  | h0 :: h1 :: rest =>
    rw [cons_cons_eq_halves, decodeAfterExtH_halves] at h
    split at h
    · contradiction
    split at h
    · contradiction
    obtain ⟨hw, rfl⟩ := map_length_eq_ok.1 h
    exact ⟨rfl, _, rest, cons_cons_eq_halves .., ⟨by simp_all, by simp_all⟩, hw⟩

/-- What follows an EXT. -/
theorem decodeAfterExt_form {e : BitVec 29} {hs : List Half} {i : Instr} {n : Nat} (h : decodeAfterExt e hs = .ok (i, n)) :
    (n = 4 ∧ ∃ w rest, hs = halvesOf w ++ rest ∧ WholeWord w ∧ decodeWord (.ext e) w = .ok i) ∨
    (n = 6 ∧ ∃ x w rest, hs = halvesOf (wordP 1 x) ++ halvesOf w ++ rest ∧ WholeWord w ∧
      decodeWord (.extH e x) w = .ok i) := by
  match hs with
  | [] => contradiction
  | [h0] =>
    simp only [decodeAfterExt] at h
    split at h <;> contradiction
  | h0 :: h1 :: rest =>
    rw [cons_cons_eq_halves, decodeAfterExt_halves] at h
    rw [cons_cons_eq_halves]
    generalize joinHalves h0 h1 = p at h ⊢
    split at h
    · contradiction
    next b0 =>
      split at h
      next b1 =>
        obtain ⟨hw, rfl⟩ := map_length_eq_ok.1 h
        exact .inl ⟨rfl, p, rest, rfl, ⟨Bool.eq_true_of_not_eq_false b0, b1⟩, hw⟩
      next b1 =>
        split at h
        · contradiction
        next b2 =>
          obtain ⟨rfl, w, rest, rfl, hw⟩ := decodeAfterExtH_form h
          have hp : wordP 1 (p.extractLsb' 3 29) = p :=
            wordP_of_bits (Bool.eq_true_of_not_eq_false b0) (Bool.eq_true_of_not_eq_false b1)
              (congrArg BitVec.ofBool (Bool.eq_true_of_not_eq_false b2))
          exact .inr ⟨rfl, _, w, rest, by rw [hp, List.append_assoc], hw⟩

/-- What decodes begins with an instruction of the length read. -/
theorem decode_form {hs : List Half} {i : Instr} {n : Nat} (h : decode hs = .ok (i, n)) :
    ∃ is rest, hs = is ++ rest ∧ is.length = n ∧ InstrForm is i := by
  match hs with
  | [] => contradiction
  | [h0] =>
    simp only [decode] at h
    split at h
    next b0 =>
      obtain ⟨hi, rfl⟩ := map_length_eq_ok.1 h
      exact ⟨[h0], [], rfl, rfl, .compact b0 hi⟩
    · contradiction
  | h0 :: h1 :: rest =>
    by_cases b0 : h0.getLsbD 0 = false
    · simp only [decode, if_pos b0] at h
      obtain ⟨hi, rfl⟩ := map_length_eq_ok.1 h
      exact ⟨[h0], h1 :: rest, rfl, rfl, .compact b0 hi⟩
    · have hb0 : (joinHalves h0 h1).getLsbD 0 = true := 
        (joinHalves_bit h0 h1 (by decide)).trans (Bool.eq_true_of_not_eq_false b0)
      rw [cons_cons_eq_halves, decode_halves _ _ hb0] at h
      rw [cons_cons_eq_halves]
      generalize joinHalves h0 h1 = p at h hb0 ⊢
      split at h
      next b1 =>
        obtain ⟨hi, rfl⟩ := map_length_eq_ok.1 h
        exact ⟨halvesOf p, rest, rfl, rfl, .word ⟨hb0, b1⟩ hi⟩
      next b1 =>
        split at h
        · contradiction
        next b2 =>
          have hp : wordP 0 (p.extractLsb' 3 29) = p :=
            wordP_of_bits hb0 (Bool.eq_true_of_not_eq_false b1) (congrArg BitVec.ofBool (Bool.eq_false_of_not_eq_true b2))
          obtain ⟨rfl, w, rest, rfl, hw, hi⟩ | ⟨rfl, x, w, rest, rfl, hw, hi⟩ := decodeAfterExt_form h
          · exact ⟨_, rest, by rw [hp, List.append_assoc], rfl, .ext hw hi⟩
          · exact ⟨_, rest, by rw [hp]; simp only [List.append_assoc], rfl, .extH hw hi⟩

theorem InstrForm.wellFormed {is : List Half} {i : Instr} (h : InstrForm is i) : i.wellFormed = true := by
  cases h with
  | compact hlow hi => exact (decodeCompact_encodesTo hlow hi).1
  | word hw hi | ext hw hi | extH hw hi => exact (decodeWord_encodesBare (lowField_of_bits hw.1 hw.2) hi).1

theorem InstrForm.encode {is : List Half} {i : Instr} (h : InstrForm is i) (hn : is.length ≤ 2) : encode i = is := by
  cases h with
  | compact hlow hi => exact (decodeCompact_encodesTo hlow hi).2
  | word hw hi => exact (decodeWord_encodesBare (lowField_of_bits hw.1 hw.2) hi).2 rfl
  | ext hw hi | extH hw hi => exact absurd hn (by simp [halvesOf])

/-! ## An instruction decodes from its own halfwords (R32-R44) -/

/-! ### Immediates (R36) -/

section Immediate

variable {w : Nat} (imm : Word)

/-- The low field of `w` bits and what stands above it in `m` bits. -/
theorem extractLsb'_toNat_split {m : Nat} (k : Nat) :
    (imm.extractLsb' (k + w) m).toNat * 2 ^ w + (imm.extractLsb' k w).toNat = (imm.extractLsb' k (m + w)).toNat := by
  rw [← joinFields imm (show k + w = k + w from rfl), ← Nat.shiftLeft_eq, BitVec.toNat_append,
    Nat.shiftLeft_add_eq_or_of_lt (BitVec.isLt _)]

theorem formImm_none (h : (imm.extractLsb' 0 w).signExtend 64 = imm) :
    formImm w (imm.extractLsb' 0 w).toNat .none = .ok imm := by
  rw [formImm, BitVec.ofNat_toNat, BitVec.setWidth_eq, h]

theorem formImm_ext (h3 : 3 ≤ w) (hw : w ≤ 32) (h : (imm.extractLsb' 0 32).signExtend 64 = imm) :
    formImm w (imm.extractLsb' 0 w).toNat (.ext ((imm.extractLsb' w (32 - w)).setWidth 29)) = .ok imm := by
  have hsplit := extractLsb'_toNat_split imm (w := w) (m := 32 - w) 0
  rw [Nat.zero_add, Nat.sub_add_cancel hw] at hsplit
  rw [formImm, BitVec.toNat_setWidth_of_le (by omega), if_pos (BitVec.isLt _), hsplit, BitVec.ofNat_toNat, BitVec.setWidth_eq, h]

theorem formImm_extH (h6 : 6 ≤ w) (hw : w ≤ 35) :
    formImm w (imm.extractLsb' 0 w).toNat
      (.extH ((imm.extractLsb' (29 + w) (35 - w)).setWidth 29) (imm.extractLsb' w 29)) = .ok imm := by
  have hhigh := extractLsb'_toNat_split imm (w := 29) (m := 35 - w) w
  have hlow := extractLsb'_toNat_split imm (w := w) (m := 35 - w + 29) 0
  rw [Nat.zero_add] at hlow
  rw [Nat.add_comm w 29] at hhigh
  rw [formImm, BitVec.toNat_setWidth_of_le (by omega), if_pos (BitVec.isLt _), hhigh, hlow]
  rw [show 35 - w + 29 + w = 64 by omega]
  simp

end Immediate

/-- Whatever EXT and EXT.H the value needs, the immediate comes back. -/
theorem decode_encodeImm {w : Nat} {imm : Word} {word : BitVec w → W32} {c : Word → Instr} (h6 : 6 ≤ w) (hw : w ≤ 32)
    (hword : ∀ n, WholeWord (word n)) (hdec : ∀ p n, decodeWord p (word n) = (formImm w n.toNat p).map c) (rest : List Half) :
    decode (encodeImm w imm word ++ rest) = .ok (c imm, (encodeImm w imm word).length) := by
  obtain ⟨h0, h1⟩ := hword (imm.extractLsb' 0 w)
  unfold encodeImm
  dsimp only
  split
  next h => rw [decode_word _ _ h0 h1, hdec, formImm_none imm h]; rfl
  split
  next h => rw [decode_ext _ _ _ h0 h1, hdec, formImm_ext imm (by omega) hw h]; rfl
  next => rw [decode_extH _ _ _ _ h0 h1, hdec, formImm_extH imm h6 (by omega)]; rfl

/-! ### One rule for each layout (Table 2.2) -/

/-- The halfwords of `i`, whatever follows, decode to `k` and their length, and `k` has the same halfwords. -/
def ReadsAs (i k : Instr) : Prop :=
  (∀ rest, decode (encode i ++ rest) = .ok (k, (encode i).length)) ∧ encode k = encode i

theorem admitInstr_ok {i : Instr} (h : i.wellFormed = true) : admitInstr i = .ok i := if_pos h

theorem ReadsAs.of_word {i k : Instr} {w : W32} (he : encode i = halvesOf w) (hk : encode k = encode i) (hw : WholeWord w)
    (hd : decodeWord .none w = .ok k) : ReadsAs i k := by
  refine ⟨fun rest => ?_, hk⟩
  rw [he, decode_word _ _ hw.1 hw.2, hd]
  rfl

section Layouts

variable {i k : Instr} {maj : BitVec 6} {a b d : BitVec 5}

theorem ReadsAs.of_wordR {f : BitVec 9} (hwf : k.wellFormed = true) (he : encode i = halvesOf (wordR maj f b a d))
    (hk : encode k = encode i) (hd : decodeR maj.toNat f b a d = admitInstr k)
    (hmaj : maj.toNat ∉ immediateMajors ∧ maj.toNat < 0x20) : ReadsAs i k := by
  refine .of_word he hk (wordR_low ..) ?_
  rw [decodeWord_of_major (by rw [wordR_maj]; exact hmaj.1)]
  simp only [wordR_maj, wordR_f, wordR_b, wordR_a, wordR_d, ne_eq, not_true, if_false, if_pos hmaj.2, hd, admitInstr_ok hwf]

theorem ReadsAs.of_wordV {vf : BitVec 2} {t : BitVec 4} {m : BitVec 3} (hwf : i.wellFormed = true)
    (he : encode i = halvesOf (wordV maj vf t m b a d)) (hd : decodeV maj.toNat vf t m b a d = admitInstr i)
    (hmaj : 0x20 ≤ maj.toNat ∧ maj.toNat < 0x30) : ReadsAs i i := by
  refine .of_word he rfl (wordV_low ..) ?_
  rw [decodeWord_of_major (by rw [wordV_maj]; simp [immediateMajors]; omega)]
  simp only [wordV_maj, wordV_vf, wordV_t, wordV_m, wordV_b, wordV_a, wordV_d, ne_eq, not_true, if_false,
    if_neg (Nat.not_lt.2 hmaj.1), if_pos hmaj.2, hd, admitInstr_ok hwf]

end Layouts

theorem ReadsAs.of_half {i : Instr} {op : BitVec 4} {v : BitVec 1} {s d : BitVec 5} (hwf : i.wellFormed = true)
    (he : encode i = [halfC op v s d]) (hd : decodeCompact (halfC op v s d) = admitInstr i) : ReadsAs i i := by
  refine ⟨fun rest => ?_, rfl⟩
  rw [he]
  simp only [decode, List.cons_append, List.nil_append, halfC_low, if_true, hd, admitInstr_ok hwf]
  rfl

/-- The number of six bits of a compact halfword, and the offset of C.J (R39). -/
theorem joinCompact (k : BitVec 6) : k.extractLsb' 5 1 ++ k.extractLsb' 0 5 = k := joinWhole (n := 5) k

theorem joinCompactJump (k : BitVec 11) : k.extractLsb' 10 1 ++ k.extractLsb' 5 5 ++ k.extractLsb' 0 5 = k := by
  rw [joinFields k (show 10 = 5 + 5 from rfl)]
  exact joinWhole (n := 5) k

/-! ### Layouts with an immediate -/

theorem ReadsAs.of_imm {w : Nat} {imm : Word} {word : BitVec w → W32} {c : Word → Instr} (h6 : 6 ≤ w) (hw : w ≤ 32)
    (he : encode (c imm) = encodeImm w imm word) (hword : ∀ n, WholeWord (word n))
    (hdec : ∀ p n, decodeWord p (word n) = (formImm w n.toNat p).map c) : ReadsAs (c imm) (c imm) := by
  refine ⟨fun rest => ?_, rfl⟩
  rw [he]
  exact decode_encodeImm h6 hw hword hdec rest

section ImmediateLayouts

variable {imm : Word} {c : Word → Instr} {a b d : BitVec 5} {f : BitVec 3}

theorem ReadsAs.of_aluImm (he : encode (c imm) = encodeImm 11 imm (fun n => wordIF 0x01 f n a d))
    (hd : ∀ p n, decodeAluImm n f a d p = (formImm 11 n.toNat p).map c) : ReadsAs (c imm) (c imm) := by
  refine .of_imm (by decide) (by decide) he (fun _ => wordIF_low ..) fun p n => ?_
  simp only [decodeWord, wordIF_maj, wordIF_imm, wordIF_fn3, wordIF_a, wordIF_d]
  exact hd p n

theorem ReadsAs.of_load (he : encode (c imm) = encodeImm 11 imm (fun n => wordIF 0x08 f n a d))
    (hd : ∀ p n, decodeLoad n f a d p = (formImm 11 n.toNat p).map c) : ReadsAs (c imm) (c imm) := by
  refine .of_imm (by decide) (by decide) he (fun _ => wordIF_low ..) fun p n => ?_
  simp only [decodeWord, wordIF_maj, wordIF_imm, wordIF_fn3, wordIF_a, wordIF_d]
  exact hd p n

theorem wordBS_off (maj : BitVec 6) (n : BitVec 11) :
    (wordBS maj f n b a).extractLsb' 26 6 ++ (wordBS maj f n b a).extractLsb' 8 5 = n := by
  rw [wordBS_offHi, wordBS_offLo]
  exact joinWhole (n := 5) n

theorem ReadsAs.of_branch (he : encode (c imm) = encodeImm 11 imm (fun n => wordBS 0x05 f n b a))
    (hd : ∀ p n, decodeBranch n f b a p = (formImm 11 n.toNat p).map c) : ReadsAs (c imm) (c imm) := by
  refine .of_imm (by decide) (by decide) he (fun _ => wordBS_low ..) fun p n => ?_
  simp only [decodeWord, wordBS_off, wordBS_maj, wordBS_fn3, wordBS_b, wordBS_a]
  exact hd p n

theorem ReadsAs.of_store (he : encode (c imm) = encodeImm 11 imm (fun n => wordBS 0x09 f n b a))
    (hd : ∀ p n, decodeStore n f b a p = (formImm 11 n.toNat p).map c) : ReadsAs (c imm) (c imm) := by
  refine .of_imm (by decide) (by decide) he (fun _ => wordBS_low ..) fun p n => ?_
  simp only [decodeWord, wordBS_off, wordBS_maj, wordBS_fn3, wordBS_b, wordBS_a]
  exact hd p n

theorem ReadsAs.of_upper {fn : BitVec 1} (he : encode (c imm) = encodeImm 18 imm (fun n => wordU 0x02 fn n d))
    (hd : ∀ p n, decodeUpper n fn d p = (formImm 18 n.toNat p).map c) : ReadsAs (c imm) (c imm) := by
  refine .of_imm (by decide) (by decide) he (fun _ => wordU_low ..) fun p n => ?_
  simp only [decodeWord, wordU_maj, wordU_imm, wordU_fn, wordU_d]
  exact hd p n

theorem readsAs_jal : ReadsAs (.jal imm) (.jal imm) := by
  refine .of_imm (word := wordJ 0x06) (by decide) (by decide) rfl (fun _ => wordJ_low ..) fun p n => ?_
  simp only [decodeWord, wordJ_maj, wordJ_off]
  rfl

theorem readsAs_jalr : ReadsAs (.jalr d a imm) (.jalr d a imm) := by
  refine .of_imm (c := .jalr d a) (word := fun n => wordI 0x07 n a d) (by decide) (by decide) rfl
    (fun _ => wordI_low ..) fun p n => ?_
  simp only [decodeWord, wordI_maj, wordI_imm, wordI_a, wordI_d]
  rfl

end ImmediateLayouts

/-- A row of the shift group: its kind stands above its amount (R41). -/
theorem ReadsAs.of_shift {i : Instr} {kind : BitVec 2} {sh : BitVec 6} {a d : BitVec 5}
    (he : encode i = halvesOf (wordIF 0x01 6 (0#3 ++ kind ++ sh) a d))
    (hd : ∀ n : BitVec 11, n.extractLsb' 8 3 = 0 → n.extractLsb' 6 2 = kind → n.extractLsb' 0 6 = sh →
      decodeShift n a d .none = .ok i) : ReadsAs i i := by
  refine .of_word he rfl (wordIF_low ..) ?_
  simp only [decodeWord, wordIF_maj, wordIF_imm, wordIF_fn3, wordIF_a, wordIF_d]
  refine hd _ ?_ ?_ BitVec.extractLsb'_append_eq_right
  · rw [BitVec.extractLsb'_append_eq_of_le (by decide)]
    exact BitVec.extractLsb'_append_eq_left
  · rw [BitVec.extractLsb'_append_eq_of_le (by decide)]
    exact BitVec.extractLsb'_append_eq_right

/-! ### Rows whose function field holds an operand -/

section Operands

variable {a b d : BitVec 5}

theorem append_low6 (k : BitVec 3) (n : BitVec 6) : (k ++ n).extractLsb' 0 6 = n := BitVec.extractLsb'_append_eq_right

theorem append_toNat (k : BitVec 3) (n : BitVec 6) : (k ++ n).toNat = 64 * k.toNat + n.toNat := by
  rw [BitVec.toNat_append, ← Nat.shiftLeft_add_eq_or_of_lt n.isLt, Nat.shiftLeft_eq, Nat.mul_comm]

theorem readsAs_fenceSc {s : BitVec 2} (hwf : (Instr.fenceSc s).wellFormed = true) : ReadsAs (.fenceSc s) (.fenceSc s) := by
  have hhigh : (0#7 ++ s).extractLsb' 2 7 = 0#7 := BitVec.extractLsb'_append_eq_left
  have hlow : (0#7 ++ s).extractLsb' 0 2 = s := BitVec.extractLsb'_append_eq_right
  refine .of_wordR hwf rfl rfl ?_ (by decide)
  change decodeFence (0#7 ++ s) 0 0 0 = _
  rw [decodeFence, hlow, hhigh]
  rfl

theorem readsAs_spawn {n : BitVec 6} (hwf : (Instr.spawn d a b n).wellFormed = true) :
    ReadsAs (.spawn d a b n) (.spawn d a b n) := by
  have hn : 1 ≤ n.toNat ∧ n.toNat ≤ 32 := by
    simp only [Instr.wellFormed, Bool.and_eq_true, decide_eq_true_eq] at hwf
    exact hwf.1
  have hf : (0#3 ++ n).toNat = n.toNat := by simp [append_toNat]
  refine .of_wordR hwf rfl rfl ?_ (by decide)
  change decodeThread (0#3 ++ n) b a d = _
  rw [decodeThread, hf, if_neg (by omega), if_pos hn.2, append_low6]

theorem readsAs_send {n : BitVec 5} {c : BitVec 6} (hwf : (Instr.send a b n c).wellFormed = true) :
    ReadsAs (.send a b n c) (.send a b n c) := by
  have hf : (1#3 ++ c).toNat = 64 + c.toNat := by simp [append_toNat]
  refine .of_wordR hwf rfl rfl ?_ (by decide)
  change decodeThread (1#3 ++ c) b a n = _
  rw [decodeThread, hf, if_neg (by omega), if_neg (by omega), if_neg (by omega), if_pos (by omega), append_low6]

/-- The two fields of a system register's number. -/
theorem joinNumber (n : BitVec 11) : n.extractLsb' 5 6 ++ n.extractLsb' 0 5 = n := joinWhole (n := 5) n

theorem readsAs_sysr {n : BitVec 11} (hwf : (Instr.sysr d n).wellFormed = true) : ReadsAs (.sysr d n) (.sysr d n) := by
  have hf : (0#3 ++ n.extractLsb' 5 6).toNat = (n.extractLsb' 5 6).toNat := by simp [append_toNat]
  refine .of_wordR hwf rfl rfl ?_ (by decide)
  change decodeSystem (0#3 ++ n.extractLsb' 5 6) (n.extractLsb' 0 5) 0 d = _
  rw [decodeSystem, hf, if_pos (by omega), append_low6, joinNumber]
  rfl

theorem readsAs_sysw {n : BitVec 11} (hwf : (Instr.sysw n a).wellFormed = true) : ReadsAs (.sysw n a) (.sysw n a) := by
  have hf : (1#3 ++ n.extractLsb' 5 6).toNat = 64 + (n.extractLsb' 5 6).toNat := by simp [append_toNat]
  refine .of_wordR hwf rfl rfl ?_ (by decide)
  change decodeSystem (1#3 ++ n.extractLsb' 5 6) 0 a (n.extractLsb' 0 5) = _
  rw [decodeSystem, hf, if_neg (by omega), if_pos (by omega), append_low6, joinNumber]
  rfl

theorem readsAs_vcvt {t g : BitVec 4} {m : BitVec 3} {s : BitVec 1} (hwf : (Instr.vcvt t m d a g s).wellFormed = true) :
    ReadsAs (.vcvt t m d a g s) (.vcvt t m d a g s) := by
  have hg : (s ++ g).extractLsb' 0 4 = g := BitVec.extractLsb'_append_eq_right
  have hs : (s ++ g).extractLsb' 4 1 = s := BitVec.extractLsb'_append_eq_left
  refine .of_wordV hwf rfl ?_ (by decide)
  change admitInstr (.vcvt t m d a ((s ++ g).extractLsb' 0 4) ((s ++ g).extractLsb' 4 1)) = _
  rw [hg, hs]

end Operands

/-! ### Every instruction (R32-R44) -/

/-- An instruction that its word names alone decodes from its own halfwords. -/
theorem readsAs_self {i : Instr} (hwf : i.wellFormed = true) (he : encode i ≠ []) (hl : laterKind i = false) : ReadsAs i i := by
  cases i with
  | add | sub | and | or | xor | sll | srl | sra | slt | sltu | andn | orn | mul | mulh | mulhu | mulhsu | div | divu | rem
    | remu | clz | ctz | popc | brev | bext | bdep | min | max | minu | maxu | sel | amoadd | amoand | amoor | amoxor
    | amomin | amomax | amominu | amomaxu | amoswap | amocas | baddW128 | bvaddF | bvaddBh | bvmaxF | bvmaxBh | bredF
    | bredBh | get | getB | put | putB | ramoAdd | ramoAnd | ramoOr | ramoXor | ramoMin | ramoMax | ramoMinu | ramoMaxu
    | ramoSwap | ramoCas | sleep | probe | probeV | empty | emptyV | qpush | qpop | qlen | lcw | lcr | lbw | sync | syncQ
    | pfl | wbl | ssno | mcfg | mjob | mdrain | mstat | xcopy | xcopyT | xplane | xunplane | xfill | xgather | xcopyNext
    | xcopyTNext | xplaneNext | xunplaneNext | xfillNext | xgatherNext | ttload | ttloadK | ttgoArm | qgate | qgateAuto
    | qswap | qprob | qnorm | qsamp | qgateD | qgateAutoD | qswapD | qprobD | qnormD | qsampD | hoffer | hstat | leave
    | leaveRel | sfenceVPage | inject | report | exit | yield | abort | eret | wfi | brk | trap | iflush =>
    exact .of_wordR hwf rfl rfl rfl (by decide)
  | fenceSc => exact readsAs_fenceSc hwf
  | spawn => exact readsAs_spawn hwf
  | send => exact readsAs_send hwf
  | sysr => exact readsAs_sysr hwf
  | sysw => exact readsAs_sysw hwf
  | vadd | vsub | vmul | vmulh | vand | vor | vxor | vandn | vsll | vsrl | vsra | vmin | vmax | vadds | vsubs | vfadd | vfsub
    | vfmul | vfdiv | vfmin | vfmax | vrcps | vrsqrts | vfma | vfms | vfnma | vfnms | vceq | vcne | vclt | vcle | vrcp
    | vrsqrt | vsqrt | vabs | vneg | vmov | vredsum | vredmin | vredmax | vredand | vredor | vredxor | vperm | vslide
    | vbcast | vmerge | vld | vlds | vldq | vgather | vst | vsts | vstq | vscatter | vmand | vmor | vmxor | vmnot | vmpopc
    | vmfirst | vmap | vmapR | vloop | tdld | tdst | tdset | vqpush | vqpop => exact .of_wordV hwf rfl rfl (by decide)
  | vcvt => exact readsAs_vcvt hwf
  | addi | slti | sltiu | andi | ori | xori => exact .of_aluImm rfl (fun _ _ => rfl)
  | slli | srli | srai => exact .of_shift rfl fun _ h8 h6 h0 => by simp [decodeShift, h8, h6, h0]
  | lih | pch => exact .of_upper rfl (fun _ _ => rfl)
  | beq | bne | blt | bge | bltu | bgeu => exact .of_branch rfl (fun _ _ => rfl)
  | jal => exact readsAs_jal
  | jalr => exact readsAs_jalr
  | lb | lh | lw | ld | lbu | lhu | lwu => exact .of_load rfl (fun _ _ => rfl)
  | sb | sh | sw | sd => exact .of_store rfl (fun _ _ => rfl)
  | cMov | cAdd | cSub | cAnd | cLdReg | cLdG2 | cStReg | cStG2 | cSync | cSend | cExit | cNop =>
    exact .of_half hwf rfl (by simp only [decodeCompact, halfC_op, halfC_v, halfC_s, halfC_d]; rfl)
  | cAddi | cLdi | cSlli | cBeqz | cBnez | cJ =>
    exact .of_half hwf rfl (by simp only [decodeCompact, halfC_op, halfC_v, halfC_s, halfC_d, joinCompact, joinCompactJump]; rfl)
  | ttgoDisarm | ttgoPost | ttgoFree | sfenceVContext | sfenceVAll | sfenceVPublish => contradiction
  | storeBufferDrain | icacheFill | sleepExpiry | arrive | zeroing | zeroingDone | spawnStart | deliver | taskDequeue
    | stealRound | lineFill | recallLine | mcfgEffect | tilePass | drainRun | copyRun | nextCopyRun | leaveGrant
    | thermalEmergency | getFill | lendingResume | amplitudePass | swapHalfArrival | partnerTimeout | tableStart | groupFire
    | beatArrival | debtArrival | tableStop | shutterDecision | release | quiescenceSweep | maxssExpiry | preemptionStop
    | secureSealed | moduleFailed | spareFill | timeCarry | hang | jobEventEntry | dispatchStep | localStoreWipe
    | wicketAdmission | granuleReclaim | dieMemoryReclaim | frameWipe | dieRetirement | ssctlVote | ssctlKill | ssctlRetry
    | ssctlPre | upstRet | vtrapHeldClear | qcfgWrite | svctlNow | svctlBw | dbgctlHalt | dbgctlRun | dbgctlStep | hostRead
    | hostWrite | lqtail | repreq | dbgselw | sparereq | mgerrClear | lcreqProvisioned | lcreqDeployed | lcreqDecommissioned
    | functionLevelReset | moduleReset | linkFlitReceive | portLoss | dieHealthyAgain | tdispRequest | ideKeyManagement
    | routerKeyStoreLoad | contextCreation | contextEnd | slicePowerGating | portRetrain =>
    exact absurd rfl he

/-- The later kinds of TTGO and SFENCE.V read as the first (log entry 29). -/
theorem readsAs_firstKind {i : Instr} (hl : laterKind i = true) : ∃ k, ReadsAs i k := by
  unfold laterKind at hl
  split at hl
  case h_1 a | h_2 a | h_3 a => exact ⟨.ttgoArm a, .of_wordR rfl rfl rfl rfl (by decide)⟩
  case h_4 a | h_5 a | h_6 a => exact ⟨.sfenceVPage a, .of_wordR rfl rfl rfl rfl (by decide)⟩
  case h_7 => contradiction

/-- Settles O1: each layout reads back, and each row of the map encodes to the word it was read from. -/
theorem decodeReadsEncode : Obligations.DecodeReadsEncode := by
  unfold Obligations.DecodeReadsEncode
  refine ⟨fun i rest hwf he => ?_, fun hs i n h => ?_⟩
  · cases hl : laterKind i with
    | false =>
      obtain ⟨hread, henc⟩ := readsAs_self hwf he hl
      exact ⟨i, hread rest, henc, fun _ => rfl⟩
    | true =>
      obtain ⟨k, hread, henc⟩ := readsAs_firstKind hl
      exact ⟨k, hread rest, henc, nofun⟩
  · obtain ⟨is, rest, rfl, rfl, hform⟩ := decode_form h
    exact ⟨hform.wellFormed, fun hn => by rw [hform.encode hn, List.take_left]⟩

/-- A major that Table 2.4 leaves to no group gives no instruction; a word of it after EXT or EXT.H is refused for these. -/
theorem decodeWord_of_reservedMajor {w : W32} {p : Prefixes}
    (hm : 0x18 ≤ (w.extractLsb' 2 6).toNat ∧ (w.extractLsb' 2 6).toNat < 0x20 ∨ 0x30 ≤ (w.extractLsb' 2 6).toNat) :
    decodeWord p w = .error (if p = .none then .reservedMajor else .prefixNotAllowed) := by
  have himm : (w.extractLsb' 2 6).toNat ∉ immediateMajors := by
    simp only [immediateMajors, List.mem_cons, List.not_mem_nil, not_or, or_false]
    omega
  rw [decodeWord_of_major himm]
  by_cases hp : p = .none
  · rw [if_neg (not_not.2 hp), if_pos hp]
    obtain ⟨h18, h20⟩ | h30 := hm
    · rw [if_pos h20]
      unfold decodeR
      split
      case h_18 => rfl
      all_goals omega
    · rw [if_neg (by omega), if_neg (by omega)]
  · rw [if_pos hp, if_neg hp]

/-- Refutes O3: a word of major 0x18 after an EXT is refused for the EXT, which its layout does not take, and not for its major. -/
theorem not_reservedMajorsRefused : ¬ Obligations.ReservedMajorsRefused := by
  unfold Obligations.ReservedMajorsRefused
  intro h
  have hclaimed := (h 0x61 (.ext 0)).1 0x18 (by decide) (by decide)
  rw [decodeWord_of_reservedMajor (by decide)] at hclaimed
  contradiction

end Sys2Proof

/-! ## The halfwords of an instruction, read one by one (R32, R33) -/

namespace Sys2Proof

theorem decode_one (w : W32) (h0 : w.getLsbD 0 = true) : decode [w.extractLsb' 0 16] = .error .truncated := by
  rw [decode, if_neg (by rw [halves_bit w (by decide), h0]; decide)]

theorem decodeAfterExt_one (e : BitVec 29) (w : W32) (h0 : w.getLsbD 0 = true) :
    decodeAfterExt e [w.extractLsb' 0 16] = .error .truncated := by
  rw [decodeAfterExt, if_neg (by rw [halves_bit w (by decide), h0]; decide)]

theorem decodeAfterExtH_one (e x : BitVec 29) (w : W32) (h0 : w.getLsbD 0 = true) :
    decodeAfterExtH e x [w.extractLsb' 0 16] = .error .truncated := by
  rw [decodeAfterExtH, if_neg (by rw [halves_bit w (by decide), h0]; decide)]

/-- An EXT hands the halfwords after it on. -/
theorem decode_afterExt (e : BitVec 29) (hs : List Half) : decode (halvesOf (wordP 0 e) ++ hs) = decodeAfterExt e hs := by
  have h2 : (wordP 0 e).getLsbD 2 = false := wordP_bit2 0 e
  rw [decode_halves _ _ (wordP_low 0 e).1, (wordP_low 0 e).2, h2, wordP_x]
  rfl

theorem decodeAfterExt_extH (e x : BitVec 29) (hs : List Half) :
    decodeAfterExt e (halvesOf (wordP 1 x) ++ hs) = decodeAfterExtH e x hs := by
  have h2 : (wordP 1 x).getLsbD 2 = true := wordP_bit2 1 x
  rw [decodeAfterExt_halves, (wordP_low 1 x).1, (wordP_low 1 x).2, h2, wordP_x]
  rfl

/-- The halfwords of an instruction ask for more until all are there. -/
theorem InstrForm.take_truncated {is : List Half} {i : Instr} (h : InstrForm is i) {k : Nat} (hk : k < is.length) :
    decode (is.take k) = .error .truncated := by
  cases h with
  | compact hlow hi =>
    obtain rfl : k = 0 := by simpa using hk
    rfl
  | word hw hi =>
    match k, hk with
    | 0, _ => rfl
    | 1, _ => exact decode_one _ hw.1
  | @ext x w _ hw hi =>
    match k, hk with
    | 0, _ => rfl
    | 1, _ => exact decode_one _ (wordP_low 0 x).1
    | 2, _ => exact decode_afterExt x []
    | 3, _ => exact (decode_afterExt x _).trans (decodeAfterExt_one _ _ hw.1)
  | @extH e x w _ hw hi =>
    match k, hk with
    | 0, _ => rfl
    | 1, _ => exact decode_one _ (wordP_low 0 e).1
    | 2, _ => exact decode_afterExt e []
    | 3, _ => exact (decode_afterExt e _).trans (decodeAfterExt_one _ _ (wordP_low 1 x).1)
    | 4, _ => exact (decode_afterExt e _).trans (decodeAfterExt_extH e x [])
    | 5, _ => exact (decode_afterExt e _).trans ((decodeAfterExt_extH e x _).trans (decodeAfterExtH_one _ _ _ hw.1))

theorem InstrForm.length_le {is : List Half} {i : Instr} (h : InstrForm is i) : is.length ≤ maxHalves := by
  cases h <;> simp [halvesOf, maxHalves]

theorem instrForm_encode {i : Instr} (hwf : i.wellFormed = true) (he : encode i ≠ []) (hl : laterKind i = false) :
    InstrForm (encode i) i ∧ decode (encode i) = .ok (i, (encode i).length) := by
  have hd := (readsAs_self hwf he hl).1 []
  rw [List.append_nil] at hd
  obtain ⟨is, rest, happ, hlen, hform⟩ := decode_form hd
  obtain rfl : rest = [] := List.length_eq_zero_iff.1 (by have := congrArg List.length happ; simp at this; omega)
  rw [List.append_nil] at happ
  exact ⟨happ ▸ hform, hd⟩

/-! ## What follows every turn (R31, R450, R470) -/

/-- A table whose components are all rewritten, where the rewriting keeps the default. -/
theorem Table.get_map {α : Type} (d : α) (t : Table α) (f : Nat → α → α) (k : Nat) (hd : f k d = d) :
    Table.get d (t.map fun e => (e.1, f e.1 e.2)) k = f k (Table.get d t k) := by
  induction t with
  | nil => exact hd.symm
  | cons e t ih =>
    simp only [List.map_cons, Table.get, ih]
    split
    · next h => rw [h]
    · rfl

end Sys2Proof

namespace Sys2Proof.Machine

open Sys2Proof

/-- What a turn's end may do to a context: forget who asked for a step, tell of a launch, and start its stuck cycles anew. -/
def CtxSettles (x y : Ctx) : Prop :=
  y = { x with job := y.job, dbgAsk := y.dbgAsk } ∧
    ∀ j, x.job = some j → ∃ n p, y.job = some { j with stuckCy := n, toldStill := p } ∧ (n = j.stuckCy ∨ n = 0)

/-- What a turn's end may do to the module. -/
def Settles (t u : State) : Prop :=
  u = { t with ctxs := u.ctxs, dies := u.dies, linkOut := u.linkOut, ports := u.ports } ∧
  (∀ d, u.die d = { t.die d with capLast := (u.die d).capLast }) ∧ ∀ c, CtxSettles (t.ctx c) (u.ctx c)

theorem CtxSettles.refl (x : Ctx) : CtxSettles x x := ⟨rfl, fun j h => ⟨j.stuckCy, j.toldStill, h, .inl rfl⟩⟩

theorem CtxSettles.trans {x y z : Ctx} (h : CtxSettles x y) (h' : CtxSettles y z) : CtxSettles x z := by
  obtain ⟨hy, hjob⟩ := h
  obtain ⟨hz, hjob'⟩ := h'
  refine ⟨by rw [hz, hy], fun j hj => ?_⟩
  obtain ⟨n, p, hyj, hn⟩ := hjob j hj
  obtain ⟨m, q, hzj, hm⟩ := hjob' _ hyj
  refine ⟨m, q, hzj, ?_⟩
  obtain rfl | rfl := hm
  · exact hn
  · exact .inr rfl

theorem Settles.refl (s : State) : Settles s s := ⟨rfl, fun _ => rfl, fun _ => .refl _⟩

theorem Settles.trans {s t u : State} (h : Settles s t) (h' : Settles t u) : Settles s u := by
  obtain ⟨hs, hdie, hctx⟩ := h
  obtain ⟨ht, hdie', hctx'⟩ := h'
  exact ⟨by rw [ht, hs], fun d => by rw [hdie', hdie], fun c => (hctx c).trans (hctx' c)⟩

theorem Settles.modCtx (s : State) (c : Nat) (f : Ctx → Ctx) (hf : CtxSettles (s.ctx c) (f (s.ctx c))) :
    Settles s (s.modCtx c f) := by
  refine ⟨rfl, fun _ => rfl, fun k => ?_⟩
  by_cases h : k = c
  · subst h
    rw [State.modCtx_same]
    exact hf
  · rw [State.modCtx_other _ _ h]
    exact .refl _

/-- A message to another module leaves on a port group. -/
theorem Settles.send (s : State) (m : Nat) (msg : LinkMsg) : Settles s (s.send m msg) := by
  unfold State.send State.flit
  split
  · exact .refl s
  · dsimp only
    split
    · exact .refl s
    · exact ⟨rfl, fun _ => rfl, fun _ => .refl _⟩

theorem Settles.noteCap (s : State) (d : Nat) : Settles s (noteCap s d) := by
  unfold Machine.noteCap
  split
  · exact .refl s
  · refine ⟨rfl, fun k => ?_, fun _ => .refl _⟩
    by_cases h : k = d
    · subst h
      rw [State.modDie_same]
    · rw [State.modDie_other _ _ h]

theorem Settles.noteCaps (s : State) : Settles s (noteCaps s) := by
  unfold Machine.noteCaps
  split
  · exact .refl s
  · exact foldl_keeps (.refl s) fun t d h => h.trans (.noteCap t d)

theorem Settles.noteSteps (s : State) : Settles s (noteSteps s) := by
  refine foldl_keeps (.refl s) fun t e h => h.trans ?_
  split
  · exact .refl t
  · dsimp only
    split
    · exact .refl t
    · exact (Settles.send ..).trans (.modCtx _ _ _ ⟨rfl, fun j hj => ⟨j.stuckCy, j.toldStill, hj, .inl rfl⟩⟩)

theorem Settles.tellStill (s : State) (c : Nat) (j : Job) : Settles s (tellStill s c j) := by
  unfold Machine.tellStill
  dsimp only
  split
  · exact .refl s
  · refine Settles.trans (t := tellRoot s j (.still c s.modnum (partStill s c j))) ?_ (.modCtx _ _ _ ⟨rfl, fun j' hj => ?_⟩)
    · unfold tellRoot
      split
      · exact .refl s
      · exact .send ..
    · exact ⟨j'.stuckCy, _, by rw [hj]; rfl, .inl rfl⟩

theorem Settles.tellStills (s : State) : Settles s (tellStills s) := by
  refine foldl_keeps (.refl s) fun t e h => h.trans ?_
  split
  · exact .tellStill ..
  · exact .refl t

/-- A context whose launch, unless it is stuck, starts its stuck cycles anew (R450). -/
def freshStuck (s : State) (c : Nat) (x : Ctx) : Ctx :=
  { x with job := x.job.map fun j => if j.stuckCy = 0 || stuck s c j then j else { j with stuckCy := 0 } }

theorem freshStuck_of_zero {s : State} {c : Nat} {x : Ctx} (h : x.job.all (fun j => j.stuckCy = 0) = true) :
    freshStuck s c x = x := by
  unfold freshStuck
  cases hj : x.job with
  | none => rw [Option.map_none, ← hj]
  | some j =>
    have h0 : j.stuckCy = 0 := by simpa [hj] using h
    rw [Option.map_some, if_pos (by simp [h0]), ← hj]

theorem noteStuck_ctx (s : State) (c : Nat) :
    (noteStuck s).ctx c = freshStuck (tellStills s) c ((tellStills s).ctx c) := by
  unfold noteStuck
  dsimp only
  split
  next hall =>
    refine (freshStuck_of_zero ?_).symm
    obtain h | ⟨e, he, h⟩ := Table.get_eq_or_mem Ctx.reset (tellStills s).ctxs c
    · rw [State.ctx, h]; rfl
    · rw [State.ctx, h]; exact List.all_eq_true.1 hall e he
  next => exact Table.get_map Ctx.reset (tellStills s).ctxs (freshStuck (tellStills s)) c rfl

theorem freshStuck_job {s : State} {c : Nat} {x : Ctx} {j : Job} (h : x.job = some j) :
    (freshStuck s c x).job = some { j with stuckCy := if stuck s c j then j.stuckCy else 0 } := by
  unfold freshStuck
  rw [h, Option.map_some]
  by_cases hs : stuck s c j = true
  · simp [hs]
  · by_cases h0 : j.stuckCy = 0 <;> simp [hs, h0]
    rw [← h0]

theorem Settles.noteStuck (s : State) : Settles s (noteStuck s) := by
  refine (Settles.tellStills s).trans ⟨?_, fun d => ?_, fun c => ?_⟩
  · unfold Machine.noteStuck
    dsimp only
    split <;> rfl
  · unfold Machine.noteStuck
    dsimp only
    split <;> rfl
  · rw [noteStuck_ctx]
    refine ⟨rfl, fun j hj => ⟨_, j.toldStill, freshStuck_job hj, ?_⟩⟩
    split
    · exact .inl rfl
    · exact .inr rfl

theorem Settles.settledTurn (s : State) : Settles s (settledTurn s) :=
  ((Settles.noteCaps s).trans (.noteSteps _)).trans (.noteStuck _)

/-! ## The instruction at the PC (R123, R124) -/

/-- States that differ at most in how the table of cores lists the same cores. -/
def SameButCores (s t : State) : Prop := (∀ c, t.core c = s.core c) ∧ t = { s with cores := t.cores }

theorem SameButCores.refl (s : State) : SameButCores s s := ⟨fun _ => rfl, rfl⟩

theorem SameButCores.trans {s t u : State} (h : SameButCores s t) (h' : SameButCores t u) : SameButCores s u := by
  obtain ⟨hc, ht⟩ := h
  obtain ⟨hc', hu⟩ := h'
  exact ⟨fun c => (hc' c).trans (hc c), by rw [hu, ht]⟩

theorem SameButCores.setCore (s : State) (c : Nat) : SameButCores s (s.setCore c (s.core c)) := by
  refine ⟨fun k => ?_, rfl⟩
  by_cases h : k = c
  · subst h
    rw [State.setCore_same]
  · rw [State.setCore_other _ _ h]

/-- The line `l`, sound and of context `ctx`, is all that the instruction cache of a core holds. -/
structure OnlyLine (s : State) (core ctx : Nat) (l : ICLine) : Prop where
  icache : (s.core core).icache = [l]
  sound : l.ecc = .sound
  ctx : l.ctx = ctx

/-- The halfword at `va` of a line. -/
def ICLine.half (l : ICLine) (va : Nat) : Half := BitVec.ofNat 16 (l.data.toNat >>> (8 * (va % 64)))

theorem OnlyLine.same {s t : State} {core ctx : Nat} {l : ICLine} (h : OnlyLine s core ctx l) (hst : SameButCores s t) :
    OnlyLine t core ctx l := ⟨by rw [hst.1, h.icache], h.sound, h.ctx⟩

theorem OnlyLine.fetchHalf {s : State} {core ctx : Nat} {l : ICLine} (h : OnlyLine s core ctx l) (slot : Nat) {va : Nat}
    (hva : l.line = lineOf va) :
    fetchHalf s core slot ctx va = .half (s.setCore core (s.core core)) (l.half va) := by
  have hcore : { s.core core with icache := [l] } = s.core core := by rw [← h.icache]
  unfold Machine.fetchHalf
  simp only [h.icache, h.ctx, hva, h.sound, icacheEcc, List.find?_cons, List.filter_cons, List.filter_nil, decide_true,
    and_self, ne_eq, not_true, decide_false, Bool.false_eq_true, if_false, Option.toList, List.nil_append, hcore]
  rfl

/-- The address of an instruction's halfword `k`, which stands in the line of its first. -/
theorem halfword_address {pc k n : Nat} (hpc : pc < 2 ^ 64) (hk : k < n) (hfit : pc % 64 + 2 * n ≤ 64) :
    (pc + 2 * k) % 2 ^ 64 = pc + 2 * k ∧ lineOf (pc + 2 * k) = lineOf pc := by
  unfold lineOf
  omega

theorem fetchFrom_of_line {s : State} {core slot ctx pc : Nat} {l : ICLine} {is : List Half} {i : Instr}
    (hl : OnlyLine s core ctx l) (hline : l.line = lineOf pc) (hform : InstrForm is i) (hdec : decode is = .ok (i, is.length))
    (hpc : pc < 2 ^ 64) (hfit : pc % 64 + 2 * is.length ≤ 64) (hhalf : ∀ k < is.length, is.getD k 0 = l.half (pc + 2 * k))
    {k n : Nat} (hk : k < is.length) (hn : is.length ≤ k + n) :
    ∃ s', SameButCores s s' ∧ fetchFrom core slot ctx pc n (is.take k) s = .instr s' i is.length (firstWord is) := by
  induction n generalizing s k with
  | zero => omega
  | succ n ih =>
    obtain ⟨haddr, hsame⟩ := halfword_address hpc hk hfit
    have hread : is.take k ++ [l.half (pc + 2 * k)] = is.take (k + 1) := by
      rw [← hhalf k hk, List.getD_eq_getElem _ _ hk, List.take_append_getElem]
    have hset := SameButCores.setCore s core
    rw [fetchFrom]
    simp only [List.length_take, Nat.min_eq_left hk.le, haddr, hl.fetchHalf slot (hline.trans hsame.symm), hread]
    by_cases hlast : k + 1 = is.length
    · refine ⟨_, hset, ?_⟩
      rw [hlast, List.take_length, hdec]
    · have hnext : k + 1 < is.length := by omega
      obtain ⟨s', hs', hfetch⟩ := ih (hl.same hset) hnext (by omega)
      refine ⟨s', hset.trans hs', ?_⟩
      rw [hform.take_truncated hnext]
      exact hfetch

/-- What stands before an issue, when nothing is pending and the fetch finds an instruction. -/
theorem prepareIssue_of_fetch {s s1 : State} {core slot len : Nat} {stalled : BitVec 10} {i : Instr} {iw : Word}
    (hctl : isControl core = false) (hask : scalarAsks s core slot stalled = true) (hst : (s.thread (tid core slot)).st = .ready)
    (hvf : (s.thread (tid core slot)).pendVF = []) (hrm : (s.thread (tid core slot)).pendRM = [])
    (hfetch : fetch s (tid core slot) = .instr s1 i len iw) :
    prepareIssue core slot stalled s =
      .run i { s1 with cur := tid core slot, npc := (s1.thread (tid core slot)).pc + word (2 * len), iw := iw } := by
  have htrap : pendingTrap s (tid core slot) = none := by
    simp only [pendingTrap, hvf, hrm, ite_self]
  simp only [prepareIssue, hctl, Bool.false_and, Bool.false_eq_true, if_false, hask, Bool.not_true, htrap, hst, ne_eq, not_true,
    hfetch]

/-! ## The step of an issue turn (R32, R117) -/

/-- What follows what came of a slot's instruction: the end of a debug step, and of the turn. -/
def afterIssue (core slot : Nat) (s0 : State) (r : Host.Outcome State Fault Refusal) : Host.Outcome State Fault Refusal :=
  match r with
  | .next t => .next (settledTurn (finishIssue core slot s0 t))
  | r => r

/-- A turn of a slot that may issue: nothing where another stream has the issue slot, and else what came of the instruction. -/
theorem step_of_attempt {s : State} {core slot : Nat} {stalled : BitVec 10} {rest : List Turn}
    {r : Host.Outcome State Fault Refusal} (hag : s.agenda = .issue core slot stalled :: rest) (hcore : core < numCores)
    (hslot : slot < slotsPerCore) (hr : attempt core slot stalled { s with agenda := rest } = r) :
    step s =
      if hasIssued core slot { s with agenda := rest } r && barred { s with agenda := rest } core slot stalled then
        .next (settledTurn { s with agenda := rest })
      else afterIssue core slot { s with agenda := rest } r := by
  simp only [step, nextTurn, hag, takeTurn, act, hcore, hslot, and_self, if_true, issueTurn, hr]
  split
  · rfl
  · cases r <;> rfl

theorem coreOf_tid {core slot : Nat} (h : slot < slotsPerCore) : coreOf (tid core slot) = core := by
  unfold slotsPerCore at h
  unfold coreOf tid
  omega

theorem slotOf_tid {core slot : Nat} (h : slot < slotsPerCore) : slotOf (tid core slot) = slot := by
  unfold slotsPerCore at h
  unfold slotOf tid
  omega

/-- The fetch of a slot of a gcore, at an instruction that stands in the core's only line (R124). -/
theorem fetch_of_line {s : State} {core slot : Nat} {l : ICLine} {i : Instr} (hslot : slot < slotsPerCore)
    (hctl : isControl core = false) (hl : OnlyLine s core (s.thread (tid core slot)).ctx l)
    (hline : l.line = lineOf (s.thread (tid core slot)).pc.toNat) (hwf : i.wellFormed = true) (hlater : laterKind i = false)
    (hne : encode i ≠ []) (hfit : (s.thread (tid core slot)).pc.toNat % 64 + 2 * (encode i).length ≤ 64)
    (hhalf : ∀ k < (encode i).length, (encode i).getD k 0 = l.half ((s.thread (tid core slot)).pc.toNat + 2 * k)) :
    ∃ s1, SameButCores s s1 ∧ fetch s (tid core slot) = .instr s1 i (encode i).length (firstWord (encode i)) := by
  obtain ⟨hform, hdec⟩ := instrForm_encode hwf hne hlater
  have hctx : s.ctxOf (tid core slot) = (s.thread (tid core slot)).ctx := by
    rw [State.ctxOf, coreOf_tid hslot, hctl]
    rfl
  rw [fetch, coreOf_tid hslot, slotOf_tid hslot, hctx]
  have hlen := hform.length_le
  exact fetchFrom_of_line (k := 0) hl hline hform hdec (BitVec.isLt _) hfit hhalf (List.length_pos_iff.2 hne) (by omega)

theorem prepareIssue_of_line {s : State} {core slot : Nat} {stalled : BitVec 10} {l : ICLine} {i : Instr}
    (hslot : slot < slotsPerCore) (hctl : isControl core = false) (hask : scalarAsks s core slot stalled = true)
    (hst : (s.thread (tid core slot)).st = .ready) (hvf : (s.thread (tid core slot)).pendVF = [])
    (hrm : (s.thread (tid core slot)).pendRM = []) (hl : OnlyLine s core (s.thread (tid core slot)).ctx l)
    (hline : l.line = lineOf (s.thread (tid core slot)).pc.toNat) (hwf : i.wellFormed = true) (hlater : laterKind i = false)
    (hne : encode i ≠ []) (hfit : (s.thread (tid core slot)).pc.toNat % 64 + 2 * (encode i).length ≤ 64)
    (hhalf : ∀ k < (encode i).length, (encode i).getD k 0 = l.half ((s.thread (tid core slot)).pc.toNat + 2 * k)) :
    ∃ s1, prepareIssue core slot stalled s = .run i s1 ∧ (∀ c, s1.core c = s.core c) ∧
      s1 = { s with cores := s1.cores, cur := tid core slot, iw := firstWord (encode i),
                    npc := (s.thread (tid core slot)).pc + word (2 * (encode i).length) } := by
  obtain ⟨t, ⟨hcores, ht⟩, hfetch⟩ := fetch_of_line hslot hctl hl hline hwf hlater hne hfit hhalf
  have hprep := prepareIssue_of_fetch hctl hask hst hvf hrm hfetch
  have hthread : t.thread (tid core slot) = s.thread (tid core slot) := by rw [ht]; rfl
  rw [hthread] at hprep
  refine ⟨_, hprep, hcores, ?_⟩
  rw [ht]

/-- Settles O4: the end of a turn settles, a turn attempts what was prepared, and the fetch prepares the instruction decoded. -/
theorem stepRunsDecoded : Obligations.StepRunsDecoded := by
  unfold Obligations.StepRunsDecoded
  refine ⟨fun t => ?_, fun t c j hj => ?_, ?_⟩
  · obtain ⟨hframe, hdie, hctx⟩ := Settles.settledTurn t
    exact ⟨hframe, hdie, fun c => (hctx c).1, fun c => (hctx c).2⟩
  · rw [State.job, noteStuck_ctx]
    exact freshStuck_job hj
  intro s core slot stalled rest hag hcore hslot x th s0 after
  refine ⟨fun i s1 h => step_of_attempt hag hcore hslot (by rw [attempt, h]),
    fun s1 h => step_of_attempt hag hcore hslot (by rw [attempt, h]), ?_⟩
  intro i l hctl hask hfree hready hvf hrm hicache hsound hctx hline hwf hlater hne hfit hhalf n
  obtain ⟨s1, hprep, hcores, hs1⟩ := prepareIssue_of_line (s := s0) hslot hctl hask hready hvf hrm ⟨hicache, hsound, hctx⟩
    hline hwf hlater hne hfit hhalf
  refine ⟨s1, ?_, hcores, hs1⟩
  rw [step_of_attempt hag hcore hslot (by rw [attempt, hprep]), hfree, Bool.and_false]
  rfl

end Sys2Proof.Machine

namespace Sys2Proof.Machine

open Sys2Proof

/-! ## Registers of a thread (spec/04_threads.md R85) -/

theorem Thread.rm_wm_other (th : Thread) {r q : BitVec 3} (x : Word) (h : q ≠ r) : (th.wm r x).rm_ q = th.rm_ q := by
  unfold Thread.wm
  split
  · rfl
  · have : r.toNat ≠ q.toNat := fun e => h (BitVec.eq_of_toNat_eq e.symm)
    simp [Thread.rm_, this]

/-- Settles O8: each register operation tests for g0 or m0 first, and otherwise touches one register. -/
theorem zeroRegisterHolds : Obligations.ZeroRegisterHolds := by
  unfold Obligations.ZeroRegisterHolds
  refine ⟨fun th => ⟨rfl, rfl, rfl, th.emptyG_zero, fun _ => rfl, fun _ => rfl⟩, fun s => ⟨?_, fun _ _ => rfl, fun _ => rfl⟩, ?_⟩
  · exact ⟨_, rfl, s.modTh_completed (fun th => th.emptyG 0) rfl⟩
  · intro th d r v m k x hd
    refine ⟨?_, ?_, th.rg_emptyG d r, ?_, fun hm => ?_⟩
    · split
      · next h => rw [h, th.rg_wg_same v hd]
      · next h => exact th.rg_wg_other v h
    · by_cases h : r = d
      · rw [h, th.fullG_wg_same]; simp
      · rw [th.fullG_wg_other v h]; simp [h]
    · by_cases h : r = d
      · rw [h, th.fullG_emptyG_same hd]; simp
      · rw [th.fullG_emptyG_other h]; simp [h]
    · split
      · next h => rw [h, th.rm_wm_same x hm]
      · next h => exact th.rm_wm_other x h

/-! ## Full bits and queues (R89-R91) -/

theorem State.readQueues_sound {s : State} (h : s.th.qEcc = .sound) (k : State → State) : s.readQueues k = k s := by
  rw [State.readQueues, h]

/-- `putG` then completion, after a change of the running thread that keeps its PC. -/
theorem State.modTh_putG_completed (s : State) (f : Thread → Thread) (hpc : (f s.th).pc = s.th.pc) (d : BitVec 5) (v : Word) :
    ∃ th, WritesG (f s.th) th d v ∧ Completed s ((s.modTh f).putG d v).advance th := by
  obtain ⟨th, hw, hc⟩ := (s.modTh f).putG_yields d v
  rw [State.modTh_same] at hw
  exact ⟨th, hw, hc.after hpc⟩

theorem execQpop_empty {s : State} {d a : BitVec 5} (h : s.th.queue (qIdx a) = []) :
    exec (.qpop d a) s = .next (s.park (.queue (qIdx a).toNat)) := by
  show execQpop d a s = _
  simp only [execQpop, h]

theorem execQpop_cons {s : State} {d a : BitVec 5} {x : Word} {rest : List Word} (h : s.th.queue (qIdx a) = x :: rest)
    (hs : s.th.qEcc = .sound) :
    exec (.qpop d a) s = .next ((s.modTh (fun th => th.setQueue (qIdx a) rest)).putG d x).advance := by
  show execQpop d a s = _
  simp only [execQpop, h, State.readQueues_sound hs]

theorem execQpush_full {s : State} {d a : BitVec 5} (h : FullAll s [a]) :
    exec (.qpush d a) s = .next (if 8 ≤ (s.th.queue (qIdx d)).length then s.park (.queue (qIdx d).toNat)
      else (s.modTh (fun th => th.setQueue (qIdx d) (th.queue (qIdx d) ++ [th.rg a]))).advance) :=
  congrArg Host.Outcome.next (State.withG_full h _)

/-- Settles O17: each operation is a write of the running thread that completes, or a park. -/
theorem fullBitsAndQueues : Obligations.FullBitsAndQueues := by
  unfold Obligations.FullBitsAndQueues
  refine ⟨fun s d a => ⟨⟨_, rfl, s.putG_yields d _⟩, ⟨_, rfl, s.modTh_completed _ (Thread.emptyG_pc _ _)⟩, fun hv => ⟨?_, ?_⟩⟩,
    fun s d a => ⟨fun hf => ⟨fun hroom => ?_, fun hfull => ?_⟩, fun x rest hq hs => ?_, execQpop_empty, ⟨_, rfl, s.putG_yields d _⟩⟩⟩
  · refine ⟨_, congrArg Host.Outcome.next (if_neg (by simp [hv])), s.putG_yields d _⟩
  · exact ⟨_, congrArg Host.Outcome.next (if_neg (by simp [hv])), s.modTh_completed _ (Thread.emptyV_pc _ _)⟩
  · exact ⟨_, by rw [execQpush_full hf, if_neg (by omega)], s.modTh_completed _ rfl⟩
  · rw [execQpush_full hf, if_pos hfull]; rfl
  · obtain ⟨th, hw, hc⟩ := s.modTh_putG_completed (fun th => th.setQueue (qIdx a) rest) rfl d x
    exact ⟨_, th, execQpop_cons hq hs, hw, hc⟩


/-! ## Instructions that read general registers first (R86) -/

/-- An instruction that begins by reading the general registers `rs`, and at most g0 beside them. -/
def ReadsFirst (i : Instr) (s : State) (rs : List (BitVec 5)) : Prop :=
  ∃ rs' k, exec i s = .next (s.withG rs' k) ∧ ∀ r, r ≠ 0 → (r ∈ rs' ↔ r ∈ rs)

theorem ReadsFirst.intro {i : Instr} {s : State} {rs rs' : List (BitVec 5)} {k : State → State}
    (h : exec i s = .next (s.withG rs' k)) (hrs : ∀ r, r ≠ 0 → (r ∈ rs' ↔ r ∈ rs)) : ReadsFirst i s rs := ⟨rs', k, h, hrs⟩

/-- The same of an instruction that first checks whether it may run. -/
theorem ReadsFirst.of_eq {i : Instr} {s : State} {rs : List (BitVec 5)} {k : State → State} {t : State}
    (h : exec i s = .next t) (ht : t = s.withG rs k) : ReadsFirst i s rs := ⟨rs, k, ht ▸ h, fun _ _ => Iff.rfl⟩

theorem gReaders_readFirst (s : State) (d a b : BitVec 5) (imm : Word) (sh c : BitVec 6) (k : BitVec 5) (j : BitVec 6) :
    ∀ p ∈ gReaders d a b imm sh c k j, ReadsFirst p.1 s p.2 := by
  simp only [gReaders, List.forall_mem_append, List.forall_mem_map, List.forall_mem_cons, List.not_mem_nil, false_imp_iff,
    implies_true, and_true]
  and_intros
  all_goals exact .intro rfl (by simp +contextual [regRange])

theorem sfence_readFirst {s : State} (h : s.th.mode ≠ .u) (a : BitVec 5) :
    ∀ i ∈ [Instr.sfenceVPage a, .sfenceVContext a, .sfenceVAll a, .sfenceVPublish a], ReadsFirst i s [a] := by
  simp only [List.forall_mem_cons, List.not_mem_nil, false_imp_iff, implies_true, and_true]
  and_intros
  all_goals exact .of_eq rfl (if_neg h)

theorem injectReport_readFirst {s : State} (h : s.th.mode = .m) (a : BitVec 5) :
    ∀ i ∈ [Instr.inject a, .report a], ReadsFirst i s [a] := by
  simp only [List.forall_mem_cons, List.not_mem_nil, false_imp_iff, implies_true, and_true]
  exact ⟨.of_eq rfl (if_neg (not_not.2 h)), .of_eq rfl (if_neg (not_not.2 h))⟩

theorem sysw_readFirst {s : State} {n : BitVec 11} {r w : Mode} (h : sysModes n.toNat = some (r, some w))
    (hm : ¬ s.th.mode.code < w.code) (a : BitVec 5) : ReadsFirst (.sysw n a) s [a] := by
  apply ReadsFirst.of_eq rfl
  rw [sysw, h]
  exact if_neg hm

theorem ampForm_eq {dbl : Bool} {s : State} (h : (dbl && !(s.die s.curDie).capAmp64) = false) (k : State → State) :
    ampForm dbl s k = k s := if_neg (by simp [h])

/-- The amplitude instructions of a form the die has. -/
theorem amp_readFirst (s : State) (d a b : BitVec 5) :
    (∀ p ∈ [(Instr.qgate d a b, [a, b, b + 1]), (.qgateAuto d a b, [a, b, b + 1]), (.qswap d a, [a]), (.qprob d a, [a]),
      (.qsamp d a, [a])], ReadsFirst p.1 s p.2) ∧
    ((s.die s.curDie).capAmp64 = true → ∀ p ∈ [(Instr.qgateD d a b, [a, b, b + 1]), (.qgateAutoD d a b, [a, b, b + 1]),
      (.qswapD d a, [a]), (.qprobD d a, [a]), (.qsampD d a, [a])], ReadsFirst p.1 s p.2) := by
  simp only [List.forall_mem_cons, List.not_mem_nil, false_imp_iff, implies_true, and_true]
  refine ⟨?_, fun hc => ?_⟩ <;> and_intros
  all_goals exact .of_eq rfl (ampForm_eq (by simp [*]) _)

theorem gReadersChecked_readFirst (s : State) (d a b : BitVec 5) (n : BitVec 11) :
    ∀ p ∈ gReadersChecked s d a b n, ReadsFirst p.1 s p.2 := by
  simp only [gReadersChecked, List.forall_mem_append]
  refine ⟨⟨⟨⟨?_, ?_⟩, ?_⟩, (amp_readFirst s d a b).1⟩, ?_⟩
  · split
    · simp
    · next h => exact List.forall_mem_map.2 (sfence_readFirst h a)
  · split
    · next h => exact List.forall_mem_map.2 (injectReport_readFirst h a)
    · simp
  · split
    · next r w h =>
      split
      · simp
      · next hm => simpa using sysw_readFirst h hm a
    · simp
  · split
    · next h => exact (amp_readFirst s d a b).2 h
    · simp

/-! ## Parking on empty sources, and the trap of an unfilled RAMO result (R86, R290) -/

theorem gMask_getLsbD (rs : List (BitVec 5)) {n : Nat} (hn : n < 64) :
    (gMask rs).getLsbD n = true ↔ ∃ r ∈ rs, r ≠ 0 ∧ r.toNat = n := by
  have gen : ∀ (rs : List (BitVec 5)) (m : BitVec 64),
      (rs.foldl (fun m r => if r = 0 then m else m ||| BitVec.ofNat 64 (2 ^ r.toNat)) m).getLsbD n = true ↔
        m.getLsbD n = true ∨ ∃ r ∈ rs, r ≠ 0 ∧ r.toNat = n := by
    intro rs
    induction rs with
    | nil => simp
    | cons r rs ih =>
      intro m
      rw [List.foldl_cons, ih]
      by_cases hr : r = 0
      · simp [hr]
      · have hbit : (BitVec.ofNat 64 (2 ^ r.toNat)).getLsbD n = decide (r.toNat = n) := by
          rw [BitVec.getLsbD_ofNat, Nat.testBit_two_pow]; simp [hn]
        rw [if_neg hr, BitVec.getLsbD_or, hbit]
        simp [show ¬ r = 0#5 from hr, or_assoc]
  rw [gMask, gen]
  simp

theorem Thread.ne_zero_of_empty {th : Thread} {r : BitVec 5} (h : th.fullG r = false) : r ≠ 0 := by
  rintro rfl
  exact absurd h (by simp [Thread.fullG])

/-- An unfilled RAMO result in the one empty register is reported by its number. -/
theorem State.withG_ramo {s : State} {rs : List (BitVec 5)} {r : BitVec 5} (hr : r ∈ rs) (he : s.th.fullG r = false)
    (hramo : s.th.ramo.getLsbD r.toNat = true) (hone : ∀ q ∈ rs, s.th.fullG q = false → q = r) (k : State → State) :
    s.withG rs k = s.raise 8 (word r.toNat) false := by
  have hfind : rs.find? (fun r => !s.th.fullG r && s.th.ramo.getLsbD r.toNat) = some r := by
    cases hf : rs.find? (fun r => !s.th.fullG r && s.th.ramo.getLsbD r.toNat) with
    | none => exact absurd (List.find?_eq_none.1 hf r hr) (by simp [he, hramo])
    | some q =>
      have hq := List.find?_some hf
      rw [Bool.and_eq_true, Bool.not_eq_true'] at hq
      rw [hone q (List.mem_of_find?_eq_some hf) hq.1]
  simp only [State.withG, hfind]

/-- Settles O16: every listed instruction begins with one and the same reading of its registers. -/
theorem emptySourcesPark : Obligations.EmptySourcesPark := by
  unfold Obligations.EmptySourcesPark
  intro s d a b imm sh c k j n p hp hempty
  obtain ⟨rs, go, hexec, hrs⟩ : ReadsFirst p.1 s p.2 :=
    (List.mem_append.1 hp).elim (gReaders_readFirst s d a b imm sh c k j p) (gReadersChecked_readFirst s d a b n p)
  have hmem : ∀ r, s.th.fullG r = false → (r ∈ rs ↔ r ∈ p.2) := fun r h => hrs r (Thread.ne_zero_of_empty h)
  refine ⟨fun hramo => ?_, fun r hr he hramo hone htakes => ?_⟩
  · have hpark : s.withG rs go = _ := State.withG_parks (hempty.imp fun r h => ⟨(hmem r h.2).2 h.1, h.2⟩)
      (fun r hr => (Bool.eq_false_or_eq_true (s.th.fullG r)).imp_right fun h =>
        (hramo r ((hmem r h).1 hr)).resolve_left (by simp [h])) go
    refine ⟨_, _, hexec.trans (congrArg _ hpark), rfl, fun u hu => State.modTh_other s _ hu, State.modTh_same s _, fun n hn => ?_⟩
    rw [gMask_getLsbD _ hn]
    constructor
    · rintro ⟨r, hr, -, rfl⟩
      have he : s.th.fullG r = false := by simpa using (List.mem_filter.1 hr).2
      exact ⟨r, (hmem r he).1 (List.mem_filter.1 hr).1, rfl, he⟩
    · rintro ⟨r, hr, rfl, he⟩
      exact ⟨r, List.mem_filter.2 ⟨(hmem r he).2 hr, by simp [he]⟩, Thread.ne_zero_of_empty he, rfl⟩
  · refine traps_of htakes (hexec.trans (congrArg _ ?_))
    exact State.withG_ramo ((hmem r he).2 hr) he hramo (fun q hq hqe => hone q ((hmem q hqe).1 hq) hqe) go

end Sys2Proof.Machine

namespace Sys2Proof.Machine

open Sys2Proof

/-! ## Entering the Ready state (spec/16_harvest.md R409, spec/20_accounting.md R470) -/

/-- Beside one thread and the record of a wake event, nothing changed. -/
def WakeOnly (s t : State) (x : Nat) : Prop :=
  t = { s with threads := t.threads, cores := t.cores, ctxs := t.ctxs, mem := t.mem, dies := t.dies } ∧
  (∀ u, u ≠ x → t.thread u = s.thread u) ∧ ∀ d, t.die d = { s.die d with undos := (t.die d).undos }

/-- A thread that enters the Ready state, or the stopped one between the steps of a halted launch. -/
def readied (s : State) (x : Nat) : Thread :=
  { s.thread x with st := if betweenSteps s x then .halted else .ready, wait := .none }

/-- The core of an owner slot that becomes Ready is recalled. -/
def recalledCore (s : State) (x : Nat) : Core :=
  if slotOf x < 8 ∧ isControl (coreOf x) = false ∧ betweenSteps s x = false then
    { s.core (coreOf x) with recalled := true, idleCy := 0, wakeCy := some s.cy }
  else s.core (coreOf x)

theorem TraceOnly.thread {s t : State} (h : TraceOnly s t) (x : Nat) : t.thread x = s.thread x := by
  unfold State.thread; rw [h.1]

theorem TraceOnly.core {s t : State} (h : TraceOnly s t) (c : Nat) : t.core c = s.core c := by
  unfold State.core; rw [h.1]

theorem TraceOnly.count (s : State) (ctx idx n : Nat) : TraceOnly s (s.count ctx idx n) := ⟨rfl, fun _ => rfl⟩

theorem State.setCore_core (s : State) (k : Nat) (x : Core) (j : Nat) :
    (s.setCore k x).core j = if j = k then x else s.core j := by
  split
  · next h => rw [h, State.setCore_same]
  · next h => exact State.setCore_other s x h

/-- The record of a wake event, which a seated sash bank calls for. -/
def wakeNote (s : State) (hold : Option Nat) (die ctx : Nat) (who : BitVec 32) : State :=
  (match hold with
    | some x => s.count x 35 1
    | none => s).trace die ctx 9 who (word who.toNat)

theorem wakeNote_traceOnly (s : State) (hold : Option Nat) (die ctx : Nat) (who : BitVec 32) :
    TraceOnly s (wakeNote s hold die ctx who) := by
  cases hold with
  | none => exact State.trace_only ..
  | some x => exact (TraceOnly.count ..).trans (State.trace_only ..)

/-- The state of a readied thread, before the record of the wake event. -/
def wokenState (s : State) (x : Nat) : State :=
  (s.setThread x (readied s x)).setCore (coreOf x) (recalledCore s x)

theorem bankSeated_setThread {s : State} {x : Nat} (h : slotOf x < 8) (th : Thread) :
    bankSeated (s.setThread x th) (coreOf x) = bankSeated s (coreOf x) := by
  have hne : ∀ k, 8 ≤ k → tid (coreOf x) k ≠ x := fun k hk e => by
    unfold slotOf at h
    unfold tid coreOf at e
    omega
  rw [bankSeated, bankSeated, State.setThread_other s th (hne 8 (by omega)), State.setThread_other s th (hne 9 (by omega))]

/-- What entering the Ready state from another does. -/
theorem State.ready_cases {s : State} {x : Nat} (h : (s.thread x).st ≠ .ready) :
    s.ready x = s.setThread x (readied s x) ∧ recalledCore s x = s.core (coreOf x) ∨
    s.ready x = wokenState s x ∨
    bankSeated s (coreOf x) = true ∧ ∃ hold die ctx who, s.ready x = wakeNote (wokenState s x) hold die ctx who := by
  rw [State.ready]
  dsimp only
  rw [if_neg h]
  by_cases hb : betweenSteps s x = true
  · rw [if_pos hb]
    refine .inl ⟨?_, if_neg (by simp [hb])⟩
    rw [readied, if_pos hb]
  have hth : readied s x = { s.thread x with st := .ready, wait := .none } := by rw [readied, if_neg hb]
  rw [if_neg hb, ← hth]
  by_cases hs : (slotOf x < 8 && !isControl (coreOf x)) = true
  · have hs' : slotOf x < 8 ∧ isControl (coreOf x) = false := by simpa using hs
    have hcore : recalledCore s x = { s.core (coreOf x) with recalled := true, idleCy := 0, wakeCy := some s.cy } :=
      if_pos ⟨hs'.1, hs'.2, by simpa using hb⟩
    rw [if_pos hs]
    split
    · next hk =>
      refine .inr (.inr ⟨?_, ?_⟩)
      · rw [Bool.and_eq_true] at hk
        rw [← bankSeated_setThread hs'.1 (readied s x)]
        exact hk.1
      · rw [wokenState, hcore]
        exact ⟨_, _, _, _, rfl⟩
    · refine .inr (.inl ?_)
      rw [wokenState, hcore]
      rfl
  · rw [if_neg hs]
    refine .inl ⟨rfl, if_neg fun h' => hs ?_⟩
    simp [h'.1, h'.2.1]

/-- What entering the Ready state from another does. -/
theorem State.ready_spec {s : State} {x : Nat} (h : (s.thread x).st ≠ .ready) :
    WakeOnly s (s.ready x) x ∧ (s.ready x).thread x = readied s x ∧
    (∀ c, (s.ready x).core c = if c = coreOf x then recalledCore s x else s.core c) ∧
    (bankSeated s (coreOf x) = false → s.ready x = { s with threads := (s.ready x).threads, cores := (s.ready x).cores }) := by
  have hwoken : WakeOnly s (wokenState s x) x := ⟨rfl, fun u hu => State.setThread_other s _ hu, fun _ => rfl⟩
  rcases State.ready_cases h with ⟨he, hc⟩ | he | ⟨hb, hold, die, ctx, who, he⟩ <;> rw [he]
  · refine ⟨⟨rfl, fun u hu => State.setThread_other s _ hu, fun _ => rfl⟩, State.setThread_same .., fun c => ?_, fun _ => rfl⟩
    split
    · next e => rw [e, hc]; rfl
    · rfl
  · exact ⟨hwoken, State.setThread_same .., State.setCore_core _ _ _, fun _ => rfl⟩
  · have hT := wakeNote_traceOnly (wokenState s x) hold die ctx who
    refine ⟨⟨?_, fun u hu => ?_, fun d => ?_⟩, ?_, fun c => ?_, fun hn => absurd hb (by simp [hn])⟩
    · rw [hT.1]; rfl
    · rw [hT.thread]; exact hwoken.2.1 u hu
    · rw [hT.2]; rfl
    · rw [hT.thread]; exact State.setThread_same ..
    · rw [hT.core]; exact State.setCore_core _ _ _ c

end Sys2Proof.Machine

namespace Sys2Proof.Machine

open Sys2Proof

/-! ## Registers received at a start (spec/04_threads.md R84, R95, R96) -/

/-- The registers that a starting thread receives, written one after another. -/
def Thread.receive (th : Thread) (regs : List (BitVec 5 × Word)) : Thread := regs.foldl (fun th r => th.wg r.1 r.2) th

theorem Thread.receive_append (th : Thread) (l l' : List (BitVec 5 × Word)) :
    th.receive (l ++ l') = (th.receive l).receive l' := List.foldl_append ..

/-- Receiving registers changes the general registers alone. -/
theorem Thread.receive_only (th : Thread) (l : List (BitVec 5 × Word)) :
    ∃ g full ecc, th.receive l = { th with g := g, gFull := full, regEcc := ecc } := by
  induction l generalizing th with
  | nil => exact ⟨_, _, _, rfl⟩
  | cons e l ih =>
    obtain ⟨g, full, ecc, h⟩ := ih (th.wg e.1 e.2)
    have hwg : th.wg e.1 e.2 = { th with g := (th.wg e.1 e.2).g, gFull := (th.wg e.1 e.2).gFull, regEcc := (th.wg e.1 e.2).regEcc } := by
      unfold Thread.wg
      split <;> rfl
    exact ⟨g, full, ecc, h.trans (by rw [hwg])⟩

theorem Thread.fullG_receive {th : Thread} {r : BitVec 5} (h : th.fullG r = true) (l : List (BitVec 5 × Word)) :
    (th.receive l).fullG r = true := by
  induction l generalizing th with
  | nil => exact h
  | cons e l ih =>
    refine ih ?_
    by_cases hr : r = e.1
    · rw [hr, Thread.fullG_wg_same]
    · rw [Thread.fullG_wg_other _ _ hr, h]

theorem Thread.rg_wg (th : Thread) (d : BitVec 5) (v : Word) (r : BitVec 5) :
    (th.wg d v).rg r = if r = d ∧ r ≠ 0 then v else th.rg r := by
  by_cases hr : r = d
  · subst hr
    by_cases h0 : r = 0
    · rw [h0]; rfl
    · rw [Thread.rg_wg_same _ _ h0, if_pos ⟨rfl, h0⟩]
  · rw [Thread.rg_wg_other _ _ hr, if_neg fun h => hr h.1]

/-- Consecutive registers from `d` on. -/
theorem Thread.rg_receive_range (th : Thread) (d n : Nat) (f : Nat → Word) (h : d + n ≤ 32) (r : BitVec 5) (h0 : r ≠ 0) :
    (th.receive ((List.range n).map (fun k => (BitVec.ofNat 5 (d + k), f k)))).rg r =
      if d ≤ r.toNat ∧ r.toNat < d + n then f (r.toNat - d) else th.rg r := by
  induction n with
  | zero => rw [if_neg (by omega)]; rfl
  | succ n ih =>
    have hlast : r = BitVec.ofNat 5 (d + n) ↔ r.toNat = d + n := by
      rw [← BitVec.toNat_inj, BitVec.toNat_ofNat, Nat.mod_eq_of_lt (by omega)]
    rw [List.range_succ, List.map_append, Thread.receive_append]
    show ((Thread.receive _ _).wg _ _).rg r = _
    rw [Thread.rg_wg, ih (by omega)]
    by_cases he : r.toNat = d + n
    · rw [if_pos ⟨hlast.2 he, h0⟩, if_pos (by omega), he, Nat.add_sub_cancel_left]
    · rw [if_neg fun h => he (hlast.1 h.1)]
      congr 1
      exact propext (by omega)

/-- What a SPAWN's child receives. -/
theorem Thread.rg_receive_copied {th : Thread} (hth : ∀ r, th.rg r = 0) (d n : Nat) (f : Nat → Word) (h : d + n ≤ 32)
    (r : BitVec 5) : (th.receive ((List.range n).map (fun k => (BitVec.ofNat 5 (d + k), f k)))).rg r =
      if r = 0 then 0 else copied d ((List.range n).map f) r := by
  split
  · next h0 => rw [h0, Thread.rg_zero]
  · next h0 =>
    rw [Thread.rg_receive_range th d n f h r h0, copied, hth, List.length_map, List.length_range]
    split
    · next hr => rw [List.getD_eq_getElem _ _ (by simp; omega)]; simp
    · rfl

/-- What a message's routine receives. -/
theorem Thread.rg_receive_payload {th : Thread} (hth : ∀ r, th.rg r = 0) {count : Nat} (hc : count ≤ 8) (payload : List Word)
    (sender : Word) (r : BitVec 5) : (th.receive (payloadRegs count payload sender)).rg r =
      if r = 0 then 0 else if r = 31 then sender else
        if 1 ≤ r.toNat ∧ r.toNat ≤ count then payload.getD (r.toNat - 1) 0 else 0 := by
  have hregs : payloadRegs count payload sender =
      (List.range count).map (fun k => (BitVec.ofNat 5 (1 + k), payload.getD k 0)) ++ [((31 : BitVec 5), sender)] := by
    simp only [payloadRegs, Nat.add_comm]
  split
  · next h0 => rw [h0, Thread.rg_zero]
  · next h0 =>
    rw [hregs, Thread.receive_append]
    show ((Thread.receive _ _).wg 31 sender).rg r = _
    rw [Thread.rg_wg, Thread.rg_receive_range th 1 count _ (by omega) r h0, hth]
    by_cases h31 : r = 31
    · rw [if_pos ⟨h31, h0⟩, if_pos h31]
    · rw [if_neg fun h => h31 h.1, if_neg h31]
      congr 1
      exact propext (by omega)

/-! ## The registers of a slot without a thread (R84) -/

theorem Thread.reset_rg (r : BitVec 5) : Thread.reset.rg r = 0 := by
  simp [Thread.rg, Thread.reset]

theorem Thread.reset_fullG (r : BitVec 5) : Thread.reset.fullG r = true := by
  show (decide (r = 0) || (BitVec.allOnes 32).getLsbD r.toNat) = true
  simp only [BitVec.getLsbD_allOnes, r.isLt, decide_true, Bool.or_true]

theorem Thread.reset_rv (r : BitVec 5) : Thread.reset.rv r = 0 := by
  simp [Thread.rv, Thread.reset]

theorem Thread.reset_fullV (r : BitVec 5) : Thread.reset.fullV r = true := by
  show (BitVec.allOnes 32).getLsbD r.toNat = true
  simp only [BitVec.getLsbD_allOnes, r.isLt, decide_true]

theorem Thread.reset_rm (r : BitVec 3) : Thread.reset.rm_ r = if r = 0 then BitVec.allOnes 64 else 0 := by
  unfold Thread.rm_
  split
  · rfl
  · next h =>
    have : (0 : Nat) ≠ r.toNat := fun e => h (BitVec.eq_of_toNat_eq e.symm)
    simp [Thread.reset, this]

theorem Thread.reset_queue (q : BitVec 2) : Thread.reset.queue q = [] := by
  simp [Thread.queue, Thread.reset]

/-! ## A thread starts (R84, R64) -/

/-- Beside threads, cores, memory, dies and contexts, nothing changed. -/
def StartOnly (s t : State) : Prop :=
  t = { s with threads := t.threads, cores := t.cores, ctxs := t.ctxs, mem := t.mem, dies := t.dies }

theorem StartOnly.trans {s t u : State} (h : StartOnly s t) (h' : StartOnly t u) : StartOnly s u := by
  unfold StartOnly at *
  rw [h', h]

theorem TraceOnly.startOnly {s t : State} (h : TraceOnly s t) : StartOnly s t := by
  unfold StartOnly
  rw [h.1]

theorem noteReceived_eq (s : State) (ctx : Nat) (fresh : Bool) :
    noteReceived s ctx fresh = { s with ctxs := (noteReceived s ctx fresh).ctxs } := by
  unfold noteReceived
  split <;> rfl

/-- A thread starts in a slot, and nothing but threads, cores, memory, dies and contexts changed. -/
structure Starts (s t : State) (ctx core slot : Nat) (pc : Word) (regs : BitVec 5 → Word) : Prop where
  started : Started s t ctx core slot pc regs
  only : StartOnly s t

/-- `startThread` starts a thread with the registers that it receives, and changes no other slot. -/
theorem startThread_starts (s : State) (core slot ctx : Nat) (pc : Word) (l : List (BitVec 5 × Word)) {regs : BitVec 5 → Word}
    (hregs : ∀ th : Thread, (∀ r, th.rg r = 0) → ∀ r, (th.receive l).rg r = if r = 0 then 0 else regs r) :
    Starts s (startThread s core slot ctx pc l) ctx core slot pc regs := by
  let x := tid core slot
  let fresh : Thread := { freshThread s core slot ctx pc with startNs := some s.time }
  let th := fresh.receive l
  let seated := s.setThread x th
  have hrg : ∀ r, th.rg r = if r = 0 then 0 else regs r := hregs fresh Thread.reset_rg
  have hfull : ∀ r, th.fullG r = true := fun r => Thread.fullG_receive (th := fresh) (Thread.reset_fullG r) l
  obtain ⟨g, full, ecc, hth⟩ : ∃ g full ecc, th = { fresh with g := g, gFull := full, regEcc := ecc } := fresh.receive_only l
  have hseat : seated.thread x = th := s.setThread_same x th
  have hidle : (seated.thread x).st ≠ .ready := by rw [hseat, hth]; exact nofun
  obtain ⟨⟨honly, hothers, -⟩, hready, -, -⟩ := State.ready_spec hidle
  have htrace : TraceOnly (seated.ready x) (startThread s core slot ctx pc l) := State.trace_only ..
  refine ⟨?_, StartOnly.trans (t := seated.ready x) (by unfold StartOnly; rw [honly]; rfl) htrace.startOnly⟩
  rw [readied, hseat] at hready
  unfold Started
  dsimp only
  rw [htrace.thread, hready]
  have hv : ∀ r, th.rv r = 0 ∧ th.fullV r = true := by rw [hth]; exact fun r => ⟨Thread.reset_rv r, Thread.reset_fullV r⟩
  have hm : ∀ r, th.rm_ r = if r = 0 then BitVec.allOnes 64 else 0 := by rw [hth]; exact Thread.reset_rm
  have hq : ∀ q, th.queue q = [] := by rw [hth]; exact Thread.reset_queue
  refine ⟨by split <;> simp, by rw [hth]; rfl, by rw [hth]; rfl, by rw [hth]; rfl, hrg, hfull, hv, hm, hq, by rw [hth]; rfl,
    by rw [hth]; rfl, by rw [hth]; rfl, by rw [hth]; rfl, fun u hu => ?_⟩
  rw [htrace.thread, hothers u hu]
  exact s.setThread_other th hu

/-- A start after an act that leaves the threads and the module's number. -/
theorem started_of_before {s s' t : State} {ctx core slot : Nat} {pc : Word} {regs : BitVec 5 → Word}
    (h : Started s' t ctx core slot pc regs) (hthreads : ∀ u, s'.thread u = s.thread u) (hmod : s'.modnum = s.modnum) :
    Started s t ctx core slot pc regs := by
  obtain ⟨h1, h2, h3, h4, h5, h6, h7, h8, h9, h10, h11, h12, h13, hothers⟩ := h
  rw [identity, hmod] at h13
  exact ⟨h1, h2, h3, h4, h5, h6, h7, h8, h9, h10, h11, h12, h13, fun u hu => (hothers u hu).trans (hthreads u)⟩

/-- An act after the start that changes contexts alone. -/
theorem Starts.then_ctxs {s t t' : State} {ctx core slot : Nat} {pc : Word} {regs : BitVec 5 → Word}
    (h : Starts s t ctx core slot pc regs) (he : t' = { t with ctxs := t'.ctxs }) : Starts s t' ctx core slot pc regs := by
  obtain ⟨hstart, honly⟩ := h
  have hthread : ∀ u, t'.thread u = t.thread u := fun u => by rw [he]; rfl
  refine ⟨?_, ?_⟩
  · unfold Started at *
    simpa only [hthread] using hstart
  · unfold StartOnly at *
    rw [he, honly]

theorem Starts.noteReceived {s t : State} {ctx core slot : Nat} {pc : Word} {regs : BitVec 5 → Word}
    (h : Starts s t ctx core slot pc regs) (c : Nat) (fresh : Bool) : Starts s (noteReceived t c fresh) ctx core slot pc regs :=
  h.then_ctxs (noteReceived_eq t c fresh)

end Sys2Proof.Machine

namespace Sys2Proof.Machine

open Sys2Proof

/-! ## What starts a thread (R95, R96, R102) -/

theorem execSpawnStart_eq {s : State} {op : Nat} {o : SpawnOp} (h : s.starts.find? (fun x => x.id = op) = some o) :
    exec (.spawnStart op) s = .next (noteReceived (startThread { s with starts := s.starts.filter (fun x => x.id ≠ op) } o.core o.slot
      o.ctx o.pc ((List.range o.image.length).map (fun k => (BitVec.ofNat 5 (o.d + k), o.image.getD k 0)))) o.ctx true) := by
  show execSpawnStart op s = _
  simp only [execSpawnStart, h]

theorem range_map_getD (l : List Word) : (List.range l.length).map (fun k => l.getD k 0) = l := by
  refine List.ext_getElem (by simp) fun i hi hl => ?_
  simp [hl]

/-- A started child has the registers that its SPAWN copied. -/
theorem startThread_copied (s : State) (core slot ctx : Nat) (pc : Word) (d n : Nat) (f : Nat → Word) (h : d + n ≤ 32) :
    Starts s (startThread s core slot ctx pc ((List.range n).map (fun k => (BitVec.ofNat 5 (d + k), f k)))) ctx core slot pc
      (copied d ((List.range n).map f)) :=
  startThread_starts s core slot ctx pc _ fun _ hth r => Thread.rg_receive_copied hth d n f h r

/-- A message's routine finds its payload and its sender. -/
theorem startThread_payload (s : State) (core slot ctx : Nat) (pc : Word) {count : Nat} (h : count ≤ 8) (payload : List Word)
    (sender : Word) :
    Starts s (startThread s core slot ctx pc (payloadRegs count payload sender)) ctx core slot pc (fun r => if r = 31 then sender
      else if 1 ≤ r.toNat ∧ r.toNat ≤ count then payload.getD (r.toNat - 1) 0 else 0) :=
  startThread_starts s core slot ctx pc _ fun _ hth r => Thread.rg_receive_payload hth h payload sender r

theorem spawnStart_started {s : State} {op : Nat} {o : SpawnOp} (h : s.starts.find? (fun x => x.id = op) = some o)
    (hd : o.d + o.image.length ≤ 32) :
    ∃ t, exec (.spawnStart op) s = .next t ∧ Started s t o.ctx o.core o.slot o.pc (copied o.d o.image) ∧
      t.starts = s.starts.filter (fun x => x.id ≠ op) := by
  have hstarts := (startThread_copied { s with starts := s.starts.filter (fun x => x.id ≠ op) } o.core o.slot o.ctx o.pc o.d
    o.image.length (fun k => o.image.getD k 0) hd).noteReceived o.ctx true
  rw [range_map_getD] at hstarts
  refine ⟨_, execSpawnStart_eq h, started_of_before hstarts.started (fun _ => rfl) rfl, ?_⟩
  rw [hstarts.only]

/-! ### Messages (R96, R102, R103) -/

/-- The state in which a message is taken off its way. -/
def sentAway (s : State) (op : Nat) : State := { s with sends := s.sends.filter (fun x => x.id ≠ op) }

/-- A message is delivered at once where its class is absent, a slot is open or another message is held before it, and where no line of
the queue must be waited for. -/
theorem execDeliver_eq {s : State} {op : Nat} {o : SendOp} (h : s.sends.find? (fun x => x.id = op) = some o)
    (hgo : badClass (classEntry s o.msg.ctx o.msg.cls) = true ∨ (findSlot s o.msg.ctx o.msg.place.toNat).isSome = true ∨
      (s.cluster (clusterOf (wfld o.msg.place 0 13))).held.any (fun h => h.ctx = o.msg.ctx) = true ∨
      QueueFree s o.msg.ctx (clusterOf (wfld o.msg.place 0 13))) :
    exec (.deliver op) s = .next (deliver (sentAway s op) o.msg) := by
  show execDeliver op s = _
  simp only [execDeliver, h]
  by_cases hc : (badClass (classEntry s o.msg.ctx o.msg.cls) || (findSlot s o.msg.ctx o.msg.place.toNat).isSome ||
      (s.cluster (clusterOf (wfld o.msg.place 0 13))).held.any (fun h => h.ctx = o.msg.ctx)) = true
  · rw [if_pos hc]; rfl
  · rw [if_neg hc]
    simp only [Bool.or_eq_true, not_or] at hc
    obtain ⟨hw, hm, hq⟩ := ((hgo.resolve_left hc.1.1).resolve_left hc.1.2).resolve_left hc.2
    rw [State.withQueue_free hw hm hq]
    rfl

theorem deliver_bad {s : State} {m : Message} (h : badClass (classEntry s m.ctx m.cls) = true) : deliver s m = dropMessage s m :=
  if_pos h

theorem deliver_slot {s : State} {m : Message} {c k : Nat} (h : badClass (classEntry s m.ctx m.cls) = false)
    (hs : findSlot s m.ctx m.place.toNat = some (c, k)) :
    deliver s m = noteReceived (startThread s c k m.ctx (classEntry s m.ctx m.cls).1
      (payloadRegs (classEntry s m.ctx m.cls).2 m.payload (m.sender.setWidth 64))) m.ctx m.fresh := by
  simp only [deliver, h, hs, Bool.false_eq_true, if_false]

/-- The state in which a message is held (R102). -/
def holding (s : State) (m : Message) : State :=
  s.modCluster (clusterOf (wfld m.place 0 13)) (fun c => { c with held := c.held ++ [m] })

/-- A message that finds no slot is held behind another of its context. -/
theorem deliver_held {s : State} {m : Message} (h : badClass (classEntry s m.ctx m.cls) = false)
    (hs : findSlot s m.ctx m.place.toNat = none)
    (hh : (s.cluster (clusterOf (wfld m.place 0 13))).held.any (fun h => h.ctx = m.ctx) = true) : deliver s m = holding s m := by
  simp only [deliver, h, hs, hh, Bool.false_eq_true, if_false, if_true]
  rfl

/-- Where none is held it is enqueued, -/
theorem deliver_queued {s v : State} {m : Message} (h : badClass (classEntry s m.ctx m.cls) = false)
    (hs : findSlot s m.ctx m.place.toNat = none)
    (hh : (s.cluster (clusterOf (wfld m.place 0 13))).held.any (fun h => h.ctx = m.ctx) = false)
    (hq : enqueue s m.ctx (clusterOf (wfld m.place 0 13)) (messageTask s m) = .queued v) :
    deliver s m = noteReceived v m.ctx m.fresh := by
  simp only [deliver, h, hs, hh, hq, Bool.false_eq_true, if_false]

/-- and held where the queue has no room. -/
theorem deliver_full {s : State} {m : Message} (h : badClass (classEntry s m.ctx m.cls) = false)
    (hs : findSlot s m.ctx m.place.toNat = none)
    (hh : (s.cluster (clusterOf (wfld m.place 0 13))).held.any (fun h => h.ctx = m.ctx) = false)
    (hq : enqueue s m.ctx (clusterOf (wfld m.place 0 13)) (messageTask s m) = .full) : deliver s m = holding s m := by
  simp only [deliver, h, hs, hh, hq, Bool.false_eq_true, if_false]
  rfl

theorem enqueue_full {s : State} {ctx cluster : Nat} {words : List Nat}
    (h : taskQueue s ctx cluster = none ∨ ∃ q, taskQueue s ctx cluster = some q ∧ q.cap ≤ q.count) :
    enqueue s ctx cluster words = .full := by
  rcases h with h | ⟨q, h, hfull⟩
  · simp only [enqueue, h]
  · simp only [enqueue, h, hfull, if_true]

/-- A dropped message is counted in TQDROP. -/
theorem dropMessage_spec (s : State) (m : Message) : (dropMessage s m).threads = s.threads ∧ (dropMessage s m).sends = s.sends ∧
    Table.get 0 ((dropMessage s m).ctx m.ctx).run 42 = min (Table.get 0 (s.ctx m.ctx).run 42 + 1) (2 ^ 64 - 1) := by
  have hrun : ((dropMessage s m).ctx m.ctx).run = ((s.count m.ctx 42 1).ctx m.ctx).run := by
    unfold dropMessage noteReceived
    split
    · rw [State.modJob, State.modCtx_same]
    · rfl
  refine ⟨?_, ?_, ?_⟩
  · rw [dropMessage, noteReceived_eq]; rfl
  · rw [dropMessage, noteReceived_eq]; rfl
  · rw [hrun, State.count, State.modCtx_same, Table.get_set_same]

theorem deliver_started {s : State} {op : Nat} {o : SendOp} (h : s.sends.find? (fun x => x.id = op) = some o) {c k : Nat}
    (hbad : badClass (classEntry s o.msg.ctx o.msg.cls) = false) (hcount : (classEntry s o.msg.ctx o.msg.cls).2 ≤ 8)
    (hslot : findSlot (sentAway s op) o.msg.ctx o.msg.place.toNat = some (c, k)) :
    ∃ t, exec (.deliver op) s = .next t ∧ Started s t o.msg.ctx c k (classEntry s o.msg.ctx o.msg.cls).1
      (received (classEntry s o.msg.ctx o.msg.cls).2 o.msg) ∧ t.sends = s.sends.filter (fun x => x.id ≠ op) := by
  have hsame : findSlot s o.msg.ctx o.msg.place.toNat = some (c, k) := hslot
  have hstarts := (startThread_payload (sentAway s op) c k o.msg.ctx (classEntry s o.msg.ctx o.msg.cls).1 hcount o.msg.payload
    (o.msg.sender.setWidth 64)).noteReceived o.msg.ctx o.msg.fresh
  refine ⟨_, (execDeliver_eq h (.inr (.inl (by rw [hsame]; rfl)))).trans (congrArg _ (deliver_slot hbad hslot)),
    started_of_before hstarts.started (fun _ => rfl) rfl, ?_⟩
  exact congrArg State.sends hstarts.only

theorem deliver_dropped {s : State} {op : Nat} {o : SendOp} (h : s.sends.find? (fun x => x.id = op) = some o)
    (hbad : badClass (classEntry s o.msg.ctx o.msg.cls) = true) :
    ∃ t, exec (.deliver op) s = .next t ∧ t.threads = s.threads ∧ t.sends = s.sends.filter (fun x => x.id ≠ op) ∧
      Table.get 0 (t.ctx o.msg.ctx).run 42 = min (Table.get 0 (s.ctx o.msg.ctx).run 42 + 1) (2 ^ 64 - 1) :=
  ⟨_, (execDeliver_eq h (.inl hbad)).trans (congrArg _ (deliver_bad (s := sentAway s op) hbad)), dropMessage_spec (sentAway s op) o.msg⟩

/-! ### Tasks of a queue (R102) -/

theorem landEach_ctxs {land : State → Nat → Byte → State} (h : ∀ s a b, (land s a b).ctxs = s.ctxs) (bs : List Byte) :
    ∀ s a, (landEach land s a bs).ctxs = s.ctxs := by
  induction bs with
  | nil => exact fun _ _ => rfl
  | cons b t ih => exact fun s a => (ih ..).trans (h s a b)

theorem landDieWord_ctxs (s : State) (die a : Nat) (w : Word) : (landDieWord s die a w).ctxs = s.ctxs :=
  landEach_ctxs (land := fun s a b => landDie s die a b) (fun _ _ _ => rfl) _ _ _

theorem State.modDctx_classes (s : State) (d k : Nat) (f : DieCtx → DieCtx) (c : Nat) :
    ((s.modDctx d k f).ctx c).classes = (s.ctx c).classes := by
  unfold State.modDctx
  by_cases h : c = k
  · rw [h, State.modCtx_same]
  · rw [State.modCtx_other _ _ h]

/-- A trace record changes no class table. -/
theorem State.trace_classes (s : State) (die ctx type : Nat) (who : BitVec 32) (p : Word) (c : Nat) :
    ((s.trace die ctx type who p).ctx c).classes = (s.ctx c).classes := by
  simp only [State.trace]
  generalize s.dctx die ctx = x
  split
  · split
    · exact State.modDctx_classes ..
    · simp only [State.ctx, landDieWord_ctxs]
  · rfl

theorem State.count_classes (s : State) (ctx idx n c : Nat) : ((s.count ctx idx n).ctx c).classes = (s.ctx c).classes := by
  rw [State.count_ctx]

/-- The state in which a task starts: its wait is counted and recorded (R106). -/
def taskNoted (s : State) (ctx core slot : Nat) (t : Task) : State :=
  (s.count ctx 38 (s.time - t.stamp)).trace (dieOf core) ctx 6 (identity s core slot) (word (s.time - t.stamp))

theorem taskNoted_traceOnly (s : State) (ctx core slot : Nat) (t : Task) : TraceOnly s (taskNoted s ctx core slot t) :=
  (TraceOnly.count ..).trans (State.trace_only ..)

theorem runTask_eq (s : State) (ctx core slot : Nat) (t : Task) : runTask s ctx core slot t =
    let u := taskNoted s ctx core slot t
    if t.spawn then startThread u core slot ctx t.pc ((List.range t.n).map (fun k => (BitVec.ofNat 5 (t.d + k), t.img.getD (t.d + k) 0)))
    else if badClass (classEntry u ctx t.cls) then u.count ctx 42 1
    else startThread u core slot ctx (classEntry u ctx t.cls).1 (payloadRegs (classEntry u ctx t.cls).2 (t.img.take t.n) t.sender) := rfl

theorem taskNoted_classEntry (s : State) (ctx core slot : Nat) (t : Task) (c n : Nat) :
    classEntry (taskNoted s ctx core slot t) c n = classEntry s c n := by
  rw [classEntry, taskNoted, State.trace_classes, State.count_classes]
  rfl

theorem taskNoted_before {s t : State} {ctx core slot c : Nat} {tk : Task} {pc : Word} {regs : BitVec 5 → Word}
    (h : Starts (taskNoted s ctx core slot tk) t c core slot pc regs) : Starts s t c core slot pc regs := by
  have hT := taskNoted_traceOnly s ctx core slot tk
  exact ⟨started_of_before h.started hT.thread (by rw [hT.1]), hT.startOnly.trans h.only⟩

/-- A task of a SPAWN starts as the SPAWN would have started it. -/
theorem runTask_spawn (s : State) (ctx core slot : Nat) {tk : Task} (h : tk.spawn = true) (hd : tk.d + tk.n ≤ 32) :
    Starts s (runTask s ctx core slot tk) ctx core slot tk.pc
      (copied tk.d ((List.range tk.n).map (fun k => tk.img.getD (tk.d + k) 0))) := by
  rw [runTask_eq]
  dsimp only
  rw [if_pos h]
  exact taskNoted_before (startThread_copied _ _ _ _ _ _ _ _ hd)

/-- A task of a message starts its class's routine. -/
theorem runTask_message (s : State) (ctx core slot : Nat) {tk : Task} (h : tk.spawn = false)
    (hbad : badClass (classEntry s ctx tk.cls) = false) (hcount : (classEntry s ctx tk.cls).2 ≤ 8) :
    Starts s (runTask s ctx core slot tk) ctx core slot (classEntry s ctx tk.cls).1 (fun r => if r = 31 then tk.sender
      else if 1 ≤ r.toNat ∧ r.toNat ≤ (classEntry s ctx tk.cls).2 then (tk.img.take tk.n).getD (r.toNat - 1) 0 else 0) := by
  rw [runTask_eq]
  dsimp only
  rw [taskNoted_classEntry, h, hbad]
  exact taskNoted_before (startThread_payload _ _ _ _ _ hcount _ _)

end Sys2Proof.Machine

namespace Sys2Proof.Machine

open Sys2Proof

/-! ### A slot that looks for a task or a held message (R102, R103) -/

/-- An Idle slot that may take a task of its context. -/
structure TakesTasks (s : State) (ctx core slot : Nat) : Prop where
  own : (s.thread (tid core slot)).ctx = ctx
  gcore : isControl core = false
  may : mayStart s ctx = true
  isOpen : slotOpen s ctx core slot = true
  among : slot ∈ slotsFor s ctx
  queue : QueueFree s ctx (clusterOf core)

theorem refillQueue_none {ctx cluster n : Nat} {s : State} (h : n = 0) : refillQueue ctx cluster n s = s := by
  rw [h]; rfl

theorem execTaskDequeue_task {s s' : State} {ctx core slot i : Nat} {q : TaskQueue} {tk : Task} (h : TakesTasks s ctx core slot)
    (hq : taskQueue s ctx (clusterOf core) = some q) (hf : findTask s q (fun t => admits t.place core) = some (i, tk))
    (hr : removeTask s (clusterOf core) q i = some s') (hheld : (s'.cluster (clusterOf core)).held = []) :
    exec (.taskDequeue core slot) s = .next (runTask s' ctx core slot tk) := by
  obtain ⟨rfl, hcore, hmay, hopen, hamong, hw, hm, hst⟩ := h
  show execTaskDequeue core slot s = _
  simp only [execTaskDequeue, hcore, hmay, hopen, List.contains_iff_mem.2 hamong, State.withQueue_free hw hm hst, hq, hf, hr,
    Bool.not_true, Bool.or_self, Bool.false_eq_true, if_false]
  rw [refillQueue_none (by rw [hheld]; rfl)]

/-- The start of a held message in a slot. -/
def startHeld (s : State) (ctx core slot : Nat) (m : Message) : State :=
  noteReceived (startThread (s.modCluster (clusterOf core) (fun c => { c with held := c.held.erase m })) core slot ctx
    (classEntry s ctx m.cls).1 (payloadRegs (classEntry s ctx m.cls).2 m.payload (m.sender.setWidth 64))) ctx m.fresh

theorem execTaskDequeue_held {s : State} {ctx core slot : Nat} {m : Message} (h : TakesTasks s ctx core slot)
    (hnone : ∀ q, taskQueue s ctx (clusterOf core) = some q → findTask s q (fun t => admits t.place core) = none)
    (hfind : (s.cluster (clusterOf core)).held.find? (fun h => decide (h.ctx = ctx) && admits h.place.toNat core) = some m)
    (hbad : badClass (classEntry s ctx m.cls) = false) :
    exec (.taskDequeue core slot) s = .next (startHeld s ctx core slot m) := by
  obtain ⟨rfl, hcore, hmay, hopen, hamong, hw, hm, hst⟩ := h
  have hbad' : ∀ f, badClass (classEntry (s.modCluster (clusterOf core) f) (s.thread (tid core slot)).ctx m.cls) = false := fun _ => hbad
  show execTaskDequeue core slot s = _
  cases hq : taskQueue s (s.thread (tid core slot)).ctx (clusterOf core) with
  | none =>
    simp only [execTaskDequeue, hcore, hmay, hopen, List.contains_iff_mem.2 hamong, State.withQueue_free hw hm hst, hq, hfind, hbad',
      Bool.not_true, Bool.or_self, Bool.false_eq_true, if_false]
    rfl
  | some q =>
    simp only [execTaskDequeue, hcore, hmay, hopen, List.contains_iff_mem.2 hamong, State.withQueue_free hw hm hst, hq, hnone q hq,
      hfind, hbad', Bool.not_true, Bool.or_self, Bool.false_eq_true, if_false]
    rfl

theorem startHeld_spec {s : State} {ctx core slot : Nat} {m : Message} (hcount : (classEntry s ctx m.cls).2 ≤ 8) :
    Started s (startHeld s ctx core slot m) ctx core slot (classEntry s ctx m.cls).1 (received (classEntry s ctx m.cls).2 m) ∧
    ((startHeld s ctx core slot m).cluster (clusterOf core)).held = (s.cluster (clusterOf core)).held.erase m := by
  have hstarts := (startThread_payload (s.modCluster (clusterOf core) (fun c => { c with held := c.held.erase m })) core slot ctx
    (classEntry s ctx m.cls).1 hcount m.payload (m.sender.setWidth 64)).noteReceived ctx m.fresh
  refine ⟨started_of_before hstarts.started (fun _ => rfl) rfl, ?_⟩
  have hclusters : ∀ c, (startHeld s ctx core slot m).cluster c =
      (s.modCluster (clusterOf core) fun c => { c with held := c.held.erase m }).cluster c :=
    fun c => by unfold State.cluster startHeld; rw [hstarts.only]
  rw [hclusters, State.modCluster_same]

/-! ### Steal rounds (R104) -/

theorem withQueues_free {s : State} {ctx : Nat} {cs : List Nat} (h : ∀ c ∈ cs, QueueFree s ctx c) (k : State → State) :
    withQueues ctx cs k s = k s := by
  induction cs with
  | nil => rfl
  | cons c cs ih =>
    obtain ⟨hw, hm, hq⟩ := h c List.mem_cons_self
    rw [withQueues, State.withQueue_free hw hm hq, ih fun x hx => h x (List.mem_cons_of_mem _ hx)]

/-- A list without repeats of one element, from a list that holds no other. -/
theorem dedup_single {a : Nat} {l : List Nat} (h : ∀ x, x ∈ l ↔ x = a) : dedup l = [a] := by
  cases l with
  | nil => exact absurd ((h a).2 rfl) (by simp)
  | cons b l =>
    have hb : b = a := (h b).1 List.mem_cons_self
    have hdedup : ∀ (l : List Nat), ∀ x ∈ dedup l, x ∈ l := by
      intro l
      induction l with
      | nil => simp [dedup]
      | cons c l ih =>
        intro x hx
        rcases List.mem_cons.1 hx with rfl | hx
        · exact List.mem_cons_self
        · exact List.mem_cons_of_mem _ (ih x (List.mem_of_mem_filter hx))
    rw [dedup, hb, List.filter_eq_nil_iff.2]
    intro x hx
    simp [(h x).1 (List.mem_cons_of_mem _ (hdedup l x hx))]

theorem execStealRound_single {s : State} {cluster ctx : Nat}
    (h : ∀ x, ctx = x ↔ (x ∈ (s.cluster cluster).stealing.map (·.1) ∨ ∃ i < 8, ∃ k < slotsPerCore,
       (s.thread (tid (gcoreAt cluster i) k)).st = .idle ∧ (s.thread (tid (gcoreAt cluster i) k)).ctx = x)) :
    exec (.stealRound cluster) s = .next (stealTurn s cluster ctx) := by
  show execStealRound cluster s = _
  rw [execStealRound, dedup_single (a := ctx)]
  · rfl
  · intro x
    rw [eq_comm, h x, List.mem_append, or_comm]
    simp only [List.mem_flatMap, List.mem_filterMap, List.mem_range, Option.ite_none_right_eq_some, Option.some.injEq]

/-- A turn of a steal round on queues that need no wait. -/
theorem stealTurn_begin {s : State} {cluster ctx : Nat} (hq : ∀ c ∈ cluster :: neighbours cluster, QueueFree s ctx c)
    (hbegan : (s.cluster cluster).stealing.find? (fun e => e.1 = ctx) = none) (hmay : mayStealAt s ctx cluster = true) :
    stealTurn s cluster ctx = s.modCluster cluster (fun c => { c with stealing := c.stealing.set ctx s.time }) := by
  simp only [stealTurn, withQueues_free hq, hbegan, hmay, if_true]

/-- The state in which a round has ended. -/
def roundEnded (s : State) (cluster ctx : Nat) : State :=
  s.modCluster cluster (fun c => { c with stealing := c.stealing.del ctx })

/-- The end of a round whose first neighbour holds a stealable task. -/
theorem stealTurn_end {s s' : State} {cluster ctx t0 n i c k : Nat} {rest : List Nat} {q : TaskQueue} {tk : Task}
    (hq : ∀ c ∈ cluster :: neighbours cluster, QueueFree s ctx c)
    (hbegan : (s.cluster cluster).stealing.find? (fun e => e.1 = ctx) = some (ctx, t0)) (hn : neighbours cluster = n :: rest)
    (hsteal : stealable (roundEnded s cluster ctx) ctx n = some (q, i, tk))
    (hthief : thief (roundEnded s cluster ctx) ctx cluster = some (c, k)) (hmay : mayStart (roundEnded s cluster ctx) ctx = true)
    (hr : removeTask (roundEnded s cluster ctx) n q i = some s') (hheld : (s'.cluster n).held = []) :
    stealTurn s cluster ctx = (runTask s' ctx c k tk).count ctx 40 (s.time - t0) := by
  have hattempts : attempts ctx c k (neighbours cluster) (roundEnded s cluster ctx) = runTask s' ctx c k tk := by
    rw [hn, attempts, hsteal]
    simp only [hr]
    exact refillQueue_none (by rw [hheld]; rfl)
  rw [stealTurn, withQueues_free hq, hbegan]
  dsimp only
  rw [← roundEnded, hthief]
  dsimp only
  rw [hmay, if_pos rfl, hattempts]
  rfl

/-- Settles O26: each event starts its thread by `startThread`, from the registers of its message, task or child. -/
theorem threadsStartAndSteal : Obligations.ThreadsStartAndSteal := by
  unfold Obligations.ThreadsStartAndSteal
  refine ⟨⟨fun s op o h hd => spawnStart_started h hd, fun s op o h => ⟨fun hbad hcount c k hslot => deliver_started h hbad hcount hslot,
    fun hbad => deliver_dropped h hbad, fun hbad hslot => ⟨fun hh => ?_, fun hh hfree => ⟨fun v hv => ?_, fun q hfull => ?_⟩⟩⟩, ?_, ?_⟩, ?_⟩
  · exact (execDeliver_eq h (.inr (.inr (.inl hh)))).trans (congrArg _ (deliver_held (s := sentAway s op) hbad hslot hh))
  · exact (execDeliver_eq h (.inr (.inr (.inr hfree)))).trans (congrArg _ (deliver_queued (s := sentAway s op) hbad hslot hh hv))
  · exact (execDeliver_eq h (.inr (.inr (.inr hfree)))).trans
      (congrArg _ (deliver_full (s := sentAway s op) hbad hslot hh (enqueue_full (hfull.imp_right fun h => ⟨q, h⟩))))
  · intro s s' core slot i q tk ctx hcore hmay hopen hamong hfree hq hfind hr hheld
    have hexec := execTaskDequeue_task ⟨rfl, hcore, hmay, hopen, hamong, hfree⟩ hq hfind hr hheld
    exact ⟨fun hs hd => ⟨_, hexec, (runTask_spawn s' ctx core slot hs hd).started⟩,
      fun hs hbad hcount => ⟨_, hexec, (runTask_message s' ctx core slot hs hbad hcount).started⟩⟩
  · intro s core slot m ctx cl hcore hmay hopen hamong hfree hnone hfind e hbad hcount
    exact ⟨_, execTaskDequeue_held ⟨rfl, hcore, hmay, hopen, hamong, hfree⟩ hnone hfind hbad, startHeld_spec hcount⟩
  · intro s cluster ctx hctx hfree
    refine ⟨fun hbegan hmay => ?_, fun t0 n rest q i tk c k s' hbegan hn => ?_⟩
    · exact (execStealRound_single hctx).trans (congrArg _ (stealTurn_begin hfree hbegan hmay))
    · intro u hsteal hthief hs hd hmay hr hheld
      exact ⟨_, (execStealRound_single hctx).trans (congrArg _ (stealTurn_end hfree hbegan hn hsteal hthief hmay hr hheld)),
        ((runTask_spawn s' ctx c k hs hd).then_ctxs rfl).started⟩

end Sys2Proof.Machine

namespace Sys2Proof.Machine

open Sys2Proof

/-! ## EXIT, YIELD and SLEEP (spec/04_threads.md R107-R110) -/

theorem State.issued_core (s : State) (c : Nat) : s.issued.core c =
    if c = s.curCore then { s.core c with sOrder := rotate (s.core c).sOrder s.curSlot } else s.core c := by
  have hcores : s.issued.cores = (s.modCore s.curCore fun c => { c with sOrder := rotate c.sOrder s.curSlot }).cores := by
    unfold State.issued
    dsimp only
    split
    · split <;> rfl
    · rfl
  rw [State.core, hcores]
  split
  · next h => rw [h]; exact State.modCore_same ..
  · next h => exact State.modCore_other _ _ h

/-- A thread whose run TQRUN no longer counts. -/
theorem startNs_none {th : Thread} (h : th.startNs = none) : th = { th with startNs := none } := by rw [← h]

theorem exit_spec (s : State) : IssueOnly s (exit s) ∧
    (exit s).th = { s.th.closeSeq with st := .parked, wait := .exitDrain, startNs := none } := by
  have hissued := s.issued_only.1
  cases h : s.th.startNs with
  | none =>
    have hexit : exit s = (s.issued.modTh Thread.closeSeq).park .exitDrain := by
      simp only [exit, State.issued_th, h]
    rw [hexit]
    refine ⟨hissued.trans ((IssueOnly.thread _ _).trans (.thread _ _)), ?_⟩
    rw [State.park, State.modTh_same, State.modTh_same, State.issued_th, startNs_none h]
    rfl
  | some t0 =>
    have hexit : exit s = (((s.issued.count s.issued.curCtx 39 (s.issued.time - t0)).modTh
        (fun th => { th with startNs := none })).modTh Thread.closeSeq).park .exitDrain := by
      simp only [exit, State.issued_th, h]
    rw [hexit]
    refine ⟨hissued.trans ((IssueOnly.count ..).trans ((IssueOnly.thread _ _).trans ((IssueOnly.thread _ _).trans (.thread _ _)))), ?_⟩
    rw [State.park, State.modTh_same, State.modTh_same, State.modTh_same, State.count_th, State.issued_th]
    rfl

theorem yield_spec (s : State) : ∃ u t, exec .yield s = .next t ∧ Completed s u s.th ∧ t = { u with cores := t.cores } ∧
    ∀ c, t.core c = if c = s.curCore then
        { s.core c with sOrder := rotate (s.core c).sOrder s.curSlot, vOrder := rotate (s.core c).vOrder s.curSlot }
      else s.core c := by
  refine ⟨s.advance, _, rfl, s.advance_completed, rfl, fun c => ?_⟩
  have hadvance : ∀ c, s.advance.core c = s.issued.core c := fun _ => rfl
  split
  · next h => rw [h, State.modCore_same, hadvance, State.issued_core, if_pos rfl]
  · next h => rw [State.modCore_other _ _ h, hadvance, State.issued_core, if_neg h]

/-- The count of a SLEEP (R110). -/
theorem sleepCount (w : Word) : (if wfld w 32 32 = 0 then wfld w 0 32 else 2 ^ 32 - 1) = min w.toNat (2 ^ 32 - 1) := by
  have := w.isLt
  simp only [wfld, fld, Nat.shiftRight_eq_div_pow]
  split <;> omega

theorem execSleep_eq {s : State} {a : BitVec 5} (h : FullAll s [a]) : exec (.sleep a) s = .next
    (if min (s.th.rg a).toNat (2 ^ 32 - 1) = 0 then s.advance
     else (s.issued.modTh fun th =>
       { th with sleepEnd := s.cy + min (s.th.rg a).toNat (2 ^ 32 - 1), parkNpc := s.npc }).park .sleep) := by
  rw [← sleepCount]
  exact congrArg Host.Outcome.next (State.withG_full h _)

theorem sleep_spec {s : State} {a : BitVec 5} (h : FullAll s [a]) :
    (s.th.rg a = 0 → Leaves (.sleep a) s s.th) ∧
    (s.th.rg a ≠ 0 → ∃ t, exec (.sleep a) s = .next t ∧ IssueOnly s t ∧
      t.th = { s.th with st := .parked, wait := .sleep, parkNpc := s.npc, sleepEnd := s.cy + min (s.th.rg a).toNat (2 ^ 32 - 1) }) := by
  refine ⟨fun h0 => ⟨_, (execSleep_eq h).trans (congrArg _ (if_pos (by rw [h0]; rfl))), s.advance_completed⟩, fun h0 => ?_⟩
  have hpos : ¬ min (s.th.rg a).toNat (2 ^ 32 - 1) = 0 := fun e => h0 (BitVec.eq_of_toNat_eq (show (s.th.rg a).toNat = 0 by omega))
  refine ⟨_, (execSleep_eq h).trans (congrArg _ (if_neg hpos)), s.issued_only.1.trans ((IssueOnly.thread _ _).trans (.thread _ _)), ?_⟩
  rw [State.park, State.modTh_same, State.modTh_same, State.issued_th]

/-! ### The count of a SLEEP runs out -/

/-- What a change of one thread that keeps its slot state and its context keeps of the others. -/
theorem bankSeated_modThread {s : State} {x : Nat} {f : Thread → Thread} (h : (f (s.thread x)).st = (s.thread x).st) (core : Nat) :
    bankSeated (s.modThread x f) core = bankSeated s core := by
  have hst : ∀ y, ((s.modThread x f).thread y).st = (s.thread y).st := fun y => by
    by_cases hy : y = x
    · rw [hy, State.modThread_same, h]
    · rw [State.modThread_other _ _ hy]
  rw [bankSeated, bankSeated, hst, hst]

theorem betweenSteps_modThread {s : State} {x : Nat} {f : Thread → Thread} (h : (f (s.thread x)).ctx = (s.thread x).ctx) :
    betweenSteps (s.modThread x f) x = betweenSteps s x := by
  rw [betweenSteps, betweenSteps, State.modThread_same, h]
  rfl

/-- The SLEEP is complete. -/
def slept (th : Thread) : Thread := { th with came := th.pc, cameBr := false, pc := th.parkNpc, stall := none }

theorem sleepExpiry_spec {s : State} {core slot : Nat} (hslot : slot < slotsPerCore) (hst : (s.thread (tid core slot)).st = .parked)
    (hwait : (s.thread (tid core slot)).wait = .sleep) :
    let x := tid core slot
    let th := s.thread x
    (s.cy < th.sleepEnd → exec (.sleepExpiry core slot) s = .next s) ∧
    (th.sleepEnd ≤ s.cy → ∃ t, exec (.sleepExpiry core slot) s = .next t ∧
       t.thread x = { th with st := if betweenSteps s x then .halted else .ready, wait := .none, came := th.pc, cameBr := false,
                              pc := th.parkNpc, stall := none } ∧
       (∀ u, u ≠ x → t.thread u = s.thread u) ∧ (∀ c, c ≠ core → t.core c = s.core c) ∧
       t.core core = (if slot < 8 ∧ isControl core = false ∧ betweenSteps s x = false then
         { s.core core with recalled := true, idleCy := 0, wakeCy := some s.cy } else s.core core) ∧
       t = { s with threads := t.threads, cores := t.cores, ctxs := t.ctxs, mem := t.mem, dies := t.dies } ∧
       (∀ d, t.die d = { s.die d with undos := (t.die d).undos }) ∧
       (bankSeated s core = false → t = { s with threads := t.threads, cores := t.cores })) := by
  intro x th
  have hexec : exec (.sleepExpiry core slot) s = .next (if th.sleepEnd ≤ s.cy then (s.modThread x slept).ready x else s) := by
    show execSleepExpiry core slot s = _
    simp only [execSleepExpiry, hst, hwait, and_self, decide_true, Bool.true_and, decide_eq_true_eq]
    rfl
  refine ⟨fun h => hexec.trans (by rw [if_neg (by omega)]), fun h => ?_⟩
  let s0 := s.modThread x slept
  have hth : s0.thread x = slept th := State.modThread_same ..
  have hcore : coreOf x = core := coreOf_tid hslot
  have hsteps : betweenSteps s0 x = betweenSteps s x := betweenSteps_modThread rfl
  obtain ⟨⟨honly, hothers, hdies⟩, hready, hcores, hquiet⟩ := State.ready_spec (s := s0) (x := x)
    (by rw [hth]; show th.st ≠ _; rw [show th.st = .parked from hst]; exact nofun)
  refine ⟨s0.ready x, hexec.trans (by rw [if_pos h]), ?_, fun u hu => ?_, fun c hc => ?_, ?_, honly, hdies, fun hb => ?_⟩
  · rw [hready, readied, hth, hsteps]
    rfl
  · rw [hothers u hu]
    exact State.modThread_other _ _ hu
  · rw [hcores, hcore, if_neg hc]
    rfl
  · rw [hcores, hcore, if_pos rfl, recalledCore, hcore, hsteps, slotOf_tid hslot]
    rfl
  · exact hquiet (by rw [hcore]; exact (bankSeated_modThread (f := slept) rfl core).trans hb)

end Sys2Proof.Machine

namespace Sys2Proof.Machine

open Sys2Proof

/-! ## A module without damage stays without damage

The check bits of the memories are the marks of `State.ecc`; no operation on the way of a versioned write adds one to none. -/

def Undamaged (s : State) : Prop := s.ecc = []

theorem lineEcc_of_undamaged {s : State} (h : Undamaged s) (l : CLine) : lineEcc s l = (s, false) := by
  rw [lineEcc, h]
  rfl

theorem copyEcc_of_undamaged {s : State} (h : Undamaged s) (die ctx line : Nat) : copyEcc s die ctx line = (s, []) := by
  rw [copyEcc, h]
  rfl

theorem fillEcc_of_undamaged {s : State} (h : Undamaged s) (die ctx va phys : Nat) (rep : Bool) :
    fillEcc s die ctx va phys rep = s := by
  rw [fillEcc, h]
  exact ite_self s

theorem Undamaged.dropLine {s : State} (h : Undamaged s) (die ctx va : Nat) : Undamaged (s.dropLine die ctx va) :=
  congrArg (List.filter _) h

theorem Undamaged.writeBack {s : State} (h : Undamaged s) (l : CLine) : Undamaged (writeBack s l) := by
  show List.filter _ (lineEcc s l).1.ecc ++ List.map _ (List.filter _ (lineEcc s l).1.ecc) = []
  rw [lineEcc_of_undamaged h, h]
  rfl

theorem Undamaged.evict {s t : State} {die slice : Nat} {keep : Option (Nat × Nat)} (h : Undamaged s)
    (ht : evict s die slice keep = some t) : Undamaged t := by
  rw [Machine.evict] at ht
  split at ht
  · cases ht; exact h.dropLine ..
  · split at ht
    · cases ht; exact (h.writeBack _).dropLine ..
    · cases ht

theorem Undamaged.evictFor {die slice n : Nat} {keep : Option (Nat × Nat)} {t : State} :
    ∀ {k : Nat} {s : State}, Undamaged s → evictFor die slice n keep k s = some t → Undamaged t
  | 0, s, h, ht => by
    rw [Machine.evictFor] at ht
    split at ht
    · cases ht; exact h
    · cases ht
  | k + 1, s, h, ht => by
    rw [Machine.evictFor] at ht
    split at ht
    · cases ht; exact h
    · split at ht
      · next hs => exact Undamaged.evictFor (h.evict hs) ht
      · cases ht

theorem Undamaged.takeLine {s t : State} {die slice : Nat} {keep : Option (Nat × Nat)} (h : Undamaged s)
    (ht : takeLine s die slice keep = some t) : Undamaged t := Undamaged.evictFor h ht

theorem Undamaged.touchTlb {s : State} (h : Undamaged s) (die ctx va : Nat) (e : Pte) : Undamaged (touchTlb s die ctx va e) := by
  show (tlbEcc s die ctx (fld va 16 32)).ecc = []
  rw [tlbEcc]
  split
  · exact h
  · split <;> exact h

theorem Undamaged.needLine {s t : State} {l : CLine} {die ctx va : Nat} {e : Pte} (h : Undamaged s)
    (ht : needLine s die ctx va e = .present t l) : Undamaged t := by
  rw [Machine.needLine] at ht
  split at ht
  · next old _ =>
    split at ht
    · cases ht
    · cases ht
      have htouched : Undamaged (touchLine s old) := h
      exact htouched.touchTlb ..
  · split at ht
    · cases ht
    · next s' hs' =>
      have hs : Undamaged s' := by
        split at hs'
        · cases hs'; exact h
        · exact h.takeLine hs'
      cases ht
      apply Undamaged.touchTlb
      show (fillEcc s' die ctx va (e.phys va) e.rep).ecc = []
      rw [fillEcc_of_undamaged hs]
      exact hs

/-! ### Pre-images -/

theorem Undamaged.takePreLocal {s t : State} {core w ctx line : Nat} (h : Undamaged s)
    (ht : takePreLocal s core w ctx line = some t) : Undamaged t := by
  simp only [Machine.takePreLocal, copyEcc_of_undamaged h] at ht
  split at ht
  · cases ht; exact h
  · split at ht
    · cases ht; exact h
    · split at ht
      · cases ht
        show s.ecc ++ List.map _ [] = []
        rw [h]
        rfl
      · cases ht

theorem Undamaged.takeUndo {s t : State} {die line n : Nat} (h : Undamaged s) (ht : takeUndo s die line n = some t) :
    Undamaged t := by
  rw [Machine.takeUndo] at ht
  split at ht
  · cases ht; exact h
  · split at ht
    · cases ht; exact h
    · split at ht
      · cases ht
      · next s' hs' =>
        have hs := h.takeLine hs'
        simp only [copyEcc_of_undamaged hs] at ht
        cases ht
        exact hs

theorem Undamaged.takePrePaged {s t : State} {l : CLine} (h : Undamaged s) (ht : takePrePaged s l = some t) : Undamaged t := by
  rw [Machine.takePrePaged] at ht
  split at ht
  · cases ht; exact h
  · split at ht
    · cases ht
    · next s' hs' =>
      have hs := h.takeLine hs'
      simp only [lineEcc_of_undamaged hs] at ht
      cases ht
      exact hs
  · cases ht; exact h

/-! ### Reclaims -/

theorem Undamaged.freePre {s : State} (h : Undamaged s) (core b off : Nat) : Undamaged (freePre s core b off) := by
  rw [Undamaged, Machine.freePre]
  split <;> exact h

theorem Undamaged.writeLine {s : State} (h : Undamaged s) (a : Nat) (v : BitVec 512) : Undamaged (s.writeLine a v) := h

theorem Undamaged.backLine {s t : State} {core b j off : Nat} {versioned : Bool} (h : Undamaged s)
    (ht : backLine s core b j off versioned = some t) : Undamaged t := by
  rw [Machine.backLine] at ht
  split at ht
  · obtain ⟨u, hu, rfl⟩ := Option.map_eq_some_iff.mp ht
    have hlanded : ∀ die a v, Undamaged (landDieLine s die a v) := fun _ _ _ => h
    exact Undamaged.writeLine ((hlanded _ _ _).takeUndo hu) ..
  · cases ht; exact h

theorem Undamaged.zeroOwned {s t : State} {core off : Nat} (h : Undamaged s) (ht : zeroOwned s core off = some t) :
    Undamaged t := by
  obtain ⟨u, hu, rfl⟩ := Option.map_eq_some_iff.mp ht
  refine Undamaged.writeLine ?_ ..
  split at hu
  · cases hu; exact h
  · exact h.takePreLocal hu

theorem Undamaged.reclaimLine {s t : State} {core b j off : Nat} {again versioned : Bool} (h : Undamaged s)
    (ht : reclaimLine s core b j off again versioned = some t) : Undamaged t := by
  obtain ⟨u, hu, ht⟩ := Option.bind_eq_some_iff.mp ht
  refine Undamaged.zeroOwned (Undamaged.freePre ?_ core b off) ht
  split at hu
  · cases hu; exact h
  · exact h.backLine hu

/-- A fold of acts that keep a module undamaged. -/
theorem Undamaged.foldBind {act : State → Nat → Option State} (hact : ∀ s i t, Undamaged s → act s i = some t → Undamaged t)
    {is : List Nat} : ∀ {o : Option State} {t : State}, (∀ s, o = some s → Undamaged s) →
      is.foldl (fun acc i => acc.bind (fun s => act s i)) o = some t → Undamaged t := by
  induction is with
  | nil => exact fun ho ht => ho _ ht
  | cons i is ih =>
    intro o t ho ht
    refine ih (fun s hs => ?_) ht
    obtain ⟨s0, h0, hs⟩ := Option.bind_eq_some_iff.mp hs
    exact hact _ _ _ (ho _ h0) hs

theorem Undamaged.granuleLines {act : State → Nat → Option State} (hact : ∀ s i t, Undamaged s → act s i = some t → Undamaged t)
    {gr : Nat} {s t : State} (h : Undamaged s) (ht : granuleLines act gr s = some t) : Undamaged t :=
  Undamaged.foldBind (act := fun s i => act s (gr * 4096 + 64 * i)) (fun s i t => hact s _ t)
    (fun u hu => by cases hu; exact h) ht

theorem Undamaged.countReclaim {s : State} (h : Undamaged s) (core : Nat) : Undamaged (countReclaim s core) := by
  rw [Undamaged, Machine.countReclaim]
  split <;> exact h

theorem Undamaged.reclaimResidue {s t : State} {core gr : Nat} (h : Undamaged s) (ht : reclaimResidue s core gr = some t) :
    Undamaged t := by
  rw [Machine.reclaimResidue] at ht
  split at ht
  · cases ht; exact h
  · split at ht
    · cases ht
    · obtain ⟨u, hu, rfl⟩ := Option.map_eq_some_iff.mp ht
      have hu' : Undamaged u := h.granuleLines (fun _ _ _ h ht => h.zeroOwned ht) hu
      exact Undamaged.countReclaim (s := u.modCore _ _) hu' _

theorem Undamaged.reclaim {s t : State} {core gr : Nat} (h : Undamaged s) (ht : reclaim s core gr = some t) : Undamaged t := by
  rw [Machine.reclaim] at ht
  split at ht
  · exact h.reclaimResidue ht
  · dsimp only at ht
    split at ht
    · cases ht
    · split at ht
      · cases ht
      · obtain ⟨u, hu, rfl⟩ := Option.map_eq_some_iff.mp ht
        have hu' : Undamaged u := h.granuleLines (fun _ _ _ h ht => h.reclaimLine ht) hu
        exact Undamaged.countReclaim (s := u.modCore _ _) hu' _

/-! ### The pre-images of a write -/

theorem Undamaged.enginePre {s t : State} {die ctx loc w : Nat} (h : Undamaged s) (ht : enginePre s die ctx loc w = .taken t) :
    Undamaged t := by
  rw [Machine.enginePre] at ht
  split at ht
  · dsimp only at ht
    split at ht
    · cases ht
    · next s' hs' =>
      have hs : Undamaged s' := by
        split at hs'
        · exact h.reclaim hs'
        · cases hs'; exact h
      split at ht
      · next u hu => cases ht; exact hs.takePreLocal hu
      · cases ht
  · split at ht
    · split at ht
      · next u hu => cases ht; exact h.takeUndo hu
      · cases ht
    · split at ht
      · cases ht
      · split at ht
        · next u l hline =>
          have hs := h.needLine hline
          split at ht
          · next v hv =>
            cases ht
            obtain ⟨l', _, hv⟩ := Option.bind_eq_some_iff.mp hv
            exact hs.takePrePaged hv
          · cases ht
        · cases ht
        · cases ht

theorem Undamaged.linesPre {die ctx w : Nat} {t : State} : ∀ {ls : List Nat} {s : State}, Undamaged s →
    (linesPre die ctx w ls s).1 = .taken t → Undamaged t
  | [], s, h, ht => by cases ht; exact h
  | l :: ls, s, h, ht => by
    rw [Machine.linesPre] at ht
    split at ht
    · next s' hs' => exact Undamaged.linesPre (h.enginePre hs') ht
    · next hn => exact absurd ht (hn t)

end Sys2Proof.Machine

namespace Sys2Proof.Machine

open Sys2Proof

/-! ## Zeros written over local store and die memory -/

theorem storeEcc_of_undamaged {s : State} (h : Undamaged s) (die ctx : Nat) (cells : List (Nat × Byte)) :
    storeEcc s die ctx cells = (s, cells) := by
  rw [storeEcc]
  generalize dedup _ = dws
  induction dws with
  | nil => rfl
  | cons dw dws ih =>
    have hnone : eccAt s die ctx dw = none := by rw [eccAt, h]; rfl
    rw [List.foldl_cons]
    simpa only [hnone] using ih

theorem pokeByte_ecc (s : State) (die ctx : Nat) (c : Nat × Byte) : (pokeByte s die ctx c).ecc = s.ecc := by
  rw [pokeByte]
  split
  · rfl
  · split <;> rfl

theorem pokeByte_read (s : State) (die ctx : Nat) (c : Nat × Byte) (a : Nat) :
    (pokeByte s die ctx c).read a = if 2 ^ 48 ≤ c.1 ∧ a = c.1 then c.2 else s.read a := by
  rw [pokeByte]
  by_cases hc : 2 ^ 48 ≤ c.1
  · rw [if_pos hc]
    by_cases ha : a = c.1
    · rw [if_pos ⟨hc, ha⟩, ha]
      exact Memory.read_write_same ..
    · rw [if_neg (fun h => ha h.2)]
      exact Memory.read_write_other _ _ ha
  · rw [if_neg hc, if_neg (fun h => hc h.1)]
    split <;> rfl

theorem pokeCells_ecc (die ctx : Nat) (cells : List (Nat × Byte)) : ∀ s, (pokeCells s die ctx cells).ecc = s.ecc := by
  induction cells with
  | nil => exact fun _ => rfl
  | cons c cells ih => exact fun s => (ih _).trans (pokeByte_ecc s die ctx c)

/-- A byte that is zero, or that one of the zeros is written to, is zero. -/
theorem pokeCells_zero {die ctx a : Nat} {cells : List (Nat × Byte)} (hzero : ∀ c ∈ cells, c.2 = 0) :
    ∀ {s : State}, (s.read a = 0 ∨ 2 ^ 48 ≤ a ∧ ∃ c ∈ cells, c.1 = a) → (pokeCells s die ctx cells).read a = 0 := by
  induction cells with
  | nil =>
    intro s h
    obtain h | ⟨_, c, hc, _⟩ := h
    · exact h
    · cases hc
  | cons c cells ih =>
    intro s h
    refine ih (fun x hx => hzero x (List.mem_cons_of_mem c hx)) (s := pokeByte s die ctx c) ?_
    by_cases hc : 2 ^ 48 ≤ c.1 ∧ a = c.1
    · exact .inl ((pokeByte_read s die ctx c a).trans ((if_pos hc).trans (hzero c (List.mem_cons_self ..))))
    · rw [pokeByte_read, if_neg hc]
      refine h.imp_right fun ⟨ha, x, hx, hxa⟩ => ⟨ha, x, (List.mem_cons.mp hx).resolve_left fun hxc => hc ?_, hxa⟩
      rw [← hxc, hxa]
      exact ⟨ha, rfl⟩

theorem bytesOf_zero (n : Nat) : bytesOf n 0 = List.replicate n 0 := by
  induction n with
  | zero => rfl
  | succ n ih => rw [bytesOf, ih, List.replicate_succ]; rfl

theorem Undamaged.pokeBytes {s : State} (h : Undamaged s) (die ctx loc : Nat) (bs : List Byte) :
    Undamaged (pokeBytes s die ctx loc bs) := by
  rw [Undamaged, Machine.pokeBytes, storeEcc_of_undamaged h, pokeCells_ecc]
  exact h

theorem pokeBytes_zero {s : State} (hs : Undamaged s) {die ctx loc n a : Nat}
    (h : s.read a = 0 ∨ 2 ^ 48 ≤ a ∧ loc ≤ a ∧ a < loc + n) : (pokeBytes s die ctx loc (bytesOf n 0)).read a = 0 := by
  rw [pokeBytes, storeEcc_of_undamaged hs, bytesOf_zero, List.length_replicate]
  refine pokeCells_zero (fun c hc => ?_) (h.imp_right fun ⟨ha, hlo, hhi⟩ => ⟨ha, (a, (List.replicate n 0).getD (a - loc) 0), ?_, rfl⟩)
    (cells := (List.range n).map _)
  · obtain ⟨i, hi, rfl⟩ := List.mem_map.mp hc
    show (List.replicate n (0 : Byte)).getD i 0 = 0
    rw [List.getD_replicate _ (List.mem_range.mp hi)]
  · exact List.mem_map.mpr ⟨a - loc, List.mem_range.mpr (by omega), Prod.ext (by show loc + (a - loc) = a; omega) rfl⟩

theorem State.readN_zero {s : State} {a n : Nat} (h : ∀ j < n, s.read (a + j) = 0) : s.readN a n = List.replicate n 0 := by
  rw [State.readN_eq_map]
  exact List.eq_replicate_iff.mpr ⟨by simp, fun b hb => by
    obtain ⟨j, hj, rfl⟩ := List.mem_map.mp hb
    exact h j (List.mem_range.mp hj)⟩

theorem State.readLine_zero {s : State} {a : Nat} (h : ∀ j < 64, s.read (a + j) = 0) : s.readLine a = 0 := by
  rw [State.readLine, State.readN_zero h]
  rfl

/-! ### The lines of a carve-out -/

/-- Lines written with zeros one after another. -/
def zeroLines (die ctx : Nat) (ls : List Nat) (s : State) : State :=
  ls.foldl (fun s l => pokeBytes s die ctx l (bytesOf 64 0)) s

theorem zeroLines_zero {die ctx a : Nat} {ls : List Nat} : ∀ {s : State}, Undamaged s →
    (s.read a = 0 ∨ 2 ^ 48 ≤ a ∧ ∃ l ∈ ls, l ≤ a ∧ a < l + 64) → (zeroLines die ctx ls s).read a = 0 := by
  induction ls with
  | nil =>
    intro s _ h
    obtain h | ⟨_, l, hl, _⟩ := h
    · exact h
    · cases hl
  | cons l ls ih =>
    intro s hs h
    refine ih (hs.pokeBytes die ctx l (bytesOf 64 0)) ?_
    obtain h | ⟨ha, x, hx, hlo, hhi⟩ := h
    · exact .inl (pokeBytes_zero hs (.inl h))
    · obtain rfl | hx := List.mem_cons.mp hx
      · exact .inl (pokeBytes_zero hs (.inr ⟨ha, hlo, hhi⟩))
      · exact .inr ⟨ha, x, hx, hlo, hhi⟩

theorem carveLines_local {s : State} {core slot l : Nat} (h : l ∈ carveLines s core slot) : 2 ^ 48 ≤ l := by
  obtain ⟨k, _, rfl⟩ := List.mem_map.mp h
  simp only [localAddr, localWindow]
  omega

theorem clearCarve_lines {s : State} {core slot : Nat} (hs : Undamaged s) (h : (clearCarve s core slot).2 = true) :
    ∀ l ∈ carveLines s core slot, (clearCarve s core slot).1.readLine l = 0 := by
  intro l hl
  rw [clearCarve] at h ⊢
  split at h
  · cases h
  · cases h
  · next t ht =>
    refine State.readLine_zero fun j hj => zeroLines_zero (hs.linesPre ht) (.inr ⟨?_, l, hl, ?_, ?_⟩)
    · have := carveLines_local hl
      omega
    · omega
    · omega

theorem clearCarve_none {s : State} {core slot : Nat} (h : carveSize s core slot = 0) : clearCarve s core slot = (s, true) := by
  have hlines : carveLines s core slot = [] := by
    rw [carveLines, h]
    rfl
  rw [clearCarve, hlines]
  rfl

/-! ### The record of a slot -/

theorem writeRecord_taken {s t : State} {core slot off : Nat} {bs : List Byte} (h : writeRecord s core slot off bs = .taken t) :
    ∃ u, (linesPre (dieOf core) (s.thread (tid core slot)).ctx (writerOf slot) (linesOf (recordLoc s core slot + off) bs.length) s).1
      = .taken u ∧ t = pokeBytes u (dieOf core) (s.thread (tid core slot)).ctx (recordLoc s core slot + off) bs := by
  rw [writeRecord] at h
  split at h
  · next u hu => cases h; exact ⟨u, hu, rfl⟩
  · next hn => exact absurd h (hn t)

theorem Undamaged.writeRecord {s t : State} {core slot off : Nat} {bs : List Byte} (hs : Undamaged s)
    (h : writeRecord s core slot off bs = .taken t) : Undamaged t := by
  obtain ⟨u, hu, rfl⟩ := writeRecord_taken h
  exact (hs.linesPre hu).pokeBytes ..

theorem writeRecord_zeros {s t : State} {core slot off n : Nat} (hs : Undamaged s) (hloc : 2 ^ 48 ≤ recordLoc s core slot)
    (h : writeRecord s core slot off (bytesOf n 0) = .taken t) :
    t.readN (recordLoc s core slot + off) n = List.replicate n 0 := by
  obtain ⟨u, hu, rfl⟩ := writeRecord_taken h
  exact State.readN_zero fun j hj => pokeBytes_zero (hs.linesPre hu) (.inr ⟨by omega, by omega, by omega⟩)

end Sys2Proof.Machine

namespace Sys2Proof.Machine

open Sys2Proof

/-! ## The clearing of a slot (spec/04_threads.md R108, R111) -/

/-- A RAMO that is staged for a slot, once its thread has left, has no register for its result. -/
theorem dropRamo_staged {s : State} {core slot : Nat} {o : StagedOp} (ho : o ∈ (dropRamo s core slot).staged)
    {f d : Nat} {v c : Word} (hact : o.act = .ramo f v c core slot d) (hkept : o.kept = false) : d = 0 := by
  obtain ⟨o', _, rfl⟩ := List.mem_map.mp ho
  cases hact' : o'.act with
  | ramo f' x c' core' slot' d' =>
    simp only [hact'] at hact hkept
    split at hact
    · cases hact; rfl
    · next hno =>
      rw [if_neg hno] at hkept
      rw [hact'] at hact
      cases hact
      exact absurd ⟨rfl, rfl, hkept⟩ hno
  | write => simp only [hact'] at hact; cases hact
  | cells => simp only [hact'] at hact; cases hact
  | send => simp only [hact'] at hact; cases hact

theorem dropRamo_dctx (s : State) (core slot d c : Nat) : (dropRamo s core slot).dctx d c = s.dctx d c := by
  rw [State.dctx, dropRamo]
  by_cases h : c = (s.thread (tid core slot)).ctx
  · rw [h, State.modCtx_same]
    rfl
  · rw [State.modCtx_other _ _ h]
    rfl

/-- The slot is free for the next thread, and no RAMO result goes to it. -/
def freed (s : State) (core slot : Nat) : State :=
  { dropRamo s core slot with free := (dropRamo s core slot).free + 1 }

/-- The slot is Zeroing. -/
def cleared (th : Thread) : Thread := { th with st := .zeroing, wait := .none }

/-- A slot of a context that its thread has left, with the trace record of it, before its carve-out clears. -/
def vacated (s : State) (core slot ctx : Nat) : State :=
  ((freed s core slot).trace (dieOf core) ctx 2 (identity (freed s core slot) core slot)
    (word (2 * 2 ^ 62 + wfld (freeWord (freed s core slot).free) 0 48))).modThread (tid core slot) cleared

theorem execZeroing_eq {s s' : State} {core slot : Nat} (hcore : isControl core = false)
    (hst : (s.thread (tid core slot)).st = .parked) (hwait : (s.thread (tid core slot)).wait = .exitDrain)
    (hseq : seqDone (s.thread (tid core slot)) = true) (hsb : (s.thread (tid core slot)).sb = [])
    (hnames : namesRegister s core slot = false)
    (hrec : (s.thread (tid core slot)).heldRec = true ∧ s' = s ∨
      (s.thread (tid core slot)).heldRec = false ∧ writeRecord s core slot 8 (bytesOf 8 0) = .taken s') :
    exec (.zeroing core slot) s = .next (clearCarve (vacated s' core slot (s.thread (tid core slot)).ctx) core slot).1 := by
  show execZeroing core slot s = _
  simp only [execZeroing, hst, hwait, hseq, hsb, hnames, hcore, and_self, decide_true, Bool.not_true, List.isEmpty_nil, Bool.or_self,
    Bool.false_eq_true, if_false, Bool.or_false]
  obtain ⟨hheld, rfl⟩ | ⟨hheld, htaken⟩ := hrec
  · simp only [hheld, if_true]
    rfl
  · simp only [hheld, htaken, Bool.false_eq_true, if_false]
    rfl

/-- What a slot that is cleared after a trace record keeps. -/
theorem TraceOnly.cleared {s t : State} {core slot : Nat} (h : TraceOnly (freed s core slot) t) :
    let u := t.modThread (tid core slot) Machine.cleared
    u = { dropRamo s core slot with threads := u.threads, ctxs := u.ctxs, mem := u.mem, dies := u.dies, free := s.free + 1 } ∧
    (∀ d, u.die d = { s.die d with undos := (u.die d).undos }) ∧
    ∀ y, u.thread y = if y = tid core slot then { s.thread y with st := .zeroing, wait := .none } else s.thread y := by
  intro u
  have hthreads : ∀ y, t.thread y = s.thread y := fun y => by rw [h.1]; rfl
  have hframe : u = { t with threads := u.threads } := rfl
  refine ⟨?_, h.2, fun y => ?_⟩
  · rw [hframe, h.1]
    rfl
  · split
    · next hy => rw [hy]; exact (State.modThread_same ..).trans (congrArg Machine.cleared (hthreads _))
    · next hy => exact (State.modThread_other _ _ hy).trans (hthreads y)

theorem vacated_spec (s : State) (core slot ctx : Nat) :
    let u := vacated s core slot ctx
    u = { dropRamo s core slot with threads := u.threads, ctxs := u.ctxs, mem := u.mem, dies := u.dies, free := s.free + 1 } ∧
    (∀ d, u.die d = { s.die d with undos := (u.die d).undos }) ∧
    ∀ y, u.thread y = if y = tid core slot then { s.thread y with st := .zeroing, wait := .none } else s.thread y :=
  TraceOnly.cleared (State.trace_only ..)

theorem vacated_off {s : State} {core slot ctx : Nat} (h : (s.dctx (dieOf core) ctx).trEn.getLsbD 1 = false) :
    vacated s core slot ctx = (freed s core slot).modThread (tid core slot) cleared := by
  have hoff : ((freed s core slot).dctx (dieOf core) ctx).trEn.getLsbD (2 - 1) = false := by
    rw [← h, ← dropRamo_dctx s core slot]
    rfl
  exact congrArg (fun s => State.modThread s (tid core slot) cleared) (State.trace_off hoff)

theorem zeroing_spec {s s' : State} {core slot : Nat} (hcore : isControl core = false)
    (hst : (s.thread (tid core slot)).st = .parked) (hwait : (s.thread (tid core slot)).wait = .exitDrain)
    (hseq : seqDone (s.thread (tid core slot)) = true) (hsb : (s.thread (tid core slot)).sb = [])
    (hnames : namesRegister s core slot = false)
    (hrec : (s.thread (tid core slot)).heldRec = true ∧ s' = s ∨
      (s.thread (tid core slot)).heldRec = false ∧ writeRecord s core slot 8 (bytesOf 8 0) = .taken s') :
    let x := tid core slot
    let th := s.thread x
    (s.ecc = [] → th.heldRec = false → 2 ^ 48 ≤ recordLoc s core slot → s'.readN (recordLoc s core slot + 8) 8 = List.replicate 8 0) ∧
    ∃ u t, exec (.zeroing core slot) s = .next t ∧ t = (clearCarve u core slot).1 ∧
      u = { dropRamo s' core slot with threads := u.threads, ctxs := u.ctxs, mem := u.mem, dies := u.dies, free := s'.free + 1 } ∧
      (∀ d, u.die d = { s'.die d with undos := (u.die d).undos }) ∧
      (∀ y, u.thread y = if y = x then { s'.thread y with st := .zeroing, wait := .none } else s'.thread y) ∧
      ((s'.dctx (dieOf core) th.ctx).trEn.getLsbD 1 = false → u.mem = s'.mem ∧ u.dies = s'.dies ∧
        u.ctxs = (dropRamo s' core slot).ctxs) ∧
      (∀ o ∈ u.staged, ∀ f v c d, o.act = .ramo f v c core slot d → o.kept = false → d = 0) ∧
      (carveSize u core slot = 0 → t = u) ∧
      (s.ecc = [] → (clearCarve u core slot).2 = true → ∀ l ∈ carveLines u core slot, t.readLine l = 0) := by
  intro x th
  obtain ⟨hframe, hdies, hthreads⟩ := vacated_spec s' core slot th.ctx
  have hundamaged : s.ecc = [] → Undamaged (vacated s' core slot th.ctx) := fun h => by
    have hs' : Undamaged s' := by
      obtain ⟨_, rfl⟩ | ⟨_, htaken⟩ := hrec
      · exact h
      · exact Undamaged.writeRecord h htaken
    rw [Undamaged, hframe]
    exact hs'
  refine ⟨fun h hheld hloc => ?_, vacated s' core slot th.ctx, _, execZeroing_eq hcore hst hwait hseq hsb hnames hrec, rfl, hframe,
    hdies, hthreads, fun hoff => by rw [vacated_off hoff]; exact ⟨rfl, rfl, rfl⟩, fun o ho f v c d hact hkept => ?_,
    fun h => by rw [clearCarve_none h], fun h => clearCarve_lines (hundamaged h)⟩
  · obtain ⟨hheld', _⟩ | ⟨_, htaken⟩ := hrec
    · exact absurd (hheld.symm.trans hheld') nofun
    · exact writeRecord_zeros h hloc htaken
  · rw [hframe] at ho
    exact dropRamo_staged ho hact hkept

/-! ### The clearing ends -/

/-- An event on which dispatchers take their step again changes nothing else of a die. -/
theorem dispatchEvent_die (s : State) (p : Nat → Bool) (d : Nat) :
    (dispatchEvent s p).die d = { s.die d with dispatch := ((dispatchEvent s p).die d).dispatch } := by
  rw [State.die, State.die, dispatchEvent]
  dsimp only
  generalize s.dies = dies
  induction dies with
  | nil => rfl
  | cons e dies ih =>
    simp only [List.map_cons, Table.get]
    split
    · split <;> rfl
    · exact ih

/-- A thread of a slot that has cleared. -/
def idled (th : Thread) : Thread :=
  { Thread.reset with st := .idle, ctx := th.ctx, spovf := th.spovf, heldRec := th.heldRec, startC := th.startC,
                      startH := th.startH, began := th.began }

theorem idled_registers (th : Thread) :
    (∀ r, (idled th).rg r = 0 ∧ (idled th).fullG r = true) ∧ (∀ r, (idled th).rv r = 0 ∧ (idled th).fullV r = true) ∧
    (∀ r, (idled th).rm_ r = if r = 0 then BitVec.allOnes 64 else 0) ∧ (∀ q, (idled th).queue q = []) ∧
    (idled th).seq = Seq.empty ∧ (idled th).fflags = 0 :=
  ⟨fun r => ⟨Thread.reset_rg r, Thread.reset_fullG r⟩, fun r => ⟨Thread.reset_rv r, Thread.reset_fullV r⟩, Thread.reset_rm,
    Thread.reset_queue, rfl, rfl⟩

theorem execZeroingDone_eq {s s' : State} {core slot : Nat} {clear : Bool} (hst : (s.thread (tid core slot)).st = .zeroing)
    (hclear : clearCarve s core slot = (s', clear)) : exec (.zeroingDone core slot) s = .next
      (if clear = false then s' else dispatchEvent (s'.setThread (tid core slot) (idled (s.thread (tid core slot)))) fun _ => true) := by
  show execZeroingDone core slot s = _
  rw [execZeroingDone]
  simp only [hst, hclear, ne_eq, not_true_eq_false, if_false]
  cases clear <;> rfl

theorem zeroingDone_spec {s s' : State} {core slot : Nat} {clear : Bool} (hst : (s.thread (tid core slot)).st = .zeroing)
    (hclear : clearCarve s core slot = (s', clear)) :
    let x := tid core slot
    let th := s.thread x
    (carveSize s core slot = 0 → s' = s ∧ clear = true) ∧
    (clear = false → exec (.zeroingDone core slot) s = .next s') ∧
    (clear = true → ∃ t, exec (.zeroingDone core slot) s = .next t ∧ t = { s' with threads := t.threads, dies := t.dies } ∧
      (∀ y, y ≠ x → t.thread y = s'.thread y) ∧ (∀ d, t.die d = { s'.die d with dispatch := (t.die d).dispatch }) ∧
      t.thread x = idled th) := by
  intro x th
  refine ⟨fun h => ?_, fun h => (execZeroingDone_eq hst hclear).trans (by rw [if_pos h]), fun h => ?_⟩
  · cases (clearCarve_none h).symm.trans hclear
    exact ⟨rfl, rfl⟩
  · refine ⟨dispatchEvent (s'.setThread x (idled th)) fun _ => true, (execZeroingDone_eq hst hclear).trans ?_, rfl,
      fun y hy => State.setThread_other _ _ hy, dispatchEvent_die _ _, State.setThread_same ..⟩
    rw [if_neg (by rw [h]; exact nofun)]

/-- Settles O27: each of the six turns by its own rule, the clearing over the lemmas that say what the pre-images of a versioned
write keep and that a carve-out written with zeros reads as zeros. -/
theorem threadsLeaveAndClear : Obligations.ThreadsLeaveAndClear := by
  unfold Obligations.ThreadsLeaveAndClear
  refine ⟨⟨fun s i hi => ?_, yield_spec, fun s a h => sleep_spec h, fun s core slot hslot hst hwait =>
    sleepExpiry_spec hslot hst hwait⟩, fun s s' core slot hcore _ hst hwait hseq hsb hnames hrec =>
    zeroing_spec hcore hst hwait hseq hsb hnames hrec, fun s s' core slot clear _ hst hclear => ?_⟩
  · have hexec : exec i s = .next (exit s) := by obtain rfl | rfl := hi <;> rfl
    exact ⟨_, hexec, exit_spec s⟩
  · obtain ⟨hnone, hstays, hends⟩ := zeroingDone_spec hst hclear
    refine ⟨hnone, hstays, fun h => ?_⟩
    obtain ⟨t, hexec, hframe, hothers, hdies, hx⟩ := hends h
    refine ⟨t, hexec, hframe, hothers, hdies, hx, ?_⟩
    rw [hx]
    exact idled_registers _

end Sys2Proof.Machine

namespace Sys2Proof.Machine

open Sys2Proof

/-! ## A task queue under a cached line (spec/04_threads.md R102, spec/08_die_memory.md R196)

The undo lines of an enqueue take lines of their slices, and a committed-dirty line that is taken for reuse is written back to its
frame.  O25 has no hypothesis that keeps that frame apart from the queue's descriptor, so the write-back can change what the
descriptor holds.  The frames that a page-table entry can name lie in HBM, below every die window: no run is known to reach
the state below, and what the statement lacks is the hypothesis that the frames of cached lines lie there. -/

/-- A running launch. -/
def overlaidJob : Job :=
  { record := [], die := 0, rctx := 0, recVa := 0, placed := [], left := [], order := 0, phase := .running, ssno := 0, votes := [],
    quiet := false, abortMask := 0, aborted := false, result := 0, streak := 0, pend := false, doomed := false, wbl := [],
    hostWrites := [], relTime := 0, member := none, haltReq := false, stepped := false, stuckCy := 0, hangPosted := false,
    sweeps := 0, sweepSent := 0, sent := 0, received := 0, modules := [], arrived := [], swept := [], reported := false,
    ampSums := [], complete := [], live := false, secures := false, seals := [], ramoRes := [], born := [] }

/-- The descriptor of the queue of cluster 0, in the context's allotment. -/
def overlaidQueue : TaskQueue := { at_ := dieWindow + 0x4000, ring := dieWindow + 0x4200, cap := 1, head := 0, count := 0 }

/-- A committed-dirty line whose frame is the line of the descriptor. -/
def overlaidLine : CLine :=
  { die := 0, ctx := 0, va := 0, phys := dieWindow + 0x4000, st := .committedDirty, data := 0, written := 0, undo := none, stamp := 0 }

/-- Slot 0 of core 0 runs, no other slot is open, the queue of its cluster has capacity 1 and no entry, and the slices of die 0 hold
one line each. -/
def overlaid : State :=
  { State.reset with
    mem := [(dieWindow + 0x4001, 0x42), (dieWindow + 0x4006, 0x10), (dieWindow + 0x4007, 0xFF), (dieWindow + 0x4008, 1)],
    threads := [(0, { Thread.reset with st := .ready })], dies := [(0, { Die.reset with cblk := 1 })],
    ctxs := [(0, { Ctx.reset with dies := [(0, { DieCtx.zero with dmBase := 1, dmSize := 1, tqbase := 0xFF10000000004000 })],
                                  job := some overlaidJob })],
    lines := [overlaidLine], cur := 0 }

/-- What a doubleword holds after an enqueue. -/
def QueueAnswer.word (r : QueueAnswer) (a : Nat) : Option Word :=
  match r with
  | .queued u => some (u.readWord a)
  | _ => none

theorem QueueAnswer.queued_of_word {r : QueueAnswer} {a : Nat} {w : Word} (h : r.word a = some w) :
    ∃ u, r = .queued u ∧ u.readWord a = w := by
  cases r with
  | queued u => exact ⟨u, rfl, Option.some.inj h⟩
  | full => cases h
  | noUndo => cases h

theorem overlaid_drained : Drained overlaid := ⟨by decide +kernel, rfl⟩

theorem overlaid_full : FullAll overlaid ([0, 0] ++ regRange 0 0) := by
  refine ⟨?_, ?_⟩ <;> decide +kernel

theorem overlaid_placement : badPlacement overlaid (overlaid.th.rg 0) true = false := by decide +kernel

theorem overlaid_ctx : overlaid.curCtx = 0 := by decide +kernel

theorem overlaid_cluster : clusterOf (wfld (overlaid.th.rg 0) 0 13) = 0 := by decide +kernel

theorem overlaid_noSlot : findSlot overlaid overlaid.curCtx (overlaid.th.rg 0).toNat = none := by decide +kernel

theorem overlaid_free : QueueFree overlaid 0 0 := by
  refine ⟨?_, ?_, ?_⟩ <;> decide +kernel

theorem overlaid_queue : taskQueue overlaid 0 0 = some overlaidQueue := by
  have hat : queueAt overlaid 0 0 = some overlaidQueue.at_ := by decide +kernel
  have hring : (overlaid.readWord overlaidQueue.at_).toNat = overlaidQueue.ring := by decide +kernel
  have hcap : overlaid.readWord (overlaidQueue.at_ + 8) = 1 := by decide +kernel
  have hin : (!(decide (dieAddr 0 0 ≤ overlaidQueue.ring) &&
      inAllotment overlaid 0 0 (overlaidQueue.ring - dieAddr 0 0) (320 * wfld 1 0 13))) = false := by decide +kernel
  rw [taskQueue, hat]
  dsimp only [Option.bind_some]
  rw [hcap, hring, hin]
  rfl

/-- The words that the SPAWN enqueues. -/
def overlaidWords : List Nat :=
  spawnTask overlaid (overlaid.th.rg 0) (overlaid.th.rg 0) 0 0 [] (identity overlaid overlaid.curCore overlaid.curSlot).toNat

theorem overlaid_enqueued : ∃ u, enqueue overlaid 0 0 overlaidWords = .queued u ∧ u.readWord (overlaidQueue.at_ + 8) = 2 ^ 32 :=
  QueueAnswer.queued_of_word (by decide +kernel)

/-- Refutes O25: in `overlaid` the enqueue of a SPAWN takes the undo line of the descriptor, for which a committed-dirty line is
written back over the descriptor, so that the capacity is lost and the doubleword is not the old one plus 2^32. -/
theorem not_spawnsAndSends : ¬ Obligations.SpawnsAndSends := by
  unfold Obligations.SpawnsAndSends
  intro h
  obtain ⟨-, -, hqueued⟩ := ((h.1 overlaid 0 0 0 0 0 0 overlaid_drained).1 overlaid_full overlaid_placement rfl).2 overlaid_noSlot
    (by rw [overlaid_ctx, overlaid_cluster]; exact overlaid_free)
  obtain ⟨u, hu, hword⟩ := overlaid_enqueued
  obtain ⟨-, -, hwords⟩ := hqueued overlaidQueue u (by rw [overlaid_ctx, overlaid_cluster]; exact overlaid_queue)
    (by rw [overlaid_ctx, overlaid_cluster]; exact hu)
  obtain ⟨-, hdescriptor⟩ := hwords (.inl (by decide))
  rw [hword] at hdescriptor
  exact absurd hdescriptor (by decide +kernel)

end Sys2Proof.Machine

namespace Sys2Proof.Machine

open Sys2Proof

/-! ## Register forms that complete (spec/05_issue.md R128) -/

theorem FullAll.mono {s : State} {rs rs' : List (BitVec 5)} (h : FullAll s rs) (hsub : rs' ⊆ rs) : FullAll s rs' :=
  ⟨fun r hr => h.1 r (hsub hr), fun r hr => h.2 r (hsub hr)⟩

/-- `op gd, ga, gb` with full sources writes its value. -/
theorem binary_writes {i : Instr} {s : State} {f : Word → Word → Word} {d a b : BitVec 5} {v : Word} (h : FullAll s [a, b])
    (he : exec i s = .next (binary f d a b s)) (hv : f (s.th.rg a) (s.th.rg b) = v) : Writes i s d v :=
  ⟨_, he.trans (congrArg _ (State.withG_full h _)), hv ▸ s.putG_yields d _⟩

/-- `op gd, ga` with a full source writes its value. -/
theorem unary_writes {i : Instr} {s : State} {f : Word → Word} {d a : BitVec 5} {v : Word} (h : FullAll s [a])
    (he : exec i s = .next (unary f d a s)) (hv : f (s.th.rg a) = v) : Writes i s d v :=
  ⟨_, he.trans (congrArg _ (State.withG_full h _)), hv ▸ s.putG_yields d _⟩

/-! ## Words of the layouts as numbers (spec/02_encoding.md Table 2.2) -/

/-- A word reads as the instruction that has it for encoding. -/
theorem wordReads_of_encode {w : W32} {n : Nat} {i : Instr} (hi : encode i = halvesOf w) (hn : BitVec.ofNat 32 n = w)
    (hread : ReadsAs i i) : WordReads n i := by
  have h := hread.1 []
  rw [List.append_nil, hi] at h
  rw [WordReads, hn, h]
  rfl

theorem toNat_append_eq_add {n m : Nat} (x : BitVec n) (y : BitVec m) : (x ++ y).toNat = x.toNat * 2 ^ m + y.toNat := by
  rw [BitVec.toNat_append, ← Nat.shiftLeft_add_eq_or_of_lt y.isLt, Nat.shiftLeft_eq]

theorem ofNat_wordOf {maj : Nat} (hmaj : maj < 64) (f : Nat) (b a d : BitVec 5) :
    BitVec.ofNat 32 (wordOf maj f b a d) = wordR (BitVec.ofNat 6 maj) (BitVec.ofNat 9 f) b a d := by
  apply BitVec.eq_of_toNat_eq
  simp only [wordR, wordOf, toNat_append_eq_add, BitVec.toNat_ofNat]
  omega

/-- The words of JAL and JALR. -/
theorem ofNat_jal (off : BitVec 24) : BitVec.ofNat 32 (off.toNat * 2 ^ 8 + 0x19) = wordJ 0x06 off := by
  apply BitVec.eq_of_toNat_eq
  simp only [wordJ, toNat_append_eq_add, BitVec.ofNat_eq_ofNat, BitVec.toNat_ofNat]
  omega

theorem ofNat_jalr (d a : BitVec 5) (imm : BitVec 14) :
    BitVec.ofNat 32 (imm.toNat * 2 ^ 18 + a.toNat * 2 ^ 13 + d.toNat * 2 ^ 8 + 0x1D) = wordI 0x07 imm a d := by
  apply BitVec.eq_of_toNat_eq
  simp only [wordI, toNat_append_eq_add, BitVec.ofNat_eq_ofNat, BitVec.toNat_ofNat]
  omega

/-! ## ALU register instructions (R129, Table 5.3) -/

theorem shamt_eq (w : Word) : shamt w = w.toNat % 64 := rfl

theorem sltW_eq (x y : Word) : sltW x y = if x.toInt < y.toInt then 1 else 0 := by
  simp only [sltW, wordOfBool, BitVec.slt, decide_eq_true_eq]

theorem sltuW_eq (x y : Word) : sltuW x y = if x.toNat < y.toNat then 1 else 0 := by
  simp only [sltuW, wordOfBool, BitVec.ult, decide_eq_true_eq]

/-- A row of Table 5.3: an R-layout word of major 0x00 and a binary operation. -/
theorem aluRow {s : State} {op : Word → Word → Word} {d a b : BitVec 5} {f : Nat} {i : Instr} {v : Word}
    (hword : encode i = halvesOf (wordR 0x00 (BitVec.ofNat 9 f) b a d)) (hread : ReadsAs i i)
    (hexec : exec i s = .next (binary op d a b s)) (hv : op (s.th.rg a) (s.th.rg b) = v) :
    WordReads (wordOf 0x00 f b a d) i ∧ (FullAll s [a, b] → Writes i s d v) :=
  ⟨wordReads_of_encode hword (ofNat_wordOf (by decide) f b a d) hread, fun h => binary_writes h hexec hv⟩

/-- Settles O9: each row is an R-layout word and a binary operation on the two sources. -/
theorem aluRegisterResults : Obligations.AluRegisterResults := by
  unfold Obligations.AluRegisterResults
  intro s d a b x y n f i v hrow
  simp only [List.mem_cons, Prod.mk.injEq, List.not_mem_nil, or_false, ← sltW_eq, ← sltuW_eq] at hrow
  obtain ⟨rfl, rfl, rfl⟩ | ⟨rfl, rfl, rfl⟩ | ⟨rfl, rfl, rfl⟩ | ⟨rfl, rfl, rfl⟩ | ⟨rfl, rfl, rfl⟩ | ⟨rfl, rfl, rfl⟩ |
    ⟨rfl, rfl, rfl⟩ | ⟨rfl, rfl, rfl⟩ | ⟨rfl, rfl, rfl⟩ | ⟨rfl, rfl, rfl⟩ | ⟨rfl, rfl, rfl⟩ | ⟨rfl, rfl, rfl⟩ := hrow
  all_goals exact aluRow rfl (readsAs_self rfl nofun rfl) rfl rfl

/-! ## Jumps (R135, R136) -/

theorem wordReads_jal (off : BitVec 24) : WordReads (off.toNat * 2 ^ 8 + 0x19) (.jal (off.signExtend 64)) :=
  wordReads_of_encode (encodeImm_signExtend (word := wordJ 0x06) (by decide)) (ofNat_jal off) readsAs_jal

theorem wordReads_jalr (d a : BitVec 5) (imm : BitVec 14) :
    WordReads (imm.toNat * 2 ^ 18 + a.toNat * 2 ^ 13 + d.toNat * 2 ^ 8 + 0x1D) (.jalr d a (imm.signExtend 64)) :=
  wordReads_of_encode (encodeImm_signExtend (word := fun n => wordI 0x07 n a d) (by decide)) (ofNat_jalr d a imm) readsAs_jalr

theorem execJalr_full {s : State} {d a : BitVec 5} {imm : Word} (h : FullAll s [a]) :
    exec (.jalr d a imm) s = .next (if (s.th.rg a + imm).getLsbD 0 then s.raise 3 (s.th.rg a + imm) false
      else (s.putG d s.npc).jump (s.th.rg a + imm)) :=
  congrArg Host.Outcome.next (State.withG_full h _)

/-- A link written and a jump taken. -/
theorem links_and_jumps {i : Instr} {s : State} {d : BitVec 5} {p : Word} (he : exec i s = .next ((s.putG d s.npc).jump p)) :
    ∃ t th, exec i s = .next t ∧ WritesG s.th th d s.npc ∧ Jumped s t th p := by
  obtain ⟨th, hlink, hjump⟩ := s.putG_jumps d s.npc p
  exact ⟨_, th, he, hlink, hjump⟩

/-- Settles O10: both link by `putG` and jump, and JALR forms and checks its target before. -/
theorem jumpsLink : Obligations.JumpsLink := by
  unfold Obligations.JumpsLink
  refine ⟨wordReads_jal, fun s off => links_and_jumps rfl, wordReads_jalr,
    fun s d a imm hfull => ⟨fun heven => ?_, fun hodd htakes => ?_⟩⟩
  · exact links_and_jumps ((execJalr_full hfull).trans (by rw [if_neg (by rw [heven]; exact Bool.false_ne_true)]))
  · exact traps_of htakes ((execJalr_full hfull).trans (by rw [if_pos hodd]))

end Sys2Proof.Machine

namespace Sys2Proof.Machine

open Sys2Proof

/-! ## Immediates, multiply and divide (R130-R132, Table 5.5) -/

theorem shiftLeft_eleven (x : Word) : x <<< 11 = x * 2048 := by
  apply BitVec.eq_of_toNat_eq
  rw [BitVec.toNat_shiftLeft, BitVec.toNat_mul, Nat.shiftLeft_eq]
  rfl

theorem mul_eq_ofNat (x y : Word) : x * y = BitVec.ofNat 64 (x.toNat * y.toNat) := by
  apply BitVec.eq_of_toNat_eq
  rw [BitVec.toNat_mul, BitVec.toNat_ofNat]

theorem highWord_natCast (m n : Nat) : highWord ((m : Int) * (n : Int)) = BitVec.ofNat 64 (m * n / 2 ^ 64) := by
  rw [highWord, ← BitVec.ofInt_natCast]
  norm_cast

/-- A quotient of magnitudes with the sign of the operands rounds toward zero. -/
theorem signed_quotient_eq_tdiv (x y : Int) :
    (if decide (x < 0) = decide (y < 0) then ((x.natAbs / y.natAbs : Nat) : Int) else -((x.natAbs / y.natAbs : Nat) : Int)) =
      x.tdiv y := by
  have hnonneg (n : Nat) : decide (Int.ofNat n < 0) = false := decide_eq_false (Int.natCast_nonneg n).not_gt
  have hneg (n : Nat) : decide (Int.negSucc n < 0) = true := decide_eq_true (Int.negSucc_lt_zero n)
  cases x <;> cases y <;> simp only [hnonneg, hneg, if_true, if_false, reduceCtorEq] <;> rfl

/-- The one quotient that 64 bits do not hold is -2^63 / -1, whose low bits are the dividend. -/
theorem sdivrem_eq (x y : Word) : sdivrem x y =
    if y = 0 then (BitVec.allOnes 64, x) else (BitVec.ofInt 64 (x.toInt.tdiv y.toInt), BitVec.ofInt 64 (x.toInt.tmod y.toInt)) := by
  have hzero : y.toInt = 0 ↔ y = 0 := by rw [← BitVec.toInt_inj]; rfl
  unfold sdivrem
  dsimp only
  by_cases hy : y = 0
  · rw [if_pos (hzero.2 hy), if_pos hy]; rfl
  · rw [if_neg (mt hzero.1 hy), if_neg hy]
    split
    next h =>
      obtain ⟨hx, hone⟩ := h
      have hword : x = BitVec.ofInt 64 (-2 ^ 63) := by rw [← hx, BitVec.ofInt_toInt]
      rw [hx, hone, hword]
      decide
    next => rw [signed_quotient_eq_tdiv, Int.tmod_def, Int.mul_comm]

theorem udivrem_eq (x y : Word) : udivrem x y =
    if y = 0 then (BitVec.allOnes 64, x) else (BitVec.ofNat 64 (x.toNat / y.toNat), BitVec.ofNat 64 (x.toNat % y.toNat)) := rfl

/-- Settles O13: each is a unary or binary operation, whose value is an identity of words. -/
theorem immediateAndDivideResults : Obligations.ImmediateAndDivideResults := by
  unfold Obligations.ImmediateAndDivideResults
  refine ⟨⟨fun s d a imm sh h => ?_, fun s d imm => ⟨?_, ?_⟩⟩, fun s d a b h => ?_⟩
  · exact ⟨unary_writes h rfl rfl, unary_writes h rfl (sltW_eq ..), unary_writes h rfl (sltuW_eq ..), unary_writes h rfl rfl,
      unary_writes h rfl rfl, unary_writes h rfl rfl, unary_writes h rfl rfl, unary_writes h rfl rfl, unary_writes h rfl rfl⟩
  · exact ⟨_, rfl, shiftLeft_eleven imm ▸ s.putG_yields d _⟩
  · exact ⟨_, rfl, shiftLeft_eleven imm ▸ s.putG_yields d _⟩
  · refine ⟨binary_writes h rfl (mul_eq_ofNat ..), binary_writes h rfl rfl, binary_writes h rfl (highWord_natCast ..),
      binary_writes h rfl rfl, binary_writes h rfl ?_, binary_writes h rfl ?_, binary_writes h rfl ?_, binary_writes h rfl ?_⟩
    all_goals
      simp only [sdivrem_eq, udivrem_eq]
      split <;> rfl

end Sys2Proof.Machine

namespace Sys2Proof.Machine

open Sys2Proof

/-! ## A damaged word of g0 (spec/02_encoding.md R39, spec/18_traps.md R444, R445)

The compact forms execute as expansions that read g0 (Table 2.3), and a register read checks the stored word of every register
that it names.  O14 and O15 take the words of the registers that an instruction names in its own fields as sound, and say nothing of
the word of g0.  No upset damages that word (`registerWord 0` is false), and no run is known to reach the state below; but neither
statement has a hypothesis that excludes it. -/

/-- Slot 0 of core 0 is about to execute a compact instruction at 0, and the word that would be g0's is uncorrectable. -/
def damagedZero : State :=
  { State.reset with threads := [(0, { Thread.reset with st := .ready, regEcc := [(0, true)] })], cur := 0, npc := 2 }

theorem damagedZero_full : FullAll damagedZero [1, 1] := by
  refine ⟨?_, ?_⟩ <;> decide +kernel

/-- In `damagedZero` the instruction takes ECC_UNCORRECTABLE (code 10), at the vector 0. -/
def TrapsOnZero (i : Instr) : Prop := ∃ t, exec i damagedZero = .next t ∧ t.th.strap.cause = 10 ∧ t.th.pc = 0

theorem cNop_trapsOnZero : TrapsOnZero .cNop := ⟨_, rfl, by decide +kernel, by decide +kernel⟩

theorem cJ_trapsOnZero : TrapsOnZero (.cJ 1) := ⟨_, rfl, by decide +kernel, by decide +kernel⟩

/-- An instruction that traps on g0 goes on at no other PC. -/
theorem TrapsOnZero.pc {i : Instr} (h : TrapsOnZero i) {t : State} (ht : exec i damagedZero = .next t) : t.th.pc = 0 := by
  obtain ⟨u, hu, -, hpc⟩ := h
  cases ht.symm.trans hu
  exact hpc

/-- Refutes O14: in `damagedZero`, C.NOP takes ECC_UNCORRECTABLE at the read of g0 and does not complete. -/
theorem not_bitAndCompactResults : ¬ Obligations.BitAndCompactResults := by
  unfold Obligations.BitAndCompactResults
  intro h
  obtain ⟨-, -, -, -, hnop⟩ := h
  obtain ⟨t, hexec, -, hth⟩ := hnop damagedZero
  have hpc := cNop_trapsOnZero.pc hexec
  rw [hth] at hpc
  exact absurd hpc (by decide)

/-- Refutes O15: in `damagedZero`, C.J takes ECC_UNCORRECTABLE at the read of g0 and does not jump. -/
theorem not_branchOutcomes : ¬ Obligations.BranchOutcomes := by
  unfold Obligations.BranchOutcomes
  intro h
  obtain ⟨t, hexec, hjump⟩ := h damagedZero 1 1 0 0 1 damagedZero_full (.cJ 1, BitVec.signExtend 64 1#11, true) (by simp)
  obtain ⟨-, hth⟩ := hjump
  have hpc := cJ_trapsOnZero.pc hexec
  rw [hth] at hpc
  exact absurd hpc (by decide)

end Sys2Proof.Machine

namespace Sys2Proof.Machine

open Sys2Proof

/-! ## What the check bits and the lines of a slice change (spec/08_die_memory.md R191, spec/18_traps.md R444, R445) -/

/-- Beside the marks of damage, counts and votes nothing changed. -/
def EccOnly (s t : State) : Prop := t = { s with ecc := t.ecc, dies := t.dies, ctxs := t.ctxs }

/-- Beside memory, damage, cached lines, counts and votes nothing changed. -/
def SliceOnly (s t : State) : Prop :=
  t = { s with mem := t.mem, ecc := t.ecc, lines := t.lines, dies := t.dies, ctxs := t.ctxs, useCount := t.useCount }

theorem EccOnly.refl (s : State) : EccOnly s s := rfl

theorem EccOnly.trans {s t u : State} (h : EccOnly s t) (h' : EccOnly t u) : EccOnly s u := by
  unfold EccOnly at *
  rw [h', h]

theorem EccOnly.slice {s t : State} (h : EccOnly s t) : SliceOnly s t := by
  unfold EccOnly at h
  unfold SliceOnly
  rw [h]

theorem SliceOnly.refl (s : State) : SliceOnly s s := rfl

theorem SliceOnly.trans {s t u : State} (h : SliceOnly s t) (h' : SliceOnly t u) : SliceOnly s u := by
  unfold SliceOnly at *
  rw [h', h]

theorem eccVote_only (s : State) (die ctx : Nat) : EccOnly s (eccVote s die ctx) := by
  unfold eccVote
  split <;> rfl

theorem lineEcc_only (s : State) (l : CLine) : EccOnly s (lineEcc s l).1 := by
  refine foldl_keeps (P := fun x : State × Bool => EccOnly s x.1) (.refl s) fun x m h => ?_
  split
  · exact h.trans (EccOnly.trans (t := x.1.countUnc l.die) rfl (eccVote_only ..))
  · exact h.trans rfl

theorem fillEcc_only (s : State) (die ctx va phys : Nat) (rep : Bool) : EccOnly s (fillEcc s die ctx va phys rep) := by
  unfold fillEcc
  split
  · exact .refl s
  · refine foldl_keeps (P := EccOnly s) (.refl s) fun x m h => ?_
    split
    · exact h.trans (EccOnly.trans (t := { (dropEcc x m).countUnc die with ecc := _ }) rfl (eccVote_only ..))
    · exact h.trans rfl

theorem tlbEcc_only (s : State) (die ctx vpn : Nat) : EccOnly s (tlbEcc s die ctx vpn) := by
  unfold tlbEcc
  split
  · exact .refl s
  · split <;> rfl

theorem readEcc_only {s t : State} {die ctx loc : Nat} (h : readEcc s die ctx loc = .clean t) : SliceOnly s t := by
  unfold readEcc at h
  split at h
  · cases h; exact .refl s
  · split at h
    · cases h; rfl
    · split at h
      · split at h <;> cases h
        rfl
      · cases h

theorem readEccs_only {s t : State} {die ctx loc n : Nat} (h : readEccs s die ctx loc n = .clean t) : SliceOnly s t := by
  refine foldl_keeps (P := fun a => ∀ t, a = EccAnswer.clean t → SliceOnly s t) (fun t ht => ?_) (fun a x ha t ht => ?_) t h
  · cases ht; exact .refl s
  · cases a with
    | clean u => exact (ha u rfl).trans (readEcc_only ht)
    | uncorrectable => cases ht

theorem writeBack_only (s : State) (l : CLine) : SliceOnly s (writeBack s l) := (lineEcc_only s l).slice.trans rfl

theorem evict_only {s t : State} {die slice : Nat} {keep : Option (Nat × Nat)} (h : evict s die slice keep = some t) :
    SliceOnly s t := by
  unfold evict at h
  split at h
  · cases h; rfl
  · split at h <;> cases h
    exact (writeBack_only s _).trans rfl

theorem evictFor_only {die slice n : Nat} {keep : Option (Nat × Nat)} {k : Nat} {s t : State}
    (h : evictFor die slice n keep k s = some t) : SliceOnly s t := by
  induction k generalizing s with
  | zero =>
    rw [evictFor] at h
    split at h <;> cases h
    exact .refl _
  | succ k ih =>
    rw [evictFor] at h
    split at h
    · cases h; exact .refl _
    · split at h
      · next hu => exact (evict_only hu).trans (ih h)
      · cases h

theorem touchTlb_only (s : State) (die ctx va : Nat) (e : Pte) : SliceOnly s (touchTlb s die ctx va e) :=
  (tlbEcc_only s die ctx _).slice.trans rfl

theorem needLine_only {s t : State} {l : CLine} {die ctx va : Nat} {e : Pte} (h : needLine s die ctx va e = .present t l) :
    SliceOnly s t := by
  unfold needLine at h
  split at h
  · next c _ =>
    split at h <;> cases h
    exact SliceOnly.trans (t := touchLine s c) rfl (touchTlb_only ..)
  · split at h
    · cases h
    · next u hu =>
      cases h
      have hroom : SliceOnly s u := by
        split at hu
        · cases hu; exact .refl s
        · exact evictFor_only hu
      have hfilled := hroom.trans (fillEcc_only u die ctx va (e.phys va) e.rep).slice
      exact hfilled.trans (SliceOnly.trans (t := { fillEcc u die ctx va _ _ with lines := _, useCount := _ }) rfl (touchTlb_only ..))

theorem fetchLine_only {s t : State} {core ctx va : Nat} {data : BitVec 512} (h : fetchLine s core ctx va = .inr (t, data)) :
    SliceOnly s t := by
  unfold fetchLine at h
  dsimp only at h
  split at h
  · cases h
  split at h
  · cases h
  split at h
  · cases h
  split at h
  · cases h
  split at h
  · cases h
  next u hu =>
  split at h <;> cases h
  next hline => exact (readEccs_only hu).trans (needLine_only hline)

/-! ## A line of the instruction cache arrives (spec/05_issue.md R124) -/

/-- The fetch read halfwords until they were an instruction or none, and left the state `u`. -/
def FetchAnswer.Reads (a : FetchAnswer) (u : State) : Prop := (∃ i len iw, a = .instr u i len iw) ∨ ∃ iw, a = .illegal u iw

/-- A halfword read ends the fetch, or the next one is read. -/
theorem fetchFrom_half {s u : State} {core slot ctx pc n : Nat} {hs : List Half} {h : Half}
    (hh : fetchHalf s core slot ctx ((pc + 2 * hs.length) % 2 ^ 64) = .half u h) :
    (fetchFrom core slot ctx pc (n + 1) hs s).Reads u ∨
      fetchFrom core slot ctx pc (n + 1) hs s = fetchFrom core slot ctx pc n (hs ++ [h]) u := by
  rw [fetchFrom]
  simp only [hh]
  split
  · exact .inl (.inl ⟨_, _, _, rfl⟩)
  · exact .inr rfl
  · exact .inl (.inr ⟨_, rfl⟩)

/-- While the halfwords stand in the one line that the cache holds, the fetch changes nothing. -/
theorem fetchFrom_in_line {core slot ctx pc : Nat} {l : ICLine} (hline : l.line = lineOf pc) (hpc : pc < 2 ^ 64) {n : Nat}
    {hs : List Half} {s : State} (hl : OnlyLine s core ctx l) (hfit : pc % 64 + 2 * (hs.length + n) ≤ 64) :
    ∃ u, SameButCores s u ∧ (fetchFrom core slot ctx pc n hs s).Reads u := by
  induction n generalizing hs s with
  | zero => exact ⟨s, .refl s, .inr ⟨_, rfl⟩⟩
  | succ n ih =>
    obtain ⟨haddr, hsame⟩ := halfword_address hpc (show hs.length < hs.length + (n + 1) by omega) hfit
    have hset := SameButCores.setCore s core
    obtain ⟨h, hhalf⟩ : ∃ h, fetchHalf s core slot ctx ((pc + 2 * hs.length) % 2 ^ 64) =
        .half (s.setCore core (s.core core)) h :=
      ⟨_, by rw [haddr]; exact hl.fetchHalf slot (hline.trans hsame.symm)⟩
    obtain hend | hnext := fetchFrom_half (n := n) hhalf
    · exact ⟨_, hset, hend⟩
    · obtain ⟨u, hu, hread⟩ := ih (hl.same hset) (hs := hs ++ [h])
        (by rw [List.length_append, List.length_singleton]; omega)
      exact ⟨u, hset.trans hu, hnext ▸ hread⟩

/-- The line that a miss of a core's empty instruction cache brings. -/
def arrivedLine (ctx slot va : Nat) (data : BitVec 512) : ICLine :=
  { ctx := ctx, line := lineOf va, harvester := decide (8 ≤ slot), data := data }

/-- A core whose instruction cache holds one line alone. -/
def withLine (s : State) (core : Nat) (l : ICLine) : State := s.modCore core (fun c => { c with icache := [l] })

theorem withLine_onlyLine (s : State) (core ctx slot va : Nat) (data : BitVec 512) :
    OnlyLine (withLine s core (arrivedLine ctx slot va data)) core ctx (arrivedLine ctx slot va data) := by
  refine ⟨?_, rfl, rfl⟩
  rw [withLine, State.modCore_same]

theorem icFill_nil (l : ICLine) : icFill [] l = [l] := by
  unfold icFill
  cases l.harvester <;> rfl

theorem SliceOnly.core {s t : State} (h : SliceOnly s t) (c : Nat) : t.core c = s.core c := by
  unfold SliceOnly at h
  rw [h]; rfl

/-- A halfword that an empty instruction cache misses. -/
theorem fetchHalf_of_empty {s u : State} {core slot ctx va : Nat} {data : BitVec 512} (hempty : (s.core core).icache = [])
    (hline : fetchLine s core ctx va = .inr (u, data)) :
    ∃ h, fetchHalf s core slot ctx va = .half (withLine u core (arrivedLine ctx slot va data)) h := by
  have hicache : (u.core core).icache = [] := by rw [(fetchLine_only hline).core, hempty]
  refine ⟨(arrivedLine ctx slot va data).half va, ?_⟩
  unfold fetchHalf
  simp only [hempty, List.find?_nil, fetchMiss, hline, State.modCore, hicache, icFill_nil]
  rfl

theorem execIcacheFill_reads {s u : State} {core slot : Nat} (hst : (s.thread (tid core slot)).st = .ready)
    (h : (fetch s (tid core slot)).Reads u) : exec (.icacheFill core slot) s = .next u := by
  show execIcacheFill core slot s = _
  obtain ⟨i, len, iw, h⟩ | ⟨iw, h⟩ := h <;> simp [execIcacheFill, hst, h]

theorem icacheFill_spec {s u : State} {core slot : Nat} {data : BitVec 512} (hslot : slot < 16)
    (hst : (s.thread (tid core slot)).st = .ready) (hempty : (s.core core).icache = [])
    (hfit : (s.thread (tid core slot)).pc.toNat % 64 ≤ 52)
    (hline : fetchLine s core (s.ctxOf (tid core slot)) (s.thread (tid core slot)).pc.toNat = .inr (u, data)) :
    ∃ t, exec (.icacheFill core slot) s = .next t ∧
      (t.core core).icache = [arrivedLine (s.ctxOf (tid core slot)) slot (s.thread (tid core slot)).pc.toNat data] ∧
      t.threads = u.threads := by
  generalize hpc : (s.thread (tid core slot)).pc.toNat = pc at hfit hline
  generalize hctx : s.ctxOf (tid core slot) = ctx at hline
  have hlt : pc < 2 ^ 64 := hpc ▸ BitVec.isLt _
  let v := withLine u core (arrivedLine ctx slot pc data)
  have hv : OnlyLine v core ctx (arrivedLine ctx slot pc data) := withLine_onlyLine ..
  obtain ⟨t, hsame, hread⟩ : ∃ t, SameButCores v t ∧ (fetchFrom core slot ctx pc maxHalves [] s).Reads t := by
    obtain ⟨h, hhalf⟩ : ∃ h, fetchHalf s core slot ctx ((pc + 2 * ([] : List Half).length) % 2 ^ 64) = .half v h := by
      rw [List.length_nil, Nat.mul_zero, Nat.add_zero, Nat.mod_eq_of_lt hlt]
      exact fetchHalf_of_empty hempty hline
    obtain hend | hnext := fetchFrom_half (n := 5) hhalf
    · exact ⟨v, .refl v, hend⟩
    · obtain ⟨t, ht, hread⟩ := fetchFrom_in_line (slot := slot) (n := 5) (hs := [h]) rfl hlt hv
        (by rw [List.length_singleton]; omega)
      exact ⟨t, ht, hnext ▸ hread⟩
  refine ⟨t, execIcacheFill_reads hst ?_, (hv.same hsame).icache, ?_⟩
  · have hcore : coreOf (tid core slot) = core := by unfold coreOf tid; omega
    have hslotOf : slotOf (tid core slot) = slot := by unfold slotOf tid; omega
    rw [fetch, hcore, hslotOf, hctx, hpc]
    exact hread
  · rw [hsame.2]; rfl

end Sys2Proof.Machine

namespace Sys2Proof.Machine

open Sys2Proof

/-! ## A pending line fills (spec/10_pages.md R235) -/

/-- A line replaced keeps its place; every other line reads as before. -/
theorem State.setLine_line (s : State) (c : CLine) (die ctx va : Nat) :
    (s.setLine c).line die ctx va =
      (s.line die ctx va).map (fun x => if x.die = c.die ∧ x.ctx = c.ctx ∧ x.va = c.va then c else x) := by
  unfold State.line State.setLine
  rw [List.find?_map]
  congr 2
  funext x
  rw [Function.comp_apply]
  split
  · next h => rw [h.1, h.2.1, h.2.2]
  · rfl

/-- A line read at a place is the line of that place. -/
theorem State.line_key {s : State} {die ctx va : Nat} {c : CLine} (h : s.line die ctx va = some c) :
    c.die = die ∧ c.ctx = ctx ∧ c.va = va := by
  unfold State.line at h
  simpa using List.find?_some h

theorem State.setLine_line_same {s : State} {die ctx va : Nat} {c d : CLine} (h : s.line die ctx va = some c)
    (hd : d.die = c.die ∧ d.ctx = c.ctx ∧ d.va = c.va) : (s.setLine d).line die ctx va = some d := by
  obtain ⟨hdie, hctx, hva⟩ := hd
  rw [State.setLine_line, h, Option.map_some, if_pos ⟨hdie.symm, hctx.symm, hva.symm⟩]

theorem State.setLine_line_other (s : State) {die ctx va : Nat} {d : CLine} (h : (die, ctx, va) ≠ (d.die, d.ctx, d.va)) :
    (s.setLine d).line die ctx va = s.line die ctx va := by
  rw [State.setLine_line]
  cases hc : s.line die ctx va with
  | none => rfl
  | some c =>
    obtain ⟨rfl, rfl, rfl⟩ := State.line_key hc
    rw [Option.map_some, if_neg fun h' => h (by rw [h'.1, h'.2.1, h'.2.2])]

/-- The state of a line that fills: a copy of a replicated page is a replica (R206). -/
def filledSt (rep : Bool) : LineState := if rep then .replica else .clean

theorem filledSt_cases (rep : Bool) : filledSt rep = .clean ∨ filledSt rep = .replica := by
  cases rep
  · exact .inl rfl
  · exact .inr rfl

/-- Whether the page of a line is replicated. -/
def replicated (s : State) (die ctx va : Nat) : Bool :=
  match translate s die ctx va with
  | some e => e.rep
  | none => false

/-- A pending line with what its home holds. -/
def filledLine (s : State) (die ctx va : Nat) (c : CLine) : CLine :=
  { c with st := if replicated s die ctx va then .replica else .clean, data := fillData s ctx va c.phys }

theorem filledLine_st (s : State) (die ctx va : Nat) (c : CLine) :
    (filledLine s die ctx va c).st = .clean ∨ (filledLine s die ctx va c).st = .replica := by
  show (if _ then LineState.replica else LineState.clean) = _ ∨ (if _ then LineState.replica else LineState.clean) = _
  cases replicated s die ctx va
  · exact .inl rfl
  · exact .inr rfl

/-- A module whose damaged words of the fill are dealt with, and a pending line of it filled. -/
def lineFilled (s : State) (die ctx va : Nat) (c : CLine) : State :=
  (fillEcc s die ctx va c.phys (replicated s die ctx va)).setLine (filledLine s die ctx va c)

theorem execLineFill_pending {s : State} {die ctx : Nat} {va : BitVec 64} {c : CLine}
    (h : s.line die ctx (lineOf va.toNat) = some c) (hst : c.st = .pending) :
    exec (.lineFill die ctx va) s = .next (lineFilled s die ctx (lineOf va.toNat) c) := by
  show execLineFill die ctx va s = _
  unfold execLineFill
  simp only [h, hst, if_true]
  rfl

theorem EccOnly.line {s t : State} (h : EccOnly s t) (die ctx va : Nat) : t.line die ctx va = s.line die ctx va := by
  unfold EccOnly at h
  rw [h]; rfl

section Filled

variable {s : State} {die ctx va : Nat} {c : CLine} (h : s.line die ctx va = some c)
include h

theorem lineFilled_line : (lineFilled s die ctx va c).line die ctx va = some (filledLine s die ctx va c) :=
  State.setLine_line_same (((fillEcc_only ..).line ..).trans h) ⟨rfl, rfl, rfl⟩

theorem lineFilled_other {die' ctx' va' : Nat} (hne : (die', ctx', va') ≠ (die, ctx, va)) :
    (lineFilled s die ctx va c).line die' ctx' va' = s.line die' ctx' va' := by
  obtain ⟨hdie, hctx, hva⟩ := State.line_key h
  rw [lineFilled, State.setLine_line_other _ (by rw [← hdie, ← hctx, ← hva] at hne; exact hne), (fillEcc_only ..).line]

end Filled

theorem lineFilled_only (s : State) (die ctx va : Nat) (c : CLine) :
    let t := lineFilled s die ctx va c
    t = { s with lines := t.lines, ecc := t.ecc, dies := t.dies, ctxs := t.ctxs } ∧
      (s.ecc = [] → t = { s with lines := t.lines }) := by
  refine ⟨?_, fun hecc => ?_⟩
  · have honly := fillEcc_only s die ctx va c.phys (replicated s die ctx va)
    unfold EccOnly at honly
    rw [lineFilled, honly]; rfl
  · rw [lineFilled, fillEcc_of_undamaged hecc]; rfl

/-! ## A thread that becomes Ready where nothing is traced (spec/16_harvest.md R409, spec/20_accounting.md R468) -/

/-- No context traces on the die of a thread. -/
def Untraced (s : State) (x : Nat) : Prop := ∀ c, (s.dctx (dieOf (coreOf x)) c).trEn = 0

theorem State.count_dctx (s : State) (ctx idx n d c : Nat) : (s.count ctx idx n).dctx d c = s.dctx d c := by
  unfold State.dctx
  rw [State.count_ctx]

/-- Beside threads, cores and running counts nothing changed. -/
def CountsOnly (s t : State) : Prop :=
  t = { s with threads := t.threads, cores := t.cores, ctxs := t.ctxs } ∧ ∀ d c, t.dctx d c = s.dctx d c

theorem CountsOnly.trans {s t u : State} (h : CountsOnly s t) (h' : CountsOnly t u) : CountsOnly s u :=
  ⟨by rw [h'.1, h.1], fun d c => (h'.2 d c).trans (h.2 d c)⟩

/-- The record of a wake event, where its die does not trace. -/
theorem wakeNote_untraced {s : State} {die : Nat} (h : ∀ c, (s.dctx die c).trEn = 0) (hold : Option Nat) (ctx : Nat)
    (who : BitVec 32) : CountsOnly s (wakeNote s hold die ctx who) := by
  have hoff : ∀ u : State, (∀ d c, u.dctx d c = s.dctx d c) → u.trace die ctx 9 who (word who.toNat) = u :=
    fun u hu => State.trace_off (by rw [hu, h]; rfl)
  cases hold with
  | none => rw [wakeNote, hoff s fun _ _ => rfl]; exact ⟨rfl, fun _ _ => rfl⟩
  | some x => rw [wakeNote, hoff _ fun _ _ => State.count_dctx ..]; exact ⟨rfl, fun _ _ => State.count_dctx ..⟩

theorem State.ready_untraced {s : State} {x : Nat} (h : Untraced s x) : CountsOnly s (s.ready x) := by
  rw [State.ready]
  dsimp only
  refine ite_keeps (P := CountsOnly s) ⟨rfl, fun _ _ => rfl⟩ (ite_keeps (P := CountsOnly s) ⟨rfl, fun _ _ => rfl⟩
    (ite_keeps (P := CountsOnly s) (ite_keeps (P := CountsOnly s) ?_ ⟨rfl, fun _ _ => rfl⟩) ⟨rfl, fun _ _ => rfl⟩))
  have hnote (u : State) (hu : CountsOnly s u) (hold : Option Nat) (ctx : Nat) (who : BitVec 32) :
      CountsOnly s (wakeNote u hold (dieOf (coreOf x)) ctx who) :=
    hu.trans (wakeNote_untraced (fun c => by rw [hu.2, h]) ..)
  generalize hu : State.setCore (s.setThread x _) _ _ = u
  have hsu : CountsOnly s u := by subst hu; exact ⟨rfl, fun _ _ => rfl⟩
  exact hnote u hsu _ _ _

/-- A thread may have woken: its general registers, every other thread, memory, outstanding GETs and the registers of each context on
each die are as before. -/
structure Wakes (s t : State) (x : Nat) : Prop where
  others : ∀ u, u ≠ x → t.thread u = s.thread u
  rg : ∀ r, (t.thread x).rg r = (s.thread x).rg r
  fullG : ∀ r, (t.thread x).fullG r = (s.thread x).fullG r
  memory : SameMemory s t
  gets : t.gets = s.gets
  dctx : ∀ d c, t.dctx d c = s.dctx d c

theorem Wakes.refl (s : State) (x : Nat) : Wakes s s x :=
  ⟨fun _ _ => rfl, fun _ => rfl, fun _ => rfl, .refl s, rfl, fun _ _ => rfl⟩

theorem Wakes.trans {s t u : State} {x : Nat} (h : Wakes s t x) (h' : Wakes t u x) : Wakes s u x where
  others y hy := (h'.others y hy).trans (h.others y hy)
  rg r := (h'.rg r).trans (h.rg r)
  fullG r := (h'.fullG r).trans (h.fullG r)
  memory := h.memory.trans h'.memory
  gets := h'.gets.trans h.gets
  dctx d c := (h'.dctx d c).trans (h.dctx d c)

theorem Wakes.untraced {s t : State} {x : Nat} (h : Wakes s t x) (hs : Untraced s x) : Untraced t x :=
  fun c => by rw [h.dctx, hs]

theorem Wakes.ready {s : State} {x : Nat} (h : Untraced s x) : Wakes s (s.ready x) x := by
  by_cases hst : (s.thread x).st = .ready
  · rw [State.ready]
    dsimp only
    rw [if_pos hst]
    exact .refl s x
  · obtain ⟨⟨-, hothers, -⟩, hthread, -, -⟩ := State.ready_spec hst
    obtain ⟨honly, hdctx⟩ : CountsOnly .. := State.ready_untraced h
    refine ⟨hothers, fun r => by rw [hthread]; rfl, fun r => by rw [hthread]; rfl, .of_fields ?_ ?_ ?_, ?_, hdctx⟩
    all_goals rw [honly]

theorem Wakes.wake {s : State} {x : Nat} (h : Untraced s x) : Wakes s (s.wake x) x := by
  rw [State.wake]
  dsimp only
  split
  · split
    · exact ite_keeps (P := fun t => Wakes s t x) (.ready h) (.refl s x)
    · exact ite_keeps (P := fun t => Wakes s t x) (.ready h) (.refl s x)
    · exact .refl s x
  · exact .refl s x

/-- A change of one thread that keeps its general registers. -/
theorem Wakes.modThread {s : State} {x : Nat} {f : Thread → Thread} (hg : (f (s.thread x)).g = (s.thread x).g)
    (hfull : (f (s.thread x)).gFull = (s.thread x).gFull) : Wakes s (s.modThread x f) x where
  others _ hu := State.modThread_other s f hu
  rg r := by rw [State.modThread_same]; unfold Thread.rg; rw [hg]
  fullG r := by rw [State.modThread_same]; unfold Thread.fullG; rw [hfull]
  memory := .of_fields rfl rfl rfl
  gets := rfl
  dctx _ _ := rfl

theorem Wakes.wakeWfi {s : State} {x : Nat} (h : Untraced s x) : Wakes s (s.wakeWfi x) x := by
  rw [State.wakeWfi]
  exact ite_keeps (P := fun t => Wakes s t x) (Wakes.trans (.modThread rfl rfl) (.ready h)) (.refl s x)

/-- A result fills a register of a thread (spec/04_threads.md R87, R88). -/
structure Fills (s t : State) (x : Nat) (r : BitVec 5) (v : Word) : Prop where
  rg : (t.thread x).rg r = v
  fullG : (t.thread x).fullG r = true
  others : ∀ u, u ≠ x → t.thread u = s.thread u
  memory : SameMemory s t
  gets : t.gets = s.gets

theorem Fills.wakes {s t u : State} {x : Nat} {r : BitVec 5} {v : Word} (h : Fills s t x r v) (h' : Wakes t u x) :
    Fills s u x r v where
  rg := (h'.rg r).trans h.rg
  fullG := (h'.fullG r).trans h.fullG
  others y hy := (h'.others y hy).trans (h.others y hy)
  memory := h.memory.trans h'.memory
  gets := h'.gets.trans h.gets

theorem Fills.put (s : State) (x : Nat) {r : BitVec 5} (v : Word) (hr : r ≠ 0) :
    Fills s (s.modThread x (fun th => th.put r v)) x r v := by
  obtain ⟨-, -, hrg, hfull, -, -⟩ := putThread_writes (s.thread x) v hr
  refine ⟨?_, ?_, fun _ hu => State.modThread_other s _ hu, .of_fields rfl rfl rfl, rfl⟩
  · rw [State.modThread_same]
    exact (hrg r).trans (if_pos ⟨rfl, hr⟩)
  · rw [State.modThread_same]
    exact (hfull r).trans (by simp)

theorem State.fillG_fills {s : State} {x : Nat} {r : BitVec 5} (hr : r ≠ 0) (v : Word) (h : Untraced s x) :
    Fills s (s.fillG x r v) x r v := by
  have hput := Fills.put s x v hr
  have hun : Untraced (s.modThread x (fun th => th.put r v)) x := h
  rw [State.fillG, if_neg hr]
  dsimp only
  have hwake := Wakes.wake hun
  exact ite_keeps (P := fun t => Fills s t x r v) (hput.wakes (hwake.trans (.wakeWfi (hwake.untraced hun)))) hput

/-! ## A GET fills its register (spec/11_supersteps.md R289) -/

/-- What the data of a GET are: those of this module, none of a failed one, or those of the target's reply. -/
def getAnswer (s : State) (g : GetOp) : PreRange :=
  if g.tmod = s.modnum then preRange g.core g.slot g.ctx (partsOf g.addr g.len) s []
  else if s.failedModules.contains g.tmod then .got s none
  else match g.reply with
    | some r => .got s (if r.1 then some r.2 else none)
    | none => .waits

/-- The value of a GET: its bytes, or 0 where the target refuses. -/
def getValue (r : Option (List Byte)) : Word := (r.map wordOfBytes).getD 0

@[simp] theorem getValue_none : getValue none = 0 := rfl

@[simp] theorem getValue_some (bs : List Byte) : getValue (some bs) = wordOfBytes bs := rfl

theorem wordOfBytes_bytesOf (v : Word) : wordOfBytes (bytesOf 8 v.toNat) = v := by
  rw [wordOfBytes, ofBytes_bytesOf, Nat.mod_eq_of_lt (show v.toNat < 256 ^ 8 from v.isLt), BitVec.ofNat_toNat, BitVec.setWidth_eq]

theorem execGetFill_got {s u : State} {g : GetOp} {r : Option (List Byte)} (hfind : s.gets.find? (fun x => x.id = g.id) = some g)
    (hdead : g.dead = false) (hdest : g.dest = none) (hgot : getAnswer s g = .got u r) :
    exec (.getFill g.id) s = .next (endGet u g (getValue r)) := by
  have hfill : fillGet s g = match getAnswer s g with
      | .waits => s
      | .damaged s => stopGet s g
      | .got s r => endGet s g (match r with
        | some bs => wordOfBytes bs
        | none => 0) := by
    unfold fillGet
    simp only [hdead, hdest, Bool.false_eq_true, if_false]
    rfl
  show execGetFill g.id s = _
  rw [execGetFill, hfind]
  show Host.Outcome.next (fillGet s g) = _
  rw [hfill, hgot]
  cases r <;> rfl

theorem endGet_spec {s : State} {g : GetOp} {v : Word} (hd : 0 < g.d) (hd' : g.d < 32) (hslot : g.slot < slotsPerCore)
    (hquiet : ∀ c, (s.dctx (dieOf g.core) c).trEn = 0) :
    let x := tid g.core g.slot
    let t := endGet s g v
    (∀ y ∈ t.gets, y.id ≠ g.id) ∧ (t.thread x).rg (BitVec.ofNat 5 g.d) = v ∧ (t.thread x).fullG (BitVec.ofNat 5 g.d) = true ∧
      (∀ y, y ≠ x → t.thread y = s.thread y) ∧ SameMemory s t := by
  intro x t
  have hr : BitVec.ofNat 5 g.d ≠ 0 := fun h => by
    have := congrArg BitVec.toNat h
    rw [BitVec.toNat_ofNat, Nat.mod_eq_of_lt hd'] at this
    exact hd.ne' this
  have hun : Untraced s x := fun c => by rw [coreOf_tid hslot]; exact hquiet c
  let s0 := releaseLines { s with gets := s.gets.filter (fun y => y.id ≠ g.id) } g.id
  obtain ⟨hrg, hfull, hothers, hmem, hgets⟩ : Fills s0 t x (BitVec.ofNat 5 g.d) v := State.fillG_fills hr v hun
  refine ⟨fun y hy => ?_, hrg, hfull, hothers, hmem⟩
  rw [hgets] at hy
  simpa using (List.mem_filter.1 hy).2

/-- Settles O40: the fetch of an arriving line ends in it, a filling line replaces the pending one, and a GET that has its answer
fills its register and wakes its thread. -/
theorem linesArrive : Obligations.LinesArrive := by
  unfold Obligations.LinesArrive
  refine ⟨fun s core slot data s' hslot hst hempty _ hfit hline => icacheFill_spec hslot hst hempty hfit hline,
    fun s die ctx va c hline hst _ _ _ => ?_, fun s u g v hfind hdead hdest hd hd' hslot hquiet hanswer => ?_⟩
  · obtain ⟨honly, hsound⟩ := lineFilled_only s die ctx (lineOf va.toNat) c
    exact ⟨_, _, execLineFill_pending hline hst, lineFilled_line hline, rfl, filledLine_st .., honly, hsound,
      fun _ _ _ => lineFilled_other hline⟩
  · obtain ⟨r, hgot, rfl⟩ : ∃ r, getAnswer s g = .got u r ∧ getValue r = v := by
      unfold getAnswer
      obtain ⟨hmod, hpre⟩ | ⟨hmod, hpre, rfl⟩ | ⟨hmod, hfailed, rfl, rfl⟩ | ⟨hmod, hfailed, rfl, ok, bs, hreply, rfl⟩ := hanswer
      · exact ⟨some (bytesOf 8 v.toNat), by rw [if_pos hmod, hpre], wordOfBytes_bytesOf v⟩
      · exact ⟨none, by rw [if_pos hmod, hpre], getValue_none⟩
      · exact ⟨none, by rw [if_neg hmod, if_pos hfailed], getValue_none⟩
      · refine ⟨if ok then some bs else none, ?_, by cases ok <;> simp⟩
        rw [if_neg hmod, if_neg (by rw [hfailed]; exact Bool.false_ne_true), hreply]
    exact ⟨_, execGetFill_got hfind hdead hdest hgot, endGet_spec hd hd' hslot hquiet⟩

end Sys2Proof.Machine

namespace Sys2Proof.Machine

open Sys2Proof

/-! ## Sound register words (spec/18_traps.md R444) -/

theorem Thread.hurt_of_sound {th : Thread} (h : th.regEcc = []) (n : Nat) : th.hurt n = none := by
  rw [Thread.hurt, h]
  rfl

theorem State.readRegs_sound {s : State} (h : s.th.regEcc = []) (ns : List Nat) (k : State → State) : s.readRegs ns k = k s := by
  rw [State.readRegs, if_pos]
  simp [Thread.hurt_of_sound h]

/-! ## The sequencer at rest (spec/06_vector.md R142, R146) -/

/-- A sequencer that stands at an entry or at its end stays there. -/
theorem settled_of_stop {q : Seq} {lc : Vector LoopReg 2} (h : q.retire.move lc = none) : settled q lc = (q.retire, lc) := by
  rw [settled, show 32 * (q.items.length + 4) = 32 * q.items.length + 127 + 1 by omega, settle]
  simp only [h]

theorem Thread.settle_of_stop {th : Thread} (h : th.seq.retire.move th.lc = none) :
    th.settle = { th with seq := th.seq.retire } := by
  rw [Thread.settle, settled_of_stop h]

/-- An idle stream with one entry stands at it. -/
theorem Thread.settle_entry {th : Thread} {e : VEntry} (h : th.seq = { items := [.entry e], pos := 0, frames := [] }) :
    th.settle = th := by
  rw [Thread.settle_of_stop (by rw [h]; rfl), h]
  show { th with seq := { items := [VItem.entry e], pos := 0, frames := [] } } = th
  rw [← h]

/-! ## Queuing (spec/06_vector.md R142) -/

@[simp] theorem Thread.enqueue_pc (th : Thread) (x : VItem) : (th.enqueue x).pc = th.pc := rfl

/-- An entry that an idle stream takes is the one it stands at. -/
theorem Thread.enqueue_idle {th : Thread} {e : VEntry} (hframes : th.seq.frames = []) (hpos : th.seq.pos = 0)
    (hitems : th.seq.items = []) : th.enqueue (.entry e) = { th with seq := { th.seq with items := [.entry e] } } := by
  rw [Thread.enqueue, Thread.settle_entry (e := e) (by simp only [hframes, hpos, hitems, List.nil_append]), hitems, List.nil_append]

/-- The g registers that an entry names. -/
def namedG (ga gb : Bool) (a b : BitVec 5) : List (BitVec 5) := (if ga then [a] else []) ++ (if gb then [b] else [])

/-- A g operand that waits for a RAMO result (spec/11_supersteps.md R290). -/
def Thread.ramoDue (th : Thread) (r : BitVec 5) : Bool := !th.fullG r && th.ramo.getLsbD r.toNat

section Queuing

variable {op : VOp} {t : BitVec 4} {m : BitVec 3} {d a b : BitVec 5} {ga gb : Bool} {s : State}

theorem queueEntry_due {r : BitVec 5} (h : (namedG ga gb a b).find? s.th.ramoDue = some r) :
    queueEntry op t m d a b ga gb s = s.raise 8 (word r.toNat) false := by
  unfold namedG Thread.ramoDue at h
  simp only [queueEntry, h]

theorem queueEntry_full (h : (namedG ga gb a b).find? s.th.ramoDue = none) (hfull : 16 ≤ entryCount s.th.seq.items) :
    queueEntry op t m d a b ga gb s = s := by
  unfold namedG Thread.ramoDue at h
  simp only [queueEntry, h, if_pos hfull]

theorem queueEntry_room (h : (namedG ga gb a b).find? s.th.ramoDue = none) (hroom : entryCount s.th.seq.items < 16)
    (hs : s.th.regEcc = []) :
    queueEntry op t m d a b ga gb s = (s.modTh (·.enqueue (.entry
      { op := op, t := t, m := m, d := d, a := a, b := b, ca := captureG s.th ga a, cb := captureG s.th gb b, rm := s.th.rm,
        pc := s.th.pc, popped := none }))).advance := by
  unfold namedG Thread.ramoDue at h
  simp only [queueEntry, h, if_neg (not_le.2 hroom), State.readRegs_sound hs]

end Queuing

theorem captureG_eq (th : Thread) (use : Bool) (r : BitVec 5) :
    captureG th use r = if use then (if th.fullG r then .val (th.rg r) else .wait r) else .none := by
  cases use <;> rfl

/-- The first of the named registers that waits for a RAMO result. -/
theorem find_namedG (p : BitVec 5 → Bool) (ga gb : Bool) (a b : BitVec 5) :
    (namedG ga gb a b).find? p = if ga = true ∧ p a = true then some a else if gb = true ∧ p b = true then some b else none := by
  cases ga <;> cases gb <;> cases ha : p a <;> cases hb : p b <;> simp [namedG, ha, hb]

/-- Every vector instruction but those of the scalar stream queues its entry. -/
theorem exec_vectorForm (s : State) (t : BitVec 4) (m : BitVec 3) (d a b : BitVec 5) (g : BitVec 4) (sr : BitVec 1) :
    ∀ x ∈ vectorForms t m d a b g sr, exec x.1 s =
      .next (queueEntry x.2.1 x.2.2.1 x.2.2.2.1 d x.2.2.2.2.1 x.2.2.2.2.2.1 x.2.2.2.2.2.2.1 x.2.2.2.2.2.2.2 s) := by
  simp only [vectorForms, vectorInts, vectorFloats, vectorCompares, vectorMoves, vectorMemory, vectorMasks,
    List.forall_mem_append, List.forall_mem_cons, List.not_mem_nil, false_imp_iff, implies_true, and_true]
  and_intros
  all_goals rfl

/-- Settles O29: every form is one queuing, which traps, waits or appends its entry. -/
theorem vectorEntriesQueue : Obligations.VectorEntriesQueue := by
  unfold Obligations.VectorEntriesQueue
  intro s t m d a b g sr i op t' m' a' b' ga gb hform
  have hexec : exec i s = .next (queueEntry op t' m' d a' b' ga gb s) := exec_vectorForm s t m d a b g sr _ hform
  have hdue (use : Bool) (r : BitVec 5) :
      (use = true ∧ s.th.fullG r = false ∧ s.th.ramo.getLsbD r.toNat = true) ↔ use = true ∧ s.th.ramoDue r = true := by
    simp [Thread.ramoDue]
  simp only [hdue, ← captureG_eq]
  refine ⟨fun hna hnb => ⟨fun hroom hs => ?_, fun hfull => ?_⟩, fun htakes ha => ?_, fun htakes hna hb => ?_⟩
  · have hfind : (namedG ga gb a' b').find? s.th.ramoDue = none := by rw [find_namedG, if_neg hna, if_neg hnb]
    have hleaves : Leaves i s (s.th.enqueue (.entry _)) :=
      ⟨_, hexec.trans (congrArg _ (queueEntry_room hfind hroom hs)), s.modTh_completed _ rfl⟩
    exact ⟨hleaves, fun hframes hpos hitems => by rwa [Thread.enqueue_idle hframes hpos hitems] at hleaves⟩
  · rw [hexec, queueEntry_full (by rw [find_namedG, if_neg hna, if_neg hnb]) hfull]
  · exact traps_of htakes (hexec.trans (congrArg _ (queueEntry_due (by rw [find_namedG, if_pos ha]))))
  · exact traps_of htakes (hexec.trans (congrArg _ (queueEntry_due (by rw [find_namedG, if_neg hna, if_pos hb]))))


/-- The running thread changed to `th`, then completion. -/
theorem State.modTh_completed_of_eq {s : State} {f : Thread → Thread} {th : Thread} (h : f s.th = th) (hpc : th.pc = s.th.pc) :
    Completed s (s.modTh f).advance th := by
  rw [← h] at hpc ⊢
  exact s.modTh_completed f hpc

/-! ## Loop registers (spec/06_vector.md R145-R147) -/

theorem getCount_eq (lc : Vector LoopReg 2) (level : Nat) : getCount lc level = (getLoop lc level).count := by
  unfold getCount getLoop
  split <;> rfl

/-- With no loop queued, LCW sets the count of its level alone. -/
theorem lcwSeq_empty (lc : Vector LoopReg 2) (level : Nat) (c : BitVec 32) :
    lcwSeq Seq.empty lc level c = (Seq.empty, setCount lc level c) := rfl

theorem vloopAllowed_idle {th : Thread} (himage : th.image = none) (hseq : th.seq = Seq.empty) (level n : Nat) :
    vloopAllowed th level n = true := by
  simp [vloopAllowed, himage, hseq, Seq.openLoop, Seq.empty]

/-- The count that LCW sets: the value of its source, or the greatest of 32 bits. -/
theorem lcwCount_eq (w : Word) :
    (if wfld w 32 32 = 0 then w.setWidth 32 else BitVec.allOnes 32) = BitVec.ofNat 32 (min w.toNat (2 ^ 32 - 1)) := by
  have hhigh : wfld w 32 32 = w.toNat / 2 ^ 32 := by
    rw [wfld, fld, Nat.shiftRight_eq_div_pow]
    have := w.isLt
    omega
  apply BitVec.eq_of_toNat_eq
  rw [hhigh, BitVec.toNat_ofNat]
  split
  · rw [BitVec.toNat_setWidth]; omega
  · rw [BitVec.toNat_allOnes]; omega

theorem wfld_low_nibbles (w : Word) : wfld w 0 4 = w.toNat % 16 ∧ wfld w 4 4 = w.toNat / 16 % 16 := by
  simp only [wfld, fld, Nat.shiftRight_eq_div_pow]
  omega

theorem execVloop_idle {s : State} (himage : s.th.image = none) (hseq : s.th.seq = Seq.empty) (hs : s.th.regEcc = [])
    (d n : BitVec 5) : exec (.vloop d n) s = .next (s.modTh (fun th => { th with lc := setPending th.lc d.toNat none }.enqueue
      (.loop (markLoop (getLoop th.lc d.toNat) d.toNat (n.toNat + 1))))).advance := by
  show execVloop d n s = _
  simp only [execVloop, vloopAllowed_idle himage hseq, Bool.not_true, Bool.false_eq_true, if_false, State.readRegs_sound hs]

theorem execLcr_own {s : State} (himage : s.th.image = none) (hs : s.th.regEcc = []) (d a : BitVec 5) :
    exec (.lcr d a) s = .next (s.putG d ((getLoop s.th.lc a.toNat).count.setWidth 64)).advance := by
  show execLcr d a s = _
  simp only [execLcr, State.readRegs_sound hs, himage, getCount_eq]

theorem execLbw_full {s : State} {a : BitVec 5} (h : FullAll s [a]) (d : BitVec 5) :
    let c := (s.th.rg a).toNat
    exec (.lbw d a) s = .next (s.modTh (fun th =>
      { th with lc := setPending th.lc d.toNat (if c % 16 ≤ c / 16 % 16 then some (c % 16, c / 16 % 16) else none) })).advance := by
  obtain ⟨hb, he⟩ := wfld_low_nibbles (s.th.rg a)
  show execLbw d a s = _
  simp only [execLbw, State.withG_full h, hb, he]

theorem execLcw_idle {s : State} {a : BitVec 5} (h : FullAll s [a]) (himage : s.th.image = none) (hseq : s.th.seq = Seq.empty)
    (hs : s.th.regEcc = []) (d : BitVec 5) :
    Leaves (.lcw d a) s
      { s.th with lc := setCount s.th.lc d.toNat (BitVec.ofNat 32 (min (s.th.rg a).toNat (2 ^ 32 - 1))) } := by
  refine ⟨_, congrArg Host.Outcome.next (State.withG_full h _), ?_⟩
  refine State.modTh_completed_of_eq ?_ rfl
  simp only [himage, hseq, lcwSeq_empty, lcwCount_eq, hs]
  rfl

/-- Settles O32: each is a change of the loop registers of the running thread. -/
theorem vectorLoopRegisters : Obligations.VectorLoopRegisters := by
  unfold Obligations.VectorLoopRegisters
  intro s d n a hd himage hseq hs reg len span
  have hmark : markLoop reg d.toNat len = { level := d.toNat, n := len, b := span.1, e := span.2, count := reg.count } := by
    simp only [markLoop, span]
    cases reg.pending with
    | none => rfl
    | some p => dsimp only; split <;> rfl
  refine ⟨⟨_, execVloop_idle himage hseq hs d n, ?_⟩, ⟨_, execLcr_own himage hs a d, s.putG_yields a _⟩, fun hfull =>
    ⟨⟨_, execLbw_full hfull d, s.modTh_completed _ rfl⟩, execLcw_idle hfull himage hseq hs d⟩⟩
  rw [← hmark]
  exact s.modTh_completed _ rfl

end Sys2Proof.Machine

namespace Sys2Proof.Machine

open Sys2Proof

/-! ## Loads of the own local store where nothing disturbs them (spec/07_local_store.md R175, R178) -/

theorem readEccs_of_undamaged {s : State} (h : Undamaged s) (die ctx loc n : Nat) : readEccs s die ctx loc n = .clean s := by
  refine foldl_keeps (P := fun a => a = EccAnswer.clean s) rfl fun a x ha => ?_
  rw [ha]
  have hsound : eccAt s die ctx x = none := by rw [eccAt, h]; rfl
  simp only [readEcc, hsound]

theorem reclaimFor_unleased {s : State} {core off : Nat} (h : Unleased s core (off / 4096)) (slot : Nat) :
    reclaimFor s core slot (.own off) = some s := by
  obtain ⟨hlease, hresidue⟩ := h
  have hreclaim : reclaim s core (off / 4096) = some s := by
    simp only [reclaim, hlease, reclaimResidue, hresidue, Bool.not_false, if_true]
  simp only [reclaimFor, hreclaim, ite_self]

/-- With an empty store buffer a load of the own local store finds the bytes that memory holds, and changes nothing. -/
theorem loadPlace_own {s : State} {t off n : Nat} (hn : 0 < n) (hsb : (s.thread t).sb = []) (howned : s.owned = [])
    (hecc : Undamaged s) (hfree : Unleased s (coreOf t) (off / 4096)) :
    loadPlace s t (.own off) n = .bytes s (s.readN (localAddr (coreOf t) off) n) := by
  have hnone : ∀ loc, forwarded (s.thread t).sb loc = none := fun loc => by rw [hsb]; rfl
  have hidle : ∀ die ctx loc, lineBusy s die ctx loc = false := fun die ctx loc => by rw [lineBusy, howned]; rfl
  have hall : ((List.range n).map (fun _ => (none : Option Byte))).all Option.isSome = false := by
    rw [List.all_eq_false]
    exact ⟨none, List.mem_map.2 ⟨0, List.mem_range.2 hn, rfl⟩, by simp⟩
  have hany : ((List.range n).map (fun _ => (none : Option Byte))).any Option.isSome = false := by simp
  simp only [loadPlace, hnone, hall, hany, Bool.and_false, Bool.false_eq_true, if_false, hidle, reclaimFor_unleased hfree,
    readPlace, imageEccs, readEccs_of_undamaged hecc]

/-! ## Descriptor images (spec/02_encoding.md Table 2.10, spec/06_vector.md R162) -/

/-- Four words in one number, the lowest first. -/
def fourWords (w : Fin 4 → Word) : Nat :=
  (w 0).toNat + (w 1).toNat * 2 ^ 64 + (w 2).toNat * 2 ^ 128 + (w 3).toNat * 2 ^ 192

theorem fld_fourWords (w : Fin 4 → Word) (i : Fin 4) : fld (fourWords w) (64 * i) 64 = (w i).toNat := by
  have h0 := (w 0).isLt
  have h1 := (w 1).isLt
  have h2 := (w 2).isLt
  have h3 := (w 3).isLt
  rw [fourWords, fld, Nat.shiftRight_eq_div_pow]
  fin_cases i <;> simp <;> omega

theorem exists_fourWords (x : BitVec 256) : ∃ w, x.toNat = fourWords w := by
  have hx := x.isLt
  refine ⟨fun i => word (fld x.toNat (64 * i) 64), ?_⟩
  simp only [fourWords, word, BitVec.toNat_ofNat, fld, Nat.shiftRight_eq_div_pow]
  simp
  omega

/-- Replacing a field replaces a word. -/
theorem fourWords_update (w : Fin 4 → Word) (i : Fin 4) (v : Word) :
    fourWords w - fld (fourWords w) (64 * i) 64 * 2 ^ (64 * i.val) + v.toNat * 2 ^ (64 * i.val) = fourWords (Function.update w i v) := by
  rw [fld_fourWords]
  fin_cases i <;> simp [fourWords, Function.update] <;> omega

/-- Dropping the reserved bits cuts word 3. -/
theorem fld_descImage_fourWords (w : Fin 4 → Word) (i : Fin 4) :
    fld (descImage (fourWords w)).toNat (64 * i) 64 = (w i).toNat % (if i = 3 then 2 ^ 36 else 2 ^ 64) := by
  have h0 := (w 0).isLt
  have h1 := (w 1).isLt
  have h2 := (w 2).isLt
  have h3 := (w 3).isLt
  rw [descImage, fourWords, fld, Nat.shiftRight_eq_div_pow, BitVec.toNat_ofNat]
  fin_cases i <;> simp <;> omega

/-- A descriptor image with word `i` replaced and reserved bits dropped, word by word. -/
theorem fld_descImage_replace (x : BitVec 256) (v : Word) {i j : Nat} (hi : i < 4) (hj : j < 4) :
    fld (descImage (x.toNat - fld x.toNat (64 * i) 64 * 2 ^ (64 * i) + v.toNat * 2 ^ (64 * i))).toNat (64 * j) 64 =
      (if j = i then v.toNat else fld x.toNat (64 * j) 64) % (if j = 3 then 2 ^ 36 else 2 ^ 64) := by
  obtain ⟨w, hw⟩ := exists_fourWords x
  lift i to Fin 4 using hi
  lift j to Fin 4 using hj
  rw [hw, fourWords_update, fld_descImage_fourWords, fld_fourWords, Function.update_apply]
  simp only [Fin.ext_iff, apply_ite BitVec.toNat]
  rfl

/-- Writing a descriptor of a thread without damaged words. -/
theorem writeTd_sound {th : Thread} (h : th.regEcc = []) (r : BitVec 5) (x : Desc) (ws : List Nat) :
    writeTd th r x ws = setTd th r x := by
  have hfilter : (setTd th r x).regEcc = [] := h
  rw [writeTd, h, List.filter_nil, ← hfilter]

theorem execTdset_leaves {s : State} {d a b : BitVec 5} (h : FullAll s [a, b]) (hs : s.th.regEcc = []) :
    let i := (s.th.rg b).toNat % 4
    let x := (tdOf s.th d).img.toNat
    Leaves (.tdset d a b) s
      (setTd s.th d { img := descImage (x - fld x (64 * i) 64 * 2 ^ (64 * i) + (s.th.rg a).toNat * 2 ^ (64 * i)), pos := 0 }) :=
  ⟨_, congrArg Host.Outcome.next (State.withG_full h _), State.modTh_completed_of_eq (writeTd_sound hs ..) rfl⟩

theorem execTdld_leaves {s : State} {d a : BitVec 5} (h : FullAll s [a]) (hs : s.th.regEcc = []) (hdrained : Drained s)
    (hfree : Undisturbed s) (halign : (s.th.rg a).toNat % 32 = 0) {off : Nat}
    (hcheck : checkAccess s s.curCore s.curSlot s.th.mode s.curCtx .read (s.th.rg a).toNat = .ok (.own off))
    (hunleased : Unleased s s.curCore (off / 4096)) :
    Leaves (.tdld d a) s
      (setTd s.th d { img := descImage (ofBytes (s.readN (localAddr s.curCore off) 32)), pos := 0 }) := by
  obtain ⟨hvector, hsb⟩ := hdrained
  obtain ⟨howned, hecc⟩ := hfree
  have hload : loadPlace s s.cur (.own off) 32 = .bytes s (s.readN (localAddr s.curCore off) 32) :=
    loadPlace_own (by omega) hsb howned hecc hunleased
  refine ⟨(s.modTh (fun th => writeTd th d _ (tdWords (d.setWidth 3)))).advance, ?_,
    State.modTh_completed_of_eq (writeTd_sound hs ..) rfl⟩
  show execTdld d a s = _
  simp only [execTdld, State.withG_full h, State.withVector_free hvector, loadThen, halign, ne_eq, not_true_eq_false, if_false,
    hcheck, hload]

/-! ## Stores of an aligned value (spec/07_local_store.md R175, spec/09_ordering.md R211) -/

/-- Byte `k` of a number, by division and as a field. -/
theorem ofNat_div_pow (x k : Nat) : BitVec.ofNat 8 (x / 256 ^ k) = BitVec.ofNat 8 (fld x (8 * k) 8) := by
  apply BitVec.eq_of_toNat_eq
  rw [fld, Nat.shiftRight_eq_div_pow, Nat.pow_mul, BitVec.toNat_ofNat, BitVec.toNat_ofNat, Nat.mod_mod]

theorem getElem_bytesOf {n x k : Nat} (hk : k < n) : (bytesOf n x)[k]? = some (BitVec.ofNat 8 (x / 256 ^ k)) := by
  induction n generalizing x k with
  | zero => omega
  | succ n ih =>
    cases k with
    | zero => simp [bytesOf]
    | succ k =>
      rw [bytesOf, List.getElem?_cons_succ, ih (by omega), Nat.div_div_eq_div_mul, pow_succ']

/-- The cells of a store, byte by byte. -/
theorem getElem_storeCells (core : Nat) (q : Place) {n x k : Nat} (hk : k < n) :
    (storeCells core q (bytesOf n x))[k]? = some (q.loc core + k, BitVec.ofNat 8 (x / 256 ^ k)) := by
  have hlen : k < (bytesOf n x).length := by rwa [bytesOf_length]
  simp [storeCells, List.getElem?_map, List.getElem?_range hlen, getElem_bytesOf hk]


theorem execTdst_buffers {s s' : State} {d a : BitVec 5} (h : FullAll s [a]) (hs : s.th.regEcc = []) (hdrained : Drained s)
    (halign : (s.th.rg a).toNat % 32 = 0) {q : Place}
    (hcheck : checkAccess s s.curCore s.curSlot s.th.mode s.curCtx .write (s.th.rg a).toNat = .ok q)
    (hroom : storeRoom q 32 s = .taken s') :
    exec (.tdst d a) s = .next (pushStore q (s.th.rg a) (bytesOf 32 (tdOf s.th d).img.toNat) s').advance := by
  obtain ⟨hvector, hsb⟩ := hdrained
  show execTdst d a s = _
  simp only [execTdst, State.withG_full h, State.withVector_free hvector, State.readRegs_sound hs, storeThen, bytesOf_length,
    halign, ne_eq, not_true_eq_false, if_false, hcheck, hsb, List.length_nil, hroom]
  rfl

/-- A store in the buffer: its entry, where the rest of the thread stays. -/
theorem pushStore_completed (s : State) (q : Place) (ea : Word) (bs : List Byte) :
    Completed s (pushStore q ea bs s).advance
      { s.th with sb := s.th.sb ++ [{ far := !q.near, ea := s.reach s.cur ea, cells := storeCells s.curCore q bs }] } :=
  s.modTh_completed _ rfl

/-! ## The walk of a descriptor (spec/06_vector.md R163) -/

theorem badView_iff (x : Desc) : badView x = true ↔ (∃ i < 4, descExt x i = 0) ∨ 13 < (descType x).toNat := by
  simp [badView]

/-- The position of a chunk and its coordinates determine each other. -/
theorem walks_eq {x : Desc} {pos total : Nat} {va : Word} (h : Walks x pos va total) :
    total = walkTotal x ∧ va = chunkAddr x pos := by
  obtain ⟨c, i1, i2, i3, k, hc, hk, h1, h2, h3, hpos, rfl, rfl⟩ := h
  obtain rfl : c = chunkCount x := hc
  refine ⟨rfl, ?_⟩
  have hrow : pos / chunkCount x = i1 + descExt x 1 * (i2 + descExt x 2 * i3) := by
    rw [hpos, Nat.add_mul_div_left _ _ (by omega), Nat.div_eq_of_lt hk, zero_add]
  have hchunk : pos % chunkCount x = k := by rw [hpos, Nat.add_mul_mod_self_left, Nat.mod_eq_of_lt hk]
  have hplane : pos / chunkCount x / descExt x 1 = i2 + descExt x 2 * i3 := by
    rw [hrow, Nat.add_mul_div_left _ _ (by omega), Nat.div_eq_of_lt h1, zero_add]
  have hi1 : pos / chunkCount x % descExt x 1 = i1 := by rw [hrow, Nat.add_mul_mod_self_left, Nat.mod_eq_of_lt h1]
  have hi2 : pos / chunkCount x / descExt x 1 % descExt x 2 = i2 := by
    rw [hplane, Nat.add_mul_mod_self_left, Nat.mod_eq_of_lt h2]
  have hi3 : pos / chunkCount x / (descExt x 1 * descExt x 2) = i3 := by
    rw [← Nat.div_div_eq_div_mul, hplane, Nat.add_mul_div_left _ _ (by omega), Nat.div_eq_of_lt h2, zero_add]
  simp only [chunkAddr, hchunk, hi1, hi2, hi3, Nat.cast_mul, Nat.cast_ofNat]

theorem vmapPush_full {q : BitVec 2} {td : BitVec 5} {x : Desc} {pos next : Nat} {s : State} (h : 8 ≤ (s.th.queue q).length) :
    vmapPush q td x pos next s = s.park (.queue q.toNat) := if_pos h

theorem vmapPush_completed {q : BitVec 2} {td : BitVec 5} {x : Desc} {pos next : Nat} {s : State}
    (h : (s.th.queue q).length < 8) :
    Completed s (vmapPush q td x pos next s)
      (setTd (s.th.setQueue q (s.th.queue q ++ [chunkAddr x pos])) td { x with pos := word (next % walkTotal x) }) := by
  rw [vmapPush, if_neg (by omega)]
  exact s.modTh_completed _ rfl

section Vmap

variable {s : State} {d a b : BitVec 5} (h : FullAll s [b]) (hs : s.th.regEcc = [])

include h hs

theorem execVmap_full : exec (.vmap d a b) s = .next (if badView (tdOf s.th a) then s.raise 4 (descBase (tdOf s.th a)) false
    else vmapPush (qIdx d) a (tdOf s.th a) ((tdOf s.th a).pos.toNat % walkTotal (tdOf s.th a))
      ((tdOf s.th a).pos.toNat + (s.th.rg b).toNat) s) := by
  show execVmap d a b s = _
  simp only [execVmap, State.withG_full h, State.readRegs_sound hs]

theorem execVmapR_full : exec (.vmapR d a b) s = .next (if badView (tdOf s.th a) then s.raise 4 (descBase (tdOf s.th a)) false
    else vmapPush (qIdx d) a (tdOf s.th a) ((s.th.rg b).toNat % walkTotal (tdOf s.th a))
      ((s.th.rg b).toNat % walkTotal (tdOf s.th a) + 1) s) := by
  show execVmapR d a b s = _
  simp only [execVmapR, State.withG_full h, State.readRegs_sound hs]

end Vmap

/-- Settles O33: descriptors are fields of a thread, and a chunk's address follows from the digits of its position. -/
theorem tensorDescriptors : Obligations.TensorDescriptors := by
  unfold Obligations.TensorDescriptors
  intro s d a b hs
  refine ⟨fun hfull => ⟨_, execTdset_leaves hfull hs, fun i hi => fld_descImage_replace _ _ (Nat.mod_lt _ (by omega)) hi⟩,
    fun hfull hdrained hfree halign => ⟨fun off hcheck hunleased => ?_, fun q s' hcheck hroom => ?_⟩, fun hfull => ?_⟩
  · exact execTdld_leaves hfull hs hdrained hfree halign hcheck hunleased
  · refine ⟨_, _, execTdst_buffers hfull hs hdrained halign hcheck hroom, pushStore_completed .., rfl, rfl, ?_, fun n hn => ?_⟩
    · simp [storeCells, bytesOf_length]
    · rw [← ofNat_div_pow]; exact getElem_storeCells _ _ hn
  · intro x q bad
    have hvmap := execVmap_full (d := d) (a := a) hfull hs
    have hvmapR := execVmapR_full (d := d) (a := a) hfull hs
    refine ⟨fun hbad htakes => ?_, fun hok total hwalk hroom => ?_, fun hok hfullq => ?_⟩
    · rw [if_pos ((badView_iff x).2 hbad)] at hvmap hvmapR
      exact ⟨traps_of htakes hvmap, traps_of htakes hvmapR⟩
    · rw [if_neg (mt (badView_iff x).1 hok)] at hvmap hvmapR
      obtain ⟨p, va, hp⟩ := hwalk
      obtain ⟨rfl, -⟩ := walks_eq hp
      refine ⟨fun va hva => ?_, fun va hva => ?_⟩
      · rw [(walks_eq hva).2]; exact ⟨_, hvmap, vmapPush_completed hroom⟩
      · rw [(walks_eq hva).2]; exact ⟨_, hvmapR, vmapPush_completed hroom⟩
    · rw [if_neg (mt (badView_iff x).1 hok)] at hvmap hvmapR
      exact ⟨hvmap.trans (congrArg _ (vmapPush_full hfullq)), hvmapR.trans (congrArg _ (vmapPush_full hfullq))⟩

end Sys2Proof.Machine

namespace Sys2Proof.Machine

open Sys2Proof

/-! ## What an entry that executes leaves beside its thread (spec/06_vector.md R143) -/

/-- Beside the thread `x`, which is `u`, only running counts of contexts changed. -/
def Ran (s t : State) (x : Nat) (u : Thread) : Prop :=
  t.thread x = u ∧ (∀ y, y ≠ x → t.thread y = s.thread y) ∧ t = { s with threads := t.threads, ctxs := t.ctxs }

/-- A thread whose entry has written v[d] and raised flags. -/
def wroteV (e : VEntry) (v : VWord) (fl : FFlags) (th : Thread) : Thread :=
  { th.wv e.d v (fun k => decide (e.wordBytes (th.rm_ e.m) k = 8)) with fflags := th.fflags ||| fl }

section RanRules

variable {s t : State} {x : Nat} {u : Thread}

theorem Ran.refl (s : State) (x : Nat) : Ran s s x (s.thread x) := ⟨rfl, fun _ _ => rfl, rfl⟩

theorem Ran.modThread (h : Ran s t x u) (f : Thread → Thread) : Ran s (t.modThread x f) x (f u) := by
  obtain ⟨hu, hothers, honly⟩ := h
  refine ⟨by rw [State.modThread_same, hu], fun y hy => (State.modThread_other t f hy).trans (hothers y hy), ?_⟩
  show { t with threads := _ } = _
  rw [honly]
  rfl

theorem Ran.countFloat (h : Ran s t x u) (ty : BitVec 4) (n : Nat) : Ran s (countFloat t x ty n) x u := by
  obtain ⟨hu, hothers, honly⟩ := h
  unfold Machine.countFloat
  split
  · refine ⟨hu, hothers, ?_⟩
    show { t with ctxs := _ } = _
    rw [honly]
    rfl
  · exact ⟨hu, hothers, honly⟩

theorem State.wakeWfi_of_ne {s : State} {x : Nat} (h : (s.thread x).wait ≠ .wfi) : s.wakeWfi x = s := by
  simp [State.wakeWfi, h]

theorem State.wake_of_ready {s : State} {x : Nat} (h : (s.thread x).st = .ready) : s.wake x = s := by
  simp [State.wake, h]

theorem Ran.writeV (h : Ran s t x u) (hwait : u.wait ≠ .wfi) (e : VEntry) (v : VWord) (fl : FFlags) :
    Ran s (writeV t x e v fl) x (wroteV e v fl u) := by
  have hdone := h.modThread (wroteV e v fl)
  unfold Machine.writeV
  dsimp only
  show Ran s (if _ then State.wakeWfi (t.modThread x (wroteV e v fl)) x else t.modThread x (wroteV e v fl)) x _
  rw [State.wakeWfi_of_ne (by rw [hdone.1]; exact hwait), ite_self]
  exact hdone

theorem Ran.popQ (h : Ran s t x u) (hst : u.st = .ready) (q : BitVec 2) :
    Ran s (popQ t x q) x (u.setQueue q (u.queue q).tail) := by
  have hdone := h.modThread (fun th => th.setQueue q (th.queue q).tail)
  rw [Machine.popQ, State.wake_of_ready (by rw [hdone.1]; exact hst)]
  exact hdone

theorem Ran.pushQ (h : Ran s t x u) (hst : u.st = .ready) (hwait : u.wait ≠ .wfi) (q : BitVec 2) (ws : List Word) :
    Ran s (pushQ t x q ws) x (u.setQueue q (u.queue q ++ ws)) := by
  have hdone := h.modThread (fun th => th.setQueue q (th.queue q ++ ws))
  rw [Machine.pushQ, State.wake_of_ready (by rw [hdone.1]; exact hst), State.wakeWfi_of_ne (by rw [hdone.1]; exact hwait)]
  exact hdone

end RanRules

/-! ## A turn of the vector stream (R143) -/

/-- An issue of the vector stream changes issue orders and running counts alone. -/
theorem vectorIssued_only (s : State) (x : Nat) :
    (vectorIssued s x).threads = s.threads ∧
      vectorIssued s x = { s with cores := (vectorIssued s x).cores, ctxs := (vectorIssued s x).ctxs } := by
  unfold vectorIssued
  dsimp only
  split
  · split <;> exact ⟨rfl, rfl⟩
  · exact ⟨rfl, rfl⟩

theorem entryEcc_sound {s : State} {x : Nat} (hseq : (s.thread x).seqEcc = .sound) (hq : (s.thread x).qEcc = .sound)
    (hregs : (s.thread x).regEcc = []) (e : VEntry) (k : State → State) : entryEcc s x e k = k s := by
  simp [entryEcc, hseq, hq, Thread.hurt_of_sound hregs]

/-- The head entry of a thread has executed. -/
def passEntry (e : VEntry) (th : Thread) : Thread :=
  Thread.settle { th with seq := { th.seq.pass with items := th.seq.items.set th.seq.pos (.entry { e with popped := none }) } }

/-- The one entry of a sequencer has executed: the sequencer is empty. -/
theorem passEntry_single {u : Thread} {e : VEntry} (h : u.seq = { items := [.entry e], pos := 0, frames := [] }) :
    passEntry e u = { u with seq := Seq.empty } := by
  rw [passEntry, Thread.settle_of_stop (by rw [h]; rfl), h]
  rfl

section VectorTurn

variable {s t : State} {core slot : Nat} {stalled : BitVec 10} {e : VEntry} {ca cb : Word}

theorem vectorTurn_done (h : HeadRuns s core slot stalled e ca cb) (hrun : runEntry s (tid core slot) e ca cb = .done t) :
    vectorTurn core slot stalled s = vectorIssued (t.modThread (tid core slot) (passEntry e)) (tid core slot) := by
  obtain ⟨-, -, hhead, hmay, -, -, -, hseq, hq, hregs⟩ := h
  simp only [vectorTurn, hhead, hmay, if_true, entryEcc_sound hseq hq hregs, hrun]
  rfl

theorem vectorTurn_trap (h : HeadRuns s core slot stalled e ca cb) {code el : Nat} {fa : Word} {wr : Bool}
    (hrun : runEntry s (tid core slot) e ca cb = .trap t code fa wr el) :
    vectorTurn core slot stalled s = vectorTrap (keepPopped t (tid core slot) e) (tid core slot) code fa wr e el := by
  obtain ⟨-, -, hhead, hmay, -, -, -, hseq, hq, hregs⟩ := h
  simp only [vectorTurn, hhead, hmay, if_true, entryEcc_sound hseq hq hregs, hrun]

/-- An entry that executes leaves its stream empty. -/
theorem headDone_of_ran (h : HeadRuns s core slot stalled e ca cb) {u : Thread}
    (hrun : runEntry s (tid core slot) e ca cb = .done t) (hran : Ran s t (tid core slot) u)
    (hu : u.seq = (s.thread (tid core slot)).seq) : HeadDone s (vectorTurn core slot stalled s) (tid core slot) u := by
  rw [vectorTurn_done h hrun]
  obtain ⟨-, -, -, -, hseq, -⟩ := h
  obtain ⟨hx, hothers, honly⟩ := hran.modThread (passEntry e)
  rw [passEntry_single (hu.trans hseq)] at hx
  generalize State.modThread t _ _ = t' at hx hothers honly
  obtain ⟨hthreads, hissued⟩ := vectorIssued_only t' (tid core slot)
  have hthread : ∀ y, (vectorIssued t' (tid core slot)).thread y = t'.thread y := fun y => by rw [State.thread, hthreads]; rfl
  refine ⟨by rw [hthread, hx], fun y hy => by rw [hthread, hothers y hy], ?_⟩
  generalize vectorIssued t' _ = t'' at hthreads hissued
  rw [hissued, honly]

/-- The head entry of a turn does not wait. -/
theorem runEntry_ne_wait (h : HeadRuns s core slot stalled e ca cb) (t : State) :
    runEntry s (tid core slot) e ca cb ≠ .wait t := by
  obtain ⟨-, -, hhead, hmay, -⟩ := h
  intro hwait
  simp [mayVector, vectorReady, hhead, hwait] at hmay

end VectorTurn

end Sys2Proof.Machine

namespace Sys2Proof.Machine

open Sys2Proof

/-! ## Elements of a vector register (spec/06_vector.md R140) -/

theorem testBit_fld (x lo n k : Nat) : (fld x lo n).testBit k = (decide (k < n) && x.testBit (lo + k)) := by
  rw [fld, Nat.testBit_mod_two_pow, Nat.testBit_shiftRight]

theorem elem_lt (v : VWord) (w i : Nat) : elem v w i < 2 ^ (8 * w) := Nat.mod_lt _ (Nat.two_pow_pos _)

/-- The width of an element divides the register. -/
theorem elemBytes_mul (t : BitVec 4) : elemBytes t * (64 / elemBytes t) = 64 := by
  revert t; decide

theorem elemBytes_pos (t : BitVec 4) : 0 < elemBytes t := by
  revert t; decide

theorem mem_digit_iff {W i j k : Nat} (hk : k < W) : (W * i ≤ W * j + k ∧ W * j + k < W * i + W) ↔ j = i := by
  constructor
  · rintro ⟨hlo, hhi⟩
    rcases lt_trichotomy j i with h | h | h
    · have := Nat.mul_le_mul_left W (Nat.succ_le_of_lt h)
      rw [Nat.mul_succ] at this
      omega
    · exact h
    · have := Nat.mul_le_mul_left W (Nat.succ_le_of_lt h)
      rw [Nat.mul_succ] at this
      omega
  · rintro rfl
    omega

theorem testBit_setElem (v : VWord) (w i x : Nat) {n : Nat} (hn : n < 512) :
    (setElem v w i x).toNat.testBit n =
      if 8 * w * i ≤ n ∧ n < 8 * w * i + 8 * w then x.testBit (n - 8 * w * i) else v.toNat.testBit n := by
  have hfield : ((2 ^ (8 * w) - 1) <<< (8 * w * i)).testBit n = decide (8 * w * i ≤ n ∧ n < 8 * w * i + 8 * w) := by
    rw [Nat.testBit_shiftLeft, Nat.testBit_two_pow_sub_one, Bool.eq_iff_iff]
    simp only [Bool.and_eq_true, decide_eq_true_eq]
    omega
  have hvalue : ((x % 2 ^ (8 * w)) <<< (8 * w * i)).testBit n =
      (decide (8 * w * i ≤ n ∧ n < 8 * w * i + 8 * w) && x.testBit (n - 8 * w * i)) := by
    rw [Nat.testBit_shiftLeft, Nat.testBit_mod_two_pow, ← Bool.and_assoc]
    congr 1
    rw [Bool.eq_iff_iff]
    simp only [Bool.and_eq_true, decide_eq_true_eq]
    omega
  rw [BitVec.testBit_toNat, setElem, BitVec.getLsbD_or, BitVec.getLsbD_and, BitVec.getLsbD_not, BitVec.getLsbD_ofNat,
    BitVec.getLsbD_ofNat, hfield, hvalue, BitVec.testBit_toNat]
  simp only [hn, decide_true, Bool.true_and]
  by_cases h : 8 * w * i ≤ n ∧ n < 8 * w * i + 8 * w <;> simp [h]

section Elements

variable {w : Nat} (hw : w * (64 / w) = 64)

include hw

/-- A bit of an element is a bit of the register. -/
theorem elem_bit_lt {i k : Nat} (hi : i < 64 / w) (hk : k < 8 * w) : 8 * w * i + k < 512 := by
  have h : w * (i + 1) ≤ w * (64 / w) := Nat.mul_le_mul_left w hi
  rw [hw, Nat.mul_succ] at h
  have : 8 * w * i = 8 * (w * i) := Nat.mul_assoc ..
  omega

theorem elem_setElem (v : VWord) (i : Nat) {j : Nat} (hj : j < 64 / w) (x : Nat) :
    elem (setElem v w i x) w j = if j = i then x % 2 ^ (8 * w) else elem v w j := by
  apply Nat.eq_of_testBit_eq
  intro k
  rw [apply_ite (fun y => Nat.testBit y k), Nat.testBit_mod_two_pow, elem, elem, testBit_fld, testBit_fld]
  by_cases hk : k < 8 * w
  · rw [testBit_setElem v w i x (elem_bit_lt hw hj hk)]
    simp only [mem_digit_iff hk, hk, decide_true, Bool.true_and]
    split
    next h => rw [h, Nat.add_sub_cancel_left]
    next => rfl
  · simp [hk]

/-- Elements written one by one: each that is listed takes its value. -/
theorem elem_foldl_setElem (f : Nat → Nat) (l : List Nat) (v : VWord) {j : Nat} (hj : j < 64 / w) :
    elem (l.foldl (fun v i => setElem v w i (f i)) v) w j = if j ∈ l then f j % 2 ^ (8 * w) else elem v w j := by
  induction l generalizing v with
  | nil => simp
  | cons i l ih =>
    rw [List.foldl_cons, ih, elem_setElem hw v i hj]
    by_cases hl : j ∈ l
    · simp [hl]
    · by_cases hi : j = i
      · simp [hi]
      · simp [hl, hi]

end Elements

theorem mem_actives (m : Word) (w j : Nat) : j ∈ actives m w ↔ j < 64 / w ∧ m.getLsbD (j * w) = true := by
  simp [actives, active]

/-- The two results that an operation gathers, apart. -/
theorem foldl_pair {α β γ : Type} (f : β → α → β) (g : γ → α → γ) (l : List α) (b : β) (c : γ) :
    l.foldl (fun acc i => (f acc.1 i, g acc.2 i)) (b, c) = (l.foldl f b, l.foldl g c) := by
  induction l generalizing b c with
  | nil => rfl
  | cons i l ih => exact ih ..

theorem mapActive_eq (m : Word) (w : Nat) (old : VWord) (f : Nat → FRes) :
    mapActive m w old f = ((actives m w).foldl (fun v i => setElem v w i (f i).1) old, gathered (actives m w) f) :=
  foldl_pair (fun v i => setElem v w i (f i).1) (fun x i => x ||| (f i).2) (actives m w) old 0

/-- Under a mask exactly the active elements take the operation's value (R141). -/
theorem elem_mapActive {w : Nat} (hw : w * (64 / w) = 64) (m : Word) (old : VWord) (f : Nat → FRes) {j : Nat} (hj : j < 64 / w) :
    elem (mapActive m w old f).1 w j = if m.getLsbD (j * w) then (f j).1 % 2 ^ (8 * w) else elem old w j := by
  rw [mapActive_eq, elem_foldl_setElem hw (fun i => (f i).1) _ _ hj]
  simp [mem_actives, hj]

theorem gathered_zero (l : List Nat) (f : Nat → Nat) : gathered l (fun i => (f i, 0)) = 0 :=
  foldl_keeps (P := fun x => x = 0) rfl fun _ _ h => by rw [h]; exact BitVec.or_self

/-! ## Mask registers (R155, R156) -/

theorem getLsbD_setMaskBits (m : Word) (w i : Nat) (b : Bool) {j : Nat} (hj : j < 64) (hw : 0 < w) :
    (setMaskBits m w i b).getLsbD j = if j / w = i then b else m.getLsbD j := by
  have hfield : (word ((2 ^ w - 1) <<< (i * w))).getLsbD j = decide (j / w = i) := by
    have hdigit := mem_digit_iff (i := i) (j := j / w) (Nat.mod_lt j hw)
    rw [Nat.div_add_mod] at hdigit
    rw [word, BitVec.getLsbD_ofNat, Nat.testBit_shiftLeft, Nat.testBit_two_pow_sub_one, Bool.eq_iff_iff, decide_eq_true_eq,
      ← hdigit, Nat.mul_comm i w]
    simp only [Bool.and_eq_true, decide_eq_true_eq]
    omega
  dsimp only [setMaskBits]
  cases b with
  | true => rw [if_pos rfl, BitVec.getLsbD_or, hfield]; by_cases h : j / w = i <;> simp [h]
  | false =>
    rw [if_neg Bool.false_ne_true, BitVec.getLsbD_and, BitVec.getLsbD_not, hfield]
    by_cases h : j / w = i <;> simp [h, hj]

theorem getLsbD_foldl_setMaskBits (c : Nat → Bool) {w : Nat} (hw : 0 < w) (l : List Nat) (m : Word) {j : Nat} (hj : j < 64) :
    (l.foldl (fun m i => setMaskBits m w i (c i)) m).getLsbD j = if j / w ∈ l then c (j / w) else m.getLsbD j := by
  induction l generalizing m with
  | nil => simp
  | cons i l ih =>
    rw [List.foldl_cons, ih, getLsbD_setMaskBits m w i _ hj hw]
    by_cases hl : j / w ∈ l
    · simp [hl]
    · by_cases hi : j / w = i
      · simp [hi]
      · simp [hl, hi]

end Sys2Proof.Machine

namespace Sys2Proof.Machine

open Sys2Proof

/-! ## Integer elements (spec/06_vector.md R151, Table 6.4) -/

theorem natOfInt_eq (n : Nat) (z : Int) : natOfInt n z = (z % 2 ^ n).toNat := by
  rw [natOfInt]
  push_cast
  rfl

theorem natOfInt_lt (n : Nat) (z : Int) : natOfInt n z < 2 ^ n := by
  have hpos : (0 : Int) < ((2 ^ n : Nat) : Int) := Int.natCast_pos.2 (Nat.two_pow_pos n)
  have hlt := Int.emod_lt_of_pos z hpos
  have hnonneg := Int.emod_nonneg z hpos.ne'
  rw [natOfInt]
  omega

theorem natOfInt_of_modEq {n k : Nat} {z : Int} (h : z ≡ k [ZMOD 2 ^ n]) : natOfInt n z = k % 2 ^ n := by
  rw [natOfInt_eq, h]
  norm_cast

theorem sextInt_eq {n x : Nat} (hn : 0 < n) (hx : x < 2 ^ n) :
    sextInt n x = if x < 2 ^ (n - 1) then (x : Int) else (x : Int) - 2 ^ n := by
  simp only [sextInt, Nat.mod_eq_of_lt hx, if_neg hn.ne', Nat.cast_pow, Nat.cast_ofNat]

theorem satInt_eq {lo hi : Int} (h : lo ≤ hi) (z : Int) : satInt z lo hi = max lo (min hi z) := by
  unfold satInt
  split
  · omega
  · split <;> omega

section IntElem

variable {t : BitVec 4} {x y : Nat}


theorem elemInt_eq (hx : x < 2 ^ (8 * elemBytes t)) : elemInt t x =
    if decide (t.toNat ≤ 3) then
      (if x < 2 ^ (8 * elemBytes t - 1) then (x : Int) else (x : Int) - 2 ^ (8 * elemBytes t))
    else (x : Int) := by
  have hpos := elemBytes_pos t
  rw [elemInt, isSigned, sextInt_eq (by omega) hx]

theorem elemInt_modEq (hx : x < 2 ^ (8 * elemBytes t)) : elemInt t x ≡ x [ZMOD 2 ^ (8 * elemBytes t)] := by
  rw [elemInt_eq hx]
  split
  · split
    · rfl
    · simp [Int.ModEq]
  · rfl

theorem andn_eq {n : Nat} (hy : y < 2 ^ n) (hx : x < 2 ^ n) : x &&& (2 ^ n - 1 - y) = x &&& (x ^^^ y) := by
  apply Nat.eq_of_testBit_eq
  intro k
  rw [Nat.testBit_and, Nat.testBit_and, Nat.testBit_xor, Nat.sub_sub, Nat.add_comm 1 y, Nat.testBit_two_pow_sub_succ hy]
  by_cases hk : k < n
  · cases x.testBit k <;> simp [hk]
  · simp [Nat.testBit_lt_two_pow (hx.trans_le (Nat.pow_le_pow_right (by omega) (not_lt.1 hk)))]

/-- The range of an integer type. -/
theorem typeMin_le_typeMax (t : BitVec 4) : typeMin t ≤ typeMax t := by
  revert t; decide

/-- Table 6.4 on two elements, by its definition there. -/
theorem intElem_eq {op : VIntOp} {f : Nat → Nat → Nat} (hop : (op, f) ∈ laneForms (8 * elemBytes t) (decide (t.toNat ≤ 3)))
    (hx : x < 2 ^ (8 * elemBytes t)) (hy : y < 2 ^ (8 * elemBytes t)) :
    intElem op t x y % 2 ^ (8 * elemBytes t) = f x y := by
  have hpos : 0 < 8 * elemBytes t := Nat.mul_pos (by omega) (elemBytes_pos t)
  have hx' := elemInt_modEq hx
  have hy' := elemInt_modEq hy
  have hlow (z : Int) : natOfInt (8 * elemBytes t) z % 2 ^ (8 * elemBytes t) = (z % 2 ^ (8 * elemBytes t)).toNat := by
    rw [Nat.mod_eq_of_lt (natOfInt_lt ..), natOfInt_eq]
  have hsat (z : Int) : satInt z (typeMin t) (typeMax t) = max (typeMin t) (min (typeMax t) z) :=
    satInt_eq (typeMin_le_typeMax t) z
  simp only [laneForms, List.mem_cons, Prod.mk.injEq, List.not_mem_nil, or_false] at hop
  obtain ⟨rfl, rfl⟩ | ⟨rfl, rfl⟩ | ⟨rfl, rfl⟩ | ⟨rfl, rfl⟩ | ⟨rfl, rfl⟩ | ⟨rfl, rfl⟩ | ⟨rfl, rfl⟩ | ⟨rfl, rfl⟩ | ⟨rfl, rfl⟩ |
    ⟨rfl, rfl⟩ | ⟨rfl, rfl⟩ | ⟨rfl, rfl⟩ | ⟨rfl, rfl⟩ | ⟨rfl, rfl⟩ | ⟨rfl, rfl⟩ := hop
  · show natOfInt _ (elemInt t x + elemInt t y) % _ = _
    rw [natOfInt_of_modEq (k := x + y) (by push_cast; exact hx'.add hy'), Nat.mod_mod]
  · show natOfInt _ (elemInt t x - elemInt t y) % _ = _
    have hsub : elemInt t x - elemInt t y ≡ ((x + (2 ^ (8 * elemBytes t) - y) : Nat) : Int) [ZMOD 2 ^ (8 * elemBytes t)] := by
      push_cast [hy.le]
      refine (hx'.sub hy').trans ?_
      rw [← add_sub_assoc, add_sub_right_comm]
      simp [Int.ModEq]
    rw [natOfInt_of_modEq hsub, Nat.mod_mod]
  · exact Nat.mod_eq_of_lt (Nat.and_lt_two_pow x hy)
  · exact Nat.mod_eq_of_lt (Nat.or_lt_two_pow hx hy)
  · exact Nat.mod_eq_of_lt (Nat.xor_lt_two_pow hx hy)
  · exact (Nat.mod_eq_of_lt (Nat.and_lt_two_pow x (by omega))).trans (andn_eq hy hx)
  · exact (Nat.mod_mod ..).trans (by rw [Nat.shiftLeft_eq])
  · show x >>> _ % _ = _
    rw [Nat.shiftRight_eq_div_pow, Nat.mod_eq_of_lt ((Nat.div_le_self ..).trans_lt hx)]
  · exact (hlow _).trans (by rw [sextInt_eq hpos hx])
  · show (if elemInt t x < elemInt t y then x else y) % _ = _
    rw [elemInt_eq hx, elemInt_eq hy, apply_ite (· % _), Nat.mod_eq_of_lt hx, Nat.mod_eq_of_lt hy]
  · show (if elemInt t y < elemInt t x then x else y) % _ = _
    rw [elemInt_eq hx, elemInt_eq hy, apply_ite (· % _), Nat.mod_eq_of_lt hx, Nat.mod_eq_of_lt hy]
  · show natOfInt _ (elemInt t x * elemInt t y) % _ = _
    rw [natOfInt_of_modEq (k := x * y) (by push_cast; exact hx'.mul hy'), Nat.mod_mod]
  · exact (hlow _).trans (by rw [elemInt_eq hx, elemInt_eq hy])
  · exact (hlow _).trans (by rw [hsat, elemInt_eq hx, elemInt_eq hy]; rfl)
  · exact (hlow _).trans (by rw [hsat, elemInt_eq hx, elemInt_eq hy]; rfl)

end IntElem

end Sys2Proof.Machine

namespace Sys2Proof.Machine

open Sys2Proof

/-! ## Conversions with draws (spec/06_vector.md R154, spec/03_numbers.md R72) -/

/-- In an ascending list the elements below one are those before it. -/
theorem length_filter_lt {l l₁ l₂ : List Nat} {i : Nat} (hl : l.Pairwise (· < ·)) (h : l = l₁ ++ i :: l₂) :
    (l.filter (fun k => decide (k < i))).length = l₁.length := by
  subst h
  obtain ⟨-, htail, hbefore⟩ := List.pairwise_append.1 hl
  have hfirst : l₁.filter (fun k => decide (k < i)) = l₁ :=
    List.filter_eq_self.2 fun k hk => decide_eq_true (hbefore k hk i (.head _))
  have hrest : (i :: l₂).filter (fun k => decide (k < i)) = [] := by
    refine List.filter_eq_nil_iff.2 fun k hk => ?_
    rcases List.mem_cons.1 hk with rfl | hk
    · simp
    · simpa using ((List.pairwise_cons.1 htail).1 k hk).le
  rw [List.filter_append, hfirst, hrest, List.append_nil]

/-- A fold that moves a generator on before each element, by the position of the element. -/
theorem foldl_drawing {α β γ δ : Type} (f : β → δ → α → β) (g : γ → δ → α → γ) (next : δ → δ) (st : Nat → δ)
    (hst : ∀ n, st (n + 1) = next (st n)) (pos : α → Nat) (l : List α) (n : Nat)
    (hpos : ∀ l₁ i l₂, l = l₁ ++ i :: l₂ → pos i = n + l₁.length) (b : β) (c : γ) :
    l.foldl (fun acc i => (f acc.1 (next acc.2.2) i, g acc.2.1 (next acc.2.2) i, next acc.2.2)) (b, c, st n) =
      (l.foldl (fun b i => f b (st (pos i + 1)) i) b, l.foldl (fun c i => g c (st (pos i + 1)) i) c, st (n + l.length)) := by
  induction l generalizing n b c with
  | nil => rfl
  | cons i l ih =>
    have hi : pos i = n := hpos [] i l rfl
    rw [List.foldl_cons, List.foldl_cons, List.foldl_cons, hi, hst, ← hst n,
      ih (n + 1) (fun l₁ j l₂ h => by rw [hpos (i :: l₁) j l₂ (by rw [h]; rfl), List.length_cons]; omega), List.length_cons]
    congr 3
    omega

/-- The generator after `n` conversions. -/
def drawn (sr : Bool) (p : BitVec 32) (n : Nat) : BitVec 32 := if sr then Nat.repeat prngNext n p else p

theorem drawn_succ (sr : Bool) (p : BitVec 32) (n : Nat) :
    drawn sr p (n + 1) = if sr then prngNext (drawn sr p n) else drawn sr p n := by
  cases sr <;> rfl

/-- The target elements that VCVT writes. -/
def converted (src dst : BitVec 4) (m : Word) : List Nat :=
  (List.range (64 / max (elemBytes src) (elemBytes dst))).filter (fun i => active m (elemBytes dst) i)

theorem converted_pairwise (src dst : BitVec 4) (m : Word) : (converted src dst m).Pairwise (· < ·) :=
  List.Pairwise.filter _ List.pairwise_lt_range

/-- VCVT element by element, each with the draw of its position among those written. -/
theorem cvtReg_eq (src dst : BitVec 4) (sr : Bool) (rm : BitVec 2) (m : Word) (va old : VWord) (p : BitVec 32) :
    let hit := converted src dst m
    let pos (i : Nat) : Nat := (hit.filter (fun k => decide (k < i))).length
    let r (i : Nat) : FRes := cvtElem src dst (if sr then .sr (Nat.repeat prngNext (pos i + 1) p).toNat else RMode.ofRm rm)
      (elem va (elemBytes src) i)
    cvtReg src dst sr rm m va old p =
      (hit.foldl (fun v i => setElem v (elemBytes dst) i (r i).1) old, gathered hit r, drawn sr p hit.length) := by
  intro hit pos r
  let lane (q : BitVec 32) (i : Nat) : FRes :=
    cvtElem src dst (if sr then .sr q.toNat else RMode.ofRm rm) (elem va (elemBytes src) i)
  have hlane : (fun i => lane (drawn sr p (pos i + 1)) i) = r := by cases sr <;> rfl
  have hzero : drawn sr p 0 = p := by cases sr <;> rfl
  have hfold := foldl_drawing (fun v q i => setElem v (elemBytes dst) i (lane q i).1) (fun x q i => x ||| (lane q i).2)
    (fun q => if sr then prngNext q else q) (drawn sr p) (drawn_succ sr p) pos hit 0
    (fun l₁ i l₂ h => by rw [zero_add]; exact length_filter_lt (converted_pairwise src dst m) h) old (0 : FFlags)
  rw [zero_add, hzero] at hfold
  rw [← hlane]
  exact hfold

/-! ## What an entry writes of v[d] and of m[d] -/

theorem fullV_wroteV (e : VEntry) (v : VWord) (fl : FFlags) (th : Thread) (r : BitVec 5) :
    (wroteV e v fl th).fullV r = (decide (r = e.d) || th.fullV r) := by
  show (th.vFull ||| BitVec.ofNat 32 (2 ^ e.d.toNat)).getLsbD r.toNat = _
  rw [BitVec.getLsbD_or, regBit, Bool.or_comm]
  simp only [eq_comm (a := e.d)]
  rfl

@[simp] theorem rv_wroteV (e : VEntry) (v : VWord) (fl : FFlags) (th : Thread) : (wroteV e v fl th).rv e.d = v :=
  th.rv_wv_same e.d v (fun _ => true)

/-- Elements of v[d], which is full; the other registers keep theirs. -/
theorem lanes_wroteV {e : VEntry} {v : VWord} {th : Thread} {w : Nat} {f : Nat → Nat} (fl : FFlags)
    (h : ∀ i < 64 / w, elem v w i = f i) : Lanes th (wroteV e v fl th) e.d w f :=
  ⟨fullV_wroteV e v fl th, fun _ hr => th.rv_wv_other v (fun _ => true) hr, fun i hi => by
    rw [rv_wroteV, h i hi]⟩

/-- Where no register word is damaged, `wroteV` changes v[d] and the flags alone. -/
theorem wroteV_sound {th : Thread} (h : th.regEcc = []) (e : VEntry) (v : VWord) (fl : FFlags) :
    wroteV e v fl th = { th with v := (wroteV e v fl th).v, vFull := (wroteV e v fl th).vFull, fflags := th.fflags ||| fl } := by
  have hregs : (wroteV e v fl th).regEcc = th.regEcc := by
    show List.filter _ th.regEcc = _
    rw [h]
    rfl
  unfold wroteV at hregs ⊢
  rw [← hregs]
  rfl

/-- A thread whose entry has written m[d] and raised flags. -/
def wroteM (e : VEntry) (m : Word) (fl : FFlags) (th : Thread) : Thread :=
  { th.wm (e.d.setWidth 3) m with fflags := th.fflags ||| fl }

theorem Thread.wm_sound {th : Thread} (h : th.regEcc = []) (r : BitVec 3) (m : Word) :
    th.wm r m = { th with m := (th.wm r m).m } := by
  have hdel : th.regEcc.del (64 + r.toNat) = th.regEcc := by rw [h]; rfl
  unfold Thread.wm
  split
  · rfl
  · rw [hdel]

theorem wroteM_sound {th : Thread} (h : th.regEcc = []) (e : VEntry) (m : Word) (fl : FFlags) :
    wroteM e m fl th = { th with m := (wroteM e m fl th).m, fflags := th.fflags ||| fl } := by
  unfold wroteM
  rw [Thread.wm_sound h]

theorem rm_wroteM (e : VEntry) (m : Word) (fl : FFlags) (th : Thread) (r : BitVec 3) :
    (wroteM e m fl th).rm_ r = if r = e.d.setWidth 3 ∧ r ≠ 0 then m else th.rm_ r := by
  show (th.wm _ m).rm_ r = _
  by_cases hr : r = e.d.setWidth 3
  · subst hr
    by_cases h0 : (e.d.setWidth 3 : BitVec 3) = 0
    · rw [h0, Thread.wm_zero, if_neg (fun h => h.2 rfl)]
    · rw [Thread.rm_wm_same _ _ h0, if_pos ⟨rfl, h0⟩]
  · rw [Thread.rm_wm_other _ _ hr, if_neg (fun h => hr h.1)]

/-! ## Entries that write v[d] (R151-R158) -/

section RunEntry

variable {s : State} {core slot : Nat} {stalled : BitVec 10} {e : VEntry} {ca cb : Word}

/-- The entry executes and leaves its thread as `u`. -/
def RunsTo (s : State) (x : Nat) (e : VEntry) (ca cb : Word) (u : Thread) : Prop :=
  ∃ t, runEntry s x e ca cb = .done t ∧ Ran s t x u

/-- v[d] takes the elements `f`. -/
theorem lanes_done (h : HeadRuns s core slot stalled e ca cb) {v : VWord} {fl : FFlags} {p : BitVec 32} {w : Nat} {f : Nat → Nat}
    (hrun : RunsTo s (tid core slot) e ca cb { wroteV e v fl (s.thread (tid core slot)) with prng := p })
    (hf : ∀ i < 64 / w, elem v w i = f i) : ∃ u : Thread,
      u = { s.thread (tid core slot) with
        v := u.v, vFull := u.vFull, fflags := (s.thread (tid core slot)).fflags ||| fl, prng := p } ∧
      Lanes (s.thread (tid core slot)) u e.d w f ∧ HeadDone s (vectorTurn core slot stalled s) (tid core slot) u := by
  obtain ⟨t, hdone, hran⟩ := hrun
  refine ⟨{ wroteV e v fl (s.thread (tid core slot)) with prng := p }, ?_, lanes_wroteV fl hf, headDone_of_ran h hdone hran rfl⟩
  obtain ⟨-, -, -, -, -, -, -, -, -, hregs⟩ := h
  rw [wroteV_sound hregs]

/-- m[d] takes the bits `f`. -/
theorem mask_done (h : HeadRuns s core slot stalled e ca cb) {m : Word} {fl : FFlags} {f : Nat → Bool}
    (hrun : RunsTo s (tid core slot) e ca cb (wroteM e m fl (s.thread (tid core slot)))) (hf : ∀ j < 64, m.getLsbD j = f j) :
    ∃ u : Thread,
      u = { s.thread (tid core slot) with m := u.m, fflags := (s.thread (tid core slot)).fflags ||| fl } ∧
      HeadDone s (vectorTurn core slot stalled s) (tid core slot) u ∧ ∀ (r : BitVec 3) (j : Nat), j < 64 →
        (u.rm_ r).getLsbD j =
          if r = e.d.setWidth 3 ∧ r ≠ 0 then f j else ((s.thread (tid core slot)).rm_ r).getLsbD j := by
  obtain ⟨t, hdone, hran⟩ := hrun
  refine ⟨_, ?_, headDone_of_ran h hdone hran ?_, fun r j hj => ?_⟩
  · obtain ⟨-, -, -, -, -, -, -, -, -, hregs⟩ := h
    exact wroteM_sound hregs ..
  · exact Thread.wm_seq ..
  · rw [rm_wroteM, ← hf j hj]
    split <;> rfl

end RunEntry

section Runs

variable {s : State} {x : Nat} {e : VEntry} (ca cb : Word) (hwait : (s.thread x).wait ≠ .wfi)

include hwait

theorem runsTo_int {op : VIntOp} (hop : e.op = .int op) :
    RunsTo s x e ca cb (wroteV e (mapActive ((s.thread x).rm_ e.m) (elemBytes e.t) ((s.thread x).rv e.d) (fun i =>
      (intElem op e.t (elem ((s.thread x).rv e.a) (elemBytes e.t) i) (elem ((s.thread x).rv e.b) (elemBytes e.t) i), 0))).1 0
        (s.thread x)) :=
  ⟨_, by simp only [runEntry, hop], (Ran.refl s x).writeV hwait ..⟩

/-- An operation of `laneResults` gives each active element its value. -/
theorem runsTo_lane {f : Nat → FRes}
    (hf : (e.op, f) ∈ laneResults e ca cb (fun i => elem ((s.thread x).rv e.a) (elemBytes e.t) i)
      (fun i => elem ((s.thread x).rv e.b) (elemBytes e.t) i) (fun i => elem ((s.thread x).rv e.d) (elemBytes e.t) i)) :
    RunsTo s x e ca cb (wroteV e (mapActive ((s.thread x).rm_ e.m) (elemBytes e.t) ((s.thread x).rv e.d) f).1
      (gathered (actives ((s.thread x).rm_ e.m) (elemBytes e.t)) f) (s.thread x)) := by
  have hflags : gathered (actives ((s.thread x).rm_ e.m) (elemBytes e.t)) f =
      (mapActive ((s.thread x).rm_ e.m) (elemBytes e.t) ((s.thread x).rv e.d) f).2 := by rw [mapActive_eq]
  rw [hflags]
  have hwrote := (Ran.refl s x).writeV hwait e
  simp only [laneResults, List.mem_append, List.mem_map, List.mem_cons, Prod.mk.injEq, List.not_mem_nil, or_false] at hf
  obtain (⟨op, -, hop, rfl⟩ | ⟨op, -, hop, rfl⟩) | ⟨hop, rfl⟩ | ⟨hop, rfl⟩ | ⟨hop, rfl⟩ := hf
  · exact ⟨_, by simp only [runEntry, ← hop]; rfl, (hwrote ..).countFloat ..⟩
  · refine ⟨_, by simp only [runEntry, ← hop]; rfl, ?_⟩
    split
    · exact (hwrote ..).countFloat ..
    · exact (hwrote ..).countFloat ..
    · exact (hwrote ..).countFloat ..
    · exact hwrote ..
  all_goals
    rw [mapActive_eq, gathered_zero]
    exact ⟨_, by simp only [runEntry, hop, mapActive_eq], hwrote ..⟩

theorem runsTo_merge (hop : e.op = .merge) :
    RunsTo s x e ca cb (wroteV e ((List.range (64 / elemBytes e.t)).foldl (fun v i => setElem v (elemBytes e.t) i
      (if active ((s.thread x).rm_ e.m) (elemBytes e.t) i then elem ((s.thread x).rv e.a) (elemBytes e.t) i
        else elem ((s.thread x).rv e.b) (elemBytes e.t) i)) ((s.thread x).rv e.d)) 0 (s.thread x)) :=
  ⟨_, by simp only [runEntry, hop], (Ran.refl s x).writeV hwait ..⟩

theorem runsTo_red {op : VRedOp} (hop : e.op = .red op) :
    let r := redElem op e.t ((s.thread x).rm_ e.m) ((s.thread x).rv e.a)
    RunsTo s x e ca cb (wroteV e (setElem ((s.thread x).rv e.d) (elemBytes e.t) 0 r.1) r.2 (s.thread x)) :=
  ⟨_, by simp only [runEntry, hop]; rfl, ((Ran.refl s x).writeV hwait ..).countFloat ..⟩

theorem runsTo_cvt {g : BitVec 4} {sr : Bool} (hop : e.op = .cvt g sr) :
    let r := cvtReg e.t g sr e.rm ((s.thread x).rm_ e.m) ((s.thread x).rv e.a) ((s.thread x).rv e.d) (s.thread x).prng
    RunsTo s x e ca cb { wroteV e r.1 r.2.1 (s.thread x) with prng := r.2.2 } :=
  ⟨_, by simp only [runEntry, hop]; rfl, (((Ran.refl s x).writeV hwait ..).modThread (fun th => { th with prng := _ })).countFloat ..⟩

end Runs

section MaskRuns

variable {s : State} {x : Nat} {e : VEntry} (ca cb : Word)

theorem runsTo_cmp {op : VCmpOp} (hop : e.op = .cmp op) :
    let c (i : Nat) : Bool × FFlags :=
      cmpElem op e.t (elem ((s.thread x).rv e.a) (elemBytes e.t) i) (elem ((s.thread x).rv e.b) (elemBytes e.t) i)
    let on := actives ((s.thread x).rm_ e.m) (elemBytes e.t)
    RunsTo s x e ca cb (wroteM e
      (on.foldl (fun m i => setMaskBits m (elemBytes e.t) i (c i).1) ((s.thread x).rm_ (e.d.setWidth 3)))
      (gathered on (fun i => (0, (c i).2))) (s.thread x)) := by
  intro c on
  have hpair := foldl_pair (fun m i => setMaskBits m (elemBytes e.t) i (c i).1) (fun fl i => fl ||| (c i).2) on
    ((s.thread x).rm_ (e.d.setWidth 3)) (0 : FFlags)
  have hran := ((Ran.refl s x).modThread (wroteM e
    (on.foldl (fun m i => setMaskBits m (elemBytes e.t) i (c i).1) ((s.thread x).rm_ (e.d.setWidth 3)))
    (gathered on (fun i => (0, (c i).2))))).countFloat e.t on.length
  refine ⟨_, ?_, hran⟩
  simp only [runEntry, hop]
  rw [hpair]
  rfl

/-- A mask operation raises no flag. -/
theorem runsTo_mask {m : Word} (hrun : runEntry s x e ca cb = .done (s.modThread x (fun th => th.wm (e.d.setWidth 3) m))) :
    RunsTo s x e ca cb (wroteM e m 0 (s.thread x)) := by
  have hflags : wroteM e m 0 (s.thread x) = (s.thread x).wm (e.d.setWidth 3) m := by
    have hzero : (s.thread x).fflags ||| 0 = ((s.thread x).wm (e.d.setWidth 3) m).fflags := by
      rw [Thread.wm_fflags]
      exact BitVec.or_zero
    rw [wroteM, hzero]
  rw [hflags]
  exact ⟨_, hrun, (Ran.refl s x).modThread (fun th => th.wm (e.d.setWidth 3) m)⟩

end MaskRuns

end Sys2Proof.Machine

namespace Sys2Proof.Machine

open Sys2Proof

/-! ## An entry's values, element by element (spec/06_vector.md R151-R158) -/

/-- VMERGE writes every element (R158). -/
theorem elem_merge {w : Nat} (hw : w * (64 / w) = 64) (old : VWord) (f : Nat → Nat) (hf : ∀ i, f i < 2 ^ (8 * w)) {j : Nat}
    (hj : j < 64 / w) : elem ((List.range (64 / w)).foldl (fun v i => setElem v w i (f i)) old) w j = f j := by
  rw [elem_foldl_setElem hw f _ _ hj, if_pos (List.mem_range.2 hj), Nat.mod_eq_of_lt (hf j)]

theorem mem_converted (src dst : BitVec 4) (m : Word) (i : Nat) : i ∈ converted src dst m ↔
    i < 64 / max (elemBytes src) (elemBytes dst) ∧ m.getLsbD (i * elemBytes dst) = true := by
  simp [converted, active]

/-- The bits of m[d] after a comparison (R155). -/
theorem getLsbD_compared {w : Nat} (hw : w * (64 / w) = 64) (hpos : 0 < w) (m old : Word) (c : Nat → Bool) {j : Nat} (hj : j < 64) :
    ((actives m w).foldl (fun m i => setMaskBits m w i (c i)) old).getLsbD j =
      if m.getLsbD (j / w * w) then c (j / w) else old.getLsbD j := by
  have hlane : j / w < 64 / w := Nat.div_lt_of_lt_mul (by rwa [hw])
  rw [getLsbD_foldl_setMaskBits c hpos _ _ hj]
  simp only [mem_actives, hlane, true_and]

/-- Settles O30: the entry executes, and each of its results is written element by element, or bit by bit of a mask. -/
theorem vectorLanes : Obligations.VectorLanes := by
  unfold Obligations.VectorLanes
  intro s core slot stalled e ca cb h x th w m act on a b d md ma mb t vec mask
  have hwait : th.wait ≠ .wfi := by
    obtain ⟨-, -, -, -, -, -, hwait, -⟩ := h
    exact hwait
  have hw : w * (64 / w) = 64 := elemBytes_mul e.t
  refine ⟨fun op f _ hop hf => ?_, fun f hf => ?_, fun hop => ?_, fun op hop => ?_, fun g sr hop => ?_, fun op hop => ?_,
    fun hop => ?_, fun hop => ?_, fun hop => ?_, fun hop => ?_⟩
  · refine lanes_done h (runsTo_int ca cb hwait hop) fun i hi => ?_
    rw [elem_mapActive hw _ _ _ hi, intElem_eq hf (elem_lt ..) (elem_lt ..)]
  · exact lanes_done h (runsTo_lane ca cb hwait hf) fun i hi => elem_mapActive hw _ _ _ hi
  · refine lanes_done h (runsTo_merge ca cb hwait hop) fun i hi => elem_merge hw _ (fun i => if active m w i then a i else b i) ?_ hi
    exact fun i => ite_keeps (P := (· < 2 ^ (8 * w))) (elem_lt ..) (elem_lt ..)
  · exact mask_done h (runsTo_cmp ca cb hop) fun j hj =>
      getLsbD_compared hw (elemBytes_pos e.t) m (th.rm_ md) (fun i => (cmpElem op e.t (a i) (b i)).1) hj
  · intro wd n hit draw r
    have hrun := runsTo_cvt ca cb hwait hop
    rw [cvtReg_eq] at hrun
    refine lanes_done h hrun fun i hi => ?_
    have hlane := elem_foldl_setElem (elemBytes_mul g) (fun i => (r i).1) (converted e.t g m) (th.rv e.d) hi
    simp only [mem_converted] at hlane
    exact hlane
  · exact lanes_done h (runsTo_red ca cb hwait hop) fun i hi => elem_setElem hw _ 0 hi _
  · exact mask_done h (runsTo_mask ca cb (by simp only [runEntry, hop]; rfl)) fun j _ => BitVec.getLsbD_and
  · exact mask_done h (runsTo_mask ca cb (by simp only [runEntry, hop]; rfl)) fun j _ => BitVec.getLsbD_or
  · exact mask_done h (runsTo_mask ca cb (by simp only [runEntry, hop]; rfl)) fun j _ => BitVec.getLsbD_xor
  · refine mask_done h (runsTo_mask ca cb (by simp only [runEntry, hop]; rfl)) fun j hj => ?_
    rw [BitVec.getLsbD_not, decide_eq_true hj, Bool.true_and]

end Sys2Proof.Machine

namespace Sys2Proof.Machine

open Sys2Proof

/-! ## Values and counts of the vector moves (spec/06_vector.md R156, R160, R161) -/

theorem ofBytes_lt (bs : List Byte) : ofBytes bs < 256 ^ bs.length := by
  induction bs with
  | nil => exact Nat.one_pos
  | cons b bs ih =>
    have hb := b.isLt
    rw [ofBytes, List.length_cons, pow_succ']
    omega

theorem ofBytes_readN_lt (s : State) (a w : Nat) : ofBytes (s.readN a w) < 2 ^ (8 * w) := by
  have hlt := ofBytes_lt (s.readN a w)
  rwa [State.readN_eq_map, List.length_map, List.length_range, show (256 : Nat) = 2 ^ 8 from rfl, ← pow_mul,
    ← State.readN_eq_map] at hlt

/-- The word that VQPUSH pushes: the element, extended by its type (R161). -/
theorem extended_elem (t : BitVec 4) {y : Nat} (hy : y < 2 ^ (8 * elemBytes t)) :
    (if isSigned t then BitVec.ofInt 64 (sextInt (8 * elemBytes t) y) else word y) =
      if t.toNat ≤ 3 ∧ 2 ^ (8 * elemBytes t - 1) ≤ y then BitVec.ofInt 64 ((y : Int) - 2 ^ (8 * elemBytes t)) else word y := by
  have hpos := elemBytes_pos t
  rw [sextInt_eq (by omega) hy, isSigned]
  by_cases ht : t.toNat ≤ 3
  · by_cases hneg : y < 2 ^ (8 * elemBytes t - 1)
    · rw [if_pos (decide_eq_true ht), if_pos hneg, if_neg (by omega), BitVec.ofInt_natCast]
      rfl
    · rw [if_pos (decide_eq_true ht), if_neg hneg, if_pos ⟨ht, by omega⟩]
  · rw [if_neg (by simp [ht]), if_neg (fun h => ht h.1)]

theorem popcount_eq_countP (n x : Nat) : popcount n x = (List.range n).countP (fun j => x.testBit j) := by
  induction n generalizing x with
  | zero => rfl
  | succ n ih =>
    have hbit : x % 2 = if x.testBit 0 then 1 else 0 := by
      rw [Nat.testBit_zero]
      rcases Nat.mod_two_eq_zero_or_one x with h | h <;> simp [h]
    rw [popcount, ih, List.range_succ_eq_map, List.countP_cons, List.countP_map, hbit, Nat.add_comm]
    simp only [Function.comp_def, Nat.testBit_succ]

/-- The first bit set in a mask, 64 where none is (R156). -/
theorem first_bitsSet (m : Word) : ((bitsSet 64 m.toNat).head?).getD 64 ≤ 64 ∧
    (∀ j < ((bitsSet 64 m.toNat).head?).getD 64, m.getLsbD j = false) ∧
      (((bitsSet 64 m.toNat).head?).getD 64 < 64 → m.getLsbD (((bitsSet 64 m.toNat).head?).getD 64) = true) := by
  rw [bitsSet, List.head?_filter]
  cases hfirst : (List.range 64).find? (fun i => m.toNat.testBit i) with
  | none =>
    refine ⟨le_rfl, fun j hj => ?_, fun h => absurd h (lt_irrefl 64)⟩
    simpa [BitVec.testBit_toNat] using List.find?_eq_none.1 hfirst j (List.mem_range.2 hj)
  | some n =>
    obtain ⟨hset, hlt, hbefore⟩ := List.find?_range_eq_some.1 hfirst
    refine ⟨(List.mem_range.1 hlt).le, fun j hj => ?_, fun _ => by simpa [BitVec.testBit_toNat] using hset⟩
    simpa [BitVec.testBit_toNat] using hbefore j hj

/-! ## The elements of a vector access (R159, R160, R173) -/

theorem elemAddrs_eq (form : VMemOp) (w : Nat) (m base stride : Word) (vb : VWord) :
    elemAddrs form w m base stride vb = (actives m w).map (fun i => (i, elemAddress form w base stride vb i)) := by
  cases form <;> rfl

/-- The check of an aligned element with a place of its own. -/
theorem elemCheck_own {s : State} {t : Nat} {use : Use} {w : Nat} {ea : Word} {off : Nat} (halign : ea.toNat % w = 0)
    (hcheck : checkAccess s (coreOf t) (slotOf t) (s.thread t).mode (s.ctxOf t) use ea.toNat = .ok (.own off)) :
    elemCheck s t use w ea = .inl (.own off) := by
  simp only [elemCheck, halign, ne_eq, not_true_eq_false, if_false, hcheck]

theorem elemCheck_misaligned {s : State} {t : Nat} {use : Use} {w : Nat} {ea : Word} (h : ea.toNat % w ≠ 0) :
    elemCheck s t use w ea = .inr 3 := if_pos h

section Accesses

variable {s : State} {t w : Nat} {use : Use} {A : Nat → Word} {off : Nat → Nat} {l : List Nat}

/-- Elements that pass go to the accumulator with their places. -/
theorem elemsCheck_append (h : ∀ i ∈ l, elemCheck s t use w (A i) = .inl (.own (off i))) (rest : List (Nat × Word))
    (acc : List (Nat × Word × Place)) : elemsCheck s t use w (l.map (fun i => (i, A i)) ++ rest) acc =
      elemsCheck s t use w rest ((l.map (fun i => (i, A i, Place.own (off i)))).reverse ++ acc) := by
  induction l generalizing acc with
  | nil => rfl
  | cons i l ih =>
    have htail := ih (fun j hj => h j (.tail _ hj)) ((i, A i, .own (off i)) :: acc)
    simp only [List.map_cons, List.cons_append, elemsCheck, h i (.head _), htail, List.reverse_cons, List.append_assoc,
      List.nil_append]

theorem elemsCheck_own (h : ∀ i ∈ l, elemCheck s t use w (A i) = .inl (.own (off i))) :
    elemsCheck s t use w (l.map (fun i => (i, A i))) [] = .all s (l.map (fun i => (i, A i, .own (off i)))) := by
  have happend := elemsCheck_append h [] []
  rw [List.append_nil] at happend
  rw [happend, elemsCheck, List.append_nil, List.reverse_reverse]

/-- An ascending list splits at a member into the smaller ones, itself and others. -/
theorem split_at_mem {i : Nat} (hl : l.Pairwise (· < ·)) (hi : i ∈ l) : ∃ l₁ l₂, l = l₁ ++ i :: l₂ ∧ ∀ k ∈ l₁, k < i := by
  obtain ⟨l₁, l₂, rfl⟩ := List.append_of_mem hi
  exact ⟨l₁, l₂, rfl, fun k hk => (List.pairwise_append.1 hl).2.2 k hk i (.head _)⟩

/-- The lowest element that is not aligned takes MISALIGN (R173). -/
theorem elemsCheck_misaligned {i : Nat} (hl : l.Pairwise (· < ·)) (hi : i ∈ l) (hbad : (A i).toNat % w ≠ 0)
    (h : ∀ k ∈ l, k < i → elemCheck s t use w (A k) = .inl (.own (off k))) :
    elemsCheck s t use w (l.map (fun i => (i, A i))) [] = .trap s 3 (A i) i := by
  obtain ⟨l₁, l₂, rfl, hbefore⟩ := split_at_mem hl hi
  rw [List.map_append, List.map_cons,
    elemsCheck_append (fun k hk => h k (List.mem_append_left _ hk) (hbefore k hk))]
  simp [elemsCheck, elemCheck_misaligned hbad]

/-- Elements of the own local store load the bytes that memory holds (R160). -/
theorem elemsLoad_own (hw : 0 < w) (hsb : (s.thread t).sb = []) (howned : s.owned = []) (hecc : Undamaged s)
    (hfree : ∀ i ∈ l, Unleased s (coreOf t) (off i / 4096)) (acc : List (Nat × Nat)) :
    elemsLoad t w (l.map (fun i => (i, A i, .own (off i)))) s acc =
      .all s (acc.reverse ++ l.map (fun i => (i, ofBytes (s.readN (localAddr (coreOf t) (off i)) w)))) := by
  induction l generalizing acc with
  | nil => simp [elemsLoad]
  | cons i l ih =>
    have htail := ih (fun j hj => hfree j (.tail _ hj))
      ((i, ofBytes (s.readN (localAddr (coreOf t) (off i)) w)) :: acc)
    simp only [List.map_cons, elemsLoad, loadPlace_own hw hsb howned hecc (hfree i (.head _)), htail, List.reverse_cons,
      List.append_assoc, List.singleton_append]

/-- The pre-image of a line that is already held. -/
theorem takePre_held {o : Nat} (hfree : Unleased s (coreOf t) (o / 4096))
    (hpre : (preLocal s (coreOf t) (writerOf (slotOf t)) (lineOf o)).isSome = true) : takePre s t (.own o) = .taken s := by
  simp only [takePre, reclaimFor_unleased hfree, takePreLocal, hpre, if_true]

/-- A store whose pre-images are taken has its room (R160). -/
theorem elemsRoom_own (hfree : ∀ i ∈ l, Unleased s (coreOf t) (off i / 4096))
    (hpre : ∀ i ∈ l, (preLocal s (coreOf t) (writerOf (slotOf t)) (lineOf (off i))).isSome = true) (scatter : Bool) (data : VWord)
    (es : List SbEntry) : elemsRoom t w scatter data (l.map (fun i => (i, A i, .own (off i)))) es s = .all s () := by
  induction l generalizing es with
  | nil => rfl
  | cons i l ih =>
    simp only [List.map_cons, elemsRoom, Place.near, if_true, takePre_held (hfree i (.head _)) (hpre i (.head _))]
    exact ih (fun j hj => hfree j (.tail _ hj)) (fun j hj => hpre j (.tail _ hj)) _

end Accesses

/-! ## The entries of a vector store (R160, R211) -/

section Entries

variable {scatter : Bool} {es : List SbEntry} {e : SbEntry}

/-- Joining keeps every cell and adds those of the element. -/
theorem mem_cells_joinEntry (c : Nat × Byte) :
    (∃ y ∈ joinEntry scatter es e, c ∈ y.cells) ↔ (∃ y ∈ es, c ∈ y.cells) ∨ c ∈ e.cells := by
  induction es with
  | nil => simp [joinEntry]
  | cons p es ih =>
    rw [joinEntry]
    split
    · simp only [List.mem_cons, exists_eq_or_imp, List.mem_append]
      exact or_right_comm
    · simp only [List.mem_cons, exists_eq_or_imp, ih, or_assoc]

/-- Near elements make near entries. -/
theorem far_joinEntry (hes : ∀ y ∈ es, y.far = false) (he : e.far = false) : ∀ y ∈ joinEntry scatter es e, y.far = false := by
  induction es with
  | nil => simpa [joinEntry] using he
  | cons p es ih =>
    have hp := hes p (.head _)
    have htail : ∀ y ∈ es, y.far = false := fun y hy => hes y (.tail _ hy)
    rw [joinEntry]
    split
    · exact List.forall_mem_cons.2 ⟨hp, htail⟩
    · exact List.forall_mem_cons.2 ⟨hp, ih htail⟩

theorem mem_cells_foldl_joinEntry (l : List SbEntry) (c : Nat × Byte) :
    (∃ y ∈ l.foldl (joinEntry scatter) es, c ∈ y.cells) ↔ (∃ y ∈ es, c ∈ y.cells) ∨ ∃ y ∈ l, c ∈ y.cells := by
  induction l generalizing es with
  | nil => simp
  | cons x l ih => simp only [List.foldl_cons, ih, mem_cells_joinEntry, List.mem_cons, exists_eq_or_imp, or_assoc]

theorem mem_cells_joinEntries (l : List SbEntry) (c : Nat × Byte) :
    (∃ y ∈ joinEntries scatter l, c ∈ y.cells) ↔ ∃ y ∈ l, c ∈ y.cells := by
  simp [joinEntries, mem_cells_foldl_joinEntry]

theorem far_joinEntries {l : List SbEntry} (h : ∀ y ∈ l, y.far = false) : ∀ y ∈ joinEntries scatter l, y.far = false :=
  List.foldlRecOn l _ (motive := fun es : List SbEntry => ∀ y ∈ es, y.far = false) (by simp) fun _ hes x hx => far_joinEntry hes (h x hx)

end Entries

/-- The cells of an element in the own local store are its bytes. -/
theorem mem_cells_elemEntry_own (s : State) (t w : Nat) (data : VWord) (i : Nat) (ea : Word) (off : Nat) (c : Nat × Byte) :
    c ∈ (elemEntry s t w data (i, ea, .own off)).cells ↔
      ∃ k < w, c = (localAddr (coreOf t) off + k, byteAt data (i * w + k)) := by
  simp [elemEntry, Place.loc, eq_comm]

end Sys2Proof.Machine

namespace Sys2Proof.Machine

open Sys2Proof

/-! ## Vector accesses of the own local store (spec/06_vector.md R159, R160) -/

/-- Every active element of an entry is aligned and stands in the own local store at `off`, in granules that no slot leases. -/
def Reaches (s : State) (core slot : Nat) (e : VEntry) (use : Use) (A : Nat → Word) (off : Nat → Nat) : Prop :=
  ∀ i ∈ actives ((s.thread (tid core slot)).rm_ e.m) (elemBytes e.t), (A i).toNat % elemBytes e.t = 0 ∧
    Unleased s core (off i / 4096) ∧
    checkAccess s core slot (s.thread (tid core slot)).mode (s.ctxOf (tid core slot)) use (A i).toNat = .ok (.own (off i))

/-- v[d] with the active elements loaded from the own local store at `off`. -/
def loadedV (s : State) (core slot : Nat) (e : VEntry) (off : Nat → Nat) : VWord :=
  (actives ((s.thread (tid core slot)).rm_ e.m) (elemBytes e.t)).foldl (fun v i => setElem v (elemBytes e.t) i
    (ofBytes (s.readN (localAddr core (off i)) (elemBytes e.t)))) ((s.thread (tid core slot)).rv e.d)

theorem elem_loadedV (s : State) (core slot : Nat) (e : VEntry) (off : Nat → Nat) {i : Nat} (hi : i < 64 / elemBytes e.t) :
    elem (loadedV s core slot e off) (elemBytes e.t) i =
      if ((s.thread (tid core slot)).rm_ e.m).getLsbD (i * elemBytes e.t) then
        ofBytes (s.readN (localAddr core (off i)) (elemBytes e.t))
      else elem ((s.thread (tid core slot)).rv e.d) (elemBytes e.t) i := by
  rw [loadedV, elem_foldl_setElem (elemBytes_mul e.t) (fun i => ofBytes (s.readN (localAddr core (off i)) (elemBytes e.t))) _ _ hi,
    Nat.mod_eq_of_lt (ofBytes_readN_lt ..)]
  simp only [mem_actives, hi, true_and]

section Access

variable {s : State} {core slot : Nat} {e : VEntry} {form : VMemOp} {base stride : Word} {off : Nat → Nat}
  (hslot : slot < slotsPerCore)

include hslot

theorem elemCheck_tid {use : Use} {w : Nat} {ea : Word} {o : Nat} (halign : ea.toNat % w = 0)
    (hcheck : checkAccess s core slot (s.thread (tid core slot)).mode (s.ctxOf (tid core slot)) use ea.toNat = .ok (.own o)) :
    elemCheck s (tid core slot) use w ea = .inl (.own o) :=
  elemCheck_own halign (by rwa [coreOf_tid hslot, slotOf_tid hslot])

theorem Reaches.elemCheck {use : Use} {A : Nat → Word} (h : Reaches s core slot e use A off) :
    ∀ i ∈ actives ((s.thread (tid core slot)).rm_ e.m) (elemBytes e.t),
      Machine.elemCheck s (tid core slot) use (elemBytes e.t) (A i) = .inl (.own (off i)) := fun i hi => by
  obtain ⟨halign, -, hcheck⟩ := h i hi
  exact elemCheck_tid hslot halign hcheck

theorem Reaches.unleased {use : Use} {A : Nat → Word} (h : Reaches s core slot e use A off) :
    ∀ i ∈ actives ((s.thread (tid core slot)).rm_ e.m) (elemBytes e.t),
      Unleased s (coreOf (tid core slot)) (off i / 4096) := fun i hi => by
  obtain ⟨-, hfree, -⟩ := h i hi
  rwa [coreOf_tid hslot]

/-- A load fills the active elements with the bytes at their addresses. -/
theorem runLoad_own (hsb : (s.thread (tid core slot)).sb = []) (howned : s.owned = []) (hecc : Undamaged s)
    (h : Reaches s core slot e .read
      (elemAddress form (elemBytes e.t) base stride ((s.thread (tid core slot)).rv e.b)) off) :
    runLoad s (tid core slot) e form base stride = .done (writeV s (tid core slot) e (loadedV s core slot e off) 0) := by
  have hchecked := elemsCheck_own (h.elemCheck hslot)
  have hloaded := elemsLoad_own (A := elemAddress form (elemBytes e.t) base stride ((s.thread (tid core slot)).rv e.b))
    (elemBytes_pos e.t) hsb howned hecc (h.unleased hslot) []
  rw [coreOf_tid hslot] at hloaded
  simp only [runLoad, elemAddrs_eq, hchecked, hloaded, List.reverse_nil, List.nil_append, List.foldl_map]
  rfl

/-- The entries of a store whose active elements stand in the own local store. -/
def ownEntries (s : State) (core slot : Nat) (e : VEntry) (form : VMemOp) (A : Nat → Word) (off : Nat → Nat) : List SbEntry :=
  joinEntries (decide (form = .indexed)) ((actives ((s.thread (tid core slot)).rm_ e.m) (elemBytes e.t)).map (fun i =>
    elemEntry s (tid core slot) (elemBytes e.t) ((s.thread (tid core slot)).rv e.d) (i, A i, .own (off i))))

omit hslot in
theorem far_ownEntries (A : Nat → Word) : ∀ y ∈ ownEntries s core slot e form A off, y.far = false :=
  far_joinEntries fun y hy => by
    obtain ⟨i, -, rfl⟩ := List.mem_map.1 hy
    rfl

theorem mem_cells_ownEntries (A : Nat → Word) (c : Nat × Byte) :
    (∃ y ∈ ownEntries s core slot e form A off, c ∈ y.cells) ↔
      ∃ i ∈ actives ((s.thread (tid core slot)).rm_ e.m) (elemBytes e.t), ∃ k < elemBytes e.t,
        c = (localAddr core (off i) + k, byteAt ((s.thread (tid core slot)).rv e.d) (i * elemBytes e.t + k)) := by
  simp only [ownEntries, mem_cells_joinEntries, List.mem_map, exists_exists_and_eq_and, mem_cells_elemEntry_own, coreOf_tid hslot]

/-- A store with its pre-images taken waits for room in the store buffer or appends its entries. -/
theorem runStore_own
    (h : Reaches s core slot e .write
      (elemAddress form (elemBytes e.t) base stride ((s.thread (tid core slot)).rv e.b)) off)
    (hpre : ∀ i ∈ actives ((s.thread (tid core slot)).rm_ e.m) (elemBytes e.t),
      (preLocal s core (writerOf slot) (lineOf (off i))).isSome = true) :
    let es := ownEntries s core slot e form (elemAddress form (elemBytes e.t) base stride ((s.thread (tid core slot)).rv e.b)) off
    runStore s (tid core slot) e form base stride = .wait s ∨ runStore s (tid core slot) e form base stride =
      .done (s.modThread (tid core slot) (fun th => { th with sb := th.sb ++ es })) := by
  intro es
  have hchecked := elemsCheck_own (h.elemCheck hslot)
  have hroom := elemsRoom_own (w := elemBytes e.t) (A := elemAddress form (elemBytes e.t) base stride
    ((s.thread (tid core slot)).rv e.b)) (h.unleased hslot)
    (fun i hi => by rw [coreOf_tid hslot, slotOf_tid hslot]; exact hpre i hi) (decide (form = .indexed))
    ((s.thread (tid core slot)).rv e.d) []
  simp only [runStore, elemAddrs_eq, hchecked, hroom, List.map_map]
  by_cases hfull : 16 < (s.thread (tid core slot)).sb.length + min es.length 16
  · exact .inl (if_pos hfull)
  · exact .inr (if_neg hfull)

/-- The checks of an access stop at its lowest element that is not aligned. -/
theorem elemsCheck_lowest {use : Use} {i : Nat}
    (hi : i < 64 / elemBytes e.t) (hact : ((s.thread (tid core slot)).rm_ e.m).getLsbD (i * elemBytes e.t) = true)
    (A : Nat → Word) (hbad : (A i).toNat % elemBytes e.t ≠ 0)
    (h : ∀ k < i, ((s.thread (tid core slot)).rm_ e.m).getLsbD (k * elemBytes e.t) = true → (A k).toNat % elemBytes e.t = 0 ∧
      checkAccess s core slot (s.thread (tid core slot)).mode (s.ctxOf (tid core slot)) use (A k).toNat = .ok (.own (off k))) :
    elemsCheck s (tid core slot) use (elemBytes e.t)
      ((actives ((s.thread (tid core slot)).rm_ e.m) (elemBytes e.t)).map (fun i => (i, A i))) [] = .trap s 3 (A i) i := by
  refine elemsCheck_misaligned (off := off) (List.Pairwise.filter _ List.pairwise_lt_range) ((mem_actives ..).2 ⟨hi, hact⟩) hbad fun k hk hki => ?_
  obtain ⟨halign, hcheck⟩ := h k hki ((mem_actives ..).1 hk).2
  exact elemCheck_tid hslot halign hcheck

end Access

section Forms

variable {s t' : State} {t : Nat} {e : VEntry} {ca cb : Word}

theorem runEntry_load {form : VMemOp} (hop : e.op = .load form) (hform : form ≠ .queued) :
    runEntry s t e ca cb = runLoad s t e form ca cb := by
  cases form with
  | queued => exact absurd rfl hform
  | unit | strided | indexed => simp only [runEntry, hop]

theorem runEntry_store {form : VMemOp} (hop : e.op = .store form) : runEntry s t e ca cb = runStore s t e form ca cb := by
  simp only [runEntry, hop]

theorem runLoad_trap {form : VMemOp} {base stride fa : Word} {code el : Nat}
    (h : elemsCheck s t .read (elemBytes e.t) ((actives ((s.thread t).rm_ e.m) (elemBytes e.t)).map (fun i =>
      (i, elemAddress form (elemBytes e.t) base stride ((s.thread t).rv e.b) i))) [] = .trap t' code fa el) :
    runLoad s t e form base stride = .trap t' code fa false el := by
  simp only [runLoad, elemAddrs_eq, h]

theorem runStore_trap {form : VMemOp} {base stride fa : Word} {code el : Nat}
    (h : elemsCheck s t .write (elemBytes e.t) ((actives ((s.thread t).rm_ e.m) (elemBytes e.t)).map (fun i =>
      (i, elemAddress form (elemBytes e.t) base stride ((s.thread t).rv e.b) i))) [] = .trap t' code fa el) :
    runStore s t e form base stride = .trap t' code fa true el := by
  simp only [runStore, elemAddrs_eq, h]

/-- VLDQ pops its base once its elements are loaded. -/
theorem runEntry_loadQueued {p : Word} {rest : List Word} (hop : e.op = .load .queued) (hpopped : e.popped = none)
    (hqueue : (s.thread t).queue (qIdx e.a) = p :: rest) (hload : runLoad s t e .queued p 0 = .done t') :
    runEntry s t e ca cb = .done (popQ t' t (qIdx e.a)) := by
  simp only [runEntry, hop, hpopped, hqueue, hload]

theorem runEntry_qpop {y : Word} {rest : List Word} (hop : e.op = .qpop) (hqueue : (s.thread t).queue (qIdx e.a) = y :: rest) :
    runEntry s t e ca cb = .done (popQ (writeV s t e (mapActive ((s.thread t).rm_ e.m) (elemBytes e.t) ((s.thread t).rv e.d)
      (fun _ => (y.toNat, 0))).1 0) t (qIdx e.a)) := by
  simp only [runEntry, hop, hqueue]

/-- Only VLDQ pops a base before its checks. -/
theorem keepPopped_of_unpopped (h : e.op ≠ .load .queued) : keepPopped s t e = s := by
  unfold keepPopped
  split
  next hop => exact absurd hop h
  next => rfl

end Forms

/-! ## What the entry leaves -/

section Done

variable {s : State} {core slot : Nat} {stalled : BitVec 10} {e : VEntry} {ca cb : Word}

/-- v[d] takes the elements `f`, and the queues are `q`. -/
theorem fills_done (h : HeadRuns s core slot stalled e ca cb) {v : VWord} {q : Vector (List Word) 4} {f : Nat → Nat}
    (hrun : RunsTo s (tid core slot) e ca cb { wroteV e v 0 (s.thread (tid core slot)) with q := q })
    (hf : ∀ i < 64 / elemBytes e.t, elem v (elemBytes e.t) i = f i) : ∃ u : Thread,
      u = { s.thread (tid core slot) with v := u.v, vFull := u.vFull, q := q } ∧
      Lanes (s.thread (tid core slot)) u e.d (elemBytes e.t) f ∧
      HeadDone s (vectorTurn core slot stalled s) (tid core slot) u := by
  obtain ⟨t, hdone, hran⟩ := hrun
  refine ⟨{ wroteV e v 0 (s.thread (tid core slot)) with q := q }, ?_, lanes_wroteV 0 hf, headDone_of_ran h hdone hran rfl⟩
  obtain ⟨-, -, -, -, -, -, -, -, -, hregs⟩ := h
  have hflags : (s.thread (tid core slot)).fflags ||| 0 = (s.thread (tid core slot)).fflags := BitVec.or_zero
  rw [wroteV_sound hregs, hflags]

/-- Writing v[d] and then popping queue `q`. -/
theorem ran_writeV_popQ {x : Nat} (hready : (s.thread x).st = .ready) (hwait : (s.thread x).wait ≠ .wfi) (e : VEntry) (v : VWord)
    {q : BitVec 2} {y : Word} {rest : List Word} (hqueue : (s.thread x).queue q = y :: rest) :
    Ran s (popQ (writeV s x e v 0) x q) x { wroteV e v 0 (s.thread x) with q := ((s.thread x).setQueue q rest).q } := by
  have hpop := ((Ran.refl s x).writeV hwait e v 0).popQ hready q
  have htail : ((wroteV e v 0 (s.thread x)).queue q).tail = rest := congrArg List.tail hqueue
  rw [htail] at hpop
  exact hpop

/-- The words `ws` join queue `q`. -/
theorem pushes_done (h : HeadRuns s core slot stalled e ca cb) (hready : (s.thread (tid core slot)).st = .ready) {q : BitVec 2}
    {ws : List Word} (hrun : runEntry s (tid core slot) e ca cb = .done (pushQ s (tid core slot) q ws)) :
    HeadDone s (vectorTurn core slot stalled s) (tid core slot)
      ((s.thread (tid core slot)).setQueue q ((s.thread (tid core slot)).queue q ++ ws)) := by
  have hran := (Ran.refl s (tid core slot)).pushQ hready (by obtain ⟨-, -, -, -, -, -, hwait, -⟩ := h; exact hwait) q ws
  exact headDone_of_ran h hrun hran rfl

end Done

/-- Settles O31: every active element passes its check and is loaded or stored, or the lowest misaligned one stops the checks; the
moves between registers and queues each change one queue. -/
theorem vectorMemoryAndQueues : Obligations.VectorMemoryAndQueues := by
  unfold Obligations.VectorMemoryAndQueues
  intro s core slot stalled e ca cb h x th w act d t access fills pushes
  have hhead := h
  obtain ⟨-, hslot, -, -, -, hpopped, hwait, -⟩ := hhead
  have hw : w * (64 / w) = 64 := elemBytes_mul e.t
  have hreach : ∀ use A off, access use A off → Reaches s core slot e use A off := fun use A off haccess i hi => by
    obtain ⟨-, -, hall⟩ := haccess
    obtain ⟨hlt, hact⟩ := (mem_actives ..).1 hi
    exact hall i hlt hact
  refine ⟨fun form off hop hform hsb haccess => ?_, fun p rest off hop hready hqueue hsb haccess => ?_,
    fun form off hop haccess hpre => ?_, fun form i off hop hi hact => ?_, fun hready => ⟨fun hop hroom => ?_,
    fun hop hempty => ?_, fun y rest hop hqueue => ?_, fun hop hroom => ?_, fun hop hroom => ?_⟩⟩
  · have hown := hreach _ _ _ haccess
    obtain ⟨howned, hecc, -⟩ := haccess
    have hload := runLoad_own hslot hsb howned hecc hown
    exact fills_done h ⟨_, (runEntry_load hop hform).trans hload, (Ran.refl s x).writeV hwait ..⟩ fun i hi =>
      elem_loadedV s core slot e off hi
  · have hown := hreach _ _ _ haccess
    obtain ⟨howned, hecc, -⟩ := haccess
    have hload := runLoad_own (form := .queued) (base := p) (stride := 0) hslot hsb howned hecc hown
    exact fills_done h ⟨_, runEntry_loadQueued hop hpopped hqueue hload, ran_writeV_popQ hready hwait e _ hqueue⟩ fun i hi =>
      elem_loadedV s core slot e off hi
  · have hstore := runStore_own (form := form) hslot (hreach _ _ _ haccess) fun i hi => by
      obtain ⟨hlt, hact⟩ := (mem_actives ..).1 hi
      exact hpre i hlt hact
    rw [← runEntry_store (ca := ca) (cb := cb) hop] at hstore
    refine ⟨_, headDone_of_ran h (hstore.resolve_left (runEntry_ne_wait h s)) ((Ran.refl s x).modThread _) rfl,
      far_ownEntries _, fun c => ?_⟩
    simp only [mem_cells_ownEntries hslot, mem_actives, and_assoc]
    rfl
  · intro A use hbad hbelow
    have hcheck := elemsCheck_lowest hslot hi hact A hbad hbelow
    rcases hop with ⟨hop, hform⟩ | hop
    · simp only [use, hop, if_true] at hcheck
      have hturn := vectorTurn_trap h ((runEntry_load hop hform).trans (runLoad_trap hcheck))
      rw [keepPopped_of_unpopped (by simpa [hop] using hform)] at hturn
      simpa only [hop, reduceCtorEq, decide_false] using hturn
    · simp only [use, hop, reduceCtorEq, if_false] at hcheck
      have hturn := vectorTurn_trap h ((runEntry_store hop).trans (runStore_trap hcheck))
      rw [keepPopped_of_unpopped (by simp [hop])] at hturn
      simpa only [hop, decide_true] using hturn
  · refine pushes_done h hready ?_
    simp only [runEntry, hop]
    rw [if_pos hroom, extended_elem e.t (elem_lt ..)]
  · refine pushes_done h hready ?_
    simp only [runEntry, hop]
    rw [if_pos (by rw [hempty]; rfl)]
  · exact fills_done h ⟨_, runEntry_qpop hop hqueue, ran_writeV_popQ hready hwait e _ hqueue⟩ fun i hi =>
      elem_mapActive hw _ _ _ hi
  · refine pushes_done h hready ?_
    simp only [runEntry, hop]
    rw [if_pos hroom, popcount_eq_countP]
    rfl
  · obtain ⟨hle, hbefore, hset⟩ := first_bitsSet (th.rm_ (e.a.setWidth 3))
    refine ⟨_, hle, pushes_done h hready ?_, hbefore, hset⟩
    simp only [runEntry, hop]
    exact if_pos hroom

end Sys2Proof.Machine

namespace Sys2Proof.Machine

open Sys2Proof

/-! ## Scalar loads and stores (spec/07_local_store.md R173-R175) -/

/-- Every scalar load is `load` in its width and extension. -/
theorem exec_loadForm {s : State} {d a : BitVec 5} {imm : Word} {k : BitVec 5} {i : Instr} {r : BitVec 5} {off : Word} {z : Nat}
    {signed : Bool} (h : (i, r, off, z, signed) ∈ loadForms d a imm k) : exec i s = .next (load z signed d r off s) := by
  have hall : ∀ p ∈ loadForms d a imm k, exec p.1 s = .next (load p.2.2.2.1 p.2.2.2.2 d p.2.1 p.2.2.1 s) := by
    simp only [loadForms, List.forall_mem_cons, List.not_mem_nil, false_imp_iff, implies_true, and_true]
    exact ⟨rfl, rfl, rfl, rfl, rfl, rfl, rfl, rfl, rfl⟩
  exact hall _ h

theorem loadForms_pos {d a : BitVec 5} {imm : Word} {k : BitVec 5} {i : Instr} {r : BitVec 5} {off : Word} {z : Nat}
    {signed : Bool} (h : (i, r, off, z, signed) ∈ loadForms d a imm k) : 0 < z := by
  have hall : ∀ p ∈ loadForms d a imm k, 0 < p.2.2.2.1 := by simp [loadForms]
  exact hall _ h

/-- Every scalar store is `store` in its width. -/
theorem exec_storeForm {s : State} {a b : BitVec 5} {imm : Word} {k : BitVec 5} {i : Instr} {r : BitVec 5} {off : Word}
    {v : BitVec 5} {z : Nat} (h : (i, r, off, v, z) ∈ storeForms a b imm k) : exec i s = .next (store z r v off s) := by
  have hall : ∀ p ∈ storeForms a b imm k, exec p.1 s = .next (store p.2.2.2.2 p.2.1 p.2.2.2.1 p.2.2.1 s) := by
    simp only [storeForms, List.forall_mem_cons, List.not_mem_nil, false_imp_iff, implies_true, and_true]
    exact ⟨rfl, rfl, rfl, rfl, rfl, rfl⟩
  exact hall _ h

section Access

variable {s : State} {r v d : BitVec 5} {off ea : Word} {z : Nat} {signed : Bool} {bs : List Byte} {q : Place}

/-- With its operand full and no vector access before it, a load begins with the checks of R173. -/
theorem load_full (h : FullAll s [r]) (hvector : s.th.vectorMem = false) : load z signed d r off s =
    loadThen (s.th.rg r + off) z s (fun bs u => (u.putG d (loadValue bs z signed)).advance) := by
  rw [load, State.withG_full h, State.withVector_free hvector]
  rfl

theorem store_full (h : FullAll s [r, v]) (hvector : s.th.vectorMem = false) : store z r v off s =
    storeThen (s.th.rg r + off) (bytesOf z (s.th.rg v).toNat) s State.advance := by
  rw [store, State.withG_full h, State.withVector_free hvector]

/-! ### What a checked access answers, case by case -/

theorem loadThen_misaligned (h : ea.toNat % z ≠ 0) (k : List Byte → State → State) : loadThen ea z s k = s.raise 3 ea false :=
  if_pos h

theorem loadThen_denied (halign : ea.toNat % z = 0)
    (hcheck : checkAccess s s.curCore s.curSlot s.th.mode s.curCtx .read ea.toNat = .denied) (k : List Byte → State → State) :
    loadThen ea z s k = s.deny ea false := by
  simp only [loadThen, halign, ne_eq, not_true_eq_false, if_false, hcheck]

theorem loadThen_bytes {u : State} (halign : ea.toNat % z = 0)
    (hcheck : checkAccess s s.curCore s.curSlot s.th.mode s.curCtx .read ea.toNat = .ok q)
    (hload : loadPlace s s.cur q z = .bytes u bs) (k : List Byte → State → State) : loadThen ea z s k = k bs u := by
  simp only [loadThen, halign, ne_eq, not_true_eq_false, if_false, hcheck, hload]

theorem loadThen_noLine (halign : ea.toNat % z = 0)
    (hcheck : checkAccess s s.curCore s.curSlot s.th.mode s.curCtx .read ea.toNat = .ok q)
    (hload : loadPlace s s.cur q z = .full) (k : List Byte → State → State) :
    loadThen ea z s k = s.raise 7 (q.fullAt (s.reach s.cur ea)) false := by
  simp only [loadThen, halign, ne_eq, not_true_eq_false, if_false, hcheck, hload]

theorem storeThen_misaligned (h : ea.toNat % bs.length ≠ 0) (k : State → State) : storeThen ea bs s k = s.raise 3 ea true :=
  if_pos h

theorem storeThen_denied (halign : ea.toNat % bs.length = 0)
    (hcheck : checkAccess s s.curCore s.curSlot s.th.mode s.curCtx .write ea.toNat = .denied) (k : State → State) :
    storeThen ea bs s k = s.deny ea true := by
  simp only [storeThen, halign, ne_eq, not_true_eq_false, if_false, hcheck]

theorem storeThen_taken {u : State} (halign : ea.toNat % bs.length = 0)
    (hcheck : checkAccess s s.curCore s.curSlot s.th.mode s.curCtx .write ea.toNat = .ok q) (hbuffer : s.th.sb.length < 16)
    (hroom : storeRoom q bs.length s = .taken u) (k : State → State) : storeThen ea bs s k = k (pushStore q ea bs u) := by
  simp only [storeThen, halign, ne_eq, not_true_eq_false, if_false, hcheck, Nat.not_le.2 hbuffer, hroom]

theorem storeThen_noRoom (halign : ea.toNat % bs.length = 0)
    (hcheck : checkAccess s s.curCore s.curSlot s.th.mode s.curCtx .write ea.toNat = .ok q) (hbuffer : s.th.sb.length < 16)
    (hroom : storeRoom q bs.length s = .full) (k : State → State) :
    storeThen ea bs s k = s.raise 7 (q.fullAt (s.reach s.cur ea)) true := by
  simp only [storeThen, halign, ne_eq, not_true_eq_false, if_false, hcheck, Nat.not_le.2 hbuffer, hroom]

end Access

/-- A write of the own local store whose pre-image is held needs nothing more. -/
theorem storeRoom_held {s : State} {o : Nat} (hfree : Unleased s s.curCore (o / 4096))
    (hpre : (preLocal s s.curCore (writerOf s.curSlot) (lineOf o)).isSome = true) (z : Nat) :
    storeRoom (.own o) z s = .taken s :=
  takePre_held hfree hpre

/-- Settles O18: a load goes on with the bytes of its place, and an undisturbed own local store answers with memory's. -/
theorem loadResults : Obligations.LoadResults := by
  unfold Obligations.LoadResults
  intro s d a imm k i r off z signed hform ea hfull hvector halign q hcheck
  have hyields : ∀ u bs, loadPlace s s.cur q z = .bytes u bs →
      ∃ t, exec i s = .next t ∧ Yields u t d (loadValue bs z signed) := fun u bs hload =>
    ⟨_, by rw [exec_loadForm hform, load_full hfull hvector, loadThen_bytes halign hcheck hload], u.putG_yields d _⟩
  refine ⟨hyields, fun o hq hsb howned hecc hfree => ?_⟩
  subst hq
  exact hyields s _ (loadPlace_own (loadForms_pos hform) hsb howned hecc hfree)

/-- Settles O19: the store is one entry more in the buffer of the state that holds its pre-image. -/
theorem storeBuffered : Obligations.StoreBuffered := by
  unfold Obligations.StoreBuffered
  intro s a b imm k i r off v z hform ea hfull hvector halign hbuffer q s' hcheck hroom
  have hlen : (bytesOf z (s.th.rg v).toNat).length = z := bytesOf_length ..
  have hstore : exec i s = .next (pushStore q ea (bytesOf z (s.th.rg v).toNat) s').advance := by
    rw [exec_storeForm hform, store_full hfull hvector,
      storeThen_taken (by rwa [hlen]) hcheck hbuffer (by rwa [hlen])]
  refine ⟨⟨_, _, hstore, pushStore_completed .., rfl, rfl, ?_, fun n hn => getElem_storeCells _ q hn⟩, fun o hq hfree hpre => ?_⟩
  · simp [storeCells, hlen]
  · subst hq
    rw [storeRoom_held hfree hpre] at hroom
    cases hroom
    rfl

/-! ## The translation that a denied access has used (spec/10_pages.md R233) -/

/-- Beside the translation units and the counts of their check bits nothing changed. -/
def TlbOnly (s t : State) : Prop :=
  t = { s with dies := t.dies } ∧
  ∀ d, t.die d = { s.die d with tlb := (t.die d).tlb, eccCor := (t.die d).eccCor, eccUnc := (t.die d).eccUnc,
                                eccRef := (t.die d).eccRef }

theorem TlbOnly.refl (s : State) : TlbOnly s s := ⟨rfl, fun _ => rfl⟩

theorem TlbOnly.trans {s t u : State} (h : TlbOnly s t) (h' : TlbOnly t u) : TlbOnly s u :=
  ⟨by rw [h'.1, h.1], fun d => by rw [h'.2, h.2]⟩

theorem TlbOnly.modDie (s : State) (k : Nat) {f : Die → Die}
    (hf : f (s.die k) = { s.die k with tlb := (f (s.die k)).tlb, eccCor := (f (s.die k)).eccCor, eccUnc := (f (s.die k)).eccUnc,
                                       eccRef := (f (s.die k)).eccRef }) : TlbOnly s (s.modDie k f) := by
  refine ⟨rfl, fun d => ?_⟩
  by_cases h : d = k
  · subst h
    rw [State.modDie, State.setDie_same]
    exact hf
  · rw [State.modDie, State.setDie_other _ _ h]

theorem TlbOnly.tlbEcc (s : State) (die ctx vpn : Nat) : TlbOnly s (tlbEcc s die ctx vpn) := by
  unfold Machine.tlbEcc
  split
  · exact .refl s
  · split
    · exact .refl s
    · exact .modDie s die rfl
    · exact .trans (.modDie s die rfl) (.modDie (s.countUnc die) die rfl)

theorem TlbOnly.touchTlb (s : State) (die ctx va : Nat) (e : Pte) : TlbOnly s (touchTlb s die ctx va e) := by
  unfold Machine.touchTlb
  exact (TlbOnly.tlbEcc s die ctx _).trans (.modDie _ die rfl)

theorem State.deniedUse_only (s : State) (t : Nat) (ea : Word) : TlbOnly s (s.deniedUse t ea) := by
  unfold State.deniedUse
  dsimp only
  split
  · split
    · exact .touchTlb ..
    · exact .refl s
  · exact .refl s

theorem State.deniedUse_unpaged {s : State} {t : Nat} {ea : Word}
    (h : ∀ va, addrForm s (coreOf t) (slotOf t) ea.toNat ≠ .paged va) : s.deniedUse t ea = s := by
  unfold State.deniedUse
  dsimp only
  split
  · next va hva => exact absurd hva (h va)
  · rfl

/-- ACCESS is taken in the state that the use of the translation left (R173). -/
theorem trapsDenied_of {i : Instr} {s : State} {ea : Word} {wr : Bool} (h : TakesS s) (he : exec i s = .next (s.deny ea wr)) :
    TrapsDenied i s ea wr := by
  have hth : (s.deniedUse s.cur ea).th = s.th := by rw [(s.deniedUse_only s.cur ea).1]; rfl
  have htakes : TakesS (s.deniedUse s.cur ea) := by unfold TakesS; rwa [hth]
  have htrapped := State.raise_traps htakes 4 (s.reach s.cur ea) wr (.inl (by decide))
  rw [hth] at htrapped
  exact ⟨_, he, htrapped⟩

/-! ## Permissions of the own local store (spec/07_local_store.md R172, Table 7.3) -/

/-- An address of the first area of a slot's window is that offset of its local store. -/
theorem addrForm_own (s : State) (core slot : Nat) {off : Nat} (h : off < localBytes) :
    addrForm s core slot (2 ^ 64 - 2 ^ 16 + off) = .own off false := by
  rw [localBytes] at h
  have hplain : overflows s core slot (2 ^ 64 - 2 ^ 16 + off) = false := by
    rw [overflows, localBytes, decide_eq_false_iff_not]; omega
  have hmod : (2 ^ 64 - 2 ^ 16 + off) % 65536 = off := by omega
  rw [addrForm, hplain, if_neg Bool.false_ne_true, localBytes, if_neg (by omega), plainForm, if_neg (by omega), if_pos (by omega),
    hmod, localBytes, if_pos h]

/-- Table 7.3 decides an access of the holding launch's slots. -/
theorem checkAccess_own {s : State} {core slot : Nat} (hcore : core < numGcores) (hslot : slot < 8) {u : Use} (hu : u ≠ .rmw)
    {off : Nat} (h : off < localBytes) (mode : Mode) (ctx : Nat) :
    checkAccess s core slot mode ctx u (2 ^ 64 - 2 ^ 16 + off) =
      if (s.core core).hold = some ctx && localAllowed (s.core core) mode off false then .ok (.own off) else .denied := by
  have hgcore : isControl core = false := decide_eq_false (Nat.not_le.2 hcore)
  simp only [checkAccess, addrForm_own s core slot h, hgcore, Bool.false_eq_true, if_false, hu, hslot, if_true]

theorem localAllowed_low {c : Core} {off : Nat} (h : off < 0xB800 - spillBytes c) (mode : Mode) :
    localAllowed c mode off false = true := if_pos h

theorem localAllowed_high {c : Core} {off : Nat} (h : 0xB800 ≤ off) (mode : Mode) :
    localAllowed c mode off false = decide (mode ≠ .u) := by
  rw [localAllowed, if_neg (by omega), if_neg (by omega)]

/-- Settles O21: each check that fails answers its trap, in the order of R173; the area of the offset decides in the own local
store. -/
theorem accessChecks : Obligations.AccessChecks := by
  unfold Obligations.AccessChecks
  refine ⟨fun s d a b imm k i r off z htakes hvector hfull => ⟨fun signed hform => ?_, fun v hform hvalue => ?_⟩,
    fun s t ea => ?_, fun s core slot off u ctx hcore hslot hu => ⟨fun hlow => ?_, fun hhigh hoff => ⟨?_, ?_⟩⟩⟩
  · have hexec := exec_loadForm (s := s) hform
    rw [load_full hfull hvector] at hexec
    refine ⟨fun halign => traps_of htakes ?_, fun halign hdenied => trapsDenied_of htakes ?_,
      fun halign q hcheck hload => traps_of htakes ?_⟩
    · rw [hexec, loadThen_misaligned halign]
    · rw [hexec, loadThen_denied halign hdenied]
    · rw [hexec, loadThen_noLine halign hcheck hload]
  · have hboth : FullAll s [r, v] := ⟨List.forall_mem_cons.2 ⟨hfull.1 r (.head _), hvalue.1⟩,
      List.forall_mem_cons.2 ⟨hfull.2 r (.head _), hvalue.2⟩⟩
    have hexec := exec_storeForm (s := s) hform
    rw [store_full hboth hvector] at hexec
    have hlen : (bytesOf z (s.th.rg v).toNat).length = z := bytesOf_length ..
    refine ⟨fun halign => traps_of htakes ?_, fun halign hdenied => trapsDenied_of htakes ?_,
      fun halign q hcheck hbuffer hroom => traps_of htakes ?_⟩
    · rw [hexec, storeThen_misaligned (by rwa [hlen])]
    · rw [hexec, storeThen_denied (by rwa [hlen]) hdenied]
    · rw [hexec, storeThen_noRoom (by rwa [hlen]) hcheck hbuffer (by rwa [hlen])]
  · obtain ⟨honly, hdies⟩ := s.deniedUse_only t ea
    exact ⟨_, honly, hdies, State.deniedUse_unpaged⟩
  · rw [checkAccess_own hcore hslot hu (by rw [localBytes]; omega), localAllowed_low hlow]
    simp
  · rw [checkAccess_own hcore hslot hu hoff, localAllowed_high hhigh]
    simp
  · rw [checkAccess_own hcore hslot hu hoff, localAllowed_high hhigh]
    simp

end Sys2Proof.Machine

namespace Sys2Proof.Machine

open Sys2Proof

/-! ## Die memory that an atomic or bank-ALU operation may reach (spec/08_die_memory.md R189, R193, Table 8.4) -/

theorem plainForm_window {ea d o : Nat} (h : plainForm ea = .window d o) : o < dieBytes := by
  unfold plainForm at h
  dsimp only at h
  split_ifs at h with _ _ _ _ _ _ hin
  cases h
  exact hin.2

theorem addrForm_window {s : State} {core slot ea d o : Nat} (h : addrForm s core slot ea = .window d o) : o < dieBytes := by
  unfold addrForm at h
  split at h
  · split at h
    · cases h
    · exact plainForm_window h
  · split at h
    · cases h
    · exact plainForm_window h

/-- Table 8.4 keeps atomics out of block 0. -/
theorem windowAllowed_rmw {s : State} {die d ctx o : Nat} {mode : Mode} (h : windowAllowed s die d ctx o mode .rmw = true) :
    16384 ≤ o := by
  by_contra hblock
  simp [windowAllowed, Nat.not_le.1 hblock] at h

/-- A place of the issuing die's memory that an atomic may reach lies past block 0 of its window. -/
theorem checkAccess_rmw_die {s : State} {core slot ctx ea w : Nat} {mode : Mode}
    (h : checkAccess s core slot mode ctx .rmw ea = .ok (.die w)) :
    ∃ o, w = dieAddr (dieOf core) o ∧ 16384 ≤ o ∧ o < dieBytes := by
  unfold checkAccess at h
  dsimp only at h
  split at h
  · cases h
  · split at h <;> simp at h
  · simp at h
  · next d o hform =>
    split at h
    · next hallowed =>
      split at h
      · next hd =>
        cases h
        exact ⟨o, by rw [hd], windowAllowed_rmw (Bool.and_eq_true_iff.1 hallowed).2, addrForm_window hform⟩
      · cases h
    · cases h
  · split at h
    · cases h
    · split at h
      · cases h
      · split at h <;> cases h

/-- Past block 0 a window shows memory: the wait tables of R449 stand in it. -/
theorem windowByte_past_block (s : State) (d : Nat) {o : Nat} (hlo : 16384 ≤ o) (hhi : o < 0x10000000) :
    windowByte s (dieAddr d o) = s.read (dieAddr d o) := by
  have hoff : (dieAddr d o - dieWindow) % 0x10000000 = o := by
    rw [dieAddr, Nat.add_assoc, Nat.add_sub_cancel_left, Nat.mul_add_mod_self_right, Nat.mod_eq_of_lt hhi]
  simp only [windowByte, hoff]
  exact if_neg (by omega)

section AtSlice

variable {s : State} {ea : Word} {w n : Nat}

/-- An atomic's place is a location of memory, not of a page. -/
theorem atomicAt_location (h : AtomicAt s ea w) : 2 ^ 48 ≤ w := by
  obtain ⟨o, rfl, -, -⟩ := checkAccess_rmw_die h.1
  rw [dieAddr, dieWindow]
  omega

/-- What the slice shows of an atomic's place is memory. -/
theorem windowByte_of_atomicAt (h : AtomicAt s ea w) {i : Nat} (hi : i < dieBytes) : windowByte s (w + i) = s.read (w + i) := by
  obtain ⟨o, rfl, hlo, hhi⟩ := checkAccess_rmw_die h.1
  rw [dieBytes] at hhi hi
  rw [show dieAddr (dieOf s.curCore) o + i = dieAddr (dieOf s.curCore) (o + i) from Nat.add_assoc ..]
  exact windowByte_past_block s _ (by omega) (by omega)

/-- With an empty store buffer and nothing owned or damaged, a read at the slice finds the bytes that memory holds. -/
theorem loadPlace_of_atomicAt (h : AtomicAt s ea w) (hsb : s.th.sb = []) (hfree : Undisturbed s) (hn : n ≤ dieBytes) :
    loadPlace s s.cur (.die w) n = .bytes s (s.readN w n) := by
  obtain ⟨howned, hecc⟩ := hfree
  cases n with
  | zero => rfl
  | succ n =>
    have hnone : ∀ loc, forwarded (s.thread s.cur).sb loc = none := fun loc => by
      rw [show (s.thread s.cur).sb = [] from hsb]; rfl
    have hidle : ∀ die ctx loc, lineBusy s die ctx loc = false := fun die ctx loc => by rw [lineBusy, howned]; rfl
    have hbytes : (List.range (n + 1)).map (fun i => windowByte s (w + i)) = s.readN w (n + 1) := by
      rw [State.readN_eq_map]
      exact List.map_congr_left fun i hi => windowByte_of_atomicAt h (Nat.lt_of_lt_of_le (List.mem_range.1 hi) hn)
    simp [loadPlace, hnone, hidle, reclaimFor, readPlace, imageEccs, readEccs_of_undamaged hecc, hbytes]

/-- A line whose undo line is taken needs no further one (R196). -/
theorem takePre_of_atomicAt (h : AtomicAt s ea w) : takePre s s.cur (.die w) = .taken s := by
  have hundo : (undoOf s (dieOf (coreOf s.cur)) (lineOf w)).isSome = true := h.2
  have htaken : takePreDie s (dieOf (coreOf s.cur)) (lineOf w) = some s := by
    rw [takePreDie, takeUndo]
    split
    · rfl
    · rw [if_pos hundo]
  simp only [takePre, htaken]

end AtSlice

end Sys2Proof.Machine

namespace Sys2Proof.Machine

open Sys2Proof

/-! ## One step at the slice (spec/08_die_memory.md R196, R199) -/

/-- Cells at rising locations of memory write their bytes there and nothing else. -/
theorem pokeCells_consecutive (die ctx : Nat) (bs : List Byte) : ∀ (s : State) {a : Nat}, 2 ^ 48 ≤ a →
    pokeCells s die ctx ((List.range bs.length).map (fun i => (a + i, bs.getD i 0))) = s.writeN a bs := by
  induction bs with
  | nil => exact fun _ _ _ => rfl
  | cons b bs ih =>
    intro s a ha
    have htail := ih (pokeByte s die ctx (a, b)) (Nat.le_succ_of_le ha)
    rw [List.length_cons, List.range_succ_eq_map, List.map_cons, List.map_map]
    calc pokeCells s die ctx _ = pokeCells (pokeByte s die ctx (a, b)) die ctx _ := rfl
      _ = (pokeByte s die ctx (a, b)).writeN (a + 1) bs := by
        simpa [Function.comp_def, Nat.add_assoc, Nat.add_comm 1] using htail
      _ = s.writeN a (b :: bs) := by rw [pokeByte, if_pos ha]; rfl

theorem stored_writeN (s : State) (w : Nat) (bs : List Byte) : Stored s (s.writeN w bs) w bs :=
  ⟨rfl, Memory.readN_writeN bs s.mem w, fun x hx => s.read_writeN_out w x bs hx⟩

section AtSlice

variable {s : State} {ea : Word} {w n : Nat}

/-- A target that passes R193 goes on at its place, the store buffer being empty. -/
theorem rmwTarget_at {z : Nat} (halign : ea.toNat % z = 0) (hat : AtomicAt s ea w) (hsb : s.th.sb = []) (k : Place → State → State) :
    rmwTarget ea z s k = k (.die w) s := by
  obtain ⟨hcheck, -⟩ := hat
  simp only [rmwTarget, halign, ne_eq, not_true_eq_false, if_false, hcheck, State.withDrain_empty hsb]

variable {f : List Byte → Option (List Byte)}

/-- What `f` answers stands at the place, and `k` goes on with the bytes that stood there. -/
theorem atSlice_writes {new : List Byte} (hat : AtomicAt s ea w) (hsb : s.th.sb = []) (hfree : Undisturbed s) (hn : n ≤ dieBytes)
    (hf : f (s.readN w n) = some new) (k : List Byte → State → State) :
    atSlice (.die w) ea n f k s = k (s.readN w n) (s.writeN w new) := by
  simp only [atSlice, loadPlace_of_atomicAt hat hsb hfree hn, hf, takePre_of_atomicAt hat]
  exact congrArg (k _) (pokeCells_consecutive _ _ new s (atomicAt_location hat))

/-- An operation that always writes. -/
theorem atSlice_stores (hat : AtomicAt s ea w) (hsb : s.th.sb = []) (hfree : Undisturbed s) (hn : n ≤ dieBytes)
    (g : List Byte → List Byte) (k : List Byte → State → State) :
    atSlice (.die w) ea n (fun bs => some (g bs)) k s = k (s.readN w n) (s.writeN w (g (s.readN w n))) :=
  atSlice_writes (f := fun bs => some (g bs)) hat hsb hfree hn rfl k

/-- Where `f` answers nothing, nothing is written. -/
theorem atSlice_keeps (hat : AtomicAt s ea w) (hsb : s.th.sb = []) (hfree : Undisturbed s) (hn : n ≤ dieBytes)
    (hf : f (s.readN w n) = none) (k : List Byte → State → State) :
    atSlice (.die w) ea n f k s = k (s.readN w n) s := by
  simp only [atSlice, loadPlace_of_atomicAt hat hsb hfree hn, hf]

end AtSlice

/-! ## Atomics and BADD.W128 (R199, R200, R202, Table 8.5) -/

/-- Every atomic of Table 8.5 but AMOCAS is `amo` with its function. -/
theorem exec_atomicForm {s : State} {d a b : BitVec 5} {p : Instr × (Word → Word → Word)} (h : p ∈ atomicForms d a b) :
    ∃ f, exec p.1 s = .next (amo f d a b s) ∧ ∀ o u, amoValue f o u = p.2 o u := by
  revert p
  simp only [atomicForms, List.forall_mem_cons, List.not_mem_nil, false_imp_iff, implies_true, and_true]
  exact ⟨⟨0, rfl, fun _ _ => rfl⟩, ⟨1, rfl, fun _ _ => rfl⟩, ⟨2, rfl, fun _ _ => rfl⟩, ⟨3, rfl, fun _ _ => rfl⟩,
    ⟨4, rfl, fun _ _ => by simp [amoValue, BitVec.slt]⟩, ⟨5, rfl, fun _ _ => by simp [amoValue, BitVec.slt]⟩,
    ⟨6, rfl, fun _ _ => by simp [amoValue, BitVec.ult]⟩, ⟨7, rfl, fun _ _ => by simp [amoValue, BitVec.ult]⟩,
    ⟨8, rfl, fun _ _ => rfl⟩⟩

section Atomics

variable {s : State} {d a b : BitVec 5} {w : Nat}

theorem amo_at (f : Nat) (hdrained : Drained s) (hfree : Undisturbed s) (halign : (s.th.rg a).toNat % 8 = 0)
    (hat : AtomicAt s (s.th.rg a) w) (hfull : FullAll s [a, b]) :
    amo f d a b s =
      ((s.writeN w (bytesOf 8 (amoValue f (s.readWord w) (s.th.rg b)).toNat)).putG d (s.readWord w)).advance := by
  obtain ⟨hvector, hsb⟩ := hdrained
  rw [amo, State.withG_full hfull, State.withVector_free hvector]
  dsimp only
  rw [rmwTarget_at halign hat hsb, atSlice_stores hat hsb hfree (by decide)]
  rfl

/-- AMOCAS goes to the slice with the operand and the value compared as read at issue. -/
theorem execAmocas_at (hdrained : Drained s) (halign : (s.th.rg a).toNat % 8 = 0) (hat : AtomicAt s (s.th.rg a) w)
    (hfull : FullAll s [d, a, b]) :
    exec (.amocas d a b) s = .next (atSlice (.die w) (s.th.rg a) 8
      (fun bs => if wordOfBytes bs = s.th.rg d then some (bytesOf 8 (s.th.rg b).toNat) else none)
      (fun bs u => (u.putG d (wordOfBytes bs)).advance) s) := by
  obtain ⟨hvector, hsb⟩ := hdrained
  show execAmocas d a b s = _
  rw [execAmocas, State.withG_full hfull, State.withVector_free hvector]
  dsimp only
  rw [rmwTarget_at halign hat hsb]

theorem execBaddW128_at (hdrained : Drained s) (hfree : Undisturbed s) (halign : (s.th.rg a).toNat % 16 = 0)
    (hat : AtomicAt s (s.th.rg a) w) (hfull : FullAll s [a, b, b + 1]) :
    let sum := ofBytes (s.readN w 16) + ((s.th.rg (b + 1)).toNat * 2 ^ 64 + (s.th.rg b).toNat)
    exec (.baddW128 d a b) s =
      .next ((s.writeN w (bytesOf 16 sum)).putG d (wordOfBool (decide (2 ^ 128 ≤ sum)))).advance := by
  obtain ⟨hvector, hsb⟩ := hdrained
  show execBaddW128 d a b s = _
  rw [execBaddW128, State.withG_full hfull, State.withVector_free hvector]
  dsimp only
  rw [rmwTarget_at halign hat hsb, atSlice_stores hat hsb hfree (by decide)]

end Atomics

/-- Settles O22: each goes to its slice, where the bytes read, changed by its function, are written back. -/
theorem atomicResultsAndCarry : Obligations.AtomicResultsAndCarry := by
  unfold Obligations.AtomicResultsAndCarry
  refine ⟨fun s d a b w hdrained hfree halign hat => ⟨fun hfull p hp => ?_, fun hfull => ⟨fun heq => ?_, fun hne => ?_⟩⟩,
    fun s d a b w hdrained hfree hfull halign hat => ?_⟩
  · obtain ⟨f, hexec, hvalue⟩ := exec_atomicForm (s := s) hp
    rw [amo_at f hdrained hfree halign hat hfull, hvalue] at hexec
    exact ⟨_, _, hexec, stored_writeN .., State.putG_yields ..⟩
  · have hexec := execAmocas_at hdrained halign hat hfull
    rw [atSlice_writes hat hdrained.2 hfree (by decide) (if_pos heq)] at hexec
    exact ⟨_, _, hexec, stored_writeN .., State.putG_yields ..⟩
  · have hexec := execAmocas_at hdrained halign hat hfull
    rw [atSlice_keeps hat hdrained.2 hfree (by decide) (if_neg hne)] at hexec
    exact ⟨_, hexec, s.putG_yields ..⟩
  · refine ⟨_, _, execBaddW128_at hdrained hfree halign hat hfull, stored_writeN .., ?_⟩
    simpa only [wordOfBool, decide_eq_true_eq] using State.putG_yields ..

end Sys2Proof.Machine

namespace Sys2Proof.Machine

open Sys2Proof

/-! ## Element operations of the bank ALUs (spec/08_die_memory.md R203, Table 8.6) -/

/-- Every element operation is `bankOp` with its element bytes, fold and function. -/
theorem exec_bankForm {s : State} {n a b : BitVec 5} {p : Instr × Nat × Bool × (Nat → Nat → Nat)} (h : p ∈ bankForms n a b) :
    ∃ o : BankOp, exec p.1 s = .next (bankOp o n a b s) ∧ o.w = p.2.1 ∧ o.fold = p.2.2.1 ∧ o.f = p.2.2.2 := by
  revert p
  simp only [bankForms, List.forall_mem_cons, List.not_mem_nil, false_imp_iff, implies_true, and_true]
  exact ⟨⟨_, rfl, rfl, rfl, rfl⟩, ⟨_, rfl, rfl, rfl, rfl⟩, ⟨_, rfl, rfl, rfl, rfl⟩, ⟨_, rfl, rfl, rfl, rfl⟩,
    ⟨_, rfl, rfl, rfl, rfl⟩, ⟨_, rfl, rfl, rfl, rfl⟩⟩

theorem bankElems_fold {o : BankOp} (h : o.fold = true) (t src : List Byte) :
    bankElems o t src = bytesOf 4 ((elemsOf o.w src).foldl o.f (ofBytes t)) := if_pos h

theorem bankElems_each {o : BankOp} (h : o.fold = false) (t src : List Byte) :
    bankElems o t src = (List.zipWith o.f (elemsOf o.w t) (elemsOf o.w src)).flatMap (bytesOf o.w) := by
  rw [bankElems, if_neg (by rw [h]; decide), ← List.map_uncurry_zip_eq_zipWith, List.flatMap_map]
  rfl

theorem oneLine_iff {ea : Word} {n : Nat} : oneLine ea n = true ↔ ea.toNat % 4 = 0 ∧ ea.toNat % 64 + n ≤ 64 := by
  simp [oneLine]

/-- An undisturbed load of the own local store, one of no bytes included. -/
theorem loadPlace_own_undisturbed {s : State} {off : Nat} (n : Nat) (hsb : s.th.sb = []) (hfree : Undisturbed s)
    (hunleased : Unleased s s.curCore (off / 4096)) :
    loadPlace s s.cur (.own off) n = .bytes s (s.readN (localAddr s.curCore off) n) := by
  obtain ⟨howned, hecc⟩ := hfree
  cases n with
  | zero => rfl
  | succ n => exact loadPlace_own n.succ_pos hsb howned hecc hunleased

/-- With its operands at hand an element operation reads its source, writes its target in one step, and completes. -/
theorem bankOp_at {s : State} {n a b : BitVec 5} {w off : Nat} (o : BankOp) (hdrained : Drained s) (hfree : Undisturbed s)
    (hfull : FullAll s [a, b]) (htarget : oneLine (s.th.rg a) (4 * n.toNat) = true)
    (hsource : oneLine (s.th.rg b) (4 * n.toNat) = true) (hown : ownForm s (s.th.rg b) = true)
    (hcheck : checkAccess s s.curCore s.curSlot s.th.mode s.curCtx .read (s.th.rg b).toNat = .ok (.own off))
    (hunleased : Unleased s s.curCore (off / 4096)) (hat : AtomicAt s (s.th.rg a) w) :
    bankOp o n a b s =
      ((s.writeN w (bankElems o (s.readN w (if o.fold then 4 else 4 * n.toNat))
        (s.readN (localAddr s.curCore off) (4 * n.toNat)))).count s.curCtx o.rop (4 * n.toNat / o.w)).advance := by
  obtain ⟨hvector, hsb⟩ := hdrained
  obtain ⟨halign, hline⟩ := oneLine_iff.1 htarget
  have hlen : (if o.fold then 4 else 4 * n.toNat) ≤ dieBytes := by rw [dieBytes]; split <;> omega
  rw [bankOp, State.withG_full hfull, State.withVector_free hvector]
  simp only [htarget, hsource, hown, Bool.not_true, Bool.false_eq_true, if_false, hcheck]
  rw [rmwTarget_at halign hat hsb]
  simp only [loadPlace_own_undisturbed _ hsb hfree hunleased]
  exact atSlice_stores hat hsb hfree hlen ..

/-! ## FENCE.SC and IFLUSH (spec/09_ordering.md R214, spec/18_traps.md R442) -/

theorem execFenceSc_drained {s : State} (h : Drained s) (sc : BitVec 2) : exec (.fenceSc sc) s = .next s.advance := by
  obtain ⟨hvector, hsb⟩ := h
  show execFenceSc sc s = _
  rw [execFenceSc, State.withVector_free hvector, State.withDrain_empty hsb]

theorem execIflush_drained {s : State} (h : Drained s) : exec .iflush s =
    .next (s.advance.modCore s.curCore (fun c => { c with icache := c.icache.filter (fun l => l.ctx ≠ s.curCtx) })) := by
  obtain ⟨hvector, hsb⟩ := h
  show execIflush s = _
  rw [execIflush, State.withVector_free hvector, State.withDrain_empty hsb]

/-- An instruction that waits for the vector memory entries has no effect before they have executed (R144). -/
theorem State.withVector_waits {s : State} (h : s.th.vectorMem = true) (k : State → State) : s.withVector k = s := if_pos h

/-- Settles O23: the step at the slice writes what the elements make of the target, and a drained fence completes. -/
theorem bankResultsAndFences : Obligations.BankResultsAndFences := by
  unfold Obligations.BankResultsAndFences
  refine ⟨fun s n a b w off hdrained hfree hfull => ?_,
    fun s sc => ⟨fun hdrained => ⟨⟨_, execFenceSc_drained hdrained sc, s.advance_completed⟩, ?_⟩, fun hwaits => ⟨?_, ?_⟩⟩⟩
  · intro ta sa len htarget hsource hown hcheck hunleased hat p hp es new
    obtain ⟨o, hexec, hw, hfold, hf⟩ := exec_bankForm (s := s) hp
    rw [bankOp_at o hdrained hfree hfull htarget hsource hown hcheck hunleased hat] at hexec
    have hnew : bankElems o (s.readN w (if o.fold then 4 else len)) (s.readN (localAddr s.curCore off) len) = new := by
      simp only [new, es, ← hw, ← hfold, ← hf]
      split
      · next h => exact bankElems_fold h ..
      · next h => exact bankElems_each (Bool.eq_false_iff.2 h) ..
    rw [hnew] at hexec
    obtain ⟨honly, hth⟩ := ((s.writeN w new).count s.curCtx o.rop (len / o.w)).advance_completed
    exact ⟨_, _, hexec, stored_writeN .., (IssueOnly.count ..).trans honly, hth⟩
  · obtain ⟨-, -, hcores, -⟩ := s.advance_completed.1
    have hicache : (s.advance.core s.curCore).icache = (s.core s.curCore).icache := by rw [hcores]
    refine ⟨_, _, execIflush_drained hdrained, s.advance_completed, rfl, fun c hc => State.modCore_other _ _ hc, ?_⟩
    rw [State.modCore_same, hicache]
  · exact congrArg Host.Outcome.next (State.withVector_waits hwaits _)
  · exact congrArg Host.Outcome.next (State.withVector_waits hwaits _)

end Sys2Proof.Machine

namespace Sys2Proof.Machine

open Sys2Proof

/-! ## A draining entry (spec/09_ordering.md R211) -/

/-- Cells written at distinct addresses each read back. -/
theorem Memory.read_writeCells_mem {cells : List (Nat × Byte)} : ∀ {m : List Host.Cell} {c : Nat × Byte},
    (cells.map (·.1)).Nodup → c ∈ cells → Memory.read (Memory.writeCells m cells) c.1 = c.2 := by
  induction cells with
  | nil => exact fun _ hc => absurd hc List.not_mem_nil
  | cons x cells ih =>
    intro m c hnodup hc
    obtain ⟨hx, hrest⟩ := List.nodup_cons.1 hnodup
    show Memory.read (Memory.writeCells (Memory.write m x.1 x.2) cells) c.1 = c.2
    obtain rfl | hc := List.mem_cons.1 hc
    · rw [Memory.read_writeCells_other _ _ _ fun y hy hyx => hx (List.mem_map.2 ⟨y, hy, hyx⟩)]
      exact Memory.read_write_same ..
    · exact ih hrest hc

/-- Cells of local store and die memory are written in memory. -/
theorem pokeCells_memory (die ctx : Nat) {cells : List (Nat × Byte)} : ∀ {s : State}, (∀ c ∈ cells, 2 ^ 48 ≤ c.1) →
    pokeCells s die ctx cells = { s with mem := Memory.writeCells s.mem cells } := by
  induction cells with
  | nil => exact fun _ => rfl
  | cons c cells ih =>
    intro s h
    obtain ⟨hc, hcells⟩ := List.forall_mem_cons.1 h
    calc pokeCells s die ctx (c :: cells) = pokeCells (pokeByte s die ctx c) die ctx cells := rfl
      _ = { pokeByte s die ctx c with mem := Memory.writeCells (pokeByte s die ctx c).mem cells } := ih hcells
      _ = { s with mem := Memory.writeCells s.mem (c :: cells) } := by rw [pokeByte, if_pos hc]; rfl

theorem mem_of_mem_dedup {a : Nat} {l : List Nat} (h : a ∈ dedup l) : a ∈ l := by
  induction l with
  | nil => exact h
  | cons b l ih =>
    obtain rfl | h := List.mem_cons.1 h
    · exact List.mem_cons_self
    · exact List.mem_cons_of_mem b (ih (List.mem_of_mem_filter h))

theorem lineBusy_of_unowned {s : State} (h : s.owned = []) (die ctx loc : Nat) : lineBusy s die ctx loc = false := by
  rw [lineBusy, h]; rfl

/-- Where every line of local store has its pre-image, a draining entry needs no other. -/
theorem retakePre_held {s : State} {t : Nat} {cells : List (Nat × Byte)}
    (h : ∀ c ∈ cells, localWindow ≤ lineOf c.1 → lineOf c.1 < dieWindow →
      (preLocal s (coreOf t) (writerOf (slotOf t)) (lineOf c.1 - localAddr (coreOf t) 0)).isSome = true) :
    retakePre s t cells = some s := by
  rw [retakePre]
  have hlines : ∀ l ∈ dedup (cells.map fun c => lineOf c.1), localWindow ≤ l ∧ l < dieWindow →
      (preLocal s (coreOf t) (writerOf (slotOf t)) (l - localAddr (coreOf t) 0)).isSome = true := fun l hl hwindow => by
    obtain ⟨c, hc, rfl⟩ := List.mem_map.1 (mem_of_mem_dedup hl)
    exact h c hc hwindow.1 hwindow.2
  generalize dedup _ = ls at hlines
  induction ls with
  | nil => rfl
  | cons l ls ih =>
    obtain ⟨hl, hls⟩ := List.forall_mem_cons.1 hlines
    refine Eq.trans (congrArg (ls.foldl _) ?_) (ih hls)
    dsimp only [Option.bind_some]
    split
    · next hwindow => exact if_pos (hl hwindow)
    · rfl

/-- With its lines free, sound and their pre-images held, the oldest near entry leaves the buffer and its cells stand in memory. -/
theorem drainOne_near {s : State} {t : Nat} {e : SbEntry} {rest : List SbEntry} (hsb : (s.thread t).sb = e :: rest)
    (hnear : e.far = false) (howned : s.owned = []) (hecc : Undamaged s) (hmem : ∀ c ∈ e.cells, 2 ^ 48 ≤ c.1)
    (hpre : retakePre s t e.cells = some s) :
    drainOne s t = some ({ s with mem := Memory.writeCells s.mem e.cells }.modThread t
      (fun th => { th with sb := rest, sbStall := none })) := by
  have hfree : (e.cells.any fun c => lineBusy s (dieOf (coreOf t)) (s.ctxOf t) c.1) = false := by
    simp [lineBusy_of_unowned howned]
  have hpresent : (e.cells.any fun c =>
      decide (c.1 < 2 ^ 48) && (s.line (dieOf (coreOf t)) (s.ctxOf t) (lineOf c.1)).isNone) = false := by
    refine List.any_eq_false.2 fun c hc => ?_
    rw [decide_eq_false (Nat.not_lt.2 (hmem c hc)), Bool.false_and]
    exact Bool.false_ne_true
  have hpopped : Undamaged (s.modThread t fun th => { th with sb := rest, sbStall := none }) := hecc
  simp only [drainOne, hsb, hnear, Bool.false_eq_true, if_false, hfree, hpresent, hpre, storeEcc_of_undamaged hpopped,
    pokeCells_memory _ _ hmem]
  rfl

theorem exec_storeBufferDrain {s u : State} {core slot : Nat} (h : drainOne s (tid core slot) = some u) :
    exec (.storeBufferDrain core slot) s = .next u := by
  show execStoreBufferDrain core slot s = _
  rw [execStoreBufferDrain, h]

/-! ## Bytes that a load takes from the store buffer (R211) -/

/-- The youngest entry, a near one, gives the byte of each of its cells, no two at one location. -/
theorem forwarded_youngest {older : List SbEntry} {e : SbEntry} (hnear : e.far = false) (hnodup : (e.cells.map (·.1)).Nodup)
    {c : Nat × Byte} (hc : c ∈ e.cells) : forwarded (older ++ [e]) c.1 = some c.2 := by
  have hfind : e.cells.reverse.find? (fun x => decide (x.1 = c.1)) = some c := by
    obtain ⟨x, hx⟩ := Option.isSome_iff_exists.1 (List.find?_isSome (p := fun x => decide (x.1 = c.1)).2
      ⟨c, List.mem_reverse.2 hc, decide_eq_true rfl⟩)
    have hmem := List.mem_reverse.1 (List.mem_of_find?_eq_some hx)
    have hloc : x.1 = c.1 := of_decide_eq_true (List.find?_some (p := fun x : Nat × Byte => decide (x.1 = c.1)) hx)
    rw [hx, List.inj_on_of_nodup_map hnodup hmem hc hloc]
  rw [forwarded, List.reverse_append]
  simp [hnear, hfind]

/-- A load all of whose bytes the youngest entry holds answers with the entry's; of a paged place the translation has been used. -/
theorem loadPlace_forwarded {s : State} {t n : Nat} {q : Place} {older : List SbEntry} {e : SbEntry} (hq : q.near = true)
    (hsb : (s.thread t).sb = older ++ [e]) (hnear : e.far = false)
    (hlocs : e.cells.map (·.1) = (List.range n).map (q.loc (coreOf t) + ·)) :
    ∃ u, TlbOnly s u ∧ ((∀ va p, q ≠ .paged va p) → u = s) ∧ loadPlace s t q n = .bytes u (e.cells.map (·.2)) := by
  have hnodup : (e.cells.map (·.1)).Nodup := by
    rw [hlocs]
    exact List.nodup_range.map fun i j h => Nat.add_left_cancel h
  have hbytes : (List.range n).map (fun i => forwarded (s.thread t).sb (q.loc (coreOf t) + i)) =
      e.cells.map (fun c => some c.2) := by
    calc _ = ((List.range n).map (q.loc (coreOf t) + ·)).map (forwarded (older ++ [e])) := by rw [List.map_map, hsb]; rfl
      _ = e.cells.map (fun c => forwarded (older ++ [e]) c.1) := by rw [← hlocs, List.map_map]; rfl
      _ = e.cells.map (fun c => some c.2) := List.map_congr_left fun c hc => forwarded_youngest hnear hnodup hc
  cases q with
  | own off => exact ⟨s, .refl s, fun _ => rfl, by simp [loadPlace, hbytes, hq]⟩
  | die a => exact ⟨s, .refl s, fun _ => rfl, by simp [loadPlace, hbytes, hq]⟩
  | paged va p =>
    exact ⟨_, .touchTlb s (dieOf (coreOf t)) (s.ctxOf t) va p, fun h => absurd rfl (h va p), by simp [loadPlace, hbytes, hq]⟩
  | farLocal g off => cases hq
  | farDie d a => cases hq

/-- Settles O20: the drain writes the entry's cells into memory, and a load that the youngest entry holds goes on with its bytes. -/
theorem storesDrainAndForward : Obligations.StoresDrainAndForward := by
  unfold Obligations.StoresDrainAndForward
  refine ⟨fun s core slot e rest hslot hsb hnear howned hecc hmem hnodup hpre => ?_,
    fun s d a imm q e older => ?_⟩
  · have hheld : retakePre s (tid core slot) e.cells = some s :=
      retakePre_held (by rwa [coreOf_tid hslot, slotOf_tid hslot])
    refine ⟨_, exec_storeBufferDrain (drainOne_near hsb hnear howned hecc hmem hheld), rfl, fun u => ?_, fun c hc => Memory.read_writeCells_mem hnodup hc,
      fun x hx => Memory.read_writeCells_other _ _ _ fun c hc hcx => hx (List.mem_map.2 ⟨c, hc, hcx⟩)⟩
    split
    · next hu => subst hu; exact State.modThread_same ..
    · next hu => exact State.modThread_other _ _ hu
  · intro ea hfull hvector halign hq hcheck hsb hnear hcells hlen
    have hlocs : e.cells.map (·.1) = (List.range 8).map (q.loc s.curCore + ·) := by
      refine List.ext_getElem (by simp [hlen]) fun i hi _ => ?_
      obtain ⟨v, hv⟩ := hcells i (by simpa [hlen] using hi)
      obtain ⟨_, hv⟩ := List.getElem?_eq_some_iff.1 hv
      simp [hv]
    obtain ⟨u, honly, hunpaged, hload⟩ := loadPlace_forwarded hq hsb hnear hlocs
    have hform : (Instr.ld d a imm, a, imm, 8, false) ∈ loadForms d a imm 0 := by simp [loadForms]
    obtain ⟨t, hexec, hyields⟩ := (loadResults s d a imm 0 _ a imm 8 false hform hfull hvector halign q hcheck).1 _ _ hload
    exact ⟨t, u, hexec, honly.1, hunpaged, hyields⟩

end Sys2Proof.Machine

namespace Sys2Proof.Machine

open Sys2Proof

/-! ## Staging lists (spec/10_pages.md R244-R246) -/

theorem readsWords_tail {s : State} {a : Nat} {w : Word} {ws : List Word} (h : ReadsWords s a (w :: ws)) :
    ReadsWords s (a + 8) ws := by
  obtain ⟨hdrained, hfree, halign, hend, hread⟩ := h
  rw [List.length_cons] at hend hread
  refine ⟨hdrained, hfree, by omega, by omega, fun i hi => ?_⟩
  obtain ⟨off, hcheck, hunleased, hword⟩ := hread (i + 1) (by omega)
  exact ⟨off, by rwa [show a + 8 + 8 * i = a + 8 * (i + 1) by omega], hunleased, hword⟩

/-- One doubleword of a list is read from the own local store, and nothing changes. -/
theorem readList_succ {s : State} {a : Nat} {w : Word} {ws : List Word} (h : ReadsWords s a (w :: ws))
    (k : List Word → State → State) (n : Nat) (acc : List Word) :
    readList k (n + 1) a acc s = readList k n (a + 8) (acc ++ [w]) s := by
  obtain ⟨⟨-, hsb⟩, ⟨howned, hecc⟩, -, hend, hread⟩ := h
  rw [List.length_cons] at hend hread
  obtain ⟨off, hcheck, hunleased, hword⟩ := hread 0 (by omega)
  have hload := loadPlace_own (n := 8) (by omega) hsb howned hecc hunleased
  have haddr : a % 2 ^ 64 = a + 8 * 0 := by omega
  have hbytes : wordOfBytes (s.readN (localAddr s.curCore off) 8) = w := hword
  rw [readList, haddr, hcheck]
  simp only [Bool.not_true, Bool.false_eq_true, if_false, hload]
  exact congrArg (fun x => readList k n (a + 8) (acc ++ [x]) s) hbytes

/-- A list of one entry in the own local store is read as it stands. -/
theorem withList_single {s : State} {a : BitVec 5} {w : Word} (hfull : FullAll s [a])
    (h : ReadsWords s (s.th.rg a).toNat [1, w]) (k : List Word → State → State) : withList a s k = k [w] s := by
  have hhead := readList_succ h
  have htail := readList_succ (readsWords_tail h)
  obtain ⟨⟨hvector, -⟩, -, halign, -⟩ := h
  rw [withList, State.withG_full hfull, State.withVector_free hvector]
  simp only [halign, ne_eq, not_true_eq_false, if_false]
  rw [hhead, readList]
  exact htail k 0 []

/-- The running instruction completes after a change that leaves the threads as they are. -/
theorem advance_goes {s u : State} (hthread : ∀ x, u.thread x = s.thread x) (hcur : u.cur = s.cur) (hnpc : u.npc = s.npc) :
    u.advance.th = { s.th with came := s.th.pc, cameBr := false, pc := s.npc, stall := none } ∧
      ∀ x, x ≠ s.cur → u.advance.thread x = s.thread x := by
  obtain ⟨⟨-, hothers, -⟩, hdone⟩ := u.advance_completed
  exact ⟨by rw [hdone, State.th, hcur, hthread, hnpc]; rfl, fun x hx => (hothers x (by rwa [hcur])).trans (hthread x)⟩

theorem advance_memory (s : State) : SameMemory s s.advance := by
  obtain ⟨⟨-, -, -, -, hmem⟩, -⟩ := s.advance_completed
  exact hmem

theorem touchTlb_mem (s : State) (die ctx va : Nat) (e : Pte) : SameMemory s (touchTlb s die ctx va e) := by
  unfold touchTlb tlbEcc
  dsimp only
  split
  · exact .of_fields rfl rfl rfl
  · split <;> exact .of_fields rfl rfl rfl

theorem touchTlb_ctxs (s : State) (die ctx va : Nat) (e : Pte) : (touchTlb s die ctx va e).ctxs = s.ctxs := by
  unfold touchTlb tlbEcc
  dsimp only
  split
  · rfl
  · split <;> rfl

/-! ### One page of a list -/

/-- The pending line that PFL makes of an absent one. -/
def stagedLine (s : State) (die ctx : Nat) (e : Pte) (l : Nat) : CLine :=
  { die := die, ctx := ctx, va := l, phys := e.phys l, st := .pending, data := 0, written := 0, undo := none, stamp := s.useCount }

/-- PFL's pending lines put into the line cache. -/
def withPending (s : State) (die ctx : Nat) (e : Pte) (ls : List Nat) : State :=
  { s with lines := s.lines ++ ls.map (stagedLine s die ctx e) }

/-- The lines of a page that its slice does not hold. -/
def missingLines (s : State) (die ctx page : Nat) : List Nat := (pageLines page).filter (fun l => (s.line die ctx l).isNone)

theorem stagePage_bad {s : State} {die ctx : Nat} {w : Word}
    (h : badEntry w false = true ∨ translate s die ctx (wfld w 16 32 * 65536) = none) :
    stagePage s die ctx w = s.count ctx 46 1 := by
  rw [stagePage]
  dsimp only
  by_cases hbad : badEntry w false = true
  · rw [if_pos hbad]
  · rw [if_neg hbad, h.resolve_left hbad]

theorem stagePage_staged {s s1 : State} {die ctx : Nat} {w : Word} {e : Pte}
    (htr : translate s die ctx (wfld w 16 32 * 65536) = some e) (hbad : badEntry w false = false) (hr : e.r = true)
    (hframe : e.frame (wfld w 16 32) ≤ 732164) (hrep : e.rep = false)
    (hroom : roomFor s die (sliceOf (wfld w 16 32 * 65536)) (missingLines s die ctx (wfld w 16 32)).length = some s1) :
    stagePage s die ctx w =
      touchTlb (withPending s1 die ctx e (missingLines s die ctx (wfld w 16 32))) die ctx (wfld w 16 32 * 65536) e := by
  unfold missingLines at hroom
  simp only [stagePage, hbad, Bool.false_eq_true, if_false, htr, hr, Bool.not_true, Bool.false_or, decide_eq_true_eq,
    Nat.not_lt.2 hframe, hrep, hroom]
  rfl

/-- Of a replicated page nothing is staged: at most its translation is used, or the entry counted as skipped. -/
theorem stagePage_replicated {s : State} {die ctx : Nat} {w : Word} {e : Pte}
    (htr : translate s die ctx (wfld w 16 32 * 65536) = some e) (hbad : badEntry w false = false) (hrep : e.rep = true)
    (hroom : sliceUse s die (sliceOf (wfld w 16 32 * 65536)) ≤ (s.die die).cblk) :
    stagePage s die ctx w = s.count ctx 46 1 ∨ stagePage s die ctx w = touchTlb s die ctx (wfld w 16 32 * 65536) e := by
  have hfits : roomFor s die (sliceOf (wfld w 16 32 * 65536)) 0 = some s := by
    rw [roomFor, roomKeeping, Nat.add_zero, Nat.sub_eq_zero_of_le hroom, evictFor, if_pos (by rwa [Nat.add_zero])]
  simp only [stagePage, hbad, Bool.false_eq_true, if_false, htr, hrep, if_true, List.length_nil, hfits, List.map_nil,
    List.append_nil]
  split
  · exact .inl rfl
  · exact .inr rfl

/-- An absent line of the page is pending once the page is staged. -/
theorem line_of_staged {s : State} {die ctx : Nat} {e : Pte} {ls : List Nat} {l : Nat} (habsent : s.line die ctx l = none)
    (hl : l ∈ ls) :
    (withPending s die ctx e ls).line die ctx l = some (stagedLine s die ctx e l) := by
  unfold State.line at habsent ⊢
  rw [withPending, List.find?_append, habsent, Option.none_or]
  induction ls with
  | nil => exact absurd hl List.not_mem_nil
  | cons x ls ih =>
    rw [List.map_cons, List.find?_cons]
    by_cases hx : x = l
    · simp [stagedLine, hx]
    · simpa [stagedLine, hx] using ih ((List.mem_cons.1 hl).resolve_left (Ne.symm hx))

/-- WBL's page put down for the commit. -/
def withWbl (s : State) (die ctx page : Nat) (evict : Bool) : State :=
  s.modJob ctx (fun j => { j with wbl := j.wbl ++ [(die, page, evict)] })

theorem execPfl_single {s : State} {a : BitVec 5} {w : Word} (hfull : FullAll s [a])
    (h : ReadsWords s (s.th.rg a).toNat [1, w]) : exec (.pfl a) s = .next (stagePage s s.curDie s.curCtx w).advance :=
  congrArg Host.Outcome.next (withList_single hfull h _)

theorem execWbl_single {s : State} {a : BitVec 5} {w : Word} (hfull : FullAll s [a])
    (h : ReadsWords s (s.th.rg a).toNat [1, w]) (hbad : badEntry w true = false) {e : Pte}
    (htr : translate s s.curDie s.curCtx (wfld w 16 32 * 65536) = some e) : exec (.wbl a) s =
      .next (touchTlb (withWbl s s.curDie s.curCtx (wfld w 16 32) (w.getLsbD 0)) s.curDie s.curCtx (wfld w 16 32 * 65536) e).advance := by
  refine congrArg Host.Outcome.next ((withList_single hfull h _).trans ?_)
  simp only [List.foldl_cons, List.foldl_nil, hbad, Bool.false_eq_true, if_false, htr]
  rfl

/-- Settles O39: a list of one entry is read whole, and its page is staged, skipped, or put down for the commit. -/
theorem pageListsStage : Obligations.PageListsStage := by
  unfold Obligations.PageListsStage
  intro s a w hfull hlist page die ctx goes
  have hpfl : exec (.pfl a) s = .next (stagePage s die ctx w).advance := execPfl_single hfull hlist
  have hsame {u : State} (hu : u = s.count ctx 46 1 ∨ ∃ e, u = touchTlb s die ctx (page * 65536) e) :
      goes u.advance ∧ SameMemory s u.advance := by
    obtain rfl | ⟨e, rfl⟩ := hu
    · exact ⟨advance_goes (fun _ => rfl) rfl rfl, SameMemory.trans (.of_fields rfl rfl rfl) (advance_memory _)⟩
    · have honly : SliceOnly .. := touchTlb_only s die ctx (page * 65536) e
      exact ⟨advance_goes (fun x => by rw [honly]; rfl) (by rw [honly]) (by rw [honly]), (touchTlb_mem ..).trans (advance_memory _)⟩
  refine ⟨fun e htr hbad hr hframe hrep s1 hroom hthreads hcur hnpc habsent => ?_, fun e htr hbad hrep hroom => ?_,
    fun hskip => ?_, fun e j htr hbad hjob => ?_⟩
  · rw [hpfl, stagePage_staged htr hbad hr hframe hrep hroom]
    have honly (u : State) : SliceOnly .. := touchTlb_only u die ctx (page * 65536) e
    refine ⟨_, rfl, advance_goes (fun x => by rw [honly, State.thread, State.thread, ← hthreads]; rfl) (by rw [honly]; exact hcur) (by rw [honly]; exact hnpc),
      fun l hl hnone => ⟨stagedLine s1 die ctx e l, ?_, rfl, rfl⟩⟩
    obtain ⟨-, hlines, -⟩ := (touchTlb_mem (withPending s1 die ctx e (missingLines s die ctx page)) die ctx
      (page * 65536) e).trans (advance_memory _)
    rw [State.line, hlines]
    exact line_of_staged (habsent l hnone) (List.mem_filter.2 ⟨hl, by rw [hnone]; rfl⟩)
  · rw [hpfl]
    exact ⟨_, rfl, hsame ((stagePage_replicated htr hbad hrep hroom).imp id fun h => ⟨e, h⟩)⟩
  · rw [hpfl]
    exact ⟨_, rfl, hsame (.inl (stagePage_bad hskip))⟩
  · rw [execWbl_single hfull hlist hbad htr]
    let u := withWbl s die ctx page (w.getLsbD 0)
    have honly : SliceOnly .. := touchTlb_only u die ctx (page * 65536) e
    have hmem : SameMemory s u := .of_fields rfl rfl rfl
    refine ⟨_, rfl, advance_goes (fun x => by rw [honly]; rfl) (by rw [honly]; rfl) (by rw [honly]; rfl),
      hmem.trans ((touchTlb_mem ..).trans (advance_memory _)), ?_⟩
    obtain ⟨⟨-, -, -, hctx, -⟩, -⟩ := (touchTlb u die ctx (page * 65536) e).advance_completed
    unfold State.job at hjob
    rw [State.job, hctx, State.ctx, touchTlb_ctxs]
    exact (congrArg Ctx.job (State.modCtx_same ..)).trans (by rw [hjob]; rfl)

/-! ## SFENCE.V (spec/10_pages.md R261, R262) -/

/-- The pages of which contexts the word of an SFENCE.V names (Table 10.16). -/
def fenceNames (w : Word) (ctx page : Nat) : Bool :=
  match wfld w 62 2 with
  | 1 => decide (ctx = wfld w 32 16)
  | 2 => true
  | _ => decide (ctx = wfld w 32 16 ∧ page = wfld w 0 32)

theorem shootDown_only (s : State) (ic : Bool) (p : Nat → Nat → Bool) :
    shootDown s ic p = { s with dies := (shootDown s ic p).dies, cores := (shootDown s ic p).cores } := by
  unfold shootDown
  cases ic <;> rfl

theorem shootDown_tlb (s : State) (ic : Bool) (p : Nat → Nat → Bool) {d : Nat} (h : (s.die d).healthy = true) :
    ((shootDown s ic p).die d).tlb = (s.die d).tlb.filter (fun x => !p x.ctx x.vpn) := by
  have hdies : (shootDown s ic p).dies = s.dies.map (fun e =>
      (e.1, if e.2.healthy then { e.2 with tlb := e.2.tlb.filter (fun x => !p x.ctx x.vpn) } else e.2)) := by
    unfold shootDown
    cases ic <;> rfl
  rw [State.die, hdies, Table.get_map Die.reset s.dies
    (fun _ x => if x.healthy then { x with tlb := x.tlb.filter (fun x => !p x.ctx x.vpn) } else x) d rfl]
  exact congrArg Die.tlb (if_pos h)

theorem shootDown_icache (s : State) (ic : Bool) (p : Nat → Nat → Bool) (c : Nat) :
    ((shootDown s ic p).core c).icache =
      if ic then (s.core c).icache.filter (fun l => !p l.ctx (fld l.line 16 32)) else (s.core c).icache := by
  cases ic with
  | false => rfl
  | true =>
    exact congrArg Core.icache (Table.get_map Core.reset s.cores
      (fun _ x => { x with icache := x.icache.filter (fun l => !p l.ctx (fld l.line 16 32)) }) c rfl)

/-- A page change with no ticket outstanding tells no thread. -/
theorem notify_idle {s : State} (h : ∀ e ∈ s.threads, e.2.tickets = []) (ctx page : Nat) :
    notify s ctx page = { s with threads := (notify s ctx page).threads } ∧
      ∀ x, (notify s ctx page).thread x = s.thread x := by
  have hidle : ∀ x, (s.thread x).tickets = [] := fun x => by
    obtain hreset | ⟨e, hmem, he⟩ := Table.get_eq_or_mem Thread.reset s.threads x
    · rw [State.thread, hreset]; rfl
    · rw [State.thread, he, h e hmem]
  unfold notify
  refine List.foldlRecOn (motive := fun u : State => u = { s with threads := u.threads } ∧ ∀ x, u.thread x = s.thread x)
    _ _ ⟨rfl, fun _ => rfl⟩ fun u hu e he => ?_
  obtain ⟨honly, hthread⟩ := hu
  simp only [h e (List.mem_of_mem_filter he), List.filter_nil, List.foldl_nil]
  refine ⟨by rw [State.modThread, State.setThread, honly], fun x => ?_⟩
  by_cases hx : x = e.1
  · subst hx
    rw [State.modThread_same, hthread, hidle, List.filter_nil, ← hidle e.1]
  · rw [State.modThread_other _ _ hx, hthread]

theorem exec_sfence {a : BitVec 5} {i : Instr}
    (hi : i ∈ [Instr.sfenceVPage a, .sfenceVContext a, .sfenceVAll a, .sfenceVPublish a]) (s : State) :
    exec i s = .next (sfence a s) := by
  simp only [List.mem_cons, List.not_mem_nil, or_false] at hi
  obtain rfl | rfl | rfl | rfl := hi <;> rfl

/-- The translations that an SFENCE.V names are gone. -/
def fenced (s : State) (w : Word) : State := shootDown s (w.getLsbD 61) (fenceNames w)

theorem sfence_full {s : State} {a : BitVec 5} (hmode : s.th.mode ≠ .u) (hfull : FullAll s [a]) : sfence a s =
    let w := s.th.rg a
    if wfld w 48 13 ≠ 0 then s.raise 4 w false
    else (if wfld w 62 2 = 3 then notify (fenced s w) (wfld w 32 16) (wfld w 0 32) else fenced s w).advance := by
  rw [sfence, if_neg hmode, State.withG_full hfull]
  rfl

theorem advance_fenced_tlb {s u : State} {w : Word} (hdies : u.dies = (fenced s w).dies) {d : Nat} (h : (s.die d).healthy = true) :
    (u.advance.die d).tlb = (s.die d).tlb.filter (fun x => !fenceNames w x.ctx x.vpn) := by
  obtain ⟨⟨honly, -⟩, -⟩ := u.advance_completed
  rw [← shootDown_tlb s (w.getLsbD 61) (fenceNames w) h, State.die, State.die, honly, hdies, fenced]

/-- Settles O41: the word's kind picks what is shot down, of translations and, where it asks for it, of cached instructions. -/
theorem translationsShotDown : Obligations.TranslationsShotDown := by
  unfold Obligations.TranslationsShotDown
  intro s a i hi hfull w named
  have hnames : named = fenceNames w := rfl
  have hexec := exec_sfence hi s
  rw [hnames, hexec]
  obtain ⟨hthreads, hcur, hnpc⟩ : (fenced s w).threads = s.threads ∧ (fenced s w).cur = s.cur ∧ (fenced s w).npc = s.npc := by
    rw [fenced, shootDown_only]
    exact ⟨rfl, rfl, rfl⟩
  have hthread : ∀ x, (fenced s w).thread x = s.thread x := fun x => by rw [State.thread, hthreads, State.thread]
  refine ⟨fun hmode htakes => traps_of htakes (hexec.trans (congrArg _ (if_pos hmode))),
    fun hmode hbits htakes => traps_of htakes (hexec.trans (congrArg _ ((sfence_full hmode hfull).trans (if_pos hbits)))),
    fun hmode hbits hkind => ?_, fun hmode hbits hkind htickets => ?_⟩
  · have hfence : sfence a s = (fenced s w).advance := by
      rw [sfence_full hmode hfull]
      exact (if_neg (not_not.2 hbits)).trans (congrArg _ (if_neg hkind))
    rw [hfence]
    obtain ⟨⟨-, -, hcore, -, hmem⟩, -⟩ := (fenced s w).advance_completed
    refine ⟨_, rfl, SameMemory.trans ?_ hmem, (advance_goes hthread hcur hnpc).1, fun d => advance_fenced_tlb rfl, fun c => ?_⟩
    · rw [fenced, shootDown_only]
      exact .of_fields rfl rfl rfl
    · rw [hcore]
      exact shootDown_icache ..
  · let u := notify (fenced s w) (wfld w 32 16) (wfld w 0 32)
    have hfence : sfence a s = u.advance := by
      rw [sfence_full hmode hfull]
      exact (if_neg (not_not.2 hbits)).trans (congrArg _ (if_pos hkind))
    rw [hfence]
    obtain ⟨honly, htold⟩ := notify_idle (s := fenced s w) (by rwa [hthreads]) (wfld w 32 16) (wfld w 0 32)
    obtain ⟨hucur, hunpc, hudies⟩ : u.cur = s.cur ∧ u.npc = s.npc ∧ u.dies = (fenced s w).dies := by
      rw [show u = _ from honly]
      exact ⟨hcur, hnpc, rfl⟩
    exact ⟨_, rfl, (advance_goes (fun x => (htold x).trans (hthread x)) hucur hunpc).1, fun d => advance_fenced_tlb hudies⟩

end Sys2Proof.Machine

namespace Sys2Proof.Machine

open Sys2Proof

/-! ## A fibre resumes from its frame (spec/10_pages.md R249, R254) -/

theorem dedup_sublist (l : List Nat) : (dedup l).Sublist l := by
  induction l with
  | nil => exact .slnil
  | cons a l ih => exact (List.filter_sublist.trans ih).cons_cons a

theorem nodup_dedup (l : List Nat) : (dedup l).Nodup := by
  induction l with
  | nil => exact List.nodup_nil
  | cons a l ih => exact List.nodup_cons.2 ⟨fun h => by simpa using List.of_mem_filter h, ih.filter _⟩

/-- The four upcall registers that an accepted UPCFG names are different, and none is g0. -/
theorem upcfgOk_registers {v : Word} (h : upcfgOk v = true) :
    [wfld v 40 5, wfld v 45 5, wfld v 50 5, wfld v 55 5].Nodup ∧ ∀ u ∈ [wfld v 40 5, wfld v 45 5, wfld v 50 5, wfld v 55 5], u ≠ 0 := by
  rw [upcfgOk, Bool.and_eq_true, Bool.and_eq_true, List.all_eq_true, decide_eq_true_eq] at h
  obtain ⟨⟨hne, hlen, -⟩, -⟩ := h
  exact ⟨(dedup_sublist _).eq_of_length hlen ▸ nodup_dedup _, fun u hu => by simpa using hne u hu⟩

theorem State.wakeWfi_of_ready {s : State} {x : Nat} (h : (s.thread x).st = .ready) : s.wakeWfi x = s := by
  rw [State.wakeWfi, h]
  rfl

theorem State.fillG_of_ready {s : State} {x : Nat} (h : (s.thread x).st = .ready) {r : BitVec 5} (hr : r ≠ 0) (v : Word) :
    s.fillG x r v = s.modThread x (fun th => th.put r v) := by
  have hst : ((s.modThread x (fun th => th.put r v)).thread x).st = .ready := by
    rw [State.modThread_same, Thread.put, Thread.wg_st, h]
  rw [State.fillG, if_neg hr]
  dsimp only
  rw [State.wake_of_ready hst, State.wakeWfi_of_ready hst, ite_self]

theorem Thread.rg_put (th : Thread) {r : BitVec 5} (hr : r ≠ 0) (v : Word) (q : BitVec 5) :
    (th.put r v).rg q = if q = r then v else th.rg q := by
  obtain ⟨-, -, hrg, -⟩ := putThread_writes th v hr
  refine (hrg q).trans ?_
  by_cases h : q = r
  · rw [if_pos ⟨h, h ▸ hr⟩, if_pos h]
  · rw [if_neg fun h' => h h'.1, if_neg h]

/-- Registers of a thread written one after another. -/
def Thread.puts (th : Thread) (r : Nat → BitVec 5) (v : Nat → Word) (l : List Nat) : Thread :=
  l.foldl (fun th i => th.put (r i) (v i)) th

theorem fillG_puts {r : Nat → BitVec 5} (v : Nat → Word) {x : Nat} {l : List Nat} (hr : ∀ i ∈ l, r i ≠ 0) :
    ∀ {s : State}, (s.thread x).st = .ready →
      (l.foldl (fun s i => s.fillG x (r i) (v i)) s).thread x = (s.thread x).puts r v l := by
  induction l with
  | nil => exact fun _ => rfl
  | cons i l ih =>
    intro s hst
    rw [List.forall_mem_cons] at hr
    rw [List.foldl_cons, State.fillG_of_ready hst hr.1, ih hr.2, State.modThread_same]
    · rfl
    · rw [State.modThread_same, Thread.put, Thread.wg_st, hst]

theorem Thread.rg_puts_other (th : Thread) {r : Nat → BitVec 5} (v : Nat → Word) {l : List Nat} (hr : ∀ i ∈ l, r i ≠ 0)
    {q : BitVec 5} (hq : ∀ i ∈ l, q ≠ r i) : (th.puts r v l).rg q = th.rg q := by
  induction l generalizing th with
  | nil => rfl
  | cons i l ih =>
    rw [List.forall_mem_cons] at hr hq
    exact (ih (th.put (r i) (v i)) hr.2 hq.2).trans ((th.rg_put hr.1 _ q).trans (if_neg hq.1))

theorem Thread.rg_puts_mem (th : Thread) {r : Nat → BitVec 5} (v : Nat → Word) {l : List Nat} (hr : ∀ i ∈ l, r i ≠ 0)
    (hl : (l.map r).Nodup) {i : Nat} (hi : i ∈ l) : (th.puts r v l).rg (r i) = v i := by
  induction l generalizing th with
  | nil => exact absurd hi List.not_mem_nil
  | cons k l ih =>
    rw [List.map_cons, List.nodup_cons] at hl
    rw [List.forall_mem_cons] at hr
    obtain rfl | hi := List.mem_cons.1 hi
    · have hother : ∀ j ∈ l, r i ≠ r j := fun j hj h => hl.1 (h ▸ List.mem_map_of_mem (f := r) hj)
      exact ((th.put (r i) (v i)).rg_puts_other v hr.2 hother).trans ((th.rg_put hr.1 _ _).trans (if_pos rfl))
    · exact ih (th.put (r k) (v k)) hr.2 hl.2 hi

/-- The thread that goes on at `pc` once its registers have come from the frame: what was set aside of its sequencer is back. -/
def fibreThread (pc : Word) (th : Thread) : Thread :=
  let th := { th with upBusy := false, pc := evenPc pc, came := 0, cameBr := false, stall := none }
  match th.image with
  | some i => { th with seq := i.seq, lc := i.lc, image := none, vhalt := false }
  | none => th

theorem fibreThread_spec (pc : Word) (th : Thread) : (fibreThread pc th).pc = evenPc pc ∧ (fibreThread pc th).upBusy = false ∧
    (fibreThread pc th).image = none ∧ ∀ r, (fibreThread pc th).rg r = th.rg r := by
  unfold fibreThread
  dsimp only
  split
  · exact ⟨rfl, rfl, rfl, fun _ => rfl⟩
  · next h => exact ⟨rfl, rfl, h, fun _ => rfl⟩

/-- Where the frame of a slot can be read, UPST.ret takes from it what the fibre goes on with. -/
theorem execUpstRet_reads {s s' : State} {core slot : Nat} {w : Word} {p : Place} {bs : List Byte} (hw : w.getLsbD 2 = true)
    (hcore : isControl core = false) (hslot : slot < slotsPerCore) (hst : (s.thread (tid core slot)).st = .ready)
    (hseq : seqDone (s.thread (tid core slot)) = true)
    (hcheck : checkAccess s core slot (s.thread (tid core slot)).mode (s.thread (tid core slot)).ctx .read
      (2 ^ 64 - 65536 + wfld (s.ctx (s.thread (tid core slot)).ctx).upcfg 6 10 * 64 + 64 * slot) = .ok p)
    (hload : loadPlace s (tid core slot) p 64 = .bytes s' bs) :
    let cfg := (s.ctx (s.thread (tid core slot)).ctx).upcfg
    let dw (i : Nat) : Word := wordOfBytes ((bs.drop (8 * i)).take 8)
    exec (.upstRet core slot w) s = .next
      (((List.range 4).foldl (fun s i => s.fillG (tid core slot)
        (BitVec.ofNat 5 ([wfld cfg 40 5, wfld cfg 45 5, wfld cfg 50 5, wfld cfg 55 5].getD i 0)) (dw (3 + i))) s').modThread
        (tid core slot) (fibreThread (dw 7))) := by
  have hctx : s.ctxOf (tid core slot) = (s.thread (tid core slot)).ctx := by
    rw [State.ctxOf, coreOf_tid hslot, hcore]; rfl
  show execUpstRet core slot w s = _
  simp only [execUpstRet, hw, hst, hcore, resumeFibre, hctx, hseq, coreOf_tid hslot, slotOf_tid hslot, hcheck, hload, Bool.not_true,
    Bool.or_false, ne_eq, not_true_eq_false, decide_false, Bool.false_eq_true, if_false]
  rfl

/-- What the thread takes from its frame (R254). -/
theorem upstRet_resumes {s s' : State} {x : Nat} {cfg : Word} (dw : Nat → Word) (hok : upcfgOk cfg = true)
    (hst : (s.thread x).st = .ready) (hsame : s'.thread x = s.thread x) {t : State}
    (ht : t = ((List.range 4).foldl (fun s i => s.fillG x
      (BitVec.ofNat 5 ([wfld cfg 40 5, wfld cfg 45 5, wfld cfg 50 5, wfld cfg 55 5].getD i 0)) (dw (3 + i))) s').modThread x
        (fibreThread (dw 7))) :
    let us := [wfld cfg 40 5, wfld cfg 45 5, wfld cfg 50 5, wfld cfg 55 5]
    (t.thread x).pc = dw 7 &&& ~~~1#64 ∧ (t.thread x).upBusy = false ∧ (t.thread x).image = none ∧
      (∀ i < 4, (t.thread x).rg (BitVec.ofNat 5 (us.getD i 0)) = dw (3 + i)) ∧
      ∀ r : BitVec 5, r.toNat ∉ us → (t.thread x).rg r = (s.thread x).rg r := by
  intro us
  obtain ⟨hnodup, hne⟩ := upcfgOk_registers hok
  have hlt : ∀ u ∈ us, u < 32 := by
    simp only [us, List.forall_mem_cons, List.not_mem_nil, false_imp_iff, implies_true, and_true]
    exact ⟨Nat.mod_lt _ (by decide), Nat.mod_lt _ (by decide), Nat.mod_lt _ (by decide), Nat.mod_lt _ (by decide)⟩
  have hmem : ∀ i ∈ List.range 4, us.getD i 0 ∈ us := fun i hi => by
    rw [List.getD_eq_getElem us 0 (List.mem_range.1 hi)]
    exact List.getElem_mem _
  have hzero : ∀ i ∈ List.range 4, BitVec.ofNat 5 (us.getD i 0) ≠ 0 := fun i hi h => by
    have hnat : us.getD i 0 % 32 = 0 := congrArg BitVec.toNat h
    exact hne _ (hmem i hi) (by rwa [Nat.mod_eq_of_lt (hlt _ (hmem i hi))] at hnat)
  have hdistinct : ((List.range 4).map (fun i => BitVec.ofNat 5 (us.getD i 0))).Nodup := by
    have hregs : (List.range 4).map (fun i => BitVec.ofNat 5 (us.getD i 0)) = us.map (BitVec.ofNat 5) := rfl
    rw [hregs]
    refine hnodup.map_on fun a ha b hb h => ?_
    have hnat : a % 32 = b % 32 := congrArg BitVec.toNat h
    rwa [Nat.mod_eq_of_lt (hlt a ha), Nat.mod_eq_of_lt (hlt b hb)] at hnat
  have hthread : t.thread x = fibreThread (dw 7)
      ((s.thread x).puts (fun i => BitVec.ofNat 5 (us.getD i 0)) (fun i => dw (3 + i)) (List.range 4)) := by
    rw [ht, State.modThread_same]
    refine congrArg _ ((fillG_puts (fun i => dw (3 + i)) hzero (by rw [hsame, hst])).trans ?_)
    rw [hsame]
  obtain ⟨hpc, hbusy, himage, hrg⟩ := fibreThread_spec (dw 7)
    ((s.thread x).puts (fun i => BitVec.ofNat 5 (us.getD i 0)) (fun i => dw (3 + i)) (List.range 4))
  rw [hthread]
  refine ⟨hpc, hbusy, himage, fun i hi => ?_, fun r hr => ?_⟩
  · rw [hrg]
    exact Thread.rg_puts_mem _ _ hzero hdistinct (List.mem_range.2 hi)
  · rw [hrg]
    refine Thread.rg_puts_other _ _ hzero fun i hi h => hr ?_
    rw [h, BitVec.toNat_ofNat, Nat.mod_eq_of_lt (hlt _ (hmem i hi))]
    exact hmem i hi

end Sys2Proof.Machine

namespace Sys2Proof.Machine

open Sys2Proof

/-! ## Ranges of memory wiped -/

theorem Memory.read_filter (m : List Host.Cell) (p : Nat → Bool) (a : Nat) :
    Memory.read (m.filter (fun c => p c.1)) a = if p a then Memory.read m a else resetByte a := by
  unfold Memory.read
  induction m with
  | nil => exact (ite_self _).symm
  | cons c m ih =>
    by_cases hc : p c.1 = true
    · rw [List.filter_cons_of_pos (p := fun c : Host.Cell => p c.1) hc, Table.get, Table.get, ih]
      by_cases h : c.1 = a
      · rw [if_pos h, if_pos h, if_pos (h ▸ hc)]
      · rw [if_neg h, if_neg h]
    · rw [List.filter_cons_of_neg (p := fun c : Host.Cell => p c.1) hc, ih, Table.get]
      by_cases h : c.1 = a
      · rw [if_neg (h ▸ hc), if_neg (h ▸ hc)]
      · rw [if_neg h]

/-- In a wiped range every byte reads as after reset; every other byte is as before. -/
theorem zeroRange_read (s : State) (a n x : Nat) :
    (zeroRange s a n).read x = if a ≤ x ∧ x < a + n then resetByte x else s.read x := by
  refine (Memory.read_filter s.mem (fun x => !decide (a ≤ x ∧ x < a + n)) x).trans ?_
  by_cases h : a ≤ x ∧ x < a + n <;> simp [h, State.read]

/-- A byte of the frames of a stack: they stand below the inverted table. -/
theorem resetByte_frame {k o : Nat} (hk : k < 16) (ho : o < invBase) : resetByte (k * 2 ^ 36 + o) = 0 := by
  have hbase : invBase < 2 ^ 36 := by decide
  refine resetByte_hbm_below_invBase (by omega) ?_
  rwa [Nat.add_comm, Nat.add_mul_mod_self_right, Nat.mod_eq_of_lt (ho.trans hbase)]

/-- A byte of several wiped ranges reads as after reset. -/
theorem zeroRanges_read {first : Nat → Nat} {n x : Nat} {l : List Nat} :
    ∀ {s : State}, (s.read x = resetByte x ∨ ∃ k ∈ l, first k ≤ x ∧ x < first k + n) →
      (l.foldl (fun s k => zeroRange s (first k) n) s).read x = resetByte x := by
  induction l with
  | nil => exact fun h => h.resolve_right fun ⟨_, hk, _⟩ => absurd hk List.not_mem_nil
  | cons k l ih =>
    intro s h
    refine ih ?_
    rw [zeroRange_read]
    obtain h | ⟨j, hj, hx⟩ := h
    · exact .inl (by rw [h, ite_self])
    · obtain rfl | hj := List.mem_cons.1 hj
      · exact .inl (if_pos hx)
      · exact .inr ⟨j, hj, hx⟩

/-! ## The amplitudes of a leaf (spec/15_amplitudes.md R380-R383) -/

/-- A leaf's page holds 2^lbits amplitudes. -/
theorem Amp.page_bytes (a : Amp) : 2 ^ a.lbits * a.size = 65536 := by
  unfold Amp.lbits Amp.size
  cases a.dbl <;> rfl

theorem Amp.size_eq (a : Amp) : a.size = a.size / 2 + a.size / 2 := by
  unfold Amp.size
  cases a.dbl <;> rfl

/-- Where an amplitude of leaf A stands: stack, page of the leaf, and bytes in the page. -/
theorem Amp.addr_eq (a : Amp) {x : Nat} (hx : x < 2 ^ a.inner) : ∃ k page o, a.addr false x =
    (a.sb + k) * 2 ^ 36 + (a.frame false + page) * 65536 + o ∧ k < 2 ^ a.sbits ∧ page < 2 ^ a.pg ∧ o + a.size ≤ 65536 ∧
      (x ≠ 0 → k ≠ 0 ∨ page ≠ 0 ∨ a.size ≤ o) := by
  have hbytes := a.page_bytes
  have hpage : 0 < 2 ^ a.lbits := Nat.two_pow_pos _
  have hoff : x % 2 ^ a.lbits + 1 ≤ 2 ^ a.lbits := Nat.mod_lt _ hpage
  have hsplit : x / 2 ^ (a.lbits + a.pg) = x / 2 ^ a.lbits / 2 ^ a.pg := by rw [Nat.pow_add, Nat.div_div_eq_div_mul]
  refine ⟨x / 2 ^ (a.lbits + a.pg), x / 2 ^ a.lbits % 2 ^ a.pg, x % 2 ^ a.lbits * a.size, rfl, ?_, Nat.mod_lt _ (Nat.two_pow_pos _),
    ?_, fun hne => ?_⟩
  · rw [Nat.div_lt_iff_lt_mul (Nat.two_pow_pos _), ← Nat.pow_add]
    exact hx.trans_eq (congrArg _ (Nat.add_comm ..))
  · calc x % 2 ^ a.lbits * a.size + a.size = (x % 2 ^ a.lbits + 1) * a.size := by rw [Nat.succ_mul]
      _ ≤ 2 ^ a.lbits * a.size := Nat.mul_le_mul_right _ hoff
      _ = 65536 := hbytes
  · by_contra hall
    simp only [not_or, not_not, Nat.not_le] at hall
    obtain ⟨hstack, hrest, hlow⟩ := hall
    have hlow : x % 2 ^ a.lbits = 0 := by
      by_contra h
      exact absurd (Nat.le_mul_of_pos_left a.size (Nat.pos_of_ne_zero h)) (Nat.not_le.2 hlow)
    rw [hsplit] at hstack
    have hhigh : x / 2 ^ a.lbits = 0 := by
      rw [← Nat.div_add_mod (x / 2 ^ a.lbits) (2 ^ a.pg), hstack, hrest, Nat.mul_zero]
    exact hne (by rw [← Nat.div_add_mod x (2 ^ a.lbits), hhigh, hlow, Nat.mul_zero])

theorem ofBytes_zeros (n : Nat) : ofBytes (List.replicate n 0) = 0 := by
  rw [← bytesOf_zero, ofBytes_bytesOf, Nat.zero_mod]

theorem readAmp_zero {s : State} {a : Amp} {x : Nat} (h : ∀ j < a.size, s.read (a.addr false x + j) = 0) :
    readAmp s a false x = (0, 0) := by
  unfold readAmp
  simp only [State.readN_zero h, List.take_replicate, List.drop_replicate, ofBytes_zeros]

theorem State.readN_append (s : State) (a m n : Nat) : s.readN a (m + n) = s.readN a m ++ s.readN (a + m) n := by
  simp only [State.readN_eq_map, List.range_add, List.map_append, List.map_map, Function.comp_def, Nat.add_assoc]

/-- A real amplitude. -/
theorem readAmp_real {s : State} {a : Amp} {v : Nat} (hv : v < 256 ^ (a.size / 2))
    (hre : s.readN (a.addr false 0) (a.size / 2) = bytesOf (a.size / 2) v)
    (him : ∀ j < a.size / 2, s.read (a.addr false 0 + a.size / 2 + j) = 0) : readAmp s a false 0 = (v, 0) := by
  have hlen : (bytesOf (a.size / 2) v).length = a.size / 2 := bytesOf_length ..
  have hbytes : s.readN (a.addr false 0) a.size = bytesOf (a.size / 2) v ++ List.replicate (a.size / 2) 0 := by
    rw [← hre, ← State.readN_zero him, ← State.readN_append]
    exact congrArg _ a.size_eq
  unfold readAmp
  simp only [hbytes, List.take_left' hlen, List.drop_left' hlen, ofBytes_bytesOf, ofBytes_zeros, Nat.mod_eq_of_lt hv]

end Sys2Proof.Machine

namespace Sys2Proof.Machine

open Sys2Proof

/-! ## A write of QCFG (spec/15_amplitudes.md R381-R383) -/

theorem wfld_eq (w : Word) (lo n : Nat) : wfld w lo n = w.toNat / 2 ^ lo % 2 ^ n := by
  rw [wfld, fld, Nat.shiftRight_eq_div_pow]

theorem wfld_lt (w : Word) (lo n : Nat) : wfld w lo n < 2 ^ n := Nat.mod_lt _ (Nat.two_pow_pos n)

theorem qcfgStored_toNat (w : Word) : (qcfgStored w).toNat =
    wfld w 62 2 * 2 ^ 62 + wfld w 32 16 * 2 ^ 32 + wfld w 16 10 * 2 ^ 16 + wfld w 0 13 := by
  have h1 := wfld_lt w 62 2
  have h2 := wfld_lt w 32 16
  have h3 := wfld_lt w 16 10
  have h4 := wfld_lt w 0 13
  rw [qcfgStored, word, BitVec.toNat_ofNat, Nat.mod_eq_of_lt (by omega)]

/-- QCFG written with valid 0 is not valid and keeps the bit of the front leaf. -/
theorem qcfg_closed {w : Word} (h : w.getLsbD 63 = false) (front : Bool) :
    (word ((qcfgStored w).toNat + bit front * 2 ^ 61)).getLsbD 63 = false ∧
      (word ((qcfgStored w).toNat + bit front * 2 ^ 61)).getLsbD 61 = front := by
  have htop : wfld w 62 2 ≤ 1 := by
    have hw : w.toNat / 2 ^ 63 % 2 = 0 := by
      rw [BitVec.getLsbD, Nat.testBit_eq_decide_div_mod_eq, decide_eq_false_iff_not] at h
      omega
    rw [wfld_eq]
    omega
  have h2 := wfld_lt w 32 16
  have h3 := wfld_lt w 16 10
  have h4 := wfld_lt w 0 13
  have hbit : bit front = if front then 1 else 0 := rfl
  rw [qcfgStored_toNat]
  simp only [word, BitVec.getLsbD_ofNat, Nat.testBit_eq_decide_div_mod_eq, hbit]
  cases front
  · constructor <;> simp <;> omega
  · constructor <;> simp <;> omega

/-- The bytes of leaf A stand in frames below the inverted table. -/
theorem leafA_addr {a : Amp} (hsb : a.sb + 2 ^ a.sbits ≤ 16) (hframe : a.frame false + 2 ^ a.pg ≤ 732165) {x j : Nat}
    (hx : x < 2 ^ a.inner) (hj : j < a.size) : resetByte (a.addr false x + j) = 0 ∧
      ∃ k ∈ List.range (2 ^ a.sbits), (a.sb + k) * 2 ^ 36 + a.frame false * 65536 ≤ a.addr false x + j ∧
        a.addr false x + j < (a.sb + k) * 2 ^ 36 + a.frame false * 65536 + 2 ^ a.pg * 65536 := by
  obtain ⟨k, page, o, haddr, hk, hpage, ho, -⟩ := a.addr_eq hx
  rw [haddr]
  refine ⟨?_, k, List.mem_range.2 hk, by omega, by omega⟩
  rw [Nat.add_assoc, Nat.add_assoc]
  exact resetByte_frame (by omega) (by rw [invBase]; omega)

/-- Leaf A wiped. -/
def wipedLeaf (s : State) (a : Amp) : State :=
  (List.range (2 ^ a.sbits)).foldl (fun s k => zeroRange s ((a.sb + k) * 2 ^ 36 + a.frame false * 65536) (2 ^ a.pg * 65536)) s

/-- One, in the format of the state's amplitudes. -/
def Amp.one (a : Amp) : Nat := if a.dbl then 0x3FF0000000000000 else 0x3F800000

theorem Amp.one_lt (a : Amp) : a.one < 256 ^ (a.size / 2) := by
  unfold Amp.one Amp.size
  cases a.dbl <;> decide

theorem fillLeaf_eq (s : State) (a : Amp) : fillLeaf s a =
    if a.mi = 0 then (wipedLeaf s a).writeN (a.addr false 0) (bytesOf (a.size / 2) a.one) else wipedLeaf s a := rfl

theorem fillLeaf_ctxs (s : State) (a : Amp) : (fillLeaf s a).ctxs = s.ctxs := by
  have hwiped : (wipedLeaf s a).ctxs = s.ctxs := foldl_keeps (P := fun u : State => u.ctxs = s.ctxs) rfl fun _ _ h => h
  rw [fillLeaf_eq]
  split <;> exact hwiped

/-- Leaf A filled is basis state 0: amplitude 0 of the module with index 0 is one, every other amplitude zero. -/
theorem readAmp_fillLeaf {s : State} {a : Amp} (hsb : a.sb + 2 ^ a.sbits ≤ 16) (hframe : a.frame false + 2 ^ a.pg ≤ 732165) {x : Nat}
    (hx : x < 2 ^ a.inner) : readAmp (fillLeaf s a) a false x =
      (if x = 0 ∧ a.mi = 0 then a.one else 0, 0) := by
  have hzero {y j : Nat} (hy : y < 2 ^ a.inner) (hj : j < a.size) : (wipedLeaf s a).read (a.addr false y + j) = 0 := by
    obtain ⟨hreset, hin⟩ := leafA_addr hsb hframe hy hj
    exact (zeroRanges_read (.inr hin)).trans hreset
  have hsize := a.size_eq
  rw [fillLeaf_eq]
  by_cases hmi : a.mi = 0
  · rw [if_pos hmi]
    by_cases h0 : x = 0
    · subst h0
      rw [if_pos ⟨rfl, hmi⟩]
      refine readAmp_real a.one_lt ?_ fun j hj => ?_
      · have hread := Memory.readN_writeN (bytesOf (a.size / 2) a.one) (wipedLeaf s a).mem (a.addr false 0)
        rwa [bytesOf_length] at hread
      · rw [State.read_writeN_out _ _ _ _ (.inr (by rw [bytesOf_length]; omega)), Nat.add_assoc]
        exact hzero hx (by omega)
    · rw [if_neg fun h => h0 h.1]
      refine readAmp_zero fun j hj => ?_
      rw [State.read_writeN_out _ _ _ _ (.inr ?_)]
      · exact hzero hx hj
      · obtain ⟨k, page, o, haddr, -, -, -, hfar⟩ := a.addr_eq hx
        have hfirst : a.addr false 0 = a.sb * 2 ^ 36 + a.frame false * 65536 := by simp [Amp.addr]
        have hlarge : a.size / 2 ≤ 16 := by unfold Amp.size; cases a.dbl <;> decide
        rw [bytesOf_length, haddr, hfirst]
        obtain hk | hpage | ho := hfar h0 <;> omega
  · rw [if_neg hmi, if_neg fun h => hmi h.2]
    exact readAmp_zero fun j hj => hzero hx hj

theorem qcfgOk_leafA {s : State} {ctx : Nat} {a : Amp} (h : qcfgOk s ctx a = true) :
    a.sb + 2 ^ a.sbits ≤ 16 ∧ a.frame false + 2 ^ a.pg ≤ 732165 := by
  simp only [qcfgOk, Bool.and_eq_true, decide_eq_true_eq] at h
  obtain ⟨⟨⟨⟨⟨⟨-, -, -, -, hsb, -⟩, -⟩, -⟩, -⟩, hframe, -, -⟩, -⟩ := h
  exact ⟨hsb, hframe⟩

/-- The state of a context that a write of QCFG begins: the map is the identity and no amplitude stamped. -/
def begunAmp (a : Amp) : Amp :=
  { a with work := List.range 64, front := List.range 64, stamps := [], stampsC := [], pass := 0, passC := 0 }

theorem begunAmp_bitOf (a : Amp) {q : Nat} (h : q < 64) : (begunAmp a).bitOf q = q := by
  show (List.range 64).getD q 0 = q
  rw [List.getD_eq_getElem _ _ (by rwa [List.length_range]), List.getElem_range]

/-- The map has no part in where an amplitude stands. -/
theorem readAmp_begunAmp {s : State} {a : Amp} (hsb : a.sb + 2 ^ a.sbits ≤ 16) (hframe : a.frame false + 2 ^ a.pg ≤ 732165) {x : Nat}
    (hx : x < 2 ^ a.inner) : readAmp (fillLeaf s (begunAmp a)) a false x =
      (if x = 0 ∧ a.mi = 0 then (if a.dbl then 0x3FF0000000000000 else 0x3F800000) else 0, 0) :=
  readAmp_fillLeaf (a := begunAmp a) hsb hframe hx

/-! What a new QCFG decides, for any word: a stored word compared as a term exceeds the kernel's recursion. -/

theorem Amp.valid_qcfg (a : Amp) (q : Word) : ({ a with qcfg := q } : Amp).valid = q.getLsbD 63 := rfl

theorem Amp.frontB_qcfg (a : Amp) (q : Word) : ({ a with qcfg := q } : Amp).frontB = q.getLsbD 61 := rfl

theorem Amp.work_qcfg (a : Amp) (q : Word) : ({ a with qcfg := q } : Amp).work = a.work := rfl

/-- The state of a context that a write of QCFG with valid 0 leaves (log entry 51). -/
def closedAmp (w : Word) (a : Amp) : Amp := { a with qcfg := word ((qcfgStored w).toNat + bit a.frontB * 2 ^ 61) }

theorem closedAmp_spec {w : Word} (h : w.getLsbD 63 = false) (a : Amp) :
    (closedAmp w a).valid = false ∧ (closedAmp w a).frontB = a.frontB ∧ (closedAmp w a).work = a.work := by
  obtain ⟨hclosed, hfront⟩ := qcfg_closed h a.frontB
  exact ⟨(Amp.valid_qcfg ..).trans hclosed, (Amp.frontB_qcfg ..).trans hfront, Amp.work_qcfg ..⟩

theorem State.modAmp_amp (s : State) (ctx : Nat) (f : Amp → Amp) : ((s.modAmp ctx f).ctx ctx).amp = f (s.ctx ctx).amp :=
  congrArg Ctx.amp (State.modCtx_same ..)

theorem idle_of_empty {a : Amp} (hqueue : a.queue = []) (hran : a.ran = false) : a.idle = true := by
  rw [Amp.idle, hqueue, hran]
  rfl

section
variable {s : State} {die ctx : Nat} (hdie : die < numDies) (hctx : ctx < numContexts) (w : Word)
include hdie hctx

theorem execQcfgWrite_busy (h : (s.ctx ctx).amp.queue ≠ [] ∨ (s.ctx ctx).amp.ran = true) : exec (.qcfgWrite die ctx w) s = .next s := by
  have hidle : (s.ctx ctx).amp.idle = false := by
    obtain h | h := h
    · simp [Amp.idle, h]
    · simp [Amp.idle, h]
  show execQcfgWrite die ctx w s = _
  simp only [execQcfgWrite, hdie, hctx, and_self, if_true, writeQcfg, hidle, Bool.not_false]

theorem execQcfgWrite_closed (hqueue : (s.ctx ctx).amp.queue = []) (hran : (s.ctx ctx).amp.ran = false) (hw : w.getLsbD 63 = false) :
    exec (.qcfgWrite die ctx w) s = .next (s.modAmp ctx (closedAmp w)) := by
  show execQcfgWrite die ctx w s = _
  simp only [execQcfgWrite, hdie, hctx, and_self, if_true, writeQcfg, idle_of_empty hqueue hran, hw, Bool.not_true, Bool.not_false,
    Bool.false_eq_true, if_false]
  rfl

theorem execQcfgWrite_init (hqueue : (s.ctx ctx).amp.queue = []) (hran : (s.ctx ctx).amp.ran = false) (hvalid : w.getLsbD 63 = true)
    (hinit : w.getLsbD 60 = true) (hok : qcfgOk s ctx { (s.ctx ctx).amp with qcfg := qcfgStored w } = true) :
    let b := begunAmp { (s.ctx ctx).amp with qcfg := qcfgStored w }
    exec (.qcfgWrite die ctx w) s = .next (fillLeaf (s.modAmp ctx (fun _ => b)) b) := by
  intro b
  show execQcfgWrite die ctx w s = _
  simp only [execQcfgWrite, hdie, hctx, and_self, if_true, writeQcfg, idle_of_empty hqueue hran, hvalid, hinit, hok, Bool.not_true,
    Bool.false_eq_true, if_false]
  rfl

end

/-- Settles O59: a frame that can be read gives the fibre back, and a write of QCFG is refused, closes the state or begins it. -/
theorem upcallsAndStates : Obligations.UpcallsAndStates := by
  unfold Obligations.UpcallsAndStates
  refine ⟨fun s core slot w hw => ?_, fun s s' core slot w p bs hw hcore hslot => ?_, fun s die ctx w hdie hctx => ?_⟩
  · show execUpstRet core slot w s = _
    rw [execUpstRet, hw]
    rfl
  · intro x th cfg ea us dw hst hseq hok hcheck hload hsame
    exact ⟨_, execUpstRet_reads hw hcore hslot hst hseq hcheck hload, upstRet_resumes dw hok hst hsame rfl⟩
  · refine ⟨execQcfgWrite_busy hdie hctx w, fun hqueue hran => ⟨fun hw => ?_, fun hvalid hinit hok => ?_⟩⟩
    · refine ⟨_, execQcfgWrite_closed hdie hctx w hqueue hran hw, rfl, ?_⟩
      rw [State.modAmp_amp]
      exact closedAmp_spec hw _
    · obtain ⟨hsb, hframe⟩ := qcfgOk_leafA hok
      let b := begunAmp { (s.ctx ctx).amp with qcfg := qcfgStored w }
      have hamp : ((fillLeaf (s.modAmp ctx (fun _ => b)) b).ctx ctx).amp = b := by
        rw [State.ctx, fillLeaf_ctxs]
        exact State.modAmp_amp ..
      refine ⟨_, execQcfgWrite_init hdie hctx w hqueue hran hvalid hinit hok, ?_, fun q hq => ?_, fun x hx => ?_⟩
      · rw [hamp]; rfl
      · rw [hamp]; exact begunAmp_bitOf _ hq
      · exact readAmp_begunAmp hsb hframe hx

end Sys2Proof.Machine

namespace Sys2Proof.Machine

open Sys2Proof

/-! ## Wipes of local stores and frames (spec/10_pages.md R240, R242) -/

/-- Every component but the table of the dies is as before, and every die reads as before. -/
def SameDies (s t : State) : Prop := t = { s with dies := t.dies } ∧ ∀ d, t.die d = s.die d

theorem SameDies.trans {s t u : State} (h : SameDies s t) (h' : SameDies t u) : SameDies s u :=
  ⟨by rw [h'.1, h.1], fun d => (h'.2 d).trans (h.2 d)⟩

/-- A die with no ended launch settles nothing. -/
theorem settleEnded_idle {s : State} {die : Nat} (h : (s.die die).ended = []) : SameDies s (settleEnded s die) := by
  rw [settleEnded]
  simp only [h, List.filter_nil, List.foldl_nil]
  refine ⟨rfl, fun d => ?_⟩
  by_cases hd : d = die
  · subst hd
    rw [State.modDie_same, h, List.filter_nil, ← h]
  · rw [State.modDie_other _ _ hd]

theorem settleDies_idle {l : List Nat} : ∀ {s : State}, (∀ d, (s.die d).ended = []) → SameDies s (l.foldl settleEnded s) := by
  induction l with
  | nil => exact fun _ => ⟨rfl, fun _ => rfl⟩
  | cons d l ih =>
    intro s h
    have hfirst := settleEnded_idle (h d)
    exact hfirst.trans (ih fun k => by rw [hfirst.2, h])

theorem dispatchEvent_only (s : State) (p : Nat → Bool) : dispatchEvent s p = { s with dies := (dispatchEvent s p).dies } := rfl

theorem wipeCore_read {s : State} {g : Nat} (hg : g < numGcores) (a : Nat) :
    (wipeCore s g).read a = if localAddr g 0 ≤ a ∧ a < localAddr g localBytes then 0 else s.read a := by
  refine (zeroRange_read s (localAddr g 0) localBytes a).trans ?_
  have hend : localAddr g 0 + localBytes = localAddr g localBytes := rfl
  rw [hend]
  split
  · next h =>
    obtain ⟨o, rfl⟩ := Nat.exists_eq_add_of_le h.1
    exact resetByte_localAddr (o := o) hg (by rw [← hend] at h; omega)
  · rfl

theorem wipeCore_core (s : State) (g : Nat) : ((wipeCore s g).core g).wipe = false ∧ ((wipeCore s g).core g).pool = [] := by
  rw [wipeCore, State.modCore_same]
  exact ⟨rfl, rfl⟩

theorem execLocalStoreWipe_due {s : State} {g : Nat} (hwipe : (s.core g).wipe = true) (hseat : bankSeated s g = false)
    (hended : ∀ d, (s.die d).ended = []) :
    ∃ t, exec (.localStoreWipe g) s = .next t ∧ t = { wipeCore s g with dies := t.dies } := by
  have hsettled : SameDies (wipeCore s g) ((List.range numDies).foldl settleEnded (wipeCore s g)) := settleDies_idle hended
  refine ⟨_, congrArg Host.Outcome.next (if_neg (by rw [hwipe, hseat]; decide)), ?_⟩
  rw [dispatchEvent_only, hsettled.1]

/-! ### The entries of a frame -/

/-- The address lies outside the inverted table and the anchors of a stack (Table 10.1). -/
def OutsideTables (k a : Nat) : Prop := a < k * 2 ^ 36 + 732165 * 65536 ∨ k * 2 ^ 36 + 732421 * 65536 ≤ a

/-! The bounds of the tables as numerals, which is how `omega` takes them. -/

theorem outsideTables_iff (k a : Nat) : OutsideTables k a ↔ a < k * 2 ^ 36 + 47983165440 ∨ k * 2 ^ 36 + 47999942656 ≤ a := by
  norm_num [OutsideTables]

theorem invAt_eq (k f : Nat) : invAt k f = k * 2 ^ 36 + 47983165440 + 16 * f := by
  norm_num [invAt, invBase]

theorem anchorAt_eq (k i : Nat) : anchorAt k i = k * 2 ^ 36 + 47995748352 + 4 * i := by
  norm_num [anchorAt]

theorem OutsideTables.invAt {k a : Nat} (h : OutsideTables k a) {f : Nat} (hf : f < 2 ^ 20) :
    a < Machine.invAt k f ∨ Machine.invAt k f + 16 ≤ a := by
  rw [outsideTables_iff] at h
  rw [invAt_eq]
  generalize k * 2 ^ 36 = b at h ⊢
  omega

theorem OutsideTables.anchorAt {k a : Nat} (h : OutsideTables k a) {i : Nat} (hi : i < 2 ^ 20) :
    a < Machine.anchorAt k i ∨ Machine.anchorAt k i + 4 ≤ a := by
  rw [outsideTables_iff] at h
  rw [anchorAt_eq]
  generalize k * 2 ^ 36 = b at h ⊢
  omega

/-- The anchors follow the entries of the frames. -/
theorem invAt_lt_anchorAt {k f : Nat} (hf : f ≤ 732164) (i : Nat) : invAt k f + 16 ≤ anchorAt k i := by
  rw [invAt_eq, anchorAt_eq]
  generalize k * 2 ^ 36 = b
  omega

theorem State.readN_congr {s t : State} {a n : Nat} (h : ∀ j < n, t.read (a + j) = s.read (a + j)) : t.readN a n = s.readN a n := by
  rw [State.readN_eq_map, State.readN_eq_map]
  exact List.map_congr_left fun j hj => h j (List.mem_range.1 hj)

theorem anchorIndex_lt (ctx vpn : Nat) : anchorIndex ctx vpn < 2 ^ 20 := by
  unfold anchorIndex
  omega

theorem anchorHead_lt {s : State} {k i f : Nat} (h : anchorHead s k i = some f) : f < 2 ^ 20 := by
  rw [anchorHead] at h
  split at h
  · cases h; exact Nat.mod_lt _ (by decide)
  · cases h

theorem chainBefore_lt {s : State} {k f n p : Nat} : ∀ {at_ : Nat}, at_ < 2 ^ 20 → chainBefore s k f n at_ = some p → p < 2 ^ 20 := by
  induction n with
  | zero => intro _ _ h; cases h
  | succ n ih =>
    intro at_ hat h
    rw [chainBefore] at h
    split at h
    · cases h; exact hat
    split at h
    · cases h
    · exact ih (wfld_lt _ 0 20) h

theorem setNext_read {s : State} {k p next a : Nat} (h : a < invAt k p + 8 ∨ invAt k p + 12 ≤ a) :
    (setNext s k p next).read a = s.read a :=
  State.read_writeN_out _ _ _ _ (by rw [bytesOf_length]; omega)

theorem setAnchor_read {s : State} {k i a : Nat} (head : Option Nat) (h : a < anchorAt k i ∨ anchorAt k i + 4 ≤ a) :
    (setAnchor s k i head).read a = s.read a :=
  State.read_writeN_out _ _ _ _ (by rwa [bytesOf_length])

theorem setFrame_read {s : State} {k f kind ctx a : Nat} {wipe : Bool} (h : a < invAt k f ∨ invAt k f + 8 ≤ a) :
    (setFrame s k f kind wipe ctx).read a = s.read a :=
  State.read_writeN_out _ _ _ _ (by rwa [bytesOf_length])

theorem setNext_outside {s : State} {k p next a : Nat} (hp : p < 2 ^ 20) (h : OutsideTables k a) :
    (setNext s k p next).read a = s.read a :=
  setNext_read (by have := h.invAt hp; omega)

theorem setAnchor_outside {s : State} {k i a : Nat} (head : Option Nat) (hi : i < 2 ^ 20) (h : OutsideTables k a) :
    (setAnchor s k i head).read a = s.read a :=
  setAnchor_read head (h.anchorAt hi)

/-- A frame leaves its chain by writes to the tables of its stack. -/
theorem unlinkFrame_outside {s : State} {k f a : Nat} (hf : f ≤ 732164) (h : OutsideTables k a) :
    (unlinkFrame s k f).read a = s.read a := by
  rw [unlinkFrame]
  rw [setNext_outside (by omega) h]
  split
  · rfl
  · next head hhead =>
    split
    · exact setAnchor_outside _ (anchorIndex_lt ..) h
    · split
      · next p hp => exact setNext_outside (chainBefore_lt (anchorHead_lt hhead) hp) h
      · rfl

/-- A frame at the head of its chain: the anchor names the one after it. -/
theorem unlinkFrame_head {s : State} {k f : Nat} (h : anchorHead s k (anchorIndex (frameCtx s k f) (frameVpn s k f)) = some f) :
    unlinkFrame s k f = setNext (setAnchor s k (anchorIndex (frameCtx s k f) (frameVpn s k f))
      (if frameNext s k f = chainEnd then none else some (frameNext s k f))) k f chainEnd := by
  simp only [unlinkFrame, h, if_true]

theorem anchorHead_setAnchor {s : State} {k i : Nat} {head : Option Nat} (h : ∀ f, head = some f → f < 2 ^ 20) :
    anchorHead (setAnchor s k i head) k i = head := by
  have hread (x : Nat) : ofBytes ((s.writeN (anchorAt k i) (bytesOf 4 x)).readN (anchorAt k i) 4) = x % 256 ^ 4 := by
    rw [← ofBytes_bytesOf]
    exact congrArg ofBytes (Memory.readN_writeN (bytesOf 4 x) s.mem (anchorAt k i))
  unfold anchorHead setAnchor
  rw [hread]
  cases head with
  | none => rfl
  | some f =>
    have hf := h f rfl
    have hbit : ((2 ^ 31 + f) % 256 ^ 4).testBit 31 = true := by
      rw [Nat.testBit_eq_decide_div_mod_eq, decide_eq_true_eq]
      omega
    have hfield : fld ((2 ^ 31 + f) % 256 ^ 4) 0 20 = f := by
      rw [fld, Nat.shiftRight_zero]
      omega
    simp only [hbit, if_true, hfield]

/-- Anchors read as the memory that holds them. -/
theorem anchorHead_congr {s t : State} {k i : Nat} (h : ∀ j < 4, t.read (anchorAt k i + j) = s.read (anchorAt k i + j)) :
    anchorHead t k i = anchorHead s k i := by
  rw [anchorHead, anchorHead, State.readN_congr h]

/-- A frame set free: kind 0, and no wipe due. -/
theorem setFrame_free (s : State) (k f : Nat) : frameKind (setFrame s k f 0 false 0) k f = 0 ∧
    ((setFrame s k f 0 false 0).readWord (invAt k f)).getLsbD 59 = false := by
  have hword : (setFrame s k f 0 false 0).readWord (invAt k f) = word (fld (s.readWord (invAt k f)).toNat 16 43 * 2 ^ 16) := by
    refine (State.readWord_writeWord ..).trans (congrArg word ?_)
    simp [bit]
  have hfield : fld (s.readWord (invAt k f)).toNat 16 43 < 2 ^ 43 := Nat.mod_lt _ (by decide)
  rw [frameKind, hword]
  generalize fld (s.readWord (invAt k f)).toNat 16 43 = x at hfield
  refine ⟨?_, ?_⟩
  · rw [wfld_eq, word, BitVec.toNat_ofNat]
    omega
  · rw [word, BitVec.getLsbD_ofNat, Nat.testBit_eq_decide_div_mod_eq]
    simp
    omega

/-! ### The wipe of a frame -/

/-- A state with a frame's bytes zeroed. -/
def zeroFrame (s : State) (k f : Nat) : State := zeroRange s (k * 2 ^ 36 + f * 65536) 65536

theorem zeroFrame_read {s : State} {k f : Nat} (hk : k < 16) (hf : f ≤ 732164) (a : Nat) : (zeroFrame s k f).read a =
    if k * 2 ^ 36 + f * 65536 ≤ a ∧ a < k * 2 ^ 36 + (f + 1) * 65536 then 0 else s.read a := by
  rw [zeroFrame, zeroRange_read, Nat.add_assoc, Nat.succ_mul]
  split
  · next h =>
    obtain ⟨o, rfl⟩ := Nat.exists_eq_add_of_le h.1
    rw [Nat.add_assoc]
    have ho : f * 65536 + o < f * 65536 + 65536 := by
      have h := h.2
      rwa [Nat.add_assoc, Nat.add_lt_add_iff_left] at h
    exact resetByte_frame hk (by rw [invBase]; omega)
  · rfl

/-- The tables lie above the frames. -/
theorem zeroFrame_tables {s : State} {k f a : Nat} (hk : k < 16) (hf : f ≤ 732164) (h : invAt k 0 ≤ a) :
    (zeroFrame s k f).read a = s.read a := by
  rw [zeroFrame_read hk hf, if_neg]
  rw [invAt_eq] at h
  intro hin
  have hend : (f + 1) * 65536 < 47983165440 := by omega
  exact absurd (Nat.lt_of_lt_of_le hin.2 (Nat.add_le_add_left hend.le _)) (Nat.not_lt.2 h)

theorem zeroFrame_entry {s : State} {k f : Nat} (hk : k < 16) (hf : f ≤ 732164) :
    frameKind (zeroFrame s k f) k f = frameKind s k f ∧ frameCtx (zeroFrame s k f) k f = frameCtx s k f ∧
      frameVpn (zeroFrame s k f) k f = frameVpn s k f ∧ frameNext (zeroFrame s k f) k f = frameNext s k f := by
  have hword (a : Nat) (h : invAt k 0 ≤ a) : (zeroFrame s k f).readWord a = s.readWord a :=
    congrArg wordOfBytes (State.readN_congr fun j _ => zeroFrame_tables hk hf (by omega))
  have hat : invAt k 0 ≤ invAt k f := by rw [invAt, invAt]; omega
  unfold frameKind frameCtx frameVpn frameNext
  rw [hword _ hat, hword _ (by omega)]
  exact ⟨rfl, rfl, rfl, rfl⟩

theorem zeroFrame_anchorHead {s : State} {k f : Nat} (hk : k < 16) (hf : f ≤ 732164) (i : Nat) :
    anchorHead (zeroFrame s k f) k i = anchorHead s k i :=
  anchorHead_congr fun j _ => zeroFrame_tables hk hf (by have := invAt_lt_anchorAt (k := k) (Nat.zero_le 732164) i; omega)

/-- A frame's bytes zeroed and the frame taken out of its chain, where it stands in one. -/
def looseFrame (s : State) (k f : Nat) : State :=
  if frameKind s k f = 1 then unlinkFrame (zeroFrame s k f) k f else zeroFrame s k f

theorem execFrameWipe_due {s : State} {k f : Nat} (hk : k < 16) (hf : f ≤ 732164) (hdue : (s.readWord (invAt k f)).getLsbD 59 = true) :
    exec (.frameWipe (k * 2 ^ 20 + f)) s = .next (setFrame (looseFrame s k f) k f 0 false 0) := by
  have hstack : (k * 2 ^ 20 + f) / 2 ^ 20 = k := by omega
  have hframe : (k * 2 ^ 20 + f) % 2 ^ 20 = f := by omega
  refine congrArg Host.Outcome.next ?_
  simp only [hstack, hframe, hdue]
  rw [if_neg (by simp; omega), looseFrame, ← (zeroFrame_entry hk hf).1]
  rfl

theorem looseFrame_read {s : State} {k f a : Nat} (hf : f ≤ 732164)
    (h : OutsideTables k a ∨ frameKind s k f ≠ 1) : (looseFrame s k f).read a = (zeroFrame s k f).read a := by
  rw [looseFrame]
  split
  · next hkind => exact unlinkFrame_outside hf (h.resolve_right (not_not_intro hkind))
  · rfl

theorem looseFrame_anchorHead {s : State} {k f : Nat} (hk : k < 16) (hf : f ≤ 732164) (hkind : frameKind s k f = 1)
    (hhead : anchorHead s k (anchorIndex (frameCtx s k f) (frameVpn s k f)) = some f) :
    anchorHead (looseFrame s k f) k (anchorIndex (frameCtx s k f) (frameVpn s k f)) =
      if frameNext s k f = chainEnd then none else some (frameNext s k f) := by
  obtain ⟨-, hctx, hvpn, hnext⟩ := zeroFrame_entry (s := s) hk hf
  have hhead' : anchorHead (zeroFrame s k f) k (anchorIndex (frameCtx (zeroFrame s k f) k f) (frameVpn (zeroFrame s k f) k f)) = some f := by
    rw [hctx, hvpn, zeroFrame_anchorHead hk hf, hhead]
  rw [looseFrame, if_pos hkind, unlinkFrame_head hhead', hctx, hvpn, hnext,
    anchorHead_congr fun j _ => setNext_read (Or.inr (by have := invAt_lt_anchorAt (k := k) hf (anchorIndex (frameCtx s k f) (frameVpn s k f)); omega))]
  refine anchorHead_setAnchor fun g hg => ?_
  split at hg
  · cases hg
  · cases hg
    exact wfld_lt _ 0 20

end Sys2Proof.Machine

namespace Sys2Proof.Machine

open Sys2Proof

/-! ## Contexts and their die memory (spec/08_die_memory.md R208, spec/17_launch.md R418) -/

/-- What every context has on each die is as before. -/
def SameDctx (s t : State) : Prop := ∀ d c, t.dctx d c = s.dctx d c

theorem SameDctx.trans {s t u : State} (h : SameDctx s t) (h' : SameDctx t u) : SameDctx s u :=
  fun d c => (h' d c).trans (h d c)

theorem modJob_sameDctx (s : State) (ctx : Nat) (f : Job → Job) : SameDctx s (s.modJob ctx f) := by
  intro d c
  unfold State.dctx
  by_cases h : c = ctx
  · rw [h, State.modJob, State.modCtx_same]
  · rw [State.modJob, State.modCtx_other _ _ h]

theorem eccVote_sameDctx (s : State) (die ctx : Nat) : SameDctx s (eccVote s die ctx) :=
  ite_keeps (P := SameDctx s) (modJob_sameDctx s ctx _) fun _ _ => rfl

theorem lineEcc_sameDctx (s : State) (l : CLine) : SameDctx s (lineEcc s l).1 := by
  refine foldl_keeps (P := fun x : State × Bool => SameDctx s x.1) (fun _ _ => rfl) fun x m h => ?_
  split
  · exact h.trans (SameDctx.trans (t := x.1.countUnc l.die) (fun _ _ => rfl) (eccVote_sameDctx _ _ _))
  · exact h.trans fun _ _ => rfl

theorem writeBackAll_sameDctx (s : State) (p : CLine → Bool) : SameDctx s (writeBackAll s p) :=
  foldl_keeps (P := SameDctx s) (fun _ _ => rfl) fun _ l h => h.trans ((lineEcc_sameDctx _ l).trans fun _ _ => rfl)

theorem State.modDctx_same (s : State) (d c : Nat) (f : DieCtx → DieCtx) : (s.modDctx d c f).dctx d c = f (s.dctx d c) := by
  rw [State.dctx, State.modDctx, State.modCtx_same, Table.get_set_same]
  rfl

/-- A state whose lines of a context on a die have been written back and freed. -/
def freedLines (s : State) (die ctx : Nat) : State :=
  (writeBackAll s (fun l => decide (l.die = die ∧ l.ctx = ctx))).dropLines (fun l => decide (l.die = die ∧ l.ctx = ctx))

theorem freedLines_sameDctx (s : State) (die ctx : Nat) : SameDctx s (freedLines s die ctx) :=
  (writeBackAll_sameDctx s _).trans fun _ _ => rfl

theorem freedLines_lines (s : State) (die ctx : Nat) : ∀ l ∈ (freedLines s die ctx).lines, ¬ (l.die = die ∧ l.ctx = ctx) := by
  intro l hl
  exact of_decide_eq_false (Bool.not_eq_true' _ ▸ (List.mem_filter.1 hl).2)

theorem reclaimDie_dctx (s : State) (die ctx : Nat) :
    ((reclaimDie s die ctx).dctx die ctx).dmSize = 0 ∧ ((reclaimDie s die ctx).dctx die ctx).dmBase = 0 := by
  rw [reclaimDie, State.modDctx_same]
  exact ⟨rfl, rfl⟩

theorem reclaimDie_lines (s : State) (die ctx : Nat) : (reclaimDie s die ctx).lines = (freedLines s die ctx).lines :=
  ite_keeps (P := fun t : State => t.lines = (freedLines s die ctx).lines) rfl rfl

theorem reclaimDie_mem (s : State) (die ctx : Nat) (h : (s.dctx die ctx).dmSize ≠ 0) : (reclaimDie s die ctx).mem =
    (zeroRange (freedLines s die ctx) (dieAddr die ((s.dctx die ctx).dmBase * 16384)) ((s.dctx die ctx).dmSize * 16384)).mem := by
  rw [← freedLines_sameDctx s die ctx die ctx] at h ⊢
  have hzero : (reclaimDie s die ctx).mem = (if ((freedLines s die ctx).dctx die ctx).dmSize = 0 then freedLines s die ctx
      else zeroRange (freedLines s die ctx) (dieAddr die (((freedLines s die ctx).dctx die ctx).dmBase * 16384))
        (((freedLines s die ctx).dctx die ctx).dmSize * 16384)).mem := rfl
  rw [hzero, if_neg h]

theorem reclaimDie_read {s : State} {die ctx a : Nat} (hbase : 1 ≤ (s.dctx die ctx).dmBase)
    (hend : (s.dctx die ctx).dmBase + (s.dctx die ctx).dmSize ≤ 8192) (hlo : dieAddr die ((s.dctx die ctx).dmBase * 16384) ≤ a)
    (hhi : a < dieAddr die (((s.dctx die ctx).dmBase + (s.dctx die ctx).dmSize) * 16384)) : (reclaimDie s die ctx).read a = 0 := by
  have hmem := reclaimDie_mem s die ctx
  generalize (s.dctx die ctx).dmBase = b at *
  generalize (s.dctx die ctx).dmSize = n at *
  have hnone : n ≠ 0 := by
    rintro rfl
    exact absurd hhi (Nat.not_lt.2 hlo)
  obtain ⟨o, rfl⟩ : ∃ o, a = dieAddr die o := ⟨a - dieAddr die 0, by unfold dieAddr at hlo ⊢; omega⟩
  unfold dieAddr at hlo hhi
  refine (congrArg (fun m => Memory.read m _) (hmem hnone)).trans ((zeroRange_read ..).trans ?_)
  rw [if_pos (by unfold dieAddr; omega), resetByte_dieAddr (by rw [dieBytes]; omega), capByte_past_list (by omega)]

theorem execDieMemoryReclaim_due {s : State} {die ctx : Nat} (hdie : die < numDies) (hctx : ctx < numContexts)
    (hlive : (s.ctx ctx).live = true) (hslots : die ∉ jobDies s ctx) :
    exec (.dieMemoryReclaim die ctx) s = .next (reclaimDie s die ctx) :=
  congrArg Host.Outcome.next (if_neg (by simp [hlive, hslots]; omega))

/-! ### Creation and end -/

/-- Of the contexts, one alone changed, and of it what it has on the dies. -/
def AllotsOnly (id : Nat) (s t : State) : Prop :=
  t.ctx id = { s.ctx id with dies := (t.ctx id).dies } ∧ ∀ x, x ≠ id → t.ctx x = s.ctx x

theorem AllotsOnly.refl (id : Nat) (s : State) : AllotsOnly id s s := ⟨rfl, fun _ _ => rfl⟩

theorem AllotsOnly.trans {id : Nat} {s t u : State} (h : AllotsOnly id s t) (h' : AllotsOnly id t u) : AllotsOnly id s u :=
  ⟨by rw [h'.1, h.1], fun x hx => (h'.2 x hx).trans (h.2 x hx)⟩

theorem modDctx_allotsOnly (s : State) (d id : Nat) (f : DieCtx → DieCtx) : AllotsOnly id s (s.modDctx d id f) := by
  refine ⟨?_, fun x hx => State.modCtx_other _ _ hx⟩
  rw [State.modDctx, State.modCtx_same]

theorem allotOn_only (s : State) (d id size : Nat) : AllotsOnly id s (allotOn s d id size) := by
  rw [allotOn]
  split
  · exact .refl id s
  · dsimp only
    split
    · exact modDctx_allotsOnly { s with free := s.free + 1 } d id _
    · exact modDctx_allotsOnly { s with free := s.free + 1 } d id _

theorem allot_only (s : State) (id : Nat) : AllotsOnly id s (allot s id) :=
  foldl_keeps (P := AllotsOnly id s) (.refl id s) fun t d h => h.trans (allotOn_only { t with free := t.free + 1 } d id _)

theorem execContextCreation_created {s : State} {die tenant fn : Nat} (hdie : die < numDies) (hhealthy : (s.die die).healthy = true)
    (hfree : freeId s (s.ctxs.length + 1) 1 < numContexts) : exec (.contextCreation die tenant fn) s =
      .next (allot (s.setCtx (freeId s (s.ctxs.length + 1) 1)
        { Ctx.reset with live := true, tenant := tenant, fn := fn, bound := some fn }) (freeId s (s.ctxs.length + 1) 1)) :=
  congrArg Host.Outcome.next (if_neg (by simp [hhealthy]; omega))

theorem execContextEnd_ended {s : State} {ctx : Nat} (hlive : (s.ctx ctx).live = true) (hjob : s.job ctx = none)
    (hended : ∀ d, (s.die d).ended = []) : exec (.contextEnd ctx) s = .next (endContext s ctx) :=
  congrArg Host.Outcome.next (if_neg (by simp [hlive, hjob, hended]))

theorem endContext_same (s : State) (ctx : Nat) : (endContext s ctx).ctx ctx = Ctx.reset := State.setCtx_same _ _ _

/-! ## Retirement (spec/01_wafer.md R25, R26) -/

theorem jobSequencer_of_job {s : State} {ctx : Nat} {j : Job} (h : s.job ctx = some j) : jobSequencer s ctx = j.seqDie := by
  rw [jobSequencer, h]
  rfl

theorem dispatchEvent_healthy (s : State) (p : Nat → Bool) (d : Nat) : ((dispatchEvent s p).die d).healthy = (s.die d).healthy := by
  rw [dispatchEvent_die]

theorem execDieRetirement_due {s : State} {die : Nat} (hdie : die < numDies) (hhealthy : (s.die die).healthy = true) :
    exec (.dieRetirement die) s = .next (dispatchEvent (s.modDie die (fun d => { d with healthy := false })) (fun _ => true)) :=
  congrArg Host.Outcome.next (if_neg (by simp [hhealthy]; omega))

theorem retired_healthy (s : State) (die d : Nat) : ((s.modDie die (fun d => { d with healthy := false })).die d).healthy =
    (decide (d ≠ die) && (s.die d).healthy) := by
  by_cases h : d = die
  · simp [h]
  · simp [h, State.modDie_other]

theorem execDieHealthyAgain_dies {s : State} {die : Nat} (h : (s.die die).healthy = false) :
    ∃ t, exec (.dieHealthyAgain die) s = .next t ∧ t.dies = (s.modDie die (fun d => { d with healthy := true })).dies :=
  ⟨_, congrArg Host.Outcome.next (if_neg (by simp [h])), rfl⟩

theorem restored_healthy (s : State) (die d : Nat) : ((s.modDie die (fun d => { d with healthy := true })).die d).healthy =
    (decide (d = die) || (s.die d).healthy) := by
  by_cases h : d = die
  · simp [h]
  · simp [h, State.modDie_other]

end Sys2Proof.Machine

namespace Sys2Proof

/-- A table made of a list's values. -/
theorem Table.get_tabulate {α : Type} (d : α) (f : Nat → α) {k : Nat} {l : List Nat} (h : k ∈ l) :
    Table.get d (l.map fun i => (i, f i)) k = f k := by
  induction l with
  | nil => cases h
  | cons i l ih =>
    rw [List.map_cons, Table.get]
    split
    · next hi => rw [← hi]
    · next hi => exact ih ((List.mem_cons.1 h).resolve_left fun hk => hi hk.symm)

end Sys2Proof

namespace Sys2Proof.Machine

open Sys2Proof

/-! ## Capability lists delivered anew (spec/01_wafer.md R30) -/

/-- The next even generation after `gen`. -/
def nextGen (gen : Nat) : Nat := (gen + 2 - gen % 2) % 2 ^ 32

/-- Two words written, the update of the die's list at its start.  The lemmas take any words at any places: those of a list, compared
as terms, exceed the kernel's recursion. -/
def putWords (s : State) (d a b : Nat) (w v : Word) : State :=
  ((s.writeWord a w).writeWord b v).modDie d (fun x => { x with capStep := 0 })

theorem putWords_only (s : State) (d a b : Nat) (w v : Word) :
    putWords s d a b w v = { s with mem := (putWords s d a b w v).mem, dies := (putWords s d a b w v).dies } := rfl

theorem putWords_read (s : State) {d a b x : Nat} (w v : Word) (ha : x < a ∨ a + 8 ≤ x) (hb : x < b ∨ b + 8 ≤ x) :
    (putWords s d a b w v).read x = s.read x :=
  (State.read_writeN_out _ _ _ _ (by rwa [bytesOf_length])).trans (State.read_writeN_out _ _ _ _ (by rwa [bytesOf_length]))

theorem putWords_readWord (s : State) {d a b : Nat} (w v : Word) (h : a + 8 ≤ b) : (putWords s d a b w v).readWord a = w := by
  refine Eq.trans (congrArg wordOfBytes (State.readN_congr fun j hj => ?_)) (State.readWord_writeWord s a w)
  exact State.read_writeN_out _ _ _ _ (Or.inl (by omega))

theorem putWords_die_same (s : State) (d a b : Nat) (w v : Word) : (putWords s d a b w v).die d = { s.die d with capStep := 0 } :=
  State.modDie_same _ _ _

theorem putWords_die_other (s : State) {d k : Nat} (a b : Nat) (w v : Word) (h : k ≠ d) : (putWords s d a b w v).die k = s.die k :=
  State.modDie_other _ _ h

theorem capDeliver_eq (s : State) (d gen : Nat) :
    capDeliver s d gen = putWords s d (dieAddr d 8) (dieAddr d 40) (capHead s d (gen + 2 - gen % 2)) (capDies s) := by
  rw [capDeliver, putWords]

theorem capDeliver_only (s : State) (d gen : Nat) :
    capDeliver s d gen = { s with mem := (capDeliver s d gen).mem, dies := (capDeliver s d gen).dies } := by
  rw [capDeliver_eq]
  exact putWords_only ..

theorem capDeliver_read {s : State} {d gen a : Nat} (h : a < dieAddr d 8 ∨ dieAddr d 48 ≤ a) :
    (capDeliver s d gen).read a = s.read a := by
  rw [capDeliver_eq]
  exact putWords_read _ _ _ (by unfold dieAddr at *; omega) (by unfold dieAddr at *; omega)

theorem State.readWord_congr {s t : State} {a : Nat} (h : ∀ j < 8, t.read (a + j) = s.read (a + j)) : t.readWord a = s.readWord a :=
  congrArg wordOfBytes (State.readN_congr h)

theorem wfld_capHead {s : State} {d gen : Nat} (hmod : s.modnum < 4096) (hd : d < numDies) : wfld (capHead s d gen) 32 32 = gen % 2 ^ 32 := by
  rw [numDies] at hd
  rw [wfld_eq, capHead, word, BitVec.toNat_ofNat]
  omega

theorem capGeneration_capDeliver {s : State} {d : Nat} (gen : Nat) (hmod : s.modnum < 4096) (hd : d < numDies) :
    capGeneration (capDeliver s d gen) d = nextGen gen := by
  rw [capGeneration, capDeliver_eq, putWords_readWord _ _ _ (by unfold dieAddr; omega), wfld_capHead hmod hd, nextGen]

theorem capGeneration_other {s : State} {d k gen : Nat} (h : k ≠ d) : capGeneration (capDeliver s d gen) k = capGeneration s k := by
  rw [capGeneration, capGeneration, State.readWord_congr fun j hj => capDeliver_read (by rw [dieAddr, dieAddr, dieAddr]; omega)]

/-- A die's generation reads as memory that holds it. -/
theorem capGeneration_congr {s t : State} (h : t.mem = s.mem) (d : Nat) : capGeneration t d = capGeneration s d := by
  rw [capGeneration, capGeneration, State.readWord_congr fun j _ => congrArg (Memory.read · (dieAddr d 8 + j)) h]

theorem capDeliver_die_same (s : State) (d gen : Nat) : (capDeliver s d gen).die d = { s.die d with capStep := 0 } := by
  rw [capDeliver_eq, putWords_die_same]

theorem capDeliver_die_other {s : State} {d k gen : Nat} (h : k ≠ d) : (capDeliver s d gen).die k = s.die k := by
  rw [capDeliver_eq, putWords_die_other _ _ _ _ _ h]

/-! ### On every healthy die (spec/21_host.md R477) -/

/-- The lists of several dies delivered anew. -/
def deliverAll (g : Nat → Nat) (l : List Nat) (s : State) : State := l.foldl (fun s d => capDeliver s d (g d)) s

theorem deliverAll_cons (g : Nat → Nat) (d : Nat) (l : List Nat) (s : State) :
    deliverAll g (d :: l) s = deliverAll g l (capDeliver s d (g d)) := by
  rw [deliverAll, List.foldl_cons, deliverAll]

theorem deliverAll_only (g : Nat → Nat) (l : List Nat) (s : State) :
    deliverAll g l s = { s with mem := (deliverAll g l s).mem, dies := (deliverAll g l s).dies } :=
  foldl_keeps (P := fun t : State => t = { s with mem := t.mem, dies := t.dies }) rfl fun t d h => by
    rw [capDeliver_only, h]

theorem deliverAll_read {g : Nat → Nat} {l : List Nat} {s : State} {a : Nat} (h : a < dieWindow) : (deliverAll g l s).read a = s.read a :=
  foldl_keeps (P := fun t : State => t.read a = s.read a) rfl fun t d ht =>
    (capDeliver_read (.inl (by rw [dieAddr]; omega))).trans ht

theorem capGeneration_deliverAll_other {g : Nat → Nat} {k : Nat} {l : List Nat} :
    ∀ {s : State}, k ∉ l → capGeneration (deliverAll g l s) k = capGeneration s k := by
  induction l with
  | nil => exact fun _ => rfl
  | cons d l ih =>
    intro s h
    obtain ⟨hd, hl⟩ := not_or.1 (mt List.mem_cons.2 h)
    rw [deliverAll_cons, ih hl, capGeneration_other hd]

theorem capGeneration_deliverAll {g : Nat → Nat} {k : Nat} (hk : k < numDies) {l : List Nat} :
    ∀ {s : State}, s.modnum < 4096 → l.Nodup → k ∈ l → capGeneration (deliverAll g l s) k = nextGen (g k) := by
  induction l with
  | nil => exact fun _ _ h => absurd h List.not_mem_nil
  | cons d l ih =>
    intro s hmod hdup h
    obtain ⟨hd, hl⟩ := List.nodup_cons.1 hdup
    rw [deliverAll_cons]
    rcases List.mem_cons.1 h with rfl | hin
    · rw [capGeneration_deliverAll_other hd, capGeneration_capDeliver _ hmod hk]
    · exact ih (by rwa [capDeliver_only]) hl hin

/-! ## Module reset (spec/21_host.md R477) -/

/-- The state of a module after a reset, before the lists are delivered. -/
def wipedModule (s : State) : State :=
  { State.reset with dies := (List.range numDies).map (fun d => (d, (s.die d).afterReset)), life := s.life, modnum := s.modnum,
                     ports := s.ports, linkOut := s.linkOut, cy := s.cy, agenda := s.agenda, turns := s.turns,
                     opCount := s.opCount, useCount := s.useCount, free := s.free, hostReply := s.hostReply,
                     heard := s.heard, wipeNs := 14500000 }

theorem execModuleReset_eq (s : State) :
    exec .moduleReset s = .next (deliverAll (capGeneration s) (healthyDies (wipedModule s)) (wipedModule s)) := rfl

theorem wipedModule_healthy {s : State} {d : Nat} (hd : d < numDies) (hhealthy : (s.die d).healthy = true) : d ∈ healthyDies (wipedModule s) := by
  refine List.mem_filter.2 ⟨List.mem_range.2 hd, ?_⟩
  have hdie : (wipedModule s).die d = (s.die d).afterReset :=
    Table.get_tabulate Die.reset (fun d => (s.die d).afterReset) (List.mem_range.2 hd)
  rw [hdie]
  exact hhealthy

theorem capGeneration_moduleReset {s : State} {d : Nat} (hd : d < numDies) (hhealthy : (s.die d).healthy = true) (hmod : s.modnum < 4096) :
    capGeneration (deliverAll (capGeneration s) (healthyDies (wipedModule s)) (wipedModule s)) d = nextGen (capGeneration s d) :=
  capGeneration_deliverAll hd hmod (List.nodup_range.filter _) (wipedModule_healthy hd hhealthy)

/-! ## Function-level reset (spec/21_host.md R474) -/

/-- No context is bound to a function, and none has amplitude entries queued. -/
def Unbound (die : Nat) (s : State) : Prop := ∀ e ∈ s.ctxs, e.2.bound ≠ some die ∧ e.2.amp.queue = []

theorem Unbound.ctx {die : Nat} {s : State} (h : Unbound die s) (c : Nat) : (s.ctx c).bound ≠ some die ∧ (s.ctx c).amp.queue = [] := by
  rcases Table.get_eq_or_mem Ctx.reset s.ctxs c with hnone | ⟨e, he, hsome⟩
  · rw [State.ctx, hnone]
    exact ⟨nofun, rfl⟩
  · rw [State.ctx, hsome]
    exact h e he

/-- A change of a context's other components. -/
theorem Unbound.modCtx {die : Nat} {s : State} (h : Unbound die s) (c : Nat) {f : Ctx → Ctx}
    (hf : (f (s.ctx c)).bound = (s.ctx c).bound ∧ (f (s.ctx c)).amp.queue = []) : Unbound die (s.modCtx c f) := by
  intro e he
  rcases Table.mem_set _ _ _ _ he with rfl | he
  · exact ⟨hf.1 ▸ (h.ctx c).1, hf.2⟩
  · exact h e he

theorem Unbound.modJob {die : Nat} {s : State} (h : Unbound die s) (c : Nat) (f : Job → Job) : Unbound die (s.modJob c f) :=
  h.modCtx c ⟨rfl, (h.ctx c).2⟩

/-- Contexts alone changed, and none is bound to the function or has entries queued. -/
def Settled (die : Nat) (s t : State) : Prop := t = { s with ctxs := t.ctxs } ∧ Unbound die t

/-- The launches with threads on a die vote abort and are to end. -/
def voteOut (s : State) (l : List Nat) : State :=
  l.foldl (fun s x => (s.vote x 7).modJob x (fun j => { j with doomed := true })) s

theorem voteOut_settled {die : Nat} {s : State} (h : Unbound die s) (l : List Nat) : Settled die s (voteOut s l) :=
  foldl_keeps (P := Settled die s) ⟨rfl, h⟩ fun t x ht =>
    ⟨by show _ = _; rw [ht.1]; rfl, (ht.2.modJob x _).modJob x _⟩

/-- Without entries nothing returns a leave. -/
theorem dropAmp_settled {die : Nat} {s : State} (h : Unbound die s) (c : Nat) : Settled die s (dropAmp s c) := by
  rw [dropAmp, (h.ctx c).2, List.foldl_nil]
  exact ⟨rfl, h.modCtx c ⟨rfl, rfl⟩⟩

end Sys2Proof.Machine

namespace Sys2Proof.Machine

open Sys2Proof

/-! ## The units of a reset die (spec/21_host.md R474) -/

/-- Whether a compute core stands on a die. -/
def onDie (d core : Nat) : Bool := decide (core < numCores ∧ dieOf core = d)

/-- The operations of the other dies' engines, which wait no more for those named. -/
def enginesLeft (d : Nat) (ops : List Nat) (l : List EngOp) : List EngOp :=
  (l.filter (fun o => !onDie d o.core)).map (fun o => { o with preds := o.preds.filter (fun p => !ops.contains p) })

theorem enginesLeft_mem {d : Nat} {ops : List Nat} {l : List EngOp} {o : EngOp} (h : o ∈ enginesLeft d ops l) :
    o ∈ l.map (fun x => { x with preds := o.preds }) ∧ ¬ (o.core < numCores ∧ dieOf o.core = d) := by
  obtain ⟨x, hx, rfl⟩ := List.mem_map.1 h
  obtain ⟨hin, hoff⟩ := List.mem_filter.1 hx
  exact ⟨List.mem_map.2 ⟨x, hin, rfl⟩, of_decide_eq_false (Bool.not_eq_true' _ ▸ hoff)⟩

/-- A state whose amplitude entries of the launches with threads on a die are gone. -/
def dropAmps (s : State) (d : Nat) : State :=
  (s.ctxs.filter (fun e => (jobDies s e.1).contains d)).foldl (fun s e => dropAmp s e.1) s

theorem dropAmps_settled {die : Nat} {s : State} (h : Unbound die s) (d : Nat) : Settled die s (dropAmps s d) :=
  foldl_keeps (P := Settled die s) ⟨rfl, h⟩ fun t e ht => by
    have hnext := dropAmp_settled ht.2 e.1
    exact ⟨by rw [hnext.1, ht.1], hnext.2⟩

/-- The list of a reset die is delivered last, to a state `u` whose dies are otherwise as before. -/
theorem resetDie_eq (s : State) (d : Nat) : ∃ (u : State) (ops : List Nat),
    resetDie s d = capDeliver (u.modDie d (fun x => { x.afterReset with ended := x.ended })) d (capGeneration (dropAmps s d) d) ∧
      u.dies = (dropAmps s d).dies ∧ u.modnum = (dropAmps s d).modnum ∧ u.engine = enginesLeft d ops (dropAmps s d).engine := by
  rw [resetDie]
  exact ⟨_, _, rfl, rfl, rfl, rfl⟩

section
variable {s : State} {d : Nat} (h : Unbound d s)
include h

theorem resetDie_only : ∃ (u : State) (ops : List Nat), resetDie s d =
      capDeliver (u.modDie d (fun x => { x.afterReset with ended := x.ended })) d (capGeneration s d) ∧
    u.dies = s.dies ∧ u.modnum = s.modnum ∧ u.engine = enginesLeft d ops s.engine := by
  obtain ⟨u, ops, hreset, hdies, hmod, hengine⟩ := resetDie_eq s d
  have hdropped := (dropAmps_settled h d).1
  rw [hdropped] at hreset hdies hmod hengine
  exact ⟨u, ops, hreset, hdies, hmod, hengine⟩

theorem resetDie_die_same : (resetDie s d).die d = { (s.die d).afterReset with ended := (s.die d).ended } := by
  obtain ⟨u, ops, hreset, hdies, -, -⟩ := resetDie_only h
  rw [hreset, capDeliver_die_same, State.modDie_same, State.die, hdies]
  rfl

theorem resetDie_die_other {k : Nat} (hk : k ≠ d) : (resetDie s d).die k = s.die k := by
  obtain ⟨u, ops, hreset, hdies, -, -⟩ := resetDie_only h
  rw [hreset, capDeliver_die_other hk, State.modDie_other _ _ hk, State.die, hdies]
  rfl

theorem resetDie_ended (hended : ∀ k, (s.die k).ended = []) (k : Nat) : ((resetDie s d).die k).ended = [] := by
  by_cases hk : k = d
  · rw [hk, resetDie_die_same h]
    exact hended d
  · rw [resetDie_die_other h hk, hended]

theorem capGeneration_resetDie (hmod : s.modnum < 4096) (hd : d < numDies) :
    capGeneration (resetDie s d) d = nextGen (capGeneration s d) := by
  obtain ⟨u, ops, hreset, -, hmodnum, -⟩ := resetDie_only h
  rw [hreset, capGeneration_capDeliver _ (by rwa [State.modDie_modnum, hmodnum]) hd]

theorem resetDie_engine : ∀ o ∈ (resetDie s d).engine,
    o ∈ s.engine.map (fun x => { x with preds := o.preds }) ∧ ¬ (o.core < numCores ∧ dieOf o.core = d) := by
  intro o ho
  obtain ⟨u, ops, hreset, -, -, hengine⟩ := resetDie_only h
  rw [hreset, capDeliver_only] at ho
  exact enginesLeft_mem (hengine ▸ ho)

end

/-! ## The reset of a function -/

/-- Dies alone changed, and of each but whether its dispatcher takes its step nothing. -/
def DispatchOnly (s t : State) : Prop :=
  t = { s with dies := t.dies } ∧ ∀ d, t.die d = { s.die d with dispatch := (t.die d).dispatch }

theorem SameDies.dispatchOnly {s t : State} (h : SameDies s t) : DispatchOnly s t := ⟨h.1, fun d => by rw [h.2]⟩

theorem SameDies.dispatchEvent {s t : State} (h : SameDies s t) (p : Nat → Bool) : DispatchOnly s (dispatchEvent t p) := by
  refine ⟨?_, fun d => ?_⟩
  · rw [dispatchEvent_only, h.1]
  · rw [← h.2]
    exact dispatchEvent_die t p d

theorem boundTo_nil {die : Nat} {s : State} (h : Unbound die s) :
    (s.ctxs.filter (fun e => decide (e.2.bound = some die))).map (·.1) = [] := by
  rw [List.filter_eq_nil_iff.2 fun e he => by simpa using (h e he).1, List.map_nil]

/-- What a function-level reset does after the votes. -/
def resetFunction (s : State) (die : Nat) : State :=
  let t := (List.range numDies).foldl settleEnded
    (((s.ctxs.filter (fun e => decide (e.2.bound = some die))).map (·.1)).foldl endBound (resetDie s die))
  if s.cores.any (fun e => decide (dieOf e.1 = die) && e.2.wipe) then dispatchEvent t (fun _ => true) else t

theorem execFunctionLevelReset_eq (s : State) (die : Nat) : exec (.functionLevelReset die) s = .next (resetFunction
    (voteOut s ((s.ctxs.filter (fun e => e.2.job.isSome && (jobDies s e.1).contains die)).map (·.1))) die) := rfl

/-- Where no context is bound to the function and no launch awaits its wipes, the reset is that of the die. -/
theorem resetFunction_only {s : State} {die : Nat} (h : Unbound die s) (hended : ∀ d, (s.die d).ended = []) :
    DispatchOnly (resetDie s die) (resetFunction s die) := by
  have hsettled := settleDies_idle (l := List.range numDies) (resetDie_ended h hended)
  rw [resetFunction, boundTo_nil h, List.foldl_nil]
  exact ite_keeps (P := DispatchOnly (resetDie s die)) (hsettled.dispatchEvent _) hsettled.dispatchOnly

end Sys2Proof.Machine

namespace Sys2Proof.Machine

open Sys2Proof

/-! ## Wipes, contexts, retirements and resets (spec/10_pages.md R242, spec/21_host.md R474, R477) -/

theorem localStoreWipe_wipes (s : State) (g : Nat) (hg : g < numGcores) (hwipe : (s.core g).wipe = true) (hseat : bankSeated s g = false)
    (hended : ∀ d, (s.die d).ended = []) :
    ∃ t, exec (.localStoreWipe g) s = .next t ∧ (t.core g).wipe = false ∧ (t.core g).pool = [] ∧
      ∀ a, t.read a = if localAddr g 0 ≤ a ∧ a < localAddr g localBytes then 0 else s.read a := by
  obtain ⟨t, hstep, ht⟩ := execLocalStoreWipe_due hwipe hseat hended
  obtain ⟨hdone, hpool⟩ := wipeCore_core s g
  refine ⟨t, hstep, ?_, ?_, fun a => ?_⟩ <;> rw [ht]
  · exact hdone
  · exact hpool
  · exact wipeCore_read hg a

theorem frameWipe_wipes (s : State) (k f : Nat) (hk : k < 16) (hf : f ≤ 732164) (hdue : (s.readWord (invAt k f)).getLsbD 59 = true) :
    let i := anchorIndex (frameCtx s k f) (frameVpn s k f)
    ∃ t, exec (.frameWipe (k * 2 ^ 20 + f)) s = .next t ∧ frameKind t k f = 0 ∧ (t.readWord (invAt k f)).getLsbD 59 = false ∧
      (∀ a, (a < k * 2 ^ 36 + 732165 * 65536 ∨ k * 2 ^ 36 + 732421 * 65536 ≤ a) ∨
          (frameKind s k f ≠ 1 ∧ (a < invAt k f ∨ invAt k f + 8 ≤ a)) →
        t.read a = if k * 2 ^ 36 + f * 65536 ≤ a ∧ a < k * 2 ^ 36 + (f + 1) * 65536 then 0 else s.read a) ∧
      (frameKind s k f = 1 → anchorHead s k i = some f →
        anchorHead t k i = if frameNext s k f = chainEnd then none else some (frameNext s k f)) := by
  intro i
  obtain ⟨hkind, hbit⟩ := setFrame_free (looseFrame s k f) k f
  refine ⟨_, execFrameWipe_due hk hf hdue, hkind, hbit, fun a ha => ?_, fun hpaged hhead => ?_⟩
  · have hentry : a < invAt k f ∨ invAt k f + 8 ≤ a := by
      rcases ha with hout | ⟨-, hin⟩
      · have := OutsideTables.invAt (k := k) hout (f := f) (by omega)
        omega
      · exact hin
    rw [setFrame_read hentry, looseFrame_read hf (ha.imp id And.left), zeroFrame_read hk hf]
  · rw [anchorHead_congr fun j _ => setFrame_read (Or.inr (by have := invAt_lt_anchorAt (k := k) hf i; omega))]
    exact looseFrame_anchorHead hk hf hpaged hhead

theorem dieMemoryReclaim_reclaims (s : State) (die ctx : Nat) (hdie : die < numDies) (hctx : ctx < numContexts)
    (hlive : (s.ctx ctx).live = true) (hslots : die ∉ jobDies s ctx) :
    let x := s.dctx die ctx
    1 ≤ x.dmBase → x.dmBase + x.dmSize ≤ 8192 →
    ∃ t, exec (.dieMemoryReclaim die ctx) s = .next t ∧ (t.dctx die ctx).dmSize = 0 ∧ (t.dctx die ctx).dmBase = 0 ∧
      (∀ l ∈ t.lines, ¬ (l.die = die ∧ l.ctx = ctx)) ∧
      ∀ a, dieAddr die (x.dmBase * 16384) ≤ a → a < dieAddr die ((x.dmBase + x.dmSize) * 16384) → t.read a = 0 := by
  intro x hbase hend
  obtain ⟨hsize, hfirst⟩ := reclaimDie_dctx s die ctx
  exact ⟨_, execDieMemoryReclaim_due hdie hctx hlive hslots, hsize, hfirst, reclaimDie_lines s die ctx ▸ freedLines_lines s die ctx,
    fun a => reclaimDie_read hbase hend⟩

theorem contextCreation_creates (s : State) (die tenant fn id : Nat) (hdie : die < numDies) (hhealthy : (s.die die).healthy = true)
    (hid : id = freeId s (s.ctxs.length + 1) 1) (hfree : id < numContexts) :
    ∃ t, exec (.contextCreation die tenant fn) s = .next t ∧ (t.ctx id).live = true ∧ (t.ctx id).tenant = tenant ∧
      (t.ctx id).fn = fn ∧ (t.ctx id).bound = some fn ∧ ∀ x, x ≠ id → t.ctx x = s.ctx x := by
  subst hid
  refine ⟨_, execContextCreation_created hdie hhealthy hfree, ?_⟩
  generalize freeId s (s.ctxs.length + 1) 1 = id
  obtain ⟨hsame, hother⟩ := allot_only (s.setCtx id { Ctx.reset with live := true, tenant := tenant, fn := fn, bound := some fn }) id
  rw [State.setCtx_same] at hsame
  refine ⟨?_, ?_, ?_, ?_, fun x hx => (hother x hx).trans (State.setCtx_other _ _ hx)⟩ <;> rw [hsame]

theorem dieRetirement_retires (s : State) (die : Nat) (hdie : die < numDies) (hhealthy : (s.die die).healthy = true) :
    ∃ t, exec (.dieRetirement die) s = .next t ∧ t = { s with dies := t.dies } ∧
      (∀ d, (t.die d).healthy = (decide (d ≠ die) && (s.die d).healthy)) ∧
      ∀ ctx j, s.job ctx = some j → jobSequencer t ctx = j.seqDie :=
  ⟨_, execDieRetirement_due hdie hhealthy, rfl, fun _ => (dispatchEvent_healthy ..).trans (retired_healthy ..),
    fun _ _ hjob => jobSequencer_of_job hjob⟩

theorem dieHealthyAgain_restores (s : State) (die : Nat) (h : (s.die die).healthy = false) :
    ∃ t, exec (.dieHealthyAgain die) s = .next t ∧ ∀ d, (t.die d).healthy = (decide (d = die) || (s.die d).healthy) := by
  obtain ⟨t, hstep, hdies⟩ := execDieHealthyAgain_dies h
  refine ⟨t, hstep, fun d => ?_⟩
  rw [← restored_healthy, State.die, hdies]
  rfl

theorem functionLevelReset_resets (s : State) (die : Nat) (hdie : die < numDies)
    (h : ∀ e ∈ s.ctxs, e.2.bound ≠ some die ∧ e.2.amp.queue = []) (hended : ∀ d, (s.die d).ended = []) :
    ∃ t, exec (.functionLevelReset die) s = .next t ∧
      t.die die = { (s.die die).afterReset with capLast := (t.die die).capLast, dispatch := (t.die die).dispatch } ∧
      (s.modnum < 4096 → capGeneration t die = (capGeneration s die + 2 - capGeneration s die % 2) % 2 ^ 32) ∧
      (∀ o ∈ t.engine, o ∈ s.engine.map (fun x => { x with preds := o.preds }) ∧ ¬ (o.core < numCores ∧ dieOf o.core = die)) ∧
      ∀ d, d ≠ die → t.die d = { s.die d with dispatch := (t.die d).dispatch } := by
  refine ⟨_, execFunctionLevelReset_eq s die, ?_⟩
  obtain ⟨hvoted, hunbound⟩ := voteOut_settled h ((s.ctxs.filter (fun e => e.2.job.isSome && (jobDies s e.1).contains die)).map (·.1))
  generalize voteOut s ((s.ctxs.filter (fun e => e.2.job.isSome && (jobDies s e.1).contains die)).map (·.1)) = v at hvoted hunbound ⊢
  have hdies (d : Nat) : v.die d = s.die d := by rw [hvoted]; rfl
  obtain ⟨honly, hdispatch⟩ := resetFunction_only hunbound fun d => by rw [hdies, hended]
  generalize resetFunction v die = t at honly hdispatch ⊢
  refine ⟨?_, fun hmod => ?_, ?_, fun d hd => ?_⟩
  · have hdie := hdispatch die
    rw [resetDie_die_same hunbound, hdies, hended] at hdie
    have hlast : (t.die die).capLast = (s.die die).afterReset.capLast := by rw [hdie]
    rw [hlast]
    exact hdie
  · have hwritten : t.mem = (resetDie v die).mem := by rw [honly]
    have hmem : v.mem = s.mem := by rw [hvoted]
    rw [capGeneration_congr hwritten, capGeneration_resetDie hunbound (by rwa [hvoted]) hdie, capGeneration_congr hmem, nextGen]
  · rw [honly]
    have hengine := resetDie_engine hunbound
    rwa [show v.engine = s.engine by rw [hvoted]] at hengine
  · have hsame := hdispatch d
    rwa [resetDie_die_other hunbound hd, hdies] at hsame

theorem moduleReset_resets (s : State) : ∃ t, exec .moduleReset s = .next t ∧ t.threads = State.reset.threads ∧
    t.cores = State.reset.cores ∧ t.lines = [] ∧ t.ctxs = State.reset.ctxs ∧ t.life = s.life ∧ t.modnum = s.modnum ∧
    t.ports = s.ports ∧ t.wipeNs = 14500000 ∧ (∀ a, a < dieWindow → t.read a = resetByte a) ∧
    ∀ d, d < numDies → (s.die d).healthy = true → s.modnum < 4096 →
      capGeneration t d = (capGeneration s d + 2 - capGeneration s d % 2) % 2 ^ 32 := by
  refine ⟨_, execModuleReset_eq s, ?_, ?_, ?_, ?_, ?_, ?_, ?_, ?_, fun a ha => deliverAll_read ha, fun d => capGeneration_moduleReset⟩ <;>
    rw [deliverAll_only] <;> rfl

/-- Settles O56: each event by the lemma of its case above. -/
theorem wipesAndResets : Obligations.WipesAndResets := fun s =>
  ⟨localStoreWipe_wipes s, frameWipe_wipes s, dieMemoryReclaim_reclaims s, contextCreation_creates s,
    fun ctx hlive hjob hended => ⟨_, execContextEnd_ended hlive hjob hended, endContext_same s ctx⟩, dieRetirement_retires s,
    dieHealthyAgain_restores s, functionLevelReset_resets s, moduleReset_resets s⟩

end Sys2Proof.Machine

namespace Sys2Proof.Machine

open Sys2Proof

/-! ## The launch of a context under changes of the state (spec/11_supersteps.md R280, R281) -/

theorem State.modJob_job (s : State) (ctx : Nat) (f : Job → Job) : (s.modJob ctx f).job ctx = (s.job ctx).map f := by
  simp [State.job, State.modJob]

theorem State.modJob_some {s : State} {ctx : Nat} {j : Job} (h : s.job ctx = some j) (f : Job → Job) :
    (s.modJob ctx f).job ctx = some (f j) := by
  rw [State.modJob_job, h, Option.map_some]

theorem State.issued_job (s : State) (ctx : Nat) : s.issued.job ctx = s.job ctx := by
  obtain ⟨⟨-, -, -, hctx, -⟩, -⟩ := s.issued_only
  rw [State.job, hctx]
  rfl

/-- A vote sets one bit of the launch's cause mask and nothing else. -/
theorem State.vote_job {s : State} {ctx : Nat} {j : Job} (h : s.job ctx = some j) (b : Nat) :
    (s.vote ctx b).job ctx = some { j with abortMask := j.abortMask ||| BitVec.ofNat 8 (2 ^ b) } :=
  State.modJob_some h _

/-! ## ABORT (spec/11_supersteps.md R280) -/

/-- What ABORT changes: the issue, its vote and the state of its slot. -/
theorem abort_spec (s : State) {j : Job} (h : s.job s.curCtx = some j) :
    (abort s).th = { s.th with st := .arrived, wait := .none } ∧
    (abort s).job s.curCtx = some { j with abortMask := j.abortMask ||| (if s.th.mode = .u then 1 else 4) } ∧
    (∀ u, u ≠ s.cur → (abort s).thread u = s.thread u) ∧ SameMemory s (abort s) := by
  obtain ⟨⟨-, hothers, -, -, hmem⟩, -⟩ := s.issued_only
  have hvote := State.vote_job ((s.issued_job _).trans h) (if s.th.mode = .u then 0 else 2)
  refine ⟨?_, ?_, fun u hu => ?_, hmem⟩
  · simp only [abort, State.modTh_same, State.vote_th, State.issued_th]
  · refine hvote.trans ?_
    split <;> rfl
  · rw [← hothers u hu]
    exact State.modTh_other _ _ (by rw [← State.issued_cur s] at hu; exact hu)

/-- Settles O11: ABORT is an issue, a vote and the arrival of its slot. -/
theorem abortEndsPart : Obligations.AbortEndsPart := by
  unfold Obligations.AbortEndsPart
  exact fun s j hjob => ⟨abort s, rfl, abort_spec s hjob⟩

end Sys2Proof.Machine

namespace Sys2Proof.Machine

open Sys2Proof

/-! ## SYNC and SYNC.Q (spec/11_supersteps.md R268-R270, R293) -/

/-- The registers that SYNC keeps: those of its mask with every unfilled RAMO register, without g0 and g[d] (R270, R290). -/
def keptRegs (s : State) (d a : BitVec 5) : BitVec 32 :=
  ((s.th.rg a).setWidth 32 ||| s.th.ramo) &&& ~~~(1#32) &&& ~~~(BitVec.ofNat 32 (2 ^ d.toNat))

/-- What a thread that waits for its arrival has captured. -/
def arrivalOf (s : State) (d a b : BitVec 5) (quiet : Bool) : Arrival :=
  { d := d, keep := keptRegs s d a, vote := s.th.rg b, quiet := quiet, pc := s.th.pc, npc := s.npc }

/-- The sequencer closes and the stream waits for its drains. -/
def awaitArrival (s : State) (r : Arrival) : State :=
  (s.issued.modTh (fun th => { th.closeSeq with arr := some r })).park .arrivalDrain

theorem sync_badVote {s : State} {d a b : BitVec 5} (hfull : FullAll s [a, b]) (h : badVote (s.th.rg b) = true) (quiet : Bool) :
    sync d a b quiet s = s.raise 4 (s.th.rg b) false := by
  rw [sync, State.withG_full hfull]
  exact if_pos h

theorem sync_manyKept {s : State} {d a b : BitVec 5} (hfull : FullAll s [a, b]) (h : badVote (s.th.rg b) = false)
    (hkeep : 30 < popcount 32 (keptRegs s d a).toNat) (quiet : Bool) :
    sync d a b quiet s = s.raise 4 (s.th.rg a) false := by
  rw [sync, State.withG_full hfull]
  dsimp only
  unfold keptRegs at hkeep
  rw [h, if_neg Bool.false_ne_true, if_pos hkeep]

theorem sync_waits {s : State} {d a b : BitVec 5} (hfull : FullAll s [a, b]) (h : badVote (s.th.rg b) = false)
    (hkeep : popcount 32 (keptRegs s d a).toNat ≤ 30) (hheld : s.th.heldRec = false)
    (hab : (s.th.rg b).getLsbD 44 = false) (quiet : Bool) :
    sync d a b quiet s = awaitArrival s (arrivalOf s d a b quiet) := by
  rw [sync, State.withG_full hfull]
  dsimp only
  unfold keptRegs at hkeep
  rw [h, if_neg Bool.false_ne_true, if_neg (Nat.not_lt.mpr hkeep), hheld, if_neg Bool.false_ne_true, hab, if_neg Bool.false_ne_true]
  rfl

theorem awaitArrival_spec (s : State) (r : Arrival) : IssueOnly s (awaitArrival s r) ∧
    (awaitArrival s r).th = { s.th.closeSeq with st := .parked, wait := .arrivalDrain, arr := some r } := by
  rw [awaitArrival, State.park]
  refine ⟨(s.issued_only.1.trans (IssueOnly.thread _ _)).trans (IssueOnly.thread _ _), ?_⟩
  simp only [State.modTh_same, State.issued_th]

/-- SYNC and SYNC.Q, by their own words and that of `c.sync` (spec/02_encoding.md R39), are `sync` of their operands. -/
theorem exec_sync {s : State} {i : Instr} {d a b : BitVec 5} {quiet : Bool}
    (h : (i, d, a, b, quiet) ∈ [(Instr.sync d a b, d, a, b, false), (.syncQ d a b, d, a, b, true), (.cSync a, 0, a, 0, false)]) :
    exec i s = .next (sync d a b quiet s) := by
  simp only [List.mem_cons, Prod.mk.injEq, List.not_mem_nil, or_false] at h
  rcases h with ⟨rfl, -, -, -, rfl⟩ | ⟨rfl, -, -, -, rfl⟩ | ⟨rfl, rfl, -, rfl, rfl⟩ <;> rfl

theorem execSsno_writes {s : State} {j : Job} (h : s.job s.curCtx = some j) (d : BitVec 5) : Writes (.ssno d) s d (word j.ssno) := by
  refine ⟨(s.putG d (word j.ssno)).advance, ?_, s.putG_yields d (word j.ssno)⟩
  show execSsno d s = _
  rw [execSsno, h]

/-! ## The arrival of a thread (spec/11_supersteps.md R271, R272, R293) -/

/-- The kept registers are read at once where every register word is sound. -/
theorem readKept_sound {s : State} {t : Nat} (h : (s.thread t).regEcc = []) (r : Arrival) (k : State → State) :
    readKept s t r k = k s := by
  rw [readKept, if_pos]
  simp [Thread.hurt_of_sound h]

/-- An arrived thread: Arrived, or, by SYNC.Q, Zeroing with its record held; its queues are empty. -/
def arrivedThread (r : Arrival) (th : Thread) : Thread :=
  let th := { th with arr := none, wait := .none, q := Vector.replicate 4 [] }
  if r.quiet then { th with st := .zeroing, heldRec := true, startH := th.startNs } else { th with st := .arrived }

theorem arrivedThread_eq (r : Arrival) (th : Thread) : arrivedThread r th =
    { th with st := if r.quiet then .zeroing else .arrived, wait := .none, arr := none, q := Vector.replicate 4 [],
              heldRec := r.quiet || th.heldRec, startH := if r.quiet then th.startNs else th.startH } := by
  cases h : r.quiet <;> simp [arrivedThread, h]

/-- A thread whose record is written arrives: its slot, the results on their way to it, its vote and the trace of it. -/
def arrives (core slot ctx : Nat) (r : Arrival) (s : State) : State :=
  let s := s.modThread (tid core slot) (arrivedThread r)
  let s := if r.quiet then keepResults s core slot else s
  let s := contribute s ctx r.vote r.quiet
  s.trace (dieOf core) ctx 2 (identity s core slot) (word (bit r.quiet * 2 ^ 62 + wfld r.npc 0 48))

theorem execArrive_written {s s' : State} {core slot : Nat} {r : Arrival} (hcore : isControl core = false)
    (harr : (s.thread (tid core slot)).arr = some r) (hmay : mayArrive s core slot = true)
    (hsound : (s.thread (tid core slot)).regEcc = [])
    (hwritten : writeRecord s core slot 0 (recordBytes (s.thread (tid core slot)) r) = .taken s') :
    exec (.arrive core slot) s = .next (arrives core slot (s.thread (tid core slot)).ctx r s') := by
  show Host.Outcome.next _ = _
  dsimp only
  rw [harr]
  dsimp only
  rw [hmay, hcore, readKept_sound hsound, hwritten]
  rfl


/-- Which results are kept changes no launch and no register of a context on a die. -/
theorem keepResults_ctx (s : State) (core slot c : Nat) :
    (keepResults s core slot).ctx c = { s.ctx c with amp := ((keepResults s core slot).ctx c).amp } := by
  rw [keepResults]
  by_cases h : c = (s.thread (tid core slot)).ctx
  · subst h; rw [State.modCtx_same]; rfl
  · rw [State.modCtx_other _ _ h]; rfl


/-- The slot, the launch and the memory that an arrival leaves where nothing is traced. -/
theorem arrives_spec {s : State} {core slot ctx : Nat} {r : Arrival} {j : Job} (hjob : s.job ctx = some j)
    (htrace : (s.dctx (dieOf core) ctx).trEn = 0) :
    (arrives core slot ctx r s).thread (tid core slot) = arrivedThread r (s.thread (tid core slot)) ∧
    (arrives core slot ctx r s).job ctx = some { j with votes := j.votes ++ [r.vote], quiet := j.quiet || r.quiet } ∧
    (∀ u, u ≠ tid core slot → (arrives core slot ctx r s).thread u = s.thread u) ∧ (arrives core slot ctx r s).mem = s.mem := by
  generalize hm : s.modThread (tid core slot) (arrivedThread r) = m
  generalize hk : (if r.quiet then keepResults m core slot else m) = k
  have hkept : k.threads = m.threads ∧ k.mem = m.mem ∧ ∀ c, k.ctx c = { m.ctx c with amp := (k.ctx c).amp } := by
    subst hk
    split
    · exact ⟨rfl, rfl, keepResults_ctx m core slot⟩
    · exact ⟨rfl, rfl, fun _ => rfl⟩
  obtain ⟨hthreads, hmem, hctx⟩ := hkept
  have hkjob : k.job ctx = some j := by
    rw [State.job, hctx, ← hm]
    exact hjob
  have htracing : ((contribute k ctx r.vote r.quiet).dctx (dieOf core) ctx).trEn = 0 := by
    rw [State.dctx, contribute, State.modJob, State.modCtx_same, hctx, ← hm]
    exact htrace
  have heq : arrives core slot ctx r s = contribute k ctx r.vote r.quiet := by
    rw [arrives, hm, hk]
    exact State.trace_off (by rw [htracing]; rfl)
  have hthread (u : Nat) : (arrives core slot ctx r s).thread u = m.thread u := by
    rw [heq, State.thread, State.thread, ← hthreads]
    rfl
  refine ⟨?_, ?_, fun u hu => ?_, ?_⟩
  · rw [hthread, ← hm, State.modThread_same]
  · rw [heq, contribute, State.modJob_some hkjob]
  · rw [hthread, ← hm, State.modThread_other _ _ hu]
  · rw [heq, ← show m.mem = s.mem from hm ▸ rfl, ← hmem]
    rfl

/-- Settles O28: SYNC by the branches of `sync`, SSNO by its register write, ARRIVE by what follows the writing of the record. -/
theorem syncsAndArrivals : Obligations.SyncsAndArrivals := by
  unfold Obligations.SyncsAndArrivals
  refine ⟨?_, fun s d j hjob => execSsno_writes hjob d, ?_⟩
  · intro s i d a b quiet hi hfull
    refine ⟨fun hbad htakes => ?_, fun hvote hkeep htakes => ?_, fun hvote hkeep hheld hab => ?_⟩
    · exact traps_of htakes ((exec_sync hi).trans (congrArg _ (sync_badVote hfull hbad quiet)))
    · exact traps_of htakes ((exec_sync hi).trans (congrArg _ (sync_manyKept hfull hvote hkeep quiet)))
    · exact ⟨_, (exec_sync hi).trans (congrArg _ (sync_waits hfull hvote hkeep hheld hab quiet)), awaitArrival_spec s _⟩
  · intro s core slot r j s' hcore t0 th harr hmay hsound hwritten hjob hth htrace
    obtain ⟨hslot, hrest⟩ := arrives_spec (core := core) (slot := slot) (r := r) hjob htrace
    exact ⟨_, execArrive_written hcore harr hmay hsound hwritten, hslot.trans (hth ▸ arrivedThread_eq r _), hrest⟩

end Sys2Proof.Machine

namespace Sys2Proof.Machine

open Sys2Proof

/-! ## Remote targets (spec/11_supersteps.md R287, R288) -/

/-- Where every part of a target is permitted the check of R288 finds no failure. -/
theorem remote_check_none {s : State} {use : Use} : ∀ {ps : List (Nat × Nat)},
    (∀ p ∈ ps, ∃ q, checkAccess s s.curCore s.curSlot s.th.mode s.curCtx use (p.1 % 2 ^ 64) = .ok q) →
    remote.check use s ps = none
  | [], _ => rfl
  | (a, n) :: ps, h => by
    obtain ⟨q, hq⟩ := h (a, n) List.mem_cons_self
    rw [remote.check, hq]
    exact remote_check_none fun p hp => h p (List.mem_cons_of_mem _ hp)

/-- A remote operation whose target passes goes on with the target's module. -/
theorem remote_passes {s : State} {t w : Word} {n : Nat} {block noLocal : Bool} {loc : Option (Use × Word)} {use : Use}
    (hok : RemoteOk s t w n block use) (hsb : s.th.sb = []) (hloc : ∀ u a, loc = some (u, a) → ownRange s u a n = true)
    (hform : noLocal = true → localForm s t = false) (k : Nat → State → State) :
    remote t w n block noLocal loc use s k = k (remoteModule s w) s := by
  obtain ⟨hword, halign, hparts⟩ := hok
  have hlocal : (noLocal && localForm s t) = false := by
    cases noLocal
    · rfl
    · exact hform rfl
  have hcheck : (if remoteModule s w = s.modnum then remote.check use s (partsOf t.toNat n) else none) = none := by
    split
    · next hm => exact remote_check_none (hparts hm)
    · rfl
  have hdrain : s.withDrain (k (remoteModule s w)) = k (remoteModule s w) s := State.withDrain_empty hsb _
  unfold remote
  rw [hword, if_neg Bool.false_ne_true, if_neg (not_not_intro halign)]
  rcases loc with _ | ⟨u, a⟩
  · simp only [hlocal, hcheck, hdrain, Bool.false_eq_true, if_false]
  · simp only [hloc u a rfl, hlocal, hcheck, hdrain, Bool.false_eq_true, if_true, if_false]

/-! ## GET and GET.B (spec/11_supersteps.md R286, R289, spec/07_local_store.md R185) -/

/-- The record of a GET or GET.B that issues. -/
def issuedGet (s : State) (d : BitVec 5) (t w : Word) (n : Nat) (dest : Option (List (Nat × Nat))) : GetOp :=
  { id := s.opCount + 1, ctx := s.curCtx, core := s.curCore, slot := s.curSlot, d := d.toNat, tmod := remoteModule s w,
    addr := t.toNat, len := n, dest := dest, reply := none, held := false }

theorem execGet_issues {s : State} {d a b : BitVec 5} (hdrained : Drained s) (hfull : FullAll s [a, b])
    (hok : RemoteOk s (s.th.rg a) (s.th.rg b) 8 false .read) :
    exec (.get d a b) s = .next ((({ s with
      gets := s.gets ++ [issuedGet s d (s.th.rg a) (s.th.rg b) 8 none], opCount := s.opCount + 1 } : State).modTh
        (fun th => th.emptyG d)).advance) := by
  obtain ⟨hvector, hsb⟩ := hdrained
  show execGet d a b s = _
  rw [execGet, State.withG_full hfull, State.withVector_free hvector]
  dsimp only
  rw [remote_passes hok (loc := none) hsb (fun _ _ h => by cases h) (fun h => absurd h Bool.false_ne_true)]
  rfl

/-- The parts of a destination in the issuing core's own local store, by location and length. -/
def getParts (s : State) (ps : List (Nat × Nat × Place)) : List (Nat × Nat) := ps.map (fun x => (x.2.2.loc s.curCore, x.2.1))

/-- The pending lines of an operation that will write the given lines. -/
def pendingLines (s : State) (ls : List Nat) : List OwnedLine :=
  ls.map (fun l => { die := s.curDie, ctx := s.curCtx, line := l, op := s.opCount + 1, nxt := false, since := s.opCount + 1 })

/-- What a GET.B adds to the module: its record, its number and its pending lines. -/
def recordGetB (s : State) (d : BitVec 5) (t w : Word) (parts : List (Nat × Nat)) : State :=
  { s with gets := s.gets ++ [issuedGet s d t w (wfld w 48 16) (some parts)], opCount := s.opCount + 1
           owned := s.owned ++ pendingLines s (dedup (parts.map (fun x => lineOf x.1))) }

theorem execGetB_issues {s : State} {d a b : BitVec 5} {ps : List (Nat × Nat × Place)} (hdrained : Drained s)
    (hfull : FullAll s [a, b, d]) (hok : RemoteOk s (s.th.rg a) (s.th.rg b) (wfld (s.th.rg b) 48 16) true .read)
    (hown : ownPlaces s .write (s.th.rg d) (wfld (s.th.rg b) 48 16) = some ps) :
    exec (.getB d a b) s = .next (((recordGetB s d (s.th.rg a) (s.th.rg b) (getParts s ps)).modTh
      (fun th => th.emptyG d)).advance) := by
  obtain ⟨hvector, hsb⟩ := hdrained
  have hloc (u : Use) (x : Word) (h : some (Use.write, s.th.rg d) = some (u, x)) :
      ownRange s u x (wfld (s.th.rg b) 48 16) = true := by
    cases h
    rw [ownRange, hown, Option.isSome_some]
  show execGetB d a b s = _
  rw [execGetB, State.withG_full hfull, State.withVector_free hvector]
  dsimp only
  rw [remote_passes hok hsb hloc (fun h => absurd h Bool.false_ne_true), hown]
  rfl

theorem mem_dedup {a : Nat} : ∀ {l : List Nat}, a ∈ dedup l ↔ a ∈ l
  | [] => Iff.rfl
  | x :: l => by
    rw [dedup, List.mem_cons, List.mem_cons, List.mem_filter, mem_dedup]
    by_cases h : a = x <;> simp [h]

/-- The lines pending for a new GET.B are those that were, and those of its destination. -/
theorem recordGetB_pending (s : State) (d : BitVec 5) (t w : Word) (parts : List (Nat × Nat)) (l : Nat) :
    (∃ o ∈ (recordGetB s d t w parts).owned, o.op = s.opCount + 1 ∧ o.line = l) ↔
      (∃ o ∈ s.owned, o.op = s.opCount + 1 ∧ o.line = l) ∨ l ∈ parts.map (fun x => lineOf x.1) := by
  have hnew : (∃ o ∈ pendingLines s (dedup (parts.map (fun x => lineOf x.1))), o.op = s.opCount + 1 ∧ o.line = l) ↔
      l ∈ parts.map (fun x => lineOf x.1) := by
    rw [← mem_dedup]
    constructor
    · rintro ⟨o, ho, -, rfl⟩
      obtain ⟨m, hm, rfl⟩ := List.mem_map.mp ho
      exact hm
    · exact fun hl => ⟨_, List.mem_map_of_mem hl, rfl, rfl⟩
  rw [← hnew, recordGetB]
  simp only [List.mem_append, or_and_right, exists_or]

/-! ## Staged operations (spec/11_supersteps.md R276, R286, R290, R291) -/

/-- The location that a target reaches: on this module without the own-store and spill forms. -/
def targetLoc (s : State) (m : Nat) (t : Word) : Nat :=
  if m = s.modnum then reached s s.curCore s.curSlot s.curCtx t.toNat else t.toNat

theorem stageOr_staged {s s1 : State} {m n : Nat} {t : Word} (hroom : stageRoom s s.cur n = some s1) (act : StagedAct)
    (k : State → State) :
    let u := if m = s.modnum then s.reach s.cur t else t
    stageOr m t n act s k = k (stage s1 s1.cur m u.toNat (targetLoc s1 m u) act) := by
  intro u
  rw [stageOr]
  dsimp only
  rw [hroom]
  rfl

theorem stage_stagedIn (s : State) (m : Nat) (addr : Word) (loc : Nat) (act : StagedAct) :
    StagedIn s (stage s s.cur m addr.toNat loc act) m addr act :=
  ⟨_, rfl, rfl, rfl, rfl, rfl, rfl, rfl, State.setThread_same .., fun _ hx => State.setThread_other _ _ hx⟩

theorem execPut_stages {s s1 : State} {d a b : BitVec 5} (hdrained : Drained s) (hfull : FullAll s [a, b, d])
    (hok : RemoteOk s (s.th.rg a) (s.th.rg b) 8 false .write) (hroom : stageRoom s s.cur 8 = some s1) :
    let m := remoteModule s (s.th.rg b)
    let u := if m = s.modnum then s.reach s.cur (s.th.rg a) else s.th.rg a
    exec (.put d a b) s = .next (stage s1 s1.cur m u.toNat (targetLoc s1 m u) (.write (bytesOf 8 (s.th.rg d).toNat))).advance := by
  intro m u
  obtain ⟨hvector, hsb⟩ := hdrained
  show execPut d a b s = _
  rw [execPut, State.withG_full hfull, State.withVector_free hvector]
  dsimp only
  rw [remote_passes hok (loc := none) hsb (fun _ _ h => by cases h) (fun h => absurd h Bool.false_ne_true), stageOr_staged hroom]

theorem execPutB_stages {s s1 s2 : State} {d a b : BitVec 5} {bs : List Byte} (hdrained : Drained s) (hfull : FullAll s [a, b, d])
    (hok : RemoteOk s (s.th.rg a) (s.th.rg b) (wfld (s.th.rg b) 48 16) true .write)
    (hown : ownRange s .read (s.th.rg d) (wfld (s.th.rg b) 48 16) = true)
    (hbytes : ownBytes s (s.th.rg d).toNat (wfld (s.th.rg b) 48 16) = .bytes s1 bs)
    (hroom : stageRoom s1 s1.cur (wfld (s.th.rg b) 48 16) = some s2) :
    let m := remoteModule s (s.th.rg b)
    let u := if m = s1.modnum then s1.reach s1.cur (s.th.rg a) else s.th.rg a
    exec (.putB d a b) s = .next (stage s2 s2.cur m u.toNat (targetLoc s2 m u) (.write bs)).advance := by
  intro m u
  obtain ⟨hvector, hsb⟩ := hdrained
  have hloc (x : Use) (y : Word) (h : some (Use.read, s.th.rg d) = some (x, y)) :
      ownRange s x y (wfld (s.th.rg b) 48 16) = true := by
    cases h
    exact hown
  show execPutB d a b s = _
  rw [execPutB, State.withG_full hfull, State.withVector_free hvector]
  dsimp only
  rw [remote_passes hok hsb hloc (fun h => absurd h Bool.false_ne_true), hbytes]
  dsimp only
  rw [stageOr_staged hroom]

/-- The destination of a RAMO after its issue: empty, with an unfilled result (R290). -/
def unfilledRamo (d : BitVec 5) (th : Thread) : Thread :=
  if d = 0 then th else { th.emptyG d with ramo := th.ramo ||| BitVec.ofNat 32 (2 ^ d.toNat) }

theorem markRamo_completed (s : State) (d : BitVec 5) : Completed s (markRamo d s).advance (unfilledRamo d s.th) := by
  rw [markRamo, unfilledRamo]
  split
  · exact s.advance_completed
  · exact s.modTh_completed _ (Thread.emptyG_pc ..)

theorem ramo_stages {s s1 : State} {f : Nat} {d a b : BitVec 5} (hdrained : Drained s)
    (hfull : FullAll s ([a, b, d] ++ if f = 9 then [d + 1] else [])) (hok : RemoteOk s (s.th.rg a) (s.th.rg b) 8 false .write)
    (hform : localForm s (s.th.rg a) = false) (hroom : stageRoom s s.cur 8 = some s1) :
    let m := remoteModule s (s.th.rg b)
    let u := if m = s.modnum then s.reach s.cur (s.th.rg a) else s.th.rg a
    ramo f d a b s = (markRamo d (stage s1 s1.cur m u.toNat (targetLoc s1 m u)
      (.ramo f (s.th.rg (if f = 9 then d + 1 else d)) (s.th.rg d) s.curCore s.curSlot d.toNat))).advance := by
  intro m u
  obtain ⟨hvector, hsb⟩ := hdrained
  rw [ramo, State.withG_full hfull, State.withVector_free hvector]
  dsimp only
  rw [remote_passes hok (loc := none) hsb (fun _ _ h => by cases h) (fun _ => hform), stageOr_staged hroom, apply_ite s.th.rg]

/-- The RAMO operations by their words, with the function of Table 8.5. -/
theorem exec_ramo {s : State} {d a b : BitVec 5} {p : Instr × Nat}
    (h : p ∈ [(Instr.ramoAdd d a b, 0), (.ramoAnd d a b, 1), (.ramoOr d a b, 2), (.ramoXor d a b, 3), (.ramoMin d a b, 4),
      (.ramoMax d a b, 5), (.ramoMinu d a b, 6), (.ramoMaxu d a b, 7), (.ramoSwap d a b, 8), (.ramoCas d a b, 9)]) :
    exec p.1 s = .next (ramo p.2 d a b s) := by
  simp only [List.mem_cons, List.not_mem_nil, or_false] at h
  rcases h with rfl | rfl | rfl | rfl | rfl | rfl | rfl | rfl | rfl | rfl <;> rfl

/-- Settles O24: each form by its lemma above, with what staging adds and the completion that follows it. -/
theorem remoteOperationsIssue : Obligations.RemoteOperationsIssue := by
  unfold Obligations.RemoteOperationsIssue
  refine ⟨fun s d a b hdrained => ⟨fun hfull hok => ?_, fun hfull hok ps hown => ?_⟩,
    fun s d a b hdrained => ⟨fun hfull hok s1 hroom => ?_, fun hfull hok hown s1 s2 bs hbytes hroom => ?_,
      fun p hp hfull hok hform s1 hroom => ?_⟩⟩
  · exact ⟨_, _, execGet_issues hdrained hfull hok, State.modTh_completed _ _ (Thread.emptyG_pc ..), rfl⟩
  · refine ⟨_, _, execGetB_issues hdrained hfull hok hown, State.modTh_completed _ _ (Thread.emptyG_pc ..), rfl, fun l => ?_⟩
    have hlines := recordGetB_pending s d (s.th.rg a) (s.th.rg b) (getParts s ps) l
    rw [getParts, List.map_map] at hlines
    exact hlines
  · exact ⟨_, _, execPut_stages hdrained hfull hok hroom, stage_stagedIn s1 _ _ _ _, State.advance_completed _⟩
  · exact ⟨_, _, execPutB_stages hdrained hfull hok hown hbytes hroom, stage_stagedIn s2 _ _ _ _, State.advance_completed _⟩
  · exact ⟨_, _, (exec_ramo hp).trans (congrArg _ (ramo_stages hdrained hfull hok hform hroom)), stage_stagedIn s1 _ _ _ _,
      markRamo_completed _ d⟩

end Sys2Proof.Machine

namespace Sys2Proof.Machine

open Sys2Proof

/-! ## What an operation keeps of every context

The shutter's decisions are read off the registers of a context and its launch.  Most of what a decision does beside them
touches memory, cores, dies and counts; `Keeps π s t` says that it leaves what `π` reads of every context. -/

structure Keeps {α : Type} (π : Ctx → α) (s t : State) : Prop where
  ctx : ∀ c, π (t.ctx c) = π (s.ctx c)

section
variable {α : Type} {π : Ctx → α} {s t u : State}

theorem Keeps.refl (π : Ctx → α) (s : State) : Keeps π s s := ⟨fun _ => rfl⟩

theorem Keeps.trans (h : Keeps π s t) (h' : Keeps π t u) : Keeps π s u := ⟨fun c => (h'.ctx c).trans (h.ctx c)⟩

/-- An operation that touches no context. -/
theorem Keeps.of_ctxs (h : t.ctxs = s.ctxs) : Keeps π s t := ⟨fun c => by rw [State.ctx, State.ctx, h]⟩

/-- What is read of less is kept too. -/
theorem Keeps.map {β : Type} {ρ : Ctx → β} (h : Keeps π s t) (f : α → β) (hf : ∀ c, ρ c = f (π c)) : Keeps ρ s t :=
  ⟨fun c => by rw [hf, hf, h.ctx c]⟩

theorem Keeps.modCtx (s : State) (k : Nat) {f : Ctx → Ctx} (h : ∀ x, π (f x) = π x) : Keeps π s (s.modCtx k f) := by
  refine ⟨fun c => ?_⟩
  by_cases hc : c = k
  · rw [hc, State.modCtx_same, h]
  · rw [State.modCtx_other _ _ hc]

theorem Keeps.modJob (s : State) (k : Nat) {f : Job → Job} (h : ∀ x : Ctx, π { x with job := x.job.map f } = π x) :
    Keeps π s (s.modJob k f) := .modCtx s k h

theorem Keeps.foldl {β : Type} {f : State → β → State} (h : ∀ s b, Keeps π s (f s b)) (l : List β) (s : State) :
    Keeps π s (l.foldl f s) :=
  foldl_keeps (P := Keeps π s) (.refl π s) fun t b ht => ht.trans (h t b)

/-- A fold that carries more than the state. -/
theorem Keeps.foldl_fst {β γ : Type} {f : State × γ → β → State × γ} (h : ∀ p b, Keeps π p.1 (f p b).1) (l : List β)
    (p : State × γ) : Keeps π p.1 (l.foldl f p).1 :=
  foldl_keeps (P := fun q : State × γ => Keeps π p.1 q.1) (.refl π p.1) fun q b hq => hq.trans (h q b)

end

theorem Keeps.modDie {α : Type} (π : Ctx → α) (s : State) (d : Nat) (f : Die → Die) : Keeps π s (s.modDie d f) := .of_ctxs rfl

theorem Keeps.modCore {α : Type} (π : Ctx → α) (s : State) (g : Nat) (f : Core → Core) : Keeps π s (s.modCore g f) := .of_ctxs rfl

theorem Keeps.setThread {α : Type} (π : Ctx → α) (s : State) (x : Nat) (th : Thread) : Keeps π s (s.setThread x th) := .of_ctxs rfl

theorem Keeps.modThread {α : Type} (π : Ctx → α) (s : State) (x : Nat) (f : Thread → Thread) : Keeps π s (s.modThread x f) :=
  .of_ctxs rfl

theorem Keeps.writeWord {α : Type} (π : Ctx → α) (s : State) (a : Nat) (w : Word) : Keeps π s (s.writeWord a w) := .of_ctxs rfl

theorem Keeps.lines {α : Type} (π : Ctx → α) (s : State) (ls : List CLine) : Keeps π s { s with lines := ls } := .of_ctxs rfl

/-! ### Counts, traces and leave: all but the counts and the registers of single dies stays -/

/-- A context without its running counts and its registers on single dies. -/
def Ctx.still (c : Ctx) : Ctx := { c with dies := [], run := [] }

/-- The launch of a context, its result register and the cause of its last abort. -/
def Ctx.standing (c : Ctx) : Word × BitVec 8 × Option Job := (c.ssres, c.lastCause, c.job)

theorem Keeps.standing {s t : State} (h : Keeps Ctx.still s t) : Keeps Ctx.standing s t := h.map Ctx.standing fun _ => rfl

theorem Keeps.job {s t : State} (h : Keeps Ctx.still s t) (ctx : Nat) : t.job ctx = s.job ctx :=
  (h.map Ctx.job fun _ => rfl).ctx ctx

theorem Keeps.count (s : State) (ctx idx n : Nat) : Keeps Ctx.still s (s.count ctx idx n) := .modCtx s ctx fun _ => rfl

theorem Keeps.modDctx (s : State) (die ctx : Nat) (f : DieCtx → DieCtx) : Keeps Ctx.still s (s.modDctx die ctx f) :=
  .modCtx s ctx fun _ => rfl

theorem Keeps.send {α : Type} (π : Ctx → α) (s : State) (m : Nat) (msg : LinkMsg) : Keeps π s (s.send m msg) := by
  unfold State.send State.flit
  exact ite_keeps (.refl π s) (ite_keeps (.refl π s) (.of_ctxs rfl))

theorem Keeps.tellModules {α : Type} (π : Ctx → α) (s : State) (j : Job) (msg : LinkMsg) : Keeps π s (tellModules s j msg) :=
  .foldl (fun s m => .send π s m msg) _ s

theorem Keeps.tellRoot {α : Type} (π : Ctx → α) (s : State) (j : Job) (msg : LinkMsg) : Keeps π s (tellRoot s j msg) :=
  ite_keeps (.refl π s) (.send π s _ msg)

theorem Keeps.landEach {α : Type} {π : Ctx → α} {land : State → Nat → Byte → State} (h : ∀ s a b, Keeps π s (land s a b)) :
    ∀ (bs : List Byte) (s : State) (a : Nat), Keeps π s (landEach land s a bs)
  | [], s, _ => .refl π s
  | b :: bs, s, a => (h s a b).trans (Keeps.landEach h bs _ _)

theorem Keeps.landDieWord {α : Type} (π : Ctx → α) (s : State) (die a : Nat) (w : Word) : Keeps π s (landDieWord s die a w) :=
  .landEach (land := fun s a b => landDie s die a b) (fun _ _ _ => .of_ctxs rfl) _ s a

theorem Keeps.trace (s : State) (die ctx type : Nat) (who : BitVec 32) (p : Word) : Keeps Ctx.still s (s.trace die ctx type who p) := by
  simp only [State.trace]
  generalize s.dctx die ctx = x
  split
  · split
    · exact .modDctx ..
    · exact .trans (.trans (.trans (.trans (.landDieWord ..) (.landDieWord ..)) (.landDieWord ..)) (.landDieWord ..)) (.landDieWord ..)
  · exact .refl _ s

theorem Keeps.requestLeave (s : State) (die ctx cost : Nat) (what : LeaveFor) :
    Keeps Ctx.still s (requestLeave s die ctx cost what).1 := by
  unfold Machine.requestLeave
  dsimp only
  split
  · dsimp only
    exact .modDctx ..
  · exact .of_ctxs rfl

theorem Keeps.returnLeave (s : State) (die ctx cost : Nat) (l : Leave) (what : LeaveFor) :
    Keeps Ctx.still s (returnLeave s die ctx cost l what) := by
  unfold Machine.returnLeave
  split
  · exact .refl _ s
  · exact .of_ctxs rfl
  · exact .of_ctxs rfl
  · exact .modDctx ..

theorem Keeps.askAll (s : State) : Keeps Ctx.still s (askAll s) := by
  refine .foldl (fun s o => ?_) _ s
  rw [askFor]
  exact ite_keeps ((Keeps.requestLeave s ..).trans (.of_ctxs rfl)) (.refl _ s)

/-! ### Damaged words and bytes that land: a vote at most (spec/18_traps.md R445) -/

/-- What a decision settles of a context: the result register, the cause of the last abort and, of the launch, its votes, result,
last outcome and streak. -/
def Ctx.verdict (c : Ctx) : Word × BitVec 8 × Option (List Word × Word × Bool × Nat) :=
  (c.ssres, c.lastCause, c.job.map (fun j => (j.votes, j.result, j.aborted, j.streak)))

theorem Keeps.verdict {s t : State} (h : Keeps Ctx.standing s t) : Keeps Ctx.verdict s t :=
  h.map (fun x => (x.1, x.2.1, x.2.2.map (fun j => (j.votes, j.result, j.aborted, j.streak)))) fun _ => rfl

/-- A change of a launch that keeps its votes, result, last outcome and streak. -/
theorem Keeps.verdict_modJob (s : State) (ctx : Nat) {f : Job → Job}
    (h : ∀ j, ((f j).votes, (f j).result, (f j).aborted, (f j).streak) = (j.votes, j.result, j.aborted, j.streak)) :
    Keeps Ctx.verdict s (s.modJob ctx f) := by
  refine .modJob s ctx fun x => ?_
  rw [Ctx.verdict, Option.map_map]
  exact congrArg (fun g => (x.ssres, x.lastCause, x.job.map g)) (funext h)

theorem Keeps.eccVote (s : State) (die ctx : Nat) : Keeps Ctx.verdict s (eccVote s die ctx) :=
  ite_keeps (.verdict_modJob s ctx fun _ => rfl) (.of_ctxs rfl)

theorem Keeps.lineEcc (s : State) (l : CLine) : Keeps Ctx.verdict s (lineEcc s l).1 := by
  refine .foldl_fst (fun p m => ?_) _ (s, false)
  split
  · exact Keeps.trans (t := p.1.countUnc l.die) (.of_ctxs rfl) (.eccVote ..)
  · exact .of_ctxs rfl

theorem Keeps.writeBack (s : State) (l : CLine) : Keeps Ctx.verdict s (writeBack s l) :=
  (Keeps.lineEcc s l).trans (.of_ctxs rfl)

theorem Keeps.writeBackAll (s : State) (p : CLine → Bool) : Keeps Ctx.verdict s (writeBackAll s p) :=
  .foldl (fun s l => .writeBack s l) _ s

/-- The state that a read of check bits leaves. -/
def EccAnswer.state : EccAnswer → State
  | .clean s => s
  | .uncorrectable s _ => s

theorem Keeps.readEcc (s : State) (die ctx loc : Nat) : Keeps Ctx.verdict s (readEcc s die ctx loc).state := by
  have hvoted (o : Nat) : Keeps Ctx.verdict s (Machine.eccVote (s.countUnc die) die o) := Keeps.trans (t := s.countUnc die) (.of_ctxs rfl) (.eccVote ..)
  rw [Machine.readEcc]
  split
  · exact .refl _ s
  · split
    · exact .of_ctxs rfl
    · dsimp only
      split
      · split
        · exact .of_ctxs rfl
        · exact hvoted _
      · exact hvoted _

theorem Keeps.storeEcc (s : State) (die ctx : Nat) (cells : List (Nat × Byte)) : Keeps Ctx.verdict s (storeEcc s die ctx cells).1 := by
  refine .foldl_fst (fun p dw => ?_) _ (s, cells)
  have hread := Keeps.readEcc p.1 die ctx dw
  split
  · exact .refl _ _
  · split
    · exact .of_ctxs rfl
    · split
      · next h => rw [h] at hread; exact hread
      · next h => rw [h] at hread; exact hread

theorem Keeps.landEcc (s : State) (ctx : Nat) (dies : List Nat) (cells : List (Nat × Byte)) :
    Keeps Ctx.verdict s (landEcc s ctx dies cells).1 :=
  .foldl_fst (fun p d => .storeEcc p.1 d ctx p.2) _ (s, cells)

theorem Keeps.landLocal {α : Type} (π : Ctx → α) (s : State) (core o : Nat) (b : Byte) : Keeps π s (landLocal s core o b) := by
  rw [Machine.landLocal]
  split <;> exact .of_ctxs rfl

theorem Keeps.landPaged {α : Type} (π : Ctx → α) (s : State) (ctx va phys : Nat) (b : Byte) :
    Keeps π s (landPaged s ctx va phys b) :=
  ite_keeps (.of_ctxs rfl) (.of_ctxs rfl)

theorem Keeps.landDie {α : Type} (π : Ctx → α) (s : State) (die a : Nat) (b : Byte) : Keeps π s (landDie s die a b) :=
  .of_ctxs rfl

theorem Keeps.landLine (s : State) (ctx a : Nat) (cells : List (Nat × Byte)) : Keeps Ctx.verdict s (landLine s ctx a cells) := by
  rw [Machine.landLine]
  split
  · split
    · exact .refl _ s
    · exact ite_keeps (.refl _ s) ((Keeps.landEcc s ..).trans (.foldl (fun s c => .landPaged _ s ..) _ _))
  · split
    · exact (Keeps.landEcc s ..).trans (.foldl (fun s c => .landLocal _ s ..) _ _)
    · exact ite_keeps (.refl _ s) ((Keeps.landEcc s ..).trans (.foldl (fun s c => .landDie _ s ..) _ _))
    · exact .refl _ s

theorem Keeps.landParts (ctx : Nat) : ∀ (ps : List (Nat × Nat)) (bs : List Byte) (s : State),
    Keeps Ctx.verdict s (landParts ctx ps bs s)
  | [], _, s => .refl _ s
  | (_, _) :: ps, _, s => (Keeps.landLine s ..).trans (Keeps.landParts ctx ps _ _)

theorem Keeps.land (s : State) (ctx a : Nat) (bs : List Byte) : Keeps Ctx.verdict s (land s ctx a bs) := .landParts ctx _ bs s

theorem Keeps.landOver (s : State) (ctx a : Nat) (bs : List Byte) : Keeps Ctx.verdict s (landOver s ctx a bs) := by
  have hland := Keeps.land s ctx a bs
  unfold Machine.landOver
  split
  · exact hland
  · exact hland.trans (.of_ctxs rfl)

/-! ### The end of a launch (spec/17_launch.md R426) -/

theorem Keeps.decrementDone (s : State) (ctx : Nat) (a : Word) : Keeps Ctx.verdict s (decrementDone s ctx a) := by
  have hlands (w : Word) : Keeps Ctx.verdict s (landWord s ctx a.toNat w) := .land ..
  unfold Machine.decrementDone
  refine ite_keeps (.refl _ s) ?_
  split
  · exact .refl _ s
  · refine ite_keeps ((hlands _).trans (.lines ..)) ?_
    split
    · exact (hlands _).trans (.writeWord ..)
    · exact ite_keeps (hlands _) ((hlands _).trans (.writeWord ..))
    · exact hlands _

theorem Keeps.finishEnded (s : State) (e : Ended) : Keeps Ctx.verdict s (finishEnded s e) := by
  rw [Machine.finishEnded]
  split
  · exact (Keeps.decrementDone s ..).trans (.landOver ..)
  · exact .decrementDone s ..

theorem Keeps.job_none {s t : State} {ctx : Nat} (h : Keeps Ctx.verdict s t) (hs : s.job ctx = none) : t.job ctx = none := by
  have hmap : (t.job ctx).map _ = (s.job ctx).map _ := congrArg (fun x => x.2.2) (h.ctx ctx)
  rw [hs] at hmap
  exact Option.map_eq_none_iff.mp hmap

/-- What follows the end of a launch in its context: its modules hear of it, and the wipes of its cores are noted or, without cores,
over. -/
def afterEnd (s : State) (j : Job) (ctx state : Nat) (e : Ended) : State :=
  let s := if isRoot s j && decide (state ≠ 3) then tellModules s j (.stop ctx state) else s
  dispatchEvent (if e.cores.isEmpty then finishEnded s e else s.modDie j.die (fun d => { d with ended := d.ended ++ [e] }))
    (fun _ => true)

theorem Keeps.afterEnd (s : State) (j : Job) (ctx state : Nat) (e : Ended) : Keeps Ctx.verdict s (afterEnd s j ctx state e) := by
  have htold : Keeps Ctx.verdict s (if isRoot s j && decide (state ≠ 3) then Machine.tellModules s j (.stop ctx state) else s) :=
    ite_keeps (.tellModules _ s ..) (.refl _ s)
  unfold Machine.afterEnd
  dsimp only
  generalize (if isRoot s j && decide (state ≠ 3) then Machine.tellModules s j (.stop ctx state) else s) = t at htold ⊢
  have hwiped : Keeps Ctx.verdict s (if e.cores.isEmpty then Machine.finishEnded t e
      else t.modDie j.die (fun d => { d with ended := d.ended ++ [e] })) :=
    ite_keeps (htold.trans (.finishEnded t e)) (htold.trans (.of_ctxs rfl))
  exact hwiped.trans (.of_ctxs rfl)

/-- The registers of a context whose launch has ended. -/
def Ctx.ended (state : Nat) (j : Job) (c : Ctx) : Ctx :=
  { c with job := none, armed := none, pendArm := none, pendFree := [], run := [], dbgHlt := false, dbgStep := none,
           dbgNew := none, dbgPend := decide (state = 6) && j.haltReq, placedBy := [], secWords := [] }

/-- The module once a launch that ends has given up its work, its cores and its undo lines; `s` is the module before, `v` the one
whose banks are left. -/
def vacatedLaunch (s v : State) (ctx state : Nat) (j : Job) : State :=
  let u := j.hostWrites.foldl (fun s h => land s ctx h.va.toNat h.data) v
  let u := dropHeld (dropWork u ctx) ctx
  let u := freeUndos (if isHarvest s ctx then u else (jobCores s ctx).foldl leaveCore u) ctx
  if state = 4 then setStatus u j.rctx j.recVa 4 0 j.ssno else if state = 3 then setStatus u j.rctx j.recVa 3 6 0 else u

/-- The note of a launch that has ended, until its wipes are over. -/
def endNote (s : State) (ctx state : Nat) (j : Job) : Ended :=
  { ctx := ctx, cores := if isHarvest s ctx then [] else jobCores s ctx,
    done := if state = 6 ∨ state = 3 then 0 else j.record.getD 13 0,
    status := if state = 4 ∨ state = 3 then none else some (j.rctx, j.recVa, word (state * 2 ^ 60 + j.ssno % 2 ^ 48)) }

/-- A launch ends, or, of a harvest launch whose banks cannot be left yet, it is noted that it shall (R416). -/
theorem closeLaunch_job {s : State} {ctx : Nat} {j : Job} (hjob : s.job ctx = some j) (state : Nat) :
    (closeLaunch s ctx state).job ctx = none ∨ isHarvest s ctx = true ∧
      closeLaunch s ctx state = s.modJob ctx (fun j => { j with phase := .stopping, closing := some state }) := by
  have hended (v : State) (e : Ended) : (afterEnd (v.modCtx ctx (Ctx.ended state j)) j ctx state e).job ctx = none :=
    (Keeps.afterEnd ..).job_none (by rw [State.job, State.modCtx_same]; rfl)
  unfold closeLaunch
  rw [hjob]
  generalize hseats : (if isHarvest s ctx then unseatAll s (jobSlots s ctx) else some s) = seats
  cases seats with
  | none =>
    refine .inr ⟨?_, ?_⟩
    · by_contra hn
      rw [if_neg hn] at hseats
      cases hseats
    · dsimp only
      rw [hseats]
  | some v =>
    refine .inl ?_
    dsimp only
    rw [hseats]
    exact hended (vacatedLaunch s v ctx state j) (endNote s ctx state j)

end Sys2Proof.Machine

namespace Sys2Proof.Machine

open Sys2Proof

/-! ## Requests and messages (spec/11_supersteps.md R283, R298, R299) -/

/-- A message changes the link ports and what has left over them, and nothing else. -/
theorem State.send_only (s : State) (m : Nat) (msg : LinkMsg) :
    s.send m msg = { s with linkOut := (s.send m msg).linkOut, ports := (s.send m msg).ports } := by
  unfold State.send State.flit
  dsimp only
  split
  · rfl
  · split <;> rfl

theorem State.send_linkOut (s : State) (m : Nat) (msg : LinkMsg) : (s.send m msg).linkOut =
    if s.failedModules.contains m = true ∨ (Table.get PortGroup.reset s.ports (torusGroup s.modnum m % 6)).down = true then s.linkOut
    else s.linkOut ++ [(m, msg)] := by
  unfold State.send State.flit
  dsimp only
  split
  · next h => rw [if_pos (.inl h)]
  · next h =>
    split
    · next hd => rw [if_pos (.inr hd)]
    · next hd => rw [if_neg (not_or.mpr ⟨h, hd⟩)]

theorem State.sendAll_only (s : State) (ms : List Nat) (msg : LinkMsg) :
    s.sendAll ms msg = { s with linkOut := (s.sendAll ms msg).linkOut, ports := (s.sendAll ms msg).ports } := by
  refine foldl_keeps (P := fun t : State => t = { s with linkOut := t.linkOut, ports := t.ports }) rfl fun t m ht => ?_
  rw [State.send_only t m msg, ht]

theorem tellModules_threads (s : State) (j : Job) (msg : LinkMsg) : (tellModules s j msg).threads = s.threads := by
  rw [tellModules, State.sendAll_only]

theorem tellModules_job (s : State) (j : Job) (msg : LinkMsg) (ctx : Nat) : (tellModules s j msg).job ctx = s.job ctx :=
  (Keeps.tellModules Ctx.job s j msg).ctx ctx

/-- The root acts on a request at once and tells every module. -/
theorem request_root {s : State} {ctx : Nat} {j : Job} (hjob : s.job ctx = some j) (hroot : isRoot s j = true) (kind : Nat)
    (k : Job → State → State) : request s ctx kind k = tellModules (k j s) j (.request ctx kind) := by
  rw [request, hjob]
  exact if_pos hroot

theorem makeRequest_root {s : State} {ctx : Nat} {j : Job} (hjob : s.job ctx = some j) (hroot : isRoot s j = true) (kind : Nat) :
    makeRequest s ctx kind = tellModules (requestHere ctx kind j s) j (.request ctx kind) :=
  request_root hjob hroot kind (requestHere ctx kind)

/-! ## Where a launch stands after its decision (spec/11_supersteps.md R283, R301, spec/20_accounting.md R469) -/

theorem Keeps.postJobEvent {α : Type} (π : Ctx → α) (s : State) (ctx code bit : Nat) : Keeps π s (postJobEvent s ctx code bit) := by
  unfold Machine.postJobEvent
  split
  · exact .refl π s
  · exact .of_ctxs rfl

/-- A debug halt marks the launch halted; beside the phase of the launch and the register's hlt bit it changes counts and registers
of single dies alone. -/
theorem haltJob_job {s : State} {ctx : Nat} {j : Job} (hjob : s.job ctx = some j) :
    (haltJob s ctx).job ctx = some { j with phase := .halted, haltReq := false, stepped := false } := by
  unfold haltJob
  refine (Keeps.job (.foldl (fun s d => .trace ..) _ _) ctx).trans (State.modJob_some ?_ _)
  rw [State.job, State.modCtx_same]
  exact hjob

/-- After its decision a launch stands in some phase, halted perhaps; it is escalated only after three aborts. -/
theorem nextHold_job {s : State} {ctx : Nat} {j : Job} (hjob : s.job ctx = some j) : ∃ p h st,
    (nextHold s ctx).job ctx = some { j with phase := p, haltReq := h, stepped := st } ∧ (p = .escalated → j.streak = 3) := by
  have henter (p : Phase) : (s.modJob ctx (fun j => { j with phase := p })).job ctx = some { j with phase := p } :=
    State.modJob_some hjob _
  unfold nextHold
  rw [hjob]
  dsimp only
  split
  · exact ⟨_, _, _, henter _, fun h => nomatch h⟩
  · split
    · next hesc =>
      have hstreak : j.streak = 3 := by simp at hesc; exact hesc.2.1
      refine ⟨.escalated, j.haltReq, j.stepped, ?_, fun _ => hstreak⟩
      split
      · exact ((Keeps.postJobEvent Ctx.job ..).ctx ctx).trans (henter _)
      · exact henter _
    · split
      · exact ⟨_, _, _, henter _, fun h => nomatch h⟩
      · split
        · exact ⟨_, _, _, henter _, fun h => nomatch h⟩
        · split
          · exact ⟨_, _, _, haltJob_job hjob, fun h => nomatch h⟩
          · exact ⟨_, _, _, henter _, fun h => nomatch h⟩

/-! ## The shutter control (spec/11_supersteps.md R284, R299-R301) -/

/-- Whether MAXSS expires now: at the root, with a pre-emption pending, for a running superstep that has lasted longer (R300). -/
def maxssEnds (s : State) (j : Job) : Prop :=
  let m := wfld (j.record.getD 12 0) 0 32
  isRoot s j = true ∧ j.pend = true ∧ m ≠ 0 ∧ j.phase = .running ∧ m * 1000 < s.time - j.relTime

theorem execMaxssExpiry_ends {s : State} {ctx : Nat} {j : Job} (hjob : s.job ctx = some j) (h : maxssEnds s j) :
    exec (.maxssExpiry ctx) s = .next (s.vote ctx 6) := by
  obtain ⟨hroot, hpend, hset, hrun, htime⟩ := h
  show execMaxssExpiry ctx s = _
  rw [execMaxssExpiry, hjob]
  dsimp only
  rw [if_pos]
  simp only [hroot, hpend, Bool.true_and, decide_eq_true_eq]
  exact ⟨hset, hrun, htime⟩

theorem execMaxssExpiry_waits {s : State} {ctx : Nat} {j : Job} (hjob : s.job ctx = some j) (h : ¬ maxssEnds s j) :
    exec (.maxssExpiry ctx) s = .next s := by
  show execMaxssExpiry ctx s = _
  rw [execMaxssExpiry, hjob]
  dsimp only
  rw [if_neg]
  intro hends
  simp only [Bool.and_eq_true, decide_eq_true_eq] at hends
  obtain ⟨⟨hroot, hpend⟩, hset, hrun, htime⟩ := hends
  exact h ⟨hroot, hpend, hset, hrun, htime⟩

/-- A request for a pre-emption is noted; a launch that is escalated, or halted before its first step, goes on to its stop. -/
theorem preHere_job {s : State} {ctx : Nat} {j : Job} (hjob : s.job ctx = some j) :
    (preHere ctx j s).job ctx = some { j with pend := true, phase := (
      if j.phase = .escalated ∨ (j.phase = .halted ∧ j.stepped = false) then .stopping else j.phase) } := by
  have hpend : (s.modJob ctx (fun j => { j with pend := true })).job ctx = some { j with pend := true } := State.modJob_some hjob _
  unfold preHere
  by_cases h : j.phase = .escalated ∨ (j.phase = .halted ∧ j.stepped = false)
  · rw [if_pos h, if_pos (by simpa using h)]
    have hstop := State.modJob_some hpend (fun j => { j with phase := .stopping })
    rw [State.job, State.modCtx_same]
    exact hstop
  · rw [if_neg h, if_neg (by simpa using h)]
    exact hpend

theorem preHere_threads (s : State) (ctx : Nat) (j : Job) : (preHere ctx j s).threads = s.threads := by
  unfold preHere
  dsimp only
  split <;> rfl

theorem execSsctlPre_root {s : State} {ctx : Nat} {j : Job} (hjob : s.job ctx = some j) (hroot : isRoot s j = true) :
    ∃ t, exec (.ssctlPre ctx) s = .next t ∧ t.threads = s.threads ∧ t.job ctx = some { j with pend := true, phase := (
      if j.phase = .escalated ∨ (j.phase = .halted ∧ j.stepped = false) then .stopping else j.phase) } :=
  ⟨_, congrArg Host.Outcome.next (makeRequest_root hjob hroot 0), (tellModules_threads ..).trans (preHere_threads ..),
    (tellModules_job ..).trans (preHere_job hjob)⟩

theorem execDbgctlHalt_root {s : State} {ctx : Nat} {j : Job} (hjob : s.job ctx = some j) (hroot : isRoot s j = true) :
    ∃ t, exec (.dbgctlHalt ctx) s = .next t ∧ t.threads = s.threads ∧ t.job ctx = some { j with haltReq := true } :=
  ⟨_, congrArg Host.Outcome.next (makeRequest_root hjob hroot 1), tellModules_threads ..,
    (tellModules_job ..).trans (State.modJob_some hjob _)⟩

/-- A debug run lets a halted launch go on to its release. -/
theorem runHere_halted {s : State} {ctx : Nat} {j : Job} (hjob : s.job ctx = some j) (hphase : j.phase = .halted) :
    (runHere ctx j s).job ctx = some { j with phase := .decided } ∧ ((runHere ctx j s).ctx ctx).dbgHlt = false ∧
      ((runHere ctx j s).ctx ctx).dbgStep = none := by
  have hctx : (runHere ctx j s).ctx ctx =
      { s.ctx ctx with dbgHlt := false, dbgStep := none, job := (s.job ctx).map (fun j => { j with phase := .decided }) } := by
    unfold runHere
    rw [if_neg (not_not_intro hphase), State.modJob, State.modCtx_same, State.modCtx_same]
    rfl
  rw [State.job, hctx, hjob]
  exact ⟨rfl, rfl, rfl⟩

theorem execDbgctlRun_root {s : State} {ctx : Nat} {j : Job} (hjob : s.job ctx = some j) (hroot : isRoot s j = true)
    (hphase : j.phase = .halted) : ∃ t, exec (.dbgctlRun ctx) s = .next t ∧ t.job ctx = some { j with phase := .decided } ∧
      (t.ctx ctx).dbgHlt = false ∧ (t.ctx ctx).dbgStep = none := by
  obtain ⟨hlaunch, hhlt, hstep⟩ := runHere_halted hjob hphase
  have hctx : (tellModules (runHere ctx j s) j (.request ctx 4)).ctx ctx = (runHere ctx j s).ctx ctx :=
    (Keeps.tellModules id ..).ctx ctx
  exact ⟨_, congrArg Host.Outcome.next (makeRequest_root hjob hroot 4), (tellModules_job ..).trans hlaunch, hctx ▸ hhlt, hctx ▸ hstep⟩

/-- A launch that is not a harvest launch ends when it is closed. -/
theorem closeLaunch_ends {s : State} {ctx : Nat} {j : Job} (hjob : s.job ctx = some j) (hharvest : isHarvest s ctx = false)
    (state : Nat) : (closeLaunch s ctx state).job ctx = none := by
  rcases closeLaunch_job hjob state with hnone | ⟨hh, -⟩
  · exact hnone
  · rw [hharvest] at hh
    cases hh

theorem execSsctlKill_root {s : State} {ctx : Nat} {j : Job} (hjob : s.job ctx = some j) (hroot : isRoot s j = true)
    (hharvest : isHarvest s ctx = false) :
    ∃ t, exec (.ssctlKill ctx) s = .next t ∧ t.job ctx = if j.phase = .escalated then none else some j := by
  refine ⟨_, congrArg Host.Outcome.next (makeRequest_root hjob hroot 2), (tellModules_job ..).trans ?_⟩
  rw [requestHere, hroot]
  by_cases hphase : j.phase = .escalated
  · rw [if_pos hphase, if_pos (by simpa using hphase)]
    exact closeLaunch_ends hjob hharvest 4
  · rw [if_neg hphase, if_neg (by simpa using hphase), hjob]

theorem execSsctlRetry_root {s : State} {ctx : Nat} {j : Job} (hjob : s.job ctx = some j) (hroot : isRoot s j = true)
    (hphase : j.phase = .escalated) :
    ∃ t j', exec (.ssctlRetry ctx) s = .next t ∧ t.job ctx = some j' ∧ j'.streak = 0 ∧ j'.phase ≠ .escalated := by
  obtain ⟨p, h, st, hheld, hesc⟩ := nextHold_job (State.modJob_some hjob (fun j => { j with streak := 0 }))
  have hretried : retryHere ctx j s = nextHold (s.modJob ctx (fun j => { j with streak := 0 })) ctx := if_pos hphase
  rw [← hretried] at hheld
  exact ⟨_, _, congrArg Host.Outcome.next (makeRequest_root hjob hroot 3), (tellModules_job ..).trans hheld, rfl,
    fun hp => nomatch hesc hp⟩

/-- A stop without an image closes the launch, with state 2 or 4 (R301). -/
theorem execPreemptionStop_closes {s : State} {ctx : Nat} {j : Job} (hjob : s.job ctx = some j) (hroot : isRoot s j = true)
    (hphase : j.phase = .stopping) (hclosing : j.closing = none) (hnext : nextLeft s ctx = false)
    (hcomplete : allComplete s j = true) (himage : recImage j.record = 0) :
    ∃ state, exec (.preemptionStop ctx) s = .next (closeLaunch s ctx state) := by
  have hstep : exec (.preemptionStop ctx) s = .next (if j.doomed then closeLaunch s ctx 4
      else if !j.aborted && !j.live && !jobAlive s ctx then closeLaunch s ctx 2 else closeLaunch s ctx 4) := by
    show execPreemptionStop ctx s = _
    simp only [execPreemptionStop, hjob, hphase, hclosing, hnext, hroot, hcomplete, himage, ne_eq, not_true_eq_false, if_true,
      if_false, Bool.false_eq_true, Bool.not_true]
  rw [hstep]
  split
  · exact ⟨4, rfl⟩
  · split
    · exact ⟨2, rfl⟩
    · exact ⟨4, rfl⟩

/-! ## Steps of the debugger (spec/20_accounting.md R470) -/

theorem debugStep_running {s : State} {ctx : Nat} {j : Job} (hjob : s.job ctx = some j) (hphase : j.phase ≠ .halted) :
    exec (.dbgctlStep ctx) s = .next s := by
  show Host.Outcome.next (debugStep s ctx) = _
  unfold debugStep
  rw [hjob]
  dsimp only
  rw [if_pos (by simp [hphase])]

/-- The registers of a step that names no thread of this module: it reports 0. -/
def noStep (s : State) (ctx : Nat) : State := s.modCtx ctx (fun c => { c with dbgSt := 0, dbgNew := none })

theorem noStep_dbgSt (s : State) (ctx : Nat) : ((noStep s ctx).ctx ctx).dbgSt = 0 := by rw [noStep, State.modCtx_same]

theorem noStep_send_linkOut (s : State) (ctx m : Nat) (msg : LinkMsg) :
    ((noStep s ctx).send m msg).linkOut = (s.send m msg).linkOut :=
  (State.send_linkOut ..).trans (State.send_linkOut s m msg).symm

theorem selectedModule_noStep (s : State) (ctx : Nat) (j : Job) : selectedModule (noStep s ctx) ctx j = selectedModule s ctx j := by
  rw [selectedModule, noStep, State.modCtx_same]
  rfl

/-- A step between a halt and its run that names no thread here goes to the module that holds it, if any. -/
theorem debugStep_elsewhere {s : State} {ctx : Nat} {j : Job} (hjob : s.job ctx = some j) (hphase : j.phase = .halted)
    (hstep : (s.ctx ctx).dbgStep = none) (hsel : selected s ctx = none) : debugStep s ctx = match selectedModule s ctx j with
      | some m => (noStep s ctx).send m (.debugStep ctx (s.ctx ctx).dbgsel s.modnum)
      | none => noStep s ctx := by
  have hdbgsel : ((noStep s ctx).ctx ctx).dbgsel = (s.ctx ctx).dbgsel := by rw [noStep, State.modCtx_same]
  unfold debugStep
  rw [hjob]
  dsimp only
  rw [if_neg (by simp [hphase, hstep]), hsel]
  dsimp only
  rw [← noStep, selectedModule_noStep, hdbgsel]
  rfl

theorem threadOf_ctx {s : State} {ctx w x : Nat} (h : threadOf s ctx w = some x) : (s.thread x).ctx = ctx := by
  unfold threadOf at h
  dsimp only at h
  split at h
  · next hc =>
    cases h
    exact hc.2.2.2.2.2
  · cases h

theorem Keeps.ready (s : State) (x : Nat) : Keeps Ctx.still s (s.ready x) := by
  by_cases h : (s.thread x).st = .ready
  · rw [State.ready]
    dsimp only
    rw [if_pos h]
    exact .refl _ s
  · rcases State.ready_cases h with ⟨he, -⟩ | he | ⟨-, hold, die, ctx, who, he⟩ <;> rw [he]
    · exact .of_ctxs rfl
    · exact .of_ctxs rfl
    · have hwoken : Keeps Ctx.still s (wokenState s x) := .of_ctxs rfl
      cases hold with
      | none => exact hwoken.trans (.trace ..)
      | some c => exact (hwoken.trans (.count ..)).trans (.trace ..)

/-- The state in which the selected thread alone may go on. -/
def stepAllowed (s : State) (ctx x : Nat) : State :=
  (s.modCtx ctx (fun c => { c with dbgSt := shownStep s ctx, dbgNew := none })).modCtx ctx (fun c => { c with dbgStep := some x })

theorem stepAllowed_dbgStep (s : State) (ctx x : Nat) : ((stepAllowed s ctx x).ctx ctx).dbgStep = some x := by
  rw [stepAllowed, State.modCtx_same]

/-- In a superstep already begun, a stopped thread that has resumed since the decision becomes Ready. -/
theorem debugStep_resumes {s : State} {ctx x : Nat} {j : Job} (hjob : s.job ctx = some j) (hphase : j.phase = .halted)
    (hstep : (s.ctx ctx).dbgStep = none) (hsel : selected s ctx = some x) (hstepped : j.stepped = true)
    (hbegan : (s.thread x).began = true) (hst : (s.thread x).st = .halted) :
    debugStep s ctx = (stepAllowed s ctx x).ready x ∧ ((stepAllowed s ctx x).ready x).thread x =
      { s.thread x with st := .ready, wait := .none } := by
  have hthread (u : Nat) : (stepAllowed s ctx x).thread u = s.thread u := rfl
  have hbetween : betweenSteps (stepAllowed s ctx x) x = false := by
    have hx : (s.thread x).ctx = ctx := threadOf_ctx hsel
    unfold betweenSteps
    rw [hthread, hx, stepAllowed_dbgStep]
    split <;> simp
  have hready : ((stepAllowed s ctx x).ready x).thread x = { s.thread x with st := .ready, wait := .none } := by
    have hst' : ((stepAllowed s ctx x).thread x).st ≠ .ready := by rw [hthread, hst]; decide
    obtain ⟨-, hspec, -⟩ := State.ready_spec hst'
    rw [hspec, readied, hbetween, hthread]
    rfl
  have hbegin : beginStepped (stepAllowed s ctx x) ctx x j = stepAllowed s ctx x := if_pos hbegan
  have hwoken : (if ((stepAllowed s ctx x).thread x).st = .halted then (stepAllowed s ctx x).ready x else stepAllowed s ctx x) =
      (stepAllowed s ctx x).ready x := if_pos hst
  refine ⟨?_, hready⟩
  unfold debugStep
  rw [hjob]
  dsimp only
  rw [if_neg (by simp [hphase, hstep]), hsel]
  dsimp only
  rw [stepHere, if_pos hstepped]
  unfold step1
  dsimp only
  rw [firstStep, if_pos hstepped, ← stepAllowed, hbegin, hwoken, hready]
  exact if_pos (.inl rfl)

theorem execDbgctlStep_resumes {s : State} {ctx x : Nat} {j : Job} (hjob : s.job ctx = some j) (hphase : j.phase = .halted)
    (hstep : (s.ctx ctx).dbgStep = none) (hsel : selected s ctx = some x) (hstepped : j.stepped = true)
    (hbegan : (s.thread x).began = true) (hst : (s.thread x).st = .halted) :
    ∃ t, exec (.dbgctlStep ctx) s = .next t ∧ (t.ctx ctx).dbgStep = some x ∧ (t.thread x).st = .ready ∧
      (t.thread x).pc = (s.thread x).pc ∧ ∀ u, u ≠ x → t.thread u = s.thread u := by
  obtain ⟨hresumes, hready⟩ := debugStep_resumes hjob hphase hstep hsel hstepped hbegan hst
  have hst' : ((stepAllowed s ctx x).thread x).st ≠ .ready := fun h => nomatch hst.symm.trans h
  obtain ⟨⟨-, hothers, -⟩, -⟩ := State.ready_spec hst'
  have hallowed : Ctx.dbgStep (((stepAllowed s ctx x).ready x).ctx ctx) = _ :=
    ((Keeps.ready (stepAllowed s ctx x) x).map Ctx.dbgStep fun _ => rfl).ctx ctx
  exact ⟨_, congrArg Host.Outcome.next hresumes, hallowed.trans (stepAllowed_dbgStep ..), by rw [hready], by rw [hready], hothers⟩

/-- Settles O53: each control by its lemma above. -/
theorem shutterControls : Obligations.ShutterControls := by
  unfold Obligations.ShutterControls
  intro s ctx j hjob
  refine ⟨fun die hdie => ?_, ⟨fun hends => ?_, fun hends => execMaxssExpiry_waits hjob hends⟩, fun hroot =>
    ⟨execSsctlPre_root hjob hroot, execDbgctlHalt_root hjob hroot, execDbgctlRun_root hjob hroot, execSsctlKill_root hjob hroot,
      execSsctlRetry_root hjob hroot, fun hphase hclosing hnext hcomplete himage hharvest => ?_⟩, debugStep_running hjob,
    fun hphase hstep => ⟨fun hsel hmod => ?_, fun m hsel hmod => ?_, fun x hsel => execDbgctlStep_resumes hjob hphase hstep hsel⟩⟩
  · exact ⟨s.vote ctx 7, congrArg Host.Outcome.next (if_pos hdie), rfl, State.vote_job hjob 7⟩
  · exact ⟨_, execMaxssExpiry_ends hjob hends, State.vote_job hjob 6⟩
  · obtain ⟨state, hstop⟩ := execPreemptionStop_closes hjob hroot hphase hclosing hnext hcomplete himage
    exact ⟨_, hstop, closeLaunch_ends hjob hharvest state⟩
  · refine ⟨noStep s ctx, congrArg Host.Outcome.next ((debugStep_elsewhere hjob hphase hstep hsel).trans ?_), rfl, noStep_dbgSt s ctx⟩
    rw [hmod]
  · have hsent := State.send_only (noStep s ctx) m (.debugStep ctx (s.ctx ctx).dbgsel s.modnum)
    refine ⟨_, congrArg Host.Outcome.next (debugStep_elsewhere hjob hphase hstep hsel), ?_⟩
    rw [hmod]
    dsimp only
    refine ⟨?_, ?_, ?_, ?_⟩
    · rw [State.ctx, hsent]
      exact noStep_dbgSt s ctx
    · exact noStep_send_linkOut ..
    · rw [hsent]; rfl
    · rw [hsent]; rfl

end Sys2Proof.Machine

namespace Sys2Proof.Machine

open Sys2Proof

/-! ## What the root's decision looks at (spec/11_supersteps.md R272, R294) -/

section
variable {f : Job → Job} (s : State) (ctx : Nat)

theorem isHarvest_modJob (hf : ∀ j, (f j).record = j.record) : isHarvest (s.modJob ctx f) ctx = isHarvest s ctx := by
  unfold isHarvest recDw
  rw [State.modJob_job]
  cases s.job ctx with
  | none => rfl
  | some j => simp only [Option.map_some, hf]

/-- A change of the launch that keeps its record changes nothing that a commit waits for. -/
theorem mayCommit_modJob (hf : ∀ j, (f j).record = j.record) (j : Job) : mayCommit (s.modJob ctx f) ctx j = mayCommit s ctx j := by
  have hamp : ((s.modJob ctx f).ctx ctx).amp = (s.ctx ctx).amp := by rw [State.modJob, State.modCtx_same]
  unfold mayCommit localReady
  rw [isHarvest_modJob s ctx hf, hamp]
  rfl

/-- A change of the launch that keeps its host writes changes no granule that a commit will write. -/
theorem granulesReached_modJob (hf : ∀ j, (f j).hostWrites = j.hostWrites) :
    granulesReached (s.modJob ctx f) ctx = granulesReached s ctx := by
  unfold granulesReached
  rw [State.modJob_job]
  cases s.job ctx with
  | none => rfl
  | some j => simp only [Option.map_some, hf]; rfl

end

/-! ## A quiescence sweep (R294) -/

/-- How many sweeps have agreed in succession after one more. -/
def sweptTo (s : State) (ctx : Nat) (j : Job) : Nat :=
  if localReady s ctx j = true ∧ sweepHolds s ctx j = true then
    (if 0 < j.sweeps ∧ j.sweepSent = j.sent + j.received then min 3 (j.sweeps + 1) else 1)
  else 0

/-- A launch once a sweep is counted. -/
def sweptJob (s : State) (ctx : Nat) (j : Job) : State :=
  s.modJob ctx (fun x => { x with sweeps := sweptTo s ctx j, sweepSent := j.sent + j.received })

/-- A sweep is counted; outside the root the third that agrees is reported. -/
theorem sweep_eq {s : State} {ctx : Nat} {j : Job} (hjob : s.job ctx = some j) (hopen : j.open_ = true) :
    ∃ told : Bool, sweep s ctx = if told then tellRoot (sweptJob s ctx j) j (.arrived ctx s.modnum [] false 0 [] true none)
      else sweptJob s ctx j := by
  have hn : (if !localReady s ctx j || !sweepHolds s ctx j then 0
      else if 0 < j.sweeps ∧ j.sweepSent = j.sent + j.received then min 3 (j.sweeps + 1) else 1) = sweptTo s ctx j := by
    unfold sweptTo
    cases localReady s ctx j <;> cases sweepHolds s ctx j <;> simp
  unfold sweep
  rw [hjob]
  dsimp only
  rw [hopen, hn]
  exact ⟨_, rfl⟩

theorem tellRoot_only (s : State) (j : Job) (msg : LinkMsg) :
    tellRoot s j msg = { s with linkOut := (tellRoot s j msg).linkOut, ports := (tellRoot s j msg).ports } := by
  unfold tellRoot
  split
  · rfl
  · exact State.send_only ..

theorem sweep_counts {s : State} {ctx : Nat} {j : Job} (hjob : s.job ctx = some j) (hopen : j.open_ = true) :
    (sweep s ctx).threads = s.threads ∧ (sweep s ctx).mem = s.mem ∧
      (sweep s ctx).job ctx = some { j with sweepSent := j.sent + j.received, sweeps := sweptTo s ctx j } := by
  obtain ⟨told, heq⟩ := sweep_eq hjob hopen
  have hcounted : (sweptJob s ctx j).job ctx = some { j with sweepSent := j.sent + j.received, sweeps := sweptTo s ctx j } :=
    State.modJob_some hjob _
  rw [heq]
  cases told with
  | false => exact ⟨rfl, rfl, hcounted⟩
  | true =>
    have hkept := (Keeps.tellRoot Ctx.job (sweptJob s ctx j) j (.arrived ctx s.modnum [] false 0 [] true none)).ctx ctx
    rw [if_pos rfl]
    refine ⟨?_, ?_, hkept.trans hcounted⟩ <;> rw [tellRoot_only] <;> rfl

/-! ## Outside the root (spec/11_supersteps.md R281) -/

/-- Another module than the root passes its abort votes on. -/
theorem reportArrival_votes {s : State} {ctx : Nat} {j : Job} (hjob : s.job ctx = some j) (hroot : isRoot s j = false)
    (hvotes : j.abortMask ≠ 0) : (reportArrival s ctx j).job ctx = some { j with abortMask := 0 } ∧
      (reportArrival s ctx j).linkOut = (s.send (j.root s) (.vote ctx j.abortMask)).linkOut ∧
      (reportArrival s ctx j).threads = s.threads ∧ (reportArrival s ctx j).mem = s.mem := by
  have htold : tellRoot s j (.vote ctx j.abortMask) = s.send (j.root s) (.vote ctx j.abortMask) :=
    if_neg (by rw [hroot]; decide)
  have honly := State.send_only s (j.root s) (.vote ctx j.abortMask)
  rw [reportArrival, if_pos hvotes, htold]
  refine ⟨State.modJob_some (((Keeps.send Ctx.job s _ _).ctx ctx).trans hjob) _, rfl, ?_, ?_⟩
  · show (s.send (j.root s) (.vote ctx j.abortMask)).threads = _
    rw [honly]
  · show (s.send (j.root s) (.vote ctx j.abortMask)).mem = _
    rw [honly]

/-! ## What follows a decision (spec/11_supersteps.md R283, R295, R301) -/

/-- The cause mask of the votes that stand for a launch, with what its last decision settled. -/
def Ctx.votes (c : Ctx) : (Word × BitVec 8 × Option (List Word × Word × Bool × Nat)) × Option (BitVec 8) :=
  (c.verdict, c.job.map Job.abortMask)

theorem Keeps.votes {s t : State} (h : Keeps Ctx.standing s t) : Keeps Ctx.votes s t :=
  h.map (fun x => ((x.1, x.2.1, x.2.2.map (fun j => (j.votes, j.result, j.aborted, j.streak))), x.2.2.map Job.abortMask)) fun _ => rfl

/-- A change of a launch that keeps its votes and what its last decision settled. -/
theorem Keeps.votes_modJob (s : State) (ctx : Nat) {f : Job → Job}
    (h : ∀ j, (((f j).votes, (f j).result, (f j).aborted, (f j).streak), (f j).abortMask) =
      ((j.votes, j.result, j.aborted, j.streak), j.abortMask)) : Keeps Ctx.votes s (s.modJob ctx f) := by
  refine .modJob s ctx fun x => ?_
  rw [Ctx.votes, Ctx.verdict, Option.map_map, Option.map_map]
  exact congrArg₂ (fun g k => ((x.ssres, x.lastCause, x.job.map g), x.job.map k)) (funext fun j => congrArg Prod.fst (h j))
    (funext fun j => congrArg Prod.snd (h j))

theorem Keeps.haltJob (s : State) (ctx : Nat) : Keeps Ctx.votes s (haltJob s ctx) := by
  unfold Machine.haltJob
  extract_lets u v
  have hu : Keeps Ctx.votes s u := .modCtx s ctx fun _ => rfl
  have hv : Keeps Ctx.votes u v := .votes_modJob u ctx fun _ => rfl
  exact (hu.trans hv).trans (Keeps.standing (.foldl (fun s d => .trace ..) _ v)).votes

theorem Keeps.nextHold (s : State) (ctx : Nat) : Keeps Ctx.votes s (nextHold s ctx) := by
  have henter (p : Phase) : Keeps Ctx.votes s (s.modJob ctx (fun j => { j with phase := p })) := .votes_modJob s ctx fun _ => rfl
  unfold Machine.nextHold
  split
  · exact .refl _ s
  · refine ite_keeps (henter _) (ite_keeps (ite_keeps ((henter _).trans (.postJobEvent ..)) (henter _)) ?_)
    exact ite_keeps (henter _) (ite_keeps (henter _) (ite_keeps (.haltJob s ctx) (henter _)))

theorem Keeps.reportComplete (s : State) (ctx : Nat) : Keeps Ctx.votes s (reportComplete s ctx) := by
  unfold Machine.reportComplete
  split
  · exact .refl _ s
  · exact ite_keeps (.refl _ s) (.tellRoot ..)

/-- A launch that is closed is gone, or stands as it did. -/
theorem closeLaunch_standsOrGone (s : State) (ctx state : Nat) :
    (closeLaunch s ctx state).job ctx = none ∨ ((closeLaunch s ctx state).ctx ctx).votes = (s.ctx ctx).votes := by
  cases hjob : s.job ctx with
  | none =>
    refine .inl ?_
    unfold closeLaunch
    rw [hjob]
    exact hjob
  | some j =>
    refine (closeLaunch_job hjob state).imp id fun ⟨_, heq⟩ => ?_
    have hnoted : Keeps Ctx.votes s (s.modJob ctx (fun j => { j with phase := .stopping, closing := some state })) :=
      .votes_modJob s ctx fun _ => rfl
    rw [heq, hnoted.ctx]

theorem endIfOver_standsOrGone (s : State) (ctx : Nat) :
    (endIfOver s ctx).job ctx = none ∨ ((endIfOver s ctx).ctx ctx).votes = (s.ctx ctx).votes := by
  have hstops : Keeps Ctx.votes s (s.modJob ctx (fun j => { j with phase := .stopping })) := .votes_modJob s ctx fun _ => rfl
  unfold endIfOver
  split
  · next h => exact .inl h
  · split
    · exact .inr rfl
    · split
      · exact .inr (hstops.ctx ctx)
      · exact closeLaunch_standsOrGone ..

/-- After its decision a launch is gone, or its votes stand as the decision has left them. -/
theorem afterDecision_standsOrGone (s : State) (ctx : Nat) :
    (afterDecision s ctx).job ctx = none ∨ ((afterDecision s ctx).ctx ctx).votes = (s.ctx ctx).votes := by
  unfold afterDecision
  split
  · next h => exact .inl h
  · split
    · split
      · exact closeLaunch_standsOrGone ..
      · exact .inr ((Keeps.tellRoot Ctx.votes ..).ctx ctx)
    · refine (endIfOver_standsOrGone ..).imp id fun heq => heq.trans ?_
      exact ((Keeps.nextHold s ctx).trans (.reportComplete ..)).ctx ctx

end Sys2Proof.Machine

namespace Sys2Proof.Machine

open Sys2Proof

/-! ## What carrying out a commit leaves (spec/11_supersteps.md R274, R277) -/

theorem Keeps.applyWbl (s : State) (ctx : Nat) (w : Nat × Nat × Bool) : Keeps Ctx.verdict s (applyWbl s ctx w) := by
  unfold Machine.applyWbl
  exact ite_keeps ((Keeps.writeBackAll s _).trans (.of_ctxs rfl)) (.writeBackAll s _)

theorem Keeps.commitAmp (s : State) (ctx : Nat) : Keeps Ctx.verdict s (commitAmp s ctx) := by
  unfold Machine.commitAmp State.modAmp
  exact .modCtx s ctx fun _ => rfl

theorem Keeps.commitSlots {α : Type} (π : Ctx → α) (s : State) (ctx : Nat) : Keeps π s (commitSlots s ctx) := by
  unfold Machine.commitSlots
  exact .foldl (fun s _ => .modThread π s ..) _ s

theorem Keeps.beginSecure (s : State) (ctx : Nat) : Keeps Ctx.verdict s (beginSecure s ctx) := by
  unfold Machine.beginSecure
  exact (Keeps.writeBackAll s _).trans (.modCtx _ ctx fun _ => rfl)

theorem Keeps.noteTails {α : Type} (π : Ctx → α) (s : State) (die : Nat) : Keeps π s (noteTails s die) := by
  refine .foldl (fun s q => ?_) _ s
  split
  · exact .refl π s
  · exact ite_keeps (.refl π s) (.modDie π s ..)

/-- Nothing of the superstep's votes stays. -/
theorem closeSuperstep_verdict (s : State) (ctx : Nat) : ((closeSuperstep s ctx).ctx ctx).verdict =
    ((s.ctx ctx).ssres, (s.ctx ctx).lastCause, (s.job ctx).map (fun j => ([], j.result, j.aborted, j.streak))) := by
  rw [closeSuperstep, State.modJob, State.modCtx_same, State.modCtx_same, Ctx.verdict, Option.map_map]
  rfl

/-- What a commit settles: the result word in its register and, while the launch stands, in the launch, no votes and no streak. -/
def Committed (result : Word) (c : Ctx) : Prop :=
  c.ssres = result ∧ ∀ j, c.job = some j → j.votes = [] ∧ j.result = result ∧ j.aborted = false ∧ j.streak = 0

/-- What is settled is read off the verdict. -/
theorem committed_iff {result : Word} {c : Ctx} :
    Committed result c ↔ c.verdict.1 = result ∧ ∀ x ∈ c.verdict.2.2, x = ([], result, false, 0) := by
  unfold Committed Ctx.verdict
  cases c.job with
  | none => simp
  | some j => simp

theorem commitJob_committed {s : State} {ctx : Nat} {j : Job} (hjob : s.job ctx = some j) (result : Word) (sums : List Nat)
    (secures : Bool) (arm : Option (Nat × Option Armed)) :
    Committed result ((commitJob s ctx result sums secures arm).ctx ctx) := by
  unfold commitJob
  split
  · next h => rw [h] at hjob; cases hjob
  · extract_lets s1 lost s2 s3 s4 s5 s6 s7 s8 s9 s10 x s11 s12 s13 s14 s15 s16 s17 s18 s19
    have h13 : (s13.ctx ctx).verdict = (result, (s11.ctx ctx).lastCause, (s11.job ctx).map (fun j => (j.votes, result, false, 0))) := by
      rw [show s13 = s12.modJob ctx _ from rfl, State.modJob, State.modCtx_same, show s12 = s11.modCtx ctx _ from rfl,
        State.modCtx_same, Ctx.verdict, Option.map_map]
      rfl
    have h14 : Keeps Ctx.verdict s13 s14 := .foldl (fun s _ => .applyWbl s ..) _ s13
    have h15 : Keeps Ctx.verdict s14 s15 := by
      have hw : Keeps Ctx.verdict s14 (s14.modJob ctx (fun j => { j with wbl := [] })) := .verdict_modJob s14 ctx fun _ => rfl
      have hdue : Keeps Ctx.verdict s14 (nextDue (s14.modJob ctx (fun j => { j with wbl := [] })) ctx) := hw.trans (.of_ctxs rfl)
      exact (hdue.trans (Keeps.askAll _).standing.verdict).trans (.commitAmp ..)
    have h16 : Keeps Ctx.verdict s15 s16 := Keeps.trans (t := commitHeld s15 ctx) (.of_ctxs rfl) (.commitSlots _ _ ctx)
    have h17 : Keeps Ctx.still s16 s17 := .foldl (fun s d => ite_keeps (.refl _ s) (.modDctx s ..)) _ s16
    have h18 : Keeps Ctx.verdict s17 s18 := ite_keeps (.beginSecure s17 ctx) (.refl _ s17)
    have h19 : Keeps Ctx.verdict s18 s19 := .of_ctxs rfl
    have hkept := (((((h14.trans h15).trans h16).trans h17.standing.verdict).trans h18).trans h19).ctx ctx
    rw [h13] at hkept
    generalize hc : closeSuperstep s19 ctx = closed
    have hsecures : Keeps Ctx.verdict closed (closed.modJob ctx (fun j => { j with secures := secures })) :=
      .verdict_modJob closed ctx fun _ => rfl
    have htails := hsecures.trans (.foldl (fun s d => .noteTails _ s d) (List.range numDies) _)
    rw [committed_iff, htails.ctx, ← hc, closeSuperstep_verdict]
    refine ⟨congrArg Prod.fst hkept, fun x hx => ?_⟩
    obtain ⟨k, hk, rfl⟩ := Option.map_eq_some_iff.mp hx
    have hjobs : (s19.job ctx).map _ = (s11.job ctx).map _ := congrArg (fun v => v.2.2) hkept
    rw [hk, Option.map_some] at hjobs
    obtain ⟨m, -, hm⟩ := Option.map_eq_some_iff.mp hjobs.symm
    exact Prod.ext rfl (congrArg Prod.snd hm).symm

/-! ## What carrying out an abort leaves (spec/11_supersteps.md R281-R283) -/

theorem Keeps.modSet (s : State) (ctx : Nat) (f : CounterSet → CounterSet) : Keeps Ctx.standing s (s.modSet ctx f) := by
  unfold State.modSet
  exact .modCtx s ctx fun _ => rfl

theorem Keeps.countCommitted (s : State) (ctx i n : Nat) : Keeps Ctx.standing s (countCommitted s ctx i n) := .modSet ..

theorem Keeps.mergeCounts (s : State) (ctx : Nat) (commit : Bool) : Keeps Ctx.standing s (mergeCounts s ctx commit) := by
  unfold Machine.mergeCounts
  exact Keeps.trans (.foldl (fun s _ => .modSet s ..) _ s) (.modCtx _ ctx fun _ => rfl)

theorem Keeps.lowerReservation (s : State) (die ctx m : Nat) : Keeps Ctx.still s (lowerReservation s die ctx m) := by
  unfold Machine.lowerReservation
  exact (Keeps.modDctx s die ctx _).trans (.modDie _ _ die _)

theorem Keeps.discardWork (s : State) (ctx : Nat) : Keeps Ctx.still s (discardWork s ctx) := by
  unfold Machine.discardWork
  extract_lets mine s1 gone ops s2
  have h1 : Keeps Ctx.still s s1 := .foldl (fun s _ => .returnLeave s ..) _ s
  have h2 : Keeps Ctx.still s1 s2 := .of_ctxs rfl
  refine (h1.trans h2).trans (.foldl (fun s d => ?_) _ s2)
  exact (Keeps.modDie _ s d _).trans (.lowerReservation _ d ctx _)

theorem Keeps.doom (s : State) (ctx die : Nat) : Keeps Ctx.votes s (doom s ctx die) := by
  unfold Machine.doom
  exact Keeps.trans (t := s.countUnc die) (.of_ctxs rfl) (.votes_modJob _ ctx fun _ => rfl)

theorem Keeps.restoreFrom (s : State) (ctx die : Nat) (e : Ecc) {restore : State → State} (h : ∀ s, Keeps Ctx.votes s (restore s)) :
    Keeps Ctx.votes s (restoreFrom s ctx die e restore) := by
  cases e
  · exact h s
  · exact Keeps.trans (t := s.countCor die) (.of_ctxs rfl) (h _)
  · exact .doom s ctx die

theorem Keeps.restoreLine {α : Type} (π : Ctx → α) (s : State) (a : Nat) (v : BitVec 512) : Keeps π s (restoreLine s a v) := .of_ctxs rfl

theorem Keeps.freeWriter {α : Type} (π : Ctx → α) (s : State) (ctx : Nat) (x : Nat × Nat) : Keeps π s (freeWriter s ctx x) := by
  unfold Machine.freeWriter
  exact .modCore π s ..

theorem Keeps.restoreWriter (s : State) (ctx : Nat) (x : Nat × Nat) : Keeps Ctx.votes s (restoreWriter s ctx x) := by
  unfold Machine.restoreWriter
  extract_lets die back pool o at_ s1 s2 s3
  have hback (line : Nat) (v : BitVec 512) (s : State) : Keeps Ctx.votes s (back line v s) := .restoreLine _ s ..
  have h1 : Keeps Ctx.votes s s1 := .foldl (fun s p => .restoreFrom s ctx die _ (hback _ _)) _ s
  have h2 : Keeps Ctx.votes s1 s2 := .foldl (fun r a => ite_keeps (.restoreFrom r ctx die _ (hback _ _)) (.refl _ r)) _ s1
  have h3 : Keeps Ctx.votes s2 s3 := .of_ctxs rfl
  exact ((h1.trans h2).trans h3).trans (.freeWriter _ s3 ctx x)

theorem Keeps.restoreDies (s : State) (ctx : Nat) : Keeps Ctx.votes s (restoreDies s ctx) := by
  unfold Machine.restoreDies
  extract_lets undos s1 s2 mine back
  have h1 : Keeps Ctx.votes s s1 := .foldl (fun s (u : Nat × Undo) => .restoreFrom s ctx u.1 _ fun s => .restoreLine _ s ..) _ s
  have h2 : Keeps Ctx.votes s1 (s2.dropLines mine) := .of_ctxs rfl
  exact (h1.trans h2).trans (.foldl (fun s (l : CLine) => .restoreFrom s ctx l.die _ fun s => .lines _ s _) _ _)

theorem Keeps.endLeave (s : State) (core : Nat) : Keeps Ctx.still s (endLeave s core) := by
  unfold Machine.endLeave
  split
  · exact (Keeps.returnLeave s ..).trans (.modCore ..)
  · exact .refl _ s

theorem Keeps.dropRuns (s : State) (ctx : Nat) : Keeps Ctx.still s (dropRuns s ctx) := by
  unfold Machine.dropRuns
  extract_lets s1
  have h1 : Keeps Ctx.still s s1 := .of_ctxs rfl
  refine h1.trans (.foldl (fun s g => ?_) _ s1)
  split
  · exact .refl _ s
  · exact (Keeps.endLeave s g).trans (.of_ctxs rfl)

theorem Keeps.armRuns (s : State) (ctx : Nat) : Keeps Ctx.still s (armRuns s ctx) := by
  unfold Machine.armRuns
  split
  · exact .refl _ s
  · exact .foldl (fun s g => ite_keeps ((Keeps.requestLeave s ..).trans (.modCore ..)) (.refl _ s)) _ s

theorem Keeps.disarm (s : State) (ctx : Nat) (j : Job) (mask : BitVec 8) : Keeps Ctx.standing s (disarm s ctx j mask) := by
  unfold Machine.disarm
  exact ite_keeps ((Keeps.dropRuns s ctx).standing.trans (.modCtx _ ctx fun _ => rfl)) (.refl _ s)

theorem Keeps.abortTables (s : State) (ctx : Nat) : Keeps Ctx.standing s (abortTables s ctx) := by
  unfold Machine.abortTables
  extract_lets s1 s2 s3
  have h1 : Keeps Ctx.standing s s1 := (Keeps.dropRuns s ctx).standing
  have h2 : Keeps Ctx.standing s1 s2 := .modCtx s1 ctx fun _ => rfl
  have h3 : Keeps Ctx.standing s2 s3 := .foldl (fun s g => .modCore _ s ..) _ s2
  exact ((h1.trans h2).trans h3).trans (Keeps.armRuns s3 ctx).standing

theorem Keeps.abortAmp (s : State) (ctx : Nat) : Keeps Ctx.standing s (abortAmp s ctx) := by
  unfold Machine.abortAmp State.modAmp
  refine Keeps.trans (Keeps.standing (.foldl (fun s e => ?_) _ s)) (.modCtx _ ctx fun _ => rfl)
  exact .foldl (fun s l => .returnLeave s ..) _ s

theorem Keeps.modLeases {α : Type} (π : Ctx → α) (s : State) (ctx : Nat) (f : Lease → Lease) : Keeps π s (s.modLeases ctx f) :=
  .of_ctxs rfl

theorem Keeps.modResidue {α : Type} (π : Ctx → α) (s : State) (ctx : Nat) (f : List (Nat × Bool) → List (Nat × Bool)) :
    Keeps π s (s.modResidue ctx f) := .of_ctxs rfl

theorem Keeps.abortHeld {α : Type} (π : Ctx → α) (s : State) (ctx : Nat) : Keeps π s (abortHeld s ctx) := .of_ctxs rfl

theorem Keeps.abortSlots {α : Type} (π : Ctx → α) (s : State) (ctx : Nat) : Keeps π s (abortSlots s ctx) := by
  unfold Machine.abortSlots
  exact .foldl (fun s x => .setThread π s ..) _ s

/-- What an abort settles: its cause and, while the launch stands, no votes, no cause left over, and the streak that follows. -/
def RolledBack (mask : BitVec 8) (streak : Nat) (c : Ctx) : Prop :=
  c.lastCause = mask ∧ ∀ j, c.job = some j → j.aborted = true ∧ j.abortMask = 0 ∧ j.votes = [] ∧
    j.streak = if mask = 0x40 then streak else min 3 (streak + 1)

/-- A launch whose superstep has closed: its cause mask is as before, and of its votes nothing stays. -/
theorem closeSuperstep_job {s : State} {ctx : Nat} {j : Job} (h : (closeSuperstep s ctx).job ctx = some j) :
    j.votes = [] ∧ ∃ k, s.job ctx = some k ∧ j.abortMask = k.abortMask := by
  rw [closeSuperstep, State.modJob_job, State.job, State.modCtx_same] at h
  obtain ⟨k, hk, rfl⟩ := Option.map_eq_some_iff.mp h
  exact ⟨rfl, k, hk, rfl⟩

theorem closeSuperstep_lastCause (s : State) (ctx : Nat) :
    ((closeSuperstep s ctx).ctx ctx).lastCause = (s.ctx ctx).lastCause := by
  rw [closeSuperstep, State.modJob, State.modCtx_same, State.modCtx_same]

/-- The launch after an abort. -/
def abortedJob (streak : Nat) (result : Word) (j : Job) : Job :=
  { j with phase := .decided, wbl := [], streak := streak, result := result, aborted := true, secures := false, ramoNext := [] }

theorem closeSuperstep_rolledBack {s : State} {ctx streak : Nat} {mask : BitVec 8} (hcause : (s.ctx ctx).lastCause = mask)
    (hmask : ∀ j, s.job ctx = some j → j.abortMask = 0) (p : Nat → Bool) (result : Word) :
    RolledBack mask streak (((closeSuperstep (dispatchEvent s p) ctx).modJob ctx
      (abortedJob (if mask = 0x40 then streak else min 3 (streak + 1)) result)).ctx ctx) := by
  rw [State.modJob, State.modCtx_same]
  refine ⟨(closeSuperstep_lastCause _ ctx).trans hcause, fun j' hj' => ?_⟩
  obtain ⟨c, hc, rfl⟩ := Option.map_eq_some_iff.mp hj'
  obtain ⟨hvotes, k, hk, habort⟩ := closeSuperstep_job hc
  exact ⟨rfl, habort.trans (hmask k hk), hvotes, rfl⟩

/-- Where votes are kept, none stands after that did not before. -/
theorem Keeps.noVote {s t : State} {ctx : Nat} (h : Keeps Ctx.votes s t) (hs : ∀ j, s.job ctx = some j → j.abortMask = 0) :
    ∀ j, t.job ctx = some j → j.abortMask = 0 := fun j hj => by
  have hmask : (t.job ctx).map Job.abortMask = (s.job ctx).map Job.abortMask := congrArg Prod.snd (h.ctx ctx)
  rw [hj, Option.map_some] at hmask
  obtain ⟨k, hk, heq⟩ := Option.map_eq_some_iff.mp hmask.symm
  exact heq.symm.trans (hs k hk)

theorem noVote_cleared (s : State) (ctx : Nat) :
    ∀ j, (s.modJob ctx (fun j => { j with abortMask := 0 })).job ctx = some j → j.abortMask = 0 := fun j hj => by
  rw [State.modJob_job] at hj
  obtain ⟨k, -, rfl⟩ := Option.map_eq_some_iff.mp hj
  rfl

section
variable (s : State) (ctx : Nat) (mask : BitVec 8)

theorem noteCause_lastCause : ((s.modCtx ctx (fun c => { c with lastCause := mask })).ctx ctx).lastCause = mask := by
  rw [State.modCtx_same]

theorem noteCause_job : (s.modCtx ctx (fun c => { c with lastCause := mask })).job ctx = s.job ctx := by
  rw [State.job, State.modCtx_same]
  rfl

end

theorem rollbackJob_rolledBack {s : State} {ctx : Nat} {j : Job} (hjob : s.job ctx = some j) (mask : BitVec 8) :
    RolledBack mask j.streak ((rollbackJob s ctx mask).ctx ctx) := by
  unfold rollbackJob
  split
  · next h => rw [h] at hjob; cases hjob
  next j0 h =>
    obtain rfl : j = j0 := Option.some.inj (hjob.symm.trans h)
    extract_lets s1 s2 s3 s4 s5 s6 streak result s7
    have h2 : Keeps Ctx.votes s1 s2 := (Keeps.discardWork s1 ctx).standing.votes
    have h3 : Keeps Ctx.votes s2 s3 := .foldl (fun s x => .restoreWriter s ctx x) _ s2
    have h4 : Keeps Ctx.votes s3 s4 := ((Keeps.restoreDies s3 ctx).trans (.modLeases _ _ ctx _)).trans (.modResidue _ _ ctx _)
    have h5 : Keeps Ctx.votes s4 s5 := by
      have hunarmed := ((Keeps.disarm s4 ctx j mask).trans (.abortTables _ ctx)).trans (.abortAmp _ ctx)
      exact (hunarmed.votes.trans (.abortHeld _ _ ctx)).trans (.abortSlots _ _ ctx)
    have h6 : Keeps Ctx.votes s5 s6 := ((Keeps.mergeCounts s5 ctx false).trans (.countCommitted _ ctx 51 1)).votes
    have h1 : ∀ k, s1.job ctx = some k → k.abortMask = 0 := noVote_cleared _ ctx
    have hmask := Keeps.noVote ((((h2.trans h3).trans h4).trans h5).trans h6) h1
    have hcause : (s7.ctx ctx).lastCause = mask := noteCause_lastCause ..
    have hsame : s7.job ctx = s6.job ctx := noteCause_job ..
    clear_value s7 result s6
    exact closeSuperstep_rolledBack hcause (hsame ▸ hmask) (fun _ => true) result

end Sys2Proof.Machine

namespace Sys2Proof.Machine

open Sys2Proof

/-! ## The root's decision (spec/11_supersteps.md R272-R277, R281-R283) -/

section
variable {s : State} {ctx : Nat} {j : Job}

theorem execShutterDecision_eq (hjob : s.job ctx = some j) : exec (.shutterDecision ctx) s =
    .next (if !j.open_ then s else if isRoot s j then decideRoot s ctx j else reportArrival s ctx j) := by
  show execShutterDecision ctx s = _
  rw [execShutterDecision, hjob]

theorem sweep_closed (hjob : s.job ctx = some j) (hclosed : j.open_ = false) : sweep s ctx = s := by
  rw [sweep, hjob]
  exact if_pos (by rw [hclosed]; rfl)

/-- What stands after a decision is what carrying it out has left. -/
theorem afterDecision_votes {s : State} {ctx : Nat} {k : Job} (h : (afterDecision s ctx).job ctx = some k) :
    ((afterDecision s ctx).ctx ctx).votes = (s.ctx ctx).votes :=
  (afterDecision_standsOrGone s ctx).resolve_left (by rw [h]; exact Option.some_ne_none k)

theorem RolledBack.of_votes {mask : BitVec 8} {streak : Nat} {c d : Ctx} (h : RolledBack mask streak c) (heq : d.votes = c.votes) :
    RolledBack mask streak d := by
  obtain ⟨hcause, hall⟩ := h
  refine ⟨(congrArg (fun v => v.1.2.1) heq).trans hcause, fun k hk => ?_⟩
  have hverdict : d.job.map _ = c.job.map _ := congrArg (fun v => v.1.2.2) heq
  have hmask : d.job.map Job.abortMask = c.job.map Job.abortMask := congrArg Prod.snd heq
  cases hc : c.job with
  | none => rw [hk, hc] at hmask; cases hmask
  | some m =>
    obtain ⟨haborted, habort, hvotes, hstreak⟩ := hall m hc
    rw [hk, hc, Option.map_some, Option.map_some] at hverdict hmask
    obtain ⟨h1, _, h3, h4⟩ : k.votes = m.votes ∧ k.result = m.result ∧ k.aborted = m.aborted ∧ k.streak = m.streak := by
      simpa using hverdict
    exact ⟨h3.trans haborted, (Option.some.inj hmask).trans habort, h1.trans hvotes, h4.trans hstreak⟩

theorem Committed.of_votes {result : Word} {c d : Ctx} (h : Committed result c) (heq : d.votes = c.votes) : Committed result d := by
  have hverdict : d.verdict = c.verdict := congrArg Prod.fst heq
  rw [committed_iff] at h ⊢
  rwa [hverdict]

/-- A pending vote at the root makes its decision an abort. -/
theorem decideRoot_aborts (hjob : s.job ctx = some j) (hvotes : j.abortMask ≠ 0) {k : Job}
    (hk : (decideRoot s ctx j).job ctx = some k) : RolledBack j.abortMask j.streak ((decideRoot s ctx j).ctx ctx) := by
  revert hk
  unfold decideRoot
  extract_lets halts marked told
  rw [if_pos hvotes]
  intro hk
  have htold : told.job ctx = some { j with haltReq := halts } :=
    ((Keeps.tellModules Ctx.job marked j _).ctx ctx).trans (State.modJob_some hjob _)
  clear_value told
  exact (rollbackJob_rolledBack htold j.abortMask).of_votes (afterDecision_votes hk)

/-- With no vote and somebody still to arrive the root only remembers that it will halt. -/
theorem decideRoot_waits (hvotes : j.abortMask = 0) (hmay : mayCommit s ctx j = false) :
    ∃ h, decideRoot s ctx j = s.modJob ctx (fun j => { j with haltReq := h }) := by
  refine ⟨j.haltReq || (s.ctx ctx).dbgMar || decide (j.phase = .halted), ?_⟩
  rw [decideRoot, if_neg (by simpa using hvotes), mayCommit_modJob s ctx, hmay]
  · rfl
  · exact fun _ => rfl

theorem Keeps.rootSums {α : Type} (π : Ctx → α) (s : State) (ctx : Nat) (j : Job) : Keeps π s (rootSums s ctx j).1 := by
  unfold Machine.rootSums
  extract_lets parts
  split
  · exact .refl π s
  · exact .of_ctxs rfl

theorem Keeps.sendStaged {α : Type} (π : Ctx → α) (s : State) (ctx : Nat) : Keeps π s (sendStaged s ctx) := by
  unfold Machine.sendStaged
  exact .foldl (fun s o => .send π s ..) _ s

/-- With no vote, every participant there and no granule to reclaim the root carries out a commit. -/
theorem decideRoot_commit_eq (hjob : s.job ctx = some j) (hvotes : j.abortMask = 0) (hmay : mayCommit s ctx j = true)
    (hreach : granulesReached s ctx = []) : ∃ t k sums secures arm, t.job ctx = some k ∧
      decideRoot s ctx j = afterDecision (commitJob t ctx (resultWord j.votes j.quiet) sums secures arm) ctx := by
  unfold decideRoot
  extract_lets halts marked _ result
  have hmarked : marked.job ctx = some { j with haltReq := halts } := State.modJob_some hjob _
  have hmay' : mayCommit marked ctx j = true := by
    rw [mayCommit_modJob s ctx, hmay]
    exact fun _ => rfl
  have hreclaimed : reclaimReached marked ctx = some marked := by
    rw [reclaimReached, granulesReached_modJob s ctx, hreach]
    · rfl
    · exact fun _ => rfl
  rw [if_neg (not_not_intro hvotes), if_pos hmay', hreclaimed]
  have hsummed := Keeps.rootSums Ctx.job marked ctx j
  clear_value marked
  dsimp only
  generalize rootSums marked ctx j = summed at hsummed ⊢
  obtain ⟨u, sums⟩ := summed
  have htold (msg : LinkMsg) : (tellModules (sendStaged u ctx) j msg).job ctx = some { j with haltReq := halts } :=
    (((hsummed.trans (.sendStaged _ u ctx)).trans (.tellModules _ _ j msg)).ctx ctx).trans hmarked
  exact ⟨_, _, _, _, _, htold _, rfl⟩

theorem decideRoot_commits (hjob : s.job ctx = some j) (hvotes : j.abortMask = 0) (hmay : mayCommit s ctx j = true)
    (hreach : granulesReached s ctx = []) {k : Job} (hk : (decideRoot s ctx j).job ctx = some k) :
    Committed (resultWord j.votes j.quiet) ((decideRoot s ctx j).ctx ctx) := by
  obtain ⟨t, k', sums, secures, arm, ht, heq⟩ := decideRoot_commit_eq hjob hvotes hmay hreach
  rw [heq] at hk ⊢
  exact (commitJob_committed ht _ sums secures arm).of_votes (afterDecision_votes hk)

end

/-- Settles O52: outside the root votes are passed on (`reportArrival_votes`); the root's decision by its three branches
(`decideRoot_aborts`, `decideRoot_waits`, `decideRoot_commits`), each carried through what the abort or commit does in turn; a sweep by
`sweep_counts`. -/
theorem decisionsTaken : Obligations.DecisionsTaken := by
  unfold Obligations.DecisionsTaken
  intro s ctx j hjob
  have hdecide (hopen : j.open_ = true) (hroot : isRoot s j = true) : exec (.shutterDecision ctx) s = .next (decideRoot s ctx j) := by
    rw [execShutterDecision_eq hjob, hopen, hroot]
    rfl
  refine ⟨fun hclosed => ⟨?_, ?_⟩, fun hopen hroot hvotes => ?_, fun hopen hroot hvotes => ?_, fun hopen hroot hvotes hmay => ?_,
    fun hopen hroot hvotes hmay hreach => ?_, fun hopen => ?_⟩
  · rw [execShutterDecision_eq hjob, hclosed]
    rfl
  · exact congrArg Host.Outcome.next (sweep_closed hjob hclosed)
  · refine ⟨reportArrival s ctx j, ?_, reportArrival_votes hjob hroot hvotes⟩
    rw [execShutterDecision_eq hjob, hopen, hroot]
    rfl
  · refine ⟨_, hdecide hopen hroot, fun k hk => ?_⟩
    obtain ⟨hcause, hall⟩ := decideRoot_aborts hjob hvotes hk
    obtain ⟨haborted, hmask, hnone, hstreak⟩ := hall k hk
    exact ⟨haborted, fun _ => hmask, hnone, hcause, hstreak⟩
  · obtain ⟨h, heq⟩ := decideRoot_waits hvotes hmay
    refine ⟨_, hdecide hopen hroot, ?_⟩
    rw [heq]
    exact ⟨rfl, rfl, h, State.modJob_some hjob _⟩
  · refine ⟨_, hdecide hopen hroot, fun k hk => ?_⟩
    obtain ⟨hresult, hall⟩ := decideRoot_commits hjob hvotes hmay hreach hk
    obtain ⟨hvotes', hword, haborted, hstreak⟩ := hall k hk
    exact ⟨hresult, hword, haborted, hstreak, hvotes'⟩
  · exact ⟨_, rfl, sweep_counts hjob hopen⟩

end Sys2Proof.Machine

namespace Sys2Proof.Machine

open Sys2Proof

/-! ## A thread table that holds a slot twice (spec/11_supersteps.md R278, spec/20_accounting.md R468)

The keys of a thread table rise, but O55 does not ask for it.  Of a slot that stands in the table twice `jobSlots` looks at the second
entry too, and every read finds the first: so the release of one launch lets a halted thread of another context go on.  The record
that this thread's context traces is unversioned and can lie over a continuation record that the release has yet to read.  No run is
known to reach the state below, and what the statement lacks is the hypothesis that the keys rise. -/

/-- The launch of context 1, decided and complete on its only module. -/
def twiceHeldJob : Job := { overlaidJob with phase := .decided }

/-- Slot 0 of core 0 stands in the table for context 2, halted, and again for context 1.  Slot 1 has arrived with a valid record at
PC 0x1000.  Context 2 traces wake events of a core whose spill bank is seated, in a ring whose head lies over that record. -/
def twiceHeld : State :=
  { State.reset with
    mem := [(localAddr 0 0xB901, 0x10), (localAddr 0 0xB908, 1)],
    threads := [(tid 0 0, { Thread.reset with st := .halted, began := true, ctx := 2 }), (tid 0 0, { Thread.reset with st := .idle, ctx := 1 }),
                (tid 0 1, { Thread.reset with st := .arrived, ctx := 1 }), (tid 0 8, { Thread.reset with st := .idle, ctx := 3 })],
    ctxs := [(1, { Ctx.reset with job := some twiceHeldJob }),
             (2, { Ctx.reset with dies := [(0, { DieCtx.zero with trbase := word (localAddr 0 0xB900), trEn := 0x100 })] })] }

theorem twiceHeld_job : twiceHeld.job 1 = some twiceHeldJob := rfl

theorem twiceHeld_untraced (d : Nat) : (twiceHeld.dctx d 1).trEn = 0 := rfl

theorem twiceHeld_record : (0, 1) ∈ jobSlots twiceHeld 1 ∧ (twiceHeld.thread (tid 0 1)).began = false ∧
    recordValid twiceHeld 0 1 = true ∧ word (wfld (twiceHeld.readWord (recordLoc twiceHeld 0 1)) 0 48) = 0x1000 := by
  decide +kernel

theorem twiceHeld_released : ((releaseNow twiceHeld 1).thread (tid 0 1)).pc = 0x1001 := by decide +kernel

/-- Refutes O55: in `twiceHeld` the release first lets slot 0 go on, and its wake event moves the ring's tail on, which is the PC of
the record from which slot 1 starts next. -/
theorem not_releasesAndTime : ¬ Obligations.ReleasesAndTime := by
  unfold Obligations.ReleasesAndTime
  rintro ⟨hrelease, -⟩
  obtain ⟨t, hexec, -, hslots⟩ :=
    (hrelease twiceHeld 1 twiceHeldJob twiceHeld_job).2 rfl (by decide +kernel) (by decide +kernel) rfl rfl twiceHeld_untraced
  obtain rfl : releaseNow twiceHeld 1 = t := by
    injection hexec
  obtain ⟨hmem, hbegan, hvalid, hrecord⟩ := twiceHeld_record
  obtain ⟨-, -, hpc⟩ := hslots 0 1 hmem hbegan hvalid
  rw [twiceHeld_released, hrecord] at hpc
  exact absurd hpc (by decide)

end Sys2Proof.Machine

namespace Sys2Proof.Machine

open Sys2Proof

/-! ## Leave is asked for (spec/21_host.md R478, R480) -/

/-- An operation without what its own requests give it: leave, and the hold of a write. -/
def EngOp.bare (o : EngOp) : EngOp := { o with leave := .none, asked := 0, held := false }

theorem EngOp.eq_of_bare {o o' : EngOp} (h : o'.bare = o.bare) :
    o' = { o with leave := o'.leave, asked := o'.asked, held := o'.held } :=
  congrArg (fun x : EngOp => { x with leave := o'.leave, asked := o'.asked, held := o'.held }) h

/-- The operations of a module, each without what its requests give it. -/
def State.bareEngine (s : State) : List EngOp := s.engine.map EngOp.bare

theorem State.bareEngine_modOp (s : State) (op : Nat) {f : EngOp → EngOp} (hf : ∀ o, (f o).bare = o.bare) :
    (s.modOp op f).bareEngine = s.bareEngine := by
  simp only [State.bareEngine, State.modOp, List.map_map]
  refine List.map_congr_left fun o _ => ?_
  show (if o.op = op then f o else o).bare = o.bare
  split
  · exact hf o
  · rfl

/-- Beside requests for leave and the leave of operations nothing changed. -/
def LeaveOnly (s t : State) : Prop :=
  t = { s with engine := t.engine, dies := t.dies, ctxs := t.ctxs } ∧ t.bareEngine = s.bareEngine

theorem LeaveOnly.trans {s t u : State} (h : LeaveOnly s t) (h' : LeaveOnly t u) : LeaveOnly s u :=
  ⟨by rw [h'.1, h.1], h'.2.trans h.2⟩

theorem LeaveOnly.requestLeave (s : State) (die ctx cost : Nat) (what : LeaveFor) :
    LeaveOnly s (requestLeave s die ctx cost what).1 := by
  unfold Machine.requestLeave
  exact ite_keeps (P := fun p : State × Leave => LeaveOnly s p.1) ⟨rfl, rfl⟩ ⟨rfl, rfl⟩

theorem LeaveOnly.askFor (s : State) (o : EngOp) : LeaveOnly s (askFor s o) := by
  unfold Machine.askFor
  refine ite_keeps (P := LeaveOnly s) ?_ ⟨rfl, rfl⟩
  exact (LeaveOnly.requestLeave s ..).trans ⟨rfl, State.bareEngine_modOp _ _ fun _ => rfl⟩

theorem LeaveOnly.askAll (s : State) : LeaveOnly s (askAll s) :=
  foldl_keeps (P := LeaveOnly s) ⟨rfl, rfl⟩ fun u o h => h.trans (.askFor u o)

theorem LeaveOnly.memory {s t : State} (h : LeaveOnly s t) : SameMemory s t := by
  rw [h.1]
  exact .of_fields rfl rfl rfl

/-! ## An operation of an engine issues (spec/12_matrix.md R312, R317) -/

/-- Of the operations and threads nothing changed but what requests give an operation, and the traps of held writes that the running
thread has still to take. -/
structure Engaged (s t : State) : Prop where
  engine : t.bareEngine = s.bareEngine
  opCount : t.opCount = s.opCount
  npc : t.npc = s.npc
  cur : t.cur = s.cur
  others : ∀ x, x ≠ s.cur → t.thread x = s.thread x
  th : ∃ p, t.th = { s.th with pendVF := p }

theorem Engaged.trans {s t u : State} (h : Engaged s t) (h' : Engaged t u) : Engaged s u where
  engine := h'.engine.trans h.engine
  opCount := h'.opCount.trans h.opCount
  npc := h'.npc.trans h.npc
  cur := h'.cur.trans h.cur
  others x hx := (h'.others x (by rwa [h.cur])).trans (h.others x hx)
  th := by
    obtain ⟨⟨p, hp⟩, q, hq⟩ := And.intro h.th h'.th
    exact ⟨q, by rw [hq, hp]⟩

/-- A change of what neither operations nor threads are. -/
theorem Engaged.of_fields {s t : State} (he : t.engine = s.engine) (ho : t.opCount = s.opCount) (hn : t.npc = s.npc)
    (hc : t.cur = s.cur) (ht : t.threads = s.threads) : Engaged s t := by
  have hthread : ∀ x, t.thread x = s.thread x := fun x => by rw [State.thread, State.thread, ht]
  exact ⟨by rw [State.bareEngine, State.bareEngine, he], ho, hn, hc, fun x _ => hthread x, s.th.pendVF,
    by rw [State.th, hc, hthread]; rfl⟩

theorem Engaged.refl (s : State) : Engaged s s := .of_fields rfl rfl rfl rfl rfl

theorem LeaveOnly.engaged {s t : State} (h : LeaveOnly s t) : Engaged s t := by
  obtain ⟨hfields, hengine⟩ := h
  have hthread : ∀ x, t.thread x = s.thread x := fun x => by rw [hfields]; rfl
  have hcur : t.cur = s.cur := by rw [hfields]
  exact ⟨hengine, by rw [hfields], by rw [hfields], hcur, fun x _ => hthread x, s.th.pendVF,
    by rw [State.th, hcur, hthread]; rfl⟩

theorem SliceOnly.engaged {s t : State} (h : SliceOnly s t) : Engaged s t := by
  unfold SliceOnly at h
  apply Engaged.of_fields <;> rw [h]

theorem enterPlain_th (s : State) (o : EngOp) : (enterPlain s o).th = s.th.emptyG o.d := State.modTh_same ..

theorem enterOp_engaged (s : State) (o : EngOp) : Engaged (enterPlain s o) (enterOp s o) := (LeaveOnly.askAll _).engaged

theorem enterOp_memory (s : State) (o : EngOp) : SameMemory s (enterOp s o) :=
  SameMemory.trans (t := enterPlain s o) (.of_fields rfl rfl rfl) (LeaveOnly.askAll _).memory

/-- An operation that has entered, and engaged what its issue prepares, has issued once the instruction completes. -/
theorem Engaged.entered {s u t : State} {o : EngOp} (h : Engaged (enterPlain u o) t) (hthread : ∀ x, u.thread x = s.thread x)
    (hcur : u.cur = s.cur) (hnpc : u.npc = s.npc) (hengine : u.engine = s.engine) (hop : o.op = s.opCount + 1) :
    Entered s t.advance o ∧ t.advance.th.farSeq = s.th.farSeq := by
  obtain ⟨⟨honly, hothers, -, -, -⟩, hdone⟩ := t.advance_completed
  have hadvanced : t.advance.engine = t.engine ∧ t.advance.opCount = t.opCount := by rw [honly]; exact ⟨rfl, rfl⟩
  have hbare : t.bareEngine = (s.engine ++ [o]).map EngOp.bare := by rw [h.engine, ← hengine]; rfl
  have hth : u.th = s.th := by rw [State.th, hcur, hthread]; rfl
  obtain ⟨p, hp⟩ := h.th
  rw [enterPlain_th, hth] at hp
  rw [hp] at hdone
  refine ⟨⟨?_, ?_, ?_, ?_, fun x hx => ?_⟩, ?_⟩
  · obtain ⟨o', hmem, heq⟩ : ∃ o' ∈ t.engine, o'.bare = o.bare :=
      List.mem_map.1 (show o.bare ∈ t.bareEngine by rw [hbare]; simp)
    exact ⟨o', by rwa [hadvanced.1], EngOp.eq_of_bare heq⟩
  · have hops := congrArg (List.map EngOp.op) hbare
    simp only [State.bareEngine, List.map_map, List.map_append] at hops
    rw [hadvanced.1]
    exact hops
  · rw [hadvanced.2, h.opCount]
    exact hop
  · rw [hdone, h.npc]
    simp only [Thread.emptyG_pc]
    rw [← hnpc]
    rfl
  · have hother : x ≠ (enterPlain u o).cur := by rwa [show (enterPlain u o).cur = s.cur from hcur]
    rw [hothers x (by rwa [h.cur]), h.others x hother, ← hthread]
    exact State.modTh_other _ _ hother
  · rw [hdone]
    exact Thread.emptyG_farSeq ..

/-! ## The lines of a destination are taken (spec/08_die_memory.md R196, R204) -/

theorem copyEcc_only (s : State) (die ctx line : Nat) : EccOnly s (copyEcc s die ctx line).1 := by
  refine foldl_keeps (P := fun x : State × List EccMark => EccOnly s x.1) (.refl s) fun x m h => ?_
  split
  · exact h.trans (EccOnly.trans (t := x.1.countUnc die) rfl (eccVote_only ..))
  · exact h.trans rfl

theorem takeUndo_only {s t : State} {die line n : Nat} (h : takeUndo s die line n = some t) : SliceOnly s t := by
  unfold takeUndo at h
  split at h
  · cases h; exact .refl s
  · split at h
    · cases h; exact .refl s
    · split at h
      · cases h
      · next u hu =>
        cases h
        exact (evictFor_only hu).trans ((copyEcc_only u die _ line).slice.trans rfl)

theorem takePrePaged_only {s t : State} {l : CLine} (h : takePrePaged s l = some t) : SliceOnly s t := by
  unfold takePrePaged at h
  split at h
  · cases h; rfl
  · split at h
    · cases h
    · next u hu =>
      cases h
      exact (evictFor_only hu).trans ((lineEcc_only u l).slice.trans rfl)
  · cases h; exact .refl s

/-- The pre-image of a line outside local store is taken at its slice. -/
theorem enginePre_only {s t : State} {die ctx loc w : Nat} (hloc : isLocalLoc loc = false)
    (h : enginePre s die ctx loc w = .taken t) : SliceOnly s t := by
  unfold enginePre at h
  rw [if_neg (by simp [hloc])] at h
  split at h
  · split at h
    · next hu => cases h; exact takeUndo_only hu
    · cases h
  · split at h
    · cases h
    · split at h
      · next hline =>
        split at h
        · next hpre =>
          cases h
          obtain ⟨l, -, hpre⟩ := Option.bind_eq_some_iff.1 hpre
          exact (needLine_only hline).trans (takePrePaged_only hpre)
        · cases h
      · cases h
      · cases h

theorem keepCounts_only {s t : State} (h : SliceOnly s t) (o : EngOp) : SliceOnly s (keepCounts o s t) := by
  unfold keepCounts
  exact ite_keeps (P := SliceOnly s) (h.trans rfl) h

theorem tid_coreOf_slotOf (t : Nat) : tid (coreOf t) (slotOf t) = t := by
  unfold tid coreOf slotOf
  omega

/-- The operations numbered `op` are of the running thread. -/
def State.runsOp (s : State) (op : Nat) : Prop := ∀ x ∈ s.engine, x.op = op → tid x.core x.slot = s.cur

theorem Engaged.runsOp {s t : State} {op : Nat} (h : Engaged s t) (hrun : s.runsOp op) : t.runsOp op := by
  intro x hx hop
  obtain ⟨y, hy, hbare⟩ : ∃ y ∈ s.engine, y.bare = x.bare :=
    List.mem_map.1 (show x.bare ∈ s.bareEngine by rw [← h.engine]; exact List.mem_map_of_mem hx)
  have hyx := EngOp.eq_of_bare hbare
  have htid := hrun y hy (by rw [hyx]; exact hop)
  rw [hyx] at htid
  rw [h.cur]
  exact htid

/-- A held write is told to its thread. -/
theorem holdWrite_engaged {s : State} {o : EngOp} (h : tid o.core o.slot = s.cur) (loc : Nat) : Engaged s (holdWrite s o loc) := by
  unfold holdWrite
  rw [h]
  refine ite_keeps (P := Engaged s) (.refl s) ⟨State.bareEngine_modOp _ _ fun _ => rfl, rfl, rfl, rfl, fun x hx => ?_, ?_⟩
  · exact State.modThread_other _ _ hx
  · exact ⟨_, State.modThread_same ..⟩

/-- What each act of a chain keeps, the chain keeps. -/
theorem foldl_bind_keeps {α : Type} {P : State → Prop} {act : State → α → Option State}
    (hact : ∀ s x t, P s → act s x = some t → P t) {l : List α} : ∀ {acc : Option State} {t : State}, (∀ s, acc = some s → P s) →
      l.foldl (fun acc x => acc.bind (fun s => act s x)) acc = some t → P t := by
  induction l with
  | nil => exact fun hacc ht => hacc _ ht
  | cons x l ih =>
    refine fun hacc ht => ih (fun u hu => ?_) ht
    obtain ⟨s, hs, hu⟩ := Option.bind_eq_some_iff.1 hu
    exact hact _ _ _ (hacc _ hs) hu

/-- Taking the lines of a destination engages the operation. -/
theorem ownParts_engaged {s t : State} {o : EngOp} {nxt : Bool} {parts : List (Nat × Nat × Place)} (hrun : s.runsOp o.op)
    (h : ownParts s o nxt parts = some t) : Engaged s t := by
  unfold ownParts at h
  refine foldl_bind_keeps (P := Engaged s) (fun u x v hu hv => ?_) (fun u hu => ?_) h
  · dsimp only at hv
    split at hv
    · cases hv; exact hu
    generalize hw : (if (u.owned.any _) = true then u else _ : State) = w at hv
    have hwu : Engaged s w := by
      rw [← hw]
      exact ite_keeps (P := Engaged s) hu (hu.trans (.of_fields rfl rfl rfl rfl rfl))
    split at hv
    · cases hv; exact hwu
    next hlocal =>
    split at hv
    · next hpre =>
      cases hv
      have houtside : isLocalLoc (x.2.2.loc o.core) = false := Bool.eq_false_iff.2 fun h => hlocal (by rw [h, Bool.or_true])
      exact hwu.trans (keepCounts_only (enginePre_only houtside hpre) o).engaged
    · cases hv
    · cases hv
      split
      · next y hy =>
        have hy' := List.find?_some hy
        exact hwu.trans (holdWrite_engaged (hwu.runsOp hrun y (List.mem_of_find?_eq_some hy) (by simpa using hy')) _)
      · exact hwu
  · cases hu; exact .refl s

/-! ## MCFG, MJOB, MDRAIN and MSTAT (spec/12_matrix.md R311-R318, R326, R327) -/

theorem ownerOnly_owner {s : State} (h : s.curSlot < 8) (k : State → State) : ownerOnly s k = k s := if_neg (by omega)

theorem ownerOnly_bank {s : State} (h : 8 ≤ s.curSlot) (k : State → State) : ownerOnly s k = s.raise 4 0 false := if_pos h

/-- A field up to the top of a word is what its value divided by the bits below leaves. -/
theorem wfld_top (w : Word) {lo n : Nat} (h : lo + n = 64) : wfld w lo n = w.toNat / 2 ^ lo := by
  rw [wfld_eq, Nat.mod_eq_of_lt]
  rw [Nat.div_lt_iff_lt_mul (Nat.two_pow_pos lo), ← Nat.pow_add, Nat.add_comm, h]
  exact w.isLt

theorem execMcfg_enters {s : State} {a : BitVec 5} (hdrained : Drained s) (hslot : s.curSlot < 8) (hroom : queueRoom s = true)
    (hfull : FullAll s [a]) (htop : (s.th.rg a).toNat / 2 ^ 21 = 0) (h18 : wfld (s.th.rg a) 18 2 = 0) (h14 : wfld (s.th.rg a) 14 2 = 0)
    (h7 : (s.th.rg a).getLsbD 7 = false) :
    exec (.mcfg a) s = .next (enterOp s (newOp s 0 0 false [] (.mcfg (s.th.rg a)))).advance := by
  have htop' : wfld (s.th.rg a) 21 43 = 0 := by rw [wfld_top _ rfl, htop]
  show execMcfg a s = _
  rw [execMcfg, State.withG_full hfull, ownerOnly_owner hslot]
  dsimp only
  rw [if_neg (by rw [htop', h18, h14, h7]; decide), State.withVector_free hdrained.1, if_neg (by simp [hroom]),
    State.withDrain_empty hdrained.2]

theorem readDesc_of_reads {s u : State} {a : Word} {w : List Word} (h : ReadsDesc s a w u) (k : List Word → State → State) :
    readDesc a 8 s k = k w u := by
  obtain ⟨p, bs, hcheck, hload, rfl⟩ := h
  rw [readDesc, hcheck]
  dsimp only
  rw [hload]

theorem execMjob_enters {s u : State} {d a b : BitVec 5} {w : List Word} (hdrained : Drained s) (hslot : s.curSlot < 8)
    (hroom : queueRoom s = true) (hfull : FullAll s [a, b]) (halign : (s.th.rg a).toNat % 64 = 0)
    (harea : descArea s (s.th.rg a) = true) (htop : (s.th.rg b).toNat / 2 ^ 50 = 0)
    (hnode : nodeRoom s (takesNode (wfld (s.th.rg b) 0 16) (edgePreds (s.th.rg b))) = true)
    (hreads : ReadsDesc s (s.th.rg a) w u) (hjob : badJob u w = false) :
    exec (.mjob d a b) s = .next (enterOp u (newOp u d (wfld (s.th.rg b) 0 16)
      (takesNode (wfld (s.th.rg b) 0 16) (edgePreds (s.th.rg b)))
      (matchPreds u (engineCluster u.curCore) u.curCtx (edgePreds (s.th.rg b))) (.job w))).advance := by
  have htop' : wfld (s.th.rg b) 50 14 = 0 := by rw [wfld_top _ rfl, htop]
  show execMjob d a b s = _
  rw [execMjob, State.withG_full hfull, ownerOnly_owner hslot, State.withVector_free hdrained.1]
  dsimp only
  rw [if_neg (by simp [halign]), if_neg (by simp [harea]), if_neg (by simp [htop']), if_neg (by simp [hroom, hnode]),
    State.withDrain_empty hdrained.2, readDesc_of_reads hreads, if_neg (by simp [hjob])]

/-- The drain that MDRAIN issues, its destination not yet prepared. -/
def drainOp (s : State) (d : BitVec 5) (dst w : Word) : EngOp :=
  let acc := s.accOf s.curCore (wfld w 0 1)
  newOp s d (wfld w 48 16) (decide (wfld w 48 16 ≠ 0)) [] (.drain dst w acc.rows acc.cols)

/-- The same with its destination prepared. -/
def preparedDrain (s : State) (d : BitVec 5) (dst w : Word) (parts : List (Nat × Nat × Place)) : EngOp :=
  { drainOp s d dst w with targets := parts.map (partTarget s.curCore) }

/-- The state in which a drain has entered and taken the lines of its destination; none where one of them must be waited for. -/
def drainEntered (s : State) (d : BitVec 5) (dst w : Word) (parts : List (Nat × Nat × Place)) : Option State :=
  ownParts (enterOp s (preparedDrain s d dst w parts)) (drainOp s d dst w) false parts

/-- MDRAIN with a near destination that passes its checks enters its drain, or waits for a line of it (R204). -/
theorem execMdrain_near {s : State} {d a b : BitVec 5} {parts : List (Nat × Nat × Place)} (hdrained : Drained s)
    (hslot : s.curSlot < 8) (hroom : queueRoom s = true) (hfull : FullAll s [a, b]) (h32 : wfld (s.th.rg b) 32 16 = 0)
    (h8 : wfld (s.th.rg b) 8 8 = 0) (hfmt : wfld (s.th.rg b) 1 3 ≤ 4) (halign : (s.th.rg a).toNat % 8 = 0)
    (hstride : wfld (s.th.rg b) 16 16 % 8 = 0)
    (hwide : (s.accOf s.curCore (wfld (s.th.rg b) 0 1)).cols * drainSize (s.th.rg b) ≤ wfld (s.th.rg b) 16 16)
    (hnode : nodeRoom s (decide (wfld (s.th.rg b) 48 16 ≠ 0)) = true)
    (hcheck : checkParts s s.curCore s.curSlot s.th.mode s.curCtx .write
      ((drainRanges (s.th.rg a) (s.th.rg b) (s.accOf s.curCore (wfld (s.th.rg b) 0 1)).rows
        (s.accOf s.curCore (wfld (s.th.rg b) 0 1)).cols).flatMap (fun r => partsOf r.1 r.2)) [] = .inr parts)
    (hnear : ∀ p ∈ parts, p.2.2.near = true) :
    exec (.mdrain d a b) s = .next (((drainEntered s d (s.th.rg a) (s.th.rg b) parts).map State.advance).getD s) := by
  have hfar : (parts.any fun p => !p.2.2.near) = false := by
    rw [List.any_eq_false]
    exact fun p hp => by simp [hnear p hp]
  show execMdrain d a b s = _
  rw [execMdrain, State.withG_full hfull, ownerOnly_owner hslot, State.withVector_free hdrained.1]
  dsimp only
  rw [if_neg (by simpa [h32, h8] using hfmt), if_neg (by simpa [halign, hstride] using hwide), if_neg (by simpa [hroom] using hnode),
    State.withDrain_empty hdrained.2, hcheck]
  dsimp only
  rw [hfar, if_neg (by simp), if_neg (by simp)]
  show Host.Outcome.next (match drainEntered s d (s.th.rg a) (s.th.rg b) parts with
    | some t => t.advance
    | none => s) = _
  cases drainEntered s d (s.th.rg a) (s.th.rg b) parts <;> rfl

/-- A drain that has entered and taken its lines has issued once the instruction completes. -/
theorem drainEntered_entered {s t : State} {d : BitVec 5} {dst w : Word} {parts : List (Nat × Nat × Place)}
    (hfresh : ∀ x ∈ s.engine, x.op ≠ s.opCount + 1) (h : drainEntered s d dst w parts = some t) :
    Entered s t.advance (preparedDrain s d dst w parts) ∧ t.advance.th.farSeq = s.th.farSeq := by
  have hasked := enterOp_engaged s (preparedDrain s d dst w parts)
  have hrun : (enterPlain s (preparedDrain s d dst w parts)).runsOp (drainOp s d dst w).op := fun x hx hop => by
    rcases List.mem_append.1 hx with hx | hx
    · exact absurd hop (hfresh x hx)
    · rw [List.mem_singleton.1 hx]
      exact tid_coreOf_slotOf s.cur
  exact (hasked.trans (ownParts_engaged (hasked.runsOp hrun) h)).entered (fun _ => rfl) rfl rfl rfl rfl

/-- The word of MSTAT (Table 12.4), from the length of the queue and the two slots. -/
def statWord (n : Nat) (x y : Acc) : Nat :=
  n * 2 ^ 48 + bit y.sat * 2 ^ 41 + bit x.sat * 2 ^ 40 + bit y.clr * 2 ^ 33 + bit x.clr * 2 ^ 32 +
    (bit y.int * 2 ^ 14 + (y.cols - 1) * 2 ^ 8 + (y.rows - 1)) * 2 ^ 16 + (bit x.int * 2 ^ 14 + (x.cols - 1) * 2 ^ 8 + (x.rows - 1))

/-- The length of a core's queue. -/
def queueLength (s : State) (core : Nat) : Nat := (s.engine.filter (fun o => o.queued && decide (o.core = core))).length

theorem execMstat_idle {s : State} {d : BitVec 5} (hslot : s.curSlot < 8)
    (hidle : ∀ o ∈ s.engine, o.queued = true → o.core = s.curCore → o.slot ≠ s.curSlot) :
    exec (.mstat d) s =
      .next (s.putG d (word (statWord (queueLength s s.curCore) (s.accOf s.curCore 0) (s.accOf s.curCore 1)))).advance := by
  have hnone : (s.engine.any fun o => o.queued && decide (o.core = s.curCore ∧ o.slot = s.curSlot)) = false := by
    rw [List.any_eq_false]
    intro o ho
    simpa using hidle o ho
  show execMstat d s = _
  rw [execMstat, if_neg (by omega), hnone, if_neg (by simp)]
  rfl

theorem execMstat_bank {s : State} {d : BitVec 5} (hslot : 8 ≤ s.curSlot) : exec (.mstat d) s = .next (s.putG d 0).advance :=
  congrArg Host.Outcome.next (if_pos hslot)

theorem bit_le (b : Bool) : bit b ≤ 1 := by cases b <;> decide

/-- The word of MSTAT gives the queue's length, and the size, type and flags of each slot. -/
theorem statWord_fields {n : Nat} {x y : Acc} (hn : n ≤ 16) (hx : 1 ≤ x.rows ∧ x.rows ≤ 128 ∧ 1 ≤ x.cols ∧ x.cols ≤ 64)
    (hy : 1 ≤ y.rows ∧ y.rows ≤ 128 ∧ 1 ≤ y.cols ∧ y.cols ≤ 64) :
    let v := word (statWord n x y)
    let slot (i : Nat) (z : Acc) : Prop := wfld v (16 * i) 7 + 1 = z.rows ∧ wfld v (16 * i + 8) 6 + 1 = z.cols ∧
      wfld v (16 * i + 14) 1 = bit z.int ∧ wfld v (32 + i) 1 = bit z.clr ∧ wfld v (40 + i) 1 = bit z.sat
    wfld v 48 16 = n ∧ slot 0 x ∧ slot 1 y := by
  have h1 := bit_le x.int
  have h2 := bit_le x.clr
  have h3 := bit_le x.sat
  have h4 := bit_le y.int
  have h5 := bit_le y.clr
  have h6 := bit_le y.sat
  simp only [wfld_eq, word, statWord, BitVec.toNat_ofNat]
  omega

/-- Settles O34: each command that passes its checks enters one operation by `enterOp`, which asks for leave at most, and MDRAIN
takes the lines of its destination then. -/
theorem matrixCommandsIssue : Obligations.MatrixCommandsIssue := by
  unfold Obligations.MatrixCommandsIssue
  intro s d a b hdrained hfresh
  refine ⟨fun hslot hroom => ⟨?mcfg, ?mjob, ?mdrain⟩, ?mstat, fun hslot => ⟨?statBank, ?traps⟩⟩
  case mcfg =>
    intro hfull htop h18 h14 h7
    exact ⟨_, execMcfg_enters hdrained hslot hroom hfull htop h18 h14 h7,
      ((enterOp_engaged ..).entered (fun _ => rfl) rfl rfl rfl rfl).1, (enterOp_memory ..).trans (advance_memory _)⟩
  case mjob =>
    intro hfull halign harea htop node hnode w u hreads hjob _ hcur hnpc hengine hcount hthread
    have hexec := execMjob_enters (d := d) hdrained hslot hroom hfull halign harea htop hnode hreads hjob
    rw [show u.curCore = s.curCore from congrArg coreOf hcur] at hexec
    exact ⟨_, hexec, (enterOp_memory ..).trans (advance_memory _),
      ((enterOp_engaged ..).entered hthread hcur hnpc hengine (congrArg (· + 1) hcount)).1⟩
  case mdrain =>
    intro hfull dst w acc node h32 h8 hfmt halign hstride hwide hnode parts hcheck hnear o o'
    have hexec := execMdrain_near (d := d) hdrained hslot hroom hfull h32 h8 hfmt halign hstride hwide hnode hcheck hnear
    refine ⟨fun hsome => ?_, fun hnone => ?_⟩
    · obtain ⟨t, ht⟩ := Option.isSome_iff_exists.1 hsome
      have hentered : drainEntered s d dst w parts = some t := ht
      obtain ⟨hissued, hseq⟩ := drainEntered_entered hfresh hentered
      exact ⟨t.advance, by rw [hexec, hentered]; rfl, hseq, hissued⟩
    · have hwaits : drainEntered s d dst w parts = none := hnone
      rw [hexec, hwaits]
      rfl
  case mstat =>
    intro hslot hidle hsize hlen
    obtain ⟨hqueue, h0, h1⟩ := statWord_fields hlen (hsize 0) (hsize 1)
    refine ⟨_, ⟨_, execMstat_idle hslot hidle, s.putG_yields d _⟩, hqueue, fun i hi => ?_⟩
    obtain rfl | rfl : i = 0 ∨ i = 1 := by omega
    · exact h0
    · exact h1
  case statBank => exact ⟨_, execMstat_bank hslot, s.putG_yields d 0⟩
  case traps =>
    intro htakes hfull
    have hfulla : FullAll s [a] :=
      ⟨fun r hr => hfull.1 r (List.mem_append_left [b] hr), fun r hr => hfull.2 r (List.mem_append_left [b] hr)⟩
    refine ⟨traps_of htakes ?_, traps_of htakes ?_, traps_of htakes ?_⟩
    · exact congrArg Host.Outcome.next ((State.withG_full hfulla _).trans (ownerOnly_bank hslot _))
    · exact congrArg Host.Outcome.next ((State.withG_full hfull _).trans (ownerOnly_bank hslot _))
    · exact congrArg Host.Outcome.next ((State.withG_full hfull _).trans (ownerOnly_bank hslot _))

end Sys2Proof.Machine

namespace Sys2Proof.Machine

open Sys2Proof

/-! ## Accumulator slots (spec/12_matrix.md R309, R313) -/

theorem State.accOf_setAcc_same (s : State) (core i : Nat) (x : Acc) : (s.setAcc core i x).accOf core i = x := by
  rw [State.accOf, State.setAcc, State.modCore_same]
  split
  · simp
  · simp

theorem State.accOf_setAcc_other (s : State) (core : Nat) {i : Nat} (hi : i < 2) (x : Acc) :
    (s.setAcc core i x).accOf core (1 - i) = s.accOf core (1 - i) := by
  rw [State.accOf, State.accOf, State.setAcc, State.modCore_same]
  obtain rfl | rfl : i = 0 ∨ i = 1 := by omega
  · simp
  · simp

theorem Acc.configure_spec (x : Acc) (w : Word) :
    (x.configure w).rows = wfld w 0 7 + 1 ∧ (x.configure w).cols = wfld w 8 6 + 1 ∧ (x.configure w).int = w.getLsbD 16 ∧
      if x.rows = wfld w 0 7 + 1 ∧ x.cols = wfld w 8 6 + 1 ∧ x.int = w.getLsbD 16 ∧ w.getLsbD 17 = false then x.configure w = x
      else (x.configure w).sat = false ∧ (x.configure w).clr = true ∧
        ∀ r c, (x.configure w).elem r c = 0 ∧ (x.configure w).twin r c = 0 := by
  by_cases h : x.rows = wfld w 0 7 + 1 ∧ x.cols = wfld w 8 6 + 1 ∧ x.int = w.getLsbD 16 ∧ w.getLsbD 17 = false
  · have hsame : x.configure w = x := if_pos h
    rw [hsame, if_pos h]
    obtain ⟨hrows, hcols, hint, -⟩ := h
    exact ⟨hrows, hcols, hint, rfl⟩
  · have hclear : x.configure w = { x.clear with rows := wfld w 0 7 + 1, cols := wfld w 8 6 + 1, int := w.getLsbD 16, clr := true } :=
      if_neg h
    rw [hclear, if_neg h]
    exact ⟨rfl, rfl, rfl, rfl, rfl, fun _ _ => ⟨rfl, rfl⟩⟩

/-- The entry `o` of a core's queue, a configuration `w`, has taken effect. -/
def configured (s : State) (core : Nat) (o : EngOp) (w : Word) : State :=
  { s.setAcc core (wfld w 20 1) ((s.accOf core (wfld w 20 1)).configure w) with engine := s.engine.filter (fun x => x.op ≠ o.op) }

theorem execMcfgEffect_takes {s : State} {core : Nat} {o : EngOp} {w : Word} (hmem : o ∈ s.engine) (hcore : o.core = core)
    (hkind : o.kind = .mcfg w)
    (holder : ∀ x ∈ s.engine, x.core = core → x.queued = true → x.op ≠ o.op → x.accSlot ≠ wfld w 20 1)
    (honly : ∀ x ∈ s.engine, x.core = core → (∃ w', x.kind = .mcfg w') → x = o) :
    exec (.mcfgEffect core) s = .next (askAll (configured s core o w)) := by
  have hdone : olderDone s o = true := by
    rw [olderDone, Bool.not_eq_true', List.any_eq_false]
    intro x hx
    simp only [Bool.and_eq_true, decide_eq_true_eq, not_and]
    intro hqueued hxcore hslot hop
    refine holder x hx (hxcore.trans hcore) hqueued hop.ne ?_
    rw [hslot, EngOp.accSlot, hkind]
  show execMcfgEffect core s = _
  rw [execMcfgEffect]
  congr 1
  split
  · next hnone =>
    exact absurd (List.find?_eq_none.1 hnone o hmem) (by simp [hcore, hkind, hdone])
  · next x hx =>
    have htest := List.find?_some hx
    rw [Bool.and_eq_true] at htest
    obtain ⟨hxcore, htakes⟩ := htest
    have hxo : x = o := by
      refine honly x (List.mem_of_find?_eq_some hx) (of_decide_eq_true hxcore) ?_
      split at htakes
      · next w' hw' => exact ⟨w', hw'⟩
      · cases htakes
    rw [hxo, hkind]
    rfl

/-! ## What a completion leaves of the slots (spec/12_matrix.md R322) -/

/-- The accumulator slots are as before. -/
structure SameAcc (s t : State) : Prop where
  acc : ∀ c, (t.core c).acc = (s.core c).acc

theorem SameAcc.refl (s : State) : SameAcc s s := ⟨fun _ => rfl⟩

theorem SameAcc.trans {s t u : State} (h : SameAcc s t) (h' : SameAcc t u) : SameAcc s u :=
  ⟨fun c => (h'.acc c).trans (h.acc c)⟩

theorem SameAcc.of_cores {s t : State} (h : t.cores = s.cores) : SameAcc s t := ⟨fun c => by rw [State.core, State.core, h]⟩

theorem SameAcc.accOf {s t : State} (h : SameAcc s t) (core i : Nat) : t.accOf core i = s.accOf core i := by
  rw [State.accOf, State.accOf, h.acc core]

theorem SameAcc.modCore (s : State) (core : Nat) {f : Core → Core} (h : ∀ x, (f x).acc = x.acc) : SameAcc s (s.modCore core f) := by
  refine ⟨fun c => ?_⟩
  by_cases hc : c = core
  · rw [hc, State.modCore_same, h]
  · rw [State.modCore_other _ _ hc]

/-- A step that is taken on a condition only. -/
theorem SameAcc.onlyIf {s t u : State} {c : Prop} [Decidable c] (h : SameAcc s t) (h' : SameAcc t u) :
    SameAcc s (if c then u else t) := ite_keeps (h.trans h') h

theorem SameAcc.unless {s t u : State} {c : Prop} [Decidable c] (h : SameAcc s t) (h' : SameAcc t u) :
    SameAcc s (if c then t else u) := ite_keeps h (h.trans h')

theorem TraceOnly.sameAcc {s t : State} (h : TraceOnly s t) : SameAcc s t := ⟨fun c => by rw [h.core]⟩

theorem LeaveOnly.sameAcc {s t : State} (h : LeaveOnly s t) : SameAcc s t := .of_cores (by rw [h.1])

theorem SameAcc.ready (s : State) (x : Nat) : SameAcc s (s.ready x) := by
  by_cases hst : (s.thread x).st = .ready
  · rw [State.ready]
    dsimp only
    rw [if_pos hst]
    exact .refl s
  · obtain ⟨-, -, hcore, -⟩ := State.ready_spec hst
    refine ⟨fun c => ?_⟩
    rw [hcore, recalledCore]
    split
    · next hc =>
      rw [hc]
      split <;> rfl
    · rfl

theorem SameAcc.wake (s : State) (x : Nat) : SameAcc s (s.wake x) := by
  rw [State.wake]
  dsimp only
  split
  · split
    · exact ite_keeps (P := SameAcc s) (.ready s x) (.refl s)
    · exact ite_keeps (P := SameAcc s) (.ready s x) (.refl s)
    · exact .refl s
  · exact .refl s

theorem SameAcc.wakeWfi (s : State) (x : Nat) : SameAcc s (s.wakeWfi x) := by
  rw [State.wakeWfi]
  refine .onlyIf (.refl s) (SameAcc.trans ?_ (.ready ..))
  exact .of_cores rfl

theorem SameAcc.fillG (s : State) (x : Nat) (r : BitVec 5) (v : Word) : SameAcc s (s.fillG x r v) := by
  rw [State.fillG]
  refine .unless (.refl s) (.onlyIf ?_ ((SameAcc.wake ..).trans (.wakeWfi ..)))
  exact .of_cores rfl

theorem SameAcc.returnLeave (s : State) (die ctx cost : Nat) (l : Leave) (what : LeaveFor) :
    SameAcc s (returnLeave s die ctx cost l what) := by
  cases l <;> exact .of_cores rfl

theorem SameAcc.noteNextFailure (s : State) (o : EngOp) (status detail : Nat) : SameAcc s (noteNextFailure s o status detail) := by
  rw [Machine.noteNextFailure]
  refine SameAcc.trans ?_ (.modCore _ _ fun c => ?_)
  · exact .unless (.refl s) (.of_cores rfl)
  · split <;> rfl

theorem SameAcc.completeOne (s : State) (o : EngOp) (status detail : Nat) : SameAcc s (completeOne s o status detail) := by
  rw [Machine.completeOne]
  refine SameAcc.trans ?_ (State.trace_only ..).sameAcc
  refine .onlyIf (.onlyIf (.unless (SameAcc.trans ?_ (.returnLeave ..)) (.fillG ..)) (.of_cores rfl)) (.noteNextFailure ..)
  exact .of_cores rfl

theorem SameAcc.complete : ∀ (n : Nat) (s : State) (o : EngOp) (status detail : Nat),
    SameAcc s (Machine.complete n s o status detail)
  | 0, s, o, status, detail => .completeOne s o status detail
  | n + 1, s, o, status, detail => by
    rw [Machine.complete]
    refine foldl_keeps (P := SameAcc s) (.completeOne ..) fun t x h => ?_
    split
    · exact h.trans (SameAcc.complete n ..)
    · exact h

theorem SameAcc.completeOp (s : State) (o : EngOp) (status detail : Nat) : SameAcc s (s.complete o status detail) :=
  (SameAcc.complete ..).trans (LeaveOnly.askAll _).sameAcc

end Sys2Proof.Machine

namespace Sys2Proof.Machine

open Sys2Proof

/-! ## Elements of a slot (spec/12_matrix.md R309) -/

/-- A table of elements holds at its key what the positions of that key give. -/
theorem get_accTable {f : Nat × Nat → Nat} {k v : Nat} : ∀ {ps : List (Nat × Nat)}, (∀ q ∈ ps, 64 * q.1 + q.2 = k → f q = v) →
    ((∃ q ∈ ps, 64 * q.1 + q.2 = k) ∨ v = 0) → Table.get 0 (accTable (ps.map (fun q => (q, f q)))) k = v
  | [], _, hv => by
    obtain ⟨q, hq, -⟩ | rfl := hv
    · cases hq
    · rfl
  | q :: ps, hf, hv => by
    have htail : ∀ p ∈ ps, 64 * p.1 + p.2 = k → f p = v := fun p hp => hf p (List.mem_cons_of_mem _ hp)
    rw [List.map_cons, accTable, List.filterMap_cons]
    by_cases hzero : f q = 0
    · rw [if_pos hzero]
      refine get_accTable htail ?_
      obtain ⟨p, hp, hk⟩ | h := hv
      · obtain rfl | hp := List.mem_cons.1 hp
        · exact .inr (by rw [← hf p List.mem_cons_self hk, hzero])
        · exact .inl ⟨p, hp, hk⟩
      · exact .inr h
    · rw [if_neg hzero]
      dsimp only
      rw [Table.get]
      split
      · next hk => exact hf q List.mem_cons_self hk
      · next hk =>
        refine get_accTable htail (hv.imp_left fun ⟨p, hp, hpk⟩ => ?_)
        obtain rfl | hp := List.mem_cons.1 hp
        · exact absurd hpk hk
        · exact ⟨p, hp, hpk⟩

theorem Acc.mem_cells {x : Acc} {p : Nat × Nat} : p ∈ x.cells ↔ p.1 < x.rows ∧ p.2 < x.cols := by
  obtain ⟨r, c⟩ := p
  simp [Acc.cells]

/-- The element at a position of a slot whose table is made of a value for each position. -/
theorem get_accTable_cells {x : Acc} (hcols : x.cols ≤ 64) (f : Nat × Nat → Nat) {r c : Nat} (hr : r < x.rows) (hc : c < x.cols) :
    Table.get 0 (accTable (x.cells.map (fun q => (q, f q)))) (64 * r + c) = f (r, c) := by
  refine get_accTable (fun q hq hk => ?_) (.inl ⟨(r, c), Acc.mem_cells.2 ⟨hr, hc⟩, rfl⟩)
  obtain ⟨-, hq2⟩ := Acc.mem_cells.1 hq
  have hq1 : q.1 = r := by omega
  have hq2 : q.2 = c := by omega
  rw [← hq1, ← hq2]

/-! ## Integer slices (spec/12_matrix.md R305-R307, spec/03_numbers.md R78) -/

theorem sextInt_eq_toInt (x : Nat) : sextInt 32 x = (BitVec.ofNat 32 x).toInt := by
  rw [sextInt, BitVec.toInt_eq_toNat_cond, BitVec.toNat_ofNat]
  omega

theorem toInt_natOfInt {z : Int} (hlo : -2 ^ 31 ≤ z) (hhi : z ≤ 2 ^ 31 - 1) : (BitVec.ofNat 32 (natOfInt 32 z)).toInt = z := by
  rw [BitVec.toInt_eq_toNat_cond, BitVec.toNat_ofNat, natOfInt_eq]
  omega

/-- A slice adds the products of its positions to an element, and the sum saturates. -/
theorem intStep_toInt (c n : Nat) (f g : Nat → Int) :
    (BitVec.ofNat 32 (intStep c (((List.range n).map f).zip ((List.range n).map g))).1).toInt =
      max (-2 ^ 31) (min (2 ^ 31 - 1) ((BitVec.ofNat 32 c).toInt + ((List.range n).map (fun k => f k * g k)).foldl (· + ·) 0)) := by
  have hsum : ∀ (l : List Nat) (z : Int), ((l.map f).zip (l.map g)).foldl (fun acc p => acc + p.1 * p.2) z =
      z + (l.map (fun k => f k * g k)).foldl (· + ·) 0 := fun l z => by
    rw [List.zip_map', ← List.foldl_assoc (op := fun x y : Int => x + y), add_zero, List.foldl_map, List.foldl_map]
  rw [intStep]
  dsimp only
  rw [hsum, sextInt_eq_toInt, satInt_eq (by decide)]
  exact toInt_natOfInt (le_max_left ..) (max_le (by decide) (min_le_left ..))

/-- The doublewords of data, `n` from the `m`-th. -/
theorem elemsWords_slice {data : List Byte} {m n : Nat} (h : (m + n) * 8 ≤ data.length) :
    ((Side.row.elemsWords data).drop m).take n = (List.range n).map (fun k => ofBytes ((data.drop ((m + k) * 8)).take 8)) := by
  refine List.ext_getElem ?_ fun k hk hk' => ?_
  · simp [Side.row.elemsWords]
    omega
  · simp [Side.row.elemsWords, Nat.mul_comm]

theorem Side.row_values {x : Side} {data : List Byte} {r : Nat} (hr : r < x.rows) (hlen : x.groups * x.read * 512 ≤ data.length) (n : Nat) :
    (x.row data r n).map (matIntVal x.code) = (List.range n).map (slicePattern x data r) := by
  have hplanes : (List.range x.read).map (fun j => ((Side.row.elemsWords data).drop ((r / 64 * x.read + j) * 64)).take 64) =
      (List.range x.read).map (fun j => (List.range 64).map (fun k => ofBytes ((data.drop (((r / 64 * x.read + j) * 64 + k) * 8)).take 8))) := by
    refine List.map_congr_left fun j hj => elemsWords_slice ?_
    have hgroup : (r / 64 + 1) * x.read ≤ x.groups * x.read := Nat.mul_le_mul_right _ (by unfold Side.groups; omega)
    rw [Nat.add_mul] at hgroup
    have := List.mem_range.1 hj
    omega
  rw [Side.row, hplanes, List.map_map]
  rfl

/-! ## A tile pass (spec/12_matrix.md R321-R325, R329) -/

/-- The slot that a job names, and the job's sides on it. -/
def jobAcc (s : State) (o : EngOp) (w : List Word) : Acc := s.accOf o.core (wfld (w.getD 6 0) 32 1)
def jobX (s : State) (o : EngOp) (w : List Word) : Side := (jobSides w (jobAcc s o w)).1
def jobY (s : State) (o : EngOp) (w : List Word) : Side := (jobSides w (jobAcc s o w)).2

/-- What the next pass of a job reads. -/
def passRanges (s : State) (o : EngOp) (w : List Word) : List (Nat × Nat) :=
  (jobX s o w).chunks o.passes ++ (jobX s o w).sliceScales o.passes ++ (jobY s o w).chunks o.passes ++ (jobY s o w).sliceScales o.passes

/-- The rows of an integer side in slice `k`, by value. -/
def Side.intRows (x : Side) (k : Nat) (data : List Byte) : List (List Int) :=
  (List.range x.rows).map (fun r => (x.row data r (min 64 (x.k - 64 * k))).map (matIntVal x.code))

/-- What an integer pass makes of the element at a position. -/
def passElem (x y : Side) (k : Nat) (bs : List Byte) (acc : Acc) (p : Nat × Nat) : Nat :=
  (intStep (acc.elem p.1 p.2) (((x.intRows k (bs.take (x.bytes k))).getD p.1 []).zip
    ((y.intRows k (bs.drop (x.bytes k))).getD p.2 []))).1

/-- A pass of an integer job that has read its slice makes every element of the slot anew. -/
theorem tilePass_int {s u : State} {o : EngOp} {w : List Word} {bs : List Byte}
    (hread : readRanges s o (jobWaits o) (passRanges s o w) = .inr (.bytes u bs)) (hint : matInt (jobX s o w).code = true)
    (hacc : jobAcc u o w = jobAcc s o w) (hecc : (jobAcc s o w).ecc = .sound) :
    ∃ t, tilePass s o w = .ran t ∧ (jobAcc t o w).elems =
      accTable ((jobAcc s o w).cells.map (fun p => (p, passElem (jobX s o w) (jobY s o w) o.passes bs (jobAcc s o w) p))) := by
  simp only [passRanges, jobX, jobY, jobAcc] at hread hint hacc hecc
  rw [tilePass]
  dsimp only
  rw [hread]
  dsimp only
  rw [accEcc, hacc, hecc]
  dsimp only
  rw [if_pos hint]
  refine ⟨_, rfl, ?_⟩
  show ((u.setAcc _ _ _).accOf _ _).elems = _
  rw [State.accOf_setAcc_same]
  dsimp only
  rw [List.map_map]
  rfl

/-- The state in which the arbiter has granted a pass, where it can. -/
def arbitrated (s : State) (cluster : Nat) : State := if (grantedJob s cluster).isSome then s else choosePass s cluster none

theorem choosePass_sameAcc (s : State) (cluster : Nat) (run : Option Nat) : SameAcc s (choosePass s cluster run) := by
  rw [choosePass]
  split <;> exact .of_cores rfl

theorem arbitrated_sameAcc (s : State) (cluster : Nat) : SameAcc s (arbitrated s cluster) :=
  .unless (.refl s) (choosePass_sameAcc ..)

theorem execTilePass_begun {s : State} {cluster : Nat} {o : EngOp} {w : List Word} (hhealthy : (s.die (cluster / 32)).healthy = true)
    (hgrant : grantedJob (arbitrated s cluster) cluster = some o) (hkind : o.kind = .job w) (hbegun : o.begun = true) :
    exec (.tilePass cluster) s = .next (runPass (arbitrated s cluster) cluster o w) := by
  show execTilePass cluster s = _
  rw [arbitrated] at hgrant ⊢
  rw [execTilePass, if_neg (by simp [hhealthy])]
  dsimp only
  rw [hgrant]
  dsimp only
  rw [hkind]
  dsimp only
  rw [if_pos hbegun]

/-- What follows a pass leaves the slots as they are. -/
theorem runPass_sameAcc {s t : State} {cluster : Nat} {o : EngOp} {w : List Word}
    (h : tilePass (choosePass s cluster (some o.op)) o w = .ran t) : SameAcc t (runPass s cluster o w) := by
  rw [runPass, h]
  dsimp only
  split
  · exact .onlyIf (.refl t) (.completeOp ..)
  · exact .refl t

/-- The element at a position after an integer pass: the products of row and column are added, and the sum saturates. -/
theorem passElem_toInt {x y : Side} {k r c : Nat} {bs : List Byte} {acc : Acc} (hr : r < x.rows) (hc : c < y.rows) (hk : x.k = y.k)
    (hlen : bs.length = x.bytes k + y.bytes k) :
    (BitVec.ofNat 32 (passElem x y k bs acc (r, c))).toInt = max (-2 ^ 31) (min (2 ^ 31 - 1) ((BitVec.ofNat 32 (acc.elem r c)).toInt +
      ((List.range (min 64 (x.k - 64 * k))).map (fun i => slicePattern x (bs.take (x.bytes k)) r i *
        slicePattern y (bs.drop (x.bytes k)) c i)).foldl (· + ·) 0)) := by
  have hrow : (x.intRows k (bs.take (x.bytes k))).getD r [] =
      (List.range (min 64 (x.k - 64 * k))).map (slicePattern x (bs.take (x.bytes k)) r) := by
    rw [Side.intRows, List.getD_eq_getElem _ _ (by simpa using hr), List.getElem_map, List.getElem_range]
    exact Side.row_values hr (by rw [List.length_take, hlen]; unfold Side.bytes; omega) _
  have hcol : (y.intRows k (bs.drop (x.bytes k))).getD c [] =
      (List.range (min 64 (x.k - 64 * k))).map (slicePattern y (bs.drop (x.bytes k)) c) := by
    rw [Side.intRows, List.getD_eq_getElem _ _ (by simpa using hc), List.getElem_map, List.getElem_range, hk]
    exact Side.row_values hc (by rw [List.length_drop, hlen]; unfold Side.bytes; omega) _
  rw [passElem, hrow, hcol]
  exact intStep_toInt ..

/-- Settles O35: the first configuration of a core's queue with nothing older on its slot is the one that takes effect, and a pass
makes each element of the slot from the row and the column that it reads. -/
theorem tileEngineRuns : Obligations.TileEngineRuns := by
  unfold Obligations.TileEngineRuns
  refine ⟨?effect, ?pass⟩
  case effect =>
    intro s core o w hmem hcore hkind holder honly
    have hslot : wfld w 20 1 < 2 := wfld_lt w 20 1
    have hasked := LeaveOnly.askAll (configured s core o w)
    have hsame (i : Nat) : (askAll (configured s core o w)).accOf core i =
        (s.setAcc core (wfld w 20 1) ((s.accOf core (wfld w 20 1)).configure w)).accOf core i := hasked.sameAcc.accOf core i
    refine ⟨_, execMcfgEffect_takes hmem hcore hkind holder honly, fun x hx => ?_, by rw [hasked.1]; rfl,
      SameMemory.trans (t := configured s core o w) (.of_fields rfl rfl rfl) hasked.memory, ?_⟩
    · obtain ⟨y, hy, hbare⟩ : ∃ y ∈ (configured s core o w).engine, y.bare = x.bare :=
        List.mem_map.1 (show x.bare ∈ (configured s core o w).bareEngine by rw [← hasked.2]; exact List.mem_map_of_mem hx)
      have hop : y.op = x.op := by
        show y.bare.op = x.bare.op
        rw [hbare]
      rw [← hop]
      exact of_decide_eq_true (List.mem_filter.1 hy).2
    · dsimp only
      rw [hsame, hsame, State.accOf_setAcc_same, State.accOf_setAcc_other s core hslot]
      obtain ⟨hrows, hcols, hint, heffect⟩ := Acc.configure_spec (s.accOf core (wfld w 20 1)) w
      exact ⟨hrows, hcols, hint, rfl, heffect⟩
  case pass =>
    intro s u cluster o w bs hhealthy s0 hgrant hkind hbegun i acc x y n _ hcols hxint _ hread hlen hacc hecc
    let s1 := choosePass s0 cluster (some o.op)
    have hchosen : jobAcc s1 o w = acc :=
      ((arbitrated_sameAcc s cluster).trans (choosePass_sameAcc ..)).accOf o.core i
    have hx : jobX s1 o w = x := by rw [jobX, hchosen]
    have hy : jobY s1 o w = y := by rw [jobY, hchosen]
    obtain ⟨t, hran, helems⟩ := tilePass_int (s := s1) (u := u) (bs := bs) (by rw [passRanges, hx, hy]; exact hread) (by rw [hx]; exact hxint)
      (hacc.trans hchosen.symm) (by rw [hchosen]; exact hecc)
    refine ⟨_, execTilePass_begun hhealthy hgrant hkind hbegun, fun r hr c hc => ?_⟩
    have hafter : (runPass (arbitrated s cluster) cluster o w).accOf o.core i = jobAcc t o w := (runPass_sameAcc hran).accOf ..
    have helem : ((runPass (arbitrated s cluster) cluster o w).accOf o.core i).elem r c = passElem x y o.passes bs acc (r, c) := by
      rw [hafter, Acc.elem, helems, hchosen, hx, hy]
      exact get_accTable_cells hcols (passElem x y o.passes bs acc) hr hc
    dsimp only
    rw [helem]
    exact passElem_toInt hr hc rfl hlen

end Sys2Proof.Machine

namespace Sys2Proof.Machine

open Sys2Proof

/-! ## Pre-images that lie under a drain (spec/07_local_store.md R180-R183, spec/12_matrix.md R326)

The pre-images that a core's pool cannot hold stand in an overflow region.  O38 asks for every item of a drain that the pre-image of its
line has been taken, and lets that pre-image stand in a region anywhere.  A region under the destination is changed by the drain itself:
an item written first can overwrite the name of the line of a later one, which then has no pre-image, and is held where the pool is full
and the region has ended.  An entry is only written inside the context's allotment in die memory, and no run is known to reach the state
below: what the statement lacks is the hypothesis that the overflow regions lie there. -/

/-- The location that names the line of the overflow entry. -/
def undercutName : Nat := localAddr 0 0x3040

/-- A location of the line whose pre-image is the overflow entry. -/
def undercutLoc : Nat := localAddr 0 0x1000

/-- INT8, a stride of 8 bytes, slot 0. -/
def undercutWord : Word := 0x80008

/-- A row of two integer elements of 127. -/
def undercutAcc : Acc :=
  { Acc.reset with rows := 1, cols := 2, int := true, elems := [(0, 127), (1, 127)], twins := [(0, 127), (1, 127)] }

/-- The drain of that row, whose first byte goes to the name in the entry and whose second goes to the named line. -/
def undercutDrain : EngOp :=
  { op := 1, ctx := 0, core := 0, slot := 0, mode := .u, d := 0, id := 0, node := false, preds := [], failed := none,
    kind := .drain 0 undercutWord 1 2, nxt := .plain, leave := .none, asked := 0, begun := false, passes := 0, flags := 0,
    sat := false, writes := none, total := 0, seqno := 0, held := false, stall := none, dead := false,
    targets := [(false, undercutName, 1), (false, undercutLoc, 1)] }

/-- The overflow region of the holding launch on core 0 is full and lies in the core's own local store: one entry at 0x3000, for the
line at 0x1000.  The pool is full of pre-images of the line at 0x3040. -/
def undercut : State :=
  { State.reset with
    mem := [(undercutName + 1, 0x10)],
    cores := [(0, { Core.reset with
      acc := Vector.replicate 2 undercutAcc,
      pool := List.replicate 256 { line := 0x3040, writer := 0, data := 0 },
      ovf := #v[{ vovf := word (localAddr 0 0x3080), vovend := 0, base := word (localAddr 0 0x3000) }, Overflow.zero, Overflow.zero] })],
    engine := [undercutDrain] }

/-- What the drain has to write. -/
def undercutItems : List (Bool × Nat × List Byte) := [(false, undercutName, [127]), (false, undercutLoc, [127])]

theorem undercut_mayWrite : MayWrite undercut undercutDrain undercutItems :=
  ⟨rfl, by decide, fun _ => rfl, by decide, by decide, by unfold Unleased; decide +kernel⟩

theorem undercut_held : ∃ t, exec (.drainRun 0) undercut = .next t ∧ t.readN undercutLoc 1 = [0] :=
  ⟨_, rfl, by decide +kernel⟩

theorem undercut_items :
    let acc := undercut.accOf undercutDrain.core (wfld undercutWord 0 1)
    cutTargets undercutDrain.targets ((acc.cells.map (fun p => drainConvert acc.int undercutWord (acc.elem p.1 p.2))).flatMap
      (fun v => bytesOf (drainSize undercutWord) v.1)) = undercutItems := by
  decide +kernel

/-- Refutes O38: in `undercut` the first byte of the drain overwrites the name of the line of the second, which is held. -/
theorem not_drainsAndRecalls : ¬ Obligations.DrainsAndRecalls := by
  unfold Obligations.DrainsAndRecalls
  rintro ⟨hdrain, -⟩
  obtain ⟨t, hexec, ⟨hlanded, -⟩, -⟩ := hdrain undercut undercutDrain 0 undercutWord rfl rfl (by decide +kernel) rfl rfl rfl rfl
    (fun _ _ => rfl) (by decide) (undercut_items ▸ undercut_mayWrite)
  obtain ⟨u, hu, hread⟩ := undercut_held
  cases hexec.symm.trans hu
  have hsecond := hlanded (false, undercutLoc, [127]) (by rw [undercut_items]; decide)
  exact absurd (hread.symm.trans hsecond) (by decide)

end Sys2Proof.Machine
